-- ==== Sys2Proof/Word.lean ====
section
/-! DEFINITION. The words of the machine: 64-bit instruction words and scalar registers (R175, R177), bytes,
128 B lines read as little-endian 1,024-bit integers (R28), and the type of sparse data keyed by number. -/
namespace Sys2Proof

/-- An instruction word, a clause header or a scalar register (R171, R175, R177). -/
abbrev Word := BitVec 64

/-- One byte. -/
abbrev Byte := BitVec 8

/-- A 128 B line, read as a little-endian 1,024-bit integer (R28): byte `i` is bits `8i+7:8i`. -/
abbrev Line := BitVec 1024

/-- Sparse data keyed by a number: pairs in rising order of key, none equal to what an unlisted key reads as.
The operations stand in `Sys2Proof/Machine/Store.lean`. -/
abbrev SMap (α : Type) := List (Nat × α)

/-- Bytes keyed by address or offset; an unlisted one reads 0 (R32, R324). -/
abbrev Memory := SMap Byte

end Sys2Proof
end

