-- ==== Sys2Proof/Machine/Store.lean ====
section
/-! DEFINITION. The named operations over sparse data (`SMap`), bytes, lines and bit fields. Sparse data stands in one
canonical form: keys strictly rising, no value equal to what an unlisted key reads as. -/
namespace Sys2Proof

/-- What key `k` reads as; `d` is what an unlisted key reads as. -/
def SMap.get {α : Type} (d : α) (m : SMap α) (k : Nat) : α :=
  match m with
  | [] => d
  | (j, v) :: r => if j = k then v else SMap.get d r k

/-- Whether key `k` is listed, and its value. -/
def SMap.find {α : Type} (m : SMap α) (k : Nat) : Option α :=
  match m with
  | [] => none
  | (j, v) :: r => if j = k then some v else SMap.find r k

/-- Lists `v` at key `k`, in place. -/
def SMap.insert {α : Type} (m : SMap α) (k : Nat) (v : α) : SMap α :=
  match m with
  | [] => [(k, v)]
  | (j, w) :: r => if k < j then (k, v) :: (j, w) :: r else if j = k then (k, v) :: r else (j, w) :: SMap.insert r k v

/-- Unlists key `k`. -/
def SMap.erase {α : Type} (m : SMap α) (k : Nat) : SMap α := m.filter fun e => e.1 ≠ k

/-- Writes key `k`: the value an unlisted key reads as is not listed. -/
def SMap.put {α : Type} [DecidableEq α] (d : α) (m : SMap α) (k : Nat) (v : α) : SMap α :=
  if v = d then SMap.erase m k else SMap.insert m k v

/-- Every key of `m` lies above `k`. -/
def SMap.above {α : Type} (k : Nat) (m : SMap α) : Bool := m.all fun e => k < e.1

/-- The canonical form. -/
def SMap.wf {α : Type} [DecidableEq α] (d : α) : SMap α → Bool
  | [] => true
  | (j, v) :: r => decide (v ≠ d) && SMap.above j r && SMap.wf d r

/-- Unlists every key for which `p` holds. -/
def SMap.drop {α : Type} (p : Nat → Bool) (m : SMap α) : SMap α := m.filter fun e => !p e.1

/-- The canonical form of a memory: an unlisted byte reads 0 (R32, R324). -/
def Memory.wf (m : Memory) : Bool := SMap.wf (0 : Byte) m

/-- One byte of a memory. -/
def Memory.byte (m : Memory) (a : Nat) : Byte := SMap.get 0 m a

/-- Writes one byte of a memory. -/
def Memory.setByte (m : Memory) (a : Nat) (b : Byte) : Memory := SMap.put 0 m a b

/-- `n` bytes from address `a` upward. -/
def Memory.bytes (m : Memory) (a : Nat) : Nat → List Byte
  | 0 => []
  | n + 1 => Memory.byte m a :: Memory.bytes m (a + 1) n

/-- Writes a list of bytes from address `a` upward. -/
def Memory.setBytes (m : Memory) (a : Nat) : List Byte → Memory
  | [] => m
  | b :: r => Memory.setBytes (Memory.setByte m a b) (a + 1) r

/-- Unlists the bytes from `a` to `a + n - 1`: they read 0. -/
def Memory.clear (m : Memory) (a n : Nat) : Memory := SMap.drop (fun k => a ≤ k && k < a + n) m

namespace Machine

/-- A list of bytes as a number, the first byte the least significant (R5). -/
def natOfBytes : List Byte → Nat
  | [] => 0
  | b :: r => b.toNat + 256 * natOfBytes r

/-- The `n` bytes of a number, the least significant first (R5). -/
def bytesOfNat : Nat → Nat → List Byte
  | 0, _ => []
  | n + 1, x => BitVec.ofNat 8 x :: bytesOfNat n (x / 256)

/-- Bits `lo + n - 1 : lo` of a number. -/
def fld (x lo n : Nat) : Nat := x >>> lo % 2 ^ n

/-- Field of a 64-bit register. -/
def wfld (w : Word) (lo n : Nat) : Nat := (w.extractLsb' lo n).toNat

/-- Mask of `n` bits from bit `lo`. -/
def wmask (lo n : Nat) : Word := BitVec.ofNat 64 ((2 ^ n - 1) <<< lo)

/-- `w` with its field of `n` bits at `lo` replaced. -/
def wset (w : Word) (lo n v : Nat) : Word :=
  (w &&& ~~~wmask lo n) ||| (BitVec.ofNat 64 ((v % 2 ^ n) <<< lo))

/-- Bit `i` of a mask. -/
def bitAt {n : Nat} (x : BitVec n) (i : Nat) : Bool := x.getLsbD i

/-- Lanes of a mask, lowest first. -/
def lanesOf (g : BitVec 64) : List Nat := (List.range 64).filter fun l => g.getLsbD l

/-- The mask of a list of lanes. -/
def maskOf (l : List Nat) : BitVec 64 := l.foldl (fun m i => m ||| (1#64 <<< i)) 0

/-- Byte `i` of a line. -/
def lineByte (x : Line) (i : Nat) : Byte := x.extractLsb' (8 * i) 8

/-- Line of bytes `bytes` placed at byte `i` (zero elsewhere). -/
def lineOf (i : Nat) (bytes : List Byte) : Line := BitVec.ofNat 1024 (natOfBytes bytes <<< (8 * i))

/-- Bit mask of `n` bytes from byte `i` of a line. -/
def lineMask (i n : Nat) : Line := BitVec.ofNat 1024 ((2 ^ (8 * n) - 1) <<< (8 * i))

/-- Bit mask of `n` bits from bit `b` of a line. -/
def lineBits (b n : Nat) : Line := BitVec.ofNat 1024 ((2 ^ n - 1) <<< b)

/-- Writes the masked bits of `d` into `x`. -/
def lineMerge (x mask d : Line) : Line := (x &&& ~~~mask) ||| (d &&& mask)

/-- Read a signed number from the low `n` bits of `x`. -/
def signed (n x : Nat) : Int :=
  let y := x % 2 ^ n
  if 2 * y ≥ 2 ^ n ∧ 0 < n then (y : Int) - 2 ^ n else y

/-- A list of keys comes before another: the first that differs decides. -/
def keysLess : List Nat → List Nat → Bool
  | a :: r, b :: q => a < b || (a = b && keysLess r q)
  | _, _ => false

/-- The element whose keys come before all others', the first of equal ones. -/
def firstBy {α : Type} (keys : α → List Nat) : List α → Option α
  | [] => none
  | a :: r =>
    match firstBy keys r with
    | none => some a
    | some b => if keysLess (keys b) (keys a) then some b else some a

/-- Least element by a key, or none. -/
def minBy {α : Type} (key : α → Nat) : List α → Option α
  | [] => none
  | a :: r =>
    match minBy key r with
    | none => some a
    | some b => if key b < key a then some b else some a

/-- The minimum of a list of numbers, or `d`. -/
def minOr (d : Nat) (l : List Nat) : Nat :=
  match l with
  | [] => d
  | a :: r => r.foldl min a

/-- No repeats, first occurrences kept. -/
def dedup {α : Type} [DecidableEq α] (l : List α) : List α :=
  l.foldl (fun acc x => if acc.contains x then acc else acc ++ [x]) []

/-- `x` is listed, once. -/
def addNew {α : Type} [DecidableEq α] (x : α) (l : List α) : List α := if l.contains x then l else l ++ [x]

/-- ceil(a / b). -/
def cdiv (a b : Nat) : Nat := (a + b - 1) / b

end Machine
end Sys2Proof
end

