-- ==== Sys2Proof/Machine/Num.lean ====
section
/-! DEFINITION. Number formats (R132 to R144): the exact value of an element, and rounding of an exact value to an
element of a format. An exact value is a rational or one of the special cases. -/
namespace Sys2Proof.Machine

/-- The exact value of an element: `num neg n d` is ±n/d with n and d positive. -/
inductive Val where
  | nan
  | inf (neg : Bool)
  | zero (neg : Bool)
  | num (neg : Bool) (n d : Nat)
  deriving DecidableEq, Repr

/-- Rounding modes (R142). -/
inductive RMode where
  | rne | rz | rdn | rup
  deriving DecidableEq, Repr

def modeOf (n : Nat) : RMode :=
  match n % 4 with
  | 0 => .rne
  | 1 => .rz
  | 2 => .rdn
  | _ => .rup

/-- Field widths and special codes of a binary float format (R133, R137). -/
structure FFmt where
  e    : Nat
  f    : Nat
  bias : Nat
  top  : Nat              -- largest finite code
  inf  : Option Nat
  nan  : Option Nat       -- canonical
  deriving DecidableEq, Repr

def FFmt.width (m : FFmt) : Nat := 1 + m.e + m.f

def f16F : FFmt := ⟨5, 10, 15, 0x7BFF, some 0x7C00, some 0x7E00⟩
def bf16F : FFmt := ⟨8, 7, 127, 0x7F7F, some 0x7F80, some 0x7FC0⟩
def f32F : FFmt := ⟨8, 23, 127, 0x7F7FFFFF, some 0x7F800000, some 0x7FC00000⟩
def f64F : FFmt := ⟨11, 52, 1023, 0x7FEFFFFFFFFFFFFF, some 0x7FF0000000000000, some 0x7FF8000000000000⟩
def e4m3F : FFmt := ⟨4, 3, 7, 0x7E, none, some 0x7F⟩
def e5m2F : FFmt := ⟨5, 2, 15, 0x7B, some 0x7C, some 0x7E⟩
def e3m2F : FFmt := ⟨3, 2, 3, 0x1F, none, none⟩
def e2m3F : FFmt := ⟨2, 3, 1, 0x1F, none, none⟩
def e2m1F : FFmt := ⟨2, 1, 1, 0x7, none, none⟩

/-- n·2^k as a positive value, or zero. -/
def mkVal (neg : Bool) (n : Nat) (k : Int) : Val :=
  if n = 0 then .zero neg
  else if 0 ≤ k then .num neg (n <<< k.toNat) 1 else .num neg n (1 <<< (-k).toNat)

/-- The value of a float code (R133, R137). -/
def FFmt.decode (m : FFmt) (x : Nat) : Val :=
  let neg : Bool := fld x (m.e + m.f) 1 = 1
  let mag := fld x 0 (m.e + m.f)
  let ex := fld x m.f m.e
  let fr := fld x 0 m.f
  if m.top < mag then (if m.inf = some mag then .inf neg else .nan)
  else if ex = 0 then mkVal neg fr (1 - (m.bias : Int) - m.f)
  else mkVal neg (2 ^ m.f + fr) ((ex : Int) - m.bias - m.f)

/-- floor(log2(n/d)) of a positive rational. -/
def ilog2 (n d : Nat) : Int :=
  let k : Int := (Nat.log2 n : Int) - Nat.log2 d
  -- 2^k ≤ n/d, or k is one too large
  let le : Bool := if 0 ≤ k then d <<< k.toNat ≤ n else d ≤ n <<< (-k).toNat
  if le then k else k - 1

/-- The quotient n/(d·2^k) and the remainder against its denominator. -/
def scaledDiv (n d : Nat) (k : Int) : Nat × Nat × Nat :=
  let a := if 0 ≤ k then n else n <<< (-k).toNat
  let b := if 0 ≤ k then d <<< k.toNat else d
  (a / b, a % b, b)

/-- Whether a magnitude `q + r/b` rounds up to `q + 1` (R142): ties to the even `q`. -/
def roundUp (mode : RMode) (neg : Bool) (q r b : Nat) : Bool :=
  match mode with
  | .rne => b < 2 * r || (2 * r = b && q % 2 = 1)
  | .rz => false
  | .rdn => neg && r ≠ 0
  | .rup => !neg && r ≠ 0

/-- Magnitude code of a positive rational rounded to a float format, its range not yet applied. -/
def FFmt.roundMag (m : FFmt) (mode : RMode) (neg : Bool) (n d : Nat) : Nat :=
  let emin : Int := 1 - m.bias
  let e := max (ilog2 n d) emin
  let (q, r, b) := scaledDiv n d (e - m.f)
  ((e - emin).toNat <<< m.f) + (if roundUp mode neg q r b then q + 1 else q)

def FFmt.sign (m : FFmt) (neg : Bool) (mag : Nat) : Nat := mag + (if neg then 2 ^ (m.e + m.f) else 0)

/-- A magnitude beyond the largest finite code: saturated, or by IEEE 754 where `inf` is asked for (R143). -/
def FFmt.overflow (m : FFmt) (mode : RMode) (neg ieee : Bool) : Nat :=
  match m.inf with
  | none => m.top
  | some i =>
    if !ieee then m.top
    else match mode with
      | .rne => i
      | .rz => m.top
      | .rdn => if neg then i else m.top
      | .rup => if neg then m.top else i

/-- Conversion of an exact value to a float format (R143). A format without a NaN takes +0 for it. -/
def FFmt.encode (m : FFmt) (mode : RMode) (ieee : Bool) (v : Val) : Nat :=
  match v with
  | .nan => m.nan.getD 0
  | .inf neg => m.sign neg (if ieee then m.inf.getD m.top else m.top)
  | .zero neg => m.sign neg 0
  | .num neg n d =>
    let c := m.roundMag mode neg n d
    m.sign neg (if m.top < c then m.overflow mode neg ieee else c)

/-! Grain formats (R135, R143). -/

/-- Length of the leading run of bits equal to `lead`, from bit `i - 1` downward. -/
def leadRun (m lead : Nat) : Nat → Nat
  | 0 => 0
  | i + 1 => if m / 2 ^ i % 2 = lead then 1 + leadRun m lead i else 0

/-- Value of a positive grain code as (significand, exponent of two). -/
def grainPos (n m : Nat) : Nat × Int :=
  let lead := m / 2 ^ (n - 2) % 2
  let run := leadRun m lead (n - 1)
  let k : Int := if lead = 1 then (run : Int) - 1 else -(run : Int)
  let rest := n - 1 - run - 1                       -- bits after the run and its end
  let e := if rest = 0 then 0 else m / 2 ^ (rest - 1) % 2
  let fw := rest - 1
  let fb := m % 2 ^ fw
  (2 ^ fw + fb, 2 * k + e - fw)

def grainDecode (n x : Nat) : Val :=
  let y := x % 2 ^ n
  if y = 0 then .zero false
  else if y = 2 ^ (n - 1) then .nan
  else
    let neg : Bool := 2 ^ (n - 1) ≤ y
    let (s, k) := grainPos n (if neg then 2 ^ n - y else y)
    mkVal neg s k

/-- Compares n/d with s·2^k: less or equal. -/
def leScaled (n d s : Nat) (k : Int) : Bool :=
  if 0 ≤ k then n ≤ (s <<< k.toNat) * d else n <<< (-k).toNat ≤ s * d

/-- Largest positive code below `top + 1` whose value is at most n/d, or 1. -/
def grainFloor (n : Nat) (a d : Nat) : Nat → Nat
  | 0 => 1
  | t + 1 =>
    let (s, k) := grainPos n (t + 1)
    -- value(t+1) ≤ a/d
    let le : Bool := if 0 ≤ k then (s <<< k.toNat) * d ≤ a else s * d ≤ a <<< (-k).toNat
    if le then t + 1 else grainFloor n a d t

def grainMag (n : Nat) (mode : RMode) (neg : Bool) (a d : Nat) : Nat :=
  let top := 2 ^ (n - 1) - 1
  let c := grainFloor n a d top
  let (s0, k0) := grainPos n c
  let exact : Bool := leScaled a d s0 k0     -- a/d ≤ value(c)
  if c = top ∨ exact then c
  else
    let (s1, k1) := grainPos n (c + 1)
    match mode with
    | .rz => c
    | .rdn => if neg then c + 1 else c
    | .rup => if neg then c else c + 1
    | .rne =>
      -- 2·a/d against the sum of the two neighbours, over a common scale
      let k := min k0 k1
      let sum := (s0 <<< (k0 - k).toNat) + (s1 <<< (k1 - k).toNat)
      let lhs := if 0 ≤ k then 2 * a else (2 * a) <<< (-k).toNat
      let rhs := if 0 ≤ k then (sum <<< k.toNat) * d else sum * d
      if lhs < rhs then c else if rhs < lhs then c + 1 else if c % 2 = 0 then c else c + 1

def grainEncode (n : Nat) (mode : RMode) (v : Val) : Nat :=
  let put (neg : Bool) (m : Nat) : Nat := if neg then 2 ^ n - m else m
  match v with
  | .nan => 2 ^ (n - 1)
  | .zero _ => 0
  | .inf neg => put neg (2 ^ (n - 1) - 1)
  | .num neg a d => put neg (grainMag n mode neg a d)

/-! Integers (R132, R144). -/

/-- Rounds a value to an integer by the mode; none for NaN; infinities answer their sign. -/
def Val.toInt (mode : RMode) (v : Val) : Int :=
  match v with
  | .num neg n d =>
    let (q, r, b) := (n / d, n % d, d)
    let m := if roundUp mode neg q r b then q + 1 else q
    if neg then -(m : Int) else m
  | _ => 0

/-- Saturates to the bounds of an integer type (R143, R144). -/
def satInt (lo hi : Int) (mode : RMode) (v : Val) : Int :=
  match v with
  | .inf neg => if neg then lo else hi
  | _ => max lo (min hi (v.toInt mode))

/-- Two's complement code of `n` bits. -/
def intCode (n : Nat) (x : Int) : Nat := (x % (2 ^ n : Nat)).toNat

def ofInt (x : Int) : Val := if x = 0 then .zero false else .num (x < 0) x.natAbs 1

/-- MXINT8 element: the grid i·2^-6, i from -127 to 127 (R137, R144). -/
def mxint8Encode (mode : RMode) (v : Val) : Nat :=
  let w : Val := match v with
    | .num neg n d => .num neg (64 * n) d
    | x => x
  intCode 8 (satInt (-127) 127 mode w)

def mxint8Decode (x : Nat) : Val := match signed 8 x with
  | i => if i = 0 then .zero false else mkVal (i < 0) i.natAbs (-6)

/-- n/d·2^k. -/
def Val.scale (v : Val) (k : Int) : Val :=
  match v with
  | .num neg n d => if 0 ≤ k then .num neg (n <<< k.toNat) d else .num neg n (d <<< (-k).toNat)
  | x => x

/-- The scale of an E8M0 byte as an exponent; none for NaN (R138). -/
def e8m0 (s : Nat) : Option Int := if s = 255 then none else some ((s : Int) - 127)

/-- A decoded element times its block scale (R138). -/
def Val.withScale (v : Val) (s : Nat) : Val :=
  match e8m0 s with
  | none => .nan
  | some k => v.scale k

/-! Exact arithmetic. -/

def Val.neg? : Val → Bool
  | .nan => false
  | .inf n | .zero n | .num n _ _ => n

def Val.negate : Val → Val
  | .nan => .nan
  | .inf n => .inf !n
  | .zero n => .zero !n
  | .num n a d => .num (!n) a d

def Val.absV : Val → Val
  | .nan => .nan
  | .inf _ => .inf false
  | .zero _ => .zero false
  | .num _ a d => .num false a d

/-- A quotient of an integer by a positive number as a value; `zneg` is the sign of an exact zero. -/
def ratVal (a : Int) (d : Nat) (zneg : Bool) : Val :=
  if a = 0 then .zero zneg else .num (a < 0) a.natAbs d

/-- The exact sum; an exact zero sum of nonzero or unlike-signed terms has sign `zneg` (R234). -/
def Val.add (zneg : Bool) (x y : Val) : Val :=
  match x, y with
  | .nan, _ | _, .nan => .nan
  | .inf a, .inf b => if a = b then .inf a else .nan
  | .inf a, _ => .inf a
  | _, .inf b => .inf b
  | .zero a, .zero b => if a = b then .zero a else .zero zneg
  | .zero _, y => y
  | x, .zero _ => x
  | .num a n d, .num b m e =>
    let s (neg : Bool) (k : Nat) : Int := if neg then -(k : Int) else k
    ratVal (s a n * e + s b m * d) (d * e) zneg

/-- The exact product. -/
def Val.mul (x y : Val) : Val :=
  match x, y with
  | .nan, _ | _, .nan => .nan
  | .inf _, .zero _ | .zero _, .inf _ => .nan
  | .inf a, y => .inf (a != y.neg?)
  | x, .inf b => .inf (x.neg? != b)
  | .zero a, y => .zero (a != y.neg?)
  | x, .zero b => .zero (x.neg? != b)
  | .num a n d, .num b m e => .num (a != b) (n * m) (d * e)

/-- The exact quotient; a nonzero finite value over zero is infinite. -/
def Val.div (x y : Val) : Val :=
  match x, y with
  | .nan, _ | _, .nan => .nan
  | .inf _, .inf _ | .zero _, .zero _ => .nan
  | .inf a, y => .inf (a != y.neg?)
  | x, .inf b => .zero (x.neg? != b)
  | .zero a, y => .zero (a != y.neg?)
  | x, .zero b => .inf (x.neg? != b)
  | .num a n d, .num b m e => .num (a != b) (n * e) (d * m)

/-- Order of two values that are not NaN. -/
def Val.lt (x y : Val) : Bool :=
  match x, y with
  | .nan, _ | _, .nan => false
  | .inf a, .inf b => a && !b
  | .inf a, _ => a
  | _, .inf b => !b
  | .zero _, .zero _ => false
  | .zero _, .num b _ _ => !b
  | .num a _ _, .zero _ => a
  | .num a n d, .num b m e =>
    if a && !b then true
    else if !a && b then false
    else if a then m * d < n * e else n * e < m * d

def Val.eqv (x y : Val) : Bool := x ≠ .nan && y ≠ .nan && !x.lt y && !y.lt x

def Val.isNan : Val → Bool
  | .nan => true
  | _ => false

end Sys2Proof.Machine
end

