-- ==== Sys2Proof/Machine/Real.lean ====
section
/-! DEFINITION. Bounds of exp and ln by integer arithmetic, and the rounding they decide. A number at precision P is an
integer in units of 2^-P; every function answers a lower and an upper bound of the exact value, and a rounding is taken
where both bounds round alike, at the first precision of a fixed list that decides it. -/
namespace Sys2Proof.Machine

/-- Terms of Σ z^(2i+1)/(2i+1), each rounded down: the sum and the last power. `t` is z^(2i+1), `z2` is z². -/
def atanhTerms (p z2 : Nat) : Nat → Nat → Nat → Nat → Nat × Nat
  | 0, t, _, acc => (acc, t)
  | n + 1, t, i, acc => atanhTerms p z2 n ((t * z2) >>> p) (i + 2) (acc + t / i)

/-- Bounds of 2·atanh(a/b) for 0 ≤ a/b ≤ 1/3. -/
def atanh2 (p a b : Nat) : Nat × Nat :=
  let n := p / 3 + 4
  let z := (a <<< p) / b
  let (acc, t) := atanhTerms p ((z * z) >>> p) n z 1 0
  (2 * acc, 2 * (acc + t + 5 * n + 5))

def ln2B (p : Nat) : Nat × Nat := atanh2 p 1 3

/-- Bounds of ln(n/d), n and d positive. -/
def lnB (p n d : Nat) : Int × Int :=
  let e0 := ilog2 n d
  let scale (e : Int) : Nat × Nat := if 0 ≤ e then (n, d <<< e.toNat) else (n <<< (-e).toNat, d)
  let (a0, b0) := scale e0
  let e := if 4 * b0 < 3 * a0 then e0 + 1 else e0
  let (a, b) := scale e
  let (l2, h2) := ln2B p
  let (lo, hi) : Int × Int :=
    if b ≤ a then
      let (x, y) := atanh2 p (a - b) (a + b)
      ((x : Int), (y : Int))
    else
      let (x, y) := atanh2 p (b - a) (a + b)
      (-(y : Int), -(x : Int))
  (lo + min (e * l2) (e * h2), hi + max (e * l2) (e * h2))

/-- Taylor terms of exp, each rounded down. -/
def expTerms (p r : Nat) : Nat → Nat → Nat → Nat → Nat × Nat
  | 0, t, _, acc => (acc, t)
  | n + 1, t, i, acc => expTerms p r n (t * r / (i <<< p)) (i + 1) (acc + t)

/-- Bounds of exp(x) for lo ≤ x ≤ hi: two significands and a power of two. -/
def expB (p : Nat) (lo hi : Int) : Nat × Nat × Int :=
  let (l2, h2) := ln2B p
  let k : Int := if 0 ≤ lo then lo / h2 else -((-lo) / (l2 : Int)) - 1
  let rl := (lo - max (k * l2) (k * h2)).toNat
  let rh := (hi - min (k * l2) (k * h2)).toNat
  let n := p / 3 + 10
  let (a, _) := expTerms p rl n (1 <<< p) 1 0
  let (b, t) := expTerms p rh n (1 <<< p) 1 0
  (a, b + 2 * t + 3 * n + 4, k - p)

/-- Rounds n·2^k, n positive, to an integer by the mode. -/
def rndPow (mode : RMode) (n : Nat) (k : Int) : Nat :=
  if 0 ≤ k then n <<< k.toNat
  else
    let b := 1 <<< (-k).toNat
    let q := n / b
    if roundUp mode false q (n % b) b then q + 1 else q

/-- Rounds an integer in units of 2^-p to one in units of 2^-f by the mode, as a signed number (ties to even). -/
def rndFix (mode : RMode) (p f : Nat) (x : Int) : Int :=
  let b : Int := 2 ^ (p - f)
  let q := x / b
  let r := (x % b).toNat
  match mode with
  | .rne => if b.toNat < 2 * r || (2 * r = b.toNat && q % 2 = 1) then q + 1 else q
  | .rz | .rdn => q
  | .rup => if r = 0 then q else q + 1

/-- The precisions tried in turn. -/
def precisions : List Nat := [96, 192, 384, 768, 1536, 3072]

/-- The first precision at which both bounds agree; the last lower bound otherwise (no argument reaches that, since an
irrational value lies on no rounding boundary; log 10). -/
def decideBy {α : Type} [DecidableEq α] (f : Nat → α × α) : List Nat → α
  | [] => (f 4096).1
  | p :: r =>
    let (a, b) := f p
    if a = b then a else decideBy f r

/-- exp of x/2^w, rounded to a multiple of 2^-w (nearest, ties to even). -/
def expFx (w : Nat) (x : Int) : Nat :=
  if x = 0 then 1 <<< w
  else
    decideBy (fun p =>
      let (a, b, k) := expB (p + w) (x <<< p) (x <<< p)
      (rndPow .rne a (k + w), rndPow .rne b (k + w))) precisions

/-- ln of n/d in multiples of 2^-w (nearest, ties to even). -/
def lnFx (w n d : Nat) : Int :=
  if n = d then 0
  else
    decideBy (fun p =>
      let (a, b) := lnB (p + w) n d
      (rndFix .rne (p + w) w a, rndFix .rne (p + w) w b)) precisions

end Sys2Proof.Machine
end

