-- ==== Sys2Proof/Machine/Sli.lean ====
section
/-! DEFINITION. Symmetric level-index arithmetic (R146 to R154): codes, the reference recurrence, the four operations
with their flags, and conversions into and out of SLI. An fx value is an integer in units of 2^-w. -/
namespace Sys2Proof.Machine

/-- Fraction width and fixed-point width of an SLI format (R146, R149). -/
structure SFmt where
  f : Nat
  w : Nat
  deriving DecidableEq, Repr

def sli32F : SFmt := ⟨27, 40⟩
def sli16F : SFmt := ⟨11, 24⟩

/-- Bits of the magnitude code. -/
def SFmt.mbits (m : SFmt) : Nat := m.f + 4
def SFmt.nanMag (m : SFmt) : Nat := 2 ^ m.mbits - 1
def SFmt.maxMag (m : SFmt) : Nat := 2 ^ m.mbits - 2

def fxOne (w : Nat) : Int := 2 ^ w

def fxEXP (w : Nat) (x : Int) : Int :=
  if 5 * fxOne w ≤ x then 64 * fxOne w
  else min (64 * fxOne w) (expFx w (max x (-(64 * fxOne w))))

/-- LN, called with a positive argument. -/
def fxLN (w : Nat) (x : Int) : Int := lnFx w x.toNat (2 ^ w)

def fxMUL (w : Nat) (x y : Int) : Int := rndFix .rne (2 * w) w (x * y)

def fxDIV (w : Nat) (x y : Int) : Int :=
  if x = 0 then 0
  else if y = 0 then (if x < 0 then -(64 * fxOne w) else 64 * fxOne w)
  else
    let neg : Bool := (x < 0) != (y < 0)
    let n := x.natAbs <<< w
    let d := y.natAbs
    let m := min (64 * 2 ^ w) (if roundUp .rne false (n / d) (n % d) d then n / d + 1 else n / d)
    if neg then -(m : Int) else m

def fxFloor (w : Nat) (x : Int) : Nat := (x / fxOne w).toNat

/-- phi_fx, of x ≥ 0 (R149). -/
def phiFx (w : Nat) (x : Int) : Int :=
  let k := fxFloor w x
  (List.range k).foldl (fun v _ => fxEXP w v) (x - k * fxOne w)

/-- phinv_fx, of v ≥ 0, at most 64 (R149). -/
def phinvFx (w : Nat) : Nat → Int → Int
  | 0, v => v
  | n + 1, v => if fxOne w ≤ v then fxOne w + phinvFx w n (fxLN w v) else v

/-- The list a[0] … a[l-1] of R150, grown from its last element. -/
def liA (w : Nat) (last : Int) : Nat → List Int
  | 0 => [last]
  | n + 1 =>
    match liA w last n with
    | a :: r => fxEXP w (-(fxDIV w (fxOne w) a)) :: a :: r
    | [] => []

/-- b := EXP(DIV(b - 1, a[j])) for j from n down to 1. -/
def liB (w : Nat) (a : List Int) : Nat → Int → Int
  | 0, b => b
  | n + 1, b => liB w a n (fxEXP w (fxDIV w (b - fxOne w) (a.getD (n + 1) 0)))

/-- The last loop of R150: the answer where it returns, or c. -/
def liC (w : Nat) (a : List Int) : List Nat → Int → Except Int Int
  | [], c => .ok c
  | j :: r, c =>
    let aj := a.getD j 0
    let c1 := if 0 < j then fxOne w + fxMUL w aj (fxLN w c) else c
    if c1 ≤ 0 then .error (j * fxOne w)
    else if c1 < aj then .error (j * fxOne w + fxDIV w c1 aj)
    else liC w a r c1

/-- `liadd` of R150, for p ≥ q ≥ 0. -/
def liadd (w : Nat) (p q : Int) (sub : Bool) : Int :=
  let one := fxOne w
  if q = 0 then p
  else if sub && p = q then 0
  else if p < one then
    let s := if sub then p - q else p + q
    if s < one then s else one + fxLN w s
  else
    let l := fxFloor w p
    let fp := p - l * one
    let a := liA w (fxEXP w (-fp)) (l - 1)
    let b := if p = q then one
      else if q < one then fxMUL w q (a.getD 0 0)
      else
        let m := fxFloor w q
        liB w a (m - 1) (fxMUL w (fxEXP w (q - m * one)) (a.getD (m - 1) 0))
    match liC w a (List.range l) (if sub then one - b else one + b) with
    | .error r => r
    | .ok c =>
      let h := max 0 (fp + fxLN w c)
      if h < one then l * one + h else (l + 1) * one + fxLN w h

/-- A log value: sign and index (R151). -/
def logsum (w : Nat) (s1 : Bool) (x1 : Int) (s2 : Bool) (x2 : Int) : Bool × Int :=
  if x1 < x2 then (s2, liadd w x2 x1 (s1 != s2)) else (s1, liadd w x1 x2 (s1 != s2))

/-- Index of a magnitude code, in fx (R146, R149). -/
def SFmt.index (m : SFmt) (mag : Nat) : Int := ((mag : Int) - 2 ^ (m.f + 3)) * 2 ^ (m.w - m.f)

/-- Level of an index in units of 2^-f (R148). -/
def SFmt.level (m : SFmt) (mag : Nat) : Nat :=
  if mag = 0 ∨ mag = m.nanMag then 1
  else min 8 (1 + ((mag : Int) - 2 ^ (m.f + 3)).natAbs / 2 ^ m.f)

/-- Sticky flags (R154): up, down, sat, cancel, nan. -/
def slUp : BitVec 5 := 1
def slDown : BitVec 5 := 2
def slSat : BitVec 5 := 4
def slCancel : BitVec 5 := 8
def slNan : BitVec 5 := 16

/-- Packing of an index (R153): the magnitude code and whether it saturated. -/
def SFmt.pack (m : SFmt) (uz : Int) : Nat × Bool :=
  let k := rndFix .rne m.w m.f uz
  let M := (2 ^ (m.f + 3) : Int) + k
  if (m.nanMag : Int) ≤ M then (m.maxMag, true)
  else if M ≤ 0 then (1, true)
  else (M.toNat, false)

def SFmt.code (m : SFmt) (neg : Bool) (mag : Nat) : Nat := mag + (if neg then 2 ^ m.mbits else 0)

inductive SlOp where
  | add | sub | mul | div
  deriving DecidableEq, Repr

/-- Flags of the four operations (R154): levels against both operands, level 6 or above or saturation. -/
def SFmt.flags (m : SFmt) (ma mb mz : Nat) (sat cancel : Bool) : BitVec 5 :=
  let la := m.level ma
  let lb := m.level mb
  let lz := m.level mz
  (if la < lz ∧ lb < lz then slUp else 0) ||| (if lz < la ∧ lz < lb then slDown else 0)
    ||| (if sat ∨ 6 ≤ lz then slSat else 0) ||| (if cancel then slCancel else 0)

/-- The four operations (R151 to R154): result code and flags set. -/
def slOp (m : SFmt) (op : SlOp) (a b : Nat) : Nat × BitVec 5 :=
  let ma := fld a 0 m.mbits
  let mb := fld b 0 m.mbits
  -- sign 1 with magnitude 0 is read as +0 (R146)
  let sa : Bool := fld a m.mbits 1 = 1 && ma ≠ 0
  let sb : Bool := (fld b m.mbits 1 = 1 && mb ≠ 0)
  let additive : Bool := op = .add || op = .sub
  if ma = m.nanMag ∨ mb = m.nanMag then (m.nanMag, slNan)
  else if additive then
    let sb1 := if op = .sub then !sb else sb
    if ma = 0 ∧ mb = 0 then (0, 0)
    else if mb = 0 then (m.code sa ma, 0)
    else if ma = 0 then (m.code sb1 mb, 0)
    else
      let (s1, m1, s2, m2) := if ma < mb then (sb1, mb, sa, ma) else (sa, ma, sb1, mb)
      let eff := s1 != s2
      let ua := m.index m1
      let ub := m.index m2
      let (_, xd) := logsum m.w (0 ≤ ua) ua.natAbs (!(0 ≤ ub : Bool)) ub.natAbs
      let dv := phiFx m.w xd
      let t := fxEXP m.w (-dv)
      let w := if eff then fxOne m.w - t else fxOne m.w + t
      let cancel : Bool := eff && dv < fxLN m.w (2 * fxOne m.w)
      if w = 0 then (0, m.flags ma mb 0 false cancel)
      else
        let g := fxLN m.w w
        let (s, x) := logsum m.w (0 ≤ ua) ua.natAbs (0 ≤ g) (phinvFx m.w 70 g.natAbs)
        let (mz, sat) := m.pack (if s then x else -x)
        (m.code s1 mz, m.flags ma mb mz sat cancel)
  else if mb = 0 ∧ op = .div then (m.nanMag, slNan)
  else if ma = 0 ∨ mb = 0 then (0, 0)
  else
    let ua := m.index ma
    let ub := m.index mb
    let s2 : Bool := if op = .div then !(0 ≤ ub : Bool) else 0 ≤ ub
    let (s, x) := logsum m.w (0 ≤ ua) ua.natAbs s2 ub.natAbs
    let (mz, sat) := m.pack (if s then x else -x)
    (m.code (sa != sb) mz, m.flags ma mb mz sat false)

/-! Conversion into SLI (R153): the exact index of a positive rational, rounded by the mode. -/

/-- Takes logarithms of bounds (units of 2^-p) until they fall below 1: bounds of the index, or none where the bounds
stand on both sides of 1. -/
def indexB (p : Nat) : Nat → Int → Int → Option (Int × Int)
  | 0, _, _ => none
  | n + 1, lo, hi =>
    let one : Int := 2 ^ p
    if hi < one then some (lo, hi)
    else if one ≤ lo then
      match indexB p n (lnB p lo.toNat (2 ^ p)).1 (lnB p hi.toNat (2 ^ p)).2 with
      | some (a, b) => some (a + one, b + one)
      | none => none
    else none

/-- Magnitude code of a positive rational, before its range is applied. -/
def SFmt.magOf (m : SFmt) (mode : RMode) (neg : Bool) (n d : Nat) : Int :=
  let md : RMode := match mode with
    | .rne => .rne
    | .rz => .rdn
    | .rdn => if neg then .rup else .rdn
    | .rup => if neg then .rdn else .rup
  if n = d then 2 ^ (m.f + 3)
  else
    decideBy (fun p =>
      let (a, b) := lnB p n d
      let (sgn, lo, hi) : Int × Int × Int := if d < n then (1, a, b) else (-1, -b, -a)
      match indexB p 8 (max 0 lo) hi with
      | none => (0, 1)
      | some (x, y) =>
        let (ul, uh) := if sgn = 1 then (x, y) else (-y, -x)
        ((2 ^ (m.f + 3) : Int) + rndFix md p m.f ul, (2 ^ (m.f + 3) : Int) + rndFix md p m.f uh)) precisions

/-- Conversion of an exact value to an SLI code, and the flags it sets (R143, R153): a magnitude below the smallest sets
SAT, whichever way it rounds. -/
def SFmt.encode (m : SFmt) (mode : RMode) (v : Val) : Nat × BitVec 5 :=
  match v with
  | .nan => (m.nanMag, slNan)
  | .inf neg => (m.code neg m.maxMag, slSat)
  | .zero _ => (0, 0)
  | .num neg n d =>
    let M := m.magOf mode neg n d
    if (m.nanMag : Int) ≤ M then (m.code neg m.maxMag, slSat)
    else if M ≤ 0 || (M = 1 && m.magOf .rz neg n d ≤ 0) then (m.code neg 1, slSat)
    else (m.code neg M.toNat, 0)

/-! Conversion out of SLI (R146, R153). A magnitude is 1 (index 0), beyond every format, below every format, or given
by bounds. -/

/-- Bounds of φ(x) for an index x/2^f below 4, in units of 2^-p. -/
def phiB (p f x : Nat) : Int × Int :=
  let k := x >>> f
  let fr : Int := ((x % 2 ^ f) <<< (p - f) : Nat)
  (List.range k).foldl (fun (v : Int × Int) _ =>
    let (a, b, e) := expB p v.1 v.2
    let dn (n : Nat) : Int := if 0 ≤ e + p then ((n <<< (e + p).toNat : Nat) : Int) else ((n >>> (-(e + p)).toNat : Nat) : Int)
    (dn a, dn b + 1)) (fr, fr)

/-- Rounds an SLI code's exact value by a monotone conversion: `enc` takes the value as a rational. -/
def SFmt.convert {α : Type} [DecidableEq α] (m : SFmt) (x : Nat) (enc : Val → α) : α :=
  let mag := fld x 0 m.mbits
  let neg : Bool := fld x m.mbits 1 = 1
  if mag = 0 then enc (.zero false)
  else if mag = m.nanMag then enc .nan
  else if mag = 2 ^ (m.f + 3) then enc (.num neg 1 1)
  else
    let big : Bool := 2 ^ (m.f + 3) < mag
    let u := ((mag : Int) - 2 ^ (m.f + 3)).natAbs
    let far : α := enc (if big then .num neg (1 <<< 8192) 1 else .num neg 1 (1 <<< 8192))
    if 4 * 2 ^ m.f ≤ u then far
    else
      decideBy (fun p =>
        let (lo, hi) := phiB p m.f u
        if 2048 * 2 ^ p ≤ lo then (far, far)
        else
          let (a, b, e) := if big then expB p lo hi else expB p (-hi) (-lo)
          let v (n : Nat) : Val := mkVal neg n e
          (enc (v a), enc (v b))) precisions

end Sys2Proof.Machine
end

