-- ==== Sys2Proof/Machine/Formats.lean ====
section
/-! DEFINITION. Element formats under one name: what a code means, and conversion between any two of them (R132 to
R145, R153, R242, R290). -/
namespace Sys2Proof.Machine

/-- An element format. -/
inductive Fmt where
  | int (sg : Bool) (w : Nat)
  | fp (m : FFmt)
  | grain (n : Nat)
  | mxint8
  | sli (m : SFmt)
  deriving DecidableEq, Repr

def Fmt.width : Fmt → Nat
  | .int _ w => w
  | .fp m => m.width
  | .grain n => n
  | .mxint8 => 8
  | .sli m => m.mbits + 1

/-- Format codes of CVT and SLCVT (R242, R290). -/
def cvtFmt : Nat → Fmt
  | 0 => .int true 8 | 1 => .int false 8 | 2 => .int true 16 | 3 => .int false 16
  | 4 => .int true 32 | 5 => .int false 32 | 6 => .int true 64 | 7 => .int false 64
  | 8 => .fp f16F | 9 => .fp bf16F | 10 => .fp f32F | 11 => .fp f64F
  | 12 => .grain 8 | 13 => .grain 6
  | 14 => .fp e4m3F | 15 => .fp e5m2F | 16 => .fp e3m2F | 17 => .fp e2m3F | 18 => .fp e2m1F | 19 => .mxint8
  | 20 => .sli sli16F
  | _ => .sli sli32F

/-- Page format codes 1 to 14 (R139). -/
def pageFmt : Nat → Fmt
  | 1 => .fp f32F | 2 => .fp f16F | 3 => .fp bf16F | 4 => .grain 8 | 5 => .grain 6
  | 6 => .fp e4m3F | 7 => .fp e5m2F | 8 => .fp e3m2F | 9 => .fp e2m3F | 10 => .fp e2m1F | 11 => .mxint8
  | 12 => .sli sli16F | 13 => .sli sli32F
  | _ => .fp f64F

/-- Element width of an access: the format's, or the named one for raw pages (R140). -/
def elemWidth (fmt named : Nat) : Nat := if fmt = 0 then named else (pageFmt fmt).width

/-- Exponent of a format's largest finite power of two (R137), by page code. -/
def emaxOf : Nat → Int
  | 6 => 8 | 7 => 15 | 8 => 4 | 9 => 2 | 10 => 2 | _ => 0

/-- The exact value of a code of a format other than SLI. -/
def Fmt.decode (f : Fmt) (x : Nat) : Val :=
  match f with
  | .int sg w => ofInt (if sg then signed w x else (x % 2 ^ w : Nat))
  | .fp m => m.decode (x % 2 ^ m.width)
  | .grain n => grainDecode n x
  | .mxint8 => mxint8Decode x
  | .sli _ => .nan

/-- Gives the exact value of a code, its block scale applied where there is one, to a monotone rounding. -/
def Fmt.feed {α : Type} [DecidableEq α] (f : Fmt) (x : Nat) (scale : Option Nat) (enc : Val → α) : α :=
  match f with
  | .sli m => m.convert x enc
  | f =>
    enc (match scale with
      | none => f.decode x
      | some s => (f.decode x).withScale s)

/-- Bounds of an integer type. -/
def intLo (sg : Bool) (w : Nat) : Int := if sg then -(2 ^ (w - 1)) else 0
def intHi (sg : Bool) (w : Nat) : Int := if sg then 2 ^ (w - 1) - 1 else 2 ^ w - 1

/-- SAT of a saturating conversion, NAN of a NaN source (R143, R154). -/
def convFlags (v : Val) (sat : Bool) : BitVec 5 :=
  match v with
  | .nan => slNan
  | _ => if sat then slSat else 0

/-- The magnitude saturates to the largest code: an infinity or a magnitude beyond it (R143). -/
def Fmt.saturates (f : Fmt) (mode : RMode) (ieee : Bool) (v : Val) : Bool :=
  match f, v with
  | _, .nan | _, .zero _ => false
  | .fp m, .inf _ => !ieee || m.inf.isNone
  | .fp m, .num neg n d => m.top < m.roundMag mode neg n d && m.overflow mode neg ieee = m.top
  | _, .inf _ => true
  | .grain n, .num _ a d =>
    let (s, k) := grainPos n (2 ^ (n - 1) - 1)
    !leScaled a d s k
  | .mxint8, .num neg n d =>
    let r := (Val.num neg (64 * n) d).toInt mode
    r < -127 || 127 < r
  | .int sg w, v =>
    let r := v.toInt mode
    r < intLo sg w || intHi sg w < r
  | .sli _, _ => false

/-- Conversion of an exact value (R143, R144, R153): the code and the SLI flags it sets where SLCVT makes it. -/
def Fmt.encode (f : Fmt) (mode : RMode) (ieee : Bool) (v : Val) : Nat × BitVec 5 :=
  match f with
  | .sli m => m.encode mode v
  | f =>
    (match f with
      | .int sg w => intCode w (satInt (intLo sg w) (intHi sg w) mode v)
      | .fp m => m.encode mode ieee v
      | .grain n => grainEncode n mode v
      | _ => mxint8Encode mode v,
     convFlags v (f.saturates mode ieee v))

/-- SLI to SLI: widening is exact, narrowing rounds the index by the mode; a magnitude below the smallest saturates
(R143, R146, R290). -/
def slResize (a b : SFmt) (mode : RMode) (x : Nat) : Nat × BitVec 5 :=
  let mag := fld x 0 a.mbits
  let neg : Bool := fld x a.mbits 1 = 1
  if mag = a.nanMag then (b.nanMag, slNan)
  else if mag = 0 then (0, 0)
  else if a.f ≤ b.f then (b.code neg (mag <<< (b.f - a.f)), 0)
  else
    let g := 2 ^ (a.f - b.f)
    let q := mag / g
    let r := mag % g
    let M := if roundUp mode neg q r g then q + 1 else q
    if b.nanMag ≤ M then (b.code neg b.maxMag, slSat)
    else if mag < g then (b.code neg 1, slSat)
    else (b.code neg M, 0)

/-- The canonical code of a format's NaN, where it has one. -/
def Fmt.nan (f : Fmt) : Nat := (f.encode .rne false .nan).1

/-- Conversion between two formats (R143, R153, R243). Equal formats return the source, NaNs made canonical; but no
conversion produces the MXINT8 code 0x80 (R137, R144; log 13). -/
def Fmt.convert (src dst : Fmt) (mode : RMode) (ieee : Bool) (scale : Option Nat) (x : Nat) : Nat × BitVec 5 :=
  match src, dst with
  | .sli a, .sli b => slResize a b mode x
  | src, dst =>
    if src = dst && scale.isNone && src ≠ .mxint8 then
      (if src.decode x = .nan then src.nan else x % 2 ^ src.width, 0)
    else src.feed x scale (dst.encode mode ieee)

/-- Largest finite FP32 value. -/
def f32Max : Val := f32F.decode f32F.top

/-- min(|v|, fmax) of R145; a NaN counts 0. -/
def mxMag (v : Val) : Val :=
  match v.absV with
  | .nan => .zero false
  | a => if f32Max.lt a then f32Max else a

/-- floor(log2) of a nonzero magnitude. -/
def Val.log2 : Val → Option Int
  | .num _ n d => some (ilog2 n d)
  | _ => none

/-- ENCODING OF ONE MX BLOCK (R145), by page format code: the scale byte and the elements. -/
def mxBlockEncode (vs : List Val) (fmt : Nat) (mode : RMode) : Nat × List Nat :=
  if 8 ≤ fmt && vs.any Val.isNan then (0xFF, vs.map fun _ => 0)
  else
    let amax := vs.foldl (fun a v => if a.lt (mxMag v) then mxMag v else a) (.zero false)
    let se0 : Int := match amax.log2 with
      | none => -127
      | some k => k - emaxOf fmt
    let se := min 127 (max (-127) se0)
    ((se + 127).toNat, vs.map fun v => ((pageFmt fmt).encode mode false (v.scale (-se))).1)

end Sys2Proof.Machine
end

