-- ==== Sys2Proof/Machine/Compress.lean ====
section
/-! DEFINITION. Size classes of compressed lines (R27 to R29): functions of a line's bits and a format code alone. -/
namespace Sys2Proof.Machine

/-- `fits(x, b, w)` of R29: the wrapping difference of two 64-bit words fits `w` signed bytes. -/
def bdiFits (x b w : Nat) : Bool :=
  let d := signed 64 (x + 2 ^ 64 - b)
  decide (0 ≤ d + 2 ^ (8 * w - 1)) && decide (d < 2 ^ (8 * w - 1))

/-- The sixteen 8 B words of a line, lowest address first. -/
def lineWords (x : Line) : List Nat := (List.range 16).map fun i => fld x.toNat (64 * i) 64

/-- Whether every word fits the zero base or the one base, the first word that fails the zero base (R29). -/
def bdiOk (w : Nat) (ws : List Nat) : Bool :=
  let far := ws.filter fun x => !bdiFits x 0 w
  match far with
  | [] => true
  | b :: _ => far.all fun x => bdiFits x b w

/-- Base-plus-delta size of a line (R29). -/
def bdiSize (x : Line) : Nat :=
  let ws := lineWords x
  if bdiOk 1 ws then 26 else if bdiOk 2 ws then 42 else if bdiOk 4 ws then 74 else 128

/-- Element width, sign, exponent and fraction widths of the format codes that take the exponent test (R28). -/
def expParams (fmt : Nat) : Option (Nat × Nat × Nat × Nat) :=
  match fmt with
  | 1 => some (32, 1, 8, 23)
  | 2 => some (16, 1, 5, 10)
  | 3 => some (16, 1, 8, 7)
  | 4 | 5 => some (8, 0, 4, 4)
  | 6 => some (8, 1, 4, 3)
  | 7 => some (8, 1, 5, 2)
  | 14 => some (64, 1, 11, 52)
  | _ => none

/-- Trailing zeros of a fraction of `f` bits; a zero fraction counts `f`. -/
def trailZ (x : Nat) : Nat → Nat
  | 0 => 0
  | f + 1 => if x % 2 = 1 then 0 else 1 + trailZ (x / 2) f

/-- Least k with 2^k > d, found below `n`. -/
def bitsAbove (d : Nat) : Nat → Nat
  | 0 => 0
  | n + 1 => if d = 0 then 0 else 1 + bitsAbove (d / 2) n

/-- Exponent-test size of a line (R29). -/
def expSize (x : Line) (w s e f : Nat) : Nat :=
  let n := 1024 / w
  let els := (List.range n).map fun i => fld x.toNat (w * i) w
  let es := els.map fun v => fld v f e
  let k := bitsAbove (es.foldl max 0 - minOr 0 es) 12
  let t := els.foldl (fun t v => min t (trailZ (fld v 0 f) f)) f
  4 + cdiv (n * (s + k + f - t)) 8

/-- `size_class` of R29: 0, 32, 64, 96 or 128. -/
def sizeClass (x : Line) (fmt : Nat) : Nat :=
  if x = 0 then 0
  else
    let best := match expParams fmt with
      | some (w, s, e, f) => min (bdiSize x) (expSize x w s e f)
      | none => bdiSize x
    if best ≤ 32 then 32 else if best ≤ 64 then 64 else if best ≤ 96 then 96 else 128

/-- need(Σ): the flakes a frame whose classes sum to Σ needs (R32). -/
def flakesFor (sum : Nat) : Nat := cdiv sum 1024

end Sys2Proof.Machine
end

