-- ==== Sys2Proof/Syntax.lean ====
section
/-! DEFINITION. The steps of the part as syntax: one constructor of `Instr` per row of spec/opcode_table.json.
The instruction rows carry the fields of their encoding form (R175 to R179); the event rows carry what their step
needs to be told: which object it acts on, and what the outside world supplies. -/
namespace Sys2Proof

/-- The operand type codes 0 to 15 of R180, with the codes 12 to 15 that R240 and R288 assign. -/
inductive Ty where
  | i32 | n32 | i64 | n64 | b32 | b64 | f32 | f64
  | f16x2 | bf16x2 | i16x2 | n16x2 | i8x4 | n8x4 | sli32 | sli16x2
  deriving DecidableEq, Repr

/-- What every instruction word has in common: stall count 53:50, guard negate 49, guard predicate 48:46 (R175). -/
structure Hdr where
  stall : BitVec 4
  neg   : Bool
  pred  : BitVec 3
  deriving DecidableEq, Repr

/-- General form of groups 1, 2 and 3 (R175, R179): destination, sources, the common modifiers and bits 5:0. -/
structure AF where
  d  : Byte
  a  : Byte
  b  : Byte
  c  : Byte
  u  : Bool
  sa : Bool
  sb : Bool
  sc : Bool
  ty : Ty
  m  : BitVec 6
  deriving DecidableEq, Repr

/-- General form of the other groups (R175): four register fields and the modifiers 13:0. -/
structure GF where
  d : Byte
  a : Byte
  b : Byte
  c : Byte
  m : BitVec 14
  deriving DecidableEq, Repr

/-- Immediate form (R175): destination, source a, and a signed 30-bit immediate. -/
structure IF where
  d   : Byte
  a   : Byte
  imm : BitVec 30
  deriving DecidableEq, Repr

/-- Literal form (R175): destination, selector 37:32, and a 32-bit literal. -/
structure LF where
  d   : Byte
  sel : BitVec 6
  lit : BitVec 32
  deriving DecidableEq, Repr

/-- Memory form (R175, R183): variant bits of the opcode, data, handle, coordinate, offset, cache policy, scope. -/
structure MF where
  var   : BitVec 6
  data  : Byte
  h     : Byte
  k     : Byte
  off   : BitVec 16
  pol   : BitVec 3
  scope : BitVec 3
  deriving DecidableEq, Repr

/-- Matrix form (R175): rod, M code, N field, operand-word slots, accumulator base in KiB, flags. -/
structure XF where
  rod : BitVec 4
  mc  : BitVec 2
  n   : BitVec 6
  a   : Byte
  b   : Byte
  acc : BitVec 10
  fl  : Byte
  deriving DecidableEq, Repr

/-- A place where an error can be found (R358, R365). -/
inductive ErrLoc where
  | hbmLine (pa : Nat)
  | hbmRow (flake : Nat)
  | strataSite (lode site line : Nat)
  | registerFile (core bank wg wave : Nat)
  | linkLane (link lane : Nat)
  | scratch (wg part off : Nat)
  | deep (wg part off : Nat)
  | accumulator (wg part byte : Nat)
  deriving DecidableEq, Repr

/-- What a peer's Norha packet asks for (R374). -/
inductive NorhaOp where
  | read (pa n : Nat)
  | write (pa : Nat) (data : List Byte)
  deriving DecidableEq, Repr

/-- One step of the part: a row of spec/opcode_table.json. -/
inductive Instr where
  -- group 0: control, threads, tasks, system
  | nop (h : Hdr) (f : GF)
  | bra (h : Hdr) (f : IF)
  | brx (h : Hdr) (f : GF)
  | call (h : Hdr) (f : IF)
  | callx (h : Hdr) (f : GF)
  | ret (h : Hdr) (f : GF)
  | meet (h : Hdr) (f : IF)
  | unmeet (h : Hdr) (f : GF)
  | exit (h : Hdr) (f : GF)
  | yieldW (h : Hdr) (f : GF)
  | sleep (h : Hdr) (f : IF)
  | bkpt (h : Hdr) (f : IF)
  | trap (h : Hdr) (f : IF)
  | trapret (h : Hdr) (f : GF)
  | joinImm (h : Hdr) (f : IF)
  | joinReg (h : Hdr) (f : GF)
  | leaveImm (h : Hdr) (f : IF)
  | leaveReg (h : Hdr) (f : GF)
  | setinfo (h : Hdr) (f : GF)
  | reggive (h : Hdr) (f : IF)
  | regclaim (h : Hdr) (f : IF)
  | spawn (h : Hdr) (f : GF)
  | jdec (h : Hdr) (f : GF)
  | npreempt (h : Hdr) (f : GF)
  | preemptok (h : Hdr) (f : GF)
  | csrrd (h : Hdr) (f : IF)
  | csrwr (h : Hdr) (f : IF)
  | csrset (h : Hdr) (f : IF)
  | csrclr (h : Hdr) (f : IF)
  | ptsync (h : Hdr) (f : GF)
  -- group 1: integer, logic, moves, cross-lane
  | iadd (h : Hdr) (f : AF)
  | isub (h : Hdr) (f : AF)
  | iaddc (h : Hdr) (f : AF)
  | imul (h : Hdr) (f : AF)
  | imulh (h : Hdr) (f : AF)
  | imad (h : Hdr) (f : AF)
  | imin (h : Hdr) (f : AF)
  | imax (h : Hdr) (f : AF)
  | iabs (h : Hdr) (f : AF)
  | ineg (h : Hdr) (f : AF)
  | and (h : Hdr) (f : AF)
  | or (h : Hdr) (f : AF)
  | xor (h : Hdr) (f : AF)
  | not (h : Hdr) (f : AF)
  | shl (h : Hdr) (f : AF)
  | shr (h : Hdr) (f : AF)
  | sar (h : Hdr) (f : AF)
  | rot (h : Hdr) (f : AF)
  | popc (h : Hdr) (f : AF)
  | clz (h : Hdr) (f : AF)
  | bfe (h : Hdr) (f : AF)
  | bfi (h : Hdr) (f : AF)
  | brev (h : Hdr) (f : AF)
  | icmp (h : Hdr) (f : AF)
  | sel (h : Hdr) (f : AF)
  | mov (h : Hdr) (f : AF)
  | moviImm (h : Hdr) (f : IF)
  | moviLit (h : Hdr) (f : LF)
  | bcast (h : Hdr) (f : AF)
  | readlane (h : Hdr) (f : AF)
  | shfl (h : Hdr) (f : AF)
  | vote (h : Hdr) (f : AF)
  | wred (h : Hdr) (f : AF)
  | scan (h : Hdr) (f : AF)
  -- group 2: float
  | fadd (h : Hdr) (f : AF)
  | fsub (h : Hdr) (f : AF)
  | fmul (h : Hdr) (f : AF)
  | ffma (h : Hdr) (f : AF)
  | fmin (h : Hdr) (f : AF)
  | fmax (h : Hdr) (f : AF)
  | fcmp (h : Hdr) (f : AF)
  | fclass (h : Hdr) (f : AF)
  | frcp (h : Hdr) (f : AF)
  | frsq (h : Hdr) (f : AF)
  | fsqrt (h : Hdr) (f : AF)
  | fex2 (h : Hdr) (f : AF)
  | flg2 (h : Hdr) (f : AF)
  | fsin (h : Hdr) (f : AF)
  | fcos (h : Hdr) (f : AF)
  | fdivs (h : Hdr) (f : AF)
  | dot2 (h : Hdr) (f : AF)
  | dot4 (h : Hdr) (f : AF)
  -- group 3: convert and SLI
  | cvt (h : Hdr) (f : AF)
  | frnd (h : Hdr) (f : AF)
  | pack (h : Hdr) (f : AF)
  | unpk (h : Hdr) (f : AF)
  | sladd (h : Hdr) (f : AF)
  | slsub (h : Hdr) (f : AF)
  | slmul (h : Hdr) (f : AF)
  | sldiv (h : Hdr) (f : AF)
  | slcmp (h : Hdr) (f : AF)
  | slcvt (h : Hdr) (f : AF)
  | slflg (h : Hdr) (f : AF)
  | sllvl (h : Hdr) (f : AF)
  -- group 4: memory
  | ld (h : Hdr) (f : MF)
  | st (h : Hdr) (f : MF)
  | lds (h : Hdr) (f : MF)
  | pref (h : Hdr) (f : MF)
  | fence (h : Hdr) (f : GF)
  | fencex (h : Hdr) (f : GF)
  | clean (h : Hdr) (f : GF)
  | inval (h : Hdr) (f : GF)
  | clinv (h : Hdr) (f : GF)
  | layset (h : Hdr) (f : GF)
  | layget (h : Hdr) (f : GF)
  | laychk (h : Hdr) (f : GF)
  | atoms (h : Hdr) (f : MF)
  | atom (h : Hdr) (f : MF)
  -- group 5: copies, barriers, contracts, key-value
  | copy (h : Hdr) (f : GF)
  | copym (h : Hdr) (f : GF)
  | copyq (h : Hdr) (f : GF)
  | binit (h : Hdr) (f : GF)
  | barrive (h : Hdr) (f : GF)
  | bexpect (h : Hdr) (f : GF)
  | bwait (h : Hdr) (f : GF)
  | btest (h : Hdr) (f : GF)
  | reside (h : Hdr) (f : GF)
  | unreside (h : Hdr) (f : GF)
  | kvget (h : Hdr) (f : GF)
  | kvput (h : Hdr) (f : GF)
  | kvpin (h : Hdr) (f : GF)
  | kvdrop (h : Hdr) (f : GF)
  -- group 6: matrix and lode engines
  | mma (h : Hdr) (f : XF)
  | accz (h : Hdr) (f : GF)
  | accld (h : Hdr) (f : GF)
  | accrd (h : Hdr) (f : GF)
  | drain (h : Hdr) (f : GF)
  | lred (h : Hdr) (f : GF)
  | lredw (h : Hdr) (f : GF)
  | lxpose (h : Hdr) (f : GF)
  -- events of the cores
  | clauseSelect (core part : Nat)
  | resultLands (id : Nat)
  | pebbleGrant (id : Nat)
  | matrixQueueEntry (core : Nat)
  | regDeadlock (wg part : Nat)
  | sleepExpiry (wg wave lane : Nat)
  | yieldExpiry (wg wave : Nat)
  | npreemptBoundExpiry (wg : Nat)
  | storeBufferTimeout (core : Nat)
  | generationAdvance (core : Nat)
  | l1Sweep (core : Nat)
  | l1Fill (id : Nat)
  -- events of the lodes and of translation
  | lodeAccess (id : Nat)
  | lineFillReturn (id : Nat)
  | pageWalkComplete (id : Nat)
  | deferredInstall (id : Nat)
  | albInvalidate (inv core : Nat)
  | lodeTbInvalidate (inv lode : Nat)
  | shootdownAck (inv : Nat)
  -- events of compressed memory and the Tumbler
  | lineWriteback (id : Nat)
  | rawFlakesGranted (frame : Nat)
  | stuckLineWriteback (q : Nat)
  | balloonReclaim (q : Nat)
  | tumblerMigration (q : Nat)
  | hostWriteHoldTimeout (id : Nat)
  | query (q frame : Nat) (sec : Bool)
  | donate (q frame : Nat) (sec : Bool)
  | withdraw (q frame : Nat) (sec : Bool)
  | recode (q frame : Nat) (fmt : BitVec 4) (sec : Bool)
  | toRaw (q frame : Nat) (sec : Bool)
  | toCmp (q frame : Nat) (fmt : BitVec 4) (sec : Bool)
  | migrate (q frame lode : Nat) (sec : Bool)
  | tmbBadOp (q : Nat) (op : BitVec 4) (sec : Bool)
  | tmbCmdDone (q : Nat)
  | tmbCtlWrite (v : Word) (sec : Bool)
  | xltSyncGo (q : Nat) (sec : Bool)
  | xltRmapClear (q frame : Nat) (sec : Bool)
  -- events of the columns
  | strRoleWrite (lode : Nat) (v : Word) (sec : Bool)
  | roleChangeApplied (lode : Nat)
  | siteLoss (lode site : Nat)
  | rebuildComplete (lode : Nat)
  | busLoss (lode : Nat) (busB : Bool)
  | contractAdmission (id : Nat)
  | contractRelease (id : Nat)
  | kvLodeOperation (id : Nat)
  | kvAgeTick (lode : Nat)
  | lredContribution (id : Nat)
  | lredContributionRetry (id : Nat)
  | lredCloseRetry (id : Nat)
  -- events of the streamer and of transposes
  | chunkSourceRead (id chunk : Nat)
  | chunkDelivery (id chunk part : Nat)
  | copyComplete (id : Nat)
  | lxposeComplete (id : Nat)
  -- events of the pool and of scheduling
  | poolApply (core : Nat) (v : Word) (sec : Bool)
  | poolApplyDone (core : Nat)
  | recordTake (q queue : Nat)
  | workgroupPlacement (q : Nat) (cores : List Nat)
  | priorityAging (rec : Nat)
  | recordComplete (rec : Nat)
  | queueEnableWrite (q : Nat) (v : Word) (sec : Bool)
  | vacate (q : Nat) (sec : Bool)
  | reopen (q : Nat) (sec : Bool)
  | schBadOp (q : Nat) (op : BitVec 4) (sec : Bool)
  | vacateDone (q : Nat)
  | thermalVacate (core : Nat) (total : BitVec 13)
  | pebbleTotalChange (total : BitVec 13)
  -- events of save, faults and kill
  | contextSave (wg : Nat)
  | saveChunkTimeout (wg : Nat)
  | workgroupRestore (img : Nat) (cores : List Nat)
  | lodeFaultReturn (id : Nat)
  | parkedReportRetry (id : Nat)
  | fltResume (q ctx fault : Nat) (sec : Bool)
  | deliver (q ctx fault : Nat) (sec : Bool)
  | kill (q ctx : Nat) (sec : Bool)
  | fltBadOp (q : Nat) (op : BitVec 4) (sec : Bool)
  | killComplete (q : Nat)
  -- events of reliability
  | ueDetected (loc : ErrLoc)
  | correctedError (loc : ErrLoc)
  | selfTest (loc : ErrLoc) (pass : Bool)
  | auditReplay (rec : Nat) (cores : List (List Nat))
  | auditVerdict (rec : Nat)
  | auditVote (rec : Nat)
  | auditHoldTimeout (id : Nat)
  -- events of the host
  | hostRead (pa n : Nat)
  | hostWrite (pa : Nat) (data : List Byte)
  | hostAtomic (pa : Nat) (op : BitVec 4) (x cmp : Word)
  | hostOwnershipRequest (pa : Nat)
  | backinvalResponse (id : Nat) (data : Option (List Byte))
  | leaseTimeout (id : Nat)
  | verSelWrite (v : Word)
  -- events of the links
  | linkTraining (link : Nat) (peer : BitVec 16) (peerMin peerMax : BitVec 4)
  | laneFailure (link lane : Nat)
  | heartbeatTimeout (link : Nat)
  | norhaRequest (link : Nat) (gang : Option (Nat × Nat)) (op : NorhaOp)
  | worldAssignWrite (off : Nat) (v : Word) (sec : Bool)
  -- events of the partitions
  | quiesce (quarters : BitVec 4) (sec : Bool)
  | quiesceComplete (q : Nat)
  | flush (quarters : BitVec 4) (sec : Bool)
  | merge (quarters : BitVec 4) (sec : Bool)
  | split (quarters : BitVec 4) (sec : Bool)
  | partResume (quarters : BitVec 4) (sec : Bool)
  | partBadOp (op : BitVec 4) (sec : Bool)
  | partHostHoldTimeout (id : Nat)
  -- events of sleep and management
  | coreRetentionSleep (core : Nat)
  | coreWake (core : Nat)
  | lodeRetentionSleep (lode : Nat)
  | lodeWake (lode : Nat)
  | challenge (nonce : List Byte)
  | pldmFirmwareUpdate (image : List Byte)
  -- the remaining rows
  | registerWrite (off : Nat) (v : Word) (sec : Bool)
  | illegalOpcode (w : Word)
  | cxlRequestCompletion (id : Nat) (data : Option (List Byte))
  | norhaResponse (id : Nat) (data : Option (List Byte))
  | thermalRowGating (die : Nat) (on : Bool)
  | coreClockChange (mhz : Nat)
  -- rows that carry nothing (they stand last: Lean's compiler wants constructors with fields below number 245)
  | startStage0
  | startStage1
  | startStage2
  | getVersion
  | getCapabilities
  | negotiateAlgorithms
  | getDigests
  | getCertificate
  | getMeasurements
  | spdmUnsupported
  | pldmSensorRead
  deriving DecidableEq, Repr

end Sys2Proof
end

