-- ==== Sys2Proof/WellFormed.lean ====
section
/-! DEFINITION. Which instructions are well formed: the checks of R175 to R181 that an instruction word alone
decides, with the field tables of R196, R223, R241, R251, R258, R260, R262, R265, R269, R272, R273, R284, R285,
R288, R290, R291 and R295. A word whose instruction is not well formed traps ILLEGAL_ENC (R182 order 2). -/
namespace Sys2Proof

/-- Type codes of 64-bit operands (R180). -/
def Ty.is64 : Ty → Bool
  | .i64 | .n64 | .b64 | .f64 => true
  | _ => false

/-- Types that read the constants 0xF8 to 0xFB (R178, R234, R288). -/
def Ty.isFloat : Ty → Bool
  | .f32 | .f64 | .f16x2 | .bf16x2 | .sli32 | .sli16x2 => true
  | _ => false

/-- Codes a scalar source slot may hold (R178): `flt` for a float operand, `lane` where %lane may stand. -/
def srcCode (flt lane : Bool) (x : Byte) : Bool :=
  x.toNat < 0xC0 || (x.toNat = 0xC0 && lane) || (0xC1 ≤ x.toNat && x.toNat ≤ 0xC5)
    || (0xE0 ≤ x.toNat && x.toNat ≤ 0xF7) || (0xF8 ≤ x.toNat && x.toNat ≤ 0xFB && flt)

/-- A scalar slot of a uniform operand of groups 0, 4, 5 and 6: any readable code but %lane (R178). -/
def uni (x : Byte) : Bool := srcCode false false x

/-- A scalar destination (R178). -/
def sdst (x : Byte) : Bool := x.toNat < 0xC0

/-- First of a run of `n` scalar registers (R196, R262, R265, R295). -/
def srun (n : Nat) (x : Byte) : Bool := x.toNat + n ≤ 192

/-- A predicate slot (R177). -/
def pslot (x : Byte) : Bool := x.toNat < 8

/-- An even vector register (R177). -/
def evenReg (x : Byte) : Bool := x.toNat % 2 = 0

/-- What a source field of an arithmetic word holds. -/
inductive SrcUse where
  | unused
  | reg (w64 flt : Bool)   -- vector or scalar by the s bit
  | vec (w64 : Bool)       -- a vector register whatever u says (READLANE)
  | pred                   -- a predicate slot
  | code (n : Nat)         -- a format code below n (R241)
  deriving DecidableEq, Repr

/-- What the destination field of an arithmetic word holds. -/
inductive DstUse where
  | reg (w64 : Bool)
  | pred
  deriving DecidableEq, Repr

def SrcUse.ok (u s : Bool) (x : Byte) : SrcUse → Bool
  | .unused => x = 0 && !s
  | .reg w64 flt => if u || s then srcCode flt (!u) x else !w64 || evenReg x
  | .vec w64 => !s && (!w64 || evenReg x)
  | .pred => !s && pslot x
  | .code n => !s && x.toNat < n

def DstUse.ok (u : Bool) (x : Byte) : DstUse → Bool
  | .reg w64 => if u then sdst x else !w64 || evenReg x
  | .pred => pslot x

/-- The common checks of the general form of groups 1 to 3 (R179, R181). -/
def AF.ok (f : AF) (tys : List Ty) (mask : BitVec 6) (d : DstUse) (a b c : SrcUse) : Bool :=
  tys.contains f.ty && (f.m &&& ~~~mask) = 0 && (!f.u || (!f.sa && !f.sb && !f.sc))
    && d.ok f.u f.d && a.ok f.u f.sa f.a && b.ok f.u f.sb f.b && c.ok f.u f.sc f.c

def AF.w (f : AF) : Bool := f.ty.is64

/-- A source of the instruction's own type. -/
def AF.src (f : AF) : SrcUse := .reg f.ty.is64 f.ty.isFloat

def tysInt : List Ty := [.i32, .n32, .i64, .n64]
def tysIntP : List Ty := [.i32, .n32, .i64, .n64, .i16x2, .n16x2]
def tysBits : List Ty := [.b32, .b64]
def tysShift : List Ty := [.i32, .n32, .i64, .n64, .b32, .b64]
def tysFloat : List Ty := [.f32, .f64, .f16x2, .bf16x2]
def tysSli : List Ty := [.sli32, .sli16x2]

/-- Modifier bits 5:0 of an arithmetic word as numbers. -/
def AF.mlo (f : AF) (hi lo : Nat) : Nat := (f.m.extractLsb' lo (hi + 1 - lo)).toNat

/-- Two-source integer instruction (R223). -/
def AF.int2 (f : AF) (tys : List Ty) (mask : BitVec 6) : Bool :=
  f.ok tys mask (.reg f.w) f.src f.src .unused

/-- One-source integer instruction (R223). -/
def AF.int1 (f : AF) (tys : List Ty) (mask : BitVec 6) : Bool :=
  f.ok tys mask (.reg f.w) f.src .unused .unused

/-- Shift or rotate: the count is 32-bit (R223). -/
def AF.shift (f : AF) (mask : BitVec 6) : Bool :=
  f.ok tysShift mask (.reg f.w) f.src (.reg false false) .unused

/-- A destination format code of CVT and SLCVT that is 64-bit (R242). -/
def fmt64 (n : Nat) : Bool := n = 6 || n = 7 || n = 11

/-- A source format code of CVT and SLCVT that reads float constants (R178, R242). -/
def fmtFlt (n : Nat) : Bool := (8 ≤ n && n ≤ 11) || n = 20 || n = 21

/-- CVT and SLCVT, format codes below `top` (R241, R243, R290). -/
def AF.conv (f : AF) (top : Nat) (sli : Bool) : Bool :=
  let dc := f.b.toNat
  let sc := f.c.toNat
  let blk := f.mlo 5 4
  let scaled := f.mlo 3 3 = 1
  f.ok [.i32] 0x3F (.reg (fmt64 dc)) (.reg (fmt64 sc) (fmtFlt sc)) (.code top) (.code top)
    && (!scaled || (14 ≤ sc && sc ≤ 19))
    && blk ≠ 3 && (blk = 0 || (!f.u && 14 ≤ dc && dc ≤ 19 && !sli))
    && (!sli || 20 ≤ dc || 20 ≤ sc)

/-- Every register and modifier field is zero. -/
def GF.none (f : GF) : Bool := f.d = 0 && f.a = 0 && f.b = 0 && f.c = 0 && f.m = 0

def GF.mb (f : GF) (hi lo : Nat) : Nat := (f.m.extractLsb' lo (hi + 1 - lo)).toNat

/-- Vector pairs of the branch instructions: `s` = bit 0 selects a scalar target (R196). -/
def GF.target (f : GF) : Bool := if f.mb 0 0 = 1 then uni f.a else evenReg f.a

/-- imm read as an unsigned number of `n` bits, the bits above it zero (R196). -/
def IF.fits (f : IF) (n : Nat) : Bool := f.imm.toNat < 2 ^ n

/-- CSR slots: a thread register takes an even vector pair, a core register a scalar (R214). -/
def csrSlot (num : Nat) (dst : Bool) (x : Byte) : Bool :=
  if num < 0x100 then evenReg x else if dst then sdst x else uni x

/-- CSRWR, CSRSET, CSRCLR (R196, R215): bit 12 is .old. -/
def IF.csrw (f : IF) : Bool :=
  let num := f.imm.toNat % 4096
  let old := f.imm.toNat / 4096 % 2 = 1
  f.fits 13 && csrSlot num false f.a && (if old then csrSlot num true f.d else f.d = 0)

/-- 3-bit type codes of the memory forms that are 64-bit (R180). -/
def mty64 (t : Nat) : Bool := t = 2 || t = 3 || t = 5 || t = 7

/-- Data field of ATOM (R255). -/
def atomData (op : Nat) (k : Byte) : Bool :=
  if op = 12 then k.toNat % 4 = 0
  else if op = 1 || op = 10 || op = 11 || op = 15 then evenReg k else true

/-- The common fields of LRED and LREDW (R291). -/
def GF.lredOk (f : GF) (acqOk : Bool) : Bool :=
  let op := f.mb 3 0
  uni f.a && uni f.c && op < 7 && f.mb 6 4 < 7 && f.mb 13 9 = 0
    && (acqOk || f.mb 8 8 = 0) && (f.mb 6 4 = 0 || f.mb 7 7 = 1 || f.mb 8 8 = 1)
    && (!(op = 1 || op = 4) || evenReg f.d)

/-- WRED and SCAN: bits 2:0 select the operation and with it the types (R232); `mask` is the bits in use. -/
def AF.reduce (f : AF) (mask : BitVec 6) : Bool :=
  let op := f.mlo 2 0
  let tys : List Ty := if op < 3 then [.i32, .n32, .i64, .n64, .f32, .f64] else tysBits
  f.ok tys mask (.reg f.w) (.vec f.w) .unused .unused && !f.u && op < 6

/-- The assigned opcodes (R183, R184). -/
def assigned (op : Nat) : Bool :=
  op ≤ 0x01D || (0x080 ≤ op && op ≤ 0x0A1) || (0x100 ≤ op && op ≤ 0x111) || (0x180 ≤ op && op ≤ 0x18B)
    || (0x200 ≤ op && op ≤ 0x238) || (0x240 ≤ op && op ≤ 0x27F) || (0x2C0 ≤ op && op ≤ 0x2CD)
    || (0x300 ≤ op && op ≤ 0x307)

/-- The well-formed instructions. An event row has no encoding: every event is well formed. -/
def Instr.wellFormed : Instr → Bool
  | .nop _ f | .unmeet _ f | .exit _ f | .yieldW _ f | .trapret _ f | .ptsync _ f => f.none
  | .bra _ f | .meet _ f => f.d = 0 && f.a = 0
  | .brx _ f => f.d = 0 && f.b = 0 && f.c = 0 && f.mb 13 1 = 0 && f.target
  | .call _ f => evenReg f.d && f.a = 0
  | .callx _ f => evenReg f.d && f.b = 0 && f.c = 0 && f.mb 13 1 = 0 && f.target
  | .ret _ f => f.d = 0 && evenReg f.a && f.b = 0 && f.c = 0 && f.m = 0
  | .sleep _ f => f.d = 0 && f.a = 0 && f.fits 29
  | .bkpt _ f | .trap _ f => f.d = 0 && f.a = 0 && f.fits 16
  | .joinImm _ f | .leaveImm _ f => f.d = 0 && f.a = 0 && f.fits 5
  | .joinReg _ f | .leaveReg _ f => f.d = 0 && uni f.a && f.b = 0 && f.c = 0 && f.m = 0
  | .setinfo _ f => f.d = 0 && f.a = 0 && f.b = 0 && f.c = 0 && f.mb 13 13 = 0
      && (f.mb 12 12 = 0 || f.mb 11 4 = 0)
  | .reggive _ f | .regclaim _ f => f.d = 0 && f.a = 0 && f.fits 9
  | .spawn _ f => sdst f.d && uni f.a && srun 8 f.b && f.c = 0 && f.m = 0
  | .jdec _ f => sdst f.d && uni f.a && uni f.b && f.c = 0 && f.m = 0
  | .npreempt _ f | .preemptok _ f | .copyq _ f => sdst f.d && f.a = 0 && f.b = 0 && f.c = 0 && f.m = 0
  | .csrrd _ f => f.fits 12 && f.a = 0 && csrSlot f.imm.toNat true f.d
  | .csrwr _ f | .csrset _ f | .csrclr _ f => f.csrw
  | .iadd _ f | .isub _ f => f.int2 tysIntP 1
  | .iaddc _ f => f.ok [.n32] 1 (.reg true) f.src f.src f.src
  | .imul _ f | .imin _ f | .imax _ f => f.int2 tysIntP 0
  | .imulh _ f => f.int2 tysInt 0
  | .imad _ f =>
      if f.mlo 0 0 = 1 then f.ok [.i32, .n32] 1 (.reg true) f.src f.src (.reg true false)
      else f.ok tysInt 0 (.reg f.w) f.src f.src f.src
  | .iabs _ f | .ineg _ f => f.int1 [.i32, .i64, .i16x2] 1
  | .and _ f | .or _ f | .xor _ f => f.int2 tysBits 0
  | .not _ f | .brev _ f | .mov _ f => f.int1 tysBits 0
  | .shl _ f | .shr _ f | .sar _ f => f.shift 0
  | .rot _ f => f.shift 1
  | .popc _ f | .clz _ f => f.ok tysBits 0 (.reg false) f.src .unused .unused
  | .bfe _ f => f.ok tysInt 0 (.reg f.w) f.src (.reg false false) .unused
  | .bfi _ f => f.ok tysBits 0 (.reg f.w) f.src (.reg false false) f.src
  | .icmp _ f => f.ok tysShift 7 .pred f.src f.src .unused && f.mlo 2 0 < 6
  | .sel _ f => f.ok tysBits 1 (.reg f.w) f.src f.src .pred && !f.u
  | .moviImm _ f => f.a.toNat % 128 = 0 && (f.a.toNat < 128 || sdst f.d)
  | .moviLit _ f =>
      let s := f.sel.toNat / 32 = 1
      let sx := f.sel.toNat / 16 % 2 = 1
      let hi := f.sel.toNat / 8 % 2 = 1
      f.sel.toNat % 8 = 0 && (!hi || (s && !sx)) && (!s || sdst f.d)
  | .bcast _ f => f.ok tysBits 0 (.reg f.w) (.vec f.w) (.reg false false) .unused && !f.u && f.sb
  | .readlane _ f => f.ok tysBits 0 (.reg f.w) (.vec f.w) (.reg false false) .unused && f.u
  | .shfl _ f => f.ok tysBits 0x1F (.reg f.w) (.vec f.w) (.reg false false) .unused && !f.u
      && 1 ≤ f.mlo 4 2 && f.mlo 4 2 ≤ 6
  | .vote _ f => f.ok [.i32] 7 (.reg (f.mlo 1 0 = 3)) .pred .unused .unused
  | .wred _ f => f.reduce 0x07
  | .scan _ f => f.reduce 0x0F
  | .fadd _ f | .fsub _ f | .fmul _ f => f.int2 tysFloat 3
  | .ffma _ f => f.ok tysFloat 3 (.reg f.w) f.src f.src f.src
  | .fmin _ f | .fmax _ f => f.int2 tysFloat 0
  | .fcmp _ f => f.ok [.f32, .f64] 7 .pred f.src f.src .unused
  | .fclass _ f => f.ok [.f32, .f64] 0 (.reg false) f.src .unused .unused
  | .frcp _ f | .frsq _ f | .fex2 _ f | .flg2 _ f | .fsin _ f | .fcos _ f => f.int1 [.f32] 0
  | .fsqrt _ f => f.int1 [.f32] 3
  | .fdivs _ f => f.int2 [.f32] 3
  | .dot2 _ f => f.ok [.f16x2, .bf16x2] 3 (.reg false) f.src f.src f.src
  | .dot4 _ f => f.ok [.i8x4, .n8x4] 1 (.reg false) f.src f.src f.src
  | .cvt _ f => f.conv 20 false
  | .frnd _ f => f.int1 tysFloat 3
  | .pack _ f =>
      let fl : Bool := f.ty.isFloat
      f.ok [.f16x2, .bf16x2, .i16x2, .n16x2] (if fl then 7 else 0) (.reg false)
        (.reg false fl) (.reg false fl) .unused
  | .unpk _ f => f.ok [.f16x2, .bf16x2, .i16x2, .n16x2] 1 (.reg false) f.src .unused .unused
  | .sladd _ f | .slsub _ f | .slmul _ f | .sldiv _ f => f.int2 tysSli 0
  | .slcmp _ f => f.ok [.sli32] 7 .pred f.src f.src .unused
  | .slcvt _ f => f.conv 22 true
  | .slflg _ f =>
      let act := f.mlo 1 0
      f.ok [.b32] 3 (.reg false) (if act = 0 then .unused else .reg false false) .unused .unused
        && !f.u && act < 3
  | .sllvl _ f => f.int1 tysSli 0
  | .ld _ f | .st _ f =>
      let t := f.var.toNat % 8
      let ord := f.var.toNat / 8 % 2
      f.var.toNat < 16 && uni f.h && (!mty64 t || evenReg f.data)
        && (if ord = 0 then f.scope = 0 else f.scope ≠ 7)
  | .lds _ f => f.var.toNat < 8 && sdst f.data && uni f.h && srun 1 f.k && f.scope = 0
  | .pref _ f => f.var = 0 && f.data = 0 && uni f.h && f.scope = 0
  | .fence _ f => f.d = 0 && f.a = 0 && f.b = 0 && f.c = 0 && f.mb 13 5 = 0 && f.mb 4 3 ≠ 0 && f.mb 2 0 ≠ 7
  | .fencex _ f =>
      f.d = 0 && f.c = 0 && f.a.toNat < 32 && f.b.toNat < 32 && f.a ≠ 0 && f.b ≠ 0
        && f.mb 13 5 = 0 && f.mb 4 3 ≠ 0 && f.mb 2 0 ≠ 7
        && ((f.a.toNat < 16 && f.b.toNat < 16) || f.mb 2 0 = 6)
  | .clean _ f | .inval _ f | .clinv _ f =>
      f.d = 0 && uni f.a && srun 1 f.b && srun 1 f.c && f.mb 13 2 = 0 && f.mb 1 0 ≠ 3
  | .layset _ f => sdst f.d && uni f.a && srun 8 f.b && f.c = 0 && f.m = 0
  | .layget _ f => srun 8 f.d && uni f.a && f.b = 0 && f.c = 0 && f.m = 0
  | .laychk _ f => pslot f.d && uni f.a && f.c = 0 && f.mb 13 1 = 0
  | .atoms _ f => f.var.toNat < 8 && uni f.h && f.pol = 0 && f.scope = 0 && (f.var.toNat ≠ 7 || evenReg f.data)
  | .atom _ f => uni f.h && atomData (f.var.toNat % 16) f.data
      && (if f.var.toNat / 16 = 0 then f.scope = 0 else f.scope ≠ 7)
  | .copy _ f => sdst f.d && srun 8 f.a && uni f.b && f.c = 0 && f.mb 13 7 = 0
  | .copym _ f => sdst f.d && srun 8 f.a && uni f.b && uni f.c && f.mb 13 7 = 0
  | .binit _ f => f.d = 0 && uni f.a && uni f.b && f.c = 0 && f.mb 13 3 = 0
  | .barrive _ f => f.d = 0 && uni f.a && uni f.b && f.c = 0 && f.mb 13 4 = 0 && f.mb 3 1 ≠ 7
  | .bexpect _ f => f.d = 0 && uni f.a && uni f.b && uni f.c && f.mb 13 1 = 0
  | .bwait _ f => f.d = 0 && uni f.a && uni f.b && f.c = 0 && f.mb 0 0 = 0 && f.mb 13 4 = 0 && f.mb 3 1 ≠ 7
  | .btest _ f => pslot f.d && uni f.a && uni f.b && f.c = 0 && f.mb 0 0 = 0 && f.mb 13 4 = 0 && f.mb 3 1 ≠ 7
  | .reside _ f => sdst f.d && uni f.a && uni f.b && f.c = 0 && f.mb 13 2 = 0 && f.mb 1 0 ≠ 3
  | .unreside _ f | .kvdrop _ f => sdst f.d && uni f.a && f.b = 0 && f.c = 0 && f.m = 0
  | .kvget _ f => sdst f.d && uni f.a && uni f.b && uni f.c && f.m = 0
  | .kvput _ f => sdst f.d && uni f.a && uni f.b && uni f.c && f.mb 13 2 = 0
  | .kvpin _ f => sdst f.d && uni f.a && f.b = 0 && f.c = 0 && f.mb 13 1 = 0
  | .mma _ f => f.mc ≠ 3 && uni f.a && uni f.b && f.fl.toNat < 4
      && (if f.mc = 0 then 16 else if f.mc = 1 then 64 else 256) * (16 * (f.n.toNat + 1)) ≤ 65536
  | .accz _ f => f.d = 0 && uni f.a && uni f.b && f.c = 0 && f.m = 0
  | .accld _ f => f.d = 0 && uni f.a && uni f.b && uni f.c && f.m = 0
  | .accrd _ f => uni f.a && (f.mb 0 0 = 0 || srcCode false true f.b) && f.c = 0 && f.mb 13 1 = 0
  | .drain _ f =>
      let fmt := f.mb 3 0
      let blocked : Bool := 6 ≤ fmt && fmt ≤ 11
      uni f.d && uni f.b && f.c = 0 && 1 ≤ fmt && fmt ≤ 11 && (blocked = (f.mb 8 7 ≠ 0 : Bool))
        && (if blocked then uni f.a else f.a = 0) && (blocked || f.mb 9 9 = 0) && f.mb 13 12 = 0
  | .lred _ f => f.lredOk false
  | .lredw _ f => f.lredOk true
  | .lxpose _ f => sdst f.d && srun 3 f.a && f.b = 0 && f.c = 0 && f.mb 13 2 = 0 && f.mb 1 0 ≠ 3
  | .illegalOpcode w => !assigned (w.toNat / 2 ^ 54)
  | _ => true

end Sys2Proof
end

