-- ==== Sys2Proof/Decode.lean ====
section
/-! DEFINITION. The decoder (R171, R173, R175, R179, R183, R184) and the encoder written from the same tables.
A word with an unassigned opcode decodes to `illegalOpcode`, the row of the table that traps; a word whose fields
break R175 to R181 is rejected by the name ILLEGAL_ENC. -/
namespace Sys2Proof

/-- Why bytes do not decode. -/
inductive DecodeError where
  | illegalEnc   -- the word traps ILLEGAL_ENC (R182 order 2)
  | short        -- fewer than eight bytes: no word (R171)
  deriving DecidableEq, Repr

/-- Bits `lo + n - 1 : lo` of a word. -/
def Word.fld (w : Word) (lo n : Nat) : BitVec n := w.extractLsb' lo n

/-- The opcode, bits 63:54 (R175). -/
def Word.opcode (w : Word) : Nat := (w.fld 54 10).toNat

/-- The operand type of a 4-bit code (R180). -/
def Ty.ofCode (x : BitVec 4) : Ty :=
  match x.toNat with
  | 0 => .i32 | 1 => .n32 | 2 => .i64 | 3 => .n64 | 4 => .b32 | 5 => .b64 | 6 => .f32 | 7 => .f64
  | 8 => .f16x2 | 9 => .bf16x2 | 10 => .i16x2 | 11 => .n16x2 | 12 => .i8x4 | 13 => .n8x4 | 14 => .sli32
  | _ => .sli16x2

/-- The 4-bit code of an operand type (R180). -/
def Ty.code : Ty → BitVec 4
  | .i32 => 0 | .n32 => 1 | .i64 => 2 | .n64 => 3 | .b32 => 4 | .b64 => 5 | .f32 => 6 | .f64 => 7
  | .f16x2 => 8 | .bf16x2 => 9 | .i16x2 => 10 | .n16x2 => 11 | .i8x4 => 12 | .n8x4 => 13 | .sli32 => 14
  | .sli16x2 => 15

def bit (x : BitVec 1) : Bool := x = 1

def Word.hdr (w : Word) : Hdr := ⟨w.fld 50 4, bit (w.fld 49 1), w.fld 46 3⟩
def Word.af (w : Word) : AF :=
  ⟨w.fld 38 8, w.fld 30 8, w.fld 22 8, w.fld 14 8, bit (w.fld 13 1), bit (w.fld 12 1), bit (w.fld 11 1),
    bit (w.fld 10 1), .ofCode (w.fld 6 4), w.fld 0 6⟩
def Word.gf (w : Word) : GF := ⟨w.fld 38 8, w.fld 30 8, w.fld 22 8, w.fld 14 8, w.fld 0 14⟩
def Word.iF (w : Word) : IF := ⟨w.fld 38 8, w.fld 30 8, w.fld 0 30⟩
def Word.lf (w : Word) : LF := ⟨w.fld 38 8, w.fld 32 6, w.fld 0 32⟩
/-- The memory form; `n` low bits of the opcode are the variant (R183). -/
def Word.mf (w : Word) (n : Nat) : MF :=
  ⟨(w.fld 54 n).setWidth 6, w.fld 38 8, w.fld 30 8, w.fld 22 8, w.fld 6 16, w.fld 3 3, w.fld 0 3⟩
def Word.xf (w : Word) : XF :=
  ⟨w.fld 42 4, w.fld 40 2, w.fld 34 6, w.fld 26 8, w.fld 18 8, w.fld 8 10, w.fld 0 8⟩

/-- Form G of group 0, MOVI and the arithmetic groups: the opcodes 0x000 to 0x1FF (R183). -/
def rawLow (w : Word) : Nat → Instr
  | 0x000 => .nop w.hdr w.gf
  | 0x001 => .bra w.hdr w.iF
  | 0x002 => .brx w.hdr w.gf
  | 0x003 => .call w.hdr w.iF
  | 0x004 => .callx w.hdr w.gf
  | 0x005 => .ret w.hdr w.gf
  | 0x006 => .meet w.hdr w.iF
  | 0x007 => .unmeet w.hdr w.gf
  | 0x008 => .exit w.hdr w.gf
  | 0x009 => .yieldW w.hdr w.gf
  | 0x00A => .sleep w.hdr w.iF
  | 0x00B => .bkpt w.hdr w.iF
  | 0x00C => .trap w.hdr w.iF
  | 0x00D => .trapret w.hdr w.gf
  | 0x00E => .joinImm w.hdr w.iF
  | 0x00F => .joinReg w.hdr w.gf
  | 0x010 => .leaveImm w.hdr w.iF
  | 0x011 => .leaveReg w.hdr w.gf
  | 0x012 => .setinfo w.hdr w.gf
  | 0x013 => .reggive w.hdr w.iF
  | 0x014 => .regclaim w.hdr w.iF
  | 0x015 => .spawn w.hdr w.gf
  | 0x016 => .jdec w.hdr w.gf
  | 0x017 => .npreempt w.hdr w.gf
  | 0x018 => .preemptok w.hdr w.gf
  | 0x019 => .csrrd w.hdr w.iF
  | 0x01A => .csrwr w.hdr w.iF
  | 0x01B => .csrset w.hdr w.iF
  | 0x01C => .csrclr w.hdr w.iF
  | 0x01D => .ptsync w.hdr w.gf
  | 0x080 => .iadd w.hdr w.af
  | 0x081 => .isub w.hdr w.af
  | 0x082 => .iaddc w.hdr w.af
  | 0x083 => .imul w.hdr w.af
  | 0x084 => .imulh w.hdr w.af
  | 0x085 => .imad w.hdr w.af
  | 0x086 => .imin w.hdr w.af
  | 0x087 => .imax w.hdr w.af
  | 0x088 => .iabs w.hdr w.af
  | 0x089 => .ineg w.hdr w.af
  | 0x08A => .and w.hdr w.af
  | 0x08B => .or w.hdr w.af
  | 0x08C => .xor w.hdr w.af
  | 0x08D => .not w.hdr w.af
  | 0x08E => .shl w.hdr w.af
  | 0x08F => .shr w.hdr w.af
  | 0x090 => .sar w.hdr w.af
  | 0x091 => .rot w.hdr w.af
  | 0x092 => .popc w.hdr w.af
  | 0x093 => .clz w.hdr w.af
  | 0x094 => .bfe w.hdr w.af
  | 0x095 => .bfi w.hdr w.af
  | 0x096 => .brev w.hdr w.af
  | 0x097 => .icmp w.hdr w.af
  | 0x098 => .sel w.hdr w.af
  | 0x099 => .mov w.hdr w.af
  | 0x09A => .moviImm w.hdr w.iF
  | 0x09B => .moviLit w.hdr w.lf
  | 0x09C => .bcast w.hdr w.af
  | 0x09D => .readlane w.hdr w.af
  | 0x09E => .shfl w.hdr w.af
  | 0x09F => .vote w.hdr w.af
  | 0x0A0 => .wred w.hdr w.af
  | 0x0A1 => .scan w.hdr w.af
  | 0x100 => .fadd w.hdr w.af
  | 0x101 => .fsub w.hdr w.af
  | 0x102 => .fmul w.hdr w.af
  | 0x103 => .ffma w.hdr w.af
  | 0x104 => .fmin w.hdr w.af
  | 0x105 => .fmax w.hdr w.af
  | 0x106 => .fcmp w.hdr w.af
  | 0x107 => .fclass w.hdr w.af
  | 0x108 => .frcp w.hdr w.af
  | 0x109 => .frsq w.hdr w.af
  | 0x10A => .fsqrt w.hdr w.af
  | 0x10B => .fex2 w.hdr w.af
  | 0x10C => .flg2 w.hdr w.af
  | 0x10D => .fsin w.hdr w.af
  | 0x10E => .fcos w.hdr w.af
  | 0x10F => .fdivs w.hdr w.af
  | 0x110 => .dot2 w.hdr w.af
  | 0x111 => .dot4 w.hdr w.af
  | 0x180 => .cvt w.hdr w.af
  | 0x181 => .frnd w.hdr w.af
  | 0x182 => .pack w.hdr w.af
  | 0x183 => .unpk w.hdr w.af
  | 0x184 => .sladd w.hdr w.af
  | 0x185 => .slsub w.hdr w.af
  | 0x186 => .slmul w.hdr w.af
  | 0x187 => .sldiv w.hdr w.af
  | 0x188 => .slcmp w.hdr w.af
  | 0x189 => .slcvt w.hdr w.af
  | 0x18A => .slflg w.hdr w.af
  | 0x18B => .sllvl w.hdr w.af
  | _ => .illegalOpcode w

/-- The opcodes 0x200 to 0x3FF without variant bits (R183). -/
def rawHigh (w : Word) : Nat → Instr
  | 0x228 => .pref w.hdr (w.mf 0)
  | 0x229 => .fence w.hdr w.gf
  | 0x22A => .fencex w.hdr w.gf
  | 0x22B => .clean w.hdr w.gf
  | 0x22C => .inval w.hdr w.gf
  | 0x22D => .clinv w.hdr w.gf
  | 0x22E => .layset w.hdr w.gf
  | 0x22F => .layget w.hdr w.gf
  | 0x238 => .laychk w.hdr w.gf
  | 0x2C0 => .copy w.hdr w.gf
  | 0x2C1 => .copym w.hdr w.gf
  | 0x2C2 => .copyq w.hdr w.gf
  | 0x2C3 => .binit w.hdr w.gf
  | 0x2C4 => .barrive w.hdr w.gf
  | 0x2C5 => .bexpect w.hdr w.gf
  | 0x2C6 => .bwait w.hdr w.gf
  | 0x2C7 => .btest w.hdr w.gf
  | 0x2C8 => .reside w.hdr w.gf
  | 0x2C9 => .unreside w.hdr w.gf
  | 0x2CA => .kvget w.hdr w.gf
  | 0x2CB => .kvput w.hdr w.gf
  | 0x2CC => .kvpin w.hdr w.gf
  | 0x2CD => .kvdrop w.hdr w.gf
  | 0x300 => .mma w.hdr w.xf
  | 0x301 => .accz w.hdr w.gf
  | 0x302 => .accld w.hdr w.gf
  | 0x303 => .accrd w.hdr w.gf
  | 0x304 => .drain w.hdr w.gf
  | 0x305 => .lred w.hdr w.gf
  | 0x306 => .lredw w.hdr w.gf
  | 0x307 => .lxpose w.hdr w.gf
  | _ => .illegalOpcode w

/-- The instruction a word's opcode names, its fields not yet checked (R175, R183, R184). -/
def rawInstr (w : Word) : Instr :=
  let op := w.opcode
  if op < 0x200 then rawLow w op
  else if op < 0x210 then .ld w.hdr (w.mf 4)
  else if op < 0x220 then .st w.hdr (w.mf 4)
  else if op < 0x228 then .lds w.hdr (w.mf 3)
  else if 0x230 ≤ op ∧ op < 0x238 then .atoms w.hdr (w.mf 3)
  else if 0x240 ≤ op ∧ op < 0x280 then .atom w.hdr (w.mf 6)
  else rawHigh w op

/-- The decoder of one word (R182 orders 1 and 2). -/
def decodeWord (w : Word) : Except DecodeError Instr :=
  let i := rawInstr w
  if i.wellFormed then .ok i else .error .illegalEnc

/-- A word from eight bytes, the least significant first (R5). -/
def wordOfBytes (b0 b1 b2 b3 b4 b5 b6 b7 : Byte) : Word :=
  b7 ++ b6 ++ b5 ++ b4 ++ b3 ++ b2 ++ b1 ++ b0

/-- The decoder on any bytes: the instruction and the bytes after it (R171). -/
def decode : List Byte → Except DecodeError (Instr × List Byte)
  | b0 :: b1 :: b2 :: b3 :: b4 :: b5 :: b6 :: b7 :: rest =>
    match decodeWord (wordOfBytes b0 b1 b2 b3 b4 b5 b6 b7) with
    | .ok i => .ok (i, rest)
    | .error e => .error e
  | _ => .error .short

/-- The bytes of a word as memory holds it (R5). -/
def bytesOfWord (w : Word) : List Byte :=
  [w.fld 0 8, w.fld 8 8, w.fld 16 8, w.fld 24 8, w.fld 32 8, w.fld 40 8, w.fld 48 8, w.fld 56 8]

/-- A clause header (R171). -/
structure Header where
  cls   : BitVec 4
  count : BitVec 4   -- words minus one
  wait  : Byte
  deriving DecidableEq, Repr

/-- The header of a word, or none where its signature, class or reserved bits break R171. -/
def decodeHeader (w : Word) : Option Header :=
  if w.fld 60 4 = 0xA ∧ (w.fld 56 4).toNat < 6 ∧ w.fld 0 44 = 0 then
    some ⟨w.fld 56 4, w.fld 52 4, w.fld 44 8⟩
  else none

/-- The word of a header (R171). -/
def encodeHeader (h : Header) : Word := (0xA : BitVec 4) ++ h.cls ++ h.count ++ h.wait ++ (0 : BitVec 44)

/-- A one-bit field. -/
def ofBit (b : Bool) : BitVec 1 := if b then 1 else 0

/-- Opcode and common fields above a 46-bit body (R175). -/
def encodeWith (op : Nat) (h : Hdr) (body : BitVec 46) : Word :=
  BitVec.ofNat 10 op ++ h.stall ++ ofBit h.neg ++ h.pred ++ body

def AF.body (f : AF) : BitVec 46 :=
  f.d ++ f.a ++ f.b ++ f.c ++ ofBit f.u ++ ofBit f.sa ++ ofBit f.sb ++ ofBit f.sc ++ f.ty.code ++ f.m
def GF.body (f : GF) : BitVec 46 := f.d ++ f.a ++ f.b ++ f.c ++ f.m
def IF.body (f : IF) : BitVec 46 := f.d ++ f.a ++ f.imm
def LF.body (f : LF) : BitVec 46 := f.d ++ f.sel ++ f.lit
def MF.body (f : MF) : BitVec 46 := f.data ++ f.h ++ f.k ++ f.off ++ f.pol ++ f.scope
def XF.body (f : XF) : BitVec 46 := f.rod ++ f.mc ++ f.n ++ f.a ++ f.b ++ f.acc ++ f.fl

/-- The word of an instruction; none for an event, which has no encoding. -/
def encode : Instr → Option Word
  | .nop h f => some (encodeWith 0x000 h f.body)
  | .bra h f => some (encodeWith 0x001 h f.body)
  | .brx h f => some (encodeWith 0x002 h f.body)
  | .call h f => some (encodeWith 0x003 h f.body)
  | .callx h f => some (encodeWith 0x004 h f.body)
  | .ret h f => some (encodeWith 0x005 h f.body)
  | .meet h f => some (encodeWith 0x006 h f.body)
  | .unmeet h f => some (encodeWith 0x007 h f.body)
  | .exit h f => some (encodeWith 0x008 h f.body)
  | .yieldW h f => some (encodeWith 0x009 h f.body)
  | .sleep h f => some (encodeWith 0x00A h f.body)
  | .bkpt h f => some (encodeWith 0x00B h f.body)
  | .trap h f => some (encodeWith 0x00C h f.body)
  | .trapret h f => some (encodeWith 0x00D h f.body)
  | .joinImm h f => some (encodeWith 0x00E h f.body)
  | .joinReg h f => some (encodeWith 0x00F h f.body)
  | .leaveImm h f => some (encodeWith 0x010 h f.body)
  | .leaveReg h f => some (encodeWith 0x011 h f.body)
  | .setinfo h f => some (encodeWith 0x012 h f.body)
  | .reggive h f => some (encodeWith 0x013 h f.body)
  | .regclaim h f => some (encodeWith 0x014 h f.body)
  | .spawn h f => some (encodeWith 0x015 h f.body)
  | .jdec h f => some (encodeWith 0x016 h f.body)
  | .npreempt h f => some (encodeWith 0x017 h f.body)
  | .preemptok h f => some (encodeWith 0x018 h f.body)
  | .csrrd h f => some (encodeWith 0x019 h f.body)
  | .csrwr h f => some (encodeWith 0x01A h f.body)
  | .csrset h f => some (encodeWith 0x01B h f.body)
  | .csrclr h f => some (encodeWith 0x01C h f.body)
  | .ptsync h f => some (encodeWith 0x01D h f.body)
  | .iadd h f => some (encodeWith 0x080 h f.body)
  | .isub h f => some (encodeWith 0x081 h f.body)
  | .iaddc h f => some (encodeWith 0x082 h f.body)
  | .imul h f => some (encodeWith 0x083 h f.body)
  | .imulh h f => some (encodeWith 0x084 h f.body)
  | .imad h f => some (encodeWith 0x085 h f.body)
  | .imin h f => some (encodeWith 0x086 h f.body)
  | .imax h f => some (encodeWith 0x087 h f.body)
  | .iabs h f => some (encodeWith 0x088 h f.body)
  | .ineg h f => some (encodeWith 0x089 h f.body)
  | .and h f => some (encodeWith 0x08A h f.body)
  | .or h f => some (encodeWith 0x08B h f.body)
  | .xor h f => some (encodeWith 0x08C h f.body)
  | .not h f => some (encodeWith 0x08D h f.body)
  | .shl h f => some (encodeWith 0x08E h f.body)
  | .shr h f => some (encodeWith 0x08F h f.body)
  | .sar h f => some (encodeWith 0x090 h f.body)
  | .rot h f => some (encodeWith 0x091 h f.body)
  | .popc h f => some (encodeWith 0x092 h f.body)
  | .clz h f => some (encodeWith 0x093 h f.body)
  | .bfe h f => some (encodeWith 0x094 h f.body)
  | .bfi h f => some (encodeWith 0x095 h f.body)
  | .brev h f => some (encodeWith 0x096 h f.body)
  | .icmp h f => some (encodeWith 0x097 h f.body)
  | .sel h f => some (encodeWith 0x098 h f.body)
  | .mov h f => some (encodeWith 0x099 h f.body)
  | .moviImm h f => some (encodeWith 0x09A h f.body)
  | .moviLit h f => some (encodeWith 0x09B h f.body)
  | .bcast h f => some (encodeWith 0x09C h f.body)
  | .readlane h f => some (encodeWith 0x09D h f.body)
  | .shfl h f => some (encodeWith 0x09E h f.body)
  | .vote h f => some (encodeWith 0x09F h f.body)
  | .wred h f => some (encodeWith 0x0A0 h f.body)
  | .scan h f => some (encodeWith 0x0A1 h f.body)
  | .fadd h f => some (encodeWith 0x100 h f.body)
  | .fsub h f => some (encodeWith 0x101 h f.body)
  | .fmul h f => some (encodeWith 0x102 h f.body)
  | .ffma h f => some (encodeWith 0x103 h f.body)
  | .fmin h f => some (encodeWith 0x104 h f.body)
  | .fmax h f => some (encodeWith 0x105 h f.body)
  | .fcmp h f => some (encodeWith 0x106 h f.body)
  | .fclass h f => some (encodeWith 0x107 h f.body)
  | .frcp h f => some (encodeWith 0x108 h f.body)
  | .frsq h f => some (encodeWith 0x109 h f.body)
  | .fsqrt h f => some (encodeWith 0x10A h f.body)
  | .fex2 h f => some (encodeWith 0x10B h f.body)
  | .flg2 h f => some (encodeWith 0x10C h f.body)
  | .fsin h f => some (encodeWith 0x10D h f.body)
  | .fcos h f => some (encodeWith 0x10E h f.body)
  | .fdivs h f => some (encodeWith 0x10F h f.body)
  | .dot2 h f => some (encodeWith 0x110 h f.body)
  | .dot4 h f => some (encodeWith 0x111 h f.body)
  | .cvt h f => some (encodeWith 0x180 h f.body)
  | .frnd h f => some (encodeWith 0x181 h f.body)
  | .pack h f => some (encodeWith 0x182 h f.body)
  | .unpk h f => some (encodeWith 0x183 h f.body)
  | .sladd h f => some (encodeWith 0x184 h f.body)
  | .slsub h f => some (encodeWith 0x185 h f.body)
  | .slmul h f => some (encodeWith 0x186 h f.body)
  | .sldiv h f => some (encodeWith 0x187 h f.body)
  | .slcmp h f => some (encodeWith 0x188 h f.body)
  | .slcvt h f => some (encodeWith 0x189 h f.body)
  | .slflg h f => some (encodeWith 0x18A h f.body)
  | .sllvl h f => some (encodeWith 0x18B h f.body)
  | .pref h f => some (encodeWith 0x228 h f.body)
  | .fence h f => some (encodeWith 0x229 h f.body)
  | .fencex h f => some (encodeWith 0x22A h f.body)
  | .clean h f => some (encodeWith 0x22B h f.body)
  | .inval h f => some (encodeWith 0x22C h f.body)
  | .clinv h f => some (encodeWith 0x22D h f.body)
  | .layset h f => some (encodeWith 0x22E h f.body)
  | .layget h f => some (encodeWith 0x22F h f.body)
  | .laychk h f => some (encodeWith 0x238 h f.body)
  | .copy h f => some (encodeWith 0x2C0 h f.body)
  | .copym h f => some (encodeWith 0x2C1 h f.body)
  | .copyq h f => some (encodeWith 0x2C2 h f.body)
  | .binit h f => some (encodeWith 0x2C3 h f.body)
  | .barrive h f => some (encodeWith 0x2C4 h f.body)
  | .bexpect h f => some (encodeWith 0x2C5 h f.body)
  | .bwait h f => some (encodeWith 0x2C6 h f.body)
  | .btest h f => some (encodeWith 0x2C7 h f.body)
  | .reside h f => some (encodeWith 0x2C8 h f.body)
  | .unreside h f => some (encodeWith 0x2C9 h f.body)
  | .kvget h f => some (encodeWith 0x2CA h f.body)
  | .kvput h f => some (encodeWith 0x2CB h f.body)
  | .kvpin h f => some (encodeWith 0x2CC h f.body)
  | .kvdrop h f => some (encodeWith 0x2CD h f.body)
  | .mma h f => some (encodeWith 0x300 h f.body)
  | .accz h f => some (encodeWith 0x301 h f.body)
  | .accld h f => some (encodeWith 0x302 h f.body)
  | .accrd h f => some (encodeWith 0x303 h f.body)
  | .drain h f => some (encodeWith 0x304 h f.body)
  | .lred h f => some (encodeWith 0x305 h f.body)
  | .lredw h f => some (encodeWith 0x306 h f.body)
  | .lxpose h f => some (encodeWith 0x307 h f.body)
  | .ld h f => some (encodeWith (0x200 + f.var.toNat) h f.body)
  | .st h f => some (encodeWith (0x210 + f.var.toNat) h f.body)
  | .lds h f => some (encodeWith (0x220 + f.var.toNat) h f.body)
  | .atoms h f => some (encodeWith (0x230 + f.var.toNat) h f.body)
  | .atom h f => some (encodeWith (0x240 + f.var.toNat) h f.body)
  | .illegalOpcode w => some w
  | _ => none

/-- The instruction the decoder reads from the low 64 bits of `w` laid out as the hardware stores them. Every
instruction is one 64-bit word; bits above `nbits` are zero. -/
def decodeTableWord (nbits w : Nat) : Option Instr :=
  match decode (bytesOfWord (BitVec.ofNat 64 (w % 2 ^ nbits))) with
  | .ok (i, _) => some i
  | .error _ => none

end Sys2Proof
end

