-- ==== Sys2Proof/Config.lean ====
section
/-! DEFINITION. What a part's discovery table and configuration store fix (the HW resets of R7), and the free
values: opaque constants with no body, so that no proof can use a value of one (log entries 3, 6 and 10). -/
namespace Sys2Proof.Config

/-- Logical cores and lodes of the part (R17, R18). -/
def nCores : Nat := 256

/-- Offset of the register window in device physical space, 16 MiB aligned (reg_base of R88; log 6). -/
def regBase : Nat := 0x000F_FFFF_FF00_0000

/-- Physical HBM of the part in GiB (R2) and of one lode's two channels in 1 KiB flakes (R18, R20). -/
def hbmGib : Nat := 768
def flakesPerLode : Nat := 3145728
/-- Free flakes of one lode at start: 512 B of directory a frame of the 768 GiB first advertised are taken off (R35). -/
def freePerLode : Nat := 3121152
/-- Directory flakes of one lode at start. -/
def dirPerLode : Nat := flakesPerLode - freePerLode
/-- Frame number at which quarter `q` of the stored layout begins: each quarter has room for the 1,536 GiB that one die
alone may advertise, so that no two partitions' ranges meet (R35, R381; log 6). -/
def quarterBase (q : Nat) : Nat := q * 25165824

/-- Interior columns: 36 of each die's 64 columns, which with 28 edge columns give the 5,280 MiB of R20; those of the
lowest numbers, lode 9 of the example in file 04 among them (log 6). -/
def interior (n : Nat) : Bool := n % 64 < 36

/-- Core clock in MHz at reset (R2, R6). -/
def clockMhz : Nat := 1750

/-- Spare rows of each HBM channel at reset (R90; log 6). -/
def spareRows : Nat := 64

/-- Repair records the signed store can hold (R366). -/
def storeSize : Nat := 4096

/-- Which of the two faithful neighbours a special function returns: true for the upper one (R238, R9). The key
is the function (0 FRCP, 1 FRSQ, 2 FEX2, 3 FLG2, 4 FSIN, 5 FCOS) and the operand's bits. -/
opaque faithfulUp : Nat → BitVec 32 → Bool

/-- The order in which lanes that name one element are performed (R250): a key, the lane with the least key first;
`n` numbers the issue. -/
opaque laneKey : Nat → Nat → Nat

/-- A fresh random 64-bit audit key (R363). -/
opaque auditKey : Nat → BitVec 64

/-- SM3 of a byte string (R363, R377, R379), the SM2 public key of a private key, the SM2 signature of a digest by a private
key (R366, R378, R379), and verification of a firmware image: its chain, signature and security version (R377). The manual
names these standards and does not give them. -/
opaque sm3 : List Byte → BitVec 256
opaque sm2Public : BitVec 256 → BitVec 512
opaque sm2Sign : BitVec 256 → BitVec 256 → BitVec 512
opaque imageVersion : List Byte → Option Nat

/-- The package's PUF response, and the bytes that the SM3-based key derivation hashes for it (R378). -/
opaque pufResponse : List Byte
opaque kdfInput : List Byte → List Byte

/-- The PCI-SIG vendor identifier and the number of the 64-bit memory BAR that maps the register window (R88). -/
opaque vendorId : BitVec 16
opaque barNumber : BitVec 3

/-- The boot ROM, the configuration store of a floor, a layout and a capacity, and the vendor's certificate for a public key,
as bytes (R377 to R379). -/
opaque bootRom : List Byte
opaque configStore : Nat → BitVec 3 → Nat → List Byte
opaque vendorCert : BitVec 512 → List Byte

/-- Whether the requester of the `n`-th NEGOTIATE_ALGORITHMS offers SM2 P-256 and SM3-256 (R379). -/
opaque offers : Nat → Bool

/-- What stage 1's self-tests find, numbered by the test: the dies that fail, and the strata sites of a lode (R383). -/
opaque dieFails : Nat → BitVec 4
opaque siteFails : Nat → Nat → BitVec 32

/-- Which bank of a role holds a line or an entry of a lode; only a group's loss shows it (R70, R92). -/
opaque bankPick : Nat → Nat → Nat

/-- The bytes of a repair record, by the number that encodes its location (R379; the manual does not give them). -/
opaque recordBytes : Nat → List Byte

/-- A sensor reading of the management controller (R384); `n` numbers the reading. -/
opaque sensor : Nat → Nat → BitVec 32

/-- Values the manual states no number for: how long a MERGE or SPLIT runs (R382), the packets of a dead link that are
retried (R367), and a link's measured round trip (R90). -/
opaque partClk : Nat → Nat
opaque packets : Nat → Nat
opaque roundTrip : Nat → Nat

end Sys2Proof.Config
end

