-- ==== Sys2Proof/Machine/State.lean ====
section
/-! DEFINITION. The state of the machine as plain data. Registers of the register window stand in `State.csr`, by
byte offset (R88, R89); everything else the manual gives stands in a record of its own. Each structure's docstring
cites the rule that names it. -/
namespace Sys2Proof.Machine

/-- Trap causes (R336). The numbers are given by `Cause.code`. -/
inductive Cause where
  | range | notPresent | badPte | home | world | perm | strata | aliased | frame | hostErr
  | bounds | align | scratchRange | outOfSpace | ue
  | illegalClause | illegalOpcode | illegalEnc | role | regrange | stallShort
  | handle | space | copyArg | copyBounds | matrixArg | redArg
  | setArg | rod | regCount | regDeadlock
  | barrierArg | barrierErr | csrArg | priv | illegalState | breakpoint | software
  deriving DecidableEq, Repr

/-- What stops the machine. The manual gives every instruction an effect or a trap, and a trap is a next state; the
one fault is the model's own. -/
inductive Fault where
  /-- Raised by the meaning of an instruction word when no clause is being issued: no run reaches it, since `step`
  gives a word to `exec` only from a clause in progress (R158). Safe: the machine stops where the hardware has no step. -/
  | noIssue
  deriving DecidableEq, Repr

/-- Why a step has no meaning. -/
inductive Refusal where
  /-- An instruction whose meaning is not written. No arm of `exec` answers it now. Safe. -/
  | notModelled (mnemonic : String)
  deriving DecidableEq, Repr

/-- Role of a wave (R163). -/
inductive Role where
  | copy | matrix | vector
  deriving DecidableEq, Repr

/-- A thread's pc, in the form of THR_TPC (R344): clause-header address, word index, resume at the word. -/
structure Pc where
  addr : BitVec 57
  word : BitVec 4 := 0
  mid  : Bool := false
  deriving DecidableEq, Repr

/-- A meeting register (R155, R216). -/
structure Meet where
  addr  : BitVec 57 := 0
  valid : Bool := false
  deriving DecidableEq, Repr

/-- A bead's content: the instruction word, its size fields, and the two operand words (R165, R351). -/
structure Bead where
  raw : Word
  mc  : BitVec 2
  n   : BitVec 6
  acc : BitVec 10
  fl  : Byte
  a   : Word
  b   : Word
  deriving DecidableEq, Repr

/-- What a waiting thread waits on (R157). -/
inductive WaitOn where
  | none
  | sleep (wake : Nat)
  | barrier (addr : Nat) (phase : BitVec 16) (scope : BitVec 3)
  | claim
  | bead (rod : Nat) (b : Bead) (word : Pc)
  | ptsync (n : Nat)
  deriving DecidableEq, Repr

/-- Thread status (R157). -/
inductive Status where
  | eligible | held | waiting | parked | exited
  deriving DecidableEq, Repr

/-- A thread (R155, R344, R352). -/
structure Thread where
  pc        : Pc
  meet      : Meet := {}
  shadow    : Meet := {}
  preds     : BitVec 7 := 0          -- p0 to p6
  sets      : BitVec 32 := 1
  status    : Status := .eligible
  waitOn    : WaitOn := .none
  cause     : Byte := 0              -- THR_TCAUSE 7:0
  active    : Bool := false          -- THR_TCAUSE 8
  laneCause : Bool := false          -- THR_TCAUSE 9
  delivered : Bool := false          -- THR_TCAUSE 10
  tpc       : Pc := ⟨0, 0, false⟩
  tinfo     : Word := 0
  sli       : BitVec 5 := 0
  starve    : Nat := 0
  faultId   : Option Nat := none
  deriving DecidableEq, Repr

/-- A register of a wave: vector register, scalar register, predicate, the meeting register (`m false`) or the set mask
(`m true`) as CSRRD reads it (R186, R200; a pending write of it carries the value before), or none. -/
inductive Reg where
  | v (k : Nat) | s (k : Nat) | p (k : Nat) | m (sets : Bool) | none
  deriving DecidableEq, Repr

/-- One write of a register: `lane` is 0 for a scalar. -/
structure RegWrite where
  reg  : Reg
  lane : Nat
  val  : Word
  deriving DecidableEq, Repr

/-- A fixed-latency write that has not landed (R186, R189). -/
structure PendWrite where
  w    : RegWrite
  land : Nat
  deriving DecidableEq, Repr

/-- The eight counters of R188. -/
structure Counters where
  ld : Nat := 0
  st : Nat := 0
  copy : Nat := 0
  mma : Nat := 0
  lode : Nat := 0
  sli : Nat := 0
  sys : Nat := 0
  ctr : Nat := 0
  deriving DecidableEq, Repr

/-- A wave (R156). -/
structure Wave where
  role     : Role
  part     : Nat
  slot     : Nat
  n        : Nat                       -- wave-registers held (R166)
  threads  : List Thread               -- 64, by lane
  sregs    : SMap Word := []           -- s0 to s191
  vregs    : SMap (BitVec 32) := []    -- key 64·register + lane
  pend     : List PendWrite := []
  marks    : List (Reg × Nat) := []    -- scoreboarded registers and their operation (R187)
  cnt      : Counters := {}
  holds    : List Nat := []            -- operations that hold words of classes 1 to 4 (R252, R259)
  nextAt   : Nat := 0                  -- earliest clk of the next clause (R185)
  gives    : List (Nat × Nat) := []    -- REGGIVE counts and the clk they take effect (R209)
  region   : Bool := false
  broken   : Bool := false
  yieldTo  : Option Nat := none        -- passed over until this clk (R203)
  readyAt  : Nat := 0                  -- clk since which it has not been chosen (R327)
  readySince : Option Nat := none      -- clk since which it has been ready without being chosen (R327)
  ended    : Bool := false
  deriving DecidableEq, Repr

/-- A queued claim (R167, R209). -/
structure Claim where
  wave  : Nat
  n     : Nat
  lanes : BitVec 64
  word  : Word
  hdr   : BitVec 57
  idx   : BitVec 4
  deriving DecidableEq, Repr

/-- What a workgroup holds on one of its cores (R121, R124, R161, R166, R278). -/
structure Part where
  core     : Nat
  scrBase  : Nat := 0
  scrBytes : Nat := 0
  scr      : Memory := []
  tags     : SMap Byte := []           -- key: granule number
  d0       : Nat := 0                  -- deep-scratch start, bytes in the window
  deepUnits : Nat := 0
  deep     : Memory := []              -- by workgroup offset less 0x0100_0000
  deepTags : SMap Byte := []
  accBase  : Nat := 0
  accKib   : Nat := 0
  acc      : SMap (BitVec 32) := []    -- by word
  ue       : List Nat := []            -- scratch and deep-scratch offsets with an uncorrectable error (R358)
  accUe    : List Nat := []            -- accumulator words with one
  lost     : List (Nat × Nat) := []    -- deep-scratch offsets whose parity group was lost, from and to (R92, R358)
  gen      : Byte := 0                 -- owner generation of the region (R112)
  budget   : Nat := 0
  spare    : Nat := 0
  claims : List Claim := []
  deadAt : Option Nat := none          -- clk since which a register deadlock has stood (R335)
  deriving DecidableEq, Repr

/-- A rod (R164, R165): binding to set and part, the beads' common content, and who holds a bead. -/
structure Rod where
  bound    : Option (Nat × Nat) := none
  template : Option Bead := none
  beads    : List (Nat × Nat) := []    -- wave, lane
  deriving DecidableEq, Repr

/-- What placement reads of the context's descriptor and save area (R318, R341). -/
structure Ctx where
  num     : Nat
  q       : Nat            -- lead quarter of its partition
  world   : Bool
  system  : Bool
  asid    : BitVec 16
  layout  : Nat
  save    : Nat
  trapVec : BitVec 57
  queues  : Word           -- queues open to the context
  prioMax : Nat
  deriving DecidableEq, Repr

/-- What is happening to a resident workgroup: it runs, it is being saved (R349), or it ends by termination (R348),
rollback (R361) or kill (R354) once its stores, matrix queue entries and started chunks are done. -/
inductive Fate where
  | live | saving | ending
  deriving DecidableEq, Repr

/-- A resident workgroup (R161). -/
structure Workgroup where
  id      : Nat
  recId   : Nat            -- its record's id in `State.recs`
  ref     : Word           -- record reference (R212)
  wg      : Nat            -- %wg
  ctx     : Ctx
  prio    : Nat
  threads : Nat
  parts   : List Part
  waves   : List Wave
  rods    : List Rod       -- 16
  npReq   : Option Nat := none   -- a waiting pre-emption request and the clk it arrived (R213)
  fate    : Fate := .live
  saveAt  : Nat := 0             -- clk at which its save, or its end, began
  abandoned : Bool := false      -- the 50 us of R350 have passed
  last    : Option Nat := none   -- the report entry to be written once it has ended (R348)
  lastCopy : Option Nat := none  -- the copy whose bytes that entry counts (R110)
  deriving DecidableEq, Repr

/-- A clause being issued by a scheduler partition (R158, R171). -/
structure Issue where
  core  : Nat
  part  : Nat              -- scheduler partition
  wg    : Nat              -- workgroup id
  wave  : Nat
  all   : BitVec 64        -- the issue group chosen
  group : BitVec 64        -- its threads that still run the clause
  addr  : BitVec 57
  hdr   : Word
  words : List Word
  idx   : Nat := 0
  readyAt : Nat := 0       -- earliest clk of the next word (R185)
  blocked : Bool := false  -- MODEL: the word tried last could not issue yet; `step` tries it again (log 2)
  await : Option Nat := none   -- MODEL: the release operation its word in progress waits for (log 2)
  chk : Bool := false      -- CORE_CHK.en as it was when the clause began to issue (R189)
  reserved : Nat := 0      -- copy slots reserved and not yet taken (R106)
  pebbles : Nat := 0       -- pebbles reserved (R283)
  waits : List Nat := []   -- MODEL: the operations that the blocked word waits for, where it waits for some (log 2)
  counted : Bool := false  -- MODEL: the word in progress has counted to CORE_CHK.short_reads (R189)
  issued : Bool := false   -- MODEL: the word in progress has issued, and the clause waits for its end (R287)
  deriving DecidableEq, Repr

/-- Allocation levels at the lode, narrowest last (R81, R117). -/
inductive Level where
  | allocate | stream | none
  deriving DecidableEq, Repr

/-- Page sizes (R53). -/
inductive PageSize where
  | k64 | m2 | g1
  deriving DecidableEq, Repr

/-- A leaf entry (R55). -/
structure Leaf where
  rd : Bool
  wr : Bool
  ex : Bool
  world : Bool
  cmp : Bool
  fmt : BitVec 4
  geom : BitVec 3
  home : BitVec 2
  die : BitVec 2
  so : Bool
  cattr : BitVec 2
  loc : Bool
  frame : Nat
  size : PageSize
  reg : Bool := false      -- its frame lies in the register window (R385)
  deriving DecidableEq, Repr

/-- An attribute-buffer entry of a core (R59); `path` is the page-table lines its walk read (R62). Its leaf's frame is
0: no core holds a physical address (R23). -/
structure AlbEntry where
  core : Nat
  asid : BitVec 16
  page : Nat               -- virtual address of the page
  leaf : Leaf
  path : List Nat
  out  : Bool := false     -- replaced; known only until its last access in flight ends (R65; log 56)
  deriving DecidableEq, Repr

/-- A translation-buffer entry of a lode (R60, R66). -/
structure TbEntry where
  lode : Nat
  asid : BitVec 16
  page : Nat
  leaf : Leaf
  path : List Nat
  cnt  : List Nat := [0, 0, 0, 0]
  contracted : Bool := false
  deriving DecidableEq, Repr

/-- Host state of a 64 B half (R311). -/
inductive Half where
  | i | s | e
  deriving DecidableEq, Repr

/-- A line held at a lode (R21, R39, R58, R61, R311). -/
structure LLine where
  id    : Nat
  lode  : Nat
  asid  : Option (BitVec 16)   -- none: a physical tag (R58)
  line  : Nat                  -- virtual line number, or physical line number
  frame : Nat
  off   : Nat                  -- line within the frame, 0 to 511
  loc   : Bool := false
  so    : Bool := false
  data  : Line
  dirty : Bool := false
  stuck : Option Nat := none   -- order in which it became stuck
  stuckHost : Bool := false    -- counted under host_count
  detached : Bool := false     -- no longer reachable by virtual address (R61)
  owed  : Bool := false        -- its writeback waits for the end of its frame's command (R43)
  poison : Bool := false
  lo    : Half := .i
  hi    : Half := .i
  dmask : Line := 0            -- bit mask of the bytes written since it was clean
  fmtReq : Option (BitVec 4) := none   -- the format, where the write's leaf requested compression (R33)
  strm  : Bool := false
  transit : Bool := false      -- held only until the access that asked for it (level NONE)
  hostDirty : Bool := false    -- its latest writer is the host
  staged : Option Nat := none  -- record that staged it (R360)
  shadow : Bool := false       -- a replay's shadow line (R363)
  banks : List Nat := []       -- the banks it may stand in: those of its role when it was placed (`bankIn`)
  backLo : Option (BitVec 512) := none   -- what the host last wrote back of each half to the lode (R312)
  backHi : Option (BitVec 512) := none
  deriving DecidableEq, Repr

/-- An L1 line (R116). -/
structure L1Line where
  core  : Nat
  asid  : BitVec 16
  line  : Nat
  data  : Line
  stamp : Byte
  swept : Bool := false        -- visited by the sweep since its distance reached 127 (R119)
  deriving DecidableEq, Repr

/-- One lane's store, in a store-buffer entry or on its way (R117, R338). -/
structure SbStore where
  wg   : Nat
  wave : Nat
  lane : Nat
  va   : Nat
  mask : Line
  data : Line
  word : Pc
  deriving DecidableEq, Repr

/-- A store-buffer entry (R117). -/
structure SbEntry where
  core : Nat
  asid : BitVec 16
  line : Nat
  mask : Line                  -- bit mask of the bytes written
  data : Line
  lvl  : Level
  leaf : Leaf
  born : Nat
  stores : List SbStore        -- each store merged, oldest first
  ctx  : Nat
  deriving DecidableEq, Repr

/-- A sharer-directory entry of a page-table line (R62). -/
structure DirEntry where
  lode  : Nat
  line  : Nat                  -- physical line number
  cores : List Nat
  lodes : List Nat
  leaving : Bool := false      -- it makes room: its sharers are being invalidated (R62)
  deriving DecidableEq, Repr

/-- An invalidation in progress (R63). `writers`: the threads whose PTSYNC waits for it; none for the host. -/
structure Inval where
  id    : Nat
  line  : Nat
  cores : List Nat             -- still to acknowledge
  lodes : List Nat
  writers : List (Nat × Nat × Nat)    -- workgroup, wave, lane
  host  : Bool
  map   : Bool := false        -- made for the first mapping of the line's frame: no leaf has changed (R60)
  deriving DecidableEq, Repr

/-- A walk in progress at a lode, or at the lode of a core's ALB miss (R59, R60). -/
structure Walk where
  id   : Nat
  lode : Nat
  asid : BitVec 16
  va   : Nat
  deriving DecidableEq, Repr

/-- A packet that met a closed port and was dropped: the die it came from, what sent it, and the line it was for (R380). -/
structure PortDrop where
  die  : Nat
  lode : Nat
  asid : BitVec 16
  line : Nat
  by_  : Nat                   -- the engine operation, the fetching core and workgroup, or the walking lode, by number
  walk : Bool := false         -- a walk of a lode, or the fill of a line from its frame
  deriving DecidableEq, Repr

/-- A write of the queue engine that waits at its home lode until an audit gives up the line (R362). -/
structure EngWrite where
  q    : Nat
  asid : BitVec 16
  va   : Nat
  n    : Nat
  v    : Nat
  deriving DecidableEq, Repr

/-- An install waiting for detached stuck lines (R60). -/
structure Deferred where
  id   : Nat
  lode : Nat
  asid : BitVec 16
  va   : Nat
  leaf : Leaf
  path : List Nat
  deriving DecidableEq, Repr

/-- A line fill in progress, from HBM or from host or peer memory (R22, R66, R373). -/
structure Fill where
  id   : Nat
  lode : Nat
  asid : BitVec 16
  line : Nat
  leaf : Leaf
  lvl  : Level
  ext  : Bool                  -- a CXL or Norha request
  peer : Bool
  engs : List Nat := []        -- engine operations that wait for it, by number (R68)
  first : Option (List Byte) := none   -- the first 64 B of a line of host memory (R369)
  grant : Bool := false        -- made by the grant of a PIN contract (R78)
  lost  : Bool := false        -- the bank it fills has been lost: the line arrives poisoned (R92)
  deriving DecidableEq, Repr

/-- A write-back or write travelling to host or peer memory (R66, R373). -/
structure ExtWrite where
  id   : Nat
  pa   : Nat
  mask : Line
  data : Line
  peer : Bool
  reqs : List Nat := []        -- requests answered when it completes
  q    : Nat := 0              -- the partition it comes from
  asid : Option (BitVec 16) := none    -- the ASID of the line it writes back
  sent : Bool := false         -- its first 64 B have been written (R369)
  deriving DecidableEq, Repr

/-- What a request does at its line (R85, R253, R261, R291): a contribution that waits for capacity is held at its
requester; a scaled store reads its scale byte and becomes the store it encodes, merged into the store buffer where `buf`
says so, `rest` being the element's part in the next line; maintenance is 0 CLEAN, 1 INVAL, 2 CLINV, to level 0 .l1,
1 .lode, 2 .mem. -/
inductive ReqOp where
  | load (lo w sb : Nat)       -- bits of the element's part; `sb` masks those the store buffer gave
  | store (mask data : Line)
  | atomic (op lo w : Nat) (x cmp : Word)
  | lred (op n i : Nat) (x : Word) (wait waiting : Bool)
  | scaled (sva : Nat) (sleaf : Leaf) (ba w fmt : Nat) (ty : Ty) (data : Word) (buf : Bool) (rest : Option (Nat × Leaf))
  | maint (kind level : Nat)
  deriving DecidableEq, Repr

/-- A request of a lane, or of a draining store-buffer entry, at a home lode (R21). -/
structure Req where
  id   : Nat
  core : Nat
  wg   : Nat
  wave : Nat
  lane : Nat
  op   : Nat                   -- the result operation it answers, 0 for none
  sh   : Nat := 0              -- bit position of a load's part in the element
  q    : Nat                   -- lead quarter
  ctx  : Nat
  asid : BitVec 16
  va   : Nat
  line : Nat
  leaf : Leaf
  what : ReqOp
  lvl  : Level
  l1   : Bool
  stamp : Byte
  stores : List SbStore := []  -- the stores it carries
  who   : BitVec 64 := 0       -- the threads that park with it
  born  : Nat := 0             -- its place in the order in which the core sent its requests
  parked : Bool := false
  cause : Option Cause := none -- a fault on its way back (R338)
  word  : Pc := ⟨0, 0, true⟩
  deriving DecidableEq, Repr

/-- An L1 fill on its way (R116): stamped with G when its request left. -/
structure L1Fill where
  id   : Nat
  core : Nat
  asid : BitVec 16
  line : Nat
  data : Line
  stamp : Byte
  deriving DecidableEq, Repr

/-- One lane of a load or atomic result still being gathered (R252, R256). -/
structure LaneLoad where
  lane  : Nat
  parts : Nat                  -- parts still to arrive
  raw   : Word := 0
  w     : Nat                  -- element width
  fmt   : BitVec 4             -- 0: raw
  ty    : Ty
  scale : Byte := 127
  reg   : Reg
  wide  : Bool                 -- the result fills a register pair
  who   : BitVec 64 := 0       -- threads it is loaded for
  deriving DecidableEq, Repr

/-- The counter an operation is counted under (R188). -/
inductive Cnt where
  | ld | st | copy | mma | lode | sli | sys | ctr
  deriving DecidableEq, Repr

/-- What a fence, or a release, waits for and orders (R258, R259): masks V 0, C 1, M 2, L 3, H 4. -/
structure Fence where
  acq    : Bool
  rel    : Bool
  scope  : BitVec 3
  before : BitVec 5
  after  : BitVec 5
  deriving DecidableEq, Repr

/-- A variable-latency operation whose results have not landed (R187). -/
structure Result where
  id    : Nat
  wg    : Nat
  wave  : Nat
  cnt   : Option Cnt
  regs  : List Reg             -- registers marked pending
  writes : List RegWrite := []
  lanes : List LaneLoad := []
  ready : Bool := false
  readyAt : Nat := 0
  flags : List (Nat × BitVec 5) := []
  acq   : Option (BitVec 3) := none
  adv   : Bool := false        -- its advance of G waits for the sweep (R119)
  fence : Option Fence := none
  maint : Bool := false        -- range maintenance: it holds words of classes 1 to 4 (R261)
  deriving DecidableEq, Repr

/-- A layout entry (R127). -/
structure Layout where
  valid : Bool
  space : BitVec 3
  world : Bool
  oob   : Bool
  rank  : BitVec 3
  part  : BitVec 3
  swzMask : BitVec 6
  swzShift : BitVec 4
  scaled : Bool
  base  : Word
  scaleBase : Word
  extent : List (BitVec 32)    -- five
  stride : List (BitVec 32)    -- four, dimensions 1 to 4
  sstride1 : BitVec 16
  sstride2 : BitVec 16
  resv  : Bool                 -- some reserved bit is 1
  deriving DecidableEq, Repr

/-- A cached layout entry of a core (R130). -/
structure LayCache where
  core : Nat
  ctx  : Nat
  q    : Nat
  handle : Nat
  image : BitVec 512
  deriving DecidableEq, Repr

/-- A copy's barrier object: address and generation at acceptance (R109). -/
structure BarRef where
  addr : Nat
  part : Nat
  gen  : Byte
  deriving DecidableEq, Repr

/-- An accepted, incomplete copy (R96, R105, R106, R109, R350). -/
structure Copy where
  id    : Nat
  core  : Nat
  wg    : Nat
  wave  : Nat
  copyId : BitVec 12
  status : Nat
  src   : Layout
  dst   : Layout
  sc    : List Int             -- source coordinates, five
  dc    : List Int
  box   : List Nat             -- five extents, source order
  w     : Nat                  -- element width
  tr    : Bool                 -- transposing
  lvl   : Level
  parts : List Nat             -- destination parts (one for COPY)
  memDst : Bool
  srcObj : Option BarRef
  dstObjs : List BarRef
  gens  : List (Nat × Byte)    -- owner generation of each destination part at acceptance
  cgen  : Byte                 -- owner generation of the context
  save  : Nat                  -- save area of the context
  ctx   : Nat := 0
  q     : Nat := 0
  outDone : List Nat := []     -- chunks that the source object has counted
  read  : List (Nat × List Byte × Option Byte)   -- chunks read: bytes and tag
  delivered : List (Nat × Nat) -- (chunk, part)
  lost  : List (Nat × Nat) := []   -- chunks that arrived and were dropped by their owner tag (R112)
  bytes : Nat := 0
  clamped : Bool := false
  dead  : Bool := false        -- cancelled: only chunks already started may still arrive (R350)
  deriving DecidableEq, Repr

/-- An operation of the matrix queue (R277). -/
inductive MatOp where
  | mma (b : Bead) (aL bL : Layout) (w aw bw : Nat) (aNan bNan : Bool)   -- pass and element widths as read at issue (R280)
  | accz (off n : Nat)
  | accld (off scr n : Nat)
  | accrd (res : Nat) (lanes : List (Nat × Nat)) (reg : Nat)      -- lane and word index
  | drain (elem scale : Word) (eL sL : Layout) (tile : Word) (m : BitVec 14) (lanes : BitVec 64) (word : Pc)
  deriving DecidableEq, Repr

/-- An entry of a core's matrix queue, or an operation waiting for its pebbles (R277, R283, R328). -/
structure MqEntry where
  id   : Nat
  core : Nat
  wg   : Nat
  part : Nat
  waves : List Nat             -- waves whose mma counter it holds
  op   : MatOp
  pebbles : Nat := 0           -- held by it
  inj   : Option (Nat × Nat) := none   -- word and bit of an injection that it fires (R317)
  deriving DecidableEq, Repr

/-- A request for pebbles that was refused (R328): of an operation in `State.mwait`, or of a wave whose next clause, at
`pc`, is not chosen for want of them (`op` 0). -/
structure Ask where
  since : Nat
  cost  : Nat
  op    : Nat
  wg    : Nat
  wave  : Nat
  pc    : Nat
  deriving DecidableEq, Repr

/-- A contract (R77). -/
structure Contract where
  id    : Nat
  q     : Nat
  kind  : Nat                  -- 0 PIN, 1 HOLD, 2 KEEPOUT
  ctx   : Nat
  asid  : BitVec 16
  base  : Nat
  pages : Nat
  world : Bool
  lines : SMap Nat             -- per home lode
  ents  : SMap Nat := []       -- translation-buffer entries of its pages, per lode
  absent : List Nat := []      -- pages without a leaf at admission
  wrong : Bool := false        -- a walk has found an absent page homed elsewhere: it is to be released (R79)
  save  : Nat := 0             -- the context's save area
  deriving DecidableEq, Repr

/-- A RESIDE or UNRESIDE on its way to the contract lode (R272). -/
structure CtrReq where
  id    : Nat
  res   : Nat
  q     : Nat
  ctx   : Nat
  asid  : BitVec 16
  world : Bool
  save  : Nat
  kind  : Option Nat           -- none: UNRESIDE
  base  : Nat
  pages : Nat
  owes  : Option (List Nat) := none   -- its release is made; what it wrote back is still on its way, by number (R80)
  deriving DecidableEq, Repr

/-- A key-value entry (R83, R84). -/
structure KvEntry where
  lode  : Nat
  asid  : BitVec 16
  key   : Word
  val   : List Byte
  cls   : Nat
  stamp : BitVec 16
  oldest : Bool := false
  pins  : Nat := 0
  owner : Nat
  banks : List Nat := []       -- the banks it may stand in: those of its role when it was placed (`bankIn`)
  deriving DecidableEq, Repr

/-- A key-value operation on its way to its home (R274). -/
inductive KvOp where
  | get (buf len : Nat)
  | put (buf len cls : Nat)
  | pin (un : Bool)
  | drop
  deriving DecidableEq, Repr

structure KvReq where
  id   : Nat
  res  : Nat
  wg   : Nat
  part : Nat
  q    : Nat
  ctx  : Nat
  asid : BitVec 16
  key  : Word
  op   : KvOp
  gen  : Byte
  save : Nat
  noKv : Bool := false         -- no lode had a usable key-value bank when it was issued (R83)
  deriving DecidableEq, Repr

/-- An open reduction record (R292). -/
structure RedRec where
  id   : Nat
  lode : Nat
  q    : Nat
  asid : BitVec 16
  va   : Nat
  op   : Nat
  n    : Nat
  nxt  : Nat
  acc  : Word
  got  : List Nat
  held : List (Nat × Word)
  ctxs : List Nat
  waiters : List (Nat × Nat × Nat)   -- result, lane, context
  who  : Option Nat := none    -- record of the latest contributor
  runOf : Option Nat := none   -- the audit's run whose contributions alone it takes (R363)
  by_  : List (Nat × Nat × Nat) := []   -- contributing threads: workgroup, wave, lane (R64)
  kept : Bool := false         -- closed: it holds the answers of saved waves (R349)
  deriving DecidableEq, Repr

/-- A transpose in progress (R295, R296): the copy it makes, under the number of its result. -/
structure Xpose where
  copy  : Copy
  next  : Nat                  -- the next chunk
  bytes : Nat
  cut   : Bool
  deriving DecidableEq, Repr

/-- State of a frame (R31). -/
inductive FState where
  | empty | compressed | raw | balloon | reclaimed | busy
  deriving DecidableEq, Repr

/-- A frame-directory entry (R31). A flake's number names its lode and its place there (`flakeLode`; log 8). While a
command holds the frame BUSY, `cls` lists the class of every line, also of a frame that was RAW. -/
structure Frame where
  st     : FState := .empty
  fmt    : BitVec 4 := 0
  cls    : SMap Nat := []      -- class of a line; unlisted 0
  flakes : List Nat := []
  slode  : Option Nat := none  -- none: the fresh-frame lode of R381
  prior  : FState := .empty
  poison : List Nat := []      -- poisoned lines (R358)
  donated : Nat := 0           -- number of its donation, in the package-wide order (R38)
  deriving DecidableEq, Repr

/-- A reverse-map entry (R60): the virtual page of `size` that maps the frame. -/
structure Rmap where
  asid  : BitVec 16
  page  : Nat
  size  : PageSize
  home  : BitVec 2
  die   : BitVec 2
  shared : Bool := false
  deriving DecidableEq, Repr

/-- A Tumbler command in progress (R44): it waits for its frame's stuck lines, then holds the frame BUSY until it
ends; `st` is the state the frame takes then. -/
structure TmbRun where
  q      : Nat
  op     : Nat
  frame  : Nat
  fmt    : BitVec 4
  lode   : Nat
  started : Bool
  result : Nat
  st     : FState
  /-- Flakes MIGRATE drew on the target lode: as many others go back when it ends. -/
  extra  : Nat
  deriving DecidableEq, Repr

/-- A queued page migration (R67). -/
structure Migration where
  q     : Nat
  lode  : Nat
  asid  : BitVec 16
  page  : Nat
  frame : Nat
  host  : Bool
  deriving DecidableEq, Repr

/-- Per-partition facts of the Tumbler that no register holds, by lead quarter (R37, R41). -/
structure TmbPart where
  oos  : Bool := false
  low  : Bool := false         -- free stands below lwm: refill was raised for this crossing
  reclaiming : Bool := false
  begun : Nat := 0             -- clk at which reclaim began on the oldest BALLOON frame (R357)
  held : Bool := false         -- a host write has been held since the host quota was last open (R42)
  balloon : List Nat := []     -- BALLOON frames, oldest donation first
  taken : List Nat := []       -- RECLAIMED frames, oldest first (R48)
  sync : Nat := 0              -- invalidations numbered below it hold XLT_SYNC.done at 0 (R64)
  deriving DecidableEq, Repr

/-- A queue of a partition (R321, R326). -/
structure Queue where
  q     : Nat
  num   : Nat
  base  : Nat := 0             -- SCH_QBASE 56:16 in place
  en    : Bool := false
  quantum : BitVec 16 := 256
  fault : Bool := false
  taken : Nat := 0
  deficit : SMap Nat := []     -- by effective priority
  enabling : Bool := false     -- to be enabled once the image's first line has come (R321)
  limitDue : Option Bool := none   -- limit is to be written once its line has come; whether it may fall (R321)
  deriving DecidableEq, Repr

/-- Role of a record in an audit (R362 to R364). -/
inductive Audit where
  | none | selected | replay | third | voided
  deriving DecidableEq, Repr

/-- A record the queue engine has taken (R319, R322, R325, R326, R360). -/
structure Rec where
  id    : Nat
  q     : Nat
  queue : Nat
  index : Nat                  -- append index
  image : BitVec 512
  ref   : Word
  ctx   : Ctx
  count : Nat                  -- join counter
  st    : Nat                  -- 0 waiting, 1 ready, 2 running, 3 done, 4 refused
  placed : Nat := 0            -- workgroups placed
  exited : Nat := 0
  terminated : Bool := false
  eprio : Nat := 0
  since : Nat := 0             -- clk since which it is ready without a placement
  ranges : List (Bool × Nat × Nat) := []   -- output?, base, pages
  staging : Bool := false
  exposed : Bool := false
  retries : Nat := 0
  audit : Audit := .none
  cores : List (Nat × List Nat) := []   -- cores of each workgroup placed
  sigs  : List Word := []      -- signatures of the audit's runs so far
  akey  : Nat := 0             -- number of the audit's key
  primary : Nat := 0           -- for a replay or third run: the record it repeats
  ues   : Nat := 0             -- uncorrectable errors its replay consumed
  closed : Bool := false       -- refused or killed: no further workgroup is placed
  gangCores : List Nat := []   -- cores vacated for its first workgroup (R331)
  late  : Bool := false        -- that vacation waited on a non-pre-emptible region
  halt  : Nat := 0             -- its workgroups stop: 1 to be rolled back (R361), 2 to be placed again, 3 to be dropped (R363)
  front : Nat := 0             -- number of its latest rollback: it leads its queue's ready records (R361)
  succ : Nat := 0              -- 0 until its release is complete, then one more than the successors seen to (R325)
  deriving DecidableEq, Repr

/-- A parked sub-wave reported to the driver, or waiting for a fault id or ring space (R338, R339, R347). -/
structure Park where
  id    : Nat
  ctx   : Nat
  q     : Nat
  wg    : Nat
  wave  : Nat
  lanes : BitVec 64
  cause : Cause
  tinfo : Word
  fault : Option Nat           -- fault id
  reported : Bool
  issued : Option Pc           -- the issuing word, for a lode-side cause
  group : Bool := false        -- of an instruction fetch: the issue group at its header (R338, R344)
  deriving DecidableEq, Repr

/-- A saved workgroup image (R351). `order` holds a RESUME or DELIVER recorded while it was saved (R353). -/
structure Image where
  id    : Nat
  slot  : Nat
  wg    : Workgroup
  copies : List Copy
  orders : List (Park × Bool)  -- park ended, delivered
  deriving DecidableEq, Repr

/-- A context's running facts that no memory structure holds (R112, R354). -/
structure CtxRun where
  q     : Nat
  num   : Nat
  gen   : Byte := 0
  closed : Bool := false
  deriving DecidableEq, Repr

/-- What an access from outside asks for (R19, R305, R311, R374): an atomic names its operation, an ownership request
the half it wants exclusively. -/
inductive HostOp where
  | read (n : Nat) | write (data : List Byte) | atomic (op : BitVec 4) (x cmp : Word) | own
  deriving DecidableEq, Repr

/-- An access of the host, or of a peer over a link, that is held (R42, R331, R362, R382): 0 for its quota, 1 for an
audit, 2 for a partition command, 3 for a gang slice, 4 for halves the host holds. -/
structure HostHold where
  id    : Nat
  pa    : Nat
  op    : HostOp
  why   : Nat
  since : Nat
  link  : Option Nat := none   -- the peer's link; none: the host
  gang  : Option (Nat × Nat) := none   -- context and slice that a peer's transfer names
  deriving DecidableEq, Repr

/-- A back-invalidation sent to the host and not answered (R311, R312). -/
structure BackInv where
  id   : Nat
  line : Nat                   -- LLine id
  pl   : Nat := 0              -- its physical line
  hi   : Bool
  toS  : Bool
  since : Nat
  lost : Bool := false         -- its lease has run out: the answer comes too late (R312)
  discard : Bool := false      -- what the host held is discarded (R361)
  deriving DecidableEq, Repr

/-- How a host access completed. -/
inductive HostDone where
  | ok (data : List Byte) | poisoned | unsupported
  deriving DecidableEq, Repr

/-- An SPDM response (R379). -/
inductive Spdm where
  | version | capabilities | algorithms | digests (d : List (BitVec 256)) | certificate (c : List Byte)
  | challengeAuth (d : BitVec 256) (sig : BitVec 512) | measurements (m : List (BitVec 256)) (sig : BitVec 512)
  | errorUnsupported | errorUnexpected
  deriving DecidableEq, Repr

/-- Management, start and identity (R366, R377 to R379, R383, R384). -/
structure Mgmt where
  slotA  : List Byte := []     -- firmware image slots
  slotB  : List Byte := []
  floor  : Nat := 0            -- security-version floor of the configuration store
  firmware : List Byte := []   -- the image in force
  repairs : List (Bool × ErrLoc) := []  -- signed store: signature good, location
  dieFail : BitVec 4 := 0      -- dies that failed stage 1's self-test
  key     : Option (BitVec 256 × BitVec 512) := none  -- the identity key, private and public, once stage 0 has derived it (R378)
  spdmVersion : Bool := false  -- GET_VERSION answered
  spdmCaps : Bool := false
  spdmAlgs : Bool := false
  asked  : Nat := 0            -- NEGOTIATE_ALGORITHMS requests so far
  running : Option Nat := some 0    -- the stage of start that runs (R383)
  applied : Nat := 0           -- repair records applied, and skipped, at stage 1 (R90)
  skipped : Nat := 0
  written : Nat := 0           -- records written since start
  layout : BitVec 3 := 7       -- the stored partition layout, as PART_CFG.join gives it (R382, R383; log 6)
  cap : Nat := 1024            -- the advertised capacity that stage 2 writes (R46)
  spdm   : Option Spdm := none
  reading : List (BitVec 32) := []
  nread  : Nat := 0
  deriving DecidableEq, Repr

/-- A partition command that runs (R382): its code, the quarters it names, and when a MERGE or SPLIT ends (log 32). -/
structure PartRun where
  op       : Nat
  quarters : BitVec 4
  until_   : Nat
  deriving DecidableEq, Repr

/-- What closes a core to placement: a vacation by command or thermal control (R330), a test of it (R365), or a gang record,
by id (R331). -/
inductive Closer where
  | vacation | test | gang (rec : Nat)
  deriving DecidableEq, Repr

/-- A request to vacate cores that have not closed yet: they close once a workgroup on them has been saved, or none is left
(R330). -/
structure Vac where
  cores : List Nat
  by_   : Closer
  deriving DecidableEq, Repr

/-- Per-core facts that no register holds. -/
structure CoreX where
  copyCtr : BitVec 12 := 0
  closers : List Closer := []  -- what closes it to placement
  asleep  : Bool := false
  idleAt  : Nat := 0
  retired : Bool := false
  strikes : Nat := 0
  tested  : Bool := false      -- passed the self-test of the audit in progress (R364)
  minority : Bool := false     -- in the minority of an audit, its self-test not yet done
  applying : Option (Nat × Nat × Nat) := none   -- the division validated and not yet in force (R115)
  deriving DecidableEq, Repr

/-- Per-lode facts that no register holds. -/
structure LodeX where
  roleNext : Option Word := none
  lost   : BitVec 32 := 0      -- lost sites, by site number
  shut   : Nat := 0            -- data banks that were not usable at start (R87)
  age    : BitVec 16 := 0
  tickAt : Nat := 4096         -- clk from which the age clock next advances (R84)
  asleep : Bool := false
  flakes : Nat := Config.freePerLode   -- how many flakes of its two channels are free
  issued : Nat := 0            -- flakes from this number on have never left the free list
  freed  : List Nat := []      -- free flakes that frames gave back
  resv   : List Nat := []      -- those of them that the directory has taken since
  gone   : List Nat := []      -- flakes of failed rows, withdrawn: never issued again (R365)
  bad    : List Nat := []      -- flakes of failed rows that are still held where none could take their place: they go when given back (R365)
  rows   : List Nat := [0, 0]  -- spare rows used, per channel (R90, R365)
  deriving DecidableEq, Repr

/-- Which agent moves next: a scheduler partition issues its clause's next word, an event happens, or time passes. -/
inductive Move where
  | word (core part : Nat)
  | event (i : Instr)
  | tick (n : Nat)
  | hdm (q base : Nat)         -- the host programs a partition's HDM decoder (R369)
  deriving DecidableEq, Repr

/-- The machine. -/
structure State where
  clk      : Nat := 0
  mhz      : Nat := Config.clockMhz
  clocks   : List (Nat × Nat) := []  -- earlier clock settings, in MHz, and the clk at which each ended (R6)
  violations : List Nat := []        -- world violations: offsets of ignored non-secure writes, oldest first (R7)
  nextId   : Nat := 1
  free     : Nat := 0          -- MODEL: numbers the issues that read a free value (log 3)
  agenda   : List Move := []   -- MODEL: the order in which agents move (log 1)
  running  : List Issue := []  -- clauses being issued; the first is the one whose word `exec` gives meaning to (log 2)
  csr      : SMap Word := []   -- registers by byte offset in the register window (R89)
  mem      : Memory := []      -- device memory, by physical address
  frames   : SMap Frame := []
  rmap     : SMap (Option Rmap) := []            -- a page's entry, for each of its frames, by its first frame (R60)
  rmapOwn  : SMap (Option (Option Rmap)) := []   -- the entry of a frame that differs from its page's, by frame
  rawWait  : List (Nat × Nat) := []  -- waiting requests of RAW frames for 64 flakes: number and frame, oldest first (R32, R36)
  hostFails : List (Nat × Nat × BitVec 16 × Nat) := []   -- failed fills that an engine waits for: operation, lode, ASID, line (R68)
  portDrops : List PortDrop := []    -- packets dropped at ports still closed: their operations never end (R380)
  engWrites : List EngWrite := []    -- writes of the queue engine held back by an audit, oldest first (R362)
  coreX    : SMap CoreX := []
  lodeX    : SMap LodeX := []
  tmb      : SMap TmbPart := []
  tmbRuns  : List TmbRun := []
  migrations : List Migration := []
  wgs      : List Workgroup := []
  lines    : List LLine := []
  l1       : List L1Line := []
  sbuf     : List SbEntry := []
  alb      : List AlbEntry := []
  tb       : List TbEntry := []
  dir      : List DirEntry := []
  invals   : List Inval := []
  walks    : List Walk := []
  deferred : List Deferred := []
  fills    : List Fill := []
  extWrites : List ExtWrite := []
  reqs     : List Req := []
  l1fills  : List L1Fill := []
  results  : List Result := []
  layCache : List LayCache := []
  copies   : List Copy := []
  mq       : List MqEntry := []
  mwait    : List MqEntry := []
  asks     : List Ask := []          -- the one refused first leads
  contracts : List Contract := []
  ctrReqs  : List CtrReq := []
  kv       : List KvEntry := []
  kvReqs   : List KvReq := []
  reds     : List RedRec := []
  xposes   : List Xpose := []
  queues   : List Queue := []
  turn     : SMap Nat := []    -- by 8·lead + effective priority: one more than the current queue of the round-robin (R326)
  recs     : List Rec := []
  parks    : List Park := []
  images   : List Image := []
  ctxRuns  : List CtxRun := []
  vacating : SMap (List Nat) := []   -- cores a running VACATE must empty (R330)
  vacReqs  : List Vac := []          -- vacations whose cores have not closed yet, oldest first (R330)
  killing  : SMap (Option Nat) := [] -- context a running KILL closes (R354)
  recalls  : List (Nat × Bool × Bool) := []   -- MODEL: host halves the step in progress finds it must recall (log 9)
  hdmBase  : SMap Nat := []          -- base of each partition's HDM range in the host's address space (R369); unlisted: log 69
  hostHolds : List HostHold := []
  backInvs : List BackInv := []
  hostDone : List HostDone := []     -- completions sent to the host, oldest first
  msix     : List Nat := []          -- vectors raised, oldest first (R370)
  errLog   : List ErrLoc := []       -- corrected errors since the location's last test (R365)
  tests    : List ErrLoc := []       -- targeted self-tests still to be made (R365)
  hbMiss   : SMap (Nat × Nat) := []  -- per peer: heartbeats missed in a row, and the clk of the last one (R367)
  deadLanes : SMap (BitVec 9) := []   -- failed lanes per link (R90)
  worldNext : SMap Word := []        -- accepted world changes of lodes that are not empty yet, by register (R375)
  peerDone : List (Nat × HostDone) := []   -- answers sent to peers, by link, oldest first (R374)
  partRun  : Option PartRun := none  -- the partition command that runs (R382)
  linkUps  : SMap Nat := []          -- trainings that measured a link's round trip (R90)
  heldEvents : List Instr := []      -- MODEL: commands from outside that wait for host halves (log 9)
  discGen  : Nat := 0                -- update generation of the discovery table (R88)
  quiescing : BitVec 4 := 0          -- quarters on which placement has stopped (R382)
  mgmt     : Mgmt := {}
  deriving DecidableEq, Repr

/-- The machine right after reset: stage 0 of start is done and stage 1 runs (R7, R383). Every register reads as its Reset column
(`regReset` of Machine/Regs.lean); no clause is being issued and nothing is in flight. -/
def State.reset : State := {}

end Sys2Proof.Machine
end

