-- ==== Sys2Proof/Machine/Regs.lean ====
section
/-! DEFINITION. The register window (R88, R89) as data: where each register stands, its reset value, the access code
of each writable field (R7), and reading and writing of stored fields. Registers that show facts held elsewhere are
completed by `regRead` of Machine/RegWrite.lean. -/
namespace Sys2Proof.Machine

/-- Kinds of register block (R89). -/
inductive Blk where
  | pkg | part | region | tmb | tmbQ | xlt | ct | hbr | sch | flt | rel | pwr | col | core | disc
  deriving DecidableEq, Repr

/-- Block, instance and offset within the instance of an offset in the window (R45, R89). -/
def regLoc (o : Nat) : Option (Blk × Nat × Nat) :=
  if o < 0x1000 then some (.pkg, 0, o)
  else if o < 0x1400 then some (.part, (o - 0x1000) / 0x100, o % 0x100)
  else if 0x2000 ≤ o ∧ o < 0x3000 then some (.region, (o - 0x2000) / 0x400, o % 0x400)
  else if 0x10000 ≤ o ∧ o < 0x10100 then some (.tmb, 0, o - 0x10000)
  else if 0x10100 ≤ o ∧ o < 0x10500 then some (.tmbQ, (o - 0x10100) / 0x100, o % 0x100)
  else if 0x11000 ≤ o ∧ o < 0x11400 then some (.xlt, (o - 0x11000) / 0x100, o % 0x100)
  else if 0x12000 ≤ o ∧ o < 0x12400 then some (.ct, (o - 0x12000) / 0x100, o % 0x100)
  else if 0x13000 ≤ o ∧ o < 0x13400 then some (.hbr, (o - 0x13000) / 0x100, o % 0x100)
  else if 0x14000 ≤ o ∧ o < 0x14400 then some (.sch, (o - 0x14000) / 0x100, o % 0x100)
  else if 0x15000 ≤ o ∧ o < 0x15400 then some (.flt, (o - 0x15000) / 0x100, o % 0x100)
  else if 0x16000 ≤ o ∧ o < 0x16400 then some (.rel, (o - 0x16000) / 0x100, o % 0x100)
  else if 0x17000 ≤ o ∧ o < 0x17100 then some (.pwr, 0, o - 0x17000)
  else if 0x20000 ≤ o ∧ o < 0x24000 then some (.col, (o - 0x20000) / 0x40, o % 0x40)
  else if 0x100000 ≤ o ∧ o < 0x200000 then some (.core, (o - 0x100000) / 0x1000, o % 0x1000)
  else if 0x800000 ≤ o ∧ o < 0x810000 then some (.disc, 0, o - 0x800000)
  else none

/-! Offsets of the registers, each under its own name. -/
def rVER_CAP : Nat := 0x00
def rVER_SEL : Nat := 0x08
def rSTART_STAT : Nat := 0x10
def rSTART_CTL : Nat := 0x18
def rPART_CFG : Nat := 0x20
def rPART_CMD : Nat := 0x28
def rPART_STAT : Nat := 0x30
def rPART_BND : Nat := 0x38
def rWLD_LINK : Nat := 0x40
def rWLD_STAT : Nat := 0x48
def rWLD_CORE (k : Nat) : Nat := 0x50 + 8 * k
def rWLD_LODE (k : Nat) : Nat := 0x70 + 8 * k
def rNRH_LNK (l : Nat) : Nat := 0x100 + 8 * l
def rNRH_HB : Nat := 0x180
def rNRH_APB (a : Nat) : Nat := 0x200 + 16 * a
def rNRH_APS (a : Nat) : Nat := 0x208 + 16 * a
def rPART_IL (q : Nat) : Nat := 0x1000 + 0x100 * q
def rPART_ILN (q : Nat) : Nat := 0x1008 + 0x100 * q
def rWLD_QUEUE (q : Nat) : Nat := 0x1010 + 0x100 * q
def rREGION (q e w : Nat) : Nat := 0x2000 + 0x400 * q + 16 * e + 8 * w
def rTMB_CTL : Nat := 0x10000
def rTMB_INT_STAT : Nat := 0x10008
def rTMB_INT_EN : Nat := 0x10010
def rTMB_POOL (q : Nat) : Nat := 0x10100 + 0x100 * q
def rTMB_WMARK (q : Nat) : Nat := 0x10108 + 0x100 * q
def rTMB_SD_QUOTA (q : Nat) : Nat := 0x10110 + 0x100 * q
def rTMB_SD_COUNT (q : Nat) : Nat := 0x10118 + 0x100 * q
def rTMB_BAL (q : Nat) : Nat := 0x10120 + 0x100 * q
def rTMB_OOS_LOG (q : Nat) : Nat := 0x10128 + 0x100 * q
def rTMB_CMD (q : Nat) : Nat := 0x10130 + 0x100 * q
def rTMB_CMD_STAT (q : Nat) : Nat := 0x10138 + 0x100 * q
def rXLT_ROOT (q : Nat) : Nat := 0x11000 + 0x100 * q
def rXLT_MIG (q : Nat) : Nat := 0x11008 + 0x100 * q
def rXLT_MIGFRAME (q : Nat) : Nat := 0x11010 + 0x100 * q
def rXLT_SYNC (q : Nat) : Nat := 0x11018 + 0x100 * q
def rXLT_RMAP (q : Nat) : Nat := 0x11020 + 0x100 * q
def rCT_STAT (q : Nat) : Nat := 0x12000 + 0x100 * q
def rHBR_CTL (q : Nat) : Nat := 0x13000 + 0x100 * q
def rHBR_LOST (q : Nat) : Nat := 0x13008 + 0x100 * q
def rSCH_CTL (q : Nat) : Nat := 0x14000 + 0x100 * q
def rSCH_CTXBASE (q : Nat) : Nat := 0x14008 + 0x100 * q
def rSCH_QIDX (q : Nat) : Nat := 0x14010 + 0x100 * q
def rSCH_QBASE (q : Nat) : Nat := 0x14018 + 0x100 * q
def rSCH_QCFG (q : Nat) : Nat := 0x14020 + 0x100 * q
def rSCH_STAT (q : Nat) : Nat := 0x14028 + 0x100 * q
def rSCH_VMASK (q k : Nat) : Nat := 0x14030 + 0x100 * q + 8 * k
def rSCH_CMD (q : Nat) : Nat := 0x14050 + 0x100 * q
def rSCH_CMD_STAT (q : Nat) : Nat := 0x14058 + 0x100 * q
def rFLT_CMD (q : Nat) : Nat := 0x15000 + 0x100 * q
def rFLT_STAT (q : Nat) : Nat := 0x15008 + 0x100 * q
def rREL_CTL (q : Nat) : Nat := 0x16000 + 0x100 * q
def rREL_STAT (q : Nat) : Nat := 0x16008 + 0x100 * q
def rASY_CTL (q : Nat) : Nat := 0x16010 + 0x100 * q
def rASY_STAT (q : Nat) : Nat := 0x16018 + 0x100 * q
def rPWR_PEBBLE : Nat := 0x17000
def rSTR_ROLE (n : Nat) : Nat := 0x20000 + 0x40 * n
def rSTR_STAT (n : Nat) : Nat := 0x20008 + 0x40 * n
def rSTR_RES (n : Nat) : Nat := 0x20010 + 0x40 * n
def rSTR_KV (n : Nat) : Nat := 0x20018 + 0x40 * n
def rLODE_RED (n : Nat) : Nat := 0x20020 + 0x40 * n
def rPOOL_REG_TOP (n : Nat) : Nat := 0x100000 + 0x1000 * n
def rPOOL_SCR_TOP (n : Nat) : Nat := 0x100008 + 0x1000 * n
def rPOOL_ACC_TOP (n : Nat) : Nat := 0x100010 + 0x1000 * n
def rL1_STAT (n : Nat) : Nat := 0x100018 + 0x1000 * n
def rCORE_REGPOOL (n : Nat) : Nat := 0x100020 + 0x1000 * n
def rCORE_CHK (n : Nat) : Nat := 0x100028 + 0x1000 * n
def rCORE_ACCINJ (n : Nat) : Nat := 0x100030 + 0x1000 * n

/-- Pool flakes of a quarter at start (R35): 64 lodes less the directory of 768 GiB. -/
def poolTotal : Nat := 64 * Config.freePerLode

/-- Reset value of a register, by block and offset in the block (the Reset columns; HW entries by log 6, among them
NRH_LNK.spare_used = 0: no link starts with a failed lane). -/
def blkReset (b : Blk) (i o : Nat) : Word :=
  match b, o with
  | .pkg, 0x00 => 0x01211111
  | .pkg, 0x08 => 0x20101
  | .pkg, 0x10 => 0xF04
  | .pkg, 0x180 => 100
  | .part, 0x00 => BitVec.ofNat 64 (Config.quarterBase i)
  | .part, 0x08 => if i = 0 then 65536 else 0
  | .tmb, 0x00 => 0x30000
  | .tmbQ, 0x00 => BitVec.ofNat 64 (poolTotal + poolTotal * 2 ^ 32)
  | .tmbQ, 0x08 => BitVec.ofNat 64 (poolTotal / 256 + poolTotal / 128 * 2 ^ 32)
  | .tmbQ, 0x10 => BitVec.ofNat 64 (524288 + 65536 * 2 ^ 32)
  | .xlt, 0x08 => 0x1000000
  | .xlt, 0x18 => 2
  | .hbr, 0x00 => 100
  | .sch, 0x00 => 0xFA00000
  | .rel, 0x00 => 0x400002
  | .rel, 0x10 => 0x3000010
  | .pwr, 0x00 => 0x1000
  | .col, 0x08 => 0x18
  | .col, 0x10 => 32
  | .col, 0x18 => 8192
  | .core, 0x00 => 0x1010
  | .core, 0x08 => 0x2828
  | .core, 0x10 => 0x3030
  | _, _ => 0

/-- Reset value of the register at an offset of the window. -/
def regReset (o : Nat) : Word :=
  match regLoc o with
  | some (b, i, l) => blkReset b i l
  | none => 0

/-- Access codes (R7). -/
inductive Acc where
  | ro | rw | wo | w1c | w1s | rws
  deriving DecidableEq, Repr

/-- A field: lowest bit, width, access code. -/
structure Fld where
  lo  : Nat
  n   : Nat
  acc : Acc
  deriving DecidableEq, Repr

/-- The writable fields of each register (R45 to R49, R69, R93, R131, R190, R313, R316, R332, R356, R368, R371, R374,
R376, R382, R383). A field not listed is RO or reserved. -/
def blkFields (b : Blk) (o : Nat) : List Fld :=
  match b, o with
  | .pkg, 0x08 => [⟨0, 4, .rw⟩, ⟨8, 4, .rw⟩, ⟨16, 4, .rw⟩, ⟨32, 1, .w1c⟩]
  | .pkg, 0x18 => [⟨0, 1, .rw⟩, ⟨1, 1, .rw⟩]
  | .pkg, 0x28 => [⟨0, 4, .wo⟩, ⟨4, 4, .wo⟩]
  | .pkg, 0x30 => [⟨13, 1, .w1c⟩]
  | .pkg, 0x38 => [⟨0, 6, .rws⟩]
  | .pkg, 0x40 => [⟨0, 12, .rws⟩]
  | .pkg, 0x48 => [⟨0, 1, .w1c⟩]
  | .pkg, 0x180 => [⟨0, 16, .rw⟩]
  | .pkg, _ =>
    if 0x50 ≤ o ∧ o < 0x90 then [⟨0, 64, .rws⟩]
    else if 0x200 ≤ o ∧ o < 0x300 then
      (if o % 16 = 0 then [⟨0, 1, .rw⟩, ⟨16, 36, .rw⟩] else [⟨0, 36, .rw⟩, ⟨48, 16, .rw⟩])
    else []
  | .part, 0x00 => [⟨0, 36, .rws⟩, ⟨36, 4, .rws⟩]
  | .part, 0x08 => [⟨0, 36, .rws⟩]
  | .part, 0x10 => [⟨0, 64, .rws⟩]
  | .region, _ => if o % 16 = 0 then [⟨0, 36, .rws⟩, ⟨62, 1, .rws⟩, ⟨63, 1, .rws⟩] else [⟨0, 36, .rws⟩]
  | .tmb, 0x00 => [⟨0, 1, .w1s⟩, ⟨8, 11, .rw⟩]
  | .tmb, 0x08 => [⟨0, 29, .w1c⟩]
  | .tmb, 0x10 => [⟨0, 29, .rw⟩]
  | .tmbQ, 0x08 => [⟨0, 32, .rw⟩, ⟨32, 32, .rw⟩]
  | .tmbQ, 0x10 => [⟨0, 32, .rw⟩, ⟨32, 32, .rw⟩]
  | .tmbQ, 0x28 => [⟨63, 1, .w1c⟩]
  | .tmbQ, 0x30 => [⟨0, 52, .wo⟩]
  | .xlt, 0x00 => [⟨12, 40, .rw⟩]
  | .xlt, 0x08 => [⟨0, 1, .rw⟩, ⟨1, 1, .rw⟩, ⟨2, 1, .rw⟩, ⟨16, 10, .rw⟩]
  | .xlt, 0x10 => [⟨0, 36, .rw⟩, ⟨36, 1, .w1s⟩, ⟨37, 1, .w1c⟩]
  | .xlt, 0x18 => [⟨0, 1, .wo⟩]
  | .xlt, 0x20 => [⟨0, 36, .wo⟩]
  | .hbr, 0x00 => [⟨0, 10, .rw⟩, ⟨16, 1, .rw⟩]
  | .hbr, 0x08 => [⟨63, 1, .w1c⟩]
  | .sch, 0x00 => [⟨0, 1, .rw⟩, ⟨16, 13, .rw⟩]
  | .sch, 0x08 => [⟨12, 40, .rw⟩]
  | .sch, 0x10 => [⟨0, 6, .rw⟩]
  | .sch, 0x18 => [⟨0, 1, .rw⟩, ⟨16, 41, .rw⟩]
  | .sch, 0x20 => [⟨0, 16, .rw⟩, ⟨16, 1, .w1c⟩]
  | .sch, 0x30 | .sch, 0x38 | .sch, 0x40 | .sch, 0x48 => [⟨0, 64, .rw⟩]
  | .sch, 0x50 => [⟨0, 4, .wo⟩]
  | .sch, 0x58 => [⟨4, 1, .w1c⟩]
  | .flt, 0x00 => [⟨0, 28, .wo⟩]
  | .flt, 0x08 => [⟨4, 1, .w1c⟩, ⟨5, 1, .w1c⟩, ⟨6, 1, .rw⟩]
  | .rel, 0x00 => [⟨0, 3, .rw⟩, ⟨8, 24, .rw⟩]
  | .rel, 0x10 => [⟨0, 1, .rw⟩, ⟨1, 5, .rw⟩, ⟨8, 16, .rw⟩, ⟨24, 4, .rw⟩]
  | .rel, 0x18 => [⟨48, 1, .w1c⟩]
  | .col, 0x00 => [⟨0, 48, .rw⟩]
  | .col, 0x08 => [⟨5, 1, .w1c⟩, ⟨6, 1, .w1c⟩]
  | .col, 0x10 => [⟨0, 6, .rw⟩]
  | .col, 0x18 => [⟨0, 16, .rw⟩]
  | .core, 0x00 => [⟨8, 6, .rw⟩, ⟨16, 1, .wo⟩, ⟨17, 1, .w1c⟩]
  | .core, 0x08 | .core, 0x10 => [⟨8, 6, .rw⟩]
  | .core, 0x28 => [⟨0, 1, .rw⟩, ⟨1, 1, .w1c⟩]
  | .core, 0x30 => [⟨0, 20, .rw⟩, ⟨24, 5, .rw⟩, ⟨32, 1, .rw⟩, ⟨33, 1, .w1c⟩]
  | _, _ => []

/-- Whether a register stands at an offset of a block; every other offset reads 0 (R385). -/
def blkHas (b : Blk) (o : Nat) : Bool :=
  match b with
  | .pkg => o % 8 = 0 && (o < 0x90 || (0x100 ≤ o && o < 0x160) || o = 0x180 || (0x200 ≤ o && o < 0x300))
  | .part => o = 0 || o = 8 || o = 0x10
  | .region => o % 8 = 0
  | .tmb => o = 0 || o = 8 || o = 0x10
  | .tmbQ => o % 8 = 0 && o < 0x40
  | .xlt => o % 8 = 0 && o < 0x28
  | .ct => o = 0
  | .hbr => o = 0 || o = 8
  | .sch => o % 8 = 0 && o < 0x60
  | .flt => o = 0 || o = 8
  | .rel => o % 8 = 0 && o < 0x20
  | .pwr => o = 0
  | .col => o % 8 = 0 && o < 0x28
  | .core => o % 8 = 0 && o < 0x38
  | .disc => o % 8 = 0

/-- The stored value of a register. -/
def State.reg (s : State) (o : Nat) : Word :=
  match SMap.find s.csr o with
  | some v => v
  | none => regReset o

/-- Stores a register's value; the reset value is not listed. -/
def State.setReg (s : State) (o : Nat) (v : Word) : State :=
  { s with csr := if v = regReset o then SMap.erase s.csr o else SMap.insert s.csr o v }

/-- A stored field. -/
def State.rf (s : State) (o lo n : Nat) : Nat := wfld (s.reg o) lo n

/-- Sets a stored field. -/
def State.setRf (s : State) (o lo n v : Nat) : State := s.setReg o (wset (s.reg o) lo n v)

/-- Adds one to a stored field, wrapping. -/
def State.incRf (s : State) (o lo n : Nat) : State := s.setRf o lo n (s.rf o lo n + 1)

/-- Adds one to a stored field, saturating. -/
def State.incSat (s : State) (o lo n : Nat) : State :=
  if s.rf o lo n + 1 < 2 ^ n then s.setRf o lo n (s.rf o lo n + 1) else s

/-- The effect of the access codes of R7 on one field; `sys` is the world of the agent, `guard` that the block is
secure, in which case every writable field follows the RWS rule. WO fields store nothing. -/
def fldWrite (sec guard : Bool) (v old : Word) (f : Fld) : Word :=
  if (guard || f.acc = .rws) && !sec then old
  else match f.acc with
    | .rw | .rws => wset old f.lo f.n (wfld v f.lo f.n)
    | .w1c => old &&& ~~~(v &&& wmask f.lo f.n)
    | .w1s => old ||| (v &&& wmask f.lo f.n)
    | .ro | .wo => old

/-- A register write by the access codes alone (R7, R8). -/
def State.writeFields (s : State) (o : Nat) (v : Word) (sec guard : Bool) : State :=
  match regLoc o with
  | some (b, _, l) => s.setReg o ((blkFields b l).foldl (fldWrite sec guard v) (s.reg o))
  | none => s

/-! Start, dies and partitions (R380 to R383). -/

/-- Last stage of start that is done (R383). -/
def State.stage (s : State) : Nat := s.rf rSTART_STAT 0 2

/-- A die in service (R383). -/
def State.dieOk (s : State) (d : Nat) : Bool := bitAt (s.reg rSTART_STAT) (8 + d)

/-- Whether quarters `a` and `b` belong to one partition by PART_CFG.join (R382). -/
def State.joined (s : State) (a b : Nat) : Bool :=
  a = b || s.rf rPART_CFG 2 1 = 1 || (a / 2 = b / 2 && s.rf rPART_CFG (a / 2) 1 = 1)

/-- Quarters of the partition that holds quarter `q`, dies out of service left out (R380, R383). In safe mode there
is one partition, on die 0. -/
def State.quartersOf (s : State) (q : Nat) : List Nat :=
  (List.range 4).filter fun p => s.joined q p && s.dieOk p && (1 ≤ s.stage || p = 0)

/-- Lead quarter of the partition that holds quarter `q`. -/
def State.leadOf (s : State) (q : Nat) : Nat := (s.quartersOf q).headD q

/-- Whether quarter `q` leads a partition (R45). -/
def State.leads (s : State) (q : Nat) : Bool := (s.quartersOf q).head? = some q

/-- The lead quarters. -/
def State.leadList (s : State) : List Nat := (List.range 4).filter s.leads

/-- The last start found no image that it accepts: management alone acts (R377). -/
def State.recovery (s : State) : Bool := s.rf rSTART_STAT 4 1 = 1

/-- Lodes of a partition in ascending order (R57). -/
def State.partLodes (s : State) (q : Nat) : List Nat := (s.quartersOf q).flatMap fun p => List.range' (64 * p) 64

/-- Logical cores of a partition; in safe mode cores 0 to 7 alone (R383), in recovery
none (R377). -/
def State.partCores (s : State) (q : Nat) : List Nat :=
  if s.rf rSTART_STAT 4 1 = 1 then []
  else if s.stage = 0 then (if q = 0 then List.range 8 else []) else s.partLodes q

/-- part_lode(i) of R57. -/
def State.partLode (s : State) (q i : Nat) : Nat :=
  let l := s.quartersOf q
  64 * l.getD (i % (64 * l.length) / 64) 0 + i % 64

/-- Number of lodes of a partition. -/
def State.nLodes (s : State) (q : Nat) : Nat := 64 * (s.quartersOf q).length

/-- Lead quarter of the partition a core or lode belongs to. -/
def State.leadOfCore (s : State) (n : Nat) : Nat := s.leadOf (n / 64)

/-! Worlds (R375, R376). -/

def State.coreSecure (s : State) (n : Nat) : Bool := bitAt (s.reg (rWLD_CORE (n / 64))) (n % 64)
def State.lodeSecure (s : State) (n : Nat) : Bool := bitAt (s.reg (rWLD_LODE (n / 64))) (n % 64)

/-- A partition is secure when any of its cores or lodes is (R375). -/
def State.partSecure (s : State) (q : Nat) : Bool :=
  (s.quartersOf q).any fun p => s.reg (rWLD_CORE p) ≠ 0 || s.reg (rWLD_LODE p) ≠ 0

/-- Whether any of `n` frames from `f` is secure: a valid secure entry of any quarter's table covers it (R376). -/
def State.framesSecure (s : State) (q f n : Nat) : Bool :=
  (s.quartersOf q).any fun p => (List.range 64).any fun e =>
    let w := s.reg (rREGION p e 0)
    bitAt w 63 && bitAt w 62 && wfld w 0 36 < f + n && f < wfld w 0 36 + s.rf (rREGION p e 1) 0 36
      && s.rf (rREGION p e 1) 0 36 ≠ 0

def State.frameSecure (s : State) (q f : Nat) : Bool := s.framesSecure q f 1

/-- Whether the block of a register is one that is RWS while its unit is secure (R69, R93, R131, R313, R332, R356, R368). -/
def State.guarded (s : State) (b : Blk) (i : Nat) : Bool :=
  match b with
  | .core => s.coreSecure i
  | .col => s.lodeSecure i
  | .xlt | .hbr | .sch | .flt | .rel => s.partSecure i
  | _ => false

/-- Blocks that read 0 and ignore writes where their quarter leads no partition (R45). -/
def Blk.led : Blk → Bool
  | .part | .tmbQ | .xlt | .ct | .hbr | .sch | .flt | .rel => true
  | _ => false

/-- Whether a register is in force: its quarter leads, and its core is not retired (R45, R89). -/
def State.live (s : State) (b : Blk) (i : Nat) : Bool :=
  (!b.led || s.leads i) && (b ≠ .core || !(SMap.get {} s.coreX i).retired)

/-! Frames of a partition (R30, R381). -/

def State.frameBase (s : State) (q : Nat) : Nat := s.rf (rPART_IL q) 0 36
def State.frameCount (s : State) (q : Nat) : Nat := s.rf (rPART_ILN q) 0 36

/-- A frame of the partition, by PART_IL. -/
def State.ownsFrame (s : State) (q f : Nat) : Bool := s.frameBase q ≤ f && f < s.frameBase q + s.frameCount q

/-- Lead quarter of the partition that a frame belongs to (R30). -/
def State.frameLead (s : State) (f : Nat) : Nat := (s.leadList.find? fun q => s.ownsFrame q f).getD 0

/-- A non-secure write of a register is ignored and logged as a world violation (R7). -/
def State.violation (s : State) (o : Nat) : State := { s with violations := s.violations ++ [o] }

/-- The device rewrites a part of the discovery table (R88): gen passes an odd value and ends even. -/
def State.rewriteDisc (s : State) : State := { s with discGen := (s.discGen + 2) % 2 ^ 32 }

/-! Interrupts (R370): vector 8·q + s, of a leading quarter. -/

def State.raise (s : State) (q src : Nat) : State :=
  if s.leads q then { s with msix := s.msix ++ [8 * q + src] } else s

/-- Tumbler event (R47): sets bit b + q, and interrupts where TMB_INT_EN has it. -/
def State.tmbEvent (s : State) (b q : Nat) : State :=
  let s1 := s.setRf rTMB_INT_STAT (b + q) 1 1
  if s.rf rTMB_INT_EN (b + q) 1 = 1 then s1.raise q 0 else s1

/-! Time (R6). Counts in clk are exact; a bound in microseconds is one of wall-clock time, measured through every
setting the clock has had since it began. -/

/-- The clk by which `n / d` µs have passed since clk `since`, through the settings `past`, each with the clk at which it
ended, and then `mhz`. -/
def clkAfter (mhz n d : Nat) : List (Nat × Nat) → Nat → Nat
  | [], since => since + cdiv (n * mhz) d
  | (m, e) :: r, since =>
    if e ≤ since then clkAfter mhz n d r since
    else if n * m ≤ (e - since) * d then since + cdiv (n * m) d
    else clkAfter mhz (n * m - (e - since) * d) (d * m) r e

/-- The clk by which `us` microseconds have passed since clk `since`. -/
def State.usAfter (s : State) (since us : Nat) : Nat := clkAfter s.mhz us 1 s.clocks since

end Sys2Proof.Machine
end

