-- ==== Sys2Proof/Machine/Ops.lean ====
section
/-! DEFINITION. The named operations over workgroups, waves, threads and registers: finding and changing them,
landing of fixed-latency writes (R186, R189), meetings (R159), the clause in progress (R158, R185), and the part of a
trap that changes threads alone (R341, R342). -/
namespace Sys2Proof.Machine

/-! Finding and changing. -/

def State.wg? (s : State) (id : Nat) : Option Workgroup := s.wgs.find? fun w => w.id = id

def State.modWg (s : State) (id : Nat) (f : Workgroup → Workgroup) : State :=
  { s with wgs := s.wgs.map fun w => if w.id = id then f w else w }

def State.wave? (s : State) (wg k : Nat) : Option Wave :=
  match s.wg? wg with
  | some w => w.waves[k]?
  | none => none

def State.modWave (s : State) (wg k : Nat) (f : Wave → Wave) : State :=
  s.modWg wg fun w => { w with waves := w.waves.modify k f }

def State.modPart (s : State) (wg p : Nat) (f : Part → Part) : State :=
  s.modWg wg fun w => { w with parts := w.parts.modify p f }

def Wave.thread (w : Wave) (l : Nat) : Thread := w.threads.getD l { pc := ⟨0, 0, false⟩, status := .exited }

def Wave.modThread (w : Wave) (l : Nat) (f : Thread → Thread) : Wave := { w with threads := w.threads.modify l f }

def Wave.modLanes (w : Wave) (g : BitVec 64) (f : Nat → Thread → Thread) : Wave :=
  { w with threads := w.threads.mapIdx fun l t => if bitAt g l then f l t else t }

def State.modThread (s : State) (wg k l : Nat) (f : Thread → Thread) : State :=
  s.modWave wg k fun w => w.modThread l f

def State.modLanes (s : State) (wg k : Nat) (g : BitVec 64) (f : Nat → Thread → Thread) : State :=
  s.modWave wg k fun w => w.modLanes g f

/-- A fresh identifier. -/
def State.fresh (s : State) : Nat × State := (s.nextId, { s with nextId := s.nextId + 1 })

def State.coreOf (s : State) (n : Nat) : CoreX := SMap.get {} s.coreX n
def State.modCore (s : State) (n : Nat) (f : CoreX → CoreX) : State :=
  { s with coreX := SMap.put {} s.coreX n (f (s.coreOf n)) }
def State.lodeOf (s : State) (n : Nat) : LodeX := SMap.get {} s.lodeX n
def State.modLode (s : State) (n : Nat) (f : LodeX → LodeX) : State :=
  { s with lodeX := SMap.put {} s.lodeX n (f (s.lodeOf n)) }
def State.tmbOf (s : State) (q : Nat) : TmbPart := SMap.get {} s.tmb q
def State.modTmb (s : State) (q : Nat) (f : TmbPart → TmbPart) : State :=
  { s with tmb := SMap.put {} s.tmb q (f (s.tmbOf q)) }

/-- Waves per part: ceil(waves / P) (R161). -/
def Workgroup.wavesPerPart (w : Workgroup) : Nat := cdiv w.waves.length w.parts.length

/-- The part of a wave (R161). -/
def Workgroup.partOf (w : Workgroup) (k : Nat) : Nat := if w.wavesPerPart = 0 then 0 else k / w.wavesPerPart

def Workgroup.part (w : Workgroup) (p : Nat) : Part := w.parts.getD p { core := 0 }

/-- The core of a wave. -/
def Workgroup.coreOfWave (w : Workgroup) (k : Nat) : Nat := (w.part (w.partOf k)).core

/-- Waves of a part. -/
def Workgroup.wavesOfPart (w : Workgroup) (p : Nat) : List Nat :=
  (List.range w.waves.length).filter fun k => w.partOf k = p

/-! Registers (R155, R156, R177). An unlisted vector or scalar register reads 0 (R324). -/

def Wave.v (w : Wave) (k l : Nat) : BitVec 32 := SMap.get 0 w.vregs (64 * k + l)
def Wave.s (w : Wave) (k : Nat) : Word := SMap.get 0 w.sregs k
/-- Predicate k of a lane; p7 reads 1. -/
def Wave.p (w : Wave) (k l : Nat) : Bool := k = 7 || bitAt (w.thread l).preds k

/-- Writes one register at once; a write to p7 is ignored. -/
def Wave.write (w : Wave) (x : RegWrite) : Wave :=
  match x.reg with
  | .v k => { w with vregs := SMap.put 0 w.vregs (64 * k + x.lane % 64) (x.val.setWidth 32) }
  | .s k => { w with sregs := SMap.put 0 w.sregs k x.val }
  | .p k =>
    if k = 7 then w
    else w.modThread x.lane fun t =>
      { t with preds := if x.val = 0 then t.preds &&& ~~~(1#7 <<< k) else t.preds ||| (1#7 <<< k) }
  | .m _ | .none => w

def Wave.writeAll (w : Wave) (l : List RegWrite) : Wave := l.foldl Wave.write w

/-- Inserts by landing clk, after those that land no later. -/
def insertByLand (x : PendWrite) : List PendWrite → List PendWrite
  | [] => [x]
  | y :: r => if x.land < y.land then x :: y :: r else y :: insertByLand x r

/-- Lands every fixed-latency write due at `clk`, in order of landing and, at equal clk, of issue (R189). `pend` is
kept in that order. -/
def Wave.landAt (w : Wave) (clk : Nat) : Wave :=
  let due := w.pend.filter fun p => p.land ≤ clk
  { w.writeAll (due.map (·.w)) with pend := w.pend.filter fun p => clk < p.land }

/-- Adds fixed-latency writes that land at `clk`. -/
def Wave.pendAt (w : Wave) (clk : Nat) (l : List RegWrite) : Wave :=
  { w with pend := l.foldl (fun a x => insertByLand ⟨x, clk⟩ a) w.pend }

/-- Lands due writes of every wave. -/
def State.landDue (s : State) : State :=
  { s with wgs := s.wgs.map fun g => { g with waves := g.waves.map fun w => w.landAt s.clk } }

/-- Lands every fixed-latency write of a wave. -/
def Wave.landAll (w : Wave) : Wave := { w.writeAll (w.pend.map (·.w)) with pend := [] }

/-! The clause in progress (R158, R185). -/

/-- The clause whose word `exec` gives meaning to. -/
def State.head (s : State) : Option Issue := s.running.head?

def State.modHead (s : State) (f : Issue → Issue) : State :=
  { s with running := match s.running with
      | [] => []
      | c :: r => f c :: r }

/-- The word waits: nothing of it takes place in this step. -/
def State.hold (s : State) : State := s.modHead fun c => { c with blocked := true, waits := [] }

/-- The word waits for operations of its wave. -/
def State.holdOn (s : State) (ops : List Nat) : State := s.modHead fun c => { c with blocked := true, waits := ops }

/-- Takes threads out of the clause in progress. -/
def State.leaveClause (s : State) (g : BitVec 64) : State :=
  s.modHead fun c => { c with group := c.group &&& ~~~g }

/-- Address of the next clause: A + 8·(count + 2) (R171). -/
def Issue.nxt (c : Issue) : Nat := c.addr.toNat + 8 * (wfld c.hdr 52 4 + 2)

/-- The clause address as a pc. -/
def pcAt (a : BitVec 57) : Pc := ⟨a, 0, false⟩

/-- The pc of R171 for threads that run to the end of the clause. -/
def Issue.nxtPc (c : Issue) : Pc := pcAt (BitVec.ofNat 57 c.nxt)

/-- The pc that names the word in progress (R341). -/
def Issue.wordPc (c : Issue) : Pc := ⟨c.addr, BitVec.ofNat 4 c.idx, true⟩

/-- The word in progress. -/
def Issue.word (c : Issue) : Word := c.words.getD c.idx 0

/-- THR_TPC image (R344). -/
def Pc.image (p : Pc) : Word :=
  BitVec.ofNat 64 (p.addr.toNat + p.word.toNat * 2 ^ 57 + (if p.mid then 2 ^ 61 else 0))
def Pc.ofImage (w : Word) : Pc := ⟨w.extractLsb' 0 57, w.extractLsb' 57 4, bitAt w 61⟩

/-- Where a thread stands whose pc is loaded from THR_TPC: the word index counts only with mid = 1 (R344). -/
def Pc.norm (p : Pc) : Pc := if p.mid then p else pcAt p.addr

/-- The address that R158 compares: a parked thread's pc counts as the word's address (R340). -/
def Pc.order (p : Pc) : Nat := if p.mid then p.addr.toNat + 8 + 8 * p.word.toNat else p.addr.toNat

/-- Lanes of a wave that a clause in progress still runs. -/
def State.runningLanes (s : State) (wg k : Nat) : BitVec 64 :=
  s.running.foldl (fun m c => if c.wg = wg && c.wave = k then m ||| c.group else m) 0

/-! Meetings (R159, R160). -/

/-- The current set: the highest-numbered set of the mask. -/
def Thread.curSet (t : Thread) : Nat := ((List.range 32).filter fun k => bitAt t.sets k).getLastD 0

/-- A thread stands at its meeting address: it is eligible or held there, and no clause in progress runs it. -/
def Thread.arrived (t : Thread) (running : Bool) : Bool :=
  t.meet.valid && !running && (t.status = .eligible || t.status = .held) && t.pc = pcAt t.meet.addr

/-- Threads that arrive are held; a meeting at which every counted sibling has arrived releases all together. -/
def Wave.settle (w : Wave) (running : BitVec 64) : Wave :=
  let idx := List.range w.threads.length
  let arr (l : Nat) : Bool := (w.thread l).arrived (bitAt running l)
  let counted (l m : Nat) : Bool :=
    let t := w.thread m
    t.curSet = (w.thread l).curSet && t.status ≠ .exited && t.status ≠ .parked && t.meet.valid
      && t.meet.addr = (w.thread l).meet.addr
  let freed (l : Nat) : Bool := arr l && idx.all fun m => !counted l m || arr m
  { w with threads := w.threads.mapIdx fun l t =>
      if freed l then { t with status := .eligible, meet := { t.meet with valid := false } }
      else if arr l then { t with status := .held } else t }

def State.settle (s : State) (wg k : Nat) : State :=
  s.modWave wg k fun w => w.settle (s.runningLanes wg k)

/-! Traps: what changes in the threads (R341, R342, R344). -/

/-- Cause codes (R336). -/
def Cause.code : Cause → Nat
  | .range => 1 | .notPresent => 2 | .badPte => 3 | .home => 4 | .world => 5 | .perm => 6 | .strata => 7
  | .aliased => 8 | .frame => 9 | .hostErr => 10 | .bounds => 11 | .align => 12 | .scratchRange => 13
  | .outOfSpace => 14 | .ue => 15 | .illegalClause => 16 | .illegalOpcode => 17 | .illegalEnc => 18
  | .role => 19 | .regrange => 20 | .stallShort => 21 | .handle => 22 | .space => 23 | .copyArg => 24
  | .copyBounds => 25 | .matrixArg => 26 | .redArg => 27 | .setArg => 28 | .rod => 29 | .regCount => 30
  | .regDeadlock => 31 | .barrierArg => 32 | .barrierErr => 33 | .csrArg => 34 | .priv => 35
  | .illegalState => 36 | .breakpoint => 37 | .software => 38

/-- Service class: parked for the driver (R336, R339). -/
def Cause.service (c : Cause) : Bool := c = .notPresent || c = .frame || c = .outOfSpace || c = .ue

/-- What a thread that parks or enters its handler still waits for: its place on a rod (R165, log 73). -/
def WaitOn.kept (w : WaitOn) : WaitOn :=
  match w with
  | .bead _ _ _ => w
  | _ => .none

/-- TRAPPING THREADS ENTER THE HANDLER (R341): cause, pc and information are saved, active is set, meet moves to the
shadow, and the pc becomes trap_vec. -/
def Thread.enter (t : Thread) (vec : BitVec 57) (c : Cause) (lane delivered : Bool) (tpc : Pc) (info : Word) : Thread :=
  { t with cause := BitVec.ofNat 8 c.code, active := true, laneCause := lane, delivered := delivered, tpc := tpc,
           tinfo := info, shadow := t.meet, meet := {}, pc := pcAt vec, status := .eligible, waitOn := t.waitOn.kept,
           faultId := none }

/-- RETURN FROM THE HANDLER (R342): meet comes back from the shadow, active clears, the pc becomes THR_TPC. -/
def Thread.leave (t : Thread) : Thread := { t with meet := t.shadow, active := false, pc := t.tpc.norm }

/-- A lane parks (R338): its pc, cause and information stand in the thread. -/
def Thread.park (t : Thread) (pc : Pc) (c : Cause) (info : Word) (fault : Option Nat) : Thread :=
  { t with status := .parked, pc := pc, tinfo := info, faultId := fault, waitOn := t.waitOn.kept,
           cause := BitVec.ofNat 8 c.code, laneCause := true, delivered := false, tpc := pc }

end Sys2Proof.Machine
end

