-- ==== Sys2Proof/Machine/Frames.lean ====
section
/-! DEFINITION. The frame directory, the flake pool and the writeback of lode lines (R30 to R43, R381): which flakes
a frame takes and gives back, when a line becomes stuck dirty, watermarks and the out-of-space state. -/
namespace Sys2Proof.Machine

def State.frame (s : State) (f : Nat) : Frame := SMap.get {} s.frames f
def State.setFrame (s : State) (f : Nat) (x : Frame) : State := { s with frames := SMap.put {} s.frames f x }

/-- Partition lead of a lode or core. -/
def State.leadOfLode (s : State) (n : Nat) : Nat := s.leadOf (n / 64)

/-- Recorded class of line `j` (R32): a RAW frame records 128, an EMPTY one 0; that of a BUSY frame is listed; a BALLOON
frame keeps those of its prior state. -/
def Frame.classOf (x : Frame) (j : Nat) : Nat :=
  match if x.st = .balloon then x.prior else x.st with
  | .raw => 128
  | .empty => 0
  | _ => SMap.get 0 x.cls j

/-- Σ over the 512 recorded classes. -/
def Frame.sum (x : Frame) : Nat :=
  match x.st with
  | .raw => 65536
  | _ => x.cls.foldl (fun a e => a + e.2) 0

/-- WHERE LINE `j` BEGINS in the concatenation of its frame's flakes: at the sum of class(0..j-1) (R32). -/
def Frame.lineStart (x : Frame) (j : Nat) : Nat := (List.range j).foldl (fun a i => a + x.classOf i) 0

/-- The flake in which the line of a physical address begins; none where the frame stores nothing there. -/
def State.flakeAt (s : State) (pa : Nat) : Option Nat :=
  let x := s.frame (pa / 65536)
  x.flakes[x.lineStart (pa % 65536 / 128) / 1024]?

/-- Storage lode (R31, R381). -/
def State.slode (s : State) (f : Nat) : Nat :=
  match (s.frame f).slode with
  | some n => n
  | none =>
    let q := s.frameLead f
    s.partLode q ((f - s.frameBase q) >>> s.rf (rPART_IL q) 36 4)

def State.freeOf (s : State) (q : Nat) : Nat := s.rf (rTMB_POOL q) 32 32
def State.lwm (s : State) (q : Nat) : Nat := s.rf (rTMB_WMARK q) 0 32
def State.hwm (s : State) (q : Nat) : Nat := s.rf (rTMB_WMARK q) 32 32

/-- Reclaim begins, on the oldest BALLOON frame (R37, R357). -/
def State.startReclaim (s : State) (q : Nat) : State :=
  s.modTmb q fun t => if t.reclaiming then t else { t with reclaiming := true, begun := s.clk }

/-- Sets TMB_POOL.free; a fall below lwm raises refill once per crossing and starts reclaiming (R37). -/
def State.setFree (s : State) (q n : Nat) : State :=
  let s1 := s.setRf (rTMB_POOL q) 32 32 n
  if n < s.lwm q then
    if (s.tmbOf q).low || s.freeOf q ≤ n then s1
    else ((s1.modTmb q fun t => { t with low := true }).startReclaim q).tmbEvent 0 q
  else s1.modTmb q fun t => { t with low := false }

/-! Flakes (R31, R34, R36). A lode's free list is the flakes that frames gave back and those from `issued` on. -/

/-- The lode whose channels hold a flake: the numbers run lode by lode (log 8). -/
def flakeLode (n : Nat) : Nat := n / Config.flakesPerLode

/-- Lodes in the order in which flakes are drawn: the storage lode first, where it is one of the partition's (R30, R34). -/
def drawOrder (pref : Nat) (lodes : List Nat) : List Nat :=
  if lodes.contains pref then pref :: lodes.filter fun n => n ≠ pref else lodes

/-- The first `k` flakes from number `i` on that are not of a failed row; `fuel` numbers are tried (R365). -/
def freshFlakes (failed : List Nat) : Nat → Nat → Nat → List Nat
  | 0, _, _ => []
  | fuel + 1, i, k =>
    if k = 0 then []
    else if failed.contains i then freshFlakes failed fuel (i + 1) k
    else i :: freshFlakes failed fuel (i + 1) (k - 1)

/-- Flakes of a lode's failed rows (R365). -/
def LodeX.failed (x : LodeX) : List Nat := x.gone ++ x.bad

/-- Takes `k` of a lode's free flakes. -/
def LodeX.drawFlakes (x : LodeX) (lode k : Nat) : List Nat × LodeX :=
  let a := x.freed.take k
  let b := freshFlakes x.failed (k + x.failed.length) (lode * Config.flakesPerLode + x.issued) (k - a.length)
  (a ++ b, { x with flakes := x.flakes - k, freed := x.freed.drop k,
                    issued := match b.getLast? with
                      | some n => n + 1 - lode * Config.flakesPerLode
                      | none => x.issued })

/-- A flake stands on the free list of its lode. -/
def LodeX.isFree (x : LodeX) (fk : Nat) : Bool :=
  let i := fk % Config.flakesPerLode
  let base := fk - i
  x.freed.contains fk || (x.issued ≤ i && !x.failed.contains fk
    && i - x.issued - (x.failed.countP fun g => base + x.issued ≤ g && g < fk) < x.flakes - x.freed.length)

/-- The directory takes `k` flakes of a lode: those that never left the free list first (R35). -/
def LodeX.reserve (x : LodeX) (k : Nat) : LodeX :=
  let j := k - (x.flakes - x.freed.length)
  { x with flakes := x.flakes - k, resv := x.resv ++ x.freed.take j, freed := x.freed.drop j }

/-- The directory gives back `k` flakes of a lode: it keeps those of failed rows (R365). -/
def LodeX.release (x : LodeX) (k : Nat) : LodeX :=
  let l := (x.resv.filter fun n => !x.bad.contains n).take k
  { x with flakes := x.flakes + k, freed := x.freed ++ l, resv := x.resv.filter fun n => !l.contains n }

/-- Draws `n` flakes from the lodes' channels in order. -/
def State.draw (s : State) : List Nat → Nat → List Nat × State
  | [], _ => ([], s)
  | a :: r, n =>
    let k := min n (s.lodeOf a).flakes
    let (l, x) := (s.lodeOf a).drawFlakes a k
    let (m, s2) := (if k = 0 then s else s.modLode a fun _ => x).draw r (n - k)
    (l ++ m, s2)

/-- The lode that holds most of some flakes, `cur` among equals (R31). -/
def mostOn (fl : List Nat) (cur : Nat) : Nat :=
  let at_ := fl.map flakeLode
  (dedup at_).foldl (fun b a => if at_.count b < at_.count a then a else b) cur

/-- A frame with other flakes: its storage lode is the one that holds most of them (R31). -/
def Frame.withFlakes (x : Frame) (fl : List Nat) (cur : Nat) : Frame :=
  { x with flakes := fl, slode := if fl = [] then x.slode else some (mostOn fl cur) }

/-- A RAW frame's request for 64 flakes that reached the pool before request `ord` waits: the pool grants in the order in
which requests reach it (R32, R36). -/
def State.poolHeld (s : State) (q f ord : Nat) : Bool :=
  s.rawWait.any fun w => w.1 < ord && w.2 ≠ f && s.frameLead w.2 = q

/-- Takes `n` flakes for a frame, whole or not at all, at the place `ord` in the order of requests (R36). -/
def State.takeFlakes (s : State) (q f n ord : Nat) : Option State :=
  if n = 0 then some s
  else if s.freeOf q < n || s.poolHeld q f ord then none
  else
    let (l, s1) := s.draw (drawOrder (s.slode f) (s.partLodes q)) n
    let x := s1.frame f
    some ((s1.setFrame f (x.withFlakes (x.flakes ++ l) (s.slode f))).setFree q (s.freeOf q - n))

/-- A flake of a failed row that nothing holds any more leaves the pool: it is never issued again (R365). -/
def State.withdrawFlake (s : State) (n : Nat) : State :=
  let q := s.leadOfLode (flakeLode n)
  (s.modLode (flakeLode n) fun x => { x with gone := x.gone ++ [n], bad := x.bad.filter fun k => k ≠ n }).setRf
    (rTMB_POOL q) 0 32 (s.rf (rTMB_POOL q) 0 32 - 1)

/-- A flake returns to the free list of its lode, and to its partition's count; one of a failed row leaves the pool
instead (R365). -/
def State.giveFlake (s : State) (n : Nat) : State :=
  if (s.lodeOf (flakeLode n)).bad.contains n then s.withdrawFlake n
  else s.modLode (flakeLode n) fun x => { x with flakes := x.flakes + 1, freed := x.freed ++ [n] }

/-- Returns flakes: all of them reach the free list together (R357). -/
def State.giveFlakes (s : State) (l : List Nat) : State :=
  let back := l.filter fun n => !(s.lodeOf (flakeLode n)).bad.contains n
  s.leadList.foldl (fun s q =>
    let k := back.countP fun n => s.leadOfLode (flakeLode n) = q
    if k = 0 then s else s.setFree q (s.freeOf q + k)) (l.foldl State.giveFlake s)

/-- Gives back a COMPRESSED frame's flakes down to need(Σ), only when need(Σ + 256) is below what it holds (R32). -/
def State.trimFrame (s : State) (f : Nat) : State :=
  let x := s.frame f
  let k := flakesFor x.sum
  if flakesFor (x.sum + 256) < x.flakes.length then
    (s.setFrame f (x.withFlakes (x.flakes.take k) (s.slode f))).giveFlakes (x.flakes.drop k)
  else s

/-! Stuck-dirty lines (R39 to R42). -/

def State.lineById (s : State) (id : Nat) : Option LLine := s.lines.find? fun l => l.id = id
def State.modLine (s : State) (id : Nat) (f : LLine → LLine) : State :=
  { s with lines := s.lines.map fun l => if l.id = id then f l else l }
def State.dropLine (s : State) (id : Nat) : State := { s with lines := s.lines.filter fun l => l.id ≠ id }

/-- Stuck lines of a partition that are not the host's, and those that are. -/
def State.sdCount (s : State) (q : Nat) : Nat :=
  s.lines.countP fun l => l.stuck.isSome && !l.stuckHost && s.leadOfLode l.lode = q
def State.hostCount (s : State) (q : Nat) : Nat :=
  s.lines.countP fun l => l.stuck.isSome && l.stuckHost && s.leadOfLode l.lode = q

/-- Stuck lines a lode holds, and its limit (R40, R72). -/
def State.stuckAt (s : State) (lode : Nat) : Nat := s.lines.countP fun l => l.stuck.isSome && l.lode = lode
def State.busesLost (s : State) (lode : Nat) : Bool := s.rf (rSTR_STAT lode) 3 2 = 0
def State.stuckLimit (s : State) (lode : Nat) : Nat := if s.busesLost lode then 0 else 4096

/-! Banks (R70 to R73). -/

def nBanks (n : Nat) : Nat := if Config.interior n then 18 else 24
def perLayer (n : Nat) : Nat := if Config.interior n then 6 else 8
/-- Parity group of a site. -/
def siteGroup (n site : Nat) : Nat := site % perLayer n / 2

def State.lostIn (s : State) (n g : Nat) : Nat := s.rf (rSTR_STAT n) (8 + 2 * g) 2

/-- A bank that serves its role: not replaced, its group not lost. -/
def State.usable (s : State) (n b : Nat) : Bool :=
  b < nBanks n && s.rf (rSTR_STAT n) (16 + b) 1 = 0 && s.lostIn n (b / 6) < 3 && !s.busesLost n

/-- Usable banks of a role under a role map. -/
def State.banksOf (s : State) (n : Nat) (map : Word) (r : Nat) : List Nat :=
  (List.range (nBanks n)).filter fun b => s.usable n b && wfld map (2 * b) 2 = r

def State.roleBanks (s : State) (n r : Nat) : List Nat := s.banksOf n (s.reg (rSTR_ROLE n)) r
/-- Lines of a role: 8,192 a bank (R70). -/
def State.roleLines (s : State) (n r : Nat) : Nat := 8192 * (s.roleBanks n r).length

/-- The bank of `banks` that holds a thing of a lode; which of them is not architected (R70; log 6). -/
def bankIn (n : Nat) (banks : List Nat) (key : Nat) : Option Nat :=
  if banks = [] then none else banks[Config.bankPick n key % banks.length]?

/-- Entry into and exit from the out-of-space state (R41). -/
def State.oosCheck (s : State) (q : Nat) : State :=
  let n := s.sdCount q
  let quota := s.rf (rTMB_SD_QUOTA q) 0 32
  if (s.tmbOf q).oos then
    if 8 * n ≤ 7 * quota then (s.modTmb q fun t => { t with oos := false }).tmbEvent 12 q else s
  else if quota ≤ n then (s.modTmb q fun t => { t with oos := true }).tmbEvent 8 q
  else s

/-- A line becomes stuck dirty (R39); reclaim starts (R37). -/
def State.stick (s : State) (id : Nat) : State :=
  match s.lineById id with
  | none => s
  | some l =>
    let q := s.leadOfLode l.lode
    if l.stuck.isSome then s
    else
      let (n, s1) := s.fresh
      ((s1.modLine id fun l => { l with stuck := some n, stuckHost := l.hostDirty, owed := false }).startReclaim q).oosCheck q

/-- An older stuck line of the partition is to be written back first (R40). -/
def State.olderStuck (s : State) (l : LLine) : Bool :=
  s.lines.any fun x => s.leadOfLode x.lode = s.leadOfLode l.lode && x.stuck.any fun n => l.stuck.any fun m => n < m

/-- An older line of the frame is stuck: a writeback of another line that needs flakes sticks too (R39). -/
def State.frameHeldUp (s : State) (l : LLine) : Bool :=
  s.lines.any fun x => x.frame = l.frame && x.id ≠ l.id && !x.loc && x.stuck.any fun n => n < l.stuck.getD s.nextId

/-- Bytes of a line as the frame's storage holds them. -/
def State.storedLine (s : State) (f off : Nat) : Line :=
  BitVec.ofNat 1024 (natOfBytes (Memory.bytes s.mem (65536 * f + 128 * off) 128))

/-- Writes a line into the frame's storage, with its poison mark (R358). -/
def State.putStored (s : State) (f off : Nat) (d : Line) (poison : Bool) : State :=
  let x := s.frame f
  let ps := x.poison.filter fun k => k ≠ off
  State.setFrame { s with mem := Memory.setBytes s.mem (65536 * f + 128 * off) (bytesOfNat 128 d.toNat) } f
    { x with poison := if poison then ps ++ [off] else ps }

/-- The first write to reach an EMPTY frame fixes how it is stored (R33). -/
def State.fixStorage (s : State) (f : Nat) (req : Option (BitVec 4)) : State :=
  let x := s.frame f
  if x.st ≠ .empty then s
  else
    match req with
    | some fmt =>
      if s.rf rTMB_CTL 0 1 = 1 then s.setFrame f { x with st := .compressed, fmt := fmt, cls := [] }
      else s.setFrame f { x with st := .raw, fmt := 0, cls := [] }
    | none => s.setFrame f { x with st := .raw, fmt := 0, cls := [] }

/-- The flakes a RAW frame without flakes asks for in one request, granted whole or not at all: a request that cannot be
granted waits in its place (R32, R36). -/
def State.grantRaw (s : State) (q f : Nat) : State :=
  if (s.frame f).st = .raw ∧ (s.frame f).flakes = [] then
    match s.rawWait.find? fun w => w.2 = f with
    | some w =>
      match s.takeFlakes q f 64 w.1 with
      | some s1 => { s1 with rawWait := s1.rawWait.filter fun x => x.2 ≠ f }
      | none => s
    | none =>
      match s.takeFlakes q f 64 s.nextId with
      | some s1 => s1
      | none =>
        let (n, s1) := s.fresh
        { s1 with rawWait := s1.rawWait ++ [(n, f)] }
  else s

/-- The line is clean after its writeback; a detached line ends with it (R61). -/
def State.cleanLine (s : State) (l : LLine) : State :=
  let s1 := if l.detached then s.dropLine l.id
    else s.modLine l.id fun x =>
      { x with dirty := false, stuck := none, dmask := 0, fmtReq := none, hostDirty := false, owed := false,
               backLo := none, backHi := none }
  if l.stuck.isSome then s1.oosCheck (s.leadOfLode l.lode) else s1

/-- Writeback of a dirty line to its device frame (R32, R33, R39, R40, R43): false where the line stays dirty. That of a
line of a BUSY frame is owed until the frame's command ends. A stuck line waits for older ones; its request for flakes
keeps the place it had when the line became stuck (R36; log 57). -/
def State.wbDevice (s : State) (l : LLine) : State × Bool :=
  let q := s.leadOfLode l.lode
  let st0 := (s.frame l.frame).st
  if st0 = .busy then (s.modLine l.id fun x => { x with owed := true }, false)
  else if st0 = .balloon ∨ st0 = .reclaimed ∨ s.olderStuck l then (s, false)
  else
    let s1 := (s.fixStorage l.frame l.fmtReq).grantRaw q l.frame
    let x := s1.frame l.frame
    if x.st = .raw then
      if x.flakes = [] then (s1.stick l.id, false)
      else ((s1.putStored l.frame l.off l.data l.poison).cleanLine l, true)
    else
      let c := sizeClass l.data x.fmt.toNat
      let cls := SMap.put 0 x.cls l.off c
      let need := flakesFor (x.sum - x.classOf l.off + c)
      let got := if need ≤ x.flakes.length then some s1
        else if s1.frameHeldUp l then none
        else s1.takeFlakes q l.frame (need - x.flakes.length) (l.stuck.getD s1.nextId)
      match got with
      | none => (s1.stick l.id, false)
      | some s2 =>
        let s3 := s2.setFrame l.frame { s2.frame l.frame with cls := cls }
        (((s3.putStored l.frame l.off l.data l.poison).trimFrame l.frame).cleanLine l, true)

/-- The aperture that holds a loc = 1 frame, lowest first (R373, R374). -/
def State.aperture (s : State) (f : Nat) : Option Nat :=
  (List.range 16).find? fun a =>
    s.rf (rNRH_APB a) 0 1 = 1 && s.rf (rNRH_APB a) 16 36 ≤ f
      && f < s.rf (rNRH_APB a) 16 36 + s.rf (rNRH_APS a) 0 36

/-! Links and peers (R371 to R374). -/

def State.linkState (s : State) (l : Nat) : Nat := s.rf (rNRH_LNK l) 0 3
def State.linkPeer (s : State) (l : Nat) : Nat := s.rf (rNRH_LNK l) 8 16

/-- The peer of the aperture that holds a frame. -/
def State.peerOf (s : State) (f : Nat) : Option Nat := (s.aperture f).map fun a => s.rf (rNRH_APS a) 48 16

/-- Links that lead to a peer. -/
def State.linksTo (s : State) (peer : Nat) : List Nat :=
  (List.range 12).filter fun l => s.linkPeer l = peer && (s.linkState l = 2 || s.linkState l = 3 || s.linkState l = 5)

/-- The fenced link that leads to a peer, the lowest in number. -/
def State.fencedLink (s : State) (peer : Nat) : Option Nat := (s.linksTo peer).find? fun l => s.linkState l = 5

/-- The fenced link that leads to the peer whose memory a frame is. -/
def State.fencedFrame (s : State) (f : Nat) : Option Nat := (s.peerOf f).bind s.fencedLink

/-- Writeback of a dirty line: to its frame, or as a write that travels to host or peer memory (R66, R373). Staged
lines and lines of strata-only pages are not written back (R78, R360). -/
def State.writeback (s : State) (id : Nat) : State × Bool :=
  match s.lineById id with
  | none => (s, true)
  | some l =>
    if !l.dirty then (s, true)
    else if l.staged.isSome || l.so || l.shadow then (s, false)
    else if l.loc then
      let (n, s1) := s.fresh
      let w : ExtWrite := { id := n, pa := 65536 * l.frame + 128 * l.off, mask := l.dmask, data := l.data,
                            peer := (s.aperture l.frame).isSome, q := s.leadOfLode l.lode, asid := l.asid }
      (State.cleanLine { s1 with extWrites := s1.extWrites ++ [w] } l, true)
    else s.wbDevice l

/-- The test of R41 that a write of `data` under `mask` must pass where it is refused otherwise: the merged line's
class does not exceed the recorded one. -/
def State.growTest (s : State) (f off : Nat) (cur mask data : Line) : Bool :=
  let x := s.frame f
  sizeClass (lineMerge cur mask data) x.fmt.toNat ≤ x.classOf off

/-- Whether a lode tests device writes now: the partition is out of space, or the lode is at its stuck-line limit (R40,
R41). A lode whose limit is 0 can never hold fewer: it stops when it holds none (DESIGN CHOICE, log 58). -/
def State.testsWrites (s : State) (lode : Nat) : Bool :=
  (s.tmbOf (s.leadOfLode lode)).oos || (s.stuckLimit lode ≤ s.stuckAt lode && 0 < s.stuckAt lode)

/-- Logs a refused write (R41, R42). -/
def State.logOos (s : State) (q f off : Nat) (host : Bool) : State :=
  s.setReg (rTMB_OOS_LOG q)
    (BitVec.ofNat 64 (f % 2 ^ 36 + off * 2 ^ 36 + (if host then 2 ^ 45 else 0) + 2 ^ 63))

end Sys2Proof.Machine
end

