-- ==== Sys2Proof/Machine/Home.lean ====
section
/-! DEFINITION. The homes of lines (R57, R58) and the reverse map (R60): which lode holds a line of virtual space, which
mapping a frame is recorded under, and which lode holds a line named by its physical address. -/
namespace Sys2Proof.Machine

def PageSize.bytes : PageSize → Nat
  | .k64 => 65536
  | .m2 => 2097152
  | .g1 => 1073741824

def PageSize.frames (p : PageSize) : Nat := p.bytes / 65536

/-- `home_lode` of R57; none where a die-local leaf's die lies outside the partition. -/
def State.homeFor (s : State) (q va : Nat) (home die : BitVec 2) : Option Nat :=
  if home = 0 then some (s.partLode q (va / 128))
  else if (s.quartersOf q).contains die.toNat then
    some (64 * die.toNat + (fld va 7 6 ^^^ fld va 13 6 ^^^ fld va 19 2))
  else none

def State.homeLode (s : State) (q va : Nat) (l : Leaf) : Option Nat := s.homeFor q va l.home l.die

def State.homeOf (s : State) (q va : Nat) (l : Leaf) : Nat := (s.homeLode q va l).getD (s.partLode q (va / 128))

/-! The reverse map (R60): one entry per frame. A page's entry stands once, at its first frame, for all of its frames;
`rmapOwn` lists the frames whose entry is another one, or none. A large page's frames are aligned to its size (R56). -/

/-- The virtual address at which an entry maps frame `f`. -/
def Rmap.vaOf (r : Rmap) (f : Nat) : Nat := r.page + 65536 * (f % r.size.frames)

/-- The entry of the page that covers a frame. -/
def State.rmapPage (s : State) (f : Nat) : Option Rmap :=
  let at_ (b : Nat) (big : Rmap → Bool) : Option Rmap := (SMap.get none s.rmap b).filter big
  (at_ f fun _ => true).orElse fun _ => (at_ (f / 32 * 32) fun r => r.size ≠ .k64).orElse fun _ =>
    at_ (f / 16384 * 16384) fun r => r.size = .g1

/-- THE ENTRY OF A FRAME. -/
def State.rmapOf (s : State) (f : Nat) : Option Rmap :=
  match SMap.get none s.rmapOwn f with
  | some o => o
  | none => s.rmapPage f

/-- Sets one frame's entry. -/
def State.setRmap (s : State) (f : Nat) (o : Option Rmap) : State :=
  { s with rmapOwn := SMap.put none s.rmapOwn f (if s.rmapPage f = o then none else some o) }

/-- Sets the entry of every frame of a page whose first frame is `b`. -/
def State.putRmap (s : State) (b : Nat) (r : Rmap) : State :=
  let n := r.size.frames
  let inside (k : Nat) : Bool := b ≤ k && k < b + n
  let within := s.rmap.any fun e => e.1 ≤ b && e.2.any fun x => n < x.size.frames && b < e.1 + x.size.frames
  if within then { s with rmapOwn := (List.range' b n).foldl (fun m k => SMap.put none m k (some (some r))) s.rmapOwn }
  else { s with rmap := SMap.put none (SMap.drop inside s.rmap) b (some r), rmapOwn := SMap.drop inside s.rmapOwn }

/-- Home lode of a physical line (R58): that of the recorded mapping's address, else the frame's storage lode. -/
def State.physHome (s : State) (f off : Nat) : Nat :=
  match s.rmapOf f with
  | some r =>
    let va := r.vaOf f + 128 * off
    (s.homeFor (s.frameLead f) va r.home r.die).getD (s.partLode (s.frameLead f) (va / 128))
  | none => s.slode f

end Sys2Proof.Machine
end

