-- ==== Sys2Proof/Machine/Lode.lean ====
section
/-! DEFINITION. Lines at their home lodes: finding them, reading and writing them by physical address (R58), the host's
halves and their recall (R311), poison (R358), contracts over a line and allocation levels (R77 to R81), staged lines
(R360), and the start of a page-table shoot-down (R63). -/
namespace Sys2Proof.Machine

/-- The ASID an address is translated under (R50). -/
def effAsid (asid : BitVec 16) (va : Nat) : BitVec 16 := if va / 2 ^ 56 % 2 = 1 then 0 else asid

/-- Pieces of the bytes `a` to `a + n - 1` by line: line number, first byte in it, bytes. -/
def chunks : Nat → Nat → Nat → List (Nat × Nat × Nat)
  | 0, _, _ => []
  | fuel + 1, a, n =>
    if n = 0 then []
    else
      let k := min n (128 - a % 128)
      (a / 128, a % 128, k) :: chunks fuel (a + k) (n - k)

def chunksOf (a n : Nat) : List (Nat × Nat × Nat) := chunks (n / 128 + 2) a n

/-- A line by its virtual tag at a lode. -/
def State.lineAt (s : State) (lode : Nat) (asid : BitVec 16) (vl : Nat) : Option LLine :=
  s.lines.find? fun l => l.lode = lode && l.asid = some asid && l.line = vl && !l.detached && !l.shadow

/-- A line that holds the contents of a physical line, a reachable one before a detached one (R39, R61). -/
def State.holder (s : State) (f off : Nat) : Option LLine :=
  let here (l : LLine) : Bool := l.frame = f && l.off = off && !l.loc && !l.so && !l.shadow
  match s.lines.find? fun l => here l && !l.detached with
  | some l => some l
  | none => s.lines.find? here

/-! Host halves (R311). -/

def LLine.half (l : LLine) (hi : Bool) : Half := if hi then l.hi else l.lo
def LLine.setHalf (l : LLine) (hi : Bool) (h : Half) : LLine := if hi then { l with hi := h } else { l with lo := h }

/-- Bits of a half. -/
def halfMask (hi : Bool) : Line := lineBits (if hi then 512 else 0) 512

def touchesHalf (mask : Line) (hi : Bool) : Bool := mask &&& halfMask hi ≠ 0

/-- Notes the recalls an access needs: a read recalls a half held E to S, a write one held S or E to I. -/
def State.touch (s : State) (l : LLine) (mask : Line) (write : Bool) : State :=
  [false, true].foldl (fun s hi =>
    if touchesHalf mask hi && (l.half hi = .e || (write && l.half hi = .s)) then
      { s with recalls := s.recalls ++ [(l.id, hi, !write)] }
    else s) s

/-- Sends the back-invalidations the step found it needs (R311). One in progress for the half is not repeated. -/
def State.sendRecalls (s : State) (l : List (Nat × Bool × Bool)) : State :=
  l.foldl (fun s r =>
    if s.backInvs.any fun b => !b.lost && b.line = r.1 && b.hi = r.2.1 && (b.toS = r.2.2 || !b.toS) then s
    else
      let (n, s1) := s.fresh
      let pl := ((s.lineById r.1).map fun l => 512 * l.frame + l.off).getD 0
      { s1 with backInvs := s1.backInvs ++ [{ id := n, line := r.1, pl := pl, hi := r.2.1, toS := r.2.2, since := s1.clk }] }) s

/-- Runs a step of an engine. Where it finds host halves to recall, nothing of it takes place: the recalls are sent,
and `wait` says what else changes. -/
def State.transact (s : State) (body : State → State) (wait : State → State) : State :=
  let t := body { s with recalls := [] }
  if t.recalls = [] then t else wait (s.sendRecalls t.recalls)

/-- A lode wakes from retention sleep at a request: it kept its contents, and marks its key-value entries oldest
(R84, R384). -/
def State.wakeLode (s : State) (n : Nat) : State :=
  if (s.lodeOf n).asleep then
    { s.modLode n fun x => { x with asleep := false } with
      kv := s.kv.map fun e => if e.lode = n then { e with oldest := true } else e }
  else s

/-! Reading by physical address. -/

/-- A physical line's contents and poison mark, as the bytes under `mask` are read at its home, which wakes (R384). -/
def State.physLine (s : State) (f off : Nat) (mask : Line) : Line × Bool × State :=
  match s.holder f off with
  | some l => (l.data, l.poison, (s.wakeLode l.lode).touch l mask false)
  | none => (s.storedLine f off, (s.frame f).poison.contains off, s.wakeLode (s.physHome f off))

/-- Bytes by physical address. -/
def State.readPhys (s : State) (pa n : Nat) : List Byte × State :=
  (chunksOf pa n).foldl (fun (a, s) (ln, lo, k) =>
    let (x, _, s1) := s.physLine (ln / 512) (ln % 512) (lineMask lo k)
    (a ++ (List.range k).map fun i => lineByte x (lo + i), s1)) ([], s)

/-- A little-endian number by physical address. -/
def State.readPhysN (s : State) (pa n : Nat) : Nat × State :=
  let (b, s1) := s.readPhys pa n
  (natOfBytes b, s1)

/-- Whether a line of these bytes is poisoned. -/
def State.physPoison (s : State) (pa n : Nat) : Bool :=
  (chunksOf pa n).any fun (ln, lo, k) => (s.physLine (ln / 512) (ln % 512) (lineMask lo k)).2.1

/-! The sharer directory (R62, R63). -/

/-- Cores that still have an access in flight under an entry, filled through a page-table line, that has been replaced
(R65; log 56). -/
def State.outCores (s : State) (line : Nat) : List Nat := (s.alb.filter fun e => e.out && e.path.contains line).map (·.core)

/-- Starts the invalidation a write to a tracked page-table line triggers; a write to an untracked one triggers
nothing. `writers` are the threads whose PTSYNC waits for it. A sharer's bit stands until it has acknowledged, so that a
later write to the line, by whatever agent, invalidates it as well and waits for it (R63, R64; log 60). -/
def State.startInval (s : State) (line : Nat) (writers : List (Nat × Nat × Nat)) (host : Bool) : State :=
  let ds := s.dir.filter fun d => d.line = line
  let cores := dedup (ds.flatMap (·.cores) ++ s.outCores line)
  let lodes := ds.flatMap (·.lodes)
  if cores = [] ∧ lodes = [] then s
  else
    let (n, s1) := s.fresh
    { s1 with invals := s1.invals ++ [{ id := n, line := line, cores := cores, lodes := lodes, writers := writers, host := host }] }

/-- The sharers of a page-table line in a frame that gets its first mapping are invalidated, once at a time (R60). -/
def State.startMapInval (s : State) (line : Nat) : State :=
  if s.invals.any fun i => i.line = line && i.map then s
  else
    let t := s.startInval line [] false
    { t with invals := t.invals.map fun i => if i.id = s.nextId then { i with map := true } else i }

/-- A sharer has acknowledged: its bit in the line's entry is cleared (R63). -/
def State.untrack (s : State) (line : Nat) (core lode : Option Nat) : State :=
  { s with dir := s.dir.map fun d =>
      if d.line = line then { d with cores := d.cores.filter fun c => some c ≠ core, lodes := d.lodes.filter fun n => some n ≠ lode }
      else d }

/-- Entries without a sharer left, whose invalidations have ended, are free again. -/
def State.pruneDir (s : State) : State :=
  { s with dir := s.dir.filter fun d => d.cores ≠ [] || d.lodes ≠ [] || s.invals.any fun i => i.line = d.line }

/-- Room for one more live entry at a lode: a full directory invalidates the sharers of the entry it gives up; which one that
is the manual leaves open, the model takes the oldest (R62; DESIGN CHOICE, log 59). That entry keeps its sharers until they
have acknowledged, beside the new one. -/
def State.dirRoom (s : State) (lode : Nat) : State :=
  let here := s.dir.filter fun d => d.lode = lode && !d.leaving
  if 4096 ≤ here.length then
    match here.head? with
    | some d => State.startInval { s with dir := s.dir.map fun x => if x.line = d.line then { x with leaving := true } else x }
        d.line [] false
    | none => s
  else s

def addOpt (l : List Nat) (x : Option Nat) : List Nat :=
  match x with
  | some n => if l.contains n then l else l ++ [n]
  | none => l

/-- A page-table line's fill for a core or a lode sets its bit. A line read again while its entry makes room takes a live entry
again. -/
def State.track (s : State) (lode line : Nat) (core lode2 : Option Nat) : State :=
  let s1 := if s.dir.any fun d => d.line = line && !d.leaving then s else s.dirRoom lode
  if s1.dir.any fun d => d.line = line then
    { s1 with dir := s1.dir.map fun d =>
        if d.line = line then { d with leaving := false, cores := addOpt d.cores core, lodes := addOpt d.lodes lode2 } else d }
  else { s1 with dir := s1.dir ++ [{ lode := lode, line := line, cores := addOpt [] core, lodes := addOpt [] lode2 }] }

/-! Contracts over a line and allocation levels (R77 to R81). -/

/-- The contract of the ASID whose range holds the address (R79: at most one). -/
def State.contractAt (s : State) (q : Nat) (asid : BitVec 16) (va : Nat) : Option Contract :=
  s.contracts.find? fun c => c.q = q && c.asid = asid && c.base ≤ va && va < c.base + 65536 * c.pages

/-- Contract kinds (R78). -/
def kPin : Nat := 0
def kHold : Nat := 1
def kKeepout : Nat := 2

/-- The level a hint asks for at the lode: cache-policy value to ALLOCATE, STREAM or NONE is the instruction's; here
contract and cattr narrow it (R81). Returned with it: the line is kept. -/
def State.level (s : State) (q : Nat) (asid : BitVec 16) (va : Nat) (cattr : BitVec 2) (hint : Level) : Level × Bool :=
  match s.contractAt q asid va with
  | some c => if c.kind = kKeepout then (.none, false) else (.allocate, true)
  | none => if cattr = 2 then (.none, false) else (hint, false)

/-- The narrower of two levels (R117). -/
def Level.narrow (a b : Level) : Level :=
  match a, b with
  | .none, _ | _, .none => .none
  | .stream, _ | _, .stream => .stream
  | .allocate, .allocate => .allocate

/-! Staging (R360) and audit holds (R362). -/

/-- The record of a resident workgroup. -/
def State.recOfWg (s : State) (wg : Nat) : Option Rec :=
  match s.wg? wg with
  | some w => s.recs.find? fun r => r.id = w.recId
  | none => none

def State.modRec (s : State) (id : Nat) (f : Rec → Rec) : State :=
  { s with recs := s.recs.map fun r => if r.id = id then f r else r }

/-- A virtual address lies in a record's output (or input) ranges; both are under the record's ASID. -/
def Rec.inRange (r : Rec) (out : Bool) (va : Nat) : Bool :=
  r.ranges.any fun (o, b, p) => o = out && b ≤ va && va < b + 65536 * p

/-- The record becomes exposed (R360): counted once; a selected record's audit is voided (R362). -/
def State.expose (s : State) (id : Nat) : State :=
  match s.recs.find? fun r => r.id = id with
  | none => s
  | some r =>
    if !r.staging || r.exposed then s
    else
      let s1 := (s.modRec id fun r => { r with exposed := true }).incRf (rREL_STAT r.q) 16 16
      if r.audit = .selected then
        (s1.modRec id fun r => { r with audit := .voided }).incSat (rASY_STAT r.q) 40 8
      else s1

/-- The staged lines of a lode; a replay's shadow lines are not staged (R360, R363). -/
def State.stagedAt (s : State) (lode : Nat) : Nat := s.lines.countP fun l => l.staged.isSome && !l.shadow && l.lode = lode

/-- A record holds this address, under its effective ASID, read-only while it is audited, against every agent but the
record itself (R50, R362); ASIDs are a partition's own (R51). -/
def State.auditHeld (s : State) (q : Nat) (asid : BitVec 16) (va : Nat) (by_ : Option Nat) : Bool :=
  s.recs.any fun r => r.q = q && r.audit = .selected && r.placed ≠ 0 && some r.id ≠ by_ && effAsid r.ctx.asid va = asid
    && (r.inRange false va || (BitVec.toNat (r.image.extractLsb' 64 57) ≤ va && va < BitVec.toNat (r.image.extractLsb' 64 57) + 512))

/-! Creating and changing lines. -/

/-- The ASID and virtual address of a line: its virtual tag, or, under a physical one, the mapping recorded for its frame
(R58, R60). -/
def State.lineTag (s : State) (l : LLine) : Option (BitVec 16 × Nat) :=
  match l.asid with
  | some a => some (a, 128 * l.line)
  | none => if l.loc || l.so then none else (s.rmapOf l.frame).map fun r => (r.asid, r.vaOf l.frame + 128 * l.off)

/-- The contract that governs a line (R77, R78). -/
def State.lineContract (s : State) (l : LLine) : Option Contract :=
  (s.lineTag l).bind fun x => s.contractAt (s.leadOfLode l.lode) x.1 x.2

/-- Whether a contract of a kind governs a line. -/
def State.lineUnder (s : State) (l : LLine) (kind : Nat) : Bool := (s.lineContract l).any fun c => c.kind = kind

/-- The usable banks of the role that holds a line: pinned scratch for a PIN line, the cache for any other (R73). -/
def State.lineBanks (s : State) (l : LLine) : List Nat := s.roleBanks l.lode (if s.lineUnder l kPin then 2 else 0)

/-- Adds a line at a lode. A lode without its vertical buses holds it in the transit buffer, for the access alone (R72). -/
def State.addLine (s : State) (l : LLine) : LLine × State :=
  let (n, s1) := s.fresh
  let l1 := { l with id := n, transit := l.transit || s.busesLost l.lode, banks := s.lineBanks l }
  (l1, { s1 with lines := s1.lines ++ [l1] })

/-- The masked bytes of `d` are merged into a line: it is dirty; a write of all 128 bytes clears poison (R358); a
write to a tracked page-table line starts its shoot-down (R63). A line that host and device have both written counts, once
stuck, under the count of the latest writer before it became stuck (R42; DESIGN CHOICE, log 61). -/
def State.mergeLine (s : State) (id : Nat) (mask d : Line) (req : Option (BitVec 4))
    (writers : List (Nat × Nat × Nat)) (host : Bool) : State :=
  match s.lineById id with
  | none => s
  | some l =>
    let s1 := s.modLine id fun l =>
      { l with data := lineMerge l.data mask d, dirty := true, dmask := l.dmask ||| mask,
               fmtReq := if l.dirty then l.fmtReq else req, hostDirty := host,
               stuckHost := if l.stuck.isSome then l.stuckHost else host,
               poison := l.poison && !(mask = BitVec.allOnes 1024) }
    if l.loc || l.so || l.shadow || mask = 0 then s1 else s1.startInval (512 * l.frame + l.off) writers host

/-- A level-NONE or KEEPOUT line, one allocated before the grant included, is written back at once and not kept; so is any line of
a lode without vertical buses (R72). A stuck line stays, one of a BUSY frame stays until the frame's command ends, and one
whose halves the host holds shared until the host gives them up (R43, R78, R81; log 16). -/
def State.endTransit (s : State) (id : Nat) : State :=
  match s.lineById id with
  | none => s
  | some l =>
    if !(l.transit || s.lineUnder l kKeepout) || l.so || l.staged.isSome || l.lo = .e || l.hi = .e then s
    else
      let (s1, ok) := s.writeback id
      if ok && l.lo = .i && l.hi = .i then s1.dropLine id
      else s1.modLine id fun x => { x with transit := x.owed || s.busesLost l.lode || x.lo ≠ .i || x.hi ≠ .i }

end Sys2Proof.Machine
end

