-- ==== Sys2Proof/Machine/Xlate.lean ====
section
/-! DEFINITION. Virtual space and translation (R50 to R68, R385): leaf entries, the walk, home lodes, attribute buffers,
translation buffers with the reverse map, and what leaves when an entry leaves. -/
namespace Sys2Proof.Machine

/-- A frame of the register window (R385). -/
def regFrame (f : Nat) : Bool := Config.regBase / 65536 ≤ f && f < Config.regBase / 65536 + 256

/-- The leaf of a page-table entry's bits (R55). -/
def leafOf (w : Nat) (size : PageSize) : Leaf :=
  { rd := fld w 2 1 = 1, wr := fld w 3 1 = 1, ex := fld w 4 1 = 1, world := fld w 5 1 = 1, cmp := fld w 6 1 = 1,
    fmt := BitVec.ofNat 4 (fld w 7 4), geom := BitVec.ofNat 3 (fld w 11 3), home := BitVec.ofNat 2 (fld w 14 2),
    die := BitVec.ofNat 2 (fld w 16 2), so := fld w 18 1 = 1, cattr := BitVec.ofNat 2 (fld w 19 2),
    loc := fld w 21 1 = 1, frame := fld w 24 36, size := size,
    reg := fld w 21 1 = 0 && fld w 18 1 = 0 && regFrame (fld w 24 36) }

/-- Block size of a page's geom; 0 for none (R55). -/
def blockOf (g : BitVec 3) : Nat :=
  match fld g.toNat 0 2 with
  | 1 => 16
  | 2 => 32
  | 3 => 64
  | _ => 0

/-- Formats 6 to 11 carry block scales (R56). -/
def blockedFmt (f : Nat) : Bool := 6 ≤ f && f ≤ 11

def Leaf.isReg (l : Leaf) : Bool := l.reg

/-- What a core keeps of a leaf: everything but the frame (R23, R59; log 62). -/
def Leaf.forCore (l : Leaf) : Leaf := { l with frame := 0 }

/-- The checks of R56 and R385 that a leaf's own bits decide. -/
def leafBad (w : Nat) (size : PageSize) : Bool :=
  let l := leafOf w size
  fld w 22 2 ≠ 0 || fld w 60 4 ≠ 0 || 2 ≤ l.home.toNat || l.cattr = 3 || l.fmt = 15
    || (blockedFmt l.fmt.toNat ≠ (blockOf l.geom ≠ 0 : Bool))
    || l.frame % size.frames ≠ 0
    || (l.so && (l.frame ≠ 0 || l.loc))
    || (regFrame l.frame && (l.cmp || l.fmt ≠ 0 || l.geom ≠ 0 || l.loc || l.so))

/-- The page size of a leaf at a level (R53). -/
def levelSize (lv : Nat) : Option PageSize :=
  match lv with
  | 2 => some .g1
  | 3 => some .m2
  | 4 => some .k64
  | _ => none

/-- Lowest index bit and index width of a level (R53). -/
def levelBits (lv : Nat) : Nat × Nat := if lv = 4 then (16, 5) else (48 - 9 * lv, 9)

/-- A table pointer's reserved bits and alignment for the next level's table (R54, R56). -/
def ptrBad (w next : Nat) : Bool := fld w 2 6 ≠ 0 || fld w 52 12 ≠ 0 || (next ≠ 4 && fld w 8 4 ≠ 0)

/-- Result of a walk: the leaf, or the first cause met; with the page-table lines read. -/
structure Walked where
  res  : Except Cause Leaf
  path : List Nat
  st   : State

/-- Levels `lv` to 4 of a walk (R53 to R56). -/
def State.walkLevels (s : State) (va : Nat) (path : List Nat) (table : Nat) : List Nat → Walked
  | [] => ⟨.error .badPte, path, s⟩
  | lv :: rest =>
    let (lo, n) := levelBits lv
    let pa := table + 8 * fld va lo n
    let (w, s1) := s.readPhysN pa 8
    let path1 := path ++ [pa / 128]
    if fld w 0 1 = 0 then ⟨.error .notPresent, path1, s1⟩
    else if fld w 1 1 = 1 then
      match levelSize lv with
      | none => ⟨.error .badPte, path1, s1⟩
      | some size => if leafBad w size then ⟨.error .badPte, path1, s1⟩ else ⟨.ok (leafOf w size), path1, s1⟩
    else if lv = 4 || ptrBad w (lv + 1) then ⟨.error .badPte, path1, s1⟩
    else s1.walkLevels va path1 (256 * fld w 8 44) rest

/-- A walk finds a page, absent when a PIN or HOLD over it was admitted, homed otherwise than it was counted (R79). -/
def State.noteHome (s : State) (q : Nat) (asid : BitVec 16) (va : Nat) (l : Leaf) : State :=
  let hit (c : Contract) : Bool := c.q = q && c.asid = asid && c.kind ≠ kKeepout
    && c.absent.any fun p => va / l.size.bytes = p / l.size.bytes
  if l.home = 0 || !(s.contracts.any hit) then s
  else { s with contracts := s.contracts.map fun c => if hit c then { c with wrong := true } else c }

/-- A walk from the root entry of the ASID (R51). -/
def State.walk (s : State) (q : Nat) (asid : BitVec 16) (va : Nat) : Walked :=
  let pa := 4096 * s.rf (rXLT_ROOT q) 12 40 + 8 * asid.toNat
  let (w, s1) := s.readPhysN pa 8
  if fld w 0 1 = 0 then ⟨.error .notPresent, [pa / 128], s1⟩
  else if fld w 1 1 = 1 || ptrBad w 0 then ⟨.error .badPte, [pa / 128], s1⟩
  else
    let x := s1.walkLevels va [pa / 128] (256 * fld w 8 44) [0, 1, 2, 3, 4]
    match x.res with
    | .ok l => { x with st := x.st.noteHome q asid va l }
    | .error _ => x

/-- The page an address lies in. -/
def pageOf (va : Nat) (p : PageSize) : Nat := va / p.bytes * p.bytes

/-- Frame and line in it of an address under a leaf. -/
def Leaf.frameOf (l : Leaf) (va : Nat) : Nat := l.frame + va % l.size.bytes / 65536
def lineOff (va : Nat) : Nat := va % 65536 / 128

/-- Frames of `[b, b + n)` that are recorded under another pair than the one that maps frame `b` at `page` (R52). -/
def State.recordedElse (s : State) (b n : Nat) (asid : BitVec 16) (page : Nat) : List (Nat × Rmap) :=
  let inside (k : Nat) : Bool := b ≤ k && k < b + n
  let own := s.rmapOwn.filterMap fun e => match e.2 with
    | some (some r) => if inside e.1 && !(r.asid = asid && r.vaOf e.1 = page + 65536 * (e.1 - b)) then some (e.1, r) else none
    | _ => none
  let pages := s.rmap.flatMap fun e => match e.2 with
    | some r =>
      if r.asid = asid && r.page + 65536 * b = page + 65536 * e.1 then []
      else (List.range' (max e.1 b) (min (e.1 + r.size.frames) (b + n) - max e.1 b)).map fun k => (k, r)
    | none => []
  (pages.filter fun x => (SMap.find s.rmapOwn x.1).isNone) ++ own

/-- Records sharers of the lines a walk read (R62). -/
def State.trackAll (s : State) (path : List Nat) (core lode : Option Nat) : State :=
  path.foldl (fun s ln => s.track (s.physHome (ln / 512) (ln % 512)) ln core lode) s

/-- The dies of each port of PART_BND. -/
def portDies : List (Nat × Nat) := [(0, 1), (0, 2), (1, 3), (2, 3), (0, 3), (1, 2)]

/-- The fabric port between two dies is closed (R380). -/
def State.portClosed (s : State) (x y : Nat) : Bool :=
  portDies.zipIdx.any fun p => (p.1 = (x, y) || p.1 = (y, x)) && !bitAt (s.reg rPART_BND) p.2

/-- A packet meets a closed port: it is dropped and counted, once (R380). -/
def State.shutAt (s : State) (p : PortDrop) : State :=
  if s.portDrops.contains p then s else State.incRf { s with portDrops := s.portDrops ++ [p] } rPART_BND 16 32

/-- A lode's walk reads a page-table line across a closed port: its packet is dropped, and no answer comes (R380). -/
def State.walkShut (s : State) (lode : Nat) (asid : BitVec 16) (va : Nat) (path : List Nat) : Option PortDrop :=
  (path.find? fun ln => s.portClosed (lode / 64) (s.physHome (ln / 512) (ln % 512) / 64)).map fun _ =>
    { die := lode / 64, lode := lode, asid := asid, line := va / 65536, by_ := lode, walk := true }

/-! The attribute buffer (R59). -/

def State.albFind (s : State) (core : Nat) (asid : BitVec 16) (va : Nat) : Option AlbEntry :=
  s.alb.find? fun e => e.core = core && e.asid = asid && !e.out && e.page ≤ va && va < e.page + e.leaf.size.bytes

/-- A line of an entry's page. -/
def AlbEntry.covers (e : AlbEntry) (core : Nat) (asid : BitVec 16) (line : Nat) : Bool :=
  e.core = core && e.asid = asid && e.page / 128 ≤ line && line < (e.page + e.leaf.size.bytes) / 128

/-- The scale byte that a request reads: its address and leaf. -/
def Req.scale (r : Req) : Option (Nat × Leaf) :=
  match r.what with
  | .scaled sva sleaf _ _ _ _ _ _ _ => some (sva, sleaf)
  | _ => none

/-- The lines a request is an access to: its own, and a scaled store's scale byte and its element's part in the next line. -/
def Req.lines (r : Req) : List Nat :=
  match r.what with
  | .scaled sva _ _ _ _ _ _ _ rest => r.line :: sva / 128 :: (rest.map fun x => x.1 / 128).toList
  | _ => [r.line]

/-- The core has a store, a request or a fill of the entry's page on its way. -/
def State.albBusy (s : State) (e : AlbEntry) : Bool :=
  s.sbuf.any (fun x => e.covers x.core x.asid x.line) || s.reqs.any (fun x => x.lines.any fun n => e.covers x.core x.asid n)
    || s.l1fills.any fun x => e.covers x.core x.asid x.line

/-- Adds an entry. Among 256 the oldest makes room, one whose page is not in use before any other (R59 leaves the order
open), and takes the L1 lines of its page with it. One whose page is in use is kept in view until its last access in
flight has ended: an invalidation waits for those accesses (R63, R65; log 56). -/
def State.albAdd (s : State) (e : AlbEntry) : State :=
  let s0 : State := { s with alb := s.alb.filter fun x => !(x.out && !s.albBusy x) }
  let mine := s0.alb.filter fun x => x.core = e.core && !x.out
  if mine.length < 256 then { s0 with alb := s0.alb ++ [e] }
  else
    match (mine.find? fun x => !s.albBusy x).orElse fun _ => mine.head? with
    | some v =>
      { s0 with alb := (if s.albBusy v then s0.alb.map fun x => if x = v then { v with out := true } else x else s0.alb.erase v) ++ [e],
                l1 := s0.l1.filter fun x => !v.covers x.core x.asid x.line }
    | none => { s0 with alb := s0.alb ++ [e] }

/-- Attributes of a page for a core: the buffer's, or those of a walk made at the core's own lode (R59). The frame is not
among them (R23). -/
def State.attrs (s : State) (core : Nat) (asid : BitVec 16) (va : Nat) : Except Cause Leaf × State :=
  match s.albFind core asid va with
  | some e => (.ok e.leaf, s)
  | none =>
    let w := s.walk (s.leadOfCore core) asid va
    match w.res with
    | .error c => (.error c, w.st)
    | .ok l =>
      (.ok l.forCore, (w.st.trackAll w.path (some core) none).albAdd
        { core := core, asid := asid, page := pageOf va l.size, leaf := l.forCore, path := w.path })

/-- Kinds of access, as permissions (R55, R59). -/
inductive Need where
  | rd | wr | rdwr | ex
  deriving DecidableEq, Repr

def Leaf.permits (l : Leaf) : Need → Bool
  | .rd => l.rd
  | .wr => l.wr
  | .rdwr => l.rd && l.wr
  | .ex => l.ex

/-- The core's checks on an address (R50, R59, R68): the leaf, or the first cause. -/
def State.check (s : State) (core : Nat) (asid : BitVec 16) (secure : Bool) (va : Int) (need : Need) :
    Except Cause Leaf × State :=
  if va < 0 ∨ 2 ^ 57 ≤ va then (.error .range, s)
  else
    let a := va.toNat
    let (r, s1) := s.attrs core (effAsid asid a) a
    match r with
    | .error c => (.error c, s1)
    | .ok l =>
      if (s1.homeLode (s1.leadOfCore core) a l).isNone then (.error .home, s1)
      else if l.world && !secure then (.error .world, s1)
      else if !l.permits need then (.error .perm, s1)
      else (.ok l, s1)

/-! The translation buffer (R60, R61). -/

def State.tbFind (s : State) (lode : Nat) (asid : BitVec 16) (va : Nat) : Option TbEntry :=
  s.tb.find? fun e => e.lode = lode && e.asid = asid && e.page ≤ va && va < e.page + e.leaf.size.bytes

/-- A line of a page, by its virtual tag at a lode. -/
def LLine.ofPage (l : LLine) (lode : Nat) (asid : BitVec 16) (page size : Nat) : Bool :=
  l.lode = lode && l.asid = some asid && page / 128 ≤ l.line && l.line < (page + size) / 128 && !l.detached && !l.shadow

/-- One line leaves with its page's entry (R61): host halves are recalled, a dirty line is written back, a clean one
dropped, a stuck one detached. Strata-only lines survive (R78); so do staged ones (R360). The manual says nothing of a
dirty line of a BUSY frame, which cannot be written back yet and is not stuck: it is detached as well, and its writeback
follows when the frame's command ends (R43; DESIGN CHOICE, log 63). -/
def State.leaveLine (s : State) (id : Nat) : State :=
  match s.lineById id with
  | none => s
  | some l =>
    if l.so || l.staged.isSome then s
    else if l.stuck.isSome then (s.touch l (BitVec.allOnes 1024) true).modLine id fun l => { l with detached := true }
    else
      let s1 := s.touch l (BitVec.allOnes 1024) true
      let (s2, ok) := s1.writeback id
      if ok then s2.dropLine id else s2.modLine id fun l => { l with detached := true }

/-- A translation-buffer entry leaves its lode (R61). -/
def State.tbDrop (s : State) (e : TbEntry) : State :=
  let ids := (s.lines.filter fun l => l.ofPage e.lode e.asid e.page e.leaf.size.bytes).map (·.id)
  let s1 := ids.foldl State.leaveLine s
  { s1 with tb := s1.tb.filter fun x => !(x.lode = e.lode && x.asid = e.asid && x.page = e.page) }

/-- Adds an entry; the oldest entry without a contract makes room among 2,048 (R60, R80). -/
def State.tbAdd (s : State) (e : TbEntry) : State :=
  let mine := s.tb.filter fun x => x.lode = e.lode
  let s1 := if 2048 ≤ mine.length then
      match mine.find? fun x => !x.contracted with
      | some v => s.tbDrop v
      | none => s
    else s
  { s1 with tb := s1.tb ++ [e] }

/-- How an install ends (R60): it waits for detached stuck lines with its leaf in hand, or the walk is to be made again once
the sharers of the frame's page-table lines are gone. -/
inductive Installed where
  | ok | fault (c : Cause) | wait | again
  deriving DecidableEq, Repr

/-- Frames without a mapping get one: their lines under a physical tag are written back and dropped, and host halves are recalled
(R60, first row). A line whose writeback cannot complete, since it is stuck or its frame BUSY, stays in its lode: the
manual says nothing of it there; the line's next access takes it under its virtual tag (DESIGN CHOICE, log 78). -/
def State.clearPhysTags (s : State) (fresh : Nat → Bool) : State :=
  let ids := (s.lines.filter fun l => l.asid.isNone && fresh l.frame && !l.loc && !l.detached).map (·.id)
  ids.foldl (fun s id =>
    match s.lineById id with
    | none => s
    | some l =>
      let s1 := s.touch l (BitVec.allOnes 1024) true
      let (s2, ok) := s1.writeback id
      if ok then s2.dropLine id else s2) s

/-- Tracked page-table lines with sharers in frames that get their first mapping (R60, first row). -/
def State.sharedTables (s : State) (fresh : Nat → Bool) : List Nat :=
  (s.dir.filter fun d => fresh (d.line / 512) && (d.cores ≠ [] || d.lodes ≠ [])).map (·.line)

/-- The walker walks a recorded pair again: whether it still maps the frame, and if so whether that leaf may be written. -/
def State.stillMaps (s : State) (f : Nat) (r : Rmap) : Option Bool × State :=
  let w := s.walk (s.frameLead f) r.asid (r.vaOf f)
  (match w.res with
   | .ok x => if !x.loc && !x.so && x.frameOf (r.vaOf f) = f then some x.wr else none
   | .error _ => none, w.st)

/-- Walker's checks and records on installing a leaf, frame by frame (R38, R52, R60, R376). A frame recorded at the same
virtual address is the same pair, whatever the page size (log 64). The mapping is recorded once the sharers of page-table lines in
a frame that had none have been invalidated. -/
def State.installMap (s : State) (q : Nat) (asid : BitVec 16) (page : Nat) (l : Leaf) : Installed × State :=
  if l.so || l.loc || l.isReg then (.ok, s)
  else
    let n := l.size.frames
    let inside (f : Nat) : Bool := l.frame ≤ f && f < l.frame + n
    let listed := (s.frames.filter fun e => inside e.1).map (·.2)
    -- each frame recorded under another pair: is it still mapped there?
    let (held, s1) := (s.recordedElse l.frame n asid page).foldl (fun (acc : List (Nat × Rmap × Bool) × State) e =>
      match acc.2.stillMaps e.1 e.2 with
      | (some wr, t) => (acc.1 ++ [(e.1, e.2, wr)], t)
      | (none, t) => (acc.1, t)) ([], s)
    if !(held.all fun e => asid = 0 && !l.wr && e.2.1.asid = 0 && !e.2.2) then (.fault .aliased, s1)
    else if !(s.ownsFrame q l.frame && s.ownsFrame q (l.frame + n - 1)) then (.fault .frame, s1)
    else if listed.any fun x => x.st = .balloon || x.st = .reclaimed then (.fault .frame, s1)
    else if !l.world && s.framesSecure q l.frame n then (.fault .frame, s1)
    else if s.lines.any fun x => x.detached && x.stuck.isSome && !x.loc && inside x.frame then (.wait, s1)
    else
      let same (f : Nat) : Bool := (s.rmapOf f).any fun r => r.asid = asid && r.vaOf f = page + 65536 * (f - l.frame)
      let new : Rmap := { asid := asid, page := page, size := l.size, home := l.home, die := l.die }
      let sharedOwn := s.rmapOwn.filterMap fun e => match e.2 with
        | some (some r) => if inside e.1 && same e.1 && r.shared then some e.1 else none
        | _ => none
      let fresh (f : Nat) : Bool := inside f && !same f && !(held.any fun e => e.1 = f)
      let shared := s1.sharedTables fresh
      if shared ≠ [] then (.again, shared.foldl State.startMapInval s1) else
      let s2 := (s1.clearPhysTags fresh).putRmap l.frame
        { new with shared := same l.frame && (s.rmapPage l.frame).any fun r => r.shared }
      let s3 := sharedOwn.foldl (fun s f => s.setRmap f (some { new with shared := true })) s2
      (.ok, held.foldl (fun s e => s.setRmap e.1 (some { e.2.1 with shared := true })) s3)

/-- Installs a leaf in a lode's translation buffer (R60). -/
def State.install (s : State) (q lode : Nat) (asid : BitVec 16) (va : Nat) (l : Leaf) (path : List Nat) :
    Installed × State :=
  let page := pageOf va l.size
  let (r, s1) := s.installMap q asid page l
  match r with
  | .ok =>
    let con := s1.contracts.any fun c => c.q = q && c.asid = asid && c.base < page + l.size.bytes && page < c.base + 65536 * c.pages
    (.ok, (s1.trackAll path none (some lode)).tbAdd
      { lode := lode, asid := asid, page := page, leaf := l, path := path, contracted := con })
  | x => (x, s1)

/-- The walk of a lode's own walker and its install (R60). -/
def State.walkInstall (s : State) (q lode : Nat) (asid : BitVec 16) (va : Nat) : Installed × State :=
  let w := s.walk q asid va
  match s.walkShut lode asid va w.path, w.res with
  | some p, _ => (.wait, s.shutAt p)
  | none, .error c => (.fault c, w.st)
  | none, .ok l => w.st.install q lode asid va l w.path

/-- A page's counters (R66): one lode miss by a requester of die `d`, where the frame is remote to the lode. When a frame lies on
other lodes' channels the manual leaves open: the model takes any one of its flakes elsewhere as remote, and goes by the
storage lode of a frame that holds none (DESIGN CHOICE, log 65). -/
def State.countMiss (s : State) (lode : Nat) (asid : BitVec 16) (va d : Nat) : State :=
  match s.tbFind lode asid va with
  | none => s
  | some e =>
    if e.leaf.size ≠ .k64 || e.leaf.so then s
    else
      let remote := e.leaf.loc || (let fl := (s.frame e.leaf.frame).flakes
        if fl = [] then s.slode e.leaf.frame ≠ lode else fl.any fun n => flakeLode n ≠ lode)
      if !remote then s
      else
        let q := s.leadOfLode lode
        let cnt := e.cnt.modify d fun n => min 1023 (n + 1)
        let th := max 1 (s.rf (rXLT_MIG q) 16 10)
        let hit := s.rf (rXLT_MIG q) 0 1 = 1 && cnt.any fun n => th ≤ n
        let s1 := { s with tb := s.tb.map fun x => if x = e then { e with cnt := if hit then [0, 0, 0, 0] else cnt } else x }
        if !hit then s1
        else if s1.migrations.any fun m => m.frame = e.leaf.frame && m.host = e.leaf.loc then s1
        else if e.leaf.loc && (s1.rf (rXLT_MIG q) 1 1 = 0 || s1.rf (rXLT_MIGFRAME q) 36 1 = 0
            || (s1.aperture e.leaf.frame).isSome) then s1
        else { s1 with migrations := s1.migrations ++ [⟨q, lode, asid, e.page, e.leaf.frame, e.leaf.loc⟩] }

end Sys2Proof.Machine
end

