-- ==== Sys2Proof/Machine/Access.lean ====
section
/-! DEFINITION. One access at a home lode (R21, R60, R66, R78, R81, R360 to R362): finding or filling its line, reading
it and writing it; and writes by physical address (R33, R58). -/
namespace Sys2Proof.Machine

/-- How an access at a lode ends: with its result, with a fault found there, or not yet. -/
inductive Got (α : Type) where
  | ok (a : α) | fault (c : Cause) | wait
  deriving DecidableEq, Repr

/-- The leaf of the mapping that the reverse map records for a frame: the home lode takes it from its own translation
buffer, or walks the recorded pair (R33); where neither maps the frame any more there is none. Only a write to an EMPTY
frame uses it. -/
def State.mappedLeaf (s : State) (f off : Nat) : Option Leaf × State :=
  match s.rmapOf f with
  | none => (none, s)
  | some r =>
    let va := r.vaOf f + 128 * off
    let maps (l : Leaf) : Bool := !l.loc && !l.so && l.frameOf va = f
    if (s.frame f).st ≠ .empty then (none, s) else
    match (s.tbFind (s.physHome f off) r.asid va).filter fun e => maps e.leaf with
    | some e => (some e.leaf, s)
    | none =>
      let w := s.walk (s.frameLead f) r.asid va
      (match w.res with
        | .ok l => if maps l then some l else none
        | .error _ => none, w.st)

/-- The compression request of a leaf (R33). -/
def Leaf.request (l : Leaf) : Option (BitVec 4) := if l.cmp && !l.loc then some l.fmt else none

/-- Merges masked bytes into a physical line at its home (R58), which wakes (R384): the line held there, or a new one under a
physical tag. A line that nothing lets the lode keep is written back at once (R72, R78). -/
def State.mergePhys (s0 : State) (f off : Nat) (mask data : Line) (host : Bool) : State :=
  let (leaf, s) := s0.mappedLeaf f off
  let req := leaf.bind Leaf.request
  match s.holder f off with
  | some l => (((s.wakeLode l.lode).touch l mask true).mergeLine l.id mask data req [] host).endTransit l.id
  | none =>
    let home := s.physHome f off
    let l0 : LLine := { id := 0, lode := home, asid := none, line := 512 * f + off, frame := f, off := off,
                        data := s.storedLine f off, poison := (s.frame f).poison.contains off }
    let (l, s1) := (s.wakeLode home).addLine l0
    (s1.mergeLine l.id mask data req [] host).endTransit l.id

/-- A physical line is poisoned, at its home or as its frame stores it (R358). -/
def State.poisonPhys (s : State) (f off : Nat) : State :=
  match s.holder f off with
  | some l => s.modLine l.id fun x => { x with poison := true }
  | none =>
    let x := s.frame f
    s.setFrame f { x with poison := if x.poison.contains off then x.poison else x.poison ++ [off] }

/-- Bytes written by physical address, by the device's own engines. -/
def State.writePhys (s : State) (pa : Nat) (bytes : List Byte) : State :=
  (chunksOf pa bytes.length).foldl (fun s (ln, lo, k) =>
    let st := (s.frame (ln / 512)).st
    if st = .balloon || st = .reclaimed then s
    else s.mergePhys (ln / 512) (ln % 512) (lineMask lo k)
      (lineOf lo ((bytes.drop (128 * ln + lo - pa)).take k)) false) s

def State.writePhysN (s : State) (pa n v : Nat) : State := s.writePhys pa (bytesOfNat n v)

/-- The record an access is made for, where lines are staged or shadowed. -/
def State.recBy (s : State) (who : Option Nat) : Option Rec :=
  match who with
  | some id => s.recs.find? fun r => r.id = id
  | none => none

/-- A run of a record under audit other than the primary one (R363). -/
def Rec.isReplay (r : Rec) : Bool := r.primary ≠ 0

/-- The replay, or third run, that an access is made for (R363). -/
def State.replayBy (s : State) (who : Option Nat) : Option Rec := (s.recBy who).filter Rec.isReplay

/-- The line an access sees: a replay sees its own shadow lines first (R363). -/
def State.lineFor (s : State) (who : Option Nat) (lode : Nat) (asid : BitVec 16) (vl : Nat) : Option LLine :=
  let own := (s.replayBy who).bind fun r =>
    s.lines.find? fun l => l.lode = lode && l.asid = some asid && l.line = vl && l.shadow && l.staged = some r.id
  match own with
  | some l => some l
  | none => s.lineAt lode asid vl

/-- A replay's own copy of a line (R363): nobody else reads it, and it is never published. -/
def LLine.shadowOf (l : LLine) (r : Rec) (data : Line) : LLine :=
  { l with shadow := true, staged := some r.id, data := data, dirty := false, dmask := 0, stuck := none, owed := false,
           lo := .i, hi := .i, transit := false }

/-- The line as an access reads it. A replay starts from the memory its primary started from: a line that the primary has
staged is, for the replay, a shadow of what the line's frame holds (R361, R363, R364). -/
def State.seenLine (s : State) (who : Option Nat) (l : LLine) : LLine × State :=
  match s.replayBy who with
  | some r =>
    if !l.shadow && l.staged = some r.primary then
      s.addLine { l.shadowOf r (s.storedLine l.frame l.off) with poison := (s.frame l.frame).poison.contains l.off }
    else (l, s)
  | none => (l, s)

/-- What an access at a lode is. -/
structure Acc1 where
  q    : Nat                 -- lead quarter of its partition
  asid : BitVec 16           -- effective (R50)
  va   : Nat
  leaf : Leaf                -- attributes the access was checked with
  hint : Level := .allocate
  who  : Option Nat := none  -- its record
  die  : Nat := 0            -- of the requester
  wr   : Bool := false       -- it writes, and reads nothing
  split : Bool := false      -- misses are served by later steps (V and L requests)
  eng  : Nat := 0            -- the engine operation it belongs to, by number (R68)
  src  : Nat := 0            -- what else sends it, by number: a fetch (R380)

/-- A line is read from its frame across a closed port: one of its flakes stands on a die the lode cannot reach. -/
def State.storeShut (s : State) (lode f : Nat) : Bool :=
  (s.frame f).flakes.any fun n => s.portClosed (lode / 64) (flakeLode n / 64)

/-- A line from a frame enters its home lode (R22, R60): a line held of it under another tag is the same line. -/
def State.fillDevice (s : State) (lode : Nat) (a : Acc1) (l : Leaf) : Got LLine × State :=
  let f := l.frameOf a.va
  let off := lineOff a.va
  let (lv, kept) := s.level a.q a.asid a.va l.cattr a.hint
  match s.holder f off with
  | some x =>
    if x.detached then (.wait, s)
    else
      let tag : LLine := { x with lode := lode, asid := some a.asid, line := a.va / 128 }
      let s1 := s.modLine x.id fun _ => { tag with banks := s.lineBanks tag }
      (match s1.lineById x.id with
        | some y => .ok y
        | none => .wait, s1)
  | none =>
    if s.storeShut lode f then
      (.wait, s.shutAt { die := lode / 64, lode := lode, asid := a.asid, line := a.va / 128, by_ := lode, walk := true })
    else
    let (y, s1) := s.addLine
      { id := 0, lode := lode, asid := some a.asid, line := a.va / 128, frame := f, off := off,
        data := s.storedLine f off, poison := (s.frame f).poison.contains off,
        transit := lv = .none && !kept, strm := lv = .stream }
    (.ok y, s1)

/-- A fill of the line is in progress; it was counted as a miss when it started. -/
def State.filling (s : State) (lode : Nat) (a : Acc1) : Bool :=
  s.fills.any fun f => f.lode = lode && f.asid = a.asid && f.line = a.va / 128

/-- Starts a fill, where none of the line is in progress (R22, R66, R373). An engine that waits for a line of host or peer
memory is noted: a failure is reported to it (R68). -/
def State.startFill (s : State) (lode : Nat) (a : Acc1) (l : Leaf) (ext : Bool) : State :=
  let engs : List Nat := if a.split then [] else [a.eng]
  if s.filling lode a then
    { s with fills := s.fills.map fun f =>
        if f.lode = lode && f.asid = a.asid && f.line = a.va / 128 && !a.split && !f.engs.contains a.eng then
          { f with engs := f.engs ++ engs } else f }
  else
    let (n, s1) := s.fresh
    let (lv, _) := s.level a.q a.asid a.va l.cattr a.hint
    { s1 with fills := s1.fills ++ [{ id := n, lode := lode, asid := a.asid, line := a.va / 128, leaf := l, lvl := lv, ext := ext,
                                      peer := ext && (s.aperture (l.frameOf a.va)).isSome, engs := engs }] }

/-- THE LINE OF AN ACCESS AT ITS HOME LODE (R21, R60, R66): held there, or filled under the translation buffer's entry,
which a walk installs where it is missing. No line of a register page is made (R385). -/
def State.ensure (s0 : State) (a : Acc1) : Got LLine × State :=
  let lode := s0.homeOf a.q a.va a.leaf
  let s := s0.wakeLode lode
  if s0.portClosed a.die (lode / 64) then
    (.wait, s0.shutAt { die := a.die, lode := lode, asid := a.asid, line := a.va / 128, by_ := if a.eng = 0 then a.src else a.eng })
  else
  let failed : Nat × Nat × BitVec 16 × Nat := (a.eng, lode, a.asid, a.va / 128)
  let fenced (l : Leaf) : Bool := a.wr && l.loc && (s0.fencedFrame (l.frameOf a.va)).isSome
  if !a.split && s0.hostFails.contains failed && !((s0.tbFind lode a.asid a.va).any fun e => fenced e.leaf) then
    (.fault .hostErr, { s with hostFails := s.hostFails.filter fun x => x ≠ failed }) else
  match s.lineFor a.who lode a.asid (a.va / 128) with
  | some l =>
    let (y, s1) := s.seenLine a.who l
    (.ok y, s1)
  | none =>
    let withEntry (s : State) (e : TbEntry) : Got LLine × State :=
      if e.leaf.isReg then (.fault .perm, s)
      else if e.leaf.so then
        match s.contractAt a.q a.asid a.va with
        | some c =>
          if c.kind = kPin then
            let (y, s2) := s.addLine { id := 0, lode := lode, asid := some a.asid, line := a.va / 128, frame := 0,
                                       off := 0, so := true, data := 0 }
            (.ok y, s2)
          else (.fault .strata, s)
        | none => (.fault .strata, s)
      -- a write to a fenced peer needs no line of it: it goes out, to be discarded and counted (R374)
      else if fenced e.leaf then
        let (y, s2) := s.addLine { id := 0, lode := lode, asid := some a.asid, line := a.va / 128, frame := e.leaf.frameOf a.va,
                                   off := lineOff a.va, loc := true, data := 0, transit := true }
        (.ok y, s2)
      else if (e.leaf.loc || a.split) && s.filling lode a then (.wait, s.startFill lode a e.leaf e.leaf.loc)
      -- a write of the line is on its way to the host or the peer: the line is read after it
      else if e.leaf.loc && s.extWrites.any fun w => w.pa = 65536 * e.leaf.frameOf a.va + 128 * lineOff a.va then (.wait, s)
      else
        let s1 := s.countMiss lode a.asid a.va a.die
        if e.leaf.loc then (.wait, s1.startFill lode a e.leaf true)
        else if a.split then (.wait, s1.startFill lode a e.leaf false)
        else s1.fillDevice lode a e.leaf
    match s.tbFind lode a.asid a.va with
    | some e => withEntry s e
    | none =>
      if a.split then
        if s.walks.any fun w => w.lode = lode && w.asid = a.asid && w.va / 65536 = a.va / 65536 then (.wait, s)
        else if s.deferred.any fun w => w.lode = lode && w.asid = a.asid && w.va / 65536 = a.va / 65536 then (.wait, s)
        else
          let (n, s1) := s.fresh
          (.wait, { s1 with walks := s1.walks ++ [⟨n, lode, a.asid, a.va⟩] })
      else
        match s.walkInstall a.q lode a.asid a.va with
        | (.ok, s1) =>
          match s1.tbFind lode a.asid a.va with
          | some e => withEntry s1 e
          | none => (.wait, s1)
        | (.fault c, s1) => (.fault c, s1)
        | (_, s1) => (.wait, s1)

/-- Reads a line's bytes under `mask` (R21, R311, R358): poisoned data is an uncorrectable error. -/
def State.readLine (s : State) (a : Acc1) (mask : Line) : Got Line × State :=
  match s.ensure a with
  | (.ok l, s1) =>
    if l.poison then (.fault .ue, s1)
    else (.ok l.data, (s1.touch l mask false).endTransit l.id)
  | (.fault c, s1) => (.fault c, s1)
  | (.wait, s1) => (.wait, s1)

/-- Operand width of a reduction. -/
def redWidth (op : Nat) : Nat := if op = 1 || op = 4 then 64 else 32

/-- Voids the audit a record belongs to, once (R362, R363). -/
def State.voidAudit (s : State) (r : Rec) : State :=
  let same (x : Rec) : Bool := x.queue = r.queue && x.q = r.q && x.index = r.index
  let s1 := if s.recs.any (fun x => same x && x.audit = .voided) then s else s.incSat (rASY_STAT r.q) 40 8
  { s1 with recs := s1.recs.map fun x =>
      if same x && x.audit ≠ .none then { x with audit := .voided } else x }

/-- What a write to a line means for the record it is made for (R360 to R363): the line becomes staged after its older
dirty data is written back, the record becomes exposed, or the line is a shadow of a replay. A line that another record has
staged takes the write and stays that record's (R361). Answers the line to write. -/
def State.stageFor (s : State) (a : Acc1) (l : LLine) : Got Nat × State :=
  match s.recBy a.who with
  | none => (.ok l.id, s)
  | some r =>
    if r.isReplay then
      if l.shadow then (.ok l.id, s)
      else
        let (y, s1) := s.addLine (l.shadowOf r l.data)
        (.ok y.id, s1)
    else if !r.staging then (.ok l.id, s)
    else
      let s0 := if r.audit = .selected && r.inRange false a.va then s.voidAudit r else s
      if r.exposed then (.ok l.id, s0)
      else if !r.inRange true a.va || l.loc || l.so
          || (match s.contractAt a.q a.asid a.va with
              | some c => c.kind = kPin
              | none => false) then (.ok l.id, s0.expose r.id)
      else if l.staged.isSome then (.ok l.id, s0)
      else if s.rf (rREL_CTL r.q) 8 24 ≤ s.stagedAt l.lode then (.ok l.id, s0.expose r.id)
      else
        let (s1, ok) := s0.writeback l.id
        if ok then (.ok l.id, s1.modLine l.id fun l => { l with staged := some r.id, transit := false })
        else (.wait, s1)

/-- A write by a replay outside its output ranges (R363): it voids the audit. The model lets it change nothing (DESIGN
CHOICE, log 66). -/
def State.strayWrite (s : State) (a : Acc1) : Option Rec := (s.replayBy a.who).filter fun r => !r.inRange true a.va

/-- Writes masked bytes of a line at its home (R21): held by an audit it waits, out of space it is refused. -/
def State.writeLine (s : State) (a : Acc1) (mask data : Line) (writers : List (Nat × Nat × Nat)) : Got Unit × State :=
  match s.strayWrite a with
  | some r => (.ok (), s.voidAudit r)
  | none =>
  if s.auditHeld a.q a.asid a.va a.who && (s.replayBy a.who).isNone then (.wait, s)
  else
    match s.ensure { a with wr := true } with
    | (.ok l, s1) =>
      let q := s1.leadOfLode l.lode
      if s1.testsWrites l.lode && !l.shadow && !l.loc && !l.so && !s1.growTest l.frame l.off l.data mask data then
        (.fault .outOfSpace, s1.logOos q l.frame l.off false)
      else
        match s1.stageFor a l with
        | (.ok id, s2) =>
          let req := match s2.tbFind l.lode a.asid a.va with
            | some e => e.leaf.request
            | none => a.leaf.request
          let s3 := if (s.replayBy a.who).isNone then s2.touch l mask true
            else if l.shadow then s2 else s2.touch l (BitVec.allOnes 1024) false
          (.ok (), (s3.mergeLine id mask data req writers false).endTransit id)
        | (.fault c, s2) => (.fault c, s2)
        | (.wait, s2) => (.wait, s2)
    | (.fault c, s1) => (.fault c, s1)
    | (.wait, s1) => (.wait, s1)

/-- Brings the lines of some accesses to their homes: `wait` where one of them is still on its way, the first fault
otherwise. -/
def State.ensureAll (s : State) (l : List Acc1) : Got Unit × State :=
  l.foldl (fun (g, s) a =>
    match g with
    | .fault c => (.fault c, s)
    | g =>
      match s.ensure a with
      | (.ok _, s1) => (g, s1)
      | (.fault c, s1) => (.fault c, s1)
      | (.wait, s1) => (.wait, s1)) (.ok (), s)

/-- Reads some lines whole or in part, each once. -/
def State.readLines (s : State) (l : List (Acc1 × Line)) : Got (List Line) × State :=
  match s.ensureAll (l.map (·.1)) with
  | (.ok (), s1) =>
    l.foldl (fun (g, s) (a, m) =>
      match g with
      | .ok xs =>
        match s.readLine a m with
        | (.ok x, s1) => (.ok (xs ++ [x]), s1)
        | (.fault c, s1) => (.fault c, s1)
        | (.wait, s1) => (.wait, s1)
      | g => (g, s)) (.ok [], s1)
  | (.fault c, s1) => (.fault c, s1)
  | (.wait, s1) => (.wait, s1)

/-- Bytes by virtual address, whole lines at a time. -/
def State.readVirt (s : State) (a : Acc1) (n : Nat) : Got (List Byte) × State :=
  let ch := chunksOf a.va n
  match s.readLines (ch.map fun x => ({ a with va := 128 * x.1 }, lineMask x.2.1 x.2.2)) with
  | (.ok xs, s1) =>
    (.ok ((ch.zip xs).flatMap fun x => (List.range x.1.2.2).map fun i => lineByte x.2 (x.1.2.1 + i)), s1)
  | (.fault c, s1) => (.fault c, s1)
  | (.wait, s1) => (.wait, s1)

/-- Writes bytes by virtual address, line by line. -/
def State.writeVirt (s : State) (a : Acc1) (b : List Byte) (writers : List (Nat × Nat × Nat)) : Got Unit × State :=
  (chunksOf a.va b.length).foldl (fun (g, s) (ln, lo, k) =>
    match g with
    | .ok () => s.writeLine { a with va := 128 * ln } (lineMask lo k)
        (lineOf lo ((b.drop (128 * ln + lo - a.va)).take k)) writers
    | g => (g, s)) (.ok (), s)

end Sys2Proof.Machine
end

