-- ==== Sys2Proof/Machine/Trap.lean ====
section
/-! DEFINITION. Traps and what follows from them (R336 to R348, R359 to R361): reports to the context's ring, parked
sub-waves, entering the handler as one shared operation, termination of a workgroup and rollback of a record. -/
namespace Sys2Proof.Machine

/-! Reports (R346, R347). -/

/-- Report kinds. -/
inductive RKind where
  | parked | copy | unhandled | double | ue | contractLost | place | saveFail
  deriving DecidableEq, Repr

def RKind.code : RKind → Nat
  | .parked => 1 | .copy => 2 | .unhandled => 3 | .double => 4 | .ue => 5 | .contractLost => 6 | .place => 7
  | .saveFail => 8

/-- A report entry as a 512-bit number; `body` is bits 511:128. -/
def reportEntry (k : RKind) (cause fault wg ref body : Nat) : Nat :=
  k.code + cause * 2 ^ 4 + fault % 4096 * 2 ^ 12 + wg % 2 ^ 32 * 2 ^ 32 + ref % 2 ^ 64 * 2 ^ 64 + body * 2 ^ 128

/-- Writes a report into the ring of a save area when cons + 64 > prod: answers whether it was written. A report other
than PARKED that finds the ring full is counted as lost. -/
def State.report (s : State) (q save : Nat) (k : RKind) (entry : Nat) : Bool × State :=
  let (prod, s1) := s.readPhysN (save + 8) 2
  let (cons, s2) := s1.readPhysN (save + 10) 2
  if (prod + 65536 - cons) % 65536 < 64 then
    let s3 := (s2.writePhysN (save + 0x1000 + 64 * (prod % 64)) 64 entry).writePhysN (save + 8) 2 ((prod + 1) % 65536)
    let s4 := s3.setRf (rFLT_STAT q) 5 1 1
    (true, if s4.rf (rFLT_STAT q) 6 1 = 1 then s4.raise q 2 else s4)
  else if k = .parked then (false, s2)
  else
    let (lost, s3) := s2.readPhysN (save + 16) 2
    (false, s3.writePhysN (save + 16) 2 (min 65535 (lost + 1)))

/-- Counts writes dropped by owner tag, or refused contributions (R112, R292, R346). -/
def State.countDropped (s : State) (save n : Nat) : State :=
  let (d, s1) := s.readPhysN (save + 12) 4
  s1.writePhysN (save + 12) 4 ((d + n) % 2 ^ 32)

/-- Bits 511:128 of a PARKED, UNHANDLED or DOUBLE report. -/
def laneBody (info : Word) (wave part : Nat) (mask : BitVec 64) (tpc : Pc) (issued : Option Pc) : Nat :=
  info.toNat + wave % 1024 * 2 ^ 64 + part % 8 * 2 ^ 74 + mask.toNat * 2 ^ 128 + tpc.image.toNat * 2 ^ 192
    + (match issued with
       | some p => p.image.toNat * 2 ^ 256
       | none => 0)

/-! Slots of records in their queue's image (R319, R321). -/

/-- Address of a record's slot in the global half. -/
def slotVa (base index : Nat) : Nat := base + 0x10000 + 64 * (index % 65536)

def State.queue (s : State) (q n : Nat) : Queue :=
  (s.queues.find? fun x => x.q = q && x.num = n).getD { q := q, num := n }

def State.setQueue (s : State) (x : Queue) : State :=
  { s with queues := (s.queues.filter fun y => !(y.q = x.q && y.num = x.num)) ++ [x] }

/-- An access of the queue engine in the global half (R318, R321): its leaf comes from a walk under ASID 0. The engine
stands on the die of its partition's lowest quarter. Register pages are no memory (R385). -/
def State.engineAcc (s : State) (q va : Nat) : Option (Acc1 × State) :=
  let w := s.walk q 0 va
  match w.res with
  | .ok l => if l.isReg then none else some ({ q := q, asid := 0, va := va, leaf := l, die := q }, w.st)
  | .error _ => none

/-- A write of the engine to a line waits for an audit's end; what comes after it on the line waits behind it. -/
def State.engWaits (s : State) (q : Nat) (asid : BitVec 16) (va n : Nat) : Bool :=
  s.engWrites.any fun w => w.q = q && w.asid = asid && w.va / 128 ≤ (va + n - 1) / 128 && va / 128 ≤ (w.va + w.n - 1) / 128

def State.engineRead (s : State) (q va n : Nat) : Got Nat × State :=
  if s.engWaits q 0 va n then (.wait, s) else
  match s.engineAcc q va with
  | none => (.fault .notPresent, s)
  | some (a, s1) =>
    match s1.readVirt a n with
    | (.ok b, s2) => (.ok (natOfBytes b), s2)
    | (.fault c, s2) => (.fault c, s2)
    | (.wait, s2) => (.wait, s2)

/-- An access of the queue engine under an ASID (R319, R331, R360). -/
def State.asidAcc (s : State) (q : Nat) (asid : BitVec 16) (va : Nat) : Option (Acc1 × State) :=
  let w := s.walk q (effAsid asid va) va
  match w.res with
  | .ok l => if l.isReg then none else some ({ q := q, asid := effAsid asid va, va := va, leaf := l, die := q }, w.st)
  | .error _ => none

/-- A write of the queue engine. Where the line of a host-memory page is not held, the write itself travels to the
host; to a line that an audit holds it waits at the home lode (R362); at a closed port it is dropped (R380). -/
def State.putEngine (s : State) (a : Acc1) (n v : Nat) : State :=
  if s.portClosed a.die (s.homeOf a.q a.va a.leaf / 64) then s.incRf rPART_BND 16 32
  else if s.engWaits a.q a.asid a.va n || s.auditHeld a.q a.asid a.va a.who then
    { s with engWrites := s.engWrites ++ [{ q := a.q, asid := a.asid, va := a.va, n := n, v := v }] }
  else
  match s.writeVirt a (bytesOfNat n v) [] with
  | (.ok (), s1) => s1
  | (.fault _, _) => s
  | (.wait, _) =>
    (chunksOf a.va n).foldl (fun s (ln, lo, k) =>
      let d := lineOf lo (((bytesOfNat n v).drop (128 * ln + lo - a.va)).take k)
      let f := a.leaf.frameOf (128 * ln)
      if a.leaf.loc then
        let (m, s1) := s.fresh
        { s1 with extWrites := s1.extWrites ++ [{ id := m, pa := 65536 * f + 128 * lineOff (128 * ln), mask := lineMask lo k,
                                                  data := d, peer := (s1.aperture f).isSome, q := a.q }] }
      else s.mergePhys f (lineOff (128 * ln)) (lineMask lo k) d false) s

def State.engineWrite (s : State) (q va n v : Nat) : State :=
  match s.engineAcc q va with
  | none => s
  | some (a, s1) => s1.putEngine a n v

/-- The engine's writes that waited for audits go on, in their order (R362). -/
def State.engGo (s : State) : State :=
  s.engWrites.foldl (fun s w =>
    match s.asidAcc w.q w.asid w.va with
    | none => s
    | some (a, s1) => s1.putEngine a w.n w.v) { s with engWrites := [] }

/-- Writes a record's state into its slot (bits 466:464, byte 58). -/
def State.writeSlotState (s : State) (r : Rec) (st : Nat) : State :=
  s.engineWrite r.q (slotVa (s.queue r.q r.queue).base r.index + 58) 1 st

def State.setRecState (s : State) (r : Rec) (st : Nat) : State :=
  (s.modRec r.id fun x => { x with st := st }).writeSlotState r st

/-! The end of a workgroup (R348, R350, R354, R361). -/

/-- A context's running facts (R112, R354). -/
def State.ctxRun (s : State) (q n : Nat) : CtxRun := (s.ctxRuns.find? fun c => c.q = q && c.num = n).getD { q := q, num := n }
def State.setCtxRun (s : State) (c : CtxRun) : State :=
  { s with ctxRuns := (s.ctxRuns.filter fun x => !(x.q = c.q && x.num = c.num)) ++ [c] }

/-- A chunk has arrived at a destination: delivered, or dropped there. -/
def Copy.arrived (c : Copy) (i part : Nat) : Bool := c.delivered.contains (i, part) || c.lost.contains (i, part)

/-- Chunks that were read and have not arrived everywhere. -/
def Copy.onWay (c : Copy) : List (Nat × List Byte × Option Byte) := c.read.filter fun x => c.parts.any fun p => !c.arrived x.1 p

/-- A copy has a started chunk that a scratch destination has not acknowledged (R350). -/
def Copy.started (c : Copy) : Bool := !c.memDst && c.onWay ≠ []

/-- Cancels a workgroup's copies: no chunk starts any more, and chunks for memory are cancelled. Chunks already started
for scratch spaces may still be acknowledged within 50 us; after it they fail the owner-tag check (R350). -/
def State.cancelCopies (s : State) (wg : Nat) : State :=
  { s with copies := s.copies.filterMap fun c =>
      if c.wg ≠ wg then some c
      else if c.started then some { c with dead := true } else none }

/-- Takes a workgroup's threads out of every clause in progress. -/
def State.stopIssue (s : State) (wg : Nat) : State :=
  { s with running := s.running.map fun c => if c.wg = wg then { c with group := 0 } else c }

/-- Whether matrix queue entries of a workgroup are incomplete. -/
def State.hasMatrix (s : State) (wg : Nat) : Bool := s.mq.any fun e => e.wg = wg

/-- The workgroup stops for good: its threads have exited and its waves have ended. -/
def Workgroup.stop (w : Workgroup) (clk : Nat) (last : Option Nat) : Workgroup :=
  { w with fate := .ending, saveAt := clk, abandoned := false, last := last, npReq := none,
           parts := w.parts.map (fun p => { p with claims := [] }),
           waves := w.waves.map fun v => { v with ended := true, threads := v.threads.map fun t => { t with status := .exited } } }

/-- A record of a reduction without the answers it owes to some results; one kept for them alone goes (R348, R349). -/
def RedRec.without (r : RedRec) (gone : List Nat) : Option RedRec :=
  let w := r.waiters.filter fun x => !gone.contains x.1
  if r.kept && w = [] then none else some { r with waiters := w }

/-- A workgroup stops (R348 steps 1 and 2; R354 step 2): its threads stop, copies are cancelled, loads are discarded. Its
stores, matrix queue entries and started chunks go on; `last` is the report for then. -/
def State.stopWg (s : State) (wg : Nat) (last : Option Nat) : State :=
  let s1 := (s.stopIssue wg).cancelCopies wg
  let isLoad (r : Req) : Bool :=
    match r.what with
    | .load _ _ _ => true
    | _ => false
  let release (i : Inval) : Inval :=
    { i with writers := i.writers.filter fun x => x.1 ≠ wg }
  State.modWg { s1 with
    results := s1.results.filter (fun r => r.wg ≠ wg),
    reqs := s1.reqs.filter (fun r => !(r.wg = wg && isLoad r && !r.parked)),
    mwait := s1.mwait.filter (fun e => e.wg ≠ wg),
    invals := s1.invals.map release } wg fun w => w.stop s.clk last

/-- Its replay records and fault ids are discarded, and the answers that lodes would give its LREDWs (R348 step 4). -/
def State.dropParks (s : State) (wg : Nat) : State :=
  let gone := (s.reds.flatMap fun r => r.waiters.map (·.1)).filter fun n => s.results.all fun x => x.id ≠ n || x.wg = wg
  { s with parks := s.parks.filter (fun p => p.wg ≠ wg), reqs := s.reqs.filter (fun r => !(r.wg = wg && r.parked)),
           reds := s.reds.filterMap fun r => r.without gone }

/-- What a stopped workgroup still waits for is done: stores, matrix queue entries, started chunks (R348, R350). -/
def State.wgDone (s : State) (w : Workgroup) : Bool :=
  w.fate = .ending && !s.hasMatrix w.id && (s.sbuf.all fun e => e.stores.all fun x => x.wg ≠ w.id)
    && (s.reqs.all fun r => r.parked || (r.wg ≠ w.id && r.stores.all fun x => x.wg ≠ w.id))
    && (w.abandoned || s.copies.all fun c => c.wg ≠ w.id || !c.started)

/-! Rollback (R359, R361) and the runs of an audit (R363). -/

/-- The line reverts to its frame's value (R361). -/
def State.revertLine (s : State) (l : LLine) : LLine :=
  { l with data := s.storedLine l.frame l.off, poison := (s.frame l.frame).poison.contains l.off, dirty := false, dmask := 0,
           fmtReq := none, hostDirty := false, staged := none, backLo := none, backHi := none }

/-- A host-held half of a line is recalled, and what the host holds of it discarded (R361). -/
def State.discardHalf (s : State) (line : Nat) (hi : Bool) : State :=
  let here (b : BackInv) : Bool := !b.lost && b.line = line && b.hi = hi
  let s1 : State := { s with backInvs := s.backInvs.map fun b => if here b then { b with discard := true } else b }
  if s1.backInvs.any fun b => here b && !b.toS then s1
  else
    let (n, s2) := s1.fresh
    { s2 with backInvs := s2.backInvs ++ [{ id := n, line := line, hi := hi, toS := false, since := s2.clk, discard := true }] }

/-- A record's staged lines revert to their frames' values; halves the host holds of them are recalled and discarded
(R361). -/
def State.dropStaged (s : State) (rid : Nat) : State :=
  (s.lines.filter fun l => l.staged = some rid && !l.shadow).foldl (fun s l =>
    if l.lo = .i && l.hi = .i then s.dropLine l.id
    else [false, true].foldl (fun s hi => if l.half hi = .i then s else s.discardHalf l.id hi)
      (s.modLine l.id fun x => s.revertLine x)) s

/-- The save area's record of its used slots (R346). -/
def State.busySlots (s : State) (save : Nat) : Nat := (s.readPhysN (save + 24) 8).1
def State.setBusy (s : State) (save slot : Nat) (on : Bool) : State :=
  let b := s.busySlots save
  s.writePhysN (save + 24) 8 (if on then b ||| 2 ^ slot else b &&& (2 ^ 64 - 1 - 2 ^ slot))

/-- The image of a saved workgroup is discarded, with all that is kept for it, and its slot is free (R353, R354, R361). -/
def State.dropImage (s : State) (i : Image) : State :=
  let gone := (s.results.filter fun r => r.wg = i.wg.id).map (·.id)
  State.setBusy { s with images := s.images.filter (fun x => x.id ≠ i.id), results := s.results.filter (fun r => r.wg ≠ i.wg.id),
                         reqs := s.reqs.filter (fun r => r.wg ≠ i.wg.id), parks := s.parks.filter (fun p => p.wg ≠ i.wg.id),
                         reds := s.reds.filterMap fun r => r.without gone } i.wg.ctx.save i.slot false

/-- Every workgroup of a record stops, without a report; a saved one's image is discarded (R361). -/
def State.stopWgs (s : State) (rid : Nat) : State :=
  let s1 := (s.wgs.filter fun w => w.recId = rid && w.fate ≠ .ending).foldl (fun s w => s.stopWg w.id none) s
  (s1.images.filter fun i => i.wg.recId = rid).foldl State.dropImage s1

/-- A record as a rollback leaves it: nothing of it placed, its effective priority its own again (R361). -/
def Rec.again (r : Rec) (clk front : Nat) : Rec :=
  { r with placed := 0, exited := 0, terminated := false, retries := r.retries + 1, since := clk,
           eprio := min (BitVec.toNat (r.image.extractLsb' 57 3)) r.ctx.prioMax, cores := [], exposed := false, sigs := [],
           gangCores := [], halt := 0, front := front, audit := if r.audit = .none then .none else .selected }

/-- An open reduction whose target is a staged line of a record closes without writing. What an LREDW of another record that
waits for it is answered the manual does not say: as KILL answers one, the target's value as it stands (DESIGN CHOICE,
log 86). -/
def State.closeStaged (s : State) (rid : Nat) (x : RedRec) : Option RedRec :=
  match s.lines.find? fun l => l.staged = some rid && !l.shadow && l.lode = x.lode && l.line = x.va / 128 && l.asid = some x.asid with
  | none => some x
  | some l =>
    if x.kept then some x
    else if x.waiters = [] then none
    else some { x with kept := true, nxt := x.n, held := [], acc := BitVec.ofNat 64 (fld l.data.toNat (8 * (x.va % 128)) (redWidth x.op)) }

/-- STEPS 2 TO 6 OF A ROLLBACK (R361): open reductions into staged lines close without writing, the staged lines revert,
and the record leads its queue's ready records again. -/
def State.rollbackEnd (s : State) (r : Rec) : State :=
  let s1 := State.dropStaged { s with reds := s.reds.filterMap (s.closeStaged r.id) } r.id
  let (n, s2) := s1.fresh
  ((s2.modRec r.id fun x => x.again s2.clk n).setRecState r 1).incRf (rREL_STAT r.q) 0 16

/-- The shadow lines of a replay are discarded (R364). -/
def State.dropShadow (s : State) (rid : Nat) : State :=
  { s with lines := s.lines.filter fun l => !(l.shadow && l.staged = some rid) }

/-- A replay that consumed a UE, as it is to be placed again: on cores other than those it has used, which `gangCores`
names (R363). -/
def Rec.replayAgain (r : Rec) : Rec :=
  { r with placed := 0, exited := 0, terminated := false, ues := 1, cores := [], halt := 0,
           gangCores := r.gangCores ++ r.cores.flatMap (·.2) }

/-- What a record's workgroups stopped for takes place once all of them have ended. -/
def State.haltEnd (s : State) (rid : Nat) : State :=
  match s.recs.find? fun r => r.id = rid with
  | none => s
  | some r =>
    if r.halt = 0 || s.wgs.any fun w => w.recId = rid then s
    else if r.halt = 1 then s.rollbackEnd r
    else
      let s1 := s.dropShadow rid
      if r.halt = 2 then s1.modRec rid Rec.replayAgain else { s1 with recs := s1.recs.filter fun x => x.id ≠ rid }

/-- A stopped workgroup that waits for nothing more ends (R348 steps 4 to 6): what waits for it is discarded, generations
advance and its resources return, its record counts it, chunks not acknowledged are abandoned, and its report is written. -/
def State.reapWg (s : State) (wg : Nat) : State :=
  match s.wg? wg with
  | none => s
  | some w =>
    if !s.wgDone w then s
    else
      let s0 := s.dropParks wg
      let s1 : State := { s0 with wgs := s0.wgs.filter (fun x => x.id ≠ wg), copies := s0.copies.filter fun c => c.wg ≠ wg || c.started }
      let s2 := s1.modRec w.recId fun r => { r with terminated := true, exited := r.exited + 1 }
      let s3 := match w.last with
        | some e => (s2.report w.ctx.q w.ctx.save .double e).2
        | none => s2
      s3.haltEnd w.recId

/-- Every stopped workgroup that waits for nothing more ends. -/
def State.reap (s : State) : State :=
  (s.wgs.filter fun w => w.fate = .ending).foldl (fun s w => s.reapWg w.id) s

/-- Terminates a workgroup with a report (R348). -/
def State.terminate (s : State) (wg : Nat) (k : RKind) (cause body : Nat) : State :=
  match s.wg? wg with
  | none => s
  | some w =>
    if w.fate = .ending then s
    else (s.stopWg wg (some (reportEntry k cause 0 w.wg w.ref.toNat body))).reapWg wg

/-- A record's workgroups stop, for `why` (`Rec.halt`); the rest follows when they have ended. -/
def State.halt (s : State) (r : Rec) (why : Nat) : State :=
  let s1 := (s.modRec r.id fun x => { x with halt := why }).stopWgs r.id
  (s1.reap).haltEnd r.id

/-- Rolls a record back (R361). -/
def State.rollback (s : State) (r : Rec) : State := s.halt r 1

/-- A replay that consumes a UE is placed again once, on other cores; a second UE voids the audit (R363). -/
def State.replayUe (s : State) (r : Rec) : State := if r.ues = 0 then s.halt r 2 else s.voidAudit r

/-- A record that consumes a UE runs again (R359, R363). -/
def State.reruns (s : State) (r : Rec) : Bool :=
  r.isReplay || (bitAt r.image 61 && !r.exposed && r.staging && r.retries < s.rf (rREL_CTL r.q) 0 3)

/-- A workgroup has consumed a UE (R359): its record is rolled back where it may be, else the workgroup ends by `stop`; a
replay's is the Assayer's to deal with. A record that stops already is past it. -/
def State.disposeUe (s : State) (wg : Nat) (stop : State → State) : State :=
  match s.wg? wg with
  | none => s
  | some w =>
    match s.recs.find? fun r => r.id = w.recId with
    | none => stop s
    | some r =>
      if r.halt ≠ 0 then s
      else if r.isReplay then s.replayUe r
      else if s.reruns r then s.rollback r
      else stop s

/-- A workgroup consumes a UE (R359): rollback, or termination of that workgroup with report kind UE. -/
def State.consumeUe (s : State) (wg : Nat) (va storage : Nat) : State :=
  s.disposeUe wg fun s => s.terminate wg .ue 15 (va + storage * 2 ^ 64)

/-! Taking a trap (R337 to R343). -/

/-- The lowest fault id no unresolved park of the context has (R339). -/
def State.faultId (s : State) (q ctx : Nat) : Option Nat :=
  let used := s.parks.filterMap fun p => if p.q = q && p.ctx = ctx then p.fault else none
  (List.range 4096).find? fun n => !used.contains n

/-- Reports a park where it can: it needs a fault id and room in the ring (R339, R347). -/
def State.reportPark (s : State) (id : Nat) : State :=
  match s.parks.find? fun p => p.id = id with
  | none => s
  | some p =>
    if p.reported then s
    else
      match s.wg? p.wg, p.fault with
      | some w, some f =>
        let part := w.partOf p.wave
        let lane := (lanesOf p.lanes).headD 0
        let tpc := ((s.wave? p.wg p.wave).map fun v => (v.thread lane).tpc).getD ⟨0, 0, false⟩
        let (ok, s1) := s.report p.q w.ctx.save .parked
          (reportEntry .parked p.cause.code f w.wg w.ref.toNat (laneBody p.tinfo p.wave part p.lanes tpc p.issued))
        if ok then { s1 with parks := s1.parks.map fun x => if x.id = id then { x with reported := true } else x } else s1
      | _, _ => s

/-- Parks lanes for one cause and one 64 KiB page, under one report (R338, R339); an exited thread stays exited.
`group`: the issue group of an instruction fetch. -/
def State.parkGroup (s : State) (wg k : Nat) (lanes : List (Nat × Word)) (c : Cause) (tpc : Nat → Pc) (issued : Option Pc)
    (group : Bool) : State :=
  match s.wg? wg with
  | none => s
  | some w =>
    let f := s.faultId w.ctx.q w.ctx.num
    let s1 := lanes.foldl (fun s (l, info) => s.modThread wg k l fun t =>
      if t.status = .exited then t else { t.park (tpc l) c info f with laneCause := !group }) s
    let (n, s2) := s1.fresh
    let info := (lanes.head?.map (·.2)).getD 0
    let p : Park := ⟨n, w.ctx.num, w.ctx.q, wg, k, maskOf (lanes.map (·.1)), c, info, f, false, issued, group⟩
    let s3 : State := { s2 with parks := s2.parks ++ [p] }
    s3.reportPark n

/-- Takes lanes of a wave out of the clauses in progress. -/
def State.leaveWave (s : State) (wg k : Nat) (g : BitVec 64) : State :=
  { s with running := s.running.map fun c => if c.wg = wg && c.wave = k then { c with group := c.group &&& ~~~g } else c }

/-- Lanes grouped by cause and 64 KiB page, in order of first appearance (R339). -/
def groupPark (l : List (Nat × Cause × Word)) : List (Cause × Nat) :=
  dedup (l.map fun (_, c, i) => (c, fld i.toNat 16 41))

/-- The storage of a UE (R347) travels in bits 61:58 of its information, which THR_TINFO does not show. -/
def ueStore (info : Word) (storage : Nat) : Word := wset info 58 4 storage
def ueInfo (info : Word) : Word := wset info 58 4 0

/-- TAKING A TRAP, one operation for every cause (R337 to R343). `l` names the lanes with their cause and information,
in lane order; `tpc` is the trap pc of each, `issued` the issuing word of a lode-side cause, `lane` whether the cause is a
lane's own. A service-class cause parks its lanes; UE is the record's to dispose of; any other enters the handler, or ends
the workgroup where the thread is already in it (DOUBLE) or there is no handler (UNHANDLED). A report names the lanes of
the lowest lane's cause. -/
def State.takeTrap (s : State) (wg k : Nat) (l : List (Nat × Cause × Word)) (tpc : Nat → Pc) (issued : Option Pc)
    (lane : Bool) : State :=
  match s.wg? wg with
  | none => s
  | some w =>
    let s0 := s.leaveWave wg k (maskOf (l.map (·.1)))
    let svc := l.filter fun x => x.2.1.service && x.2.1 ≠ .ue
    let ues := l.filter fun x => x.2.1 = .ue
    let hnd := l.filter fun x => !x.2.1.service
    let s1 := (groupPark svc).foldl (fun s (c, pg) =>
      s.parkGroup wg k ((svc.filter fun x => x.2.1 = c && fld x.2.2.toNat 16 41 = pg).map fun x => (x.1, x.2.2)) c tpc issued (!lane)) s0
    let s2 := ues.foldl (fun s x => s.modThread wg k x.1 fun t => t.park (tpc x.1) .ue (ueInfo x.2.2) none) s1
    let active (x : Nat × Cause × Word) : Bool := match s2.wave? wg k with
      | some v => (v.thread x.1).active
      | none => false
    let inside := hnd.filter active
    let ended : List (Nat × Cause × Word) := if inside = [] then hnd else inside
    let s3 : State := match ended.head? with
      | none => s2
      | some y =>
        let listed := (ended.filter fun x => x.2.1 = y.2.1).map (·.1)
        let body := laneBody y.2.2 k (w.partOf k) (maskOf listed) (tpc y.1) issued
        if inside ≠ [] then s2.terminate wg .double y.2.1.code body
        else if w.ctx.trapVec = 0 then s2.terminate wg .unhandled y.2.1.code body
        else hnd.foldl (fun s x => s.modThread wg k x.1 fun t => t.enter w.ctx.trapVec x.2.1 lane false (tpc x.1) x.2.2) s2
    let s4 := match ues.head? with
      | some x => s3.consumeUe wg (fld x.2.2.toNat 0 57) (fld x.2.2.toNat 58 4)
      | none => s3
    s4.settle wg k

/-- A trap of every thread of the clause in progress at its word (R182, R337): cause and the failing word. -/
def State.groupTrap (s : State) (c : Cause) : State :=
  match s.head with
  | none => s
  | some i => s.takeTrap i.wg i.wave ((lanesOf i.group).map fun l => (l, c, i.word)) (fun _ => i.wordPc) none false

/-- A trap of some threads of the clause at its word, by a state check (R195, R337). -/
def State.stateTrap (s : State) (c : Cause) (lanes : List Nat) : State :=
  match s.head with
  | none => s
  | some i => s.takeTrap i.wg i.wave (lanes.map fun l => (l, c, i.word)) (fun _ => i.wordPc) none false

/-- Per-lane causes of the word in progress (R337, R338): the lanes concerned trap or park, the others complete it. -/
def State.laneTraps (s : State) (l : List (Nat × Cause × Word)) : State :=
  if l = [] then s
  else match s.head with
    | none => s
    | some i => s.takeTrap i.wg i.wave l (fun _ => i.wordPc) none true

/-- THR_TINFO of an access (R344): the address, bit 63 for a write. -/
def accInfo (va : Nat) (write : Bool) : Word := BitVec.ofNat 64 (va % 2 ^ 57 + (if write then 2 ^ 63 else 0))

end Sys2Proof.Machine
end

