-- ==== Sys2Proof/Machine/Operands.lean ====
section
/-! DEFINITION. What a word in progress sees and names: its environment, its operands (R177 to R180), the registers it
uses, and the checks every word passes before its effect (R182, R186 to R189, R337). -/
namespace Sys2Proof.Machine

/-- The environment of a word in progress: its clause, workgroup and wave, and the active lanes (R195). -/
structure Env where
  iss : Issue
  wg  : Workgroup
  w   : Wave
  act : List Nat
  clk : Nat
  deriving DecidableEq, Repr

def Env.core (e : Env) : Nat := e.iss.core
def Env.ctx (e : Env) : Ctx := e.wg.ctx
def Env.lead (e : Env) : Nat := e.wg.ctx.q
/-- The part of the wave, and its record in the workgroup. -/
def Env.part (e : Env) : Nat := e.wg.partOf e.iss.wave

/-- Guard of a word in a lane: p(g) xor negate (R176). -/
def guardOf (w : Wave) (h : Hdr) (l : Nat) : Bool := w.p h.pred.toNat l != h.neg

/-- The environment of the clause in progress. -/
def State.env? (s : State) (h : Hdr) : Option Env :=
  match s.head with
  | none => none
  | some c =>
    match s.wg? c.wg with
    | none => none
    | some g =>
      match g.waves[c.wave]? with
      | none => none
      | some w => some ⟨c, g, w, (lanesOf c.group).filter fun l => l < w.threads.length && guardOf w h l, s.clk⟩

/-! Constants and sources. -/

/-- Operand width of a type (R180). -/
def tyBits (t : Ty) : Nat := if t.is64 then 64 else 32

/-- Element width of a packed type; the operand width otherwise. -/
def tyElem : Ty → Nat
  | .f16x2 | .bf16x2 | .i16x2 | .n16x2 | .sli16x2 => 16
  | .i8x4 | .n8x4 => 8
  | .i64 | .n64 | .b64 | .f64 => 64
  | _ => 32

/-- `n` copies of an element of `w` bits. -/
def repeatBits (w x : Nat) : Nat → Nat
  | 0 => 0
  | n + 1 => x + (repeatBits w x n) <<< w

/-- The encoding of an exact value in a type's element format (R178). -/
def encodeConst (t : Ty) (v : Val) : Nat :=
  match t with
  | .f32 => f32F.encode .rne false v
  | .f64 => f64F.encode .rne false v
  | .f16x2 => f16F.encode .rne false v
  | .bf16x2 => bf16F.encode .rne false v
  | .sli32 => (sli32F.encode .rne v).1
  | .sli16x2 => (sli16F.encode .rne v).1
  | t => intCode (tyElem t) (v.toInt .rne)

/-- The value of the constant codes 0xE0 to 0xFB (R178). -/
def constVal (c : Nat) : Val :=
  if c < 0xF0 then ofInt (c - 0xE0)
  else if c < 0xF8 then ofInt (0xEF - (c : Int))
  else if c = 0xF8 then .num false 1 2
  else if c = 0xF9 then .num true 1 2
  else if c = 0xFA then .num false 1 4
  else .num true 1 4

/-- A scalar slot read as an operand of a type (R177, R178): constants take the type's encoding, in every element of a
packed type; registers and special registers give their low bits. -/
def Env.scalar (e : Env) (t : Ty) (x : Byte) (lane : Nat) : Nat :=
  let c := x.toNat
  let cut (n : Nat) : Nat := n % 2 ^ (tyBits t)
  if c < 0xC0 then cut (e.w.s c).toNat
  else if c = 0xC0 then lane
  else if c = 0xC1 then e.iss.wave
  else if c = 0xC2 then cut e.wg.wg
  else if c = 0xC3 then e.core
  else if c = 0xC4 then e.core / 64
  else if c = 0xC5 then cut e.clk
  else repeatBits (tyElem t) (encodeConst t (constVal c)) (tyBits t / tyElem t)

/-- A vector slot of a type in a lane; a 64-bit operand is a pair, low half first (R177). -/
def Env.vec (e : Env) (t : Ty) (x : Byte) (lane : Nat) : Nat :=
  let lo := (e.w.v x.toNat lane).toNat
  if t.is64 then lo + (e.w.v (x.toNat + 1) lane).toNat <<< 32 else lo

/-- A uniform operand of groups 0, 4, 5 and 6: the 64-bit value of a scalar slot. -/
def Env.uniform (e : Env) (x : Byte) : Word := BitVec.ofNat 64 (e.scalar .b64 x 0)

/-- A source of an arithmetic word (R179). -/
def Env.src (e : Env) (f : AF) (s : Bool) (t : Ty) (x : Byte) (lane : Nat) : Nat :=
  if f.u || s then e.scalar t x lane else e.vec t x lane

/-! Destinations. -/

/-- Writes of a vector destination in one lane. -/
def vecWrites (is64 : Bool) (d : Nat) (lane v : Nat) : List RegWrite :=
  ⟨.v d, lane, BitVec.ofNat 64 (v % 2 ^ 32)⟩ ::
    (if is64 then [⟨.v (d + 1), lane, BitVec.ofNat 64 (v / 2 ^ 32 % 2 ^ 32)⟩] else [])

/-- A scalar result: a 32-bit one is sign-extended for i-types, zero-extended otherwise (R177). -/
def scalarWrite (t : Ty) (d v : Nat) : RegWrite :=
  let sx : Bool := t = .i32 || t = .i16x2 || t = .i8x4
  ⟨.s d, 0, if t.is64 then BitVec.ofNat 64 v
    else if sx then BitVec.ofInt 64 (signed 32 v) else BitVec.ofNat 64 (v % 2 ^ 32)⟩

def predWrite (d lane : Nat) (b : Bool) : RegWrite := ⟨.p d, lane, if b then 1 else 0⟩

/-! The registers a word uses. -/

structure Uses where
  rd : List Reg := []
  wr : List Reg := []

def Uses.append (a b : Uses) : Uses := ⟨a.rd ++ b.rd, a.wr ++ b.wr⟩

def vregs (is64 : Bool) (x : Byte) : List Reg := if is64 then [.v x.toNat, .v (x.toNat + 1)] else [.v x.toNat]

/-- A scalar slot: a register, or a code that names none. -/
def sregs (x : Byte) : List Reg := if x.toNat < 0xC0 then [.s x.toNat] else []

/-- A run of scalar registers. -/
def srunRegs (x : Byte) (n : Nat) : List Reg := (List.range n).map fun i => .s (x.toNat + i)

def srcRegs (u s : Bool) (x : Byte) : SrcUse → List Reg
  | .unused | .code _ => []
  | .reg w64 _ => if u || s then sregs x else vregs w64 x
  | .vec w64 => vregs w64 x
  | .pred => [.p x.toNat]

def dstRegs (u : Bool) (x : Byte) : DstUse → List Reg
  | .reg w64 => if u then sregs x else vregs w64 x
  | .pred => [.p x.toNat]

/-- The registers of a general-form arithmetic word. -/
def afUses (f : AF) (d : DstUse) (a b c : SrcUse) : Uses :=
  ⟨srcRegs f.u f.sa f.a a ++ srcRegs f.u f.sb f.b b ++ srcRegs f.u f.sc f.c c, dstRegs f.u f.d d⟩

/-! The checks of a word. -/

/-- A vector register the wave does not hold (R166). -/
def beyond (n : Nat) (r : Reg) : Bool :=
  match r with
  | .v k => n ≤ k
  | _ => false

/-- A fixed-latency write of a register has not landed (R186). -/
def Wave.pending (w : Wave) (r : Reg) : Bool := w.pend.any fun p => p.w.reg = r

/-- A register is scoreboarded (R187). -/
def Wave.marked (w : Wave) (r : Reg) : Bool := w.marks.any fun m => m.1 = r

/-- The operations whose results some registers wait for. -/
def Wave.markOps (w : Wave) (l : List Reg) : List Nat := (w.marks.filter fun m => l.contains m.1).map (·.2)

/-- A word that reads or writes a register too early counts once (R189). -/
def State.countShort (s : State) (e : Env) : State :=
  if s.head.any fun c => c.counted then s
  else (s.incRf (rCORE_CHK e.core) 16 16).modHead fun c => { c with counted := true }

/-- A WORD ON WHICH A FIXED-LATENCY WRITE IS PENDING (R185, R189): while it waits for something else it has not issued; once it
would issue, as in `t`, it traps STALL_SHORT, or has its effect and counts. -/
def State.shortIssue (s t : State) (e : Env) : State :=
  if t.head.any fun c => c.blocked && !c.issued then t
  else if e.iss.chk then (s.setRf (rCORE_CHK e.core) 1 1 1).groupTrap .stallShort
  else t.countShort e

/-- ISSUE OF ONE WORD (R182, R187, R189, R337): role, register range, scoreboard, STALL_SHORT, then the word's own
checks and effect in `body`. A word whose registers are pending waits. A step that finds host halves to recall waits. -/
def State.issueWord (s : State) (e : Env) (h : Hdr) (role : Option Role) (u : Uses) (body : State → State) : State :=
  let regs := (if h.pred = 7 then [] else [Reg.p h.pred.toNat]) ++ u.rd ++ u.wr
  if role.isSome && role ≠ some e.w.role then s.groupTrap .role
  else if regs.any (beyond e.w.n) then s.groupTrap .regrange
  else if regs.any e.w.marked then s.holdOn (e.w.markOps regs)
  else if regs.any e.w.pending && !e.iss.issued then s.shortIssue (s.transact body State.hold) e
  else s.transact body State.hold

/-- THE MEANING OF AN INSTRUCTION WORD: nothing without a clause in progress; otherwise its issue. -/
def word (h : Hdr) (role : Option Role) (u : Uses) (body : Env → State → State) (s : State) :
    Host.Outcome State Fault Refusal :=
  match s.env? h with
  | none => .fault .noIssue
  | some e => .next (s.issueWord e h role u (body e))

/-- Fixed-latency results of the word's wave (R186). -/
def State.later (s : State) (e : Env) (lat : Nat) (l : List RegWrite) : State :=
  if l = [] then s else s.modWave e.iss.wg e.iss.wave fun w => w.pendAt (s.clk + lat) l

/-- Register state changed at once. -/
def State.now (s : State) (e : Env) (f : Wave → Wave) : State := s.modWave e.iss.wg e.iss.wave f

/-! Variable-latency results (R187, R188). -/

def Counters.bump (c : Counters) (k : Cnt) (d : Int) : Counters :=
  let g (n : Nat) : Nat := ((n : Int) + d).toNat
  match k with
  | .ld => { c with ld := g c.ld }
  | .st => { c with st := g c.st }
  | .copy => { c with copy := g c.copy }
  | .mma => { c with mma := g c.mma }
  | .lode => { c with lode := g c.lode }
  | .sli => { c with sli := g c.sli }
  | .sys => { c with sys := g c.sys }
  | .ctr => { c with ctr := g c.ctr }

def State.bump (s : State) (wg k : Nat) (c : Cnt) (d : Int) : State :=
  s.modWave wg k fun w => { w with cnt := w.cnt.bump c d }

/-- Starts a scoreboarded operation of the word: its destination registers become pending, but for p7, which never changes;
its counter rises. Answers its number. -/
def State.startOp (s : State) (e : Env) (r : Result) : Nat × State :=
  let (n, s1) := s.fresh
  let r1 := { r with id := n, wg := e.iss.wg, wave := e.iss.wave }
  let s2 : State := { s1 with results := s1.results ++ [r1] }
  let s3 := s2.modWave e.iss.wg e.iss.wave fun w =>
    { w with marks := w.marks ++ (r1.regs.filter fun x => x ≠ .p 7).map fun x => (x, n),
             holds := if r1.acq.isSome || r1.fence.isSome || r1.maint then w.holds ++ [n] else w.holds,
             cnt := match r.cnt with
               | some c => w.cnt.bump c 1
               | none => w.cnt }
  (n, s3)

def State.modResult (s : State) (id : Nat) (f : Result → Result) : State :=
  { s with results := s.results.map fun r => if r.id = id then f r else r }

/-- An operation's result is known; it may land from `at_` on. -/
def State.finishOp (s : State) (id at_ : Nat) (ws : List RegWrite) : State :=
  s.modResult id fun r => { r with writes := r.writes ++ ws, ready := true, readyAt := max r.readyAt at_ }

/-- A whole operation whose result is known at issue, landing `lat` clk later. -/
def State.quickOp (s : State) (e : Env) (c : Option Cnt) (lat : Nat) (regs : List Reg) (ws : List RegWrite) : State :=
  (s.startOp e { id := 0, wg := 0, wave := 0, cnt := c, regs := regs, writes := ws, ready := true, readyAt := s.clk + lat }).2

/-- Counts operations of a wave that have not completed beyond the given one. -/
def State.lands (s : State) (id : Nat) : State :=
  match s.results.find? fun r => r.id = id with
  | none => s
  | some r =>
    let s1 : State := { s with results := s.results.filter fun x => x.id ≠ id }
    s1.modWave r.wg r.wave fun w =>
      let w1 := w.writeAll r.writes
      { w1 with marks := w1.marks.filter (fun m => m.2 ≠ id), holds := w1.holds.filter (fun h => h ≠ id),
                cnt := (match r.cnt with
                  | some c => w1.cnt.bump c (-1)
                  | none => w1.cnt),
                threads := w1.threads.mapIdx fun l t =>
                  r.flags.foldl (fun t fl => if fl.1 = l then { t with sli := t.sli ||| fl.2 } else t) t }

end Sys2Proof.Machine
end

