-- ==== Sys2Proof/Machine/Flags.lean ====
section
/-! DEFINITION. The flag computations: the conditions of ICMP, FCMP and SLCMP (R226, R236, R289), the guard predicates
they write, and the sticky SLI flags of a thread (R154, R289). -/
namespace Sys2Proof.Machine

/-- A condition code: `lt` and `eq` of the ordered operands, or unordered (R226, R236). -/
def condHolds (code : Nat) (unordered lt eq : Bool) : Bool :=
  match code with
  | 0 => !unordered && eq
  | 1 => unordered || !eq
  | 2 => !unordered && lt
  | 3 => !unordered && (lt || eq)
  | 4 => !unordered && !lt && !eq
  | 5 => !unordered && !lt
  | 6 => !unordered
  | _ => unordered

/-- Condition of two exact values. -/
def condVal (code : Nat) (x y : Val) : Bool := condHolds code (x.isNan || y.isNan) (x.lt y) (x.eqv y)

/-- An SLI code as a number of the order of values (R146, R289); none for NaN. -/
def SFmt.rank (m : SFmt) (x : Nat) : Option Int :=
  let mag := fld x 0 m.mbits
  if mag = m.nanMag then none
  else some (if fld x m.mbits 1 = 1 then -(mag : Int) else mag)

/-- Condition of two SLI codes. -/
def condSli (m : SFmt) (code x y : Nat) : Bool :=
  match m.rank x, m.rank y with
  | some a, some b => condHolds code false (a < b) (a = b)
  | _, _ => condHolds code true false false

/-- Predicate results of a comparison: per lane, or once for every active thread; none for p7, which nothing changes
(R226). -/
def Env.predResult (e : Env) (f : AF) (g : Nat → Bool) : List RegWrite :=
  if f.d = 7 then [] else e.act.map fun l => predWrite f.d.toNat l (if f.u then g 0 else g l)

/-- Sets sticky SLI flags in threads of a wave (R154). -/
def Wave.slSet (w : Wave) (fl : List (Nat × BitVec 5)) : Wave :=
  fl.foldl (fun w x => w.modThread x.1 fun t => { t with sli := t.sli ||| x.2 }) w

/-- The action of SLFLG on the flags (R289): none, .clr, .set. -/
def slAction (act : Nat) (m flags : BitVec 5) : BitVec 5 :=
  match act with
  | 1 => flags &&& ~~~m
  | 2 => flags ||| m
  | _ => flags

end Sys2Proof.Machine
end

