-- ==== Sys2Proof/Machine/Integer.lean ====
section
/-! DEFINITION. Integer, logic, move and cross-lane instructions: group 1 (R220 to R232), with the latencies of R186. -/
namespace Sys2Proof.Machine

/-- A word of groups 1 to 3 with a fixed latency: its writes land `lat` clk after issue. -/
def aluWord (h : Hdr) (f : AF) (lat : Nat) (d : DstUse) (a b c : SrcUse) (ws : Env → List RegWrite) (s : State) :
    Host.Outcome State Fault Refusal :=
  word h none (afUses f d a b c) (fun e s => s.later e lat (ws e)) s

/-- Register results of an arithmetic word: per lane, or once into a scalar (R220); `dty` gives the width and the
extension of the destination. -/
def Env.result (e : Env) (f : AF) (dty : Ty) (g : Nat → Nat) : List RegWrite :=
  if f.u then (if e.act = [] then [] else [scalarWrite dty f.d.toNat (g 0)])
  else e.act.flatMap fun l => vecWrites dty.is64 f.d.toNat l (g l)

/-- Operation on the elements of an operand of a type: `g i` for element i (R220). -/
def packed (t : Ty) (g : Nat → Nat) : Nat :=
  let w := tyElem t
  (List.range (tyBits t / w)).foldl (fun r i => r + (g i % 2 ^ w) <<< (w * i)) 0

/-- Element i of an operand. -/
def elemOf (t : Ty) (x i : Nat) : Nat := fld x (tyElem t * i) (tyElem t)

def Ty.signed (t : Ty) : Bool :=
  match t with
  | .i32 | .i64 | .i16x2 | .i8x4 => true
  | _ => false

/-- val(x, T) of R224. -/
def intVal (t : Ty) (x : Nat) : Int :=
  if Ty.signed t then signed (tyElem t) x else ((x % 2 ^ tyElem t : Nat) : Int)

/-- The result r mod 2^W, clamped first under .sat (R224). -/
def intRes (t : Ty) (sat : Bool) (r : Int) : Nat :=
  let w := tyElem t
  intCode w (if sat then max (intLo (Ty.signed t) w) (min (intHi (Ty.signed t) w) r) else r)

/-- Two-source integer instruction of R224. -/
def intWord2 (h : Hdr) (f : AF) (lat : Nat) (sat : Bool) (op : Int → Int → Int) (s : State) :
    Host.Outcome State Fault Refusal :=
  aluWord h f lat (.reg f.w) f.src f.src .unused (fun e =>
    e.result f f.ty fun l =>
      let x := e.src f f.sa f.ty f.a l
      let y := e.src f f.sb f.ty f.b l
      packed f.ty fun i => intRes f.ty sat (op (intVal f.ty (elemOf f.ty x i)) (intVal f.ty (elemOf f.ty y i)))) s

/-- One-source integer instruction of R224. -/
def intWord1 (h : Hdr) (f : AF) (lat : Nat) (sat : Bool) (op : Int → Int) (s : State) :
    Host.Outcome State Fault Refusal :=
  aluWord h f lat (.reg f.w) f.src .unused .unused (fun e =>
    e.result f f.ty fun l =>
      let x := e.src f f.sa f.ty f.a l
      packed f.ty fun i => intRes f.ty sat (op (intVal f.ty (elemOf f.ty x i)))) s

def execIadd (h : Hdr) (f : AF) (s : State) : Host.Outcome State Fault Refusal :=
  intWord2 h f 4 (bitAt f.m 0) (fun x y => x + y) s

def execIsub (h : Hdr) (f : AF) (s : State) : Host.Outcome State Fault Refusal :=
  intWord2 h f 4 (bitAt f.m 0) (fun x y => x - y) s

/-- Sum and carry out of IADDC (R224). -/
def addCarry (sub : Bool) (a b c : Nat) : Nat × Nat :=
  let ci : Int := ((c % 2 : Nat) : Int)
  let s : Int := if sub then (a : Int) - b - ci else a + b + ci
  (intCode 32 s, if sub then (if s < 0 then 1 else 0) else (if 2 ^ 32 ≤ s then 1 else 0))

def execIaddc (h : Hdr) (f : AF) (s : State) : Host.Outcome State Fault Refusal :=
  aluWord h f 4 (.reg true) f.src f.src f.src (fun e =>
    e.result f .n64 fun l =>
      let r := addCarry (bitAt f.m 0) (e.src f f.sa .n32 f.a l) (e.src f f.sb .n32 f.b l) (e.src f f.sc .n32 f.c l)
      r.1 + r.2 <<< 32) s

def execImul (h : Hdr) (f : AF) (s : State) : Host.Outcome State Fault Refusal :=
  intWord2 h f 6 false (fun x y => x * y) s

def execImulh (h : Hdr) (f : AF) (s : State) : Host.Outcome State Fault Refusal :=
  intWord2 h f 6 false (fun x y => x * y / 2 ^ tyElem f.ty) s

/-- The 64-bit type of IMAD.wide (R224). -/
def wideTy (t : Ty) : Ty := if t = .i32 then .i64 else .n64

def execImad (h : Hdr) (f : AF) (s : State) : Host.Outcome State Fault Refusal :=
  let cty := if bitAt f.m 0 then wideTy f.ty else f.ty
  aluWord h f 6 (.reg cty.is64) f.src f.src (.reg cty.is64 false) (fun e =>
    e.result f cty fun l =>
      intCode (tyBits cty) (intVal f.ty (e.src f f.sa f.ty f.a l) * intVal f.ty (e.src f f.sb f.ty f.b l)
        + intVal cty (e.src f f.sc cty f.c l))) s

def execImin (h : Hdr) (f : AF) (s : State) : Host.Outcome State Fault Refusal :=
  intWord2 h f 4 false (fun x y => min x y) s

def execImax (h : Hdr) (f : AF) (s : State) : Host.Outcome State Fault Refusal :=
  intWord2 h f 4 false (fun x y => max x y) s

def execIabs (h : Hdr) (f : AF) (s : State) : Host.Outcome State Fault Refusal :=
  intWord1 h f 4 (bitAt f.m 0) (fun x => (x.natAbs : Int)) s

def execIneg (h : Hdr) (f : AF) (s : State) : Host.Outcome State Fault Refusal :=
  intWord1 h f 4 (bitAt f.m 0) (fun x => -x) s

/-! Logic (R224). -/

/-- Two-source bit instruction. -/
def bitWord2 (h : Hdr) (f : AF) (op : Nat → Nat → Nat) (s : State) : Host.Outcome State Fault Refusal :=
  aluWord h f 4 (.reg f.w) f.src f.src .unused (fun e =>
    e.result f f.ty fun l => op (e.src f f.sa f.ty f.a l) (e.src f f.sb f.ty f.b l)) s

/-- One-source bit instruction with a result of type `dty`. -/
def bitWord1 (h : Hdr) (f : AF) (lat : Nat) (dty : Ty) (op : Nat → Nat) (s : State) :
    Host.Outcome State Fault Refusal :=
  aluWord h f lat (.reg dty.is64) f.src .unused .unused (fun e =>
    e.result f dty fun l => op (e.src f f.sa f.ty f.a l)) s

def execAnd (h : Hdr) (f : AF) (s : State) : Host.Outcome State Fault Refusal := bitWord2 h f (fun a b => a &&& b) s
def execOr (h : Hdr) (f : AF) (s : State) : Host.Outcome State Fault Refusal := bitWord2 h f (fun a b => a ||| b) s
def execXor (h : Hdr) (f : AF) (s : State) : Host.Outcome State Fault Refusal := bitWord2 h f (fun a b => a ^^^ b) s
def execNot (h : Hdr) (f : AF) (s : State) : Host.Outcome State Fault Refusal :=
  bitWord1 h f 4 f.ty (fun a => 2 ^ tyBits f.ty - 1 - a) s

/-! Shifts, rotates and bit fields (R225). -/

def shiftLeft (w a n : Nat) : Nat := if w ≤ n then 0 else (a <<< n) % 2 ^ w
def shiftRight (w a n : Nat) : Nat := if w ≤ n then 0 else (a % 2 ^ w) >>> n
def shiftArith (w a n : Nat) : Nat := intCode w (signed w a / 2 ^ (min n w))
def rotateLeft (w a n : Nat) : Nat :=
  let k := n % w
  ((a <<< k) ||| ((a % 2 ^ w) >>> (w - k))) % 2 ^ w

/-- Shift or rotate: the count is 32-bit. -/
def shiftWord (h : Hdr) (f : AF) (op : Nat → Nat → Nat → Nat) (s : State) : Host.Outcome State Fault Refusal :=
  aluWord h f 4 (.reg f.w) f.src (.reg false false) .unused (fun e =>
    e.result f f.ty fun l => op (tyBits f.ty) (e.src f f.sa f.ty f.a l) (e.src f f.sb .n32 f.b l)) s

def execShl (h : Hdr) (f : AF) (s : State) : Host.Outcome State Fault Refusal := shiftWord h f shiftLeft s
def execShr (h : Hdr) (f : AF) (s : State) : Host.Outcome State Fault Refusal := shiftWord h f shiftRight s
def execSar (h : Hdr) (f : AF) (s : State) : Host.Outcome State Fault Refusal := shiftWord h f shiftArith s
def execRot (h : Hdr) (f : AF) (s : State) : Host.Outcome State Fault Refusal :=
  shiftWord h f (fun w a n => rotateLeft w a (if bitAt f.m 0 then w - n % w else n)) s

def popCount (w a : Nat) : Nat := (List.range w).foldl (fun n i => n + fld a i 1) 0
def leadZeros (w a : Nat) : Nat := if a % 2 ^ w = 0 then w else w - 1 - Nat.log2 (a % 2 ^ w)
def bitReverse (w a : Nat) : Nat := (List.range w).foldl (fun r i => r + fld a i 1 <<< (w - 1 - i)) 0

def execPopc (h : Hdr) (f : AF) (s : State) : Host.Outcome State Fault Refusal :=
  bitWord1 h f 6 .n32 (popCount (tyBits f.ty)) s
def execClz (h : Hdr) (f : AF) (s : State) : Host.Outcome State Fault Refusal :=
  bitWord1 h f 6 .n32 (leadZeros (tyBits f.ty)) s

/-- BFE of R225: `b` holds pos in bits 7:0 and len in bits 15:8. -/
def fieldExtract (sg : Bool) (w a b : Nat) : Nat :=
  let pos := fld b 0 8
  let len := fld b 8 8
  let n := min len (w - pos)
  if len = 0 ∨ w ≤ pos then 0
  else intCode w (if sg then signed n (a >>> pos) else ((a >>> pos % 2 ^ n : Nat) : Int))

/-- BFI of R225. -/
def fieldInsert (w a b c : Nat) : Nat :=
  let pos := fld b 0 8
  let len := fld b 8 8
  let n := min len (w - pos)
  if len = 0 ∨ w ≤ pos then c % 2 ^ w
  else
    let lo := c % 2 ^ pos
    let hi := (c % 2 ^ w) >>> (pos + n)
    lo + (a % 2 ^ n) <<< pos + hi <<< (pos + n)

def execBfe (h : Hdr) (f : AF) (s : State) : Host.Outcome State Fault Refusal :=
  aluWord h f 6 (.reg f.w) f.src (.reg false false) .unused (fun e =>
    e.result f f.ty fun l =>
      fieldExtract (Ty.signed f.ty) (tyBits f.ty) (e.src f f.sa f.ty f.a l) (e.src f f.sb .n32 f.b l)) s

def execBfi (h : Hdr) (f : AF) (s : State) : Host.Outcome State Fault Refusal :=
  aluWord h f 6 (.reg f.w) f.src (.reg false false) f.src (fun e =>
    e.result f f.ty fun l =>
      fieldInsert (tyBits f.ty) (e.src f f.sa f.ty f.a l) (e.src f f.sb .n32 f.b l) (e.src f f.sc f.ty f.c l)) s

def execBrev (h : Hdr) (f : AF) (s : State) : Host.Outcome State Fault Refusal :=
  bitWord1 h f 6 f.ty (bitReverse (tyBits f.ty)) s

/-- ICMP (R226). -/
def execIcmp (h : Hdr) (f : AF) (s : State) : Host.Outcome State Fault Refusal :=
  aluWord h f 4 .pred f.src f.src .unused (fun e =>
    e.predResult f fun l =>
      let x := intVal f.ty (e.src f f.sa f.ty f.a l)
      let y := intVal f.ty (e.src f f.sb f.ty f.b l)
      condHolds (f.mlo 2 0) false (x < y) (x = y)) s

/-! Moves, selects and immediates (R227, R228). -/

def execSel (h : Hdr) (f : AF) (s : State) : Host.Outcome State Fault Refusal :=
  aluWord h f 4 (.reg f.w) f.src f.src .pred (fun e =>
    e.result f f.ty fun l =>
      if e.w.p f.c.toNat l != bitAt f.m 0 then e.src f f.sa f.ty f.a l else e.src f f.sb f.ty f.b l) s

def execMov (h : Hdr) (f : AF) (s : State) : Host.Outcome State Fault Refusal := bitWord1 h f 4 f.ty (fun a => a) s

/-- Writes of a MOVI: into every active lane, or once into a scalar. -/
def moviWrites (e : Env) (sc : Bool) (d : Byte) (v : Word) : List RegWrite :=
  if sc then (if e.act = [] then [] else [⟨.s d.toNat, 0, v⟩])
  else e.act.map fun l => ⟨.v d.toNat, l, v &&& 0xFFFFFFFF⟩

def execMoviImm (h : Hdr) (f : IF) (s : State) : Host.Outcome State Fault Refusal :=
  let sc : Bool := 128 ≤ f.a.toNat
  word h none ⟨[], if sc then sregs f.d else [.v f.d.toNat]⟩
    (fun e s => s.later e 4 (moviWrites e sc f.d (f.imm.signExtend 64))) s

def execMoviLit (h : Hdr) (f : LF) (s : State) : Host.Outcome State Fault Refusal :=
  let sc : Bool := bitAt f.sel 5
  let hi : Bool := bitAt f.sel 3
  let d : List Reg := if sc then sregs f.d else [.v f.d.toNat]
  word h none ⟨if hi then d else [], d⟩
    (fun e s => s.later e 4 (moviWrites e sc f.d
      (if hi then (e.w.s f.d.toNat &&& 0xFFFFFFFF) ||| (f.lit.setWidth 64 <<< 32)
       else if bitAt f.sel 4 then f.lit.signExtend 64 else f.lit.setWidth 64))) s

/-! Wave operations (R222, R229 to R232). -/

/-- BCAST and READLANE: the source of lane L, L in bits 5:0 of b. -/
def laneWord (h : Hdr) (f : AF) (s : State) : Host.Outcome State Fault Refusal :=
  aluWord h f 8 (.reg f.w) (.vec f.w) (.reg false false) .unused (fun e =>
    e.result f f.ty fun l => e.vec f.ty f.a (e.src f f.sb .n32 f.b l % 64)) s

def execBcast (h : Hdr) (f : AF) (s : State) : Host.Outcome State Fault Refusal := laneWord h f s
def execReadlane (h : Hdr) (f : AF) (s : State) : Host.Outcome State Fault Refusal := laneWord h f s

/-- The source lane of SHFL (R230). -/
def shflLane (mode w lane k : Nat) : Nat :=
  let s0 := lane - lane % w
  match mode with
  | 0 => s0 + k % w
  | 1 => if w ≤ k ∨ lane < s0 + k then lane else lane - k
  | 2 => if w ≤ k ∨ s0 + w ≤ lane + k then lane else lane + k
  | _ => lane ^^^ (k % w)

def execShfl (h : Hdr) (f : AF) (s : State) : Host.Outcome State Fault Refusal :=
  aluWord h f 8 (.reg f.w) (.vec f.w) (.reg false false) .unused (fun e =>
    e.result f f.ty fun l =>
      e.vec f.ty f.a (shflLane (f.mlo 1 0) (2 ^ f.mlo 4 2) l (e.src f f.sb .n32 f.b l))) s

/-- The result of VOTE over the active lanes and the predicate's value in each (R231). -/
def voteOf (mode : Nat) (act : List Nat) (q : Nat → Bool) : Nat :=
  let all := act.all q
  let some_ := act.any q
  match mode with
  | 0 => if all then 1 else 0
  | 1 => if some_ then 1 else 0
  | 2 => if all || !some_ then 1 else 0
  | _ => (maskOf (act.filter q)).toNat

def execVote (h : Hdr) (f : AF) (s : State) : Host.Outcome State Fault Refusal :=
  let ballot : Bool := f.mlo 1 0 = 3
  aluWord h f 8 (.reg ballot) .pred .unused .unused (fun e =>
    e.result f (if ballot then .n64 else .n32) fun _ =>
      voteOf (f.mlo 1 0) e.act fun l => e.w.p f.a.toNat l != bitAt f.m 2) s

end Sys2Proof.Machine
end

