-- ==== Sys2Proof/Machine/Special.lean ====
section
/-! DEFINITION. Square roots, and the special functions of R238: their fixed cases, and for every other operand the two
neighbouring f32 values between which a part may choose (log 10). -/
namespace Sys2Proof.Machine

/-- floor(√x), bit by bit from bit `n - 1`. -/
def isqrt (x : Nat) : Nat → Nat → Nat
  | 0, r => r
  | n + 1, r => isqrt x n (if (r + 2 ^ n) * (r + 2 ^ n) ≤ x then r + 2 ^ n else r)

/-- A value that rounds to f32 as √(n/d) does in every mode, n/d positive: 40 or more bits of the root, and one more
that tells whether it is exact. -/
def sqrtVal (n d : Nat) : Val :=
  let k : Nat := (40 - ilog2 n d / 2).toNat
  let x := (n <<< (2 * k)) / d
  let q := isqrt x (Nat.log2 x / 2 + 1) 0
  let exact : Bool := q * q * d = n <<< (2 * k)
  mkVal false (2 * q + (if exact then 0 else 1)) (-((k : Int) + 1))

/-- The square root of R233, R238. -/
def Val.sqrt (v : Val) : Val :=
  match v with
  | .nan => .nan
  | .zero s => .zero s
  | .inf neg => if neg then .nan else .inf false
  | .num neg n d => if neg then .nan else sqrtVal n d

/-- The neighbours of an exact value in f32, the lower and the upper one; equal where the value is exact, and the
infinity alone for a magnitude of 2^128 or more (R238). -/
def neighbours (v : Val) : Nat × Nat :=
  let big : Bool := match v with
    | .num _ n d => d <<< 128 ≤ n
    | _ => false
  if big then
    let c := f32F.encode .rne true v
    (c, c)
  else (f32F.encode .rdn true v, f32F.encode .rup true v)

/-- The neighbours of a value known by bounds; both bounds must have them in common. -/
def neighboursBy (f : Nat → Val × Val) : Nat × Nat :=
  decideBy (fun p => let (a, b) := f p; (neighbours a, neighbours b)) precisions

/-- n·2^k as a value, of an integer n. -/
def fixVal (n : Int) (k : Int) : Val := mkVal (n < 0) n.natAbs k

/-! π, sine and cosine. A number at precision p is an integer in units of 2^-p. -/

/-- Terms of atan(1/m): t = 2^p/m^(2i+1), alternating. -/
def atanInv (m : Nat) : Nat → Nat → Nat → Int → Int → Int
  | 0, _, _, _, acc => acc
  | n + 1, t, i, sg, acc => atanInv m n (t / (m * m)) (i + 2) (-sg) (acc + sg * (t / i : Nat))

/-- Bounds of π by Machin's formula. -/
def piB (p : Nat) : Nat × Nat :=
  let n := p / 4 + 4
  let v := 16 * atanInv 5 n (2 ^ p / 5) 1 1 0 - 4 * atanInv 239 n (2 ^ p / 239) 1 1 0
  ((v - 40 * (n : Int)).toNat, (v + 40 * (n : Int)).toNat)

/-- Alternating Taylor terms: t becomes t·x²/(i·(i+1)), each rounded down. -/
def sinTerms (p x2 : Nat) : Nat → Nat → Nat → Int → Int → Int
  | 0, _, _, _, acc => acc
  | n + 1, t, i, sg, acc => sinTerms p x2 n (t * x2 / ((i * (i + 1)) <<< p)) (i + 2) (-sg) (acc + sg * t)

/-- Bounds of sin(x) for 0 ≤ lo ≤ x ≤ hi ≤ 1. -/
def sinB (p lo hi : Nat) : Int × Int :=
  let n := p / 4 + 8
  let go (x : Nat) : Int := sinTerms p ((x * x) >>> p) n x 2 1 0
  (go lo - 4 * n, go hi + 4 * n)

/-- Bounds of cos(x) for 0 ≤ lo ≤ x ≤ hi ≤ 1. -/
def cosB (p lo hi : Nat) : Int × Int :=
  let n := p / 4 + 8
  let go (x : Nat) : Int := sinTerms p ((x * x) >>> p) n (2 ^ p) 1 1 0
  (go hi - 4 * n, go lo + 4 * n)

/-- sin(π·y), 0 < y < 1/2, y = n/d, or cos(π·y): the neighbours of its value with the sign `neg`. -/
def sinPi (cosine neg : Bool) (n d : Nat) : Nat × Nat :=
  -- fold to y ≤ 1/4
  let fold : Bool := d < 4 * n
  let (a, b) := if fold then (d - 2 * n, 2 * d) else (n, d)
  let useCos : Bool := cosine != fold
  neighboursBy fun p =>
    let (pl, ph) := piB p
    let lo := pl * a / b
    let hi := ph * a / b + 1
    let (x, y) := if useCos then cosB p lo hi else sinB p lo hi
    if neg then (fixVal (-y) (-p), fixVal (-x) (-p)) else (fixVal x (-p), fixVal y (-p))

/-- FSIN and FCOS of a finite nonzero operand (−1)^neg · n/d: sin or cos of π times it (R238). -/
def trigOf (cosine neg : Bool) (n d : Nat) : Nat × Nat :=
  let both (c : Nat) : Nat × Nat := (c, c)
  let one (s : Bool) : Nat := f32F.encode .rne true (.num s 1 1)
  -- the argument in quarters: m = floor(2·n/d), r = its rest in halves
  let m := 2 * n / d
  let r := 2 * n - m * d                        -- r/(2d) in [0, 1/2)
  let quad := m % 4
  if r = 0 then
    if cosine then
      both (if quad % 2 = 1 then 0 else one (quad = 2))
    else
      both (if quad % 2 = 0 then f32F.sign neg 0 else one ((quad = 3) != neg))
  else
    let useCos : Bool := (quad % 2 = 1) != cosine
    let sg : Bool := if cosine then quad = 1 || quad = 2 else (quad ≥ 2 : Bool) != neg
    sinPi useCos sg r (2 * d)

/-- 2^a of a finite nonzero operand (R238). -/
def exp2Of (neg : Bool) (n d : Nat) : Nat × Nat :=
  if d * 200 < n then (if neg then neighbours (.num false 1 (2 ^ 200)) else neighbours (.num false (2 ^ 200) 1))
  else if n % d = 0 then
    neighbours (mkVal false 1 (if neg then -(n / d : Nat) else ((n / d : Nat) : Int)))
  else
    let x : Int := if neg then -(n : Int) else n
    let k : Int := x / d
    let r : Nat := (x - k * d).toNat             -- a = k + r/d
    neighboursBy fun p =>
      let (l2, h2) := ln2B p
      let (a, b, e) := expB p ((l2 * r / d : Nat) : Int) ((h2 * r / d + 1 : Nat) : Int)
      (mkVal false a (e + k), mkVal false b (e + k))

/-- log2 of a positive operand (R238). -/
def log2Of (n d : Nat) : Nat × Nat :=
  let k := ilog2 n d
  let pow : Bool := if 0 ≤ k then d <<< k.toNat = n else d = n <<< (-k).toNat
  if pow then neighbours (ofInt k)
  else
    neighboursBy fun p =>
      let (lo, hi) := lnB p n d
      let (l2, h2) := ln2B p
      let v (x : Int) (y : Nat) : Val := ratVal x y false
      if 0 ≤ lo then (v lo h2, v hi l2) else (v lo l2, v hi h2)

/-- The special functions of R238: the neighbours of the exact value, or a fixed case twice. Keys: 0 FRCP, 1 FRSQ,
2 FEX2, 3 FLG2, 4 FSIN, 5 FCOS. -/
def specialOf (fn x : Nat) : Nat × Nat :=
  let both (c : Nat) : Nat × Nat := (c, c)
  let nan := f32F.encode .rne true .nan
  let enc (v : Val) : Nat := f32F.encode .rne true v
  match fn, f32F.decode x with
  | _, .nan => both nan
  | 0, .zero s => both (enc (.inf s))
  | 0, .inf s => both (enc (.zero s))
  | 0, .num s n d => neighbours (.num s d n)
  | 1, .zero s => both (enc (.inf s))
  | 1, .inf s => both (if s then nan else 0)
  | 1, .num s n d => if s then both nan else neighbours (sqrtVal d n)
  | 2, .zero _ => both (enc (.num false 1 1))
  | 2, .inf s => both (if s then 0 else enc (.inf false))
  | 2, .num s n d => exp2Of s n d
  | 3, .zero _ => both (enc (.inf true))
  | 3, .inf s => both (if s then nan else enc (.inf false))
  | 3, .num s n d => if s then both nan else log2Of n d
  | 4, .zero s => both (enc (.zero s))
  | _, .zero _ => both (enc (.num false 1 1))
  | _, .inf _ => both nan
  | 4, .num s n d => trigOf false s n d
  | _, .num s n d => trigOf true s n d

/-- The result a part returns: of the two neighbours, the one its free choice names (R9, R238). -/
def special (fn x : Nat) : Nat :=
  let (lo, hi) := specialOf fn x
  if Config.faithfulUp fn (BitVec.ofNat 32 x) then hi else lo

end Sys2Proof.Machine
end

