-- ==== Sys2Proof/Machine/Float.lean ====
section
/-! DEFINITION. Float instructions: group 2 (R233 to R240), and the wave reductions WRED and SCAN of group 1 (R232),
with the latencies of R186. -/
namespace Sys2Proof.Machine

/-- The element format of a float type. -/
def floatFmt (t : Ty) : FFmt :=
  match t with
  | .f64 => f64F
  | .f16x2 => f16F
  | .bf16x2 => bf16F
  | _ => f32F

/-- Latency of the basic float instructions: 10 in f64 (R186). -/
def floatLat (t : Ty) : Nat := if t = .f64 then 10 else 6

/-- The mode in bits 1:0 (R233). -/
def rmode (f : AF) : RMode := modeOf (f.mlo 1 0)

/-- Rounds an exact result once, with IEEE 754 overflow (R233). -/
def floatRes (t : Ty) (mode : RMode) (v : Val) : Nat := (floatFmt t).encode mode true v

/-- Sign of an exact zero sum (R233). -/
def zeroNeg (mode : RMode) : Bool := mode = .rdn

/-- Element i of an operand as a value. -/
def floatElem (t : Ty) (x i : Nat) : Val := (floatFmt t).decode (elemOf t x i)

/-- Float instruction of up to three sources: `op` on the elements' values. -/
def floatWord (h : Hdr) (f : AF) (lat : Nat) (c : SrcUse) (op : Val → Val → Val → Val) (s : State) :
    Host.Outcome State Fault Refusal :=
  aluWord h f lat (.reg f.w) f.src f.src c (fun e =>
    e.result f f.ty fun l =>
      let x := e.src f f.sa f.ty f.a l
      let y := e.src f f.sb f.ty f.b l
      let z := e.src f f.sc f.ty f.c l
      packed f.ty fun i => floatRes f.ty (rmode f) (op (floatElem f.ty x i) (floatElem f.ty y i) (floatElem f.ty z i))) s

/-- R234. -/
def execFadd (h : Hdr) (f : AF) (s : State) : Host.Outcome State Fault Refusal :=
  floatWord h f (floatLat f.ty) .unused (fun x y _ => x.add (zeroNeg (rmode f)) y) s
def execFsub (h : Hdr) (f : AF) (s : State) : Host.Outcome State Fault Refusal :=
  floatWord h f (floatLat f.ty) .unused (fun x y _ => x.add (zeroNeg (rmode f)) y.negate) s
def execFmul (h : Hdr) (f : AF) (s : State) : Host.Outcome State Fault Refusal :=
  floatWord h f (floatLat f.ty) .unused (fun x y _ => x.mul y) s
def execFfma (h : Hdr) (f : AF) (s : State) : Host.Outcome State Fault Refusal :=
  floatWord h f (floatLat f.ty) f.src (fun x y z => (x.mul y).add (zeroNeg (rmode f)) z) s

/-- minimumNumber and maximumNumber on codes: one operand's encoding or the canonical NaN (R235). -/
def minMaxNum (m : FFmt) (mx : Bool) (a b : Nat) : Nat :=
  let x := m.decode a
  let y := m.decode b
  if x.isNan && y.isNan then m.nan.getD 0
  else if x.isNan then b
  else if y.isNan then a
  else if x.lt y then (if mx then b else a)
  else if y.lt x then (if mx then a else b)
  else if x.neg? = mx then b else a

/-- Two-source float instruction on the elements' codes. -/
def codeWord2 (h : Hdr) (f : AF) (op : Nat → Nat → Nat) (s : State) : Host.Outcome State Fault Refusal :=
  aluWord h f (floatLat f.ty) (.reg f.w) f.src f.src .unused (fun e =>
    e.result f f.ty fun l =>
      let x := e.src f f.sa f.ty f.a l
      let y := e.src f f.sb f.ty f.b l
      packed f.ty fun i => op (elemOf f.ty x i) (elemOf f.ty y i)) s

def execFmin (h : Hdr) (f : AF) (s : State) : Host.Outcome State Fault Refusal :=
  codeWord2 h f (minMaxNum (floatFmt f.ty) false) s
def execFmax (h : Hdr) (f : AF) (s : State) : Host.Outcome State Fault Refusal :=
  codeWord2 h f (minMaxNum (floatFmt f.ty) true) s

/-- FCMP (R236). -/
def execFcmp (h : Hdr) (f : AF) (s : State) : Host.Outcome State Fault Refusal :=
  aluWord h f (floatLat f.ty) .pred f.src f.src .unused (fun e =>
    e.predResult f fun l =>
      condVal (f.mlo 2 0) ((floatFmt f.ty).decode (e.src f f.sa f.ty f.a l))
        ((floatFmt f.ty).decode (e.src f f.sb f.ty f.b l))) s

/-- The class bit of FCLASS (R237). -/
def classOfCode (m : FFmt) (x : Nat) : Nat :=
  let neg : Bool := fld x (m.e + m.f) 1 = 1
  let ex := fld x m.f m.e
  let fr := fld x 0 m.f
  if ex = 2 ^ m.e - 1 then
    if fr = 0 then (if neg then 1 else 128) else (if fr < 2 ^ (m.f - 1) then 256 else 512)
  else if ex = 0 then
    if fr = 0 then (if neg then 8 else 16) else (if neg then 4 else 32)
  else if neg then 2 else 64

def execFclass (h : Hdr) (f : AF) (s : State) : Host.Outcome State Fault Refusal :=
  aluWord h f (floatLat f.ty) (.reg false) f.src .unused .unused (fun e =>
    e.result f .n32 fun l => classOfCode (floatFmt f.ty) (e.src f f.sa f.ty f.a l)) s

/-- A special function of R238, by its key. -/
def specialWord (h : Hdr) (f : AF) (fn : Nat) (s : State) : Host.Outcome State Fault Refusal :=
  aluWord h f 16 (.reg false) f.src .unused .unused (fun e =>
    e.result f f.ty fun l => special fn (e.src f f.sa f.ty f.a l)) s

def execFrcp (h : Hdr) (f : AF) (s : State) : Host.Outcome State Fault Refusal := specialWord h f 0 s
def execFrsq (h : Hdr) (f : AF) (s : State) : Host.Outcome State Fault Refusal := specialWord h f 1 s
def execFex2 (h : Hdr) (f : AF) (s : State) : Host.Outcome State Fault Refusal := specialWord h f 2 s
def execFlg2 (h : Hdr) (f : AF) (s : State) : Host.Outcome State Fault Refusal := specialWord h f 3 s
def execFsin (h : Hdr) (f : AF) (s : State) : Host.Outcome State Fault Refusal := specialWord h f 4 s
def execFcos (h : Hdr) (f : AF) (s : State) : Host.Outcome State Fault Refusal := specialWord h f 5 s

def execFsqrt (h : Hdr) (f : AF) (s : State) : Host.Outcome State Fault Refusal :=
  aluWord h f 16 (.reg false) f.src .unused .unused (fun e =>
    e.result f f.ty fun l => floatRes .f32 (rmode f) (f32F.decode (e.src f f.sa f.ty f.a l)).sqrt) s

/-- FDIVS (R239). -/
def execFdivs (h : Hdr) (f : AF) (s : State) : Host.Outcome State Fault Refusal :=
  floatWord h f 24 .unused (fun x y _ => x.div y) s

/-! Short dot products (R240). -/

/-- a0·b0 + a1·b1 + c, exact. -/
def dot2Val (m : FFmt) (zneg : Bool) (a b c : Nat) : Val :=
  let p (i : Nat) : Val := (m.decode (fld a (16 * i) 16)).mul (m.decode (fld b (16 * i) 16))
  ((p 0).add zneg (p 1)).add zneg (f32F.decode c)

def execDot2 (h : Hdr) (f : AF) (s : State) : Host.Outcome State Fault Refusal :=
  aluWord h f 8 (.reg false) f.src f.src f.src (fun e =>
    e.result f .f32 fun l =>
      floatRes .f32 (rmode f) (dot2Val (floatFmt f.ty) (zeroNeg (rmode f)) (e.src f f.sa f.ty f.a l)
        (e.src f f.sb f.ty f.b l) (e.src f f.sc .f32 f.c l))) s

/-- c + Σ ai·bi over four 8-bit elements, exact. -/
def dot4Int (t ct : Ty) (a b c : Nat) : Int :=
  (List.range 4).foldl (fun r i => r + intVal t (elemOf t a i) * intVal t (elemOf t b i)) (intVal ct c)

def execDot4 (h : Hdr) (f : AF) (s : State) : Host.Outcome State Fault Refusal :=
  let ct : Ty := if f.ty = .i8x4 then .i32 else .n32
  aluWord h f 8 (.reg false) f.src f.src f.src (fun e =>
    e.result f ct fun l =>
      intRes ct (bitAt f.m 0) (dot4Int f.ty ct (e.src f f.sa f.ty f.a l) (e.src f f.sb f.ty f.b l)
        (e.src f f.sc ct f.c l))) s

/-! Reductions over the wave (R232). -/

def isFloatTy (t : Ty) : Bool := t = .f32 || t = .f64

/-- The operation of WRED and SCAN on codes. -/
def reduceOp (t : Ty) (op x y : Nat) : Nat :=
  let m := floatFmt t
  match op with
  | 0 => if isFloatTy t then m.encode .rne true ((m.decode x).add false (m.decode y)) else (x + y) % 2 ^ tyBits t
  | 1 => if isFloatTy t then minMaxNum m false x y else if intVal t y < intVal t x then y else x
  | 2 => if isFloatTy t then minMaxNum m true x y else if intVal t x < intVal t y then y else x
  | 3 => x &&& y
  | 4 => x ||| y
  | _ => x ^^^ y

/-- The identity of R232. -/
def reduceId (t : Ty) (op : Nat) : Nat :=
  let w := tyBits t
  let m := floatFmt t
  match op with
  | 0 => if isFloatTy t then m.encode .rne true (.zero true) else 0
  | 1 => if isFloatTy t then m.encode .rne true (.inf false) else intCode w (intHi (Ty.signed t) w)
  | 2 => if isFloatTy t then m.encode .rne true (.inf true) else intCode w (intLo (Ty.signed t) w)
  | 3 => 2 ^ w - 1
  | _ => 0

/-- One level of the tree: neighbours combine, an absent node gives way. -/
def treeLevel (op : Nat → Nat → Nat) : List (Option Nat) → List (Option Nat)
  | some a :: some b :: r => some (op a b) :: treeLevel op r
  | none :: b :: r => b :: treeLevel op r
  | a :: none :: r => a :: treeLevel op r
  | [a] => [a]
  | [] => []

/-- The fixed tree over lane numbers: six levels on 64 nodes. -/
def wredTree (op : Nat → Nat → Nat) : Nat → List (Option Nat) → List (Option Nat)
  | 0, l => l
  | n + 1, l => wredTree op n (treeLevel op l)

def execWred (h : Hdr) (f : AF) (s : State) : Host.Outcome State Fault Refusal :=
  aluWord h f 16 (.reg f.w) (.vec f.w) .unused .unused (fun e =>
    let nodes := (List.range 64).map fun l => if e.act.contains l then some (e.vec f.ty f.a l) else none
    let r := ((wredTree (reduceOp f.ty (f.mlo 2 0)) 6 nodes).headD none).getD 0
    e.result f f.ty fun _ => r) s

/-- The prefixes of SCAN over the active lanes in ascending order: (lane, result). -/
def scanChain (op : Nat → Nat → Nat) (ident : Nat) (excl : Bool) : Option Nat → List (Nat × Nat) → List (Nat × Nat)
  | _, [] => []
  | acc, (l, x) :: r =>
    let y := match acc with
      | none => x
      | some a => op a x
    (l, if excl then acc.getD ident else y) :: scanChain op ident excl (some y) r

def execScan (h : Hdr) (f : AF) (s : State) : Host.Outcome State Fault Refusal :=
  aluWord h f 16 (.reg f.w) (.vec f.w) .unused .unused (fun e =>
    let op := f.mlo 2 0
    let chain := scanChain (reduceOp f.ty op) (reduceId f.ty op) (bitAt f.m 3) none
      (e.act.map fun l => (l, e.vec f.ty f.a l))
    e.result f f.ty fun l => ((chain.find? fun x => x.1 = l).getD (l, 0)).2) s

end Sys2Proof.Machine
end

