-- ==== Sys2Proof/Machine/Layout.lean ====
section
/-! DEFINITION. Layout entries (R126 to R130, R263): their checks, the cache a core reads them through, the address and
the bound of an element, its block scale, and the swizzle of the scratchpad (R122). Then bytes, bits and format tags of
scratchpad and deep scratch by workgroup offset (R103, R121, R124, R125). -/
namespace Sys2Proof.Machine

/-- Fields of an entry image (R127). -/
def layoutOf (x : BitVec 512) : Layout :=
  { valid := bitAt x 0, space := x.extractLsb' 1 3, world := bitAt x 4, oob := bitAt x 5, rank := x.extractLsb' 6 3,
    part := x.extractLsb' 9 3, swzMask := x.extractLsb' 12 6, swzShift := x.extractLsb' 18 4, scaled := bitAt x 22,
    base := x.extractLsb' 64 64, scaleBase := x.extractLsb' 128 64,
    extent := (List.range 5).map fun k => x.extractLsb' (192 + 32 * k) 32,
    stride := (List.range 4).map fun k => x.extractLsb' (352 + 32 * k) 32,
    sstride1 := x.extractLsb' 480 16, sstride2 := x.extractLsb' 496 16, resv := x.extractLsb' 23 41 ≠ 0 }

def Layout.ext (l : Layout) (k : Nat) : Nat := (l.extent.getD k 0).toNat
/-- Stride of dimension `k`; that of dimension 0 is 1. -/
def Layout.str (l : Layout) (k : Nat) : Int := if k = 0 then 1 else (l.stride.getD (k - 1) 0).toInt

/-- Spaces by code: memory (0 global, 4 pinned strata, 5 host), scratch 1, deep scratch 2, remote scratch 3. -/
def Layout.memory (l : Layout) : Bool := l.space = 0 || l.space = 4 || l.space = 5

/-- An address or offset in the range of its space (R128). -/
def spaceRange (sp : Nat) (a : Word) : Bool :=
  if sp = 0 ∨ sp = 4 ∨ sp = 5 then a.toNat < 2 ^ 57
  else if sp = 2 then 0x1000000 ≤ a.toNat && a.toNat < 0x2800000
  else a.toNat < 0x800000

/-- THE CHECKS OF R128, in the order and with the status codes of R263; 0 is OK. `secure` is the world of the context. -/
def Layout.check (l : Layout) (secure : Bool) : Nat :=
  let sp := l.space.toNat
  let r := l.rank.toNat
  if !l.valid then 0
  else if 6 ≤ sp then 2
  else if r = 0 || 5 < r then 3
  else if (List.range 5).any (fun k => if k < r then l.ext k = 0 else l.ext k ≠ 0 || l.str k ≠ 0) then 4
  else if l.swzMask ≠ 0 && l.swzShift.toNat < 6 then 5
  else if l.world && !secure then 6
  else if !(spaceRange sp l.base && spaceRange sp l.scaleBase) then 7
  else if sp ≠ 3 && l.part ≠ 0 then 8
  else if l.scaled && 3 < r then 9
  else if l.resv then 10
  else 0

/-- Physical address of entry `h` of a context's table (R126). -/
def layVa (c : Ctx) (h : Nat) : Nat := c.layout + 64 * h

/-- The image of an entry as a core sees it: its cache of 64 entries, or the table (R130). -/
def State.layImage (s : State) (core : Nat) (c : Ctx) (h : Nat) : BitVec 512 × State :=
  match s.layCache.find? fun e => e.core = core && e.ctx = c.num && e.q = c.q && e.handle = h with
  | some e => (e.image, s)
  | none =>
    let (n, s1) := s.readPhysN (layVa c h) 64
    let mine := s1.layCache.filter fun e => e.core = core
    let cache := if 64 ≤ mine.length then
        match mine.head? with
        | some v => s1.layCache.erase v
        | none => s1.layCache
      else s1.layCache
    (BitVec.ofNat 512 n, { s1 with layCache := cache ++ [⟨core, c.num, c.q, h, BitVec.ofNat 512 n⟩] })

/-- The entry a handle names, or none where the handle fails (R126, R247 check 1). -/
def State.layEntry (s : State) (core : Nat) (c : Ctx) (h : Word) : Option Layout × State :=
  if 4096 ≤ h.toNat then (none, s)
  else
    let (x, s1) := s.layImage core c h.toNat
    let l := layoutOf x
    (if l.valid && l.check c.world = 0 then some l else none, s1)

/-- An entry of a handle that may be invalid (LAYCHK, R264): none where the handle itself fails. An entry that fails the
checks of R128 is used as invalid (R126). -/
def State.layMaybe (s : State) (core : Nat) (c : Ctx) (h : Word) : Option (Option Layout) × State :=
  if 4096 ≤ h.toNat then (none, s)
  else
    let (x, s1) := s.layImage core c h.toNat
    let l := layoutOf x
    (some (if l.valid && l.check c.world = 0 then some l else none), s1)

/-! Elements (R129). -/

/-- Element index of coordinates. -/
def Layout.elem (l : Layout) (c : List Int) : Int :=
  (List.range 5).foldl (fun a k => a + l.str k * c.getD k 0) 0

/-- Bit address of an element of width `w`. -/
def Layout.bitAddr (l : Layout) (c : List Int) (w : Nat) : Int := 8 * (l.base.toNat : Int) + l.elem c * w

/-- In bounds. -/
def Layout.inb (l : Layout) (c : List Int) : Bool :=
  (List.range 5).all fun k =>
    let x := c.getD k 0
    if k < l.rank.toNat then decide (0 ≤ x) && decide (x < l.ext k) else x = 0

/-- Address of an element's scale byte, for a geom (R129). -/
def Layout.scaleAddr (l : Layout) (geom : BitVec 3) (c : List Int) : Int :=
  let a := if bitAt geom 2 then 1 else 0
  (l.scaleBase.toNat : Int) + (c.getD a 0) / (blockOf geom : Int) + (c.getD (1 - a) 0) * l.sstride1.toInt
    + c.getD 2 0 * l.sstride2.toInt

/-- `scr_phys` of R122. -/
def scrPhys (o mask shift : Nat) : Nat :=
  let w := fld o 2 24
  let b := fld w 0 6 ^^^ (fld (w >>> shift) 0 6 &&& mask)
  fld o 8 18 <<< 8 ||| b <<< 2 ||| fld o 0 2

/-! Bytes of scratchpad and deep scratch by workgroup offset. -/

/-- First offset of deep scratch (R124). -/
def deepBase : Nat := 0x1000000

/-- The swizzled offset; deep scratch takes none. -/
def swz (l : Option Layout) (o : Nat) : Nat :=
  match l with
  | some l => if deepBase ≤ o || l.space = 2 then o else scrPhys o l.swzMask.toNat l.swzShift.toNat
  | none => o

/-- Whether a part's allocation holds an offset; deep scratch only on the accessing core itself (R121, R124, R125). -/
def Part.holds (p : Part) (own : Bool) (o : Int) : Bool :=
  decide (0 ≤ o) && (o.toNat < p.scrBytes || (own && deepBase ≤ o.toNat && o.toNat < deepBase + 65536 * p.deepUnits))

/-- Whether it holds `n` bytes. -/
def Part.holdsAll (p : Part) (own : Bool) (o : Int) (n : Nat) : Bool :=
  n = 0 || (p.holds own o && p.holds own (o + n - 1) && (o.toNat + n ≤ deepBase || deepBase ≤ o.toNat))

def Part.byte (p : Part) (o : Nat) : Byte :=
  if o < deepBase then p.scr.byte o else p.deep.byte (o - deepBase)

def Part.setByte (p : Part) (o : Nat) (b : Byte) : Part :=
  let p1 := if p.ue = [] then p else { p with ue := p.ue.filter fun x => x ≠ o }
  if o < deepBase then { p1 with scr := p1.scr.setByte o b } else { p1 with deep := p1.deep.setByte (o - deepBase) b }

/-- Whether one of `n` bytes at an offset has an uncorrectable error (R358); a write of the byte ends it. -/
def Part.bad (p : Part) (l : Option Layout) (o n : Nat) : Bool :=
  (p.ue ≠ [] && (List.range n).any fun i => p.ue.contains (swz l (o + i)))
    || (p.lost ≠ [] && (List.range n).any fun i => p.lost.any fun x => x.1 ≤ swz l (o + i) && swz l (o + i) < x.2)

/-- `n` bits at a bit offset, each byte through the entry's swizzle. -/
def Part.bits (p : Part) (l : Option Layout) (ba n : Nat) : Nat :=
  let b := (List.range (cdiv (ba % 8 + n) 8)).map fun i => p.byte (swz l (ba / 8 + i))
  fld (natOfBytes b) (ba % 8) n

/-- Writes `n` bits at a bit offset. -/
def Part.setBits (p : Part) (l : Option Layout) (ba n x : Nat) : Part :=
  (List.range (cdiv (ba % 8 + n) 8)).foldl (fun p i =>
    let o := swz l (ba / 8 + i)
    let m := fld ((2 ^ n - 1) <<< (ba % 8)) (8 * i) 8
    let d := fld ((x % 2 ^ n) <<< (ba % 8)) (8 * i) 8
    p.setByte o (BitVec.ofNat 8 ((p.byte o).toNat &&& (255 ^^^ m) ||| d))) p

/-- Bytes at unswizzled offsets. -/
def Part.rd (p : Part) (o n : Nat) : List Byte := (List.range n).map fun i => p.byte (o + i)
def Part.wr (p : Part) (o : Nat) (b : List Byte) : Part :=
  (b.zipIdx).foldl (fun p x => p.setByte (o + x.2) x.1) p

/-- The format tag of the granule at an offset (R103); a tag holds no code 15. -/
def Part.tag (p : Part) (o : Nat) : Byte :=
  if o < deepBase then SMap.get 0 p.tags (o / 512) else SMap.get 0 p.deepTags ((o - deepBase) / 512)

def Part.setTag (p : Part) (o : Nat) (t : Byte) : Part :=
  if o < deepBase then { p with tags := SMap.put 0 p.tags (o / 512) t }
  else { p with deepTags := SMap.put 0 p.deepTags ((o - deepBase) / 512) t }

def tagFmt (t : Byte) : BitVec 4 := t.extractLsb' 0 4
def tagGeom (t : Byte) : BitVec 3 := t.extractLsb' 4 3
def tagOf (fmt : BitVec 4) (geom : BitVec 3) : Byte := BitVec.ofNat 8 (fmt.toNat + 16 * geom.toNat)

/-- Reads and writes of a workgroup's part. -/
def State.partOf (s : State) (wg p : Nat) : Part :=
  match s.wg? wg with
  | some w => w.part p
  | none => { core := 0 }

/-- The part an entry's scratch space names for an access from part `me`; none at or above the core count (R125). -/
def Layout.partFor (l : Layout) (w : Workgroup) (me : Nat) : Option Nat :=
  if l.space = 3 then (if l.part.toNat < w.parts.length then some l.part.toNat else none) else some me

end Sys2Proof.Machine
end

