-- ==== Sys2Proof/Machine/Path.lean ====
section
/-! DEFINITION. The road of one access between a core and its lodes: L1 with its generation (R116 to R120), the store
buffer (R117), requests and their service at the home lode (R21, R85, R304, R338), loads gathered into their results
(R252, R256), and what releases and acquires wait for (R117, R118, R253, R259). -/
namespace Sys2Proof.Machine

/-! L1 (R116 to R120). -/

/-- The generation G of a core. -/
def State.gen (s : State) (core : Nat) : Byte := BitVec.ofNat 8 (s.rf (rL1_STAT core) 0 8)

/-- The line a load can hit: its stamp equals G. -/
def State.l1At (s : State) (core : Nat) (asid : BitVec 16) (line : Nat) : Option L1Line :=
  s.l1.find? fun x => x.core = core && x.asid = asid && x.line = line && x.stamp = s.gen core

def State.l1Drop (s : State) (core : Nat) (asid : BitVec 16) (line : Nat) : State :=
  { s with l1 := s.l1.filter fun x => !(x.core = core && x.asid = asid && x.line = line) }

/-- Lines the L1 region holds (R114, R116). -/
def State.l1Lines (s : State) (core : Nat) : Nat := (56 - s.rf (rPOOL_ACC_TOP core) 0 6) * 512

/-- Installs a line; the oldest of a full L1 makes room. -/
def State.l1Add (s : State) (x : L1Line) : State :=
  let s1 := s.l1Drop x.core x.asid x.line
  let mine := s1.l1.filter fun y => y.core = x.core
  let l := if s1.l1Lines x.core ≤ mine.length then
      match mine.head? with
      | some v => s1.l1.erase v
      | none => s1.l1
    else s1.l1
  { s1 with l1 := l ++ [x] }

/-- The distance of R119. -/
def State.stampDist (s : State) (x : L1Line) : Nat := (s.gen x.core - x.stamp).toNat

/-- An advance of G must wait for the sweep (R119). -/
def State.sweepDue (s : State) (core : Nat) : Bool :=
  s.l1.any fun x => x.core = core && s.stampDist x = 127 && !x.swept

/-- A fill's stamp has fallen 128 or more behind. -/
def State.oldFill (s : State) (core d : Nat) (f : L1Fill) : Bool := f.core = core && d ≤ (s.gen core - f.stamp).toNat

/-- The sweep's visit to every line of a core, and to the fills on their way to L1 (R119). -/
def State.sweep (s : State) (core : Nat) : State :=
  { s with
    l1 := (s.l1.filter fun x => !(x.core = core && 128 ≤ s.stampDist x)).map fun x =>
      if x.core = core && s.stampDist x = 127 then { x with swept := true } else x
    l1fills := s.l1fills.filter fun f => !s.oldFill core 128 f }

/-- G advances by one (R118). The sweep has invalidated a line before its distance can reach 256; no fill, answered or still
asked for, comes to hit once G has wrapped (R119). -/
def State.advance (s : State) (core : Nat) : State :=
  let s1 : State := { s with
    l1 := s.l1.filter fun x => !(x.core = core && s.stampDist x = 255)
    l1fills := s.l1fills.filter fun f => !s.oldFill core 255 f
    reqs := s.reqs.map fun r => if r.core = core && (s.gen core - r.stamp).toNat = 255 then { r with l1 := false } else r }
  (s1.setRf (rL1_STAT core) 0 8 (s.rf (rL1_STAT core) 0 8 + 1)).setRf (rL1_STAT core) 8 1 0

/-- An advance whose wait for the sweep passes within the step: the wait is counted and the sweep runs. -/
def State.advanceNow (s : State) (core : Nat) : State :=
  if s.sweepDue core then ((s.incRf (rL1_STAT core) 16 16).sweep core).advance core else s.advance core

/-- Whether an acquire of a scope advances G (R118); `multi`: the workgroup spans more than one core. -/
def scopeAdvances (scope : BitVec 3) (multi : Bool) : Bool := 3 ≤ scope.toNat || (scope = 2 && multi)

def Workgroup.multi (w : Workgroup) : Bool := 1 < w.parts.length

/-- Levels a cache policy requests at the lode (R248). -/
def hintOf (pol : Nat) : Level :=
  match pol with
  | 0 | 3 => .allocate
  | 1 | 4 | 6 => .stream
  | _ => .none

/-! Requests (R21, R304). -/

def State.sendReq (s : State) (r : Req) : State :=
  let (n, s1) := s.fresh
  { s1 with reqs := s1.reqs ++ [{ r with id := n, born := n }] }

/-- A store or atomic of the core, or the answer to an access that does not allocate, on a line: no fill that left
before it may be installed (R304). -/
def State.voidFills (s : State) (core : Nat) (asid : BitVec 16) (line before : Nat) : State :=
  { s with
    l1fills := s.l1fills.filter fun f => !(f.core = core && f.asid = asid && f.line = line)
    reqs := s.reqs.map fun r =>
      if r.core = core && r.asid = asid && r.line = line && r.born < before then { r with l1 := false } else r }

/-! The store buffer (R117). -/

def State.sbAt (s : State) (core : Nat) (asid : BitVec 16) (line : Nat) : Option SbEntry :=
  s.sbuf.find? fun e => e.core = core && e.asid = asid && e.line = line

/-- An entry drains: its masked bytes go to the home lode. No fill that left before it was performed is installed (R304). -/
def State.drainEntry (s0 : State) (e : SbEntry) : State :=
  let s := s0.voidFills e.core e.asid e.line s0.nextId
  let s1 : State := { s with sbuf := s.sbuf.filter fun x => !(x.core = e.core && x.asid = e.asid && x.line = e.line) }
  match e.stores.getLast? with
  | none => s1
  | some x => s1.sendReq
      { id := 0, core := e.core, wg := x.wg, wave := x.wave, lane := x.lane, op := 0, q := s.leadOfCore e.core,
        ctx := e.ctx, asid := e.asid, va := 128 * e.line, line := e.line, leaf := e.leaf, what := .store e.mask e.data,
        lvl := e.lvl, l1 := false, stamp := 0, stores := e.stores, word := x.word }

def State.drainLine (s : State) (core : Nat) (asid : BitVec 16) (line : Nat) : State :=
  match s.sbAt core asid line with
  | some e => s.drainEntry e
  | none => s

/-- Every entry of a core drains, the oldest first. -/
def State.drainCore (s : State) (core : Nat) : State :=
  (s.sbuf.filter fun e => e.core = core).foldl State.drainEntry s

/-- The L1 copy at stamp G takes the stored bytes. -/
def State.l1Update (s : State) (core : Nat) (asid : BitVec 16) (line : Nat) (mask data : Line) : State :=
  { s with l1 := s.l1.map fun x =>
      if x.core = core && x.asid = asid && x.line = line && x.stamp = s.gen core then
        { x with data := lineMerge x.data mask data } else x }

/-- A workgroup of a replay, or third run, of an audit: what it writes is for it alone (R363). -/
def State.wgReplay (s : State) (wg : Nat) : Bool := (s.recOfWg wg).any Rec.isReplay

/-- A store merges into the buffer. A full buffer drains its oldest entry; an entry that holds stores of another record
drains first, so that each write is made for one record (R360). -/
def State.sbMerge (s : State) (core : Nat) (asid : BitVec 16) (line : Nat) (lvl : Level) (leaf : Leaf) (ctx : Nat)
    (x : SbStore) : State :=
  let s0 := s.voidFills core asid line s.nextId
  let other (e : SbEntry) : Bool := e.stores.any fun y =>
    y.wg ≠ x.wg && (s.recOfWg y.wg).map (·.id) ≠ (s.recOfWg x.wg).map (·.id)
  let s1 := match s0.sbAt core asid line with
    | some e => if other e then s0.drainEntry e else s0
    | none => s0
  let s2 : State := match s1.sbAt core asid line with
    | some _ =>
      { s1 with sbuf := s1.sbuf.map fun (e : SbEntry) =>
          if e.core = core && e.asid = asid && e.line = line then
            { e with mask := e.mask ||| x.mask, data := lineMerge e.data x.mask x.data, lvl := e.lvl.narrow lvl,
                     stores := e.stores ++ [x] }
          else e }
    | none =>
      let mine := s1.sbuf.filter fun e => e.core = core
      let s' : State := if 64 ≤ mine.length then
          match mine.head? with
          | some e => s1.drainEntry e
          | none => s1
        else s1
      { s' with sbuf := s'.sbuf ++ [⟨core, asid, line, x.mask, x.data, lvl, leaf, s'.clk, [x], ctx⟩] }
  (if s.wgReplay x.wg then s2 else s2.l1Update core asid line x.mask x.data).bump x.wg x.wave .st 1

/-! Loads gathered into their results (R252). -/

/-- The type of the 3-bit codes of the memory forms, and its width (R180, R251). -/
def memTy (t : Nat) : Ty := Ty.ofCode (BitVec.ofNat 4 (t % 8))
def memWidth (t : Nat) : Nat := if mty64 (t % 8) then 64 else 32

/-- Element format a type names (R143). -/
def tyFmt (t : Ty) : Fmt :=
  match t with
  | .i32 => .int true 32 | .n32 => .int false 32 | .i64 => .int true 64 | .n64 => .int false 64
  | .f64 => .fp f64F
  | _ => .fp f32F

def rawTy (t : Ty) : Bool := t = .b32 || t = .b64

/-- The loaded element as the destination holds it, and its SLI flags (R138, R140, R252). -/
def loadVal (ty : Ty) (fmt : BitVec 4) (scale : Option Nat) (raw : Nat) : Nat × BitVec 5 :=
  if rawTy ty || fmt = 0 then (raw, 0)
  else
    let sc := if blockedFmt fmt.toNat then scale else none
    let (c, fl) := (pageFmt fmt.toNat).feed raw sc ((tyFmt ty).encode .rne false)
    (c, if fmt = 12 || fmt = 13 then fl else 0)

/-- Writes of a load's destination in a lane, or of a scalar one. -/
def loadWrites (r : Reg) (ty : Ty) (wide : Bool) (lane v : Nat) : List RegWrite :=
  match r with
  | .v d => vecWrites wide d lane v
  | .s d => [scalarWrite ty d v]
  | _ => []

/-- An element part: the bits of it that lie in one line (R246). -/
structure EPart where
  va : Nat                 -- address of its first byte
  lo : Nat                 -- first bit in the line
  w  : Nat
  sh : Nat                 -- place in the element; 65536 marks a block's scale byte
  deriving DecidableEq, Repr

def partsOf (ba w : Nat) : List EPart :=
  let k := min w (1024 - ba % 1024)
  ⟨ba / 8, ba % 1024, k, 0⟩ :: (if k < w then [⟨(ba + k) / 8, 0, w - k, k⟩] else [])

def scalePart (va : Nat) : EPart := ⟨va, 8 * (va % 128), 8, 65536⟩

/-- A load whose lanes have all their parts has its result. -/
def Result.gathered (r : Result) (clk : Nat) : Result :=
  if r.lanes = [] || r.lanes.any (fun x => x.parts ≠ 0) then r
  else
    let vals := r.lanes.map fun x => (x, loadVal x.ty x.fmt (some x.scale.toNat) x.raw.toNat)
    { r with lanes := [], ready := true, readyAt := max r.readyAt clk,
             writes := r.writes ++ vals.flatMap fun x => loadWrites x.1.reg x.1.ty x.1.wide x.1.lane x.2.1,
             flags := r.flags ++ vals.flatMap fun x => if x.2.2 = 0 then [] else (lanesOf x.1.who).map fun l => (l, x.2.2) }

/-- Bits of a part arrive; `n` parts end with them. -/
def State.feed (s : State) (op lane sh v n : Nat) : State :=
  s.modResult op fun r =>
    { r with lanes := r.lanes.map fun x =>
        if x.lane ≠ lane then x
        else if sh = 65536 then { x with scale := BitVec.ofNat 8 v, parts := x.parts - n }
        else { x with raw := x.raw ||| BitVec.ofNat 64 (v <<< sh), parts := x.parts - n } }

/-- The parts of a lane's load are dropped with the lane (R339). -/
def State.dropLane (s : State) (op : Nat) (g : BitVec 64) : State :=
  s.modResult op fun r =>
    let l := r.lanes.filter fun x => x.who &&& g = 0
    if l = [] && r.lanes ≠ [] then { r with lanes := [], ready := true } else ({ r with lanes := l }).gathered s.clk

/-- Bytes of the store buffer that a part of a load takes: mask and data. What a replay of an audit stores is read by its
own record alone (R363). -/
def State.sbPart (s : State) (e : Env) (asid : BitVec 16) (p : EPart) : Nat × Nat :=
  match s.sbAt e.core asid (p.va / 128) with
  | some x =>
    if x.stores.any fun y => s.wgReplay y.wg && (s.recOfWg y.wg).map (·.id) ≠ (s.recOfWg e.iss.wg).map (·.id) then (0, 0)
    else (fld x.mask.toNat p.lo p.w, fld (x.data &&& x.mask).toNat p.lo p.w)
  | none => (0, 0)

/-- Lines that a scaled store of the core will write once its scale byte has come: its L1 copies have not its bytes yet. -/
def State.scaledOn (s : State) (core : Nat) (asid : BitVec 16) (line : Nat) : Bool :=
  s.reqs.any fun r => r.core = core && r.asid = asid && match r.what with
    | .scaled _ _ _ _ _ _ _ _ rest => r.line = line || rest.any fun x => x.1 / 128 = line
    | _ => false

/-- The L1 copy a load hits: a line at stamp G, or a fill of it that has been answered. A replay reads past L1, which may
hold what its primary wrote (R363). -/
def State.l1Hit (s : State) (e : Env) (asid : BitVec 16) (line : Nat) : Option Line :=
  if s.wgReplay e.iss.wg || s.scaledOn e.core asid line then none
  else match s.l1At e.core asid line with
  | some x => some x.data
  | none => (s.l1fills.find? fun (f : L1Fill) =>
      f.core = e.core && f.asid = asid && f.line = line && f.stamp = s.gen e.core).map fun (f : L1Fill) => f.data

/-- A load of policy 6 or 7 invalidates the L1 copy it hit, once every lane of the word has read (R248). -/
def State.l1Spend (s : State) (e : Env) (p : EPart) : State :=
  let asid := effAsid e.ctx.asid p.va
  let line := p.va / 128
  if (s.sbPart e asid p).1 = 2 ^ p.w - 1 then s
  else
    { s.l1Drop e.core asid line with
      l1fills := s.l1fills.filter fun (f : L1Fill) => !(f.core = e.core && f.asid = asid && f.line = line && f.stamp = s.gen e.core) }

/-- ONE PART OF A LOAD AT ISSUE (R117, R248, R304): bytes of the store buffer first, then the L1 copy at stamp G or a
fill of it that has been answered, else a request to the home lode. -/
def State.loadPart (s : State) (e : Env) (op lane : Nat) (who : BitVec 64) (pol : Nat) (leaf : Leaf) (p : EPart) : State :=
  let asid := effAsid e.ctx.asid p.va
  let line := p.va / 128
  let (sm, sd) := s.sbPart e asid p
  let full := 2 ^ p.w - 1
  if sm = full then s.feed op lane p.sh sd 1
  else
    match s.l1Hit e asid line with
    | some d => s.feed op lane p.sh (fld d.toNat p.lo p.w &&& (full ^^^ sm) ||| sd) 1
    | none =>
      (s.feed op lane p.sh sd 0).sendReq
        { id := 0, core := e.core, wg := e.iss.wg, wave := e.iss.wave, lane := lane, op := op, sh := p.sh, q := e.lead,
          ctx := e.ctx.num, asid := asid, va := p.va, line := line, leaf := leaf, what := .load p.lo p.w sm,
          lvl := hintOf pol, l1 := pol < 3 && leaf.cattr ≠ 1 && !s.wgReplay e.iss.wg, stamp := s.gen e.core, word := e.iss.wordPc, who := who }

/-! Atomics (R85, R255 to R257). -/

/-- Width of an ATOM operation. -/
def atomWidth (op : Nat) : Nat := if op = 1 || op = 10 || op = 12 || op = 15 then 64 else 32

/-- The new value of an atomic (R255). -/
def atomNew (op old x cmp : Nat) : Nat :=
  match op with
  | 0 => (old + x) % 2 ^ 32
  | 1 => (old + x) % 2 ^ 64
  | 2 => if signed 32 x < signed 32 old then x else old
  | 3 => if signed 32 old < signed 32 x then x else old
  | 4 => min old x
  | 5 => max old x
  | 6 => old &&& x
  | 7 => old ||| x
  | 8 => old ^^^ x
  | 9 | 10 => x
  | 11 | 12 => if old = cmp then x else old
  | 13 => floatRes .f32 .rne ((f32F.decode old).add false (f32F.decode x))
  | 14 => (slOp sli32F .add old x).1
  | _ => floatRes .f64 .rne ((f64F.decode old).add false (f64F.decode x))

/-- The ATOM operation that an ATOMS operation has the effect of (R257). -/
def atomsOp (op : Nat) : Nat :=
  match op with
  | 0 => 0 | 1 => 2 | 2 => 3 | 3 => 7 | 4 => 6 | 5 => 8 | 6 => 9 | _ => 11

/-! Stores (R253). -/

/-- The code a store writes: bits of a raw type or page, else the value encoded, divided by its block's scale. -/
def storeVal (ty : Ty) (fmt : BitVec 4) (scale : Option Nat) (data : Nat) : Nat × BitVec 5 :=
  if rawTy ty || fmt = 0 then (data, 0)
  else
    let v := (tyFmt ty).decode data
    let v1 := if blockedFmt fmt.toNat then
        match scale with
        | some sc => if sc = 255 then .nan else v.scale (-((sc : Int) - 127))
        | none => v
      else v
    let (c, fl) := (pageFmt fmt.toNat).encode .rne false v1
    (c, if fmt = 12 || fmt = 13 then fl else 0)

/-! Service at the home lode. -/

def State.reqById (s : State) (id : Nat) : Option Req := s.reqs.find? fun r => r.id = id
def State.dropReq (s : State) (id : Nat) : State := { s with reqs := s.reqs.filter fun r => r.id ≠ id }
def State.modReq (s : State) (id : Nat) (f : Req → Req) : State :=
  { s with reqs := s.reqs.map fun r => if r.id = id then f r else r }

def Req.isLoad (r : Req) : Bool :=
  match r.what with
  | .load _ _ _ => true
  | _ => false

/-- A prefetch: a load for no result (R254). -/
def Req.prefetch (r : Req) : Bool := r.isLoad && r.op = 0

/-- A contribution to a reduction: it is no access of the V path, and orders nothing on its line (R291). -/
def Req.isRed (r : Req) : Bool :=
  match r.what with
  | .lred _ _ _ _ _ _ => true
  | _ => false

def Req.isWrite (r : Req) : Bool := !r.isLoad && !r.isRed

/-- The request is on its way: neither parked nor with a fault to return. -/
def Req.goes (r : Req) : Bool := !r.parked && r.cause.isNone

/-- Requests of one thread (R302 case a). -/
def Req.sameThread (a b : Req) : Bool := a.wg = b.wg && a.wave = b.wave && a.lane = b.lane

/-- An earlier request of the core for one of its lines comes first, a prefetch's fill among them (R304). -/
def State.reqBlocked (s : State) (r : Req) : Bool :=
  s.reqs.any fun x => x.core = r.core && (x.asid = r.asid || (x.q = r.q && x.ctx = r.ctx)) && x.born < r.born
    && (x.lines.any fun n => r.lines.contains n) && !x.isRed && !r.isRed && (x.goes || x.sameThread r)

/-- The access a request makes at its home. -/
def State.reqAcc (s : State) (r : Req) : Acc1 :=
  { q := r.q, asid := r.asid, va := r.va, leaf := r.leaf, hint := r.lvl, who := (s.recOfWg r.wg).map (·.id),
    die := r.core / 64, split := true }

/-- The packet of a core's request meets a closed port between its die and that of its home lode (R380). -/
def State.portShut (s : State) (r : Req) : Bool :=
  let a := s.reqAcc r
  s.portClosed (r.core / 64) (s.homeOf a.q a.va a.leaf / 64)

/-- A packet dropped at a closed port is counted; what it asked for never happens. -/
def State.dropPacket (s : State) (r : Req) : State := (s.incRf rPART_BND 16 32).dropReq r.id

/-- A request is answered; an access that does not allocate voids the fills that left before it (R304). -/
def State.endReq (s : State) (r : Req) : State :=
  let s1 := s.dropReq r.id
  if r.isLoad && r.l1 then s1 else s1.voidFills r.core r.asid r.line r.born

/-- The stores of a request have been performed (R188). -/
def State.storesDone (s : State) (r : Req) : State := r.stores.foldl (fun s x => s.bump x.wg x.wave .st (-1)) s

def State.feedReq (s : State) (r : Req) (x : Line) : State :=
  match r.what with
  | .load lo w sb => (s.feed r.op r.lane r.sh (fld x.toNat lo w &&& ((2 ^ w - 1) ^^^ sb)) 1).modResult r.op fun o => o.gathered s.clk
  | _ => s

/-- A load's line has been read: the load and those that merged with its fill are answered, and the fill is on its way
to L1 (R116, R304). -/
def State.answerLoad (s : State) (r : Req) (x : Line) : State :=
  let here (y : Req) : Bool := y.core = r.core && y.asid = r.asid && y.line = r.line && r.born < y.born
  let stop := minOr s.nextId ((s.reqs.filter fun y => here y && y.isWrite).map (·.born))
  let merged := if r.l1 then
      s.reqs.filter fun y => here y && y.isLoad && y.goes && y.stamp = r.stamp && y.born < stop && !s.wgReplay y.wg else []
  let s1 := (r :: merged).foldl (fun s y => (s.feedReq y x).endReq y) s
  if r.l1 && merged.all (fun y => y.l1) then
    let (n, s2) := s1.fresh
    { s2 with l1fills := s2.l1fills ++ [⟨n, r.core, r.asid, r.line, x, r.stamp⟩] }
  else s1

/-- Requests of lines of host or peer memory that are on their way are made anew: an answer read before counts no more
(R315). -/
def State.refetch (s : State) (p : Fill → Bool) : State :=
  let n := s.nextId
  { s with nextId := n + s.fills.length
           fills := s.fills.mapIdx fun i f => if f.ext && p f then { f with id := n + i, first := none } else f }

/-- MAINTENANCE OF ONE LINE AT ITS HOME LODE (R261): host-held copies are recalled; the line is written back, discarded,
or written back and dropped. A line that a PIN or HOLD contract keeps stays, as does a stuck or a staged one. A writeback
to a BUSY frame waits for the frame's command (R43). -/
def State.maintain (s0 : State) (r : Req) (kind level : Nat) : State :=
  let a := s0.reqAcc r
  let lode := s0.homeOf a.q a.va a.leaf
  let s := s0.wakeLode lode
  let done (s : State) : State := (s.endReq r).feed r.op r.lane 0 0 1 |>.modResult r.op fun o => o.gathered s.clk
  if level = 0 then done s
  else if s.extWrites.any fun w => w.reqs.contains r.id then s
  else
    match s.lineFor a.who lode a.asid r.line with
    | none =>
      let done (s : State) : State :=
        done (if kind = 1 then s.refetch fun f => f.lode = lode && f.asid = a.asid && f.line = r.line else s)
      if (s.tbFind lode a.asid a.va).isSome then done s
      else
        match s.walkInstall a.q lode a.asid a.va with
        | (.ok, s1) => done s1
        | (.wait, s1) | (.again, s1) => s1
        | (.fault c, s1) =>
          if c = .notPresent || c = .strata then done s1 else s1.modReq r.id fun x => { x with cause := some c }
    | some l =>
      let kept : Bool := l.stuck.isSome || l.staged.isSome || (match s.contractAt a.q a.asid a.va with
        | some c => c.kind ≠ kKeepout
        | none => false)
      let pin : Bool := match s.contractAt a.q a.asid a.va with
        | some c => c.kind = kPin
        | none => false
      let s1 := s.touch l (BitVec.allOnes 1024) true
      let back : Bool := l.dirty && !l.so && l.stuck.isNone && l.staged.isNone
        && ((kind = 0 && level = 2) || (kind = 2 && (level = 2 || !pin)))
      if kind = 1 then done (if kept then s1 else s1.dropLine l.id)
      else if back then
        let n := s1.nextId
        let (s2, _) := s1.writeback l.id
        if l.loc then
          { s2 with extWrites := s2.extWrites.map fun w => if w.id = n then { w with reqs := w.reqs ++ [r.id] } else w }
        else
          match s2.lineById l.id with
          | some y => if y.owed then s2 else done (if kind = 2 && !kept && y.stuck.isNone && !y.dirty then s2.dropLine l.id else s2)
          | none => done s2
      else done (if kind = 2 && !kept && !l.dirty then s1.dropLine l.id else s1)

/-- A scaled store's scale byte has been read: the element, encoded, is a store of its own (R253). It merges into the store
buffer where nothing of the core on its line came after it; else it goes to the line in its place. A part in the next
line is a request beside it. -/
def State.scaleArrives (s : State) (r : Req) (code : Nat) : State :=
  match r.what with
  | .scaled _ _ ba w _ _ _ buf rest =>
    let lo := ba % 1024
    let m := BitVec.ofNat 1024 ((2 ^ w - 1) <<< lo)
    let d := BitVec.ofNat 1024 (code <<< lo)
    let with_ (m d : Line) : List SbStore := r.stores.map fun x => { x with mask := m, data := d }
    let later : Bool := (s.sbAt r.core r.asid r.line).isSome
      || s.reqs.any fun x => x.core = r.core && x.asid = r.asid && r.born < x.born && x.lines.contains r.line
    if buf && !later then
      (with_ m d).foldl (fun s x => (s.sbMerge r.core r.asid r.line r.lvl r.leaf r.ctx x).bump x.wg x.wave .st (-1)) (s.dropReq r.id)
    else
      let s1 := (s.modReq r.id fun x => { x with what := .store m d, stores := with_ m d }).l1Update r.core r.asid r.line m d
      match rest with
      | none => s1
      | some (va, leaf) =>
        let k := 1024 - lo
        let m2 := BitVec.ofNat 1024 (2 ^ (w - k) - 1)
        let d2 := BitVec.ofNat 1024 (code >>> k)
        let (n, s2) := s1.fresh
        let y : Req := { r with id := n, va := va, line := va / 128, leaf := leaf, what := .store m2 d2, stores := with_ m2 d2 }
        let s3 : State := { s2 with reqs := s2.reqs ++ [y] }
        ((with_ m2 d2).foldl (fun s x => s.bump x.wg x.wave .st 1) s3).l1Update r.core r.asid (va / 128) m2 d2
  | _ => s

/-- SERVICE OF A REQUEST AT ITS HOME LODE (R21, R85, R253, R256): performed, faulted, or still waiting. -/
def State.serve (s : State) (r : Req) : State :=
  let a := s.reqAcc r
  let bad (s : State) (c : Cause) : State := s.modReq r.id fun x => { x with cause := some c }
  match r.what with
  | .load lo w _ =>
    -- a fill of L1 reads both halves (R311)
    match s.readLine a (if r.l1 then BitVec.allOnes 1024 else lineBits lo w) with
    | (.ok x, s1) => s1.answerLoad r x
    | (.fault c, s1) => bad s1 c
    | (.wait, s1) => s1
  | .store mask data =>
    match s.writeLine a mask data (r.stores.map fun x => (x.wg, x.wave, x.lane)) with
    | (.ok (), s1) => (s1.endReq r).storesDone r
    | (.fault c, s1) => bad s1 c
    | (.wait, s1) => s1
  | .atomic op lo w x cmp =>
    match s.ensure a with
    | (.ok l, s1) =>
      if l.poison then bad s1 .ue
      else
        let old := fld l.data.toNat lo w
        let new := atomNew op old x.toNat cmp.toNat
        match (s1.touch l (lineBits lo w) false).writeLine a (lineBits lo w) (BitVec.ofNat 1024 (new <<< lo))
            [(r.wg, r.wave, r.lane)] with
        | (.ok (), s2) => (((s2.endReq r).bump r.wg r.wave .st (-1)).feed r.op r.lane r.sh old 1).modResult r.op
            fun o => o.gathered s.clk
        | (.fault c, s2) => bad s2 c
        | (.wait, s2) => s2
    | (.fault c, s1) => bad s1 c
    | (.wait, s1) => s1
  | .lred _ _ _ _ _ _ => s
  | .maint kind level => s.maintain r kind level
  | .scaled sva sleaf _ _ fmt ty data _ _ =>
    match s.readLine { a with va := sva, leaf := sleaf } (lineMask (sva % 128) 1) with
    | (.ok x, s1) => s1.scaleArrives r (storeVal ty (BitVec.ofNat 4 fmt) (some (lineByte x (sva % 128)).toNat) data.toNat).1
    | (.fault c, s1) => s1.modReq r.id fun x => { x with cause := some c, sh := 1 }
    | (.wait, s1) => s1

/-! Releases, acquires and fences (R117, R118, R253, R259). -/

/-- A context's writes to host memory that the host has not completed (R259, H; R170: another context's are not waited
for): those under its ASID and under the global half's. -/
def State.hostIdle (s : State) (q : Nat) (asid : BitVec 16) : Bool :=
  let mine (a : Option (BitVec 16)) : Bool := a = some asid || a = some 0
  (s.extWrites.all fun w => !(w.q = q && mine w.asid))
    && s.lines.all fun l => !(l.loc && l.dirty && l.staged.isNone && s.leadOfLode l.lode = q && mine l.asid)

def Req.isAtomic (r : Req) : Bool :=
  match r.what with
  | .atomic _ _ _ _ _ => true
  | _ => false

/-- Every earlier operation of a wave on the paths of a mask (V 0, C 1, M 2, L 3, H 4) is complete; `n` numbers the
operation that waits. A release of a scope wider than wave waits for every entry the core's store buffer held before it
(R117); a fence with V waits for the wave's own stores in any scope (R253, R259, R301), which include those that another
wave's later store shares an entry with. -/
def State.pathsDone (s : State) (wg k core n : Nat) (scope : BitVec 3) (rel fence : Bool) (mask : BitVec 5) : Bool :=
  let w := s.wave? wg k
  let c := (w.map (·.cnt)).getD {}
  let mine (r : Req) : Bool := (r.wg = wg && r.wave = k) || r.stores.any fun x => x.wg = wg && x.wave = k
  let loads := s.results.all fun r => !(r.wg = wg && r.wave = k && r.cnt = some .ld && r.id < n)
  let done (p : Req → Bool) : Bool := s.reqs.all fun r => !(r.isWrite && r.born < n && p r)
  let drained := s.sbuf.all fun e => !(e.core = core && e.stores.any fun x => x.wg = wg && x.wave = k)
  (!bitAt mask 0 || (loads && done mine && (drained || (scope = 0 && !fence))))
    && (!(rel || bitAt mask 0) || scope = 0 || done fun r => r.core = core)
    && (!bitAt mask 1 || c.copy = 0) && (!bitAt mask 2 || c.mma = 0)
    && (!bitAt mask 3 || (c.lode = 0 && c.ctr = 0 && loads && done fun r => mine r && r.isAtomic))
    && (!bitAt mask 4 || match s.wg? wg with
      | some g => s.hostIdle g.ctx.q g.ctx.asid
      | none => true)

/-- Starts write-back of a context's host-memory lines, for H in a before-mask. -/
def State.flushHost (s : State) (q : Nat) (asid : BitVec 16) : State :=
  ((s.lines.filter fun l => l.loc && l.dirty && s.leadOfLode l.lode = q && (l.asid = some asid || l.asid = some 0)).map (·.id)).foldl
    (fun s id => (s.writeback id).1) s

/-- A WORD THAT IS A RELEASE (R253, R256, R271): on its first try the store buffer drains, unless the scope is wave; it
is held until the paths it covers are complete, and then has its effect. -/
def State.release (s : State) (e : Env) (scope : BitVec 3) (mask : BitVec 5) (k : State → State) : State :=
  let clear (s : State) : State := s.modHead fun c => { c with await := none }
  let done (s : State) (n : Nat) : Bool := s.pathsDone e.iss.wg e.iss.wave e.core n scope true false mask
  match e.iss.await with
  | some n => if done s n then k (clear s) else s.hold
  | none =>
    let s0 := if scope ≠ 0 then s.drainCore e.core else s
    let (n, s1) := s0.fresh
    if done s1 n then k s1
    else (s1.modHead fun c => { c with await := some n }).hold

/-- LINES OF HOST MEMORY filled before an acquire that covers H are not read again from their lode (R259, R315): a dirty
one is written back first, and a line that is on its way is requested anew. -/
def State.dropHostLines (s : State) (q : Nat) : State :=
  ((s.lines.filter fun l => l.loc && s.leadOfLode l.lode = q).foldl (fun s l => (s.writeback l.id).1.dropLine l.id) s).refetch
    fun f => s.leadOfLode f.lode = q

/-- A word of classes 1 to 4: it is held while an acquire, a fence or maintenance of the wave is incomplete (R252,
R259, R261). -/
def memWord (h : Hdr) (role : Option Role) (u : Uses) (body : Env → State → State) (s : State) :
    Host.Outcome State Fault Refusal :=
  match s.env? h with
  | none => .fault .noIssue
  | some e => .next (if e.w.holds ≠ [] then s.holdOn e.w.holds else s.issueWord e h role u (body e))

end Sys2Proof.Machine
end

