-- ==== Sys2Proof/Machine/Tumbler.lean ====
section
/-! DEFINITION. The Tumbler and the engines of translation: driver commands (R44), the balloon and reclaim (R37, R38),
capacity (R35), stuck lines (R40), migration (R67), walks, installs and fills (R60, R66, R373), and the steps of a
page-table shoot-down (R63, R64). Each event of these chapters has its meaning here. -/
namespace Sys2Proof.Machine

/-! Driver commands (R44, R49). -/

/-- A command ends: its result stands, busy falls, cmd_done is raised. -/
def State.tmbEnd (s : State) (q res : Nat) : State :=
  ({ (s.setRf (rTMB_CMD_STAT q) 1 3 res).setRf (rTMB_CMD_STAT q) 0 1 0 with
      tmbRuns := s.tmbRuns.filter fun r => r.q ≠ q } : State).tmbEvent 24 q

def FState.code : FState → Nat
  | .empty => 0 | .compressed => 1 | .raw => 2 | .balloon => 3 | .reclaimed => 4 | .busy => 5

/-- Stuck lines of a frame. -/
def State.frameStuck (s : State) (f : Nat) : Bool := s.lines.any fun l => l.stuck.isSome && l.frame = f && !l.loc && !l.so

/-- Every line of a frame that any lode holds is written back and dropped. -/
def State.purgeFrame (s : State) (f : Nat) : State :=
  ((s.lines.filter fun l => l.frame = f && !l.loc && !l.so && !l.shadow).map (·.id)).foldl (fun s id =>
    match s.lineById id with
    | none => s
    | some l =>
      let (s1, ok) := (s.touch l (BitVec.allOnes 1024) true).writeback id
      if ok then s1.dropLine id else s1) s

/-- Classes of a frame's stored lines under a format (R29, R32). -/
def State.classesOf (s : State) (f : Nat) (fmt : BitVec 4) : SMap Nat :=
  (List.range 512).foldl (fun m j => SMap.put 0 m j (sizeClass (s.storedLine f j) fmt.toNat)) []

def sumClasses (m : SMap Nat) : Nat := m.foldl (fun a e => a + e.2) 0

/-- Flakes an operation needs beyond those the frame holds (R37). -/
def State.tmbNeed (s : State) (op f : Nat) (fmt : BitVec 4) (lode : Nat) : Nat :=
  let x := s.frame f
  if op = 4 then 64 - x.flakes.length
  else if op = 6 then (x.flakes.filter fun n => flakeLode n ≠ lode).length
  else flakesFor (sumClasses (s.classesOf f fmt)) - x.flakes.length

/-- States in which commands 3 to 6 run (R44). For MIGRATE the table names STATE without the states: the model takes a frame
that holds, or may hold, flakes, so that BALLOON, RECLAIMED and BUSY are refused (DESIGN CHOICE, log 67). -/
def tmbStateOk (op : Nat) (st : FState) : Bool :=
  match op with
  | 3 | 4 => st = .compressed
  | 5 => st = .raw || st = .compressed
  | _ => st = .raw || st = .compressed || st = .empty

/-- Draws up to `n` flakes on the target lode's channels (R34, R44): the frame holds them twice until the move ends.
Where those channels hold fewer, the rest of the frame stays on the channels it has. A request of a RAW frame that reached
the pool before is not passed (R36). -/
def State.takeOn (s : State) (q f lode n : Nat) : Option (State × Nat) :=
  if n ≠ 0 && s.poolHeld q f s.nextId then none
  else
    let k := min n (s.lodeOf lode).flakes
    let (l, x) := (s.lodeOf lode).drawFlakes lode k
    let s1 := if k = 0 then s else s.modLode lode fun _ => x
    some ((s1.setFrame f { s1.frame f with flakes := (s1.frame f).flakes ++ l }).setFree q (s.freeOf q - k), k)

/-- Ends a move (R31, R44): `k` flakes on other channels go back, and the target becomes the storage lode, but where more of
the frame has stayed elsewhere. -/
def State.endMove (s : State) (f lode k : Nat) : State :=
  let x := s.frame f
  let other := x.flakes.filter fun n => flakeLode n ≠ lode
  let fl := (x.flakes.filter fun n => flakeLode n = lode) ++ other.drop k
  (s.setFrame f { x with flakes := fl, slode := some (mostOn fl lode) }).giveFlakes (other.take k)

/-- The class of every line of a RAW frame, as the directory records it (R32). -/
def rawClasses : SMap Nat := (List.range 512).foldl (fun m j => SMap.put 0 m j 128) []

/-- Commands 3 to 6 once no stuck line is left: refused at once, or the frame is BUSY until the command ends. A command
never waits for flakes, so one that would have to wait behind a RAW frame's request is refused (R36, R44; log 67). One that
needs no flake while free is below lwm the manual leaves between its table (NO_SPACE where flakes are needed) and its text (free
against lwm plus the need): the model follows the text and refuses it (DESIGN CHOICE, log 67). -/
def State.tmbStart (s : State) (r : TmbRun) : State :=
  let x := s.frame r.frame
  if !tmbStateOk r.op x.st then s.tmbEnd r.q 3
  else
    let need := s.tmbNeed r.op r.frame r.fmt r.lode
    let got := if s.freeOf r.q < s.lwm r.q + need then none
      else if r.op = 6 then s.takeOn r.q r.frame r.lode need
      else (s.takeFlakes r.q r.frame need s.nextId).map fun s => (s, 0)
    match got with
    | none => s.tmbEnd r.q 4
    | some (s1, k) =>
      let y := s1.frame r.frame
      let y1 : Frame := match r.op with
        | 4 => { y with st := .busy, cls := rawClasses }
        | 6 => { y with st := .busy, cls := if x.st = .raw then rawClasses else y.cls }
        | _ => { y with st := .busy, fmt := r.fmt, cls := s.classesOf r.frame r.fmt }
      let run := { r with started := true, extra := k, st := if r.op = 4 then .raw else if r.op = 6 then x.st else .compressed }
      { s1.setFrame r.frame y1 with tmbRuns := (s1.tmbRuns.filter fun z => z.q ≠ r.q) ++ [run] }

/-- A frame leaves the balloon, whichever partition's block lists it; work on the next begins where it was the oldest (R38). -/
def State.unballoon (s : State) (out : Nat → Bool) : State :=
  (List.range 4).foldl (fun s q => s.modTmb q fun t =>
    { t with balloon := t.balloon.filter (fun f => !out f), taken := t.taken.filter (fun f => !out f),
             begun := if t.balloon.head?.any out then s.clk else t.begun }) s

/-- A frame returned to the balloon's donor or taken by reclaim reads 0 when it is next used (R32, R38). -/
def State.emptyFrame (s : State) (f : Nat) (st : FState) : State :=
  State.setFrame { s with mem := Memory.clear s.mem (65536 * f) 65536 } f { st := st }

/-- A WRITE OF TMB_CMD (R44): BUSY, BAD_OP, BAD_FRAME, WORLD and STATE in this order, which the manual leaves open (DESIGN
CHOICE, log 67), then the command. `sec` is the world of the write. -/
def State.tmbCommand (s : State) (q op : Nat) (fmt : BitVec 4) (lode f : Nat) (sec : Bool) : State :=
  let st := rTMB_CMD_STAT q
  if !s.leads q then s
  else if s.rf st 0 1 = 1 then s.setRf st 1 3 1
  else if 7 ≤ op then s.tmbEnd q 6
  else if !s.ownsFrame q f || (op = 6 && !(s.partLodes q).contains lode) then s.tmbEnd q 2
  else if !sec && s.frameSecure q f then s.tmbEnd q 5
  else
    let x := s.frame f
    let hold : TmbRun := ⟨q, op, f, fmt, lode, true, 0, x.st, 0⟩
    let begin_ (s : State) (r : TmbRun) : State :=
      { s.setRf st 0 1 1 with tmbRuns := (s.tmbRuns.filter fun z => z.q ≠ q) ++ [r] }
    match op with
    | 0 =>
      let s1 := (((s.setRf st 4 7 x.flakes.length).setRf st 11 3 x.st.code).setRf st 14 4 x.fmt.toNat).setRf st 18 8 (s.slode f)
      begin_ s1 hold
    | 1 =>
      if (s.rmapOf f).isSome || x.st = .busy || x.st = .balloon || x.st = .reclaimed || s.frameStuck f then s.tmbEnd q 3
      else
        let s1 := s.purgeFrame f
        if s1.frameStuck f then s1.tmbEnd q 3
        else
          let y := s1.frame f
          let (n, s2) := s1.fresh
          let s3 := (s2.setFrame f { y with st := .balloon, prior := y.st, donated := n }).modTmb q fun t =>
            { t with balloon := t.balloon ++ [f] }
          let s4 := if s1.freeOf q < s1.lwm q || 0 < s1.sdCount q + s1.hostCount q then s3.startReclaim q else s3
          begin_ s4 { hold with st := .balloon }
    | 2 =>
      let s1 := s.unballoon fun g => g = f
      if x.st = .balloon then begin_ (s1.setFrame f { x with st := x.prior, prior := .empty, donated := 0 }) { hold with st := x.prior }
      else if x.st = .reclaimed then begin_ (s1.emptyFrame f .empty) { hold with st := .empty }
      else s.tmbEnd q 3
    | _ =>
      if !tmbStateOk op x.st then s.tmbEnd q 3
      else begin_ s { hold with started := false }

/-- The lines whose writeback waited for their frame's command are written back (R43); one that no lode keeps leaves. -/
def State.payOwed (s : State) (f : Nat) : State :=
  (s.lines.filter fun l => l.owed && l.frame = f && !l.loc && !l.so).foldl (fun s l =>
    let (s1, ok) := s.writeback l.id
    if ok && l.transit then s1.dropLine l.id else s1) s

/-- The end of the command that runs, or its start where it waited for stuck lines (R43, R44). -/
def State.tmbDone (s : State) (q : Nat) : State :=
  match s.tmbRuns.find? fun r => r.q = q with
  | none => s
  | some r =>
    if !r.started then (if s.frameStuck r.frame then s else s.tmbStart r)
    else
      let x := s.frame r.frame
      if x.st ≠ .busy then s.tmbEnd q r.result
      else
        let s1 := s.setFrame r.frame { x with st := r.st, cls := if r.st = .raw then [] else x.cls,
                                              fmt := if r.st = .raw then 0 else x.fmt }
        let s2 := if r.op = 6 then s1.endMove r.frame r.lode r.extra
          else if r.st = .compressed then s1.trimFrame r.frame
          else s1
        (s2.payOwed r.frame).tmbEnd q r.result

def execQuery (q frame : Nat) (sec : Bool) (s : State) : Host.Outcome State Fault Refusal :=
  .next (s.tmbCommand q 0 0 0 frame sec)
def execDonate (q frame : Nat) (sec : Bool) (s : State) : Host.Outcome State Fault Refusal :=
  .next (s.tmbCommand q 1 0 0 frame sec)
def execWithdraw (q frame : Nat) (sec : Bool) (s : State) : Host.Outcome State Fault Refusal :=
  .next (s.tmbCommand q 2 0 0 frame sec)
def execRecode (q frame : Nat) (fmt : BitVec 4) (sec : Bool) (s : State) : Host.Outcome State Fault Refusal :=
  .next (s.tmbCommand q 3 fmt 0 frame sec)
def execToRaw (q frame : Nat) (sec : Bool) (s : State) : Host.Outcome State Fault Refusal :=
  .next (s.tmbCommand q 4 0 0 frame sec)
def execToCmp (q frame : Nat) (fmt : BitVec 4) (sec : Bool) (s : State) : Host.Outcome State Fault Refusal :=
  .next (s.tmbCommand q 5 fmt 0 frame sec)
def execMigrate (q frame lode : Nat) (sec : Bool) (s : State) : Host.Outcome State Fault Refusal :=
  .next (s.tmbCommand q 6 0 lode frame sec)
/-- Operations 7 to 15 (R44): BAD_OP; one of 0 to 6 named here is that command on frame 0. -/
def execTmbBadOp (q : Nat) (op : BitVec 4) (sec : Bool) (s : State) : Host.Outcome State Fault Refusal :=
  .next (s.tmbCommand q op.toNat 0 0 0 sec)
def execTmbCmdDone (q : Nat) (s : State) : Host.Outcome State Fault Refusal :=
  .next (s.transact (fun s => s.tmbDone q) id)

/-! Reclaim (R37, R38, R40, R357). -/

/-- The oldest stuck line of the partition is written back where its flakes can be had (R40). -/
def State.unstick (s : State) (q : Nat) : State :=
  let mine := s.lines.filter fun l => l.stuck.isSome && s.leadOfLode l.lode = q
  match minBy (fun l => l.stuck.getD 0) mine with
  | none => s
  | some l => (s.writeback l.id).1

/-- As many of the partition's stuck lines as the free flakes allow are written back. -/
def State.unstickAll (s : State) (q : Nat) : Nat → State
  | 0 => s
  | n + 1 =>
    let t := s.unstick q
    if t.sdCount q + t.hostCount q < s.sdCount q + s.hostCount q then t.unstickAll q n else s

/-- Reclaim is to stop (R37): free would stand at hwm or above with no stuck line left once the writebacks that the free
flakes allow have been made, so that every interleaving with them stops alike (R357). -/
def State.reclaimOver (s : State) (q : Nat) : Bool :=
  let t := s.unstickAll q (s.sdCount q + s.hostCount q)
  t.hwm q ≤ t.freeOf q && t.sdCount q + t.hostCount q = 0

/-- Reclaim stops where it is over, or where no BALLOON frame is left (R37). -/
def State.reclaimStop (s : State) (q : Nat) : State :=
  if s.reclaimOver q then s.modTmb q fun t => { t with reclaiming := false }
  else if (s.tmbOf q).balloon = [] then (s.modTmb q fun t => { t with reclaiming := false }).tmbEvent 4 q
  else s

/-- The oldest BALLOON frame gives all its flakes at once; work on the next begins (R38, R357). -/
def State.reclaimFrame (s : State) (q at_ : Nat) : State :=
  match (s.tmbOf q).balloon with
  | [] => s
  | f :: r =>
    let fl := (s.frame f).flakes
    (((s.emptyFrame f .reclaimed).modTmb q fun t =>
      { t with balloon := r, taken := t.taken ++ [f], begun := at_ }).giveFlakes fl).reclaimStop q

/-- One step of reclaim (R357): it stops, or the frame it works on gives its flakes, 512 clk at the earliest after it began. -/
def State.reclaim (s : State) (q : Nat) : State :=
  if !(s.tmbOf q).reclaiming then s
  else
    let s1 := s.reclaimStop q
    if (s1.tmbOf q).reclaiming && (s1.tmbOf q).begun + 512 ≤ s1.clk then s1.reclaimFrame q s1.clk else s1

/-- Frames that the Tumbler has worked on for 4,096 clk give their flakes, whatever else moves (R357). -/
def State.reclaimDue (s : State) (q : Nat) : Nat → State
  | 0 => s
  | n + 1 =>
    if !(s.tmbOf q).reclaiming then s
    else
      let s1 := s.reclaimStop q
      let at_ := (s1.tmbOf q).begun + 4096
      if (s1.tmbOf q).reclaiming && at_ ≤ s1.clk then (s1.reclaimFrame q at_).reclaimDue q n else s1

def execBalloonReclaim (q : Nat) (s : State) : Host.Outcome State Fault Refusal := .next (s.reclaim q)

def execStuckLineWriteback (q : Nat) (s : State) : Host.Outcome State Fault Refusal :=
  .next (s.transact (fun s => s.unstick q) id)

/-- The whole waiting request of a RAW frame is granted, in its place (R32, R36). -/
def execRawFlakesGranted (frame : Nat) (s : State) : Host.Outcome State Fault Refusal :=
  .next (if s.rawWait.any fun w => w.2 = frame then s.grantRaw (s.frameLead frame) frame else s)

/-- A lode evicts a line, or cleans one it must keep (R39, R76): host-held halves are recalled, a dirty line is written
back, and a line no contract keeps is dropped. A stuck line is never evicted: the Tumbler drains it in its turn (R40). -/
def State.evict (s : State) (id : Nat) : State :=
  match s.lineById id with
  | none => s
  | some l =>
    if l.so || l.staged.isSome || l.shadow || l.stuck.isSome then s
    else
      let kept := (s.lineContract l).any fun c => c.kind ≠ kKeepout
      if s.lineUnder l kPin then s
      else
        let (s1, ok) := (s.touch l (BitVec.allOnes 1024) true).writeback id
        if ok && !kept then s1.dropLine id else s1

def execLineWriteback (id : Nat) (s : State) : Host.Outcome State Fault Refusal :=
  .next (s.transact (fun s => s.evict id) fun x => x)

/-! Capacity (R35, R46). -/

/-- Advertised frames of a partition: its share by physical HBM. -/
def State.capFrames (s : State) (q cap : Nat) : Nat :=
  let ok := ((List.range 4).filter s.dieOk).length
  cap * 16384 * (s.quartersOf q).length / (if ok = 0 then 1 else ok)

/-- Directory entries take `n` flakes from the lodes' channels in order, or give them back (R35). -/
def State.dirLodes (s : State) (take : Bool) : List Nat → Nat → State
  | [], _ => s
  | a :: r, n =>
    let k := if take then min n (s.lodeOf a).flakes else cdiv n (r.length + 1)
    (if k = 0 then s else s.modLode a fun x => if take then x.reserve k else x.release k).dirLodes take r (n - k)

/-- Flakes of a partition's stacks that its directory holds: those that are neither in the pool nor gone for good (R35,
R365). -/
def State.dirNow (s : State) (q : Nat) : Nat :=
  (s.partLodes q).foldl (fun a n => a + (Config.flakesPerLode - (s.lodeOf n).gone.length)) 0 - s.rf (rTMB_POOL q) 0 32

/-- The directory of a partition grows or shrinks to 512 B for each of `frames`: total and free change by the same number
(R35). -/
def State.dirFlakes (s : State) (q frames : Nat) : State :=
  let old := s.dirNow q
  let new := frames / 2
  let n := if old ≤ new then new - old else old - new
  let s1 := s.dirLodes (old ≤ new) (s.partLodes q) n
  let f (x : Nat) : Nat := if old ≤ new then x - n else x + n
  (s1.setRf (rTMB_POOL q) 0 32 (f (s1.rf (rTMB_POOL q) 0 32))).setFree q (f (s1.freeOf q))

/-- An accepted change of the advertised capacity, in one partition. -/
def State.setCap (s : State) (q cap : Nat) : State :=
  let old := s.frameCount q
  let new := s.capFrames q cap
  let base := s.frameBase q
  let gone := s.frames.filter fun e => base + new ≤ e.1 && e.1 < base + old
  let fl := gone.flatMap fun e => e.2.flakes
  let s1 : State := { s with frames := SMap.drop (fun k => base + new ≤ k && k < base + old) s.frames,
                             mem := gone.foldl (fun m e => Memory.clear m (65536 * e.1) 65536) s.mem }
  let s2 := (s1.unballoon fun f => base + new ≤ f && f < base + old).giveFlakes fl
  (s2.dirFlakes q new).setRf (rPART_ILN q) 0 36 new

/-- A write of TMB_CTL (R35, R46). -/
def State.writeTmbCtl (s : State) (v : Word) : State :=
  let cap := wfld v 8 11
  let cur := s.rf rTMB_CTL 8 11
  let en := s.rf rTMB_CTL 0 1 = 1 || wfld v 0 1 = 1
  let s1 := if en then s.setRf rTMB_CTL 0 1 1 else s
  let qs := s1.leadList
  if cap = cur && qs.all fun q => s1.dirNow q = s1.capFrames q cap / 2 then s1
  else
    let low := qs.any fun q => s1.frames.any fun e =>
      s1.frameBase q + s1.capFrames q cap ≤ e.1 && s1.ownsFrame q e.1
        && e.2.st ≠ .empty && e.2.st ≠ .balloon && e.2.st ≠ .reclaimed
    let grow := qs.any fun q =>
      s1.freeOf q - s1.lwm q < s1.capFrames q cap / 2 - s1.dirNow q
    if cap < 768 || 1536 < cap || (!en && cap ≠ 768) || (cap < cur && low) || (cur ≤ cap && grow) then s1.tmbEvent 28 0
    else (qs.foldl (fun s q => s.setCap q cap) s1).setRf rTMB_CTL 8 11 cap

def execTmbCtlWrite (v : Word) (_sec : Bool) (s : State) : Host.Outcome State Fault Refusal := .next (s.writeTmbCtl v)

/-! Migration (R67). -/

/-- Physical address of the entry that maps an address, by a walk (R53). -/
def State.leafPa (s : State) (q : Nat) (asid : BitVec 16) (va : Nat) : Option Nat :=
  let w0 := (s.readPhysN (4096 * s.rf (rXLT_ROOT q) 12 40 + 8 * asid.toNat) 8).1
  let step (acc : Nat × Option Nat) (lv : Nat) : Nat × Option Nat :=
    match acc.2 with
    | some _ => acc
    | none =>
      let (lo, n) := levelBits lv
      let pa := acc.1 + 8 * fld va lo n
      let w := (s.readPhysN pa 8).1
      if fld w 1 1 = 1 || lv = 4 then (0, some pa) else (256 * fld w 8 44, none)
  ((([0, 1, 2, 3, 4] : List Nat).foldl step (256 * fld w0 8 44, none))).2

/-- MIGRATE's move as one step, for the Tumbler's own migrations: it waits for the frame's stuck lines and for free to
stand at lwm plus the flakes it needs (R37, R44). -/
def State.moveFlakes (s : State) (q f lode : Nat) : Option State :=
  let need := s.tmbNeed 6 f 0 lode
  if s.frameStuck f || s.freeOf q < s.lwm q + need then none
  else (s.takeOn q f lode need).map fun x => x.1.endMove f lode x.2

/-- The accesses that gather a host page at its lines' home lodes. -/
def Migration.accs (m : Migration) (l : Leaf) : List Acc1 :=
  (List.range 512).map fun j => { q := m.q, asid := m.asid, va := m.page + 128 * j, leaf := l, die := m.lode / 64 }

/-- The lines of a host page, wherever in the partition they are homed. -/
def State.pageLines (s : State) (m : Migration) : List LLine :=
  s.lines.filter fun l => l.ofPage l.lode m.asid m.page 65536 && l.loc && s.leadOfLode l.lode = m.q

/-- Flakes that the copy of a host page needs in the supplied frame (R33, R37). -/
def State.hostNeed (s : State) (m : Migration) (l : Leaf) : Nat :=
  let f := s.rf (rXLT_MIGFRAME m.q) 0 36
  let x := (s.fixStorage f ({ l with loc := false } : Leaf).request).frame f
  (if x.st = .raw then 64
    else flakesFor ((s.pageLines m).foldl (fun a y => a + sizeClass y.data x.fmt.toNat) 0)) - x.flakes.length

/-- The Tumbler's copy of a host page into the supplied device frame (R67), once the home lodes hold all of it: the
frame is stored by the leaf's request (R33), the page's lines and its translation-buffer entries leave the lodes, and the
leaf is rewritten, which starts its shoot-down (R63). A poisoned line stays poisoned (R358). -/
def State.moveHostPage (s : State) (m : Migration) (e : TbEntry) (pa : Nat) : State :=
  let f := s.rf (rXLT_MIGFRAME m.q) 0 36
  let s1 := s.fixStorage f ({ e.leaf with loc := false } : Leaf).request
  let s2 := (s.pageLines m).foldl (fun s l =>
    let t := (s.mergePhys f l.off (BitVec.allOnes 1024) l.data false).dropLine l.id
    if l.poison then t.poisonPhys f l.off else t) s1
  let s3 : State := { s2 with tb := s2.tb.filter fun x =>
    !(x.asid = m.asid && x.page = m.page && s2.leadOfLode x.lode = m.q) }
  let (w, s4) := s3.readPhysN pa 8
  let w1 := wset (wset (BitVec.ofNat 64 w) 21 1 0) 24 36 f
  let old := e.leaf.frame
  let s5 := s4.writePhysN pa 8 w1.toNat
  let s6 := ((s5.setRf (rXLT_MIGFRAME m.q) 36 1 0).setRf (rXLT_MIGFRAME m.q) 37 1 1).setRf (rXLT_MIGFRAME m.q) 38 26 (old / 1024)
  let s7 := s6.setRf (rXLT_SYNC m.q) 2 10 (old % 1024)
  if s7.rf (rXLT_MIG m.q) 2 1 = 1 then s7.raise m.q 1 else s7

/-- One queued migration runs; it queues behind driver commands (R44, R67). A page of peer memory is never selected (R373). -/
def State.migrateNext (s : State) (q : Nat) : State :=
  match s.migrations.find? fun m => m.q = q with
  | none => s
  | some m =>
    let drop (s : State) : State := { s with migrations := s.migrations.erase m }
    if s.rf (rTMB_CMD_STAT q) 0 1 = 1 then s
    else if !m.host then
      let st := (s.frame m.frame).st
      if st ≠ .raw && st ≠ .compressed then drop s else ((s.moveFlakes q m.frame m.lode).map drop).getD s
    else
      match s.tbFind m.lode m.asid m.page, s.leafPa q m.asid m.page with
      | some e, some pa =>
        if !e.leaf.loc || s.rf (rXLT_MIG q) 1 1 = 0 || s.rf (rXLT_MIGFRAME q) 36 1 = 0 || (s.aperture e.leaf.frame).isSome then drop s
        else
          match s.ensureAll (m.accs e.leaf) with
          | (.ok (), s1) =>
            if s1.freeOf q < s1.lwm q + s1.hostNeed m e.leaf then s1 else (drop s1).moveHostPage m e pa
          | (.fault _, s1) => drop s1
          | (.wait, s1) => s1
      | _, _ => drop s

def execTumblerMigration (q : Nat) (s : State) : Host.Outcome State Fault Refusal :=
  .next (s.transact (fun s => s.migrateNext q) id)

/-! Walks, installs and fills (R60, R66, R68, R373). -/

/-- A request's fault, where `at_` holds of its scale byte's address or of its own. -/
def Req.faultAt (r : Req) (at_ : Nat → Leaf → Bool) (c : Cause) : Req :=
  if !r.goes then r
  else if r.scale.any fun x => at_ x.1 x.2 then { r with cause := some c, sh := 1 }
  else if at_ r.va r.leaf then { r with cause := some c }
  else r

/-- Requests at a lode under an address's page get a fault. -/
def State.faultPage (s : State) (lode : Nat) (asid : BitVec 16) (va : Nat) (c : Cause) : State :=
  { s with reqs := s.reqs.map fun r => if r.asid ≠ asid then r else
      r.faultAt (fun v l => v / 65536 = va / 65536 && s.homeOf r.q v l = lode && (s.lineAt lode asid (v / 128)).isNone) c }

/-- A walk is complete: its leaf is installed, its fault returned, or it is made again later (R60). A leaf that waits in the
walker is one its lode holds: the page-table lines that its walk read have the lode's bit (R62). -/
def State.walkDone (s : State) (w : Walk) : State :=
  let s0 : State := { s with walks := s.walks.filter fun x => x.id ≠ w.id }
  let k := s0.walk (s0.leadOfLode w.lode) w.asid w.va
  match s0.walkShut w.lode w.asid w.va k.path, k.res with
  | some p, _ => s.shutAt p
  | none, .error c => k.st.faultPage w.lode w.asid w.va c
  | none, .ok l =>
    match k.st.install (k.st.leadOfLode w.lode) w.lode w.asid w.va l k.path with
    | (.ok, s1) => s1
    | (.fault c, s1) => s1.faultPage w.lode w.asid w.va c
    | (.again, s1) => { s1 with walks := s.walks }
    | (.wait, s1) =>
      { s1.trackAll k.path none (some w.lode) with deferred := s1.deferred ++ [⟨w.id, w.lode, w.asid, w.va, l, k.path⟩] }

def execPageWalkComplete (id : Nat) (s : State) : Host.Outcome State Fault Refusal :=
  .next (match s.walks.find? fun w => w.id = id with
    | none => s
    | some w => s.transact (fun s => s.walkDone w) fun x => x)

/-- Leaves that wait for their install are dropped, and their walks are made again. -/
def State.rewalk (s : State) (p : Deferred → Bool) : State :=
  { s with walks := s.walks ++ (s.deferred.filter p).map fun d => ⟨d.id, d.lode, d.asid, d.va⟩
           deferred := s.deferred.filter fun d => !p d }

/-- An install that waited for detached stuck lines (R60). -/
def execDeferredInstall (id : Nat) (s : State) : Host.Outcome State Fault Refusal :=
  .next (match s.deferred.find? fun w => w.id = id with
    | none => s
    | some w => s.transact (fun s =>
        match s.install (s.leadOfLode w.lode) w.lode w.asid w.va w.leaf w.path with
        | (.ok, s1) => { s1 with deferred := s1.deferred.filter fun x => x.id ≠ w.id }
        | (.fault c, s1) => State.faultPage { s1 with deferred := s1.deferred.filter fun x => x.id ≠ w.id } w.lode w.asid w.va c
        | (.again, s1) => State.rewalk s1 fun x => x.id = w.id
        | (.wait, s1) => s1) fun x => x)

/-- The translation-buffer entry under which a fill was made still stands. -/
def State.fillLive (s : State) (f : Fill) : Bool :=
  match s.tbFind f.lode f.asid (128 * f.line) with
  | some e => e.leaf.frameOf (128 * f.line) = f.leaf.frameOf (128 * f.line) && e.leaf.loc = f.leaf.loc
  | none => false

/-- The access that fills a line for the grant of a PIN contract. -/
def State.grantAcc (s : State) (f : Fill) : Acc1 :=
  { q := s.leadOfLode f.lode, asid := f.asid, va := 128 * f.line, leaf := f.leaf, die := f.lode / 64 }

/-- A fill for the grant of a PIN contract (R78): the line's page is installed at its home, and the line arrives, poisoned
where its bank has been lost meanwhile (R92); one of host memory is requested. -/
def State.grantFill (s : State) (f : Fill) : State :=
  let s0 : State := { s with fills := s.fills.filter fun x => x.id ≠ f.id }
  match s0.ensure (s.grantAcc f) with
  | (.ok l, s1) => if f.lost then s1.modLine l.id fun x => { x with poison := true } else s1
  | (.fault _, s1) => s1
  | (.wait, s1) =>
    if s1.fills.any fun x => x.lode = f.lode && x.asid = f.asid && x.line = f.line then s1 else { s1 with fills := s.fills }

/-- A fill from device memory returns (R22). A line whose entry has left meanwhile is not kept. -/
def execLineFillReturn (id : Nat) (s : State) : Host.Outcome State Fault Refusal :=
  .next (match s.fills.find? fun f => f.id = id && !f.ext with
    | none => s
    | some f => s.transact (fun s =>
        let s0 : State := { s with fills := s.fills.filter fun x => x.id ≠ id }
        if f.grant then s.grantFill f
        else if !s0.fillLive f || (s0.lineAt f.lode f.asid f.line).isSome then s0
        else
          match s0.fillDevice f.lode { q := s0.leadOfLode f.lode, asid := f.asid, va := 128 * f.line, leaf := f.leaf,
                                       hint := f.lvl } f.leaf with
          -- its packet was dropped at a closed port: no answer comes (R380)
          | (.wait, s1) => if s0.storeShut f.lode (f.leaf.frameOf (128 * f.line)) then { s1 with fills := s.fills } else s1
          | (_, s1) => s1) fun x => x)

/-- The request of a line of host or peer memory failed (R68): the requests and the engines that wait for it have their
fault, but for a store to a fenced peer, which is discarded when it is served (R374). -/
def State.fillFails (s : State) (f : Fill) : State :=
  let spared (r : Req) : Bool := (s.fencedFrame (f.leaf.frameOf (128 * f.line))).isSome && match r.what with
    | .store _ _ => true
    | _ => false
  { s with reqs := s.reqs.map (fun r => if r.asid ≠ f.asid || spared r then r else r.faultAt (fun v _ => v / 128 = f.line) .hostErr),
           hostFails := s.hostFails ++ f.engs.map fun n => (n, f.lode, f.asid, f.line) }

/-- A line of host or peer memory arrives, or its request failed (R66, R68, R373, R374). Host memory is reached in 64 B
lines (R369): its first 64 B are kept until the others arrive. -/
def State.extFill (s : State) (f : Fill) (data : Option (List Byte)) : State :=
  let s0 : State := { s with fills := s.fills.filter fun x => x.id ≠ f.id }
  match data, f.first with
  | none, _ => s0.fillFails f
  | some b, first =>
    if !f.peer && first.isNone then
      { s with fills := s.fills.map fun x => if x.id = f.id then { x with first := some ((b.take 64).rightpad 64 0) } else x }
    else if !s0.fillLive f || (s0.lineAt f.lode f.asid f.line).isSome then s0
    else
      let va := 128 * f.line
      let (lv, kept) := s0.level (s0.leadOfLode f.lode) f.asid va f.leaf.cattr f.lvl
      (s0.addLine { id := 0, lode := f.lode, asid := some f.asid, line := f.line, frame := f.leaf.frameOf va,
                    off := lineOff va, loc := true, data := lineOf 0 (first.getD [] ++ b), transit := lv = .none && !kept,
                    strm := lv = .stream }).2

/-- The completion of a request to host memory (peer: false) or to a peer (true). -/
def State.extDone (s : State) (id : Nat) (peer : Bool) (data : Option (List Byte)) : State :=
  match s.fills.find? fun f => f.id = id && f.ext && f.peer = peer with
  | some f => s.extFill f data
  | none =>
    match s.extWrites.find? fun w => w.id = id && w.peer = peer with
    | none => s
    | some w =>
      -- bytes of both 64 B lines of host memory: two writes (R369)
      if data.isSome && !peer && !w.sent && touchesHalf w.mask false && touchesHalf w.mask true then
        { s with extWrites := s.extWrites.map fun x => if x.id = id then { x with sent := true } else x }
      else
      { s with
        extWrites := s.extWrites.filter (fun x => x.id ≠ id),
        reqs := s.reqs.map fun r => if data.isNone && w.reqs.contains r.id then { r with cause := some .hostErr } else r }

def execCxlRequestCompletion (id : Nat) (data : Option (List Byte)) (s : State) : Host.Outcome State Fault Refusal :=
  .next (s.extDone id false data)
def execNorhaResponse (id : Nat) (data : Option (List Byte)) (s : State) : Host.Outcome State Fault Refusal :=
  .next (s.extDone id true data)

/-! Service of requests at the lodes, and their faults. -/

/-- R21: a request reaches its line's home lode; an earlier one of its core for the line comes first. -/
def execLodeAccess (id : Nat) (s : State) : Host.Outcome State Fault Refusal :=
  .next (match s.reqById id with
    | none => s
    | some r =>
      if !r.goes || s.reqBlocked r then s
      else if s.portShut r then s.dropPacket r
      else s.transact (fun s => s.serve r) fun x => x)

/-- A fill reaches L1 (R116, R304): not while an access that does not allocate is unanswered, nor while the store buffer holds a
store to the line. -/
def execL1Fill (id : Nat) (s : State) : Host.Outcome State Fault Refusal :=
  .next (match s.l1fills.find? fun f => f.id = id with
    | none => s
    | some f =>
      let s1 : State := { s with l1fills := s.l1fills.filter fun x => x.id ≠ id }
      if s1.reqs.any (fun r => r.core = f.core && r.asid = f.asid && r.lines.contains f.line && !(r.isLoad && r.l1))
          || (s1.sbAt f.core f.asid f.line).isSome then s1
      else s1.l1Add { core := f.core, asid := f.asid, line := f.line, data := f.data, stamp := f.stamp })

def execL1Sweep (core : Nat) (s : State) : Host.Outcome State Fault Refusal := .next (s.sweep core)

/-- Store-buffer entries that have stood for 1,024 clk drain (R117). -/
def execStoreBufferTimeout (core : Nat) (s : State) : Host.Outcome State Fault Refusal :=
  .next ((s.sbuf.filter fun e => e.core = core && e.born + 1024 ≤ s.clk).foldl State.drainEntry s)

/-! Shoot-downs (R63, R64). -/

/-- A core's step of an invalidation: its store-buffer entries of the pages drain; when none of its requests for them, its scale
bytes among them, is on its way, its attribute entries and L1 lines of the pages leave and it acknowledges. An entry that was
replaced while an access under it was in flight counts as well (R65; log 56). An invalidation made for a frame's first
mapping has changed no leaf, and waits for no request: an entry in use stays in view as a replaced one does (R60; log 78). -/
def State.albInval (s : State) (i : Inval) (core : Nat) : State :=
  let es := s.alb.filter fun e => e.core = core && e.path.contains i.line
  let on (asid : BitVec 16) (line : Nat) : Bool :=
    es.any fun e => e.asid = asid && e.page / 128 ≤ line && line < (e.page + e.leaf.size.bytes) / 128
  let s1 := (s.sbuf.filter fun e => e.core = core && on e.asid e.line).foldl State.drainEntry s
  if !i.map && s1.reqs.any fun r => r.core = core && r.goes && r.lines.any (on r.asid) then s1
  else
    State.untrack { s1 with
      alb := (s1.alb.filter fun e => !(e.core = core && e.path.contains i.line) || (i.map && s1.albBusy e)).map fun e =>
        if e.core = core && e.path.contains i.line then { e with out := true } else e
      l1 := s1.l1.filter fun x => !(x.core = core && on x.asid x.line)
      l1fills := s1.l1fills.filter fun x => !(x.core = core && on x.asid x.line)
      invals := s1.invals.map fun x => if x.id = i.id then { x with cores := x.cores.filter fun c => c ≠ core } else x }
      i.line (some core) none

def execAlbInvalidate (inv core : Nat) (s : State) : Host.Outcome State Fault Refusal :=
  .next (match s.invals.find? fun i => i.id = inv && i.cores.contains core with
    | none => s
    | some i => s.albInval i core)

/-- A lode's step, after every core's: the entries filled through the line leave as R61 states, and a leaf that still waits in its
walker is walked for again. -/
def State.tbInval (s : State) (i : Inval) (lode : Nat) : State :=
  let s1 := ((s.tb.filter fun e => e.lode = lode && e.path.contains i.line).foldl State.tbDrop s).rewalk
    fun d => d.lode = lode && d.path.contains i.line
  State.untrack { s1 with
    invals := s1.invals.map fun x => if x.id = i.id then { x with lodes := x.lodes.filter fun l => l ≠ lode } else x }
    i.line none (some lode)

def execLodeTbInvalidate (inv lode : Nat) (s : State) : Host.Outcome State Fault Refusal :=
  .next (match s.invals.find? fun i => i.id = inv && i.cores = [] && i.lodes.contains lode with
    | none => s
    | some i => s.transact (fun s => s.tbInval i lode) id)

/-- Whether a thread's PTSYNC is complete: every store and atomic of its wave before number `n` has been performed and
every copy before it has completed, and no invalidation the thread triggered is unacknowledged (R64, R217). -/
def State.ptsyncDone (s : State) (wg k l n : Nat) : Bool :=
  !(s.invals.any fun i => i.writers.contains (wg, k, l))
    && !(s.reqs.any fun r => r.isWrite && r.born < n && ((r.wg = wg && r.wave = k) || r.stores.any fun x => x.wg = wg && x.wave = k))
    && !(s.copies.any fun c => c.wg = wg && c.wave = k && c.id < n)

/-- Whether a waiting thread's PTSYNC is over. -/
def State.ptsyncOver (s : State) (wg k l : Nat) (t : Thread) : Bool :=
  match t.status, t.waitOn with
  | .waiting, .ptsync n => s.ptsyncDone wg k l n
  | _, _ => false

/-- Threads whose PTSYNC has completed go on. -/
def State.wakePtsync (s : State) : State :=
  { s with wgs := s.wgs.map fun g => { g with waves := g.waves.mapIdx fun k w =>
      { w with threads := w.threads.mapIdx fun l t =>
          if s.ptsyncOver g.id k l t then
            { t with status := .eligible, waitOn := .none } else t } } }

/-- The last acknowledgement reaches the home lode, which is done with the line. -/
def execShootdownAck (inv : Nat) (s : State) : Host.Outcome State Fault Refusal :=
  .next (match s.invals.find? fun i => i.id = inv && i.cores = [] && i.lodes = [] with
    | none => s
    | some i => (State.pruneDir { s with invals := s.invals.filter fun x => x.id ≠ i.id }).wakePtsync)

/-- XLT_SYNC.go (R64): done reads 0 until the host's invalidations triggered before it are acknowledged. -/
def State.xltSync (s : State) (q : Nat) (sec : Bool) : State :=
  if !s.leads q then s
  else if s.partSecure q && !sec then s.violation (rXLT_SYNC q)
  else s.modTmb q fun t => { t with sync := s.nextId }

/-- XLT_SYNC.done. -/
def State.syncDone (s : State) (q : Nat) : Bool :=
  !(s.invals.any fun i => i.host && i.id < (s.tmbOf q).sync && s.frameLead (i.line / 512) = q)

def execXltSyncGo (q : Nat) (sec : Bool) (s : State) : Host.Outcome State Fault Refusal := .next (s.xltSync q sec)

/-- XLT_RMAP (R69): the frame's reverse-map entry is cleared, shared flag included. -/
def State.xltRmapClear (s : State) (q f : Nat) (sec : Bool) : State :=
  if !s.leads q then s
  else if s.partSecure q && !sec then s.violation (rXLT_RMAP q)
  else if s.ownsFrame q f then s.setRmap f none else s

def execXltRmapClear (q frame : Nat) (sec : Bool) (s : State) : Host.Outcome State Fault Refusal :=
  .next (s.xltRmapClear q frame sec)

end Sys2Proof.Machine
end

