-- ==== Sys2Proof/Machine/Columns.lean ====
section
/-! DEFINITION. The columns: banks and roles (R70 to R75), loss and rebuild (R91, R92), residency contracts (R77 to R82,
R272) and the key-value reserve (R83, R84, R274), with the events that carry them out. -/
namespace Sys2Proof.Machine

/-- Lines that contracts of a kind hold at a lode (R77). -/
def State.granted (s : State) (n k : Nat) : Nat :=
  s.contracts.foldl (fun a c => if c.kind = k then a + SMap.get 0 c.lines n else a) 0

/-- Deep scratch that resident workgroups hold on a core, in 64 KiB units (R124). -/
def State.deepUsed (s : State) (core : Nat) : Nat :=
  s.wgs.foldl (fun a w => w.parts.foldl (fun a p => if p.core = core then a + p.deepUnits else a) a) 0

/-! Roles (R74). -/

/-- Cache-role lines a lode may not fall below: HOLD lines, plus 4,096 or the stuck lines where those are more. -/
def State.cacheBound (s : State) (n : Nat) : Nat := s.granted n kHold + max 4096 (s.stuckAt n)

/-- The bank that holds a line, or an entry (R70). -/
def LLine.bank (l : LLine) : Option Nat := bankIn l.lode l.banks l.line
def KvEntry.bank (e : KvEntry) : Option Nat := bankIn e.lode e.banks e.key.toNat

/-- The banks that a role map takes from a role. -/
def State.leavingBanks (s : State) (n : Nat) (map : Word) (r : Nat) : List Nat :=
  (s.roleBanks n r).filter fun b => wfld map (2 * b) 2 ≠ r

/-- A role map takes a key-value bank that holds entries, or a deep-scratch bank while deep scratch is allocated, from
its role. -/
def State.roleHeld (s : State) (n : Nat) (map : Word) : Bool :=
  (s.kv.any fun e => e.lode = n && e.bank.any fun b => (s.leavingBanks n map 3).contains b)
    || (0 < s.deepUsed n && s.leavingBanks n map 1 ≠ [])

/-- The core beneath a lode has been retired: its column has no deep-scratch role (R16). -/
def State.noDeep (s : State) (n : Nat) (old map : Word) : Bool :=
  (s.coreOf n).retired && (List.range (nBanks n)).any fun b => wfld map (2 * b) 2 = 1 && wfld old (2 * b) 2 ≠ 1

/-- A write of STR_ROLE: refused, or pending until the banks it takes are empty. A non-secure write of a secure lode's is a
world violation (R7). Of a write that comes while an accepted one has not taken effect the manual says nothing: the later
map takes the place of the pending one, and STR_ROLE reads the map in force (DESIGN CHOICE, log 90). -/
def State.writeRole (s : State) (n : Nat) (v : Word) (sec : Bool) : State :=
  if s.lodeSecure n && !sec then s.violation (rSTR_ROLE n)
  else
    let map := BitVec.ofNat 64 (wfld v 0 (2 * nBanks n))
    let lines (r : Nat) : Nat := 8192 * (s.banksOf n map r).length
    if lines 2 < s.granted n kPin || lines 0 < s.cacheBound n || s.roleHeld n map || s.noDeep n (s.reg (rSTR_ROLE n)) map then
      s.setRf (rSTR_STAT n) 5 1 1
    else s.modLode n fun x => { x with roleNext := some map }

def execStrRoleWrite (lode : Nat) (v : Word) (sec : Bool) (s : State) : Host.Outcome State Fault Refusal :=
  .next (s.writeRole lode v sec)

/-- Some banks of a role are emptied, of PIN lines (`pin`) or of the lines of the cache role: what a contract keeps, what is stuck
or staged, moves to the role's banks `rest`; anything else is written back and dropped (R74, R91). Moving is no eviction. -/
def State.emptyBanks (s : State) (n : Nat) (bs rest : List Nat) (pin : Bool) : State :=
  let kept (s : State) (l : LLine) : Bool := l.stuck.isSome || l.staged.isSome || l.so || s.lineUnder l kHold || s.lineUnder l kPin
  let here (s : State) (l : LLine) : Bool := l.lode = n && s.lineUnder l kPin = pin && l.bank.any fun b => bs.contains b
  let s1 := ((s.lines.filter fun l => here s l && !kept s l).map (·.id)).foldl State.evict s
  { s1 with lines := s1.lines.map fun l => if here s1 l && kept s1 l then { l with banks := rest } else l }

/-- The banks are empty of the role's lines, and what had to move has found room in its other banks (R74, R91): a line that has
become stuck meanwhile may find none. -/
def State.emptied (s : State) (n : Nat) (bs rest : List Nat) (pin : Bool) : Bool :=
  (s.lines.all fun l => !(l.lode = n && s.lineUnder l kPin = pin && l.bank.any fun b => bs.contains b))
    && (if pin then s.granted n kPin else s.granted n kHold + s.stuckAt n) ≤ 8192 * rest.length

/-- The affected banks are empty and the write takes effect: lines that stay move to the banks that have their role under the
new map; those that have no room hold it back (R74). A map that would give a retired core's column deep scratch does not
take effect (R16). -/
def State.applyRole (s : State) (n : Nat) : State :=
  match (s.lodeOf n).roleNext with
  | none => s
  | some map =>
    if s.noDeep n (s.reg (rSTR_ROLE n)) map then s.modLode n fun x => { x with roleNext := none }
    else if 8192 * (s.banksOf n map 2).length < s.granted n kPin || s.roleHeld n map then s
    else
      let out (r : Nat) : List Nat := s.leavingBanks n map r
      let rest (r : Nat) : List Nat := s.banksOf n map r
      let s1 := (s.emptyBanks n (out 0) (rest 0) false).emptyBanks n (out 2) (rest 2) true
      if s1.emptied n (out 0) (rest 0) false && s1.emptied n (out 2) (rest 2) true then
        (s1.setReg (rSTR_ROLE n) map).modLode n fun x => { x with roleNext := none }
      else s1

def execRoleChangeApplied (lode : Nat) (s : State) : Host.Outcome State Fault Refusal :=
  .next (s.transact (fun s => s.applyRole lode) fun x => x)

/-! Loss and rebuild (R91, R92). -/

/-- THE BANKS OF THE DEEP-SCRATCH WINDOW in ascending number: the j-th serves the window's j-th MiB (R75). A bank of a lost group
keeps its place, so that what stands in the others keeps its offset (DESIGN CHOICE, log 91). -/
def State.deepBanks (s : State) (n : Nat) : List Nat :=
  (List.range (nBanks n)).filter fun b => s.rf (rSTR_ROLE n) (2 * b) 2 = 1

/-- A part's deep scratch in some banks, as ranges of its offsets (R75, R92). -/
def State.deepLost (s : State) (n : Nat) (bs : List Nat) (p : Part) : List (Nat × Nat) :=
  if p.core ≠ n then []
  else (s.deepBanks n).zipIdx.filterMap fun (b, j) =>
    let lo := max p.d0 (j * 0x100000)
    let hi := min (p.d0 + 65536 * p.deepUnits) ((j + 1) * 0x100000)
    if bs.contains b && lo < hi then some (0x1000000 + lo - p.d0, 0x1000000 + hi - p.d0) else none

/-- A workgroup loses deep scratch: what it reads there is an uncorrectable error, and its context receives a report (R92). -/
def State.loseDeep (s : State) (n : Nat) (bs : List Nat) (w : Workgroup) : State :=
  if w.parts.all fun p => s.deepLost n bs p = [] then s
  else
    let s1 := s.modWg w.id fun w => { w with parts := w.parts.map fun p => { p with lost := p.lost ++ s.deepLost n bs p } }
    (s1.report w.ctx.q w.ctx.save .ue (reportEntry .ue 15 0 w.wg w.ref.toNat (2 ^ 64))).2

/-- The effects of a group's loss on each role (R92); `bs` are its banks. Lines that a PIN grant still fills there arrive
poisoned. Uncorrectable errors start a test of the site `k` (R359). -/
def State.loseBanks (s : State) (n k : Nat) (bs : List Nat) : State :=
  let inB (b : Option Nat) : Bool := b.any fun b => bs.contains b
  let hit (l : LLine) : Bool := l.lode = n && inB l.bank
  let pinned (l : LLine) : Bool := s.lineUnder l kPin
  let lostFill (f : Fill) : Bool := f.grant && f.lode = n && inB (bankIn n (s.roleBanks n 2) f.line)
  let keep := s.lines.filter fun l => !(hit l && !l.dirty && !pinned l && l.lo = .i && l.hi = .i)
  let bad (l : LLine) : Bool := hit l && (l.dirty || pinned l)
  let s1 : State := { s with
    lines := keep.map (fun l => if bad l then { l with poison := true } else l),
    fills := s.fills.map (fun f => if lostFill f then { f with lost := true } else f),
    kv := s.kv.filter fun e => !(e.lode = n && inB e.bank) }
  let s2 := s1.wgs.foldl (fun s w => s.loseDeep n bs w) s1
  let ue : Bool := keep.any bad || s.fills.any lostFill || s1.wgs.any fun w => w.parts.any fun p => s1.deepLost n bs p ≠ []
  if ue && !s2.tests.contains (.strataSite n k 0) then { s2 with tests := s2.tests ++ [.strataSite n k 0] } else s2

/-- STR_STAT.degraded and rebuilding follow the groups. Whether rebuilding reads 1 while the rebuild is held the manual leaves
open: it stays 1 as long as a group is degraded, beside rebuild_blocked (DESIGN CHOICE, log 79). -/
def State.restat (s : State) (n : Nat) : State :=
  let d := (List.range (nBanks n / 6)).any fun g => s.lostIn n g = 1 || s.lostIn n g = 2
  let v := if d then 1 else 0
  let s1 := (s.setRf (rSTR_STAT n) 0 1 v).setRf (rSTR_STAT n) 1 1 v
  if d then s1 else s1.setRf (rSTR_STAT n) 2 1 0

/-- A site is lost (R91); the third of a group loses the group (R92). -/
def State.loseSite (s : State) (n site : Nat) : State :=
  if 4 * perLayer n ≤ site || bitAt (s.lodeOf n).lost site then s
  else
    let g := siteGroup n site
    let c := s.lostIn n g
    let s0 := s.modLode n fun x => { x with lost := x.lost ||| (1#32 <<< site) }
    if c = 2 then
      let s1 := s0.loseBanks n site (List.range' (6 * g) 6)
      ((s1.setRf (rSTR_STAT n) (8 + 2 * g) 2 3).setRf (rSTR_STAT n) 6 1 1).restat n
    else if c = 3 then s0
    else (s0.setRf (rSTR_STAT n) (8 + 2 * g) 2 (c + 1)).restat n

def execSiteLoss (lode site : Nat) (s : State) : Host.Outcome State Fault Refusal := .next (s.loseSite lode site).rewriteDisc

/-- The lines that a lode without vertical buses still has: each stands in its transit buffer for an access alone; a dirty one
is written back at once, but for a PIN line, which its contract keeps poisoned until it is written anew (R72, R78, R92). -/
def State.toTransit (s : State) (n : Nat) : State :=
  let mine := s.lines.filter fun l => l.lode = n
  mine.foldl (fun s l =>
    let s1 := s.modLine l.id fun x => { x with transit := true }
    if l.dirty && !s1.lineUnder l kPin then s1.endTransit l.id else s1) s

/-- A vertical bus is lost; with both, every group (R72). -/
def State.loseBus (s : State) (n : Nat) (busB : Bool) : State :=
  let bit := if busB then 4 else 3
  if s.rf (rSTR_STAT n) bit 1 = 0 then s
  else if s.rf (rSTR_STAT n) (if busB then 3 else 4) 1 = 1 then s.setRf (rSTR_STAT n) bit 1 0
  else
    let gs := (List.range (nBanks n / 6)).filter fun g => s.lostIn n g < 3
    let s1 := s.loseBanks n 0 (gs.flatMap fun g => List.range' (6 * g) 6)
    let s2 := gs.foldl (fun s g => s.setRf (rSTR_STAT n) (8 + 2 * g) 2 3) s1
    let all := (List.range (4 * perLayer n)).foldl (fun (m : BitVec 32) i => m ||| (1#32 <<< i)) 0
    ((((s2.modLode n fun x => { x with lost := all }).setRf (rSTR_STAT n) bit 1 0).setRf (rSTR_STAT n) 6 1 1).restat n).toTransit n

def execBusLoss (lode : Nat) (busB : Bool) (s : State) : Host.Outcome State Fault Refusal :=
  .next (s.loseBus lode busB).rewriteDisc

/-- One lost site is rebuilt into the usable cache-role bank with the highest number, which is then replaced; blocked
where the cache bound of R74 would break, or while a line that became stuck in that bank finds no room (R91). -/
def State.rebuild (s : State) (n : Nat) : State :=
  let blocked (s : State) : State := s.setRf (rSTR_STAT n) 2 1 1
  match (List.range (nBanks n / 6)).find? fun g => s.lostIn n g = 1 || s.lostIn n g = 2 with
  | none => s
  | some g =>
    match (s.roleBanks n 0).getLast? with
    | none => blocked s
    | some b =>
      if s.roleLines n 0 < s.cacheBound n + 8192 then blocked s
      else
        let rest := (s.roleBanks n 0).filter fun x => x ≠ b
        let s1 := s.emptyBanks n [b] rest false
        if !s1.emptied n [b] rest false then blocked s1
        else
          (((((s1.setRf (rSTR_STAT n) (16 + b) 1 1).setRf (rSTR_STAT n) (8 + 2 * g) 2
            (s1.lostIn n g - 1)).setRf (rSTR_STAT n) 2 1 0).restat n)).rewriteDisc

def execRebuildComplete (lode : Nat) (s : State) : Host.Outcome State Fault Refusal :=
  .next (s.transact (fun s => s.rebuild lode) fun x => x)

/-! Contracts (R77 to R82). -/

/-- Numbers of `[a, a + n)` that are `i` modulo `m`. -/
def countMod (a n i m : Nat) : Nat := (a + n + m - 1 - i) / m - (a + m - 1 - i) / m

/-- The pages of a range with their leaves, absent ones at 64 KiB (R79), and the state after the walks. -/
def State.segments (s : State) (q : Nat) (asid : BitVec 16) : Nat → Nat → Nat → List (Nat × Nat × Option Leaf) × State
  | 0, _, _ => ([], s)
  | fuel + 1, va, stop =>
    if stop ≤ va then ([], s)
    else
      let w := s.walk q asid va
      let (hi, l) : Nat × Option Leaf := match w.res with
        | .ok l => (min stop (pageOf va l.size + l.size.bytes), some l)
        | .error _ => (min stop (va + 65536), none)
      let (rest, s1) := w.st.segments q asid fuel hi stop
      ((va, hi, l) :: rest, s1)

/-- Lines of a segment homed at a lode (R57). -/
def State.segLines (s : State) (q n : Nat) (seg : Nat × Nat × Option Leaf) : Nat :=
  let (a, b, l) := seg
  let spread : Nat := match (s.partLodes q).idxOf? n with
    | some i => countMod (a / 128) ((b - a) / 128) i (s.nLodes q)
    | none => 0
  match l with
  | some l => if l.home = 0 then spread else if l.die.toNat = n / 64 then (b - a) / 128 / 64 else 0
  | none => spread

/-- The lines of a range with their leaves, where its pages are present. -/
def State.rangeLines (s : State) (q : Nat) (segs : List (Nat × Nat × Option Leaf)) : List (Nat × Leaf × Nat) :=
  segs.flatMap fun x => match x.2.2 with
    | none => []
    | some l => (List.range' (x.1 / 128) ((x.2.1 - x.1) / 128)).map fun n => (n, l, s.homeOf q (128 * n) l)

/-- A line of a contract's range, by its virtual tag or the mapping recorded for its frame (R58, R78). -/
def State.lineIn (s : State) (c : Contract) (l : LLine) : Bool :=
  (s.lineTag l).any (fun x => x.1 = c.asid && c.base ≤ x.2 && x.2 < c.base + 65536 * c.pages)
    && !l.detached && s.leadOfLode l.lode = c.q && !l.shadow

/-- WHAT A GRANT DOES TO THE LINES OF ITS RANGE (R78). PIN: lines held go to pinned-scratch banks, the others are filled,
and those of strata-only pages start as zero. KEEPOUT: lines held are written back and dropped. HOLD: nothing yet. -/
def State.grantLines (s : State) (c : Contract) (segs : List (Nat × Nat × Option Leaf)) : State :=
  if c.kind = kPin then
    let s1 : State := { s with lines := s.lines.map fun l => if s.lineIn c l then { l with banks := s.roleBanks l.lode 2 } else l }
    (s1.rangeLines c.q segs).foldl (fun s x =>
      let (ln, l, lode) := x
      if (s.lineAt lode c.asid ln).isSome then s
      else if l.so then
        (s.addLine { id := 0, lode := lode, asid := some c.asid, line := ln, frame := 0, off := 0, so := true, data := 0 }).2
      else
        let (n, s1) := s.fresh
        { s1 with fills := s1.fills ++ [{ id := n, lode := lode, asid := c.asid, line := ln, leaf := l, lvl := .allocate,
                                          ext := false, peer := false, grant := true }] }) s1
  else if c.kind = kKeepout then
    (s.lines.filter (s.lineIn c)).foldl (fun s l =>
      let (t, ok) := (s.touch l (BitVec.allOnes 1024) true).writeback l.id
      if ok && l.staged.isNone then t.dropLine l.id else t.modLine l.id fun x => { x with transit := true }) s
  else s

/-- ADMISSION (R79): the answer and, where granted, the contract. -/
def State.takeIn (s0 : State) (r : CtrReq) (kind : Nat) : Nat × State :=
  let stop := r.base + 65536 * r.pages
  let (segs, s) := s0.segments r.q r.asid (r.pages + 1) r.base stop
  let perLode (f : Nat × Nat × Option Leaf → Nat → Nat) : SMap Nat :=
    (s.partLodes r.q).foldl (fun m n => SMap.put 0 m n (segs.foldl (fun a x => a + f x n) 0)) []
  let lines := perLode fun x n => s.segLines r.q n x
  let ents := perLode fun x n => if s.segLines r.q n x = 0 then 0 else 1
  let world := !r.world && (segs.any (fun x => x.2.2.any fun l => l.world) || lines.any fun e => s.lodeSecure e.1)
  let mine := s.contracts.filter fun c => c.q = r.q
  let held (n : Nat) : Nat := mine.foldl (fun a c => a + SMap.get 0 c.ents n) 0
  let full := ents.any (fun e => 1536 < held e.1 + e.2)
    || (kind = kPin && lines.any fun e => s.roleLines e.1 2 - s.granted e.1 kPin < e.2)
    || (kind = kHold && lines.any fun e =>
        s.roleLines e.1 0 * s.rf (rSTR_RES e.1) 0 6 / 64 - s.granted e.1 kHold < e.2)
  if world then (3, s)
  else if kind ≠ kPin && segs.any (fun x => x.2.2.any fun l => l.so) then (5, s)
  else if mine.any (fun c => c.asid = r.asid && c.base < stop && r.base < c.base + 65536 * c.pages) then (4, s)
  else if 1024 ≤ mine.length then (2, s)
  else if full then (1, s)
  else
    let (n, s1) := s.fresh
    let c : Contract := { id := n, q := r.q, kind := kind, ctx := r.ctx, asid := r.asid, base := r.base, pages := r.pages,
                          world := r.world, lines := lines, ents := ents, save := r.save,
                          absent := segs.filterMap fun x => if x.2.2.isNone then some x.1 else none }
    let here (e : TbEntry) : Bool := e.asid = r.asid && e.page < stop && r.base < e.page + e.leaf.size.bytes
    (0, State.grantLines { s1 with contracts := s1.contracts ++ [c],
                                   tb := s1.tb.map fun e => if here e then { e with contracted := true } else e } c segs)

/-- RELEASE (R80): lines of a PIN go back to their frames, those of strata-only pages are discarded, the entries may be
replaced again. -/
def State.releaseContract (s : State) (c : Contract) : State :=
  let stop := c.base + 65536 * c.pages
  let s1 : State := { s with contracts := s.contracts.filter fun x => x.id ≠ c.id }
  let s2 : State := { s1 with tb := s1.tb.map fun e =>
      { e with contracted := s1.contracts.any fun x =>
          x.q = s1.leadOfLode e.lode && x.asid = e.asid && x.base < e.page + e.leaf.size.bytes && e.page < x.base + 65536 * x.pages } }
  if c.kind ≠ kPin then s2
  else (s2.lines.filter (s2.lineIn c)).foldl (fun s l =>
      if l.so then s.dropLine l.id
      else
        let (t, ok) := (s.touch l (BitVec.allOnes 1024) true).writeback l.id
        if ok && l.staged.isNone then t.dropLine l.id
        else t.modLine l.id fun x => { x with banks := t.roleBanks l.lode 0 })
      { s2 with fills := s2.fills.filter fun f => !(f.grant && f.asid = c.asid && c.base ≤ 128 * f.line && 128 * f.line < stop
                  && s2.leadOfLode f.lode = c.q) }

/-- The status of a RESIDE or UNRESIDE lands, and the request ends (R272). -/
def State.ctrAnswer (s : State) (r : CtrReq) (code : Nat) : State :=
  State.modResult { s with ctrReqs := s.ctrReqs.filter fun x => x.id ≠ r.id } r.res fun o =>
    { o with ready := true, readyAt := s.clk, writes := o.regs.filterMap fun g =>
        match g with
        | .s d => some ⟨.s d, 0, BitVec.ofNat 64 code⟩
        | _ => none }

/-- A RESIDE reaches the contract lode (R77, R79, R82). -/
def State.ctrAdmit (s : State) (r : CtrReq) (kind : Nat) : State :=
  let (code, s1) := s.takeIn r kind
  (if code = 0 then s1 else s1.incRf (rCT_STAT r.q) 16 16).ctrAnswer r code

/-- What a release has written back and is still on its way: writes to host or peer memory, and lines of BUSY frames. -/
def State.stillOwed (s : State) (l : List Nat) : Bool :=
  s.extWrites.any (fun w => l.contains w.id) || s.lines.any fun x => x.owed && l.contains x.id

/-- An UNRESIDE reaches the contract lode (R80, R272): its status lands when what it had written back has arrived. -/
def State.ctrRelease (s : State) (r : CtrReq) : State :=
  match r.owes with
  | some l => if s.stillOwed l then s else s.ctrAnswer r 0
  | none =>
    match s.contracts.find? fun c => c.q = r.q && c.asid = r.asid && c.ctx = r.ctx && c.base = r.base with
    | none => s.ctrAnswer r 7
    | some c =>
      let t := s.releaseContract c
      let l := (t.extWrites.map (·.id)).filter (fun n => s.nextId ≤ n) ++ ((s.lines.filter (s.lineIn c)).map (·.id))
      if c.kind = kPin && t.stillOwed l then
        { t with ctrReqs := t.ctrReqs.map fun x => if x.id = r.id then { x with owes := some l } else x }
      else t.ctrAnswer r 0

def execContractAdmission (id : Nat) (s : State) : Host.Outcome State Fault Refusal :=
  .next (match s.ctrReqs.find? fun r => r.id = id with
    | none => s
    | some r => match r.kind with
      | some k => s.transact (fun s => s.ctrAdmit r k) fun x => x
      | none => s)

def execContractRelease (id : Nat) (s : State) : Host.Outcome State Fault Refusal :=
  .next (match s.ctrReqs.find? fun r => r.id = id with
    | none => s
    | some r => match r.kind with
      | some _ => s
      | none => s.transact (fun s => s.ctrRelease r) fun x => x)

/-- A PIN or HOLD over a page absent at admission that a walk has found to be homed elsewhere is released, with a
contract-lost report (R79). -/
def State.checkContracts (s : State) : State :=
  (s.contracts.filter fun c => c.wrong && c.kind ≠ kKeepout).foldl (fun s c =>
    ((s.releaseContract c).report c.q c.save .contractLost (reportEntry .contractLost 0 0 0 0 c.base)).2) s

/-! The key-value reserve (R83, R84, R274). -/

/-- Lodes with a usable key-value bank. -/
def State.kvLodes (s : State) (q : Nat) : List Nat := (s.partLodes q).filter fun n => s.roleBanks n 3 ≠ []

/-- kv_lode of R83. -/
def State.kvHome (s : State) (q : Nat) (asid : BitVec 16) (key : Word) : Option Nat :=
  let h := (key ^^^ (asid.setWidth 64 <<< 48)) * 0x9E3779B97F4A7C15#64
  let l := s.kvLodes q
  if l = [] then none else l[wfld h 32 32 % l.length]?

def kvUnits (len : Nat) : Nat := cdiv len 128
def KvEntry.units (e : KvEntry) : Nat := kvUnits e.val.length
def sumUnits (l : List KvEntry) : Nat := l.foldl (fun a e => a + e.units) 0

def State.kvFind (s : State) (lode : Nat) (asid : BitVec 16) (key : Word) : Option KvEntry :=
  s.kv.find? fun e => e.lode = lode && e.asid = asid && e.key = key

/-- Age of an entry (R84), the lode's clock being up to date: one that the sweep has marked counts as 65,535. -/
def State.kvAge (s : State) (e : KvEntry) : Nat :=
  let a := ((s.lodeOf e.lode).age - e.stamp).toNat
  if e.oldest || 32768 ≤ a then 65535 else a

/-- THE AGE CLOCK of a lode (R84) advances once every 4,096 clk: as many times as are due. The sweep marks the entries whose
age reaches 32,768. -/
def State.kvTick (s : State) (n : Nat) : State :=
  let x := s.lodeOf n
  if s.clk < x.tickAt then s
  else
    let k := (s.clk - x.tickAt) / 4096 + 1
    { s.modLode n fun x => { x with age := x.age + BitVec.ofNat 16 k, tickAt := x.tickAt + 4096 * k } with
      kv := s.kv.map fun e =>
        if e.lode = n && 32768 ≤ (x.age - e.stamp).toNat + k then { e with oldest := true } else e }

def execKvAgeTick (lode : Nat) (s : State) : Host.Outcome State Fault Refusal := .next (s.kvTick lode)

/-- The order in which victims go: class, then greatest age, then lowest key. -/
def State.kvRank (s : State) (e : KvEntry) : Nat := (e.cls * 65536 + (65535 - s.kvAge e)) * 2 ^ 64 + e.key.toNat

def insertBy {α : Type} (key : α → Nat) (x : α) : List α → List α
  | [] => [x]
  | y :: r => if key x < key y then x :: y :: r else y :: insertBy key x r

def sortBy {α : Type} (key : α → Nat) (l : List α) : List α := l.foldl (fun a x => insertBy key x a) []

/-- Entries evicted until the value fits, or none where no sequence makes room. -/
def kvMakeRoom (room quota units : Nat) (own : KvEntry → Bool) (rest : List KvEntry) : List KvEntry → Option (List KvEntry)
  | [] => if sumUnits rest + units ≤ room && sumUnits (rest.filter own) + units ≤ quota then some rest else none
  | v :: vs =>
    if sumUnits rest + units ≤ room && sumUnits (rest.filter own) + units ≤ quota then some rest
    else kvMakeRoom room quota units own (rest.filter fun e => !(e.key = v.key && e.asid = v.asid)) vs

/-- KVPUT at its home lode: the result code and the state. -/
def State.kvPut (s : State) (lode : Nat) (r : KvReq) (val : List Byte) (cls : Nat) : Nat × State :=
  let old := s.kvFind lode r.asid r.key
  let here := s.kv.filter fun e => e.lode = lode
  let rest := here.filter fun e => !(e.asid = r.asid && e.key = r.key)
  let units := kvUnits val.length
  let room := 8192 * (s.roleBanks lode 3).length
  let quota := s.rf (rSTR_KV lode) 0 16
  let own (e : KvEntry) : Bool := e.owner = r.ctx
  let tight := quota < sumUnits (rest.filter own) + units
  let cand := rest.filter fun e => e.pins = 0 && e.cls ≤ cls && (!tight || own e)
  match kvMakeRoom room quota units own rest (sortBy s.kvRank cand) with
  | none => (3, s)
  | some kept =>
    let e : KvEntry := { lode := lode, asid := r.asid, key := r.key, val := val, cls := cls, stamp := (s.lodeOf lode).age,
                         pins := (old.map (·.pins)).getD 0, owner := r.ctx, banks := s.roleBanks lode 3 }
    (0, { s with kv := (s.kv.filter fun x => x.lode ≠ lode) ++ kept ++ [e] })

/-- A write into a workgroup's part under its owner tag (R112): dropped and counted where the tag has moved on. -/
def State.taggedWrite (s : State) (wg part : Nat) (gen : Byte) (save : Nat) (f : Part → Part) : State :=
  match s.wg? wg with
  | some w => if (w.part part).gen = gen then s.modPart wg part f else s.countDropped save 1
  | none => s.countDropped save 1

/-- THE OPERATION AT ITS HOME LODE (R274): its status word and the state. One issued while no lode had a key-value bank has
no home (R83). Whether a KVDROP refused as PINNED is an access that stamps the entry (R84) the manual leaves open: it is
not (DESIGN CHOICE, log 81). -/
def State.kvPerform (s : State) (r : KvReq) (save : Nat) : Nat × State :=
  match if r.noKv then none else s.kvHome r.q r.asid r.key with
  | none => (2, s)
  | some lode =>
    let old := s.kvFind lode r.asid r.key
    let upd (f : KvEntry → KvEntry) : State :=
      { s with kv := s.kv.map fun e => if e.lode = lode && e.asid = r.asid && e.key = r.key then f e else e }
    let stampNow := (s.lodeOf lode).age
    match r.op with
    | .get buf len =>
      match old with
      | none => (1, s)
      | some e =>
        let s1 := upd fun e => { e with stamp := stampNow, oldest := false }
        (e.val.length * 2 ^ 16, s1.taggedWrite r.wg r.part r.gen save fun p => p.wr buf (e.val.take len))
    | .put buf len cls =>
      match s.wg? r.wg with
      | none => (0, s)
      | some w => s.kvPut lode r ((w.part r.part).rd buf len) cls
    | .pin un =>
      match old with
      | none => (1, s)
      | some e =>
        if un then (if e.pins = 0 then (7, s) else ((e.pins - 1) * 2 ^ 32, upd fun e => { e with pins := e.pins - 1, stamp := stampNow, oldest := false }))
        else if e.pins = 255 then (6, s)
        else ((e.pins + 1) * 2 ^ 32, upd fun e => { e with pins := e.pins + 1, stamp := stampNow, oldest := false })
    | .drop =>
      match old with
      | none => (1, s)
      | some e =>
        if e.pins ≠ 0 then (5, s)
        else (0, { s with kv := s.kv.filter fun x => !(x.lode = lode && x.asid = r.asid && x.key = r.key) })

def execKvLodeOperation (id : Nat) (s : State) : Host.Outcome State Fault Refusal :=
  .next (match s.kvReqs.find? fun r => r.id = id with
    | none => s
    | some r => s.transact (fun s =>
        let s00 : State := { s with kvReqs := s.kvReqs.filter fun x => x.id ≠ id }
        let s0 := match s.kvHome r.q r.asid r.key with
          | some n => (s00.wakeLode n).kvTick n
          | none => s00
        let (st, s1) := s0.kvPerform r r.save
        s1.modResult r.res fun o =>
          { o with ready := true, readyAt := s1.clk, writes := o.regs.filterMap fun g =>
              match g with
              | .s d => some ⟨.s d, 0, BitVec.ofNat 64 st⟩
              | _ => none }) fun x => x)

end Sys2Proof.Machine
end

