-- ==== Sys2Proof/Machine/Pool.lean ====
section
/-! DEFINITION. The unified pool of a core (R114, R115): the division the driver stages and applies, what resident
workgroups hold of each region, and the fit of a new allocation (R121, R124, R166). -/
namespace Sys2Proof.Machine

/-! The division. -/

/-- Boundaries in force: registers, scratchpad, accumulators (R114). -/
def State.regTop (s : State) (n : Nat) : Nat := s.rf (rPOOL_REG_TOP n) 0 6
def State.scrTop (s : State) (n : Nat) : Nat := s.rf (rPOOL_SCR_TOP n) 0 6
def State.accTop (s : State) (n : Nat) : Nat := s.rf (rPOOL_ACC_TOP n) 0 6

/-- The limits of R114. -/
def poolLimits (r c a : Nat) : Bool :=
  4 ≤ r && r ≤ 32 && r ≤ c && c ≤ r + 32 && c ≤ a && a ≤ c + 16 && a + 2 ≤ 56

/-- A workgroup with a part on a core. -/
def Workgroup.onCore (w : Workgroup) (n : Nat) : Bool := w.parts.any fun p => p.core = n

def State.coreEmpty (s : State) (n : Nat) : Bool := s.wgs.all fun w => !w.onCore n

/-- An accepted copy with a destination on a core (R106). -/
def State.copyTo (s : State) (n : Nat) : Bool :=
  s.copies.any fun c => !c.dead && !c.memDst && c.parts.any fun p => (s.partOf c.wg p).core = n

/-- A WRITE OF POOL_REG_TOP (R115, R131): the staged value and the flag are written; apply validates the three staged
values together. -/
def State.poolApply (s : State) (n : Nat) (v : Word) (sec : Bool) : State :=
  if !s.live .core n then s
  else
    let g := s.guarded .core n
    if g && !sec then s.violation (rPOOL_REG_TOP n) else
    let s1 := s.writeFields (rPOOL_REG_TOP n) v sec g
    if !bitAt v 16 || s1.rf (rPOOL_REG_TOP n) 18 1 = 1 then s1
    else
      let r := s1.rf (rPOOL_REG_TOP n) 8 6
      let c := s1.rf (rPOOL_SCR_TOP n) 8 6
      let a := s1.rf (rPOOL_ACC_TOP n) 8 6
      if poolLimits r c a && s1.coreEmpty n && !s1.copyTo n then
        (s1.setRf (rPOOL_REG_TOP n) 18 1 1).modCore n fun x => { x with applying := some (r, c, a) }
      else s1.setRf (rPOOL_REG_TOP n) 17 1 1

def execPoolApply (core : Nat) (v : Word) (sec : Bool) (s : State) : Host.Outcome State Fault Refusal :=
  .next (s.poolApply core v sec)

/-- The division takes force: L1 is empty, and the regions are zero. The bytes of the regions are held with their
allocations, and every allocation starts at zero (R324). -/
def State.poolApplied (s : State) (n : Nat) : State :=
  match (s.coreOf n).applying with
  | none => s
  | some (r, c, a) =>
    let s1 : State := { s with l1 := s.l1.filter (fun x => x.core ≠ n), l1fills := s.l1fills.filter fun x => x.core ≠ n }
    ((((s1.setRf (rPOOL_REG_TOP n) 0 6 r).setRf (rPOOL_SCR_TOP n) 0 6 c).setRf (rPOOL_ACC_TOP n) 0 6 a).setRf
      (rPOOL_REG_TOP n) 18 1 0).modCore n fun x => { x with applying := none }

def execPoolApplyDone (core : Nat) (s : State) : Host.Outcome State Fault Refusal := .next (s.poolApplied core)

/-! What resident workgroups hold. -/

/-- Parts of resident workgroups on a core. -/
def State.partsOn (s : State) (n : Nat) : List Part := s.wgs.flatMap fun w => w.parts.filter fun p => p.core = n

/-- Wave-registers of a core, and those that no workgroup's budget reserves (R166, R169). -/
def State.regTotal (s : State) (n : Nat) : Nat := s.regTop n * 256
def State.regFree (s : State) (n : Nat) : Nat := s.regTotal n - (s.partsOn n).foldl (fun a p => a + p.budget) 0

/-- Wave slots in use on a core (R156). -/
def State.slotsUsed (s : State) (n : Nat) : List Nat :=
  s.wgs.flatMap fun w => ((List.range w.waves.length).filter fun k => w.coreOfWave k = n).filterMap fun k =>
    (w.waves[k]?).bind fun v => if v.ended then none else some v.slot

/-- The lowest place for `size` units among the runs in use, at a multiple of `al`. -/
def firstFit (used : List (Nat × Nat)) (al size limit : Nat) : Option Nat :=
  let cands := 0 :: used.map fun u => cdiv (u.1 + u.2) al * al
  minBy (fun x => x) (cands.filter fun c => c + size ≤ limit && used.all fun u => u.2 = 0 || c + size ≤ u.1 || u.1 + u.2 ≤ c)

def State.scrFit (s : State) (n size : Nat) : Option Nat :=
  firstFit ((s.partsOn n).map fun p => (p.scrBase, p.scrBytes)) 512 size (65536 * (s.scrTop n - s.regTop n))
def State.accFit (s : State) (n kib : Nat) : Option Nat :=
  firstFit ((s.partsOn n).map fun p => (p.accBase, p.accKib)) 1 kib (64 * (s.accTop n - s.scrTop n))
/-- In 64 KiB units of the column's deep-scratch window, clear of its lost banks (R75, R124). -/
def State.deepFit (s : State) (n units : Nat) : Option Nat :=
  let bs := s.deepBanks n
  let lost := bs.zipIdx.filterMap fun x => if s.usable n x.1 then none else some (16 * x.2, 16)
  firstFit (((s.partsOn n).map fun p => (p.d0 / 65536, p.deepUnits)) ++ lost) 1 units (16 * bs.length)

end Sys2Proof.Machine
end

