-- ==== Sys2Proof/Machine/Sched.lean ====
section
/-! DEFINITION. The queue engine (R318 to R332): descriptors, records, queues and appends, joins, the choice of the
next workgroup, placement, completion, vacation of cores, and thermal control. -/
namespace Sys2Proof.Machine

/-- A field of a record or descriptor image. -/
def rfld (im : BitVec 512) (lo n : Nat) : Nat := (im.extractLsb' lo n).toNat

/-! Descriptors (R318). -/

def State.descPa (s : State) (q n : Nat) : Nat := 4096 * s.rf (rSCH_CTXBASE q) 12 40 + 64 * n

def State.descOf (s : State) (q n : Nat) : BitVec 512 × State :=
  let (x, s1) := s.readPhysN (s.descPa q n) 64
  (BitVec.ofNat 512 x, s1)

/-- The faults of a descriptor that R318 lists. -/
def State.descBad (s : State) (q : Nat) (d : BitVec 512) : Bool :=
  rfld d 0 1 = 0 || rfld d 3 5 ≠ 0 || rfld d 11 5 ≠ 0 || rfld d 32 32 ≠ 0 || rfld d 64 12 ≠ 0 || rfld d 116 12 ≠ 0
    || rfld d 192 12 ≠ 0 || rfld d 244 268 ≠ 0 || rfld d 16 16 = 0 || (rfld d 1 1 = 1 && !s.partSecure q)

/-- The context a descriptor gives; the handler comes from its save area (R341, R346). -/
def ctxFrom (q n : Nat) (d : BitVec 512) (vec : Nat) : Ctx :=
  { num := n, q := q, world := rfld d 1 1 = 1, system := rfld d 2 1 = 1, asid := d.extractLsb' 16 16,
    layout := rfld d 64 52, save := rfld d 192 52, trapVec := BitVec.ofNat 57 vec, queues := d.extractLsb' 128 64,
    prioMax := rfld d 8 3 }

/-- The context as placement reads it. -/
def State.ctxAt (s : State) (q n : Nat) (d : BitVec 512) : Ctx × State :=
  let (v, s1) := s.readPhysN (rfld d 192 52) 8
  (ctxFrom q n d (v % 2 ^ 57), s1)

/-- Bytes of a save area (R346). -/
def State.saveBytes (s : State) (save : Nat) : Nat :=
  0x2000 + 65536 * (s.readPhysN (save + 18) 2).1 * fld (s.readPhysN (save + 20) 1).1 0 6

/-- Every frame of `n` bytes from `a` is secure. -/
def State.bytesSecure (s : State) (q a n : Nat) : Bool :=
  (List.range' (a / 65536) ((a + n - 1) / 65536 + 1 - a / 65536)).all fun f => s.frameSecure q f

/-- A secure context's tables and save area lie in secure frames (R376). -/
def State.ctxSecure (s : State) (q : Nat) (c : Ctx) : Bool :=
  !c.world || (s.bytesSecure q (s.descPa q 0) 0x40000 && s.bytesSecure q c.layout 0x40000
    && s.bytesSecure q c.save (s.saveBytes c.save))

/-! Records (R319, R320). -/

def recWaves (im : BitVec 512) : Nat := cdiv (rfld im 256 16 + 1) 64
def recCores (im : BitVec 512) : Nat := rfld im 272 3 + 1
/-- Waves per part (R161). -/
def recPer (im : BitVec 512) : Nat := cdiv (recWaves im) (recCores im)

/-- Role and allocation of a wave (R163, R166). -/
def recRole (im : BitVec 512) (w : Nat) : Role × Nat :=
  if w < rfld im 276 10 then (.copy, 4 * (rfld im 296 6 + 1))
  else if w < rfld im 276 10 + rfld im 286 10 then (.matrix, 4 * (rfld im 302 6 + 1))
  else (.vector, 4 * (rfld im 308 6 + 1))

/-- The checks of R320 on the record's own bits; seq and state are the engine's. -/
def recordOk (im : BitVec 512) : Bool :=
  rfld im 63 1 = 0 && rfld im 121 7 = 0 && rfld im 221 3 = 0 && rfld im 275 1 = 0 && rfld im 314 6 = 0
    && rfld im 362 22 = 0 && rfld im 467 45 = 0 && rfld im 0 6 = 0 && rfld im 128 3 = 0 && rfld im 224 32 ≠ 0
    && rfld im 276 10 + rfld im 286 10 ≤ recWaves im && rfld im 320 22 ≤ 2097152 && rfld im 351 11 ≤ 1024
    && rfld im 342 9 ≤ 384

/-- Reference of append index `i` (R212). -/
def refOf (queue i : Nat) : Word := BitVec.ofNat 64 (queue + i % 65536 * 2 ^ 6 + i % 65536 * 2 ^ 32)

/-- The record a reference names; none is STALE. A reference's slot and sequence number are the same sixteen bits of an append
index, so that one whose slot has been used again names the record that stands there now (DESIGN CHOICE, log 68). -/
def State.lookRef (s : State) (q : Nat) (ref : Word) : Option Rec :=
  if wfld ref 48 16 ≠ 0 then none
  else s.recs.find? fun r => r.q = q && r.primary = 0 && r.queue = wfld ref 0 6 && r.index % 65536 = wfld ref 6 26
    && r.index % 65536 = wfld ref 32 16

/-! Pre-emption requests (R213, R330, R349). -/

/-- A workgroup is in a non-pre-emptible region. -/
def Workgroup.inRegion (w : Workgroup) : Bool := w.waves.any fun v => v.region && !v.ended

/-- Issue stops: threads of a clause in progress stand at its word, or at its header where no word has issued. -/
def State.haltIssue (s : State) (wg : Nat) : State :=
  let mine := s.running.filter fun c => c.wg = wg
  let s1 := mine.foldl (fun s c =>
    -- a word whose DRAIN is under way is not issued again once the drain has been done
    let next : Pc := if c.idx + 1 < c.words.length then { c.wordPc with word := BitVec.ofNat 4 (c.idx + 1) } else c.nxtPc
    let pc := if s.mq.any fun e => c.await = some e.id then next else if c.idx = 0 then pcAt c.addr else c.wordPc
    s.modLanes wg c.wave c.group fun _ t => { t with pc := pc }) s
  { s1 with running := s1.running.filter fun c => c.wg ≠ wg }

/-- A save begins (R349, R350): issue stops, started chunks for memory are cancelled, and the store buffers of the
workgroup's cores drain. -/
def State.startSave (s : State) (wg : Nat) : State :=
  match s.wg? wg with
  | none => s
  | some w =>
    if w.fate ≠ .live then s
    else
      let s0 := (s.haltIssue wg).modWg wg fun w => { w with fate := .saving, npReq := none, saveAt := s.clk }
      let s1 : State := { s0 with copies := s0.copies.map fun c =>
        if c.wg = wg && c.memDst then { c with read := c.read.filter fun x => c.delivered.any fun d => d.1 = x.1 } else c }
      (w.parts.map (·.core)).foldl State.drainCore s1

/-- A request to pre-empt a workgroup: it waits while the workgroup is in a region (R213). -/
def State.preempt (s : State) (wg : Nat) : State :=
  match s.wg? wg with
  | none => s
  | some w =>
    if w.fate ≠ .live then s
    else if w.inRegion then (if w.npReq.isSome then s else s.modWg wg fun w => { w with npReq := some s.clk })
    else s.startSave wg

/-- A core is closed to placement (R330). -/
def CoreX.closed (x : CoreX) : Bool := x.closers ≠ []

def State.closeCores (s : State) (cores : List Nat) (by_ : Closer) : State :=
  cores.foldl (fun s n => s.modCore n fun x => if x.closers.contains by_ then x else { x with closers := x.closers ++ [by_] }) s

def State.openCores (s : State) (cores : List Nat) (by_ : Closer) : State :=
  { cores.foldl (fun s n => s.modCore n fun x => { x with closers := x.closers.filter fun c => c ≠ by_ }) s with
    vacReqs := s.vacReqs.filter fun v => !(v.by_ = by_ && v.cores.all cores.contains) }

/-- The requested cores close: those of every request for one of `cores` (R330, step 3). -/
def State.closeVac (s : State) (cores : List Nat) : State :=
  let hit (v : Vac) : Bool := v.cores.any cores.contains
  { (s.vacReqs.filter hit).foldl (fun s v => s.closeCores v.cores v.by_) s with vacReqs := s.vacReqs.filter fun v => !hit v }

/-- Steps 1 to 3 of a vacation (R330): every workgroup with a part on the cores is pre-empted, one placed there since the
request as well. Where none is left they close. -/
def State.vacStep (s : State) (v : Vac) : State :=
  let here (w : Workgroup) : Bool := w.parts.any fun p => v.cores.contains p.core
  if s.wgs.any here then (s.wgs.filter here).foldl (fun s w => s.preempt w.id) s
  else { s.closeCores v.cores v.by_ with vacReqs := s.vacReqs.filter fun x => x ≠ v }

/-- Vacations whose cores have not closed yet go on; part of what every step ends with. -/
def State.vacGo (s : State) : State := s.vacReqs.foldl State.vacStep s

/-- THE REQUEST TO VACATE CORES (R330). -/
def State.vacateCores (s : State) (cores : List Nat) (by_ : Closer) : State :=
  State.vacStep { s with vacReqs := s.vacReqs ++ [⟨cores, by_⟩] } ⟨cores, by_⟩

/-! Shapes and fits (R161, R323). -/

/-- What a part of a workgroup needs of its core. -/
structure PartNeed where
  waves : Nat
  regs  : Nat
  scr   : Nat
  acc   : Nat
  deep  : Nat
  deriving DecidableEq, Repr

def recNeeds (im : BitVec 512) : List PartNeed :=
  (List.range (recCores im)).map fun j =>
    let ws := (List.range (recWaves im)).filter fun w => w / recPer im = j
    ⟨ws.length, ws.foldl (fun a w => a + (recRole im w).2) 0, rfld im 320 22, rfld im 351 11, rfld im 342 9⟩

/-- The core could hold the part if it were empty. -/
def State.capFits (s : State) (n : Nat) (d : PartNeed) : Bool :=
  d.waves ≤ 256 && d.regs ≤ s.regTotal n && d.scr ≤ 65536 * (s.scrTop n - s.regTop n)
    && d.acc ≤ 64 * (s.accTop n - s.scrTop n) && d.deep ≤ 16 * (s.roleBanks n 1).length && !(s.coreOf n).retired

/-- The core can take the part now. -/
def State.nowFits (s : State) (n : Nat) (d : PartNeed) : Bool :=
  s.capFits n d && (s.slotsUsed n).length + d.waves ≤ 256 && d.regs ≤ s.regFree n && (s.scrFit n d.scr).isSome
    && (s.accFit n d.acc).isSome && (s.deepFit n d.deep).isSome && s.rf (rPOOL_REG_TOP n) 18 1 = 0

def combos : Nat → List Nat → List (List Nat)
  | 0, _ => [[]]
  | _ + 1, [] => []
  | k + 1, a :: r => (combos k r).map (a :: ·) ++ combos (k + 1) r

/-- Sets of cores of one cluster and of a world, in a partition. -/
def State.coreSets (s : State) (q P : Nat) (world : Bool) : List (List Nat) :=
  let cs := (s.partCores q).filter fun n => s.coreSecure n = world
  (dedup (cs.map (· / 8))).flatMap fun cl => combos P (cs.filter fun n => n / 8 = cl)

/-- A set of `P` cores of one cluster and of a world, in ascending order. -/
def State.isCoreSet (s : State) (q P : Nat) (world : Bool) (cores : List Nat) : Bool :=
  cores.length = P && (cores.zip (cores.drop 1)).all (fun x => x.1 < x.2)
    && cores.all fun n => n / 8 = cores.headD 0 / 8 && (s.partCores q).contains n && s.coreSecure n = world

def zipAll (f : Nat → PartNeed → Bool) (cores : List Nat) (needs : List PartNeed) : Bool :=
  cores.length = needs.length && (cores.zip needs).all fun x => f x.1 x.2

/-- A set of cores that a workgroup of record `rid` can be placed on now: none closed, but by that record's own gang. -/
def State.canPlace (s : State) (q : Nat) (world : Bool) (rid : Nat) (cores : List Nat) (needs : List PartNeed) : Bool :=
  s.isCoreSet q needs.length world cores && zipAll s.nowFits cores needs
    && cores.all fun n => (s.coreOf n).closers.all fun c => c = .gang rid

/-! Readiness (R323, R326, R331). -/

/-- The gang status word (R331). -/
def State.writeGang (s : State) (r : Rec) (late started : Bool) : State :=
  match s.asidAcc r.q r.ctx.asid (rfld r.image 384 57) with
  | none => s
  | some (a, s1) => s1.putEngine a 8 (rfld r.image 441 7 + (if late then 256 else 0) + (if started then 512 else 0))

/-- A gang record that becomes ready vacates the fewest cores its first workgroup needs, those whose workgroups have
the lowest priority (R331). -/
def State.gangReady (s : State) (r : Rec) : State :=
  if rfld r.image 384 57 = 0 then s
  else
    let needs := recNeeds r.image
    let busy (cs : List Nat) : List Nat := ((cs.zip needs).filter fun x => !s.nowFits x.1 x.2).map (·.1)
    let prio (cs : List Nat) : Nat := (s.wgs.filter fun w => w.parts.any fun p => cs.contains p.core).foldl (fun a w => max a w.prio) 0
    let sets := (s.coreSets r.q needs.length r.ctx.world).filter fun cs =>
      zipAll s.capFits cs needs && cs.all fun n => !(s.coreOf n).closed
    match minBy (fun cs => 8 * (busy cs).length + prio (busy cs)) sets with
    | none => s
    | some cs =>
      let v := busy cs
      if v = [] then s
      else
        let late := s.wgs.any fun w => w.inRegion && w.parts.any fun p => v.contains p.core
        let s1 := (s.vacateCores v (.gang r.id)).modRec r.id fun r => { r with gangCores := v, late := late }
        if late then s1.writeGang r true false else s1

def Rec.startPrio (r : Rec) : Nat := min (rfld r.image 57 3) r.ctx.prioMax

/-- A record becomes ready (R323). -/
def State.makeReady (s : State) (r : Rec) : State :=
  let s1 := (s.setRecState r 1).modRec r.id fun x => { x with since := s.clk, eprio := r.startPrio }
  s1.gangReady r

/-! Queues (R321, R322). -/

/-- limit := append index of the oldest record not done, plus 65,536; it only grows but for an enabling write (R321). -/
def State.updateLimit (s : State) (q n : Nat) (force : Bool) : State :=
  let x := s.queue q n
  let live := (s.recs.filter fun r => r.q = q && r.queue = n && r.primary = 0 && r.st < 3).map (·.index)
  let lim := minOr x.taken live + 65536
  let all := force || x.limitDue = some true
  match s.engineRead q (x.base + 16) 8 with
  | (.ok old, s1) =>
    let s2 := if x.limitDue.isSome then s1.setQueue { s1.queue q n with limitDue := none } else s1
    if all || old < lim then s2.engineWrite q (x.base + 16) 8 lim else s2
  | (.wait, s1) => s1.setQueue { s1.queue q n with limitDue := some all }
  | (.fault _, s1) => s1

/-- Cores vacated for a gang record are open to placement again (R331), but for what else closes them. -/
def State.openGang (s : State) (r : Rec) : State :=
  if r.gangCores = [] then s
  else (s.openCores r.gangCores (.gang r.id)).modRec r.id fun x => { x with gangCores := [] }

/-- A record ends (state 3 or 4). -/
def State.endRec (s : State) (r : Rec) (st : Nat) : State :=
  ((s.openGang r).setRecState r st).updateLimit r.q r.queue false

def State.ctxClosed (s : State) (q n : Nat) : Bool := s.ctxRuns.any fun c => c.q = q && c.num = n && c.closed

/-- Selection for audit at the take (R362): the Assayer is there from stage 2 on (R383). -/
def State.selects (s : State) (q : Nat) (im : BitVec 512) (index : Nat) : Bool :=
  s.stage = 2 && s.rf (rASY_CTL q) 0 1 = 1 && rfld im 60 1 = 1
    && (index % 65536 + s.rf (rASY_CTL q) 8 16) % 65536 % 2 ^ min 16 (s.rf (rASY_CTL q) 1 5) = 0

/-- A slot as the engine itself left it for a ready record: all but seq and the join counter (R322). -/
def slotBits (im : BitVec 512) : BitVec 512 := im &&& ~~~((0xFFFF#512 <<< 448) ||| (0xFFFF#512 <<< 192))

/-- The slot of the next index still holds the ready record that the engine took from it 65,536 indexes ago: nobody has
written it since, and the engine waits there (R322). -/
def State.slotKept (s : State) (q n taken : Nat) (im : BitVec 512) : Bool :=
  s.recs.any fun y => y.q = q && y.queue = n && y.primary = 0 && y.st = 1 && y.index ≠ taken && y.index % 65536 = taken % 65536
    && slotBits y.image = slotBits im

/-- THE TAKE OF ONE SLOT (R320, R322): answers whether a record was taken. The queues of a quarter that leads no partition are
out of reach (R386). -/
def State.takeSlot (s : State) (q n : Nat) : Got Bool × State :=
  let x := s.queue q n
  let va := slotVa x.base x.taken
  if !x.en || !s.leads q || s.rf (rSCH_CTL q) 0 1 = 0 then (.ok false, s)
  else
    match s.engineRead q va 64 with
    | (.ok v, s1) =>
      let im := BitVec.ofNat 512 v
      if rfld im 464 3 ≠ 1 || s1.slotKept q n x.taken im then (.ok false, s1)
      else
        let (d, s2) := s1.descOf q (rfld im 208 12)
        let ok := recordOk im && bitAt (d.extractLsb' 128 64) n && rfld d 1 1 = rfld im 220 1
        let (id, s3) := s2.fresh
        let i := x.taken
        let r : Rec := { id := id, q := q, queue := n, index := i, image := im, ref := refOf n i,
                         ctx := ctxFrom q (rfld im 208 12) d 0, count := rfld im 192 16, st := 0, since := s3.clk,
                         audit := if ok && s3.selects q im i then .selected else .none }
        let s4 : State := { s3 with recs := (s3.recs.filter fun y =>
            !(y.q = q && y.queue = n && y.index % 65536 = i % 65536)) ++ [r] }
        let s5 := (s4.engineWrite q (va + 56) 2 (i % 65536)).setQueue { x with taken := i + 1 }
        let s6 := s5.engineWrite q (x.base + 8) 8 (i + 1)
        let s7 := if !ok then (s6.incRf (rSCH_STAT q) 0 16).setRecState r 4
          else if s6.ctxClosed q r.ctx.num then s6.setRecState r 4
          else if r.count = 0 then s6.makeReady r else s6.setRecState r 0
        (.ok true, s7.updateLimit q n false)
    | (.wait, s1) => (.wait, s1)
    | (.fault _, s1) => (.ok false, s1)

def execRecordTake (q queue : Nat) (s : State) : Host.Outcome State Fault Refusal :=
  .next (s.transact (fun s => (s.takeSlot q queue).2) fun x => x)

/-- Takes the slots that stand ready, in order up to an append index: false where one is still on its way. -/
def State.takeUpTo (s : State) (q n index : Nat) : Nat → Bool × State
  | 0 => (true, s)
  | fuel + 1 =>
    if index < (s.queue q n).taken then (true, s)
    else
      match s.takeSlot q n with
      | (.ok true, s1) => s1.takeUpTo q n index fuel
      | (.wait, s1) => (false, s1)
      | (_, s1) => (true, s1)

/-- The record at a reference's slot, as a decrement finds it (R211, R325): where none that is not done stands there, the
slots that stand ready are taken first, so that a record appended and not yet taken is found. False while a slot is on
its way. -/
def State.findRef (s : State) (q : Nat) (ref : Word) : Bool × State :=
  if (s.lookRef q ref).any fun r => r.st < 3 then (true, s)
  else
    let k := wfld ref 0 6
    let x := s.queue q k
    s.takeUpTo q k (x.taken + (wfld ref 6 26 + 65536 - x.taken % 65536) % 65536) 65537

/-- Every page of a queue's image is mapped rd and wr in the global half (R321). -/
def State.imageMapped (s : State) (q base : Nat) : Bool :=
  base / 2 ^ 56 % 2 = 1 && (List.range 65).all fun k =>
    match (s.walk q 0 (base + 65536 * k)).res with
    | .ok l => l.rd && l.wr && !l.isReg
    | .error _ => false

/-- A queue is enabled: taken is read from its image, once that line has come, and limit is written (R321, R332). -/
def State.enableQueue (s : State) (x : Queue) : State :=
  match s.engineRead x.q (x.base + 8) 8 with
  | (.ok t, s1) => (s1.setQueue { x with en := true, taken := t, enabling := false }).updateLimit x.q x.num true
  | (.wait, s1) => s1.setQueue { x with enabling := true }
  | (.fault _, s1) => s1.setQueue { x with fault := true, enabling := false }

/-- A WRITE OF SCH_QBASE (R321, R332). -/
def State.writeQbase (s : State) (q : Nat) (v : Word) (sec : Bool) : State :=
  if !s.leads q then s
  else if s.partSecure q && !sec then s.violation (rSCH_QBASE q)
  else
    let x := s.queue q (s.rf (rSCH_QIDX q) 0 6)
    let y : Queue := if x.en then x else { x with base := 65536 * wfld v 16 41 }
    if bitAt v 0 = x.en then s.setQueue { y with enabling := false }
    else if x.en then s.setQueue { y with en := false }
    else if !s.imageMapped q y.base then s.setQueue { y with fault := true }
    else s.enableQueue y

/-- What the queue engine has still to do once lines of host memory have come: enable a queue, write a limit. -/
def State.queueGo (s : State) : State :=
  (s.queues.filter fun x => s.leads x.q).foldl (fun s x =>
    let s1 := if x.enabling && !x.en then s.enableQueue (s.queue x.q x.num) else s
    if (s1.queue x.q x.num).limitDue.isSome then s1.updateLimit x.q x.num false else s1) s

def execQueueEnableWrite (q : Nat) (v : Word) (sec : Bool) (s : State) : Host.Outcome State Fault Refusal :=
  .next (s.writeQbase q v sec)

/-! The engine's side of SPAWN and JDEC (R210, R211). -/

/-- A decrement: the result code, the counter after it, and the state. -/
def State.decJoin (s : State) (r : Rec) (n : Nat) : Nat × Nat × State :=
  if r.count = 0 then (3, 0, s)
  else
    let c := r.count - n
    let s1 := (s.modRec r.id fun x => { x with count := c }).engineWrite r.q (slotVa (s.queue r.q r.queue).base r.index + 24) 2 c
    (if r.count < n then 1 else 0, c, if c = 0 && r.st = 0 then s1.makeReady { r with count := 0 } else s1)

/-- JDEC at the queue engine (R211): its status, or none while a slot of the queue is on its way. -/
def State.jdecOp (s : State) (c : Ctx) (ref : Word) (n : Nat) : Option Word × State :=
  if n = 0 ∨ 65535 < n then (some 5, s)
  else if !bitAt c.queues (wfld ref 0 6) then (some 4, s)
  else
    let (ok, s0) := s.findRef c.q ref
    if !ok then (none, s0)
    else
      match s0.lookRef c.q ref with
      | none => (some 2, s0)
      | some r =>
        let (code, m, s1) := s0.decJoin r n
        (some (BitVec.ofNat 64 (m * 2 ^ 16 + code)), s1)

/-- Whether the engine can write where it can read. -/
def State.engineWritable (s : State) (q va : Nat) : Bool :=
  match (s.walk q 0 va).res with
  | .ok l => l.rd && l.wr && !l.isReg
  | .error _ => false

/-- SPAWN at the queue engine: its status, or none where a line of the image is still on its way. -/
def State.spawnOp (s : State) (c : Ctx) (queue : Word) (rec : BitVec 512) : Option Word × State :=
  let bad (s : State) (n : Nat) : Option Word × State := (some (BitVec.ofNat 64 (n * 2 ^ 48)), s)
  let k := queue.toNat
  let x := s.queue c.q k
  let im := (rec &&& ~~~(0x1FFF#512 <<< 208)) ||| BitVec.ofNat 512 (c.num * 2 ^ 208 + (if c.world then 2 ^ 220 else 0))
  if 64 ≤ k || !bitAt c.queues k || !x.en then bad s 2
  else if !recordOk im then bad s 4
  else
    match s.engineRead c.q x.base 8, s.engineRead c.q (x.base + 16) 8 with
    | (.ok i, _), (.ok lim, _) =>
      let va := slotVa x.base i
      if !(s.engineWritable c.q x.base && s.engineWritable c.q va) then bad s 2
      else if lim ≤ i then bad s 1
      else
        match s.engineRead c.q va 64 with
        | (.ok _, s1) =>
          let slot := (im &&& ~~~(0x7FFFF#512 <<< 448)) ||| (1#512 <<< 464)
          (some (refOf k i), (s1.engineWrite c.q x.base 8 (i + 1)).engineWrite c.q va 64 slot.toNat)
        | (.wait, s1) => (none, s1)
        | (.fault _, s1) => bad s1 2
    | (.wait, s1), _ => (none, s1)
    | _, (.wait, s1) => (none, s1)
    | _, _ => bad s 2

/-! Placement (R323, R324, R326). -/

/-- The ranges of a record's range block, or none where it breaks the table of R360. -/
def rangesOf (b : List Byte) : Option (List (Bool × Nat × Nat)) :=
  let byte (i : Nat) : Nat := (b.getD i 0).toNat
  let n := natOfBytes
  let nin := byte 0
  let nout := byte 1
  let ent (e : Nat) : Nat × Nat × Nat := (n ((b.drop (16 + 16 * e)).take 8), n ((b.drop (24 + 16 * e)).take 4), n ((b.drop (28 + 16 * e)).take 4))
  let es := (List.range (nin + nout)).map ent
  let rs := es.zipIdx.map fun x => (decide (nin ≤ x.2), x.1.1, x.1.2.1)
  if 15 < nin || nout = 0 || 15 < nout || n ((b.drop 2).take 14) ≠ 0
      || es.any (fun e => 2 ^ 57 ≤ e.1 || e.1 % 65536 ≠ 0 || e.2.1 = 0 || 2 ^ 24 < e.2.1 || e.2.2 ≠ 0)
      || rs.any (fun x => x.1 && rs.any fun y => !y.1 && x.2.1 < y.2.1 + 65536 * y.2.2 && y.2.1 < x.2.1 + 65536 * x.2.2) then none
  else some rs

/-- A thread as a workgroup starts it (R324), and one above the thread count (R156). -/
def startThread (code : Nat) (runs : Bool) : Thread :=
  { pc := pcAt (BitVec.ofNat 57 code), status := if runs then .eligible else .exited }

/-- The lowest free wave slots of a core. -/
def State.freeSlots (s : State) (n : Nat) : List Nat := (List.range 256).filter fun k => !(s.slotsUsed n).contains k

/-- The waves of a workgroup (R156, R161, R163, R324). -/
def State.startWaves (s : State) (im : BitVec 512) (ref : Word) (cores : List Nat) (from_ : Nat) : List Wave :=
  (List.range (recWaves im)).map fun w =>
    let (role, n) := recRole im w
    let p := w / recPer im
    { role := role, part := p, slot := (s.freeSlots (cores.getD p 0)).getD (w % recPer im) 0, n := n,
      threads := (List.range 64).map fun l => startThread (rfld im 0 57) (decide (64 * w + l ≤ rfld im 256 16)),
      sregs := SMap.put 0 (SMap.put 0 [] 0 (BitVec.ofNat 64 (rfld im 64 57))) 1 ref,
      region := rfld im 62 1 = 1, nextAt := from_, readyAt := from_ }

/-- Parts of a workgroup on their cores (R121, R124, R166, R278); their regions carry the context's owner generation (R112,
R355). -/
def State.startParts (s : State) (im : BitVec 512) (cores : List Nat) (gen : Byte) : List Part :=
  (cores.zip (recNeeds im)).map fun x =>
    { core := x.1, scrBase := (s.scrFit x.1 x.2.scr).getD 0, scrBytes := x.2.scr,
      d0 := 65536 * (s.deepFit x.1 x.2.deep).getD 0, deepUnits := x.2.deep, accBase := (s.accFit x.1 x.2.acc).getD 0,
      accKib := x.2.acc, gen := gen, budget := x.2.regs }

/-- A core wakes from retention sleep (R120, R384). -/
def State.wakeCore (s : State) (n : Nat) : State :=
  if (s.coreOf n).asleep then
    { s.modCore n fun x => { x with asleep := false } with
      l1 := s.l1.filter (fun x => x.core ≠ n), l1fills := s.l1fills.filter fun x => x.core ≠ n }
  else s

/-- What placing a workgroup of a context on a core does there: the core wakes, acquires at dev scope, and reads layout
entries afresh. -/
def State.arrive (s : State) (c : Ctx) (n : Nat) : State :=
  let s1 := (s.wakeCore n).advanceNow n
  { s1 with layCache := s1.layCache.filter fun e => !(e.core = n && e.ctx = c.num && e.q = c.q) }

/-- A WORKGROUP STARTS (R324, R326): `k` is its number in the record, `r` the record whose run it belongs to. -/
def State.startWg (s : State) (r : Rec) (c : Ctx) (k : Nat) (cores : List Nat) : State :=
  let s1 := cores.foldl (fun s n => s.arrive c n) s
  let (id, s2) := s1.fresh
  let t := s2.clk + 64 + cdiv (rfld r.image 320 22 + 1024 * rfld r.image 351 11) 1024
  let w : Workgroup :=
    { id := id, recId := r.id, ref := r.ref, wg := k, ctx := c, prio := min (rfld r.image 57 3) c.prioMax,
      threads := rfld r.image 256 16 + 1, parts := s2.startParts r.image cores (s2.ctxRun c.q c.num).gen,
      waves := s2.startWaves r.image r.ref cores t, rods := List.replicate 16 {} }
  let s3 : State := { s2 with wgs := s2.wgs ++ [w] }
  s3.modRec r.id fun x => { x with placed := x.placed + 1, cores := x.cores ++ [(k, cores)] }

/-- A record is refused at placement (R323): counted, reported where its save area can be trusted, and ended. -/
def State.refusePlace (s : State) (r : Rec) (c : Ctx) (tell : Bool) : State :=
  let s1 := s.incRf (rSCH_STAT r.q) 32 16
  let s2 := if tell then (s1.report r.q c.save .place (reportEntry .place 0 0 0 r.ref.toNat 0)).2 else s1
  let s3 := s2.modRec r.id fun x => { x with closed := true, terminated := true }
  if r.placed = r.exited then s3.endRec r 4 else s3

/-- The range block as placement reads it (R360): a fault refuses the record, which waits while the block is on its way. -/
def State.readRanges (s : State) (r : Rec) (c : Ctx) : Got (List (Bool × Nat × Nat)) × State :=
  if rfld r.image 60 2 = 0 then (.ok [], s)
  else if r.placed ≠ 0 then (.ok r.ranges, s)
  else
    match s.asidAcc r.q c.asid (rfld r.image 64 57) with
    | none => (.fault .notPresent, s)
    | some (a, s1) =>
      match s1.readVirt a 512 with
      | (.ok b, s2) => (match rangesOf b with
        | some l => .ok l
        | none => .fault .bounds, s2)
      | (.wait, s2) => (.wait, s2)
      | (.fault c, s2) => (.fault c, s2)

/-- What placement has of the range block, where it is sound (R360). -/
def Got.ranges (g : Got (List (Bool × Nat × Nat))) : List (Bool × Nat × Nat) :=
  match g with
  | .ok l => l
  | _ => []

/-- Placement of the next workgroup of a record on `cores`: refused, placed, or waiting. -/
def State.placeNext (s : State) (r : Rec) (cores : List Nat) : State × Bool :=
  let (d, s1) := s.descOf r.q r.ctx.num
  let (c, s2) := s1.ctxAt r.q r.ctx.num d
  let needs := recNeeds r.image
  if s2.descBad r.q d then (s2.refusePlace r c false, false)
  else
    let (rs, s3) := s2.readRanges r c
    let world : Bool := bitAt (s3.reg (rWLD_QUEUE r.q)) r.queue
    let broken : Bool := match rs with
      | .fault _ => true
      | _ => false
    if !s3.ctxSecure r.q c || world ≠ c.world || broken || 256 < recPer r.image
        || !(s3.coreSets r.q needs.length c.world).any (fun cs => zipAll s3.capFits cs needs) then
      (s3.refusePlace r c true, false)
    else if rs = .wait then (s3, false)
    else if !s3.canPlace r.q c.world r.id cores needs then (s2, false)
    else
      let first := r.placed = 0
      let staging := rfld r.image 61 1 = 1 || r.audit = .selected
      let s4 := s3.modRec r.id fun x => { x with ctx := c, ranges := rs.ranges, staging := staging, since := s3.clk }
      let s5 := s4.openGang r
      let r1 := { r with ctx := c }
      let s6 := s5.startWg r1 c r.placed cores
      let s7 := s6.modRec r.id fun x => { x with eprio := r1.startPrio }
      let s8 := if r.st = 1 then s7.setRecState r 2 else s7
      (if first && rfld r.image 384 57 ≠ 0 then s8.writeGang r1 r.late true else s8, true)

/-! The choice of a workgroup (R326). -/

/-- A record with a workgroup to place. -/
def Rec.wants (r : Rec) : Bool :=
  (r.st = 1 || r.st = 2) && r.placed < rfld r.image 224 32 && !r.closed && r.primary = 0 && r.halt = 0

/-- DEFICIT ROUND-ROBIN of R326 at one level: `cur` is one more than the current queue; 0, or `64 + k`, where none is current
and queue 0, or `k`, comes next. -/
def drr (pick : Nat → Option (Rec × Nat)) (quantum : Nat → Nat) : Nat → Nat → SMap Nat → Option (Rec × Nat × Nat × SMap Nat)
  | 0, _, _ => none
  | fuel + 1, cur, d =>
    let step (d : SMap Nat) : Nat × SMap Nat :=
      let k := cur % 64
      (k + 1, SMap.put 0 d k (SMap.get 0 d k + quantum k))
    if cur = 0 || 64 < cur then drr pick quantum fuel (step d).1 (step d).2
    else
      match pick (cur - 1) with
      | none =>
        let d1 := SMap.put 0 d (cur - 1) 0
        drr pick quantum fuel (step d1).1 (step d1).2
      | some (r, cost) =>
        if SMap.get 0 d (cur - 1) < cost then drr pick quantum fuel (step d).1 (step d).2
        else some (r, cost, cur, d)

/-- Oldest record of a queue at a level; one that a rollback has put at the head leads, the latest first (R361). -/
def State.oldestAt (s : State) (q lv n : Nat) : Option Rec :=
  minBy (fun r => (s.nextId - r.front) * 2 ^ 64 + r.index) (s.recs.filter fun r => r.q = q && r.queue = n && r.wants && r.eprio = lv)

/-- Placement stops on quarters that are quiesced (R382), while stage 0 or 1 of start runs (R383), and in recovery, which has
no cores (R377). -/
def State.quiet (s : State) (q : Nat) : Bool :=
  s.mgmt.running = some 0 || s.mgmt.running = some 1 || s.recovery || (s.quartersOf q).any fun p => bitAt s.quiescing p || s.rf rPART_STAT (5 + p) 1 = 1

/-- No record of a level is left: the turn passes every queue, and each loses its deficit (R326). -/
def State.noWork (s : State) (q lv cur : Nat) : State :=
  { s with queues := s.queues.map (fun x => if x.q = q then { x with deficit := SMap.put 0 x.deficit lv 0 } else x),
           turn := SMap.put 0 s.turn (8 * q + lv) (64 + cur) }

/-- ONE STEP OF PLACEMENT in a partition: the workgroup the rules choose next, on `cores` where they fit it. A saved
workgroup of equal or higher priority is placed again first (R330). -/
def State.placeStep (s : State) (q : Nat) (cores : List Nat) : State :=
  let cand := s.recs.filter fun r => r.q = q && r.wants
  if s.rf (rSCH_CTL q) 0 1 = 0 || !s.leads q || s.quiet q || cand = [] then s
  else
    let lv := cand.foldl (fun a r => max a r.eprio) 0
    if s.images.any fun i => i.wg.ctx.q = q && lv ≤ i.wg.prio then s
    else
      let pick (n : Nat) : Option (Rec × Nat) := (s.oldestAt q lv n).map fun r => (r, recWaves r.image)
      let qn (n : Nat) : Nat := max 1 (s.queue q n).quantum.toNat
      let d0 : SMap Nat := (List.range 64).foldl (fun m n => SMap.put 0 m n (SMap.get 0 (s.queue q n).deficit lv)) []
      match drr pick qn 131072 (SMap.get 0 s.turn (8 * q + lv)) d0 with
      | none => s
      | some (r, cost, cur, d) =>
        let keep (s : State) (d : SMap Nat) : State :=
          (List.range 64).foldl (fun s n =>
            if SMap.get 0 d n = SMap.get 0 (s.queue q n).deficit lv then s
            else s.setQueue { s.queue q n with deficit := SMap.put 0 (s.queue q n).deficit lv (SMap.get 0 d n) })
            { s with turn := SMap.put 0 s.turn (8 * q + lv) cur }
        let (s1, placed) := s.placeNext r cores
        let s2 := keep s1 (if placed then SMap.put 0 d (cur - 1) (SMap.get 0 d (cur - 1) - cost) else d)
        if s2.recs.any fun r => r.q = q && r.wants && r.eprio = lv then s2 else s2.noWork q lv cur

def execWorkgroupPlacement (q : Nat) (cores : List Nat) (s : State) : Host.Outcome State Fault Refusal :=
  .next (s.transact (fun s => s.placeStep q cores) fun x => x)

/-- Each full 2 ms without a placement raises a ready record's effective priority (R326). -/
def State.ageRec (s : State) (id : Nat) : State :=
  match s.recs.find? fun r => r.id = id with
  | none => s
  | some r =>
    if r.wants && s.usAfter r.since 2000 ≤ s.clk then
      s.modRec id fun x => { x with eprio := min 7 (x.eprio + 1), since := s.usAfter r.since 2000 }
    else s

def execPriorityAging (rec : Nat) (s : State) : Host.Outcome State Fault Refusal := .next (s.ageRec rec)

/-! Completion (R325, R348, R360). -/

/-- Every workgroup that will be placed has ended. -/
def Rec.over (r : Rec) : Bool :=
  r.st < 3 && r.halt = 0 && r.placed = r.exited && (r.closed || r.placed = rfld r.image 224 32)

/-- The staged lines of a record become ordinary dirty lines (R360). -/
def State.publish (s : State) (id : Nat) : State :=
  { s with lines := s.lines.map fun l => if l.staged = some id && !l.shadow then { l with staged := none } else l }

/-- One successor of a completing record (R325): skipped and counted, or decremented; none while its entry, or a slot of its
queue, is on its way. -/
def State.successor (s : State) (r : Rec) (j : Nat) : Bool × State :=
  let bad (s : State) : Bool × State := (true, s.incRf (rSCH_STAT r.q) 16 16)
  match s.asidAcc r.q r.ctx.asid (rfld r.image 128 57 + 8 * j) with
  | none => bad s
  | some (a, s1) =>
    match s1.readVirt a 8 with
    | (.ok b, s2) =>
      let ref := BitVec.ofNat 64 (natOfBytes b)
      if !bitAt r.ctx.queues (wfld ref 0 6) then bad s2
      else
        let (ok, s3) := s2.findRef r.q ref
        if !ok then (false, s3)
        else
          match s3.lookRef r.q ref with
          | none => bad s3
          | some t => (true, (s3.decJoin t 1).2.2)
    | (.fault _, s2) => bad s2
    | (.wait, s2) => (false, s2)

/-- COMPLETION OF A RECORD, after its release: its successors in order, each once, and then it is done (R325). -/
def State.completeRec (s : State) (id : Nat) : Nat → State
  | 0 => s
  | fuel + 1 =>
    match s.recs.find? fun r => r.id = id with
    | none => s
    | some r =>
      if rfld r.image 185 7 < r.succ then s.endRec r 3
      else
        let (ok, s1) := s.successor r (r.succ - 1)
        if ok then (s1.modRec id fun x => { x with succ := x.succ + 1 }).completeRec id fuel else s1

/-- A record all of whose workgroups have ended completes, takes state 4, or waits for its audit (R325, R348, R363). -/
def State.finishRec (s : State) (id : Nat) : State :=
  match s.recs.find? fun r => r.id = id && r.primary = 0 && r.over with
  | none => s
  | some r =>
    if r.terminated || r.closed then (s.publish r.id).endRec r 4
    else if r.audit = .selected then s
    else if r.succ = 0 && !s.hostIdle r.q r.ctx.asid then s.flushHost r.q r.ctx.asid
    else
      let s1 := if r.succ = 0 then (s.publish r.id).modRec id fun x => { x with succ := 1 } else s
      s1.completeRec id 130

def execRecordComplete (rec : Nat) (s : State) : Host.Outcome State Fault Refusal :=
  .next (s.transact (fun s => s.finishRec rec) fun x => x)

/-! Scheduler commands (R330, R332). -/

/-- A command of the scheduler ends. -/
def State.schEnd (s : State) (q res : Nat) : State :=
  (((s.setRf (rSCH_CMD_STAT q) 1 3 res).setRf (rSCH_CMD_STAT q) 0 1 0).setRf (rSCH_CMD_STAT q) 4 1 1).raise q 3

/-- Cores of the masks. -/
def State.vmask (s : State) (q : Nat) : List Nat :=
  (List.range 256).filter fun n => bitAt (s.reg (rSCH_VMASK q (n / 64))) (n % 64)

/-- A WRITE OF SCH_CMD (R330, R332). -/
def State.schCommand (s : State) (q op : Nat) (sec : Bool) : State :=
  if !s.leads q then s
  else if s.partSecure q && !sec then s.violation (rSCH_CMD q)
  else if op ≠ 1 ∧ op ≠ 2 then
    (if s.rf (rSCH_CMD_STAT q) 0 1 = 1 then s.setRf (rSCH_CMD_STAT q) 1 3 3 else s.schEnd q 3)
  else if s.rf (rSCH_CMD_STAT q) 0 1 = 1 then s.setRf (rSCH_CMD_STAT q) 1 3 1
  else
    let cs := s.vmask q
    if cs.any fun n => !(s.partCores q).contains n || (s.coreOf n).retired then s.schEnd q 2
    else if op = 2 then
      State.schEnd { cs.foldl (fun s n => s.modCore n fun x => { x with closers := [] }) s with
        vacReqs := s.vacReqs.filter fun v => !(v.by_ = .vacation && v.cores.all cs.contains) } q 0
    else
      let s1 := (s.setRf (rSCH_CMD_STAT q) 0 1 1).vacateCores cs .vacation
      { s1 with vacating := SMap.insert s1.vacating q cs }

def execVacate (q : Nat) (sec : Bool) (s : State) : Host.Outcome State Fault Refusal := .next (s.schCommand q 1 sec)
def execReopen (q : Nat) (sec : Bool) (s : State) : Host.Outcome State Fault Refusal := .next (s.schCommand q 2 sec)
/-- Commands of another code: BAD_OP; a code that is a command is that command. -/
def execSchBadOp (q : Nat) (op : BitVec 4) (sec : Bool) (s : State) : Host.Outcome State Fault Refusal :=
  .next (s.schCommand q op.toNat sec)

/-- The command ends when the requested cores hold no workgroup. -/
def State.vacated (s : State) (q : Nat) : State :=
  match SMap.find s.vacating q with
  | none => s
  | some cs =>
    if cs.all s.coreEmpty then State.schEnd { s with vacating := SMap.erase s.vacating q } q 0 else s

def execVacateDone (q : Nat) (s : State) : Host.Outcome State Fault Refusal := .next (s.vacated q)

/-- The bound of a non-pre-emptible region runs out (R213): the workgroup is pre-empted, and each flagged wave's broken
bit is set. -/
def State.boundRuns (s : State) (wg : Nat) : State :=
  match s.wg? wg with
  | none => s
  | some w =>
    match w.npReq with
    | none => s
    | some t =>
      let us := min 8000 (max 1 (s.rf (rSCH_CTL w.ctx.q) 16 13))
      if s.clk < s.usAfter t us then s
      else (s.modWg wg fun w => { w with waves := w.waves.map fun v => if v.region && !v.ended then { v with broken := true } else v }).startSave wg

def execNpreemptBoundExpiry (wg : Nat) (s : State) : Host.Outcome State Fault Refusal := .next (s.boundRuns wg)

/-! Power and thermal control (R328, R329, R333). -/

/-- Pebbles held. -/
def State.pebblesHeld (s : State) : Nat :=
  (s.mq ++ s.mwait).foldl (fun a e => a + e.pebbles) 0 + s.running.foldl (fun a c => a + c.pebbles) 0

def State.setPebbles (s : State) (total : BitVec 13) : State := s.setRf rPWR_PEBBLE 0 13 (min 4096 total.toNat)

def execPebbleTotalChange (total : BitVec 13) (s : State) : Host.Outcome State Fault Refusal := .next (s.setPebbles total)

def execThermalRowGating (die : Nat) (on : Bool) (s : State) : Host.Outcome State Fault Refusal :=
  .next (if die < 4 then s.setRf rPWR_PEBBLE (32 + die) 1 (if on then 1 else 0) else s)

/-- Thermal control vacates a core (R329, R330): while a region on it is honoured, the die's rows are gated and the pool
is lowered. -/
def State.thermal (s : State) (n : Nat) (total : BitVec 13) : State :=
  if 256 ≤ n then s
  else
    let region := s.wgs.any fun w => w.onCore n && w.inRegion
    let s1 := if region then
        (s.setRf rPWR_PEBBLE (32 + n / 64) 1 1).setPebbles (if total.toNat < s.rf rPWR_PEBBLE 0 13 then total else BitVec.ofNat 13 (s.rf rPWR_PEBBLE 0 13))
      else s
    s1.vacateCores [n] .vacation

def execThermalVacate (core : Nat) (total : BitVec 13) (s : State) : Host.Outcome State Fault Refusal :=
  .next (s.thermal core total)

end Sys2Proof.Machine
end

