-- ==== Sys2Proof/Machine/Streamer.lean ====
section
/-! DEFINITION. The streamer and barrier objects (R95 to R113, R265 to R271): barrier objects and the threads that
wait on them, the checks and acceptance of a copy, its chunks, their reading and delivery, completion, copy faults, and
the instructions COPY to BTEST. -/
namespace Sys2Proof.Machine

/-! Barrier objects (R107 to R109). -/

/-- A barrier object by its fields. -/
structure Bar where
  inRem  : Int
  outRem : Int
  arrRem : Nat
  arrCnt : Nat
  phase  : Nat
  gen    : Nat
  ring   : Nat
  slot   : Nat
  err    : Bool
  resv   : Nat
  deriving DecidableEq, Repr

/-- The object at a scratchpad offset of a part. -/
def Part.bar (p : Part) (o : Nat) : Bar :=
  let x := natOfBytes (p.rd o 16)
  ⟨signed 24 (fld x 0 24), signed 24 (fld x 24 24), fld x 48 17, fld x 65 17, fld x 82 16, fld x 98 8, fld x 106 3,
    fld x 109 3, fld x 112 1 = 1, fld x 113 15⟩

/-- Two's complement of `n` bits. -/
def unsigned (n : Nat) (x : Int) : Nat := (x % (2 ^ n : Int)).toNat

def Part.setBar (p : Part) (o : Nat) (b : Bar) : Part :=
  p.wr o (bytesOfNat 16 (unsigned 24 b.inRem + unsigned 24 b.outRem * 2 ^ 24 + b.arrRem * 2 ^ 48 + b.arrCnt * 2 ^ 65
    + b.phase % 65536 * 2 ^ 82 + b.gen % 256 * 2 ^ 98 + b.ring * 2 ^ 106 + b.slot * 2 ^ 109
    + (if b.err then 2 ^ 112 else 0) + b.resv * 2 ^ 113))

/-- The three counts of R108. -/
inductive BCount where
  | arr | inb | out
  deriving DecidableEq, Repr

/-- ONE UPDATE OF A COUNT (R108): applied whole, checked at once; a phase that it completes begins the next. -/
def Bar.update (b : Bar) (k : BCount) (d : Int) : Bar :=
  let rangeOk (x : Int) : Bool := decide (-8388608 ≤ x) && decide (x ≤ 8388607)
  let b1 : Option Bar := match k with
    | .arr => if 0 ≤ (b.arrRem : Int) + d then some { b with arrRem := ((b.arrRem : Int) + d).toNat } else none
    | .inb => if rangeOk (b.inRem + d) then some { b with inRem := b.inRem + d } else none
    | .out => if rangeOk (b.outRem + d) then some { b with outRem := b.outRem + d } else none
  match b1 with
  | none => { b with err := true }
  | some c =>
    if c.arrRem = 0 ∧ c.inRem = 0 ∧ c.outRem = 0 then
      { c with phase := (c.phase + 1) % 65536, arrRem := if c.arrCnt = 0 then 65536 else c.arrCnt }
    else c

/-- The thread waits on a phase of a part's object that has completed; then the scope of its acquire. An update that sets err
traps BWAIT and BTEST that issue after it (R108); of a thread that waits already the manual says nothing: it waits on (DESIGN
CHOICE, log 83). -/
def Thread.phaseMet (t : Thread) (p : Part) : Option (BitVec 3) :=
  match t.status, t.waitOn with
  | .waiting, .barrier a k sc => if (p.bar a).phase ≠ k.toNat then some sc else none
  | _, _ => none

def Thread.wakeBar (t : Thread) (p : Part) : Thread :=
  if (t.phaseMet p).isSome then { t with status := .eligible, waitOn := .none } else t

/-- Threads of a wave whose phase has completed become eligible and acquire (R271). -/
def State.wakeWave (s : State) (wg k : Nat) (p : Part) (multi : Bool) : State :=
  match s.wave? wg k with
  | none => s
  | some v =>
    let scopes := v.threads.filterMap fun t => t.phaseMet p
    if scopes = [] then s
    else
      let s1 := s.modWave wg k fun v => { v with threads := v.threads.map fun t => t.wakeBar p }
      (if scopes.any fun sc => scopeAdvances sc multi then s1.advanceNow p.core else s1).settle wg k

/-- Threads of a part that wait on a phase that has completed. -/
def State.wakeBarriers (s : State) (wg part : Nat) : State :=
  match s.wg? wg with
  | none => s
  | some w => (w.wavesOfPart part).foldl (fun s k => s.wakeWave wg k (w.part part) w.multi) s

/-- An update of the object at an offset of a part. -/
def State.barCount (s : State) (wg part o : Nat) (k : BCount) (d : Int) : State :=
  (s.modPart wg part fun p => p.setBar o ((p.bar o).update k d)).wakeBarriers wg part

/-- A chunk counts down an object whose gen is that of acceptance; otherwise the drop is logged (R109). -/
def State.barChunk (s : State) (c : Copy) (r : BarRef) (k : BCount) (n : Nat) : State :=
  if ((s.partOf c.wg r.part).bar r.addr).gen = r.gen.toNat then s.barCount c.wg r.part r.addr k (-(n : Int))
  else s.countDropped c.save 1

/-! Boxes and chunks (R100, R104). -/

/-- Extents of the destination box: a transposing copy swaps dimensions 0 and 1. -/
def Copy.dbox (c : Copy) : List Nat :=
  if c.tr then
    match c.box with
    | a :: b :: r => b :: a :: r
    | l => l
  else c.box

def prodN (l : List Nat) : Nat := l.foldl (· * ·) 1

/-- Bytes of a row, and rows of the destination box. -/
def Copy.rowBytes (c : Copy) : Nat := c.dbox.headD 1 * c.w / 8
def Copy.rows (c : Copy) : Nat := prodN (c.dbox.drop 1)

/-- Box coordinates of row `r`, dimension 1 fastest; dimension 0 reads 0. -/
def Copy.rowAt (c : Copy) (r : Nat) : List Nat :=
  0 :: ((c.dbox.drop 1).foldl (fun (a : List Nat × Nat) n => (a.1 ++ [a.2 % n], a.2 / n)) ([], r)).1

def addC (a : List Int) (b : List Nat) : List Int := (a.zip b).map fun x => x.1 + (x.2 : Int)
def swap01 {α : Type} : List α → List α
  | a :: b :: r => b :: a :: r
  | l => l

/-- Byte address of a row's first byte in the destination space. -/
def Copy.rowPos (c : Copy) (r : Nat) : Int := (c.dst.bitAddr (addC c.dc (c.rowAt r)) c.w) / 8

/-- Chunks of a row. -/
def Copy.rowChunks (c : Copy) (r : Nat) : Nat := cdiv ((c.rowPos r % 128).toNat + c.rowBytes) 128

/-- Chunks of a copy on one destination. -/
def Copy.chunks (c : Copy) : Nat := (List.range c.rows).foldl (fun a r => a + c.rowChunks r) 0

/-- Row, and chunk within it, of a chunk index. -/
def Copy.findChunk (c : Copy) : Nat → Nat → Nat → Option (Nat × Nat)
  | 0, _, _ => none
  | fuel + 1, r, i => if i < c.rowChunks r then some (r, i) else c.findChunk fuel (r + 1) (i - c.rowChunks r)

/-- One byte of a chunk: its place in the destination space, its source address where some of its bits are read, and
the bits read and written (R105: clamp leaves the others out). -/
structure CByte where
  dst : Int
  src : Int
  rd  : Byte
  wr  : Byte
  deriving DecidableEq, Repr

/-- Whether an element of a box is in an entry's bounds. -/
def Layout.has (l : Layout) (base : List Int) (i : List Nat) : Bool := l.inb (addC base i)

/-- The bytes of a chunk. -/
def Copy.chunkBytes (c : Copy) (r k : Nat) : List CByte :=
  let row := c.rowAt r
  let pos := c.rowPos r
  let off := (pos % 128).toNat
  let lo := if k = 0 then 0 else 128 * k - off
  let hi := min c.rowBytes (128 * (k + 1) - off)
  (List.range' lo (hi - lo)).map fun t =>
    -- destination element that holds bit `b` of byte `t` of the row
    let el (b : Nat) : List Nat := ((8 * t + b) / c.w) :: row.drop 1
    let se (b : Nat) : List Nat := if c.tr then swap01 (el b) else el b
    let m (f : Nat → Bool) : Byte := (List.range 8).foldl (fun (a : Byte) b => if f b then a ||| (1#8 <<< b) else a) 0
    let src : Int := if c.tr then c.src.bitAddr (addC c.sc (se 0)) c.w / 8 + ((t % (c.w / 8) : Nat) : Int)
      else c.src.bitAddr (addC c.sc row) c.w / 8 + (t : Int)
    ⟨pos + t, src, m fun b => c.src.has c.sc (se b), m fun b => c.dst.has c.dc (el b)⟩

/-- The bytes of a chunk index. -/
def Copy.chunkAt (c : Copy) (i : Nat) : Option (List CByte) :=
  (c.findChunk c.rows 0 i).map fun x => c.chunkBytes x.1 x.2

/-! Copy faults (R110, R111). -/

/-- A copy fault: every incomplete copy of the workgroup is cancelled, and it terminates with a report; `va` is the failing
line's address. Chunks in flight that are still delivered before the report is written count in it. An uncorrectable error
rolls the record back instead, where it may (R359; log 70). -/
def State.copyFault (s : State) (c : Copy) (chunk : Nat) (cause : Cause) (side core va : Nat) : State :=
  let code := if cause.code ≤ 10 then cause.code else 15
  let stop (s : State) : State :=
    if (s.wg? c.wg).any fun w => w.fate = .ending then s
    else (s.terminate c.wg .copy 0 (c.copyId.toNat + code * 2 ^ 12 + side * 2 ^ 16 + core * 2 ^ 17
      + chunk * 2 ^ 25 + c.bytes % 2 ^ 32 * 2 ^ 57 + va % 2 ^ 57 * 2 ^ 89)).modWg c.wg fun w => { w with lastCopy := some c.id }
  if cause = .ue then s.disposeUe c.wg stop else stop s

/-- The address of the line that holds a byte of an address space, as a report shows it. -/
def lineVa (a : Int) : Nat := (a / 128 * 128 % 2 ^ 57).toNat

/-- The page checks of a copy's access (R59, R129, R385). -/
def State.copyCheck (s : State) (c : Copy) (w : Workgroup) (e : Layout) (va : Int) (need : Need) :
    Except Cause Leaf × State :=
  let (r, s1) := s.check c.core w.ctx.asid w.ctx.world va need
  match r with
  | .error x => (.error x, s1)
  | .ok l =>
    if l.isReg || (e.space = 4 && !l.so) || (e.space = 5 && !l.loc) then (.error .perm, s1) else (.ok l, s1)

def Copy.acc (c : Copy) (w : Workgroup) (leaf : Leaf) (va : Nat) : Acc1 :=
  { q := w.ctx.q, asid := effAsid w.ctx.asid va, va := va, leaf := leaf, hint := c.lvl, who := some w.recId,
    die := c.core / 64, eng := c.id }

/-- The line whose read ends with a cause, of some that were to be read. -/
def State.failingLine (s : State) (l : List (Acc1 × Line)) (c : Cause) : Nat :=
  ((l.find? fun a => decide ((s.readLine a.1 a.2).1 = .fault c)).map fun a => a.1.va).getD 0

/-! Reading a chunk's source (R99, R102, R103, R108). -/

/-- The chunk's source bytes are held, and counted against the source object. -/
def State.keepChunk (s : State) (c : Copy) (i : Nat) (bytes : List Byte) (tag : Option Byte) (n : Nat) (cut : Bool) : State :=
  let s1 : State := { s with copies := s.copies.map fun x =>
    if x.id = c.id then { x with read := x.read ++ [(i, bytes, tag)], clamped := x.clamped || cut, outDone := x.outDone ++ [i] } else x }
  match c.srcObj with
  | some r => if n = 0 || c.outDone.contains i then s1 else s1.barChunk c r .out n
  | none => s1

/-- How reading a chunk's source ends. -/
inductive Sourced where
  | ok (data : List Byte) (tag : Option Byte)
  | fault (c : Cause) (va : Nat)
  | wait
  deriving DecidableEq, Repr

/-- The source bytes of a chunk in memory (R99, R103). -/
def State.chunkSource (s : State) (c : Copy) (w : Workgroup) (bs : List CByte) : Sourced × State :=
  let want := bs.filter fun b => b.rd ≠ 0
  let lines := dedup (want.map fun b => b.src / 128)
  let step (a : Except (Cause × Int) (List (Acc1 × Line)) × State) (ln : Int) :
      Except (Cause × Int) (List (Acc1 × Line)) × State :=
    match a.1 with
    | .error x => (.error x, a.2)
    | .ok l =>
      let first := (want.find? fun b => b.src / 128 = ln).map (·.src)
      let (r, s1) := a.2.copyCheck c w c.src (first.getD 0) .rd
      match r with
      | .error x => (.error (x, first.getD 0), s1)
      | .ok leaf =>
        let m := (want.filter fun b => b.src / 128 = ln).foldl (fun m b => m ||| lineMask (b.src % 128).toNat 1) 0
        (.ok (l ++ [(c.acc w leaf (128 * ln).toNat, m)]), s1)
  match lines.foldl step (.ok [], s) with
  | (.error (x, va), s1) => (.fault x (lineVa va), s1)
  | (.ok l, s1) =>
    match s1.readLines l with
    | (.ok xs, s2) =>
      let data := lines.zip xs
      let byte (b : CByte) : Byte := match data.find? fun x => x.1 = b.src / 128 with
        | some x => lineByte x.2 (b.src % 128).toNat &&& b.rd
        | none => 0
      (.ok (bs.map byte) ((l.head?).map fun x => tagOf x.1.leaf.fmt x.1.leaf.geom), s2)
    | (.fault x, s2) => (.fault x (s1.failingLine l x), s2)
    | (.wait, s2) => (.wait, s2)

/-- A chunk's source is read. -/
def State.readChunk (s : State) (c : Copy) (w : Workgroup) (i : Nat) (bs : List CByte) : State :=
  let want := bs.filter fun b => b.rd ≠ 0
  let cut := bs.any fun b => b.rd ≠ 255 || b.wr ≠ 255
  match want.head? with
  | none => s.keepChunk c i (bs.map fun _ => 0) none 0 cut
  | some b0 =>
    if c.src.memory then
      match s.chunkSource c w bs with
      | (.ok data tag, s1) => s1.keepChunk c i data tag want.length cut
      | (.fault x va, s1) => s1.copyFault c i x 0 c.core va
      | (.wait, s1) => s1
    else
      let p := w.part ((c.src.partFor w (w.partOf c.wave)).getD 0)
      let byte (b : CByte) : Byte := if b.rd = 0 then 0 else p.byte (swz (some c.src) b.src.toNat) &&& b.rd
      if want.any fun b => p.bad (some c.src) b.src.toNat 1 then s.copyFault c i .ue 0 c.core 0
      else s.keepChunk c i (bs.map byte) (some (p.tag b0.src.toNat)) want.length cut

/-- A copy whose chunks still start: its workgroup runs (R350). -/
def State.copyLive (s : State) (id : Nat) : Option (Copy × Workgroup) :=
  match s.copies.find? fun c => c.id = id && !c.dead with
  | none => none
  | some c =>
    match s.wg? c.wg with
    | some w => if w.fate = .live then some (c, w) else none
    | none => none

def execChunkSourceRead (id chunk : Nat) (s : State) : Host.Outcome State Fault Refusal :=
  .next (match s.copyLive id with
    | none => s
    | some (c, w) =>
      if (c.read.any fun x => x.1 = chunk) || c.parts.all fun p => c.delivered.contains (chunk, p) then s
      else
        match c.chunkAt chunk with
        | none => s
        | some bs => s.transact (fun s => s.readChunk c w chunk bs) fun x => x)

/-! Delivery (R101, R103, R108, R112). -/

/-- Bytes that a copy's report counts beside those in it (R110). -/
def addBytes (e n : Nat) : Nat := e - fld e 185 32 * 2 ^ 185 + (fld e 185 32 + n) % 2 ^ 32 * 2 ^ 185

/-- A chunk is delivered at one destination: `n` bytes of it were written there, and counted down (R108). The rule counts the
chunk's size; of one that clamp cuts the model counts the bytes that are written (DESIGN CHOICE, log 83). -/
def State.deliveredChunk (s : State) (c : Copy) (i part n : Nat) : State :=
  let s0 : State := { s with copies := s.copies.map fun x =>
    if x.id = c.id then { x with delivered := x.delivered ++ [(i, part)], bytes := x.bytes + n } else x }
  let s1 := s0.modWg c.wg fun w => if w.lastCopy = some c.id then { w with last := w.last.map fun e => addBytes e n } else w
  if n = 0 then s1
  else
    match c.dstObjs.find? fun r => r.part = part || c.memDst with
    | some r => s1.barChunk c r .inb n
    | none => s1

/-- Writes a chunk into a part, byte by byte through the entry's swizzle, with its granule tag. -/
def Part.putChunk (p : Part) (l : Layout) (bs : List CByte) (data : List Byte) (tag : Option Byte) : Part :=
  let p1 := (bs.zip data).foldl (fun (p : Part) x =>
    if x.1.wr = 0 then p
    else
      let o := swz (some l) x.1.dst.toNat
      p.setByte o ((p.byte o &&& ~~~x.1.wr) ||| (x.2 &&& x.1.wr))) p
  match tag, bs.find? fun b => b.wr ≠ 0 with
  | some t, some b => p1.setTag b.dst.toNat t
  | _, _ => p1

/-- A chunk is written whole at its home in memory (R101): done, failed, or waiting. -/
def State.chunkWrite (s : State) (c : Copy) (w : Workgroup) (bs : List CByte) (data : List Byte) (b0 : CByte) :
    Got Unit × State :=
  let (r, s1) := s.copyCheck c w c.dst b0.dst .wr
  match r with
  | .error x => (.fault x, s1)
  | .ok leaf =>
    let at_ (b : CByte) : Nat := (b.dst % 128).toNat
    let mask := bs.foldl (fun (m : Line) b => m ||| (BitVec.ofNat 1024 (b.wr.toNat <<< (8 * at_ b)))) 0
    let d := (bs.zip data).foldl (fun (m : Line) x => m ||| (BitVec.ofNat 1024 (x.2.toNat <<< (8 * at_ x.1)))) 0
    let a := { c.acc w leaf (128 * (b0.dst / 128).toNat) with hint := .allocate }
    s1.writeLine a mask d ((List.range 64).map fun l => (c.wg, c.wave, l))

/-- A chunk dropped by its owner tag is not delivered, and counts for its context (R112); not once KILL of the context has
completed, from when the device writes nothing to its save area (R354). -/
def State.dropChunk (s : State) (c : Copy) (i part : Nat) : State :=
  let s1 : State := { s with copies := s.copies.map fun x => if x.id = c.id then { x with lost := x.lost ++ [(i, part)] } else x }
  if (s1.ctxRun c.q c.ctx).gen = c.cgen then s1.countDropped c.save 1 else s1

/-- A chunk reaches a destination: one whose owner tag has been overtaken there is dropped whole and counted (R112). A fault of
a write into memory, which is no core's, is reported under the issuing core (R110; DESIGN CHOICE, log 84). -/
def State.deliverChunk (s : State) (c : Copy) (i part : Nat) (bs : List CByte) (data : List Byte) (tag : Option Byte) : State :=
  let n := (bs.filter fun b => b.wr ≠ 0).length
  if c.memDst && (s.ctxRun c.q c.ctx).gen ≠ c.cgen then s.dropChunk c i part
  else if c.memDst then
    match s.wg? c.wg, bs.find? fun b => b.wr ≠ 0 with
    | none, _ => s
    | _, none => s.deliveredChunk c i part 0
    | some w, some b0 =>
      match s.chunkWrite c w bs data b0 with
      | (.ok (), s1) => s1.deliveredChunk c i part n
      | (.fault x, s1) => s1.copyFault c i x 1 c.core (lineVa b0.dst)
      | (.wait, s1) => s1
  else
    let tagOk := match s.wg? c.wg with
      | some w => !w.abandoned && some (w.part part).gen = (c.gens.find? fun g => g.1 = part).map (·.2)
      | none => false
    if !tagOk then s.dropChunk c i part
    else (s.modPart c.wg part fun p => p.putChunk c.dst bs data tag).deliveredChunk c i part n

/-- A dead copy whose started chunks have all arrived leaves the model. -/
def State.buryCopies (s : State) : State :=
  { s with copies := s.copies.filter fun c => !c.dead || c.onWay ≠ [] }

def execChunkDelivery (id chunk part : Nat) (s : State) : Host.Outcome State Fault Refusal :=
  .next (match s.copies.find? fun c => c.id = id with
    | none => s
    | some c =>
      let stopped := c.memDst && (s.copyLive id).isNone
      if stopped || c.arrived chunk part || !c.parts.contains part then s
      else
        match c.read.find? fun x => x.1 = chunk, c.chunkAt chunk with
        | some x, some bs => s.transact (fun s => (s.deliverChunk c chunk part bs x.2.1 x.2.2).buryCopies) fun x => x
        | _, _ => s)

/-! Completion (R105). -/

def Copy.status64 (c : Copy) : Word :=
  BitVec.ofNat 64 (c.bytes % 2 ^ 32 + (if c.clamped then 2 ^ 32 else 0) + c.copyId.toNat * 2 ^ 36)

/-- Every chunk of every destination has been delivered: the status word is written and the slot is free. -/
def State.completeCopy (s : State) (c : Copy) : State :=
  if c.dead || c.delivered.length < c.chunks * c.parts.length then s
  else State.finishOp { s with copies := s.copies.filter fun x => x.id ≠ c.id } c.id s.clk
    [⟨.s c.status, 0, c.status64⟩]

def execCopyComplete (id : Nat) (s : State) : Host.Outcome State Fault Refusal :=
  .next (match s.copies.find? fun c => c.id = id with
    | some c => s.completeCopy c
    | none => s)

/-! Issue of a copy (R97, R98, R104, R265 to R267). -/

/-- Width codes of R265. -/
def copyWidth (n : Nat) : Option Nat := [4, 6, 8, 16, 32, 64][n]?

/-- Allowed pairs of spaces (R98). -/
def spacePair (a b : Layout) : Bool :=
  if a.space = 2 then b.space ≠ 3
  else if a.space = 3 then b.space ≠ 2 && b.space ≠ 3
  else true

/-- Least and greatest element index offset that a box touches within an entry's bounds, or none where clamp leaves
nothing of it. -/
def Layout.span (l : Layout) (c : List Int) (box : List Nat) : Option (Int × Int) :=
  (List.range 5).foldl (fun (a : Option (Int × Int)) k =>
    match a with
    | none => none
    | some (lo, hi) =>
      let x := c.getD k 0
      let y := x + (box.getD k 1 : Int) - 1
      let top : Int := if k < l.rank.toNat then (l.ext k : Int) - 1 else 0
      let x1 := if l.oob then max x 0 else x
      let y1 := if l.oob then min y top else y
      if y1 < x1 then none
      else some (lo + min (l.str k * x1) (l.str k * y1), hi + max (l.str k * x1) (l.str k * y1))) (some (0, 0))

/-- Every scratch byte of a box lies inside a part's allocation (R97 check 5). -/
def Part.holdsBox (p : Part) (own : Bool) (l : Layout) (c : List Int) (box : List Nat) (w : Nat) : Bool :=
  match l.span c box with
  | none => true
  | some (lo, hi) =>
    let a := (8 * (l.base.toNat : Int) + lo * w) / 8
    let b := (8 * (l.base.toNat : Int) + hi * w + w - 1) / 8
    p.holdsAll own a (b - a + 1).toNat

def Layout.boxInside (l : Layout) (c : List Int) (box : List Nat) : Bool :=
  (List.range 5).all fun k =>
    let x := c.getD k 0
    if k < l.rank.toNat then decide (0 ≤ x) && decide (x + (box.getD k 1 : Int) ≤ (l.ext k : Int)) else box.getD k 1 = 1

/-- Coordinates at or above the rank are 0. -/
def Layout.rankOk (l : Layout) (c : List Int) : Bool := (List.range 5).all fun k => k < l.rank.toNat || c.getD k 0 = 0

def Part.holdsBar (p : Part) (o : Nat) : Bool := o % 16 = 0 && o + 16 ≤ p.scrBytes

/-- The operands of a copy as the word names them. -/
structure CopyArgs where
  m    : Bool            -- COPYM
  d    : Nat             -- status register
  regs : List Word       -- the descriptor
  bw   : Word            -- barrier word
  mask : Word
  zero : Bool            -- the mask field names s0
  mod  : BitVec 14

/-- Half `j` of the descriptor. -/
def CopyArgs.half (a : CopyArgs) (j : Nat) : Nat := wfld (a.regs.getD (j / 2) 0) (32 * (j % 2)) 32
def CopyArgs.src (a : CopyArgs) : List Int := (List.range 5).map fun k => signed 32 (a.half k)
def CopyArgs.dst (a : CopyArgs) : List Int := (List.range 5).map fun k => signed 32 (a.half (5 + k))
def CopyArgs.box (a : CopyArgs) : List Nat := (List.range 5).map fun k => a.half (10 + k)
def CopyArgs.tr (a : CopyArgs) : Bool := bitAt a.mod 6

/-- Check 3 and the conditions of R104 and R266 that share its cause. -/
def CopyArgs.argOk (a : CopyArgs) (sL dL : Layout) (w : Nat) : Bool :=
  let box := a.box
  spacePair sL dL && (!a.m || dL.space = 1) && box.all (fun n => n ≠ 0) && wfld (a.regs.getD 7 0) 56 8 = 0
    && wfld a.bw 24 8 = 0 && wfld a.bw 56 8 = 0 && !(a.m && a.zero && a.mask = 0) && prodN box * w ≤ 67108864
    && (8 ≤ w || ((a.src.getD 0 0) % 8 = 0 && (a.dst.getD 0 0) % 8 = 0 && box.getD 0 1 % 8 = 0
        && (sL.stride ++ dL.stride).all fun x => x.toNat % 8 = 0))
    && (!a.tr || (sL.memory && (w = 8 || w = 16 || w = 32) && box.getD 0 1 ≤ 256 && box.getD 1 1 ≤ 256))

/-- Destination parts: the mask's, the named or own part, or the issuing part that stands for memory. -/
def CopyArgs.parts (a : CopyArgs) (me : Nat) (dL : Layout) : List Nat :=
  if a.m then (List.range 8).filter fun j => bitAt a.mask j
  else if dL.memory then [me]
  else [if dL.space = 3 then dL.part.toNat else me]

/-- THE CHECKS 3 TO 6 OF R97: the first that fails, in order. -/
def CopyArgs.check (a : CopyArgs) (w : Workgroup) (me : Nat) (sL dL : Layout) : Option Cause :=
  let dbox := if a.tr then swap01 a.box else a.box
  let P := w.parts.length
  match copyWidth (a.mod.extractLsb' 0 3).toNat with
  | none => some .copyArg
  | some wd =>
    let ps := a.parts me dL
    let bounds (l : Layout) (c : List Int) (b : List Nat) : Bool := l.rankOk c && (l.oob || l.boxInside c b)
    let inScr (l : Layout) (c : List Int) (b : List Nat) (p : Nat) : Bool :=
      l.memory || (p < P && (w.part p).holdsBox (l.space ≠ 3) l c b wd)
    let dstScr := ps.all fun p => (a.m && P ≤ p) || inScr dL a.dst dbox p
    let srcScr := inScr sL a.src a.box (if sL.space = 3 then sL.part.toNat else me)
    let dObj := !bitAt a.bw 23 || ps.all fun p => P ≤ p || (w.part p).holdsBar (wfld a.bw 0 23)
    let sObj := !bitAt a.bw 55 || (w.part me).holdsBar (wfld a.bw 32 23)
    if !a.argOk sL dL wd then some .copyArg
    else if !(bounds sL a.src a.box && bounds dL a.dst dbox) then some .copyBounds
    else if !(dstScr && srcScr && dObj && sObj) then some .scratchRange
    else if a.m && (ps = [] || wfld a.mask 8 56 ≠ 0 || ps.any fun p => P ≤ p) then some .copyArg
    else none

/-- ACCEPTANCE OF A COPY (R105, R106, R109, R112, R267). -/
def State.acceptCopy (s : State) (e : Env) (a : CopyArgs) (sL dL : Layout) : State :=
  let (n, s1) := s.startOp e { id := 0, wg := 0, wave := 0, cnt := some .copy, regs := [.s a.d] }
  let ps := a.parts e.part dL
  let obj (p o : Nat) : BarRef := ⟨o, p, BitVec.ofNat 8 ((e.wg.part p).bar o).gen⟩
  let c : Copy :=
    { id := n, core := e.core, wg := e.iss.wg, wave := e.iss.wave, copyId := (s1.coreOf e.core).copyCtr, status := a.d,
      src := sL, dst := dL, sc := a.src, dc := a.dst, box := a.box,
      w := (copyWidth (a.mod.extractLsb' 0 3).toNat).getD 8, tr := a.tr, lvl := hintOf (a.mod.extractLsb' 3 3).toNat,
      parts := ps, memDst := dL.memory, srcObj := if bitAt a.bw 55 then some (obj e.part (wfld a.bw 32 23)) else none,
      dstObjs := if bitAt a.bw 23 then ps.map fun p => obj p (wfld a.bw 0 23) else [],
      gens := ps.map fun p => (p, (e.wg.part p).gen), cgen := (s1.ctxRun e.ctx.q e.ctx.num).gen,
      save := e.ctx.save, ctx := e.ctx.num, q := e.lead, read := [], delivered := [] }
  let s2 := s1.modCore e.core fun x => { x with copyCtr := x.copyCtr + 1 }
  ({ s2 with copies := s2.copies ++ [c] }).modHead fun i => { i with reserved := i.reserved - 1 }

/-- COPY and COPYM: checks 1 and 2 whatever the guard, 3 to 6 for a copy that starts. -/
def copyBody (m : Bool) (f : GF) (e : Env) (s : State) : State :=
  let a : CopyArgs := { m := m, d := f.d.toNat, regs := (List.range 8).map fun i => e.w.s (f.a.toNat + i),
                        bw := e.uniform f.b, mask := if m then e.uniform f.c else 0, zero := f.c = 0, mod := f.m }
  let (sl, s1) := s.layEntry e.core e.ctx (BitVec.ofNat 64 (wfld (a.regs.getD 7 0) 32 12))
  let (dl, s2) := s1.layEntry e.core e.ctx (BitVec.ofNat 64 (wfld (a.regs.getD 7 0) 44 12))
  match sl, dl with
  | some sL, some dL =>
    if e.act = [] then s2
    else
      match a.check e.wg e.part sL dL with
      | some c => s2.groupTrap c
      | none => s2.acceptCopy e a sL dL
  | _, _ => s2.groupTrap .handle

def copyUses (m : Bool) (f : GF) : Uses :=
  ⟨srunRegs f.a 8 ++ sregs f.b ++ (if m then sregs f.c else []), [.s f.d.toNat]⟩

def execCopy (h : Hdr) (f : GF) (s : State) : Host.Outcome State Fault Refusal :=
  memWord h (some .copy) (copyUses false f) (copyBody false f) s
def execCopym (h : Hdr) (f : GF) (s : State) : Host.Outcome State Fault Refusal :=
  memWord h (some .copy) (copyUses true f) (copyBody true f) s

/-- Copies a core's streamer holds, and its free slots (R106). -/
def State.copiesOn (s : State) (core : Nat) : Nat := s.copies.countP fun c => c.core = core && !c.dead
def State.copySlots (s : State) (core : Nat) : Nat :=
  64 - s.copiesOn core - s.running.foldl (fun a c => if c.core = core then a + c.reserved else a) 0

/-- COPYQ (R268). -/
def execCopyq (h : Hdr) (f : GF) (s : State) : Host.Outcome State Fault Refusal :=
  memWord h (some .copy) ⟨[], [.s f.d.toNat]⟩ (fun e s =>
    if e.act = [] then s
    else
      let mine := s.copies.countP fun c => c.core = e.core && c.wg = e.iss.wg && !c.dead
      s.quickOp e none 8 [.s f.d.toNat] [⟨.s f.d.toNat, 0, BitVec.ofNat 64 (mine % 128 + s.copySlots e.core % 128 * 256)⟩]) s

/-! Barrier instructions (R269 to R271). -/

/-- R247 check 4 for a ring of `n` objects. -/
def Part.holdsRing (p : Part) (base n : Nat) : Bool := p.holdsBar base && base + 16 * n ≤ p.scrBytes

/-- The slot a phase addresses, its local phase, and whether the whole ring lies in the allocation (R270). -/
def Part.barSlot (p : Part) (base k : Nat) : Option (Nat × Nat) :=
  if !p.holdsBar base then none
  else
    let n := (p.bar base).ring + 1
    if p.holdsRing base n then some (base + 16 * (k % n), k / n % 65536) else none

def barUses (f : GF) : Uses := ⟨sregs f.a ++ sregs f.b ++ sregs f.c, []⟩

/-- A barrier word on an existing object: the check of its ring, then `body` with the object's offset and local phase. -/
def barBody (f : GF) (body : Env → State → Nat → Nat → State) (e : Env) (s : State) : State :=
  match (s.partOf e.iss.wg e.part).barSlot (e.uniform f.a).toNat (wfld (e.uniform f.b) 0 32) with
  | none => s.groupTrap .scratchRange
  | some (o, p) => body e s o p

/-- Objects of a ring as BINIT writes them. A count of 65,536, which 0 encodes and the field's 17 bits hold as well, is written as
itself (R107; DESIGN CHOICE, log 83). -/
def Part.barInit (p : Part) (base n count : Nat) : Part :=
  (List.range n).foldl (fun p i =>
    let o := base + 16 * i
    p.setBar o ⟨0, 0, count, count, 0, (p.bar o).gen + 1, n - 1, i, false, 0⟩) p

def execBinit (h : Hdr) (f : GF) (s : State) : Host.Outcome State Fault Refusal :=
  memWord h none (barUses f) (fun e s =>
    let base := (e.uniform f.a).toNat
    let n := (f.m.extractLsb' 0 3).toNat + 1
    let cnt := (e.uniform f.b).toNat
    if !(s.partOf e.iss.wg e.part).holdsRing base n then s.groupTrap .scratchRange
    else if cnt = 0 || 65536 < cnt then s.groupTrap .barrierArg
    else if e.act = [] then s
    else (s.modPart e.iss.wg e.part fun p => p.barInit base n cnt).wakeBarriers e.iss.wg e.part) s

def execBarrive (h : Hdr) (f : GF) (s : State) : Host.Outcome State Fault Refusal :=
  memWord h none (barUses f) (barBody f fun e s o _ =>
    if e.act = [] then s
    else
      let n : Nat := if bitAt f.m 0 then 1 else e.act.length
      s.release e (f.m.extractLsb' 1 3) 5 fun s => s.barCount e.iss.wg e.part o .arr (-(n : Int))) s

def execBexpect (h : Hdr) (f : GF) (s : State) : Host.Outcome State Fault Refusal :=
  memWord h none (barUses f) (barBody f fun e s o _ =>
    let b := (e.uniform f.c).toNat
    if 8388608 ≤ b then s.groupTrap .barrierArg
    else if e.act = [] then s
    else s.barCount e.iss.wg e.part o (if bitAt f.m 0 then .out else .inb) (b : Int)) s

/-- The acquire of a wait that has been met. -/
def State.acquireNow (s : State) (e : Env) (scope : BitVec 3) : State :=
  if scopeAdvances scope e.wg.multi then s.advanceNow e.core else s

def execBwait (h : Hdr) (f : GF) (s : State) : Host.Outcome State Fault Refusal :=
  memWord h none (barUses f) (barBody f fun e s o p =>
    let b := (s.partOf e.iss.wg e.part).bar o
    let sc : BitVec 3 := f.m.extractLsb' 1 3
    if e.act = [] then s
    else if b.err then s.stateTrap .barrierErr e.act
    else if b.phase ≠ p then s.acquireNow e sc
    else
      let g := maskOf e.act
      (s.leaveClause g).now e fun w => w.modLanes g fun _ t =>
        { t with pc := e.iss.nxtPc, status := .waiting, waitOn := .barrier o (BitVec.ofNat 16 p) sc }) s

def execBtest (h : Hdr) (f : GF) (s : State) : Host.Outcome State Fault Refusal :=
  memWord h none ((barUses f).append ⟨[], [.p f.d.toNat]⟩) (barBody f fun e s o p =>
    let b := (s.partOf e.iss.wg e.part).bar o
    if e.act = [] then s
    else if b.err then s.stateTrap .barrierErr e.act
    else
      let ok : Bool := b.phase ≠ p
      let s1 := if ok then s.acquireNow e (f.m.extractLsb' 1 3) else s
      s1.quickOp e none 12 [.p f.d.toNat] (e.act.map fun l => predWrite f.d.toNat l ok)) s

end Sys2Proof.Machine
end

