-- ==== Sys2Proof/Machine/Matrix.lean ====
section
/-! DEFINITION. The matrix engine (R164, R165, R276 to R287, R316, R317, R328): operand words, rods and beads, the
matrix queue, the summation of MMA, accumulators, DRAIN and pebbles. -/
namespace Sys2Proof.Machine

/-! Operand words (R276). -/

def owHandle (w : Word) : Word := BitVec.ofNat 64 (wfld w 0 12)
/-- Origin of a tile as coordinates. -/
def owOrigin (w : Word) : List Int := [(wfld w 16 24 : Int), (wfld w 40 24 : Int), 0, 0, 0]

/-- THE CHECKS OF AN OPERAND WORD (R276): the entry, or the first cause. -/
def State.operand (s : State) (e : Env) (w : Word) (ok : Layout → Bool) : Except Cause Layout × State :=
  match s.layEntry e.core e.ctx (owHandle w) with
  | (none, s1) => (.error .handle, s1)
  | (some l, s1) =>
    if !ok l then (.error .space, s1)
    else if wfld w 12 4 ≠ 0 || l.rank ≠ 2 then (.error .matrixArg, s1)
    else (.ok l, s1)

/-- The scratch spaces (R279). -/
def Layout.scratch (l : Layout) : Bool := l.space = 1 || l.space = 2 || l.space = 3

/-- Box of a tile, first extent along dimension 0. -/
def tileBox (n0 n1 : Nat) : List Nat := [n0, n1, 1, 1, 1]

/-- A tile of an entry: its entry, origin, extents along dimensions 0 and 1, and element width. -/
structure Tile where
  l  : Layout
  o  : List Int
  n0 : Nat
  n1 : Nat
  w  : Nat
  deriving DecidableEq, Repr

/-- Elements outside the extents of an entry with oob = 0. -/
def Tile.bounds (t : Tile) : Bool := t.l.oob || t.l.boxInside t.o (tileBox t.n0 t.n1)

/-- Elements inside them that lie in scratch lie in the workgroup's allocation (R121, R124, R125). -/
def Tile.inScratch (t : Tile) (w : Workgroup) (me : Nat) : Bool :=
  !t.l.scratch ||
    (match t.l.partFor w me with
     | some p => (w.part p).holdsBox (t.l.space ≠ 3) t.l t.o (tileBox t.n0 t.n1) t.w
     | none => false)

/-- BOUNDS over every tile, then SCRATCH_RANGE over every tile (R280, R286, R287). -/
def tilesBad (w : Workgroup) (me : Nat) (ts : List Tile) : Option Cause :=
  if ts.any fun t => !t.bounds then some .bounds
  else if ts.any fun t => !t.inScratch w me then some .scratchRange
  else none

/-! Accumulators (R278). -/

def Part.accWord (p : Part) (k : Nat) : BitVec 32 := SMap.get 0 p.acc k
def Part.accBytes (p : Part) : Nat := 1024 * p.accKib
/-- Writes accumulator words from `k` upward; a write ends an error of the word. -/
def Part.setAcc (p : Part) (k : Nat) (l : List Nat) : Part :=
  { p with acc := l.zipIdx.foldl (fun m x => SMap.put 0 m (k + x.2) (BitVec.ofNat 32 x.1)) p.acc,
           accUe := p.accUe.filter fun i => i < k || k + l.length ≤ i }

/-! Decoding operands (R139 to R141, R280). -/

/-- Codes that a matrix operand's granule may not hold. -/
def badCode (c : Nat) : Bool := c = 0 || 12 ≤ c

/-- A queue entry has read an uncorrectable error (R287, R358, R359): its context receives a UE report, and the workgroup
ends with it, or its record runs again. Storage: 1 deep scratch, 2 accumulator. -/
def State.matrixUe (s : State) (wg storage : Nat) : State :=
  match s.wg? wg, s.recOfWg wg with
  | some w, some r =>
    if r.halt = 0 && s.reruns r then
      State.consumeUe (s.report w.ctx.q w.ctx.save .ue (reportEntry .ue 15 0 w.wg w.ref.toNat (storage * 2 ^ 64))).2 wg 0 storage
    else s.consumeUe wg 0 storage
  | _, _ => s.consumeUe wg 0 storage

/-- An element of an operand: outside an entry with oob = 1 it is +0; each other way it cannot be decoded, NaN. -/
def elemVal (w : Workgroup) (me : Nat) (l : Layout) (c : List Int) (wd : Nat) : Val :=
  if !l.inb c then (if l.oob then .zero false else .nan)
  else
    match l.partFor w me with
    | none => .nan
    | some j =>
      let p := w.part j
      let own : Bool := l.space ≠ 3
      let ba := l.bitAddr c wd
      let o := ba / 8
      let n := cdiv ((ba % 8).toNat + wd) 8
      if !p.holdsAll own o n || p.bad (some l) o.toNat n then .nan
      else
        let tag := p.tag o.toNat
        let fmt := (tagFmt tag).toNat
        if badCode fmt || (pageFmt fmt).width ≠ wd then .nan
        else
          let v := (pageFmt fmt).decode (p.bits (some l) ba.toNat wd)
          if blockedFmt fmt && l.scaled && blockOf (tagGeom tag) ≠ 0 then
            let sa := l.scaleAddr (tagGeom tag) c
            if p.holds own sa && !p.bad (some l) sa.toNat 1 then v.withScale (p.byte (swz (some l) sa.toNat)).toNat else .nan
          else v

/-- Whether some element of an operand, or its block's scale byte, has an uncorrectable error. -/
def Tile.hasUe (t : Tile) (w : Workgroup) (me : Nat) : Bool :=
  match t.l.partFor w me with
  | none => false
  | some j =>
    let p := w.part j
    (p.ue ≠ [] || p.lost ≠ []) && (List.range t.n0).any fun x => (List.range t.n1).any fun y =>
      let c := addC t.o [x, y, 0, 0, 0]
      let ba := t.l.bitAddr c t.w
      let tag := p.tag (ba / 8).toNat
      t.l.inb c && 0 ≤ ba && (p.bad (some t.l) (ba / 8).toNat (cdiv ((ba % 8).toNat + t.w) 8)
        || (blockedFmt (tagFmt tag).toNat && t.l.scaled && blockOf (tagGeom tag) ≠ 0
            && p.bad (some t.l) (t.l.scaleAddr (tagGeom tag) c).toNat 1))

/-- The first element of an operand: outside (its width then comes from the other operand), failing a check, holding a
code that is not allowed, with the width R139 gives that code, or of a width. -/
inductive First where
  | outside | bounds | range | badTag (w : Option Nat) | width (w : Nat)
  deriving DecidableEq, Repr

def firstOf (w : Workgroup) (me : Nat) (l : Layout) (o : List Int) : First :=
  if !l.inb o then (if l.oob then .outside else .bounds)
  else
    match l.partFor w me with
    | none => .range
    | some j =>
      let p := w.part j
      let own : Bool := l.space ≠ 3
      -- the width that a tag gives places the element whose granule holds the tag: from the base's, derived twice
      let code (o : Int) : Nat := if p.holds own o then (tagFmt (p.tag o.toNat)).toNat else 0
      let wide (c : Nat) : Nat := if c = 0 || c = 15 then 8 else (pageFmt c).width
      let c0 := code l.base.toNat
      let c1 := code (l.bitAddr o (wide c0) / 8)
      let c2 := code (l.bitAddr o (wide c1) / 8)
      if !p.holdsAll own (l.bitAddr o (wide c2) / 8) (cdiv (wide c2) 8) then .range
      -- no K belongs to the 64 bits of code 14, and code 0 has no width (log 72)
      else if badCode c2 then .badTag (if c2 = 12 then some 16 else if c2 = 13 then some 32 else none)
      else .width (wide c2)

/-- The width that an operand of an operation under way has. -/
def First.width? : First → Option Nat
  | .width w => some w
  | _ => none

/-- The width by which the checks of R280 size the tiles: a code that is then refused gives one as well. -/
def First.size? : First → Option Nat
  | .width w => some w
  | .badTag w => w
  | _ => none

def First.isBad : First → Bool
  | .badTag _ => true
  | _ => false

/-- The greater of the widths that two operands give, 16 where neither does (R280). -/
def opWidth (a b : Option Nat) : Nat :=
  match a, b with
  | some x, some y => max x y
  | some x, none => x
  | none, some y => y
  | none, none => 16

/-- K of R280. -/
def kOf (w : Nat) : Nat :=
  match w with
  | 4 => 128
  | 6 | 8 => 64
  | 16 => 32
  | _ => 16

def mOf (c : BitVec 2) : Nat := if c = 0 then 16 else if c = 1 then 64 else 256
def Bead.m (b : Bead) : Nat := mOf b.mc
def Bead.nn (b : Bead) : Nat := 16 * (b.n.toNat + 1)
def Bead.ck (b : Bead) : Bool := bitAt b.fl 0
def Bead.z (b : Bead) : Bool := bitAt b.fl 1
/-- Accumulator words an MMA writes (R279). -/
def Bead.words (b : Bead) : Nat := b.m * b.nn + (if b.ck then b.m + b.nn else 0)

/-- The two operand tiles. -/
def Bead.tiles (b : Bead) (aL bL : Layout) (fa fb : First) : Tile × Tile :=
  let w := opWidth fa.size? fb.size?
  let k := kOf w
  (⟨aL, owOrigin b.a, k, b.m, fa.size?.getD w⟩, ⟨bL, owOrigin b.b, b.nn, k, fb.size?.getD w⟩)

/-- THE CHECKS OF THE COMPLETING ISSUE GROUP (R280). -/
def Bead.check (b : Bead) (w : Workgroup) (me : Nat) (aL bL : Layout) : Option Cause :=
  let fa := firstOf w me aL (owOrigin b.a)
  let fb := firstOf w me bL (owOrigin b.b)
  let (ta, tb) := b.tiles aL bL fa fb
  match tilesBad w me [ta, tb] with
  | some c => some c
  | none =>
    if fa = .range || fb = .range then some .scratchRange
    else if fa.isBad || fb.isBad then some .matrixArg else none

/-! The summation (R281, R282). -/

/-- Toward-zero multiple of 2^q in a value. -/
def truncQ (v : Val) (q : Int) : Int :=
  match v with
  | .num neg n d => if neg then -((scaledDiv n d q).1 : Int) else (scaledDiv n d q).1
  | _ => 0

/-- Signs of the infinite values of a list. -/
def infSigns (l : List Val) : List Bool :=
  l.filterMap fun v => match v with
    | .inf n => some n
    | _ => none

/-- `mma_element` of R281, on an FP32 code and the exact products. -/
def mmaElement (c : Nat) (p : List Val) : Nat :=
  let cv := f32F.decode c
  let inf := infSigns (cv :: p)
  if cv = .nan || p.any Val.isNan || (inf.contains true && inf.contains false) then 0x7FC00000
  else if inf.contains true then 0xFF800000
  else if inf.contains false then 0x7F800000
  else
    match p.filterMap Val.log2 with
    | [] => c
    | a :: r =>
      let q := r.foldl max a - 39
      let t := p.foldl (fun s v => s + truncQ v q) 0
      if t = 0 then c
      else
        let r := Val.add false cv (mkVal (t < 0) t.natAbs q)
        match r with
        | .zero _ => 0
        | v => f32F.encode .rne true v

/-- An exact sum as the checksums take it (R282). -/
def sumVals (l : List Val) : Val := l.foldl (Val.add false) (.zero false)

/-- The words of an MMA in the order of the accumulator, from the current ones and the decoded operands. -/
def mmaWords (b : Bead) (cur : Nat → Nat) (a bb : Nat → Nat → Val) (k : Nat) : List Nat :=
  let c (i : Nat) : Nat := if b.z then 0 else cur i
  let ks := List.range k
  let m := b.m
  let n := b.nn
  let tile := (List.range m).flatMap fun i => (List.range n).map fun j =>
    mmaElement (c (i * n + j)) (ks.map fun x => (a i x).mul (bb x j))
  if !b.ck then tile
  else
    let sA := ks.map fun x => sumVals ((List.range m).map fun i => a i x)
    let sB := ks.map fun x => sumVals ((List.range n).map fun j => bb x j)
    tile ++ ((List.range n).map fun j => mmaElement (c (m * n + j)) ((sA.zip ks).map fun x => x.1.mul (bb x.2 j)))
      ++ (List.range m).map fun i => mmaElement (c (m * n + n + i)) ((sB.zip ks).map fun x => (a i x.2).mul x.1)

/-! The matrix queue (R277) and pebbles (R283, R328). -/

def State.mqFree (s : State) (core : Nat) : Bool := (s.mq.countP fun e => e.core = core) < 8

/-- An operation of the core waits for its pebbles; what issues after it enters the queue after it (R277; log 71). -/
def State.mqLine (s : State) (core : Nat) : Bool := s.mwait.any fun e => e.core = core

/-- A word that enters a core's queue can do so now. -/
def State.mqRoom (s : State) (core : Nat) : Bool := s.mqFree core && !s.mqLine core

/-- Counts an operation under mma in its waves. -/
def State.mmaCount (s : State) (e : MqEntry) (d : Int) : State := e.waves.foldl (fun s k => s.bump e.wg k .mma d) s

/-- An operation enters its core's queue; an MMA that writes the armed word takes the injection with it (R317). -/
def State.mqPush (s : State) (e : MqEntry) : State :=
  let inj : Option (Nat × Nat) := match e.op with
    | .mma b _ _ _ _ _ _ _ =>
      let w := s.rf (rCORE_ACCINJ e.core) 2 18
      let lo := 256 * b.acc.toNat
      if s.rf (rCORE_ACCINJ e.core) 32 1 = 1 && lo ≤ w && w < lo + b.words
          && !(s.mq.any fun x => x.core = e.core && x.inj.isSome) then
        some (w, s.rf (rCORE_ACCINJ e.core) 24 5) else none
    | _ => none
  { s with mq := s.mq ++ [{ e with inj := inj }] }

def State.pebTotal (s : State) : Nat := s.rf rPWR_PEBBLE 0 13

/-- The pool can grant a cost now. -/
def State.pebFits (s : State) (cost : Nat) : Bool :=
  let t := s.pebTotal
  0 < t && s.pebblesHeld + min cost t ≤ t && (cost ≤ t || s.pebblesHeld = 0)

/-- The requests that stand before one: an earlier one that fits is granted first, and one that has waited 1,024 clk
lets none refused after it be granted. -/
def State.askTurn (s : State) (before : List Ask) (cost : Nat) : Bool :=
  s.pebFits cost && !(before.any fun a => s.pebFits a.cost || a.since + 1024 ≤ s.clk)

def Ask.ofWave (wg k : Nat) (a : Ask) : Bool := a.op = 0 && a.wg = wg && a.wave = k

/-- A wave's refused request is withdrawn: it is for another clause, or another cost, than its next one's. -/
def State.dropAsk (s : State) (wg k : Nat) (keep : Ask → Bool) : State :=
  { s with asks := s.asks.filter fun a => !a.ofWave wg k || keep a }

/-- Whether a wave's clause at `pc` may reserve its pebbles; where not, its request stands from now on (R158, R283). -/
def State.waveAsk (s0 : State) (wg k pc cost : Nat) : Bool × State :=
  let s := s0.dropAsk wg k fun a => a.pc = pc && a.cost = cost
  let before := s.asks.takeWhile fun a => !a.ofWave wg k
  if s.askTurn before cost then (true, s)
  else (false, if s.asks.any (Ask.ofWave wg k) then s else { s with asks := s.asks ++ [⟨s.clk, cost, 0, wg, k, pc⟩] })

def Bead.cost (b : Bead) : Nat := cdiv (b.m * b.nn) 4096

def MqEntry.cost (e : MqEntry) : Nat :=
  match e.op with
  | .mma b _ _ _ _ _ _ _ => b.cost
  | _ => 0

/-- The operations of a core that wait for pebbles enter its queue in their order: the first one asks for its pebbles, and
enters once it has them and the queue has room (R277, R283; log 71). -/
def State.mwaitGo (s : State) (core : Nat) : Nat → State
  | 0 => s
  | fuel + 1 =>
    match s.mwait.find? fun e => e.core = core with
    | none => s
    | some e =>
      if e.pebbles = 0 then
        (if s.asks.any fun a => a.op = e.id then s else { s with asks := s.asks ++ [⟨s.clk, e.cost, e.id, 0, 0, 0⟩] })
      else if s.mqFree core then
        (State.mqPush { s with mwait := s.mwait.filter fun x => x.id ≠ e.id } e).mwaitGo core fuel
      else s

/-- A waiting operation is granted its pebbles (R283, R328). -/
def State.pebGrant (s : State) (id : Nat) : State :=
  match s.mwait.find? fun e => e.id = id with
  | none => s
  | some e =>
    if (s.asks.any fun a => a.op = id) && s.askTurn (s.asks.takeWhile fun a => a.op ≠ id) e.cost then
      let give (x : MqEntry) : MqEntry := if x.id = id then { x with pebbles := min e.cost s.pebTotal } else x
      State.mwaitGo { s with mwait := s.mwait.map give, asks := s.asks.filter fun a => a.op ≠ id } e.core 8
    else s

def execPebbleGrant (id : Nat) (s : State) : Host.Outcome State Fault Refusal := .next (s.pebGrant id)

/-! Rods (R164, R165). -/

def Workgroup.rod (w : Workgroup) (r : Nat) : Rod := w.rods.getD r {}

/-- A thread is a member of a rod. -/
def Workgroup.member (w : Workgroup) (r : Rod) (k l : Nat) : Bool :=
  match r.bound, w.waves[k]? with
  | some (set, j), some v =>
    v.role = .matrix && v.part = j && (v.thread l).status ≠ .exited && bitAt (v.thread l).sets set
  | _, _ => false

/-- Every current member holds a bead, those of `extra` counted. -/
def Workgroup.rodFull (w : Workgroup) (r : Rod) (extra : List (Nat × Nat)) : Bool :=
  (List.range w.waves.length).all fun k => (List.range 64).all fun l =>
    !w.member r k l || r.beads.contains (k, l) || extra.contains (k, l)

def State.modRod (s : State) (wg r : Nat) (f : Rod → Rod) : State :=
  s.modWg wg fun w => { w with rods := w.rods.modify r f }

/-- The rod's operation issues: its beads are cleared, the widths of its operands are read, and it enters the queue with the
pebbles reserved for it, which it takes now, or waits for them (R165, R280, R283). Behind another that waits it waits with them
(R277; log 71). -/
def State.rodIssue (s : State) (wg r : Nat) (b : Bead) (aL bL : Layout) (reserved : Nat) : State :=
  match s.wg? wg with
  | none => s
  | some w =>
    let rod := w.rod r
    let j := (rod.bound.map (·.2)).getD 0
    let fa := firstOf w j aL (owOrigin b.a)
    let fb := firstOf w j bL (owOrigin b.b)
    let wd := opWidth fa.width? fb.width?
    let (id, s1) := s.fresh
    let e : MqEntry :=
      { id := id, core := (w.part j).core, wg := wg, part := j, waves := dedup (rod.beads.map (·.1)),
        op := .mma b aL bL wd (fa.width?.getD wd) (fb.width?.getD wd) (fa.width?.isNone && fa ≠ .outside)
          (fb.width?.isNone && fb ≠ .outside),
        pebbles := reserved }
    let s2 := (s1.modRod wg r fun x => { x with beads := [], template := none }).mmaCount e 1
    if reserved ≠ 0 && s2.mqRoom e.core then s2.mqPush e
    else State.mwaitGo { s2 with mwait := s2.mwait ++ [e] } e.core 8

/-- Threads that wait for a rod, those that have entered their handlers since among them (log 73); a parked one places its
bead on resuming. -/
def Workgroup.waitingBeads (w : Workgroup) (r : Nat) : List (Nat × Nat × Bead × Pc) :=
  (List.range w.waves.length).flatMap fun k => (List.range 64).filterMap fun l =>
    match (w.waves[k]?).map fun v => v.thread l with
    | some t =>
      (match t.waitOn with
       | .bead x b pc => if x = r && t.status ≠ .parked && t.status ≠ .exited then some (k, l, b, pc) else none
       | _ => none)
    | none => none

/-- A thread that waited for its rod places its bead, or traps ROD where it may not (R165). -/
def State.placeWaiting (s : State) (wg r : Nat) (x : Nat × Nat × Bead × Pc) : State :=
  match s.wg? wg with
  | none => s
  | some w =>
    let rod := w.rod r
    let (k, l, b, pc) := x
    if !w.member rod k l || (rod.beads ≠ [] && rod.template ≠ some b) then
      s.takeTrap wg k [(l, .rod, b.raw)] (fun _ => pc) none false
    else
      ((s.modRod wg r fun y => { y with beads := y.beads ++ [(k, l)], template := some b }).modThread wg k l fun t =>
        { t with status := if t.status = .waiting then .eligible else t.status, waitOn := .none }).settle wg k

/-- The entries of a bead's operand words as a core reads them. -/
def State.beadEntries (s : State) (w : Workgroup) (j : Nat) (b : Bead) : Option (Layout × Layout) × State :=
  let core := (w.part j).core
  let (a, s1) := s.layEntry core w.ctx (owHandle b.a)
  let (c, s2) := s1.layEntry core w.ctx (owHandle b.b)
  match a, c with
  | some x, some y => (some (x, y), s2)
  | _, _ => (none, s2)

/-- A rod whose every member holds a bead issues although no issue group completes it; threads that waited for it then
place theirs, which may complete it again (R165, R280). An operand whose handle fails by then reads as NaN. -/
def State.rodTest (s : State) (wg r : Nat) : Nat → State
  | 0 => s
  | fuel + 1 =>
    match s.wg? wg with
    | none => s
    | some w =>
      let rod := w.rod r
      match rod.template with
      | none => s
      | some b =>
        if rod.beads = [] || !w.rodFull rod [] then s
        else
          let j := (rod.bound.map (·.2)).getD 0
          let (es, s1) := s.beadEntries w j b
          -- a layout that holds nothing: every element of it decodes as NaN
          let void : Layout := { layoutOf 0 with space := 3, part := 7, rank := 2 }
          let (x, y) := es.getD (void, void)
          let s2 := s1.rodIssue wg r b x y 0
          let s3 := (w.waitingBeads r).foldl (fun s x => s.placeWaiting wg r x) s2
          s3.rodTest wg r fuel

/-- Every rod of a workgroup after an exit, a LEAVE or an issue of an operation. -/
def State.rodsTest (s : State) (wg : Nat) : State := (List.range 16).foldl (fun s r => s.rodTest wg r 1024) s

/-! MMA (R279, R280, R283). -/

def beadOf (f : XF) (raw a b : Word) : Bead := ⟨raw, f.mc, f.n, f.acc, f.fl, a, b⟩

/-- The lanes of an MMA by what becomes of them: they trap ROD, wait for the rod, or place a bead (R165). -/
def mmaLanes (w : Workgroup) (k r : Nat) (b : Bead) (act : List Nat) : List Nat × List Nat × List Nat :=
  let rod := w.rod r
  let bad (l : Nat) : Bool := !w.member rod k l || (rod.beads ≠ [] && rod.template ≠ some b)
  let ok := act.filter fun l => !bad l
  (act.filter bad, ok.filter fun l => rod.beads.contains (k, l), ok.filter fun l => !rod.beads.contains (k, l))

/-- Lanes wait for their rod; they stand at the next clause. -/
def State.waitBead (s : State) (e : Env) (r : Nat) (b : Bead) (l : List Nat) : State :=
  if l = [] then s
  else
    let g := maskOf l
    (s.leaveClause g).now e fun w => w.modLanes g fun _ t =>
      { t with pc := e.iss.nxtPc, status := .waiting, waitOn := .bead r b e.iss.wordPc }

def mmaBody (f : XF) (e : Env) (s : State) : State :=
  let b := beadOf f e.iss.word (e.uniform f.a) (e.uniform f.b)
  let (ra, s1) := s.operand e b.a Layout.scratch
  let (rb, s2) := s1.operand e b.b Layout.scratch
  match ra, rb with
  | .error c, _ => s1.groupTrap c
  | _, .error c => s2.groupTrap c
  | .ok aL, .ok bL =>
    if (e.wg.part e.part).accBytes < 1024 * b.acc.toNat + 4 * b.words then s2.groupTrap .matrixArg
    else if e.act = [] then s2
    else
      let r := f.rod.toNat
      let rod := e.wg.rod r
      let (bad, later, place) := mmaLanes e.wg e.iss.wave r b e.act
      let mine := place.map fun l => (e.iss.wave, l)
      let full : Bool := place ≠ [] && e.wg.rodFull rod mine
      let cause := if full then b.check e.wg e.part aL bL else none
      if full && cause.isNone && e.iss.pebbles ≠ 0 && !s2.mqFree e.core && !s2.mqLine e.core then s.hold
      else
        let s3 := (if bad = [] then s2 else s2.stateTrap .rod bad).waitBead e r b later
        match cause with
        | some c => s3.stateTrap c place
        | none =>
          let s4 := if place = [] then s3
            else s3.modRod e.iss.wg r fun x => { x with beads := x.beads ++ mine, template := some b }
          let s5 := s4.modHead fun i => { i with pebbles := 0 }
          if full then
            let s6 := s5.rodIssue e.iss.wg r b aL bL e.iss.pebbles
            let s7 := ((s6.wg? e.iss.wg).map fun w => w.waitingBeads r).getD [] |>.foldl
              (fun s x => s.placeWaiting e.iss.wg r x) s6
            s7.rodTest e.iss.wg r 1024
          else s5

def execMma (h : Hdr) (f : XF) (s : State) : Host.Outcome State Fault Refusal :=
  memWord h (some .matrix) ⟨sregs f.a ++ sregs f.b, []⟩ (mmaBody f) s

/-- The cost of the MMA of a clause that would place its rod's completing bead, for the issue group `g` (R283). -/
def State.mmaCost (w : Workgroup) (v : Wave) (k : Nat) (g : BitVec 64) (core clk : Nat) (words : List Word) : Option Nat :=
  words.findSome? fun x =>
    match decodeWord x with
    | .ok (.mma h f) =>
      let i : Issue := { core := core, part := 0, wg := w.id, wave := k, all := g, group := g, addr := 0, hdr := 0, words := [x] }
      let e : Env := ⟨i, w, v, (lanesOf g).filter (guardOf v h), clk⟩
      let b := beadOf f x (e.uniform f.a) (e.uniform f.b)
      let (_, _, place) := mmaLanes w k f.rod.toNat b e.act
      if v.role = .matrix && place ≠ [] && w.rodFull (w.rod f.rod.toNat) (place.map fun l => (k, l)) then some b.cost else none
    | _ => none

/-- A word that always enters the queue when it issues with an active lane. -/
def entersQueue (x : Word) : Bool :=
  match decodeWord x with
  | .ok (.accz _ _) | .ok (.accld _ _) | .ok (.accrd _ _) | .ok (.drain _ _) => true
  | _ => false

/-! Accumulator instructions (R284). -/

/-- An entry of the wave enters the queue; a full queue holds the word. -/
def State.enqueue (s : State) (e : Env) (waves : List Nat) (op : MatOp) : Nat × State :=
  let (id, s1) := s.fresh
  let x : MqEntry := { id := id, core := e.core, wg := e.iss.wg, part := e.part, waves := waves, op := op }
  (id, (s1.mmaCount x 1).mqPush x)

/-- The accumulator run of a word lies in the allocation, in whole words. -/
def Part.accRun (p : Part) (off n hi : Nat) : Bool :=
  off % 4 = 0 && n % 4 = 0 && 4 ≤ n && n ≤ hi && off + n ≤ p.accBytes

def execAccz (h : Hdr) (f : GF) (s : State) : Host.Outcome State Fault Refusal :=
  memWord h (some .matrix) ⟨sregs f.a ++ sregs f.b, []⟩ (fun e s =>
    let off := (e.uniform f.a).toNat
    let n := (e.uniform f.b).toNat
    if !(e.wg.part e.part).accRun off n 1048576 then s.groupTrap .matrixArg
    else if e.act = [] then s
    else if !s.mqRoom e.core then s.hold
    else (s.enqueue e [e.iss.wave] (.accz off n)).2) s

def execAccld (h : Hdr) (f : GF) (s : State) : Host.Outcome State Fault Refusal :=
  memWord h (some .matrix) ⟨sregs f.a ++ sregs f.b ++ sregs f.c, []⟩ (fun e s =>
    let off := (e.uniform f.a).toNat
    let scr := (e.uniform f.b).toNat
    let n := (e.uniform f.c).toNat
    if !(e.wg.part e.part).accRun off n 65536 || scr % 4 ≠ 0 then s.groupTrap .matrixArg
    else if (e.wg.part e.part).scrBytes < scr + n || 0x800000 < scr + n then s.groupTrap .scratchRange
    else if e.act = [] then s
    else if !s.mqRoom e.core then s.hold
    else (s.enqueue e [e.iss.wave] (.accld off scr n)).2) s

def execAccrd (h : Hdr) (f : GF) (s : State) : Host.Outcome State Fault Refusal :=
  let sc : Bool := bitAt f.m 0
  memWord h (some .matrix) ⟨sregs f.a ++ (if sc then sregs f.b else [.v f.b.toNat]), [.v f.d.toNat]⟩ (fun e s =>
    let off := (e.uniform f.a).toNat
    let idx (l : Nat) : Nat := if sc then e.scalar .n32 f.b l else e.vec .n32 f.b l
    let ok (l : Nat) : Bool := off + 4 * idx l + 4 ≤ (e.wg.part e.part).accBytes
    if off % 4 ≠ 0 then s.groupTrap .matrixArg
    else if e.act = [] then s
    else if !s.mqRoom e.core then s.hold
    else
      let good := e.act.filter ok
      let s1 := if good = [] then s
        else
          let (n, s1) := s.startOp e { id := 0, wg := 0, wave := 0, cnt := some .mma, regs := [.v f.d.toNat] }
          (s1.enqueue e [] (.accrd n (good.map fun l => (l, off / 4 + idx l)) f.d.toNat)).2
      s1.laneTraps ((e.act.filter fun l => !ok l).map fun l => (l, .matrixArg, e.iss.word))) s

/-! DRAIN (R285 to R287). -/

/-- The fields of a DRAIN word and its tile word. -/
structure DrainArgs where
  m    : BitVec 14
  tile : Word
  deriving DecidableEq, Repr

def DrainArgs.fmt (a : DrainArgs) : Nat := wfld (a.m.setWidth 64) 0 4
def DrainArgs.block (a : DrainArgs) : Nat :=
  match wfld (a.m.setWidth 64) 7 2 with
  | 1 => 16
  | 2 => 32
  | 3 => 64
  | _ => 0
def DrainArgs.col (a : DrainArgs) : Bool := bitAt a.m 9
def DrainArgs.tr (a : DrainArgs) : Bool := bitAt a.m 10
def DrainArgs.clr (a : DrainArgs) : Bool := bitAt a.m 11
def DrainArgs.acc (a : DrainArgs) : Nat := wfld a.tile 0 10
def DrainArgs.rowsM (a : DrainArgs) : Nat := mOf (BitVec.ofNat 2 (wfld a.tile 10 2))
def DrainArgs.colsN (a : DrainArgs) : Nat := 16 * (wfld a.tile 12 6 + 1)
def DrainArgs.mode (a : DrainArgs) : RMode := modeOf (wfld (a.m.setWidth 64) 4 2)
def DrainArgs.width (a : DrainArgs) : Nat := (pageFmt a.fmt).width

/-- The tile word's own checks. -/
def DrainArgs.ok (a : DrainArgs) : Bool :=
  wfld a.tile 10 2 ≠ 3 && wfld a.tile 18 46 = 0 && a.rowsM * a.colsN ≤ 65536
    && (a.block = 0 || (if a.col then a.rowsM else a.colsN) % a.block = 0)

/-- The destinations: the element tile and, where blocked, the scale tile (R286). -/
def DrainArgs.tiles (a : DrainArgs) (elem scale : Word) (eL sL : Layout) : List Tile :=
  let m := a.rowsM
  let n := a.colsN
  ⟨eL, owOrigin elem, if a.tr then m else n, if a.tr then n else m, a.width⟩ ::
    (if a.block = 0 then []
     else [⟨sL, owOrigin scale, if a.col then n else n / a.block, if a.col then m / a.block else m, 8⟩])

/-- One write of a drain: whether it is a scale byte, its box coordinates, and its code. -/
structure DWrite where
  sc   : Bool
  x    : Nat
  y    : Nat
  code : Nat
  deriving DecidableEq, Repr

/-- The writes of a drain, from the tile's values (R286). -/
def DrainArgs.writes (a : DrainArgs) (v : Nat → Nat → Val) : List DWrite :=
  let el (i j c : Nat) : DWrite := if a.tr then ⟨false, i, j, c⟩ else ⟨false, j, i, c⟩
  let m := a.rowsM
  let n := a.colsN
  let B := a.block
  if B = 0 then
    (List.range m).flatMap fun i => (List.range n).map fun j =>
      el i j ((pageFmt a.fmt).encode a.mode (bitAt a.m 6) (v i j)).1
  else
    (List.range (if a.col then n else m)).flatMap fun r => (List.range ((if a.col then m else n) / B)).flatMap fun k =>
      let at_ (t : Nat) : Nat × Nat := if a.col then (B * k + t, r) else (r, B * k + t)
      let (sc, xs) := mxBlockEncode ((List.range B).map fun t => v (at_ t).1 (at_ t).2) a.fmt a.mode
      (if a.col then ⟨true, r, k, sc⟩ else ⟨true, k, r, sc⟩) ::
        xs.zipIdx.map fun x => el (at_ x.2).1 (at_ x.2).2 x.1

/-- The tag of a granule that receives elements. -/
def DrainArgs.tag (a : DrainArgs) : Byte :=
  let g := (if a.block = 16 then 1 else if a.block = 32 then 2 else if a.block = 64 then 3 else 0)
    + (if a.col ≠ a.tr then 4 else 0)
  tagOf (BitVec.ofNat 4 a.fmt) (BitVec.ofNat 3 g)

def drainBody (f : GF) (e : Env) (s : State) : State :=
  match e.iss.await with
  | some n => if s.mq.any fun x => x.id = n then s.hold else s.modHead fun c => { c with await := none }
  | none =>
    let a : DrainArgs := ⟨f.m, e.uniform f.b⟩
    let (re, s1) := s.operand e (e.uniform f.d) fun _ => true
    let (rs, s2) := if a.block = 0 then (re, s1) else s1.operand e (e.uniform f.a) fun _ => true
    match re, rs with
    | .error c, _ => s1.groupTrap c
    | _, .error c => s2.groupTrap c
    | .ok eL, .ok sL =>
      let elem := e.uniform f.d
      let scale := e.uniform f.a
      if !a.ok || (e.wg.part e.part).accBytes < 1024 * a.acc + 4 * a.rowsM * a.colsN then s2.groupTrap .matrixArg
      else
        match tilesBad e.wg e.part (a.tiles elem scale eL sL) with
        | some c => s2.groupTrap c
        | none =>
          if e.act = [] then s2
          else if !s2.mqRoom e.core then s.hold
          else
            let (id, s3) := s2.enqueue e [e.iss.wave] (.drain elem scale eL sL a.tile f.m e.iss.group e.iss.wordPc)
            if eL.memory || (a.block ≠ 0 && sL.memory) then (s3.modHead fun c => { c with await := some id, issued := true }).hold else s3

/-- The registers of a DRAIN: an unblocked one names no scale operand (R285). -/
def drainUses (f : GF) : Uses :=
  ⟨sregs f.d ++ (if wfld (f.m.setWidth 64) 7 2 = 0 then [] else sregs f.a) ++ sregs f.b, []⟩

def execDrain (h : Hdr) (f : GF) (s : State) : Host.Outcome State Fault Refusal :=
  memWord h (some .matrix) (drainUses f) (drainBody f) s

/-- Where a write of a drain goes: its bit address, where the entry's bounds allow it. -/
def DWrite.at (x : DWrite) (ts : List Tile) : Option (Tile × Int) :=
  match (if x.sc then ts[1]? else ts[0]?) with
  | none => none
  | some t =>
    let c := addC t.o [x.x, x.y, 0, 0, 0]
    if t.l.inb c then some (t, t.l.bitAddr c t.w) else none

/-- The writes of a drain into scratch spaces, and the tags of the granules that receive them. -/
def State.drainScratch (s : State) (wg me : Nat) (w : Workgroup) (tag : Byte) (ts : List Tile) (ws : List DWrite) : State :=
  let put (s : State) (x : DWrite) : State :=
    match x.at ts with
    | some (t, ba) =>
      (match (if t.l.scratch then t.l.partFor w me else none) with
       | some j => s.modPart wg j fun p =>
           let tg : Byte := if x.sc then 0 else tag
           ((p.setBits (some t.l) ba.toNat t.w x.code).setTag (ba / 8).toNat tg).setTag ((ba + t.w - 1) / 8).toNat tg
       | none => s)
    | none => s
  -- elements after scale bytes, so that a granule of both takes the elements' tag
  (ws.filter (fun x => !x.sc)).foldl put ((ws.filter fun x => x.sc).foldl put s)

/-- Masked bits of each line that a drain writes in memory, lowest line first, with the entry and the first byte. An element
at a negative address keeps it, for the page check to refuse (R68). -/
def drainLines (ts : List Tile) (ws : List DWrite) : List (Int × Line × Line × Layout × Int) :=
  let add (m : List (Int × Line × Line × Layout × Int)) (ln : Int) (mask d : Line) (l : Layout) (va : Int) :=
    match m.find? fun x => x.1 = ln with
    | some (_, mk, dd, l0, v0) =>
      (ln, mk ||| mask, lineMerge dd mask d, l0, min v0 va) :: m.filter fun x => x.1 ≠ ln
    | none => (ln, mask, d, l, va) :: m
  let all := ws.foldl (fun m x =>
    match x.at ts with
    | some (t, ba) =>
      if t.l.memory then
        (partsOf (ba + 2 ^ 63).toNat t.w).foldl (fun m p =>
          let va : Int := p.va - 2 ^ 60
          add m (va / 128) (lineBits p.lo p.w) (BitVec.ofNat 1024 ((x.code >>> p.sh % 2 ^ p.w) <<< p.lo)) t.l va) m
      else m
    | none => m) []
  let keys := all.map (·.1)
  let sorted := keys.foldl (fun (l : List Int) k => l.filter (fun x => x < k) ++ [k] ++ l.filter fun x => k < x) []
  sorted.filterMap fun k => all.find? fun x => x.1 = k

/-- The page check of one line of a drain. -/
def State.drainCheck (s : State) (core : Nat) (w : Workgroup) (x : Int × Line × Line × Layout × Int) : Except Cause Leaf × State :=
  let (r, s1) := s.check core w.ctx.asid w.ctx.world x.2.2.2.2 .wr
  match r with
  | .error c => (.error c, s1)
  | .ok l =>
    let sp := x.2.2.2.1.space
    if l.isReg || (sp = 4 && !l.so) || (sp = 5 && !l.loc) then (.error .perm, s1) else (.ok l, s1)

/-- How a drain into memory stands after its turn so far. -/
inductive Drained where
  | ok | wait | fault (c : Cause) (va : Int)
  deriving DecidableEq, Repr

/-- The lines of a drain are written at their homes in order; the first failure ends it (R287). -/
def State.drainMemory (s : State) (core id : Nat) (w : Workgroup) (writers : List (Nat × Nat × Nat))
    (ls : List (Int × Line × Line × Layout × Int)) : Drained × State :=
  ls.foldl (fun (d, s) x =>
    match d with
    | .ok =>
      let (r, s1) := s.drainCheck core w x
      (match r with
       | .error c => (.fault c x.2.2.2.2, s1)
       | .ok leaf =>
         let va := 128 * x.1.toNat
         let a : Acc1 := { q := w.ctx.q, asid := effAsid w.ctx.asid va, va := va, leaf := leaf, who := some w.recId, die := core / 64,
                           eng := id }
         match s1.writeLine a x.2.1 x.2.2.1 writers with
         | (.ok (), s2) => (.ok, s2)
         | (.fault c, s2) => (.fault c x.2.2.2.2, s2)
         | (.wait, s2) => (.wait, s2))
    | d => (d, s)) (.ok, s)

/-- Whether every line of a drain can be written in this step: those that cannot start on their way. -/
def State.drainReady (s : State) (core id : Nat) (w : Workgroup) (ls : List (Int × Line × Line × Layout × Int)) : Bool × State :=
  ls.foldl (fun (ok, s) x =>
    let (r, s1) := s.drainCheck core w x
    match r with
    | .error _ => (ok, s1)
    | .ok leaf =>
      let va := 128 * x.1.toNat
      let a : Acc1 := { q := w.ctx.q, asid := effAsid w.ctx.asid va, va := va, leaf := leaf, who := some w.recId, die := core / 64,
                        eng := id }
      if s1.auditHeld a.q a.asid va a.who && (s1.replayBy a.who).isNone then (false, s1)
      else
        match s1.ensure a with
        | (.wait, s2) => (false, s2)
        | (.ok _, s2) => (ok, s2)
        | (.fault _, _) => (ok, s1)) (true, s)

/-! The queue's turn. -/

/-- The entry is done: it leaves the queue, its waves' counters fall, its pebbles return. -/
def State.mqDone (s : State) (e : MqEntry) : State :=
  (State.mmaCount { s with mq := s.mq.filter fun x => x.id ≠ e.id } e (-1)).mwaitGo e.core 8

/-- An MMA's turn (R280 to R282, R317). -/
def State.mmaTurn (s : State) (e : MqEntry) (w : Workgroup) (b : Bead) (aL bL : Layout) (wd wa wb : Nat) (aN bN : Bool) : State :=
  let j := e.part
  let k := kOf wd
  let p := w.part j
  let a (i x : Nat) : Val := if aN then .nan else elemVal w j aL (addC (owOrigin b.a) [x, i, 0, 0, 0]) wa
  let bb (x n : Nat) : Val := if bN then .nan else elemVal w j bL (addC (owOrigin b.b) [n, x, 0, 0, 0]) wb
  let base := 256 * b.acc.toNat
  let cur (i : Nat) : Nat := if p.accUe.contains (base + i) then 0x7FC00000 else (p.accWord (base + i)).toNat
  let ws := mmaWords b cur a bb k
  let fire : Bool := e.inj.isSome && s.rf (rCORE_ACCINJ e.core) 32 1 = 1
  let ws1 := match e.inj with
    | some (x, bit) => if fire then ws.zipIdx.map fun y => if base + y.2 = x then y.1 ^^^ 2 ^ bit else y.1 else ws
    | none => ws
  let ue : Bool := (!b.z && p.accUe.any fun i => base ≤ i && i < base + b.words)
  let ueOp := (Tile.mk aL (owOrigin b.a) k b.m wa).hasUe w j || (Tile.mk bL (owOrigin b.b) b.nn k wb).hasUe w j
  let s1 := s.modPart e.wg j fun p => p.setAcc base ws1
  let s2 := if fire then (s1.setRf (rCORE_ACCINJ e.core) 32 1 0).setRf (rCORE_ACCINJ e.core) 33 1 1 else s1
  let s3 := s2.mqDone e
  if ue then s3.matrixUe w.id 2
  else if ueOp then s3.matrixUe w.id (if aL.space = 2 || bL.space = 2 then 1 else 0) else s3

/-- The issue group of a drain that failed parks at its word, whether it still runs the clause or its workgroup is
being saved (R287, R338); threads of a workgroup that has stopped for good do not (R348). -/
def State.drainFault (s : State) (e : MqEntry) (lanes : BitVec 64) (c : Cause) (word : Pc) (va : Int) : State :=
  match e.waves.head? with
  | none => s
  | some k =>
    if (s.wg? e.wg).any fun w => w.fate = .ending then s
    else s.takeTrap e.wg k ((lanesOf lanes).map fun l => (l, c, accInfo (va % 2 ^ 57).toNat true)) (fun _ => word) (some word) true

/-- A DRAIN's turn (R286, R287). -/
def State.drainTurn (s : State) (e : MqEntry) (w : Workgroup) (a : DrainArgs) (elem scale : Word) (eL sL : Layout)
    (lanes : BitVec 64) (word : Pc) : State :=
  let p := w.part e.part
  let base := 256 * a.acc
  let n := a.colsN
  let v (i j : Nat) : Val :=
    if p.accUe.contains (base + i * n + j) then .nan else f32F.decode (p.accWord (base + i * n + j)).toNat
  let ts := a.tiles elem scale eL sL
  let ws := a.writes v
  let ls := drainLines ts ws
  let (ready, s0) := s.drainReady e.core e.id w ls
  if !ready then s0
  else
    let writers := (lanesOf lanes).map fun l => (e.wg, (e.waves.headD 0), l)
    let (d, s1) := (s0.drainScratch e.wg e.part w a.tag ts ws).drainMemory e.core e.id w writers ls
    let ue (s : State) : State := if p.accUe.any fun i => base ≤ i && i < base + a.rowsM * n then s.matrixUe w.id 2 else s
    match d with
    | .wait => s1
    | .fault c va => ue ((s1.drainFault e lanes c word va).mqDone e)
    | .ok => ue ((if a.clr then s1.modPart e.wg e.part fun p => p.setAcc base (List.replicate (a.rowsM * n) 0) else s1).mqDone e)

/-- An ACCLD's turn: words of the scratchpad as they stand. -/
def Part.accLoad (p : Part) (off scr n : Nat) : Part :=
  p.setAcc (off / 4) ((List.range (n / 4)).map fun i =>
    if p.bad none (scr + 4 * i) 4 then 0x7FC00000 else natOfBytes (p.rd (scr + 4 * i) 4))

/-- THE TURN OF A QUEUE'S FIRST ENTRY (R277). -/
def State.mqTurn (s : State) (core : Nat) : State :=
  match s.mq.find? fun e => e.core = core with
  | none => s
  | some e =>
    match s.wg? e.wg with
    | none => s.mqDone e
    | some w =>
      match e.op with
      | .mma b aL bL wd wa wb aN bN => s.mmaTurn e w b aL bL wd wa wb aN bN
      | .accz off n => (s.modPart e.wg e.part fun p => p.setAcc (off / 4) (List.replicate (n / 4) 0)).mqDone e
      | .accld off scr n =>
        let s1 := s.modPart e.wg e.part fun p => p.accLoad off scr n
        (if (w.part e.part).bad none scr n then (s1.mqDone e).matrixUe w.id 0 else s1.mqDone e)
      | .accrd res lanes reg =>
        let p := w.part e.part
        let rd (k : Nat) : Word := if p.accUe.contains k then 0x7FC00000 else (p.accWord k).setWidth 64
        let s1 := s.finishOp res s.clk (lanes.map fun x => ⟨.v reg, x.1, rd x.2⟩)
        (if lanes.any fun x => p.accUe.contains x.2 then (s1.mqDone e).matrixUe w.id 2 else s1.mqDone e)
      | .drain elem scale eL sL tile m lanes word => s.drainTurn e w ⟨m, tile⟩ elem scale eL sL lanes word

def execMatrixQueueEntry (core : Nat) (s : State) : Host.Outcome State Fault Refusal :=
  .next (s.transact (fun s => s.mqTurn core) fun x => x)

end Sys2Proof.Machine
end

