-- ==== Sys2Proof/Machine/Lanes.lean ====
section
/-! DEFINITION. What the memory forms have in common (R246, R247, R249, R385): the checks on their uniform operands,
coordinates, and where a lane's element lies: in scratch, or in memory with its pages checked, and its block scale. -/
namespace Sys2Proof.Machine

/-- Registers that a word names only once its layout entry is known: the word waits for them, or traps, as issue does,
before its uniform operands are checked (R187, R189, R337). -/
def State.gate (s : State) (e : Env) (regs : List Reg) (k : State → State) : State :=
  if regs.any e.w.marked then s.holdOn (e.w.markOps regs)
  else if regs.any e.w.pending then s.shortIssue (k s) e
  else k s

/-- A coordinate register the wave does not have (R247 check 3). -/
def Env.noReg (e : Env) (r : Reg) : Bool :=
  beyond e.w.n r || (match r with
    | .s i => 192 ≤ i
    | _ => false)

/-- Coordinate registers beyond the first, which the word itself names. -/
def coordRegs (scalar : Bool) (k : Byte) (rank : Nat) : List Reg :=
  (List.range (rank - 1)).map fun i => if scalar then .s (k.toNat + 1 + i) else .v (k.toNat + 1 + i)

/-- Coordinates of a lane: c0 takes the offset, modulo 2^32 (R10, R246). -/
def Env.coords (e : Env) (rank : Nat) (scalar : Bool) (k : Byte) (off : BitVec 16) (lane : Nat) : List Int :=
  (List.range 5).map fun i =>
    if rank ≤ i then 0
    else
      let x := if scalar then (e.w.s (k.toNat + i)).toNat else (e.w.v (k.toNat + i) lane).toNat
      if i = 0 then signed 32 ((signed 32 x + off.toInt) % 2 ^ 32).toNat else signed 32 x

/-- THE CHECKS OF R247 on a memory form's handle and coordinate registers, whatever the guard; then `body` with the entry.
`regs`: the coordinate registers beyond the first, by the entry's rank. -/
def State.form (s : State) (e : Env) (h : Byte) (ok : Layout → Bool) (regs : Nat → List Reg)
    (body : Layout → State → State) : State :=
  match s.layEntry e.core e.ctx (e.uniform h) with
  | (none, s1) => s1.groupTrap .handle
  | (some l, s1) => s1.gate e (regs l.rank.toNat) fun s =>
    if !ok l then s.groupTrap .space
    else if (regs l.rank.toNat).any e.noReg then s.groupTrap .regrange
    else body l s

/-- One line part of an element in memory, with the leaf of its page. -/
structure MPart where
  p    : EPart
  leaf : Leaf
  deriving DecidableEq, Repr

/-- Where a lane's element lies. -/
inductive Elem where
  | zero                                  -- outside the extents of an entry with oob = 1
  | bad (c : Cause) (info : Word)
  | mem (ba w : Nat) (fmt : BitVec 4) (leaf : Leaf) (parts : List MPart) (scale : Option MPart)
  | scr (part ba w : Nat) (fmt : BitVec 4) (scale : Option Nat)
  deriving DecidableEq, Repr

/-- THR_TINFO of an access at a byte address (R344). -/
def infoAt (a : Int) (wr : Bool) : Word := accInfo (a % 2 ^ 57).toNat wr

/-- The page checks of a core's access through an entry, register pages and the narrowed spaces included (R59, R129, R385). -/
def State.pageOk (s : State) (e : Env) (l : Layout) (va : Int) (need : Need) (reg : Bool) : Except Cause Leaf × State :=
  let (r, s1) := s.check e.core e.ctx.asid e.ctx.world va need
  match r with
  | .error c => (.error c, s1)
  | .ok x =>
    if (l.space = 4 && !x.so) || (l.space = 5 && !x.loc) || (x.isReg && !reg) then (.error .perm, s1) else (.ok x, s1)

/-- Pieces of an element, each page checked; the failures of least code lead (R337), the first of them counts. -/
def State.memParts (s : State) (e : Env) (l : Layout) (need : Need) (reg : Bool) (ps : List EPart) :
    Except (Cause × Nat) (List MPart) × State :=
  ps.foldl (fun (a, s) p =>
    let (r, s1) := s.pageOk e l p.va need reg
    match a, r with
    | .error x, .error c => (.error (if c.code < x.1.code then (c, p.va) else x), s1)
    | .error x, .ok _ => (.error x, s1)
    | .ok _, .error c => (.error (c, p.va), s1)
    | .ok xs, .ok leaf => (.ok (xs ++ [⟨p, leaf⟩]), s1)) (.ok [], s)

/-- Attributes of the page an address lies in, where a walk finds them, whatever the access may do there. -/
def State.pageLeaf (s : State) (e : Env) (va : Int) : Option Leaf × State :=
  if va < 0 ∨ 2 ^ 57 ≤ va then (none, s)
  else
    match s.attrs e.core (effAsid e.ctx.asid va.toNat) va.toNat with
    | (.ok x, s1) => (some x, s1)
    | (.error _, s1) => (none, s1)

/-- The place and width of an element of memory, and the page by whose format it is decoded: the one that holds its lowest
bit. The base's page gives a first guess of the width, which is derived once more where it places the element in a page of
another format (R140, R246). `w` is the width in a raw page, and where no page is found. -/
def State.memFmt (s : State) (e : Env) (l : Layout) (c : List Int) (w : Nat) : (Int × Nat × Option Leaf) × State :=
  let wide (x : Option Leaf) : Nat := (x.map fun x => elemWidth x.fmt.toNat w).getD w
  let (x0, s0) := s.pageLeaf e l.base.toNat
  let w0 := wide x0
  match s0.pageLeaf e (l.bitAddr c w0 / 8) with
  | (none, s1) => ((l.bitAddr c w0, w0, none), s1)
  | (some x1, s1) =>
    let w1 := wide (some x1)
    if w1 = w0 then ((l.bitAddr c w1, w1, some x1), s1)
    else
      let (x2, s2) := s1.pageLeaf e (l.bitAddr c w1 / 8)
      ((l.bitAddr c w1, if x2.isSome then wide x2 else w1, x2), s2)

/-- A lane's element in memory: the failures of its pages and of its scale byte's page, the one of least code leading (R337),
then its alignment. `decode`: the access decodes by the page's format; `w` its width where it does not, or in a raw page;
`reg`: the instruction may touch a register page. -/
def State.memElem (s : State) (e : Env) (l : Layout) (c : List Int) (decode : Bool) (w : Nat) (need : Need) (align reg : Bool) :
    Elem × State :=
  let wr : Bool := need = .wr || need = .rdwr
  let ((ba, wd, lf), s1) := if decode then s.memFmt e l c w else ((l.bitAddr c w, w, none), s)
  let f : BitVec 4 := (lf.map (·.fmt)).getD 0
  -- a bit address below 0 lies in no page
  if ba < 0 then (.bad .range (infoAt (ba / 8) wr), s1)
  else
    let (r, s2) := s1.memParts e l need reg (partsOf ba.toNat wd)
    let (q, s3) : Option (Int × Except Cause Leaf) × State :=
      match lf.filter fun x => blockedFmt f.toNat && l.scaled && blockOf x.geom ≠ 0 with
      | none => (none, s2)
      | some x =>
        let sa := l.scaleAddr x.geom c
        let (r, s3) := s2.pageOk e l sa .rd false
        (some (sa, r), s3)
    match r, q with
    | .error x, some (sa, .error k) =>
      (if k.code < x.1.code then .bad k (infoAt sa false) else .bad x.1 (infoAt x.2 wr), s3)
    | .error x, _ => (.bad x.1 (infoAt x.2 wr), s3)
    | .ok _, some (sa, .error k) => (.bad k (infoAt sa false), s3)
    | .ok ps, q =>
      match ps.head? with
      | none => (.zero, s3)
      | some p0 =>
        if align && ba.toNat % wd ≠ 0 then (.bad .align (infoAt (ba / 8) wr), s3)
        else
          match q with
          | some (sa, .ok leaf) => (.mem ba.toNat wd f p0.leaf ps (some ⟨scalePart sa.toNat, leaf⟩), s3)
          | _ => (.mem ba.toNat wd f p0.leaf ps none, s3)

/-- A lane's element in scratch (R121 to R125, R140). -/
def scrElem (g : Workgroup) (me : Nat) (l : Layout) (c : List Int) (decode : Bool) (w : Nat) (wr align : Bool) : Elem :=
  match l.partFor g me with
  | none => .bad (if align && l.bitAddr c w % (w : Int) ≠ 0 then .align else .scratchRange) (infoAt (l.bitAddr c w / 8) wr)
  | some j =>
    let p := g.part j
    let own : Bool := l.space ≠ 3
    let tag (o : Int) : Byte := if p.holds own o then p.tag o.toNat else 0
    let wide (t : Byte) : Nat := elemWidth (tagFmt t).toNat w
    let w0 := if decode then wide (tag l.base.toNat) else w
    let t1 := tag (l.bitAddr c w0 / 8)
    let w1 := if decode then wide t1 else w
    let t2 := if w1 = w0 then t1 else tag (l.bitAddr c w1 / 8)
    let wd := if decode then wide t2 else w
    let ba := l.bitAddr c w1
    let fmt : BitVec 4 := if decode then tagFmt t2 else 0
    if align && ba % (wd : Int) ≠ 0 then .bad .align (infoAt (ba / 8) wr)
    else if !p.holdsAll own (ba / 8) (cdiv ((ba % 8).toNat + wd) 8) then .bad .scratchRange (infoAt (ba / 8) wr)
    else if decode && blockedFmt fmt.toNat && l.scaled && blockOf (tagGeom t2) ≠ 0 then
      let sa := l.scaleAddr (tagGeom t2) c
      if p.holds own sa then .scr j ba.toNat wd fmt (some (swz (some l) sa.toNat)) else .bad .scratchRange (infoAt sa false)
    else .scr j ba.toNat wd fmt none

/-- THE ELEMENT OF A LANE (R129, R246, R252, R253, R256). -/
def State.elemOf (s : State) (e : Env) (l : Layout) (c : List Int) (decode : Bool) (w : Nat) (need : Need) (align reg : Bool) :
    Elem × State :=
  let wr : Bool := need = .wr || need = .rdwr
  if !l.inb c then (if l.oob then .zero else .bad .bounds (infoAt (l.bitAddr c w / 8) wr), s)
  else if l.memory then s.memElem e l c decode w need align reg
  else (scrElem e.wg e.part l c decode w wr align, s)

/-- Elements of the active lanes, lowest lane first. -/
def State.elemsOf (s : State) (e : Env) (f : State → Nat → Elem × State) : List (Nat × Elem) × State :=
  e.act.foldl (fun (xs, s) l =>
    let (x, s1) := f s l
    (xs ++ [(l, x)], s1)) ([], s)

/-- The lanes whose element cannot be reached, as causes. -/
def badLanes (xs : List (Nat × Elem)) : List (Nat × Cause × Word) :=
  xs.filterMap fun x => match x.2 with
    | .bad c i => some (x.1, c, i)
    | _ => none

end Sys2Proof.Machine
end

