-- ==== Sys2Proof/Machine/Reduce.lean ====
section
/-! DEFINITION. The lode engine's reductions and transposes (R291 to R296): contributions and the records that take
them, the close of a record, LRED, LREDW and LXPOSE. -/
namespace Sys2Proof.Machine

/-! Reductions (R291 to R293). -/

/-- The combination of an operation (R291). -/
def redCombine (op acc x : Nat) : Nat :=
  match op with
  | 0 => floatRes .f32 .rne ((f32F.decode acc).add false (f32F.decode x))
  | 1 => floatRes .f64 .rne ((f64F.decode acc).add false (f64F.decode x))
  | 2 => (slOp sli32F .add acc x).1
  | 3 => (acc + x) % 2 ^ 32
  | 4 => (acc + x) % 2 ^ 64
  | 5 => minMaxNum f32F false acc x
  | _ => minMaxNum f32F true acc x

/-- The values a record holds for its next indexes are combined, in index order (R292). -/
def RedRec.run (r : RedRec) : Nat → RedRec
  | 0 => r
  | fuel + 1 =>
    match r.held.find? fun x => x.1 = r.nxt with
    | none => r
    | some (i, x) =>
      RedRec.run { r with acc := BitVec.ofNat 64 (redCombine r.op r.acc.toNat x.toNat), nxt := i + 1,
                          held := r.held.filter fun y => y.1 ≠ i } fuel

/-- Save area of a context, from its descriptor (R318). -/
def State.saveOf (s : State) (q ctx : Nat) : Nat := rfld (s.descOf q ctx).1 192 52

/-- One lane's answer: its value lands with the result's others. -/
def State.redAnswer (s : State) (res lane : Nat) (v : Word) : State :=
  (s.feed res lane 0 v.toNat 1).modResult res fun o => o.gathered s.clk

/-- A lane whose contribution is refused keeps its register; its acquire has no effect (R292). -/
def State.redRefused (s : State) (res lane : Nat) : State :=
  (s.dropLane res (1#64 <<< lane)).modResult res fun o =>
    if o.ready && o.writes = [] then { o with acq := none } else o

def State.modRed (s : State) (id : Nat) (f : RedRec → RedRec) : State :=
  { s with reds := s.reds.map fun r => if r.id = id then f r else r }

/-- The lode's own access to a record's target: by the translation buffer's entry, or a walk (R60, R292). -/
def State.redAcc (s : State) (r : RedRec) (who : Option Nat) : Option Acc1 × State :=
  let give (l : Leaf) : Option Acc1 :=
    some { q := r.q, asid := r.asid, va := r.va, leaf := l, who := who, die := r.lode / 64, eng := r.id }
  match s.tbFind r.lode r.asid r.va with
  | some e => (give e.leaf, s)
  | none =>
    let w := s.walk r.q r.asid r.va
    match w.res with
    | .ok l => (give l, w.st)
    | .error _ => (none, w.st)

/-- An answer's wave is saved: the lode keeps the answer until the restored wave collects it (R349). -/
def State.savedResult (s : State) (res : Nat) : Bool :=
  s.results.any fun x => x.id = res && (s.wg? x.wg).isNone

/-- A record, closed, answers the waves that are there, and goes where none is left to answer (R292, R349). -/
def State.redGive (s : State) (r : RedRec) : State :=
  let (later, now) := r.waiters.partition fun x => s.savedResult x.1
  let rest : List RedRec := if later = [] then [] else [{ r with waiters := later, kept := true, held := [] }]
  now.foldl (fun s x => s.redAnswer x.1 x.2.1 r.acc)
    { s with reds := (s.reds.filter fun x => x.id ≠ r.id) ++ rest }

/-- Every index has been combined: the record closes where its write is accepted, and stays open where not (R292). -/
def State.redClose (s : State) (id : Nat) : State :=
  match s.reds.find? fun r => r.id = id with
  | none => s
  | some r =>
    if r.nxt < r.n then s
    else if r.kept then (if r.waiters.all fun x => s.savedResult x.1 then s else s.redGive r)
    else
      let w := redWidth r.op
      let lo := 8 * (r.va % 128)
      match s.redAcc r r.who with
      | (none, _) => s
      | (some a, s1) =>
        match s1.writeLine a (lineBits lo w) (BitVec.ofNat 1024 ((r.acc.toNat % 2 ^ w) <<< lo)) r.by_ with
        | (.ok (), s2) => s2.redGive r
        | (_, s2) => s2

def State.heldAt (s : State) (lode : Nat) : Nat :=
  (s.reds.filter fun r => r.lode = lode).foldl (fun a r => a + r.held.length) 0
def State.openAt (s : State) (lode : Nat) : Nat := s.reds.countP fun r => r.lode = lode

/-- THE ARRIVAL OF A CONTRIBUTION (R292): taken, refused, held back for capacity, faulted, or waiting for its line. The run of an
audit that repeats a record reduces into its own shadow of the target, in a record of its own (R363). -/
def State.redArrive (s : State) (r : Req) : State :=
  match r.what with
  | .lred op n i x wait _ =>
    let a := s.reqAcc r
    let back (s : State) : State := s.modReq r.id fun y => { y with what := .lred op n i x wait true }
    match s.ensure a with
    | (.wait, s1) => s1
    | (.fault c, s1) => s1.modReq r.id fun y => { y with cause := some c }
    | (.ok l, s1) =>
      let done (s : State) : State := s.dropReq r.id
      let run := (s1.replayBy a.who).map (·.id)
      let rec? := s1.reds.find? fun y => y.lode = l.lode && y.asid = r.asid && y.va = r.va && y.q = r.q && y.runOf = run && !y.kept
      let take (s : State) (y : RedRec) : State :=
        let z := RedRec.run { y with got := y.got ++ [i], held := y.held ++ [(i, x)],
                                     ctxs := if y.ctxs.contains r.ctx then y.ctxs else y.ctxs ++ [r.ctx],
                                     waiters := if wait then y.waiters ++ [(r.op, r.lane, r.ctx)] else y.waiters,
                                     who := a.who, by_ := addNew (r.wg, r.wave, r.lane) y.by_ } (n + 1)
        let s2 := done (s.modRed y.id fun _ => z)
        (if wait then s2 else s2.redAnswer r.op r.lane 0).redClose y.id
      match rec? with
      | some y =>
        if y.op ≠ op || y.n ≠ n || y.got.contains i then
          ((done s1).redRefused r.op r.lane).incRf (rLODE_RED l.lode) 32 32 |>.countDropped (s.saveOf r.q r.ctx) 1
        else if i ≠ y.nxt && 4096 ≤ s1.heldAt l.lode then back s1
        else take s1 y
      | none =>
        if 64 ≤ s1.openAt l.lode || (i ≠ 0 && 4096 ≤ s1.heldAt l.lode) then back s1
        else
          let w := redWidth op
          let lo := 8 * (r.va % 128)
          match s1.readLine a (lineBits lo w) with
          | (.wait, s2) => s2
          | (.fault c, s2) => s2.modReq r.id fun y => { y with cause := some c }
          | (.ok d, s2) =>
            let (id, s3) := s2.fresh
            let y : RedRec :=
              { id := id, lode := l.lode, q := r.q, asid := r.asid, va := r.va, op := op, n := n, nxt := 0,
                acc := BitVec.ofNat 64 (fld d.toNat lo w), got := [], held := [], ctxs := [], waiters := [], who := a.who, runOf := run }
            take { s3 with reds := s3.reds ++ [y] } y
  | _ => s

/-- A contribution that is on its way; `held`: one that waits for capacity. -/
def State.redReq (s : State) (id : Nat) (held : Bool) : Option Req :=
  s.reqs.find? fun r => r.id = id && r.goes && (match r.what with
    | .lred _ _ _ _ _ w => w = held
    | _ => false)

def execLredContribution (id : Nat) (s : State) : Host.Outcome State Fault Refusal :=
  .next (match s.redReq id false with
    | some r => if s.portShut r then s.dropPacket r else s.transact (fun s => s.redArrive r) fun x => x
    | none => s)

def execLredContributionRetry (id : Nat) (s : State) : Host.Outcome State Fault Refusal :=
  .next (match s.redReq id true with
    | some r => if s.portShut r then s.dropPacket r else s.transact (fun s => s.redArrive r) fun x => x
    | none => s)

def execLredCloseRetry (id : Nat) (s : State) : Host.Outcome State Fault Refusal :=
  .next (s.transact (fun s => s.redClose id) fun x => x)

/-- The data registers of a reduction word: the value, and the index. -/
def redIndex (op : Nat) (d : Byte) : Nat := if redWidth op = 64 then d.toNat + 2 else d.toNat + 1
def redUses (wait : Bool) (f : GF) : Uses :=
  let op := wfld (f.m.setWidth 64) 0 4
  let v := vregs (redWidth op = 64) f.d
  ⟨sregs f.a ++ sregs f.c ++ [.v f.b.toNat] ++ v ++ [.v (redIndex op f.d)], if wait then v else []⟩

/-- The lanes of LRED and LREDW are sent (R291, R293). -/
def State.redSend (s : State) (e : Env) (f : GF) (l : Layout) (wait : Bool) (n : Nat) : State :=
  let op := wfld (f.m.setWidth 64) 0 4
  let w := redWidth op
  let ty : Ty := if w = 64 then .b64 else .b32
  let idx (lane : Nat) : Nat := (e.w.v (redIndex op f.d) lane).toNat
  let (xs, s1) := s.elemsOf e fun s lane => s.elemOf e l (e.coords l.rank.toNat false f.b 0 lane) false w .rdwr true false
  let good := xs.filterMap fun x => match x.2 with
    | .mem ba _ _ leaf _ _ => if idx x.1 < n then some (x.1, ba, leaf) else none
    | _ => none
  let out := xs.filterMap fun x => if x.2 = .zero then some x.1 else none
  let late := xs.filterMap fun x => match x.2 with
    | .mem _ _ _ _ _ _ => if n ≤ idx x.1 then some (x.1, Cause.redArg, e.iss.word) else none
    | _ => none
  let bad := badLanes xs ++ late
  let acq : Option (BitVec 3) := if bitAt f.m 8 && good ≠ [] then some (f.m.extractLsb' 4 3) else none
  let dst (lane parts : Nat) : LaneLoad :=
    { lane := lane, parts := parts, w := w, fmt := 0, ty := ty, reg := if wait then .v f.d.toNat else .none,
      wide := w = 64, who := 1#64 <<< lane }
  let s2 : State := if good = [] && (out = [] || !wait) then s1
    else
      let (op1, s2) := s1.startOp e
        { id := 0, wg := 0, wave := 0, cnt := some .lode, regs := if wait then vregs (w = 64) f.d else [],
          lanes := good.map (fun x => dst x.1 1) ++ (if wait then out.map fun x => dst x 0 else []), acq := acq }
      let s3 := good.foldl (fun s (lane, ba, leaf) => s.sendReq
        { id := 0, core := e.core, wg := e.iss.wg, wave := e.iss.wave, lane := lane, op := op1, q := e.lead, ctx := e.ctx.num,
          asid := effAsid e.ctx.asid (ba / 8), va := ba / 8, line := ba / 1024, leaf := leaf,
          what := .lred op n (idx lane) (BitVec.ofNat 64 (e.vec ty f.d lane)) wait false, lvl := .allocate, l1 := false,
          stamp := 0, word := e.iss.wordPc, who := 1#64 <<< lane }) s2
      s3.modResult op1 fun o => o.gathered s3.clk
  s2.laneTraps ((e.act.filterMap fun l => bad.find? fun x => x.1 = l))

def redBody (wait : Bool) (f : GF) (e : Env) (s : State) : State :=
  s.form e f.a Layout.memory (coordRegs false f.b) fun l s =>
    let n := (e.uniform f.c).toNat
    if n = 0 || 65536 < n then s.groupTrap .redArg
    else if e.act = [] then s
    else if bitAt f.m 7 then s.release e (f.m.extractLsb' 4 3) 1 fun s => s.redSend e f l wait n
    else s.redSend e f l wait n

def execLred (h : Hdr) (f : GF) (s : State) : Host.Outcome State Fault Refusal :=
  memWord h none (redUses false f) (redBody false f) s
/-- LREDW; with .acq the wave's later memory words wait for its value (R252, R293). -/
def execLredw (h : Hdr) (f : GF) (s : State) : Host.Outcome State Fault Refusal :=
  memWord h none (redUses true f) (redBody true f) s

/-! Transposes (R295, R296). -/

/-- Status word of LXPOSE. -/
def xposeStatus (bytes : Nat) (cut : Bool) (fault : Option (Cause × Bool × Nat)) : Word :=
  match fault with
  | none => BitVec.ofNat 64 (bytes % 2 ^ 32 + (if cut then 2 ^ 32 else 0))
  | some (c, dst, chunk) =>
    BitVec.ofNat 64 (bytes % 2 ^ 32 + 2 * 2 ^ 32 + (if c.code ≤ 10 then c.code else 15) * 2 ^ 36
      + (if dst then 2 ^ 40 else 0) + chunk % 2 ^ 15 * 2 ^ 41)

/-- How far a transpose has come in its step. -/
structure XRun where
  st    : State
  bytes : Nat
  cut   : Bool
  next  : Nat
  fault : Option (Cause × Bool × Nat) := none
  waits : Bool := false

/-- One chunk of a transpose: its source is read and the chunk written whole (R295). -/
def XRun.chunk (x : XRun) (c : Copy) (w : Workgroup) (i : Nat) : XRun :=
  if x.fault.isSome || x.waits then x
  else
    match c.chunkAt i with
    | none => x
    | some bs =>
      let cut := x.cut || bs.any fun b => b.rd ≠ 255 || b.wr ≠ 255
      match x.st.chunkSource c w bs with
      | (.wait, s1) => { x with st := s1, waits := true }
      | (.fault k _, s1) => { x with st := s1, fault := some (k, false, i) }
      | (.ok data _, s1) =>
        match bs.find? fun b => b.wr ≠ 0 with
        | none => { x with st := s1, cut := cut, next := i + 1 }
        | some b0 =>
          match s1.chunkWrite c w bs data b0 with
          | (.wait, s2) => { x with st := s2, waits := true }
          | (.fault k, s2) => { x with st := s2, fault := some (k, true, i) }
          | (.ok (), s2) => { x with st := s2, cut := cut, next := i + 1, bytes := x.bytes + (bs.filter fun b => b.wr ≠ 0).length }

/-- A transpose completes (R296): every chunk in turn up to the first fault, and its status. -/
def State.xposeRun (s : State) (id : Nat) : State :=
  match s.xposes.find? fun x => x.copy.id = id with
  | none => s
  | some x =>
    let c := x.copy
    match s.wg? c.wg with
    | none => { s with xposes := s.xposes.filter fun y => y.copy.id ≠ id }
    | some w =>
      let r : XRun := (List.range' x.next (c.chunks - x.next)).foldl (fun (r : XRun) i => r.chunk c w i)
        { st := s, bytes := x.bytes, cut := x.cut, next := x.next }
      if r.waits then
        { r.st with xposes := r.st.xposes.map fun y => if y.copy.id = id then ⟨c, r.next, r.bytes, r.cut⟩ else y }
      else State.finishOp { r.st with xposes := r.st.xposes.filter fun y => y.copy.id ≠ id } id s.clk
        [⟨.s c.status, 0, xposeStatus r.bytes r.cut r.fault⟩]

def execLxposeComplete (id : Nat) (s : State) : Host.Outcome State Fault Refusal :=
  .next (s.transact (fun s => s.xposeRun id) fun x => x)

/-- LXPOSE at issue: the checks of R276 and R295, whatever the guard; then it is on its way. -/
def xposeBody (f : GF) (e : Env) (s : State) : State :=
  let src := e.w.s f.a.toNat
  let dst := e.w.s (f.a.toNat + 1)
  let ext := e.w.s (f.a.toNat + 2)
  let x := wfld ext 0 9
  let y := wfld ext 16 9
  let w := [8, 16, 32].getD (wfld (f.m.setWidth 64) 0 2) 8
  let (rs, s1) := s.operand e src Layout.memory
  let (rd, s2) := s1.operand e dst Layout.memory
  match rs, rd with
  | .error c, _ => s1.groupTrap c
  | _, .error c => s2.groupTrap c
  | .ok sL, .ok dL =>
    if x = 0 || 256 < x || y = 0 || 256 < y || wfld ext 9 7 ≠ 0 || wfld ext 25 39 ≠ 0 then s2.groupTrap .matrixArg
    else if !(Tile.mk sL (owOrigin src) x y w).bounds || !(Tile.mk dL (owOrigin dst) y x w).bounds then s2.groupTrap .bounds
    else if e.act = [] then s2
    else
      let (n, s3) := s2.startOp e { id := 0, wg := 0, wave := 0, cnt := some .lode, regs := [.s f.d.toNat] }
      let c : Copy :=
        { id := n, core := e.core, wg := e.iss.wg, wave := e.iss.wave, copyId := 0, status := f.d.toNat, src := sL, dst := dL,
          sc := owOrigin src, dc := owOrigin dst, box := tileBox x y, w := w, tr := true, lvl := .allocate, parts := [],
          memDst := true, srcObj := none, dstObjs := [], gens := [], cgen := (s3.ctxRun e.lead e.ctx.num).gen, save := e.ctx.save, ctx := e.ctx.num, q := e.lead, read := [], delivered := [] }
      { s3 with xposes := s3.xposes ++ [⟨c, 0, 0, false⟩] }

def execLxpose (h : Hdr) (f : GF) (s : State) : Host.Outcome State Fault Refusal :=
  memWord h none ⟨srunRegs f.a 3, [.s f.d.toNat]⟩ (xposeBody f) s

end Sys2Proof.Machine
end

