-- ==== Sys2Proof/Machine/Faults.lean ====
section
/-! DEFINITION. Faults after issue, context save, restore and kill (R338 to R340, R347, R349 to R356). -/
namespace Sys2Proof.Machine

/-! Faults that return from a lode (R338, R339). -/

/-- The lanes a request is made for. -/
def Req.lanes (r : Req) : BitVec 64 :=
  if r.stores = [] then (if r.who = 0 then 1#64 <<< r.lane else r.who) else maskOf (r.stores.map (·.lane))

/-- THR_TINFO of a request's fault: for a scaled store whose scale read failed, the scale byte, as a read (R253). -/
def Req.info (r : Req) : Word :=
  match r.what with
  | .load _ _ _ => accInfo r.va false
  | .scaled sva _ _ _ _ _ _ _ _ => if r.sh = 1 then accInfo sva false else accInfo r.va true
  | .maint kind _ => accInfo r.va (kind ≠ 0)
  | _ => accInfo r.va true

/-- A faulted request that carries stores of several lanes becomes one request for each. -/
def State.splitReq (s : State) (r : Req) : State :=
  if r.stores.length ≤ 1 then s
  else
    r.stores.foldl (fun s x =>
      let (n, s1) := s.fresh
      { s1 with reqs := s1.reqs ++ [{ r with id := n, wg := x.wg, wave := x.wave, lane := x.lane, va := x.va,
                                             what := .store x.mask x.data, stores := [x], word := x.word }] }) (s.dropReq r.id)

/-- The word at which a clause stands can never issue before a faulted request of its wave has been performed: a release,
or a word that waits for the request's own operation, for a fence after it, or for a later access of the same line. -/
def State.stuckOn (s : State) (c : Issue) (r : Req) : Bool :=
  let behind (n : Nat) : Bool := (s.results.any fun x => x.id = n && x.fence.isSome && r.born < n)
    || s.reqs.any fun y => y.op = n && r.born < y.born && y.lines.any fun x => r.lines.contains x
  c.blocked && ((c.waits.any fun n => (n ≠ 0 && n = r.op) || behind n)
    || match c.await with
      | some n => r.born < n && s.mq.all fun x => x.id ≠ n
      | none => false)

/-- Whether a lane can park now, and its pc (R338, R339): at the header of the clause it stands before, not while it runs one,
nor while it is to go on inside one; a parked lane only where its replay is under way. Where the clause itself waits for the
faulted access it has no next boundary to reach: the lane parks at the word (log 74). -/
def State.parkPc (s : State) (w : Workgroup) (k l : Nat) (r : Req) : Option Pc :=
  match w.waves[k]? with
  | none => none
  | some v =>
    let t := v.thread l
    match s.running.find? fun c => c.wg = w.id && c.wave = k && bitAt c.group l with
    | some c => if s.stuckOn c r then some c.wordPc else none
    | none =>
      if t.status = .parked && s.parks.any fun p => p.wg = w.id && p.wave = k && bitAt p.lanes l then none
      else if t.status = .eligible && t.pc.mid then none
      else some t.pc

/-- The access of a faulted request does not take place (R339, R341). -/
def State.discardReq (s : State) (r : Req) : State :=
  let s1 := s.dropReq r.id
  match r.what with
  | .load _ _ _ => s1.dropLane r.op r.lanes
  | .atomic _ _ _ _ _ => (s1.bump r.wg r.wave .st (-1)).dropLane r.op r.lanes
  | .lred _ _ _ _ _ _ | .maint _ _ => s1.dropLane r.op r.lanes
  | _ => s1.storesDone r

/-- The faulted requests that park with one: of its word, cause and 64 KiB page, their lanes able to park. -/
def State.parkMates (s : State) (w : Workgroup) (r : Req) : List Req :=
  s.reqs.filter fun x => x.wg = r.wg && x.wave = r.wave && x.word = r.word && x.cause = r.cause && !x.parked
    && x.info.toNat % 2 ^ 57 / 65536 = r.info.toNat % 2 ^ 57 / 65536 && x.stores.length ≤ 1
    && (lanesOf x.lanes).all fun l => (s.parkPc w x.wave l x).isSome

/-- One entry for each lane, its least. -/
def firstOfLane (l : List (Nat × Word)) : List (Nat × Word) :=
  (sortBy (fun x => x.1 * 2 ^ 64 + x.2.toNat) l).foldl (fun a x => if a.any fun y => y.1 = x.1 then a else a ++ [x]) []

/-- A FAULT RETURNS TO ITS LANES (R338): they park, enter their handlers, or consume the error. -/
def State.faultReturn (s : State) (id : Nat) : State :=
  match s.reqById id with
  | none => s
  | some r =>
    match r.cause, s.wg? r.wg with
    | none, _ => s
    | some _, none => if r.stores.length ≤ 1 then s.discardReq r else s.splitReq r
    | some c, some w =>
      if r.parked then s
      else if r.prefetch then s.discardReq r
      else if 1 < r.stores.length then s.splitReq r
      else if w.fate = .ending then s.discardReq r
      else
        let mates := s.parkMates w r
        let lanes := firstOfLane (mates.flatMap fun x => (lanesOf x.lanes).map fun l => (l, x.info))
        if mates = [] then s
        else
          let pc (l : Nat) : Pc := ((mates.find? fun x => bitAt x.lanes l).bind fun x => s.parkPc w r.wave l x).getD ⟨0, 0, false⟩
          let s0 := s.leaveWave r.wg r.wave (maskOf (lanes.map (·.1)))
          if c.service && c ≠ .ue then
            let s1 : State := { s0 with reqs := s0.reqs.map fun x => if mates.contains x then { x with parked := true } else x }
            (s1.parkGroup r.wg r.wave lanes c pc (some r.word) false).settle r.wg r.wave
          else
            let info (i : Word) : Word := if c = .ue then ueStore i (if r.leaf.so then 3 else 0) else i
            (mates.foldl State.discardReq s0).takeTrap r.wg r.wave (lanes.map fun x => (x.1, c, info x.2)) pc (some r.word) true

def execLodeFaultReturn (id : Nat) (s : State) : Host.Outcome State Fault Refusal := .next (s.faultReturn id)

/-- A park that waits for a fault id or for room in its ring (R339, R347). -/
def State.retryReport (s : State) (id : Nat) : State :=
  match s.parks.find? fun p => p.id = id with
  | none => s
  | some p =>
    if p.reported || !(s.wg? p.wg).any fun w => w.fate = .live then s
    else
      let f := match p.fault with
        | some f => some f
        | none => s.faultId p.q p.ctx
      let s1 : State := { s with parks := s.parks.map fun x => if x.id = id then { x with fault := f } else x }
      (s1.modLanes p.wg p.wave p.lanes fun _ t => { t with faultId := f }).reportPark id

def execParkedReportRetry (id : Nat) (s : State) : Host.Outcome State Fault Refusal := .next (s.retryReport id)

/-! Ending a service park (R339, R356). -/

/-- The requests of a park. -/
def Park.owns (p : Park) (r : Req) : Bool := r.parked && r.wg = p.wg && r.wave = p.wave && r.lanes &&& p.lanes ≠ 0

/-- RESUME: the replay record is performed; the lanes become eligible once it has been (`wakeParked`). -/
def State.resumePark (s : State) (p : Park) : State :=
  { s with parks := s.parks.filter (fun x => x.id ≠ p.id),
           reqs := s.reqs.map fun r =>
             if p.owns r then { r with parked := false, cause := none, sh := (match r.what with
               | .scaled _ _ _ _ _ _ _ _ _ => 0
               | _ => r.sh) } else r }

/-- DELIVER: the replay record is discarded, and the lanes enter their handlers with the park's cause (R339, R341). -/
def State.deliverPark (s : State) (p : Park) : State :=
  let s1 := (s.reqs.filter p.owns).foldl State.discardReq { s with parks := s.parks.filter fun x => x.id ≠ p.id }
  match s1.wg? p.wg with
  | none => s1
  | some w =>
    let v := (w.waves[p.wave]?).getD { role := .vector, part := 0, slot := 0, n := 0, threads := [] }
    let ls := (lanesOf p.lanes).filter fun l => (v.thread l).status = .parked
    let tpc := (ls.head?.map fun l => (v.thread l).pc).getD ⟨0, 0, false⟩
    let body := laneBody p.tinfo p.wave (w.partOf p.wave) (maskOf ls) tpc p.issued
    if ls = [] then s1
    else if ls.any fun l => (v.thread l).active then s1.terminate p.wg .double p.cause.code body
    else if w.ctx.trapVec = 0 then s1.terminate p.wg .unhandled p.cause.code body
    else (s1.modLanes p.wg p.wave (maskOf ls) fun _ t => t.enter w.ctx.trapVec p.cause (!p.group) true t.pc t.tinfo).settle p.wg p.wave

/-- A resumed lane is eligible; one that still has a bead to place waits for its rod (R165). -/
def Thread.resume (t : Thread) : Thread :=
  { t with status := if t.waitOn = .none then .eligible else .waiting, faultId := none }

/-- A resumed lane's bead is placed where its rod does not hold one of it already (R165). -/
def State.beadBack (s : State) (wg k l : Nat) : State :=
  let on : WaitOn := match s.wave? wg k with
    | some v => (v.thread l).waitOn
    | none => .none
  match s.wg? wg, on with
  | some w, .bead r b pc =>
    if (w.rod r).beads.contains (k, l) then s else (s.placeWaiting wg r (k, l, b, pc)).rodTest wg r 1024
  | _, _ => s

/-- Lanes whose park has ended and whose replay has been performed become eligible. -/
def State.wakeParked (s : State) : State :=
  let busy (wg k l : Nat) : Bool := (s.parks.any fun p => p.wg = wg && p.wave = k && bitAt p.lanes l)
    || (s.reqs.any fun r => r.wg = wg && r.wave = k && bitAt r.lanes l && (r.goes || r.cause.isSome))
  let wakes : List (Nat × Nat × Nat) := (s.wgs.filter fun w => w.fate = .live).flatMap fun w =>
    w.waves.zipIdx.flatMap fun x => x.1.threads.zipIdx.filterMap fun y =>
      if y.1.status = .parked && !busy w.id x.2 y.2 then some (w.id, x.2, y.2) else none
  wakes.foldl (fun s x => (s.modThread x.1 x.2.1 x.2.2 Thread.resume).beadBack x.1 x.2.1 x.2.2) s

/-- The command interface ends a command. -/
def State.fltEnd (s : State) (q res : Nat) : State :=
  ((s.setRf (rFLT_STAT q) 1 3 res).setRf (rFLT_STAT q) 0 1 0).setRf (rFLT_STAT q) 4 1 1

/-- Whether a context holds anything on the part, whatever its descriptor says now. -/
def State.ctxHolds (s : State) (q n : Nat) : Bool :=
  (s.wgs.any fun w => w.ctx.q = q && w.ctx.num = n) || (s.images.any fun i => i.wg.ctx.q = q && i.wg.ctx.num = n)
    || (s.recs.any fun r => r.q = q && r.ctx.num = n && r.st < 3) || s.contracts.any fun c => c.q = q && c.ctx = n

/-- RESUME and DELIVER of a park; while its workgroup is saved they are recorded in the image (R353). Where its workgroup has
stopped for good there is no thread to resume: the replay record is discarded (R348). -/
def State.endPark (s : State) (p : Park) (deliver : Bool) : State :=
  if (s.wg? p.wg).any fun w => w.fate = .ending then
    { s with parks := s.parks.filter (fun x => x.id ≠ p.id), reqs := s.reqs.filter fun r => !p.owns r }
  else if s.images.any fun i => i.wg.id = p.wg then
    { s with parks := s.parks.filter (fun x => x.id ≠ p.id),
             images := s.images.map fun i => if i.wg.id = p.wg then { i with orders := i.orders ++ [(p, deliver)] } else i }
  else if deliver then s.deliverPark p else s.resumePark p

/-! Kill (R354). -/

/-- An entry of a store buffer without a workgroup's stores. -/
def SbEntry.without (e : SbEntry) (wg : Nat) : Option SbEntry :=
  let keep := e.stores.filter fun x => x.wg ≠ wg
  let m := keep.foldl (fun (m : Line) x => m ||| x.mask) 0
  let d := keep.foldl (fun (d : Line) x => lineMerge d x.mask x.data) 0
  if keep = e.stores then some e else if keep = [] then none else some { e with stores := keep, mask := m, data := d }

/-- A running record of a killed context places nothing more. -/
def Rec.killed (r : Rec) (q ctx : Nat) : Rec :=
  if r.q = q && r.ctx.num = ctx && r.st = 2 then { r with closed := true, terminated := true } else r

/-- A resident workgroup of a killed context stops at once; its undrained stores are discarded. Its parks stay until the
kill completes. -/
def State.killWg (s : State) (w : Workgroup) : State :=
  let s1 : State := { s with sbuf := s.sbuf.filterMap fun e => e.without w.id }
  if w.fate = .ending then s1 else s1.stopWg w.id none

/-- KILL BEGINS (R354 steps 1 and 2): the context closes, its records end, its workgroups stop; steps 3 to 5 follow when
nothing of it is on its way (`killEnd`). Operations of its engines that have not been performed are not. -/
def State.killStart (s : State) (q ctx : Nat) : State :=
  let s1 := s.setCtxRun { s.ctxRun q ctx with closed := true }
  let mine (r : Rec) : Bool := r.q = q && r.ctx.num = ctx
  let s2 := (s1.recs.filter fun r => mine r && r.st < 2).foldl (fun s r => s.endRec r 4) s1
  let s3 : State := { s2 with recs := s2.recs.map fun r => r.killed q ctx }
  let s4 := (s3.wgs.filter fun w => w.ctx.q = q && w.ctx.num = ctx).foldl State.killWg s3
  State.reap { s4 with
    reqs := s4.reqs.filter (fun r => !(r.q = q && r.ctx = ctx && r.isRed && !r.parked)),
    kvReqs := s4.kvReqs.filter (fun r => !(r.q = q && r.ctx = ctx)),
    ctrReqs := s4.ctrReqs.filter (fun r => !(r.q = q && r.ctx = ctx)),
    xposes := s4.xposes.filter (fun x => !(x.copy.q = q && x.copy.ctx = ctx)),
    killing := SMap.insert s4.killing q (some ctx) }

/-- An open reduction record that belongs to a killed context closes without writing its target; an LREDW of another
context is answered with the target's value, and that context counts a dropped write (R292, R354). -/
def State.killRed (s : State) (q ctx : Nat) (r : RedRec) : State :=
  let w := redWidth r.op
  let lo := 8 * (r.va % 128)
  let others := r.waiters.filter fun x => x.2.2 ≠ ctx
  let (acc, s1) := s.redAcc r none
  let (v, s2) : Word × State := match acc with
    | some a =>
      (match s1.readLine a (lineBits lo w) with
       | (.ok d, s2) => (BitVec.ofNat 64 (fld d.toNat lo w), s2)
       | (_, s2) => (r.acc, s2))
    | none => (r.acc, s1)
  let s3 : State := { s2 with reds := s2.reds.filter fun x => x.id ≠ r.id }
  (others.foldl (fun s x => s.countDropped (s.saveOf q x.2.2) 1) s3).redGive { r with waiters := others, acc := v }

/-- Whether a record belongs to a context: its target lies under the context's ASID, or it has taken a contribution of it. -/
def RedRec.belongs (r : RedRec) (q ctx : Nat) (asid : BitVec 16) : Bool :=
  r.q = q && !r.kept && (r.asid = asid || r.ctxs.contains ctx)

/-- The target lines of those records are on their way to their lodes where they are not there. -/
def State.redsReady (s : State) (l : List RedRec) : Bool × State :=
  l.foldl (fun (ok, s) r =>
    match s.redAcc r none with
    | (none, s1) => (ok, s1)
    | (some a, s1) =>
      match s1.ensure a with
      | (.wait, s2) => (false, s2)
      | (_, s2) => (ok, s2)) (true, s)

/-- Nothing that a killed context had started is on its way: its workgroups have ended, its copies drained or cancelled, and
its accesses are performed or discarded (R354 steps 2 and 3). -/
def State.killDrained (s : State) (q ctx : Nat) : Bool :=
  !((s.wgs.any fun w => w.ctx.q = q && w.ctx.num = ctx) || (s.copies.any fun c => c.q = q && c.ctx = ctx && !c.dead)
    || s.reqs.any fun r => r.q = q && r.ctx = ctx && !r.parked)

/-- Step 5 of R354 for what waits for the driver or a core: images, replay records and fault ids. -/
def State.killImages (s : State) (q ctx : Nat) : State :=
  let s1 := (s.images.filter fun i => i.wg.ctx.q = q && i.wg.ctx.num = ctx).foldl (fun s i =>
    (s.dropImage i).modRec i.wg.recId fun r => { r with exited := r.exited + 1 }) s
  { s1 with parks := s1.parks.filter (fun p => !(p.q = q && p.ctx = ctx)), reqs := s1.reqs.filter fun r => !(r.q = q && r.ctx = ctx) }

/-- KILL COMPLETES (R354 steps 4 and 5): the owner generation advances; images, replay records, reductions and contracts of
the context go; runs of audits go with their shadow lines. -/
def State.killEnd (s : State) (q : Nat) : State :=
  match SMap.get none s.killing q with
  | none => s
  | some ctx =>
    if !s.killDrained q ctx then s
    else
      let (d, s0) := s.descOf q ctx
      let asid : BitVec 16 := d.extractLsb' 16 16
      let reds := s0.reds.filter fun r => r.belongs q ctx asid
      let (ok, s1) := s0.redsReady reds
      if !ok then s1
      else
        let g := s1.ctxRun q ctx
        let s2 := (s1.setCtxRun { g with gen := g.gen + 1, closed := false }).killImages q ctx
        let s3 := reds.foldl (fun s r => s.killRed q ctx r) s2
        let s4 := (s3.contracts.filter fun c => c.q = q && c.ctx = ctx).foldl State.releaseContract s3
        let mine := s4.recs.filter fun r => r.q = q && r.ctx.num = ctx
        let s5 := (mine.filter fun r => r.st < 3 && r.primary = 0).foldl (fun s r => (s.publish r.id).endRec r 4) s4
        let s6 := (mine.filter Rec.isReplay).foldl (fun s r => s.dropShadow r.id) s5
        State.fltEnd { s6 with recs := s6.recs.filter (fun r => !(r.q = q && r.ctx.num = ctx && r.primary ≠ 0)),
                               killing := SMap.put none s6.killing q none } q 0

def execKillComplete (q : Nat) (s : State) : Host.Outcome State Fault Refusal :=
  .next (s.transact (fun s => s.killEnd q) fun x => x)

/-- A WRITE OF FLT_CMD (R356): BUSY, BAD_OP, BAD_CTX, WORLD and BAD_FAULT in turn, then the command. -/
def State.fltCommand (s : State) (q op ctx fault : Nat) (sec : Bool) : State :=
  if !s.leads q then s
  else if s.partSecure q && !sec then s.violation (rFLT_CMD q)
  else if s.rf (rFLT_STAT q) 0 1 = 1 then s.setRf (rFLT_STAT q) 1 3 1
  else if op = 0 || 3 < op then s.fltEnd q 5
  else
    let (d, s1) := s.descOf q ctx
    let secure : Bool := rfld d 1 1 = 1 || s1.wgs.any fun w => w.ctx.q = q && w.ctx.num = ctx && w.ctx.world
    if rfld d 0 1 = 0 && !s1.ctxHolds q ctx then s1.fltEnd q 2
    else if secure && !sec then s1.fltEnd q 4
    else if op = 3 then (s1.setRf (rFLT_STAT q) 0 1 1).killStart q ctx
    else
      match s1.parks.find? fun p => p.q = q && p.ctx = ctx && p.fault = some fault with
      | none => s1.fltEnd q 3
      | some p => (s1.endPark p (op = 2)).fltEnd q 0

def execFltResume (q ctx fault : Nat) (sec : Bool) (s : State) : Host.Outcome State Fault Refusal :=
  .next (s.fltCommand q 1 ctx fault sec)
def execDeliver (q ctx fault : Nat) (sec : Bool) (s : State) : Host.Outcome State Fault Refusal :=
  .next (s.fltCommand q 2 ctx fault sec)
def execKill (q ctx : Nat) (sec : Bool) (s : State) : Host.Outcome State Fault Refusal :=
  .next (s.fltCommand q 3 ctx 0 sec)
/-- Commands of another code: BAD_OP; a code that is a command is that command, of context and fault 0. -/
def execFltBadOp (q : Nat) (op : BitVec 4) (sec : Bool) (s : State) : Host.Outcome State Fault Refusal :=
  .next (s.fltCommand q op.toNat 0 0 sec)

end Sys2Proof.Machine
end

