-- ==== Sys2Proof/Machine/Save.lean ====
section
/-! DEFINITION. Context save and restore (R218, R349 to R353): the image of a workgroup in its save area, when a save is
complete, and the placement of an image. What R351 and R352 list is written to memory and read back at restore; what
they give no place, and what only a 64 B replay record could hold, stands in `State.images` (log 31). -/
namespace Sys2Proof.Machine

/-! The image (R351, R352). -/

def Meet.image (m : Meet) : Nat := m.addr.toNat + (if m.valid then 2 ^ 63 else 0)
def Meet.ofImage (x : Nat) : Meet := ⟨BitVec.ofNat 57 (fld x 0 57), fld x 63 1 = 1⟩

def Status.code : Status → Nat
  | .eligible => 0 | .held => 1 | .waiting => 2 | .parked => 3 | .exited => 4

def Status.ofCode (n : Nat) : Option Status :=
  match n with
  | 0 => some .eligible | 1 => some .held | 2 => some .waiting | 3 => some .parked | 4 => some .exited
  | _ => none

/-- SLEEP count remaining. -/
def Thread.remaining (t : Thread) (clk : Nat) : Nat :=
  match t.waitOn with
  | .sleep wake => wake - clk
  | _ => 0

def causeBits (t : Thread) : Nat :=
  t.cause.toNat + (if t.active then 256 else 0) + (if t.laneCause then 512 else 0) + (if t.delivered then 1024 else 0)

/-- A thread record (R352); `rod` is the lowest rod that holds a bead of the thread. -/
def Thread.record (t : Thread) (clk : Nat) (rod : Option Nat) : Nat :=
  t.pc.image.toNat + t.tpc.image.toNat * 2 ^ 64 + t.tinfo.toNat * 2 ^ 128 + t.meet.image * 2 ^ 192 + t.shadow.image * 2 ^ 256
    + t.sets.toNat * 2 ^ 320 + t.preds.toNat * 2 ^ 352 + t.status.code * 2 ^ 359 + t.sli.toNat * 2 ^ 362
    + causeBits t * 2 ^ 367 + t.starve % 1024 * 2 ^ 378
    + (match rod with
       | some r => 2 ^ 388 + r % 16 * 2 ^ 389
       | none => 0)
    + t.remaining clk % 2 ^ 29 * 2 ^ 393 + (t.faultId.getD 0) % 4096 * 2 ^ 422

/-- What a thread waits for once restored: a sleep's remaining count is the record's. -/
def WaitOn.restored (o : WaitOn) (st : Status) (wake : Nat) : WaitOn :=
  if st = .waiting then
    match o with
    | .none | .sleep _ => .sleep wake
    | w => w
  else o.kept

/-- A thread from its record, or none where a reserved field or a range is wrong. What the record does not hold is the
saved thread's. -/
def Thread.ofRecord (t : Thread) (x clk : Nat) : Option Thread :=
  match Status.ofCode (fld x 359 3) with
  | none => none
  | some st =>
    if fld x 434 78 ≠ 0 || fld x 320 1 = 0 || fld x 62 2 ≠ 0 || fld x 126 2 ≠ 0 || fld x 249 6 ≠ 0 || fld x 313 6 ≠ 0
      || 512 < fld x 378 10 then none
    else
      some { t with
        pc := (Pc.ofImage (BitVec.ofNat 64 (fld x 0 64))).norm, tpc := .ofImage (BitVec.ofNat 64 (fld x 64 64)),
        tinfo := BitVec.ofNat 64 (fld x 128 64), meet := .ofImage (fld x 192 64), shadow := .ofImage (fld x 256 64),
        sets := BitVec.ofNat 32 (fld x 320 32), preds := BitVec.ofNat 7 (fld x 352 7), status := st,
        sli := BitVec.ofNat 5 (fld x 362 5), cause := BitVec.ofNat 8 (fld x 367 8), active := fld x 375 1 = 1,
        laneCause := fld x 376 1 = 1, delivered := fld x 377 1 = 1, starve := fld x 378 10,
        waitOn := t.waitOn.restored st (clk + fld x 393 29),
        faultId := if st = .parked && (t.faultId.isSome || fld x 422 12 ≠ 0) then some (fld x 422 12) else none }

/-- The rod a thread record names. -/
def recordRod (x : Nat) : Option Nat := if fld x 388 1 = 1 then some (fld x 389 4) else none

/-- Bytes of the sections whose sizes R351 gives. -/
def waveBlockBytes : Nat := 5696
def up64 (n : Nat) : Nat := cdiv n 64 * 64

/-- A part's contents: scratch, one tag byte per granule, deep units and their tags, accumulators; each 64 B aligned. -/
def Part.sizes (p : Part) : List Nat :=
  [p.scrBytes, cdiv p.scrBytes 512, 65536 * p.deepUnits, 128 * p.deepUnits, 1024 * p.accKib].map up64
def Part.size (p : Part) : Nat := p.sizes.foldl (· + ·) 0

def Workgroup.waveBase (_ : Workgroup) (k : Nat) : Nat := 1024 + waveBlockBytes * k
def Workgroup.vregBase (w : Workgroup) (k : Nat) : Nat :=
  w.waveBase w.waves.length + 256 * (w.waves.take k).foldl (fun a v => a + v.n) 0
def Workgroup.partBase (w : Workgroup) (j : Nat) : Nat :=
  up64 (w.vregBase w.waves.length) + (w.parts.take j).foldl (fun a p => a + p.size) 0

/-- The copy records of an image, one for each destination part, and the bytes of each; where the records begin, and the
replay records after them. -/
def copyDests (l : List Copy) : List (Copy × Nat) := l.flatMap fun c => c.parts.map fun p => (c, p)
def Copy.recBytes (c : Copy) : Nat := up64 (64 + cdiv c.chunks 8)
def Workgroup.copyBase (w : Workgroup) (l : List Copy) (i : Nat) : Nat :=
  w.partBase w.parts.length + ((copyDests l).take i).foldl (fun a x => a + x.1.recBytes) 0
def Workgroup.replayBase (w : Workgroup) (l : List Copy) : Nat := w.copyBase l (copyDests l).length

/-- Parked sub-waves with a lode-side cause. -/
def State.replays (s : State) (w : Workgroup) : List Park := s.parks.filter fun p => p.wg = w.id && p.issued.isSome

/-- The incomplete copies of a workgroup. -/
def State.copiesOf (s : State) (wg : Nat) : List Copy := s.copies.filter fun c => c.wg = wg && !c.dead

/-- Size of the image with its copy and replay records. -/
def State.imageSize (s : State) (w : Workgroup) : Nat := w.replayBase (s.copiesOf w.id) + 64 * (s.replays w).length

/-- The lowest rod that holds a bead of a thread. -/
def Workgroup.rodOf (w : Workgroup) (k l : Nat) : Option Nat := (List.range 16).find? fun r => (w.rod r).beads.contains (k, l)

/-- The 1 KiB header: reference, %wg, counts, cores and generations, then the rods. -/
def Workgroup.headerBytes (w : Workgroup) : List Byte :=
  let h := bytesOfNat 8 w.ref.toNat ++ bytesOfNat 4 w.wg ++ bytesOfNat 2 w.waves.length ++ bytesOfNat 2 w.parts.length
    ++ w.parts.flatMap fun p => bytesOfNat 2 p.core ++ [p.gen]
  let rod (r : Rod) : List Byte :=
    bytesOfNat 4 (match r.bound with
      | some (k, j) => 1 + 2 * k + 64 * j
      | none => 0)
      ++ bytesOfNat 4 r.beads.length ++ (match r.template with
      | some b => bytesOfNat 8 b.raw.toNat ++ bytesOfNat 8 b.a.toNat ++ bytesOfNat 8 b.b.toNat
      | none => List.replicate 24 0)
  h ++ List.replicate (512 - h.length) 0 ++ w.rods.flatMap rod

/-- A wave's block: 64 B of its own facts, s0 to s191, thread records. -/
def Workgroup.waveBytes (w : Workgroup) (k clk : Nat) (v : Wave) : List Byte :=
  let role : Nat := match v.role with
    | .copy => 0 | .matrix => 1 | .vector => 2
  let claim := (((w.part v.part).claims.findIdx? fun c => c.wave = k).map (· + 1)).getD 0
  bytesOfNat 64 (role + v.n * 2 ^ 8 + v.slot * 2 ^ 24 + (if v.region then 2 ^ 40 else 0) + (if v.broken then 2 ^ 41 else 0) + claim * 2 ^ 48)
    ++ (List.range 192).flatMap (fun i => bytesOfNat 8 (v.s i).toNat)
    ++ v.threads.zipIdx.flatMap fun x => bytesOfNat 64 (x.1.record clk (w.rodOf k x.2))

def Wave.vregBytes (v : Wave) : List Byte :=
  (List.range v.n).flatMap fun r => (List.range 64).flatMap fun l => bytesOfNat 4 (v.v r l).toNat

/-- A copy's record for one destination (R350): copy_id, status register, wave, part and bytes delivered, the descriptor's
coordinates and first two extents, then the bitmap of delivered chunks. The 64 B have no room for the descriptor's other
extents and its handles, which `State.images` keeps; their order is the model's (log 31). -/
def Copy.record (c : Copy) (part : Nat) : List Byte :=
  bytesOfNat 2 c.copyId.toNat ++ bytesOfNat 2 c.status ++ bytesOfNat 2 c.wave ++ bytesOfNat 2 part ++ bytesOfNat 8 c.bytes
    ++ (c.sc ++ c.dc).flatMap (fun x => bytesOfNat 4 (unsigned 32 x)) ++ (c.box.take 2).flatMap (fun n => bytesOfNat 4 n)
    ++ (List.range (c.recBytes - 64)).map fun i =>
      BitVec.ofNat 8 ((List.range 8).foldl (fun a j => if c.delivered.contains (8 * i + j, part) then a + 2 ^ j else a) 0)

/-- A copy with the descriptor of a record: coordinates and the first two extents. -/
def Copy.withDesc (c : Copy) (b : List Byte) : Copy :=
  let at_ (i : Nat) : Nat := natOfBytes ((b.drop (16 + 4 * i)).take 4)
  { c with sc := (List.range 5).map fun i => signed 32 (at_ i), dc := (List.range 5).map fun i => signed 32 (at_ (5 + i)),
           box := at_ 10 :: at_ 11 :: c.box.drop 2 }

/-- The checks of R97 that an edited descriptor could fail, in its workgroup; the shape of its records stays. -/
def Copy.sound (c old : Copy) (w : Workgroup) : Bool :=
  let side (l : Layout) (x : List Int) (b ps : List Nat) : Bool :=
    l.rankOk x && (l.oob || l.boxInside x b)
      && (l.memory || ps.all fun p => (w.part p).holdsBox (l.space ≠ 3) l x b c.w)
  c.box.all (fun n => n ≠ 0) && prodN c.box * c.w ≤ 67108864 && c.chunks = old.chunks
    && (8 ≤ c.w || ((c.sc.getD 0 0) % 8 = 0 && (c.dc.getD 0 0) % 8 = 0 && c.box.getD 0 1 % 8 = 0))
    && (!c.tr || (c.box.getD 0 1 ≤ 256 && c.box.getD 1 1 ≤ 256))
    && side c.src c.sc c.box [(c.src.partFor w (w.partOf c.wave)).getD 0] && side c.dst c.dc c.dbox c.parts

/-- The data an access carries: what it stores, or its first operand. -/
def Req.datum (r : Req) : Nat :=
  match r.what with
  | .atomic _ _ _ x _ => x.toNat
  | .lred _ _ _ x _ _ => x.toNat
  | .scaled _ _ _ _ _ _ d _ _ => d.toNat
  | .store m d => (d &&& m).toNat >>> (8 * (r.va % 128)) % 2 ^ 64
  | _ => 0

/-- Its second operand: what cas compares with, or a contribution's index. -/
def Req.datum2 (r : Req) : Nat :=
  match r.what with
  | .atomic _ _ _ _ c => c.toNat
  | .lred _ _ i _ _ _ => i
  | _ => 0

/-- What it is: a number for its kind, and its operation. -/
def Req.kindCode (r : Req) : Nat :=
  match r.what with
  | .load _ w _ => 1 + w % 256 * 2 ^ 8
  | .store _ _ => 2
  | .atomic op _ _ _ _ => 3 + op % 256 * 2 ^ 8
  | .lred op _ _ _ _ _ => 4 + op % 256 * 2 ^ 8
  | .scaled _ _ _ _ fmt _ _ _ _ => 5 + fmt % 256 * 2 ^ 8
  | .maint kind level => 6 + (kind + 4 * level) % 256 * 2 ^ 8

/-- The destination register of a result, as a number: 0 for none. -/
def Reg.code : Reg → Nat
  | .s n => 0x8000 + n
  | .v n => 0x4000 + n
  | _ => 0

/-- The destination register of a lane's access (R338). -/
def State.destOf (s : State) (r : Req) : Nat :=
  match s.results.find? fun x => x.id = r.op with
  | none => 0
  | some x => (((x.lanes.find? fun y => y.lane = r.lane).map (·.reg)).orElse fun _ => x.regs.head?).elim 0 Reg.code

/-- A parked sub-wave's replay record (R338): its lowest access's address, operands, kind and destination register, and how
many accesses it has; its lanes, information, issuing word, cause and fault id. 64 B have no room for the other accesses, which
`State.reqs` keeps; the order is the model's (log 31). -/
def State.replayRecord (s : State) (p : Park) : List Byte :=
  let rs := s.reqs.filter p.owns
  let get (f : Req → Nat) : Nat := (rs.head?.map f).getD 0
  bytesOfNat 8 (get (·.va)) ++ bytesOfNat 8 (get Req.datum) ++ bytesOfNat 8 (get Req.datum2) ++ bytesOfNat 8 p.lanes.toNat
    ++ bytesOfNat 8 p.tinfo.toNat ++ bytesOfNat 8 (p.issued.getD ⟨0, 0, false⟩).image.toNat ++ bytesOfNat 2 p.cause.code
    ++ bytesOfNat 2 (p.fault.getD 0) ++ bytesOfNat 2 (get Req.kindCode) ++ bytesOfNat 2 (get s.destOf) ++ bytesOfNat 2 rs.length
    ++ List.replicate 6 0

/-- Writes a workgroup's image at an address: header, wave blocks, vector registers, parts, copies and replay records. -/
def State.writeImage (s : State) (at_ : Nat) (w : Workgroup) (copies : List Copy) : State :=
  let s1 := s.writePhys at_ w.headerBytes
  let s2 := (List.range w.waves.length).foldl (fun s k =>
    match w.waves[k]? with
    | none => s
    | some v => (s.writePhys (at_ + w.waveBase k) (w.waveBytes k s.clk v)).writePhys (at_ + w.vregBase k) v.vregBytes) s1
  let s3 := (List.range w.parts.length).foldl (fun s j =>
    let p := w.part j
    let off (i : Nat) : Nat := at_ + w.partBase j + (p.sizes.take i).foldl (· + ·) 0
    let tags (m : SMap Byte) (n : Nat) : List Byte := (List.range n).map fun g => SMap.get 0 m g
    let acc := (List.range (256 * p.accKib)).flatMap fun i => bytesOfNat 4 (p.accWord i).toNat
    ((((s.writePhys (off 0) (p.scr.bytes 0 p.scrBytes)).writePhys (off 1) (tags p.tags (cdiv p.scrBytes 512))).writePhys
      (off 2) (p.deep.bytes 0 (65536 * p.deepUnits))).writePhys (off 3) (tags p.deepTags (128 * p.deepUnits))).writePhys (off 4) acc) s2
  let s4 := (copyDests copies).zipIdx.foldl (fun s x =>
    s.writePhys (at_ + w.copyBase copies x.2) (x.1.1.record x.1.2)) s3
  (s.replays w).zipIdx.foldl (fun s x => s.writePhys (at_ + w.replayBase copies + 64 * x.2) (s.replayRecord x.1)) s4

/-- A number at a byte offset. -/
def bytesAt (b : List Byte) (off n : Nat) : Nat := natOfBytes ((b.drop off).take n)

/-- A wave as its block and its vector registers in memory give it, and the rod each thread record names. Role and count are
the record's shape; the slot, which a restore gives anew, and the place among `claims` queued claims have their ranges
(R353). -/
def Wave.ofBytes (v : Wave) (facts b vr : List Byte) (clk claims : Nat) : Option (Wave × List (Option Nat)) :=
  let recs := v.threads.zipIdx.map fun x => (bytesAt b (1600 + 64 * x.2) 64, x.1)
  let ts := recs.map fun x => x.2.ofRecord x.1 clk
  let flags := bytesAt b 5 1
  let claim := bytesAt b 6 2
  if ts.any Option.isNone || 4 ≤ flags || 256 ≤ bytesAt b 3 2 || claims < claim || (claim = 0) ≠ (bytesAt facts 6 2 = 0)
      || b.take 3 ≠ facts.take 3 || !((b.take 64).drop 8).all (· = 0) then none
  else
    some ({ v with
      sregs := (List.range 192).foldl (fun m i => SMap.put 0 m i (BitVec.ofNat 64 (bytesAt b (64 + 8 * i) 8))) [],
      vregs := (List.range (64 * v.n)).foldl (fun m i => SMap.put 0 m i (BitVec.ofNat 32 (bytesAt vr (4 * i) 4))) [],
      region := fld flags 0 1 = 1, broken := fld flags 1 1 = 1, threads := ts.filterMap id }, recs.map fun x => recordRod x.1)

def memOf (b : List Byte) : Memory := Memory.setBytes [] 0 b
def tagsOf (b : List Byte) : SMap Byte := b.zipIdx.foldl (fun m x => SMap.put 0 m x.2 x.1) []

/-- A tag byte that a granule can hold: no code 15, bit 7 reserved (R103, R139). -/
def tagByteOk (t : Byte) : Bool := tagFmt t ≠ 15 && !bitAt t 7

/-- A part with the contents that memory gives; none where a tag cannot be one. -/
def State.readPart (s : State) (at_ : Nat) (p : Part) (gen : Byte) : Option Part :=
  let off (i : Nat) : Nat := at_ + (p.sizes.take i).foldl (· + ·) 0
  let rd (i n : Nat) : List Byte := (s.readPhys (off i) n).1
  let acc := rd 4 (1024 * p.accKib)
  let tags := rd 1 (cdiv p.scrBytes 512)
  let deepTags := rd 3 (128 * p.deepUnits)
  if !(tags ++ deepTags).all tagByteOk then none
  else
    some { p with scr := memOf (rd 0 p.scrBytes), tags := tagsOf tags, deep := memOf (rd 2 (65536 * p.deepUnits)),
                  deepTags := tagsOf deepTags, gen := gen,
                  acc := (List.range (256 * p.accKib)).foldl (fun m i => SMap.put 0 m i (BitVec.ofNat 32 (bytesAt acc (4 * i) 4))) [] }

/-- Queued claims in the order that the waves' blocks give: `pos` is a wave's place for its first claim; a later claim of a wave
keeps its own (R218, R353). -/
def orderClaims (l : List Claim) (pos : Nat → Nat) : List Claim :=
  let key (x : Claim × Nat) : Nat :=
    if (l.take x.2).all fun y => y.wave ≠ x.1.wave then 2 * pos x.1.wave else 2 * (x.2 + 1) + 1
  (sortBy key l.zipIdx).map (·.1)

/-- A rod from its 32 B of the header: a binding to a set and a part that exist, and a template that is an MMA. -/
def Rod.ofBytes (r : Rod) (b : List Byte) (nparts : Nat) : Option Rod :=
  let x := bytesAt b 0 4
  let raw := BitVec.ofNat 64 (bytesAt b 8 8)
  let template : Option (Option Bead) :=
    if (b.drop 8).all (· = 0) then some none
    else match decodeWord raw with
      | .ok (.mma _ f) => some (some (beadOf f raw (BitVec.ofNat 64 (bytesAt b 16 8)) (BitVec.ofNat 64 (bytesAt b 24 8))))
      | _ => none
  if x ≠ 0 && (fld x 0 1 = 0 || nparts ≤ x / 64) then none
  else template.map fun t => { r with bound := if x = 0 then none else some (fld x 1 5, x / 64), template := t }

/-- Who holds a bead of a rod: the threads whose records name it, and those that hold one there beside a lower rod's, which
a record has no place for. -/
def Workgroup.holders (w : Workgroup) (rods : List (List (Option Nat))) (r : Nat) : List (Nat × Nat) :=
  let names (k l : Nat) : Bool := (rods.getD k []).getD l none = some r
  let old := (w.rod r).beads.filter fun x => names x.1 x.2 || w.rodOf x.1 x.2 ≠ some r
  old ++ (List.range rods.length).flatMap fun k => (List.range 64).filterMap fun l =>
    if names k l && !old.contains (k, l) then some (k, l) else none

/-- THE CHECK AND READING OF AN IMAGE (R353): reserved fields, ranges, and a shape equal to the record's; within those
checks memory may have been edited. None where one fails. -/
def State.readImage (s : State) (at_ : Nat) (w : Workgroup) (groups : Nat) : Option Workgroup :=
  let h := (s.readPhys at_ 1024).1
  let block (k : Nat) : List Byte := (s.readPhys (at_ + w.waveBase k) waveBlockBytes).1
  let waves := (List.range w.waves.length).map fun k => (w.waves[k]?).bind fun v =>
    v.ofBytes ((w.waveBytes k s.clk v).take 64) (block k) (s.readPhys (at_ + w.vregBase k) (256 * v.n)).1 s.clk
      (w.part v.part).claims.length
  let n := w.parts.length
  let parts := (List.range n).map fun j =>
    s.readPart (at_ + w.partBase j) (w.part j) (BitVec.ofNat 8 (bytesAt h (16 + 3 * j + 2) 1))
  let named := waves.map fun x => (x.map (·.2)).getD []
  let rods := (List.range 16).map fun r =>
    ((w.rod r).ofBytes ((h.drop (512 + 32 * r)).take 32) n).map fun x => { x with beads := w.holders named r }
  let counts := (List.range 16).all fun r =>
    bytesAt h (512 + 32 * r + 4) 4 = (w.holders named r).length
  let shape : Bool := bytesAt h 8 4 < groups && bytesAt h 12 2 = w.waves.length && bytesAt h 14 2 = n
    && (List.range n).all (fun j => bytesAt h (16 + 3 * j) 2 < 256) && ((h.drop (16 + 3 * n)).take (496 - 3 * n)).all (· = 0)
  if !shape || !counts || waves.any Option.isNone || parts.any Option.isNone || rods.any Option.isNone then none
  else
    some { w with ref := BitVec.ofNat 64 (bytesAt h 0 8), wg := bytesAt h 8 4, waves := (waves.filterMap id).map (·.1),
                  parts := (parts.filterMap id).map (fun p => { p with claims := orderClaims p.claims fun k => bytesAt (block k) 6 2 }),
                  rods := rods.filterMap id }

/-- A copy as its records in memory give it: its descriptor, bytes delivered and the bitmaps; none where a record's other
fields are not the copy's, its records' descriptors differ or fail R97, or a bit beyond its chunks is set. -/
def State.readCopy (s : State) (at_ : Nat) (w : Workgroup) (l : List Copy) (c : Copy) : Option Copy :=
  let recs := (copyDests l).zipIdx.filterMap fun x =>
    if x.1.1.id = c.id then some (x.1.2, (s.readPhys (at_ + w.copyBase l x.2) c.recBytes).1) else none
  let bit (b : List Byte) (i : Nat) : Bool := bitAt (b.getD (64 + i / 8) 0) (i % 8)
  let first := (recs.head?.map (·.2)).getD []
  let ok (p : Nat) (b : List Byte) : Bool :=
    b.take 8 = (c.record p).take 8 && (b.take 64).drop 16 = (first.take 64).drop 16
      && (List.range' c.chunks (8 * (c.recBytes - 64) - c.chunks)).all fun i => !bit b i
  let d := if recs = [] then c else c.withDesc first
  if !recs.all (fun x => ok x.1 x.2) || !d.sound c w then none
  else
    some { d with bytes := (recs.head?.map fun x => bytesAt x.2 8 8).getD c.bytes,
                  delivered := recs.flatMap fun x => (List.range c.chunks).filterMap fun i => if bit x.2 i then some (i, x.1) else none }

/-- An access moved within its page, its bits keeping their places from its address on; none where they leave the line, or of a
scaled store, whose parts name other bytes as well. -/
def Req.moveTo (r : Req) (va : Nat) : Option Req :=
  let from_ := 8 * (r.va % 128)
  let to_ := 8 * (va % 128)
  let slide (m : Line) : Line := (m >>> from_) <<< to_
  let fits (m : Line) : Bool := (slide m >>> to_) <<< from_ = m
  let bit (lo w : Nat) : Option Nat := if from_ ≤ lo + to_ && lo + to_ - from_ + w ≤ 1024 then some (lo + to_ - from_) else none
  let q : Req := { r with va := va, line := va / 128 }
  if va = r.va then some r
  else if va / 65536 ≠ r.va / 65536 then none
  else
    match r.what with
    | .load lo w sb => (bit lo w).map fun n => { q with what := .load n w sb }
    | .atomic op lo w x c => (bit lo w).map fun n => { q with what := .atomic op n w x c }
    | .store m d =>
      if fits m then
        some { q with what := .store (slide m) (slide d),
                      stores := r.stores.map fun x => { x with va := va, mask := slide x.mask, data := slide x.data } }
      else none
    | .lred _ _ _ _ _ _ | .maint _ _ => some q
    | .scaled _ _ _ _ _ _ _ _ _ => none

/-- An access with the operands of a replay record. -/
def Req.withData (r : Req) (x y : Nat) : Req :=
  if x = r.datum && y = r.datum2 then r
  else
    match r.what with
    | .atomic op lo w _ _ => { r with what := .atomic op lo w (BitVec.ofNat 64 x) (BitVec.ofNat 64 y) }
    | .lred op n _ _ wait back => { r with what := .lred op n y (BitVec.ofNat 64 x) wait back }
    | .scaled a l ba w f ty _ buf rest => { r with what := .scaled a l ba w f ty (BitVec.ofNat 64 x) buf rest }
    | .store m d =>
      let low : Line := (BitVec.ofNat 1024 (2 ^ 64 - 1)) <<< (8 * (r.va % 128))
      let e := lineMerge d (m &&& low) (BitVec.ofNat 1024 (x <<< (8 * (r.va % 128))))
      { r with what := .store m e, stores := r.stores.map fun z => { z with data := e } }
    | _ => r

/-- The parked sub-waves with replay records of an image, in the order of their records: those ended while it was saved as well. -/
def State.replaysOf (s : State) (i : Image) : List Park :=
  sortBy (·.id) (s.replays i.wg ++ (i.orders.map (·.1)).filter fun p => p.issued.isSome)

/-- A replay record as memory gives it (R353): the address, within its page, the operands and the fault id; none where another
field has changed or one is out of its range. -/
def State.readReplay (s : State) (b : List Byte) (p : Park) : Option State :=
  let old := s.replayRecord p
  let same (lo n : Nat) : Bool := (b.drop lo).take n = (old.drop lo).take n
  if !same 24 26 || !same 52 12 || 4096 ≤ bytesAt b 50 2 then none
  else
    let s1 : State := { s with parks := s.parks.map fun x =>
      if x.id = p.id && bytesAt b 50 2 ≠ p.fault.getD 0 then { x with fault := some (bytesAt b 50 2) } else x }
    match (s.reqs.filter p.owns).head? with
    | none => some s1
    | some r =>
      let n : Nat := match r.what with
        | .lred _ n _ _ _ _ => n
        | _ => 2 ^ 64
      if n ≤ bytesAt b 16 8 then none
      else (r.moveTo (bytesAt b 0 8)).map fun q =>
        { s1 with reqs := s1.reqs.map fun x => if x.id = r.id then q.withData (bytesAt b 8 8) (bytesAt b 16 8) else x }

/-- The replay records of an image as memory gives them. -/
def State.readReplays (s : State) (at_ : Nat) (i : Image) : Option State :=
  (s.replaysOf i).zipIdx.foldl (fun o x => o.bind fun t =>
    t.readReplay (s.readPhys (at_ + i.wg.replayBase i.copies + 64 * x.2) 64).1 x.1) (some s)

/-- The fault ids of the image's parks and threads agree: an edited replay record's leads, then the thread record's. -/
def State.agreeFaults (s old : State) (w : Workgroup) : State :=
  (s.parks.filter fun p => p.wg = w.id).foldl (fun s p =>
    let l := (lanesOf p.lanes).headD 0
    let edited := old.parks.all fun x => x.id ≠ p.id || x.fault ≠ p.fault
    let f := if edited then p.fault else ((s.wave? w.id p.wave).bind fun v => (v.thread l).faultId).orElse fun _ => p.fault
    State.modLanes { s with parks := s.parks.map fun x => if x.id = p.id then { x with fault := f } else x } w.id p.wave p.lanes
      fun _ t => if t.status = .parked then { t with faultId := f } else t) s

/-! Save (R349, R350). -/

/-- An LREDW whose contribution has been taken: its answer is kept for the restored wave. -/
def State.takenRed (s : State) (r : Result) : Bool := s.reds.any fun x => x.waiters.any fun y => y.1 = r.id

/-- A copy has no started chunk still to be waited for. -/
def Copy.quietFor (c : Copy) (abandoned : Bool) : Bool :=
  c.memDst || abandoned || c.onWay = []

/-- An access that cannot be performed before a parked one of its thread has been: both are saved (R302, R339). -/
def State.behindPark (s : State) (r : Req) : Bool :=
  s.reqs.any fun x => x.parked && x.core = r.core && x.sameThread r && x.born < r.born && x.lines.any fun n => r.lines.contains n

/-- A result that a save does not wait for: a copy's, one whose answer its lode keeps, one whose accesses are parked, and a
fence that waits for such accesses (R339, R349). -/
def State.savedWith (s : State) (r : Result) : Bool :=
  let left := s.reqs.filter fun x => x.wg = r.wg && (x.parked || s.behindPark x)
  s.takenRed r || (s.copies.any fun c => c.id = r.id && !c.dead) || (left.any fun x => x.op = r.id)
    || (r.fence.isSome && left.any fun x => x.wave = r.wave && x.born < r.id)

/-- Everything a save waits for is done (R349 step 2). -/
def State.saveReady (s : State) (w : Workgroup) : Bool :=
  !(s.running.any fun c => c.wg = w.id) && (s.results.all fun r => r.wg ≠ w.id || s.savedWith r)
    && (s.reqs.all fun r => r.parked || s.behindPark r || !(r.wg = w.id || r.stores.any fun x => x.wg = w.id))
    && (s.sbuf.all fun e => e.stores.all fun x => x.wg ≠ w.id) && !(s.mq.any fun e => e.wg = w.id)
    && !(s.mwait.any fun e => e.wg = w.id)
    && s.copies.all fun c => c.wg ≠ w.id || c.dead || c.quietFor w.abandoned

/-- The lowest free image slot of a save area that is large enough. -/
def State.freeSlot (s : State) (save size : Nat) : Option Nat :=
  let units := (s.readPhysN (save + 18) 2).1
  let n := fld (s.readPhysN (save + 20) 1).1 0 6
  if 65536 * units < size then none
  else (List.range n).find? fun k => !(s.busySlots save).testBit k

def State.slotAt (s : State) (save k : Nat) : Nat := save + 0x2000 + 65536 * k * (s.readPhysN (save + 18) 2).1

/-- A copy as its image records it, and the started chunks that were abandoned: they may still arrive, and fail the
owner-tag check (R112, R350). -/
def Copy.saved (c : Copy) : Copy := { c with read := [], lost := [] }
def Copy.abandon (c : Copy) (id : Nat) : Option Copy :=
  if c.memDst || c.onWay = [] then none else some { c with id := id, dead := true, read := c.onWay }

/-- THE SAVE COMPLETES (R349 steps 4 and 5): generations advance, the image is written, the cores are free. -/
def State.saveWg (s : State) (wg : Nat) : State :=
  match s.wg? wg with
  | none => s
  | some w =>
    if w.fate ≠ .saving || !s.saveReady w then s
    else
      match s.freeSlot w.ctx.save (s.imageSize w) with
      | none => s.terminate wg .saveFail 0 0
      | some k =>
        let (id, s1) := s.fresh
        let mine := s1.copiesOf wg
        let ghosts := mine.filterMap fun c => c.abandon (s1.nextId + c.id)
        let w1 := { w with waves := w.waves.map Wave.landAll,
                           parts := w.parts.map fun p => { p with gen := p.gen + 1 } }
        let saved := mine.map Copy.saved
        let s2 : State := { s1 with
          nextId := s1.nextId + s1.nextId,
          wgs := s1.wgs.filter (fun x => x.id ≠ wg),
          copies := (s1.copies.filter fun c => c.wg ≠ wg || c.dead) ++ ghosts,
          images := s1.images ++ [⟨id, k, w1, saved, []⟩] }
        ((s2.setBusy w.ctx.save k true).writeImage (s.slotAt w.ctx.save k) w1 saved).closeVac (w.parts.map (·.core))

def execContextSave (wg : Nat) (s : State) : Host.Outcome State Fault Refusal :=
  .next (s.transact (fun s => s.saveWg wg) fun x => x)

/-- The 50 us of R350 pass, at a save, a termination or a kill: chunks not acknowledged are abandoned. -/
def State.saveTimeout (s : State) (wg : Nat) : State :=
  match s.wg? wg with
  | none => s
  | some w =>
    if w.fate ≠ .live && s.usAfter w.saveAt 50 ≤ s.clk then s.modWg wg fun w => { w with abandoned := true } else s

def execSaveChunkTimeout (wg : Nat) (s : State) : Host.Outcome State Fault Refusal := .next (s.saveTimeout wg)

/-! Restore (R330, R353). -/

/-- A wave on its new core: a new slot, and clauses from `from_` on. -/
def Wave.moved (v : Wave) (slot from_ : Nat) : Wave := { v with slot := slot, nextAt := from_, readyAt := from_, yieldTo := none, readySince := none }

/-- The workgroup's parts on new cores, with new places and generations. -/
def State.moveParts (s : State) (w : Workgroup) (im : BitVec 512) (cores : List Nat) : List Part :=
  ((s.startParts im cores 0).zip w.parts).map fun x =>
    { x.2 with core := x.1.core, scrBase := x.1.scrBase, d0 := x.1.d0, accBase := x.1.accBase, gen := x.2.gen + 1 }

/-- An image that fails its check ends its workgroup with a report (R353). -/
def State.failImage (s : State) (i : Image) (r : Rec) : State :=
  ((((s.dropImage i).modRec r.id fun r => { r with terminated := true, exited := r.exited + 1 }).report r.q i.wg.ctx.save .saveFail
    (reportEntry .saveFail 0 0 i.wg.wg i.wg.ref.toNat 0)).2).haltEnd r.id

/-- A saved workgroup stands on its cores: its parks and copies go on, and its slot is free (R350, R353); `old` is the state
before its replay records were read. The cores that it ran on before stay known (R363). -/
def State.placeImage (s old : State) (i : Image) (r : Rec) (w : Workgroup) (copies : List Copy) (cores : List Nat) : State :=
  let s0 := State.setBusy { s with images := s.images.filter fun x => x.id ≠ i.id } i.wg.ctx.save i.slot false
  let s1 := cores.foldl (fun s n => s.arrive w.ctx n) s0
  let parts := s1.moveParts w r.image cores
  let w1 : Workgroup := { w with
    parts := parts, fate := .live, abandoned := false, npReq := none,
    waves := w.waves.mapIdx fun k v =>
      v.moved ((s1.freeSlots (cores.getD (w.partOf k) 0)).getD (k % w.wavesPerPart) 0) (s1.clk + 64) }
  let again := copies.map fun c =>
    { c with core := w1.coreOfWave c.wave, gens := c.parts.map (fun p => (p, (w1.part p).gen)),
             cgen := (s1.ctxRun w.ctx.q w.ctx.num).gen }
  let s2 : State := { s1 with
    wgs := s1.wgs ++ [w1], copies := s1.copies ++ again,
    reqs := s1.reqs.map fun x => if x.wg = w.id then { x with core := w1.coreOfWave x.wave, l1 := false } else x }
  let s3 := State.agreeFaults (s2.modRec r.id fun x => { x with cores := x.cores ++ [(w.wg, cores)] }) old w
  i.orders.foldl (fun s o => if o.2 then s.deliverPark o.1 else s.resumePark o.1) s3

/-! Cores that the runs of an audit may use (R363, R364). -/

/-- Cores of a workgroup of a run, those of its restores among them. -/
def Rec.coresOf (r : Rec) (k : Nat) : List Nat := (r.cores.filter fun x => x.1 = k).flatMap (·.2)

def dieOf (core : Nat) : Nat := core / 64
def clusterOf (core : Nat) : Nat := core / 8

/-- Where workgroup `k` of a run may be placed, given the cores its other runs used: on a die of its own where the partition
has one, else in a cluster of its own. -/
def State.runMayUse (s : State) (q : Nat) (used ban cores : List Nat) : Bool :=
  let dies := used.map dieOf
  let free := (s.quartersOf q).any fun d => !dies.contains d
  (if free then cores.all fun c => !dies.contains (dieOf c) else cores.all fun c => !(used.map clusterOf).contains (clusterOf c))
    && cores.all fun c => !ban.contains c

/-- A restored workgroup of a replay stays off the cores of its other runs. -/
def State.mayReturn (s : State) (r : Rec) (k : Nat) (cores : List Nat) : Bool :=
  !r.isReplay || s.runMayUse r.q ((s.recs.filter fun x => x.id ≠ r.id && (x.id = r.primary || x.primary = r.primary)).flatMap
    fun x => x.coresOf k) r.gangCores cores

/-- The streamers of the new cores have slots for the workgroup's copies (R106): a restore waits for them, which the manual does
not say (DESIGN CHOICE, log 87). -/
def State.slotsFor (s : State) (w : Workgroup) (copies : List Copy) (cores : List Nat) : Bool :=
  cores.zipIdx.all fun x => (copies.countP fun c => w.partOf c.wave = x.2) ≤ s.copySlots x.1

/-- A RESTORE (R353): the image of a saved workgroup on cores that R330 allows. -/
def State.restore (s : State) (img : Nat) (cores : List Nat) : State :=
  match s.images.find? fun i => i.id = img with
  | none => s
  | some i =>
    match s.recs.find? fun r => r.id = i.wg.recId with
    | none => s
    | some r =>
      if s.quiet r.q || s.ctxClosed r.q r.ctx.num || !s.canPlace r.q i.wg.ctx.world r.id cores (recNeeds r.image)
          || !s.mayReturn r i.wg.wg cores || !s.slotsFor i.wg i.copies cores then s
      else
        let at_ := s.slotAt i.wg.ctx.save i.slot
        let copies := i.copies.map fun c => s.readCopy at_ i.wg i.copies c
        match s.readImage at_ i.wg (rfld r.image 224 32), s.readReplays at_ i with
        | some w, some s1 => if copies.any Option.isNone then s.failImage i r else s1.placeImage s i r w (copies.filterMap id) cores
        | _, _ => s.failImage i r

def execWorkgroupRestore (img : Nat) (cores : List Nat) (s : State) : Host.Outcome State Fault Refusal :=
  .next (s.transact (fun s => s.restore img cores) fun x => x)

end Sys2Proof.Machine
end

