-- ==== Sys2Proof/Machine/HostSide.lean ====
section
/-! DEFINITION. What the host and peers do to the device (R19, R42, R305, R310 to R313, R362, R369, R374, R376, R382):
accesses by physical address at the home lode, the halves the host holds, answers to back-invalidations, leases, and
accesses that are held. -/
namespace Sys2Proof.Machine

/-! Completions. -/

/-- An access completes toward the host, or toward the peer at the other end of a link. -/
def State.finish (s : State) (h : HostHold) (d : HostDone) : State :=
  match h.link with
  | none => { s with hostDone := s.hostDone ++ [d] }
  | some l => { s with peerDone := s.peerDone ++ [(l, d)] }

/-- Bytes an access names; an ownership request names the half its address lies in. -/
def HostHold.bytes (h : HostHold) : Nat :=
  match h.op with
  | .read n => n
  | .write d => d.length
  | .atomic op _ _ => atomWidth op.toNat / 8
  | .own => 64

def HostHold.at_ (h : HostHold) : Nat :=
  match h.op with
  | .own => h.pa / 64 * 64
  | _ => h.pa

def HostHold.reads (h : HostHold) : Bool :=
  match h.op with
  | .read _ => true
  | _ => false

/-- Frames an access touches. -/
def HostHold.frames (h : HostHold) : List Nat :=
  List.range' (h.at_ / 65536) ((h.at_ + h.bytes + 65535) / 65536 - h.at_ / 65536)

/-- The partition whose HDM range holds a frame (R369). -/
def State.hdm (s : State) (f : Nat) : Option Nat := s.leadList.find? fun q => s.ownsFrame q f

/-- Base of a partition's HDM range in the host's address space, as its decoder stands; one not programmed since reset
places the range at its device addresses (R369; log 69). -/
def State.hdmBaseOf (s : State) (q : Nat) : Nat := (SMap.find s.hdmBase q).getD (65536 * Config.quarterBase q)

/-- THE HDM DECODERS (R369): the device physical address of a host physical address, for an access of `n` bytes; none
outside every range. -/
def State.hdmDecode (s : State) (hpa n : Nat) : Option Nat :=
  (s.leadList.find? fun q => s.hdmBaseOf q ≤ hpa && hpa + n ≤ s.hdmBaseOf q + 65536 * s.frameCount q).map fun q =>
    65536 * s.frameBase q + (hpa - s.hdmBaseOf q)

/-- The host programs a decoder. -/
def State.hdmProgram (s : State) (q base : Nat) : State :=
  if s.leads q then { s with hdmBase := SMap.insert s.hdmBase q base } else s

/-! Lines and halves. -/

/-- The line that holds a physical line at its home, brought there where it is not (R58). -/
def State.hostLine (s : State) (f off : Nat) : LLine × State :=
  match s.holder f off with
  | some l => (l, s.wakeLode l.lode)
  | none =>
    let n := s.physHome f off
    (s.wakeLode n).addLine
      { id := 0, lode := n, asid := none, line := 512 * f + off, frame := f, off := off, data := s.storedLine f off,
        poison := (s.frame f).poison.contains off }

/-- Sets the state of the halves that `mask` touches. -/
def LLine.setHalves (l : LLine) (mask : Line) (g : Half → Half) : LLine :=
  [false, true].foldl (fun l hi => if touchesHalf mask hi then l.setHalf hi (g (l.half hi)) else l) l

/-- A late write-back of a half whose lease was lost is on its way, whether or not its physical line still stands at a lode
(R312). -/
def State.lostLease (s : State) (pl : Nat) (mask : Line) : Option BackInv :=
  s.backInvs.find? fun b => b.lost && b.pl = pl && touchesHalf mask b.hi

/-! The checks before an access (R38, R41, R42, R69, R331, R362, R369, R376, R382). -/

/-- The virtual tag under which the reverse map knows a physical line. -/
def State.mappedAt (s : State) (f off : Nat) : Option (BitVec 16 × Nat) :=
  (s.rmapOf f).map fun r => (r.asid, r.vaOf f + 128 * off)

/-- A record under audit holds one of the lines read-only. -/
def State.heldForAudit (s : State) (pa n : Nat) : Bool :=
  (chunksOf pa n).any fun (ln, _, _) =>
    match s.mappedAt (ln / 512) (ln % 512) with
    | some (a, va) => s.auditHeld (s.frameLead (ln / 512)) a va none
    | none => false

/-- The first of the lines that fails the test of R41, where the host quota is exhausted. -/
def State.hostTest (s : State) (q pa : Nat) (data : List Byte) : Option (Nat × Nat) :=
  if s.hostCount q < s.rf (rTMB_SD_QUOTA q) 32 32 then none
  else
    ((chunksOf pa data.length).find? fun (ln, lo, k) =>
      !s.growTest (ln / 512) (ln % 512) (s.physLine (ln / 512) (ln % 512) 0).1 (lineMask lo k)
        (lineOf lo ((data.drop (128 * ln + lo - pa)).take k))).map fun (ln, _, _) => (ln / 512, ln % 512)

/-- The gang status word of a context of a partition shows `started` for a slice (R331). -/
def State.sliceStarted (s : State) (q ctx slice : Nat) : Bool :=
  s.recs.any fun r => r.q = q && r.ctx.num = ctx && rfld r.image 384 57 ≠ 0 && (match s.asidAcc q r.ctx.asid (rfld r.image 384 57) with
    | none => false
    | some (a, s1) =>
      match (s1.readVirt a 8).1 with
      | .ok b => fld (natOfBytes b) 0 7 = slice && fld (natOfBytes b) 9 1 = 1
      | _ => false)

/-- The partition command in progress changes a partition's layout. -/
def State.reshaping (s : State) (q : Nat) : Bool :=
  match s.partRun with
  | some p => (p.op = 3 || p.op = 4) && (s.quartersOf q).any fun k => bitAt p.quarters k
  | none => false

/-! Performing an access. -/

/-- What the host has written back of the halves that `mask` touches is the lode's latest value of them (R312). -/
def LLine.noteBack (l : LLine) (mask : Line) : LLine :=
  { l with backLo := if touchesHalf mask false then some (l.data.extractLsb' 0 512) else l.backLo,
           backHi := if touchesHalf mask true then some (l.data.extractLsb' 512 512) else l.backHi }

/-- Writes bytes as the host or a peer writes them; `back` says that the host's write may be a write-back of what it holds. -/
def State.hostBytes (s : State) (pa : Nat) (data : List Byte) (host back : Bool) : State :=
  (chunksOf pa data.length).foldl (fun s (ln, lo, k) =>
    let d := lineOf lo ((data.drop (128 * ln + lo - pa)).take k)
    let m := lineMask lo k
    let (l, s1) := s.hostLine (ln / 512) (ln % 512)
    if host then
      match if back then s.lostLease ln m else none with
      | some b =>
        State.incSat { s with backInvs := s.backInvs.filter fun x => x.id ≠ b.id } (rHBR_LOST (s.frameLead (ln / 512))) 46 15
      | none => ((s1.modLine l.id fun l => l.setHalves m fun _ => .i).mergePhys (ln / 512) (ln % 512) m d true).modLine l.id
          fun l => l.noteBack m
    else s1.mergePhys (ln / 512) (ln % 512) m d true) s

/-- Reads bytes; the host keeps the halves it read. A half it holds exclusively it reads in its own cache. -/
def State.hostRead (s : State) (pa n : Nat) (host : Bool) : List Byte × State :=
  if host then
    (chunksOf pa n).foldl (fun (a, s) (ln, lo, k) =>
      let (l, s1) := s.hostLine (ln / 512) (ln % 512)
      (a ++ (List.range k).map fun i => lineByte l.data (lo + i),
        (s1.modLine l.id fun l => l.setHalves (lineMask lo k) fun h => if h = .i then .s else h).endTransit l.id)) ([], s)
  else s.readPhys pa n

/-- Whether a write touches a half whose lease was lost: the write completes poisoned (R312). -/
def State.tooLate (s : State) (pa n : Nat) : Bool :=
  (chunksOf pa n).any fun (ln, lo, k) =>
    (s.lostLease ln (lineMask lo k)).isSome

/-- The access itself, at the home lode of each line. An atomic is performed there whatever leases have been lost: it is no
write-back (R305, R312). -/
def State.hostPerform (s : State) (h : HostHold) : State :=
  let host := h.link.isNone
  let poison := s.physPoison h.at_ h.bytes
  match h.op with
  | .read n =>
    if poison then s.finish h .poisoned
    else
      let (b, s1) := s.hostRead h.pa n host
      s1.finish h (.ok b)
  | .write d =>
    let late := host && s.tooLate h.pa d.length
    (s.hostBytes h.pa d host true).finish h (if late then .poisoned else .ok [])
  | .atomic op x cmp =>
    if poison then s.finish h .poisoned
    else
      let (b, s1) := s.readPhys h.pa h.bytes
      let new := atomNew op.toNat (natOfBytes b) x.toNat cmp.toNat
      (s1.hostBytes h.pa (bytesOfNat h.bytes new) host false).finish h (.ok b)
  | .own =>
    if poison then s.finish h .poisoned
    else
      let ln := h.at_ / 128
      let (l, s1) := s.hostLine (ln / 512) (ln % 512)
      let m := lineMask (h.at_ % 128) 64
      (s1.modLine l.id fun l => l.setHalves m fun _ => .e).finish h
        (.ok ((List.range 64).map fun i => lineByte l.data (h.at_ % 128 + i)))

/-- The halves of a host atomic's element are the host's own while it runs; they are not recalled from it. -/
def State.quietHalves (s : State) (h : HostHold) : State :=
  match h.op, h.link with
  | .atomic _ _ _, none =>
    (chunksOf h.pa h.bytes).foldl (fun s (ln, lo, k) =>
      let (l, s1) := s.hostLine (ln / 512) (ln % 512)
      s1.modLine l.id fun l => l.setHalves (lineMask lo k) fun _ => .i) s
  | _, _ => s

/-- ONE ACCESS FROM OUTSIDE: done, or the reason for which it is held. The quota of R42 is the host's: a peer's write is
never tested or held for it, and the lines it leaves stuck count as the host's (log 76). -/
def State.hostGo (s : State) (h : HostHold) : Option Nat × State :=
  let fs := h.frames
  let q := (s.hdm (h.at_ / 65536)).getD 0
  let sec := h.link.any fun l => bitAt (s.reg rWLD_LINK) l
  let writes := !h.reads
  let away := h.link.any fun l => q ≠ s.leadOf (l / 3)
  if fs.any (fun f => s.hdm f ≠ some q) || away then (none, s.finish h .unsupported)
  else if s.reshaping q then (some 2, s)
  else if h.gang.any fun g => !s.sliceStarted q g.1 g.2 then (some 3, s)
  else if !sec && fs.any (s.frameSecure q) then
    let s1 := if h.link.isNone then s.incRf rWLD_STAT 16 32 else s
    (none, s1.finish h (match h.op with
      | .write _ => .ok []
      | _ => .poisoned))
  else if fs.any (fun f => (s.frame f).st = .balloon || (s.frame f).st = .reclaimed)
      || (writes && fs.any fun f => (s.rmapOf f).any fun r => r.shared) then (none, s.finish h .poisoned)
  else if writes && s.heldForAudit h.at_ h.bytes then (some 1, s)
  else
    let tested := match h.op, h.link with
      | .write d, none => (s.hostTest q h.pa d).isSome
      | .atomic op x cmp, none =>
        let b := (s.readPhys h.pa h.bytes).1
        (s.hostTest q h.pa (bytesOfNat h.bytes (atomNew op.toNat (natOfBytes b) x.toNat cmp.toNat))).isSome
      | _, _ => false
    if tested then (some 0, s)
    else
      let t := State.hostPerform (State.quietHalves { s with recalls := [] } h) h
      if t.recalls = [] then (none, t) else (some 4, s.sendRecalls t.recalls)

/-- The first hold of each exhaustion of the host quota raises host_hold (R42). -/
def State.noteHold (s : State) (h : HostHold) (why : Nat) : State :=
  let q := (s.hdm (h.at_ / 65536)).getD 0
  if why ≠ 0 || (s.tmbOf q).held then s else (s.modTmb q fun t => { t with held := true }).tmbEvent 16 q

/-- An access arrives from outside, at a device physical address. -/
def State.arriveAt (s : State) (pa : Nat) (op : HostOp) (link : Option Nat) (gang : Option (Nat × Nat)) : State :=
  let (n, s1) := s.fresh
  let h : HostHold := ⟨n, pa, op, 0, s.clk, link, gang⟩
  match s1.hostGo h with
  | (none, t) => t
  | (some why, t) => State.noteHold { t with hostHolds := t.hostHolds ++ [{ h with why := why }] } h why

/-- The host's access arrives, its address decoded; one outside every HDM range is unsupported (R369). -/
def State.hostArrive (s : State) (hpa : Nat) (op : HostOp) : State :=
  match s.hdmDecode hpa (HostHold.bytes ⟨0, hpa, op, 0, 0, none, none⟩) with
  | some pa => s.arriveAt pa op none none
  | none => { s with hostDone := s.hostDone ++ [.unsupported] }

/-- Held accesses that can go on do so, oldest first; part of what every step ends with. -/
def State.retryHolds (s : State) : State :=
  let s1 := s.hostHolds.foldl (fun s h =>
    match s.hostGo h with
    | (none, t) => { t with hostHolds := t.hostHolds.filter fun x => x.id ≠ h.id }
    | (some why, t) =>
      if why = h.why then t
      else
        State.noteHold { t with hostHolds := t.hostHolds.map fun x => if x.id = h.id then { x with why := why, since := t.clk } else x }
          h why) s
  s1.leadList.foldl (fun s q =>
    if (s.tmbOf q).held && s.hostCount q < s.rf (rTMB_SD_QUOTA q) 32 32 then s.modTmb q fun t => { t with held := false } else s) s1

def execHostRead (pa n : Nat) (s : State) : Host.Outcome State Fault Refusal := .next (s.hostArrive pa (.read n))
def execHostWrite (pa : Nat) (data : List Byte) (s : State) : Host.Outcome State Fault Refusal :=
  .next (s.hostArrive pa (.write data))
def execHostAtomic (pa : Nat) (op : BitVec 4) (x cmp : Word) (s : State) : Host.Outcome State Fault Refusal :=
  .next (s.hostArrive pa (.atomic op x cmp))
def execHostOwnershipRequest (pa : Nat) (s : State) : Host.Outcome State Fault Refusal :=
  .next (s.hostArrive pa .own)

/-- A hold that has lasted a millisecond ends with `f`. -/
def State.holdEnds (s : State) (id why : Nat) (f : State → HostHold → State) : State :=
  match s.hostHolds.find? fun h => h.id = id && h.why = why && s.usAfter h.since 1000 ≤ s.clk with
  | none => s
  | some h => f { s with hostHolds := s.hostHolds.filter fun x => x.id ≠ id } h

/-- A host write held for its quota completes poisoned: the line keeps its value, the write is logged (R42). -/
def State.hostPoison (s : State) (h : HostHold) : State :=
  let q := (s.hdm (h.pa / 65536)).getD 0
  let d := match h.op with
    | .write d => d
    | _ => []
  let at_ := (s.hostTest q h.pa d).getD (h.pa / 65536, h.pa % 65536 / 128)
  ((s.logOos q at_.1 at_.2 true).tmbEvent 20 q).finish h .poisoned

def execHostWriteHoldTimeout (id : Nat) (s : State) : Host.Outcome State Fault Refusal :=
  .next (s.holdEnds id 0 State.hostPoison)
def execAuditHoldTimeout (id : Nat) (s : State) : Host.Outcome State Fault Refusal :=
  .next (s.holdEnds id 1 fun s h => s.finish h .poisoned)
def execPartHostHoldTimeout (id : Nat) (s : State) : Host.Outcome State Fault Refusal :=
  .next (s.holdEnds id 2 fun s h => s.finish h .unsupported)

/-! Back-invalidations and leases (R311 to R313). -/

/-- HBR_LOST of a line's partition takes a lost lease. -/
def State.logLost (s : State) (l : LLine) (hi : Bool) : State :=
  let q := s.leadOfLode l.lode
  let r := rHBR_LOST q
  if s.rf r 63 1 = 0 then
    let s1 := (((s.setRf r 0 36 l.frame).setRf r 36 9 l.off).setRf r 45 1 (if hi then 1 else 0)).setRf r 63 1 1
    let s2 := s1.incSat r 46 15
    if s2.rf (rHBR_CTL q) 16 1 = 1 then s2.raise q 4 else s2
  else
    let s1 := if s.rf r 0 36 = l.frame then s else s.setRf r 61 1 1
    s1.incSat r 46 15

/-- The host answers a back-invalidation, with the half's data where it had changed it. An answer that comes after its
lease ran out is dropped. -/
def State.backAnswer (s : State) (id : Nat) (data : Option (List Byte)) : State :=
  match s.backInvs.find? fun b => b.id = id with
  | none => s
  | some b =>
    let s1 : State := { s with backInvs := s.backInvs.filter fun x => x.id ≠ id }
    if b.lost then
      match data with
      | none => s1
      | some _ => State.incSat { s1 with hostDone := s1.hostDone ++ [.poisoned] } (rHBR_LOST (s1.frameLead (b.pl / 512))) 46 15
    else
      match s1.lineById b.line with
      | none => s1
      | some l =>
        let s2 := match data with
          | some d => if l.half b.hi = Half.e && !b.discard then
              let (leaf, s2) := s1.mappedLeaf l.frame l.off
              (s2.mergeLine l.id (halfMask b.hi) (lineOf (if b.hi then 64 else 0) (d.take 64)) (leaf.bind Leaf.request) [] true).modLine
                l.id fun x => x.noteBack (halfMask b.hi)
            else s1
          | none => s1
        (s2.modLine l.id fun (x : LLine) => x.setHalf b.hi (if b.toS && x.half b.hi ≠ Half.i then Half.s else Half.i)).endTransit l.id

def execBackinvalResponse (id : Nat) (data : Option (List Byte)) (s : State) : Host.Outcome State Fault Refusal :=
  .next (s.backAnswer id data)

/-- A half whose lease is lost (R312): the value last written back of it to the lode, or the frame's where none was. -/
def State.lostHalf (s : State) (l : LLine) (hi : Bool) : LLine :=
  let stored := s.storedLine l.frame l.off
  let back := if hi then l.backHi else l.backLo
  let v : Line := match back with
    | some x => x.setWidth 1024 <<< (if hi then 512 else 0)
    | none => stored
  { l.setHalf hi .i with data := lineMerge l.data (halfMask hi) v,
                         poison := l.poison || (back.isNone && (s.frame l.frame).poison.contains l.off) }

/-- The lease of R312 runs out: the half is the host's no more. -/
def State.leaseEnds (s : State) (id : Nat) : State :=
  match s.backInvs.find? fun b => b.id = id && !b.lost with
  | none => s
  | some b =>
    match s.lineById b.line with
    | none => s
    | some l =>
      let us := min 1000 (max 1 (s.rf (rHBR_CTL (s.leadOfLode l.lode)) 0 10))
      if l.half b.hi ≠ Half.e || s.clk < s.usAfter b.since us then s
      else
        let lose (x : BackInv) : BackInv := if x.id = id then { x with lost := true } else x
        State.logLost { s.modLine l.id (fun (x : LLine) => s.lostHalf x b.hi) with backInvs := s.backInvs.map lose } l b.hi

def execLeaseTimeout (id : Nat) (s : State) : Host.Outcome State Fault Refusal := .next (s.leaseEnds id)

/-! Versions (R371). -/

/-- One field of VER_SEL: taken where it lies in VER_CAP's range, else refused. -/
def State.verField (v : Word) (s : State) (lo : Nat) : State :=
  let x := wfld v lo 4
  if s.rf rVER_CAP lo 4 ≤ x ∧ x ≤ s.rf rVER_CAP (lo + 4) 4 then s.setRf rVER_SEL lo 4 x else s.setRf rVER_SEL 32 1 1

def State.verSel (s : State) (v : Word) : State :=
  [0, 8, 16].foldl (State.verField v) (if bitAt v 32 then s.setRf rVER_SEL 32 1 0 else s)

def execVerSelWrite (v : Word) (s : State) : Host.Outcome State Fault Refusal := .next (s.verSel v)

end Sys2Proof.Machine
end

