-- ==== Sys2Proof/Machine/Links.lean ====
section
/-! DEFINITION. The Norha links (R367, R371 to R374): training, lanes, heartbeats and fencing, and the packets of peers;
and the assignment of cores, lodes, queues and links to worlds (R375). -/
namespace Sys2Proof.Machine

/-- A link changes state: its partition gets source 6, and the discovery table follows. -/
def State.setLink (s : State) (l st : Nat) : State :=
  if s.linkState l = st then s else ((s.setRf (rNRH_LNK l) 0 3 st).rewriteDisc).raise (s.leadOf (l / 3)) 6

/-- TRAINING (R371): the highest version both ends support, capped by VER_SEL.link; none leaves it INCOMPAT. -/
def State.trainLink (s : State) (l : Nat) (peer : BitVec 16) (pmin pmax : Nat) : State :=
  if 12 ≤ l || !s.dieOk (l / 3) || s.stage = 0 || !([0, 1, 4].contains (s.linkState l)) then s
  else
    let top := min (s.rf rVER_SEL 16 4) pmax
    if top < max (s.rf rVER_CAP 16 4) pmin then (s.setRf (rNRH_LNK l) 4 3 0).setLink l 4
    else
      let s1 := (s.setRf (rNRH_LNK l) 4 3 top).setRf (rNRH_LNK l) 8 16 peer.toNat
      State.setLink { s1 with linkUps := SMap.put 0 s1.linkUps l s1.free, free := s1.free + 1 } l 2

def execLinkTraining (link : Nat) (peer : BitVec 16) (peerMin peerMax : BitVec 4) (s : State) :
    Host.Outcome State Fault Refusal := .next (s.trainLink link peer peerMin.toNat peerMax.toNat)

def State.badLanesOf (s : State) (l : Nat) : BitVec 9 := SMap.get 0 s.deadLanes l

def countBits (x : BitVec 9) : Nat := (List.range 9).countP fun i => bitAt x i

/-- A LANE FAILS (R372): the spare replaces the first of the eight; after a second failure the link is dead and leaves
routing, and packets on it are retried over other paths (R367). -/
def State.loseLane (s : State) (l lane : Nat) : State :=
  if 12 ≤ l || 9 ≤ lane || bitAt (s.badLanesOf l) lane || s.linkState l = 3 then s
  else
    let m := s.badLanesOf l ||| (1#9 <<< lane)
    let s1 : State := { s with deadLanes := SMap.put 0 s.deadLanes l m }
    if countBits m = 1 then (if lane = 8 then s1 else s1.setRf (rNRH_LNK l) 3 1 1).rewriteDisc
    else
      let busy := s1.linkState l = 2 && ((s1.extWrites.any fun w => s1.peerOf (w.pa / 65536) = some (s1.linkPeer l))
        || s1.fills.any fun f => f.peer && s1.peerOf (f.leaf.frameOf (128 * f.line)) = some (s1.linkPeer l))
      let s2 : State := if busy then
          { s1.setRf (rNRH_LNK l) 32 16 (s1.rf (rNRH_LNK l) 32 16 + Config.packets s1.free) with free := s1.free + 1 }
        else s1
      s2.setLink l 3

def execLaneFailure (link lane : Nat) (s : State) : Host.Outcome State Fault Refusal := .next (s.loseLane link lane)

/-- A HEARTBEAT IS MISSED (R367), on a link that is up or that has died: misses one period apart follow one another; the third
fences the peer, whose links are all removed from routing. -/
def State.missBeat (s : State) (l : Nat) : State :=
  if 12 ≤ l || (s.linkState l ≠ 2 && s.linkState l ≠ 3) then s
  else
    let p := s.linkPeer l
    let per := max 1 (s.rf rNRH_HB 0 16)
    let (n, at_) := SMap.get (0, 0) s.hbMiss p
    if n ≠ 0 && s.clk < s.usAfter at_ per then s
    else
      let n1 := if n ≠ 0 && s.usAfter at_ (2 * per) ≤ s.clk then 1 else n + 1
      let s1 : State := { s with hbMiss := SMap.put (0, 0) s.hbMiss p (n1, s.clk) }
      if n1 < 3 then s1 else (s1.linksTo p).foldl (fun s l => s.setLink l 5) s1

def execHeartbeatTimeout (link : Nat) (s : State) : Host.Outcome State Fault Refusal := .next (s.missBeat link)

/-- Transfers to fenced peers: writes are discarded and counted, reads complete poisoned; part of what every step ends
with. -/
def State.fenceSweep (s : State) : State :=
  let gone := s.extWrites.filterMap fun w => if w.peer then s.fencedFrame (w.pa / 65536) else none
  let s1 : State := { s with extWrites := s.extWrites.filter fun w => !(w.peer && (s.fencedFrame (w.pa / 65536)).isSome) }
  let s2 := gone.foldl (fun s l => s.incRf (rNRH_LNK l) 48 16) s1
  (s2.fills.filter fun f => f.peer && (s.fencedFrame (f.leaf.frameOf (128 * f.line))).isSome).foldl (fun s f => s.extFill f none) s2

/-- A PEER'S PACKET (R374): performed at the home lode as an access of path H; one of a gang's context names it
with its slice, and is held until the slice has started here (R331; log 75). A link that is not up brings none. -/
def execNorhaRequest (link : Nat) (gang : Option (Nat × Nat)) (op : NorhaOp) (s : State) : Host.Outcome State Fault Refusal :=
  .next (if 12 ≤ link || s.linkState link ≠ 2 then s
    else match op with
      | .read pa n => s.arriveAt pa (.read n) (some link) gang
      | .write pa d => s.arriveAt pa (.write d) (some link) gang)

/-! Worlds (R375, R376). -/

/-- Every line a lode holds is written back and dropped. -/
def State.emptyLode (s : State) (n : Nat) : State :=
  ((s.lines.filter fun l => l.lode = n).map (·.id)).foldl (fun s id =>
    match s.lineById id with
    | none => s
    | some l =>
      let (s1, ok) := (s.touch l (BitVec.allOnes 1024) true).writeback id
      if ok then s1.dropLine id else s1) s

/-- What keeps a unit in its world: a resident workgroup; a contract's lines, a key-value entry or a stuck line; being
enabled; not being down. -/
def State.worldBusy (s : State) (o b : Nat) : Bool :=
  match regLoc o with
  | some (.part, q, _) => (s.queue q b).en
  | _ =>
    if o = rWLD_LINK then s.linkState b ≠ 0
    else if o < 0x70 then !s.coreEmpty ((o - 0x50) / 8 * 64 + b)
    else
      let n := (o - 0x70) / 8 * 64 + b
      (s.contracts.any fun c => SMap.get 0 c.lines n ≠ 0) || (s.kv.any fun e => e.lode = n) || s.stuckAt n ≠ 0

def isWorldReg (o : Nat) : Bool :=
  o = rWLD_LINK || (0x50 ≤ o && o < 0x90 && o % 8 = 0)
    || (match regLoc o with
        | some (.part, _, l) => l = 0x10
        | _ => false)

/-- The change itself, once the lodes it moves are empty: until then it waits, and the register keeps its value. -/
def State.worldApply (s : State) (o : Nat) (v : Word) : State :=
  if 0x70 ≤ o ∧ o < 0x90 then
    let moved := ((List.range 64).filter fun b => bitAt v b ≠ bitAt (s.reg o) b).map fun b => (o - 0x70) / 8 * 64 + b
    let s1 := moved.foldl State.emptyLode s
    if s1.lines.any fun l => moved.contains l.lode then { s1 with worldNext := SMap.insert s1.worldNext o v }
    else State.setReg { s1 with worldNext := SMap.erase s1.worldNext o } o v
  else s.setReg o v

/-- Accepted changes that wait for a lode's lines; part of what every step ends with. -/
def State.worldGo (s : State) : State :=
  s.worldNext.foldl (fun s x => s.transact (fun s => s.worldApply x.1 x.2) fun s => s) s

/-- A WORLD ASSIGNMENT (R375): RWS; refused while a unit whose bit changes is in use. -/
def State.worldAssign (s : State) (o : Nat) (v : Word) (sec : Bool) : State :=
  let q := (regLoc o).map fun x => x.2.1
  if !isWorldReg o || (0x1000 ≤ o && !(q.any s.leads)) then s
  else if !sec then s.violation o
  else
    let w := if o = rWLD_LINK then v &&& 0xFFF else v
    let changed := (List.range 64).filter fun b => bitAt w b ≠ bitAt (s.reg o) b
    if changed.any (s.worldBusy o) then s.setRf rWLD_STAT 0 1 1
    else s.worldApply o w

def execWorldAssignWrite (off : Nat) (v : Word) (sec : Bool) (s : State) : Host.Outcome State Fault Refusal :=
  .next (s.worldAssign off v sec)

end Sys2Proof.Machine
end

