-- ==== Sys2Proof/Machine/Partition.lean ====
section
/-! DEFINITION. Hard partitions (R380 to R382, R386): quiescing, flushing, merging, splitting and resuming. -/
namespace Sys2Proof.Machine

/-- Quarters that a mask names. -/
def quartersIn (m : BitVec 4) : List Nat := (List.range 4).filter fun k => bitAt m k

/-- A partition command ends with a result: done is set, and source 7 is raised for the partitions named. -/
def State.partEnd (s : State) (m : BitVec 4) (res : Nat) : State :=
  let s1 : State := { ((s.setRf rPART_STAT 1 4 res).setRf rPART_STAT 0 1 0).setRf rPART_STAT 13 1 1 with partRun := none }
  let leads := dedup ((quartersIn m).map s1.leadOf)
  if leads = [] then s1.raise 0 7 else leads.foldl (fun s q => s.raise q 7) s1

/-- A command starts: busy is set. -/
def State.partStart (s : State) (op : Nat) (m : BitVec 4) (until_ : Nat) : State :=
  { s.setRf rPART_STAT 0 1 1 with partRun := some ⟨op, m, until_⟩ }

/-- A queue of a partition is enabled or holds a record that is not done, a slot not yet taken included (R322, R382). -/
def State.queuesBusy (s : State) (q : Nat) : Bool :=
  (s.recs.any fun r => r.q = q && r.st < 3)
    || s.queues.any fun x => x.q = q && (x.en || (x.base ≠ 0 &&
        match s.engineRead q x.base 8 with
        | (.ok i, _) => i ≠ x.taken
        | _ => false))

/-- QUIESCE: placement stops; the command ends when the last of the quarters is quiesced. -/
def State.quiesce (s : State) (m : BitVec 4) : State :=
  if ((quartersIn m).map s.leadOf).any s.queuesBusy then s.partEnd m 3
  else if quartersIn m = [] then s.partEnd m 0
  else { s.partStart 1 m 0 with quiescing := s.quiescing ||| m }

/-- No workgroup, copy or reduction record of a quarter is left, no line is stuck, and the Tumbler is idle. -/
def State.quarterIdle (s : State) (q : Nat) : Bool :=
  let lead := s.leadOf q
  (s.wgs.all fun w => w.parts.all fun p => p.core / 64 ≠ q) && (s.copies.all fun c => c.core / 64 ≠ q)
    && (s.reds.all fun r => r.lode / 64 ≠ q || r.kept) && s.sdCount lead = 0
    && (s.tmbRuns.all fun r => r.q ≠ lead) && (s.migrations.all fun r => r.q ≠ lead) && !(s.tmbOf lead).reclaiming

def State.quiesceDone (s : State) (q : Nat) : State :=
  match s.partRun with
  | none => s
  | some p =>
    if p.op ≠ 1 || 4 ≤ q || !bitAt p.quarters q || !s.quarterIdle q then s
    else
      let s1 := s.setRf rPART_STAT (5 + q) 1 1
      if (quartersIn p.quarters).all fun k => s1.rf rPART_STAT (5 + k) 1 = 1 then s1.partEnd p.quarters 0 else s1

/-- FLUSH: the lodes write back and drop every line but those of strata-only pages; what translates or copies lines of
memory in the quarters is invalidated. The quarters are flushed once every such line has left. -/
def State.flushQuarters (s : State) (m : BitVec 4) : State :=
  let here (n : Nat) : Bool := bitAt m (n / 64)
  let s1 := ((s.lines.filter fun l => here l.lode && !l.so).map (·.id)).foldl (fun s id =>
    match s.lineById id with
    | none => s
    | some l =>
      let (s1, ok) := (s.touch l (BitVec.allOnes 1024) true).writeback id
      if ok then s1.dropLine id else s1) s
  let s2 : State := { s1 with
    alb := s1.alb.filter (fun e => !here e.core), tb := s1.tb.filter (fun e => !here e.lode),
    dir := s1.dir.filter (fun d => !here d.lode), layCache := s1.layCache.filter (fun e => !here e.core),
    l1 := s1.l1.filter (fun x => !here x.core), l1fills := s1.l1fills.filter fun x => !here x.core }
  if s2.lines.any fun l => here l.lode && !l.so then s2
  else ((quartersIn m).foldl (fun s q => s.setRf rPART_STAT (9 + q) 1 1) s2).partEnd m 0

/-- PART_CFG.join after a MERGE or SPLIT of exactly these quarters, none where the set is not one R382 allows. -/
def newJoin (join op : Nat) (m : BitVec 4) : Option Nat :=
  let a := fld join 0 1
  let b := fld join 1 1
  let whole := 4 ≤ join
  if op = 3 then
    if whole then none
    else match m.toNat with
      | 3 => if a = 0 then some (join + 1) else none
      | 12 => if b = 0 then some (join + 2) else none
      | 15 => some 7
      | _ => none
  else match m.toNat with
    | 3 => if !whole && a = 1 then some (join - 1) else none
    | 12 => if !whole && b = 1 then some (join - 2) else none
    | 15 => if whole then some 3 else none
    | _ => none

/-- MERGE: the pools, balloons and counters combine in the lead's Tumbler block. -/
def State.mergeTmb (s : State) (old : List Nat) (lead : Nat) : State :=
  let sum (lo : Nat) : Nat := old.foldl (fun a q => a + s.rf (rTMB_POOL q) lo 32) 0
  let ts := old.map s.tmbOf
  let s0 := old.foldl (fun s q => s.modTmb q fun _ => {}) s
  let s1 := (s0.setRf (rTMB_POOL lead) 0 32 (sum 0)).setRf (rTMB_POOL lead) 32 32 (sum 32)
  s1.modTmb lead fun t =>
    { t with oos := ts.any (·.oos), low := decide (sum 32 < s1.lwm lead), reclaiming := ts.any (·.reclaiming),
             held := ts.any (·.held), balloon := sortBy (fun f => (s.frame f).donated) (ts.flatMap (·.balloon)),
             taken := ts.flatMap (·.taken),
             begun := ts.foldl (fun a x => max a x.begun) 0,
             sync := ts.foldl (fun a x => max a x.sync) 0 }

/-- Flakes on a partition's own stacks: the free ones, and those frames hold. -/
def State.flakesOn (s : State) (lodes : List Nat) : Nat × Nat :=
  let free := lodes.foldl (fun a n => a + (s.lodeOf n).flakes) 0
  let held := s.frames.foldl (fun a e => a + e.2.flakes.countP fun n => lodes.contains (flakeLode n)) 0
  (free, free + held)

/-- The quarter whose block lists a donated frame, among new leads: the one whose PART_IL range holds it (R30), else the one on
whose stacks it is stored (DESIGN CHOICE, log 82). -/
def State.balloonLead (s : State) (f : Nat) : Nat :=
  (s.leadList.find? fun q => s.ownsFrame q f).getD (s.leadOfLode (s.slode f))

/-- The donated frames are listed by the partitions that own them, now that PART_IL has moved; one in no range stays. -/
def State.rehome (s : State) : State :=
  let at_ (q f : Nat) : Nat := (s.leadList.find? fun p => s.ownsFrame p f).getD q
  let all (g : TmbPart → List Nat) (p : Nat) : List Nat :=
    (List.range 4).flatMap fun q => (g (s.tmbOf q)).filter fun f => at_ q f = p
  (List.range 4).foldl (fun t p => t.modTmb p fun x =>
    { x with balloon := sortBy (fun f => (s.frame f).donated) (all (·.balloon) p), taken := all (·.taken) p }) s

/-- SPLIT: each new partition's block receives the flakes of its own dies' stacks, and the donated frames that are its own. -/
def State.splitTmb (s : State) (t : TmbPart) (lead : Nat) : State :=
  let lodes := s.partLodes lead
  let (free, total) := s.flakesOn lodes
  let s1 := (s.setRf (rTMB_POOL lead) 0 32 total).setRf (rTMB_POOL lead) 32 32 free
  s1.modTmb lead fun x =>
    { x with oos := t.oos, low := decide (free < s1.lwm lead), reclaiming := t.reclaiming, held := t.held, sync := t.sync, begun := t.begun,
             balloon := t.balloon.filter (fun f => s.balloonLead f = lead), taken := t.taken.filter fun f => s.balloonLead f = lead }

/-- The end of a MERGE or SPLIT. -/
def State.reshape (s : State) (op : Nat) (m : BitVec 4) : State :=
  match newJoin (s.rf rPART_CFG 0 3) op m with
  | none => s.partEnd m 6
  | some j =>
    let old := dedup ((quartersIn m).map s.leadOf)
    let s1 := s.setRf rPART_CFG 0 3 j
    let new := dedup ((quartersIn m).map s1.leadOf)
    let s2 := if op = 3 then s1.mergeTmb old (new.headD 0)
      else new.foldl (fun x q => x.splitTmb (s.tmbOf (old.headD 0)) q) s1
    s2.partEnd m 0

/-- MERGE and SPLIT: refused, or run for a time the manual does not give (R382). -/
def State.partReshape (s : State) (op : Nat) (m : BitVec 4) : State :=
  if (quartersIn m).any fun q => s.rf rPART_STAT (9 + q) 1 = 0 then s.partEnd m 5
  else if (newJoin (s.rf rPART_CFG 0 3) op m).isNone then s.partEnd m 6
  else if s.contracts.any fun c => ((quartersIn m).map s.leadOf).contains c.q then s.partEnd m 7
  else State.partStart { s with free := s.free + 1 } op m (s.clk + Config.partClk s.free)

/-- A configuration that RESUME refuses: frame ranges overlap, or a port is open between partitions. -/
def State.badConfig (s : State) : Bool :=
  let overlap (a b : Nat) : Bool := a ≠ b && s.frameCount a ≠ 0 && s.frameCount b ≠ 0
    && s.frameBase a < s.frameBase b + s.frameCount b && s.frameBase b < s.frameBase a + s.frameCount a
  (s.leadList.any fun a => s.leadList.any fun b => overlap a b)
    || portDies.zipIdx.any fun x => bitAt (s.reg rPART_BND) x.2 && !s.joined x.1.1 x.1.2

def State.partResume (s : State) (m : BitVec 4) : State :=
  if s.badConfig then s.partEnd m 8
  else
    let s1 := (quartersIn m).foldl (fun s q => (s.setRf rPART_STAT (5 + q) 1 0).setRf rPART_STAT (9 + q) 1 0) s
    State.partEnd { s1 with quiescing := s1.quiescing &&& ~~~m } m 0

/-- What remains of the command that runs: a FLUSH that waited for the host's halves or for a line that could not be written
back, a MERGE or SPLIT whose time has come; part of what every step ends with. -/
def State.partGo (s : State) : State :=
  match s.partRun with
  | none => s
  | some p =>
    if p.op = 2 then s.transact (fun s => s.flushQuarters p.quarters) fun s => s
    else if (p.op = 3 || p.op = 4) && p.until_ ≤ s.clk then s.reshape p.op p.quarters
    else s

/-- A WRITE OF PART_CMD (R382): BUSY first, then WORLD, then the command's own checks. -/
def State.partCommand (s : State) (op : Nat) (m : BitVec 4) (sec : Bool) : State :=
  if s.rf rPART_STAT 0 1 = 1 then s.setRf rPART_STAT 1 4 1
  else if !sec then s.partEnd m 2
  else match op with
    | 1 => s.quiesce m
    | 2 => if (quartersIn m).any fun q => s.rf rPART_STAT (5 + q) 1 = 0 then s.partEnd m 4
        else (s.partStart 2 m 0).partGo
    | 3 => s.partReshape 3 m
    | 4 => s.partReshape 4 m
    | 5 => s.partResume m
    | _ => s.partEnd m 9

def execQuiesce (quarters : BitVec 4) (sec : Bool) (s : State) : Host.Outcome State Fault Refusal :=
  .next (s.partCommand 1 quarters sec)
def execQuiesceComplete (q : Nat) (s : State) : Host.Outcome State Fault Refusal := .next (s.quiesceDone q)
def execFlush (quarters : BitVec 4) (sec : Bool) (s : State) : Host.Outcome State Fault Refusal :=
  .next (s.partCommand 2 quarters sec)
def execMerge (quarters : BitVec 4) (sec : Bool) (s : State) : Host.Outcome State Fault Refusal :=
  .next (s.partCommand 3 quarters sec)
def execSplit (quarters : BitVec 4) (sec : Bool) (s : State) : Host.Outcome State Fault Refusal :=
  .next (s.partCommand 4 quarters sec)
def execPartResume (quarters : BitVec 4) (sec : Bool) (s : State) : Host.Outcome State Fault Refusal :=
  .next (s.partCommand 5 quarters sec)
/-- A code without a command ends with BAD_OP; one of 1 to 5 named here is that command on no quarter. -/
def execPartBadOp (op : BitVec 4) (sec : Bool) (s : State) : Host.Outcome State Fault Refusal :=
  .next (s.partCommand op.toNat 0 sec)

end Sys2Proof.Machine
end

