-- ==== Sys2Proof/Machine/Start.lean ====
section
/-! DEFINITION. Start in three stages (R383), images, identity and attestation (R366, R377 to R379), and power and
management (R384). -/
namespace Sys2Proof.Machine

def State.modMgmt (s : State) (f : Mgmt → Mgmt) : State := { s with mgmt := f s.mgmt }

/-! Repairs (R365, R366). -/

/-- THE PLACE THAT A TEST CONCERNS: a row, a site, a register file bank, a lane or a storage. The row of a line is that of the
flake in which the line begins as the error is found (R32); it stays the same place whatever becomes of the frame. -/
def State.errPlace (s : State) (l : ErrLoc) : ErrLoc :=
  match l with
  | .strataSite n k _ => .strataSite n k 0
  | .registerFile c b _ _ => .registerFile c b 0 0
  | .hbmLine pa =>
    match s.flakeAt pa with
    | some fk => .hbmRow fk
    | none => .hbmLine (pa / 128 * 128)
  | l => l

/-- A number for each location. -/
def errCode : ErrLoc → Nat
  | .hbmLine pa => 8 * pa
  | .hbmRow fk => 8 * fk + 7
  | .strataSite n k _ => 8 * (32 * n + k) + 1
  | .registerFile c b _ _ => 8 * (256 * b + c) + 2
  | .linkLane l k => 8 * (16 * l + k) + 3
  | .scratch w p _ => 8 * (8 * w + p) + 4
  | .deep w p _ => 8 * (8 * w + p) + 5
  | .accumulator w p _ => 8 * (8 * w + p) + 6

/-- The core of a part. -/
def State.coreOfPart (s : State) (wg part : Nat) : Nat :=
  match s.wg? wg with
  | some w => (w.part part).core
  | none => 0

/-- The quarter a location lies in. -/
def State.quarterOf (s : State) (l : ErrLoc) : Nat :=
  match l with
  | .hbmLine pa => s.frameLead (pa / 65536)
  | .hbmRow fk => flakeLode fk / 64
  | .strataSite n _ _ => n / 64
  | .registerFile c _ _ _ => c / 64
  | .linkLane l _ => l / 3
  | .scratch w p _ | .deep w p _ | .accumulator w p _ => s.coreOfPart w p / 64

/-- A ROW'S FLAKE LEAVES THE POOL and is never issued again (R365). A frame that holds it draws another in its place, as it
draws any flake (R30, R34, R36); where none can be had, the flake goes when the frame gives it back. The directory takes
another of its partition's flakes. -/
def State.loseFlake (s : State) (fk : Nat) : State :=
  let n := flakeLode fk
  let q := s.leadOfLode n
  let keep : State := s.modLode n fun x => { x with bad := x.bad ++ [fk] }
  match s.frames.find? fun e => e.2.flakes.contains fk with
  | some (f, _) =>
    match s.takeFlakes (s.frameLead f) f 1 s.nextId with
    | some s1 =>
      let y := s1.frame f
      let new := y.flakes.getLastD fk
      (s1.setFrame f (y.withFlakes (y.flakes.dropLast.map fun g => if g = fk then new else g) (s.slode f))).withdrawFlake fk
    | none => keep
  | none =>
    if (s.lodeOf n).isFree fk then
      ((s.modLode n fun x => { x with flakes := x.flakes - 1, freed := x.freed.filter fun k => k ≠ fk }).withdrawFlake fk).setFree q
        (s.freeOf q - 1)
    else if s.freeOf q = 0 then keep
    else
      let s1 := s.modLode n fun x => { x with resv := x.resv.filter fun k => k ≠ fk }
      ((s1.dirLodes true (s.partLodes q) 1).withdrawFlake fk).setFree q (s.freeOf q - 1)

/-- A ROW OF A CHANNEL IS REPLACED by a spare row (R365); with none left, its flake leaves the pool for good. -/
def State.spareRow (s : State) (fk : Nat) : State :=
  let n := flakeLode fk
  let ch := Config.bankPick n fk % 2
  let used := ((s.lodeOf n).rows).getD ch 0
  if 256 ≤ n || (s.lodeOf n).failed.contains fk then s
  else if used < Config.spareRows then s.modLode n fun x => { x with rows := x.rows.set ch (used + 1) }
  else s.loseFlake fk

/-- A CORE IS RETIRED (R365): it takes no workgroup any more; its column keeps its lode and loses the deep-scratch role
(R16, R75). -/
def State.retireCore (s : State) (n : Nat) : State :=
  let map := s.reg (rSTR_ROLE n)
  let map1 := (List.range 24).foldl (fun m b => if wfld m (2 * b) 2 = 1 then wset m (2 * b) 2 0 else m) map
  ((s.vacateCores [n] .test).modCore n fun x => { x with retired := true }).setReg (rSTR_ROLE n) map1

/-- What a repair does to the part. -/
def State.repair (s : State) (l : ErrLoc) : State :=
  match l with
  | .hbmRow fk => s.spareRow fk
  | .strataSite n k _ => s.loseSite n k
  | .registerFile c _ _ _ => s.retireCore c
  | .linkLane l k => s.loseLane l k
  | _ => s

/-- A failed test writes a signed repair record, or sets store_full where the store is full (R366). -/
def State.writeRepair (s : State) (l : ErrLoc) : State :=
  let q := s.leadOf (s.quarterOf l)
  if s.mgmt.repairs.length < Config.storeSize then
    (s.modMgmt fun m => { m with repairs := m.repairs ++ [(true, l)], written := m.written + 1 }).incSat (rREL_STAT q) 32 16
  else (s.setRf (rREL_STAT q) 48 1 1).raise q 5

/-! Start (R383). -/

/-- An interrupt of every partition. -/
def State.raiseAll (s : State) (src : Nat) : State := s.leadList.foldl (fun s q => s.raise q src) s

/-- No workgroup is resident, and no stage of start runs. -/
def State.canStart (s : State) (stage : Nat) : Bool :=
  s.mgmt.running.isNone && s.stage = stage && s.rf rSTART_STAT 4 1 = 0

def State.beginStage (s : State) (k : Nat) : State :=
  (s.setRf rSTART_STAT 2 1 1).modMgmt fun m => { m with running := some k }

/-- A stage ends, and every partition hears of it (R370). -/
def State.endStage (s : State) (k : Nat) : State :=
  (((s.setRf rSTART_STAT 0 2 k).setRf rSTART_STAT 2 1 0).modMgmt fun m => { m with running := none }).raiseAll 7

/-- The image that stage 0 accepts: slot A's first, then slot B's (R377). -/
def Mgmt.accepted (m : Mgmt) : Option (List Byte) :=
  [m.slotA, m.slotB].find? fun i =>
    match Config.imageVersion i with
    | some v => m.floor ≤ v
    | none => false

/-- POWER GOOD: the device starts afresh, and stage 0 runs. The image slots, the floor, the signed store and the stored
configuration are what a start keeps. -/
def State.powerGood (s : State) : State :=
  { State.reset with
    free := s.free
    mgmt := { slotA := s.mgmt.slotA, slotB := s.mgmt.slotB, floor := s.mgmt.floor, repairs := s.mgmt.repairs,
              layout := s.mgmt.layout, cap := s.mgmt.cap, asked := s.mgmt.asked, nread := s.mgmt.nread } }

/-- The identity key, derived from the PUF response through SM3 (R378). -/
def identityKey : BitVec 256 × BitVec 512 :=
  let k := Config.sm3 (Config.kdfInput Config.pufResponse)
  (k, Config.sm2Public k)

/-- STAGE 0 ENDS: the identity key stands, and the device is in safe mode, or in recovery where no image is accepted. -/
def State.stage0 (s : State) : State :=
  let s1 := s.modMgmt fun m => { m with firmware := m.accepted.getD [], key := some identityKey }
  (if s.mgmt.accepted.isSome then s1 else s1.setRf rSTART_STAT 4 1 1).endStage 0

/-- Power good, or the end of stage 0 where it runs. -/
def execStartStage0 (s : State) : Host.Outcome State Fault Refusal :=
  .next (if s.mgmt.running = some 0 then s.stage0 else s.powerGood)

/-- Frames, pool and watermarks of the partition that a lead quarter leads, as stage 1 sets them up: its HDM range has the
physical capacity of its dies in service (R383). -/
def State.layPartition (s : State) (q : Nat) : State :=
  let n := Config.flakesPerLode / 64 * (s.partLodes q).length
  let (free, total) := s.flakesOn (s.partLodes q)
  ((((s.setRf (rPART_IL q) 0 36 (Config.quarterBase q)).setRf (rPART_ILN q) 0 36 n).setRf (rTMB_POOL q) 0 32 total).setRf
    (rTMB_POOL q) 32 32 free).setReg (rTMB_WMARK q) (BitVec.ofNat 64 (total / 256 + total / 128 * 2 ^ 32))

/-- The data banks of a lode that are not usable at start (R87). -/
def State.noteShut (s : State) (n : Nat) : State :=
  s.modLode n fun x => { x with shut := (List.range (nBanks n)).countP fun b => !s.usable n b }

/-- The strata of a lode of a die in service are tested: each failed site is lost, with a repair record of its own (R365), and
its groups are rebuilt one site after another, as far as R91 lets them. -/
def State.testStrata (k : Nat) (s : State) (n : Nat) : State :=
  if !s.dieOk (n / 64) then s
  else
    let bad := (List.range (4 * perLayer n)).filter fun i => bitAt (Config.siteFails k n) i && !bitAt (s.lodeOf n).lost i
    let s1 := bad.foldl (fun s i => (s.loseSite n i).writeRepair (.strataSite n i 0)) s
    (List.range (nBanks n / 3)).foldl (fun s _ => s.transact (fun s => s.rebuild n) fun x => x) s1

/-- Stage 1 ends: dies that failed are disabled, the repair records are applied in the order written, the strata are tested
and their parity rebuilt, and the stored layout is set, each partition with its physical capacity. -/
def State.stage1 (s : State) : State :=
  let bad := s.mgmt.dieFail.toNat
  let ok := s.rf rSTART_STAT 8 4 &&& (15 ^^^ bad)
  let s1 := if bad = 0 then s else (s.setRf rSTART_STAT 8 4 ok).setRf rSTART_STAT 3 1 1
  let s2 := s1.mgmt.repairs.foldl (fun s r =>
    if r.1 then (s.repair r.2).modMgmt fun m => { m with applied := m.applied + 1 }
    else s.modMgmt fun m => { m with skipped := m.skipped + 1 }) s1
  let sites := dedup (s2.mgmt.repairs.filterMap fun r => match r.2 with
    | .strataSite n _ _ => some n
    | _ => none)
  let tested := (List.range 256).foldl (State.testStrata s2.free) { sites.foldl State.noteShut s2 with free := s2.free + 1 }
  let s3 := (tested.setRf rPART_CFG 0 3 s2.mgmt.layout.toNat).endStage 1
  let ports := portDies.zipIdx.foldl (fun w x => if s3.joined x.1.1 x.1.2 then w + 2 ^ x.2 else w) 0
  (s3.leadList.foldl State.layPartition (s3.setRf rPART_BND 0 6 ports)).rewriteDisc

/-- Stage 1 begins, and finds the dies that fail; or it ends where it runs. -/
def execStartStage1 (s : State) : Host.Outcome State Fault Refusal :=
  .next (if s.mgmt.running = some 1 then s.stage1
    else if s.canStart 0 && s.rf rSTART_CTL 0 1 = 0 && s.wgs = [] then
      { (s.beginStage 1).modMgmt fun m => { m with dieFail := Config.dieFails s.free } with free := s.free + 1 }
    else s)

/-- Stage 2 begins: compression is enabled, the capacity written, and the links of the dies in service train. -/
def State.stage2 (s : State) : State :=
  let v := wset (wset 0 0 1 1) 8 11 s.mgmt.cap
  let s1 := (s.beginStage 2).writeTmbCtl v
  (List.range 12).foldl (fun s l => if s.dieOk (l / 3) && s.linkState l = 0 then s.setLink l 1 else s) s1

/-- Stage 2 begins, or ends where it runs: a link that found no peer is down again. -/
def execStartStage2 (s : State) : Host.Outcome State Fault Refusal :=
  .next (if s.mgmt.running = some 2 then
      ((List.range 12).foldl (fun (s : State) l => if s.linkState l = 1 then s.setLink l 0 else s) s).endStage 2
    else if s.canStart 1 && s.rf rSTART_CTL 1 1 = 0 then s.stage2 else s)

/-! Attestation (R379). -/

/-- A request of management: it is answered, and source 7 of every partition tells of it (R370; log 89). -/
def State.manage (s : State) (f : Mgmt → Mgmt) : State := (s.modMgmt f).raiseAll 7

def State.answer (s : State) (r : Spdm) : State := s.manage fun m => { m with spdm := some r }

/-- A request that needs the versions, capabilities and algorithms settled first, and the identity key, private and public. -/
def State.settled (s : State) (r : BitVec 256 → BitVec 512 → Spdm) : State :=
  match s.mgmt.key with
  | some (k, pub) =>
    if s.mgmt.spdmVersion && s.mgmt.spdmCaps && s.mgmt.spdmAlgs then s.answer (r k pub) else s.answer .errorUnexpected
  | none => s.answer .errorUnexpected

def execGetVersion (s : State) : Host.Outcome State Fault Refusal :=
  .next ((s.modMgmt fun m => { m with spdmVersion := true, spdmCaps := false, spdmAlgs := false }).answer .version)
def execGetCapabilities (s : State) : Host.Outcome State Fault Refusal :=
  .next (if s.mgmt.spdmVersion then (s.modMgmt fun m => { m with spdmCaps := true }).answer .capabilities
    else s.answer .errorUnexpected)
/-- Only SM2 P-256 with SM3-256 is negotiated; what the requester offers is free. -/
def execNegotiateAlgorithms (s : State) : Host.Outcome State Fault Refusal :=
  let offer := Config.offers s.mgmt.asked
  let s1 := s.modMgmt fun m => { m with asked := m.asked + 1 }
  .next (if s.mgmt.spdmVersion && s.mgmt.spdmCaps && offer then
      (s1.modMgmt fun m => { m with spdmAlgs := true }).answer .algorithms
    else s1.answer .errorUnexpected)
def execGetDigests (s : State) : Host.Outcome State Fault Refusal :=
  .next (s.settled fun _ pub => .digests [Config.sm3 (Config.vendorCert pub)])
def execGetCertificate (s : State) : Host.Outcome State Fault Refusal :=
  .next (s.settled fun _ pub => .certificate (Config.vendorCert pub))
/-- The identity key signs the response (R378). -/
def execChallenge (nonce : List Byte) (s : State) : Host.Outcome State Fault Refusal :=
  .next (s.settled fun k pub => .challengeAuth (Config.sm3 (Config.vendorCert pub)) (Config.sm2Sign k (Config.sm3 nonce)))

/-- The four measurements, in their order. -/
def State.measures (s : State) : List (BitVec 256) :=
  let m := s.mgmt
  let applied := (m.repairs.filter (·.1)).take m.applied
  [Config.sm3 Config.bootRom, Config.sm3 m.firmware, Config.sm3 (Config.configStore m.floor m.layout m.cap),
   Config.sm3 (applied.flatMap fun r => Config.recordBytes (errCode r.2))]

/-- The measurements, signed by the identity key (R378). -/
def execGetMeasurements (s : State) : Host.Outcome State Fault Refusal :=
  .next (s.settled fun k _ => .measurements s.measures
    (Config.sm2Sign k (Config.sm3 (s.measures.flatMap fun d => bytesOfNat 32 d.toNat))))
def execSpdmUnsupported (s : State) : Host.Outcome State Fault Refusal := .next (s.answer .errorUnsupported)

/-! Power and management (R377, R384). -/

/-- A firmware image arrives; it takes effect at the next start, for which it stands in slot A, the image in force in
slot B. -/
def execPldmFirmwareUpdate (image : List Byte) (s : State) : Host.Outcome State Fault Refusal :=
  .next (s.manage fun m => { m with slotA := image, slotB := m.firmware })

/-- Management reads its sensors: four dies, four HBM stacks a die, and the module's power; the values are free. -/
def execPldmSensorRead (s : State) : Host.Outcome State Fault Refusal :=
  .next (s.manage fun m => { m with reading := (List.range 21).map fun k => Config.sensor m.nread k, nread := m.nread + 1 })

/-- A core that has been idle for 1 ms goes to retention sleep. -/
def execCoreRetentionSleep (core : Nat) (s : State) : Host.Outcome State Fault Refusal :=
  .next (if s.coreEmpty core && (s.copies.all fun c => c.core ≠ core) && !(s.coreOf core).retired
      && s.usAfter (s.coreOf core).idleAt 1000 ≤ s.clk then
      s.modCore core fun x => { x with asleep := true }
    else s)

/-- A core wakes: its L1 lines are invalidated, G keeps its value (R120). -/
def execCoreWake (core : Nat) (s : State) : Host.Outcome State Fault Refusal := .next (s.wakeCore core)

/-- A lode of a quiesced quarter goes to retention sleep and keeps its contents. -/
def execLodeRetentionSleep (lode : Nat) (s : State) : Host.Outcome State Fault Refusal :=
  .next (if lode < 256 && s.rf rPART_STAT (5 + lode / 64) 1 = 1 then s.modLode lode fun x => { x with asleep := true } else s)

def execLodeWake (lode : Nat) (s : State) : Host.Outcome State Fault Refusal := .next (s.wakeLode lode)

/-- The clock in force changes: counts in clk do not, and a bound in microseconds is measured through both settings (R6). -/
def execCoreClockChange (mhz : Nat) (s : State) : Host.Outcome State Fault Refusal :=
  .next (if mhz = 0 then s else { s with mhz := mhz, clocks := s.clocks ++ [(s.mhz, s.clk)] })

end Sys2Proof.Machine
end

