-- ==== Sys2Proof/Machine/Reliability.lean ====
section
/-! DEFINITION. Errors, self-tests and sparing (R358, R364, R365), and the Assayer: selection's replays, signatures,
verdicts and votes (R362 to R364). -/
namespace Sys2Proof.Machine

/-! Self-tests (R365). -/

/-- A test of a location is to be made; a register file bank is tested once its core is vacated. -/
def State.addTest (s : State) (l : ErrLoc) : State :=
  let p := s.errPlace l
  let s1 : State := if s.tests.contains p then s else { s with tests := s.tests ++ [p] }
  match l with
  | .registerFile c _ _ _ => s1.vacateCores [c] .test
  | _ => s1

/-- A strike of a core; enough of them retire it (R364). -/
def State.strike (s : State) (c : Nat) : State :=
  let s1 := s.modCore c fun x => { x with strikes := x.strikes + 1, minority := false, tested := false }
  if max 1 (s.rf (rASY_CTL (s.leadOfCore c)) 24 4) ≤ (s1.coreOf c).strikes then (s1.retireCore c).rewriteDisc else s1

/-- A test of another bank of the core is still to be made. -/
def State.testsLeft (s : State) (c : Nat) : Bool :=
  s.tests.any fun l => match l with
    | .registerFile d _ _ _ => d = c
    | _ => false

/-- A core that passed its last test is open again, unless something else holds it closed. -/
def State.passCore (s : State) (c : Nat) : State :=
  let s1 := (if s.testsLeft c then s else s.openCores [c] .test).modCore c fun x => { x with tested := true }
  if (s1.coreOf c).minority then s1.strike c else s1

/-- A SELF-TEST ENDS (R365). -/
def State.selfTest (s : State) (l : ErrLoc) (pass : Bool) : State :=
  let p := s.errPlace l
  let ready := match p with
    | .registerFile c _ _ _ => s.coreEmpty c
    | _ => true
  if !s.tests.contains p || !ready then s
  else
    let s1 : State := { s with tests := s.tests.filter (fun x => x ≠ p), errLog := s.errLog.filter fun x => x ≠ p }
    if pass then
      match p with
      | .registerFile c _ _ _ => s1.passCore c
      | _ => s1
    else ((s1.repair p).writeRepair p).rewriteDisc

def execSelfTest (loc : ErrLoc) (pass : Bool) (s : State) : Host.Outcome State Fault Refusal := .next (s.selfTest loc pass)

/-- A corrected error is logged; the second at a location since its last test triggers one. -/
def execCorrectedError (loc : ErrLoc) (s : State) : Host.Outcome State Fault Refusal :=
  .next (if s.errLog.contains (s.errPlace loc) then s.addTest loc
    else { s with errLog := s.errLog ++ [s.errPlace loc] })

/-! Uncorrectable errors (R358). -/

/-- What a UE does where it is found: memory and strata lines are poisoned; a storage of a core keeps it until the data
is read or written; one in a register file is consumed as the file is read. -/
def State.ueAt (s : State) (l : ErrLoc) : State :=
  match l with
  | .hbmLine pa =>
    let f := pa / 65536
    let x := s.frame f
    if x.flakes = [] then s else s.setFrame f { x with poison := addNew (pa % 65536 / 128) x.poison }
  | .strataSite n _ line => s.modLine line fun x => if x.lode = n then { x with poison := true } else x
  | .registerFile c _ wg k =>
    (match s.wg? wg with
     | some w => if w.coreOfWave k = c && k < w.waves.length then (s.leaveWave wg k (BitVec.allOnes 64)).consumeUe wg 0 4 else s
     | none => s)
  | .linkLane _ _ | .hbmRow _ => s
  | .scratch wg p off => s.modPart wg p fun x => if off < x.scrBytes then { x with ue := addNew off x.ue } else x
  | .deep wg p off =>
    s.modPart wg p fun x => if off < 65536 * x.deepUnits then { x with ue := addNew (0x1000000 + off) x.ue } else x
  | .accumulator wg p byte =>
    s.modPart wg p fun x => if byte < 1024 * x.accKib then { x with accUe := addNew (byte / 4) x.accUe } else x

def execUeDetected (loc : ErrLoc) (s : State) : Host.Outcome State Fault Refusal := .next ((s.ueAt loc).addTest loc)

/-! The Assayer (R362 to R364). -/

/-- The record under audit whose workgroups have all exited. -/
def State.audited (s : State) (id : Nat) : Option Rec :=
  s.recs.find? fun r => r.id = id && r.primary = 0 && r.audit = .selected && r.over && !r.terminated && !r.closed

/-- A run of its audit. -/
def State.runOf (s : State) (id : Nat) (a : Audit) : Option Rec :=
  s.recs.find? fun r => r.primary = id && r.audit = a && r.halt ≠ 3

/-- Lines a run wrote: staged ones of the primary, shadow ones of a replay; a shadow that it only read is clean. -/
def State.runLines (s : State) (r : Rec) : List LLine :=
  s.lines.filter fun l => l.staged = some r.id && l.shadow = r.isReplay && (!l.shadow || l.dirty)

/-- One line's term of a signature (R363). -/
def lineSig (key : Word) (l : LLine) : Word :=
  (Config.sm3 (bytesOfNat 8 key.toNat ++ bytesOfNat 2 (l.asid.getD 0).toNat ++ bytesOfNat 8 (128 * l.line)
    ++ bytesOfNat 128 l.data.toNat)).extractLsb' 0 64

/-- The signature of a run; host-held halves of its lines are recalled first. -/
def State.sign (s : State) (r : Rec) (akey : Nat) : Word × State :=
  (s.runLines r).foldl (fun (w, s) l =>
    (w + lineSig (Config.auditKey akey) l, s.touch l (BitVec.allOnes 1024) false)) (0, s)

/-- A new run of an audit: the record's own image, frame and shape. -/
def State.newRun (s : State) (r : Rec) (a : Audit) (akey : Nat) : State :=
  let (n, s1) := s.fresh
  { s1 with recs := s1.recs ++ [{ r with id := n, primary := r.id, audit := a, akey := akey, st := 2, placed := 0, exited := 0,
                                         staging := false, exposed := false, cores := [], sigs := [], ues := 0,
                                         gangCores := [], terminated := false, closed := false, halt := 0, front := 0,
                                         succ := 0 }] }

/-- The next workgroups of a run are placed, one for each set of cores that it may use. -/
def State.placeRun (s : State) (prim run : Rec) (others : List Rec) (cores : List (List Nat)) : State :=
  (cores.foldl (fun (sk : State × Nat) cs =>
    let (s, k) := sk
    let used := (prim :: others).flatMap fun r => r.coresOf k
    if k < rfld prim.image 224 32 && s.canPlace prim.q prim.ctx.world run.id cs (recNeeds prim.image)
        && s.runMayUse prim.q used run.gangCores cs then (s.startWg run run.ctx k cs, k + 1)
    else (s, k)) (s, run.placed)).1

/-- AUDIT_REPLAY (R363): the primary's signature is taken when its workgroups have exited, and a replay is placed; or the
next workgroups of a run under way. -/
def State.auditReplay (s : State) (id : Nat) (cores : List (List Nat)) : State :=
  match s.audited id with
  | none => s
  | some r =>
    match s.runOf id .third, s.runOf id .replay with
    | some t, o => s.placeRun r t o.toList cores
    | none, some p => s.placeRun r p [] cores
    | none, none =>
      let (sig, s1) := s.sign r s.free
      let s2 := State.modRec { s1 with free := s1.free + 1 } id fun x => { x with sigs := [sig], akey := s.free }
      let s3 := s2.newRun r .replay s.free
      match s3.runOf id .replay with
      | some p => s3.placeRun r p [] cores
      | none => s3

def execAuditReplay (rec : Nat) (cores : List (List Nat)) (s : State) : Host.Outcome State Fault Refusal :=
  .next (s.transact (fun s => s.auditReplay rec cores) fun s => s)

/-- A run ends: its workgroups stop, then its shadow lines and its record go. -/
def State.dropRun (s : State) (r : Rec) : State := if r.halt = 3 then s else s.halt r 3

/-- Every run of an audit goes. -/
def State.dropRuns (s : State) (id : Nat) : State := (s.recs.filter fun r => r.primary = id).foldl State.dropRun s

/-- Runs whose audit was voided, or whose record is gone, end; part of what every step ends with. -/
def State.dropVoided (s : State) : State :=
  (s.recs.filter fun r => r.primary ≠ 0 && !(s.recs.any fun p => p.id = r.primary && p.audit = .selected)).foldl State.dropRun s

/-- The audit ends in favour of the primary: it is free to complete. -/
def State.auditOk (s : State) (r : Rec) : State :=
  ((s.dropRuns r.id).modRec r.id fun x => { x with audit := .none }).incRf (rASY_STAT r.q) 0 16

/-- AUDIT_VERDICT (R364): equal signatures complete the primary; unequal ones raise the alarm, test the cores of both
runs, each under its bank 0, and start a third. -/
def State.auditVerdict (s : State) (id : Nat) : State :=
  match s.audited id, s.runOf id .replay with
  | some r, some p =>
    if !p.over || p.sigs ≠ [] || (s.runOf id .third).isSome then s
    else
      let (sig, s1) := s.sign p r.akey
      if r.sigs = [sig] then s1.auditOk r
      else
        let s2 := ((s1.incRf (rASY_STAT r.q) 16 16).setRf (rASY_STAT r.q) 48 1 1).raise r.q 5
        let cs := dedup ((r.cores ++ p.cores).flatMap (·.2))
        let s3 := cs.foldl (fun s c =>
          (s.modCore c fun x => { x with tested := false, minority := false }).addTest (.registerFile c 0 0 0)) s2
        ((s3.modRec p.id fun x => { x with sigs := [sig] }).dropShadow p.id).newRun r .third r.akey
  | _, _ => s

def execAuditVerdict (rec : Nat) (s : State) : Host.Outcome State Fault Refusal :=
  .next (s.transact (fun s => s.auditVerdict rec) fun s => s)

/-- The cores of the minority: one that has passed its test receives its strike, one not yet tested when it passes. -/
def State.blame (s : State) (r : Rec) : State :=
  (dedup (r.cores.flatMap (·.2))).foldl (fun s c =>
    if (s.coreOf c).retired then s
    else if (s.coreOf c).tested then s.strike c
    else s.modCore c fun x => { x with minority := true }) s

/-- AUDIT_VOTE (R364): the third run decides. -/
def State.auditVote (s : State) (id : Nat) : State :=
  match s.audited id, s.runOf id .replay, s.runOf id .third with
  | some r, some p, some t =>
    if !t.over then s
    else
      let (sig, s1) := s.sign t r.akey
      if r.sigs = [sig] then (s1.auditOk r).blame p
      else
        let s2 := (s1.dropRuns id).incRf (rASY_STAT r.q) 0 16
        if p.sigs = [sig] then (s2.rollback r).blame r
        else
          let s3 := (s2.incSat (rASY_STAT r.q) 32 8).dropStaged id
          let s4 := (s3.report r.q r.ctx.save .ue (reportEntry .ue 15 0 0 r.ref.toNat 0)).2
          State.endRec (s4.modRec id fun x => { x with terminated := true, audit := .none }) r 4
  | _, _, _ => s

def execAuditVote (rec : Nat) (s : State) : Host.Outcome State Fault Refusal :=
  .next (s.transact (fun s => s.auditVote rec) fun s => s)

end Sys2Proof.Machine
end

