-- ==== Sys2Proof/Machine/RegWrite.lean ====
section
/-! DEFINITION. Reading and writing registers (R7, R8, R45, R87 to R90, R385): what each register reads as, what a write
of it does, and the discovery table. -/
namespace Sys2Proof.Machine

/-! The discovery table (R87 to R90). It is held as 32-bit words. -/

def half (w : Nat) : List Nat := [w % 2 ^ 32, w / 2 ^ 32 % 2 ^ 32]

/-- The block section: kind, instances, stride, offset (R89). -/
def discBlocks : List Nat :=
  14 :: ([(1, 1, 0, 0), (2, 4, 0x100, 0x1000), (3, 4, 0x400, 0x2000), (4, 1, 0, 0x10000), (5, 4, 0x100, 0x11000),
    (6, 4, 0x100, 0x12000), (7, 4, 0x100, 0x13000), (8, 4, 0x100, 0x14000), (9, 4, 0x100, 0x15000), (10, 4, 0x100, 0x16000),
    (11, 1, 0, 0x17000), (12, 256, 0x40, 0x20000), (13, 256, 0x1000, 0x100000), (14, 1, 0, 0x800000)].flatMap
      fun (id, n, st, off) => [id + (n - 1) * 2 ^ 8 + st * 2 ^ 16, off])

/-- Lodes in service, in logical order. -/
def State.lodesUp (s : State) : List Nat := (List.range 256).filter fun n => s.dieOk (n / 64)

/-- The cores' entries (R17, R89). The part's table gives each logical core its site; the model takes site n mod 64 of die
n / 64 for core n, so that sites 64 and 65 of each die are the disabled ones (DESIGN CHOICE, log 6). -/
def State.discCores (s : State) : List Nat :=
  (List.range 256).map fun n => n % 64 + n / 64 * 2 ^ 7 + (if (s.coreOf n).retired then 2 ^ 9 else 0)

/-- Data banks of a lode usable at start (R87): those that the repairs of stage 1 left. -/
def State.startBanks (s : State) (n : Nat) : Nat := nBanks n - (s.lodeOf n).shut

/-- One lode's entry (R87), its site as its core's (DESIGN CHOICE, log 6). -/
def State.discLode (s : State) (n : Nat) : List Nat :=
  [n + n % 64 * 2 ^ 8 + n / 64 * 2 ^ 15 + (if Config.interior n then 0 else 2 ^ 17)
     + (if (s.coreOf n).retired then 2 ^ 18 else 0) + nBanks n / 6 * 2 ^ 20 + s.startBanks n * 2 ^ 23,
   (s.lodeOf n).lost.toNat, s.rf (rSTR_STAT n) 16 24 + s.rf (rSTR_STAT n) 3 2 * 2 ^ 24, 0]

/-- One channel's entry (R90). A lode's channels belong to stack 4·die + (n mod 64) / 16 (R18 gives no map: DESIGN CHOICE,
log 6). -/
def State.discChannel (s : State) (n j : Nat) : Nat :=
  n + (4 * (n / 64) + n % 64 / 16) * 2 ^ 8 + (if s.dieOk (n / 64) then 2 ^ 12 else 0)
    + (Config.spareRows - ((s.lodeOf n).rows).getD j 0) * 2 ^ 16

/-- One link's entry (R90). -/
def State.discLink (s : State) (l : Nat) : List Nat :=
  [s.rf (rNRH_LNK l) 0 4 + (s.badLanesOf l).toNat * 2 ^ 4 + s.linkPeer l * 2 ^ 16,
   if s.linkState l = 2 then Config.roundTrip (SMap.get 0 s.linkUps l) % 2 ^ 32 else 0, 0, 0]

def State.discRepairs (s : State) : List Nat :=
  [s.mgmt.applied % 2 ^ 16 + s.mgmt.skipped % 2 ^ 16 * 2 ^ 16,
   s.mgmt.written % 2 ^ 16 + (Config.storeSize - s.mgmt.repairs.length) * 2 ^ 16, 0, 0]

/-- Offsets of the six sections: blocks, cores, lodes, channels, links, repairs. -/
def discOffsets : List Nat := [256, 384, 1408, 5504, 7552, 7744]
def discLen : Nat := 7760

/-- The header but for its check word (R88). -/
def State.discHead (s : State) : List Nat :=
  let lat := 120 + 180 * 2 ^ 16 + 300 * 2 ^ 32 + 380 * 2 ^ 48
  let cores := ((List.range 256).filter fun n => s.dieOk (n / 64) && !(s.coreOf n).retired).length
  let dies := ((List.range 4).filter s.dieOk).length
  let mib := s.lodesUp.foldl (fun a n => a + ((List.range (nBanks n)).filter (s.usable n)).length) 0
  [0x0D15C0B7, 1 + 256 * 2 ^ 16, discLen, s.discGen] ++ half Config.regBase ++ half lat
    ++ [1600 + cores * 2 ^ 16, 64 * dies + s.rf rSTART_STAT 8 4 * 2 ^ 16 + 0xB0 * 2 ^ 24, mib, Config.hbmGib * dies / 4]
    ++ [256 + 384 * 2 ^ 16, 1408 + 5504 * 2 ^ 16, 7552 + 7744 * 2 ^ 16]

def padTo (n : Nat) (l : List Nat) : List Nat := l ++ List.replicate (n - l.length) 0

/-- The table without its check word. -/
def State.discBody (s : State) : List Nat :=
  padTo 96 (padTo 64 (padTo 16 s.discHead) ++ discBlocks) ++ s.discCores ++ padTo 1024 (s.lodesUp.flatMap s.discLode)
    ++ ((List.range 256).flatMap fun n => [s.discChannel n 0, s.discChannel n 1])
    ++ ((List.range 12).flatMap s.discLink) ++ s.discRepairs

/-- The table: the check word makes the sum of all words 0 (R88). -/
def State.discovery (s : State) : List Nat :=
  let b := s.discBody
  let sum := b.foldl (· + ·) 0 % 2 ^ 32
  b.set 15 ((2 ^ 32 - sum) % 2 ^ 32)

/-! Reading (R7). -/

def State.strRes (s : State) (n : Nat) : Nat :=
  s.granted n kHold * 2 ^ 8 + (s.roleLines n 2 - s.granted n kPin) * 2 ^ 32

def State.strKv (s : State) (n : Nat) : Nat :=
  let mine := s.kv.filter fun e => e.lode = n
  sumUnits mine * 2 ^ 16 + min 65535 mine.length * 2 ^ 40

/-- What the facts held elsewhere add to a register's stored fields (R48, R69, R93, R94, R169, R294, R332, R333). -/
def State.regShow (s : State) (b : Blk) (i o : Nat) : Nat :=
  match b, o with
  | .tmbQ, 0x18 => s.sdCount i + s.hostCount i * 2 ^ 32
  | .tmbQ, 0x20 =>
    let t := s.tmbOf i
    t.balloon.length + t.taken.length + t.balloon.length * 2 ^ 32
  | .ct, 0x00 => s.contracts.countP fun c => c.q = i
  | .sch, 0x18 =>
    let x := s.queue i (s.rf (rSCH_QIDX i) 0 6)
    x.base + (if x.en then 1 else 0)
  | .sch, 0x20 =>
    let k := s.rf (rSCH_QIDX i) 0 6
    let x := s.queue i k
    x.quantum.toNat + (if x.fault then 2 ^ 16 else 0)
      + min 65535 (s.recs.countP fun r => r.q = i && r.queue = k && r.primary = 0 && r.st = 1) * 2 ^ 32
  | .pwr, 0x00 => (s.rf rPWR_PEBBLE 0 13 - s.pebblesHeld) * 2 ^ 16
  | .col, 0x10 => s.strRes i
  | .col, 0x18 => s.strKv i
  | .col, 0x20 => s.openAt i + s.heldAt i * 2 ^ 8
  | .core, 0x20 => s.regTotal i + s.regFree i * 2 ^ 16 + (s.partsOn i).foldl (fun a p => a + (dedup (p.claims.map (·.wave))).length) 0 * 2 ^ 32
  | _, _ => 0

/-- A READ OF A REGISTER at an offset of the window: 0 where no register stands there or its block is not in force. -/
def State.regRead (s : State) (o : Nat) : Word :=
  match regLoc o with
  | none => 0
  | some (.disc, _, l) =>
    let d := s.discovery
    BitVec.ofNat 64 (d.getD (l / 4) 0 + d.getD (l / 4 + 1) 0 * 2 ^ 32)
  | some (b, i, l) =>
    if !blkHas b l || !s.live b i then 0
    else if o = rXLT_SYNC i && b = .xlt then
      wset (s.reg o) 1 1 (if s.syncDone i then 1 else 0)
    else s.reg o ||| BitVec.ofNat 64 (s.regShow b i l)

/-- A dword of the host port's DVSEC (R88), by its offset: the identifier, the number of the memory BAR that maps the
register window, and the table's offset within that BAR. Through the BAR the host reads (`State.regRead`) and writes
(`State.regWrite` as a non-secure agent) every register. The vendor identifier is a number the manual does not state. -/
def dvsec (o : Nat) : BitVec 32 :=
  match o with
  | 0x04 => Config.vendorId.setWidth 32
  | 0x08 => 0x0B1C
  | 0x0C => Config.barNumber.setWidth 32
  | 0x10 => 0x00800000
  | _ => 0

/-! Writing (R7). -/

/-- A context of a partition runs. -/
def State.resident (s : State) (q : Nat) : Bool := s.wgs.any fun w => w.ctx.q = q

/-- Every quarter of a partition is quiesced. -/
def State.quiesced (s : State) (q : Nat) : Bool := (s.quartersOf q).all fun k => s.rf rPART_STAT (5 + k) 1 = 1

/-- PART_BND: a port changes only while both its dies' quarters are quiesced. What was dropped at a port that opens is no longer
remembered. -/
def State.writePorts (s : State) (v : Word) : State :=
  let s1 := portDies.zipIdx.foldl (fun s x =>
    if s.rf rPART_STAT (5 + x.1.1) 1 = 1 && s.rf rPART_STAT (5 + x.1.2) 1 = 1 then s.setRf rPART_BND x.2 1 (wfld v x.2 1) else s) s
  { s1 with portDrops := s1.portDrops.filter fun p => !p.walk && s1.portClosed p.die (p.lode / 64) }

/-- SCH_QCFG of the queue that SCH_QIDX names. -/
def State.writeQcfg (s : State) (q : Nat) (v : Word) : State :=
  let x := s.queue q (s.rf (rSCH_QIDX q) 0 6)
  s.setQueue { x with quantum := v.extractLsb' 0 16, fault := x.fault && !bitAt v 16 }

/-- A non-secure write meets a writable field that follows the RWS rule: its own code is RWS, or its block's unit is secure
(R7). -/
def State.barred (s : State) (b : Blk) (i l : Nat) : Bool :=
  (blkFields b l).any fun f => f.acc = .rws || s.guarded b i

/-- CORE_ACCINJ (R317): a write of arm = 0 cancels the injection, also where the operation that would fire it has entered
the queue. -/
def State.writeAccInj (s : State) (n : Nat) (v : Word) (sec : Bool) : State :=
  let s1 := s.writeFields (rCORE_ACCINJ n) v sec (s.guarded .core n)
  if s1.rf (rCORE_ACCINJ n) 32 1 = 1 then s1
  else { s1 with mq := s1.mq.map fun e => if e.core = n then { e with inj := none } else e }

/-- A WRITE OF A REGISTER by an agent of a world (R7, R385), with the action it starts. -/
def State.regWrite (s : State) (o : Nat) (v : Word) (sec : Bool) : State :=
  match regLoc o with
  | none => s
  | some (b, i, l) =>
    let g := s.guarded b i
    let plain := s.writeFields o v sec g
    if !blkHas b l || !s.live b i then s
    else if !sec && s.barred b i l then s.violation o
    else if isWorldReg o then s.worldAssign o v sec
    else match b, l with
      | .pkg, 0x08 => s.verSel v
      | .pkg, 0x28 => s.partCommand (wfld v 0 4) (v.extractLsb' 4 4) sec
      | .pkg, 0x38 => s.writePorts v
      | .part, _ => if s.quiesced i then plain.rehome else s
      | .tmb, 0x00 => s.writeTmbCtl v
      | .tmbQ, 0x08 =>
        if wfld v 32 32 ≤ wfld v 0 32 then s
        else if plain.lwm i ≤ plain.freeOf i then plain.modTmb i fun t => { t with low := false }
        else plain
      | .tmbQ, 0x10 => plain.oosCheck i
      | .tmbQ, 0x30 => s.tmbCommand i (wfld v 0 4) (v.extractLsb' 4 4) (wfld v 8 8) (wfld v 16 36) sec
      | .xlt, 0x00 => if s.resident i then s else plain
      | .xlt, 0x18 => if bitAt v 0 then s.xltSync i sec else s
      | .xlt, 0x20 => s.xltRmapClear i (wfld v 0 36) sec
      | .hbr, 0x08 => if bitAt v 63 then ((s.setRf o 63 1 0).setRf o 61 1 0).setRf o 46 15 0 else s
      | .sch, 0x08 => if s.resident i then s else plain
      | .sch, 0x18 => s.writeQbase i v sec
      | .sch, 0x20 => s.writeQcfg i v
      | .sch, 0x50 => s.schCommand i (wfld v 0 4) sec
      | .flt, 0x00 => s.fltCommand i (wfld v 0 4) (wfld v 16 12) (wfld v 4 12) sec
      | .col, 0x00 => s.writeRole i v sec
      | .core, 0x00 => s.poolApply i v sec
      | .core, 0x30 => s.writeAccInj i v sec
      | _, _ => plain

def execRegisterWrite (off : Nat) (v : Word) (sec : Bool) (s : State) : Host.Outcome State Fault Refusal :=
  .next (s.regWrite off v sec)

end Sys2Proof.Machine
end

