-- ==== Sys2Proof/Machine/Memory.lean ====
section
/-! DEFINITION. Group 4 (R246 to R264, R385): loads, stores, prefetch, fences, range maintenance, layout entries and
atomics. -/
namespace Sys2Proof.Machine

/-! What loads and stores share. -/

/-- A register page allows b64 elements at multiples of 64 bits, by a system context. The access is translated at lode
%core: the walk made there gives the frame, which no core holds (R23, R385). -/
def State.regOk (s : State) (e : Env) (x : Elem) (ty : Ty) (wr : Bool) : Elem × State :=
  match x with
  | .mem ba w fmt _ parts sc =>
    match parts.find? fun p => p.leaf.isReg with
    | none => (x, s)
    | some p =>
      if ty = .b64 && ba % 64 = 0 && e.ctx.system then
        let wk := s.walk e.lead (effAsid e.ctx.asid p.p.va) p.p.va
        match wk.res with
        | .error c => (.bad c (infoAt p.p.va wr), wk.st)
        | .ok l =>
          let l1 := if l.isReg then l else l.forCore
          (.mem ba w fmt l1 (parts.map fun y => { y with leaf := l1 }) sc, wk.st)
      else (.bad .perm (infoAt p.p.va wr), s)
  | _ => (x, s)

/-- Offset in the register window of an address on a register page. -/
def regOff (l : Leaf) (va : Nat) : Nat := 65536 * l.frameOf va + va % 65536 - Config.regBase

/-- A read of scratch or deep scratch consumes an uncorrectable error of a byte it reads (R358). -/
def Elem.ueOk (x : Elem) (g : Workgroup) (l : Layout) (wr : Bool) : Elem :=
  match x with
  | .scr j ba w _ sc =>
    let p := g.part j
    if p.bad (some l) (ba / 8) (cdiv (ba % 8 + w) 8) || (match sc with
        | some o => p.bad none o 1
        | none => false) then
      .bad .ue (ueStore (accInfo 0 wr) (if deepBase ≤ ba / 8 then 1 else 0))
    else x
  | _ => x

/-- Lanes of an element list that can be performed. -/
def goodLanes (xs : List (Nat × Elem)) : List (Nat × Elem) :=
  xs.filter fun x => match x.2 with
    | .mem _ _ _ _ _ _ | .scr _ _ _ _ _ => true
    | _ => false

def zeroLanes (xs : List (Nat × Elem)) : List Nat := xs.filterMap fun x => if x.2 = .zero then some x.1 else none

/-- Distinct 4 B words that a scratch access requests, as part and physical word. -/
def scrWords (l : Layout) (xs : List (Nat × Elem)) : List (Nat × Nat) :=
  dedup (xs.flatMap fun x => match x.2 with
    | .scr j ba w _ _ => (List.range (cdiv (ba % 32 + w) 32)).map fun i => (j, swz (some l) (4 * (ba / 32 + i)) / 4)
    | _ => [])

/-- Clocks that bank conflicts add (R123). -/
def conflicts (l : Layout) (xs : List (Nat × Elem)) : Nat :=
  let ws := scrWords l xs
  (List.range 64).foldl (fun m b => max m (ws.countP fun x => x.2 % 64 = b)) 1 - 1

/-- Loaded-idle latency of a load at its core (R123, R275); an L1 miss lands later. -/
def loadLat (l : Layout) (xs : List (Nat × Elem)) : Nat :=
  if l.memory then 28 else if l.space = 2 then 90 else (if l.space = 3 then 40 else 24) + conflicts l xs

/-! Loads (R251, R252). -/

/-- One lane's load is sent: a register is read at once, scratch is read at issue, memory part by part. -/
def State.loadLane (s : State) (e : Env) (op lane : Nat) (who : BitVec 64) (pol : Nat) (l : Layout) (x : Elem) : State :=
  match x with
  | .mem ba _ _ leaf parts sc =>
    if leaf.isReg then s.feed op lane 0 (s.regRead (regOff leaf (ba / 8))).toNat 1
    else (parts ++ sc.toList).foldl (fun s p => s.loadPart e op lane who pol p.leaf p.p) s
  | .scr j ba w _ sc =>
    let p := s.partOf e.iss.wg j
    let s1 := s.feed op lane 0 (p.bits (some l) ba w) 1
    match sc with
    | some o => s1.feed op lane 65536 (p.byte o).toNat 1
    | none => s1
  | _ => s

/-- Parts of a lane's load. -/
def Elem.nParts : Elem → Nat
  | .mem _ _ _ _ parts sc => parts.length + sc.toList.length
  | .scr _ _ _ _ sc => 1 + sc.toList.length
  | _ => 0

/-- Parts of a lane's element that lie in memory pages. -/
def Elem.eparts : Elem → List EPart
  | .mem _ _ _ leaf parts sc => if leaf.isReg then [] else (parts ++ sc.toList).map fun p => p.p
  | _ => []

/-- The record of a lane's load. -/
def laneLoad (ty : Ty) (reg : Reg) (lane : Nat) (who : BitVec 64) (x : Elem) : LaneLoad :=
  let (w, fmt) := match x with
    | .mem _ w f _ _ _ => (w, f)
    | .scr _ _ w f _ => (w, f)
    | _ => (0, 0)
  { lane := lane, parts := x.nParts, w := w, fmt := fmt, ty := ty, reg := reg, wide := ty.is64, who := who }

/-- A LOAD WORD whose elements are known: `xs` by lane, `who` the threads a lane's value is for. -/
def State.sendLoad (s : State) (e : Env) (l : Layout) (ty : Ty) (pol : Nat) (reg : Reg) (regs : List Reg)
    (acq : Option (BitVec 3)) (xs : List (Nat × Elem)) (who : Nat → BitVec 64) : State :=
  let good := goodLanes xs
  let out := zeroLanes xs
  if good = [] && out = [] then s
  else
    let (op, s1) := s.startOp e
      { id := 0, wg := 0, wave := 0, cnt := some .ld, regs := regs, readyAt := s.clk + loadLat l good, acq := acq,
        lanes := (good.map fun x => laneLoad ty reg x.1 (who x.1) x.2)
          ++ out.map fun i => laneLoad ty reg i (who i) .zero }
    let s2 := good.foldl (fun s x => s.loadLane e op x.1 (who x.1) pol l x.2) s1
    let s3 := if pol < 6 then s2 else (good.flatMap fun x => x.2.eparts).foldl (fun s p => s.l1Spend e p) s2
    s3.modResult op fun o => o.gathered s1.clk

/-- Registers of LD, LDS and ST. -/
def ldUses (f : MF) : Uses := ⟨sregs f.h ++ [.v f.k.toNat], vregs (memTy f.var.toNat).is64 f.data⟩
def ldsUses (f : MF) : Uses := ⟨sregs f.h ++ [.s f.k.toNat], [.s f.data.toNat]⟩
def stUses (f : MF) : Uses := ⟨sregs f.h ++ [.v f.k.toNat] ++ vregs (memTy f.var.toNat).is64 f.data, []⟩

def ldBody (f : MF) (e : Env) (s : State) : State :=
  let ty := memTy f.var.toNat
  s.form e f.h (fun _ => true) (coordRegs false f.k) fun l s =>
    let (xs, s1) := s.elemsOf e fun s lane =>
      let (x, s1) := s.elemOf e l (e.coords l.rank.toNat false f.k f.off lane) (!rawTy ty) (memWidth f.var.toNat) .rd false true
      let (y, s2) := s1.regOk e x ty false
      (y.ueOk e.wg l false, s2)
    let acq := if bitAt f.var 3 then some f.scope else none
    let s2 := s1.sendLoad e l ty f.pol.toNat (.v f.data.toNat) (vregs ty.is64 f.data) acq xs fun i => 1#64 <<< i
    s2.laneTraps (badLanes xs)

def execLd (h : Hdr) (f : MF) (s : State) : Host.Outcome State Fault Refusal := memWord h none (ldUses f) (ldBody f) s

/-- LDS: one element for the word; a fault of it is every active thread's. -/
def ldsBody (f : MF) (e : Env) (s : State) : State :=
  let ty := memTy f.var.toNat
  s.form e f.h (fun _ => true) (coordRegs true f.k) fun l s =>
    match e.act.head? with
    | none => s
    | some lane =>
      let (x0, s0) := s.elemOf e l (e.coords l.rank.toNat true f.k f.off lane) (!rawTy ty) (memWidth f.var.toNat) .rd false true
      let (x1, s1) := s0.regOk e x0 ty false
      let x := x1.ueOk e.wg l false
      let s2 := s1.sendLoad e l ty f.pol.toNat (.s f.data.toNat) [.s f.data.toNat] none [(lane, x)] fun _ => maskOf e.act
      match x with
      | .bad c i => s2.laneTraps (e.act.map fun a => (a, c, i))
      | _ => s2

def execLds (h : Hdr) (f : MF) (s : State) : Host.Outcome State Fault Refusal := memWord h none (ldsUses f) (ldsBody f) s

/-! Stores (R253). -/

/-- A store that goes to its home lode at once, after the store-buffer entry of its line. -/
def State.sendStore (s : State) (e : Env) (asid : BitVec 16) (leaf : Leaf) (pol : Nat) (what : ReqOp) (x : SbStore) : State :=
  let line := x.va / 128
  let s1 := (s.drainLine e.core asid line).voidFills e.core asid line s.nextId
  let s2 := match what with
    | .store m d => s1.l1Update e.core asid line m d
    | _ => s1
  (s2.sendReq { id := 0, core := e.core, wg := x.wg, wave := x.wave, lane := x.lane, op := 0, q := e.lead, ctx := e.ctx.num,
                asid := asid, va := x.va, line := line, leaf := leaf, what := what, lvl := hintOf pol, l1 := false, stamp := 0,
                stores := [x], word := x.word }).bump x.wg x.wave .st 1

/-- What one part of an element's code writes. -/
def Env.partStore (e : Env) (lane code : Nat) (p : EPart) : SbStore :=
  ⟨e.iss.wg, e.iss.wave, lane, p.va, lineBits p.lo p.w, BitVec.ofNat 1024 ((code >>> p.sh % 2 ^ p.w) <<< p.lo), e.iss.wordPc⟩

/-- The parts of an element whose code is known: into the store buffer, or to the home lode. -/
def State.storeParts (s : State) (e : Env) (pol : Nat) (buf : Bool) (lane code : Nat) (parts : List MPart) : State :=
  parts.foldl (fun s p =>
    let asid := effAsid e.ctx.asid p.p.va
    let st := e.partStore lane code p.p
    if buf then s.sbMerge e.core asid (p.p.va / 128) (hintOf pol) p.leaf e.ctx.num st
    else s.sendStore e asid p.leaf pol (.store st.mask st.data) st) s

/-- The scale byte of a store's block, read as a load reads it (R253): what the store buffer or L1 holds of it. -/
def State.scaleHere (s : State) (e : Env) (p : EPart) : Option Nat :=
  let asid := effAsid e.ctx.asid p.va
  let (m, d) := s.sbPart e asid p
  if m = 255 then some d else (s.l1Hit e asid (p.va / 128)).map fun x => fld x.toNat p.lo p.w

/-- One lane's store. `direct`: it does not stop in the store buffer. A scale byte that the core does not hold is read at its
home lode, by a request that then becomes the element's store. -/
def State.storeLane (s : State) (e : Env) (ty : Ty) (pol : Nat) (direct : Bool) (l : Layout) (lane data : Nat) (x : Elem) : State :=
  match x with
  | .mem ba w fmt leaf parts sc =>
    if leaf.isReg then s.regWrite (regOff leaf (ba / 8)) (BitVec.ofNat 64 data) leaf.world
    else
      let buf : Bool := !direct && ba % 8 = 0 && w % 8 = 0
      match sc with
      | none => s.storeParts e pol buf lane (storeVal ty fmt none data).1 parts
      | some q =>
        match s.scaleHere e q.p with
        | some b => s.storeParts e pol buf lane (storeVal ty fmt (some b) data).1 parts
        | none =>
          match parts with
          | [] => s
          | p :: more =>
            let s1 := more.foldl (fun s y =>
              let asid := effAsid e.ctx.asid y.p.va
              (s.drainLine e.core asid (y.p.va / 128)).voidFills e.core asid (y.p.va / 128) s.nextId) s
            s1.sendStore e (effAsid e.ctx.asid p.p.va) p.leaf pol
              (.scaled q.p.va q.leaf ba w fmt.toNat ty (BitVec.ofNat 64 data) buf (more.head?.map fun y => (y.p.va, y.leaf)))
              (e.partStore lane 0 p.p)
  | .scr j ba w fmt sc =>
    let p := s.partOf e.iss.wg j
    let code := (storeVal ty fmt (sc.map fun o => (p.byte o).toNat) data).1
    (s.modPart e.iss.wg j fun p => p.setBits (some l) ba w code).wakeBarriers e.iss.wg j
  | _ => s

/-- SLI flags that a lane's store sets (R153, R253). -/
def storeFlags (ty : Ty) (data : Nat) (x : Elem) : BitVec 5 :=
  match x with
  | .mem _ _ fmt _ _ _ | .scr _ _ _ fmt _ => (storeVal ty fmt none data).2
  | _ => 0

/-- The lanes of ST are performed in order, so that the highest lane's value remains (R250). -/
def State.sendStores (s : State) (e : Env) (f : MF) (l : Layout) : State :=
  let ty := memTy f.var.toNat
  let (xs, s1) := s.elemsOf e fun s lane =>
    let (x, s0) := s.elemOf e l (e.coords l.rank.toNat false f.k f.off lane) (!rawTy ty) (memWidth f.var.toNat) .wr false true
    let (y, s1) := s0.regOk e x ty true
    -- the scale byte is read: its error is consumed
    ((match y with
      | .scr j ba w fmt (some o) =>
        if (e.wg.part j).bad none o 1 then .bad .ue (ueStore (accInfo 0 false) (if deepBase ≤ o then 1 else 0))
        else .scr j ba w fmt (some o)
      | y => y), s1)
  let good := goodLanes xs
  let s2 := good.foldl (fun s x => s.storeLane e ty f.pol.toNat (bitAt f.var 3) l x.1 (e.vec ty f.data x.1) x.2) s1
  let s3 := s2.now e fun w => good.foldl (fun w x =>
    w.modThread x.1 fun t => { t with sli := t.sli ||| storeFlags ty (e.vec ty f.data x.1) x.2 }) w
  s3.laneTraps (badLanes xs)

def stBody (f : MF) (e : Env) (s : State) : State :=
  s.form e f.h (fun _ => true) (coordRegs false f.k) fun l s =>
    if e.act = [] then s
    else if bitAt f.var 3 then s.release e f.scope 1 fun s => s.sendStores e f l
    else s.sendStores e f l

def execSt (h : Hdr) (f : MF) (s : State) : Host.Outcome State Fault Refusal := memWord h none (stUses f) (stBody f) s

/-! Prefetch (R254). -/

/-- One line is requested at its home lode, and in L1 where the policy allows (R248, R254). -/
def State.prefetch (s : State) (e : Env) (pol lane : Nat) (p : MPart) : State :=
  let asid := effAsid e.ctx.asid p.p.va
  s.sendReq
    { id := 0, core := e.core, wg := e.iss.wg, wave := e.iss.wave, lane := lane, op := 0, q := e.lead, ctx := e.ctx.num,
      asid := asid, va := p.p.va, line := p.p.va / 128, leaf := p.leaf, what := .load p.p.lo p.p.w 0, lvl := hintOf pol,
      l1 := pol < 3 && p.leaf.cattr ≠ 1 && !s.wgReplay e.iss.wg, stamp := s.gen e.core, word := e.iss.wordPc }

/-- PREF reads no scale; both lines of an element that straddles two are requested, and policies 6 and 7 invalidate the L1
copies it hits. -/
def prefBody (f : MF) (e : Env) (s : State) : State :=
  s.form e f.h (fun _ => true) (coordRegs false f.k) fun l s =>
    if !l.memory then s
    else
      let (xs, s1) := s.elemsOf e fun s lane =>
        s.elemOf e { l with scaled := false } (e.coords l.rank.toNat false f.k f.off lane) true 8 .rd false false
      let parts := (goodLanes xs).flatMap fun x => match x.2 with
        | .mem _ _ _ _ ps _ => ps.map fun p => (x.1, p)
        | _ => []
      let s2 := parts.foldl (fun s x => s.prefetch e f.pol.toNat x.1 x.2) s1
      if f.pol.toNat < 6 then s2 else parts.foldl (fun s x => s.l1Spend e x.2.p) s2

def execPref (h : Hdr) (f : MF) (s : State) : Host.Outcome State Fault Refusal :=
  memWord h none ⟨sregs f.h ++ [.v f.k.toNat], []⟩ (prefBody f) s

/-! Fences (R258, R259). -/

/-- The entries of the store buffer that hold a store of the wave drain. -/
def State.drainWave (s : State) (e : Env) : State :=
  (s.sbuf.filter fun x => x.core = e.core && x.stores.any fun y => y.wg = e.iss.wg && y.wave = e.iss.wave).foldl State.drainEntry s

/-- A fence at issue: the store buffer drains (R117), of scope wave the wave's own entries, and host writes start; it
completes by `resultLands`. -/
def fenceBody (m : BitVec 14) (before after : BitVec 5) (e : Env) (s : State) : State :=
  if e.act = [] then s
  else
    let scope : BitVec 3 := m.extractLsb' 0 3
    let s1 := if scope ≠ 0 then s.drainCore e.core else if bitAt before 0 then s.drainWave e else s
    let s2 := if bitAt before 4 then s1.flushHost e.lead e.ctx.asid else s1
    (s2.startOp e { id := 0, wg := 0, wave := 0, cnt := none, regs := [], ready := true, readyAt := s2.clk + 8,
                    fence := some ⟨bitAt m 3, bitAt m 4, scope, before, after⟩ }).2

def execFence (h : Hdr) (f : GF) (s : State) : Host.Outcome State Fault Refusal :=
  memWord h none {} (fenceBody f.m 9 9) s
def execFencex (h : Hdr) (f : GF) (s : State) : Host.Outcome State Fault Refusal :=
  memWord h none {} (fenceBody f.m (f.a.setWidth 5) (f.b.setWidth 5)) s

/-! Range maintenance (R260, R261). -/

/-- Width of the elements of a page: 8 for code 0; none where the page cannot be found (R140, R260). -/
def State.pageWidth (s : State) (e : Env) (va : Int) : Option Nat × State :=
  if va < 0 ∨ 2 ^ 57 ≤ va then (none, s)
  else
    match s.attrs e.core (effAsid e.ctx.asid va.toNat) va.toNat with
    | (.ok x, s1) => (some (elemWidth x.fmt.toNat 8), s1)
    | (.error _, s1) => (none, s1)

/-- The lines, or by `unit` pages, that hold a bit from `a` to before `b`. -/
def spanOf (unit a b : Int) : List Int := (List.range ((b - 1) / unit + 1 - a / unit).toNat).map fun (i : Nat) => a / unit + (i : Int)

/-- The lines of one element: those of the first width, the guess `w` leading, under which the element lies in a page of that
width (R139, R140). Where there is none, the page that the guess finds gives the width and the place; an element whose page is
absent keeps the guess. Log 88. -/
def State.elemLines (s : State) (e : Env) (l : Layout) (w : Nat) (c : List Int) : List Int × State :=
  let fits (x : Option Nat × State) (v : Nat) : Option Nat × State :=
    if x.1.isSome then x
    else
      let (y, s') := x.2.pageWidth e (l.bitAddr c v / 8)
      (y.filter (· = v), s')
  let (found, s1) := [w, 8, 16, 32, 4, 6, 64].foldl fits (none, s)
  match found with
  | some v => (spanOf 1024 (l.bitAddr c v) (l.bitAddr c v + v), s1)
  | none =>
    let (y, s2) := s1.pageWidth e (l.bitAddr c w / 8)
    let w1 := y.getD w
    (spanOf 1024 (l.bitAddr c w1) (l.bitAddr c w1 + w1), s2)

/-- The lines of a row of elements, from coordinate `lo` to before `hi`: at once where its pages all have the width `w`. -/
def State.rowLines (s : State) (e : Env) (l : Layout) (w : Nat) (lo hi : Int) (c : List Int) : List Int × State :=
  let a := l.bitAddr (lo :: c) w
  let b := l.bitAddr ((hi - 1) :: c) w + w
  let (same, s1) := (spanOf 524288 a b).foldl (fun (x : Bool × State) p =>
    let (w', s') := x.2.pageWidth e (65536 * p)
    (x.1 && w' = some w, s')) (true, s)
  if same then (spanOf 1024 a b, s1)
  else (spanOf 1 lo hi).foldl (fun (x : List Int × State) i =>
    let (ls, s') := x.2.elemLines e l w (i :: c)
    (x.1 ++ ls, s')) ([], s1)

/-- Lines that hold a bit of an element of a box clipped to the extents, row by row; each once. -/
def State.boxLines (s : State) (e : Env) (l : Layout) (c : List Int) (box : List Nat) : List Int × State :=
  let r := l.rank.toNat
  let lo (k : Nat) : Int := if k < r then max 0 (c.getD k 0) else 0
  let hi (k : Nat) : Int := if k < r then min (l.ext k : Int) (c.getD k 0 + (box.getD k 0 : Int)) else 1
  let dim (k : Nat) : List Int := (List.range (hi k - lo k).toNat).map fun (i : Nat) => lo k + (i : Int)
  if (hi 0 - lo 0).toNat = 0 then ([], s)
  else
    let (w0, s1) := s.pageWidth e l.base.toNat
    let w := w0.getD 8
    let rows := (dim 4).flatMap fun c4 => (dim 3).flatMap fun c3 => (dim 2).flatMap fun c2 => (dim 1).map fun c1 => [c1, c2, c3, c4]
    let (ls, s2) := rows.foldl (fun (x : List Int × State) c =>
      let (y, s') := x.2.rowLines e l w (lo 0) (hi 0) c
      (x.1 ++ y, s')) ([], s1)
    (dedup ls, s2)

/-- How far a maintenance word has come at its core. -/
structure MRun where
  st   : State
  reqs : List Req := []
  bad  : Option (Cause × Int) := none

/-- One line at the core: its page is checked; the store-buffer entry drains, the L1 copy leaves. -/
def MRun.line (x : MRun) (e : Env) (l : Layout) (kind level : Nat) (ln : Int) : MRun :=
  if x.bad.isSome then x
  else
    let va := 128 * ln
    match x.st.pageOk e l va (if kind = 0 then .rd else .wr) false with
    | (.error .notPresent, s1) => { x with st := s1 }
    | (.error c, s1) => { x with st := s1, bad := some (c, va) }
    | (.ok leaf, s1) =>
      let v := va.toNat
      let asid := effAsid e.ctx.asid v
      let held := (s1.sbAt e.core asid (v / 128)).isSome
      let s2 := s1.drainLine e.core asid (v / 128)
      let s3 := if kind = 0 then s2 else
        { s2.l1Drop e.core asid (v / 128) with
          l1fills := s2.l1fills.filter fun f => !(f.core = e.core && f.asid = asid && f.line = v / 128) }
      if level = 0 && !held then { x with st := s3 }
      else
        { x with st := s3, reqs := x.reqs ++
          [{ id := 0, core := e.core, wg := e.iss.wg, wave := e.iss.wave, lane := e.act.headD 0, op := 0, q := e.lead,
             ctx := e.ctx.num, asid := asid, va := v, line := v / 128, leaf := leaf, what := .maint kind level,
             lvl := .allocate, l1 := false, stamp := 0, word := e.iss.wordPc, who := maskOf e.act }] }

/-- Coordinates and extents of a maintenance word. -/
def Env.box (e : Env) (r : Nat) (b c : Byte) : List Int × List Nat :=
  ((List.range 5).map fun i => if i < r then signed 32 (e.w.s (b.toNat + i)).toNat else 0,
   (List.range 5).map fun i => if i < r then wfld (e.w.s (c.toNat + i)) 0 32 else 1)

def maintBody (kind : Nat) (f : GF) (e : Env) (s : State) : State :=
  s.form e f.a Layout.memory (fun r => coordRegs true f.b r ++ coordRegs true f.c r) fun l s =>
    if e.act = [] then s
    else
      let level := wfld (f.m.setWidth 64) 0 2
      let (c, box) := e.box l.rank.toNat f.b f.c
      let (lines, s1) := s.boxLines e l c box
      let r := lines.foldl (fun (x : MRun) ln => x.line e l kind level ln) { st := s1 }
      let (op, s2) := r.st.startOp e
        { id := 0, wg := 0, wave := 0, cnt := none, regs := [], ready := r.reqs = [], readyAt := s.clk + 8, maint := true,
          lanes := if r.reqs = [] then [] else
            [{ lane := e.act.headD 0, parts := r.reqs.length, w := 0, fmt := 0, ty := .b32, reg := .none, wide := false,
               who := maskOf e.act }] }
      let s3 := r.reqs.foldl (fun s x => s.sendReq { x with op := op }) s2
      match r.bad with
      | some (cs, va) => s3.laneTraps (e.act.map fun a => (a, cs, infoAt va (kind ≠ 0)))
      | none => s3

def maintUses (f : GF) : Uses := ⟨sregs f.a ++ [.s f.b.toNat, .s f.c.toNat], []⟩

def execClean (h : Hdr) (f : GF) (s : State) : Host.Outcome State Fault Refusal :=
  memWord h none (maintUses f) (maintBody 0 f) s
def execInval (h : Hdr) (f : GF) (s : State) : Host.Outcome State Fault Refusal :=
  memWord h none (maintUses f) (maintBody 1 f) s
def execClinv (h : Hdr) (f : GF) (s : State) : Host.Outcome State Fault Refusal :=
  memWord h none (maintUses f) (maintBody 2 f) s

/-! Layout entries (R262 to R264). -/

/-- The 512-bit number of eight scalar registers. -/
def Env.image (e : Env) (b : Byte) : BitVec 512 :=
  BitVec.ofNat 512 ((List.range 8).foldl (fun a i => a + (e.w.s (b.toNat + i)).toNat <<< (64 * i)) 0)

/-- LAYSET: the entry is checked and written, and leaves every core's cache. An instruction that reads the entry while the LAYSET
is in flight may use the old or the new one, whole (R130): the model gives it the new one (DESIGN CHOICE, log 85). -/
def laysetBody (f : GF) (e : Env) (s : State) : State :=
  if e.act = [] then s
  else
    let h := (e.uniform f.a).toNat
    let im := e.image f.b
    let code := if 4096 ≤ h then 1 else (layoutOf im).check e.ctx.world
    let s1 : State := if code ≠ 0 then s else
      let s0 := s.writePhysN (layVa e.ctx h) 64 im.toNat
      { s0 with layCache := s0.layCache.filter fun x => !(x.ctx = e.ctx.num && x.q = e.ctx.q && x.handle = h) }
    s1.quickOp e none 60 [.s f.d.toNat] [⟨.s f.d.toNat, 0, BitVec.ofNat 64 code⟩]

def execLayset (h : Hdr) (f : GF) (s : State) : Host.Outcome State Fault Refusal :=
  memWord h none ⟨sregs f.a ++ srunRegs f.b 8, [.s f.d.toNat]⟩ (laysetBody f) s

def laygetBody (f : GF) (e : Env) (s : State) : State :=
  let h := (e.uniform f.a).toNat
  if 4096 ≤ h then s.groupTrap .handle
  else if e.act = [] then s
  else
    let (im, s1) := s.layImage e.core e.ctx h
    s1.quickOp e (some .ld) 12 (srunRegs f.d 8)
      ((List.range 8).map fun i => ⟨.s (f.d.toNat + i), 0, im.extractLsb' (64 * i) 64⟩)

def execLayget (h : Hdr) (f : GF) (s : State) : Host.Outcome State Fault Refusal :=
  memWord h none ⟨sregs f.a, srunRegs f.d 8⟩ (laygetBody f) s

/-- Whether the page of an element, not its block's scale, could be loaded without a translation fault, the lode's own
included; nothing is installed there. -/
def State.mapped (s : State) (e : Env) (l : Layout) (c : List Int) : Bool × State :=
  if !l.memory then (true, s)
  else
    match s.memElem e { l with scaled := false } c true 8 .rd false e.ctx.system with
    | (.mem _ _ _ _ parts _, s1) =>
      (parts.all fun p =>
        let va := p.p.va
        let asid := effAsid e.ctx.asid va
        let lode := s1.homeOf e.lead va p.leaf
        if p.leaf.isReg then true
        else if p.leaf.so && !(match s1.contractAt e.lead asid va with
            | some k => k.kind = kPin
            | none => false) then false
        else (s1.tbFind lode asid va).isSome || (match (s1.walkInstall e.lead lode asid va).1 with
          | .fault _ => false
          | _ => true), s1)
    | (_, s1) => (false, s1)

def laychkBody (f : GF) (e : Env) (s : State) : State :=
  let give (s : State) (l : List (Nat × Bool)) : State :=
    if e.act = [] then s
    else s.quickOp e (some .ld) 12 [.p f.d.toNat] (l.map fun x => predWrite f.d.toNat x.1 x.2)
  match s.layMaybe e.core e.ctx (e.uniform f.a) with
  | (none, s1) => s1.groupTrap .handle
  | (some none, s1) => give s1 (e.act.map fun l => (l, false))
  | (some (some l), s1) =>
    s1.gate e (coordRegs false f.b l.rank.toNat) fun s =>
      if (coordRegs false f.b l.rank.toNat).any e.noReg then s.groupTrap .regrange else
      let (xs, s2) := e.act.foldl (fun (x : List (Nat × Bool) × State) lane =>
        let c := e.coords l.rank.toNat false f.b 0 lane
        if !l.inb c then (x.1 ++ [(lane, false)], x.2)
        else if !bitAt f.m 0 then (x.1 ++ [(lane, true)], x.2)
        else
          let (b, s') := x.2.mapped e l c
          (x.1 ++ [(lane, b)], s')) ([], s)
      give s2 xs

def execLaychk (h : Hdr) (f : GF) (s : State) : Host.Outcome State Fault Refusal :=
  memWord h none ⟨sregs f.a ++ [.v f.b.toNat], [.p f.d.toNat]⟩ (laychkBody f) s

/-! Atomics (R255 to R257). -/

/-- Data registers of an ATOM operation, and its result's. -/
def atomRegs (op : Nat) (k : Byte) : List Reg :=
  (List.range (if op = 12 then 4 else if op = 11 || atomWidth op = 64 then 2 else 1)).map fun i => .v (k.toNat + i)
def atomDst (op : Nat) (k : Byte) : List Reg := vregs (atomWidth op = 64) k

/-- The operand of an atomic, and the value it compares with. -/
def Env.atomArg (e : Env) (op : Nat) (k : Byte) (lane : Nat) : Nat × Nat :=
  let v (i : Nat) : Nat := (e.w.v (k.toNat + i) lane).toNat
  if op = 12 then (v 0 + v 1 <<< 32, v 2 + v 3 <<< 32)
  else if op = 11 then (v 0, v 1)
  else if atomWidth op = 64 then (v 0 + v 1 <<< 32, 0)
  else (v 0, 0)

/-- Lanes in the order in which those that name one element are performed: an open order where some do (R250). -/
def State.laneOrder (s : State) (xs : List (Nat × Elem)) (at_ : Elem → Nat × Nat) : List (Nat × Elem) × State :=
  let as_ := xs.map fun x => at_ x.2
  if (dedup as_).length = as_.length then (xs, s)
  else (sortBy (fun x => Config.laneKey s.free x.1) xs, { s with free := s.free + 1 })

/-- One lane of ATOM is sent: the buffer entry of its line drains and the L1 copy leaves (R117). -/
def State.sendAtom (s : State) (e : Env) (op n lane pol : Nat) (k : Byte) (x : Elem) : State :=
  match x with
  | .mem ba w _ leaf _ _ =>
    let va := ba / 8
    let asid := effAsid e.ctx.asid va
    let line := va / 128
    let (a, c) := e.atomArg op k lane
    let s1 := ((s.drainLine e.core asid line).l1Drop e.core asid line).voidFills e.core asid line s.nextId
    (s1.sendReq { id := 0, core := e.core, wg := e.iss.wg, wave := e.iss.wave, lane := lane, op := n, q := e.lead,
                  ctx := e.ctx.num, asid := asid, va := va, line := line, leaf := leaf,
                  what := .atomic op (ba % 1024) w (BitVec.ofNat 64 a) (BitVec.ofNat 64 c), lvl := hintOf pol, l1 := false,
                  stamp := 0, word := e.iss.wordPc, who := 1#64 <<< lane }).bump e.iss.wg e.iss.wave .st 1
  | _ => s

def State.sendAtoms (s : State) (e : Env) (f : MF) (l : Layout) : State :=
  let op := f.var.toNat % 16
  let w := atomWidth op
  let (xs, s1) := s.elemsOf e fun s lane =>
    s.elemOf e l (e.coords l.rank.toNat false f.k f.off lane) false w .rdwr true false
  let good := goodLanes xs
  let out := zeroLanes xs
  let ty : Ty := if w = 64 then .b64 else .b32
  let s3 := if good = [] && out = [] then s1
    else
      let (n, s2) := s1.startOp e
        { id := 0, wg := 0, wave := 0, cnt := some .ld, regs := atomDst op f.data, readyAt := s1.clk + 32,
          acq := if bitAt f.var 4 then some f.scope else none,
          lanes := (good.map fun x => { laneLoad ty (.v f.data.toNat) x.1 (1#64 <<< x.1) .zero with parts := 1, w := w })
            ++ out.map fun i => laneLoad ty (.v f.data.toNat) i (1#64 <<< i) .zero }
      let (order, s3) := s2.laneOrder good fun x => match x with
        | .mem ba _ _ _ _ _ => (0, ba)
        | _ => (0, 0)
      (order.foldl (fun s x => s.sendAtom e op n x.1 f.pol.toNat f.data x.2) s3).modResult n fun o => o.gathered s1.clk
  s3.laneTraps (badLanes xs)

def atomBody (f : MF) (e : Env) (s : State) : State :=
  s.form e f.h Layout.memory (coordRegs false f.k) fun l s =>
    if e.act = [] then s
    else if bitAt f.var 5 then s.release e f.scope 1 fun s => s.sendAtoms e f l
    else s.sendAtoms e f l

def execAtom (h : Hdr) (f : MF) (s : State) : Host.Outcome State Fault Refusal :=
  memWord h none ⟨sregs f.h ++ [.v f.k.toNat] ++ atomRegs (f.var.toNat % 16) f.data, atomDst (f.var.toNat % 16) f.data⟩
    (atomBody f) s

/-- One lane of ATOMS at the bank: the state, and the old value. -/
def State.bankAtom (s : State) (e : Env) (op : Nat) (k : Byte) (l : Layout) (lane : Nat) (x : Elem) : Nat × State :=
  match x with
  | .scr j ba w _ _ =>
    let old := (s.partOf e.iss.wg j).bits (some l) ba w
    let (a, c) := e.atomArg op k lane
    (old, (s.modPart e.iss.wg j fun p => p.setBits (some l) ba w (atomNew op old a c)).wakeBarriers e.iss.wg j)
  | _ => (0, s)

def atomsBody (f : MF) (e : Env) (s : State) : State :=
  let op := atomsOp (f.var.toNat % 8)
  s.form e f.h Layout.scratch (coordRegs false f.k) fun l s =>
    let (xs, s1) := s.elemsOf e fun s lane =>
      let (x, s1) := s.elemOf e l (e.coords l.rank.toNat false f.k f.off lane) false 32 .rdwr true false
      (x.ueOk e.wg l true, s1)
    let good := goodLanes xs
    let (order, s2) := s1.laneOrder good fun x => match x with
      | .scr j ba _ _ _ => (j, ba)
      | _ => (0, 0)
    let (vals, s3) := order.foldl (fun (a : List (Nat × Nat) × State) x =>
      let (o, s') := a.2.bankAtom e op f.data l x.1 x.2
      (a.1 ++ [(x.1, o)], s')) ([], s2)
    let all := vals ++ (zeroLanes xs).map fun i => (i, 0)
    let s4 := if all = [] then s3
      else s3.quickOp e (some .ld) (if l.space = 3 then 48 else 32) [.v f.data.toNat]
        (all.flatMap fun x => vecWrites false f.data.toNat x.1 x.2)
    s4.laneTraps (badLanes xs)

def execAtoms (h : Hdr) (f : MF) (s : State) : Host.Outcome State Fault Refusal :=
  memWord h none ⟨sregs f.h ++ [.v f.k.toNat] ++ atomRegs (atomsOp (f.var.toNat % 8)) f.data, [.v f.data.toNat]⟩
    (atomsBody f) s

end Sys2Proof.Machine
end

