-- ==== Sys2Proof/Machine/Contracts.lean ====
section
/-! DEFINITION. The class 4 words of group 5 at issue (R272 to R274): RESIDE, UNRESIDE and the key-value instructions,
with the exposure of the record that issues them (R360). -/
namespace Sys2Proof.Machine

/-- The record that issues a word whose effect cannot be undone becomes exposed; a replay's audit is voided (R360, R363). -/
def State.exposeBy (s : State) (e : Env) : State :=
  match s.recOfWg e.iss.wg with
  | none => s
  | some r => if r.isReplay then s.voidAudit r else s.expose r.id

/-! Contracts (R272). -/

/-- BAD_RANGE of R272. -/
def badRange (base : Word) (pages : Nat) : Bool :=
  let b := base.toNat
  let stop := b + 65536 * pages
  b % 65536 ≠ 0 || 2 ^ 57 ≤ b || pages = 0 || 2 ^ 24 < pages || 2 ^ 57 < stop || (b < 2 ^ 56 && 2 ^ 56 < stop)

/-- A contract word: its request goes to the contract lode, or is answered BAD_RANGE at once. The manual leaves open whether
that answer counts in CT_STAT.denied: R79, which says what is denied, has no such code, and it does not count (DESIGN CHOICE,
log 80). -/
def ctrBody (kind : Option Nat) (f : GF) (e : Env) (s : State) : State :=
  if e.act = [] then s
  else
    let base := e.uniform f.a
    let pages := if kind.isSome then (e.uniform f.b).toNat else 1
    let s0 := s.exposeBy e
    if badRange base pages then
      s0.quickOp e (some .ctr) 40 [.s f.d.toNat] [⟨.s f.d.toNat, 0, 6⟩]
    else
      let (res, s1) := s0.startOp e { id := 0, wg := 0, wave := 0, cnt := some .ctr, regs := [.s f.d.toNat] }
      let (n, s2) := s1.fresh
      { s2 with ctrReqs := s2.ctrReqs ++
          [{ id := n, res := res, q := e.lead, ctx := e.ctx.num, asid := effAsid e.ctx.asid base.toNat, world := e.ctx.world,
             save := e.ctx.save, kind := kind, base := base.toNat, pages := pages }] }

def execReside (h : Hdr) (f : GF) (s : State) : Host.Outcome State Fault Refusal :=
  memWord h none ⟨sregs f.a ++ sregs f.b, [.s f.d.toNat]⟩ (ctrBody (some (wfld (f.m.setWidth 64) 0 2)) f) s
def execUnreside (h : Hdr) (f : GF) (s : State) : Host.Outcome State Fault Refusal :=
  memWord h none ⟨sregs f.a, [.s f.d.toNat]⟩ (ctrBody none f) s

/-! Key-value instructions (R273, R274). -/

def kvUses (f : GF) (buf : Bool) : Uses :=
  ⟨sregs f.a ++ (if buf then sregs f.b ++ sregs f.c else []), [.s f.d.toNat]⟩

/-- A key-value operation on its way to its home. -/
def State.sendKv (s : State) (e : Env) (f : GF) (op : KvOp) : State :=
  let (res, s1) := s.startOp e { id := 0, wg := 0, wave := 0, cnt := some .lode, regs := [.s f.d.toNat] }
  let (n, s2) := s1.fresh
  { s2 with kvReqs := s2.kvReqs ++
      [⟨n, res, e.iss.wg, e.part, e.lead, e.ctx.num, e.ctx.asid, e.uniform f.a, op, (e.wg.part e.part).gen, e.ctx.save,
        s2.kvLodes e.lead = []⟩] }

/-- A word with a buffer: BAD_LEN first, then R247 check 4. A KVPUT that issues exposes its record whatever its answer (R360). -/
def kvBuffer (f : GF) (e : Env) (s : State) (put : Bool) (go : State → Nat → Nat → State) : State :=
  let s0 := if put && e.act ≠ [] then s.exposeBy e else s
  let buf := (e.uniform f.b).toNat
  let len := (e.uniform f.c).toNat
  if len = 0 || 4096 < len then
    (if e.act = [] then s else s0.quickOp e (some .lode) 24 [.s f.d.toNat] [⟨.s f.d.toNat, 0, 4⟩])
  else if (e.wg.part e.part).scrBytes < buf + len || 0x800000 < buf + len then s.groupTrap .scratchRange
  else if e.act = [] then s
  else go s0 buf len

def execKvget (h : Hdr) (f : GF) (s : State) : Host.Outcome State Fault Refusal :=
  memWord h none (kvUses f true) (fun e s => kvBuffer f e s false fun s buf len => s.sendKv e f (.get buf len)) s
def execKvput (h : Hdr) (f : GF) (s : State) : Host.Outcome State Fault Refusal :=
  memWord h none (kvUses f true) (fun e s => kvBuffer f e s true fun s buf len =>
    s.sendKv e f (.put buf len (wfld (f.m.setWidth 64) 0 2))) s
def execKvpin (h : Hdr) (f : GF) (s : State) : Host.Outcome State Fault Refusal :=
  memWord h none (kvUses f false) (fun e s => if e.act = [] then s else s.sendKv e f (.pin (bitAt f.m 0))) s
def execKvdrop (h : Hdr) (f : GF) (s : State) : Host.Outcome State Fault Refusal :=
  memWord h none (kvUses f false) (fun e s => if e.act = [] then s else (s.exposeBy e).sendKv e f .drop) s

end Sys2Proof.Machine
end

