-- ==== Sys2Proof/Machine/Control.lean ====
section
/-! DEFINITION. Group 0 (R195 to R219): branches and calls, meeting, ends and waits, sets, rods, registers, tasks,
non-pre-emptible regions, the control and status registers, PTSYNC. A thread of the issue group that is not active runs
to the end of the clause (`step`). -/
namespace Sys2Proof.Machine

/-- A word that may stand beside an incomplete acquire: class 5 (R259). -/
def ctlWord (h : Hdr) (u : Uses) (body : Env → State → State) (s : State) : Host.Outcome State Fault Refusal :=
  word h none u body s

/-! Branches and calls (R197 to R199). -/

/-- Threads leave the clause for their targets; a target outside the address space raises RANGE in its lane. -/
def State.branch (s : State) (e : Env) (tg : Nat → Int) (link : Nat → List RegWrite) : State :=
  let ok (l : Nat) : Bool := decide (0 ≤ tg l) && decide (tg l < 2 ^ 57)
  let go := e.act.filter ok
  let s1 := ((s.leaveClause (maskOf go)).now e fun w =>
    w.modLanes (maskOf go) fun l t => { t with pc := pcAt (BitVec.ofInt 57 (tg l)) }).later e 1 (go.flatMap link)
  (s1.settle e.iss.wg e.iss.wave).laneTraps ((e.act.filter fun l => !ok l).map fun l => (l, .range, infoAt (tg l) false))

/-- Target of an immediate, A + 8·imm. -/
def Env.immTarget (e : Env) (imm : BitVec 30) : Int := e.iss.addr.toNat + 8 * imm.toInt
/-- Target held in a scalar slot or a vector pair. -/
def Env.regTarget (e : Env) (sc : Bool) (x : Byte) (l : Nat) : Int :=
  if sc then ((e.uniform x).toNat : Int) else (e.vec .b64 x l : Int)

def execBra (h : Hdr) (f : IF) (s : State) : Host.Outcome State Fault Refusal :=
  ctlWord h {} (fun e s => s.branch e (fun _ => e.immTarget f.imm) fun _ => []) s

def targetRegs (f : GF) : List Reg := if bitAt f.m 0 then sregs f.a else vregs true f.a

def execBrx (h : Hdr) (f : GF) (s : State) : Host.Outcome State Fault Refusal :=
  ctlWord h ⟨targetRegs f, []⟩ (fun e s => s.branch e (e.regTarget (bitAt f.m 0) f.a) fun _ => []) s

/-- The link: nxt in an even pair (R198). -/
def Env.link (e : Env) (d : Byte) (l : Nat) : List RegWrite := vecWrites true d.toNat l (e.iss.nxt % 2 ^ 57)

def execCall (h : Hdr) (f : IF) (s : State) : Host.Outcome State Fault Refusal :=
  ctlWord h ⟨[], vregs true f.d⟩ (fun e s => s.branch e (fun _ => e.immTarget f.imm) (e.link f.d)) s
def execCallx (h : Hdr) (f : GF) (s : State) : Host.Outcome State Fault Refusal :=
  ctlWord h ⟨targetRegs f, vregs true f.d⟩ (fun e s => s.branch e (e.regTarget (bitAt f.m 0) f.a) (e.link f.d)) s
def execRet (h : Hdr) (f : GF) (s : State) : Host.Outcome State Fault Refusal :=
  ctlWord h ⟨vregs true f.a, []⟩ (fun e s => s.branch e (e.regTarget false f.a) fun _ => []) s

/-! Meeting and exit (R200, R201). -/

/-- Pending writes that carry the value before, for reads of THR_MEET or THR_SETS within 4 clk. -/
def Env.before (e : Env) (sets : Bool) : List RegWrite :=
  e.act.map fun l =>
    let t := e.w.thread l
    ⟨.m sets, l, if sets then t.sets.setWidth 64 else BitVec.ofNat 64 t.meet.image⟩

/-- A change of the active threads' meeting registers or sets: in force at once, with its tests. -/
def State.regroup (s : State) (e : Env) (sets : Bool) (f : Thread → Thread) : State :=
  let s1 := ((s.later e 4 (e.before sets)).now e fun w => w.modLanes (maskOf e.act) fun _ t => f t).settle e.iss.wg e.iss.wave
  if sets && e.act ≠ [] then s1.rodsTest e.iss.wg else s1

/-- MEET: a target outside the address space is known from the word alone, so that it traps before anything the word reads
is waited for (R182, R200, R337). -/
def execMeet (h : Hdr) (f : IF) (s : State) : Host.Outcome State Fault Refusal :=
  match s.env? h with
  | none => .fault .noIssue
  | some e =>
    let t := e.immTarget f.imm
    if t < 0 ∨ 2 ^ 57 ≤ t then .next (s.groupTrap .illegalEnc)
    else ctlWord h {} (fun e s => s.regroup e false fun x => { x with meet := ⟨BitVec.ofInt 57 t, true⟩ }) s

def execUnmeet (h : Hdr) (_ : GF) (s : State) : Host.Outcome State Fault Refusal :=
  ctlWord h {} (fun e s => s.regroup e false fun x => { x with meet := { x.meet with valid := false } }) s

/-- Threads exit; their absence may complete a meeting or a rod. The end of the wave follows in `settleAll`. -/
def execExit (h : Hdr) (_ : GF) (s : State) : Host.Outcome State Fault Refusal :=
  ctlWord h {} (fun e s =>
    if e.act = [] then s
    else
      let g := maskOf e.act
      (((s.leaveClause g).now e fun w => w.modLanes g fun _ t => { t with status := .exited }).settle e.iss.wg e.iss.wave).rodsTest
        e.iss.wg) s

/-! Waiting and stopping (R202 to R206). -/

/-- NOP (R202): a free issue slot. -/
def execNop (h : Hdr) (_ : GF) (s : State) : Host.Outcome State Fault Refusal := ctlWord h {} (fun _ s => s) s

def execYieldW (h : Hdr) (_ : GF) (s : State) : Host.Outcome State Fault Refusal :=
  ctlWord h {} (fun e s => if e.act = [] then s else s.now e fun w => { w with yieldTo := some (s.clk + 64) }) s

/-- Active threads wait, standing at the next clause. -/
def State.await (s : State) (e : Env) (on : WaitOn) : State :=
  let g := maskOf e.act
  ((s.leaveClause g).now e fun w => w.modLanes g fun _ t => { t with pc := e.iss.nxtPc, status := .waiting, waitOn := on }).settle
    e.iss.wg e.iss.wave

def execSleep (h : Hdr) (f : IF) (s : State) : Host.Outcome State Fault Refusal :=
  ctlWord h {} (fun e s => s.await e (.sleep (s.clk + f.imm.toNat))) s

/-- Active threads take a trap whose pc is nxt and whose information is a code (R205). -/
def State.codeTrap (s : State) (e : Env) (c : Cause) (code : Word) : State :=
  if e.act = [] then s else s.takeTrap e.iss.wg e.iss.wave (e.act.map fun l => (l, c, code)) (fun _ => e.iss.nxtPc) none false

def execBkpt (h : Hdr) (f : IF) (s : State) : Host.Outcome State Fault Refusal :=
  ctlWord h {} (fun e s => s.codeTrap e .breakpoint (f.imm.setWidth 64 &&& 0xFFFF)) s
def execTrap (h : Hdr) (f : IF) (s : State) : Host.Outcome State Fault Refusal :=
  ctlWord h {} (fun e s => s.codeTrap e .software (f.imm.setWidth 64 &&& 0xFFFF)) s

/-- TRAPRET (R206, R342): handler threads return; another active thread traps ILLEGAL_STATE at the header. -/
def execTrapret (h : Hdr) (_ : GF) (s : State) : Host.Outcome State Fault Refusal :=
  ctlWord h {} (fun e s =>
    let back := e.act.filter fun l => (e.w.thread l).active
    let bad := e.act.filter fun l => !(e.w.thread l).active
    let g := maskOf back
    let s1 := ((s.leaveClause g).now e fun w => w.modLanes g fun _ t => t.leave).settle e.iss.wg e.iss.wave
    if bad = [] then s1
    else s1.takeTrap e.iss.wg e.iss.wave (bad.map fun l => (l, .illegalState, e.iss.word)) (fun _ => pcAt e.iss.addr) none false) s

/-! Sets and rods (R207, R208). -/

def setJoin (k : Nat) (t : Thread) : Thread := { t with sets := t.sets ||| (1#32 <<< k) }
def setLeave (k : Nat) (t : Thread) : Thread := { t with sets := t.sets &&& ~~~(1#32 <<< k) }

def joinBody (k : Nat) (e : Env) (s : State) : State :=
  if 32 ≤ k then s.groupTrap .setArg else s.regroup e true (setJoin k)
def leaveBody (k : Nat) (e : Env) (s : State) : State :=
  if 32 ≤ k || k = 0 then s.groupTrap .setArg else s.regroup e true (setLeave k)

def execJoinImm (h : Hdr) (f : IF) (s : State) : Host.Outcome State Fault Refusal :=
  ctlWord h {} (joinBody f.imm.toNat) s
def execJoinReg (h : Hdr) (f : GF) (s : State) : Host.Outcome State Fault Refusal :=
  ctlWord h ⟨sregs f.a, []⟩ (fun e s => joinBody (e.uniform f.a).toNat e s) s
def execLeaveImm (h : Hdr) (f : IF) (s : State) : Host.Outcome State Fault Refusal :=
  ctlWord h {} (leaveBody f.imm.toNat) s
def execLeaveReg (h : Hdr) (f : GF) (s : State) : Host.Outcome State Fault Refusal :=
  ctlWord h ⟨sregs f.a, []⟩ (fun e s => leaveBody (e.uniform f.a).toNat e s) s

def setinfoBody (f : GF) (e : Env) (s : State) : State :=
  let r := wfld (f.m.setWidth 64) 0 4
  let bind : Option (Nat × Nat) :=
    if bitAt f.m 12 then none else some (wfld (f.m.setWidth 64) 4 5, wfld (f.m.setWidth 64) 9 3)
  let rod := e.wg.rod r
  let far : Bool := match bind with
    | some (_, j) => e.wg.parts.length ≤ j
    | none => false
  if e.act = [] then s
  else if far || (rod.beads ≠ [] && rod.bound ≠ bind) then s.stateTrap .rod e.act
  else if rod.bound = bind then s
  else s.modRod e.iss.wg r fun _ => { bound := bind }

def execSetinfo (h : Hdr) (f : GF) (s : State) : Host.Outcome State Fault Refusal := ctlWord h {} (setinfoBody f) s

/-! Registers (R166 to R168, R209). -/

/-- Registers a wave will hold when its gives have taken effect. -/
def Wave.net (w : Wave) : Nat := w.n - w.gives.foldl (fun a g => a + g.1) 0

/-- Whether a register at or above `k` has a write pending. -/
def Wave.pendingFrom (w : Wave) (k : Nat) : Bool :=
  let high (r : Reg) : Bool := match r with
    | .v i => k ≤ i
    | _ => false
  w.pend.any (fun p => high p.w.reg) || w.marks.any fun m => high m.1

def badCount (n : Nat) : Bool := n = 0 || n % 4 ≠ 0

def reggiveBody (n : Nat) (e : Env) (s : State) : State :=
  if badCount n then s.groupTrap .regCount
  else if e.act = [] then s
  else if e.w.net < n + 4 then s.stateTrap .regCount e.act
  else if e.w.pendingFrom (e.w.net - n) then s.stateTrap .regrange e.act
  else s.now e fun w => { w with gives := w.gives ++ [(n, s.clk + 4)] }

def execReggive (h : Hdr) (f : IF) (s : State) : Host.Outcome State Fault Refusal :=
  ctlWord h {} (reggiveBody f.imm.toNat) s

/-- Queued claims of a part are granted in order while spare reaches. -/
def State.grantClaims (s : State) (wg p : Nat) : Nat → State
  | 0 => s
  | fuel + 1 =>
    match s.wg? wg with
    | none => s
    | some w =>
      match (w.part p).claims with
      | [] => s
      | c :: rest =>
        if (w.part p).spare < c.n then s
        else
          let s1 := s.modPart wg p fun x => { x with spare := x.spare - c.n, claims := rest }
          let s2 := s1.modWave wg c.wave fun v =>
            let v1 := { v with n := v.n + c.n, vregs := SMap.drop (fun k => 64 * v.n ≤ k && k < 64 * (v.n + c.n)) v.vregs }
            v1.modLanes c.lanes fun _ t =>
              if t.status = .waiting && t.waitOn = .claim then { t with status := .eligible, waitOn := .none } else t
          (s2.settle wg c.wave).grantClaims wg p fuel

/-- The bound is on the registers the wave holds: a give counts from when it takes effect (R167, R209). -/
def regclaimBody (n : Nat) (e : Env) (s : State) : State :=
  let budget := (e.wg.part e.part).budget
  if badCount n then s.groupTrap .regCount
  else if e.act = [] then s
  else if min 256 budget < e.w.n + n then s.stateTrap .regCount e.act
  else
    let g := e.iss.group
    let c : Claim := ⟨e.iss.wave, n, g, e.iss.word, e.iss.addr, BitVec.ofNat 4 e.iss.idx⟩
    let s1 := (s.leaveClause g).now e fun w => w.modLanes g fun _ t =>
      { t with pc := e.iss.nxtPc, status := .waiting, waitOn := .claim }
    ((s1.modPart e.iss.wg e.part fun p => { p with claims := p.claims ++ [c] }).grantClaims e.iss.wg e.part 1024).settle e.iss.wg e.iss.wave

def execRegclaim (h : Hdr) (f : IF) (s : State) : Host.Outcome State Fault Refusal :=
  ctlWord h {} (regclaimBody f.imm.toNat) s

/-- Gives whose 4 clk have passed take effect: the registers leave the wave and join spare (R167, R209). -/
def State.applyGives (s : State) : State :=
  s.wgs.foldl (fun s g =>
    (List.range g.waves.length).foldl (fun s k =>
      match s.wave? g.id k with
      | none => s
      | some v =>
        let due := v.gives.filter fun x => x.2 ≤ s.clk
        if due = [] then s
        else
          let n := due.foldl (fun a x => a + x.1) 0
          let s1 := s.modWave g.id k fun v =>
            { v with n := v.n - n, gives := v.gives.filter fun x => s.clk < x.2,
                     vregs := SMap.drop (fun i => 64 * (v.n - n) ≤ i && i < 64 * v.n) v.vregs }
          (s1.modPart g.id (g.partOf k) fun p => { p with spare := p.spare + n }).grantClaims g.id (g.partOf k) 1024) s) s

/-- A REGISTER DEADLOCK (R168): every wave of the workgroup on the part that has not ended waits in REGCLAIM and the head of
the queue exceeds spare. A wave whose threads have exited while operations of it run has not ended: its registers are still
to come to spare (R201, R335). -/
def State.deadlocked (s : State) (w : Workgroup) (p : Nat) : Bool :=
  let part := w.part p
  match part.claims with
  | [] => false
  | c :: _ =>
    part.spare < c.n && (w.wavesOfPart p).all fun k =>
      match w.waves[k]? with
      | none => true
      | some v => v.ended
          || (part.claims.any (fun c => c.wave = k) && v.threads.all (fun t => t.status ≠ .eligible && t.status ≠ .held)
            && s.runningLanes w.id k = 0)

/-- Every queued claim traps, in all the threads that issued it, parked ones among them. -/
def State.regDeadlock (s : State) (wg p : Nat) : State :=
  match s.wg? wg with
  | none => s
  | some w =>
    if w.fate ≠ .ending && s.deadlocked w p then
      let cs := (w.part p).claims
      let s1 := (s.modPart wg p fun x => { x with claims := [], deadAt := none }).incRf (rCORE_REGPOOL (w.part p).core) 48 16
      cs.foldl (fun s c => s.takeTrap wg c.wave (((lanesOf c.lanes).filter fun l =>
          match s.wave? wg c.wave with
          | some v => (v.thread l).status = .waiting || (v.thread l).status = .parked
          | none => false).map fun l => (l, .regDeadlock, c.word)) (fun _ => ⟨c.hdr, c.idx, true⟩) none false) s1
    else s

/-- The clk since which a register deadlock has stood is kept for each part (R335). -/
def State.noteDead (s : State) : State :=
  { s with wgs := s.wgs.map fun w => { w with parts := w.parts.zipIdx.map fun (x : Part × Nat) =>
      { x.1 with deadAt := if w.fate ≠ .ending && s.deadlocked w x.2 then some (x.1.deadAt.getD s.clk) else none } } }

/-- Before time passes to clk `t`, every deadlock is reported whose 16 clk will then have passed (R335). -/
def State.deadBy (s : State) (t : Nat) : State :=
  s.wgs.foldl (fun s w => (w.parts.zipIdx).foldl (fun s x =>
    if x.1.deadAt.any (fun d => d + 16 ≤ t) then s.regDeadlock w.id x.2 else s) s) s

def execRegDeadlock (wg part : Nat) (s : State) : Host.Outcome State Fault Refusal := .next (s.regDeadlock wg part)

/-! Tasks (R210, R211). -/

/-- A word that releases at dev scope over every path, host writes included, and then reaches the queue engine. -/
def State.releaseAll (s : State) (e : Env) (k : State → State) : State :=
  (if s.hostIdle e.lead e.ctx.asid then s else s.flushHost e.lead e.ctx.asid).release e 5 31 k

def execSpawn (h : Hdr) (f : GF) (s : State) : Host.Outcome State Fault Refusal :=
  ctlWord h ⟨sregs f.a ++ srunRegs f.b 8, [.s f.d.toNat]⟩ (fun e s =>
    if e.act = [] then s
    else s.releaseAll e fun s =>
      match (s.exposeBy e).spawnOp e.ctx (e.uniform f.a) (e.image f.b) with
      | (none, s1) => s1.hold
      | (some st, s1) => s1.quickOp e (some .sys) 240 [.s f.d.toNat] [⟨.s f.d.toNat, 0, st⟩]) s

def execJdec (h : Hdr) (f : GF) (s : State) : Host.Outcome State Fault Refusal :=
  ctlWord h ⟨sregs f.a ++ sregs f.b, [.s f.d.toNat]⟩ (fun e s =>
    if e.act = [] then s
    else s.releaseAll e fun s =>
      match (s.exposeBy e).jdecOp e.ctx (e.uniform f.a) (e.uniform f.b).toNat with
      | (none, s1) => s1.hold
      | (some st, s1) => s1.quickOp e (some .sys) 240 [.s f.d.toNat] [⟨.s f.d.toNat, 0, st⟩]) s

/-! Non-pre-emptible regions (R213). -/

def npStatus (e : Env) (broken : Bool) : Word :=
  BitVec.ofNat 64 ((if e.wg.npReq.isSome then 1 else 0) + (if broken then 2 else 0))

def execNpreempt (h : Hdr) (f : GF) (s : State) : Host.Outcome State Fault Refusal :=
  ctlWord h ⟨[], [.s f.d.toNat]⟩ (fun e s =>
    if e.act = [] then s
    else
      let s1 := if e.w.region then s else s.now e fun w => { w with region := true, broken := false }
      s1.quickOp e none 8 [.s f.d.toNat] [⟨.s f.d.toNat, 0, npStatus e (e.w.region && e.w.broken)⟩]) s

/-- PREEMPTOK: where it ends the workgroup's region, a waiting pre-emption proceeds (`settleAll`). -/
def execPreemptok (h : Hdr) (f : GF) (s : State) : Host.Outcome State Fault Refusal :=
  ctlWord h ⟨[], [.s f.d.toNat]⟩ (fun e s =>
    if e.act = [] then s
    else (s.now e fun w => { w with region := false, broken := false }).quickOp e none 8 [.s f.d.toNat]
      [⟨.s f.d.toNat, 0, npStatus e e.w.broken⟩]) s

/-! Control and status registers (R214 to R216, R344). -/

/-- What a CSR number names: a thread register, or the offset of a core register in its block. -/
inductive Csr where
  | thread (k : Nat) | core (o : Nat) | none
  deriving DecidableEq, Repr

def csrOf (n : Nat) : Csr :=
  if n < 5 then .thread n
  else if 0x100 ≤ n ∧ n < 0x200 ∧ blkHas .core (8 * (n - 0x100)) then .core (8 * (n - 0x100))
  else .none

def csrNum (f : IF) : Nat := f.imm.toNat % 4096
def csrOld (f : IF) : Bool := bitAt f.imm 12

/-- The value of a thread register in a lane; a change of meet or sets within 4 clk still shows the value before. -/
def Wave.csr (w : Wave) (k l : Nat) : Word :=
  let t := w.thread l
  let old (sets : Bool) (now : Word) : Word :=
    ((w.pend.find? fun p => p.w.reg = .m sets && p.w.lane = l).map fun p => p.w.val).getD now
  match k with
  | 0 => BitVec.ofNat 64 (causeBits t)
  | 1 => t.tpc.image
  | 2 => t.tinfo
  | 3 => old false (BitVec.ofNat 64 t.meet.image)
  | _ => old true (t.sets.setWidth 64)

/-- Registers a CSR word reads and writes beside its operand. -/
def csrRd (f : IF) : List Reg :=
  match csrOf (csrNum f) with
  | .thread 3 => [.m false]
  | .thread 4 => [.m true]
  | _ => []
def csrDst (f : IF) : List Reg := if (csrNum f) < 0x100 then vregs true f.d else [.s f.d.toNat]

def csrrdBody (f : IF) (e : Env) (s : State) : State :=
  match csrOf (csrNum f) with
  | .none => s.groupTrap .csrArg
  | .thread k =>
    if e.act = [] then s
    else s.quickOp e (some .sys) 6 (vregs true f.d) (e.act.flatMap fun l => vecWrites true f.d.toNat l (e.w.csr k l).toNat)
  | .core o =>
    if !e.ctx.system then s.groupTrap .priv
    else if e.act = [] then s
    else s.quickOp e (some .sys) 20 [.s f.d.toNat] [⟨.s f.d.toNat, 0, s.regRead (rPOOL_REG_TOP e.core + o)⟩]

def execCsrrd (h : Hdr) (f : IF) (s : State) : Host.Outcome State Fault Refusal :=
  ctlWord h ⟨csrRd f, csrDst f⟩ (csrrdBody f) s

/-- A value with every field that is not RW or RWS at 0 (R215). -/
def keepRw (o : Nat) (v : Word) : Word :=
  (blkFields .core o).foldl (fun a x => match x.acc with
    | .rw | .rws => a ||| (v &&& wmask x.lo x.n)
    | _ => a) 0

/-- The new value of a CSR write: 0 CSRWR, 1 CSRSET, 2 CSRCLR. -/
def csrNew (kind : Nat) (old v : Word) : Word :=
  match kind with
  | 0 => v
  | 1 => old ||| v
  | _ => old &&& ~~~v

def csrwBody (kind : Nat) (f : IF) (e : Env) (s : State) : State :=
  match csrOf (csrNum f) with
  | .none => s.groupTrap .csrArg
  | .thread k =>
    if k ≠ 1 then s.groupTrap .csrArg
    else if e.act = [] then s
    else
      let val (l : Nat) : Word := csrNew kind (e.w.csr 1 l) (BitVec.ofNat 64 (e.vec .b64 f.a l))
      let s1 := s.now e fun w => w.modLanes (maskOf e.act) fun l t => { t with tpc := .ofImage (val l) }
      if csrOld f then
        s1.quickOp e none 24 (vregs true f.d) (e.act.flatMap fun l => vecWrites true f.d.toNat l (e.w.csr 1 l).toNat)
      else s1
  | .core o =>
    if !e.ctx.system then s.groupTrap .priv
    else if e.act = [] then s
    else
      let a := rPOOL_REG_TOP e.core + o
      let old := s.regRead a
      let v := csrNew kind old (e.uniform f.a)
      let s1 := s.regWrite a (if kind = 0 then v else keepRw o v) e.ctx.world
      if csrOld f then s1.quickOp e none 24 [.s f.d.toNat] [⟨.s f.d.toNat, 0, old⟩] else s1

def csrwUses (f : IF) : Uses :=
  ⟨if (csrNum f) < 0x100 then vregs true f.a else sregs f.a, if csrOld f then csrDst f else []⟩

def execCsrwr (h : Hdr) (f : IF) (s : State) : Host.Outcome State Fault Refusal := ctlWord h (csrwUses f) (csrwBody 0 f) s
def execCsrset (h : Hdr) (f : IF) (s : State) : Host.Outcome State Fault Refusal := ctlWord h (csrwUses f) (csrwBody 1 f) s
def execCsrclr (h : Hdr) (f : IF) (s : State) : Host.Outcome State Fault Refusal := ctlWord h (csrwUses f) (csrwBody 2 f) s

/-! PTSYNC (R217). -/

def execPtsync (h : Hdr) (_ : GF) (s : State) : Host.Outcome State Fault Refusal :=
  ctlWord h {} (fun e s =>
    if e.act = [] then s
    else
      let (n, s1) := (s.drainCore e.core).fresh
      s1.await e (.ptsync n)) s

/-! An opcode that is not assigned (R184). -/

def execIllegalOpcode (_ : Word) (s : State) : Host.Outcome State Fault Refusal :=
  match s.head with
  | none => .fault .noIssue
  | some _ => .next (s.groupTrap .illegalOpcode)

end Sys2Proof.Machine
end

