-- ==== Sys2Proof/Machine/Uses.lean ====
section
/-! DEFINITION. The registers an instruction word names, as choosing a clause reads them (R158, R187). Coordinate
registers beyond the first are known only with the layout entry that the word's handle names. -/
namespace Sys2Proof.Machine

/-- Two sources, one source, and three, of an arithmetic word whose destination has the width of its type. -/
def AF.uses1 (f : AF) : Uses := afUses f (.reg f.w) f.src .unused .unused
def AF.uses2 (f : AF) : Uses := afUses f (.reg f.w) f.src f.src .unused
def AF.uses3 (f : AF) : Uses := afUses f (.reg f.w) f.src f.src f.src
/-- Forms with a 32-bit destination, with a predicate destination, and of one vector source. -/
def AF.usesN (f : AF) (b c : SrcUse) : Uses := afUses f (.reg false) f.src b c
def AF.usesP (f : AF) : Uses := afUses f .pred f.src f.src .unused
def AF.usesV (f : AF) (b : SrcUse) : Uses := afUses f (.reg f.w) (.vec f.w) b .unused
def AF.usesC (f : AF) (top : Nat) : Uses :=
  afUses f (.reg (fmt64 f.b.toNat)) (.reg (fmt64 f.c.toNat) (fmtFlt f.c.toNat)) (.code top) (.code top)

/-- The registers of an instruction; an event names none. -/
def usesOf : Instr → Uses
  | .brx _ f => ⟨targetRegs f, []⟩
  | .call _ f => ⟨[], vregs true f.d⟩
  | .callx _ f => ⟨targetRegs f, vregs true f.d⟩
  | .ret _ f => ⟨vregs true f.a, []⟩
  | .joinReg _ f | .leaveReg _ f => ⟨sregs f.a, []⟩
  | .spawn _ f => ⟨sregs f.a ++ srunRegs f.b 8, [.s f.d.toNat]⟩
  | .jdec _ f => ⟨sregs f.a ++ sregs f.b, [.s f.d.toNat]⟩
  | .npreempt _ f | .preemptok _ f | .copyq _ f => ⟨[], [.s f.d.toNat]⟩
  | .csrrd _ f => ⟨csrRd f, csrDst f⟩
  | .csrwr _ f | .csrset _ f | .csrclr _ f => csrwUses f
  | .iadd _ f | .isub _ f | .imul _ f | .imulh _ f | .imin _ f | .imax _ f | .and _ f | .or _ f | .xor _ f => AF.uses2 f
  | .fadd _ f | .fsub _ f | .fmul _ f | .fmin _ f | .fmax _ f | .fdivs _ f => AF.uses2 f
  | .iabs _ f | .ineg _ f | .not _ f | .brev _ f | .mov _ f | .frnd _ f => AF.uses1 f
  | .iaddc _ f => afUses f (.reg true) f.src f.src f.src
  | .imad _ f =>
    let w := (if bitAt f.m 0 then wideTy f.ty else f.ty).is64
    afUses f (.reg w) f.src f.src (.reg w false)
  | .shl _ f | .shr _ f | .sar _ f | .rot _ f | .bfe _ f => afUses f (.reg f.w) f.src (.reg false false) .unused
  | .bfi _ f => afUses f (.reg f.w) f.src (.reg false false) f.src
  | .popc _ f | .clz _ f | .fclass _ f | .frcp _ f | .frsq _ f | .fsqrt _ f | .fex2 _ f | .flg2 _ f | .fsin _ f
  | .fcos _ f | .unpk _ f | .sllvl _ f => AF.usesN f .unused .unused
  | .dot2 _ f | .dot4 _ f => AF.usesN f f.src f.src
  | .icmp _ f | .fcmp _ f | .slcmp _ f => AF.usesP f
  | .sel _ f => afUses f (.reg f.w) f.src f.src .pred
  | .moviImm _ f => ⟨[], if 128 ≤ f.a.toNat then sregs f.d else [.v f.d.toNat]⟩
  | .moviLit _ f =>
    let d : List Reg := if bitAt f.sel 5 then sregs f.d else [.v f.d.toNat]
    ⟨if bitAt f.sel 3 then d else [], d⟩
  | .bcast _ f | .readlane _ f | .shfl _ f => AF.usesV f (.reg false false)
  | .wred _ f | .scan _ f => AF.usesV f .unused
  | .vote _ f => afUses f (.reg (f.mlo 1 0 = 3)) .pred .unused .unused
  | .ffma _ f => AF.uses3 f
  | .cvt _ f => AF.usesC f 20
  | .slcvt _ f => AF.usesC f 22
  | .pack _ f => afUses f (.reg false) (.reg false f.ty.isFloat) (.reg false f.ty.isFloat) .unused
  | .sladd _ f | .slsub _ f | .slmul _ f | .sldiv _ f => AF.usesN f f.src .unused
  | .slflg _ f => afUses f (.reg false) (if f.mlo 1 0 = 0 then .unused else .reg false false) .unused .unused
  | .ld _ f => ldUses f
  | .lds _ f => ldsUses f
  | .st _ f => stUses f
  | .pref _ f => ⟨sregs f.h ++ [.v f.k.toNat], []⟩
  | .clean _ f | .inval _ f | .clinv _ f => maintUses f
  | .layset _ f => ⟨sregs f.a ++ srunRegs f.b 8, [.s f.d.toNat]⟩
  | .layget _ f => ⟨sregs f.a, srunRegs f.d 8⟩
  | .laychk _ f => ⟨sregs f.a ++ [.v f.b.toNat], [.p f.d.toNat]⟩
  | .atom _ f => ⟨sregs f.h ++ [.v f.k.toNat] ++ atomRegs (f.var.toNat % 16) f.data, atomDst (f.var.toNat % 16) f.data⟩
  | .atoms _ f => ⟨sregs f.h ++ [.v f.k.toNat] ++ atomRegs (atomsOp (f.var.toNat % 8)) f.data, [.v f.data.toNat]⟩
  | .copy _ f => copyUses false f
  | .copym _ f => copyUses true f
  | .binit _ f | .barrive _ f | .bexpect _ f | .bwait _ f => barUses f
  | .btest _ f => (barUses f).append ⟨[], [.p f.d.toNat]⟩
  | .reside _ f => ⟨sregs f.a ++ sregs f.b, [.s f.d.toNat]⟩
  | .unreside _ f => ⟨sregs f.a, [.s f.d.toNat]⟩
  | .kvget _ f | .kvput _ f => kvUses f true
  | .kvpin _ f | .kvdrop _ f => kvUses f false
  | .mma _ f => ⟨sregs f.a ++ sregs f.b, []⟩
  | .accz _ f => ⟨sregs f.a ++ sregs f.b, []⟩
  | .accld _ f => ⟨sregs f.a ++ sregs f.b ++ sregs f.c, []⟩
  | .accrd _ f => ⟨sregs f.a ++ (if bitAt f.m 0 then sregs f.b else [.v f.b.toNat]), [.v f.d.toNat]⟩
  | .drain _ f => drainUses f
  | .lred _ f => redUses false f
  | .lredw _ f => redUses true f
  | .lxpose _ f => ⟨srunRegs f.a 3, [.s f.d.toNat]⟩
  | _ => {}

/-- The guard of a word. -/
def guardRegs (w : Word) : List Reg := if wfld w 46 3 = 7 then [] else [.p (wfld w 46 3)]

/-- The handle of a form with coordinates, and its coordinate registers beyond the first by the entry's rank. -/
def coordsOf : Instr → Option (Byte × (Nat → List Reg))
  | .ld _ f | .st _ f | .pref _ f | .atom _ f | .atoms _ f => some (f.h, coordRegs false f.k)
  | .lds _ f => some (f.h, coordRegs true f.k)
  | .clean _ f | .inval _ f | .clinv _ f => some (f.a, fun r => coordRegs true f.b r ++ coordRegs true f.c r)
  | .laychk _ f | .lred _ f | .lredw _ f => some (f.a, coordRegs false f.b)
  | _ => none

/-- Those of a word of a wave's next clause, by the entry its handle names now. -/
def State.coordPeek (s : State) (e : Env) (w : Word) : List Reg :=
  match decodeWord w with
  | .error _ => []
  | .ok i =>
    match coordsOf i with
    | none => []
    | some (h, regs) =>
      match (s.layEntry e.core e.ctx (e.uniform h)).1 with
      | some l => regs l.rank.toNat
      | none => []

/-- Every register a word of a clause reads or writes; one that does not decode names none. -/
def wordRegs (w : Word) : List Reg :=
  match decodeWord w with
  | .ok i => guardRegs w ++ (usesOf i).rd ++ (usesOf i).wr
  | .error _ => []

end Sys2Proof.Machine
end

