-- ==== Sys2Proof/Machine/Clause.lean ====
section
/-! DEFINITION. Clauses (R158, R171 to R174, R327): fetching and checking them, the choice of a wave and the start of
its clause; and the events that end waits of a wave: results that land (R187, R252, R259), the generation's advance
(R119), SLEEP and YIELD. -/
namespace Sys2Proof.Machine

/-! Fetching and checking a clause (R171 to R174). -/

/-- Engine class of an assigned opcode. -/
def opClass (op : Nat) : Nat :=
  if op < 0x80 then 5 else if op < 0x200 then 0 else if op < 0x280 then 1 else if op < 0x2C8 then 2
  else if op < 0x300 then 4 else if op < 0x305 then 3 else 4

def branchEnder (op : Nat) : Bool := (1 ≤ op && op ≤ 5) || op = 8 || op = 0xD
def waitEnder (op : Nat) : Bool := (9 ≤ op && op ≤ 0xC) || op = 0x14 || op = 0x1D || op = 0x2C6 || op = 0x300

/-- The checks of R173 on the words of a clause. -/
def clauseOk (cls : Nat) (words : List Word) : Bool :=
  words.zipIdx.all fun x =>
    let op := x.1.opcode
    !assigned op || ((opClass op = cls || op = 0 || branchEnder op)
      && (!(branchEnder op || waitEnder op) || x.2 + 1 = words.length))

/-- Eight bytes of code: the core's checks for execution, then a read at the home lode. -/
def State.fetch8 (s : State) (w : Workgroup) (core va : Nat) : Got Word × State :=
  let (r, s1) := s.check core w.ctx.asid w.ctx.world va .ex
  match r with
  | .error c => (.fault c, s1)
  | .ok leaf =>
    if leaf.isReg then (.fault .perm, s1)
    else
      match s1.readVirt { q := w.ctx.q, asid := effAsid w.ctx.asid va, va := va, leaf := leaf, who := some w.recId,
                          die := core / 64, src := 1024 * w.id + core } 8 with
      | (.ok b, s2) => (.ok (BitVec.ofNat 64 (natOfBytes b)), s2)
      | (.fault c, s2) => (.fault c, s2)
      | (.wait, s2) => (.wait, s2)

/-- What a fetch of a clause gives: the clause, or the cause its issue group raises at the header. -/
inductive Fetched where
  | ok (hdr : Word) (words : List Word)
  | trap (c : Cause) (info : Word)
  | wait
  deriving DecidableEq, Repr

/-- THE FETCH OF A CLAUSE (R171, R173, R337). -/
def State.fetchClause (s : State) (w : Workgroup) (core a : Nat) : Fetched × State :=
  if a % 8 ≠ 0 then (.trap .illegalClause 0, s)
  else
    match s.fetch8 w core a with
    | (.wait, s1) => (.wait, s1)
    | (.fault c, s1) => (.trap c (accInfo a false), s1)
    | (.ok x, s1) =>
      match decodeHeader x with
      | none => (.trap .illegalClause x, s1)
      | some h =>
        let r := (List.range (h.count.toNat + 1)).foldl (fun (r : Fetched × State) i =>
          match r.1 with
          | .ok y ws =>
            match r.2.fetch8 w core (a + 8 + 8 * i) with
            | (.ok v, s2) => (.ok y (ws ++ [v]), s2)
            | (.fault c, s2) => (.trap c (accInfo (a + 8 + 8 * i) false), s2)
            | (.wait, s2) => (.wait, s2)
          | _ => r) (.ok x [], s1)
        match r.1 with
        | .ok y ws => (if clauseOk h.cls.toNat ws then .ok y ws else .trap .illegalClause x, r.2)
        | _ => r

/-! The choice of a wave (R158, R327). -/

/-- The issue group of a wave, and its pc (R158): threads at one place, the word index counting with mid = 1 alone (R344). -/
def Wave.issueGroup (v : Wave) : Option (BitVec 64 × Pc) :=
  let el := (List.range 64).filter fun l => (v.thread l).status = .eligible
  let old := el.filter fun l => 512 ≤ (v.thread l).starve
  let l := if old = [] then el else old
  match minBy (fun i => (v.thread i).pc.order) l with
  | none => none
  | some i => some (maskOf (l.filter fun j => (v.thread j).pc.norm = (v.thread i).pc.norm), (v.thread i).pc.norm)

/-- The counters that a wait mask names are zero (R188). -/
def Counters.clear (c : Counters) (mask : Byte) : Bool :=
  [c.ld, c.st, c.copy, c.mma, c.lode, c.sli, c.sys, c.ctr].zipIdx.all fun x => !bitAt mask x.2 || x.1 = 0

/-- A wave that could issue its next clause, or raise a cause at its header. -/
structure Cand where
  wg    : Nat
  wave  : Nat
  group : BitVec 64
  pc    : Pc
  hdr   : Word := 0
  words : List Word := []
  copies : Nat := 0
  cost  : Option Nat := none
  trap  : Option (Cause × Word) := none
  deriving DecidableEq, Repr

def isCopy (x : Word) : Bool :=
  match decodeWord x with
  | .ok (.copy _ _) | .ok (.copym _ _) => true
  | _ => false

/-- Whether a wave is ready, pebbles apart (R106, R158, R187, R188, R259, R277). -/
def State.candidate (s : State) (w : Workgroup) (k : Nat) (v : Wave) : Option Cand × State :=
  let core := w.coreOfWave k
  if v.ended || s.clk < v.nextAt || s.running.any (fun c => c.wg = w.id && c.wave = k) then (none, s)
  else
    match v.issueGroup with
    | none => (none, s)
    | some (g, pc) =>
      let c : Cand := { wg := w.id, wave := k, group := g, pc := pc }
      match s.fetchClause w core pc.addr.toNat with
      | (.wait, s1) => (none, s1)
      | (.trap t i, s1) => (some { c with trap := some (t, i) }, s1)
      | (.ok hdr ws, s1) =>
        let at_ := if pc.mid then pc.word.toNat else 0
        if ws.length ≤ at_ then (some { c with trap := some (.illegalClause, hdr) }, s1)
        else
          let rest := ws.drop at_
          let cls := wfld hdr 56 4
          let n := rest.countP isCopy
          let cost := State.mmaCost w v k g core s1.clk rest
          let i : Issue := { core := core, part := v.slot % 16, wg := w.id, wave := k, all := g, group := g, addr := pc.addr,
                             hdr := hdr, words := ws }
          let named (x : Word) : List Reg := wordRegs x ++ s1.coordPeek ⟨i, w, v, lanesOf g, s1.clk⟩ x
          if v.cnt.clear (hdr.extractLsb' 44 8) && !((rest.flatMap named).any v.marked)
              && !(v.holds ≠ [] && 1 ≤ cls && cls ≤ 4) && n ≤ s1.copySlots core
              && ((s1.mqRoom core) || !(cost.isSome || rest.any entersQueue)) then
            (some { c with hdr := hdr, words := ws, copies := n, cost := cost }, s1)
          else (none, s1)

/-- The start of a chosen clause: the group's starve counts (R158), its reserved slots and pebbles (R106, R283); or the
cause of its header. -/
def State.startClause (s : State) (core part : Nat) (c : Cand) (pebbles : Nat) : State :=
  let s1 := (s.dropAsk c.wg c.wave fun _ => false).modWave c.wg c.wave fun v =>
    { v with readyAt := s.clk, readySince := none, yieldTo := none }
  match c.trap with
  | some (t, i) => s1.takeTrap c.wg c.wave ((lanesOf c.group).map fun l => (l, t, i)) (fun _ => pcAt c.pc.addr) none false
  | none =>
    let s2 := s1.modWave c.wg c.wave fun v =>
      { v with threads := v.threads.mapIdx fun l t =>
          if bitAt c.group l then { t with starve := 0 }
          else if t.status = .eligible then { t with starve := min 512 (t.starve + 1) } else t }
    let i : Issue :=
      { core := core, part := part, wg := c.wg, wave := c.wave, all := c.group, group := c.group, addr := c.pc.addr,
        hdr := c.hdr, words := c.words, idx := if c.pc.mid then c.pc.word.toNat else 0, readyAt := s.clk,
        chk := s.rf (rCORE_CHK core) 0 1 = 1, reserved := c.copies, pebbles := pebbles }
    { s2 with running := s2.running ++ [i] }

/-- The order of R327 among ready waves, the least first: those that a YIELD excludes last (R203); a wave ready for 4,096 clk
before any other, the longest-waiting first; then priority; and, in either case, the one chosen least recently, and the lowest
slot. -/
def State.rank (s : State) (w : Workgroup) (v : Wave) : List Nat :=
  let late := if v.yieldTo.any (fun t => s.clk < t) then 1 else 0
  let due := match v.readySince with
    | some t => if t + 4096 ≤ s.clk then [0, t] else [1, 7 - w.prio]
    | none => [1, 7 - w.prio]
  late :: due ++ [v.readyAt, v.slot]

/-- Whether a wave that could issue but for pebbles is ready (R158, R283): where the pool cannot grant its cost, its request
stands. A request for another clause or cost than the next one's is withdrawn. -/
def State.pebReady (s : State) (wg k : Nat) (v : Wave) (c : Option Cand) : Bool × State :=
  match c with
  | none => (false, s.dropAsk wg k fun a => v.issueGroup.any fun x => x.2.order = a.pc)
  | some c =>
    match c.cost with
    | none => (true, s.dropAsk wg k fun _ => false)
    | some cost => s.waveAsk wg k c.pc.order cost

/-- The clk from which a wave has been ready, as it stands: it is kept while the wave stays ready (R327). -/
def State.readyFrom (s : State) (w : Workgroup) (k : Nat) (v : Wave) : Option Nat :=
  let t := max s.clk v.nextAt
  let (c, s1) := State.candidate { s with clk := t } w k v
  if (s1.pebReady w.id k v c).1 then some (v.readySince.getD t) else none

/-- Every wave that is ready is noted to be, whether or not its partition is idle (R327); part of what every step ends with. -/
def State.noteReady (s : State) : State :=
  { s with wgs := s.wgs.map fun w =>
      if w.fate = .live then { w with waves := w.waves.mapIdx fun k v => { v with readySince := s.readyFrom w k v } } else w }

/-- The live waves of a scheduler partition. -/
def State.partWaves (s : State) (core part : Nat) : List (Workgroup × Nat × Wave) :=
  (s.wgs.filter fun w => w.fate = .live).flatMap fun w =>
    (List.range w.waves.length).filterMap fun k =>
      match w.waves[k]? with
      | some v => if w.coreOfWave k = core && v.slot % 16 = part then some (w, k, v) else none
      | none => none

/-- THE CHOICE OF A SCHEDULER PARTITION (R158, R203, R327). Since when its waves have been ready is noted at the end of each
step (log 45). -/
def State.selectClause (s : State) (core part : Nat) : State :=
  if s.running.any fun c => c.core = core && c.part = part then s
  else
    let (ready, s1) := (s.partWaves core part).foldl (fun (x : List (List Nat × Cand) × State) y =>
      let (c, s1) := x.2.candidate y.1 y.2.1 y.2.2
      let (ok, s2) := s1.pebReady y.1.id y.2.1 y.2.2 c
      (x.1 ++ (if ok then c.toList.map fun c => (s.rank y.1 y.2.2, c) else []), s2)) ([], s)
    match firstBy (fun x => x.1) ready with
    | none => s1
    | some x => s1.startClause core part x.2 (match x.2.cost with
        | some cost => min cost s1.pebTotal
        | none => 0)

def execClauseSelect (core part : Nat) (s : State) : Host.Outcome State Fault Refusal :=
  .next (s.transact (fun s => s.selectClause core part) fun x => x)

/-! Results (R187, R252, R259). -/

/-- The core of a result's wave. -/
def State.resultCore (s : State) (r : Result) : Nat :=
  match s.wg? r.wg with
  | some w => w.coreOfWave r.wave
  | none => 0

/-- Whether a result's landing is an acquire that advances G (R118, R252, R259). -/
def State.resultAdvances (s : State) (r : Result) : Bool :=
  let multi : Bool := match s.wg? r.wg with
    | some w => w.multi
    | none => false
  (match r.acq with
    | some sc => scopeAdvances sc multi
    | none => false)
  || (match r.fence with
    | some f => f.acq && bitAt f.after 0 && scopeAdvances f.scope multi
    | none => false)

/-- The after side of a fence that covers host memory (R259). -/
def State.landFence (s : State) (r : Result) : State :=
  match r.fence, s.wg? r.wg with
  | some f, some w => if f.acq && bitAt f.after 4 then s.dropHostLines w.ctx.q else s
  | _, _ => s

/-- Whether the before side of a fence is complete; host writes that it found later are started. -/
def State.fenceReady (s : State) (r : Result) : Bool × State :=
  match r.fence, s.wg? r.wg with
  | some f, some w =>
    let s1 := if bitAt f.before 4 && !s.hostIdle w.ctx.q w.ctx.asid then s.flushHost w.ctx.q w.ctx.asid else s
    (s1.pathsDone r.wg r.wave (w.coreOfWave r.wave) r.id f.scope f.rel true f.before, s1)
  | _, _ => (true, s)

/-- A RESULT LANDS. An acquire's first advances G; where that waits for the sweep, so does the landing (R119). One of a saved
wave, which is not there to take it, waits for the restore (R349). -/
def State.landResult (s : State) (id : Nat) : State :=
  match s.results.find? fun r => r.id = id && r.ready && r.readyAt ≤ s.clk && !r.adv with
  | none => s
  | some r =>
    let (ok, s1) := s.fenceReady r
    if (s.wg? r.wg).isNone then s
    else if !ok then s1
    else if !s1.resultAdvances r then (s1.landFence r).lands id
    else
      let core := s1.resultCore r
      if s1.sweepDue core then
        ((s1.incRf (rL1_STAT core) 16 16).setRf (rL1_STAT core) 8 1 1).modResult id fun r => { r with adv := true }
      else ((s1.advance core).landFence r).lands id

def execResultLands (id : Nat) (s : State) : Host.Outcome State Fault Refusal :=
  .next (s.transact (fun s => s.landResult id) fun x => x)

/-- An advance that waited for the sweep takes place (R119). -/
def State.advanceWaiting (s : State) (core : Nat) : State :=
  match s.results.find? fun r => r.adv && s.resultCore r = core with
  | none => s
  | some r =>
    if s.sweepDue core then s
    else
      let s1 := ((s.advance core).landFence r).lands r.id
      if s1.results.any fun x => x.adv && s1.resultCore x = core then s1.setRf (rL1_STAT core) 8 1 1 else s1

def execGenerationAdvance (core : Nat) (s : State) : Host.Outcome State Fault Refusal :=
  .next (s.transact (fun s => s.advanceWaiting core) fun x => x)

/-! SLEEP and YIELD (R203, R204). -/

/-- A sleeping thread whose count has run out becomes eligible. -/
def Thread.wakeSleep (t : Thread) (clk : Nat) : Thread :=
  match t.status, t.waitOn with
  | .waiting, .sleep w => if w ≤ clk then { t with status := .eligible, waitOn := .none } else t
  | _, _ => t

/-- Before time passes to clk `t`, every sleeper wakes whose 64 clk of grace will then have passed (R204). -/
def State.sleepBy (s : State) (t : Nat) : State :=
  s.wgs.foldl (fun s w => w.waves.zipIdx.foldl (fun s x =>
    let up (y : Thread) : Thread := if 64 < t then y.wakeSleep (t - 65) else y
    if x.1.threads.all fun y => up y = y then s
    else (s.modWave w.id x.2 fun v => { v with threads := v.threads.map up }).settle w.id x.2) s) s

def execSleepExpiry (wg wave lane : Nat) (s : State) : Host.Outcome State Fault Refusal :=
  .next ((s.modThread wg wave lane fun t => t.wakeSleep s.clk).settle wg wave)

def execYieldExpiry (wg wave : Nat) (s : State) : Host.Outcome State Fault Refusal :=
  .next (s.modWave wg wave fun v => { v with yieldTo := match v.yieldTo with
    | some t => if t ≤ s.clk then none else some t
    | none => none })

end Sys2Proof.Machine
end

