-- ==== Sys2Proof/Machine/Convert.lean ====
section
/-! DEFINITION. Conversions and the SLI instructions: group 3 (R241 to R245, R288 to R290), with the latencies of R148
and R186. -/
namespace Sys2Proof.Machine

/-- The type under which CVT and SLCVT read a source of a format code: it fixes the width and the meaning of a
constant (R178, R242). -/
def cvtTy (n : Nat) : Ty :=
  match n with
  | 6 => .i64
  | 7 => .n64
  | 8 => .f16x2
  | 9 => .bf16x2
  | 10 => .f32
  | 11 => .f64
  | 20 => .sli16x2
  | 21 => .sli32
  | _ => .i32

/-- A result of a format placed in a register of its width: i8 and i16 sign-extended, the others zero-extended (R242). -/
def cvtPlace (dc c : Nat) : Nat :=
  if dc = 0 then intCode 32 (signed 8 c) else if dc = 2 then intCode 32 (signed 16 c) else c

/-- Destination type of a conversion, for a scalar result (R177). -/
def cvtDst (dc : Nat) : Ty := if fmt64 dc then .n64 else if dc = 0 || dc = 2 || dc = 4 then .i32 else .n32

/-- The parts of a conversion word (R241). -/
def cvScaled (f : AF) : Bool := bitAt f.m 3
def cvInf (f : AF) : Bool := bitAt f.m 2
def cvBlock (f : AF) : Nat := f.mlo 5 4

/-- The scale byte of an element under .scaled: bits 15:8 of a. -/
def cvScale (f : AF) (x : Nat) : Option Nat := if cvScaled f then some (fld x 8 8) else none

/-- Element form of CVT and SLCVT in one lane: the code and the flags. -/
def Env.cvtElem (e : Env) (f : AF) (l : Nat) : Nat × BitVec 5 :=
  let x := e.src f f.sa (cvtTy f.c.toNat) f.a l
  (cvtFmt f.c.toNat).convert (cvtFmt f.b.toNat) (rmode f) (cvInf f) (cvScale f x) (x % 2 ^ (cvtFmt f.c.toNat).width)

/-- Block forms (R243, R145): for the active lanes of the block of lane `l`, each lane's register value. -/
def Env.cvtBlock (e : Env) (f : AF) (blk : List Nat) : List (Nat × Nat) :=
  let vals := blk.map fun l =>
    let x := e.src f f.sa (cvtTy f.c.toNat) f.a l
    (cvtFmt f.c.toNat).feed (x % 2 ^ (cvtFmt f.c.toNat).width) (cvScale f x) fun v => v
  let (sc, els) := mxBlockEncode vals (f.b.toNat - 8) (rmode f)
  blk.zip (els.map fun x => x + sc <<< 8)

/-- The blocks of B lanes, active lanes only. -/
def blocksOf (b : Nat) (act : List Nat) : List (List Nat) :=
  (List.range (64 / b)).map fun k => act.filter fun l => l / b = k

def execCvt (h : Hdr) (f : AF) (s : State) : Host.Outcome State Fault Refusal :=
  let sc := f.c.toNat
  let dc := f.b.toNat
  aluWord h f 6 (.reg (fmt64 dc)) (.reg (fmt64 sc) (fmtFlt sc)) (.code 20) (.code 20) (fun e =>
    if cvBlock f = 0 then e.result f (cvtDst dc) fun l => cvtPlace dc (e.cvtElem f l).1
    else (blocksOf (if cvBlock f = 1 then 16 else 32) e.act).flatMap fun blk =>
      (e.cvtBlock f blk).flatMap fun x => vecWrites false f.d.toNat x.1 x.2) s

/-- An integral value in the same format (R244): a zero result keeps the sign of its source. -/
def roundIntegral (mode : RMode) (v : Val) : Val :=
  match v with
  | .num neg n d =>
    let k := (Val.num neg n d).toInt mode
    if k = 0 then .zero neg else .num neg k.natAbs 1
  | x => x

def execFrnd (h : Hdr) (f : AF) (s : State) : Host.Outcome State Fault Refusal :=
  aluWord h f 6 (.reg f.w) f.src .unused .unused (fun e =>
    e.result f f.ty fun l =>
      let x := e.src f f.sa f.ty f.a l
      packed f.ty fun i => floatRes f.ty .rne (roundIntegral (rmode f) (floatElem f.ty x i))) s

/-- Source and destination formats of PACK and UNPK (R245). -/
def packWide (t : Ty) : Fmt :=
  match t with
  | .i16x2 => .int true 32
  | .n16x2 => .int false 32
  | _ => .fp f32F
def packNarrow (t : Ty) : Fmt :=
  match t with
  | .f16x2 => .fp f16F
  | .bf16x2 => .fp bf16F
  | .i16x2 => .int true 16
  | _ => .int false 16

def wideOf (t : Ty) : Ty :=
  match t with
  | .i16x2 => .i32
  | .n16x2 => .n32
  | _ => .f32

def execPack (h : Hdr) (f : AF) (s : State) : Host.Outcome State Fault Refusal :=
  let fl : Bool := f.ty.isFloat
  aluWord h f 6 (.reg false) (.reg false fl) (.reg false fl) .unused (fun e =>
    e.result f f.ty fun l =>
      let cv (x : Nat) : Nat := ((packWide f.ty).convert (packNarrow f.ty) (rmode f) (bitAt f.m 2) none x).1
      cv (e.src f f.sa (wideOf f.ty) f.a l) + cv (e.src f f.sb (wideOf f.ty) f.b l) <<< 16) s

def execUnpk (h : Hdr) (f : AF) (s : State) : Host.Outcome State Fault Refusal :=
  aluWord h f 6 (.reg false) f.src .unused .unused (fun e =>
    e.result f (wideOf f.ty) fun l =>
      let x := elemOf f.ty (e.src f f.sa f.ty f.a l) (f.mlo 0 0)
      ((packNarrow f.ty).convert (packWide f.ty) .rne true none x).1) s

/-! SLI instructions (R288 to R290). -/

/-- The format of an SLI type. -/
def sliOfTy (t : Ty) : SFmt := if t = .sli16x2 then sli16F else sli32F

/-- Latency of one element (R148). -/
def slLatency (m : SFmt) (op : SlOp) (a b : Nat) : Nat :=
  (if op = .add || op = .sub then 10 else 12)
    + 4 * (m.level (fld a 0 m.mbits) + m.level (fld b 0 m.mbits))

/-- Elements of an SLI operand. -/
def slElems (t : Ty) : List Nat := if t = .sli16x2 then [0, 1] else [0]

/-- One lane of SLADD, SLSUB, SLMUL or SLDIV: result, flags and latency over its elements. -/
def slLane (t : Ty) (op : SlOp) (x y : Nat) : Nat × BitVec 5 × Nat :=
  let m := sliOfTy t
  (slElems t).foldl (fun r i =>
    let a := elemOf t x i
    let b := elemOf t y i
    let (c, fl) := slOp m op a b
    (r.1 + c <<< (tyElem t * i), r.2.1 ||| fl, max r.2.2 (slLatency m op a b))) (0, 0, 0)

/-- SLADD, SLSUB, SLMUL, SLDIV (R289): the result lands scoreboarded, counted under sli, and sets the flags then. -/
def slWord (h : Hdr) (f : AF) (op : SlOp) (s : State) : Host.Outcome State Fault Refusal :=
  word h none (afUses f (.reg false) f.src f.src .unused) (fun e s =>
    if e.act = [] then s
    else
      let lane (l : Nat) : Nat × BitVec 5 × Nat :=
        slLane f.ty op (e.src f f.sa f.ty f.a l) (e.src f f.sb f.ty f.b l)
      let lanes := e.act.map fun l => (l, lane (if f.u then 0 else l))
      let lat := lanes.foldl (fun m x => max m x.2.2.2) 0
      (s.startOp e { id := 0, wg := 0, wave := 0, cnt := some .sli, regs := dstRegs f.u f.d (.reg false),
                     writes := if f.u then [scalarWrite f.ty f.d.toNat (lane 0).1]
                       else lanes.flatMap fun x => vecWrites false f.d.toNat x.1 x.2.1,
                     ready := true, readyAt := s.clk + lat, flags := lanes.map fun x => (x.1, x.2.2.1) }).2) s

def execSladd (h : Hdr) (f : AF) (s : State) : Host.Outcome State Fault Refusal := slWord h f .add s
def execSlsub (h : Hdr) (f : AF) (s : State) : Host.Outcome State Fault Refusal := slWord h f .sub s
def execSlmul (h : Hdr) (f : AF) (s : State) : Host.Outcome State Fault Refusal := slWord h f .mul s
def execSldiv (h : Hdr) (f : AF) (s : State) : Host.Outcome State Fault Refusal := slWord h f .div s

/-- SLCMP (R289): compares by value; a NaN operand sets nan. -/
def execSlcmp (h : Hdr) (f : AF) (s : State) : Host.Outcome State Fault Refusal :=
  word h none (afUses f .pred f.src f.src .unused) (fun e s =>
    let x (l : Nat) : Nat := e.src f f.sa f.ty f.a (if f.u then 0 else l)
    let y (l : Nat) : Nat := e.src f f.sb f.ty f.b (if f.u then 0 else l)
    let fl := e.act.filterMap fun l =>
      if (sli32F.rank (x l)).isNone || (sli32F.rank (y l)).isNone then some (l, slNan) else none
    (s.later e 6 (e.predResult f fun l => condSli sli32F (f.mlo 2 0) (x l) (y l))).now e fun w => w.slSet fl) s

/-- SLCVT (R290): each conversion sets the flags of R154. -/
def execSlcvt (h : Hdr) (f : AF) (s : State) : Host.Outcome State Fault Refusal :=
  let sc := f.c.toNat
  let dc := f.b.toNat
  word h none (afUses f (.reg (fmt64 dc)) (.reg (fmt64 sc) (fmtFlt sc)) (.code 22) (.code 22)) (fun e s =>
    let fl := e.act.map fun l => (l, (e.cvtElem f (if f.u then 0 else l)).2)
    (s.later e 8 (e.result f (cvtDst dc) fun l => cvtPlace dc (e.cvtElem f l).1)).now e fun w => w.slSet fl) s

/-- SLFLG (R289): waits for every SLI result of its wave, reads the flags, then applies the action. -/
def execSlflg (h : Hdr) (f : AF) (s : State) : Host.Outcome State Fault Refusal :=
  let act := f.mlo 1 0
  word h none (afUses f (.reg false) (if act = 0 then .unused else .reg false false) .unused .unused) (fun e s =>
    if e.w.cnt.sli ≠ 0 then s.hold
    else
      let m (l : Nat) : BitVec 5 := BitVec.ofNat 5 (e.src f f.sa f.ty f.a l)
      (s.later e 6 (e.result f f.ty fun l => (e.w.thread l).sli.toNat)).modLanes e.iss.wg e.iss.wave (maskOf e.act)
        fun l t => { t with sli := slAction act (m l) t.sli }) s

/-- SLLVL (R289). -/
def execSllvl (h : Hdr) (f : AF) (s : State) : Host.Outcome State Fault Refusal :=
  aluWord h f 6 (.reg false) f.src .unused .unused (fun e =>
    e.result f f.ty fun l =>
      let m := sliOfTy f.ty
      let x := e.src f f.sa f.ty f.a l
      (slElems f.ty).foldl (fun r i => r + m.level (fld (elemOf f.ty x i) 0 m.mbits) <<< (16 * i)) 0) s

end Sys2Proof.Machine
end

