-- ==== Sys2Proof/Machine/Dispatch.lean ====
section
/-! DEFINITION. One arm for each row of spec/opcode_table.json: the meaning of an instruction word or an event. -/
namespace Sys2Proof.Machine

/-- The meaning of one step of the part. -/
def exec (i : Instr) (s : State) : Host.Outcome State Fault Refusal :=
  match i with
  | .nop a b => Sys2Proof.Machine.execNop a b s
  | .bra a b => Sys2Proof.Machine.execBra a b s
  | .brx a b => Sys2Proof.Machine.execBrx a b s
  | .call a b => Sys2Proof.Machine.execCall a b s
  | .callx a b => Sys2Proof.Machine.execCallx a b s
  | .ret a b => Sys2Proof.Machine.execRet a b s
  | .meet a b => Sys2Proof.Machine.execMeet a b s
  | .unmeet a b => Sys2Proof.Machine.execUnmeet a b s
  | .exit a b => Sys2Proof.Machine.execExit a b s
  | .yieldW a b => Sys2Proof.Machine.execYieldW a b s
  | .sleep a b => Sys2Proof.Machine.execSleep a b s
  | .bkpt a b => Sys2Proof.Machine.execBkpt a b s
  | .trap a b => Sys2Proof.Machine.execTrap a b s
  | .trapret a b => Sys2Proof.Machine.execTrapret a b s
  | .joinImm a b => Sys2Proof.Machine.execJoinImm a b s
  | .joinReg a b => Sys2Proof.Machine.execJoinReg a b s
  | .leaveImm a b => Sys2Proof.Machine.execLeaveImm a b s
  | .leaveReg a b => Sys2Proof.Machine.execLeaveReg a b s
  | .setinfo a b => Sys2Proof.Machine.execSetinfo a b s
  | .reggive a b => Sys2Proof.Machine.execReggive a b s
  | .regclaim a b => Sys2Proof.Machine.execRegclaim a b s
  | .spawn a b => Sys2Proof.Machine.execSpawn a b s
  | .jdec a b => Sys2Proof.Machine.execJdec a b s
  | .npreempt a b => Sys2Proof.Machine.execNpreempt a b s
  | .preemptok a b => Sys2Proof.Machine.execPreemptok a b s
  | .csrrd a b => Sys2Proof.Machine.execCsrrd a b s
  | .csrwr a b => Sys2Proof.Machine.execCsrwr a b s
  | .csrset a b => Sys2Proof.Machine.execCsrset a b s
  | .csrclr a b => Sys2Proof.Machine.execCsrclr a b s
  | .ptsync a b => Sys2Proof.Machine.execPtsync a b s
  | .iadd a b => Sys2Proof.Machine.execIadd a b s
  | .isub a b => Sys2Proof.Machine.execIsub a b s
  | .iaddc a b => Sys2Proof.Machine.execIaddc a b s
  | .imul a b => Sys2Proof.Machine.execImul a b s
  | .imulh a b => Sys2Proof.Machine.execImulh a b s
  | .imad a b => Sys2Proof.Machine.execImad a b s
  | .imin a b => Sys2Proof.Machine.execImin a b s
  | .imax a b => Sys2Proof.Machine.execImax a b s
  | .iabs a b => Sys2Proof.Machine.execIabs a b s
  | .ineg a b => Sys2Proof.Machine.execIneg a b s
  | .and a b => Sys2Proof.Machine.execAnd a b s
  | .or a b => Sys2Proof.Machine.execOr a b s
  | .xor a b => Sys2Proof.Machine.execXor a b s
  | .not a b => Sys2Proof.Machine.execNot a b s
  | .shl a b => Sys2Proof.Machine.execShl a b s
  | .shr a b => Sys2Proof.Machine.execShr a b s
  | .sar a b => Sys2Proof.Machine.execSar a b s
  | .rot a b => Sys2Proof.Machine.execRot a b s
  | .popc a b => Sys2Proof.Machine.execPopc a b s
  | .clz a b => Sys2Proof.Machine.execClz a b s
  | .bfe a b => Sys2Proof.Machine.execBfe a b s
  | .bfi a b => Sys2Proof.Machine.execBfi a b s
  | .brev a b => Sys2Proof.Machine.execBrev a b s
  | .icmp a b => Sys2Proof.Machine.execIcmp a b s
  | .sel a b => Sys2Proof.Machine.execSel a b s
  | .mov a b => Sys2Proof.Machine.execMov a b s
  | .moviImm a b => Sys2Proof.Machine.execMoviImm a b s
  | .moviLit a b => Sys2Proof.Machine.execMoviLit a b s
  | .bcast a b => Sys2Proof.Machine.execBcast a b s
  | .readlane a b => Sys2Proof.Machine.execReadlane a b s
  | .shfl a b => Sys2Proof.Machine.execShfl a b s
  | .vote a b => Sys2Proof.Machine.execVote a b s
  | .wred a b => Sys2Proof.Machine.execWred a b s
  | .scan a b => Sys2Proof.Machine.execScan a b s
  | .fadd a b => Sys2Proof.Machine.execFadd a b s
  | .fsub a b => Sys2Proof.Machine.execFsub a b s
  | .fmul a b => Sys2Proof.Machine.execFmul a b s
  | .ffma a b => Sys2Proof.Machine.execFfma a b s
  | .fmin a b => Sys2Proof.Machine.execFmin a b s
  | .fmax a b => Sys2Proof.Machine.execFmax a b s
  | .fcmp a b => Sys2Proof.Machine.execFcmp a b s
  | .fclass a b => Sys2Proof.Machine.execFclass a b s
  | .frcp a b => Sys2Proof.Machine.execFrcp a b s
  | .frsq a b => Sys2Proof.Machine.execFrsq a b s
  | .fsqrt a b => Sys2Proof.Machine.execFsqrt a b s
  | .fex2 a b => Sys2Proof.Machine.execFex2 a b s
  | .flg2 a b => Sys2Proof.Machine.execFlg2 a b s
  | .fsin a b => Sys2Proof.Machine.execFsin a b s
  | .fcos a b => Sys2Proof.Machine.execFcos a b s
  | .fdivs a b => Sys2Proof.Machine.execFdivs a b s
  | .dot2 a b => Sys2Proof.Machine.execDot2 a b s
  | .dot4 a b => Sys2Proof.Machine.execDot4 a b s
  | .cvt a b => Sys2Proof.Machine.execCvt a b s
  | .frnd a b => Sys2Proof.Machine.execFrnd a b s
  | .pack a b => Sys2Proof.Machine.execPack a b s
  | .unpk a b => Sys2Proof.Machine.execUnpk a b s
  | .sladd a b => Sys2Proof.Machine.execSladd a b s
  | .slsub a b => Sys2Proof.Machine.execSlsub a b s
  | .slmul a b => Sys2Proof.Machine.execSlmul a b s
  | .sldiv a b => Sys2Proof.Machine.execSldiv a b s
  | .slcmp a b => Sys2Proof.Machine.execSlcmp a b s
  | .slcvt a b => Sys2Proof.Machine.execSlcvt a b s
  | .slflg a b => Sys2Proof.Machine.execSlflg a b s
  | .sllvl a b => Sys2Proof.Machine.execSllvl a b s
  | .ld a b => Sys2Proof.Machine.execLd a b s
  | .st a b => Sys2Proof.Machine.execSt a b s
  | .lds a b => Sys2Proof.Machine.execLds a b s
  | .pref a b => Sys2Proof.Machine.execPref a b s
  | .fence a b => Sys2Proof.Machine.execFence a b s
  | .fencex a b => Sys2Proof.Machine.execFencex a b s
  | .clean a b => Sys2Proof.Machine.execClean a b s
  | .inval a b => Sys2Proof.Machine.execInval a b s
  | .clinv a b => Sys2Proof.Machine.execClinv a b s
  | .layset a b => Sys2Proof.Machine.execLayset a b s
  | .layget a b => Sys2Proof.Machine.execLayget a b s
  | .laychk a b => Sys2Proof.Machine.execLaychk a b s
  | .atoms a b => Sys2Proof.Machine.execAtoms a b s
  | .atom a b => Sys2Proof.Machine.execAtom a b s
  | .copy a b => Sys2Proof.Machine.execCopy a b s
  | .copym a b => Sys2Proof.Machine.execCopym a b s
  | .copyq a b => Sys2Proof.Machine.execCopyq a b s
  | .binit a b => Sys2Proof.Machine.execBinit a b s
  | .barrive a b => Sys2Proof.Machine.execBarrive a b s
  | .bexpect a b => Sys2Proof.Machine.execBexpect a b s
  | .bwait a b => Sys2Proof.Machine.execBwait a b s
  | .btest a b => Sys2Proof.Machine.execBtest a b s
  | .reside a b => Sys2Proof.Machine.execReside a b s
  | .unreside a b => Sys2Proof.Machine.execUnreside a b s
  | .kvget a b => Sys2Proof.Machine.execKvget a b s
  | .kvput a b => Sys2Proof.Machine.execKvput a b s
  | .kvpin a b => Sys2Proof.Machine.execKvpin a b s
  | .kvdrop a b => Sys2Proof.Machine.execKvdrop a b s
  | .mma a b => Sys2Proof.Machine.execMma a b s
  | .accz a b => Sys2Proof.Machine.execAccz a b s
  | .accld a b => Sys2Proof.Machine.execAccld a b s
  | .accrd a b => Sys2Proof.Machine.execAccrd a b s
  | .drain a b => Sys2Proof.Machine.execDrain a b s
  | .lred a b => Sys2Proof.Machine.execLred a b s
  | .lredw a b => Sys2Proof.Machine.execLredw a b s
  | .lxpose a b => Sys2Proof.Machine.execLxpose a b s
  | .clauseSelect a b => Sys2Proof.Machine.execClauseSelect a b s
  | .resultLands a => Sys2Proof.Machine.execResultLands a s
  | .pebbleGrant a => Sys2Proof.Machine.execPebbleGrant a s
  | .matrixQueueEntry a => Sys2Proof.Machine.execMatrixQueueEntry a s
  | .regDeadlock a b => Sys2Proof.Machine.execRegDeadlock a b s
  | .sleepExpiry a b c => Sys2Proof.Machine.execSleepExpiry a b c s
  | .yieldExpiry a b => Sys2Proof.Machine.execYieldExpiry a b s
  | .npreemptBoundExpiry a => Sys2Proof.Machine.execNpreemptBoundExpiry a s
  | .storeBufferTimeout a => Sys2Proof.Machine.execStoreBufferTimeout a s
  | .generationAdvance a => Sys2Proof.Machine.execGenerationAdvance a s
  | .l1Sweep a => Sys2Proof.Machine.execL1Sweep a s
  | .l1Fill a => Sys2Proof.Machine.execL1Fill a s
  | .lodeAccess a => Sys2Proof.Machine.execLodeAccess a s
  | .lineFillReturn a => Sys2Proof.Machine.execLineFillReturn a s
  | .pageWalkComplete a => Sys2Proof.Machine.execPageWalkComplete a s
  | .deferredInstall a => Sys2Proof.Machine.execDeferredInstall a s
  | .albInvalidate a b => Sys2Proof.Machine.execAlbInvalidate a b s
  | .lodeTbInvalidate a b => Sys2Proof.Machine.execLodeTbInvalidate a b s
  | .shootdownAck a => Sys2Proof.Machine.execShootdownAck a s
  | .lineWriteback a => Sys2Proof.Machine.execLineWriteback a s
  | .rawFlakesGranted a => Sys2Proof.Machine.execRawFlakesGranted a s
  | .stuckLineWriteback a => Sys2Proof.Machine.execStuckLineWriteback a s
  | .balloonReclaim a => Sys2Proof.Machine.execBalloonReclaim a s
  | .tumblerMigration a => Sys2Proof.Machine.execTumblerMigration a s
  | .hostWriteHoldTimeout a => Sys2Proof.Machine.execHostWriteHoldTimeout a s
  | .query a b c => Sys2Proof.Machine.execQuery a b c s
  | .donate a b c => Sys2Proof.Machine.execDonate a b c s
  | .withdraw a b c => Sys2Proof.Machine.execWithdraw a b c s
  | .recode a b c d => Sys2Proof.Machine.execRecode a b c d s
  | .toRaw a b c => Sys2Proof.Machine.execToRaw a b c s
  | .toCmp a b c d => Sys2Proof.Machine.execToCmp a b c d s
  | .migrate a b c d => Sys2Proof.Machine.execMigrate a b c d s
  | .tmbBadOp a b c => Sys2Proof.Machine.execTmbBadOp a b c s
  | .tmbCmdDone a => Sys2Proof.Machine.execTmbCmdDone a s
  | .tmbCtlWrite a b => Sys2Proof.Machine.execTmbCtlWrite a b s
  | .xltSyncGo a b => Sys2Proof.Machine.execXltSyncGo a b s
  | .xltRmapClear a b c => Sys2Proof.Machine.execXltRmapClear a b c s
  | .strRoleWrite a b c => Sys2Proof.Machine.execStrRoleWrite a b c s
  | .roleChangeApplied a => Sys2Proof.Machine.execRoleChangeApplied a s
  | .siteLoss a b => Sys2Proof.Machine.execSiteLoss a b s
  | .rebuildComplete a => Sys2Proof.Machine.execRebuildComplete a s
  | .busLoss a b => Sys2Proof.Machine.execBusLoss a b s
  | .contractAdmission a => Sys2Proof.Machine.execContractAdmission a s
  | .contractRelease a => Sys2Proof.Machine.execContractRelease a s
  | .kvLodeOperation a => Sys2Proof.Machine.execKvLodeOperation a s
  | .kvAgeTick a => Sys2Proof.Machine.execKvAgeTick a s
  | .lredContribution a => Sys2Proof.Machine.execLredContribution a s
  | .lredContributionRetry a => Sys2Proof.Machine.execLredContributionRetry a s
  | .lredCloseRetry a => Sys2Proof.Machine.execLredCloseRetry a s
  | .chunkSourceRead a b => Sys2Proof.Machine.execChunkSourceRead a b s
  | .chunkDelivery a b c => Sys2Proof.Machine.execChunkDelivery a b c s
  | .copyComplete a => Sys2Proof.Machine.execCopyComplete a s
  | .lxposeComplete a => Sys2Proof.Machine.execLxposeComplete a s
  | .poolApply a b c => Sys2Proof.Machine.execPoolApply a b c s
  | .poolApplyDone a => Sys2Proof.Machine.execPoolApplyDone a s
  | .recordTake a b => Sys2Proof.Machine.execRecordTake a b s
  | .workgroupPlacement a b => Sys2Proof.Machine.execWorkgroupPlacement a b s
  | .priorityAging a => Sys2Proof.Machine.execPriorityAging a s
  | .recordComplete a => Sys2Proof.Machine.execRecordComplete a s
  | .queueEnableWrite a b c => Sys2Proof.Machine.execQueueEnableWrite a b c s
  | .vacate a b => Sys2Proof.Machine.execVacate a b s
  | .reopen a b => Sys2Proof.Machine.execReopen a b s
  | .schBadOp a b c => Sys2Proof.Machine.execSchBadOp a b c s
  | .vacateDone a => Sys2Proof.Machine.execVacateDone a s
  | .thermalVacate a b => Sys2Proof.Machine.execThermalVacate a b s
  | .pebbleTotalChange a => Sys2Proof.Machine.execPebbleTotalChange a s
  | .contextSave a => Sys2Proof.Machine.execContextSave a s
  | .saveChunkTimeout a => Sys2Proof.Machine.execSaveChunkTimeout a s
  | .workgroupRestore a b => Sys2Proof.Machine.execWorkgroupRestore a b s
  | .lodeFaultReturn a => Sys2Proof.Machine.execLodeFaultReturn a s
  | .parkedReportRetry a => Sys2Proof.Machine.execParkedReportRetry a s
  | .fltResume a b c d => Sys2Proof.Machine.execFltResume a b c d s
  | .deliver a b c d => Sys2Proof.Machine.execDeliver a b c d s
  | .kill a b c => Sys2Proof.Machine.execKill a b c s
  | .fltBadOp a b c => Sys2Proof.Machine.execFltBadOp a b c s
  | .killComplete a => Sys2Proof.Machine.execKillComplete a s
  | .ueDetected a => Sys2Proof.Machine.execUeDetected a s
  | .correctedError a => Sys2Proof.Machine.execCorrectedError a s
  | .selfTest a b => Sys2Proof.Machine.execSelfTest a b s
  | .auditReplay a b => Sys2Proof.Machine.execAuditReplay a b s
  | .auditVerdict a => Sys2Proof.Machine.execAuditVerdict a s
  | .auditVote a => Sys2Proof.Machine.execAuditVote a s
  | .auditHoldTimeout a => Sys2Proof.Machine.execAuditHoldTimeout a s
  | .hostRead a b => Sys2Proof.Machine.execHostRead a b s
  | .hostWrite a b => Sys2Proof.Machine.execHostWrite a b s
  | .hostAtomic a b c d => Sys2Proof.Machine.execHostAtomic a b c d s
  | .hostOwnershipRequest a => Sys2Proof.Machine.execHostOwnershipRequest a s
  | .backinvalResponse a b => Sys2Proof.Machine.execBackinvalResponse a b s
  | .leaseTimeout a => Sys2Proof.Machine.execLeaseTimeout a s
  | .verSelWrite a => Sys2Proof.Machine.execVerSelWrite a s
  | .linkTraining a b c d => Sys2Proof.Machine.execLinkTraining a b c d s
  | .laneFailure a b => Sys2Proof.Machine.execLaneFailure a b s
  | .heartbeatTimeout a => Sys2Proof.Machine.execHeartbeatTimeout a s
  | .norhaRequest a b c => Sys2Proof.Machine.execNorhaRequest a b c s
  | .worldAssignWrite a b c => Sys2Proof.Machine.execWorldAssignWrite a b c s
  | .quiesce a b => Sys2Proof.Machine.execQuiesce a b s
  | .quiesceComplete a => Sys2Proof.Machine.execQuiesceComplete a s
  | .flush a b => Sys2Proof.Machine.execFlush a b s
  | .merge a b => Sys2Proof.Machine.execMerge a b s
  | .split a b => Sys2Proof.Machine.execSplit a b s
  | .partResume a b => Sys2Proof.Machine.execPartResume a b s
  | .partBadOp a b => Sys2Proof.Machine.execPartBadOp a b s
  | .partHostHoldTimeout a => Sys2Proof.Machine.execPartHostHoldTimeout a s
  | .coreRetentionSleep a => Sys2Proof.Machine.execCoreRetentionSleep a s
  | .coreWake a => Sys2Proof.Machine.execCoreWake a s
  | .lodeRetentionSleep a => Sys2Proof.Machine.execLodeRetentionSleep a s
  | .lodeWake a => Sys2Proof.Machine.execLodeWake a s
  | .challenge a => Sys2Proof.Machine.execChallenge a s
  | .pldmFirmwareUpdate a => Sys2Proof.Machine.execPldmFirmwareUpdate a s
  | .registerWrite a b c => Sys2Proof.Machine.execRegisterWrite a b c s
  | .illegalOpcode a => Sys2Proof.Machine.execIllegalOpcode a s
  | .cxlRequestCompletion a b => Sys2Proof.Machine.execCxlRequestCompletion a b s
  | .norhaResponse a b => Sys2Proof.Machine.execNorhaResponse a b s
  | .thermalRowGating a b => Sys2Proof.Machine.execThermalRowGating a b s
  | .coreClockChange a => Sys2Proof.Machine.execCoreClockChange a s
  | .startStage0 => Sys2Proof.Machine.execStartStage0 s
  | .startStage1 => Sys2Proof.Machine.execStartStage1 s
  | .startStage2 => Sys2Proof.Machine.execStartStage2 s
  | .getVersion => Sys2Proof.Machine.execGetVersion s
  | .getCapabilities => Sys2Proof.Machine.execGetCapabilities s
  | .negotiateAlgorithms => Sys2Proof.Machine.execNegotiateAlgorithms s
  | .getDigests => Sys2Proof.Machine.execGetDigests s
  | .getCertificate => Sys2Proof.Machine.execGetCertificate s
  | .getMeasurements => Sys2Proof.Machine.execGetMeasurements s
  | .spdmUnsupported => Sys2Proof.Machine.execSpdmUnsupported s
  | .pldmSensorRead => Sys2Proof.Machine.execPldmSensorRead s

end Sys2Proof.Machine
end

