-- ==== Sys2Proof/Machine/Settle.lean ====
section
/-! DEFINITION. What follows from a step without being a step of its own: waves and workgroups that end (R201), saves
that a region's end lets begin (R213), threads that wake, held accesses that go on. `State.closeStep` makes these after
every step. -/
namespace Sys2Proof.Machine

/-! The end of waves and workgroups (R201, R325). -/

def Wave.allExited (v : Wave) : Bool := v.threads.all fun t => t.status = .exited

def Counters.zero (c : Counters) : Bool := c.clear 0xFF

/-- The operations of a wave that R188 counts are complete, and nothing of it is on its way. -/
def State.waveQuiet (s : State) (wg k : Nat) (v : Wave) : Bool :=
  v.cnt.zero && (s.results.all fun r => !(r.wg = wg && r.wave = k)) && (s.copies.all fun c => !(c.wg = wg && c.wave = k))
    && s.running.all fun c => !(c.wg = wg && c.wave = k)

/-- A wave ends: its registers move to spare, where queued claims may take them; with the last wave of a part, the part's
budget is free again (R166). -/
def State.endWave (s : State) (wg k : Nat) (v : Wave) : State :=
  match s.wg? wg with
  | none => s
  | some w =>
    let p := w.partOf k
    let s1 := s.modWave wg k fun v => { v with ended := true, n := 0, pend := [], gives := [], vregs := [] }
    let last := (w.wavesOfPart p).all fun j => j = k || (w.waves[j]?).all fun u => u.ended
    if last then s1.modPart wg p fun x => { x with spare := 0, budget := 0 }
    else (s1.modPart wg p fun x => { x with spare := x.spare + v.n }).grantClaims wg p 1024

/-- The waves of a workgroup whose last thread has exited: the NPREEMPT flag clears, and a wave with nothing left to
complete ends. -/
def State.retireWaves (s : State) (wg : Nat) : State :=
  match s.wg? wg with
  | none => s
  | some w =>
    (List.range w.waves.length).foldl (fun s k =>
      match s.wave? wg k with
      | none => s
      | some v =>
        if v.ended || !v.allExited then s
        else
          let s1 := if v.region || v.broken then s.modWave wg k fun v => { v with region := false, broken := false } else s
          if s1.waveQuiet wg k v then s1.endWave wg k v else s1) s

/-- A workgroup exits when all of its waves have ended: its resources are free, and its record, or the run of an audit
it belongs to, counts it. -/
def State.retireWg (s : State) (wg : Nat) : State :=
  let s1 := s.retireWaves wg
  match s1.wg? wg with
  | none => s1
  | some w =>
    if w.waves.all (fun v => v.ended) then
      State.modRec { s1 with wgs := s1.wgs.filter fun x => x.id ≠ wg } w.recId fun r => { r with exited := r.exited + 1 }
    else if w.fate = .live && w.npReq.isSome && !w.inRegion then s1.startSave wg
    else s1

/-! Meetings, and cores that are not idle. -/

/-- The test of a wave's meetings, where a thread has one to arrive at (R159). -/
def Wave.retest (v : Wave) (running : BitVec 64) : Wave :=
  if v.threads.any fun t => t.meet.valid && (t.status = .eligible || t.status = .held) then v.settle running else v

/-- Threads that stand at their meeting address arrive there, and a meeting at which all have arrived ends (R159). -/
def State.settleWaves (s : State) : State :=
  { s with wgs := s.wgs.map fun w => { w with waves := w.waves.mapIdx fun k v => v.retest (s.runningLanes w.id k) } }

/-- Cores that hold a workgroup or an accepted copy are not idle (R384). -/
def State.noteBusy (s : State) : State :=
  (dedup (s.wgs.flatMap (fun w => w.parts.map (·.core)) ++ s.copies.map (·.core))).foldl (fun s n =>
    if (s.coreOf n).idleAt = s.clk then s else s.modCore n fun x => { x with idleAt := s.clk }) s

/-- A request for pebbles stands while its operation waits, or its wave may still issue (R328). -/
def State.pruneAsks (s : State) : State :=
  let stands (a : Ask) : Bool :=
    if a.op ≠ 0 then s.mwait.any fun e => e.id = a.op
    else (s.wgs.any fun w => w.id = a.wg && w.fate = .live) && (s.wave? a.wg a.wave).any fun v => !v.ended
  { s with asks := s.asks.filter stands }

/-- Operations that wait for pebbles go on. -/
def State.pebblesGo (s : State) : State := (dedup (s.mwait.map (·.core))).foldl (fun s n => s.mwaitGo n 8) s

/-- One thing that follows from a step: made whole, or not yet where host halves must be recalled first (log 9). -/
def State.follow (s : State) (f : State → State) : State := s.transact f fun x => x

/-- What follows from a step for each agent by itself: one that waits for host halves holds none of the others up. -/
def State.stages (s : State) : State :=
  let s1 := ((s.follow State.wakePtsync).follow State.wakeParked).settleWaves
  let s2 := (((s1.wgs.filter fun w => w.fate ≠ .ending).foldl (fun s w => s.follow fun s => s.retireWg w.id) s1).follow
    State.checkContracts).noteDead
  let s3 := (s2.wgs.filter fun w => w.fate = .ending).foldl (fun s w => s.follow fun s => s.reapWg w.id) s2
  let s4 := ((((s3.retryHolds).follow State.fenceSweep).partGo).worldGo).follow State.dropVoided
  let s5 := (((s4.follow State.engGo).follow State.vacGo).follow State.queueGo)
  let s6 := s5.leadList.foldl (fun s q => s.follow fun s => s.reclaimDue q ((s.tmbOf q).balloon.length + 1)) s5
  (((s6.pruneAsks).follow State.pebblesGo).pruneDir).noteBusy

/-- WHAT EVERY STEP ENDS WITH: what follows from it, the test of every meeting and of every register deadlock, and which waves
are ready. -/
def State.closeStep (s : State) : State := (((s.stages).settleWaves).noteDead).noteReady

end Sys2Proof.Machine
end

