-- ==== Sys2Proof/Machine/Agenda.lean ====
section
/-! DEFINITION. Moves (log 1): the issue of a clause's next word, an event, the passing of time; and the order in which
the part makes them where `State.agenda` asks for none. -/
namespace Sys2Proof.Machine

/-! Time. -/

/-- Words that waited are tried again. -/
def State.unblock (s : State) : State := { s with running := s.running.map fun c => { c with blocked := false } }

/-- What the passing of time brings about: fixed-latency results land, and gives take effect. -/
def State.due (s : State) : State := ((s.landDue).applyGives).unblock

/-- Time passes to clk `t`; what has a bound that ends by then has happened (R204, R335). -/
def State.passTo (s : State) (t : Nat) : State := State.due { (s.deadBy t).sleepBy t with clk := t }

def State.tick (s : State) (n : Nat) : State := s.passTo (s.clk + n)

/-! A word of a clause in progress (R158, R171, R185). -/

/-- The clause of a scheduler partition comes to the head of `running`. -/
def State.focus (s : State) (core part : Nat) : Option (Issue × State) :=
  match s.running.find? fun c => c.core = core && c.part = part with
  | none => none
  | some c =>
    let c1 := { c with blocked := false }
    some (c1, { s with running := c1 :: s.running.filter fun x => !(x.core = core && x.part = part) })

/-- THE END OF A WORD: it waits, the clause goes on with its next word, or the clause is over and its threads stand at
the next one. -/
def State.endWord (s0 : State) (core part : Nat) : State :=
  match s0.running.find? fun c => c.core = core && c.part = part with
  | none => s0
  | some c =>
    if c.blocked then s0
    else
      let s := s0.unblock
      let next := s.clk + 1 + wfld c.word 50 4
      if c.group = 0 || c.words.length ≤ c.idx + 1 then
        let s1 : State := { s with running := s.running.filter fun x => !(x.core = core && x.part = part) }
        (s1.modWave c.wg c.wave fun v =>
          { v.modLanes c.group (fun _ t => { t with pc := c.nxtPc }) with nextAt := next }).settle c.wg c.wave
      else
        { s with running := s.running.map fun x =>
            if x.core = core && x.part = part then
              { x with idx := x.idx + 1, readyAt := next, await := none, waits := [], counted := false, issued := false }
            else x }

/-- A word that found host halves to recall waits, and the recalls are sent. -/
def State.wordRecalls (s t : State) : State :=
  if t.recalls = [] then t else (s.sendRecalls t.recalls).hold

/-- The word at the head of `running`, decoded. -/
def State.issue (s : State) (c : Issue) : Host.Outcome State Fault Refusal :=
  match decodeWord c.word with
  | .ok i => exec i s
  | .error _ => .next (s.groupTrap .illegalEnc)

/-- THE MOVE OF A SCHEDULER PARTITION: its clause's next word issues, at the earliest clk that R185 allows. A clause that
every thread has left ends without one. -/
def State.moveWord (s : State) (core part : Nat) : Host.Outcome State Fault Refusal :=
  match s.focus core part with
  | none => .next s
  | some (c, s1) =>
    if c.group = 0 then .next (s1.endWord core part).closeStep else
    let s2 := if s1.clk < c.readyAt then s1.passTo c.readyAt else s1
    match s2.issue c with
    | .next t => .next ((s2.wordRecalls t).endWord core part).closeStep
    | .fault r => .fault r
    | .refused r => .refused r

/-! An event. -/

/-- An instruction word has a meaning in a clause only. -/
def Instr.isEvent (i : Instr) : Bool := (encode i).isNone

/-- A request to the management controller (R379, R384), or a start. -/
def Instr.isManagement : Instr → Bool
  | .startStage0 | .getVersion | .getCapabilities | .negotiateAlgorithms | .getDigests | .getCertificate | .challenge _
  | .getMeasurements | .spdmUnsupported | .pldmFirmwareUpdate _ | .pldmSensorRead => true
  | _ => false

/-- WHAT START LETS IN (R377, R383): while stage 0 runs nothing but its end, in recovery management only, else every event. -/
def State.admits (s : State) (i : Instr) : Bool :=
  if s.mgmt.running = some 0 then decide (i = .startStage0) else !s.recovery || Instr.isManagement i

/-- An event that found host halves to recall waits until the host has answered (log 9). -/
def State.eventRecalls (s t : State) (i : Instr) : State :=
  if t.recalls = [] then t else { s.sendRecalls t.recalls with heldEvents := s.heldEvents ++ [i] }

/-- THE MOVE OF AN EVENT. -/
def State.moveEvent (s : State) (i : Instr) : Host.Outcome State Fault Refusal :=
  if !Instr.isEvent i || !s.admits i then .next s
  else
    match exec i { s with recalls := [] } with
    | .next t =>
      let t1 := s.eventRecalls t i
      .next t1.unblock.closeStep
    | .fault r => .fault r
    | .refused r => .refused r

/-- A MOVE. -/
def State.move (s : State) (m : Move) : Host.Outcome State Fault Refusal :=
  match m with
  | .word core part => s.moveWord core part
  | .event i => s.moveEvent i
  | .tick n => .next (s.tick n).closeStep
  | .hdm q base => .next (if s.mgmt.running = some 0 || s.recovery then s else s.hdmProgram q base).closeStep

/-! The part's own events, where nothing asks for a move (log 1). -/

/-- Cores with resident workgroups. -/
def State.busyCores (s : State) : List Nat := dedup (s.wgs.flatMap fun w => w.parts.map (·.core))

/-- Cores on which the next workgroup of a record can be placed. -/
def State.fitFor (s : State) (r : Rec) (may : List Nat → Bool) : Option (List Nat) :=
  (s.coreSets r.q (recCores r.image) r.ctx.world).find? fun cs => s.canPlace r.q r.ctx.world r.id cs (recNeeds r.image) && may cs

def State.coreEvents (s : State) : List Instr := List.flatten [
  s.results.map fun r => .resultLands r.id,
  s.busyCores.flatMap fun n => [.generationAdvance n, .l1Sweep n],
  (dedup (s.mq.map (·.core))).map .matrixQueueEntry,
  s.mwait.map fun e => .pebbleGrant e.id,
  (dedup (s.sbuf.map (·.core))).map .storeBufferTimeout,
  s.l1fills.map fun f => .l1Fill f.id,
  s.wgs.flatMap fun w => List.flatten [
    (List.range w.parts.length).map fun p => .regDeadlock w.id p,
    w.waves.zipIdx.flatMap fun v => .yieldExpiry w.id v.2 ::
      ((List.range 64).filter fun l => (v.1.thread l).status = .waiting).map fun l => .sleepExpiry w.id v.2 l,
    [.npreemptBoundExpiry w.id, .saveChunkTimeout w.id, .contextSave w.id]]]

def State.lodeEvents (s : State) : List Instr := List.flatten [
  s.reqs.flatMap fun r =>
    if r.isRed then [.lredContribution r.id, .lredContributionRetry r.id, .lodeFaultReturn r.id]
    else [.lodeFaultReturn r.id, .lodeAccess r.id],
  s.fills.map fun f => .lineFillReturn f.id,
  s.walks.map fun w => .pageWalkComplete w.id,
  s.deferred.map fun d => .deferredInstall d.id,
  s.invals.flatMap fun i => List.flatten [i.cores.map fun n => .albInvalidate i.id n, i.lodes.map fun n => .lodeTbInvalidate i.id n,
    [.shootdownAck i.id]],
  s.ctrReqs.flatMap fun r => [.contractAdmission r.id, .contractRelease r.id],
  s.kvReqs.map fun r => .kvLodeOperation r.id,
  s.reds.map fun r => .lredCloseRetry r.id,
  s.xposes.map fun x => .lxposeComplete x.copy.id,
  s.copies.flatMap fun c => List.flatten [
    (List.range c.chunks).map fun k => .chunkSourceRead c.id k,
    c.read.flatMap fun x => c.parts.map fun p => .chunkDelivery c.id x.1 p,
    [.copyComplete c.id]],
  s.lodeX.filterMap fun x => if x.2.roleNext.isSome then some (.roleChangeApplied x.1) else none,
  s.lodeX.filterMap fun x => if x.2.lost ≠ 0 then some (.rebuildComplete x.1) else none,
  (dedup (s.kv.map (·.lode))).map .kvAgeTick]

def State.partitionEvents (s : State) : List Instr := List.flatten [
  s.tmbRuns.map fun r => .tmbCmdDone r.q,
  s.rawWait.map fun w => .rawFlakesGranted w.2,
  s.leadList.flatMap fun q => [.stuckLineWriteback q, .tumblerMigration q, .vacateDone q, .killComplete q],
  s.leadList.filterMap fun q => if (s.tmbOf q).reclaiming then some (.balloonReclaim q) else none,
  s.coreX.filterMap fun x => if x.2.applying.isSome then some (.poolApplyDone x.1) else none,
  s.parks.map fun p => .parkedReportRetry p.id,
  s.hostHolds.flatMap fun h => [.hostWriteHoldTimeout h.id, .auditHoldTimeout h.id, .partHostHoldTimeout h.id],
  s.backInvs.map fun b => .leaseTimeout b.id,
  s.recs.flatMap fun r => [.priorityAging r.id, .recordComplete r.id, .auditVerdict r.id, .auditVote r.id],
  s.queues.filterMap fun x => if x.en then some (.recordTake x.q x.num) else none,
  (List.range 4).map .quiesceComplete]

def State.placeEvents (s : State) : List Instr := List.flatten [
  s.images.flatMap fun i =>
    match s.recs.find? fun r => r.id = i.wg.recId with
    | some r => (s.fitFor r fun cs => s.mayReturn r i.wg.wg cs && s.slotsFor i.wg i.copies cs).toList.map fun cs => .workgroupRestore i.id cs
    | none => [],
  (s.recs.filter fun r => r.wants).flatMap fun r =>
    ((s.fitFor r fun _ => true).toList ++ [[]]).map fun cs => .workgroupPlacement r.q cs,
  (s.recs.filter fun r => r.audit = .selected && r.over).flatMap fun r =>
    (s.coreSets r.q (recCores r.image) r.ctx.world).map fun cs => .auditReplay r.id [cs]]

/-- Clauses to choose, and the stage of start that runs. -/
def State.lateEvents (s : State) : List Instr := List.flatten [
  (dedup (s.wgs.flatMap fun w => w.waves.zipIdx.map fun v => (w.coreOfWave v.2, v.1.slot % 16))).map fun x => .clauseSelect x.1 x.2,
  match s.mgmt.running with
    | some 0 => [.startStage0]
    | _ => [.startStage1, .startStage2]]

/-- Whether a move brought the machine on: numbers given out, the round-robin's own counts and free-value numbers do not
count. -/
def State.progress (s t : State) : Bool :=
  let plain (x : State) : State := { x with nextId := 0, free := 0, turn := [], queues := x.queues.map fun y => { y with deficit := [] } }
  decide (plain s ≠ plain t)

def State.brings (s : State) (i : Instr) : Bool :=
  match exec i { s with recalls := [] } with
  | .next t => s.admits i && t.recalls = [] && s.progress t
  | _ => false

/-- A word that can issue, one of the part's own events that brings it on, or a clk that passes. -/
def State.nextMove (s : State) : Move :=
  match s.running.find? fun c => !c.blocked && c.readyAt ≤ s.clk with
  | some c => .word c.core c.part
  | none =>
    match [s.coreEvents, s.lodeEvents, s.partitionEvents, s.placeEvents, s.lateEvents].flatten.find? s.brings with
    | some i => .event i
    | none => .tick 1

/-- The move that the part makes of its own accord; an event that has waited for the host's halves comes first. -/
def State.ownMove (s : State) : Move × State :=
  match s.heldEvents with
  | i :: r => if s.backInvs.all fun b => b.lost then (.event i, { s with heldEvents := r }) else (s.nextMove, s)
  | [] => (s.nextMove, s)

/-- The next move: the one that the agenda asks for, else the part's own. -/
def State.nextOf (s : State) : Move × State :=
  match s.agenda with
  | m :: r => (m, { s with agenda := r })
  | [] => s.ownMove

/-! A program placed from outside. -/

/-- The role an instruction needs, VECTOR where any will do (R163). -/
def roleFor (w : Word) : Role :=
  if 0x300 ≤ w.opcode ∧ w.opcode ≤ 0x304 then .matrix
  else if w.opcode / 64 = 11 ∧ w.opcode < 0x2C3 then .copy
  else .vector

/-- A workgroup of one thread in one wave, and the clause that holds a word. -/
def placedWg (s : State) (w : Word) : Workgroup :=
  { id := s.nextId, recId := 0, ref := 0, wg := 0,
    ctx := { num := 0, q := 0, world := false, system := true, asid := 1, layout := 0, save := 0, trapVec := 8,
             queues := 0, prioMax := 0 },
    prio := 0, threads := 1, parts := [{ core := 0, budget := 256 }],
    waves := [{ role := roleFor w, part := 0, slot := 0, n := 256,
                threads := startThread 0x1000 true :: List.replicate 63 (startThread 0x1000 false) }],
    rods := List.replicate 16 {} }

def placedIssue (s : State) (w : Word) : Issue :=
  { core := 0, part := 0, wg := s.nextId, wave := 0, all := 1, group := 1, addr := 0x1000, hdr := 0xA000000000000000,
    words := [w], readyAt := s.clk }

/-- The word stands in a clause of a resident workgroup, whose move is the next (log 1). -/
def State.placeWord (s : State) (w : Word) : State :=
  { s with nextId := s.nextId + 1, wgs := s.wgs ++ [placedWg s w],
           running := placedIssue s w :: s.running.filter fun c => !(c.core = 0 && c.part = 0),
           agenda := .word 0 0 :: s.agenda }

end Sys2Proof.Machine
end

