-- ==== Sys2Proof/Safety.lean ====
section
/-! DEFINITION. The terms in which statements speak of the machine: registers as they read, when a word can issue, what
a word leaves alone, and what every step keeps. -/
namespace Sys2Proof.Machine

/-! Registers. -/

/-- A register in a lane as a number; a predicate is 0 or 1. -/
def Wave.reg (w : Wave) (r : Reg) (lane : Nat) : Word :=
  match r with
  | .v k => (w.v k lane).setWidth 64
  | .s k => w.s k
  | .p k => if w.p k lane then 1 else 0
  | .m _ | .none => 0

/-- A register as it reads once every fixed-latency write in flight has landed (R186). -/
def Wave.seen (w : Wave) (r : Reg) (lane : Nat) : Word := w.landAll.reg r lane

/-! When a word issues (R182, R187, R189). -/

/-- The registers a word names, its guard among them. -/
def Uses.all (u : Uses) (h : Hdr) : List Reg := (if h.pred = 7 then [] else [Reg.p h.pred.toNat]) ++ u.rd ++ u.wr

/-- A word can issue: a clause is in progress with environment `e`, the wave may issue it, and its registers are held by
the wave and have no write pending. No step in progress has found a host half to recall. -/
abbrev Ready (s : State) (h : Hdr) (role : Option Role) (u : Uses) (e : Env) : Prop :=
  s.env? h = some e ∧ s.recalls = [] ∧ (role = none ∨ role = some e.w.role)
    ∧ ∀ r ∈ u.all h, beyond e.w.n r = false ∧ e.w.marked r = false ∧ e.w.pending r = false

/-- THE CHOICE BETWEEN TWO READY WAVES of a partition (R203, R327): one that a YIELD excludes goes last; one that has been ready
for 4,096 clk without being chosen goes first, the longest-waiting of such; then the higher priority; among equals, the one chosen
least recently, and then the lower slot. -/
def State.goesBefore (s : State) (y z : Workgroup × Nat × Wave) : Prop :=
  let late (x : Workgroup × Nat × Wave) : Prop := ∃ t, x.2.2.yieldTo = some t ∧ s.clk < t
  let due (x : Workgroup × Nat × Wave) (t : Nat) : Prop := x.2.2.readySince = some t ∧ t + 4096 ≤ s.clk
  let turn : Prop := y.2.2.readyAt < z.2.2.readyAt ∨ (y.2.2.readyAt = z.2.2.readyAt ∧ y.2.2.slot < z.2.2.slot)
  (¬late y ∧ late z)
    ∨ ((late y ↔ late z)
      ∧ ((∃ t, due y t ∧ ∀ u, due z u → t < u ∨ (t = u ∧ turn))
        ∨ ((∀ t, ¬due y t) ∧ (∀ u, ¬due z u) ∧ (z.1.prio < y.1.prio ∨ (y.1.prio = z.1.prio ∧ turn)))))

/-! Memory, one byte at a time. -/

/-- A line of device memory: the copy a lode holds, else what its frame stores (R39, R58). -/
def State.line (s : State) (f off : Nat) : Line :=
  match s.holder f off with
  | some l => l.data
  | none => s.storedLine f off

/-- A byte of device memory by its physical address. -/
def State.byte (s : State) (pa : Nat) : Byte := lineByte (s.line (pa / 65536) (lineOff pa)) (pa % 128)

/-! What a word leaves alone. -/

/-- `t` differs from `s` in wave `k` of workgroup `wg` alone: every byte of memory, every register of the window, every
other wave, and the workgroup's parts, scratch and accumulators are as they were. -/
def Elsewhere (s t : State) (wg k : Nat) : Prop :=
  t = { s with wgs := t.wgs } ∧ (∀ pa, t.byte pa = s.byte pa) ∧ (∀ o, t.reg o = s.reg o) ∧ (∀ id j, id ≠ wg ∨ j ≠ k → t.wave? id j = s.wave? id j)
    ∧ ∀ id, (t.wg? id).map (fun w => { w with waves := [] }) = (s.wg? id).map fun w => { w with waves := [] }

/-- `t` differs from `s` in the threads and registers of wave `k` of workgroup `wg`, in which threads the clauses in
progress still run, and in how many numbers were given out. -/
def Around (s t : State) (wg k : Nat) : Prop :=
  t = { s with wgs := t.wgs, running := t.running, nextId := t.nextId }
    ∧ (∀ pa, t.byte pa = s.byte pa) ∧ (∀ o, t.reg o = s.reg o)
    ∧ t.running.map (fun c => { c with group := 0 }) = s.running.map (fun c => { c with group := 0 })
    ∧ (∀ id j, id ≠ wg ∨ j ≠ k → t.wave? id j = s.wave? id j)
    ∧ ∀ id, (t.wg? id).map (fun w => { w with waves := [] }) = (s.wg? id).map fun w => { w with waves := [] }

/-- A thread after the meetings of its wave were tested (R159): as it was; or, where it stood at its meeting address and
no clause ran it, held there, or released with its meeting over. -/
def Settles (running : Bool) (x y : Thread) : Prop :=
  y = x ∨ (x.arrived running = true ∧
    (y = { x with status := .held } ∨ y = { x with status := .eligible, meet := { x.meet with valid := false } }))

/-- A WORD THAT CHANGES ITS ACTIVE THREADS, by `f`, and the registers that `dst` names; under `leave` they leave the
clause. Nothing else changes but what the meetings of the wave bring about. -/
def Threads (s : State) (e : Env) (i : Instr) (leave : Bool) (f : Nat → Thread → Thread)
    (dst : Reg → Nat → Option Word) : Prop :=
  ∃ t v, exec i s = .next t ∧ t.wave? e.iss.wg e.iss.wave = some v ∧ Around s t e.iss.wg e.iss.wave
    ∧ t.head.map (·.group) = some (if leave then e.iss.group &&& ~~~maskOf e.act else e.iss.group)
    ∧ (∀ l, Settles (bitAt (t.runningLanes e.iss.wg e.iss.wave) l)
        (if l ∈ e.act then f l (e.w.thread l) else e.w.thread l) (v.thread l))
    ∧ ∀ r lane, lane < 64 → v.seen r lane = (dst r lane).getD (e.w.seen r lane)

/-- A WORD THAT STARTS A SCOREBOARDED OPERATION (R187, R188) whose result `r` is known: its registers are marked, all but p7,
which never changes; its counter rises, and nothing else changes but the wave, to `w`. The result lands by `RESULT_LANDS`. -/
def Starts (s : State) (e : Env) (i : Instr) (w : Wave) (r : Result) : Prop :=
  ∃ t, exec i s = .next t ∧ t.results = s.results ++ [{ r with id := s.nextId, wg := e.iss.wg, wave := e.iss.wave }]
    ∧ t.wave? e.iss.wg e.iss.wave = some { w with
        marks := w.marks ++ (r.regs.filter fun x => x ≠ .p 7).map fun x => (x, s.nextId)
        cnt := match r.cnt with
          | some c => w.cnt.bump c 1
          | none => w.cnt }
    ∧ Elsewhere { s with results := t.results, nextId := s.nextId + 1 } t e.iss.wg e.iss.wave

/-- A result known at issue, `lat` clk after `s`. -/
def resultAt (s : State) (c : Option Cnt) (lat : Nat) (regs : List Reg) (writes : List RegWrite) : Result :=
  { id := 0, wg := 0, wave := 0, cnt := c, regs := regs, writes := writes, ready := true, readyAt := s.clk + lat }

/-- A memory word finds its layout entry at its core (R130), and the wave holds its coordinate registers. -/
def Entry (s : State) (e : Env) (h : Byte) (scalar : Bool) (k : Byte) (l : Layout) : Prop :=
  s.layEntry e.core e.ctx (e.uniform h) = (some l, s)
    ∧ ∀ r ∈ coordRegs scalar k l.rank.toNat, beyond e.w.n r = false ∧ e.w.marked r = false ∧ e.w.pending r = false
      ∧ ∀ i, r = .s i → i < 192

/-- The wave's side of a word that sends an operation to a unit which answers later in register `d`: its result is
outstanding, the register marked, the counter one higher; no byte of memory, register of the window, other wave, scratch
or accumulator changes. -/
def Sends (s t : State) (e : Env) (c : Cnt) (regs : List Reg) : Prop :=
  (∃ r, t.results = s.results ++ [r] ∧ r.id = s.nextId ∧ r.wg = e.iss.wg ∧ r.wave = e.iss.wave ∧ r.cnt = some c
    ∧ r.regs = regs)
    ∧ t.wave? e.iss.wg e.iss.wave = some { e.w with
        marks := e.w.marks ++ regs.map fun x => (x, s.nextId), cnt := e.w.cnt.bump c 1 }
    ∧ (∀ pa, t.byte pa = s.byte pa) ∧ (∀ o, t.reg o = s.reg o)
    ∧ (∀ id j, id ≠ e.iss.wg ∨ j ≠ e.iss.wave → t.wave? id j = s.wave? id j)
    ∧ ∀ id k, t.partOf id k = s.partOf id k

/-- No rod of a workgroup holds a bead. -/
def Workgroup.noBeads (w : Workgroup) : Prop := ∀ r, (w.rod r).beads = []

/-- No thread of a workgroup waits at a barrier object. -/
def Workgroup.noWaits (w : Workgroup) : Prop := ∀ v ∈ w.waves, ∀ t ∈ v.threads, ∀ p, t.phaseMet p = none

/-- A WORD THAT ONLY WRITES REGISTERS OF ITS WAVE: `exec` answers a next state in which the registers that `dst` names
read the values it gives once the writes have landed, every other register reads as it would have without the word, and
nothing but the wave's writes in flight differs: no pc, no flag, no other wave, no special register, no byte of memory. -/
def Gives (s : State) (e : Env) (i : Instr) (dst : Reg → Nat → Option Word) : Prop :=
  ∃ t p, exec i s = .next t ∧ t.wave? e.iss.wg e.iss.wave = some { e.w with pend := p }
    ∧ Elsewhere s t e.iss.wg e.iss.wave
    ∧ ∀ r lane, lane < 64 → Wave.seen { e.w with pend := p } r lane = (dst r lane).getD (e.w.seen r lane)

/-- The destination of an arithmetic word (R177, R179, R220): the value `g` of each active lane in a vector register or
an even pair, or once in a scalar register, extended by its type. -/
def Env.dest (e : Env) (f : AF) (ty : Ty) (g : Nat → Nat) (r : Reg) (lane : Nat) : Option Word :=
  match r with
  | .v k =>
    if f.u ∨ lane ∉ e.act then none
    else if k = f.d.toNat then some (BitVec.ofNat 64 (g lane % 2 ^ 32))
    else if ty.is64 ∧ k = f.d.toNat + 1 then some (BitVec.ofNat 64 (g lane / 2 ^ 32 % 2 ^ 32))
    else none
  | .s k => if f.u ∧ e.act ≠ [] ∧ k = f.d.toNat then some (scalarWrite ty k (g 0)).val else none
  | _ => none

/-- The predicate destination of a comparison (R226): p7 keeps reading 1. -/
def Env.predDest (e : Env) (f : AF) (g : Nat → Bool) (r : Reg) (lane : Nat) : Option Word :=
  match r with
  | .p k => if k = f.d.toNat ∧ k ≠ 7 ∧ lane ∈ e.act then some (if (if f.u then g 0 else g lane) then 1 else 0) else none
  | _ => none

/-- The destination of MOVI: a scalar register when `sc`, else the register in every active lane. -/
def Env.immDest (e : Env) (sc : Bool) (d : Byte) (v : Word) (r : Reg) (lane : Nat) : Option Word :=
  match r with
  | .v k => if !sc ∧ lane ∈ e.act ∧ k = d.toNat then some (v &&& 0xFFFFFFFF) else none
  | .s k => if sc ∧ e.act ≠ [] ∧ k = d.toNat then some v else none
  | _ => none

/-- The word `i`, whenever it is well formed and can issue, gives the values `dst` and changes nothing else. -/
def GivesDest (i : Instr) (h : Hdr) (dst : Env → Reg → Nat → Option Word) : Prop :=
  i.wellFormed = true → ∀ s e, Ready s h none (usesOf i) e → Gives s e i (dst e)

/-! Operands of an arithmetic word in a lane: the whole operand, and element `i` of a packed one as an integer (R224) or
as an exact value (R133, R233). -/

def Env.opA (e : Env) (f : AF) (t : Ty) (l : Nat) : Nat := e.src f f.sa t f.a l
def Env.opB (e : Env) (f : AF) (t : Ty) (l : Nat) : Nat := e.src f f.sb t f.b l
def Env.opC (e : Env) (f : AF) (t : Ty) (l : Nat) : Nat := e.src f f.sc t f.c l
def Env.intA (e : Env) (f : AF) (l i : Nat) : Int := intVal f.ty (elemOf f.ty (e.opA f f.ty l) i)
def Env.intB (e : Env) (f : AF) (l i : Nat) : Int := intVal f.ty (elemOf f.ty (e.opB f f.ty l) i)
def Env.valA (e : Env) (f : AF) (l i : Nat) : Val := floatElem f.ty (e.opA f f.ty l) i
def Env.valB (e : Env) (f : AF) (l i : Nat) : Val := floatElem f.ty (e.opB f f.ty l) i
def Env.valC (e : Env) (f : AF) (l i : Nat) : Val := floatElem f.ty (e.opC f f.ty l) i

/-! Accesses of the host. -/

/-- `n` bytes of one line at `pa`, in the host's range of partition `q`, which their home lode holds as line `l` with
neither half at the host; nothing stands in the way of an access from outside. -/
structure HostReach (s : State) (pa n : Nat) (q : Nat) (l : LLine) : Prop where
  some  : 0 < n
  line  : pa % 128 + n ≤ 128
  range : s.hdm (pa / 65536) = Option.some q
  calm  : s.reshaping q = false
  plain : s.frameSecure q (pa / 65536) = false
  given : (s.frame (pa / 65536)).st ≠ .balloon ∧ (s.frame (pa / 65536)).st ≠ .reclaimed
  held  : s.holder (pa / 65536) (lineOff pa) = Option.some l
  alone : ∀ z ∈ s.lines, z.id = l.id → z = l
  clean : l.poison = false ∧ l.lo = .i ∧ l.hi = .i
  awake : (s.lodeOf l.lode).asleep = false
  idle  : s.recalls = []

/-- A write from outside to those bytes: no translation shares the frame, no audit or shoot-down concerns it, the host's
quota has room. -/
structure HostWrites (s : State) (pa n : Nat) (q : Nat) (l : LLine) : Prop extends HostReach s pa n q l where
  own   : ∀ x, s.rmapOf (pa / 65536) = Option.some x → x.shared = false
  free  : s.heldForAudit pa n = false
  room  : s.hostCount q < s.rf (rTMB_SD_QUOTA q) 32 32
  still : s.dir = [] ∧ s.backInvs = []

/-- The bytes of memory at `pa` and on. -/
def State.bytesFrom (s : State) (pa n : Nat) : List Byte := (List.range n).map fun i => s.byte (pa + i)

/-- Memory is `s`'s but for the bytes `d` at `pa`. -/
def State.with (s t : State) (pa : Nat) (d : List Byte) : Prop :=
  ∀ a, t.byte a = if pa ≤ a ∧ a < pa + d.length then d.getD (a - pa) 0 else s.byte a

/-! What every step leaves behind. -/

/-- `u` is one of the threads that `t` waits for at its meeting (R159): of the same current set, neither exited nor
parked, with a valid meet of the same address. -/
def Thread.sibling (t u : Thread) : Prop :=
  u.curSet = t.curSet ∧ u.status ≠ .exited ∧ u.status ≠ .parked ∧ u.meet.valid = true ∧ u.meet.addr = t.meet.addr

/-- THE MEETINGS OF A WAVE STAND AS R159 SAYS: a thread that has arrived at its meeting address is held, and waits for a
sibling that has not arrived. `running` are the lanes that a clause in progress still runs. -/
def Wave.MeetingsHold (w : Wave) (running : BitVec 64) : Prop :=
  ∀ l, l < w.threads.length → (w.thread l).arrived (bitAt running l) = true → (w.thread l).status = .held
    ∧ ∃ m, m < w.threads.length ∧ (w.thread l).sibling (w.thread m) ∧ (w.thread m).arrived (bitAt running m) = false

/-- The meetings of every wave stand so. -/
def State.MeetingsHold (s : State) : Prop :=
  ∀ w ∈ s.wgs, ∀ (k : Nat) (v : Wave), w.waves[k]? = some v → v.MeetingsHold (s.runningLanes w.id k)

end Sys2Proof.Machine
end

