-- ==== Sys2Proof/Certificates/Slice0/Obligations.lean ====
section
/-! DEFINITION. The statements for the provers: what each instruction and each event does, when it completes, what it leaves
alone, and what every step keeps. -/
open Sys2Proof Sys2Proof.Machine

/-! Arithmetic: `GivesDest` says that the word completes with these values and changes nothing else. -/

/-- The two-source integer instructions of R224, element by element, saturated where .sat is set.
IADDC writes the sum in the low word and the carry in the high one; IMAD multiplies and adds, in 64 bits under .wide
(R224).
AND, OR, XOR and NOT are bitwise. -/
def Obligations.IntegerArithmetic : Prop :=
  (∀ (h : Hdr) (f : AF),
  GivesDest (.iadd h f) h (fun e => e.dest f f.ty fun l => packed f.ty fun i =>
    intRes f.ty (bitAt f.m 0) (e.intA f l i + e.intB f l i))
  ∧ GivesDest (.isub h f) h (fun e => e.dest f f.ty fun l => packed f.ty fun i =>
    intRes f.ty (bitAt f.m 0) (e.intA f l i - e.intB f l i))
  ∧ GivesDest (.imul h f) h (fun e => e.dest f f.ty fun l => packed f.ty fun i =>
    intRes f.ty false (e.intA f l i * e.intB f l i))
  ∧ GivesDest (.imulh h f) h (fun e => e.dest f f.ty fun l => packed f.ty fun i =>
    intRes f.ty false (e.intA f l i * e.intB f l i / 2 ^ tyElem f.ty))
  ∧ GivesDest (.imin h f) h (fun e => e.dest f f.ty fun l => packed f.ty fun i =>
    intRes f.ty false (min (e.intA f l i) (e.intB f l i)))
  ∧ GivesDest (.imax h f) h (fun e => e.dest f f.ty fun l => packed f.ty fun i =>
    intRes f.ty false (max (e.intA f l i) (e.intB f l i)))
  ∧ GivesDest (.iabs h f) h (fun e => e.dest f f.ty fun l => packed f.ty fun i =>
    intRes f.ty (bitAt f.m 0) (e.intA f l i).natAbs)
  ∧ GivesDest (.ineg h f) h (fun e => e.dest f f.ty fun l => packed f.ty fun i =>
    intRes f.ty (bitAt f.m 0) (-(e.intA f l i))))
  ∧ (∀ (h : Hdr) (f : AF),
  GivesDest (.iaddc h f) h (fun e => e.dest f .n64 fun l =>
    let c : Int := ((e.opC f .n32 l % 2 : Nat) : Int)
    let a : Int := e.opA f .n32 l
    let b : Int := e.opB f .n32 l
    if bitAt f.m 0 then ((a - b - c) % 2 ^ 32).toNat + (if a - b - c < 0 then 2 ^ 32 else 0)
    else ((a + b + c) % 2 ^ 32).toNat + (if 2 ^ 32 ≤ a + b + c then 2 ^ 32 else 0))
  ∧ GivesDest (.imad h f) h (fun e =>
    let ct := if bitAt f.m 0 then wideTy f.ty else f.ty
    e.dest f ct fun l => intCode (tyBits ct)
      (intVal f.ty (e.opA f f.ty l) * intVal f.ty (e.opB f f.ty l) + intVal ct (e.opC f ct l))))
  ∧ (∀ (h : Hdr) (f : AF),
  GivesDest (.and h f) h (fun e => e.dest f f.ty fun l => e.opA f f.ty l &&& e.opB f f.ty l)
  ∧ GivesDest (.or h f) h (fun e => e.dest f f.ty fun l => e.opA f f.ty l ||| e.opB f f.ty l)
  ∧ GivesDest (.xor h f) h (fun e => e.dest f f.ty fun l => e.opA f f.ty l ^^^ e.opB f f.ty l)
  ∧ GivesDest (.not h f) h (fun e => e.dest f f.ty fun l => 2 ^ tyBits f.ty - 1 - e.opA f f.ty l))

/-- Shifts, rotates, bit counts and bit fields (R225): `w` is the operand width, the count is read as 32 bits. -/
def Obligations.ShiftsAndBitFields : Prop := ∀ (h : Hdr) (f : AF),
  GivesDest (.shl h f) h (fun e => e.dest f f.ty fun l =>
    if tyBits f.ty ≤ e.opB f .n32 l then 0 else e.opA f f.ty l * 2 ^ e.opB f .n32 l % 2 ^ tyBits f.ty)
  ∧ GivesDest (.shr h f) h (fun e => e.dest f f.ty fun l =>
    if tyBits f.ty ≤ e.opB f .n32 l then 0 else e.opA f f.ty l % 2 ^ tyBits f.ty / 2 ^ e.opB f .n32 l)
  ∧ GivesDest (.sar h f) h (fun e => e.dest f f.ty fun l =>
    shiftArith (tyBits f.ty) (e.opA f f.ty l) (e.opB f .n32 l))
  ∧ GivesDest (.rot h f) h (fun e => e.dest f f.ty fun l =>
    let n := e.opB f .n32 l % tyBits f.ty
    rotateLeft (tyBits f.ty) (e.opA f f.ty l) (if bitAt f.m 0 then tyBits f.ty - n else n))
  ∧ GivesDest (.popc h f) h (fun e => e.dest f .n32 fun l => popCount (tyBits f.ty) (e.opA f f.ty l))
  ∧ GivesDest (.clz h f) h (fun e => e.dest f .n32 fun l => leadZeros (tyBits f.ty) (e.opA f f.ty l))
  ∧ GivesDest (.brev h f) h (fun e => e.dest f f.ty fun l => bitReverse (tyBits f.ty) (e.opA f f.ty l))
  ∧ GivesDest (.bfe h f) h (fun e => e.dest f f.ty fun l =>
    fieldExtract (Ty.signed f.ty) (tyBits f.ty) (e.opA f f.ty l) (e.opB f .n32 l))
  ∧ GivesDest (.bfi h f) h (fun e => e.dest f f.ty fun l =>
    fieldInsert (tyBits f.ty) (e.opA f f.ty l) (e.opB f .n32 l) (e.opC f f.ty l))

/-- ICMP and FCMP write the predicate their condition code names (R226, R236): to FCMP −0 equals +0 and a NaN is
unordered. A destination of p7 changes nothing. ICMP's codes 6 and 7 are no encoding. -/
def Obligations.Comparisons : Prop := ∀ (h : Hdr) (f : AF),
  (6 ≤ f.mlo 2 0 → (Instr.icmp h f).wellFormed = false)
  ∧ ((Instr.fcmp h f).wellFormed = true → f.ty = .f32 ∨ f.ty = .f64)
  ∧ GivesDest (.icmp h f) h (fun e => e.predDest f fun l =>
    let x := intVal f.ty (e.opA f f.ty l)
    let y := intVal f.ty (e.opB f f.ty l)
    let c := f.mlo 2 0
    decide ((c = 0 ∧ x = y) ∨ (c = 1 ∧ x ≠ y) ∨ (c = 2 ∧ x < y) ∨ (c = 3 ∧ x ≤ y) ∨ (c = 4 ∧ x > y) ∨ (c = 5 ∧ x ≥ y)))
  ∧ GivesDest (.fcmp h f) h (fun e => e.predDest f fun l =>
    let x := (floatFmt f.ty).decode (e.opA f f.ty l)
    let y := (floatFmt f.ty).decode (e.opB f f.ty l)
    let ord : Bool := !x.isNan && !y.isNan
    let c := f.mlo 2 0
    (c = 0 && ord && x.eqv y) || (c = 1 && (!ord || !x.eqv y)) || (c = 2 && ord && x.lt y)
      || (c = 3 && ord && (x.lt y || x.eqv y)) || (c = 4 && ord && !(x.lt y || x.eqv y)) || (c = 5 && ord && !x.lt y)
      || (c = 6 && ord) || (c = 7 && !ord))

/-- MOV copies and SEL chooses by a predicate of each thread (R227).
MOVI writes its immediate (R228): form I sign-extended; form L zero-extended, sign-extended with .sx, or into the
high half with .hi. -/
def Obligations.Moves : Prop :=
  (∀ (h : Hdr) (f : AF),
  GivesDest (.mov h f) h (fun e => e.dest f f.ty fun l => e.opA f f.ty l)
  ∧ GivesDest (.sel h f) h (fun e => e.dest f f.ty fun l =>
    if e.w.p f.c.toNat l = bitAt f.m 0 then e.opB f f.ty l else e.opA f f.ty l))
  ∧ (∀ (h : Hdr),
  (∀ f : IF, GivesDest (.moviImm h f) h fun e => e.immDest (128 ≤ f.a.toNat) f.d (f.imm.signExtend 64))
  ∧ ∀ f : LF, GivesDest (.moviLit h f) h fun e => e.immDest (bitAt f.sel 5) f.d
    (if bitAt f.sel 3 then (e.w.s f.d.toNat &&& 0xFFFFFFFF) ||| (f.lit.setWidth 64 <<< 32)
     else if bitAt f.sel 4 then f.lit.signExtend 64 else f.lit.setWidth 64))

/-- The wave operations (R222, R229 to R231): a source lane's register as it stands, whatever that lane's thread does, and
the vote of the active threads.
WRED combines the active lanes in the fixed tree over lane numbers, SCAN in a chain in ascending lane order (R232). -/
def Obligations.WaveOperations : Prop :=
  (∀ (h : Hdr) (f : AF),
  let bits : Prop := f.ty = .b32 ∨ f.ty = .b64
  ((Instr.bcast h f).wellFormed = true → f.u = false ∧ f.sa = false ∧ f.sb = true ∧ bits)
  ∧ ((Instr.readlane h f).wellFormed = true → f.u = true ∧ f.sa = false ∧ bits)
  ∧ ((Instr.shfl h f).wellFormed = true →
    f.u = false ∧ f.sa = false ∧ bits ∧ 1 ≤ f.mlo 4 2 ∧ f.mlo 4 2 ≤ 6 ∧ bitAt f.m 5 = false)
  ∧ ((Instr.vote h f).wellFormed = true → f.ty = .i32 ∧ f.sa = false ∧ f.a.toNat < 8) ∧
  GivesDest (.bcast h f) h (fun e => e.dest f f.ty fun l => e.vec f.ty f.a (e.opB f .n32 l % 64))
  ∧ GivesDest (.readlane h f) h (fun e => e.dest f f.ty fun l => e.vec f.ty f.a (e.opB f .n32 l % 64))
  ∧ GivesDest (.shfl h f) h (fun e => e.dest f f.ty fun l =>
    let w := 2 ^ f.mlo 4 2
    let k := e.opB f .n32 l
    let s0 := l - l % w
    e.vec f.ty f.a (match f.mlo 1 0 with
      | 0 => s0 + k % w
      | 1 => if k ≥ w ∨ l < s0 + k then l else l - k
      | 2 => if k ≥ w ∨ l + k ≥ s0 + w then l else l + k
      | _ => l ^^^ (k % w)))
  ∧ GivesDest (.vote h f) h (fun e =>
    let q (l : Nat) : Bool := e.w.p f.a.toNat l != bitAt f.m 2
    e.dest f (if f.mlo 1 0 = 3 then .n64 else .n32) fun _ =>
      match f.mlo 1 0 with
      | 0 => if ∀ l ∈ e.act, q l then 1 else 0
      | 1 => if ∃ l ∈ e.act, q l then 1 else 0
      | 2 => if (∀ l ∈ e.act, q l) ∨ ∀ l ∈ e.act, !q l then 1 else 0
      | _ => (maskOf (e.act.filter q)).toNat))
  ∧ (∀ (h : Hdr) (f : AF),
  GivesDest (.wred h f) h (fun e => e.dest f f.ty fun _ =>
    ((wredTree (reduceOp f.ty (f.mlo 2 0)) 6
      ((List.range 64).map fun l => if l ∈ e.act then some (e.vec f.ty f.a l) else none)).headD none).getD 0)
  ∧ GivesDest (.scan h f) h (fun e => e.dest f f.ty fun l =>
    let op := reduceOp f.ty (f.mlo 2 0)
    let before := (e.act.takeWhile fun k => k ≠ l).map (e.vec f.ty f.a)
    let x := e.vec f.ty f.a l
    match before with
    | [] => if bitAt f.m 3 then reduceId f.ty (f.mlo 2 0) else x
    | a :: r => if bitAt f.m 3 then r.foldl op a else op (r.foldl op a) x))

/-- The float instructions (R233 to R235): the exact result of each element, rounded once by the mode; FMIN and FMAX give
an operand's code. -/
def Obligations.FloatArithmetic : Prop := ∀ (h : Hdr) (f : AF),
  GivesDest (.fadd h f) h (fun e => e.dest f f.ty fun l => packed f.ty fun i =>
    floatRes f.ty (rmode f) ((e.valA f l i).add (zeroNeg (rmode f)) (e.valB f l i)))
  ∧ GivesDest (.fsub h f) h (fun e => e.dest f f.ty fun l => packed f.ty fun i =>
    floatRes f.ty (rmode f) ((e.valA f l i).add (zeroNeg (rmode f)) (e.valB f l i).negate))
  ∧ GivesDest (.fmul h f) h (fun e => e.dest f f.ty fun l => packed f.ty fun i =>
    floatRes f.ty (rmode f) ((e.valA f l i).mul (e.valB f l i)))
  ∧ GivesDest (.ffma h f) h (fun e => e.dest f f.ty fun l => packed f.ty fun i =>
    floatRes f.ty (rmode f) (((e.valA f l i).mul (e.valB f l i)).add (zeroNeg (rmode f)) (e.valC f l i)))
  ∧ GivesDest (.fmin h f) h (fun e => e.dest f f.ty fun l => packed f.ty fun i =>
    minMaxNum (floatFmt f.ty) false (elemOf f.ty (e.opA f f.ty l) i) (elemOf f.ty (e.opB f f.ty l) i))
  ∧ GivesDest (.fmax h f) h (fun e => e.dest f f.ty fun l => packed f.ty fun i =>
    minMaxNum (floatFmt f.ty) true (elemOf f.ty (e.opA f f.ty l) i) (elemOf f.ty (e.opB f f.ty l) i))
  ∧ GivesDest (.fdivs h f) h (fun e => e.dest f f.ty fun l => packed f.ty fun i =>
    floatRes f.ty (rmode f) ((e.valA f l i).div (e.valB f l i)))
  ∧ GivesDest (.fsqrt h f) h (fun e => e.dest f f.ty fun l =>
    floatRes .f32 (rmode f) (f32F.decode (e.opA f f.ty l)).sqrt)

/-- The special functions (R238) return one of the two f32 values next to the exact one; which, is open (R9, log 10), and
`Config.faithfulUp` is free. FCLASS sets the bit of the operand's class (R237).
DOT2 forms the exact sum of two products and c and rounds it once; DOT4 adds four integer products to c (R240). -/
def Obligations.SpecialFunctionsAndDots : Prop :=
  (∀ (h : Hdr) (f : AF),
  let near (fn : Nat) (e : Env) : Reg → Nat → Option Word := e.dest f f.ty fun l =>
    let (lo, hi) := specialOf fn (e.opA f f.ty l)
    if Config.faithfulUp fn (BitVec.ofNat 32 (e.opA f f.ty l)) then hi else lo
  GivesDest (.frcp h f) h (near 0) ∧ GivesDest (.frsq h f) h (near 1) ∧ GivesDest (.fex2 h f) h (near 2)
    ∧ GivesDest (.flg2 h f) h (near 3) ∧ GivesDest (.fsin h f) h (near 4) ∧ GivesDest (.fcos h f) h (near 5)
    ∧ GivesDest (.fclass h f) h (fun e => e.dest f .n32 fun l => classOfCode (floatFmt f.ty) (e.opA f f.ty l)))
  ∧ (∀ (h : Hdr) (f : AF),
  GivesDest (.dot2 h f) h (fun e => e.dest f .f32 fun l =>
    let p (i : Nat) : Val := (e.valA f l i).mul (e.valB f l i)
    floatRes .f32 (rmode f)
      (((p 0).add (zeroNeg (rmode f)) (p 1)).add (zeroNeg (rmode f)) (f32F.decode (e.opC f .f32 l))))
  ∧ GivesDest (.dot4 h f) h (fun e =>
    let ct : Ty := if f.ty = .i8x4 then .i32 else .n32
    e.dest f ct fun l => intRes ct (bitAt f.m 0) (intVal ct (e.opC f ct l) + e.intA f l 0 * e.intB f l 0
      + e.intA f l 1 * e.intB f l 1 + e.intA f l 2 * e.intB f l 2 + e.intA f l 3 * e.intB f l 3)))

/-- CVT converts a value, or encodes the active lanes of each block together (R243); FRND rounds to an integral value
(R244); PACK and UNPK move between 32-bit values and pairs (R245); SLLVL writes levels (R289). -/
def Obligations.Conversions : Prop := ∀ (h : Hdr) (f : AF),
  GivesDest (.cvt h f) h (fun e =>
    let b := if cvBlock f = 1 then 16 else 32
    if cvBlock f = 0 then e.dest f (cvtDst f.b.toNat) fun l => cvtPlace f.b.toNat (e.cvtElem f l).1
    else e.dest f .n32 fun l => ((e.cvtBlock f (e.act.filter fun k => k / b = l / b)).lookup l).getD 0)
  ∧ GivesDest (.frnd h f) h (fun e => e.dest f f.ty fun l => packed f.ty fun i =>
    floatRes f.ty .rne (roundIntegral (rmode f) (e.valA f l i)))
  ∧ GivesDest (.pack h f) h (fun e => e.dest f f.ty fun l =>
    let cv (x : Nat) : Nat := ((packWide f.ty).convert (packNarrow f.ty) (rmode f) (bitAt f.m 2) none x).1
    cv (e.opA f (wideOf f.ty) l) + cv (e.opB f (wideOf f.ty) l) * 2 ^ 16)
  ∧ GivesDest (.unpk h f) h (fun e => e.dest f (wideOf f.ty) fun l =>
    ((packNarrow f.ty).convert (packWide f.ty) .rne true none (elemOf f.ty (e.opA f f.ty l) (f.mlo 0 0))).1)
  ∧ GivesDest (.sllvl h f) h (fun e => e.dest f f.ty fun l =>
    let lv (i : Nat) : Nat := (sliOfTy f.ty).level (elemOf f.ty (e.opA f f.ty l) i % 2 ^ (sliOfTy f.ty).mbits)
    if f.ty = .sli16x2 then lv 0 + lv 1 * 2 ^ 16 else lv 0)

/-! Control. -/

/-- BRA, BRX, CALL, CALLX and RET (R197 to R199): with every target within 0 to 2^57 - 1, the active threads leave the
clause with their pc at their targets, and the calls leave nxt in the link pair. -/
def Obligations.BranchesAndCalls : Prop := ∀ s h e,
  let inRange (tg : Nat → Int) : Prop := ∀ l ∈ e.act, 0 ≤ tg l ∧ tg l < 2 ^ 57
  let goes (tg : Nat → Int) (l : Nat) (t : Thread) : Thread := { t with pc := pcAt (BitVec.ofInt 57 (tg l)) }
  let imm (f : IF) (_ : Nat) : Int := e.iss.addr.toNat + 8 * f.imm.toInt
  let reg (f : GF) (l : Nat) : Int := if bitAt f.m 0 then ((e.uniform f.a).toNat : Int) else (e.vec .b64 f.a l : Int)
  let nxt := e.iss.addr.toNat + 8 * (wfld e.iss.hdr 52 4 + 2)
  let link (d : Byte) (r : Reg) (lane : Nat) : Option Word :=
    if lane ∉ e.act then none
    else if r = .v d.toNat then some (BitVec.ofNat 64 (nxt % 2 ^ 32))
    else if r = .v (d.toNat + 1) then some (BitVec.ofNat 64 (nxt % 2 ^ 57 / 2 ^ 32)) else none
  (∀ f : IF, Ready s h none (usesOf (.bra h f)) e → inRange (imm f) →
    Threads s e (.bra h f) true (goes (imm f)) fun _ _ => none)
  ∧ (∀ f : GF, Ready s h none (usesOf (.brx h f)) e → inRange (reg f) →
    Threads s e (.brx h f) true (goes (reg f)) fun _ _ => none)
  ∧ (∀ f : IF, Ready s h none (usesOf (.call h f)) e → inRange (imm f) →
    Threads s e (.call h f) true (goes (imm f)) (link f.d))
  ∧ (∀ f : GF, Ready s h none (usesOf (.callx h f)) e → inRange (reg f) →
    Threads s e (.callx h f) true (goes (reg f)) (link f.d))
  ∧ (∀ f : GF, Ready s h none (usesOf (.ret h f)) e → inRange (fun l => e.vec .b64 f.a l) →
    Threads s e (.ret h f) true (goes fun l => e.vec .b64 f.a l) fun _ _ => none)

/-- MEET and UNMEET change the meeting register of the active threads (R200); JOIN and LEAVE their sets (R207), where no
rod holds a bead that the change could set off. -/
def Obligations.MeetingsAndSets : Prop := ∀ s h e,
  (∀ f : IF, Ready s h none (usesOf (.meet h f)) e →
    let tg : Int := e.iss.addr.toNat + 8 * f.imm.toInt
    0 ≤ tg → tg < 2 ^ 57 →
    Threads s e (.meet h f) false (fun _ t => { t with meet := ⟨BitVec.ofInt 57 tg, true⟩ }) fun _ _ => none)
  ∧ (∀ f : GF, Ready s h none (usesOf (.unmeet h f)) e →
    Threads s e (.unmeet h f) false (fun _ t => { t with meet := { t.meet with valid := false } }) fun _ _ => none)
  ∧ (e.wg.noBeads →
    (∀ f : IF, Ready s h none (usesOf (.joinImm h f)) e → f.imm.toNat < 32 →
      Threads s e (.joinImm h f) false (fun _ t => { t with sets := t.sets ||| (1#32 <<< f.imm.toNat) }) fun _ _ => none)
    ∧ (∀ f : GF, Ready s h none (usesOf (.joinReg h f)) e → (e.uniform f.a).toNat < 32 →
      Threads s e (.joinReg h f) false (fun _ t => { t with sets := t.sets ||| (1#32 <<< (e.uniform f.a).toNat) })
        fun _ _ => none)
    ∧ (∀ f : IF, Ready s h none (usesOf (.leaveImm h f)) e → f.imm.toNat < 32 → f.imm ≠ 0 →
      Threads s e (.leaveImm h f) false (fun _ t => { t with sets := t.sets &&& ~~~(1#32 <<< f.imm.toNat) })
        fun _ _ => none)
    ∧ ∀ f : GF, Ready s h none (usesOf (.leaveReg h f)) e → (e.uniform f.a).toNat < 32 → e.uniform f.a ≠ 0 →
      Threads s e (.leaveReg h f) false (fun _ t => { t with sets := t.sets &&& ~~~(1#32 <<< (e.uniform f.a).toNat) })
        fun _ _ => none)

/-- NOP does nothing (R202). YIELD has its wave passed over for 64 clk (R203). SLEEP and PTSYNC leave their threads
waiting at nxt (R204, R217), EXIT exits them (R201), each where nothing else hangs on it: no store buffered, no bead. -/
def Obligations.WaitsAndEnds : Prop := ∀ s h e f,
  (Ready s h none (usesOf (.nop h f)) e → exec (.nop h f) s = .next s)
  ∧ (Ready s h none (usesOf (.yieldW h f)) e → e.act ≠ [] →
    exec (.yieldW h f) s = .next (s.modWave e.iss.wg e.iss.wave fun w => { w with yieldTo := some (s.clk + 64) }))
  ∧ (∀ g : IF, Ready s h none (usesOf (.sleep h g)) e →
    Threads s e (.sleep h g) true (fun _ t =>
      { t with pc := e.iss.nxtPc, status := .waiting, waitOn := .sleep (s.clk + g.imm.toNat) }) fun _ _ => none)
  ∧ (Ready s h none (usesOf (.ptsync h f)) e → (∀ x ∈ s.sbuf, x.core ≠ e.core) →
    Threads s e (.ptsync h f) true (fun _ t =>
      { t with pc := e.iss.nxtPc, status := .waiting, waitOn := .ptsync s.nextId }) fun _ _ => none)
  ∧ (Ready s h none (usesOf (.exit h f)) e → e.wg.noBeads →
    Threads s e (.exit h f) true (fun _ t => { t with status := .exited }) fun _ _ => none)

/-- BKPT and TRAP (R205, R341): threads outside a handler enter it, with the cause, nxt and the code saved and meet moved
to its shadow. TRAPRET undoes it in threads inside one (R342).
An opcode that is not assigned traps ILLEGAL_OPCODE in every thread of the issue group, at its word (R184, R341). -/
def Obligations.TrapsAndReturns : Prop :=
  (∀ s h e,
  let entered (c : Nat) (code : Word) (_ : Nat) (t : Thread) : Thread :=
    { t with cause := BitVec.ofNat 8 c, active := true, laneCause := false, delivered := false, tpc := e.iss.nxtPc,
             tinfo := code, shadow := t.meet, meet := {}, pc := pcAt e.wg.ctx.trapVec, status := .eligible,
             waitOn := .none, faultId := none }
  (∀ f : IF, e.wg.ctx.trapVec ≠ 0 → (∀ l ∈ e.act, (e.w.thread l).active = false) → f.imm.toNat < 2 ^ 16 →
    (Ready s h none (usesOf (.bkpt h f)) e →
      Threads s e (.bkpt h f) true (entered 37 (f.imm.setWidth 64)) fun _ _ => none)
    ∧ (Ready s h none (usesOf (.trap h f)) e →
      Threads s e (.trap h f) true (entered 38 (f.imm.setWidth 64)) fun _ _ => none))
  ∧ ∀ f : GF, Ready s h none (usesOf (.trapret h f)) e → (∀ l ∈ e.act, (e.w.thread l).active = true) →
    Threads s e (.trapret h f) true (fun _ t => { t with meet := t.shadow, active := false, pc := t.tpc.norm })
      fun _ _ => none)
  ∧ (∀ s h e w, s.env? h = some e → e.wg.ctx.trapVec ≠ 0 →
  (∀ l, bitAt e.iss.group l = true → (e.w.thread l).active = false) → e.iss.group ≠ 0 →
  ∃ t v, exec (.illegalOpcode w) s = .next t ∧ t.wave? e.iss.wg e.iss.wave = some v
    ∧ Around s t e.iss.wg e.iss.wave ∧ t.head.map (·.group) = some 0
    ∧ ∀ l, bitAt e.iss.group l = true → l < e.w.threads.length →
      (v.thread l).cause = 17 ∧ (v.thread l).active = true ∧ (v.thread l).tpc = e.iss.wordPc
      ∧ (v.thread l).tinfo = e.iss.word ∧ (v.thread l).pc = pcAt e.wg.ctx.trapVec
      ∧ (v.thread l).shadow = (e.w.thread l).meet ∧ (v.thread l).meet = {})

/-- SETINFO replaces a rod's binding (R208). REGGIVE gives up registers 4 clk after its issue; REGCLAIM is granted at once
where spare reaches and waits in the queue where it does not (R167, R209).
NPREEMPT and PREEMPTOK set and clear the wave's region flag and answer the status word 8 clk later (R213). -/
def Obligations.RodsAndRegions : Prop :=
  (∀ s h e,
  (∀ f : GF, Ready s h none (usesOf (.setinfo h f)) e → e.act ≠ [] →
    let r := f.mb 3 0
    let bind := if f.mb 12 12 = 1 then none else some (f.mb 8 4, f.mb 11 9)
    (e.wg.rod r).beads = [] → (∀ x, bind = some x → x.2 < e.wg.parts.length) → (e.wg.rod r).bound ≠ bind →
    exec (.setinfo h f) s = .next (s.modRod e.iss.wg r fun _ => { bound := bind }))
  ∧ (∀ f : IF, Ready s h none (usesOf (.reggive h f)) e → e.act ≠ [] →
    let n := f.imm.toNat
    n ≠ 0 → n % 4 = 0 → n + 4 ≤ e.w.net → e.w.pendingFrom (e.w.net - n) = false →
    exec (.reggive h f) s = .next (s.modWave e.iss.wg e.iss.wave fun w => { w with gives := w.gives ++ [(n, s.clk + 4)] }))
  ∧ ∀ f : IF, Ready s h none (usesOf (.regclaim h f)) e → e.act ≠ [] →
    let n := f.imm.toNat
    let p := e.wg.part e.part
    n ≠ 0 → n % 4 = 0 → e.w.n + n ≤ min 256 p.budget → p.claims = [] → e.part < e.wg.parts.length →
    ∃ t v g, exec (.regclaim h f) s = .next t ∧ t.wave? e.iss.wg e.iss.wave = some v ∧ t.wg? e.iss.wg = some g
      ∧ (∀ pa, t.byte pa = s.byte pa)
      ∧ (n ≤ p.spare → v.n = e.w.n + n ∧ (g.part e.part).spare = p.spare - n ∧ (g.part e.part).claims = []
        ∧ (∀ l, bitAt e.iss.group l = true → l < e.w.threads.length → (v.thread l).pc = e.iss.nxtPc
          ∧ (v.thread l).status ≠ .waiting)
        ∧ ∀ k l, e.w.n ≤ k → k < e.w.n + n → l < 64 → v.v k l = 0)
      ∧ (p.spare < n → v.n = e.w.n ∧ (g.part e.part).spare = p.spare
        ∧ (g.part e.part).claims = [⟨e.iss.wave, n, e.iss.group, e.iss.word, e.iss.addr, BitVec.ofNat 4 e.iss.idx⟩]
        ∧ ∀ l, bitAt e.iss.group l = true → l < e.w.threads.length → (v.thread l).pc = e.iss.nxtPc
          ∧ (v.thread l).status = .waiting ∧ (v.thread l).waitOn = .claim))
  ∧ (∀ s h e (f : GF), e.act ≠ [] →
  let status (broken : Bool) : Word :=
    BitVec.ofNat 64 ((if e.wg.npReq.isSome then 1 else 0) + (if broken then 2 else 0))
  (Ready s h none (usesOf (.npreempt h f)) e →
    Starts s e (.npreempt h f) (if e.w.region then e.w else { e.w with region := true, broken := false })
      (resultAt s none 8 [.s f.d.toNat] [⟨.s f.d.toNat, 0, status (e.w.region && e.w.broken)⟩]))
  ∧ (Ready s h none (usesOf (.preemptok h f)) e →
    Starts s e (.preemptok h f) { e.w with region := false, broken := false }
      (resultAt s none 8 [.s f.d.toNat] [⟨.s f.d.toNat, 0, status e.w.broken⟩])))

/-- CSRRD reads a thread register of each active thread, open to every context, and in a system context a register of the
issuing core (R214, R215).
CSRWR, CSRSET and CSRCLR (R215): the new value of THR_TPC in each active thread, and in a system context a write of a
register of the core, by CSRSET and CSRCLR with every field that is not RW or RWS at 0.
With .old a write of THR_TPC or of a core register also answers the value before it (R215). A number that names no
register, and a write of a thread register other than THR_TPC, trap CSR_ARG; a core register traps PRIV outside a system
context (R214, R215). -/
def Obligations.RegisterWords : Prop :=
  (∀ s h e (f : IF), Ready s h none (usesOf (.csrrd h f)) e → e.act ≠ [] →
  (f.imm.toNat < 5 →
    Starts s e (.csrrd h f) e.w (resultAt s (some .sys) 6 [.v f.d.toNat, .v (f.d.toNat + 1)]
      (e.act.flatMap fun l => vecWrites true f.d.toNat l (e.w.csr f.imm.toNat l).toNat)))
  ∧ (∀ o, csrOf f.imm.toNat = .core o → f.imm.toNat < 4096 → e.ctx.system = true →
    Starts s e (.csrrd h f) e.w (resultAt s (some .sys) 20 [.s f.d.toNat]
      [⟨.s f.d.toNat, 0, s.regRead (rPOOL_REG_TOP e.core + o)⟩])))
  ∧ (∀ s h e (f : IF), e.act ≠ [] → bitAt f.imm 12 = false →
  let num := f.imm.toNat % 4096
  let tpc (new : Word → Word → Word) (i : Instr) : Prop :=
    Threads s e i false (fun l t => { t with
      tpc := .ofImage (new (e.w.thread l).tpc.image (BitVec.ofNat 64 (e.vec .b64 f.a l))) }) fun _ _ => none
  let core (new : Word → Word) (i : Instr) : Prop := ∀ o, csrOf num = .core o → e.ctx.system = true →
    exec i s = .next (s.regWrite (rPOOL_REG_TOP e.core + o) (new (s.regRead (rPOOL_REG_TOP e.core + o))) e.ctx.world)
  (Ready s h none (usesOf (.csrwr h f)) e →
    (num = 1 → tpc (fun _ v => v) (.csrwr h f)) ∧ core (fun _ => e.uniform f.a) (.csrwr h f))
  ∧ (Ready s h none (usesOf (.csrset h f)) e →
    (num = 1 → tpc (fun old v => old ||| v) (.csrset h f))
    ∧ ∀ o, csrOf num = .core o → core (fun old => keepRw o (old ||| e.uniform f.a)) (.csrset h f))
  ∧ (Ready s h none (usesOf (.csrclr h f)) e →
    (num = 1 → tpc (fun old v => old &&& ~~~v) (.csrclr h f))
    ∧ ∀ o, csrOf num = .core o → core (fun old => keepRw o (old &&& ~~~e.uniform f.a)) (.csrclr h f)))
  ∧ (∀ s h e (f : IF), e.act ≠ [] → bitAt f.imm 12 = true →
  let num := f.imm.toNat % 4096
  ∀ i (new : Word → Word → Word),
  (i = .csrwr h f ∧ new = (fun _ v => v) ∨ i = .csrset h f ∧ new = (fun old v => old ||| v)
    ∨ i = .csrclr h f ∧ new = fun old v => old &&& ~~~v) → Ready s h none (usesOf i) e →
    (num = 1 → ∃ t r v, exec i s = .next t ∧ t.results = s.results ++ [r] ∧ r.ready = true ∧ r.readyAt = s.clk + 24
      ∧ r.writes = (e.act.flatMap fun l => vecWrites true f.d.toNat l (e.w.thread l).tpc.image.toNat)
      ∧ t.wave? e.iss.wg e.iss.wave = some v
      ∧ (∀ l, l ∈ e.act → l < e.w.threads.length → (v.thread l).tpc =
        .ofImage (new (e.w.thread l).tpc.image (BitVec.ofNat 64 (e.vec .b64 f.a l))))
      ∧ ∀ pa, t.byte pa = s.byte pa)
    ∧ ∀ o, csrOf num = .core o → e.ctx.system = true →
      let old := s.regRead (rPOOL_REG_TOP e.core + o)
      let v := new old (e.uniform f.a)
      exec i s = .next ((s.regWrite (rPOOL_REG_TOP e.core + o) (if i = .csrwr h f then v else keepRw o v)
        e.ctx.world).quickOp e none 24 [.s f.d.toNat] [⟨.s f.d.toNat, 0, old⟩]))
  ∧ ∀ s h e (f : IF), e.wg.ctx.trapVec ≠ 0 → (∀ l, bitAt e.iss.group l = true → (e.w.thread l).active = false) →
  ∀ i, (i = .csrrd h f ∨ i = .csrwr h f ∨ i = .csrset h f ∨ i = .csrclr h f) → Ready s h none (usesOf i) e →
    let c := csrOf (f.imm.toNat % 4096)
    ((c = .none ∨ (i ≠ .csrrd h f ∧ ∃ k, c = .thread k ∧ k ≠ 1)) → exec i s = .next (s.groupTrap .csrArg))
    ∧ ∀ o, c = .core o → e.ctx.system = false → exec i s = .next (s.groupTrap .priv)

/-- SPAWN appends its record whole to an open, enabled queue with room, after its release, and answers the record's
reference; JDEC takes its amount from a record's join counter and answers the counter (R210, R211). `s1` is the state in
which the record that issues the word is exposed. -/
def Obligations.Tasks : Prop := ∀ s h e (f : GF), e.act ≠ [] → e.iss.await = none → (∀ x ∈ s.sbuf, x.core ≠ e.core) →
  s.hostIdle e.lead e.ctx.asid = true → s.fresh.2.pathsDone e.iss.wg e.iss.wave e.core s.nextId 5 true false 31 = true →
  let s1 := s.fresh.2.exposeBy e
  let answer (t : State) (v : Word) : State := t.quickOp e (some .sys) 240 [.s f.d.toNat] [⟨.s f.d.toNat, 0, v⟩]
  (Ready s h none (usesOf (.spawn h f)) e →
    let k := (e.uniform f.a).toNat
    let q := s1.queue e.ctx.q k
    let im := (e.image f.b &&& ~~~(0x1FFF#512 <<< 208))
      ||| BitVec.ofNat 512 (e.ctx.num * 2 ^ 208 + (if e.ctx.world then 2 ^ 220 else 0))
    ∀ i lim old s2 s3 s4, k < 64 → bitAt e.ctx.queues k = true → q.en = true → recordOk im = true →
      s1.engineRead e.ctx.q q.base 8 = (.ok i, s2) → s1.engineRead e.ctx.q (q.base + 16) 8 = (.ok lim, s3) →
      s1.engineWritable e.ctx.q q.base = true → s1.engineWritable e.ctx.q (slotVa q.base i) = true → i < lim →
      s1.engineRead e.ctx.q (slotVa q.base i) 64 = (.ok old, s4) →
      let t := (s4.engineWrite e.ctx.q q.base 8 (i + 1)).engineWrite e.ctx.q (slotVa q.base i) 64
        ((im &&& ~~~(0x7FFFF#512 <<< 448)) ||| (1#512 <<< 464)).toNat
      t.recalls = [] → exec (.spawn h f) s = .next (answer t (refOf k i)))
  ∧ (Ready s h none (usesOf (.jdec h f)) e →
    let n := (e.uniform f.b).toNat
    ∀ r, 1 ≤ n → n ≤ 65535 → bitAt e.ctx.queues (wfld (e.uniform f.a) 0 6) = true →
      s1.lookRef e.ctx.q (e.uniform f.a) = some r → r.st < 3 → r.count ≠ 0 →
      let s2 := (s1.modRec r.id fun x => { x with count := r.count - n }).engineWrite r.q
        (slotVa (s1.queue r.q r.queue).base r.index + 24) 2 (r.count - n)
      let t := if r.count ≤ n ∧ r.st = 0 then s2.makeReady { r with count := 0 } else s2
      t.recalls = [] →
      exec (.jdec h f) s = .next (answer t (BitVec.ofNat 64 ((r.count - n) * 2 ^ 16 + (if r.count < n then 1 else 0)))))

/-! SLI instructions. -/

/-- SLADD, SLSUB, SLMUL and SLDIV start a scoreboarded operation on each element (R289): its result is that of R151 to
R153, its time the largest of R148 over the active lanes, and its landing sets the flags of R154. -/
def Obligations.SliArithmetic : Prop := ∀ s h e (f : AF), e.act ≠ [] →
  let start (op : SlOp) (i : Instr) : Prop := Ready s h none (usesOf i) e →
    let lane (l : Nat) := slLane f.ty op (e.opA f f.ty l) (e.opB f f.ty l)
    let all := e.act.map fun l => (l, lane (if f.u then 0 else l))
    Starts s e i e.w { resultAt s (some .sli) (all.foldl (fun m x => max m x.2.2.2) 0) (dstRegs f.u f.d (.reg false))
        (if f.u then [scalarWrite f.ty f.d.toNat (lane 0).1]
         else all.flatMap fun x => vecWrites false f.d.toNat x.1 x.2.1) with
      flags := all.map fun x => (x.1, x.2.2.1) }
  start .add (.sladd h f) ∧ start .sub (.slsub h f) ∧ start .mul (.slmul h f) ∧ start .div (.sldiv h f)

/-- SLCMP compares by value and a NaN operand sets nan; SLCVT converts and sets the flags of R154 (R289, R290).
SLFLG reads the flags once every earlier SLI result has landed, then clears or sets those of its mask (R289). -/
def Obligations.SliComparesAndFlags : Prop :=
  (∀ s h e (f : AF),
  let flag (fl : Nat → BitVec 5) (l : Nat) (t : Thread) : Thread := { t with sli := t.sli ||| fl (if f.u then 0 else l) }
  (Ready s h none (usesOf (.slcmp h f)) e → (Instr.slcmp h f).wellFormed = true →
    Threads s e (.slcmp h f) false
      (flag fun l => if (sli32F.rank (e.opA f f.ty l)).isNone || (sli32F.rank (e.opB f f.ty l)).isNone then slNan else 0)
      (e.predDest f fun l => condSli sli32F (f.mlo 2 0) (e.opA f f.ty l) (e.opB f f.ty l)))
  ∧ (Ready s h none (usesOf (.slcvt h f)) e → (Instr.slcvt h f).wellFormed = true →
    Threads s e (.slcvt h f) false (flag fun l => (e.cvtElem f l).2)
      (e.dest f (cvtDst f.b.toNat) fun l => cvtPlace f.b.toNat (e.cvtElem f l).1)))
  ∧ (∀ s h e (f : AF), Ready s h none (usesOf (.slflg h f)) e →
  (Instr.slflg h f).wellFormed = true → e.w.cnt.sli = 0 →
  let m (l : Nat) : BitVec 5 := BitVec.ofNat 5 (e.opA f f.ty l)
  Threads s e (.slflg h f) false (fun l t => { t with
      sli := if f.mlo 1 0 = 1 then t.sli &&& ~~~m l else if f.mlo 1 0 = 2 then t.sli ||| m l else t.sli })
    (e.dest f f.ty fun l => (e.w.thread l).sli.toNat))

/-! Memory words. Words of classes 1 to 4 issue while nothing of the wave holds them back (R252, R259, R261). -/

/-- LDS and LD of scratch without .acq (R251, R252), every lane in bounds: the value of each element, decoded by its granule's
tag, as it stands when the word issues (log 42). An acquire is stated in LanesTogether.
ST to scratch without .rel writes each lane's element, every lane in bounds, the highest lane last (R250, R253); the bytes of
memory stay. -/
def Obligations.ScratchAccesses : Prop :=
  (∀ s h e (f : MF) (l : Layout), e.w.holds = [] → e.act ≠ [] → l.memory = false →
  let ty := memTy f.var.toNat
  let x (sc : Bool) (lane : Nat) : Elem := scrElem e.wg e.part l (e.coords l.rank.toNat sc f.k f.off lane) (!rawTy ty)
    (memWidth f.var.toNat) false true
  let val (j ba w : Nat) (fmt : BitVec 4) : Nat :=
    (loadVal ty fmt (some 127) (BitVec.ofNat 64 ((e.wg.part j).bits (some l) ba w)).toNat).1
  (Ready s h none (usesOf (.ld h f)) e → Entry s e f.h false f.k l → bitAt f.var 3 = false →
    (∀ lane ∈ e.act, l.inb (e.coords l.rank.toNat false f.k f.off lane) = true ∧
      ∃ j ba w fmt, x false lane = .scr j ba w fmt none ∧ (e.wg.part j).ue = [] ∧ (e.wg.part j).lost = []) →
    ∃ t r, exec (.ld h f) s = .next t ∧ t.results.getLast? = some r ∧ r.regs = vregs ty.is64 f.data ∧ r.cnt = some .ld
      ∧ r.ready = true ∧ r.wg = e.iss.wg ∧ r.wave = e.iss.wave
      ∧ r.writes = (e.act.flatMap fun lane => match x false lane with
        | .scr j ba w fmt _ => vecWrites ty.is64 f.data.toNat lane (val j ba w fmt)
        | _ => [])
      ∧ (∀ pa, t.byte pa = s.byte pa) ∧ ∀ k, t.partOf e.iss.wg k = s.partOf e.iss.wg k)
  ∧ (Ready s h none (usesOf (.lds h f)) e → Entry s e f.h true f.k l →
    (∀ lane ∈ e.act.head?, l.inb (e.coords l.rank.toNat true f.k f.off lane) = true ∧
      ∃ j ba w fmt, x true lane = .scr j ba w fmt none ∧ (e.wg.part j).ue = [] ∧ (e.wg.part j).lost = []) →
    ∃ t r, exec (.lds h f) s = .next t ∧ t.results.getLast? = some r ∧ r.regs = [.s f.data.toNat] ∧ r.cnt = some .ld
      ∧ r.ready = true ∧ r.wg = e.iss.wg ∧ r.wave = e.iss.wave
      ∧ r.writes = (match x true (e.act.headD 0) with
        | .scr j ba w fmt _ => [scalarWrite ty f.data.toNat (val j ba w fmt)]
        | _ => [])
      ∧ (∀ pa, t.byte pa = s.byte pa) ∧ ∀ k, t.partOf e.iss.wg k = s.partOf e.iss.wg k))
  ∧ (∀ s h e (f : MF) (l : Layout), e.w.holds = [] → e.act ≠ [] →
  Ready s h none (usesOf (.st h f)) e → Entry s e f.h false f.k l → bitAt f.var 3 = false → l.memory = false →
  let ty := memTy f.var.toNat
  let x (lane : Nat) : Elem := scrElem e.wg e.part l (e.coords l.rank.toNat false f.k f.off lane) (!rawTy ty)
    (memWidth f.var.toNat) true false
  ∀ j, j < e.wg.parts.length →
    (∀ lane ∈ e.act, l.inb (e.coords l.rank.toNat false f.k f.off lane) = true ∧ ∃ ba w fmt, x lane = .scr j ba w fmt none) →
    ∃ t, exec (.st h f) s = .next t
      ∧ t.partOf e.iss.wg j = e.act.foldl (fun p lane => match x lane with
        | .scr _ ba w fmt _ => p.setBits (some l) ba w (storeVal ty fmt none (e.vec ty f.data lane)).1
        | _ => p) (s.partOf e.iss.wg j)
      ∧ (∀ k, k ≠ j → t.partOf e.iss.wg k = s.partOf e.iss.wg k)
      ∧ (∀ pa, t.byte pa = s.byte pa) ∧ t.results = s.results ∧ (e.wg.noWaits → ∀ o, t.reg o = s.reg o))

/-- LD of memory (R252, R304): one request for each line an element lies in that neither the store buffer nor L1 gives,
and a scoreboarded result that gathers them; an acquire carries its scope. `s1` is the state with the word's pages found. -/
def Obligations.LoadsOfMemory : Prop := ∀ s h e (f : MF) (l : Layout), e.w.holds = [] → e.act ≠ [] →
  Ready s h none (usesOf (.ld h f)) e → Entry s e f.h false f.k l → f.pol.toNat < 6 →
  let ty := memTy f.var.toNat
  ∀ xs s1, s.elemsOf e (fun s lane =>
      let (x, s1) := s.elemOf e l (e.coords l.rank.toNat false f.k f.off lane) (!rawTy ty) (memWidth f.var.toNat) .rd
        false true
      let (y, s2) := s1.regOk e x ty false
      (y.ueOk e.wg l false, s2)) = (xs, s1) →
    (∀ x ∈ xs, ∃ ba w fmt leaf p, x.2 = .mem ba w fmt leaf [p] none ∧ leaf.isReg = false ∧ p.p.w ≠ 0
      ∧ s1.sbAt e.core (effAsid e.ctx.asid p.p.va) (p.p.va / 128) = none
      ∧ s1.l1Hit e (effAsid e.ctx.asid p.p.va) (p.p.va / 128) = none) →
    s1.recalls = [] →
    ∃ t r, exec (.ld h f) s = .next t ∧ t.results.getLast? = some r ∧ r.regs = vregs ty.is64 f.data ∧ r.cnt = some .ld
      ∧ r.acq = (if bitAt f.var 3 then some f.scope else none)
      ∧ r.lanes.map (·.lane) = e.act ∧ t.reqs.length = s1.reqs.length + e.act.length
      ∧ (∀ q ∈ t.reqs.drop s1.reqs.length, q.op = r.id ∧ q.core = e.core ∧ q.isLoad = true)
      ∧ ∀ pa, t.byte pa = s1.byte pa

/-- ST of one lane to memory merges into the store buffer, or goes to its home lode at once where it cannot (R117, R253);
memory itself changes when the write is performed there. Several lanes are stated in LanesTogether. -/
def Obligations.StoresToMemory : Prop := ∀ s h e (f : MF) (l : Layout) lane, e.w.holds = [] → e.act = [lane] →
  Ready s h none (usesOf (.st h f)) e → Entry s e f.h false f.k l → bitAt f.var 3 = false →
  let ty := memTy f.var.toNat
  ∀ ba w fmt leaf p s1, s.elemOf e l (e.coords l.rank.toNat false f.k f.off lane) (!rawTy ty) (memWidth f.var.toNat) .wr
      false true = (.mem ba w fmt leaf [p] none, s1) → leaf.isReg = false → p.leaf.isReg = false → s1.recalls = [] →
    let asid := effAsid e.ctx.asid p.p.va
    let mask := lineBits p.p.lo p.p.w
    let data := BitVec.ofNat 1024 (((storeVal ty fmt none (e.vec ty f.data lane)).1 >>> p.p.sh % 2 ^ p.p.w) <<< p.p.lo)
    (∀ x ∈ s1.sbuf, x.core ≠ e.core) →
    ∃ t, exec (.st h f) s = .next t ∧ (∀ pa, t.byte pa = s1.byte pa)
      ∧ (if ba % 8 = 0 ∧ w % 8 = 0 then
          ∃ b, t.sbuf = s1.sbuf ++ [b] ∧ b.core = e.core ∧ b.asid = asid ∧ b.line = p.p.va / 128 ∧ b.mask = mask
            ∧ b.data = data ∧ t.reqs.length = s1.reqs.length
        else ∃ q, t.reqs.length = s1.reqs.length + 1 ∧ q ∈ t.reqs ∧ q.core = e.core ∧ q.asid = asid
          ∧ q.line = p.p.va / 128 ∧ q.what = .store mask data ∧ t.sbuf = s1.sbuf)

/-- A word that is a release waits until the paths before it are complete: ST and ATOM under .rel (R253, R256).
FENCE orders the V and L paths, FENCEX those of its masks (R258, R259): with nothing to drain, each is an operation
that holds back the wave's later words of classes 1 to 4 until it lands. -/
def Obligations.ReleasesAndFences : Prop :=
  (∀ s h e (f : MF) (l : Layout), e.w.holds = [] → e.act ≠ [] →
  Entry s e f.h false f.k l → l.memory = true → e.iss.await = none → (∀ x ∈ s.sbuf, x.core ≠ e.core) →
  s.pathsDone e.iss.wg e.iss.wave e.core s.nextId f.scope true false 1 = false →
  let waits (i : Instr) : Prop := exec i s = .next ((s.fresh.2.modHead fun c => { c with await := some s.nextId }).hold)
  (Ready s h none (usesOf (.st h f)) e → bitAt f.var 3 = true → waits (.st h f))
  ∧ (Ready s h none (usesOf (.atom h f)) e → bitAt f.var 5 = true → waits (.atom h f)))
  ∧ (∀ s h e (f : GF), e.w.holds = [] → e.act ≠ [] → (∀ x ∈ s.sbuf, x.core ≠ e.core) →
  (∀ l ∈ s.lines, ¬(l.loc = true ∧ l.dirty = true)) →
  let start (i : Instr) (before after : BitVec 5) : Prop := Ready s h none (usesOf i) e →
    Starts s e i { e.w with holds := [s.nextId] }
      { resultAt s none 8 [] [] with fence := some ⟨bitAt f.m 3, bitAt f.m 4, f.m.extractLsb' 0 3, before, after⟩ }
  start (.fence h f) 9 9 ∧ start (.fencex h f) (f.a.setWidth 5) (f.b.setWidth 5))

/-- PREF asks the home lodes for every line in which its lanes' elements lie, lane by lane, and answers nothing; under
policies 6 and 7 the L1 copies of those lines leave, else L1 stays (R248, R254); of scratch it does nothing. `s1` is the
state with the word's pages found.
CLEAN, INVAL and CLINV take the lines of a box, in memory whose pages the core holds and no store is buffered for (R260,
R261): the core's copies leave L1 unless the word is CLEAN, a request goes to each line's home unless the level is .l1, in
the lines' order, and the wave's later memory words wait for the operation. -/
def Obligations.PrefetchAndMaintenance : Prop :=
  (∀ s h e (f : MF) (l : Layout), e.w.holds = [] →
  Ready s h none (usesOf (.pref h f)) e → Entry s e f.h false f.k l →
  (l.memory = false → exec (.pref h f) s = .next s)
  ∧ ∀ xs s1, l.memory = true → s.elemsOf e (fun s lane =>
      s.elemOf e { l with scaled := false } (e.coords l.rank.toNat false f.k f.off lane) true 8 .rd false false) = (xs, s1) →
    (∀ x ∈ xs, ∃ ba w fmt leaf ps, x.2 = .mem ba w fmt leaf ps none) → s1.recalls = [] →
    let parts := xs.flatMap fun x => match x.2 with
      | .mem _ _ _ _ ps _ => ps.map fun p => (x.1, p)
      | _ => []
    ∃ t, exec (.pref h f) s = .next t ∧ t = { s1 with reqs := t.reqs, nextId := t.nextId, l1 := t.l1, l1fills := t.l1fills }
      ∧ (t.reqs.take s1.reqs.length = s1.reqs
        ∧ (t.reqs.drop s1.reqs.length).map (fun q => (q.lane, q.asid, q.va, q.line))
          = parts.map fun x => (x.1, effAsid e.ctx.asid x.2.p.va, x.2.p.va, x.2.p.va / 128))
      ∧ (∀ q ∈ t.reqs.drop s1.reqs.length, q.core = e.core ∧ q.isLoad = true ∧ q.prefetch = true
        ∧ q.lvl = hintOf f.pol.toNat)
      ∧ (f.pol.toNat < 6 → t.l1 = s1.l1 ∧ t.l1fills = s1.l1fills)
      ∧ (6 ≤ f.pol.toNat → s1.sbuf = [] → ∀ x ∈ parts, ∀ y ∈ t.l1,
        ¬(y.core = e.core ∧ y.asid = effAsid e.ctx.asid x.2.p.va ∧ y.line = x.2.p.va / 128)))
  ∧ (∀ s h e (f : GF) (l : Layout) (lines : List Nat), e.w.holds = [] → e.act ≠ [] →
  Entry s e f.a true f.b l → l.memory = true →
  (∀ r ∈ coordRegs true f.c l.rank.toNat, e.w.marked r = false ∧ e.w.pending r = false ∧ ∀ i, r = .s i → i < 192) →
  let (c, box) := e.box l.rank.toNat f.b f.c
  s.boxLines e l c box = (lines.map fun n => (n : Int), s) →
  (∀ x ∈ s.sbuf, x.core ≠ e.core) →
  let level := f.m.toNat % 4
  let asid (n : Nat) : BitVec 16 := effAsid e.ctx.asid (128 * n)
  let starts (i : Instr) (kind : Nat) (need : Need) : Prop := Ready s h none (usesOf i) e →
    (∀ n ∈ lines, (∃ x, s.albFind e.core (asid n) (128 * n) = some x)
      ∧ ∃ leaf, s.pageOk e l (128 * (n : Int)) need false = (.ok leaf, s)) →
    ∃ t r, exec i s = .next t ∧ t.results = s.results ++ [r] ∧ r.wg = e.iss.wg ∧ r.wave = e.iss.wave ∧ r.maint = true
      ∧ r.ready = (decide (level = 0) || decide (lines = []))
      ∧ t.wave? e.iss.wg e.iss.wave = some { e.w with holds := [r.id] }
      ∧ t.l1 = s.l1.filter (fun x => kind = 0 || !(x.core = e.core && lines.any fun n => x.asid = asid n && x.line = n))
      ∧ t.reqs.take s.reqs.length = s.reqs
      ∧ (t.reqs.drop s.reqs.length).map (fun q => (q.what, q.core, q.asid, q.line, q.op))
        = (if level = 0 then [] else lines.map fun n => (.maint kind level, e.core, asid n, n, r.id))
      ∧ (∀ pa, t.byte pa = s.byte pa) ∧ ∀ o, t.reg o = s.reg o
  starts (.clean h f) 0 .rd ∧ starts (.inval h f) 1 .wr ∧ starts (.clinv h f) 2 .wr)

/-- LAYSET writes an entry that passes the checks of R128 into the context's table and drops its cached copies; one that
fails is not written; the status word says which (R263).
LAYGET answers the eight words of an entry (R263), LAYCHK whether the coordinates lie in its bounds, and false for an
invalid one (R264); here for an entry that the core's cache holds. -/
def Obligations.LayoutEntries : Prop :=
  (∀ s h e (f : GF), e.w.holds = [] → e.act ≠ [] →
  Ready s h none (usesOf (.layset h f)) e →
  let n := (e.uniform f.a).toNat
  let im := e.image f.b
  let code := if 4096 ≤ n then 1 else (layoutOf im).check e.ctx.world
  let answer : Result := resultAt s none 60 [.s f.d.toNat] [⟨.s f.d.toNat, 0, BitVec.ofNat 64 code⟩]
  (code ≠ 0 → Starts s e (.layset h f) e.w answer)
  ∧ (code = 0 → e.ctx.layout % 64 = 0 → (s.frame (layVa e.ctx n / 65536)).st ≠ .balloon →
    (s.frame (layVa e.ctx n / 65536)).st ≠ .reclaimed →
    (s.writePhysN (layVa e.ctx n) 64 im.toNat).recalls = [] →
    ∃ t, exec (.layset h f) s = .next t ∧ (∀ i, i < 64 → t.byte (layVa e.ctx n + i) = im.extractLsb' (8 * i) 8)
      ∧ (∀ x ∈ t.layCache, ¬(x.ctx = e.ctx.num ∧ x.q = e.ctx.q ∧ x.handle = n))
      ∧ ∃ r, t.results = s.results ++ [r] ∧ r.writes = answer.writes ∧ r.readyAt = answer.readyAt))
  ∧ (∀ s h e (f : GF), e.w.holds = [] → e.act ≠ [] →
  (∀ im, Ready s h none (usesOf (.layget h f)) e → (e.uniform f.a).toNat < 4096 →
    s.layImage e.core e.ctx (e.uniform f.a).toNat = (im, s) →
    Starts s e (.layget h f) e.w (resultAt s (some .ld) 12 (srunRegs f.d 8)
      ((List.range 8).map fun i => ⟨.s (f.d.toNat + i), 0, im.extractLsb' (64 * i) 64⟩)))
  ∧ (Ready s h none (usesOf (.laychk h f)) e →
    let answer (g : Nat → Bool) : Result := resultAt s (some .ld) 12 [.p f.d.toNat]
      (e.act.map fun l => ⟨.p f.d.toNat, l, if g l then 1 else 0⟩)
    (s.layMaybe e.core e.ctx (e.uniform f.a) = (some none, s) →
      Starts s e (.laychk h f) e.w (answer fun _ => false))
    ∧ ∀ l, s.layMaybe e.core e.ctx (e.uniform f.a) = (some (some l), s) → bitAt f.m 0 = false →
      (∀ r ∈ coordRegs false f.b l.rank.toNat,
        beyond e.w.n r = false ∧ e.w.marked r = false ∧ e.w.pending r = false) →
      Starts s e (.laychk h f) e.w (answer fun lane => l.inb (e.coords l.rank.toNat false f.b 0 lane))))

/-- ATOM of one lane sends its operands to the element's home lode, and the core's copy of the line leaves L1 (R117,
R256). ATOMS performs its operation at the scratch bank and answers the old value (R257): when the word issues, and for
.cas.b32 in the first data register alone, are the model's readings (log 42). Several lanes are stated in LanesTogether. -/
def Obligations.Atomics : Prop := ∀ s h e (f : MF) (l : Layout) lane, e.w.holds = [] → e.act = [lane] →
  Entry s e f.h false f.k l →
  let c := e.coords l.rank.toNat false f.k f.off lane
  (Ready s h none (usesOf (.atom h f)) e → l.memory = true → bitAt f.var 5 = false → (∀ x ∈ s.sbuf, x.core ≠ e.core) →
    let op := f.var.toNat % 16
    ∀ ba w fmt leaf ps sc s1, s.elemOf e l c false (atomWidth op) .rdwr true false = (.mem ba w fmt leaf ps sc, s1) →
      s1.recalls = [] → s1.sbuf = s.sbuf →
      ∃ t r q, exec (.atom h f) s = .next t ∧ t.results.getLast? = some r ∧ r.regs = atomDst op f.data
        ∧ r.cnt = some .ld ∧ r.acq = (if bitAt f.var 4 then some f.scope else none)
        ∧ t.reqs.getLast? = some q ∧ q.op = r.id ∧ q.lane = lane ∧ q.line = ba / 1024
        ∧ q.what = .atomic op (ba % 1024) w (BitVec.ofNat 64 (e.atomArg op f.data lane).1)
            (BitVec.ofNat 64 (e.atomArg op f.data lane).2)
        ∧ (∀ x ∈ t.l1, ¬(x.core = e.core ∧ x.asid = q.asid ∧ x.line = q.line)) ∧ ∀ pa, t.byte pa = s1.byte pa)
  ∧ (Ready s h none (usesOf (.atoms h f)) e → l.scratch = true → l.inb c = true →
    let op := atomsOp (f.var.toNat % 8)
    ∀ j ba w fmt, scrElem e.wg e.part l c false 32 true true = .scr j ba w fmt none → j < e.wg.parts.length →
      (e.wg.part j).ue = [] → (e.wg.part j).lost = [] →
      let old := (e.wg.part j).bits (some l) ba w
      ∃ t r, exec (.atoms h f) s = .next t ∧ t.results.getLast? = some r ∧ r.regs = [.v f.data.toNat]
        ∧ r.writes = vecWrites false f.data.toNat lane old
        ∧ t.partOf e.iss.wg j = (e.wg.part j).setBits (some l) ba w
            (atomNew op old (e.atomArg op f.data lane).1 (e.atomArg op f.data lane).2)
        ∧ (∀ k, k ≠ j → t.partOf e.iss.wg k = s.partOf e.iss.wg k)
        ∧ (∀ pa, t.byte pa = s.byte pa) ∧ (e.wg.noWaits → ∀ o, t.reg o = s.reg o))

/-! Copies, barrier objects, contracts, key-value words. -/

/-- COPY and COPYM that pass the checks of R97 are accepted: a copy with the descriptor's boxes enters the core's
streamer, the next identifier is given out, and the status register is marked (R105, R106, R267). COPYQ answers how many
copies of the workgroup are in progress and how many slots are free (R268). -/
def Obligations.Copies : Prop := ∀ s h e (f : GF), e.w.holds = [] → e.act ≠ [] →
  let accepts (m : Bool) (i : Instr) : Prop := Ready s h (some .copy) (usesOf i) e →
    let a : CopyArgs := { m := m, d := f.d.toNat, regs := (List.range 8).map fun i => e.w.s (f.a.toNat + i),
                          bw := e.uniform f.b, mask := if m then e.uniform f.c else 0, zero := f.c = 0, mod := f.m }
    ∀ sL dL, s.layEntry e.core e.ctx (BitVec.ofNat 64 (wfld (e.w.s (f.a.toNat + 7)) 32 12)) = (some sL, s) →
      s.layEntry e.core e.ctx (BitVec.ofNat 64 (wfld (e.w.s (f.a.toNat + 7)) 44 12)) = (some dL, s) →
      a.check e.wg e.part sL dL = none →
      ∃ t c, exec i s = .next t ∧ Sends s t e .copy [.s f.d.toNat] ∧ t.copies = s.copies ++ [c]
        ∧ c.id = s.nextId ∧ c.core = e.core ∧ c.wg = e.iss.wg ∧ c.wave = e.iss.wave ∧ c.src = sL ∧ c.dst = dL
        ∧ c.sc = a.src ∧ c.dc = a.dst ∧ c.box = a.box ∧ c.parts = a.parts e.part dL ∧ c.read = [] ∧ c.delivered = []
        ∧ c.copyId = (s.coreOf e.core).copyCtr ∧ (t.coreOf e.core).copyCtr = (s.coreOf e.core).copyCtr + 1
  accepts false (.copy h f) ∧ accepts true (.copym h f)
  ∧ (Ready s h (some .copy) (usesOf (.copyq h f)) e →
    Starts s e (.copyq h f) e.w (resultAt s none 8 [.s f.d.toNat] [⟨.s f.d.toNat, 0, BitVec.ofNat 64
      ((s.copies.countP fun c => c.core = e.core && c.wg = e.iss.wg && !c.dead) % 128
        + s.copySlots e.core % 128 * 256)⟩]))

/-- A wave's word on a barrier object of its own part, which changes it and nothing but it (R108, R269, R270).
BWAIT passes a phase that has completed and has its threads wait, at nxt, for one that has not (R271); BTEST answers
whether it has. Passing is an acquire: it advances G where its scope asks for it (R118). -/
def Obligations.Barriers : Prop :=
  (∀ s h e (f : GF), e.w.holds = [] → e.act ≠ [] → e.wg.noWaits →
  e.part < e.wg.parts.length →
  let p := s.partOf e.iss.wg e.part
  let becomes (i : Instr) (g : Part → Part) : Prop := exec i s = .next (s.modPart e.iss.wg e.part g)
  (Ready s h none (usesOf (.binit h f)) e →
    let n := (f.m.extractLsb' 0 3).toNat + 1
    p.holdsRing (e.uniform f.a).toNat n = true → 1 ≤ (e.uniform f.b).toNat → (e.uniform f.b).toNat ≤ 65536 →
    becomes (.binit h f) fun p => p.barInit (e.uniform f.a).toNat n (e.uniform f.b).toNat)
  ∧ ∀ o k, p.barSlot (e.uniform f.a).toNat (wfld (e.uniform f.b) 0 32) = some (o, k) →
    (Ready s h none (usesOf (.bexpect h f)) e → (e.uniform f.c).toNat < 8388608 →
      becomes (.bexpect h f) fun p =>
        p.setBar o ((p.bar o).update (if bitAt f.m 0 then .out else .inb) (e.uniform f.c).toNat))
    ∧ (Ready s h none (usesOf (.barrive h f)) e → e.iss.await = none → (∀ x ∈ s.sbuf, x.core ≠ e.core) →
      s.pathsDone e.iss.wg e.iss.wave e.core s.nextId (f.m.extractLsb' 1 3) true false 5 = true →
      exec (.barrive h f) s = .next (s.fresh.2.modPart e.iss.wg e.part fun p =>
        p.setBar o ((p.bar o).update .arr (-(if bitAt f.m 0 then 1 else e.act.length : Nat))))))
  ∧ (∀ s h e (f : GF), e.w.holds = [] → e.act ≠ [] →
  let p := s.partOf e.iss.wg e.part
  let sc := f.m.extractLsb' 1 3
  let passed : State := if scopeAdvances sc e.wg.multi then s.advanceNow e.core else s
  ∀ o k, p.barSlot (e.uniform f.a).toNat (wfld (e.uniform f.b) 0 32) = some (o, k) → (p.bar o).err = false →
    (Ready s h none (usesOf (.bwait h f)) e →
      ((p.bar o).phase ≠ k → exec (.bwait h f) s = .next passed)
      ∧ ((p.bar o).phase = k → exec (.bwait h f) s = .next ((s.leaveClause (maskOf e.act)).now e fun w =>
          w.modLanes (maskOf e.act) fun _ t => { t with
            pc := e.iss.nxtPc, status := .waiting, waitOn := .barrier o (BitVec.ofNat 16 k) sc })))
    ∧ (Ready s h none (usesOf (.btest h f)) e →
      exec (.btest h f) s = .next ((if (p.bar o).phase ≠ k then passed else s).quickOp e none 12 [.p f.d.toNat]
        (e.act.map fun l => ⟨.p f.d.toNat, l, if (p.bar o).phase ≠ k then 1 else 0⟩))))

/-- RESIDE and UNRESIDE send their request to the contract lode, or answer BAD_RANGE at once (R272). The record that
issues one is exposed first.
KVGET, KVPUT, KVPIN and KVDROP send their operation to the key's home; a length of 0 or above 4,096 is answered
BAD_LEN at once (R273, R274). KVPUT and KVDROP expose the record that issues them. -/
def Obligations.ContractAndKeyValueWords : Prop :=
  (∀ s h e (f : GF), e.w.holds = [] → e.act ≠ [] →
  let s1 := s.exposeBy e
  let base := e.uniform f.a
  let asks (i : Instr) (kind : Option Nat) (pages : Nat) : Prop := Ready s h none (usesOf i) e →
    (badRange base pages = false → ∃ t q, exec i s = .next t ∧ Sends s1 t e .ctr [.s f.d.toNat]
      ∧ t.ctrReqs = s1.ctrReqs ++ [q] ∧ q.res = s1.nextId ∧ q.q = e.lead ∧ q.ctx = e.ctx.num ∧ q.kind = kind
      ∧ q.asid = effAsid e.ctx.asid base.toNat ∧ q.base = base.toNat ∧ q.pages = pages)
    ∧ (badRange base pages = true → exec i s = .next (s1.quickOp e (some .ctr) 40 [.s f.d.toNat] [⟨.s f.d.toNat, 0, 6⟩]))
  asks (.reside h f) (some (f.m.toNat % 4)) (e.uniform f.b).toNat ∧ asks (.unreside h f) none 1)
  ∧ (∀ s h e (f : GF), e.w.holds = [] → e.act ≠ [] →
  let len := (e.uniform f.c).toNat
  let buf := (e.uniform f.b).toNat
  let sends (s1 : State) (i : Instr) (op : KvOp) : Prop :=
    ∃ t q, exec i s = .next t ∧ Sends s1 t e .lode [.s f.d.toNat] ∧ t.kvReqs = s1.kvReqs ++ [q] ∧ q.res = s1.nextId
      ∧ q.key = e.uniform f.a ∧ q.op = op ∧ q.asid = e.ctx.asid ∧ q.ctx = e.ctx.num ∧ q.part = e.part
  let fits : Prop := 1 ≤ len ∧ len ≤ 4096 ∧ buf + len ≤ (e.wg.part e.part).scrBytes ∧ buf + len ≤ 0x800000
  let badLen (i : Instr) : Prop := len = 0 ∨ 4096 < len →
    Starts s e i e.w (resultAt s (some .lode) 24 [.s f.d.toNat] [⟨.s f.d.toNat, 0, 4⟩])
  (Ready s h none (usesOf (.kvget h f)) e → badLen (.kvget h f) ∧ (fits → sends s (.kvget h f) (.get buf len)))
  ∧ (Ready s h none (usesOf (.kvput h f)) e → badLen (.kvput h f)
    ∧ (fits → sends (s.exposeBy e) (.kvput h f) (.put buf len (f.m.toNat % 4))))
  ∧ (Ready s h none (usesOf (.kvpin h f)) e → sends s (.kvpin h f) (.pin (bitAt f.m 0)))
  ∧ (Ready s h none (usesOf (.kvdrop h f)) e → sends (s.exposeBy e) (.kvdrop h f) .drop))

/-! Matrix and lode-engine words. -/

/-- MMA places a bead for each of its threads (R165, R279); where that completes the rod, the operation enters the
matrix queue with the pebbles reserved for it and the beads are cleared (R277, R280, R283). -/
def Obligations.MatrixMultiply : Prop := ∀ s h e (f : XF), e.w.holds = [] → e.act ≠ [] →
  Ready s h (some .matrix) (usesOf (.mma h f)) e →
  let b := beadOf f e.iss.word (e.uniform f.a) (e.uniform f.b)
  let r := f.rod.toNat
  let mine := e.act.map fun l => (e.iss.wave, l)
  ∀ aL bL, s.operand e b.a Layout.scratch = (.ok aL, s) → s.operand e b.b Layout.scratch = (.ok bL, s) →
    1024 * b.acc.toNat + 4 * b.words ≤ (e.wg.part e.part).accBytes →
    mmaLanes e.wg e.iss.wave r b e.act = ([], [], e.act) →
    (e.wg.rodFull (e.wg.rod r) mine = false →
      exec (.mma h f) s = .next ((s.modRod e.iss.wg r fun x => { x with beads := x.beads ++ mine, template := some b }).modHead
        fun i => { i with pebbles := 0 }))
    ∧ ∀ set, e.wg.rodFull (e.wg.rod r) mine = true → (e.wg.rod r).bound = some (set, e.part) →
      (e.wg.part e.part).core = e.core → r < e.wg.rods.length → b.check e.wg e.part aL bL = none → e.iss.pebbles ≠ 0 →
      s.mqRoom e.core = true → e.wg.waitingBeads r = [] →
      ∃ t x w g, exec (.mma h f) s = .next t ∧ t.mq = s.mq ++ [x] ∧ x.id = s.nextId ∧ x.core = e.core
        ∧ x.wg = e.iss.wg ∧ x.part = e.part ∧ x.pebbles = e.iss.pebbles
        ∧ x.waves = dedup ((e.wg.rod r).beads.map (·.1) ++ e.act.map fun _ => e.iss.wave)
        ∧ (∃ k aw bw an bn, x.op = .mma b aL bL k aw bw an bn)
        ∧ t.wg? e.iss.wg = some w ∧ (w.rod r).beads = [] ∧ (w.rod r).template = none
        ∧ t.wave? e.iss.wg e.iss.wave = some g ∧ g.cnt.mma = e.w.cnt.mma + 1 ∧ ∀ pa, t.byte pa = s.byte pa

/-- ACCZ, ACCLD and DRAIN enter the matrix queue, counted under mma (R284, R285); ACCRD enters it with the result it
will answer. A DRAIN to memory holds its clause until its turn is over (R287). -/
def Obligations.AccumulatorWords : Prop := ∀ s h e (f : GF), e.w.holds = [] → e.act ≠ [] → s.mqRoom e.core = true →
  let a := (e.uniform f.a).toNat
  let b := (e.uniform f.b).toNat
  let c := (e.uniform f.c).toNat
  let enters (i : Instr) (op : MatOp) : Prop :=
    ∃ t x, exec i s = .next t ∧ t.mq = s.mq ++ [x] ∧ x.id = s.nextId ∧ x.core = e.core ∧ x.wg = e.iss.wg
      ∧ x.part = e.part ∧ x.waves = [e.iss.wave] ∧ x.op = op
      ∧ t.wave? e.iss.wg e.iss.wave = some { e.w with cnt := e.w.cnt.bump .mma 1 }
      ∧ Elsewhere { s with mq := t.mq, nextId := s.nextId + 1, running := t.running } t e.iss.wg e.iss.wave
      ∧ t.running = (match op with
          | .drain _ _ eL sL _ m _ _ =>
            if eL.memory || (m.extractLsb' 7 2 ≠ 0 && sL.memory) then
              ((s.modHead fun c => { c with await := some s.nextId, issued := true }).hold).running
            else s.running
          | _ => s.running)
  let run (off n hi : Nat) : Prop := off % 4 = 0 ∧ n % 4 = 0 ∧ 4 ≤ n ∧ n ≤ hi ∧ off + n ≤ (e.wg.part e.part).accBytes
  (Ready s h (some .matrix) (usesOf (.accz h f)) e → run a b 1048576 → enters (.accz h f) (.accz a b))
  ∧ (Ready s h (some .matrix) (usesOf (.accld h f)) e → run a c 65536 → b % 4 = 0 →
    b + c ≤ (e.wg.part e.part).scrBytes → b + c ≤ 0x800000 → enters (.accld h f) (.accld a b c))
  ∧ (Ready s h (some .matrix) (usesOf (.accrd h f)) e → a % 4 = 0 →
    let idx (l : Nat) : Nat := if bitAt f.m 0 then e.scalar .n32 f.b l else e.vec .n32 f.b l
    (∀ l ∈ e.act, a + 4 * idx l + 4 ≤ (e.wg.part e.part).accBytes) →
    ∃ t x, exec (.accrd h f) s = .next t ∧ Sends s t e .mma [.v f.d.toNat] ∧ t.mq = s.mq ++ [x] ∧ x.core = e.core
      ∧ x.op = .accrd s.nextId (e.act.map fun l => (l, a / 4 + idx l)) f.d.toNat)
  ∧ (Ready s h (some .matrix) (usesOf (.drain h f)) e → e.iss.await = none →
    let d : DrainArgs := ⟨f.m, e.uniform f.b⟩
    ∀ eL sL, s.operand e (e.uniform f.d) (fun _ => true) = (.ok eL, s) →
      (if d.block = 0 then eL = sL else s.operand e (e.uniform f.a) (fun _ => true) = (.ok sL, s)) →
      d.ok = true → 1024 * d.acc + 4 * d.rowsM * d.colsN ≤ (e.wg.part e.part).accBytes →
      tilesBad e.wg e.part (d.tiles (e.uniform f.d) (e.uniform f.a) eL sL) = none →
      enters (.drain h f) (.drain (e.uniform f.d) (e.uniform f.a) eL sL (e.uniform f.b) f.m e.iss.group e.iss.wordPc))

/-- LRED and LREDW of one lane (several: LanesTogether) send their contribution, with its index and operand, to the element's home lode; LREDW
will answer the record's value (R291, R293). LXPOSE starts a transpose at the lode engine (R295). -/
def Obligations.LodeEngineWords : Prop := ∀ s h e (f : GF), e.w.holds = [] →
  (∀ (l : Layout) lane, e.act = [lane] → Entry s e f.a false f.b l → l.memory = true → bitAt f.m 7 = false →
    let op := f.m.toNat % 16
    let n := (e.uniform f.c).toNat
    let idx := (e.w.v (redIndex op f.d) lane).toNat
    1 ≤ n → n ≤ 65536 → idx < n →
    ∀ ba w fmt leaf ps sc s1, s.elemOf e l (e.coords l.rank.toNat false f.b 0 lane) false (redWidth op) .rdwr true false
        = (.mem ba w fmt leaf ps sc, s1) → s1.recalls = [] →
      let sent (i : Instr) (wait : Bool) (regs : List Reg) : Prop :=
        ∃ t r q, exec i s = .next t ∧ t.results.getLast? = some r ∧ r.cnt = some .lode ∧ r.regs = regs
          ∧ t.reqs = s1.reqs ++ [q] ∧ q.op = r.id ∧ q.lane = lane ∧ q.va = ba / 8
          ∧ q.what = .lred op n idx (BitVec.ofNat 64 (e.vec (if redWidth op = 64 then .b64 else .b32) f.d lane)) wait false
          ∧ ∀ pa, t.byte pa = s1.byte pa
      (Ready s h none (usesOf (.lred h f)) e → sent (.lred h f) false [])
      ∧ (Ready s h none (usesOf (.lredw h f)) e → sent (.lredw h f) true (vregs (redWidth op = 64) f.d)))
  ∧ (Ready s h none (usesOf (.lxpose h f)) e → e.act ≠ [] →
    let src := e.w.s f.a.toNat
    let dst := e.w.s (f.a.toNat + 1)
    let ext := e.w.s (f.a.toNat + 2)
    let x := wfld ext 0 9
    let y := wfld ext 16 9
    let w := [8, 16, 32].getD (f.m.toNat % 4) 8
    ∀ sL dL, s.operand e src Layout.memory = (.ok sL, s) → s.operand e dst Layout.memory = (.ok dL, s) →
      1 ≤ x → x ≤ 256 → 1 ≤ y → y ≤ 256 → wfld ext 9 7 = 0 → wfld ext 25 39 = 0 →
      (Tile.mk sL (owOrigin src) x y w).bounds = true → (Tile.mk dL (owOrigin dst) y x w).bounds = true →
      ∃ t z, exec (.lxpose h f) s = .next t ∧ Sends s t e .lode [.s f.d.toNat] ∧ t.xposes = s.xposes ++ [z]
        ∧ z.copy.id = s.nextId ∧ z.copy.src = sL ∧ z.copy.dst = dL ∧ z.copy.sc = owOrigin src ∧ z.copy.dc = owOrigin dst
        ∧ z.copy.box = [x, y, 1, 1, 1] ∧ z.copy.w = w ∧ z.copy.tr = true ∧ z.next = 0)

/-! Events of the cores. -/

/-- CLAUSE_SELECT on an idle partition: of its ready waves it begins the clause of the one that goes before all others by R327 and
R203 (`State.goesBefore`), and with none ready it does nothing. The issue group runs the clause from the word its pc names,
with starve 0, and the eligible threads left out count up to 512 (R158, R171). Here finding out which waves are ready changes
nothing, and no clause asks for pebbles. That a choice is a step of its own, and that since when a wave has been ready is noted
when steps end, is the model's (log 45). YIELD_EXPIRY ends the 64 clk of a YIELD (R203),
and SLEEP_EXPIRY makes a sleeping thread whose count has run out eligible at its pc (R204).
REG_DEADLOCK traps the queued claim at its REGCLAIM in every thread that issued it, one that has parked since among them
(R168). The bound of a
non-pre-emptible region ends it: the workgroup is saved and each flagged wave notes that its region was broken (R213). -/
def Obligations.ClausesAndWaits : Prop :=
  ((∀ s core part, s.recalls = [] → (∀ x ∈ s.running, ¬(x.core = core ∧ x.part = part)) → s.asks = [] →
    (∀ w ∈ s.wgs, w.prio ≤ 7 ∧ s.wg? w.id = some w) →
    let ws := s.partWaves core part
    let ready (y : Workgroup × Nat × Wave) : Option Cand := (s.candidate y.1 y.2.1 y.2.2).1
    (∀ y ∈ ws, (s.candidate y.1 y.2.1 y.2.2).2 = s) → (∀ y ∈ ws, ∀ c, ready y = some c → c.cost = none) →
    ((∀ y ∈ ws, ready y = none) → exec (.clauseSelect core part) s = .next s)
    ∧ ∀ w k v c, (w, k, v) ∈ ws → ready (w, k, v) = some c → c.trap = none →
    (∀ z ∈ ws, ready z ≠ none → z ≠ (w, k, v) → s.goesBefore (w, k, v) z) →
    ∃ t i u, exec (.clauseSelect core part) s = .next t ∧ t.running = s.running ++ [i] ∧ i.core = core ∧ i.part = part
      ∧ i.wg = w.id ∧ i.wave = k ∧ i.all = c.group ∧ i.group = c.group ∧ i.addr = c.pc.addr ∧ i.hdr = c.hdr
      ∧ i.words = c.words ∧ i.idx = (if c.pc.mid then c.pc.word.toNat else 0) ∧ i.reserved = c.copies ∧ i.await = none
      ∧ t.wave? w.id k = some u
      ∧ (∀ l, l < v.threads.length → u.thread l =
          if bitAt c.group l then { v.thread l with starve := 0 }
          else if (v.thread l).status = .eligible then { v.thread l with starve := min 512 ((v.thread l).starve + 1) }
          else v.thread l)
      ∧ (∀ r l, u.reg r l = v.reg r l) ∧ (∀ pa, t.byte pa = s.byte pa) ∧ ∀ o, t.reg o = s.reg o)
  ∧ (∀ s wg k v n, s.wave? wg k = some v → v.yieldTo = some n → n ≤ s.clk →
    ∃ t, exec (.yieldExpiry wg k) s = .next t ∧ t.wave? wg k = some { v with yieldTo := none } ∧ Elsewhere s t wg k)
  ∧ ∀ s wg k lane v n, s.wave? wg k = some v → lane < v.threads.length → (v.thread lane).status = .waiting →
    (v.thread lane).waitOn = .sleep n → n ≤ s.clk →
    ∃ t u, exec (.sleepExpiry wg k lane) s = .next t ∧ t.wave? wg k = some u ∧ Elsewhere s t wg k
      ∧ (∀ l, Settles (bitAt (s.runningLanes wg k) l)
          (if l = lane then { v.thread l with status := .eligible, waitOn := .none } else v.thread l) (u.thread l))
      ∧ ∀ r l, u.seen r l = v.seen r l)
  ∧ ((∀ s wg p w v c, s.wg? wg = some w → w.fate ≠ .ending → s.deadlocked w p = true → (w.part p).claims = [c] →
    s.wave? wg c.wave = some v → w.ctx.trapVec ≠ 0 →
    (∀ l, bitAt c.lanes l = true → ((v.thread l).status = .waiting ∨ (v.thread l).status = .parked) → (v.thread l).active = false) →
    ∃ t u, exec (.regDeadlock wg p) s = .next t ∧ (t.partOf wg p).claims = [] ∧ t.wave? wg c.wave = some u
      ∧ (∀ l, l < v.threads.length → bitAt c.lanes l = true → ((v.thread l).status = .waiting ∨ (v.thread l).status = .parked) →
        (u.thread l).cause = 31 ∧ (u.thread l).active = true ∧ (u.thread l).tpc = ⟨c.hdr, c.idx, true⟩
          ∧ (u.thread l).tinfo = c.word ∧ (u.thread l).pc = pcAt w.ctx.trapVec ∧ (u.thread l).status = .eligible)
      ∧ ∀ pa, t.byte pa = s.byte pa)
  ∧ ∀ s wg w n, s.wg? wg = some w → w.fate = .live → w.npReq = some n →
    s.usAfter n (min 8000 (max 1 (s.rf (rSCH_CTL w.ctx.q) 16 13))) ≤ s.clk →
    ∃ t g, exec (.npreemptBoundExpiry wg) s = .next t ∧ t.wg? wg = some g ∧ g.fate = .saving ∧ g.npReq = none
      ∧ g.saveAt = s.clk ∧ (∀ c ∈ t.running, c.wg ≠ wg)
      ∧ (∀ (k : Nat) (v : Wave), w.waves[k]? = some v → ∃ u : Wave, g.waves[k]? = some u ∧ u.region = v.region
        ∧ u.broken = (v.broken || (v.region && !v.ended)))
      ∧ ∀ pa, t.byte pa = s.byte pa)

/-- RESULT_LANDS writes a result's registers, ends their marks and lowers its counter (R187, R188). Where it is an
acquire it first advances G by one; where the sweep has not passed, the landing and the advance wait for it, and
GENERATION_ADVANCE then makes both (R118, R119).
Entries that have stood for 1,024 clk drain to their home lodes, and no fill that left before them is installed (R117, R304). The
sweep drops the lines and fills of a core at a distance of 128 or more and visits lines at 127 (R119). A fill installs its line,
unless an access of its core to the line that does not allocate is unanswered, or the store buffer holds a store to it (R116,
R304). -/
def Obligations.ResultsAndL1 : Prop :=
  (∀ s,
  (∀ r v, s.recalls = [] →
    (s.results.find? fun x => x.id = r.id && x.ready && x.readyAt ≤ s.clk && !x.adv) = some r →
    (s.results.find? fun x => x.id = r.id) = some r → r.fence = none → s.wave? r.wg r.wave = some v →
    let landed (t : State) : Prop := ∃ u, t.results = s.results.filter (fun x => x.id ≠ r.id) ∧ t.wave? r.wg r.wave = some u
      ∧ (∀ x lane, lane < 64 → u.reg x lane = (v.writeAll r.writes).reg x lane)
      ∧ u.marks = v.marks.filter (fun m => m.2 ≠ r.id)
      ∧ u.cnt = (match r.cnt with
          | some c => v.cnt.bump c (-1)
          | none => v.cnt)
    (s.resultAdvances r = false → ∃ t, exec (.resultLands r.id) s = .next t ∧ landed t
      ∧ Elsewhere { s with results := t.results } t r.wg r.wave)
    ∧ (s.resultAdvances r = true → s.sweepDue (s.resultCore r) = false → ∃ t, exec (.resultLands r.id) s = .next t
      ∧ landed t ∧ t.gen (s.resultCore r) = s.gen (s.resultCore r) + 1 ∧ ∀ pa, t.byte pa = s.byte pa)
    ∧ (s.resultAdvances r = true → s.sweepDue (s.resultCore r) = true → ∃ t, exec (.resultLands r.id) s = .next t
      ∧ t.results = s.results.map (fun x => if x.id = r.id then { x with adv := true } else x)
      ∧ t.rf (rL1_STAT (s.resultCore r)) 8 1 = 1 ∧ t.gen (s.resultCore r) = s.gen (s.resultCore r)
      ∧ ∀ wg k, t.wave? wg k = s.wave? wg k))
  ∧ ∀ core r, s.recalls = [] → (s.results.find? fun x => x.adv && s.resultCore x = core) = some r →
    s.sweepDue core = false → (s.landFence r).recalls = [] →
    ∃ t, exec (.generationAdvance core) s = .next t ∧ t.results = s.results.filter (fun x => x.id ≠ r.id)
      ∧ t.gen core = s.gen core + 1)
  ∧ (∀ s,
  (∀ core, (∀ x ∈ s.sbuf, x.core = core → x.born + 1024 ≤ s.clk → x.stores ≠ []) →
    let old := s.sbuf.filter fun x => x.core = core && x.born + 1024 ≤ s.clk
    ∃ t new kept, exec (.storeBufferTimeout core) s = .next t ∧ t.reqs = kept ++ new
      ∧ kept.length = s.reqs.length
      ∧ (∀ (i : Nat) (r : Req), s.reqs[i]? = some r → ∃ q, kept[i]? = some q ∧ { q with l1 := r.l1 } = r
        ∧ let named : Bool := old.any fun x => r.core = core && r.asid = x.asid && r.line = x.line
          (named = true → r.born < s.nextId → q.l1 = false) ∧ (named = false → q = r))
      ∧ new.map (fun q => (q.core, q.asid, q.line, q.what)) = old.map (fun x => (x.core, x.asid, x.line, ReqOp.store x.mask x.data))
      ∧ (∀ x ∈ t.sbuf, x ∈ s.sbuf ∧ ¬(x.core = core ∧ x.born + 1024 ≤ s.clk)) ∧ (∀ x ∈ s.sbuf, x.core ≠ core → x ∈ t.sbuf)
      ∧ t = { s with reqs := t.reqs, sbuf := t.sbuf, nextId := t.nextId, l1fills := t.l1fills }
      ∧ ∀ x ∈ old, ∀ y ∈ t.l1fills, ¬(y.core = core ∧ y.asid = x.asid ∧ y.line = x.line))
  ∧ (∀ core, ∃ t, exec (.l1Sweep core) s = .next t ∧ t = { s with l1 := t.l1, l1fills := t.l1fills } ∧ t.sweepDue core = false
    ∧ t.l1fills = s.l1fills.filter (fun f => !(f.core = core && 128 ≤ (s.gen core - f.stamp).toNat))
    ∧ (∀ x ∈ t.l1, x.core = core → s.stampDist x < 128) ∧ (∀ x ∈ s.l1, x.core ≠ core ∨ s.stampDist x < 127 → x ∈ t.l1)
    ∧ ∀ x ∈ t.l1, ∃ y ∈ s.l1, y = { x with swept := y.swept })
  ∧ ∀ f, (s.l1fills.find? fun x => x.id = f.id) = some f →
    let blocked := (s.reqs.any fun r => r.core = f.core && r.asid = f.asid && r.lines.contains f.line && !(r.isLoad && r.l1))
      || (s.sbAt f.core f.asid f.line).isSome
    ∃ t, exec (.l1Fill f.id) s = .next t ∧ t = { s with l1 := t.l1, l1fills := s.l1fills.filter fun x => x.id ≠ f.id }
      ∧ (blocked = true → t.l1 = s.l1)
      ∧ (blocked = false → { core := f.core, asid := f.asid, line := f.line, data := f.data, stamp := f.stamp } ∈ t.l1))

/-! The matrix queue and copies. -/

/-- The turn of a core's first entry (R277): ACCZ writes zeros, ACCLD words of the scratchpad, MMA its elements and
checksums, ACCRD answers its words, DRAIN writes its tiles; the entry then leaves the queue and counts down. Here without
an uncorrectable error, an injection or a tile in memory.
A waiting operation enters its queue when its pebbles are granted (R283, R328); here the only one of its core. The pool changes to a total of at most
4,096, and gating a die's matrix rows is noted in its bit (R329, R333). -/
def Obligations.MatrixQueue : Prop :=
  (∀ s core e w, s.recalls = [] →
  (s.mq.find? fun x => x.core = core) = some e → s.wg? e.wg = some w →
  let p := w.part e.part
  let turn (t : State) : Prop := exec (.matrixQueueEntry core) s = .next (t.mqDone e)
  (∀ off n, e.op = .accz off n → turn (s.modPart e.wg e.part fun p => p.setAcc (off / 4) (List.replicate (n / 4) 0)))
  ∧ (∀ off a n, e.op = .accld off a n → p.bad none a n = false →
    turn (s.modPart e.wg e.part fun p => p.accLoad off a n))
  ∧ (∀ r ls d, e.op = .accrd r ls d → p.accUe = [] →
    turn (s.finishOp r s.clk (ls.map fun x => ⟨.v d, x.1, (p.accWord x.2).setWidth 64⟩)))
  ∧ (∀ b aL bL n aw bw, e.op = .mma b aL bL n aw bw false false → e.inj = none → p.accUe = [] → p.ue = [] → p.lost = [] →
    (∀ x ∈ w.parts, x.ue = [] ∧ x.lost = []) →
    turn (s.modPart e.wg e.part fun q => q.setAcc (256 * b.acc.toNat)
      (mmaWords b (fun i => (p.accWord (256 * b.acc.toNat + i)).toNat)
        (fun i x => elemVal w e.part aL (addC (owOrigin b.a) [x, i, 0, 0, 0]) aw)
        (fun x j => elemVal w e.part bL (addC (owOrigin b.b) [j, x, 0, 0, 0]) bw) (kOf n))))
  ∧ ∀ el sc eL sL tile m ls wd, e.op = .drain el sc eL sL tile m ls wd → p.accUe = [] →
    let a : DrainArgs := ⟨m, tile⟩
    let ts := a.tiles el sc eL sL
    let ws := a.writes fun i j => f32F.decode (p.accWord (256 * a.acc + i * a.colsN + j)).toNat
    drainLines ts ws = [] → a.clr = false → turn (s.drainScratch e.wg e.part w a.tag ts ws))
  ∧ (∀ s,
  (∀ e, (s.mwait.find? fun x => x.id = e.id) = some e → s.mqFree e.core = true →
    (∀ x ∈ s.mwait, x.core = e.core → x = e) → (∃ a ∈ s.asks, a.op = e.id) →
    (∀ b aL bL n aw bw x y, e.op = .mma b aL bL n aw bw x y →
      s.askTurn (s.asks.takeWhile fun a => a.op ≠ e.id) b.cost = true → s.rf (rCORE_ACCINJ e.core) 32 1 = 0 →
      exec (.pebbleGrant e.id) s = .next { s with
        mwait := s.mwait.filter fun x => x.id ≠ e.id
        asks := s.asks.filter fun a => a.op ≠ e.id
        mq := s.mq ++ [{ e with pebbles := min b.cost s.pebTotal, inj := none }] }))
  ∧ (∀ n : BitVec 13, ∃ t, exec (.pebbleTotalChange n) s = .next t ∧ t.pebTotal = min 4096 n.toNat
    ∧ (∀ o, o ≠ rPWR_PEBBLE → t.reg o = s.reg o) ∧ t = { s with csr := t.csr })
  ∧ ∀ die on, die < 4 → ∃ t, exec (.thermalRowGating die on) s = .next t ∧ t = { s with csr := t.csr }
    ∧ t.rf rPWR_PEBBLE (32 + die) 1 = (if on then 1 else 0) ∧ t.pebTotal = s.pebTotal
    ∧ (∀ d, d < 4 → d ≠ die → t.rf rPWR_PEBBLE (32 + d) 1 = s.rf rPWR_PEBBLE (32 + d) 1)
    ∧ ∀ o, o ≠ rPWR_PEBBLE → t.reg o = s.reg o)

/-- A chunk of a copy (R99 to R101, R105, R108): its source in a scratchpad is read once, with its granule's tag;
delivery in a scratchpad writes its bytes there and nowhere else, and counts them. When every chunk of every destination
is delivered the copy ends with its status word. A transpose that meets no fault ends so too (R296). -/
def Obligations.CopySteps : Prop := ∀ s,
  (∀ c w i bs, s.recalls = [] → s.copyLive c.id = some (c, w) → (∀ x ∈ c.read, x.1 ≠ i) →
    (∃ p ∈ c.parts, c.delivered.contains (i, p) = false) → c.chunkAt i = some bs →
    c.src.memory = false → c.srcObj = none → ∀ b0, (bs.find? fun b => b.rd ≠ 0) = some b0 →
    let p := w.part ((c.src.partFor w (w.partOf c.wave)).getD 0)
    p.ue = [] → p.lost = [] →
    exec (.chunkSourceRead c.id i) s = .next { s with copies := s.copies.map fun x =>
      if x.id = c.id then { x with
        read := x.read ++ [(i, bs.map fun b => if b.rd = 0 then 0 else p.byte (swz (some c.src) b.src.toNat) &&& b.rd,
          some (p.tag b0.src.toNat))]
        clamped := x.clamped || bs.any fun b => b.rd ≠ 255 || b.wr ≠ 255
        outDone := x.outDone ++ [i] }
      else x })
  ∧ (∀ c w i j bs data tag g, s.recalls = [] → (s.copies.find? fun x => x.id = c.id) = some c → c.memDst = false →
    c.dstObjs = [] → c.arrived i j = false → j ∈ c.parts → (c.read.find? fun x => x.1 = i) = some (i, data, tag) →
    c.chunkAt i = some bs → s.wg? c.wg = some w → j < w.parts.length →
    (c.gens.find? fun g => g.1 = j) = some (j, g) → (w.part j).gen = g → w.abandoned = false →
    ∃ t, exec (.chunkDelivery c.id i j) s = .next t ∧ t.partOf c.wg j = (w.part j).putChunk c.dst bs data tag
      ∧ (∀ k, k ≠ j → t.partOf c.wg k = s.partOf c.wg k) ∧ (∀ id k, t.wave? id k = s.wave? id k)
      ∧ (∀ pa, t.byte pa = s.byte pa) ∧ (c.dead = false → ∃ x ∈ t.copies, x.id = c.id ∧ x.delivered = c.delivered ++ [(i, j)]
        ∧ x.bytes = c.bytes + (bs.filter fun b => b.wr ≠ 0).length))
  ∧ (∀ c, (s.copies.find? fun x => x.id = c.id) = some c → c.dead = false → c.chunks * c.parts.length ≤ c.delivered.length →
    exec (.copyComplete c.id) s = .next ({ s with copies := s.copies.filter fun x => x.id ≠ c.id }.finishOp c.id s.clk
      [⟨.s c.status, 0, BitVec.ofNat 64 (c.bytes % 2 ^ 32 + (if c.clamped then 2 ^ 32 else 0) + c.copyId.toNat * 2 ^ 36)⟩]))
  ∧ ∀ x w, s.recalls = [] → (s.xposes.find? fun y => y.copy.id = x.copy.id) = some x → s.wg? x.copy.wg = some w →
    x.next = x.copy.chunks →
    exec (.lxposeComplete x.copy.id) s = .next ({ s with xposes := s.xposes.filter fun y => y.copy.id ≠ x.copy.id }.finishOp
      x.copy.id s.clk [⟨.s x.copy.status, 0, BitVec.ofNat 64 (x.bytes % 2 ^ 32 + (if x.cut then 2 ^ 32 else 0))⟩])

/-! Events of the lodes. -/

/-- LODE_ACCESS serves a request at its home lode (R21, R253, R256, R304): a load that may not stay in L1 is answered
with its bytes, a store merges its masked bytes into the line, an atomic replaces its element and answers the old value,
and a fault is held for the requester. The line here is one that the lode holds, not staged, tracked or with the host.
A packet that meets a closed port is dropped and counted (R380).
LODE_FAULT_RETURN of one lane's request (R338, R339): a service cause parks the lane, reported or waiting to be; any
other has it enter its handler with the cause, its own pc and the access's information. PARKED_REPORT_RETRY gives a park
that has none the lowest free fault id. -/
def Obligations.LodeRequests : Prop :=
  (∀ s r, s.recalls = [] → s.reqById r.id = some r → r.goes = true →
  s.reqBlocked r = false →
  let a := s.reqAcc r
  let ev : Instr := .lodeAccess r.id
  (s.portShut r = true → exec ev s = .next (s.dropPacket r)) ∧ (s.portShut r = false →
  (∀ lo w sb x s1, r.what = .load lo w sb → r.l1 = false → s.readLine a (lineBits lo w) = (.ok x, s1) → s1.recalls = [] →
    exec ev s = .next ((s1.feedReq r x).endReq r))
  ∧ (∀ lo w sb c s1, r.what = .load lo w sb →
    s.readLine a (if r.l1 then BitVec.allOnes 1024 else lineBits lo w) = (.fault c, s1) → s1.recalls = [] →
    exec ev s = .next (s1.modReq r.id fun x => { x with cause := some c }))
  ∧ ∀ l, s.recOfWg r.wg = none → s.auditHeld a.q a.asid a.va none = false → (s.lodeOf (s.homeOf a.q a.va a.leaf)).asleep = false →
    s.lineAt (s.homeOf a.q a.va a.leaf) a.asid (a.va / 128) = some l → s.lineById l.id = some l → l.poison = false →
    s.testsWrites l.lode = false → l.lo = .i → l.hi = .i → l.transit = false → s.lineUnder l kKeepout = false →
    s.dir = [] →
    (∀ mask data, r.what = .store mask data →
      ∃ t y, exec ev s = .next t ∧ y ∈ t.lines ∧ y.id = l.id ∧ y.data = lineMerge l.data mask data ∧ y.dirty = true
        ∧ t.lines.length = s.lines.length ∧ (∀ q ∈ t.reqs, q.id ≠ r.id) ∧ t.mem = s.mem
        ∧ ∀ z ∈ s.lines, z.id ≠ l.id → z ∈ t.lines)
    ∧ ∀ op lo w x cmp, r.what = .atomic op lo w x cmp →
      let old := fld l.data.toNat lo w
      ∃ t y, exec ev s = .next t ∧ y ∈ t.lines ∧ y.id = l.id
        ∧ y.data = lineMerge l.data (lineBits lo w) (BitVec.ofNat 1024 (atomNew op old x.toNat cmp.toNat <<< lo))
        ∧ t.results = ((s.feed r.op r.lane r.sh old 1).modResult r.op fun o => o.gathered s.clk).results
        ∧ (∀ q ∈ t.reqs, q.id ≠ r.id) ∧ ∀ z ∈ s.lines, z.id ≠ l.id → z ∈ t.lines))
  ∧ (∀ s,
  (∀ r w v c l pc, s.reqById r.id = some r → s.wg? r.wg = some w → r.cause = some c → c ≠ .ue → r.parked = false →
    r.prefetch = false → r.stores.length ≤ 1 → w.fate = .live → s.wave? r.wg r.wave = some v → l < v.threads.length →
    s.parkMates w r = [r] → lanesOf r.lanes = [l] → s.parkPc w r.wave l r = some pc → (v.thread l).status ≠ .exited →
    (c.service = true → ∃ t u, exec (.lodeFaultReturn r.id) s = .next t ∧ t.wave? r.wg r.wave = some u
      ∧ (u.thread l).status = .parked ∧ (u.thread l).pc = pc ∧ (u.thread l).tinfo = r.info
      ∧ (∃ q ∈ t.reqs, q.id = r.id ∧ q.parked = true)
      ∧ ∃ p ∈ t.parks, p.wg = r.wg ∧ p.wave = r.wave ∧ p.lanes = maskOf [l] ∧ p.cause = c ∧ p.tinfo = r.info
        ∧ p.issued = some r.word)
    ∧ (c.service = false → w.ctx.trapVec ≠ 0 → (v.thread l).active = false →
      ∃ t u, exec (.lodeFaultReturn r.id) s = .next t ∧ t.wave? r.wg r.wave = some u
        ∧ (u.thread l).cause = BitVec.ofNat 8 c.code ∧ (u.thread l).active = true ∧ (u.thread l).laneCause = true
        ∧ (u.thread l).tpc = pc ∧ (u.thread l).tinfo = r.info ∧ (u.thread l).pc = pcAt w.ctx.trapVec
        ∧ ∀ q ∈ t.reqs, q.id ≠ r.id))
  ∧ ∀ p f, (s.parks.find? fun x => x.id = p.id) = some p → p.reported = false → p.fault = none →
    s.faultId p.q p.ctx = some f →
    ∃ t x, exec (.parkedReportRetry p.id) s = .next t ∧ x ∈ t.parks ∧ x.id = p.id ∧ x.fault = some f
      ∧ (∀ n, n < f → ∃ y ∈ s.parks, y.q = p.q ∧ y.ctx = p.ctx ∧ y.fault = some n)
      ∧ ∀ v, s.wave? p.wg p.wave = some v → ∃ u, t.wave? p.wg p.wave = some u
        ∧ ∀ l, bitAt p.lanes l = true → l < v.threads.length → (u.thread l).faultId = some f)

/-- LINE_FILL_RETURN holds the line its frame stores at the lode, and no byte of memory changes (R22). CXL_REQUEST_COMPLETION
and NORHA_RESPONSE bring a line of host or peer memory, one of host memory in two 64 B lines (R369), fail the requests and
engines that wait for it (HOST_ERROR) but for a store to a fenced peer (R374), or end a write that travelled there, which takes
two where it has bytes of both 64 B lines (R66, R68, R373). That the first completion of a line of host memory brings its lower
64 B is the model's choice (log 53). PAGE_WALK_COMPLETE and DEFERRED_INSTALL install the leaf that was found (R60); a walk whose
packet meets a closed port is dropped, counted and never answered (R380). -/
def Obligations.FillsAndWalks : Prop := ∀ s,
  (∀ f, s.recalls = [] → (s.fills.find? fun x => x.id = f.id && !x.ext) = some f →
    let s0 : State := { s with fills := s.fills.filter fun x => x.id ≠ f.id }
    let fr := f.leaf.frameOf (128 * f.line)
    let off := lineOff (128 * f.line)
    f.grant = false → s0.storeShut f.lode fr = false → s0.fillLive f = true → s.lineAt f.lode f.asid f.line = none → s.holder fr off = none →
    ∃ t y, exec (.lineFillReturn f.id) s = .next t ∧ t.fills = s0.fills ∧ t.lines = s.lines ++ [y] ∧ y.lode = f.lode
      ∧ y.asid = some f.asid ∧ y.line = f.line ∧ y.data = s.storedLine fr off ∧ y.dirty = false ∧ ∀ pa, t.byte pa = s.byte pa)
  ∧ (∀ peer id i, (peer = false ∧ i = (fun d => Instr.cxlRequestCompletion id d)) ∨ (peer = true ∧ i = fun d => Instr.norhaResponse id d) →
    (∀ f, (s.fills.find? fun x => x.id = id && x.ext && x.peer = peer) = some f →
      let s0 : State := { s with fills := s.fills.filter fun x => x.id ≠ f.id }
      (∀ b, f.peer = false → f.first = none → exec (i (some b)) s = .next { s with fills := s.fills.map fun x =>
        if x.id = f.id then { x with first := some ((b.take 64).rightpad 64 0) } else x })
      ∧ (∀ b, (f.peer = true ∨ f.first.isSome = true) → s0.fillLive f = true → s.lineAt f.lode f.asid f.line = none →
        ∃ t y, exec (i (some b)) s = .next t ∧ t.fills = s0.fills ∧ t.lines = s.lines ++ [y] ∧ y.lode = f.lode
          ∧ y.asid = some f.asid ∧ y.line = f.line ∧ y.loc = true ∧ y.data = lineOf 0 (f.first.getD [] ++ b) ∧ t.mem = s.mem)
      ∧ (∀ spared : Req → Bool, (∀ r, spared r = true ↔ (s.fencedFrame (f.leaf.frameOf (128 * f.line))).isSome = true
          ∧ ∃ m d, r.what = .store m d) →
        exec (i none) s = .next { s0 with
          reqs := s.reqs.map (fun r => if r.asid ≠ f.asid || spared r then r else r.faultAt (fun v _ => v / 128 = f.line) .hostErr)
          hostFails := s.hostFails ++ f.engs.map fun n => (n, f.lode, f.asid, f.line) }))
    ∧ ∀ w b, (s.fills.find? fun x => x.id = id && x.ext && x.peer = peer) = none →
      (s.extWrites.find? fun x => x.id = id && x.peer = peer) = some w →
      let both : Bool := touchesHalf w.mask false && touchesHalf w.mask true
      ((peer = true ∨ w.sent = true ∨ both = false) →
        exec (i (some b)) s = .next { s with extWrites := s.extWrites.filter fun x => x.id ≠ id })
      ∧ (peer = false → w.sent = false → both = true → exec (i (some b)) s = .next { s with
          extWrites := s.extWrites.map fun x => if x.id = id then { x with sent := true } else x }))
  ∧ (∀ w, s.recalls = [] → (s.walks.find? fun x => x.id = w.id) = some w →
    let s0 : State := { s with walks := s.walks.filter fun x => x.id ≠ w.id }
    let k := s0.walk (s0.leadOfLode w.lode) w.asid w.va
    let shut := s0.walkShut w.lode w.asid w.va k.path
    (∀ p, shut = some p → exec (.pageWalkComplete w.id) s = .next (s.shutAt p))
    ∧ (∀ l s1, shut = none → k.res = .ok l → k.st.install (k.st.leadOfLode w.lode) w.lode w.asid w.va l k.path = (.ok, s1) →
      s1.recalls = [] → exec (.pageWalkComplete w.id) s = .next s1)
    ∧ ∀ c, shut = none → k.res = .error c → k.st.recalls = [] →
      exec (.pageWalkComplete w.id) s = .next (k.st.faultPage w.lode w.asid w.va c))
  ∧ ∀ w s1, s.recalls = [] → (s.deferred.find? fun x => x.id = w.id) = some w →
    s.install (s.leadOfLode w.lode) w.lode w.asid w.va w.leaf w.path = (.ok, s1) → s1.recalls = [] →
    exec (.deferredInstall w.id) s = .next { s1 with deferred := s1.deferred.filter fun x => x.id ≠ w.id }

/-- A contribution to an open record (R292): one of another operation or count, or of an index already taken, is refused;
the next index in turn is combined; a later one is held, unless 4,096 are. The run of an audit that repeats a record reduces
into a record of its own (R363). A record whose last index is combined writes its value, for the threads that contributed, and
closes. -/
def Obligations.Contributions : Prop := ∀ s,
  (∀ r ev held, (ev = Instr.lredContribution r.id ∧ held = false) ∨ (ev = .lredContributionRetry r.id ∧ held = true) →
    s.recalls = [] → s.redReq r.id held = some r → s.portShut r = false →
    ∀ op n i x l s1 y, r.what = .lred op n i x false held → s.ensure (s.reqAcc r) = (.ok l, s1) → s1.recalls = [] →
      (s1.reds.find? fun z => z.lode = l.lode && z.asid = r.asid && z.va = r.va && z.q = r.q
          && z.runOf = (s1.replayBy (s.reqAcc r).who).map (·.id) && !z.kept) = some y →
      (∀ z ∈ s1.reds, z.id = y.id → z = y) →
      ((y.op ≠ op ∨ y.n ≠ n ∨ i ∈ y.got) → (∀ z ∈ s1.lines, z.lo = .i ∧ z.hi = .i) →
        ∃ t, exec ev s = .next t ∧ t.reds = s1.reds ∧ ∀ q ∈ t.reqs, q.id ≠ r.id)
      ∧ (y.op = op → y.n = n → i ∉ y.got → (∀ z ∈ y.held, z.1 ≠ y.nxt ∧ z.1 ≠ y.nxt + 1) → y.nxt + 1 < n →
        (i = y.nxt → ∃ t z, exec ev s = .next t ∧ z ∈ t.reds ∧ z.id = y.id ∧ z.nxt = i + 1 ∧ z.held = y.held
          ∧ z.acc = BitVec.ofNat 64 (redCombine op y.acc.toNat x.toNat) ∧ z.got = y.got ++ [i]
          ∧ ∀ q ∈ t.reqs, q.id ≠ r.id)
        ∧ (i ≠ y.nxt → s1.heldAt l.lode < 4096 → ∃ t z, exec ev s = .next t ∧ z ∈ t.reds ∧ z.id = y.id ∧ z.nxt = y.nxt
          ∧ z.acc = y.acc ∧ z.held = y.held ++ [(i, x)] ∧ z.got = y.got ++ [i] ∧ ∀ q ∈ t.reqs, q.id ≠ r.id)
        ∧ (i ≠ y.nxt → 4096 ≤ s1.heldAt l.lode →
          exec ev s = .next (s1.modReq r.id fun q => { q with what := .lred op n i x false true }))))
  ∧ ∀ r a s1 s2, s.recalls = [] → (s.reds.find? fun z => z.id = r.id) = some r → r.kept = false → r.n ≤ r.nxt →
    r.waiters = [] → s.redAcc r r.who = (some a, s1) →
    s1.writeLine a (lineBits (8 * (r.va % 128)) (redWidth r.op))
      (BitVec.ofNat 1024 ((r.acc.toNat % 2 ^ redWidth r.op) <<< (8 * (r.va % 128)))) r.by_ = (.ok (), s2) → s2.recalls = [] →
    exec (.lredCloseRetry r.id) s = .next { s2 with reds := s2.reds.filter fun x => x.id ≠ r.id }

/-- A page-table shoot-down in its steps (R63, R64, R217): a core's attribute entries and L1 lines of the pages leave and
it acknowledges; a lode's entries leave; the last acknowledgement ends it, and the PTSYNC that waited for it. XLT_SYNC.go
counts the host's invalidations so far, and XLT_RMAP clears one frame's entry (R69); each needs the world of its partition,
and a write of the other world is a violation (R7). -/
def Obligations.ShootDowns : Prop := ∀ s,
  (∀ i core, (s.invals.find? fun x => x.id = i.id && x.cores.contains core) = some i → (∀ x ∈ s.sbuf, x.core ≠ core) →
    (∀ r ∈ s.reqs, r.core ≠ core) →
    ∃ t, exec (.albInvalidate i.id core) s = .next t
      ∧ t = { s with alb := t.alb, l1 := t.l1, l1fills := t.l1fills, invals := t.invals, dir := t.dir }
      ∧ t.alb = s.alb.filter (fun x => !(x.core = core && x.path.contains i.line))
      ∧ (∀ x ∈ t.l1, x.core = core → ∀ y ∈ s.alb, y.core = core → y.path.contains i.line = true → y.asid = x.asid →
        x.line < y.page / 128 ∨ (y.page + y.leaf.size.bytes) / 128 ≤ x.line)
      ∧ ∀ x ∈ t.invals, x.id = i.id → core ∉ x.cores)
  ∧ (∀ i lode, s.recalls = [] → (s.invals.find? fun x => x.id = i.id && x.cores = [] && x.lodes.contains lode) = some i →
    (s.tbInval i lode).recalls = [] →
    ∃ t, exec (.lodeTbInvalidate i.id lode) s = .next t ∧ (∀ x ∈ t.tb, ¬(x.lode = lode ∧ x.path.contains i.line = true))
      ∧ (∀ x ∈ t.invals, x.id = i.id → lode ∉ x.lodes) ∧ ∀ x ∈ s.tb, x.lode ≠ lode → x ∈ t.tb)
  ∧ (∀ i, (s.invals.find? fun x => x.id = i.id && x.cores = [] && x.lodes = []) = some i →
    let s1 : State := { s with invals := s.invals.filter fun x => x.id ≠ i.id }
    ∃ t, exec (.shootdownAck i.id) s = .next t ∧ t = { s1 with wgs := t.wgs, dir := t.dir }
      ∧ ∀ wg k v, s.wave? wg k = some v → ∃ u, t.wave? wg k = some u ∧ ∀ l, u.thread l =
        if s1.ptsyncOver wg k l (v.thread l) then { v.thread l with status := .eligible, waitOn := .none } else v.thread l)
  ∧ ∀ q sec, s.leads q = true →
    (s.partSecure q = true → sec = false → exec (.xltSyncGo q sec) s = .next (s.violation (rXLT_SYNC q))
      ∧ ∀ f, exec (.xltRmapClear q f sec) s = .next (s.violation (rXLT_RMAP q)))
    ∧ ((s.partSecure q = false ∨ sec = true) →
      (∃ t, exec (.xltSyncGo q sec) s = .next t ∧ t = { s with tmb := t.tmb } ∧ (t.tmbOf q).sync = s.nextId)
      ∧ ∀ f, (s.ownsFrame q f = false → exec (.xltRmapClear q f sec) s = .next s)
        ∧ (s.ownsFrame q f = true → ∃ t, exec (.xltRmapClear q f sec) s = .next t ∧ t = { s with rmapOwn := t.rmapOwn }
          ∧ t.rmapOf f = none ∧ ∀ g, g ≠ f → t.rmapOf g = s.rmapOf g))

/-! The Tumbler. -/

/-- A write of TMB_CMD (R44): refused as BUSY, BAD_OP, BAD_FRAME, WORLD or STATE, in the order that log 67 takes; QUERY shows the
frame; DONATE and WITHDRAW move it into the balloon and out of it; RECODE, TO_RAW, TO_CMP and MIGRATE begin where the frame's
state allows them.
The Tumbler's own steps. TMB_CMD_DONE: TO_RAW draws 64 flakes in all and holds the frame BUSY, and a command that runs
ends with its frame in its new state and its result in TMB_CMD_STAT (R44). A line's eviction writes it back to its frame
(R39). A RAW frame is granted its waiting request whole, in the request's place (R32, R36). Reclaim takes the oldest BALLOON
frame, 512 clk at the earliest after it began on it, and stops at hwm with no stuck line left (R37, R357). A page that was counted often moves to its requesters' lode (R67). A write of TMB_CTL takes an allowed capacity and refuses
one outside 768 to 1,536, one that would take away a frame in use, and one for which the pools have not the flakes; a refusal
raises cap_refused of quarter 0's block, bit 28 of TMB_INT_STAT, which is the model's choice (R35, R46; log 24). -/
def Obligations.Tumbler : Prop :=
  (∀ s q f sec, s.leads q = true →
  let st := rTMB_CMD_STAT q
  let busy (t : State) (op : Nat) : Prop := t.rf st 0 1 = 1 ∧ ∃ r ∈ t.tmbRuns, r.q = q ∧ r.op = op ∧ r.frame = f
  let ended (t : State) (res : Nat) : Prop := t.rf st 0 1 = 0 ∧ t.rf st 1 3 = res ∧ t.rf rTMB_INT_STAT (24 + q) 1 = 1
    ∧ t.frames = s.frames ∧ t.mem = s.mem
  let x := s.frame f
  let ops : List Instr := [.query q f sec, .donate q f sec, .withdraw q f sec, .recode q f 1 sec, .toRaw q f sec,
    .toCmp q f 1 sec]
  (s.rf st 0 1 = 1 → ∀ i ∈ ops, exec i s = .next (s.setRf st 1 3 1))
  ∧ (s.rf st 0 1 = 0 → (∀ op : BitVec 4, 7 ≤ op.toNat → ∃ t, exec (.tmbBadOp q op sec) s = .next t ∧ ended t 6)
    ∧ (s.ownsFrame q f = false → ∀ i ∈ ops, ∃ t, exec i s = .next t ∧ ended t 2)
    ∧ (s.ownsFrame q f = true → sec = false → s.frameSecure q f = true → ∀ i ∈ ops, ∃ t, exec i s = .next t ∧ ended t 5))
  ∧ (s.rf st 0 1 = 0 → s.ownsFrame q f = true → (sec = true ∨ s.frameSecure q f = false) →
    (∃ t, exec (.query q f sec) s = .next t ∧ busy t 0 ∧ t.rf st 4 7 = x.flakes.length % 128 ∧ t.rf st 11 3 = x.st.code
      ∧ t.rf st 14 4 = x.fmt.toNat ∧ t.rf st 18 8 = s.slode f % 256 ∧ t.frames = s.frames)
    ∧ (s.rmapOf f = none → x.st ≠ .busy → x.st ≠ .balloon → x.st ≠ .reclaimed → (∀ l ∈ s.lines, l.frame ≠ f) →
      ∃ t, exec (.donate q f sec) s = .next t ∧ busy t 1 ∧ t.frame f = { x with st := .balloon, prior := x.st, donated := s.nextId }
        ∧ (t.tmbOf q).balloon = (s.tmbOf q).balloon ++ [f] ∧ ∀ g, g ≠ f → t.frame g = s.frame g)
    ∧ (x.st = .balloon → ∃ t, exec (.withdraw q f sec) s = .next t ∧ busy t 2
      ∧ t.frame f = { x with st := x.prior, prior := .empty, donated := 0 } ∧ (t.tmbOf q).balloon = (s.tmbOf q).balloon.filter (fun g => g ≠ f)
      ∧ t.mem = s.mem)
    ∧ (x.st = .reclaimed → ∃ t, exec (.withdraw q f sec) s = .next t ∧ busy t 2 ∧ t.frame f = {}
      ∧ ∀ i, i < 65536 → Memory.byte t.mem (65536 * f + i) = 0)
    ∧ ∀ i op n, (i, op) ∈ [(Instr.recode q f n sec, 3), (.toRaw q f sec, 4), (.toCmp q f n sec, 5)] →
      (tmbStateOk op x.st = true → ∃ t, exec i s = .next t ∧ busy t op ∧ t.frames = s.frames)
      ∧ (tmbStateOk op x.st = false → ∃ t, exec i s = .next t ∧ ended t 3))
  ∧ ∀ lode, let i : Instr := .migrate q f lode sec
    let stops (res : Nat) : Prop := ∃ t, exec i s = .next t ∧ ended t res
    let allowed : Prop := sec = true ∨ s.frameSecure q f = false
    (s.rf st 0 1 = 1 → exec i s = .next (s.setRf st 1 3 1))
    ∧ (s.rf st 0 1 = 0 → (s.ownsFrame q f = false ∨ (s.partLodes q).contains lode = false → stops 2)
      ∧ (s.ownsFrame q f = true → (s.partLodes q).contains lode = true → (¬allowed → stops 5)
        ∧ (allowed → tmbStateOk 6 x.st = false → stops 3)
        ∧ (allowed → tmbStateOk 6 x.st = true → ∃ t, exec i s = .next t ∧ busy t 6 ∧ t.frames = s.frames))))
  ∧ (∀ s,
  (∀ q r, s.recalls = [] → (s.tmbRuns.find? fun x => x.q = q) = some r → r.q = q →
    (∀ s1, r.started = false → r.op = 4 → s.frameStuck r.frame = false → (s.frame r.frame).st = .compressed →
      s.lwm q + (64 - (s.frame r.frame).flakes.length) ≤ s.freeOf q →
      s.takeFlakes q r.frame (64 - (s.frame r.frame).flakes.length) s.nextId = some s1 → s1.recalls = [] →
      ∃ t, exec (.tmbCmdDone q) s = .next t ∧ (t.frame r.frame).st = .busy ∧ (t.frame r.frame).flakes = (s1.frame r.frame).flakes
        ∧ t.mem = s1.mem ∧ ∃ z ∈ t.tmbRuns, z.q = q ∧ z.started = true ∧ z.st = .raw)
    ∧ (q < 4 → r.started = true → (s.frame r.frame).st = .busy → r.op = 4 → r.st = .raw →
      (∀ l ∈ s.lines, l.frame = r.frame → l.owed = false) →
      ∃ t, exec (.tmbCmdDone q) s = .next t ∧ t.frame r.frame = { s.frame r.frame with st := .raw, cls := [], fmt := 0 }
        ∧ t.rf (rTMB_CMD_STAT q) 0 1 = 0 ∧ t.rf (rTMB_CMD_STAT q) 1 3 = r.result % 8 ∧ t.mem = s.mem))
  ∧ (∀ l, s.recalls = [] → s.lineById l.id = some l → l.so = false → l.staged = none → l.shadow = false →
    s.lineContract l = none → l.lo = .i → l.hi = .i → l.loc = false → l.stuck = none →
    (l.dirty = false → exec (.lineWriteback l.id) s = .next (s.dropLine l.id))
    ∧ (l.dirty = true → (s.frame l.frame).st = .raw → (s.frame l.frame).flakes ≠ [] →
      ∃ t, exec (.lineWriteback l.id) s = .next t ∧ t.storedLine l.frame l.off = l.data ∧ (∀ x ∈ t.lines, x.id ≠ l.id)
        ∧ ∀ a, (a < 65536 * l.frame + 128 * l.off ∨ 65536 * l.frame + 128 * l.off + 128 ≤ a) →
          Memory.byte t.mem a = Memory.byte s.mem a))
  ∧ (∀ f, (∀ w ∈ s.rawWait, w.2 ≠ f) → exec (.rawFlakesGranted f) s = .next s)
  ∧ (∀ f w s1, (s.rawWait.find? fun x => x.2 = f) = some w → (s.frame f).st = .raw → (s.frame f).flakes = [] →
    s.takeFlakes (s.frameLead f) f 64 w.1 = some s1 →
    exec (.rawFlakesGranted f) s = .next { s1 with rawWait := s1.rawWait.filter fun x => x.2 ≠ f })
  ∧ (∀ q l s1, s.recalls = [] →
    minBy (fun x => x.stuck.getD 0) (s.lines.filter fun x => x.stuck.isSome && s.leadOfLode x.lode = q) = some l →
    s.writeback l.id = (s1, true) → s1.recalls = [] → exec (.stuckLineWriteback q) s = .next s1)
  ∧ (∀ q, (s.tmbOf q).reclaiming = true →
    (s.reclaimOver q = true →
      ∃ t, exec (.balloonReclaim q) s = .next t ∧ (t.tmbOf q).reclaiming = false ∧ t = { s with tmb := t.tmb })
    ∧ (s.hwm q ≤ s.freeOf q → s.sdCount q + s.hostCount q = 0 → s.reclaimOver q = true)
    ∧ (s.freeOf q < s.hwm q → s.sdCount q + s.hostCount q = 0 → s.reclaimOver q = false)
    ∧ ∀ f r, s.reclaimOver q = false → (s.tmbOf q).balloon = f :: r →
      (s.clk < (s.tmbOf q).begun + 512 → exec (.balloonReclaim q) s = .next s)
      ∧ ((s.tmbOf q).begun + 512 ≤ s.clk → ∃ t, exec (.balloonReclaim q) s = .next t ∧ t.frame f = { st := .reclaimed } ∧ (t.tmbOf q).balloon = r
        ∧ ∀ i, i < 65536 → Memory.byte t.mem (65536 * f + i) = 0))
  ∧ (∀ q m s1, s.recalls = [] → (s.migrations.find? fun x => x.q = q) = some m → s.rf (rTMB_CMD_STAT q) 0 1 = 0 →
    m.host = false → ((s.frame m.frame).st = .compressed ∨ (s.frame m.frame).st = .raw) →
    s.moveFlakes q m.frame m.lode = some s1 → s1.recalls = [] →
    exec (.tumblerMigration q) s = .next { s1 with migrations := s1.migrations.erase m })
  ∧ ∀ v sec, let cap := wfld v 8 11
    let s1 := s.setRf rTMB_CTL 0 1 1
    (s.rf rTMB_CTL 0 1 = 1 ∨ wfld v 0 1 = 1) →
    let cur := s.rf rTMB_CTL 8 11
    let room : Prop := ∀ q ∈ s1.leadList, s1.capFrames q cap / 2 - s1.dirNow q ≤ s1.freeOf q - s1.lwm q
    let idle (st : FState) : Prop := st = .empty ∨ st = .balloon ∨ st = .reclaimed
    let above : Prop := ∀ q ∈ s1.leadList, ∀ e ∈ s1.frames, s1.frameBase q + s1.capFrames q cap ≤ e.1 →
      s1.ownsFrame q e.1 = true → idle e.2.st
    let refused : Prop := exec (.tmbCtlWrite v sec) s = .next (s1.tmbEvent 28 0)
    let taken : Prop := ∃ t, exec (.tmbCtlWrite v sec) s = .next t ∧ t.rf rTMB_CTL 8 11 = cap
    (cap = cur → (∀ q ∈ s1.leadList, s1.dirNow q = s1.capFrames q cap / 2) → exec (.tmbCtlWrite v sec) s = .next s1)
    ∧ (cap < 768 ∨ 1536 < cap → cap ≠ cur → refused)
    ∧ (768 ≤ cap → cap ≤ 1536 → (cur < cap → (room → taken) ∧ (¬room → refused))
      ∧ (cap < cur → (above → taken) ∧ (¬above → refused))))

/-! Columns, contracts and the key-value reserve. -/

/-- Role maps (R16, R74) and the loss of sites and buses (R72, R91, R92): an allowed map stands until its banks are empty and
then takes force, or is dropped where its core has been retired and it has deep scratch, and a contract that has arisen while it
waits holds it back: these two are the model's readings (log 22); a group's first two losses degrade
it and its third loses it; a rebuild replaces a cache-role bank, or notes that none can be spared; with both buses every
group is lost. Here the lode holds no line where its banks are emptied, and no workgroup is resident where a group is lost.
The pool's division (R114, R115): a write of POOL_REG_TOP with apply stages the register boundary and, where the three
staged boundaries are within R114's limits and the core is empty, applies them; else it notes the error. The division
then takes force with L1 empty. A write that the unit's world forbids is logged and does nothing else (R7). -/
def Obligations.ColumnsAndPool : Prop :=
  (∀ s n, n < 256 → s.recalls = [] →
  let st := rSTR_STAT n
  (∀ v sec, let map := BitVec.ofNat 64 (wfld v 0 (2 * nBanks n))
    let lines (r : Nat) : Nat := 8192 * (s.banksOf n map r).length
    (s.lodeSecure n = true → sec = false → exec (.strRoleWrite n v sec) s = .next (s.violation (rSTR_ROLE n)))
    ∧ ((s.lodeSecure n = false ∨ sec = true) →
      (lines 2 < s.granted n kPin ∨ lines 0 < s.cacheBound n → exec (.strRoleWrite n v sec) s = .next (s.setRf st 5 1 1))
      ∧ (s.granted n kPin ≤ lines 2 → s.cacheBound n ≤ lines 0 → (∀ e ∈ s.kv, e.lode ≠ n) → s.deepUsed n = 0 →
        (s.coreOf n).retired = false →
        ∃ t, exec (.strRoleWrite n v sec) s = .next t ∧ (t.lodeOf n).roleNext = some map ∧ t = { s with lodeX := t.lodeX })))
  ∧ (∀ map, (s.lodeOf n).roleNext = some map →
    (s.noDeep n (s.reg (rSTR_ROLE n)) map = true →
      exec (.roleChangeApplied n) s = .next (s.modLode n fun x => { x with roleNext := none }))
    ∧ (s.noDeep n (s.reg (rSTR_ROLE n)) map = false →
      (8192 * (s.banksOf n map 2).length < s.granted n kPin → exec (.roleChangeApplied n) s = .next s)
      ∧ (s.granted n kPin ≤ 8192 * (s.banksOf n map 2).length → (∀ e ∈ s.kv, e.lode ≠ n) → s.deepUsed n = 0 →
        (∀ l ∈ s.lines, l.lode ≠ n) →
        let stay := 8192 * (s.banksOf n map 0).length
        (stay < s.granted n kHold → exec (.roleChangeApplied n) s = .next s)
        ∧ (s.granted n kHold ≤ stay →
          ∃ t, exec (.roleChangeApplied n) s = .next t ∧ t.reg (rSTR_ROLE n) = map ∧ (t.lodeOf n).roleNext = none))))
  ∧ (∀ site, site < 4 * perLayer n → bitAt (s.lodeOf n).lost site = false →
    let g := siteGroup n site
    (s.lostIn n g < 2 → ∃ t, exec (.siteLoss n site) s = .next t ∧ t.lostIn n g = s.lostIn n g + 1 ∧ t.rf st 0 1 = 1
      ∧ t.rf st 1 1 = 1 ∧ (t.lodeOf n).lost = (s.lodeOf n).lost ||| (1#32 <<< site) ∧ t.lines = s.lines)
    ∧ (s.lostIn n g = 2 → s.wgs = [] → ∃ t, exec (.siteLoss n site) s = .next t ∧ t.lostIn n g = 3 ∧ t.rf st 6 1 = 1))
  ∧ (∀ g, (List.range (nBanks n / 6)).find? (fun g => s.lostIn n g = 1 || s.lostIn n g = 2) = some g →
    ∀ b, (s.roleBanks n 0).getLast? = some b →
      (s.roleLines n 0 < s.cacheBound n + 8192 → exec (.rebuildComplete n) s = .next (s.setRf st 2 1 1))
      ∧ (s.cacheBound n + 8192 ≤ s.roleLines n 0 → (∀ l ∈ s.lines, l.lode ≠ n) → ∃ t, exec (.rebuildComplete n) s = .next t ∧ t.rf st (16 + b) 1 = 1
        ∧ t.lostIn n g = s.lostIn n g - 1 ∧ t.rf st 2 1 = 0))
  ∧ ∀ busB, let bit := if busB then 4 else 3
    let other := if busB then 3 else 4
    (s.rf st bit 1 = 1 → s.rf st other 1 = 1 → exec (.busLoss n busB) s = .next (s.setRf st bit 1 0).rewriteDisc)
    ∧ (s.rf st bit 1 = 1 → s.rf st other 1 = 0 → s.wgs = [] → ∃ t, exec (.busLoss n busB) s = .next t ∧ t.busesLost n = true
      ∧ ∀ g, g < nBanks n / 6 → t.lostIn n g = 3))
  ∧ (∀ s n, n < 256 →
  (∀ v, s.live .core n = true → s.guarded .core n = true → exec (.poolApply n v false) s = .next (s.violation (rPOOL_REG_TOP n)))
  ∧ (∀ v sec, s.live .core n = true → (s.guarded .core n = false ∨ sec = true) → bitAt v 16 = true →
    s.rf (rPOOL_REG_TOP n) 18 1 = 0 →
    let r := wfld v 8 6
    let c := s.rf (rPOOL_SCR_TOP n) 8 6
    let a := s.rf (rPOOL_ACC_TOP n) 8 6
    (poolLimits r c a = true → s.coreEmpty n = true → s.copyTo n = false →
      ∃ t, exec (.poolApply n v sec) s = .next t ∧ (t.coreOf n).applying = some (r, c, a) ∧ t.rf (rPOOL_REG_TOP n) 18 1 = 1
        ∧ t.regTop n = s.regTop n)
    ∧ (poolLimits r c a = false ∨ s.coreEmpty n = false ∨ s.copyTo n = true →
      ∃ t, exec (.poolApply n v sec) s = .next t ∧ t.coreX = s.coreX ∧ t.rf (rPOOL_REG_TOP n) 17 1 = 1
        ∧ t.rf (rPOOL_REG_TOP n) 8 6 = r))
  ∧ ∀ r c a, (s.coreOf n).applying = some (r, c, a) → r < 64 → c < 64 → a < 64 →
    ∃ t, exec (.poolApplyDone n) s = .next t ∧ t.regTop n = r ∧ t.scrTop n = c ∧ t.accTop n = a
      ∧ t.rf (rPOOL_REG_TOP n) 18 1 = 0 ∧ (∀ x ∈ t.l1, x.core ≠ n) ∧ (t.coreOf n).applying = none ∧ t.mem = s.mem)

/-- A RESIDE reaches the contract lode, is admitted or refused by R79, and is answered with the code of R272; an UNRESIDE
ends the contract of its context, ASID and base, here one that holds no PIN lines; one that has written PIN lines back is answered
when none of them is on its way any more (R80).
A key-value operation at its key's home (R83, R274): one issued while no lode had a key-value bank answers 2; a key that is
not there answers 1; KVDROP takes an unpinned entry away; KVPIN counts its pins; KVGET writes the value into the requester's
part under its owner tag; KVPUT places the value where the lode holds nothing else and the quota allows it. KV_AGE_TICK
advances a lode's age once for each 4,096 clk, and marks the entries that reach half its range (R84). -/
def Obligations.ContractsAndKeyValue : Prop :=
  (∀ s r, s.recalls = [] → (s.ctrReqs.find? fun x => x.id = r.id) = some r →
  let walked : State := (s.segments r.q r.asid (r.pages + 1) r.base (r.base + 65536 * r.pages)).2
  let answered (t : State) (code : Nat) : Prop := ∀ o ∈ s.results, o.id = r.res → ∀ d, o.regs = [.s d] →
    ∃ p ∈ t.results, p.id = o.id ∧ p.ready = true ∧ p.writes = [⟨.s d, 0, BitVec.ofNat 64 code⟩]
  (∀ k, r.kind = some k → (s.takeIn r k).2.recalls = [] →
    ∃ t, exec (.contractAdmission r.id) s = .next t ∧ answered t (s.takeIn r k).1
    ∧ ((s.takeIn r k).1 = 0 → ∃ c, t.contracts = walked.contracts ++ [c] ∧ c.q = r.q ∧ c.kind = k ∧ c.ctx = r.ctx ∧ c.asid = r.asid
      ∧ c.base = r.base ∧ c.pages = r.pages)
    ∧ ((s.takeIn r k).1 ≠ 0 → t.contracts = walked.contracts ∧ t.rf (rCT_STAT r.q) 16 16 = (s.rf (rCT_STAT r.q) 16 16 + 1) % 65536)
    ∧ ((k = kKeepout → ∀ l ∈ s.lines, ∀ x, s.lineTag l = some x → x.1 ≠ r.asid) → ∀ pa, t.byte pa = s.byte pa))
  ∧ (∀ l, r.kind = none → r.owes = some l →
    (s.stillOwed l = true → exec (.contractRelease r.id) s = .next s)
    ∧ (s.stillOwed l = false → ∃ t, exec (.contractRelease r.id) s = .next t ∧ answered t 0 ∧ t.contracts = s.contracts
      ∧ t.lines = s.lines))
  ∧ (r.kind = none → r.owes = none →
    let found := s.contracts.find? fun c => c.q = r.q && c.asid = r.asid && c.ctx = r.ctx && c.base = r.base
    (found = none → ∃ t, exec (.contractRelease r.id) s = .next t ∧ answered t 7 ∧ t.contracts = s.contracts)
    ∧ ∀ c, found = some c → c.kind ≠ kPin → ∃ t, exec (.contractRelease r.id) s = .next t ∧ answered t 0
      ∧ t.contracts = s.contracts.filter (fun x => x.id ≠ c.id) ∧ t.lines = s.lines))
  ∧ ((∀ s lode, (s.clk < (s.lodeOf lode).tickAt → exec (.kvAgeTick lode) s = .next s)
    ∧ ((s.lodeOf lode).tickAt ≤ s.clk → let k := (s.clk - (s.lodeOf lode).tickAt) / 4096 + 1
    ∃ t, exec (.kvAgeTick lode) s = .next t
    ∧ (t.lodeOf lode).age = (s.lodeOf lode).age + BitVec.ofNat 16 k ∧ (t.lodeOf lode).tickAt = (s.lodeOf lode).tickAt + 4096 * k
    ∧ s.clk < (t.lodeOf lode).tickAt ∧ ∀ e ∈ t.kv, e.lode = lode → 32768 ≤ ((t.lodeOf lode).age - e.stamp).toNat → e.oldest = true))
  ∧ (∀ s r lode, s.recalls = [] → (s.kvReqs.find? fun x => x.id = r.id) = some r →
  s.kvHome r.q r.asid r.key = some lode → (s.lodeOf lode).asleep = false →
  s.clk < (s.lodeOf lode).tickAt →
  let done (code : Nat) (p : State → Prop) : Prop := ∃ t, exec (.kvLodeOperation r.id) s = .next t ∧ p t
    ∧ (∀ x ∈ t.kvReqs, x.id ≠ r.id) ∧ ∀ o ∈ s.results, o.id = r.res → ∀ d, o.regs = [.s d] →
      ∃ y ∈ t.results, y.id = o.id ∧ y.ready = true ∧ y.writes = [⟨.s d, 0, BitVec.ofNat 64 code⟩]
  let here (e : KvEntry) : Bool := e.lode = lode && e.asid = r.asid && e.key = r.key
  (r.noKv = true → done 2 fun t => t.kv = s.kv)
  ∧ (r.noKv = false → (s.kvFind lode r.asid r.key = none → (∀ b n c, r.op ≠ .put b n c) → done 1 fun t => t.kv = s.kv)
  ∧ (∀ e, s.kvFind lode r.asid r.key = some e →
    (r.op = .drop → e.pins = 0 → done 0 fun t => t.kv = s.kv.filter fun x => !here x)
    ∧ (r.op = .drop → e.pins ≠ 0 → done 5 fun t => t.kv = s.kv)
    ∧ (r.op = .pin false → e.pins ≠ 255 → done ((e.pins + 1) * 2 ^ 32) fun t => ∃ x ∈ t.kv, here x = true ∧ x.pins = e.pins + 1)
    ∧ (r.op = .pin true → e.pins ≠ 0 → done ((e.pins - 1) * 2 ^ 32) fun t => ∃ x ∈ t.kv, here x = true ∧ x.pins = e.pins - 1)
    ∧ ∀ b n w, r.op = .get b n → s.wg? r.wg = some w → (w.part r.part).gen = r.gen → r.part < w.parts.length →
      done (e.val.length * 2 ^ 16) fun t => t.partOf r.wg r.part = (w.part r.part).wr b (e.val.take n))
  ∧ (∀ b n c w, r.op = .put b n c → s.wg? r.wg = some w → (∀ e ∈ s.kv, e.lode ≠ lode) →
    let val := (w.part r.part).rd b n
    kvUnits val.length ≤ 8192 * (s.roleBanks lode 3).length → kvUnits val.length ≤ s.rf (rSTR_KV lode) 0 16 →
    done 0 fun t => ∃ e, t.kv = s.kv ++ [e] ∧ here e = true ∧ e.val = val ∧ e.cls = c ∧ e.owner = r.ctx ∧ e.pins = 0))))

/-! The scheduler. -/

/-- Records (R320, R322, R325, R326): a take copies the slot, advances the queue and gives the record its state; a slot that
still holds the ready record of 65,536 indexes before, unwritten, is not taken; a record
whose workgroups have all ended without an audit or successors is done, a terminated one takes state 4; each full 2 ms
without a placement raises the effective priority by one.
PLACEMENT of the next workgroup of the record that R326 chooses, on cores that fit it (R323, R324): a workgroup of
the record's shape whose threads stand at its code, with the argument address in s0 and the record's reference in s1. -/
def Obligations.RecordsAndPlacement : Prop :=
  (∀ s,
  (∀ q n v s1, s.recalls = [] → s.leads q = true → let x := s.queue q n
    x.en = true → s.rf (rSCH_CTL q) 0 1 = 1 → s.engineRead q (slotVa x.base x.taken) 64 = (.ok v, s1) →
    let im := BitVec.ofNat 512 v
    let d := (s1.descOf q (rfld im 208 12)).1
    let ok := recordOk im && bitAt (d.extractLsb' 128 64) n && rfld d 1 1 = rfld im 220 1
    rfld im 464 3 = 1 → (s.takeSlot q n).2.recalls = [] →
    (s1.slotKept q n x.taken im = true → exec (.recordTake q n) s = .next s1)
    ∧ (s1.slotKept q n x.taken im = false →
    ∃ t r, exec (.recordTake q n) s = .next t ∧ r ∈ t.recs ∧ r.q = q ∧ r.queue = n ∧ r.index = x.taken ∧ r.image = im
      ∧ r.count = rfld im 192 16 ∧ r.ref = refOf n x.taken ∧ r.placed = 0 ∧ (t.queue q n).taken = x.taken + 1
      ∧ (ok = false → r.st = 4)
      ∧ (ok = true → s1.ctxClosed q (rfld im 208 12) = false → r.count ≠ 0 → r.st = 0)
      ∧ (ok = true → s1.ctxClosed q (rfld im 208 12) = false → r.count = 0 → rfld im 384 57 = 0 →
        r.st = 1 ∧ r.eprio = min (rfld im 57 3) (rfld d 8 3))))
  ∧ (∀ r, (s.recs.find? fun x => x.id = r.id) = some r → r.wants = true → s.usAfter r.since 2000 ≤ s.clk →
    exec (.priorityAging r.id) s = .next (s.modRec r.id fun x =>
      { x with eprio := min 7 (x.eprio + 1), since := s.usAfter r.since 2000 }))
  ∧ ∀ r, s.recalls = [] → (s.recs.find? fun x => x.id = r.id) = some r → r.primary = 0 → r.over = true →
    let ends (st : Nat) : Prop := ∃ t x, exec (.recordComplete r.id) s = .next t ∧ x ∈ t.recs ∧ x.id = r.id ∧ x.st = st
        ∧ ∀ l ∈ t.lines, l.shadow = false → l.staged ≠ some r.id
    let s1 := (s.publish r.id).modRec r.id fun x => { x with succ := 1 }
    (r.terminated = true ∨ r.closed = true → ((s.publish r.id).endRec r 4).recalls = [] → ends 4)
    ∧ (r.terminated = false → r.closed = false → r.audit ≠ .selected → s.hostIdle r.q r.ctx.asid = true → r.succ = 0 →
      rfld r.image 185 7 = 0 → (s1.endRec { r with succ := 1 } 3).recalls = [] → ends 3))
  ∧ (∀ s q cores r cost cur d ds c rs, s.recalls = [] →
  s.rf (rSCH_CTL q) 0 1 = 1 → s.leads q = true → s.quiet q = false → s.images = [] →
  let lv := (s.recs.filter fun r => r.q = q && r.wants).foldl (fun a r => max a r.eprio) 0
  r ∈ s.recs → r.q = q → r.wants = true →
  drr (fun n => (s.oldestAt q lv n).map fun r => (r, recWaves r.image)) (fun n => max 1 (s.queue q n).quantum.toNat) 131072
    (SMap.get 0 s.turn (8 * q + lv))
    ((List.range 64).foldl (fun m n => SMap.put 0 m n (SMap.get 0 (s.queue q n).deficit lv)) []) = some (r, cost, cur, d) →
  s.descOf q r.ctx.num = (ds, s) → s.ctxAt q r.ctx.num ds = (c, s) → s.descBad q ds = false →
  s.readRanges r c = (.ok rs, s) → s.ctxSecure q c = true → bitAt (s.reg (rWLD_QUEUE q)) r.queue = c.world →
  recPer r.image ≤ 256 →
  ((s.coreSets q (recNeeds r.image).length c.world).any fun cs => zipAll s.capFits cs (recNeeds r.image)) = true →
  s.canPlace q c.world r.id cores (recNeeds r.image) = true → (s.placeStep q cores).recalls = [] →
  ∃ t w, exec (.workgroupPlacement q cores) s = .next t ∧ t.wgs = s.wgs ++ [w] ∧ w.recId = r.id ∧ w.ref = r.ref
    ∧ w.wg = r.placed ∧ w.ctx = c ∧ w.fate = .live ∧ w.threads = rfld r.image 256 16 + 1 ∧ w.prio = min (rfld r.image 57 3) c.prioMax
    ∧ w.waves.length = recWaves r.image
    ∧ (∀ (k : Nat) (v : Wave), w.waves[k]? = some v →
      v.s 0 = BitVec.ofNat 64 (rfld r.image 64 57) ∧ v.s 1 = r.ref ∧ (∀ i, 2 ≤ i → v.s i = 0) ∧ (∀ i l, v.v i l = 0)
      ∧ (v.role, v.n) = recRole r.image k
      ∧ ∀ l, l < 64 → v.thread l = startThread (rfld r.image 0 57) (decide (64 * k + l ≤ rfld r.image 256 16))))

/-- A write of SCH_QBASE enables a queue whose image is mapped, at once or when the image's first line has come, notes a fault
where it is not, and disables (R321). VACATE pre-empts the workgroups on its cores, which close to placement at once where
none is there and are to close otherwise, and ends when they are empty; REOPEN opens them; any other code is BAD_OP (R330,
R332). A write that a secure partition forbids is logged alone (R7). Thermal control vacates a core; while a region on it is
honoured its die's rows are gated and the pool never rises (R329). -/
def Obligations.SchedulerCommands : Prop := ∀ s q sec, q < 4 →
  let st := rSCH_CMD_STAT q
  let ended (t : State) (res : Nat) : Prop := t.rf st 0 1 = 0 ∧ t.rf st 1 3 = res ∧ t.rf st 4 1 = 1
  let cs := s.vmask q
  let vacated (t : State) (cs : List Nat) : Prop :=
    ((∀ w ∈ s.wgs, ∀ p ∈ w.parts, p.core ∉ cs) → ∀ n ∈ cs, (t.coreOf n).closed = true)
    ∧ ((∃ w ∈ s.wgs, ∃ p ∈ w.parts, p.core ∈ cs) → ⟨cs, .vacation⟩ ∈ t.vacReqs)
    ∧ ∀ w, s.wg? w.id = some w → w.fate = .live → (∃ p ∈ w.parts, p.core ∈ cs) → ∃ g, t.wg? w.id = some g
      ∧ (w.inRegion = false → g.fate = .saving) ∧ (w.inRegion = true → g.fate = .live ∧ g.npReq.isSome = true)
  (s.leads q = true → s.partSecure q = true → sec = false →
    (∀ v, exec (.queueEnableWrite q v sec) s = .next (s.violation (rSCH_QBASE q)))
    ∧ ∀ op, ∀ i ∈ [Instr.vacate q sec, .reopen q sec, .schBadOp q op sec], exec i s = .next (s.violation (rSCH_CMD q)))
  ∧ (s.leads q = true → (s.partSecure q = false ∨ sec = true) →
    (∀ v, let x := s.queue q (s.rf (rSCH_QIDX q) 0 6)
      let base := 65536 * wfld v 16 41
      (x.en = true → bitAt v 0 = false → exec (.queueEnableWrite q v sec) s = .next (s.setQueue { x with en := false }))
      ∧ (x.en = true → bitAt v 0 = true → exec (.queueEnableWrite q v sec) s = .next (s.setQueue { x with enabling := false }))
      ∧ (x.en = false → bitAt v 0 = false →
        exec (.queueEnableWrite q v sec) s = .next (s.setQueue { x with base := base, enabling := false }))
      ∧ (x.en = false → bitAt v 0 = true → s.imageMapped q base = false →
        exec (.queueEnableWrite q v sec) s = .next (s.setQueue { x with base := base, fault := true }))
      ∧ (x.en = false → bitAt v 0 = true → s.imageMapped q base = true → ∀ s1,
        (∀ n, s.engineRead x.q (base + 8) 8 = (.ok n, s1) → exec (.queueEnableWrite q v sec) s =
          .next ((s1.setQueue { x with base := base, en := true, taken := n, enabling := false }).updateLimit x.q x.num true))
        ∧ (s.engineRead x.q (base + 8) 8 = (.wait, s1) →
          exec (.queueEnableWrite q v sec) s = .next (s1.setQueue { x with base := base, enabling := true }))))
    ∧ (s.rf st 0 1 = 0 →
      (∀ op : BitVec 4, op.toNat ≠ 1 → op.toNat ≠ 2 → ∃ t, exec (.schBadOp q op sec) s = .next t ∧ ended t 3)
      ∧ ((∀ n ∈ cs, n ∈ s.partCores q ∧ (s.coreOf n).retired = false) →
        (∃ t, exec (.reopen q sec) s = .next t ∧ ended t 0 ∧ ∀ n ∈ cs, (t.coreOf n).closed = false)
        ∧ ∃ t, exec (.vacate q sec) s = .next t ∧ t.rf st 0 1 = 1 ∧ SMap.find t.vacating q = some cs ∧ vacated t cs)))
  ∧ (∀ l, SMap.find s.vacating q = some l →
    (l.all s.coreEmpty = false → exec (.vacateDone q) s = .next s)
    ∧ (l.all s.coreEmpty = true → ∃ t, exec (.vacateDone q) s = .next t ∧ ended t 0 ∧ SMap.find t.vacating q = none))
  ∧ ∀ n total, n < 256 → ∃ t, exec (.thermalVacate n total) s = .next t ∧ vacated t [n] ∧ t.pebTotal ≤ s.pebTotal
    ∧ ((s.wgs.any fun w => w.onCore n && w.inRegion) = true → t.rf rPWR_PEBBLE (32 + n / 64) 1 = 1 ∧ t.pebTotal ≤ total.toNat)

/-! Saves, service commands and reliability. -/

/-- Where no host half stands in the way (R311): a save whose workgroup is quiet writes its image into a free slot, advances
the owner generations of its parts and takes the workgroup off its cores (R349), here one without copies; 50 us after its
beginning the chunks not acknowledged are abandoned (R350); a restore puts an image that passes its check on cores that can
take it, with the threads and registers that memory gives, a parked thread's fault id being its replay record's where that was
edited, and one that fails its check ends its workgroup (R353). -/
def Obligations.SavesAndRestores : Prop := ∀ s, s.recalls = [] →
  (∀ w k, s.wg? w.id = some w → w.fate = .saving → s.saveReady w = true → (∀ c ∈ s.copies, c.wg ≠ w.id) →
    (∀ l ∈ s.lines, l.lo = .i ∧ l.hi = .i) → s.freeSlot w.ctx.save (s.imageSize w) = some k →
    let w1 : Workgroup := { w with waves := w.waves.map Wave.landAll, parts := w.parts.map fun p => { p with gen := p.gen + 1 } }
    let s1 : State := { s with
      nextId := s.nextId + 1 + (s.nextId + 1), wgs := s.wgs.filter fun x => x.id ≠ w.id,
      images := s.images ++ [⟨s.nextId, k, w1, [], []⟩] }
    exec (.contextSave w.id) s = .next
      (((s1.setBusy w.ctx.save k true).writeImage (s.slotAt w.ctx.save k) w1 []).closeVac (w.parts.map (·.core)))
    ∧ ∃ t i, exec (.contextSave w.id) s = .next t ∧ t.images = s.images ++ [i] ∧ i.slot = k ∧ i.orders = [] ∧ i.copies = []
      ∧ i.wg = w1 ∧ ∀ x ∈ t.wgs, x.id ≠ w.id)
  ∧ (∀ w, s.wg? w.id = some w →
    (w.fate ≠ .live → s.usAfter w.saveAt 50 ≤ s.clk → ∃ t, exec (.saveChunkTimeout w.id) s = .next t
      ∧ t = { s with wgs := t.wgs } ∧ t.wg? w.id = some { w with abandoned := true })
    ∧ (w.fate = .live ∨ s.clk < s.usAfter w.saveAt 50 → exec (.saveChunkTimeout w.id) s = .next s))
  ∧ ∀ i r cores, (s.images.find? fun x => x.id = i.id) = some i → (s.recs.find? fun x => x.id = i.wg.recId) = some r →
    s.quiet r.q = false → s.ctxClosed r.q r.ctx.num = false → s.canPlace r.q i.wg.ctx.world r.id cores (recNeeds r.image) = true →
    s.mayReturn r i.wg.wg cores = true → s.slotsFor i.wg i.copies cores = true → (∀ x ∈ s.wgs, x.id ≠ i.wg.id) →
    let at_ := s.slotAt i.wg.ctx.save i.slot
    (s.readImage at_ i.wg (rfld r.image 224 32) = none ∨ s.readReplays at_ i = none → (s.failImage i r).recalls = [] →
      exec (.workgroupRestore i.id cores) s = .next (s.failImage i r))
    ∧ ∀ w s1, s.readImage at_ i.wg (rfld r.image 224 32) = some w → s.readReplays at_ i = some s1 → w.id = i.wg.id →
      i.copies = [] → i.orders = [] →
      (∀ l ∈ s.lines, l.lo = .i ∧ l.hi = .i) →
      ∃ t g, exec (.workgroupRestore i.id cores) s = .next t ∧ t.wgs = s.wgs ++ [g] ∧ g.id = w.id ∧ g.fate = .live
        ∧ (∀ x ∈ t.images, x.id ≠ i.id) ∧ g.waves.length = w.waves.length
        ∧ (∀ (k : Nat) (v : Wave), w.waves[k]? = some v → ∃ u : Wave, g.waves[k]? = some u
          ∧ u.threads.length = v.threads.length
          ∧ (∀ l, { u.thread l with faultId := none } = { v.thread l with faultId := none }
            ∧ ((v.thread l).status ≠ .parked → u.thread l = v.thread l))
          ∧ u.sregs = v.sregs ∧ u.vregs = v.vregs ∧ u.n = v.n ∧ u.region = v.region ∧ u.nextAt = s.clk + 64)
        ∧ ∀ (j : Nat) (p : Part), g.parts[j]? = some p → cores[j]? = some p.core ∧ p.scr = (w.part j).scr ∧ p.acc = (w.part j).acc
          ∧ p.gen = (w.part j).gen + 1

/-- FLT_CMD (R339, R354, R356): RESUME performs a park's replay, DELIVER hands its cause to the handler of each parked
lane, both only discard the replay record of a workgroup that has stopped for good (R348), KILL begins by stopping all that the context runs and completes when nothing of it is on its way, its images and
parks gone then; another code is BAD_OP, a command while one runs BUSY; one that a secure partition forbids is logged alone
(R7). -/
def Obligations.ServiceCommands : Prop := ∀ s q sec, s.leads q = true →
  (s.partSecure q = true → sec = false →
    ∀ c f op, ∀ i ∈ [Instr.fltResume q c f sec, .deliver q c f sec, .kill q c sec, .fltBadOp q op sec],
      exec i s = .next (s.violation (rFLT_CMD q)))
  ∧ ((s.partSecure q = false ∨ sec = true) →
  let st := rFLT_STAT q
  let ended (t : State) (res : Nat) : Prop := t.rf st 0 1 = 0 ∧ t.rf st 1 3 = res ∧ t.rf st 4 1 = 1
  (s.rf st 0 1 = 1 → ∀ c f op, ∀ i ∈ [Instr.fltResume q c f sec, .deliver q c f sec, .kill q c sec, .fltBadOp q op sec],
    exec i s = .next (s.setRf st 1 3 1))
  ∧ (s.rf st 0 1 = 0 → (∀ op : BitVec 4, (op = 0 ∨ 3 < op.toNat) → ∃ t, exec (.fltBadOp q op sec) s = .next t ∧ ended t 5)
    ∧ ∀ ctx d, s.descOf q ctx = (d, s) → rfld d 0 1 = 1 → rfld d 1 1 = 0 → (∀ w ∈ s.wgs, w.ctx.world = false) →
      (∀ f, (s.parks.find? fun p => p.q = q && p.ctx = ctx && p.fault = some f) = none →
        (∃ t, exec (.fltResume q ctx f sec) s = .next t ∧ ended t 3) ∧ ∃ t, exec (.deliver q ctx f sec) s = .next t ∧ ended t 3)
      ∧ (∀ f p w, (s.parks.find? fun p => p.q = q && p.ctx = ctx && p.fault = some f) = some p → s.wg? p.wg = some w →
        w.fate = .ending → ∀ i ∈ [Instr.fltResume q ctx f sec, .deliver q ctx f sec],
        ∃ t, exec i s = .next t ∧ ended t 0 ∧ t.parks = s.parks.filter (fun x => x.id ≠ p.id)
          ∧ t.reqs = s.reqs.filter fun r => !p.owns r)
      ∧ (∀ f p, (s.parks.find? fun p => p.q = q && p.ctx = ctx && p.fault = some f) = some p → (∀ i ∈ s.images, i.wg.id ≠ p.wg) →
        (∀ w, s.wg? p.wg = some w → w.fate ≠ .ending) →
        (∃ t, exec (.fltResume q ctx f sec) s = .next t ∧ ended t 0 ∧ (∀ x ∈ t.parks, x.id ≠ p.id)
          ∧ ∀ r ∈ s.reqs, p.owns r = true → ∃ y ∈ t.reqs, y.id = r.id ∧ y.parked = false ∧ y.cause = none ∧ y.what = r.what)
        ∧ ∀ v w l, s.wg? p.wg = some w → s.wave? p.wg p.wave = some v → p.lanes = maskOf [l] → l < v.threads.length → l < 64 →
          (v.thread l).status = .parked → (v.thread l).active = false → w.ctx.trapVec ≠ 0 →
          ∃ t u, exec (.deliver q ctx f sec) s = .next t ∧ ended t 0 ∧ t.wave? p.wg p.wave = some u
            ∧ (u.thread l).active = true ∧ (u.thread l).delivered = true ∧ (u.thread l).cause = BitVec.ofNat 8 p.cause.code
            ∧ (u.thread l).tpc = (v.thread l).pc ∧ (u.thread l).tinfo = (v.thread l).tinfo
            ∧ (u.thread l).pc = pcAt w.ctx.trapVec ∧ ∀ x ∈ t.parks, x.id ≠ p.id)
      ∧ ∃ t, exec (.kill q ctx sec) s = .next t ∧ SMap.find t.killing q = some (some ctx)
        ∧ (∀ w ∈ t.wgs, w.ctx.q = q → w.ctx.num = ctx → w.fate = .ending)
        ∧ (∀ r ∈ t.kvReqs, ¬(r.q = q ∧ r.ctx = ctx)) ∧ (∀ r ∈ t.ctrReqs, ¬(r.q = q ∧ r.ctx = ctx))
        ∧ (∀ x ∈ t.xposes, ¬(x.copy.q = q ∧ x.copy.ctx = ctx)) ∧ (t.ctxRun q ctx).closed = true)
  ∧ ∀ ctx, s.recalls = [] → SMap.get none s.killing q = some ctx →
    ((∃ w ∈ s.wgs, w.ctx.q = q ∧ w.ctx.num = ctx) → exec (.killComplete q) s = .next s)
    ∧ ((∀ w ∈ s.wgs, ¬(w.ctx.q = q ∧ w.ctx.num = ctx)) → (∀ c ∈ s.copies, c.q = q → c.ctx = ctx → c.dead = true) →
      (∀ r ∈ s.reqs, r.q = q → r.ctx = ctx → r.parked = true) → s.reds = [] → (∀ c ∈ s.contracts, ¬(c.q = q ∧ c.ctx = ctx)) →
      (∀ r ∈ s.recs, ¬(r.q = q ∧ r.ctx.num = ctx)) → (∀ l ∈ s.lines, l.lo = .i ∧ l.hi = .i) → ∀ d, s.descOf q ctx = (d, s) →
      ∃ t, exec (.killComplete q) s = .next t ∧ ended t 0 ∧ SMap.get none t.killing q = none
        ∧ (t.ctxRun q ctx).gen = (s.ctxRun q ctx).gen + 1 ∧ (t.ctxRun q ctx).closed = false
        ∧ (∀ i ∈ t.images, ¬(i.wg.ctx.q = q ∧ i.wg.ctx.num = ctx)) ∧ (∀ p ∈ t.parks, ¬(p.q = q ∧ p.ctx = ctx))
        ∧ ∀ r ∈ t.reqs, ¬(r.q = q ∧ r.ctx = ctx)))

/-- Errors (R358, R365): an uncorrectable one poisons a memory line or marks its scratch byte, and its place is to be
tested; a corrected one is logged, and the second at a place has it tested; a test that passes clears the place's log, one that
fails writes a signed repair record; a site that fails is lost, the core of a register bank retired, a lane replaced or its link
taken out of use.
Audits (R363, R364): the replay begins with the primary's signature taken; equal signatures end the audit in the
primary's favour, unequal ones raise the alarm, have the cores of both runs tested, each under its bank 0, which is the model's
reading (log 39), and start a third run. The third decides: with the primary, with the replay, which rolls the primary back, or
with neither, which ends the record. `sign` reads a run's lines; here none of them has a host half to recall. -/
def Obligations.ErrorsAndAudits : Prop :=
  (∀ s,
  (∀ pa, (s.frame (pa / 65536)).flakes ≠ [] → ∃ t, exec (.ueDetected (.hbmLine pa)) s = .next t
    ∧ pa % 65536 / 128 ∈ (t.frame (pa / 65536)).poison ∧ s.errPlace (.hbmLine pa) ∈ t.tests ∧ t.mem = s.mem)
  ∧ (∀ wg p off, p < (((s.wg? wg).map fun w => w.parts.length).getD 0) → off < (s.partOf wg p).scrBytes →
    ∃ t, exec (.ueDetected (.scratch wg p off)) s = .next t ∧ off ∈ (t.partOf wg p).ue ∧ (t.partOf wg p).scr = (s.partOf wg p).scr
      ∧ s.errPlace (.scratch wg p off) ∈ t.tests)
  ∧ (∀ loc, s.errPlace loc ∉ s.errLog → exec (.correctedError loc) s = .next { s with errLog := s.errLog ++ [s.errPlace loc] })
  ∧ (∀ loc, s.errPlace loc ∈ s.errLog → ∃ t, exec (.correctedError loc) s = .next t ∧ s.errPlace loc ∈ t.tests)
  ∧ ∀ pa, let loc : ErrLoc := s.errPlace (.hbmLine pa)
    loc ∈ s.tests →
    (exec (.selfTest (.hbmLine pa) true) s = .next { s with
      tests := s.tests.filter fun x => x ≠ loc, errLog := s.errLog.filter fun x => x ≠ loc })
    ∧ (s.mgmt.repairs.length < Config.storeSize → ∃ t, exec (.selfTest (.hbmLine pa) false) s = .next t
      ∧ t.mgmt.repairs = s.mgmt.repairs ++ [(true, loc)] ∧ loc ∉ t.tests ∧ loc ∉ t.errLog))
  ∧ (∀ s loc, s.errPlace loc = loc → loc ∈ s.tests → s.mgmt.repairs.length < Config.storeSize →
    let fails (p : State → Prop) : Prop := ∃ t, exec (.selfTest loc false) s = .next t
      ∧ t.mgmt.repairs = s.mgmt.repairs ++ [(true, loc)] ∧ loc ∉ t.tests ∧ loc ∉ t.errLog ∧ p t
    (∀ n k, loc = .strataSite n k 0 → n < 256 → k < 4 * perLayer n → bitAt (s.lodeOf n).lost k = false →
      s.lostIn n (siteGroup n k) < 2 → fails fun t => t.lostIn n (siteGroup n k) = s.lostIn n (siteGroup n k) + 1)
    ∧ (∀ c b, loc = .registerFile c b 0 0 → s.coreEmpty c = true → fails fun t => (t.coreOf c).retired = true)
    ∧ (∀ c b, loc = .registerFile c b 0 0 → s.coreEmpty c = false → exec (.selfTest loc false) s = .next s)
    ∧ ∀ l k, loc = .linkLane l k → l < 12 → k < 9 → bitAt (s.badLanesOf l) k = false → s.linkState l ≠ 3 →
      fails fun t => bitAt (t.badLanesOf l) k = true ∧ (s.badLanesOf l ≠ 0 → t.linkState l = 3))
  ∧ (∀ s r, s.recalls = [] → s.audited r.id = some r →
  (s.runOf r.id .third = none → s.runOf r.id .replay = none → ∀ sig, s.sign r s.free = (sig, s) →
    ∃ t x p, exec (.auditReplay r.id []) s = .next t ∧ x ∈ t.recs ∧ x.id = r.id ∧ x.sigs = [sig] ∧ x.akey = s.free
      ∧ p ∈ t.recs ∧ p.primary = r.id ∧ p.audit = .replay ∧ p.image = r.image ∧ p.placed = 0)
  ∧ (∀ p sig, s.runOf r.id .replay = some p → p.over = true → p.sigs = [] → s.runOf r.id .third = none →
    s.sign p r.akey = (sig, s) →
    (r.sigs = [sig] → (s.auditOk r).recalls = [] → exec (.auditVerdict r.id) s = .next (s.auditOk r))
    ∧ (r.sigs ≠ [sig] → ∃ t x, exec (.auditVerdict r.id) s = .next t ∧ x ∈ t.recs ∧ x.primary = r.id ∧ x.audit = .third
      ∧ x.placed = 0 ∧ t.rf (rASY_STAT r.q) 48 1 = 1
      ∧ ∀ c ∈ (r.cores ++ p.cores).flatMap (·.2), s.errPlace (.registerFile c 0 0 0) ∈ t.tests))
  ∧ ∀ p t3 sig, s.runOf r.id .replay = some p → s.runOf r.id .third = some t3 → t3.over = true →
    s.sign t3 r.akey = (sig, s) →
    let back : State := (((s.dropRuns r.id).incRf (rASY_STAT r.q) 0 16).rollback r).blame r
    (r.sigs = [sig] → ((s.auditOk r).blame p).recalls = [] → exec (.auditVote r.id) s = .next ((s.auditOk r).blame p))
    ∧ (r.sigs ≠ [sig] → p.sigs = [sig] → back.recalls = [] → exec (.auditVote r.id) s = .next back)
    ∧ (r.sigs ≠ [sig] → p.sigs ≠ [sig] → r.q < 4 → (s.auditVote r.id).recalls = [] →
      ∃ t x, exec (.auditVote r.id) s = .next t ∧ x ∈ t.recs ∧ x.id = r.id ∧ x.st = 4
        ∧ t.rf (rASY_STAT r.q) 32 8 = min 255 (s.rf (rASY_STAT r.q) 32 8 + 1)
        ∧ ∀ l ∈ t.lines, l.shadow = false → l.staged ≠ some r.id))

/-! The host and the links. -/

/-- Accesses of the host to memory that a lode holds (R310, R311): a read answers the bytes and leaves the halves it
touches shared; a write, and an atomic with the value it computes, reach the line; ownership gives the host the half
exclusively. That a read gives it S and ownership E are the model's readings (log 33), the 64 B half that a request for ownership
takes its choice (log 53). Each names a host physical address, which the HDM decoders place in a partition; one outside their ranges is
unsupported (R369). -/
def Obligations.HostAccesses : Prop := ∀ s q l hpa,
  (∀ pa n, s.hdmDecode hpa n = some pa → HostReach s pa n q l →
    ∃ t y, exec (.hostRead hpa n) s = .next t ∧ t.hostDone = s.hostDone ++ [.ok (s.bytesFrom pa n)]
      ∧ (∀ a, t.byte a = s.byte a) ∧ y ∈ t.lines ∧ y.id = l.id
      ∧ y.lo = (if pa % 128 < 64 then .s else .i) ∧ y.hi = (if 64 < pa % 128 + n then .s else .i))
  ∧ (∀ pa d, s.hdmDecode hpa d.length = some pa → HostWrites s pa d.length q l →
    ∃ t, exec (.hostWrite hpa d) s = .next t ∧ t.hostDone = s.hostDone ++ [.ok []] ∧ s.with t pa d)
  ∧ (∀ pa op x cmp, let n := atomWidth op.toNat / 8
    s.hdmDecode hpa n = some pa → HostWrites s pa n q l →
    ∃ t, exec (.hostAtomic hpa op x cmp) s = .next t ∧ t.hostDone = s.hostDone ++ [.ok (s.bytesFrom pa n)]
      ∧ s.with t pa (bytesOfNat n (atomNew op.toNat (natOfBytes (s.bytesFrom pa n)) x.toNat cmp.toNat)))
  ∧ (∀ pa, let at_ := pa / 64 * 64
    s.hdmDecode hpa 64 = some pa → HostWrites s at_ 64 q l →
    ∃ t y, exec (.hostOwnershipRequest hpa) s = .next t ∧ t.hostDone = s.hostDone ++ [.ok (s.bytesFrom at_ 64)]
      ∧ (∀ a, t.byte a = s.byte a) ∧ y ∈ t.lines ∧ y.id = l.id
      ∧ (y.lo, y.hi) = (if pa % 128 < 64 then (.e, .i) else (.i, .e)))
  ∧ let refused (i : Instr) : Prop := exec i s = .next { s with hostDone := s.hostDone ++ [.unsupported] }
    (∀ n, s.hdmDecode hpa n = none → refused (.hostRead hpa n))
    ∧ (∀ d, s.hdmDecode hpa d.length = none → refused (.hostWrite hpa d))
    ∧ (∀ op x cmp, s.hdmDecode hpa (atomWidth op.toNat / 8) = none → refused (.hostAtomic hpa op x cmp))
    ∧ (s.hdmDecode hpa 64 = none → refused (.hostOwnershipRequest hpa))

/-- The host's answer to a back-invalidation gives the half back, with its data where the host changed it, which a rollback
discards (R361), and a line that its lode may not keep then leaves; an answer after the lease ran out is dropped, answered with
poison and counted, wherever the line then is (R311, R312). A lease that runs out takes the half away, leaves
it the value last written back of it, or the frame's, and is logged in HBR_LOST (R312, R313).
Holds of one millisecond end as the rule of each says (R42, R362, R382). -/
def Obligations.LeasesAndHolds : Prop := ∀ s,
  (∀ b l, (s.backInvs.find? fun x => x.id = b.id) = some b → s.lineById b.line = some l →
    let left := s.backInvs.filter fun x => x.id ≠ b.id
    let half : Half := if b.toS && l.half b.hi ≠ .i then .s else .i
    let back : State := (State.modLine { s with backInvs := left } l.id fun x =>
      x.setHalf b.hi (if b.toS && x.half b.hi ≠ .i then .s else .i)).endTransit l.id
    (b.lost = false → exec (.backinvalResponse b.id none) s = .next back)
    ∧ (∀ d, b.lost = false → b.discard = true → exec (.backinvalResponse b.id (some d)) s = .next back)
    ∧ (∀ d, b.lost = false → b.discard = false → l.half b.hi = .e → s.dir = [] →
      ∃ (t : State) (y : LLine), exec (.backinvalResponse b.id (some d)) s = .next (t.endTransit l.id) ∧ t.backInvs = left ∧ y ∈ t.lines ∧ y.id = l.id
        ∧ y.half b.hi = half ∧ y.dirty = true
        ∧ y.data = lineMerge l.data (halfMask b.hi) (lineOf (if b.hi then 64 else 0) (d.take 64))))
  ∧ (∀ b d, (s.backInvs.find? fun x => x.id = b.id) = some b → b.lost = true →
    let o := rHBR_LOST (s.frameLead (b.pl / 512))
    ∃ t, exec (.backinvalResponse b.id (some d)) s = .next t ∧ t.backInvs = s.backInvs.filter (fun x => x.id ≠ b.id)
      ∧ t.lines = s.lines ∧ t.hostDone = s.hostDone ++ [.poisoned] ∧ t.rf o 46 15 = min 32767 (s.rf o 46 15 + 1))
  ∧ (∀ b l, (s.backInvs.find? fun x => x.id = b.id && !x.lost) = some b → s.lineById b.line = some l →
    l.half b.hi = .e →
    let q := s.leadOfLode l.lode
    s.usAfter b.since (min 1000 (max 1 (s.rf (rHBR_CTL q) 0 10))) ≤ s.clk →
    let v : Line := match (if b.hi then l.backHi else l.backLo) with
      | some x => x.setWidth 1024 <<< (if b.hi then 512 else 0)
      | none => s.storedLine l.frame l.off
    ∃ t y, exec (.leaseTimeout b.id) s = .next t ∧ y ∈ t.lines ∧ y.id = l.id ∧ y.half b.hi = .i
      ∧ y.data = lineMerge l.data (halfMask b.hi) v
      ∧ (∃ c ∈ t.backInvs, c.id = b.id ∧ c.lost = true) ∧ t.rf (rHBR_LOST q) 63 1 = 1
      ∧ t.rf (rHBR_LOST q) 46 15 = min 32767 (s.rf (rHBR_LOST q) 46 15 + 1)
      ∧ (s.rf (rHBR_LOST q) 63 1 = 0 → t.rf (rHBR_LOST q) 0 36 = l.frame % 2 ^ 36 ∧ t.rf (rHBR_LOST q) 36 9 = l.off % 512
        ∧ t.rf (rHBR_LOST q) 45 1 = (if b.hi then 1 else 0)))
  ∧ ∀ h, h.link = none → (s.hostHolds.find? fun x => x.id = h.id) = some h → s.usAfter h.since 1000 ≤ s.clk →
    let left := s.hostHolds.filter fun x => x.id ≠ h.id
    let ends (d : HostDone) : State := { s with hostHolds := left, hostDone := s.hostDone ++ [d] }
    (h.why = 1 → exec (.auditHoldTimeout h.id) s = .next (ends .poisoned))
    ∧ (h.why = 2 → exec (.partHostHoldTimeout h.id) s = .next (ends .unsupported))
    ∧ (h.why = 0 → ∀ q, s.hdm (h.pa / 65536) = some q →
      ∃ t, exec (.hostWriteHoldTimeout h.id) s = .next t ∧ t.hostHolds = left ∧ t.hostDone = s.hostDone ++ [.poisoned]
        ∧ t.lines = s.lines ∧ t.mem = s.mem ∧ t.rf (rTMB_OOS_LOG q) 63 1 = 1)

/-- VER_SEL takes versions within VER_CAP (R371). A link trains to the highest version both ends have, or is
INCOMPAT; its second lost lane ends it (R372); the third missed heartbeat fences every link to the peer, dead ones among them
(R367). A peer's packet is an access at the home lode (R374), of a link that is up: reads and writes, which are all that the
model's packets are. When missed heartbeats follow one another, that the spare lane's failure counts as a lane lost, and that a
peer's access leaves no half with the host, are the model's readings (log 34). -/
def Obligations.Links : Prop := ∀ s,
  (∀ v, let fits (lo : Nat) : Prop := s.rf rVER_CAP lo 4 ≤ wfld v lo 4 ∧ wfld v lo 4 ≤ s.rf rVER_CAP (lo + 4) 4
    ∃ t, exec (.verSelWrite v) s = .next t ∧ t = { s with csr := t.csr } ∧ (∀ o, o ≠ rVER_SEL → t.reg o = s.reg o)
      ∧ (∀ lo ∈ [0, 8, 16], (fits lo → t.rf rVER_SEL lo 4 = wfld v lo 4) ∧ (¬fits lo → t.rf rVER_SEL lo 4 = s.rf rVER_SEL lo 4))
      ∧ ((∀ lo ∈ [0, 8, 16], fits lo) → t.rf rVER_SEL 32 1 = if bitAt v 32 then 0 else s.rf rVER_SEL 32 1)
      ∧ ((∃ lo ∈ [0, 8, 16], ¬fits lo) → t.rf rVER_SEL 32 1 = 1))
  ∧ ∀ l, l < 12 →
    (∀ (peer : BitVec 16) (pmin pmax : BitVec 4), s.dieOk (l / 3) = true → s.stage ≠ 0 →
      let top := min (s.rf rVER_SEL 16 4) pmax.toNat
      (s.linkState l = 2 → exec (.linkTraining l peer pmin pmax) s = .next s)
      ∧ (s.linkState l ∈ [0, 1, 4] → ∃ t, exec (.linkTraining l peer pmin pmax) s = .next t ∧ t.lines = s.lines ∧ t.mem = s.mem
        ∧ (top < max (s.rf rVER_CAP 16 4) pmin.toNat → t.linkState l = 4)
        ∧ (max (s.rf rVER_CAP 16 4) pmin.toNat ≤ top → t.linkState l = 2 ∧ t.rf (rNRH_LNK l) 4 3 = top % 8
          ∧ t.linkPeer l = peer.toNat)))
    ∧ (∀ lane, lane < 9 → bitAt (s.badLanesOf l) lane = false → s.linkState l ≠ 3 →
      let m := s.badLanesOf l ||| (1#9 <<< lane)
      ∃ t, exec (.laneFailure l lane) s = .next t ∧ t.badLanesOf l = m
        ∧ (countBits m = 1 → t.linkState l = s.linkState l ∧ (lane ≠ 8 → t.rf (rNRH_LNK l) 3 1 = 1))
        ∧ (countBits m ≠ 1 → t.linkState l = 3))
    ∧ (s.linkState l ≠ 2 → s.linkState l ≠ 3 → exec (.heartbeatTimeout l) s = .next s)
    ∧ (s.linkState l = 2 ∨ s.linkState l = 3 → ∀ n at_, SMap.get (0, 0) s.hbMiss (s.linkPeer l) = (n, at_) →
      let per := max 1 (s.rf rNRH_HB 0 16)
      let one := s.usAfter at_ per
      let two := s.usAfter at_ (2 * per)
      let beats (k : Nat) : State := { s with hbMiss := SMap.put (0, 0) s.hbMiss (s.linkPeer l) (k, s.clk) }
      (n ≠ 0 → s.clk < one → exec (.heartbeatTimeout l) s = .next s)
      ∧ (n = 0 → exec (.heartbeatTimeout l) s = .next (beats 1))
      ∧ (n ≠ 0 → one ≤ s.clk → two ≤ s.clk → exec (.heartbeatTimeout l) s = .next (beats 1))
      ∧ (n = 1 → one ≤ s.clk → s.clk < two → exec (.heartbeatTimeout l) s = .next (beats 2))
      ∧ (n = 2 → one ≤ s.clk → s.clk < two → ∃ t, exec (.heartbeatTimeout l) s = .next t
        ∧ ∀ k ∈ s.linksTo (s.linkPeer l), t.linkState k = 5))
    ∧ (s.linkState l ≠ 2 → ∀ gang op, exec (.norhaRequest l gang op) s = .next s)
    ∧ (s.linkState l = 2 → ∀ q y, q = s.leadOf (l / 3) →
      (∀ pa n, HostReach s pa n q y → exec (.norhaRequest l none (.read pa n)) s =
        .next { s with nextId := s.nextId + 1, peerDone := s.peerDone ++ [(l, .ok (s.bytesFrom pa n))] })
      ∧ ∀ pa d, HostWrites s pa d.length q y → ∃ t, exec (.norhaRequest l none (.write pa d)) s = .next t
        ∧ t.peerDone = s.peerDone ++ [(l, .ok [])] ∧ s.with t pa d)

/-! Partitions, sleep, start and management. -/

/-- PART_CMD (R382): BUSY, then WORLD, then each command's own conditions in the rule's order. A command that fails one ends
with its result. QUIESCE runs until every quarter it names is quiesced; FLUSH, where no host half has to be recalled first,
makes what translates or copies lines in its quarters gone, and ends once every line there that is not strata-only has left,
here where they are clean; MERGE and
SPLIT run for a time the rule does not give (log 32) and then put the new layout in force, a MERGE with the pools' sums;
RESUME clears quiesced and flushed. -/
def Obligations.PartitionCommands : Prop := ∀ s (m : BitVec 4),
  let ended (t : State) (res : Nat) : Prop := t.rf rPART_STAT 0 1 = 0 ∧ t.rf rPART_STAT 1 4 = res ∧ t.rf rPART_STAT 13 1 = 1
    ∧ t.partRun = none
  let ends (i : Instr) (res : Nat) : Prop := ∃ t, exec i s = .next t ∧ ended t res ∧ t = { s with csr := t.csr, msix := t.msix, partRun := none }
  let quiet (q : Nat) : Prop := s.rf rPART_STAT (5 + q) 1 = 1
  let flushed (q : Nat) : Prop := s.rf rPART_STAT (9 + q) 1 = 1
  let leads := (quartersIn m).map s.leadOf
  (s.rf rPART_STAT 0 1 = 1 → ∀ sec, ∀ i ∈ [Instr.quiesce m sec, .flush m sec, .merge m sec, .split m sec, .partResume m sec,
    .partBadOp 0 sec], exec i s = .next (s.setRf rPART_STAT 1 4 1))
  ∧ (s.rf rPART_STAT 0 1 = 0 →
    (∀ i ∈ [Instr.quiesce m false, .flush m false, .merge m false, .split m false, .partResume m false, .partBadOp 0 false],
      ends i 2)
    ∧ (∀ op : BitVec 4, (op = 0 ∨ 5 < op.toNat) → ends (.partBadOp op true) 9)
    ∧ ((∃ q ∈ leads, s.queuesBusy q = true) → ends (.quiesce m true) 3)
    ∧ ((∀ q ∈ leads, s.queuesBusy q = false) → m ≠ 0 → ∃ t, exec (.quiesce m true) s = .next t ∧ t.rf rPART_STAT 0 1 = 1
      ∧ t.quiescing = s.quiescing ||| m ∧ t.partRun = some ⟨1, m, 0⟩ ∧ t.mem = s.mem)
    ∧ ((∃ q ∈ quartersIn m, ¬quiet q) → ends (.flush m true) 4)
    ∧ ((∀ q ∈ quartersIn m, quiet q) → s.recalls = [] → (∀ l ∈ s.lines, l.lo = .i ∧ l.hi = .i) →
      ∃ t, exec (.flush m true) s = .next t ∧ (∀ x ∈ t.alb, bitAt m (x.core / 64) = false) ∧ (∀ x ∈ t.tb, bitAt m (x.lode / 64) = false)
        ∧ (∀ x ∈ t.l1, bitAt m (x.core / 64) = false)
        ∧ ((∃ l ∈ t.lines, bitAt m (l.lode / 64) = true ∧ l.so = false) → t.rf rPART_STAT 0 1 = 1
          ∧ ∀ q, q < 4 → t.rf rPART_STAT (9 + q) 1 = s.rf rPART_STAT (9 + q) 1)
        ∧ ((∀ l ∈ t.lines, bitAt m (l.lode / 64) = true → l.so = true) →
          ended t 0 ∧ ∀ q ∈ quartersIn m, t.rf rPART_STAT (9 + q) 1 = 1)
        ∧ ((s.lines.map (·.id)).Nodup → (∀ l ∈ s.lines, bitAt m (l.lode / 64) = true → l.so = true ∨ l.dirty = false) →
          t.lines = s.lines.filter fun l => l.so || !bitAt m (l.lode / 64)))
    ∧ (∀ op i, (op, i) ∈ [(3, Instr.merge m true), (4, .split m true)] →
      ((∃ q ∈ quartersIn m, ¬flushed q) → ends i 5)
      ∧ ((∀ q ∈ quartersIn m, flushed q) →
        (newJoin (s.rf rPART_CFG 0 3) op m = none → ends i 6)
        ∧ ∀ j, newJoin (s.rf rPART_CFG 0 3) op m = some j →
          ((∃ c ∈ s.contracts, c.q ∈ leads) → ends i 7)
          ∧ ((∀ c ∈ s.contracts, c.q ∉ leads) → ∃ t, exec i s = .next t ∧ t.rf rPART_STAT 0 1 = 1
            ∧ t.partRun = some ⟨op, m, s.clk + Config.partClk s.free⟩ ∧ t.free = s.free + 1 ∧ t.lines = s.lines)))
    ∧ (s.badConfig = true → ends (.partResume m true) 8)
    ∧ (s.badConfig = false → ∃ t, exec (.partResume m true) s = .next t ∧ ended t 0
      ∧ (∀ q ∈ quartersIn m, t.rf rPART_STAT (5 + q) 1 = 0 ∧ t.rf rPART_STAT (9 + q) 1 = 0)
      ∧ t.quiescing = s.quiescing &&& ~~~m))
  ∧ (∀ op u, op = 3 ∨ op = 4 → s.partRun = some ⟨op, m, u⟩ →
    (s.clk < u → s.partGo = s)
    ∧ (u ≤ s.clk → ∀ j, newJoin (s.rf rPART_CFG 0 3) op m = some j → let t := s.partGo
      ended t 0 ∧ t.rf rPART_CFG 0 3 = j ∧ t.lines = s.lines ∧ t.mem = s.mem
      ∧ (op = 3 → let sum (lo : Nat) : Nat := (dedup leads).foldl (fun a q => a + s.rf (rTMB_POOL q) lo 32) 0
        let r := rTMB_POOL (if m = 12 then 2 else 0)
        t.rf r 0 32 = sum 0 % 2 ^ 32 ∧ t.rf r 32 32 = sum 32 % 2 ^ 32)))
  ∧ ∀ q, q < 4 → s.partRun = some ⟨1, m, 0⟩ → bitAt m q = true →
    (s.quarterIdle q = false → exec (.quiesceComplete q) s = .next s)
    ∧ (s.quarterIdle q = true → ∃ t, exec (.quiesceComplete q) s = .next t ∧ t.rf rPART_STAT (5 + q) 1 = 1
      ∧ ((∀ k ∈ quartersIn m, k ≠ q → quiet k) → ended t 0)
      ∧ ((∃ k ∈ quartersIn m, k ≠ q ∧ ¬quiet k) → t.partRun = s.partRun))

/-- Retention sleep and waking (R120, R384), and the core clock (R6). -/
def Obligations.SleepAndClock : Prop := ∀ s,
  (∀ n, s.coreEmpty n = true → (∀ c ∈ s.copies, c.core ≠ n) → (s.coreOf n).retired = false →
    s.usAfter (s.coreOf n).idleAt 1000 ≤ s.clk →
    exec (.coreRetentionSleep n) s = .next (s.modCore n fun x => { x with asleep := true }))
  ∧ (∀ n, (s.coreOf n).asleep = true → ∃ t, exec (.coreWake n) s = .next t ∧ (t.coreOf n).asleep = false ∧ t.gen n = s.gen n
    ∧ (∀ x ∈ t.l1, x.core ≠ n) ∧ t = { s with coreX := t.coreX, l1 := t.l1, l1fills := t.l1fills })
  ∧ (∀ n, n < 256 → s.rf rPART_STAT (5 + n / 64) 1 = 1 →
    exec (.lodeRetentionSleep n) s = .next (s.modLode n fun x => { x with asleep := true }))
  ∧ (∀ n, (s.lodeOf n).asleep = true → ∃ t, exec (.lodeWake n) s = .next t ∧ (t.lodeOf n).asleep = false
    ∧ t = { s with lodeX := t.lodeX, kv := s.kv.map fun e => if e.lode = n then { e with oldest := true } else e })
  ∧ ∀ mhz, mhz ≠ 0 → exec (.coreClockChange mhz) s = .next { s with mhz := mhz, clocks := s.clocks ++ [(s.mhz, s.clk)] }

/-- Start (R377, R378, R383). Power good starts the device afresh but for its image slots, the floor, the signed store and the
stored configuration, and stage 0 runs; at its end the identity key stands, made from the PUF response through SM3, and the image
that slot A or slot B gives, or the device is in recovery. Stage 1 waits while hold1 is set; which dies fail is free; at its end the
signed repair records have been applied in the order written, a core among them being retired, failed dies are out of service, the
stored layout is in force and each partition's HDM range has its physical capacity. Stage 2 waits while hold2 is set; it sets cmp_en
and writes the capacity, and the links train. That a stage is two steps, and that a link which found no peer is down again, is the
model's (log 35), as is what a slot holds (log 36).
SPDM and PLDM (R379, R384): the requests of attestation in their order, which is the model's (log 37), and what each answers, a
firmware image for the next start, and sensors whose values are free; each raises source 7 of every partition (R370; log 89). -/
def Obligations.StartAndAttestation : Prop :=
  (∀ s,
  (s.mgmt.running ≠ some 0 → ∃ t, exec .startStage0 s = .next t ∧ t = { State.reset with free := s.free, mgmt := t.mgmt }
    ∧ t.mgmt.slotA = s.mgmt.slotA ∧ t.mgmt.slotB = s.mgmt.slotB ∧ t.mgmt.floor = s.mgmt.floor
    ∧ t.mgmt.repairs = s.mgmt.repairs ∧ t.mgmt.applied = 0 ∧ t.mgmt.layout = s.mgmt.layout ∧ t.mgmt.cap = s.mgmt.cap
    ∧ t.mgmt.key = none ∧ t.mgmt.running = some 0)
  ∧ (s.mgmt.running = some 0 → let k := Config.sm3 (Config.kdfInput Config.pufResponse)
    ∃ t, exec .startStage0 s = .next t ∧ t = { s with csr := t.csr, mgmt := t.mgmt, msix := t.msix }
    ∧ t.mgmt = { s.mgmt with firmware := s.mgmt.accepted.getD [], key := some (k, Config.sm2Public k), running := none }
    ∧ t.stage = 0 ∧ t.rf rSTART_STAT 2 1 = 0 ∧ t.msix = s.msix ++ s.leadList.map (fun q => 8 * q + 7)
    ∧ t.rf rSTART_STAT 4 1 = (if s.mgmt.accepted.isSome then s.rf rSTART_STAT 4 1 else 1))
  ∧ (s.mgmt.running ≠ some 1 → s.rf rSTART_CTL 0 1 = 1 → exec .startStage1 s = .next s)
  ∧ (s.canStart 0 = true → s.rf rSTART_CTL 0 1 = 0 → s.wgs = [] → ∃ t, exec .startStage1 s = .next t
    ∧ t.mgmt = { s.mgmt with running := some 1, dieFail := Config.dieFails s.free } ∧ t.rf rSTART_STAT 2 1 = 1
    ∧ t.free = s.free + 1 ∧ t = { s with csr := t.csr, mgmt := t.mgmt, free := t.free })
  ∧ (s.mgmt.running = some 1 → ∃ t, exec .startStage1 s = .next t
    ∧ t.stage = 1 ∧ t.rf rSTART_STAT 2 1 = 0 ∧ t.mgmt.running = none ∧ t.rf rPART_CFG 0 3 = s.mgmt.layout.toNat
    ∧ t.mgmt.applied = s.mgmt.applied + s.mgmt.repairs.countP (·.1)
    ∧ t.mgmt.skipped = s.mgmt.skipped + s.mgmt.repairs.countP (fun r => !r.1) ∧ s.mgmt.repairs <+: t.mgmt.repairs
    ∧ (∀ c b x y, (true, .registerFile c b x y) ∈ s.mgmt.repairs → (t.coreOf c).retired = true)
    ∧ (∀ d, d < 4 → bitAt s.mgmt.dieFail d = true → t.dieOk d = false)
    ∧ (s.mgmt.dieFail ≠ 0 → t.rf rSTART_STAT 3 1 = 1)
    ∧ ∀ q ∈ t.leadList, t.rf (rPART_IL q) 0 36 = Config.quarterBase q % 2 ^ 36
      ∧ t.rf (rPART_ILN q) 0 36 = Config.flakesPerLode / 64 * (t.partLodes q).length % 2 ^ 36)
  ∧ (s.mgmt.running ≠ some 2 → s.rf rSTART_CTL 1 1 = 1 → exec .startStage2 s = .next s)
  ∧ (s.canStart 1 = true → s.rf rSTART_CTL 1 1 = 0 → ∃ t, exec .startStage2 s = .next t ∧ t.mgmt.running = some 2
    ∧ t.rf rSTART_STAT 2 1 = 1 ∧ t.rf rTMB_CTL 0 1 = 1
    ∧ (let cap := s.mgmt.cap
      let s1 := (s.beginStage 2).setRf rTMB_CTL 0 1 1
      s.rf rTMB_CTL 8 11 < cap → 768 ≤ cap → cap ≤ 1536 →
      (∀ q ∈ s1.leadList, s1.capFrames q cap / 2 - s1.dirNow q ≤ s1.freeOf q - s1.lwm q) → t.rf rTMB_CTL 8 11 = cap)
    ∧ ∀ l, l < 12 → s.dieOk (l / 3) = true → s.linkState l = 0 → t.linkState l = 1)
  ∧ (s.mgmt.running = some 2 → ∃ t, exec .startStage2 s = .next t ∧ t.mgmt.running = none ∧ t.stage = 2
    ∧ t.rf rSTART_STAT 2 1 = 0 ∧ ∀ l, l < 12 → t.linkState l = if s.linkState l = 1 then 0 else s.linkState l))
  ∧ (∀ s,
  let tells (m : Mgmt) : State := State.raiseAll { s with mgmt := m } 7
  let answers (i : Instr) (m : Mgmt) (r : Spdm) : Prop := exec i s = .next (tells { m with spdm := some r })
  let m := s.mgmt
  let ready : Bool := m.spdmVersion && m.spdmCaps && m.spdmAlgs
  let asked : Mgmt := { m with asked := m.asked + 1 }
  answers .getVersion { m with spdmVersion := true, spdmCaps := false, spdmAlgs := false } .version
  ∧ (m.spdmVersion = false → answers .getCapabilities m .errorUnexpected)
  ∧ (m.spdmVersion = true → answers .getCapabilities { m with spdmCaps := true } .capabilities)
  ∧ (m.spdmVersion = true → m.spdmCaps = true → Config.offers m.asked = true →
    answers .negotiateAlgorithms { asked with spdmAlgs := true } .algorithms)
  ∧ ((m.spdmVersion = false ∨ m.spdmCaps = false ∨ Config.offers m.asked = false) →
    answers .negotiateAlgorithms asked .errorUnexpected)
  ∧ (ready = false ∨ m.key = none → ∀ nonce, ∀ i ∈ [Instr.getDigests, .getCertificate, .challenge nonce, .getMeasurements],
    answers i m .errorUnexpected)
  ∧ (∀ k pub, ready = true → m.key = some (k, pub) → let cert := Config.vendorCert pub
    answers .getDigests m (.digests [Config.sm3 cert]) ∧ answers .getCertificate m (.certificate cert)
    ∧ (∀ nonce, answers (.challenge nonce) m (.challengeAuth (Config.sm3 cert) (Config.sm2Sign k (Config.sm3 nonce))))
    ∧ answers .getMeasurements m (.measurements s.measures
        (Config.sm2Sign k (Config.sm3 (s.measures.flatMap fun d => bytesOfNat 32 d.toNat)))))
  ∧ answers .spdmUnsupported m .errorUnsupported
  ∧ (∀ image, exec (.pldmFirmwareUpdate image) s = .next (tells { m with slotA := image, slotB := m.firmware }))
  ∧ exec .pldmSensorRead s = .next (tells { m with
    reading := (List.range 21).map (Config.sensor m.nread), nread := m.nread + 1 }))

/-- REGISTER_WRITE (R7, R8, R375, R385): an offset without a register, or a register not in force, is left alone, and so is
one without a writable field; a write that the unit's world forbids is logged as a violation and changes nothing else; in a
register with no action of its own each RW field reads as written, and no other register changes. A world assignment moves
cores that are empty, and none otherwise. -/
def Obligations.RegisterWrites : Prop := ∀ s v sec,
  (∀ o, regLoc o = none → exec (.registerWrite o v sec) s = .next s)
  ∧ (∀ o b i l, regLoc o = some (b, i, l) → blkHas b l = true →
    (s.live b i = false → exec (.registerWrite o v sec) s = .next s)
    ∧ (s.live b i = true → s.barred b i l = true → sec = false → exec (.registerWrite o v sec) s = .next (s.violation o))
    ∧ (blkFields b l = [] → ∃ t, exec (.registerWrite o v sec) s = .next t ∧ ∀ p, t.reg p = s.reg p)
    ∧ ((b, l) ∈ [(Blk.pkg, 0x180), (.xlt, 0x08), (.hbr, 0x00), (.sch, 0x00), (.sch, 0x10), (.sch, 0x30), (.rel, 0x00),
        (.rel, 0x10), (.col, 0x18), (.core, 0x28)] → s.live b i = true → (s.guarded b i = false ∨ sec = true) →
      ∃ t, exec (.registerWrite o v sec) s = .next t ∧ t = { s with csr := t.csr } ∧ (∀ p, p ≠ o → t.reg p = s.reg p)
        ∧ (∀ f ∈ blkFields b l, f.acc = .rw → t.rf o f.lo f.n = wfld v f.lo f.n)
        ∧ ∀ k, k < 64 → (∀ f ∈ blkFields b l, k < f.lo ∨ f.lo + f.n ≤ k) → bitAt (t.reg o) k = bitAt (s.reg o) k))
  ∧ ∀ k, k < 4 → let o := rWLD_CORE k
    let moves (b : Nat) : Prop := b < 64 ∧ bitAt v b ≠ bitAt (s.reg o) b
    (sec = false → exec (.worldAssignWrite o v sec) s = .next (s.violation o))
    ∧ (sec = true → (∀ b, moves b → s.coreEmpty (64 * k + b) = true) → exec (.worldAssignWrite o v sec) s = .next (s.setReg o v))
    ∧ (sec = true → (∃ b, moves b ∧ s.coreEmpty (64 * k + b) = false) →
      exec (.worldAssignWrite o v sec) s = .next (s.setRf rWLD_STAT 0 1 1))

/-! The machine. -/

/-- Encoding and decoding agree: the word of every well-formed instruction decodes to it, with every operand at every
value its encoding admits.
A word is what memory holds in its byte order (R5), and no two well-formed instructions share a word: what a word
decodes to encodes to that word again. -/
def Obligations.DecodeAndEncodeAgree : Prop :=
  (∀ i, i.wellFormed = true → ∀ w, encode i = some w → decodeWord w = .ok i)
  ∧ (∀ w i, decodeWord w = .ok i →
  encode i = some w ∧ i.wellFormed = true ∧ ∀ r, decode (bytesOfWord w ++ r) = .ok (i, r))

/-- Words that the spec writes out in its worked programs decode to the instructions it writes beside them. -/
def Obligations.WordsDecode : Prop :=  let d := decodeTableWord 64
  let h : Hdr := ⟨0, false, 7⟩
  d 0x8401C079C0000000 = some (.st h ⟨0, 1, 0xE7, 0, 0, 0, 0⟩)
  ∧ d 0x238DC03079801800 = some (.shl ⟨3, false, 7⟩ ⟨0, 0xC1, 0xE6, 0, false, true, true, false, .i32, 0⟩)
  ∧ d 0x283DC28100000180 = some (.wred ⟨15, false, 7⟩ ⟨10, 4, 0, 0, false, false, false, false, .f32, 0⟩)
  ∧ d 0x00C0418000000020 = some (.call ⟨0, false, 1⟩ ⟨6, 0, 0x20⟩)
  ∧ d 0xB0DDC00181C00000 = some (.binit ⟨7, false, 7⟩ ⟨0, 6, 7, 0, 0⟩)
  ∧ d 0xC001C0038B8C0003 = some (.mma h ⟨0, 0, 0, 0xE2, 0xE3, 0, 3⟩)
  ∧ d 0xC081800BCC0C4000 = some (.accld ⟨0, false, 6⟩ ⟨0, 47, 48, 49, 0⟩)
  ∧ d 0xC141C238800140D0 = some (.lred h ⟨8, 0xE2, 0, 5, 0xD0⟩)
  ∧ d 0x8301C1788040001D = some (.ld h ⟨12, 5, 0xE2, 1, 0, 3, 5⟩)
  ∧ decodeHeader 0xA020000000000000 = some ⟨0, 2, 0⟩

/-- A STEP RUNS THE DECODED INSTRUCTION (log 1): where the agenda has the next word of a clause issue, and its bytes decode
to an instruction, the step is that instruction's `exec`, at the earliest clk that R185 allows it, then the end of the word;
bytes that decode to none trap ILLEGAL_ENC (R182); a clause that every thread has left ends. An event of the agenda is its
`exec`; while stage 0 of start runs only its end takes place, and in recovery management alone (R377, R383; log 35). An HDM
decoder's programming (R369) and the passing of time are moves of their own. -/
def Obligations.StepRunsTheDecodedInstruction : Prop := ∀ s r,
  let s0 : State := { s with agenda := r }
  (∀ core part, s.agenda = .word core part :: r →
    (s0.focus core part = none → step s = .next s0)
    ∧ ∀ c s1, s0.focus core part = some (c, s1) →
      let s2 := if s1.clk < c.readyAt then s1.passTo c.readyAt else s1
      (c.group = 0 → step s = .next (s1.endWord core part).closeStep)
      ∧ (c.group ≠ 0 → ∀ i, decode (bytesOfWord c.word) = .ok (i, []) →
        (∀ t, exec i s2 = .next t → step s = .next ((s2.wordRecalls t).endWord core part).closeStep)
        ∧ (∀ x, exec i s2 = .fault x → step s = .fault x) ∧ ∀ x, exec i s2 = .refused x → step s = .refused x)
      ∧ (c.group ≠ 0 → decode (bytesOfWord c.word) = .error .illegalEnc →
        step s = .next ((s2.wordRecalls (s2.groupTrap .illegalEnc)).endWord core part).closeStep))
  ∧ (∀ i, s.agenda = .event i :: r →
    (encode i ≠ none ∨ s0.admits i = false → step s = .next s0)
    ∧ (encode i = none → s0.admits i = true → (∀ t, exec i { s0 with recalls := [] } = .next t →
        step s = .next ((s0.eventRecalls t i).unblock).closeStep)
      ∧ (∀ x, exec i { s0 with recalls := [] } = .fault x → step s = .fault x)
      ∧ ∀ x, exec i { s0 with recalls := [] } = .refused x → step s = .refused x))
  ∧ (∀ n, s.agenda = .tick n :: r → step s = .next (s0.tick n).closeStep)
  ∧ ∀ q base, s.agenda = .hdm q base :: r → let shut : Bool := s.mgmt.running = some 0 || s.recovery
    step s = .next (if shut then s0 else s0.hdmProgram q base).closeStep

/-- RESET: no workgroup runs and no line is held, memory lists nothing, the pool's division, the versions supported and in force,
the quotas of stuck lines and of key-value units and the bounds stand at the reset values of their registers (those the spec
marks HW by log 6), and stage 0 of start runs (R383). -/
def Obligations.ResetState : Prop :=  let s := State.reset
  s.wgs = [] ∧ s.lines = [] ∧ s.mem = [] ∧ s.running = [] ∧ s.results = [] ∧ s.contracts = [] ∧ s.stage = 0
    ∧ s.mgmt.running = some 0 ∧ s.rf rSTART_STAT 2 1 = 1
    ∧ s.rf rTMB_CTL 8 11 = 768 ∧ s.rf rTMB_CTL 0 1 = 0 ∧ s.pebTotal = 4096
    ∧ (s.rf rVER_CAP 0 4, s.rf rVER_CAP 4 4) = (1, 1) ∧ (s.rf rVER_CAP 8 4, s.rf rVER_CAP 12 4) = (1, 1)
    ∧ (s.rf rVER_CAP 16 4, s.rf rVER_CAP 20 4) = (1, 2) ∧ s.rf rVER_CAP 24 8 = 1
    ∧ (s.rf rVER_SEL 0 4, s.rf rVER_SEL 8 4, s.rf rVER_SEL 16 4, s.rf rVER_SEL 32 1) = (1, 1, 2, 0)
    ∧ ∀ q n, q < 4 → n < 256 → s.rf (rHBR_CTL q) 0 10 = 100 ∧ s.rf (rSCH_CTL q) 16 13 = 4000 ∧ s.rf (rSCH_CTL q) 0 1 = 0
      ∧ s.sdCount q = 0 ∧ s.hostCount q = 0 ∧ s.rf (rTMB_SD_QUOTA q) 0 32 = 524288 ∧ s.rf (rTMB_SD_QUOTA q) 32 32 = 65536
      ∧ s.rf (rSTR_KV n) 0 16 = 8192
      ∧ (s.regTop n, s.scrTop n, s.accTop n) = (16, 40, 48) ∧ s.gen n = 0 ∧ poolLimits 16 40 48 = true

/-- MEETINGS, WHATEVER THE STEP (R159): no step leaves a thread at its meeting address that is not held there, nor one held
whose siblings have all arrived. -/
def Obligations.StepsKeepMeetings : Prop := ∀ s t, s.MeetingsHold → step s = .next t → t.MeetingsHold

/-- The meetings stand so at reset. -/
def Obligations.MeetingsHoldAtReset : Prop := State.reset.MeetingsHold

/-- SEVERAL LANES OF ONE ISSUE (R250). Where every lane of ST names one element of memory, the entry that the store buffer takes
holds the highest lane's value; what is not whole bytes goes to the lode in lane order. ATOM, LRED and LREDW send one request
for each lane. ATOMS on one element performs its lanes one after another, in an order that is open, and answers each the value
it found; of scratch that is done when the word issues (log 42). A load of scratch by acquire is answered as one without it,
as the scratchpad stands then (log 42), and the wave's later memory words wait for it (R252). -/
def Obligations.LanesTogether : Prop := ∀ s h e, e.w.holds = [] → e.act ≠ [] →
  (∀ (f : MF) (l : Layout), Ready s h none (usesOf (.st h f)) e → Entry s e f.h false f.k l → bitAt f.var 3 = false →
    let ty := memTy f.var.toNat
    ∀ ba w fmt leaf p, leaf.isReg = false → p.leaf.isReg = false → (∀ x ∈ s.sbuf, x.core ≠ e.core) →
      (∀ lane ∈ e.act, s.elemOf e l (e.coords l.rank.toNat false f.k f.off lane) (!rawTy ty) (memWidth f.var.toNat) .wr false true
        = (.mem ba w fmt leaf [p] none, s)) →
      let data (lane : Nat) : Line :=
        BitVec.ofNat 1024 (((storeVal ty fmt none (e.vec ty f.data lane)).1 >>> p.p.sh % 2 ^ p.p.w) <<< p.p.lo)
      let mask := lineBits p.p.lo p.p.w
      ∃ t, exec (.st h f) s = .next t ∧ (∀ pa, t.byte pa = s.byte pa)
        ∧ (if ba % 8 = 0 ∧ w % 8 = 0 then
            ∃ b, t.sbuf = s.sbuf ++ [b] ∧ b.core = e.core ∧ b.line = p.p.va / 128 ∧ b.mask = mask
              ∧ b.stores.map (·.lane) = e.act ∧ ∀ last, e.act.getLast? = some last → b.data &&& mask = data last &&& mask
          else t.sbuf = s.sbuf ∧ (t.reqs.drop s.reqs.length).map (fun q => (q.core, q.lane, q.line, q.what))
            = e.act.map fun lane => (e.core, lane, p.p.va / 128, .store mask (data lane))))
  ∧ (∀ (f : MF) (l : Layout), Ready s h none (usesOf (.atom h f)) e → Entry s e f.h false f.k l → l.memory = true →
    bitAt f.var 5 = false → (∀ x ∈ s.sbuf, x.core ≠ e.core) →
    let op := f.var.toNat % 16
    ∀ (at_ : Nat → Nat × BitVec 4 × Leaf × List MPart × Option MPart),
      (∀ lane ∈ e.act, s.elemOf e l (e.coords l.rank.toNat false f.k f.off lane) false (atomWidth op) .rdwr true false
        = (.mem (at_ lane).1 (atomWidth op) (at_ lane).2.1 (at_ lane).2.2.1 (at_ lane).2.2.2.1 (at_ lane).2.2.2.2, s)) →
      ∃ (t : State) (o : List Nat), exec (.atom h f) s = .next t ∧ o.Perm e.act
        ∧ (t.reqs.drop s.reqs.length).map (fun q => (q.lane, q.line, q.what)) = o.map fun lane =>
          (lane, (at_ lane).1 / 1024, .atomic op ((at_ lane).1 % 1024) (atomWidth op)
            (BitVec.ofNat 64 (e.atomArg op f.data lane).1) (BitVec.ofNat 64 (e.atomArg op f.data lane).2)))
  ∧ (∀ (f : GF) (l : Layout) i wait, (i = Instr.lred h f ∧ wait = false) ∨ (i = .lredw h f ∧ wait = true) →
    Ready s h none (usesOf i) e → Entry s e f.a false f.b l → l.memory = true → bitAt f.m 7 = false →
    let op := f.m.toNat % 16
    let n := (e.uniform f.c).toNat
    let idx (lane : Nat) : Nat := (e.w.v (redIndex op f.d) lane).toNat
    1 ≤ n → n ≤ 65536 → (∀ lane ∈ e.act, idx lane < n) →
    ∀ (at_ : Nat → Nat × BitVec 4 × Leaf × List MPart × Option MPart),
      (∀ lane ∈ e.act, s.elemOf e l (e.coords l.rank.toNat false f.b 0 lane) false (redWidth op) .rdwr true false
        = (.mem (at_ lane).1 (redWidth op) (at_ lane).2.1 (at_ lane).2.2.1 (at_ lane).2.2.2.1 (at_ lane).2.2.2.2, s)) →
      ∃ t, exec i s = .next t ∧ (t.reqs.drop s.reqs.length).map (fun q => (q.lane, q.va, q.what)) = e.act.map fun lane =>
        (lane, (at_ lane).1 / 8, .lred op n (idx lane)
          (BitVec.ofNat 64 (e.vec (if redWidth op = 64 then .b64 else .b32) f.d lane)) wait false))
  ∧ (∀ (f : MF) (l : Layout), Ready s h none (usesOf (.atoms h f)) e → Entry s e f.h false f.k l → l.scratch = true →
    let op := atomsOp (f.var.toNat % 8)
    ∀ j ba w fmt, j < e.wg.parts.length → (e.wg.part j).ue = [] → (e.wg.part j).lost = [] →
      (∀ lane ∈ e.act, let c := e.coords l.rank.toNat false f.k f.off lane
        l.inb c = true ∧ scrElem e.wg e.part l c false 32 true true = .scr j ba w fmt none) →
      let one (p : Part) (lane : Nat) : Part := p.setBits (some l) ba w
        (atomNew op (p.bits (some l) ba w) (e.atomArg op f.data lane).1 (e.atomArg op f.data lane).2)
      ∃ (t : State) (r : Result) (o : List Nat), exec (.atoms h f) s = .next t ∧ o.Perm e.act ∧ t.partOf e.iss.wg j = o.foldl one (e.wg.part j)
        ∧ t.results.getLast? = some r ∧ ∀ a lane b, o = a ++ lane :: b →
          ∀ x ∈ vecWrites false f.data.toNat lane ((a.foldl one (e.wg.part j)).bits (some l) ba w), x ∈ r.writes)
  ∧ ∀ (f : MF) (l : Layout), Ready s h none (usesOf (.ld h f)) e → Entry s e f.h false f.k l → bitAt f.var 3 = true →
    l.memory = false →
    let ty := memTy f.var.toNat
    let x (lane : Nat) : Elem := scrElem e.wg e.part l (e.coords l.rank.toNat false f.k f.off lane) (!rawTy ty)
      (memWidth f.var.toNat) false true
    (∀ lane ∈ e.act, l.inb (e.coords l.rank.toNat false f.k f.off lane) = true ∧
      ∃ j ba w fmt, x lane = .scr j ba w fmt none ∧ (e.wg.part j).ue = [] ∧ (e.wg.part j).lost = []) →
    ∃ t r v, exec (.ld h f) s = .next t ∧ t.results.getLast? = some r ∧ r.acq = some f.scope ∧ r.ready = true
      ∧ r.writes = (e.act.flatMap fun lane => match x lane with
        | .scr j ba w fmt _ => vecWrites ty.is64 f.data.toNat lane
          (loadVal ty fmt (some 127) (BitVec.ofNat 64 ((e.wg.part j).bits (some l) ba w)).toNat).1
        | _ => [])
      ∧ t.wave? e.iss.wg e.iss.wave = some v ∧ v.holds = [r.id]
end

