-- ==== Sys2Proof/Laws/Encode.lean ====
section
/-! SUPPORT. Fields of an encoded word come back as they went in (R175): extraction from the fields' concatenation, form by
form, and the opcode that the decoder then finds. -/
namespace Sys2Proof

theorem congr_fields {α β γ : Type} (c : α → β → γ) {a a' : α} {b b' : β} (h : a = a') (h' : b = b') : c a b = c a' b' := by
  rw [h, h']

theorem append_hi {m n : Nat} (x : BitVec m) (y : BitVec n) (lo k : Nat) (h : n ≤ lo) :
    (x ++ y).extractLsb' lo k = x.extractLsb' (lo - n) k := by
  apply BitVec.eq_of_getLsbD_eq
  intro i hi
  have : ¬ lo + i < n := by omega
  have e : lo + i - n = lo - n + i := by omega
  simp only [BitVec.getLsbD_extractLsb', BitVec.getLsbD_append, this, e, if_false]

theorem append_lo {m n : Nat} (x : BitVec m) (y : BitVec n) (lo k : Nat) (h : lo + k ≤ n) :
    (x ++ y).extractLsb' lo k = y.extractLsb' lo k := by
  apply BitVec.eq_of_getLsbD_eq
  intro i hi
  have : lo + i < n := by omega
  simp only [BitVec.getLsbD_extractLsb', BitVec.getLsbD_append, this, if_true]

theorem extract_all {n : Nat} (x : BitVec n) : x.extractLsb' 0 n = x := by
  apply BitVec.eq_of_getLsbD_eq
  intro i hi
  simp [hi]

theorem bit_ofBit (b : Bool) : bit (ofBit b) = b := by cases b <;> rfl
theorem Ty.ofCode_code (t : Ty) : Ty.ofCode t.code = t := by cases t <;> rfl

theorem encodeWith_fld (op : Nat) (h : Hdr) (body : BitVec 46) (lo n : Nat) (hl : lo + n ≤ 46) :
    (encodeWith op h body).fld lo n = body.extractLsb' lo n := append_lo _ _ _ _ hl

theorem encodeWith_opcode (op : Nat) (h : Hdr) (body : BitVec 46) (ho : op < 1024) : (encodeWith op h body).opcode = op := by
  have : (encodeWith op h body).fld 54 10 = BitVec.ofNat 10 op := by
    simp only [Word.fld, encodeWith]
    rw [append_hi _ _ _ _ (by decide), append_hi _ _ _ _ (by decide), append_hi _ _ _ _ (by decide), append_hi _ _ _ _ (by decide)]
    exact extract_all _
  rw [Word.opcode, this, BitVec.toNat_ofNat]
  omega

theorem encodeWith_hdr (op : Nat) (h : Hdr) (body : BitVec 46) : (encodeWith op h body).hdr = h := by
  simp only [Word.hdr, Word.fld, encodeWith]
  rw [append_hi _ body 50 _ (by decide), append_hi _ body 49 _ (by decide), append_hi _ body 46 _ (by decide),
    append_hi _ h.pred _ 4 (by decide), append_hi _ h.pred _ 1 (by decide), append_lo _ h.pred _ 3 (by decide),
    append_hi _ (ofBit h.neg) _ 4 (by decide), append_lo _ (ofBit h.neg) _ 1 (by decide), append_lo _ h.stall _ 4 (by decide)]
  simp only [Nat.reduceSub, extract_all, bit_ofBit]

theorem encodeWith_af (op : Nat) (h : Hdr) (f : AF) : (encodeWith op h f.body).af = f := by
  simp (disch := omega) only [Word.af, encodeWith_fld]
  simp (disch := decide) only [AF.body, append_hi, append_lo, Nat.reduceSub, extract_all, bit_ofBit, Ty.ofCode_code]

theorem encodeWith_gf (op : Nat) (h : Hdr) (f : GF) : (encodeWith op h f.body).gf = f := by
  simp (disch := omega) only [Word.gf, encodeWith_fld]
  simp (disch := decide) only [GF.body, append_hi, append_lo, Nat.reduceSub, extract_all]

theorem encodeWith_if (op : Nat) (h : Hdr) (f : IF) : (encodeWith op h f.body).iF = f := by
  simp (disch := omega) only [Word.iF, encodeWith_fld]
  simp (disch := decide) only [IF.body, append_hi, append_lo, Nat.reduceSub, extract_all]

theorem encodeWith_lf (op : Nat) (h : Hdr) (f : LF) : (encodeWith op h f.body).lf = f := by
  simp (disch := omega) only [Word.lf, encodeWith_fld]
  simp (disch := decide) only [LF.body, append_hi, append_lo, Nat.reduceSub, extract_all]

theorem encodeWith_xf (op : Nat) (h : Hdr) (f : XF) : (encodeWith op h f.body).xf = f := by
  simp (disch := omega) only [Word.xf, encodeWith_fld]
  simp (disch := decide) only [XF.body, append_hi, append_lo, Nat.reduceSub, extract_all]

theorem encodeWith_mf (base n : Nat) (h : Hdr) (f : MF) (hn : n ≤ 6) (hv : f.var.toNat < 2 ^ n) (hb : base % 2 ^ n = 0)
    (_ho : base + 2 ^ n ≤ 1024) : (encodeWith (base + f.var.toNat) h f.body).mf n = f := by
  have hp : 2 ^ n ∣ 2 ^ 10 := by
    rcases (by omega : n = 0 ∨ n = 1 ∨ n = 2 ∨ n = 3 ∨ n = 4 ∨ n = 5 ∨ n = 6) with h | h | h | h | h | h | h <;> subst h <;> decide
  have hvar : ((encodeWith (base + f.var.toNat) h f.body).fld 54 n).setWidth 6 = f.var := by
    have h54 : (encodeWith (base + f.var.toNat) h f.body).fld 54 n = (BitVec.ofNat 10 (base + f.var.toNat)).extractLsb' 0 n := by
      simp only [Word.fld, encodeWith]
      rw [append_hi _ _ _ _ (by decide), append_hi _ _ _ _ (by decide), append_hi _ _ _ _ (by decide),
        append_hi _ _ _ _ (by decide)]
    have hm : (base + f.var.toNat) % 2 ^ 10 % 2 ^ n = f.var.toNat := by
      rw [Nat.mod_mod_of_dvd _ hp, Nat.add_mod, hb, Nat.zero_add, Nat.mod_mod, Nat.mod_eq_of_lt hv]
    apply BitVec.eq_of_toNat_eq
    rw [h54, BitVec.toNat_setWidth, BitVec.extractLsb'_toNat, BitVec.toNat_ofNat, Nat.shiftRight_zero, hm]
    exact Nat.mod_eq_of_lt f.var.isLt
  have hd : Word.mf (encodeWith (base + f.var.toNat) h f.body) n
      = ⟨((encodeWith (base + f.var.toNat) h f.body).fld 54 n).setWidth 6, f.data, f.h, f.k, f.off, f.pol, f.scope⟩ := by
    simp (disch := omega) only [Word.mf, encodeWith_fld]
    simp (disch := decide) only [MF.body, append_hi, append_lo, Nat.reduceSub, extract_all]
  rw [hd, hvar]

theorem rawInstr_low {w : Word} {op : Nat} (hw : w.opcode = op) (h : op < 0x200) : rawInstr w = rawLow w op := by
  simp only [rawInstr, hw, h, if_true]

theorem rawInstr_high {w : Word} {op : Nat} (hw : w.opcode = op) (h : 0x228 ≤ op) (h1 : ¬(0x230 ≤ op ∧ op < 0x238))
    (h2 : ¬(0x240 ≤ op ∧ op < 0x280)) : rawInstr w = rawHigh w op := by
  have a : ¬op < 0x200 := by omega
  have b : ¬op < 0x210 := by omega
  have c : ¬op < 0x220 := by omega
  have d : ¬op < 0x228 := by omega
  simp only [rawInstr, hw, a, b, c, d, h1, h2, if_false]

theorem rawLow_unassigned (w : Word) (op : Nat) (h : assigned op = false) : rawLow w op = .illegalOpcode w := by
  unfold rawLow
  split <;> first | rfl | exact absurd h (by decide)

theorem rawHigh_unassigned (w : Word) (op : Nat) (h : assigned op = false) : rawHigh w op = .illegalOpcode w := by
  unfold rawHigh
  split <;> first | rfl | exact absurd h (by decide)

theorem opcode_eq (w : Word) : w.opcode = w.toNat / 2 ^ 54 := by
  have : w.toNat / 2 ^ 54 < 1024 := by
    have := w.isLt
    omega
  simp only [Word.opcode, Word.fld, BitVec.extractLsb'_toNat, Nat.shiftRight_eq_div_pow]
  exact Nat.mod_eq_of_lt this

/-- A word whose opcode is unassigned is the row that traps (R182 order 1). -/
theorem rawInstr_unassigned {w : Word} (h : (Instr.illegalOpcode w).wellFormed = true) : rawInstr w = .illegalOpcode w := by
  have ha : assigned w.opcode = false := by
    rw [opcode_eq]
    simpa only [Instr.wellFormed, Bool.not_eq_true'] using h
  have hb := ha
  simp only [assigned, Bool.or_eq_false_iff, Bool.and_eq_false_imp, decide_eq_false_iff_not, decide_eq_true_eq] at hb
  simp only [rawInstr, rawLow_unassigned w _ ha, rawHigh_unassigned w _ ha]
  split
  · rfl
  · rw [if_neg (by omega), if_neg (by omega), if_neg (by omega), if_neg (by omega), if_neg (by omega)]

/-- A word whose opcode names `i` decodes to it, where it is well formed. -/
theorem decodeWord_of_raw {w : Word} {i : Instr} (h : rawInstr w = i) (hi : i.wellFormed = true) : decodeWord w = .ok i := by
  simp only [decodeWord, h, hi, if_true]

end Sys2Proof
end

