-- ==== Sys2Proof/Laws/Store.lean ====
section
/-! SUPPORT. The laws of sparse data and of memory: what a read after a write gives, and that every operation keeps the
canonical form. -/
namespace Sys2Proof

variable {α : Type}

/-! Reading after writing. -/

theorem SMap.get_insert_self (d : α) (m : SMap α) (k : Nat) (v : α) : SMap.get d (SMap.insert m k v) k = v := by
  induction m with
  | nil => simp [SMap.insert, SMap.get]
  | cons e r ih =>
    obtain ⟨j, w⟩ := e
    simp only [SMap.insert]
    split
    · simp [SMap.get]
    · split
      · simp [SMap.get]
      · rename_i h; simp [SMap.get, h, ih]

theorem SMap.get_insert_other (d : α) (m : SMap α) {k a : Nat} (h : a ≠ k) (v : α) :
    SMap.get d (SMap.insert m k v) a = SMap.get d m a := by
  induction m with
  | nil => simp [SMap.insert, SMap.get, Ne.symm h]
  | cons e r ih =>
    obtain ⟨j, w⟩ := e
    simp only [SMap.insert]
    split
    · simp [SMap.get, Ne.symm h]
    · split
      · rename_i hj; subst hj; simp [SMap.get, Ne.symm h]
      · simp [SMap.get, ih]

theorem SMap.get_erase_self (d : α) (m : SMap α) (k : Nat) : SMap.get d (SMap.erase m k) k = d := by
  induction m with
  | nil => rfl
  | cons e r ih =>
    obtain ⟨j, w⟩ := e
    by_cases h : j = k
    · simpa [SMap.erase, List.filter_cons, h] using ih
    · simpa [SMap.erase, List.filter_cons, h, SMap.get] using ih

theorem SMap.get_erase_other (d : α) (m : SMap α) {k a : Nat} (h : a ≠ k) :
    SMap.get d (SMap.erase m k) a = SMap.get d m a := by
  induction m with
  | nil => rfl
  | cons e r ih =>
    obtain ⟨j, w⟩ := e
    have ih' : SMap.get d (List.filter (fun e => decide (e.1 ≠ k)) r) a = SMap.get d r a := ih
    by_cases hj : j = k
    · subst hj; simp [SMap.erase, SMap.get, Ne.symm h]; simpa using ih'
    · simp [SMap.erase, SMap.get, hj]; simpa using congrArg _ ih'

@[simp] theorem SMap.get_put_self [DecidableEq α] (d : α) (m : SMap α) (k : Nat) (v : α) :
    SMap.get d (SMap.put d m k v) k = v := by
  unfold SMap.put; split
  · rename_i h; rw [SMap.get_erase_self, h]
  · exact SMap.get_insert_self d m k v

theorem SMap.get_put_other [DecidableEq α] (d : α) (m : SMap α) {k a : Nat} (h : a ≠ k) (v : α) :
    SMap.get d (SMap.put d m k v) a = SMap.get d m a := by
  unfold SMap.put; split
  · exact SMap.get_erase_other d m h
  · exact SMap.get_insert_other d m h v

/-- Reading after a write, as one rule. -/
theorem SMap.get_put [DecidableEq α] (d : α) (m : SMap α) (k a : Nat) (v : α) :
    SMap.get d (SMap.put d m k v) a = if a = k then v else SMap.get d m a := by
  split
  · rename_i h; rw [h, SMap.get_put_self]
  · rename_i h; exact SMap.get_put_other d m h v

theorem SMap.find_insert (m : SMap α) (k a : Nat) (v : α) :
    SMap.find (SMap.insert m k v) a = if a = k then some v else SMap.find m a := by
  induction m with
  | nil => by_cases h : k = a <;> simp [SMap.insert, SMap.find, h, eq_comm (a := a)]
  | cons e r ih =>
    obtain ⟨j, w⟩ := e
    simp only [SMap.insert]
    split
    · by_cases h : a = k
      · simp [SMap.find, h]
      · simp [SMap.find, h, Ne.symm h]
    · split
      · rename_i hj; subst hj
        by_cases h : a = j
        · simp [SMap.find, h]
        · simp [SMap.find, h, Ne.symm h]
      · rename_i hj
        by_cases h : a = k
        · subst h; simp [SMap.find, hj, ih]
        · by_cases h2 : j = a <;> simp [SMap.find, h, h2, ih]

theorem SMap.find_erase (m : SMap α) (k a : Nat) :
    SMap.find (SMap.erase m k) a = if a = k then none else SMap.find m a := by
  induction m with
  | nil => simp [SMap.erase, SMap.find]
  | cons e r ih =>
    obtain ⟨j, w⟩ := e
    have ih' : SMap.find (List.filter (fun e => decide (e.1 ≠ k)) r) a = if a = k then none else SMap.find r a := ih
    by_cases hj : j = k
    · subst hj
      by_cases h : a = j
      · simpa [SMap.erase, List.filter_cons, SMap.find, h] using ih'
      · simpa [SMap.erase, List.filter_cons, SMap.find, h, Ne.symm h] using ih'
    · by_cases h : a = k
      · subst h; simpa [SMap.erase, List.filter_cons, SMap.find, hj] using ih'
      · by_cases h2 : j = a
        · simp [SMap.erase, SMap.find, h, h2]
        · simpa [SMap.erase, List.filter_cons, SMap.find, hj, h, h2] using ih'

/-! The canonical form. -/

theorem SMap.above_insert {m : SMap α} {i k : Nat} (h : SMap.above i m = true) (hk : i < k) (v : α) :
    SMap.above i (SMap.insert m k v) = true := by
  induction m with
  | nil => simpa [SMap.insert, SMap.above] using hk
  | cons e r ih =>
    obtain ⟨j, w⟩ := e
    simp only [SMap.above, List.all_cons, Bool.and_eq_true, decide_eq_true_eq] at h ih ⊢
    simp only [SMap.insert]
    split
    · simp only [List.all_cons, Bool.and_eq_true, decide_eq_true_eq]; exact ⟨hk, h⟩
    · split
      · simp only [List.all_cons, Bool.and_eq_true, decide_eq_true_eq]; exact ⟨hk, h.2⟩
      · simp only [List.all_cons, Bool.and_eq_true, decide_eq_true_eq]; exact ⟨h.1, ih h.2⟩

theorem SMap.above_of_lt {m : SMap α} {i j : Nat} (h : SMap.above j m = true) (hi : i < j) : SMap.above i m = true := by
  simp only [SMap.above, List.all_eq_true, decide_eq_true_eq] at h ⊢
  exact fun e he => Nat.lt_trans hi (h e he)

variable [DecidableEq α]

theorem SMap.wf_insert {d : α} {m : SMap α} (h : SMap.wf d m = true) (k : Nat) {v : α} (hv : v ≠ d) :
    SMap.wf d (SMap.insert m k v) = true := by
  induction m with
  | nil => simp [SMap.insert, SMap.wf, SMap.above, hv]
  | cons e r ih =>
    obtain ⟨j, w⟩ := e
    simp only [SMap.wf, Bool.and_eq_true, decide_eq_true_eq] at h
    obtain ⟨⟨hw, ha⟩, hr⟩ := h
    simp only [SMap.insert]
    split
    · rename_i hk
      simp only [SMap.wf, Bool.and_eq_true, decide_eq_true_eq]
      refine ⟨⟨hv, ?_⟩, ⟨hw, ha⟩, hr⟩
      have := SMap.above_of_lt ha hk
      simpa [SMap.above, hk] using this
    · split
      · rename_i hj; subst hj
        simp only [SMap.wf, Bool.and_eq_true, decide_eq_true_eq]; exact ⟨⟨hv, ha⟩, hr⟩
      · rename_i h1 h2
        simp only [SMap.wf, Bool.and_eq_true, decide_eq_true_eq]
        exact ⟨⟨hw, SMap.above_insert ha (by omega) v⟩, ih hr⟩

theorem SMap.wf_filter {d : α} {m : SMap α} (h : SMap.wf d m = true) (p : Nat × α → Bool) :
    SMap.wf d (m.filter p) = true := by
  induction m with
  | nil => rfl
  | cons e r ih =>
    obtain ⟨j, w⟩ := e
    simp only [SMap.wf, Bool.and_eq_true, decide_eq_true_eq] at h
    obtain ⟨⟨hw, ha⟩, hr⟩ := h
    rw [List.filter_cons]
    split
    · simp only [SMap.wf, Bool.and_eq_true, decide_eq_true_eq]
      refine ⟨⟨hw, ?_⟩, ih hr⟩
      simp only [SMap.above, List.all_eq_true, decide_eq_true_eq] at ha ⊢
      exact fun e he => ha e (List.mem_filter.1 he).1
    · exact ih hr

theorem SMap.wf_put {d : α} {m : SMap α} (h : SMap.wf d m = true) (k : Nat) (v : α) :
    SMap.wf d (SMap.put d m k v) = true := by
  unfold SMap.put; split
  · exact SMap.wf_filter h _
  · rename_i hv; exact SMap.wf_insert h k hv

theorem SMap.wf_drop {d : α} {m : SMap α} (h : SMap.wf d m = true) (p : Nat → Bool) :
    SMap.wf d (SMap.drop p m) = true := SMap.wf_filter h _

/-! Memory. -/

/-- A byte reads as it was written; every other byte reads as before. -/
theorem Memory.byte_setByte (m : Memory) (a b : Nat) (x : Byte) :
    Memory.byte (Memory.setByte m a x) b = if b = a then x else Memory.byte m b :=
  SMap.get_put 0 m a b x

theorem Memory.wf_setByte {m : Memory} (h : Memory.wf m = true) (a : Nat) (x : Byte) :
    Memory.wf (Memory.setByte m a x) = true := SMap.wf_put h a x

theorem Memory.wf_setBytes {m : Memory} (h : Memory.wf m = true) (a : Nat) (l : List Byte) :
    Memory.wf (Memory.setBytes m a l) = true := by
  induction l generalizing m a with
  | nil => exact h
  | cons x r ih => exact ih (Memory.wf_setByte h a x) (a + 1)

theorem Memory.wf_clear {m : Memory} (h : Memory.wf m = true) (a n : Nat) : Memory.wf (Memory.clear m a n) = true :=
  SMap.wf_drop h _

/-- A list of bytes stored from `a` on: each byte of it reads as stored, every other byte reads as before. -/
theorem Memory.byte_setBytes (m : Memory) (a : Nat) (l : List Byte) (b : Nat) :
    Memory.byte (Memory.setBytes m a l) b = if a ≤ b ∧ b < a + l.length then l.getD (b - a) 0 else Memory.byte m b := by
  induction l generalizing m a with
  | nil => rw [Memory.setBytes, if_neg (by simp only [List.length_nil]; omega)]
  | cons x r ih =>
    rw [Memory.setBytes, ih, Memory.byte_setByte, List.length_cons]
    by_cases h : b = a
    · subst h; rw [if_neg (by omega), if_pos rfl, if_pos (by omega), Nat.sub_self]; simp
    · rw [if_neg h]
      by_cases h1 : a + 1 ≤ b ∧ b < a + 1 + r.length
      · rw [if_pos h1, if_pos (by omega), show b - a = b - (a + 1) + 1 by omega]; rfl
      · rw [if_neg h1, if_neg (by omega)]

end Sys2Proof
end

