-- ==== Sys2Proof/Laws/Regs.lean ====
section
/-! SUPPORT. The registers of a wave: what a write changes, and what the writes in flight leave when they land. -/
namespace Sys2Proof.Machine

/-- A write that touches a register in a lane. -/
def RegWrite.hits (x : RegWrite) (r : Reg) (lane : Nat) : Bool :=
  match r with
  | .v k => x.reg = .v k && x.lane % 64 = lane
  | .s k => x.reg = .s k
  | .p k => x.reg = .p k && x.lane = lane
  | .m _ | .none => false

theorem Wave.thread_modThread (w : Wave) (l i : Nat) (f : Thread → Thread) :
    (w.modThread l f).thread i = if l = i ∧ i < w.threads.length then f (w.thread i) else w.thread i := by
  simp only [Wave.thread, Wave.modThread, List.getD_eq_getElem?_getD, List.getElem?_modify]
  by_cases h : l = i
  · subst h
    by_cases hl : l < w.threads.length
    · simp [hl]
    · simp [hl]
  · simp [h]

theorem bitAt_or {n : Nat} (a b : BitVec n) (i : Nat) : bitAt (a ||| b) i = (bitAt a i || bitAt b i) := by simp [bitAt]
theorem bitAt_and {n : Nat} (a b : BitVec n) (i : Nat) : bitAt (a &&& b) i = (bitAt a i && bitAt b i) := by simp [bitAt]

theorem bitAt_pred (k i : Nat) : bitAt (1#7 <<< k) i = (decide (i = k) && decide (i < 7)) := by
  simp only [bitAt, BitVec.getLsbD_shiftLeft, BitVec.getLsbD_one]
  by_cases h : i = k
  · subst h; simp
  · by_cases h2 : i < k
    · simp [h, h2]
    · have : i - k ≠ 0 := by omega
      simp [h, h2, this]

theorem bitAt_not7 (a : BitVec 7) (i : Nat) : bitAt (~~~a) i = (decide (i < 7) && !bitAt a i) := by simp [bitAt]

/-- A write leaves every register it does not touch. -/
theorem Wave.reg_write_other (w : Wave) (x : RegWrite) (r : Reg) (lane : Nat) (hl : lane < 64)
    (h : x.hits r lane = false) : (w.write x).reg r lane = w.reg r lane := by
  cases r with
  | v k =>
    cases hx : x.reg with
    | v j =>
      have hk : 64 * k + lane ≠ 64 * j + x.lane % 64 := by
        simp only [RegWrite.hits, hx, Reg.v.injEq, Bool.and_eq_false_imp, decide_eq_true_eq, decide_eq_false_iff_not] at h
        intro he
        have : x.lane % 64 < 64 := Nat.mod_lt _ (by decide)
        exact h (by omega) (by omega)
      simp only [Wave.write, hx, Wave.reg, Wave.v]; rw [SMap.get_put_other _ _ hk]
    | p j => by_cases h7 : j = 7 <;> simp [Wave.write, hx, Wave.reg, Wave.v, h7, Wave.modThread]
    | _ => simp [Wave.write, hx, Wave.reg, Wave.v]
  | s k =>
    cases hx : x.reg with
    | s j =>
      have hk : k ≠ j := by simpa [RegWrite.hits, hx, eq_comm] using h
      simp only [Wave.write, hx, Wave.reg, Wave.s]; rw [SMap.get_put_other _ _ hk]
    | p j => by_cases h7 : j = 7 <;> simp [Wave.write, hx, Wave.reg, Wave.s, h7, Wave.modThread]
    | _ => simp [Wave.write, hx, Wave.reg, Wave.s]
  | p k =>
    cases hx : x.reg with
    | p j =>
      by_cases h7 : j = 7
      · simp [Wave.write, hx, h7]
      · simp only [Wave.write, hx, h7, if_false, Wave.reg, Wave.p, Wave.thread_modThread]
        by_cases hj : x.lane = lane ∧ lane < w.threads.length
        · have hne : k ≠ j := by
            simp only [RegWrite.hits, hx, hj.1, Reg.p.injEq, decide_true, Bool.and_true, decide_eq_false_iff_not] at h
            exact fun e => h e.symm
          rw [if_pos hj]
          by_cases hv : x.val = 0
          · simp only [hv, if_true, bitAt_and, bitAt_not7, bitAt_pred, hne, decide_false, Bool.false_and, Bool.not_false,
              Bool.and_true]
            by_cases hk : k < 7
            · simp [hk]
            · have : bitAt (w.thread lane).preds k = false := by
                simp only [bitAt]; exact BitVec.getLsbD_of_ge _ _ (by omega)
              simp [hk, this]
          · simp only [hv, if_false, bitAt_or, bitAt_pred, hne, decide_false, Bool.false_and, Bool.or_false]; rfl
        · rw [if_neg hj]; rfl
    | _ => simp [Wave.write, hx, Wave.reg, Wave.p, Wave.thread]
  | m _ => rfl
  | none => rfl

/-- The value a write leaves in the register it touches. -/
theorem Wave.reg_write_v (w : Wave) (k i : Nat) (v : Word) (lane : Nat) (h : i % 64 = lane) :
    (w.write ⟨.v k, i, v⟩).reg (.v k) lane = (v.setWidth 32).setWidth 64 := by
  simp [Wave.write, Wave.reg, Wave.v, h]

theorem Wave.reg_write_s (w : Wave) (k i : Nat) (v : Word) (lane : Nat) :
    (w.write ⟨.s k, i, v⟩).reg (.s k) lane = v := by simp [Wave.write, Wave.reg, Wave.s]

theorem Wave.reg_write_p (w : Wave) (k lane : Nat) (b : Bool) (hk : k < 7) (hl : lane < w.threads.length) :
    (w.write (predWrite k lane b)).reg (.p k) lane = if b then 1 else 0 := by
  have h7 : k ≠ 7 := by omega
  cases b
  · simp [Wave.write, predWrite, Wave.reg, Wave.p, h7, Wave.thread_modThread, hl, bitAt_and, bitAt_not7, bitAt_pred, hk]
  · simp [Wave.write, predWrite, Wave.reg, Wave.p, h7, Wave.thread_modThread, hl, bitAt_or, bitAt_pred, hk]

@[simp] theorem Wave.write_threads_length (w : Wave) (x : RegWrite) : (w.write x).threads.length = w.threads.length := by
  unfold Wave.write; split <;> try rfl
  split <;> simp [Wave.modThread]

@[simp] theorem Wave.writeAll_threads_length (w : Wave) (l : List RegWrite) :
    (w.writeAll l).threads.length = w.threads.length := by
  induction l generalizing w with
  | nil => rfl
  | cons x r ih => rw [Wave.writeAll, List.foldl_cons]; exact (ih (w.write x)).trans (w.write_threads_length x)

/-- A run of writes none of which touches a register leaves it. -/
theorem Wave.reg_writeAll_other (w : Wave) (l : List RegWrite) (r : Reg) (lane : Nat) (hl : lane < 64)
    (h : ∀ x ∈ l, x.hits r lane = false) : (w.writeAll l).reg r lane = w.reg r lane := by
  induction l generalizing w with
  | nil => rfl
  | cons x t ih =>
    rw [Wave.writeAll, List.foldl_cons]
    exact (ih (w.write x) fun y hy => h y (List.mem_cons_of_mem _ hy)).trans
      (w.reg_write_other x r lane hl (h x List.mem_cons_self))

theorem Wave.writeAll_append (w : Wave) (a b : List RegWrite) : w.writeAll (a ++ b) = (w.writeAll a).writeAll b :=
  List.foldl_append

/-- The value of the one write of a run that touches a register stays. -/
theorem Wave.reg_writeAll_one (w : Wave) (a b : List RegWrite) (x : RegWrite) (r : Reg) (lane : Nat) (hl : lane < 64)
    (hb : ∀ y ∈ b, y.hits r lane = false) :
    (w.writeAll (a ++ x :: b)).reg r lane = ((w.writeAll a).write x).reg r lane := by
  rw [Wave.writeAll_append]; exact Wave.reg_writeAll_other _ b r lane hl hb

/-! Writes in flight. -/

/-- Inserting a write keeps the order of the others. -/
theorem insertByLand_split (x : PendWrite) (l : List PendWrite) :
    ∃ a b, l = a ++ b ∧ insertByLand x l = a ++ x :: b := by
  induction l with
  | nil => exact ⟨[], [], rfl, rfl⟩
  | cons y r ih =>
    unfold insertByLand
    split
    · exact ⟨[], y :: r, rfl, rfl⟩
    · obtain ⟨a, b, h1, h2⟩ := ih
      exact ⟨y :: a, b, by rw [h1]; rfl, by rw [h2]; rfl⟩

theorem mem_insertByLand (x y : PendWrite) (l : List PendWrite) : y ∈ insertByLand x l ↔ y = x ∨ y ∈ l := by
  obtain ⟨a, b, h1, h2⟩ := insertByLand_split x l
  rw [h2, h1]; simp only [List.mem_append, List.mem_cons]; exact or_left_comm

/-- What a register reads after a write depends on the wave only through what it read before. -/
theorem Wave.reg_write_congr {u v : Wave} (y : RegWrite) {r : Reg} {lane : Nat} (hl : lane < 64)
    (h : u.reg r lane = v.reg r lane) (ht : u.threads.length = v.threads.length) :
    (u.write y).reg r lane = (v.write y).reg r lane := by
  by_cases hy : y.hits r lane = true
  · obtain ⟨yr, yl, yv⟩ := y
    cases r with
    | v k =>
      simp only [RegWrite.hits, Bool.and_eq_true, decide_eq_true_eq] at hy
      obtain ⟨rfl, hy⟩ := hy; simp only [Wave.reg_write_v _ _ _ _ _ hy]
    | s k =>
      simp only [RegWrite.hits, decide_eq_true_eq] at hy
      subst hy; simp only [Wave.reg_write_s]
    | p k =>
      simp only [RegWrite.hits, Bool.and_eq_true, decide_eq_true_eq] at hy
      obtain ⟨rfl, rfl⟩ := hy
      by_cases h7 : k = 7
      · simp [Wave.write, h7, Wave.reg, Wave.p]
      · simp only [Wave.write, h7, if_false, Wave.reg, Wave.p, Wave.thread_modThread, ht, decide_false, Bool.false_or] at h ⊢
        by_cases hk : k < 7
        · by_cases hlt : yl < v.threads.length
          · by_cases hv : yv = 0#64 <;> simp [hlt, hv, bitAt_or, bitAt_and, bitAt_not7, bitAt_pred, hk]
          · simpa [hlt, h7] using h
        · have g : ∀ (x : BitVec 7), bitAt x k = false := fun x => BitVec.getLsbD_of_ge _ _ (by omega)
          simp [g]
    | m _ => cases hy
    | none => cases hy
  · rw [Wave.reg_write_other _ _ _ _ hl (by simpa using hy), Wave.reg_write_other _ _ _ _ hl (by simpa using hy), h]

theorem Wave.reg_writeAll_congr {u v : Wave} (l : List RegWrite) {r : Reg} {lane : Nat} (hl : lane < 64)
    (h : u.reg r lane = v.reg r lane) (ht : u.threads.length = v.threads.length) :
    (u.writeAll l).reg r lane = (v.writeAll l).reg r lane := by
  induction l generalizing u v with
  | nil => exact h
  | cons y t ih => exact ih (Wave.reg_write_congr y hl h ht) (by simp [ht])

/-- Adding a write that does not touch a register changes nothing of what the register will read. -/
theorem Wave.reg_insert_other (w : Wave) (x : PendWrite) (l : List PendWrite) (r : Reg) (lane : Nat) (hl : lane < 64)
    (h : x.w.hits r lane = false) :
    (w.writeAll ((insertByLand x l).map (·.w))).reg r lane = (w.writeAll (l.map (·.w))).reg r lane := by
  obtain ⟨a, b, h1, h2⟩ := insertByLand_split x l
  rw [h2, h1]
  simp only [List.map_append, List.map_cons, Wave.writeAll_append]
  exact Wave.reg_writeAll_congr _ hl (Wave.reg_write_other _ _ _ _ hl h) (by simp)

/-- The writes of a word on top of those in flight. -/
def pendOver (clk : Nat) (p : List PendWrite) (l : List RegWrite) : List PendWrite :=
  l.foldl (fun a x => insertByLand ⟨x, clk⟩ a) p

theorem Wave.reg_pendOver_other (w : Wave) (clk : Nat) (p : List PendWrite) (l : List RegWrite) (r : Reg) (lane : Nat)
    (hl : lane < 64) (h : ∀ x ∈ l, x.hits r lane = false) :
    (w.writeAll ((pendOver clk p l).map (·.w))).reg r lane = (w.writeAll (p.map (·.w))).reg r lane := by
  induction l generalizing p with
  | nil => rfl
  | cons x t ih =>
    refine (ih (insertByLand ⟨x, clk⟩ p) fun y hy => h y (List.mem_cons_of_mem _ hy)).trans ?_
    exact Wave.reg_insert_other w _ p r lane hl (h x List.mem_cons_self)

theorem pendOver_no_hit (clk : Nat) (p : List PendWrite) (l : List RegWrite) (r : Reg) (lane : Nat)
    (hp : ∀ q ∈ p, q.w.hits r lane = false) (h : ∀ x ∈ l, x.hits r lane = false) :
    ∀ q ∈ pendOver clk p l, q.w.hits r lane = false := by
  induction l generalizing p with
  | nil => exact hp
  | cons x t ih =>
    refine ih (insertByLand ⟨x, clk⟩ p) (fun q hq => ?_) fun y hy => h y (List.mem_cons_of_mem _ hy)
    rcases (mem_insertByLand _ _ _).1 hq with rfl | hq
    · exact h x List.mem_cons_self
    · exact hp q hq

/-- The one write of a word that touches a register with nothing in flight gives the register its value. -/
theorem Wave.reg_pendOver_one (w : Wave) (clk : Nat) (p : List PendWrite) (a b : List RegWrite) (x : RegWrite) (r : Reg)
    (lane : Nat) (hl : lane < 64) (hp : ∀ q ∈ p, q.w.hits r lane = false) (ha : ∀ y ∈ a, y.hits r lane = false)
    (hb : ∀ y ∈ b, y.hits r lane = false) :
    (w.writeAll ((pendOver clk p (a ++ x :: b)).map (·.w))).reg r lane = (w.write x).reg r lane := by
  have h1 : pendOver clk p (a ++ x :: b) = pendOver clk (insertByLand ⟨x, clk⟩ (pendOver clk p a)) b := by
    simp [pendOver, List.foldl_append]
  rw [h1, Wave.reg_pendOver_other _ _ _ _ _ _ hl hb]
  have hq := pendOver_no_hit clk p a r lane hp ha
  obtain ⟨c, d, e1, e2⟩ := insertByLand_split ⟨x, clk⟩ (pendOver clk p a)
  rw [e2, List.map_append, List.map_cons]
  rw [e1] at hq
  rw [Wave.reg_writeAll_one _ _ _ _ _ _ hl (by simpa using fun q hq' => hq q (List.mem_append_right _ hq'))]
  refine Wave.reg_write_congr x hl ?_ (by simp)
  exact Wave.reg_writeAll_other w _ r lane hl (by simpa using fun q hq' => hq q (List.mem_append_left _ hq'))

/-- What a register will read, with the writes in flight named. -/
theorem Wave.seen_eq (w : Wave) (p : List PendWrite) (r : Reg) (lane : Nat) :
    Wave.seen { w with pend := p } r lane = (w.writeAll (p.map (·.w))).reg r lane := by
  have h : ∀ (l : List RegWrite) (u : Wave), ({ u with pend := p } : Wave).writeAll l = { u.writeAll l with pend := p } := by
    intro l
    induction l with
    | nil => exact fun _ => rfl
    | cons x t ih =>
      intro u
      have hx : ({ u with pend := p } : Wave).write x = { u.write x with pend := p } := by
        obtain ⟨r, i, v⟩ := x
        cases r <;> simp only [Wave.write]
        split
        all_goals rfl
      rw [Wave.writeAll, List.foldl_cons, hx]; exact ih (u.write x)
  simp only [Wave.seen, Wave.landAll, h]
  cases r
  all_goals rfl

theorem Wave.pendAt_eq (w : Wave) (clk : Nat) (l : List RegWrite) :
    w.pendAt clk l = { w with pend := pendOver clk w.pend l } := rfl

/-- A register with no write pending has none in flight. -/
theorem Wave.no_hit_of_not_pending {w : Wave} {r : Reg} (h : w.pending r = false) (lane : Nat) :
    ∀ q ∈ w.pend, q.w.hits r lane = false := by
  intro q hq
  have : q.w.reg ≠ r := by
    simp only [Wave.pending, List.any_eq_false, decide_eq_true_eq] at h; exact h q hq
  cases r <;> simp [RegWrite.hits, this]

end Sys2Proof.Machine
end

