-- ==== Sys2Proof/Laws/State.lean ====
section
/-! SUPPORT. One lemma per field per update of the state: an update changes its own field and no other. Written out so
that no proof unfolds a record update. -/
namespace Sys2Proof.Machine

@[simp] theorem State.modWg_clk (s : State) (id : Nat) (f : Workgroup → Workgroup) : (s.modWg id f).clk = s.clk := rfl
@[simp] theorem State.modWg_mhz (s : State) (id : Nat) (f : Workgroup → Workgroup) : (s.modWg id f).mhz = s.mhz := rfl
@[simp] theorem State.modWg_clocks (s : State) (id : Nat) (f : Workgroup → Workgroup) : (s.modWg id f).clocks = s.clocks := rfl
@[simp] theorem State.modWg_violations (s : State) (id : Nat) (f : Workgroup → Workgroup) : (s.modWg id f).violations = s.violations := rfl
@[simp] theorem State.modWg_nextId (s : State) (id : Nat) (f : Workgroup → Workgroup) : (s.modWg id f).nextId = s.nextId := rfl
@[simp] theorem State.modWg_free (s : State) (id : Nat) (f : Workgroup → Workgroup) : (s.modWg id f).free = s.free := rfl
@[simp] theorem State.modWg_agenda (s : State) (id : Nat) (f : Workgroup → Workgroup) : (s.modWg id f).agenda = s.agenda := rfl
@[simp] theorem State.modWg_running (s : State) (id : Nat) (f : Workgroup → Workgroup) : (s.modWg id f).running = s.running := rfl
@[simp] theorem State.modWg_csr (s : State) (id : Nat) (f : Workgroup → Workgroup) : (s.modWg id f).csr = s.csr := rfl
@[simp] theorem State.modWg_mem (s : State) (id : Nat) (f : Workgroup → Workgroup) : (s.modWg id f).mem = s.mem := rfl
@[simp] theorem State.modWg_frames (s : State) (id : Nat) (f : Workgroup → Workgroup) : (s.modWg id f).frames = s.frames := rfl
@[simp] theorem State.modWg_rmap (s : State) (id : Nat) (f : Workgroup → Workgroup) : (s.modWg id f).rmap = s.rmap := rfl
@[simp] theorem State.modWg_rmapOwn (s : State) (id : Nat) (f : Workgroup → Workgroup) : (s.modWg id f).rmapOwn = s.rmapOwn := rfl
@[simp] theorem State.modWg_rawWait (s : State) (id : Nat) (f : Workgroup → Workgroup) : (s.modWg id f).rawWait = s.rawWait := rfl
@[simp] theorem State.modWg_hostFails (s : State) (id : Nat) (f : Workgroup → Workgroup) : (s.modWg id f).hostFails = s.hostFails := rfl
@[simp] theorem State.modWg_portDrops (s : State) (id : Nat) (f : Workgroup → Workgroup) : (s.modWg id f).portDrops = s.portDrops := rfl
@[simp] theorem State.modWg_engWrites (s : State) (id : Nat) (f : Workgroup → Workgroup) : (s.modWg id f).engWrites = s.engWrites := rfl
@[simp] theorem State.modWg_coreX (s : State) (id : Nat) (f : Workgroup → Workgroup) : (s.modWg id f).coreX = s.coreX := rfl
@[simp] theorem State.modWg_lodeX (s : State) (id : Nat) (f : Workgroup → Workgroup) : (s.modWg id f).lodeX = s.lodeX := rfl
@[simp] theorem State.modWg_tmb (s : State) (id : Nat) (f : Workgroup → Workgroup) : (s.modWg id f).tmb = s.tmb := rfl
@[simp] theorem State.modWg_tmbRuns (s : State) (id : Nat) (f : Workgroup → Workgroup) : (s.modWg id f).tmbRuns = s.tmbRuns := rfl
@[simp] theorem State.modWg_migrations (s : State) (id : Nat) (f : Workgroup → Workgroup) : (s.modWg id f).migrations = s.migrations := rfl
@[simp] theorem State.modWg_lines (s : State) (id : Nat) (f : Workgroup → Workgroup) : (s.modWg id f).lines = s.lines := rfl
@[simp] theorem State.modWg_l1 (s : State) (id : Nat) (f : Workgroup → Workgroup) : (s.modWg id f).l1 = s.l1 := rfl
@[simp] theorem State.modWg_sbuf (s : State) (id : Nat) (f : Workgroup → Workgroup) : (s.modWg id f).sbuf = s.sbuf := rfl
@[simp] theorem State.modWg_alb (s : State) (id : Nat) (f : Workgroup → Workgroup) : (s.modWg id f).alb = s.alb := rfl
@[simp] theorem State.modWg_tb (s : State) (id : Nat) (f : Workgroup → Workgroup) : (s.modWg id f).tb = s.tb := rfl
@[simp] theorem State.modWg_dir (s : State) (id : Nat) (f : Workgroup → Workgroup) : (s.modWg id f).dir = s.dir := rfl
@[simp] theorem State.modWg_invals (s : State) (id : Nat) (f : Workgroup → Workgroup) : (s.modWg id f).invals = s.invals := rfl
@[simp] theorem State.modWg_walks (s : State) (id : Nat) (f : Workgroup → Workgroup) : (s.modWg id f).walks = s.walks := rfl
@[simp] theorem State.modWg_deferred (s : State) (id : Nat) (f : Workgroup → Workgroup) : (s.modWg id f).deferred = s.deferred := rfl
@[simp] theorem State.modWg_fills (s : State) (id : Nat) (f : Workgroup → Workgroup) : (s.modWg id f).fills = s.fills := rfl
@[simp] theorem State.modWg_extWrites (s : State) (id : Nat) (f : Workgroup → Workgroup) : (s.modWg id f).extWrites = s.extWrites := rfl
@[simp] theorem State.modWg_reqs (s : State) (id : Nat) (f : Workgroup → Workgroup) : (s.modWg id f).reqs = s.reqs := rfl
@[simp] theorem State.modWg_l1fills (s : State) (id : Nat) (f : Workgroup → Workgroup) : (s.modWg id f).l1fills = s.l1fills := rfl
@[simp] theorem State.modWg_results (s : State) (id : Nat) (f : Workgroup → Workgroup) : (s.modWg id f).results = s.results := rfl
@[simp] theorem State.modWg_layCache (s : State) (id : Nat) (f : Workgroup → Workgroup) : (s.modWg id f).layCache = s.layCache := rfl
@[simp] theorem State.modWg_copies (s : State) (id : Nat) (f : Workgroup → Workgroup) : (s.modWg id f).copies = s.copies := rfl
@[simp] theorem State.modWg_mq (s : State) (id : Nat) (f : Workgroup → Workgroup) : (s.modWg id f).mq = s.mq := rfl
@[simp] theorem State.modWg_mwait (s : State) (id : Nat) (f : Workgroup → Workgroup) : (s.modWg id f).mwait = s.mwait := rfl
@[simp] theorem State.modWg_asks (s : State) (id : Nat) (f : Workgroup → Workgroup) : (s.modWg id f).asks = s.asks := rfl
@[simp] theorem State.modWg_contracts (s : State) (id : Nat) (f : Workgroup → Workgroup) : (s.modWg id f).contracts = s.contracts := rfl
@[simp] theorem State.modWg_ctrReqs (s : State) (id : Nat) (f : Workgroup → Workgroup) : (s.modWg id f).ctrReqs = s.ctrReqs := rfl
@[simp] theorem State.modWg_kv (s : State) (id : Nat) (f : Workgroup → Workgroup) : (s.modWg id f).kv = s.kv := rfl
@[simp] theorem State.modWg_kvReqs (s : State) (id : Nat) (f : Workgroup → Workgroup) : (s.modWg id f).kvReqs = s.kvReqs := rfl
@[simp] theorem State.modWg_reds (s : State) (id : Nat) (f : Workgroup → Workgroup) : (s.modWg id f).reds = s.reds := rfl
@[simp] theorem State.modWg_xposes (s : State) (id : Nat) (f : Workgroup → Workgroup) : (s.modWg id f).xposes = s.xposes := rfl
@[simp] theorem State.modWg_queues (s : State) (id : Nat) (f : Workgroup → Workgroup) : (s.modWg id f).queues = s.queues := rfl
@[simp] theorem State.modWg_turn (s : State) (id : Nat) (f : Workgroup → Workgroup) : (s.modWg id f).turn = s.turn := rfl
@[simp] theorem State.modWg_recs (s : State) (id : Nat) (f : Workgroup → Workgroup) : (s.modWg id f).recs = s.recs := rfl
@[simp] theorem State.modWg_parks (s : State) (id : Nat) (f : Workgroup → Workgroup) : (s.modWg id f).parks = s.parks := rfl
@[simp] theorem State.modWg_images (s : State) (id : Nat) (f : Workgroup → Workgroup) : (s.modWg id f).images = s.images := rfl
@[simp] theorem State.modWg_ctxRuns (s : State) (id : Nat) (f : Workgroup → Workgroup) : (s.modWg id f).ctxRuns = s.ctxRuns := rfl
@[simp] theorem State.modWg_vacating (s : State) (id : Nat) (f : Workgroup → Workgroup) : (s.modWg id f).vacating = s.vacating := rfl
@[simp] theorem State.modWg_vacReqs (s : State) (id : Nat) (f : Workgroup → Workgroup) : (s.modWg id f).vacReqs = s.vacReqs := rfl
@[simp] theorem State.modWg_killing (s : State) (id : Nat) (f : Workgroup → Workgroup) : (s.modWg id f).killing = s.killing := rfl
@[simp] theorem State.modWg_recalls (s : State) (id : Nat) (f : Workgroup → Workgroup) : (s.modWg id f).recalls = s.recalls := rfl
@[simp] theorem State.modWg_hdmBase (s : State) (id : Nat) (f : Workgroup → Workgroup) : (s.modWg id f).hdmBase = s.hdmBase := rfl
@[simp] theorem State.modWg_hostHolds (s : State) (id : Nat) (f : Workgroup → Workgroup) : (s.modWg id f).hostHolds = s.hostHolds := rfl
@[simp] theorem State.modWg_backInvs (s : State) (id : Nat) (f : Workgroup → Workgroup) : (s.modWg id f).backInvs = s.backInvs := rfl
@[simp] theorem State.modWg_hostDone (s : State) (id : Nat) (f : Workgroup → Workgroup) : (s.modWg id f).hostDone = s.hostDone := rfl
@[simp] theorem State.modWg_msix (s : State) (id : Nat) (f : Workgroup → Workgroup) : (s.modWg id f).msix = s.msix := rfl
@[simp] theorem State.modWg_errLog (s : State) (id : Nat) (f : Workgroup → Workgroup) : (s.modWg id f).errLog = s.errLog := rfl
@[simp] theorem State.modWg_tests (s : State) (id : Nat) (f : Workgroup → Workgroup) : (s.modWg id f).tests = s.tests := rfl
@[simp] theorem State.modWg_hbMiss (s : State) (id : Nat) (f : Workgroup → Workgroup) : (s.modWg id f).hbMiss = s.hbMiss := rfl
@[simp] theorem State.modWg_deadLanes (s : State) (id : Nat) (f : Workgroup → Workgroup) : (s.modWg id f).deadLanes = s.deadLanes := rfl
@[simp] theorem State.modWg_worldNext (s : State) (id : Nat) (f : Workgroup → Workgroup) : (s.modWg id f).worldNext = s.worldNext := rfl
@[simp] theorem State.modWg_peerDone (s : State) (id : Nat) (f : Workgroup → Workgroup) : (s.modWg id f).peerDone = s.peerDone := rfl
@[simp] theorem State.modWg_partRun (s : State) (id : Nat) (f : Workgroup → Workgroup) : (s.modWg id f).partRun = s.partRun := rfl
@[simp] theorem State.modWg_linkUps (s : State) (id : Nat) (f : Workgroup → Workgroup) : (s.modWg id f).linkUps = s.linkUps := rfl
@[simp] theorem State.modWg_heldEvents (s : State) (id : Nat) (f : Workgroup → Workgroup) : (s.modWg id f).heldEvents = s.heldEvents := rfl
@[simp] theorem State.modWg_discGen (s : State) (id : Nat) (f : Workgroup → Workgroup) : (s.modWg id f).discGen = s.discGen := rfl
@[simp] theorem State.modWg_quiescing (s : State) (id : Nat) (f : Workgroup → Workgroup) : (s.modWg id f).quiescing = s.quiescing := rfl
@[simp] theorem State.modWg_mgmt (s : State) (id : Nat) (f : Workgroup → Workgroup) : (s.modWg id f).mgmt = s.mgmt := rfl

@[simp] theorem State.modWave_clk (s : State) (wg k : Nat) (f : Wave → Wave) : (s.modWave wg k f).clk = s.clk := rfl
@[simp] theorem State.modWave_mhz (s : State) (wg k : Nat) (f : Wave → Wave) : (s.modWave wg k f).mhz = s.mhz := rfl
@[simp] theorem State.modWave_clocks (s : State) (wg k : Nat) (f : Wave → Wave) : (s.modWave wg k f).clocks = s.clocks := rfl
@[simp] theorem State.modWave_violations (s : State) (wg k : Nat) (f : Wave → Wave) : (s.modWave wg k f).violations = s.violations := rfl
@[simp] theorem State.modWave_nextId (s : State) (wg k : Nat) (f : Wave → Wave) : (s.modWave wg k f).nextId = s.nextId := rfl
@[simp] theorem State.modWave_free (s : State) (wg k : Nat) (f : Wave → Wave) : (s.modWave wg k f).free = s.free := rfl
@[simp] theorem State.modWave_agenda (s : State) (wg k : Nat) (f : Wave → Wave) : (s.modWave wg k f).agenda = s.agenda := rfl
@[simp] theorem State.modWave_running (s : State) (wg k : Nat) (f : Wave → Wave) : (s.modWave wg k f).running = s.running := rfl
@[simp] theorem State.modWave_csr (s : State) (wg k : Nat) (f : Wave → Wave) : (s.modWave wg k f).csr = s.csr := rfl
@[simp] theorem State.modWave_mem (s : State) (wg k : Nat) (f : Wave → Wave) : (s.modWave wg k f).mem = s.mem := rfl
@[simp] theorem State.modWave_frames (s : State) (wg k : Nat) (f : Wave → Wave) : (s.modWave wg k f).frames = s.frames := rfl
@[simp] theorem State.modWave_rmap (s : State) (wg k : Nat) (f : Wave → Wave) : (s.modWave wg k f).rmap = s.rmap := rfl
@[simp] theorem State.modWave_rmapOwn (s : State) (wg k : Nat) (f : Wave → Wave) : (s.modWave wg k f).rmapOwn = s.rmapOwn := rfl
@[simp] theorem State.modWave_rawWait (s : State) (wg k : Nat) (f : Wave → Wave) : (s.modWave wg k f).rawWait = s.rawWait := rfl
@[simp] theorem State.modWave_hostFails (s : State) (wg k : Nat) (f : Wave → Wave) : (s.modWave wg k f).hostFails = s.hostFails := rfl
@[simp] theorem State.modWave_portDrops (s : State) (wg k : Nat) (f : Wave → Wave) : (s.modWave wg k f).portDrops = s.portDrops := rfl
@[simp] theorem State.modWave_engWrites (s : State) (wg k : Nat) (f : Wave → Wave) : (s.modWave wg k f).engWrites = s.engWrites := rfl
@[simp] theorem State.modWave_coreX (s : State) (wg k : Nat) (f : Wave → Wave) : (s.modWave wg k f).coreX = s.coreX := rfl
@[simp] theorem State.modWave_lodeX (s : State) (wg k : Nat) (f : Wave → Wave) : (s.modWave wg k f).lodeX = s.lodeX := rfl
@[simp] theorem State.modWave_tmb (s : State) (wg k : Nat) (f : Wave → Wave) : (s.modWave wg k f).tmb = s.tmb := rfl
@[simp] theorem State.modWave_tmbRuns (s : State) (wg k : Nat) (f : Wave → Wave) : (s.modWave wg k f).tmbRuns = s.tmbRuns := rfl
@[simp] theorem State.modWave_migrations (s : State) (wg k : Nat) (f : Wave → Wave) : (s.modWave wg k f).migrations = s.migrations := rfl
@[simp] theorem State.modWave_lines (s : State) (wg k : Nat) (f : Wave → Wave) : (s.modWave wg k f).lines = s.lines := rfl
@[simp] theorem State.modWave_l1 (s : State) (wg k : Nat) (f : Wave → Wave) : (s.modWave wg k f).l1 = s.l1 := rfl
@[simp] theorem State.modWave_sbuf (s : State) (wg k : Nat) (f : Wave → Wave) : (s.modWave wg k f).sbuf = s.sbuf := rfl
@[simp] theorem State.modWave_alb (s : State) (wg k : Nat) (f : Wave → Wave) : (s.modWave wg k f).alb = s.alb := rfl
@[simp] theorem State.modWave_tb (s : State) (wg k : Nat) (f : Wave → Wave) : (s.modWave wg k f).tb = s.tb := rfl
@[simp] theorem State.modWave_dir (s : State) (wg k : Nat) (f : Wave → Wave) : (s.modWave wg k f).dir = s.dir := rfl
@[simp] theorem State.modWave_invals (s : State) (wg k : Nat) (f : Wave → Wave) : (s.modWave wg k f).invals = s.invals := rfl
@[simp] theorem State.modWave_walks (s : State) (wg k : Nat) (f : Wave → Wave) : (s.modWave wg k f).walks = s.walks := rfl
@[simp] theorem State.modWave_deferred (s : State) (wg k : Nat) (f : Wave → Wave) : (s.modWave wg k f).deferred = s.deferred := rfl
@[simp] theorem State.modWave_fills (s : State) (wg k : Nat) (f : Wave → Wave) : (s.modWave wg k f).fills = s.fills := rfl
@[simp] theorem State.modWave_extWrites (s : State) (wg k : Nat) (f : Wave → Wave) : (s.modWave wg k f).extWrites = s.extWrites := rfl
@[simp] theorem State.modWave_reqs (s : State) (wg k : Nat) (f : Wave → Wave) : (s.modWave wg k f).reqs = s.reqs := rfl
@[simp] theorem State.modWave_l1fills (s : State) (wg k : Nat) (f : Wave → Wave) : (s.modWave wg k f).l1fills = s.l1fills := rfl
@[simp] theorem State.modWave_results (s : State) (wg k : Nat) (f : Wave → Wave) : (s.modWave wg k f).results = s.results := rfl
@[simp] theorem State.modWave_layCache (s : State) (wg k : Nat) (f : Wave → Wave) : (s.modWave wg k f).layCache = s.layCache := rfl
@[simp] theorem State.modWave_copies (s : State) (wg k : Nat) (f : Wave → Wave) : (s.modWave wg k f).copies = s.copies := rfl
@[simp] theorem State.modWave_mq (s : State) (wg k : Nat) (f : Wave → Wave) : (s.modWave wg k f).mq = s.mq := rfl
@[simp] theorem State.modWave_mwait (s : State) (wg k : Nat) (f : Wave → Wave) : (s.modWave wg k f).mwait = s.mwait := rfl
@[simp] theorem State.modWave_asks (s : State) (wg k : Nat) (f : Wave → Wave) : (s.modWave wg k f).asks = s.asks := rfl
@[simp] theorem State.modWave_contracts (s : State) (wg k : Nat) (f : Wave → Wave) : (s.modWave wg k f).contracts = s.contracts := rfl
@[simp] theorem State.modWave_ctrReqs (s : State) (wg k : Nat) (f : Wave → Wave) : (s.modWave wg k f).ctrReqs = s.ctrReqs := rfl
@[simp] theorem State.modWave_kv (s : State) (wg k : Nat) (f : Wave → Wave) : (s.modWave wg k f).kv = s.kv := rfl
@[simp] theorem State.modWave_kvReqs (s : State) (wg k : Nat) (f : Wave → Wave) : (s.modWave wg k f).kvReqs = s.kvReqs := rfl
@[simp] theorem State.modWave_reds (s : State) (wg k : Nat) (f : Wave → Wave) : (s.modWave wg k f).reds = s.reds := rfl
@[simp] theorem State.modWave_xposes (s : State) (wg k : Nat) (f : Wave → Wave) : (s.modWave wg k f).xposes = s.xposes := rfl
@[simp] theorem State.modWave_queues (s : State) (wg k : Nat) (f : Wave → Wave) : (s.modWave wg k f).queues = s.queues := rfl
@[simp] theorem State.modWave_turn (s : State) (wg k : Nat) (f : Wave → Wave) : (s.modWave wg k f).turn = s.turn := rfl
@[simp] theorem State.modWave_recs (s : State) (wg k : Nat) (f : Wave → Wave) : (s.modWave wg k f).recs = s.recs := rfl
@[simp] theorem State.modWave_parks (s : State) (wg k : Nat) (f : Wave → Wave) : (s.modWave wg k f).parks = s.parks := rfl
@[simp] theorem State.modWave_images (s : State) (wg k : Nat) (f : Wave → Wave) : (s.modWave wg k f).images = s.images := rfl
@[simp] theorem State.modWave_ctxRuns (s : State) (wg k : Nat) (f : Wave → Wave) : (s.modWave wg k f).ctxRuns = s.ctxRuns := rfl
@[simp] theorem State.modWave_vacating (s : State) (wg k : Nat) (f : Wave → Wave) : (s.modWave wg k f).vacating = s.vacating := rfl
@[simp] theorem State.modWave_vacReqs (s : State) (wg k : Nat) (f : Wave → Wave) : (s.modWave wg k f).vacReqs = s.vacReqs := rfl
@[simp] theorem State.modWave_killing (s : State) (wg k : Nat) (f : Wave → Wave) : (s.modWave wg k f).killing = s.killing := rfl
@[simp] theorem State.modWave_recalls (s : State) (wg k : Nat) (f : Wave → Wave) : (s.modWave wg k f).recalls = s.recalls := rfl
@[simp] theorem State.modWave_hdmBase (s : State) (wg k : Nat) (f : Wave → Wave) : (s.modWave wg k f).hdmBase = s.hdmBase := rfl
@[simp] theorem State.modWave_hostHolds (s : State) (wg k : Nat) (f : Wave → Wave) : (s.modWave wg k f).hostHolds = s.hostHolds := rfl
@[simp] theorem State.modWave_backInvs (s : State) (wg k : Nat) (f : Wave → Wave) : (s.modWave wg k f).backInvs = s.backInvs := rfl
@[simp] theorem State.modWave_hostDone (s : State) (wg k : Nat) (f : Wave → Wave) : (s.modWave wg k f).hostDone = s.hostDone := rfl
@[simp] theorem State.modWave_msix (s : State) (wg k : Nat) (f : Wave → Wave) : (s.modWave wg k f).msix = s.msix := rfl
@[simp] theorem State.modWave_errLog (s : State) (wg k : Nat) (f : Wave → Wave) : (s.modWave wg k f).errLog = s.errLog := rfl
@[simp] theorem State.modWave_tests (s : State) (wg k : Nat) (f : Wave → Wave) : (s.modWave wg k f).tests = s.tests := rfl
@[simp] theorem State.modWave_hbMiss (s : State) (wg k : Nat) (f : Wave → Wave) : (s.modWave wg k f).hbMiss = s.hbMiss := rfl
@[simp] theorem State.modWave_deadLanes (s : State) (wg k : Nat) (f : Wave → Wave) : (s.modWave wg k f).deadLanes = s.deadLanes := rfl
@[simp] theorem State.modWave_worldNext (s : State) (wg k : Nat) (f : Wave → Wave) : (s.modWave wg k f).worldNext = s.worldNext := rfl
@[simp] theorem State.modWave_peerDone (s : State) (wg k : Nat) (f : Wave → Wave) : (s.modWave wg k f).peerDone = s.peerDone := rfl
@[simp] theorem State.modWave_partRun (s : State) (wg k : Nat) (f : Wave → Wave) : (s.modWave wg k f).partRun = s.partRun := rfl
@[simp] theorem State.modWave_linkUps (s : State) (wg k : Nat) (f : Wave → Wave) : (s.modWave wg k f).linkUps = s.linkUps := rfl
@[simp] theorem State.modWave_heldEvents (s : State) (wg k : Nat) (f : Wave → Wave) : (s.modWave wg k f).heldEvents = s.heldEvents := rfl
@[simp] theorem State.modWave_discGen (s : State) (wg k : Nat) (f : Wave → Wave) : (s.modWave wg k f).discGen = s.discGen := rfl
@[simp] theorem State.modWave_quiescing (s : State) (wg k : Nat) (f : Wave → Wave) : (s.modWave wg k f).quiescing = s.quiescing := rfl
@[simp] theorem State.modWave_mgmt (s : State) (wg k : Nat) (f : Wave → Wave) : (s.modWave wg k f).mgmt = s.mgmt := rfl

@[simp] theorem State.modPart_clk (s : State) (wg p : Nat) (f : Part → Part) : (s.modPart wg p f).clk = s.clk := rfl
@[simp] theorem State.modPart_mhz (s : State) (wg p : Nat) (f : Part → Part) : (s.modPart wg p f).mhz = s.mhz := rfl
@[simp] theorem State.modPart_clocks (s : State) (wg p : Nat) (f : Part → Part) : (s.modPart wg p f).clocks = s.clocks := rfl
@[simp] theorem State.modPart_violations (s : State) (wg p : Nat) (f : Part → Part) : (s.modPart wg p f).violations = s.violations := rfl
@[simp] theorem State.modPart_nextId (s : State) (wg p : Nat) (f : Part → Part) : (s.modPart wg p f).nextId = s.nextId := rfl
@[simp] theorem State.modPart_free (s : State) (wg p : Nat) (f : Part → Part) : (s.modPart wg p f).free = s.free := rfl
@[simp] theorem State.modPart_agenda (s : State) (wg p : Nat) (f : Part → Part) : (s.modPart wg p f).agenda = s.agenda := rfl
@[simp] theorem State.modPart_running (s : State) (wg p : Nat) (f : Part → Part) : (s.modPart wg p f).running = s.running := rfl
@[simp] theorem State.modPart_csr (s : State) (wg p : Nat) (f : Part → Part) : (s.modPart wg p f).csr = s.csr := rfl
@[simp] theorem State.modPart_mem (s : State) (wg p : Nat) (f : Part → Part) : (s.modPart wg p f).mem = s.mem := rfl
@[simp] theorem State.modPart_frames (s : State) (wg p : Nat) (f : Part → Part) : (s.modPart wg p f).frames = s.frames := rfl
@[simp] theorem State.modPart_rmap (s : State) (wg p : Nat) (f : Part → Part) : (s.modPart wg p f).rmap = s.rmap := rfl
@[simp] theorem State.modPart_rmapOwn (s : State) (wg p : Nat) (f : Part → Part) : (s.modPart wg p f).rmapOwn = s.rmapOwn := rfl
@[simp] theorem State.modPart_rawWait (s : State) (wg p : Nat) (f : Part → Part) : (s.modPart wg p f).rawWait = s.rawWait := rfl
@[simp] theorem State.modPart_hostFails (s : State) (wg p : Nat) (f : Part → Part) : (s.modPart wg p f).hostFails = s.hostFails := rfl
@[simp] theorem State.modPart_portDrops (s : State) (wg p : Nat) (f : Part → Part) : (s.modPart wg p f).portDrops = s.portDrops := rfl
@[simp] theorem State.modPart_engWrites (s : State) (wg p : Nat) (f : Part → Part) : (s.modPart wg p f).engWrites = s.engWrites := rfl
@[simp] theorem State.modPart_coreX (s : State) (wg p : Nat) (f : Part → Part) : (s.modPart wg p f).coreX = s.coreX := rfl
@[simp] theorem State.modPart_lodeX (s : State) (wg p : Nat) (f : Part → Part) : (s.modPart wg p f).lodeX = s.lodeX := rfl
@[simp] theorem State.modPart_tmb (s : State) (wg p : Nat) (f : Part → Part) : (s.modPart wg p f).tmb = s.tmb := rfl
@[simp] theorem State.modPart_tmbRuns (s : State) (wg p : Nat) (f : Part → Part) : (s.modPart wg p f).tmbRuns = s.tmbRuns := rfl
@[simp] theorem State.modPart_migrations (s : State) (wg p : Nat) (f : Part → Part) : (s.modPart wg p f).migrations = s.migrations := rfl
@[simp] theorem State.modPart_lines (s : State) (wg p : Nat) (f : Part → Part) : (s.modPart wg p f).lines = s.lines := rfl
@[simp] theorem State.modPart_l1 (s : State) (wg p : Nat) (f : Part → Part) : (s.modPart wg p f).l1 = s.l1 := rfl
@[simp] theorem State.modPart_sbuf (s : State) (wg p : Nat) (f : Part → Part) : (s.modPart wg p f).sbuf = s.sbuf := rfl
@[simp] theorem State.modPart_alb (s : State) (wg p : Nat) (f : Part → Part) : (s.modPart wg p f).alb = s.alb := rfl
@[simp] theorem State.modPart_tb (s : State) (wg p : Nat) (f : Part → Part) : (s.modPart wg p f).tb = s.tb := rfl
@[simp] theorem State.modPart_dir (s : State) (wg p : Nat) (f : Part → Part) : (s.modPart wg p f).dir = s.dir := rfl
@[simp] theorem State.modPart_invals (s : State) (wg p : Nat) (f : Part → Part) : (s.modPart wg p f).invals = s.invals := rfl
@[simp] theorem State.modPart_walks (s : State) (wg p : Nat) (f : Part → Part) : (s.modPart wg p f).walks = s.walks := rfl
@[simp] theorem State.modPart_deferred (s : State) (wg p : Nat) (f : Part → Part) : (s.modPart wg p f).deferred = s.deferred := rfl
@[simp] theorem State.modPart_fills (s : State) (wg p : Nat) (f : Part → Part) : (s.modPart wg p f).fills = s.fills := rfl
@[simp] theorem State.modPart_extWrites (s : State) (wg p : Nat) (f : Part → Part) : (s.modPart wg p f).extWrites = s.extWrites := rfl
@[simp] theorem State.modPart_reqs (s : State) (wg p : Nat) (f : Part → Part) : (s.modPart wg p f).reqs = s.reqs := rfl
@[simp] theorem State.modPart_l1fills (s : State) (wg p : Nat) (f : Part → Part) : (s.modPart wg p f).l1fills = s.l1fills := rfl
@[simp] theorem State.modPart_results (s : State) (wg p : Nat) (f : Part → Part) : (s.modPart wg p f).results = s.results := rfl
@[simp] theorem State.modPart_layCache (s : State) (wg p : Nat) (f : Part → Part) : (s.modPart wg p f).layCache = s.layCache := rfl
@[simp] theorem State.modPart_copies (s : State) (wg p : Nat) (f : Part → Part) : (s.modPart wg p f).copies = s.copies := rfl
@[simp] theorem State.modPart_mq (s : State) (wg p : Nat) (f : Part → Part) : (s.modPart wg p f).mq = s.mq := rfl
@[simp] theorem State.modPart_mwait (s : State) (wg p : Nat) (f : Part → Part) : (s.modPart wg p f).mwait = s.mwait := rfl
@[simp] theorem State.modPart_asks (s : State) (wg p : Nat) (f : Part → Part) : (s.modPart wg p f).asks = s.asks := rfl
@[simp] theorem State.modPart_contracts (s : State) (wg p : Nat) (f : Part → Part) : (s.modPart wg p f).contracts = s.contracts := rfl
@[simp] theorem State.modPart_ctrReqs (s : State) (wg p : Nat) (f : Part → Part) : (s.modPart wg p f).ctrReqs = s.ctrReqs := rfl
@[simp] theorem State.modPart_kv (s : State) (wg p : Nat) (f : Part → Part) : (s.modPart wg p f).kv = s.kv := rfl
@[simp] theorem State.modPart_kvReqs (s : State) (wg p : Nat) (f : Part → Part) : (s.modPart wg p f).kvReqs = s.kvReqs := rfl
@[simp] theorem State.modPart_reds (s : State) (wg p : Nat) (f : Part → Part) : (s.modPart wg p f).reds = s.reds := rfl
@[simp] theorem State.modPart_xposes (s : State) (wg p : Nat) (f : Part → Part) : (s.modPart wg p f).xposes = s.xposes := rfl
@[simp] theorem State.modPart_queues (s : State) (wg p : Nat) (f : Part → Part) : (s.modPart wg p f).queues = s.queues := rfl
@[simp] theorem State.modPart_turn (s : State) (wg p : Nat) (f : Part → Part) : (s.modPart wg p f).turn = s.turn := rfl
@[simp] theorem State.modPart_recs (s : State) (wg p : Nat) (f : Part → Part) : (s.modPart wg p f).recs = s.recs := rfl
@[simp] theorem State.modPart_parks (s : State) (wg p : Nat) (f : Part → Part) : (s.modPart wg p f).parks = s.parks := rfl
@[simp] theorem State.modPart_images (s : State) (wg p : Nat) (f : Part → Part) : (s.modPart wg p f).images = s.images := rfl
@[simp] theorem State.modPart_ctxRuns (s : State) (wg p : Nat) (f : Part → Part) : (s.modPart wg p f).ctxRuns = s.ctxRuns := rfl
@[simp] theorem State.modPart_vacating (s : State) (wg p : Nat) (f : Part → Part) : (s.modPart wg p f).vacating = s.vacating := rfl
@[simp] theorem State.modPart_vacReqs (s : State) (wg p : Nat) (f : Part → Part) : (s.modPart wg p f).vacReqs = s.vacReqs := rfl
@[simp] theorem State.modPart_killing (s : State) (wg p : Nat) (f : Part → Part) : (s.modPart wg p f).killing = s.killing := rfl
@[simp] theorem State.modPart_recalls (s : State) (wg p : Nat) (f : Part → Part) : (s.modPart wg p f).recalls = s.recalls := rfl
@[simp] theorem State.modPart_hdmBase (s : State) (wg p : Nat) (f : Part → Part) : (s.modPart wg p f).hdmBase = s.hdmBase := rfl
@[simp] theorem State.modPart_hostHolds (s : State) (wg p : Nat) (f : Part → Part) : (s.modPart wg p f).hostHolds = s.hostHolds := rfl
@[simp] theorem State.modPart_backInvs (s : State) (wg p : Nat) (f : Part → Part) : (s.modPart wg p f).backInvs = s.backInvs := rfl
@[simp] theorem State.modPart_hostDone (s : State) (wg p : Nat) (f : Part → Part) : (s.modPart wg p f).hostDone = s.hostDone := rfl
@[simp] theorem State.modPart_msix (s : State) (wg p : Nat) (f : Part → Part) : (s.modPart wg p f).msix = s.msix := rfl
@[simp] theorem State.modPart_errLog (s : State) (wg p : Nat) (f : Part → Part) : (s.modPart wg p f).errLog = s.errLog := rfl
@[simp] theorem State.modPart_tests (s : State) (wg p : Nat) (f : Part → Part) : (s.modPart wg p f).tests = s.tests := rfl
@[simp] theorem State.modPart_hbMiss (s : State) (wg p : Nat) (f : Part → Part) : (s.modPart wg p f).hbMiss = s.hbMiss := rfl
@[simp] theorem State.modPart_deadLanes (s : State) (wg p : Nat) (f : Part → Part) : (s.modPart wg p f).deadLanes = s.deadLanes := rfl
@[simp] theorem State.modPart_worldNext (s : State) (wg p : Nat) (f : Part → Part) : (s.modPart wg p f).worldNext = s.worldNext := rfl
@[simp] theorem State.modPart_peerDone (s : State) (wg p : Nat) (f : Part → Part) : (s.modPart wg p f).peerDone = s.peerDone := rfl
@[simp] theorem State.modPart_partRun (s : State) (wg p : Nat) (f : Part → Part) : (s.modPart wg p f).partRun = s.partRun := rfl
@[simp] theorem State.modPart_linkUps (s : State) (wg p : Nat) (f : Part → Part) : (s.modPart wg p f).linkUps = s.linkUps := rfl
@[simp] theorem State.modPart_heldEvents (s : State) (wg p : Nat) (f : Part → Part) : (s.modPart wg p f).heldEvents = s.heldEvents := rfl
@[simp] theorem State.modPart_discGen (s : State) (wg p : Nat) (f : Part → Part) : (s.modPart wg p f).discGen = s.discGen := rfl
@[simp] theorem State.modPart_quiescing (s : State) (wg p : Nat) (f : Part → Part) : (s.modPart wg p f).quiescing = s.quiescing := rfl
@[simp] theorem State.modPart_mgmt (s : State) (wg p : Nat) (f : Part → Part) : (s.modPart wg p f).mgmt = s.mgmt := rfl

@[simp] theorem State.modHead_clk (s : State) (f : Issue → Issue) : (s.modHead f).clk = s.clk := rfl
@[simp] theorem State.modHead_mhz (s : State) (f : Issue → Issue) : (s.modHead f).mhz = s.mhz := rfl
@[simp] theorem State.modHead_clocks (s : State) (f : Issue → Issue) : (s.modHead f).clocks = s.clocks := rfl
@[simp] theorem State.modHead_violations (s : State) (f : Issue → Issue) : (s.modHead f).violations = s.violations := rfl
@[simp] theorem State.modHead_nextId (s : State) (f : Issue → Issue) : (s.modHead f).nextId = s.nextId := rfl
@[simp] theorem State.modHead_free (s : State) (f : Issue → Issue) : (s.modHead f).free = s.free := rfl
@[simp] theorem State.modHead_agenda (s : State) (f : Issue → Issue) : (s.modHead f).agenda = s.agenda := rfl
@[simp] theorem State.modHead_csr (s : State) (f : Issue → Issue) : (s.modHead f).csr = s.csr := rfl
@[simp] theorem State.modHead_mem (s : State) (f : Issue → Issue) : (s.modHead f).mem = s.mem := rfl
@[simp] theorem State.modHead_frames (s : State) (f : Issue → Issue) : (s.modHead f).frames = s.frames := rfl
@[simp] theorem State.modHead_rmap (s : State) (f : Issue → Issue) : (s.modHead f).rmap = s.rmap := rfl
@[simp] theorem State.modHead_rmapOwn (s : State) (f : Issue → Issue) : (s.modHead f).rmapOwn = s.rmapOwn := rfl
@[simp] theorem State.modHead_rawWait (s : State) (f : Issue → Issue) : (s.modHead f).rawWait = s.rawWait := rfl
@[simp] theorem State.modHead_hostFails (s : State) (f : Issue → Issue) : (s.modHead f).hostFails = s.hostFails := rfl
@[simp] theorem State.modHead_portDrops (s : State) (f : Issue → Issue) : (s.modHead f).portDrops = s.portDrops := rfl
@[simp] theorem State.modHead_engWrites (s : State) (f : Issue → Issue) : (s.modHead f).engWrites = s.engWrites := rfl
@[simp] theorem State.modHead_coreX (s : State) (f : Issue → Issue) : (s.modHead f).coreX = s.coreX := rfl
@[simp] theorem State.modHead_lodeX (s : State) (f : Issue → Issue) : (s.modHead f).lodeX = s.lodeX := rfl
@[simp] theorem State.modHead_tmb (s : State) (f : Issue → Issue) : (s.modHead f).tmb = s.tmb := rfl
@[simp] theorem State.modHead_tmbRuns (s : State) (f : Issue → Issue) : (s.modHead f).tmbRuns = s.tmbRuns := rfl
@[simp] theorem State.modHead_migrations (s : State) (f : Issue → Issue) : (s.modHead f).migrations = s.migrations := rfl
@[simp] theorem State.modHead_wgs (s : State) (f : Issue → Issue) : (s.modHead f).wgs = s.wgs := rfl
@[simp] theorem State.modHead_lines (s : State) (f : Issue → Issue) : (s.modHead f).lines = s.lines := rfl
@[simp] theorem State.modHead_l1 (s : State) (f : Issue → Issue) : (s.modHead f).l1 = s.l1 := rfl
@[simp] theorem State.modHead_sbuf (s : State) (f : Issue → Issue) : (s.modHead f).sbuf = s.sbuf := rfl
@[simp] theorem State.modHead_alb (s : State) (f : Issue → Issue) : (s.modHead f).alb = s.alb := rfl
@[simp] theorem State.modHead_tb (s : State) (f : Issue → Issue) : (s.modHead f).tb = s.tb := rfl
@[simp] theorem State.modHead_dir (s : State) (f : Issue → Issue) : (s.modHead f).dir = s.dir := rfl
@[simp] theorem State.modHead_invals (s : State) (f : Issue → Issue) : (s.modHead f).invals = s.invals := rfl
@[simp] theorem State.modHead_walks (s : State) (f : Issue → Issue) : (s.modHead f).walks = s.walks := rfl
@[simp] theorem State.modHead_deferred (s : State) (f : Issue → Issue) : (s.modHead f).deferred = s.deferred := rfl
@[simp] theorem State.modHead_fills (s : State) (f : Issue → Issue) : (s.modHead f).fills = s.fills := rfl
@[simp] theorem State.modHead_extWrites (s : State) (f : Issue → Issue) : (s.modHead f).extWrites = s.extWrites := rfl
@[simp] theorem State.modHead_reqs (s : State) (f : Issue → Issue) : (s.modHead f).reqs = s.reqs := rfl
@[simp] theorem State.modHead_l1fills (s : State) (f : Issue → Issue) : (s.modHead f).l1fills = s.l1fills := rfl
@[simp] theorem State.modHead_results (s : State) (f : Issue → Issue) : (s.modHead f).results = s.results := rfl
@[simp] theorem State.modHead_layCache (s : State) (f : Issue → Issue) : (s.modHead f).layCache = s.layCache := rfl
@[simp] theorem State.modHead_copies (s : State) (f : Issue → Issue) : (s.modHead f).copies = s.copies := rfl
@[simp] theorem State.modHead_mq (s : State) (f : Issue → Issue) : (s.modHead f).mq = s.mq := rfl
@[simp] theorem State.modHead_mwait (s : State) (f : Issue → Issue) : (s.modHead f).mwait = s.mwait := rfl
@[simp] theorem State.modHead_asks (s : State) (f : Issue → Issue) : (s.modHead f).asks = s.asks := rfl
@[simp] theorem State.modHead_contracts (s : State) (f : Issue → Issue) : (s.modHead f).contracts = s.contracts := rfl
@[simp] theorem State.modHead_ctrReqs (s : State) (f : Issue → Issue) : (s.modHead f).ctrReqs = s.ctrReqs := rfl
@[simp] theorem State.modHead_kv (s : State) (f : Issue → Issue) : (s.modHead f).kv = s.kv := rfl
@[simp] theorem State.modHead_kvReqs (s : State) (f : Issue → Issue) : (s.modHead f).kvReqs = s.kvReqs := rfl
@[simp] theorem State.modHead_reds (s : State) (f : Issue → Issue) : (s.modHead f).reds = s.reds := rfl
@[simp] theorem State.modHead_xposes (s : State) (f : Issue → Issue) : (s.modHead f).xposes = s.xposes := rfl
@[simp] theorem State.modHead_queues (s : State) (f : Issue → Issue) : (s.modHead f).queues = s.queues := rfl
@[simp] theorem State.modHead_turn (s : State) (f : Issue → Issue) : (s.modHead f).turn = s.turn := rfl
@[simp] theorem State.modHead_recs (s : State) (f : Issue → Issue) : (s.modHead f).recs = s.recs := rfl
@[simp] theorem State.modHead_parks (s : State) (f : Issue → Issue) : (s.modHead f).parks = s.parks := rfl
@[simp] theorem State.modHead_images (s : State) (f : Issue → Issue) : (s.modHead f).images = s.images := rfl
@[simp] theorem State.modHead_ctxRuns (s : State) (f : Issue → Issue) : (s.modHead f).ctxRuns = s.ctxRuns := rfl
@[simp] theorem State.modHead_vacating (s : State) (f : Issue → Issue) : (s.modHead f).vacating = s.vacating := rfl
@[simp] theorem State.modHead_vacReqs (s : State) (f : Issue → Issue) : (s.modHead f).vacReqs = s.vacReqs := rfl
@[simp] theorem State.modHead_killing (s : State) (f : Issue → Issue) : (s.modHead f).killing = s.killing := rfl
@[simp] theorem State.modHead_recalls (s : State) (f : Issue → Issue) : (s.modHead f).recalls = s.recalls := rfl
@[simp] theorem State.modHead_hdmBase (s : State) (f : Issue → Issue) : (s.modHead f).hdmBase = s.hdmBase := rfl
@[simp] theorem State.modHead_hostHolds (s : State) (f : Issue → Issue) : (s.modHead f).hostHolds = s.hostHolds := rfl
@[simp] theorem State.modHead_backInvs (s : State) (f : Issue → Issue) : (s.modHead f).backInvs = s.backInvs := rfl
@[simp] theorem State.modHead_hostDone (s : State) (f : Issue → Issue) : (s.modHead f).hostDone = s.hostDone := rfl
@[simp] theorem State.modHead_msix (s : State) (f : Issue → Issue) : (s.modHead f).msix = s.msix := rfl
@[simp] theorem State.modHead_errLog (s : State) (f : Issue → Issue) : (s.modHead f).errLog = s.errLog := rfl
@[simp] theorem State.modHead_tests (s : State) (f : Issue → Issue) : (s.modHead f).tests = s.tests := rfl
@[simp] theorem State.modHead_hbMiss (s : State) (f : Issue → Issue) : (s.modHead f).hbMiss = s.hbMiss := rfl
@[simp] theorem State.modHead_deadLanes (s : State) (f : Issue → Issue) : (s.modHead f).deadLanes = s.deadLanes := rfl
@[simp] theorem State.modHead_worldNext (s : State) (f : Issue → Issue) : (s.modHead f).worldNext = s.worldNext := rfl
@[simp] theorem State.modHead_peerDone (s : State) (f : Issue → Issue) : (s.modHead f).peerDone = s.peerDone := rfl
@[simp] theorem State.modHead_partRun (s : State) (f : Issue → Issue) : (s.modHead f).partRun = s.partRun := rfl
@[simp] theorem State.modHead_linkUps (s : State) (f : Issue → Issue) : (s.modHead f).linkUps = s.linkUps := rfl
@[simp] theorem State.modHead_heldEvents (s : State) (f : Issue → Issue) : (s.modHead f).heldEvents = s.heldEvents := rfl
@[simp] theorem State.modHead_discGen (s : State) (f : Issue → Issue) : (s.modHead f).discGen = s.discGen := rfl
@[simp] theorem State.modHead_quiescing (s : State) (f : Issue → Issue) : (s.modHead f).quiescing = s.quiescing := rfl
@[simp] theorem State.modHead_mgmt (s : State) (f : Issue → Issue) : (s.modHead f).mgmt = s.mgmt := rfl

@[simp] theorem State.setReg_clk (s : State) (o : Nat) (v : Word) : (s.setReg o v).clk = s.clk := rfl
@[simp] theorem State.setReg_mhz (s : State) (o : Nat) (v : Word) : (s.setReg o v).mhz = s.mhz := rfl
@[simp] theorem State.setReg_clocks (s : State) (o : Nat) (v : Word) : (s.setReg o v).clocks = s.clocks := rfl
@[simp] theorem State.setReg_violations (s : State) (o : Nat) (v : Word) : (s.setReg o v).violations = s.violations := rfl
@[simp] theorem State.setReg_nextId (s : State) (o : Nat) (v : Word) : (s.setReg o v).nextId = s.nextId := rfl
@[simp] theorem State.setReg_free (s : State) (o : Nat) (v : Word) : (s.setReg o v).free = s.free := rfl
@[simp] theorem State.setReg_agenda (s : State) (o : Nat) (v : Word) : (s.setReg o v).agenda = s.agenda := rfl
@[simp] theorem State.setReg_running (s : State) (o : Nat) (v : Word) : (s.setReg o v).running = s.running := rfl
@[simp] theorem State.setReg_mem (s : State) (o : Nat) (v : Word) : (s.setReg o v).mem = s.mem := rfl
@[simp] theorem State.setReg_frames (s : State) (o : Nat) (v : Word) : (s.setReg o v).frames = s.frames := rfl
@[simp] theorem State.setReg_rmap (s : State) (o : Nat) (v : Word) : (s.setReg o v).rmap = s.rmap := rfl
@[simp] theorem State.setReg_rmapOwn (s : State) (o : Nat) (v : Word) : (s.setReg o v).rmapOwn = s.rmapOwn := rfl
@[simp] theorem State.setReg_rawWait (s : State) (o : Nat) (v : Word) : (s.setReg o v).rawWait = s.rawWait := rfl
@[simp] theorem State.setReg_hostFails (s : State) (o : Nat) (v : Word) : (s.setReg o v).hostFails = s.hostFails := rfl
@[simp] theorem State.setReg_portDrops (s : State) (o : Nat) (v : Word) : (s.setReg o v).portDrops = s.portDrops := rfl
@[simp] theorem State.setReg_engWrites (s : State) (o : Nat) (v : Word) : (s.setReg o v).engWrites = s.engWrites := rfl
@[simp] theorem State.setReg_coreX (s : State) (o : Nat) (v : Word) : (s.setReg o v).coreX = s.coreX := rfl
@[simp] theorem State.setReg_lodeX (s : State) (o : Nat) (v : Word) : (s.setReg o v).lodeX = s.lodeX := rfl
@[simp] theorem State.setReg_tmb (s : State) (o : Nat) (v : Word) : (s.setReg o v).tmb = s.tmb := rfl
@[simp] theorem State.setReg_tmbRuns (s : State) (o : Nat) (v : Word) : (s.setReg o v).tmbRuns = s.tmbRuns := rfl
@[simp] theorem State.setReg_migrations (s : State) (o : Nat) (v : Word) : (s.setReg o v).migrations = s.migrations := rfl
@[simp] theorem State.setReg_wgs (s : State) (o : Nat) (v : Word) : (s.setReg o v).wgs = s.wgs := rfl
@[simp] theorem State.setReg_lines (s : State) (o : Nat) (v : Word) : (s.setReg o v).lines = s.lines := rfl
@[simp] theorem State.setReg_l1 (s : State) (o : Nat) (v : Word) : (s.setReg o v).l1 = s.l1 := rfl
@[simp] theorem State.setReg_sbuf (s : State) (o : Nat) (v : Word) : (s.setReg o v).sbuf = s.sbuf := rfl
@[simp] theorem State.setReg_alb (s : State) (o : Nat) (v : Word) : (s.setReg o v).alb = s.alb := rfl
@[simp] theorem State.setReg_tb (s : State) (o : Nat) (v : Word) : (s.setReg o v).tb = s.tb := rfl
@[simp] theorem State.setReg_dir (s : State) (o : Nat) (v : Word) : (s.setReg o v).dir = s.dir := rfl
@[simp] theorem State.setReg_invals (s : State) (o : Nat) (v : Word) : (s.setReg o v).invals = s.invals := rfl
@[simp] theorem State.setReg_walks (s : State) (o : Nat) (v : Word) : (s.setReg o v).walks = s.walks := rfl
@[simp] theorem State.setReg_deferred (s : State) (o : Nat) (v : Word) : (s.setReg o v).deferred = s.deferred := rfl
@[simp] theorem State.setReg_fills (s : State) (o : Nat) (v : Word) : (s.setReg o v).fills = s.fills := rfl
@[simp] theorem State.setReg_extWrites (s : State) (o : Nat) (v : Word) : (s.setReg o v).extWrites = s.extWrites := rfl
@[simp] theorem State.setReg_reqs (s : State) (o : Nat) (v : Word) : (s.setReg o v).reqs = s.reqs := rfl
@[simp] theorem State.setReg_l1fills (s : State) (o : Nat) (v : Word) : (s.setReg o v).l1fills = s.l1fills := rfl
@[simp] theorem State.setReg_results (s : State) (o : Nat) (v : Word) : (s.setReg o v).results = s.results := rfl
@[simp] theorem State.setReg_layCache (s : State) (o : Nat) (v : Word) : (s.setReg o v).layCache = s.layCache := rfl
@[simp] theorem State.setReg_copies (s : State) (o : Nat) (v : Word) : (s.setReg o v).copies = s.copies := rfl
@[simp] theorem State.setReg_mq (s : State) (o : Nat) (v : Word) : (s.setReg o v).mq = s.mq := rfl
@[simp] theorem State.setReg_mwait (s : State) (o : Nat) (v : Word) : (s.setReg o v).mwait = s.mwait := rfl
@[simp] theorem State.setReg_asks (s : State) (o : Nat) (v : Word) : (s.setReg o v).asks = s.asks := rfl
@[simp] theorem State.setReg_contracts (s : State) (o : Nat) (v : Word) : (s.setReg o v).contracts = s.contracts := rfl
@[simp] theorem State.setReg_ctrReqs (s : State) (o : Nat) (v : Word) : (s.setReg o v).ctrReqs = s.ctrReqs := rfl
@[simp] theorem State.setReg_kv (s : State) (o : Nat) (v : Word) : (s.setReg o v).kv = s.kv := rfl
@[simp] theorem State.setReg_kvReqs (s : State) (o : Nat) (v : Word) : (s.setReg o v).kvReqs = s.kvReqs := rfl
@[simp] theorem State.setReg_reds (s : State) (o : Nat) (v : Word) : (s.setReg o v).reds = s.reds := rfl
@[simp] theorem State.setReg_xposes (s : State) (o : Nat) (v : Word) : (s.setReg o v).xposes = s.xposes := rfl
@[simp] theorem State.setReg_queues (s : State) (o : Nat) (v : Word) : (s.setReg o v).queues = s.queues := rfl
@[simp] theorem State.setReg_turn (s : State) (o : Nat) (v : Word) : (s.setReg o v).turn = s.turn := rfl
@[simp] theorem State.setReg_recs (s : State) (o : Nat) (v : Word) : (s.setReg o v).recs = s.recs := rfl
@[simp] theorem State.setReg_parks (s : State) (o : Nat) (v : Word) : (s.setReg o v).parks = s.parks := rfl
@[simp] theorem State.setReg_images (s : State) (o : Nat) (v : Word) : (s.setReg o v).images = s.images := rfl
@[simp] theorem State.setReg_ctxRuns (s : State) (o : Nat) (v : Word) : (s.setReg o v).ctxRuns = s.ctxRuns := rfl
@[simp] theorem State.setReg_vacating (s : State) (o : Nat) (v : Word) : (s.setReg o v).vacating = s.vacating := rfl
@[simp] theorem State.setReg_vacReqs (s : State) (o : Nat) (v : Word) : (s.setReg o v).vacReqs = s.vacReqs := rfl
@[simp] theorem State.setReg_killing (s : State) (o : Nat) (v : Word) : (s.setReg o v).killing = s.killing := rfl
@[simp] theorem State.setReg_recalls (s : State) (o : Nat) (v : Word) : (s.setReg o v).recalls = s.recalls := rfl
@[simp] theorem State.setReg_hdmBase (s : State) (o : Nat) (v : Word) : (s.setReg o v).hdmBase = s.hdmBase := rfl
@[simp] theorem State.setReg_hostHolds (s : State) (o : Nat) (v : Word) : (s.setReg o v).hostHolds = s.hostHolds := rfl
@[simp] theorem State.setReg_backInvs (s : State) (o : Nat) (v : Word) : (s.setReg o v).backInvs = s.backInvs := rfl
@[simp] theorem State.setReg_hostDone (s : State) (o : Nat) (v : Word) : (s.setReg o v).hostDone = s.hostDone := rfl
@[simp] theorem State.setReg_msix (s : State) (o : Nat) (v : Word) : (s.setReg o v).msix = s.msix := rfl
@[simp] theorem State.setReg_errLog (s : State) (o : Nat) (v : Word) : (s.setReg o v).errLog = s.errLog := rfl
@[simp] theorem State.setReg_tests (s : State) (o : Nat) (v : Word) : (s.setReg o v).tests = s.tests := rfl
@[simp] theorem State.setReg_hbMiss (s : State) (o : Nat) (v : Word) : (s.setReg o v).hbMiss = s.hbMiss := rfl
@[simp] theorem State.setReg_deadLanes (s : State) (o : Nat) (v : Word) : (s.setReg o v).deadLanes = s.deadLanes := rfl
@[simp] theorem State.setReg_worldNext (s : State) (o : Nat) (v : Word) : (s.setReg o v).worldNext = s.worldNext := rfl
@[simp] theorem State.setReg_peerDone (s : State) (o : Nat) (v : Word) : (s.setReg o v).peerDone = s.peerDone := rfl
@[simp] theorem State.setReg_partRun (s : State) (o : Nat) (v : Word) : (s.setReg o v).partRun = s.partRun := rfl
@[simp] theorem State.setReg_linkUps (s : State) (o : Nat) (v : Word) : (s.setReg o v).linkUps = s.linkUps := rfl
@[simp] theorem State.setReg_heldEvents (s : State) (o : Nat) (v : Word) : (s.setReg o v).heldEvents = s.heldEvents := rfl
@[simp] theorem State.setReg_discGen (s : State) (o : Nat) (v : Word) : (s.setReg o v).discGen = s.discGen := rfl
@[simp] theorem State.setReg_quiescing (s : State) (o : Nat) (v : Word) : (s.setReg o v).quiescing = s.quiescing := rfl
@[simp] theorem State.setReg_mgmt (s : State) (o : Nat) (v : Word) : (s.setReg o v).mgmt = s.mgmt := rfl

/-! Finding what an update changed. -/

theorem State.wg?_modWg (s : State) (id j : Nat) (f : Workgroup → Workgroup) (hf : ∀ w, (f w).id = w.id) :
    (s.modWg id f).wg? j = if j = id then (s.wg? j).map f else s.wg? j := by
  simp only [State.wg?, State.modWg, List.find?_map]
  have hp : ((fun w : Workgroup => decide (w.id = j)) ∘ fun w => if w.id = id then f w else w) = fun w => decide (w.id = j) := by
    funext w; simp only [Function.comp]; split <;> simp [hf]
  rw [hp]
  cases h : s.wgs.find? fun w => decide (w.id = j) with
  | none => by_cases hj : j = id <;> simp [hj]
  | some w =>
    have hw : w.id = j := by simpa using List.find?_some h
    by_cases hj : j = id
    · subst hj; simp [hw]
    · simp [hj, hw]

theorem State.wave?_modWave (s : State) (wg k id j : Nat) (f : Wave → Wave) :
    (s.modWave wg k f).wave? id j = if id = wg ∧ j = k then (s.wave? id j).map f else s.wave? id j := by
  have h := State.wg?_modWg s wg id (fun w => { w with waves := w.waves.modify k f }) fun _ => rfl
  simp only [State.wave?, State.modWave, h]
  by_cases hi : id = wg
  · subst hi
    cases s.wg? id with
    | none => by_cases hj : j = k <;> simp [hj]
    | some w =>
      simp only [if_true, Option.map_some, List.getElem?_modify, true_and]
      by_cases hj : k = j
      · subst hj; simp
      · simp [hj, Ne.symm hj]
  · simp [hi]

theorem State.wg?_modWave_rest (s : State) (wg k id : Nat) (f : Wave → Wave) :
    ((s.modWave wg k f).wg? id).map (fun w => { w with waves := [] }) = (s.wg? id).map fun w => { w with waves := [] } := by
  have h := State.wg?_modWg s wg id (fun w => { w with waves := w.waves.modify k f }) fun _ => rfl
  simp only [State.modWave, h]
  split
  · cases s.wg? id <;> rfl
  · rfl

/-- The environment of a word is its clause, workgroup and wave as the state holds them. -/
theorem State.env?_some {s : State} {h : Hdr} {e : Env} (he : s.env? h = some e) :
    s.head = some e.iss ∧ s.wg? e.iss.wg = some e.wg ∧ e.wg.waves[e.iss.wave]? = some e.w ∧ e.clk = s.clk
      ∧ e.act = (lanesOf e.iss.group).filter fun l => l < e.w.threads.length && guardOf e.w h l := by
  unfold State.env? at he
  split at he <;> try contradiction
  rename_i c hc
  split at he <;> try contradiction
  rename_i g hg
  split at he <;> try contradiction
  rename_i w hw
  cases he
  exact ⟨hc, hg, hw, rfl, rfl⟩

theorem State.env?_wave {s : State} {h : Hdr} {e : Env} (he : s.env? h = some e) :
    s.wave? e.iss.wg e.iss.wave = some e.w := by
  obtain ⟨-, h1, h2, -⟩ := State.env?_some he
  simp [State.wave?, h1, h2]

/-- Active lanes are below 64, distinct, and have a thread. -/
theorem State.env?_act {s : State} {h : Hdr} {e : Env} (he : s.env? h = some e) :
    e.act.Nodup ∧ ∀ l ∈ e.act, l < 64 ∧ l < e.w.threads.length := by
  obtain ⟨-, -, -, -, h5⟩ := State.env?_some he
  rw [h5]
  refine ⟨List.Pairwise.filter _ (List.Pairwise.filter _ List.nodup_range), fun l hl => ?_⟩
  simp only [lanesOf, List.mem_filter, List.mem_range, Bool.and_eq_true, decide_eq_true_eq] at hl
  exact ⟨hl.1.1, hl.2.1⟩

end Sys2Proof.Machine
end

