-- ==== Sys2Proof/Laws/Gives.lean ====
section
/-! SUPPORT. Words with fixed-latency results: from the writes a meaning sends to the registers a statement speaks of. -/
namespace Sys2Proof.Machine

/-! A word's issue. -/

/-- THE ISSUE OF A WORD THAT CAN ISSUE: its body, where that finds no host half to recall. -/
theorem word_ready {s : State} {h : Hdr} {role : Option Role} {u : Uses} {e : Env} (hr : Ready s h role u e)
    (body : Env → State → State) :
    word h role u body s =
      .next (if (body e s).recalls = [] then body e s else (s.sendRecalls (body e s).recalls).hold) := by
  obtain ⟨he, hq, hrole, hregs⟩ := hr
  have hs : ({ s with recalls := [] } : State) = s := by cases s; cases hq; rfl
  have h1 : (role.isSome && role ≠ some e.w.role) = false := by
    rcases hrole with rfl | rfl <;> simp
  have any_false : ∀ p : Reg → Bool, (∀ r ∈ u.all h, p r = false) →
      ((if h.pred = 7 then [] else [Reg.p h.pred.toNat]) ++ u.rd ++ u.wr).any p = false := by
    intro p hp; rw [List.any_eq_false]; intro r hr; simpa using hp r hr
  have h2 := any_false (beyond e.w.n) fun r hr => (hregs r hr).1
  have h3 := any_false e.w.marked fun r hr => (hregs r hr).2.1
  have h4 := any_false e.w.pending fun r hr => (hregs r hr).2.2
  simp only [word, he, State.issueWord, h1, h2, h3, h4, State.transact, hs]
  simp

/-- A body that leaves `recalls` alone. -/
theorem word_ready_quiet {s : State} {h : Hdr} {role : Option Role} {u : Uses} {e : Env} (hr : Ready s h role u e)
    (body : Env → State → State) (hb : (body e s).recalls = s.recalls) :
    word h role u body s = .next (body e s) := by
  rw [word_ready hr, hb, hr.2.1]; simp

theorem State.later_recalls (s : State) (e : Env) (lat : Nat) (l : List RegWrite) :
    (s.later e lat l).recalls = s.recalls := by
  unfold State.later; split <;> rfl

/-! From writes to registers. -/

/-- The value `x` leaves in the register it touches, when `l` touches it once and nothing is in flight for it. -/
theorem seen_of_filter {e : Env} {clk : Nat} {l : List RegWrite} {r : Reg} {lane : Nat} (hl : lane < 64)
    (hp : ∀ q ∈ e.w.pend, q.w.hits r lane = false) {x : RegWrite} (hx : (l.filter fun y => y.hits r lane) = [x]) :
    Wave.seen { e.w with pend := pendOver clk e.w.pend l } r lane = (e.w.write x).reg r lane := by
  obtain ⟨a, b, rfl, ha, -, hb⟩ := List.filter_eq_cons_iff.1 hx
  rw [Wave.seen_eq]
  exact e.w.reg_pendOver_one clk e.w.pend a b x r lane hl hp (fun y hy => by simpa using ha y hy)
    fun y hy => by simpa using List.filter_eq_nil_iff.1 hb y hy

/-- A WORD WHOSE MEANING IS FIXED-LATENCY WRITES gives the values of those writes and nothing else. -/
theorem gives_of_later {s : State} {e : Env} {i : Instr} {dst : Reg → Nat → Option Word} {h : Hdr}
    (he : s.env? h = some e) (lat : Nat) (l : List RegWrite) (hx : exec i s = .next (s.later e lat l))
    (hd : ∀ r lane, lane < 64 →
      (∃ x v, (l.filter fun y => y.hits r lane) = [x] ∧ (∀ q ∈ e.w.pend, q.w.hits r lane = false)
        ∧ dst r lane = some v ∧ (e.w.write x).reg r lane = v)
      ∨ ((l.filter fun y => y.hits r lane) = [] ∧ dst r lane = none)
      ∨ (r = .p 7 ∧ dst r lane = none)) : Gives s e i dst := by
  have hw := State.env?_wave he
  refine ⟨s.later e lat l, pendOver (s.clk + lat) e.w.pend l, hx, ?_, ?_, ?_⟩
  · unfold State.later
    split
    · rename_i h; subst h; exact hw
    · rw [State.wave?_modWave]; simp [hw, Wave.pendAt_eq]
  · refine ⟨?_, fun pa => ?_, fun o => ?_, fun id j hj => ?_, fun id => ?_⟩
    · unfold State.later; split <;> rfl
    · unfold State.later; split <;> rfl
    · unfold State.later; split <;> rfl
    · unfold State.later; split
      · rfl
      · rw [State.wave?_modWave]
        rw [if_neg]
        intro ⟨a, b⟩
        rcases hj with h1 | h1 <;> contradiction
    · unfold State.later; split
      · rfl
      · exact State.wg?_modWave_rest ..
  · intro r lane hl
    rcases hd r lane hl with ⟨x, v, hf, hp, hv, hr⟩ | ⟨hf, hn⟩ | ⟨rfl, hn⟩
    · rw [seen_of_filter hl hp hf, hr, hv]; rfl
    · rw [hn, Option.getD_none, Wave.seen_eq, Wave.reg_pendOver_other _ _ _ _ _ _ hl]
      · exact (Wave.seen_eq e.w e.w.pend r lane).symm
      · intro y hy; simpa using List.filter_eq_nil_iff.1 hf y hy
    · rw [hn]; simp [Wave.seen, Wave.reg, Wave.p]

/-! The writes of a general-form word. -/

/-- The writes of a vector destination that touch a register in a lane. -/
theorem filter_vecWrites (is64 : Bool) (d l v k lane : Nat) (hl : l < 64) :
    ((vecWrites is64 d l v).filter fun y => y.hits (.v k) lane) =
      if l = lane ∧ k = d then [⟨.v d, l, BitVec.ofNat 64 (v % 2 ^ 32)⟩]
      else if l = lane ∧ is64 ∧ k = d + 1 then [⟨.v (d + 1), l, BitVec.ofNat 64 (v / 2 ^ 32 % 2 ^ 32)⟩]
      else [] := by
  have hm : l % 64 = l := Nat.mod_eq_of_lt hl
  by_cases h1 : l = lane
  · subst h1
    by_cases h2 : k = d
    · subst h2
      cases is64 <;> simp [vecWrites, RegWrite.hits, hm]
    · by_cases h3 : k = d + 1
      · subst h3; cases is64 <;> simp [vecWrites, RegWrite.hits, hm]
      · cases is64 <;> simp [vecWrites, RegWrite.hits, hm, h2, h3, Ne.symm h2, Ne.symm h3]
  · cases is64 <;> simp [vecWrites, RegWrite.hits, hm, h1]

theorem filter_flatMap_lane {act : List Nat} (hn : act.Nodup) (f : Nat → List RegWrite) (p : RegWrite → Bool) (lane : Nat)
    (h0 : ∀ l ∈ act, l ≠ lane → (f l).filter p = []) :
    ((act.flatMap f).filter p) = if lane ∈ act then (f lane).filter p else [] := by
  induction act with
  | nil => simp
  | cons a r ih =>
    rw [List.nodup_cons] at hn
    have ih' := ih hn.2 fun l hl => h0 l (List.mem_cons_of_mem _ hl)
    rw [List.flatMap_cons, List.filter_append, ih']
    by_cases ha : a = lane
    · subst ha; simp [hn.1]
    · rw [h0 a List.mem_cons_self ha]; simp [Ne.symm ha]

/-- A general-form word whose destination is a register of type `dty`. -/
theorem gives_result {s : State} {h : Hdr} {f : AF} {dty : Ty} {e : Env} {i : Instr} {a b c : SrcUse} (lat : Nat)
    {body : Env → List RegWrite} (g : Nat → Nat) (hr : Ready s h none (afUses f (.reg dty.is64) a b c) e)
    (hx : exec i s = aluWord h f lat (.reg dty.is64) a b c body s) (hb : body e = e.result f dty g)
    (hd : f.u = true → f.d.toNat < 192) :
    Gives s e i (e.dest f dty g) := by
  obtain ⟨hn, hact⟩ := State.env?_act hr.1
  have hmem : ∀ r ∈ dstRegs f.u f.d (.reg dty.is64), ∀ lane, ∀ q ∈ e.w.pend, q.w.hits r lane = false := by
    intro r hr' lane
    refine Wave.no_hit_of_not_pending (hr.2.2.2 r ?_).2.2 lane
    simp [Uses.all, afUses, hr']
  refine gives_of_later hr.1 lat (e.result f dty g) ?_ ?_
  · rw [hx, aluWord, word_ready_quiet hr _ (State.later_recalls ..), hb]
  · intro r lane hl
    cases hu : f.u with
    | false =>
      have hres : e.result f dty g = e.act.flatMap fun l => vecWrites dty.is64 f.d.toNat l (g l) := by
        simp [Env.result, hu]
      rw [hres]
      cases r with
      | v k =>
        rw [filter_flatMap_lane hn _ _ lane fun l hl' hne => by
          rw [filter_vecWrites _ _ _ _ _ _ (hact l hl').1]; simp [hne]]
        by_cases hm : lane ∈ e.act
        · rw [if_pos hm, filter_vecWrites _ _ _ _ _ _ hl]
          by_cases h1 : k = f.d.toNat
          · subst h1
            left
            refine ⟨_, _, by rw [if_pos ⟨rfl, rfl⟩], hmem _ (by cases dty.is64 <;> simp [dstRegs, vregs, hu]) lane, by simp [Env.dest, hu, hm]; rfl, ?_⟩
            rw [Wave.reg_write_v _ _ _ _ _ (Nat.mod_eq_of_lt hl)]
            apply BitVec.eq_of_toNat_eq; simp
          · by_cases h2 : dty.is64 = true ∧ k = f.d.toNat + 1
            · obtain ⟨h64, rfl⟩ := h2
              left
              refine ⟨_, _, by simp [h64]; rfl, hmem _ (by simp [dstRegs, vregs, h64, hu]) lane, by simp [Env.dest, hu, hm, h64]; rfl, ?_⟩
              rw [Wave.reg_write_v _ _ _ _ _ (Nat.mod_eq_of_lt hl)]
              apply BitVec.eq_of_toNat_eq; simp
            · right; left
              refine ⟨by simp [h1]; simpa using h2, ?_⟩
              simp only [Env.dest, hu, h1, if_false]
              rw [if_neg (by simp [hm]), if_neg h2]
        · right; left
          rw [if_neg hm]; exact ⟨rfl, by simp [Env.dest, hm]⟩
      | s k =>
        right; left
        refine ⟨?_, by simp [Env.dest, hu]⟩
        rw [List.filter_eq_nil_iff]
        intro y hy
        obtain ⟨l, -, hy⟩ := List.mem_flatMap.1 hy
        simp only [vecWrites, List.mem_cons] at hy
        rcases hy with rfl | hy
        · simp [RegWrite.hits]
        · split at hy <;> simp at hy
          subst hy; simp [RegWrite.hits]
      | p k =>
        right; left
        refine ⟨?_, rfl⟩
        rw [List.filter_eq_nil_iff]
        intro y hy
        obtain ⟨l, -, hy⟩ := List.mem_flatMap.1 hy
        simp only [vecWrites, List.mem_cons] at hy
        rcases hy with rfl | hy
        · simp [RegWrite.hits]
        · split at hy <;> simp at hy
          subst hy; simp [RegWrite.hits]
      | m _ => exact .inr (.inl ⟨by rw [List.filter_eq_nil_iff]; intro y _; simp [RegWrite.hits], rfl⟩)
      | none => exact .inr (.inl ⟨by rw [List.filter_eq_nil_iff]; intro y _; simp [RegWrite.hits], rfl⟩)
    | true =>
      by_cases ha : e.act = []
      · right; left
        refine ⟨by simp [Env.result, hu, ha], ?_⟩
        cases r <;> simp [Env.dest, hu, ha]
      · have hres : e.result f dty g = [scalarWrite dty f.d.toNat (g 0)] := by simp [Env.result, hu, ha]
        have hsr : (scalarWrite dty f.d.toNat (g 0)).reg = .s f.d.toNat := rfl
        rw [hres]
        cases r with
        | s k =>
          by_cases hk : k = f.d.toNat
          · subst hk
            left
            refine ⟨_, _, by simp [RegWrite.hits, hsr]; rfl, hmem _ ?_ lane, by simp [Env.dest, hu, ha]; rfl, ?_⟩
            · simp [dstRegs, hu, sregs, hd hu]
            · simp [scalarWrite, Wave.reg_write_s]
          · right; left
            refine ⟨by simp [RegWrite.hits, hsr, Ne.symm hk], by simp [Env.dest, hk]⟩
        | v k => exact .inr (.inl ⟨by simp [RegWrite.hits, hsr], by simp [Env.dest, hu]⟩)
        | p k => exact .inr (.inl ⟨by simp [RegWrite.hits, hsr], rfl⟩)
        | m _ => exact .inr (.inl ⟨by simp [RegWrite.hits], rfl⟩)
        | none => exact .inr (.inl ⟨by simp [RegWrite.hits], rfl⟩)

/-- A comparison: it writes a predicate of the active threads. -/
theorem gives_pred {s : State} {h : Hdr} {f : AF} {e : Env} {i : Instr} {a b c : SrcUse} (lat : Nat)
    {body : Env → List RegWrite} (g : Nat → Bool) (hr : Ready s h none (afUses f .pred a b c) e)
    (hx : exec i s = aluWord h f lat .pred a b c body s) (hb : body e = e.predResult f g) (hd : f.d.toNat < 8) :
    Gives s e i (e.predDest f g) := by
  obtain ⟨hn, hact⟩ := State.env?_act hr.1
  have hmem : ∀ lane, ∀ q ∈ e.w.pend, q.w.hits (.p f.d.toNat) lane = false := by
    intro lane
    refine Wave.no_hit_of_not_pending (hr.2.2.2 _ ?_).2.2 lane
    simp [Uses.all, afUses, dstRegs]
  by_cases h7 : f.d = 7
  · refine gives_of_later hr.1 lat [] ?_ fun r lane _ => .inr (.inl ⟨rfl, ?_⟩)
    · rw [hx, aluWord, word_ready_quiet hr _ (State.later_recalls ..), hb, Env.predResult, if_pos h7]
    · cases r <;> simp +contextual [Env.predDest, h7]
  have hres : e.predResult f g = e.act.flatMap fun l => [predWrite f.d.toNat l (if f.u then g 0 else g l)] := by
    rw [Env.predResult, if_neg h7, List.map_eq_flatMap]
  refine gives_of_later hr.1 lat (e.predResult f g) ?_ ?_
  · rw [hx, aluWord, word_ready_quiet hr _ (State.later_recalls ..), hb]
  · intro r lane hl
    rw [hres]
    have hzero : ∀ l ∈ e.act, l ≠ lane →
        [predWrite f.d.toNat l (if f.u then g 0 else g l)].filter (fun y => y.hits r lane) = [] := by
      intro l _ hne; cases r <;> simp [predWrite, RegWrite.hits, hne]
    rw [filter_flatMap_lane hn _ _ lane hzero]
    cases r with
    | p k =>
      by_cases h7 : k = 7
      · subst h7; exact .inr (.inr ⟨rfl, by simp [Env.predDest]⟩)
      · by_cases hm : k = f.d.toNat ∧ lane ∈ e.act
        · obtain ⟨rfl, hm⟩ := hm
          refine .inl ⟨_, _, by rw [if_pos hm]; simp [predWrite, RegWrite.hits]; rfl, hmem lane,
            by simp [Env.predDest, hm, h7]; rfl, ?_⟩
          have := e.w.reg_write_p f.d.toNat lane (if f.u then g 0 else g lane) (by omega) (hact _ hm).2
          simpa [predWrite] using this
        · refine .inr (.inl ⟨?_, ?_⟩)
          · by_cases hl' : lane ∈ e.act
            · simp [predWrite, RegWrite.hits, hl', show ¬ f.d.toNat = k from fun h => hm ⟨h.symm, hl'⟩]
            · simp [hl']
          · simp only [Env.predDest]
            rw [if_neg (fun h => hm ⟨h.1, h.2.2⟩)]
    | v k => exact .inr (.inl ⟨by simp [predWrite, RegWrite.hits], rfl⟩)
    | s k => exact .inr (.inl ⟨by simp [predWrite, RegWrite.hits], rfl⟩)
    | m _ => exact .inr (.inl ⟨by simp [predWrite, RegWrite.hits], rfl⟩)
    | none => exact .inr (.inl ⟨by simp [predWrite, RegWrite.hits], rfl⟩)

end Sys2Proof.Machine
end

