-- ==== Sys2Proof/Laws/PerInstr.lean ====
section
/-! SUPPORT. Families of lemmas with one member per instruction. `RoundTrip`: the word of a well-formed instruction decodes
to it. -/
namespace Sys2Proof.Laws.RoundTrip

/-- The word of a well-formed instruction, where it has one, decodes to it. -/
def Statement (i : Instr) : Prop := i.wellFormed = true → ∀ w, encode i = some w → decodeWord w = .ok i

theorem of_raw {i : Instr} {w : Word} (he : encode i = some w) (h : i.wellFormed = true → rawInstr w = i) : Statement i := by
  intro hi v hv
  rw [he] at hv
  cases hv
  exact decodeWord_of_raw (h hi) hi

/-- An event has no word. -/
theorem of_none {i : Instr} (he : encode i = none) : Statement i := by
  intro _ w hw
  rw [he] at hw
  cases hw

theorem nop (h : Hdr) (f : GF) : Statement (.nop h f) := of_raw rfl fun _ => by
  rw [rawInstr_low (encodeWith_opcode 0x000 h _ (by decide)) (by decide)]
  exact congr_fields Instr.nop (encodeWith_hdr ..) (encodeWith_gf ..)
theorem bra (h : Hdr) (f : IF) : Statement (.bra h f) := of_raw rfl fun _ => by
  rw [rawInstr_low (encodeWith_opcode 0x001 h _ (by decide)) (by decide)]
  exact congr_fields Instr.bra (encodeWith_hdr ..) (encodeWith_if ..)
theorem brx (h : Hdr) (f : GF) : Statement (.brx h f) := of_raw rfl fun _ => by
  rw [rawInstr_low (encodeWith_opcode 0x002 h _ (by decide)) (by decide)]
  exact congr_fields Instr.brx (encodeWith_hdr ..) (encodeWith_gf ..)
theorem call (h : Hdr) (f : IF) : Statement (.call h f) := of_raw rfl fun _ => by
  rw [rawInstr_low (encodeWith_opcode 0x003 h _ (by decide)) (by decide)]
  exact congr_fields Instr.call (encodeWith_hdr ..) (encodeWith_if ..)
theorem callx (h : Hdr) (f : GF) : Statement (.callx h f) := of_raw rfl fun _ => by
  rw [rawInstr_low (encodeWith_opcode 0x004 h _ (by decide)) (by decide)]
  exact congr_fields Instr.callx (encodeWith_hdr ..) (encodeWith_gf ..)
theorem ret (h : Hdr) (f : GF) : Statement (.ret h f) := of_raw rfl fun _ => by
  rw [rawInstr_low (encodeWith_opcode 0x005 h _ (by decide)) (by decide)]
  exact congr_fields Instr.ret (encodeWith_hdr ..) (encodeWith_gf ..)
theorem meet (h : Hdr) (f : IF) : Statement (.meet h f) := of_raw rfl fun _ => by
  rw [rawInstr_low (encodeWith_opcode 0x006 h _ (by decide)) (by decide)]
  exact congr_fields Instr.meet (encodeWith_hdr ..) (encodeWith_if ..)
theorem unmeet (h : Hdr) (f : GF) : Statement (.unmeet h f) := of_raw rfl fun _ => by
  rw [rawInstr_low (encodeWith_opcode 0x007 h _ (by decide)) (by decide)]
  exact congr_fields Instr.unmeet (encodeWith_hdr ..) (encodeWith_gf ..)
theorem exit (h : Hdr) (f : GF) : Statement (.exit h f) := of_raw rfl fun _ => by
  rw [rawInstr_low (encodeWith_opcode 0x008 h _ (by decide)) (by decide)]
  exact congr_fields Instr.exit (encodeWith_hdr ..) (encodeWith_gf ..)
theorem yieldW (h : Hdr) (f : GF) : Statement (.yieldW h f) := of_raw rfl fun _ => by
  rw [rawInstr_low (encodeWith_opcode 0x009 h _ (by decide)) (by decide)]
  exact congr_fields Instr.yieldW (encodeWith_hdr ..) (encodeWith_gf ..)
theorem sleep (h : Hdr) (f : IF) : Statement (.sleep h f) := of_raw rfl fun _ => by
  rw [rawInstr_low (encodeWith_opcode 0x00a h _ (by decide)) (by decide)]
  exact congr_fields Instr.sleep (encodeWith_hdr ..) (encodeWith_if ..)
theorem bkpt (h : Hdr) (f : IF) : Statement (.bkpt h f) := of_raw rfl fun _ => by
  rw [rawInstr_low (encodeWith_opcode 0x00b h _ (by decide)) (by decide)]
  exact congr_fields Instr.bkpt (encodeWith_hdr ..) (encodeWith_if ..)
theorem trap (h : Hdr) (f : IF) : Statement (.trap h f) := of_raw rfl fun _ => by
  rw [rawInstr_low (encodeWith_opcode 0x00c h _ (by decide)) (by decide)]
  exact congr_fields Instr.trap (encodeWith_hdr ..) (encodeWith_if ..)
theorem trapret (h : Hdr) (f : GF) : Statement (.trapret h f) := of_raw rfl fun _ => by
  rw [rawInstr_low (encodeWith_opcode 0x00d h _ (by decide)) (by decide)]
  exact congr_fields Instr.trapret (encodeWith_hdr ..) (encodeWith_gf ..)
theorem joinImm (h : Hdr) (f : IF) : Statement (.joinImm h f) := of_raw rfl fun _ => by
  rw [rawInstr_low (encodeWith_opcode 0x00e h _ (by decide)) (by decide)]
  exact congr_fields Instr.joinImm (encodeWith_hdr ..) (encodeWith_if ..)
theorem joinReg (h : Hdr) (f : GF) : Statement (.joinReg h f) := of_raw rfl fun _ => by
  rw [rawInstr_low (encodeWith_opcode 0x00f h _ (by decide)) (by decide)]
  exact congr_fields Instr.joinReg (encodeWith_hdr ..) (encodeWith_gf ..)
theorem leaveImm (h : Hdr) (f : IF) : Statement (.leaveImm h f) := of_raw rfl fun _ => by
  rw [rawInstr_low (encodeWith_opcode 0x010 h _ (by decide)) (by decide)]
  exact congr_fields Instr.leaveImm (encodeWith_hdr ..) (encodeWith_if ..)
theorem leaveReg (h : Hdr) (f : GF) : Statement (.leaveReg h f) := of_raw rfl fun _ => by
  rw [rawInstr_low (encodeWith_opcode 0x011 h _ (by decide)) (by decide)]
  exact congr_fields Instr.leaveReg (encodeWith_hdr ..) (encodeWith_gf ..)
theorem setinfo (h : Hdr) (f : GF) : Statement (.setinfo h f) := of_raw rfl fun _ => by
  rw [rawInstr_low (encodeWith_opcode 0x012 h _ (by decide)) (by decide)]
  exact congr_fields Instr.setinfo (encodeWith_hdr ..) (encodeWith_gf ..)
theorem reggive (h : Hdr) (f : IF) : Statement (.reggive h f) := of_raw rfl fun _ => by
  rw [rawInstr_low (encodeWith_opcode 0x013 h _ (by decide)) (by decide)]
  exact congr_fields Instr.reggive (encodeWith_hdr ..) (encodeWith_if ..)
theorem regclaim (h : Hdr) (f : IF) : Statement (.regclaim h f) := of_raw rfl fun _ => by
  rw [rawInstr_low (encodeWith_opcode 0x014 h _ (by decide)) (by decide)]
  exact congr_fields Instr.regclaim (encodeWith_hdr ..) (encodeWith_if ..)
theorem spawn (h : Hdr) (f : GF) : Statement (.spawn h f) := of_raw rfl fun _ => by
  rw [rawInstr_low (encodeWith_opcode 0x015 h _ (by decide)) (by decide)]
  exact congr_fields Instr.spawn (encodeWith_hdr ..) (encodeWith_gf ..)
theorem jdec (h : Hdr) (f : GF) : Statement (.jdec h f) := of_raw rfl fun _ => by
  rw [rawInstr_low (encodeWith_opcode 0x016 h _ (by decide)) (by decide)]
  exact congr_fields Instr.jdec (encodeWith_hdr ..) (encodeWith_gf ..)
theorem npreempt (h : Hdr) (f : GF) : Statement (.npreempt h f) := of_raw rfl fun _ => by
  rw [rawInstr_low (encodeWith_opcode 0x017 h _ (by decide)) (by decide)]
  exact congr_fields Instr.npreempt (encodeWith_hdr ..) (encodeWith_gf ..)
theorem preemptok (h : Hdr) (f : GF) : Statement (.preemptok h f) := of_raw rfl fun _ => by
  rw [rawInstr_low (encodeWith_opcode 0x018 h _ (by decide)) (by decide)]
  exact congr_fields Instr.preemptok (encodeWith_hdr ..) (encodeWith_gf ..)
theorem csrrd (h : Hdr) (f : IF) : Statement (.csrrd h f) := of_raw rfl fun _ => by
  rw [rawInstr_low (encodeWith_opcode 0x019 h _ (by decide)) (by decide)]
  exact congr_fields Instr.csrrd (encodeWith_hdr ..) (encodeWith_if ..)
theorem csrwr (h : Hdr) (f : IF) : Statement (.csrwr h f) := of_raw rfl fun _ => by
  rw [rawInstr_low (encodeWith_opcode 0x01a h _ (by decide)) (by decide)]
  exact congr_fields Instr.csrwr (encodeWith_hdr ..) (encodeWith_if ..)
theorem csrset (h : Hdr) (f : IF) : Statement (.csrset h f) := of_raw rfl fun _ => by
  rw [rawInstr_low (encodeWith_opcode 0x01b h _ (by decide)) (by decide)]
  exact congr_fields Instr.csrset (encodeWith_hdr ..) (encodeWith_if ..)
theorem csrclr (h : Hdr) (f : IF) : Statement (.csrclr h f) := of_raw rfl fun _ => by
  rw [rawInstr_low (encodeWith_opcode 0x01c h _ (by decide)) (by decide)]
  exact congr_fields Instr.csrclr (encodeWith_hdr ..) (encodeWith_if ..)
theorem ptsync (h : Hdr) (f : GF) : Statement (.ptsync h f) := of_raw rfl fun _ => by
  rw [rawInstr_low (encodeWith_opcode 0x01d h _ (by decide)) (by decide)]
  exact congr_fields Instr.ptsync (encodeWith_hdr ..) (encodeWith_gf ..)
theorem iadd (h : Hdr) (f : AF) : Statement (.iadd h f) := of_raw rfl fun _ => by
  rw [rawInstr_low (encodeWith_opcode 0x080 h _ (by decide)) (by decide)]
  exact congr_fields Instr.iadd (encodeWith_hdr ..) (encodeWith_af ..)
theorem isub (h : Hdr) (f : AF) : Statement (.isub h f) := of_raw rfl fun _ => by
  rw [rawInstr_low (encodeWith_opcode 0x081 h _ (by decide)) (by decide)]
  exact congr_fields Instr.isub (encodeWith_hdr ..) (encodeWith_af ..)
theorem iaddc (h : Hdr) (f : AF) : Statement (.iaddc h f) := of_raw rfl fun _ => by
  rw [rawInstr_low (encodeWith_opcode 0x082 h _ (by decide)) (by decide)]
  exact congr_fields Instr.iaddc (encodeWith_hdr ..) (encodeWith_af ..)
theorem imul (h : Hdr) (f : AF) : Statement (.imul h f) := of_raw rfl fun _ => by
  rw [rawInstr_low (encodeWith_opcode 0x083 h _ (by decide)) (by decide)]
  exact congr_fields Instr.imul (encodeWith_hdr ..) (encodeWith_af ..)
theorem imulh (h : Hdr) (f : AF) : Statement (.imulh h f) := of_raw rfl fun _ => by
  rw [rawInstr_low (encodeWith_opcode 0x084 h _ (by decide)) (by decide)]
  exact congr_fields Instr.imulh (encodeWith_hdr ..) (encodeWith_af ..)
theorem imad (h : Hdr) (f : AF) : Statement (.imad h f) := of_raw rfl fun _ => by
  rw [rawInstr_low (encodeWith_opcode 0x085 h _ (by decide)) (by decide)]
  exact congr_fields Instr.imad (encodeWith_hdr ..) (encodeWith_af ..)
theorem imin (h : Hdr) (f : AF) : Statement (.imin h f) := of_raw rfl fun _ => by
  rw [rawInstr_low (encodeWith_opcode 0x086 h _ (by decide)) (by decide)]
  exact congr_fields Instr.imin (encodeWith_hdr ..) (encodeWith_af ..)
theorem imax (h : Hdr) (f : AF) : Statement (.imax h f) := of_raw rfl fun _ => by
  rw [rawInstr_low (encodeWith_opcode 0x087 h _ (by decide)) (by decide)]
  exact congr_fields Instr.imax (encodeWith_hdr ..) (encodeWith_af ..)
theorem iabs (h : Hdr) (f : AF) : Statement (.iabs h f) := of_raw rfl fun _ => by
  rw [rawInstr_low (encodeWith_opcode 0x088 h _ (by decide)) (by decide)]
  exact congr_fields Instr.iabs (encodeWith_hdr ..) (encodeWith_af ..)
theorem ineg (h : Hdr) (f : AF) : Statement (.ineg h f) := of_raw rfl fun _ => by
  rw [rawInstr_low (encodeWith_opcode 0x089 h _ (by decide)) (by decide)]
  exact congr_fields Instr.ineg (encodeWith_hdr ..) (encodeWith_af ..)
theorem and (h : Hdr) (f : AF) : Statement (.and h f) := of_raw rfl fun _ => by
  rw [rawInstr_low (encodeWith_opcode 0x08a h _ (by decide)) (by decide)]
  exact congr_fields Instr.and (encodeWith_hdr ..) (encodeWith_af ..)
theorem or (h : Hdr) (f : AF) : Statement (.or h f) := of_raw rfl fun _ => by
  rw [rawInstr_low (encodeWith_opcode 0x08b h _ (by decide)) (by decide)]
  exact congr_fields Instr.or (encodeWith_hdr ..) (encodeWith_af ..)
theorem xor (h : Hdr) (f : AF) : Statement (.xor h f) := of_raw rfl fun _ => by
  rw [rawInstr_low (encodeWith_opcode 0x08c h _ (by decide)) (by decide)]
  exact congr_fields Instr.xor (encodeWith_hdr ..) (encodeWith_af ..)
theorem not (h : Hdr) (f : AF) : Statement (.not h f) := of_raw rfl fun _ => by
  rw [rawInstr_low (encodeWith_opcode 0x08d h _ (by decide)) (by decide)]
  exact congr_fields Instr.not (encodeWith_hdr ..) (encodeWith_af ..)
theorem shl (h : Hdr) (f : AF) : Statement (.shl h f) := of_raw rfl fun _ => by
  rw [rawInstr_low (encodeWith_opcode 0x08e h _ (by decide)) (by decide)]
  exact congr_fields Instr.shl (encodeWith_hdr ..) (encodeWith_af ..)
theorem shr (h : Hdr) (f : AF) : Statement (.shr h f) := of_raw rfl fun _ => by
  rw [rawInstr_low (encodeWith_opcode 0x08f h _ (by decide)) (by decide)]
  exact congr_fields Instr.shr (encodeWith_hdr ..) (encodeWith_af ..)
theorem sar (h : Hdr) (f : AF) : Statement (.sar h f) := of_raw rfl fun _ => by
  rw [rawInstr_low (encodeWith_opcode 0x090 h _ (by decide)) (by decide)]
  exact congr_fields Instr.sar (encodeWith_hdr ..) (encodeWith_af ..)
theorem rot (h : Hdr) (f : AF) : Statement (.rot h f) := of_raw rfl fun _ => by
  rw [rawInstr_low (encodeWith_opcode 0x091 h _ (by decide)) (by decide)]
  exact congr_fields Instr.rot (encodeWith_hdr ..) (encodeWith_af ..)
theorem popc (h : Hdr) (f : AF) : Statement (.popc h f) := of_raw rfl fun _ => by
  rw [rawInstr_low (encodeWith_opcode 0x092 h _ (by decide)) (by decide)]
  exact congr_fields Instr.popc (encodeWith_hdr ..) (encodeWith_af ..)
theorem clz (h : Hdr) (f : AF) : Statement (.clz h f) := of_raw rfl fun _ => by
  rw [rawInstr_low (encodeWith_opcode 0x093 h _ (by decide)) (by decide)]
  exact congr_fields Instr.clz (encodeWith_hdr ..) (encodeWith_af ..)
theorem bfe (h : Hdr) (f : AF) : Statement (.bfe h f) := of_raw rfl fun _ => by
  rw [rawInstr_low (encodeWith_opcode 0x094 h _ (by decide)) (by decide)]
  exact congr_fields Instr.bfe (encodeWith_hdr ..) (encodeWith_af ..)
theorem bfi (h : Hdr) (f : AF) : Statement (.bfi h f) := of_raw rfl fun _ => by
  rw [rawInstr_low (encodeWith_opcode 0x095 h _ (by decide)) (by decide)]
  exact congr_fields Instr.bfi (encodeWith_hdr ..) (encodeWith_af ..)
theorem brev (h : Hdr) (f : AF) : Statement (.brev h f) := of_raw rfl fun _ => by
  rw [rawInstr_low (encodeWith_opcode 0x096 h _ (by decide)) (by decide)]
  exact congr_fields Instr.brev (encodeWith_hdr ..) (encodeWith_af ..)
theorem icmp (h : Hdr) (f : AF) : Statement (.icmp h f) := of_raw rfl fun _ => by
  rw [rawInstr_low (encodeWith_opcode 0x097 h _ (by decide)) (by decide)]
  exact congr_fields Instr.icmp (encodeWith_hdr ..) (encodeWith_af ..)
theorem sel (h : Hdr) (f : AF) : Statement (.sel h f) := of_raw rfl fun _ => by
  rw [rawInstr_low (encodeWith_opcode 0x098 h _ (by decide)) (by decide)]
  exact congr_fields Instr.sel (encodeWith_hdr ..) (encodeWith_af ..)
theorem mov (h : Hdr) (f : AF) : Statement (.mov h f) := of_raw rfl fun _ => by
  rw [rawInstr_low (encodeWith_opcode 0x099 h _ (by decide)) (by decide)]
  exact congr_fields Instr.mov (encodeWith_hdr ..) (encodeWith_af ..)
theorem moviImm (h : Hdr) (f : IF) : Statement (.moviImm h f) := of_raw rfl fun _ => by
  rw [rawInstr_low (encodeWith_opcode 0x09a h _ (by decide)) (by decide)]
  exact congr_fields Instr.moviImm (encodeWith_hdr ..) (encodeWith_if ..)
theorem moviLit (h : Hdr) (f : LF) : Statement (.moviLit h f) := of_raw rfl fun _ => by
  rw [rawInstr_low (encodeWith_opcode 0x09b h _ (by decide)) (by decide)]
  exact congr_fields Instr.moviLit (encodeWith_hdr ..) (encodeWith_lf ..)
theorem bcast (h : Hdr) (f : AF) : Statement (.bcast h f) := of_raw rfl fun _ => by
  rw [rawInstr_low (encodeWith_opcode 0x09c h _ (by decide)) (by decide)]
  exact congr_fields Instr.bcast (encodeWith_hdr ..) (encodeWith_af ..)
theorem readlane (h : Hdr) (f : AF) : Statement (.readlane h f) := of_raw rfl fun _ => by
  rw [rawInstr_low (encodeWith_opcode 0x09d h _ (by decide)) (by decide)]
  exact congr_fields Instr.readlane (encodeWith_hdr ..) (encodeWith_af ..)
theorem shfl (h : Hdr) (f : AF) : Statement (.shfl h f) := of_raw rfl fun _ => by
  rw [rawInstr_low (encodeWith_opcode 0x09e h _ (by decide)) (by decide)]
  exact congr_fields Instr.shfl (encodeWith_hdr ..) (encodeWith_af ..)
theorem vote (h : Hdr) (f : AF) : Statement (.vote h f) := of_raw rfl fun _ => by
  rw [rawInstr_low (encodeWith_opcode 0x09f h _ (by decide)) (by decide)]
  exact congr_fields Instr.vote (encodeWith_hdr ..) (encodeWith_af ..)
theorem wred (h : Hdr) (f : AF) : Statement (.wred h f) := of_raw rfl fun _ => by
  rw [rawInstr_low (encodeWith_opcode 0x0a0 h _ (by decide)) (by decide)]
  exact congr_fields Instr.wred (encodeWith_hdr ..) (encodeWith_af ..)
theorem scan (h : Hdr) (f : AF) : Statement (.scan h f) := of_raw rfl fun _ => by
  rw [rawInstr_low (encodeWith_opcode 0x0a1 h _ (by decide)) (by decide)]
  exact congr_fields Instr.scan (encodeWith_hdr ..) (encodeWith_af ..)
theorem fadd (h : Hdr) (f : AF) : Statement (.fadd h f) := of_raw rfl fun _ => by
  rw [rawInstr_low (encodeWith_opcode 0x100 h _ (by decide)) (by decide)]
  exact congr_fields Instr.fadd (encodeWith_hdr ..) (encodeWith_af ..)
theorem fsub (h : Hdr) (f : AF) : Statement (.fsub h f) := of_raw rfl fun _ => by
  rw [rawInstr_low (encodeWith_opcode 0x101 h _ (by decide)) (by decide)]
  exact congr_fields Instr.fsub (encodeWith_hdr ..) (encodeWith_af ..)
theorem fmul (h : Hdr) (f : AF) : Statement (.fmul h f) := of_raw rfl fun _ => by
  rw [rawInstr_low (encodeWith_opcode 0x102 h _ (by decide)) (by decide)]
  exact congr_fields Instr.fmul (encodeWith_hdr ..) (encodeWith_af ..)
theorem ffma (h : Hdr) (f : AF) : Statement (.ffma h f) := of_raw rfl fun _ => by
  rw [rawInstr_low (encodeWith_opcode 0x103 h _ (by decide)) (by decide)]
  exact congr_fields Instr.ffma (encodeWith_hdr ..) (encodeWith_af ..)
theorem fmin (h : Hdr) (f : AF) : Statement (.fmin h f) := of_raw rfl fun _ => by
  rw [rawInstr_low (encodeWith_opcode 0x104 h _ (by decide)) (by decide)]
  exact congr_fields Instr.fmin (encodeWith_hdr ..) (encodeWith_af ..)
theorem fmax (h : Hdr) (f : AF) : Statement (.fmax h f) := of_raw rfl fun _ => by
  rw [rawInstr_low (encodeWith_opcode 0x105 h _ (by decide)) (by decide)]
  exact congr_fields Instr.fmax (encodeWith_hdr ..) (encodeWith_af ..)
theorem fcmp (h : Hdr) (f : AF) : Statement (.fcmp h f) := of_raw rfl fun _ => by
  rw [rawInstr_low (encodeWith_opcode 0x106 h _ (by decide)) (by decide)]
  exact congr_fields Instr.fcmp (encodeWith_hdr ..) (encodeWith_af ..)
theorem fclass (h : Hdr) (f : AF) : Statement (.fclass h f) := of_raw rfl fun _ => by
  rw [rawInstr_low (encodeWith_opcode 0x107 h _ (by decide)) (by decide)]
  exact congr_fields Instr.fclass (encodeWith_hdr ..) (encodeWith_af ..)
theorem frcp (h : Hdr) (f : AF) : Statement (.frcp h f) := of_raw rfl fun _ => by
  rw [rawInstr_low (encodeWith_opcode 0x108 h _ (by decide)) (by decide)]
  exact congr_fields Instr.frcp (encodeWith_hdr ..) (encodeWith_af ..)
theorem frsq (h : Hdr) (f : AF) : Statement (.frsq h f) := of_raw rfl fun _ => by
  rw [rawInstr_low (encodeWith_opcode 0x109 h _ (by decide)) (by decide)]
  exact congr_fields Instr.frsq (encodeWith_hdr ..) (encodeWith_af ..)
theorem fsqrt (h : Hdr) (f : AF) : Statement (.fsqrt h f) := of_raw rfl fun _ => by
  rw [rawInstr_low (encodeWith_opcode 0x10a h _ (by decide)) (by decide)]
  exact congr_fields Instr.fsqrt (encodeWith_hdr ..) (encodeWith_af ..)
theorem fex2 (h : Hdr) (f : AF) : Statement (.fex2 h f) := of_raw rfl fun _ => by
  rw [rawInstr_low (encodeWith_opcode 0x10b h _ (by decide)) (by decide)]
  exact congr_fields Instr.fex2 (encodeWith_hdr ..) (encodeWith_af ..)
theorem flg2 (h : Hdr) (f : AF) : Statement (.flg2 h f) := of_raw rfl fun _ => by
  rw [rawInstr_low (encodeWith_opcode 0x10c h _ (by decide)) (by decide)]
  exact congr_fields Instr.flg2 (encodeWith_hdr ..) (encodeWith_af ..)
theorem fsin (h : Hdr) (f : AF) : Statement (.fsin h f) := of_raw rfl fun _ => by
  rw [rawInstr_low (encodeWith_opcode 0x10d h _ (by decide)) (by decide)]
  exact congr_fields Instr.fsin (encodeWith_hdr ..) (encodeWith_af ..)
theorem fcos (h : Hdr) (f : AF) : Statement (.fcos h f) := of_raw rfl fun _ => by
  rw [rawInstr_low (encodeWith_opcode 0x10e h _ (by decide)) (by decide)]
  exact congr_fields Instr.fcos (encodeWith_hdr ..) (encodeWith_af ..)
theorem fdivs (h : Hdr) (f : AF) : Statement (.fdivs h f) := of_raw rfl fun _ => by
  rw [rawInstr_low (encodeWith_opcode 0x10f h _ (by decide)) (by decide)]
  exact congr_fields Instr.fdivs (encodeWith_hdr ..) (encodeWith_af ..)
theorem dot2 (h : Hdr) (f : AF) : Statement (.dot2 h f) := of_raw rfl fun _ => by
  rw [rawInstr_low (encodeWith_opcode 0x110 h _ (by decide)) (by decide)]
  exact congr_fields Instr.dot2 (encodeWith_hdr ..) (encodeWith_af ..)
theorem dot4 (h : Hdr) (f : AF) : Statement (.dot4 h f) := of_raw rfl fun _ => by
  rw [rawInstr_low (encodeWith_opcode 0x111 h _ (by decide)) (by decide)]
  exact congr_fields Instr.dot4 (encodeWith_hdr ..) (encodeWith_af ..)
theorem cvt (h : Hdr) (f : AF) : Statement (.cvt h f) := of_raw rfl fun _ => by
  rw [rawInstr_low (encodeWith_opcode 0x180 h _ (by decide)) (by decide)]
  exact congr_fields Instr.cvt (encodeWith_hdr ..) (encodeWith_af ..)
theorem frnd (h : Hdr) (f : AF) : Statement (.frnd h f) := of_raw rfl fun _ => by
  rw [rawInstr_low (encodeWith_opcode 0x181 h _ (by decide)) (by decide)]
  exact congr_fields Instr.frnd (encodeWith_hdr ..) (encodeWith_af ..)
theorem pack (h : Hdr) (f : AF) : Statement (.pack h f) := of_raw rfl fun _ => by
  rw [rawInstr_low (encodeWith_opcode 0x182 h _ (by decide)) (by decide)]
  exact congr_fields Instr.pack (encodeWith_hdr ..) (encodeWith_af ..)
theorem unpk (h : Hdr) (f : AF) : Statement (.unpk h f) := of_raw rfl fun _ => by
  rw [rawInstr_low (encodeWith_opcode 0x183 h _ (by decide)) (by decide)]
  exact congr_fields Instr.unpk (encodeWith_hdr ..) (encodeWith_af ..)
theorem sladd (h : Hdr) (f : AF) : Statement (.sladd h f) := of_raw rfl fun _ => by
  rw [rawInstr_low (encodeWith_opcode 0x184 h _ (by decide)) (by decide)]
  exact congr_fields Instr.sladd (encodeWith_hdr ..) (encodeWith_af ..)
theorem slsub (h : Hdr) (f : AF) : Statement (.slsub h f) := of_raw rfl fun _ => by
  rw [rawInstr_low (encodeWith_opcode 0x185 h _ (by decide)) (by decide)]
  exact congr_fields Instr.slsub (encodeWith_hdr ..) (encodeWith_af ..)
theorem slmul (h : Hdr) (f : AF) : Statement (.slmul h f) := of_raw rfl fun _ => by
  rw [rawInstr_low (encodeWith_opcode 0x186 h _ (by decide)) (by decide)]
  exact congr_fields Instr.slmul (encodeWith_hdr ..) (encodeWith_af ..)
theorem sldiv (h : Hdr) (f : AF) : Statement (.sldiv h f) := of_raw rfl fun _ => by
  rw [rawInstr_low (encodeWith_opcode 0x187 h _ (by decide)) (by decide)]
  exact congr_fields Instr.sldiv (encodeWith_hdr ..) (encodeWith_af ..)
theorem slcmp (h : Hdr) (f : AF) : Statement (.slcmp h f) := of_raw rfl fun _ => by
  rw [rawInstr_low (encodeWith_opcode 0x188 h _ (by decide)) (by decide)]
  exact congr_fields Instr.slcmp (encodeWith_hdr ..) (encodeWith_af ..)
theorem slcvt (h : Hdr) (f : AF) : Statement (.slcvt h f) := of_raw rfl fun _ => by
  rw [rawInstr_low (encodeWith_opcode 0x189 h _ (by decide)) (by decide)]
  exact congr_fields Instr.slcvt (encodeWith_hdr ..) (encodeWith_af ..)
theorem slflg (h : Hdr) (f : AF) : Statement (.slflg h f) := of_raw rfl fun _ => by
  rw [rawInstr_low (encodeWith_opcode 0x18a h _ (by decide)) (by decide)]
  exact congr_fields Instr.slflg (encodeWith_hdr ..) (encodeWith_af ..)
theorem sllvl (h : Hdr) (f : AF) : Statement (.sllvl h f) := of_raw rfl fun _ => by
  rw [rawInstr_low (encodeWith_opcode 0x18b h _ (by decide)) (by decide)]
  exact congr_fields Instr.sllvl (encodeWith_hdr ..) (encodeWith_af ..)
theorem ld (h : Hdr) (f : MF) : Statement (.ld h f) := of_raw rfl fun hw => by
  have hv : f.var.toNat < 2 ^ 4 := by
    simp only [Instr.wellFormed, Bool.and_eq_true, decide_eq_true_eq] at hw
    omega
  have ho := encodeWith_opcode (0x200 + f.var.toNat) h f.body (by omega)
  have hr : rawInstr (encodeWith (0x200 + f.var.toNat) h f.body)
      = .ld (encodeWith (0x200 + f.var.toNat) h f.body).hdr ((encodeWith (0x200 + f.var.toNat) h f.body).mf 4) := by
    simp only [rawInstr, ho]
    rw [if_neg (by omega), if_pos (by omega)]
  rw [hr]
  exact congr_fields Instr.ld (encodeWith_hdr ..) (encodeWith_mf 0x200 4 h f (by decide) hv (by decide) (by decide))
theorem st (h : Hdr) (f : MF) : Statement (.st h f) := of_raw rfl fun hw => by
  have hv : f.var.toNat < 2 ^ 4 := by
    simp only [Instr.wellFormed, Bool.and_eq_true, decide_eq_true_eq] at hw
    omega
  have ho := encodeWith_opcode (0x210 + f.var.toNat) h f.body (by omega)
  have hr : rawInstr (encodeWith (0x210 + f.var.toNat) h f.body)
      = .st (encodeWith (0x210 + f.var.toNat) h f.body).hdr ((encodeWith (0x210 + f.var.toNat) h f.body).mf 4) := by
    simp only [rawInstr, ho]
    rw [if_neg (by omega), if_neg (by omega), if_pos (by omega)]
  rw [hr]
  exact congr_fields Instr.st (encodeWith_hdr ..) (encodeWith_mf 0x210 4 h f (by decide) hv (by decide) (by decide))
theorem lds (h : Hdr) (f : MF) : Statement (.lds h f) := of_raw rfl fun hw => by
  have hv : f.var.toNat < 2 ^ 3 := by
    simp only [Instr.wellFormed, Bool.and_eq_true, decide_eq_true_eq] at hw
    omega
  have ho := encodeWith_opcode (0x220 + f.var.toNat) h f.body (by omega)
  have hr : rawInstr (encodeWith (0x220 + f.var.toNat) h f.body)
      = .lds (encodeWith (0x220 + f.var.toNat) h f.body).hdr ((encodeWith (0x220 + f.var.toNat) h f.body).mf 3) := by
    simp only [rawInstr, ho]
    rw [if_neg (by omega), if_neg (by omega), if_neg (by omega), if_pos (by omega)]
  rw [hr]
  exact congr_fields Instr.lds (encodeWith_hdr ..) (encodeWith_mf 0x220 3 h f (by decide) hv (by decide) (by decide))
theorem pref (h : Hdr) (f : MF) : Statement (.pref h f) := of_raw rfl fun hw => by
  have hv : f.var.toNat = 0 := by
    simp only [Instr.wellFormed, Bool.and_eq_true, decide_eq_true_eq] at hw
    simp [hw.1.1.1]
  rw [rawInstr_high (encodeWith_opcode 0x228 h _ (by decide)) (by decide) (by decide) (by decide)]
  have hm := encodeWith_mf 0x228 0 h f (by decide) (by omega) (by decide) (by decide)
  rw [hv] at hm
  exact congr_fields Instr.pref (encodeWith_hdr ..) hm
theorem fence (h : Hdr) (f : GF) : Statement (.fence h f) := of_raw rfl fun _ => by
  rw [rawInstr_high (encodeWith_opcode 0x229 h _ (by decide)) (by decide) (by decide) (by decide)]
  exact congr_fields Instr.fence (encodeWith_hdr ..) (encodeWith_gf ..)
theorem fencex (h : Hdr) (f : GF) : Statement (.fencex h f) := of_raw rfl fun _ => by
  rw [rawInstr_high (encodeWith_opcode 0x22a h _ (by decide)) (by decide) (by decide) (by decide)]
  exact congr_fields Instr.fencex (encodeWith_hdr ..) (encodeWith_gf ..)
theorem clean (h : Hdr) (f : GF) : Statement (.clean h f) := of_raw rfl fun _ => by
  rw [rawInstr_high (encodeWith_opcode 0x22b h _ (by decide)) (by decide) (by decide) (by decide)]
  exact congr_fields Instr.clean (encodeWith_hdr ..) (encodeWith_gf ..)
theorem inval (h : Hdr) (f : GF) : Statement (.inval h f) := of_raw rfl fun _ => by
  rw [rawInstr_high (encodeWith_opcode 0x22c h _ (by decide)) (by decide) (by decide) (by decide)]
  exact congr_fields Instr.inval (encodeWith_hdr ..) (encodeWith_gf ..)
theorem clinv (h : Hdr) (f : GF) : Statement (.clinv h f) := of_raw rfl fun _ => by
  rw [rawInstr_high (encodeWith_opcode 0x22d h _ (by decide)) (by decide) (by decide) (by decide)]
  exact congr_fields Instr.clinv (encodeWith_hdr ..) (encodeWith_gf ..)
theorem layset (h : Hdr) (f : GF) : Statement (.layset h f) := of_raw rfl fun _ => by
  rw [rawInstr_high (encodeWith_opcode 0x22e h _ (by decide)) (by decide) (by decide) (by decide)]
  exact congr_fields Instr.layset (encodeWith_hdr ..) (encodeWith_gf ..)
theorem layget (h : Hdr) (f : GF) : Statement (.layget h f) := of_raw rfl fun _ => by
  rw [rawInstr_high (encodeWith_opcode 0x22f h _ (by decide)) (by decide) (by decide) (by decide)]
  exact congr_fields Instr.layget (encodeWith_hdr ..) (encodeWith_gf ..)
theorem laychk (h : Hdr) (f : GF) : Statement (.laychk h f) := of_raw rfl fun _ => by
  rw [rawInstr_high (encodeWith_opcode 0x238 h _ (by decide)) (by decide) (by decide) (by decide)]
  exact congr_fields Instr.laychk (encodeWith_hdr ..) (encodeWith_gf ..)
theorem atoms (h : Hdr) (f : MF) : Statement (.atoms h f) := of_raw rfl fun hw => by
  have hv : f.var.toNat < 2 ^ 3 := by
    simp only [Instr.wellFormed, Bool.and_eq_true, decide_eq_true_eq] at hw
    omega
  have ho := encodeWith_opcode (0x230 + f.var.toNat) h f.body (by omega)
  have hr : rawInstr (encodeWith (0x230 + f.var.toNat) h f.body)
      = .atoms (encodeWith (0x230 + f.var.toNat) h f.body).hdr ((encodeWith (0x230 + f.var.toNat) h f.body).mf 3) := by
    simp only [rawInstr, ho]
    rw [if_neg (by omega), if_neg (by omega), if_neg (by omega), if_neg (by omega), if_pos (by omega)]
  rw [hr]
  exact congr_fields Instr.atoms (encodeWith_hdr ..) (encodeWith_mf 0x230 3 h f (by decide) hv (by decide) (by decide))
theorem atom (h : Hdr) (f : MF) : Statement (.atom h f) := of_raw rfl fun _ => by
  have hv : f.var.toNat < 2 ^ 6 := by
    exact f.var.isLt
  have ho := encodeWith_opcode (0x240 + f.var.toNat) h f.body (by omega)
  have hr : rawInstr (encodeWith (0x240 + f.var.toNat) h f.body)
      = .atom (encodeWith (0x240 + f.var.toNat) h f.body).hdr ((encodeWith (0x240 + f.var.toNat) h f.body).mf 6) := by
    simp only [rawInstr, ho]
    rw [if_neg (by omega), if_neg (by omega), if_neg (by omega), if_neg (by omega), if_neg (by omega), if_pos (by omega)]
  rw [hr]
  exact congr_fields Instr.atom (encodeWith_hdr ..) (encodeWith_mf 0x240 6 h f (by decide) hv (by decide) (by decide))
theorem copy (h : Hdr) (f : GF) : Statement (.copy h f) := of_raw rfl fun _ => by
  rw [rawInstr_high (encodeWith_opcode 0x2c0 h _ (by decide)) (by decide) (by decide) (by decide)]
  exact congr_fields Instr.copy (encodeWith_hdr ..) (encodeWith_gf ..)
theorem copym (h : Hdr) (f : GF) : Statement (.copym h f) := of_raw rfl fun _ => by
  rw [rawInstr_high (encodeWith_opcode 0x2c1 h _ (by decide)) (by decide) (by decide) (by decide)]
  exact congr_fields Instr.copym (encodeWith_hdr ..) (encodeWith_gf ..)
theorem copyq (h : Hdr) (f : GF) : Statement (.copyq h f) := of_raw rfl fun _ => by
  rw [rawInstr_high (encodeWith_opcode 0x2c2 h _ (by decide)) (by decide) (by decide) (by decide)]
  exact congr_fields Instr.copyq (encodeWith_hdr ..) (encodeWith_gf ..)
theorem binit (h : Hdr) (f : GF) : Statement (.binit h f) := of_raw rfl fun _ => by
  rw [rawInstr_high (encodeWith_opcode 0x2c3 h _ (by decide)) (by decide) (by decide) (by decide)]
  exact congr_fields Instr.binit (encodeWith_hdr ..) (encodeWith_gf ..)
theorem barrive (h : Hdr) (f : GF) : Statement (.barrive h f) := of_raw rfl fun _ => by
  rw [rawInstr_high (encodeWith_opcode 0x2c4 h _ (by decide)) (by decide) (by decide) (by decide)]
  exact congr_fields Instr.barrive (encodeWith_hdr ..) (encodeWith_gf ..)
theorem bexpect (h : Hdr) (f : GF) : Statement (.bexpect h f) := of_raw rfl fun _ => by
  rw [rawInstr_high (encodeWith_opcode 0x2c5 h _ (by decide)) (by decide) (by decide) (by decide)]
  exact congr_fields Instr.bexpect (encodeWith_hdr ..) (encodeWith_gf ..)
theorem bwait (h : Hdr) (f : GF) : Statement (.bwait h f) := of_raw rfl fun _ => by
  rw [rawInstr_high (encodeWith_opcode 0x2c6 h _ (by decide)) (by decide) (by decide) (by decide)]
  exact congr_fields Instr.bwait (encodeWith_hdr ..) (encodeWith_gf ..)
theorem btest (h : Hdr) (f : GF) : Statement (.btest h f) := of_raw rfl fun _ => by
  rw [rawInstr_high (encodeWith_opcode 0x2c7 h _ (by decide)) (by decide) (by decide) (by decide)]
  exact congr_fields Instr.btest (encodeWith_hdr ..) (encodeWith_gf ..)
theorem reside (h : Hdr) (f : GF) : Statement (.reside h f) := of_raw rfl fun _ => by
  rw [rawInstr_high (encodeWith_opcode 0x2c8 h _ (by decide)) (by decide) (by decide) (by decide)]
  exact congr_fields Instr.reside (encodeWith_hdr ..) (encodeWith_gf ..)
theorem unreside (h : Hdr) (f : GF) : Statement (.unreside h f) := of_raw rfl fun _ => by
  rw [rawInstr_high (encodeWith_opcode 0x2c9 h _ (by decide)) (by decide) (by decide) (by decide)]
  exact congr_fields Instr.unreside (encodeWith_hdr ..) (encodeWith_gf ..)
theorem kvget (h : Hdr) (f : GF) : Statement (.kvget h f) := of_raw rfl fun _ => by
  rw [rawInstr_high (encodeWith_opcode 0x2ca h _ (by decide)) (by decide) (by decide) (by decide)]
  exact congr_fields Instr.kvget (encodeWith_hdr ..) (encodeWith_gf ..)
theorem kvput (h : Hdr) (f : GF) : Statement (.kvput h f) := of_raw rfl fun _ => by
  rw [rawInstr_high (encodeWith_opcode 0x2cb h _ (by decide)) (by decide) (by decide) (by decide)]
  exact congr_fields Instr.kvput (encodeWith_hdr ..) (encodeWith_gf ..)
theorem kvpin (h : Hdr) (f : GF) : Statement (.kvpin h f) := of_raw rfl fun _ => by
  rw [rawInstr_high (encodeWith_opcode 0x2cc h _ (by decide)) (by decide) (by decide) (by decide)]
  exact congr_fields Instr.kvpin (encodeWith_hdr ..) (encodeWith_gf ..)
theorem kvdrop (h : Hdr) (f : GF) : Statement (.kvdrop h f) := of_raw rfl fun _ => by
  rw [rawInstr_high (encodeWith_opcode 0x2cd h _ (by decide)) (by decide) (by decide) (by decide)]
  exact congr_fields Instr.kvdrop (encodeWith_hdr ..) (encodeWith_gf ..)
theorem mma (h : Hdr) (f : XF) : Statement (.mma h f) := of_raw rfl fun _ => by
  rw [rawInstr_high (encodeWith_opcode 0x300 h _ (by decide)) (by decide) (by decide) (by decide)]
  exact congr_fields Instr.mma (encodeWith_hdr ..) (encodeWith_xf ..)
theorem accz (h : Hdr) (f : GF) : Statement (.accz h f) := of_raw rfl fun _ => by
  rw [rawInstr_high (encodeWith_opcode 0x301 h _ (by decide)) (by decide) (by decide) (by decide)]
  exact congr_fields Instr.accz (encodeWith_hdr ..) (encodeWith_gf ..)
theorem accld (h : Hdr) (f : GF) : Statement (.accld h f) := of_raw rfl fun _ => by
  rw [rawInstr_high (encodeWith_opcode 0x302 h _ (by decide)) (by decide) (by decide) (by decide)]
  exact congr_fields Instr.accld (encodeWith_hdr ..) (encodeWith_gf ..)
theorem accrd (h : Hdr) (f : GF) : Statement (.accrd h f) := of_raw rfl fun _ => by
  rw [rawInstr_high (encodeWith_opcode 0x303 h _ (by decide)) (by decide) (by decide) (by decide)]
  exact congr_fields Instr.accrd (encodeWith_hdr ..) (encodeWith_gf ..)
theorem drain (h : Hdr) (f : GF) : Statement (.drain h f) := of_raw rfl fun _ => by
  rw [rawInstr_high (encodeWith_opcode 0x304 h _ (by decide)) (by decide) (by decide) (by decide)]
  exact congr_fields Instr.drain (encodeWith_hdr ..) (encodeWith_gf ..)
theorem lred (h : Hdr) (f : GF) : Statement (.lred h f) := of_raw rfl fun _ => by
  rw [rawInstr_high (encodeWith_opcode 0x305 h _ (by decide)) (by decide) (by decide) (by decide)]
  exact congr_fields Instr.lred (encodeWith_hdr ..) (encodeWith_gf ..)
theorem lredw (h : Hdr) (f : GF) : Statement (.lredw h f) := of_raw rfl fun _ => by
  rw [rawInstr_high (encodeWith_opcode 0x306 h _ (by decide)) (by decide) (by decide) (by decide)]
  exact congr_fields Instr.lredw (encodeWith_hdr ..) (encodeWith_gf ..)
theorem lxpose (h : Hdr) (f : GF) : Statement (.lxpose h f) := of_raw rfl fun _ => by
  rw [rawInstr_high (encodeWith_opcode 0x307 h _ (by decide)) (by decide) (by decide) (by decide)]
  exact congr_fields Instr.lxpose (encodeWith_hdr ..) (encodeWith_gf ..)
theorem clauseSelect (core part : Nat) : Statement (.clauseSelect core part) := of_none rfl
theorem resultLands (id : Nat) : Statement (.resultLands id) := of_none rfl
theorem pebbleGrant (id : Nat) : Statement (.pebbleGrant id) := of_none rfl
theorem matrixQueueEntry (core : Nat) : Statement (.matrixQueueEntry core) := of_none rfl
theorem regDeadlock (wg part : Nat) : Statement (.regDeadlock wg part) := of_none rfl
theorem sleepExpiry (wg wave lane : Nat) : Statement (.sleepExpiry wg wave lane) := of_none rfl
theorem yieldExpiry (wg wave : Nat) : Statement (.yieldExpiry wg wave) := of_none rfl
theorem npreemptBoundExpiry (wg : Nat) : Statement (.npreemptBoundExpiry wg) := of_none rfl
theorem storeBufferTimeout (core : Nat) : Statement (.storeBufferTimeout core) := of_none rfl
theorem generationAdvance (core : Nat) : Statement (.generationAdvance core) := of_none rfl
theorem l1Sweep (core : Nat) : Statement (.l1Sweep core) := of_none rfl
theorem l1Fill (id : Nat) : Statement (.l1Fill id) := of_none rfl
theorem lodeAccess (id : Nat) : Statement (.lodeAccess id) := of_none rfl
theorem lineFillReturn (id : Nat) : Statement (.lineFillReturn id) := of_none rfl
theorem pageWalkComplete (id : Nat) : Statement (.pageWalkComplete id) := of_none rfl
theorem deferredInstall (id : Nat) : Statement (.deferredInstall id) := of_none rfl
theorem albInvalidate (inv core : Nat) : Statement (.albInvalidate inv core) := of_none rfl
theorem lodeTbInvalidate (inv lode : Nat) : Statement (.lodeTbInvalidate inv lode) := of_none rfl
theorem shootdownAck (inv : Nat) : Statement (.shootdownAck inv) := of_none rfl
theorem lineWriteback (id : Nat) : Statement (.lineWriteback id) := of_none rfl
theorem rawFlakesGranted (frame : Nat) : Statement (.rawFlakesGranted frame) := of_none rfl
theorem stuckLineWriteback (q : Nat) : Statement (.stuckLineWriteback q) := of_none rfl
theorem balloonReclaim (q : Nat) : Statement (.balloonReclaim q) := of_none rfl
theorem tumblerMigration (q : Nat) : Statement (.tumblerMigration q) := of_none rfl
theorem hostWriteHoldTimeout (id : Nat) : Statement (.hostWriteHoldTimeout id) := of_none rfl
theorem query (q frame : Nat) (sec : Bool) : Statement (.query q frame sec) := of_none rfl
theorem donate (q frame : Nat) (sec : Bool) : Statement (.donate q frame sec) := of_none rfl
theorem withdraw (q frame : Nat) (sec : Bool) : Statement (.withdraw q frame sec) := of_none rfl
theorem recode (q frame : Nat) (fmt : BitVec 4) (sec : Bool) : Statement (.recode q frame fmt sec) := of_none rfl
theorem toRaw (q frame : Nat) (sec : Bool) : Statement (.toRaw q frame sec) := of_none rfl
theorem toCmp (q frame : Nat) (fmt : BitVec 4) (sec : Bool) : Statement (.toCmp q frame fmt sec) := of_none rfl
theorem migrate (q frame lode : Nat) (sec : Bool) : Statement (.migrate q frame lode sec) := of_none rfl
theorem tmbBadOp (q : Nat) (op : BitVec 4) (sec : Bool) : Statement (.tmbBadOp q op sec) := of_none rfl
theorem tmbCmdDone (q : Nat) : Statement (.tmbCmdDone q) := of_none rfl
theorem tmbCtlWrite (v : Word) (sec : Bool) : Statement (.tmbCtlWrite v sec) := of_none rfl
theorem xltSyncGo (q : Nat) (sec : Bool) : Statement (.xltSyncGo q sec) := of_none rfl
theorem xltRmapClear (q frame : Nat) (sec : Bool) : Statement (.xltRmapClear q frame sec) := of_none rfl
theorem strRoleWrite (lode : Nat) (v : Word) (sec : Bool) : Statement (.strRoleWrite lode v sec) := of_none rfl
theorem roleChangeApplied (lode : Nat) : Statement (.roleChangeApplied lode) := of_none rfl
theorem siteLoss (lode site : Nat) : Statement (.siteLoss lode site) := of_none rfl
theorem rebuildComplete (lode : Nat) : Statement (.rebuildComplete lode) := of_none rfl
theorem busLoss (lode : Nat) (busB : Bool) : Statement (.busLoss lode busB) := of_none rfl
theorem contractAdmission (id : Nat) : Statement (.contractAdmission id) := of_none rfl
theorem contractRelease (id : Nat) : Statement (.contractRelease id) := of_none rfl
theorem kvLodeOperation (id : Nat) : Statement (.kvLodeOperation id) := of_none rfl
theorem kvAgeTick (lode : Nat) : Statement (.kvAgeTick lode) := of_none rfl
theorem lredContribution (id : Nat) : Statement (.lredContribution id) := of_none rfl
theorem lredContributionRetry (id : Nat) : Statement (.lredContributionRetry id) := of_none rfl
theorem lredCloseRetry (id : Nat) : Statement (.lredCloseRetry id) := of_none rfl
theorem chunkSourceRead (id chunk : Nat) : Statement (.chunkSourceRead id chunk) := of_none rfl
theorem chunkDelivery (id chunk part : Nat) : Statement (.chunkDelivery id chunk part) := of_none rfl
theorem copyComplete (id : Nat) : Statement (.copyComplete id) := of_none rfl
theorem lxposeComplete (id : Nat) : Statement (.lxposeComplete id) := of_none rfl
theorem poolApply (core : Nat) (v : Word) (sec : Bool) : Statement (.poolApply core v sec) := of_none rfl
theorem poolApplyDone (core : Nat) : Statement (.poolApplyDone core) := of_none rfl
theorem recordTake (q queue : Nat) : Statement (.recordTake q queue) := of_none rfl
theorem workgroupPlacement (q : Nat) (cores : List Nat) : Statement (.workgroupPlacement q cores) := of_none rfl
theorem priorityAging (rec : Nat) : Statement (.priorityAging rec) := of_none rfl
theorem recordComplete (rec : Nat) : Statement (.recordComplete rec) := of_none rfl
theorem queueEnableWrite (q : Nat) (v : Word) (sec : Bool) : Statement (.queueEnableWrite q v sec) := of_none rfl
theorem vacate (q : Nat) (sec : Bool) : Statement (.vacate q sec) := of_none rfl
theorem reopen (q : Nat) (sec : Bool) : Statement (.reopen q sec) := of_none rfl
theorem schBadOp (q : Nat) (op : BitVec 4) (sec : Bool) : Statement (.schBadOp q op sec) := of_none rfl
theorem vacateDone (q : Nat) : Statement (.vacateDone q) := of_none rfl
theorem thermalVacate (core : Nat) (total : BitVec 13) : Statement (.thermalVacate core total) := of_none rfl
theorem pebbleTotalChange (total : BitVec 13) : Statement (.pebbleTotalChange total) := of_none rfl
theorem contextSave (wg : Nat) : Statement (.contextSave wg) := of_none rfl
theorem saveChunkTimeout (wg : Nat) : Statement (.saveChunkTimeout wg) := of_none rfl
theorem workgroupRestore (img : Nat) (cores : List Nat) : Statement (.workgroupRestore img cores) := of_none rfl
theorem lodeFaultReturn (id : Nat) : Statement (.lodeFaultReturn id) := of_none rfl
theorem parkedReportRetry (id : Nat) : Statement (.parkedReportRetry id) := of_none rfl
theorem fltResume (q ctx fault : Nat) (sec : Bool) : Statement (.fltResume q ctx fault sec) := of_none rfl
theorem deliver (q ctx fault : Nat) (sec : Bool) : Statement (.deliver q ctx fault sec) := of_none rfl
theorem kill (q ctx : Nat) (sec : Bool) : Statement (.kill q ctx sec) := of_none rfl
theorem fltBadOp (q : Nat) (op : BitVec 4) (sec : Bool) : Statement (.fltBadOp q op sec) := of_none rfl
theorem killComplete (q : Nat) : Statement (.killComplete q) := of_none rfl
theorem ueDetected (loc : ErrLoc) : Statement (.ueDetected loc) := of_none rfl
theorem correctedError (loc : ErrLoc) : Statement (.correctedError loc) := of_none rfl
theorem selfTest (loc : ErrLoc) (pass : Bool) : Statement (.selfTest loc pass) := of_none rfl
theorem auditReplay (rec : Nat) (cores : List (List Nat)) : Statement (.auditReplay rec cores) := of_none rfl
theorem auditVerdict (rec : Nat) : Statement (.auditVerdict rec) := of_none rfl
theorem auditVote (rec : Nat) : Statement (.auditVote rec) := of_none rfl
theorem auditHoldTimeout (id : Nat) : Statement (.auditHoldTimeout id) := of_none rfl
theorem hostRead (pa n : Nat) : Statement (.hostRead pa n) := of_none rfl
theorem hostWrite (pa : Nat) (data : List Byte) : Statement (.hostWrite pa data) := of_none rfl
theorem hostAtomic (pa : Nat) (op : BitVec 4) (x cmp : Word) : Statement (.hostAtomic pa op x cmp) := of_none rfl
theorem hostOwnershipRequest (pa : Nat) : Statement (.hostOwnershipRequest pa) := of_none rfl
theorem backinvalResponse (id : Nat) (data : Option (List Byte)) : Statement (.backinvalResponse id data) := of_none rfl
theorem leaseTimeout (id : Nat) : Statement (.leaseTimeout id) := of_none rfl
theorem verSelWrite (v : Word) : Statement (.verSelWrite v) := of_none rfl
theorem linkTraining (link : Nat) (peer : BitVec 16) (peerMin peerMax : BitVec 4) : Statement (.linkTraining link peer peerMin peerMax) := of_none rfl
theorem laneFailure (link lane : Nat) : Statement (.laneFailure link lane) := of_none rfl
theorem heartbeatTimeout (link : Nat) : Statement (.heartbeatTimeout link) := of_none rfl
theorem norhaRequest (link : Nat) (slice : Option Nat) (op : NorhaOp) : Statement (.norhaRequest link slice op) := of_none rfl
theorem worldAssignWrite (off : Nat) (v : Word) (sec : Bool) : Statement (.worldAssignWrite off v sec) := of_none rfl
theorem quiesce (quarters : BitVec 4) (sec : Bool) : Statement (.quiesce quarters sec) := of_none rfl
theorem quiesceComplete (q : Nat) : Statement (.quiesceComplete q) := of_none rfl
theorem flush (quarters : BitVec 4) (sec : Bool) : Statement (.flush quarters sec) := of_none rfl
theorem merge (quarters : BitVec 4) (sec : Bool) : Statement (.merge quarters sec) := of_none rfl
theorem split (quarters : BitVec 4) (sec : Bool) : Statement (.split quarters sec) := of_none rfl
theorem partResume (quarters : BitVec 4) (sec : Bool) : Statement (.partResume quarters sec) := of_none rfl
theorem partBadOp (op : BitVec 4) (sec : Bool) : Statement (.partBadOp op sec) := of_none rfl
theorem partHostHoldTimeout (id : Nat) : Statement (.partHostHoldTimeout id) := of_none rfl
theorem coreRetentionSleep (core : Nat) : Statement (.coreRetentionSleep core) := of_none rfl
theorem coreWake (core : Nat) : Statement (.coreWake core) := of_none rfl
theorem lodeRetentionSleep (lode : Nat) : Statement (.lodeRetentionSleep lode) := of_none rfl
theorem lodeWake (lode : Nat) : Statement (.lodeWake lode) := of_none rfl
theorem challenge (nonce : List Byte) : Statement (.challenge nonce) := of_none rfl
theorem pldmFirmwareUpdate (image : List Byte) : Statement (.pldmFirmwareUpdate image) := of_none rfl
theorem registerWrite (off : Nat) (v : Word) (sec : Bool) : Statement (.registerWrite off v sec) := of_none rfl
theorem illegalOpcode (w : Word) : Statement (.illegalOpcode w) := of_raw rfl fun hw => rawInstr_unassigned hw
theorem cxlRequestCompletion (id : Nat) (data : Option (List Byte)) : Statement (.cxlRequestCompletion id data) := of_none rfl
theorem norhaResponse (id : Nat) (data : Option (List Byte)) : Statement (.norhaResponse id data) := of_none rfl
theorem thermalRowGating (die : Nat) (on : Bool) : Statement (.thermalRowGating die on) := of_none rfl
theorem coreClockChange (mhz : Nat) : Statement (.coreClockChange mhz) := of_none rfl
theorem startStage0 : Statement (.startStage0) := of_none rfl
theorem startStage1 : Statement (.startStage1) := of_none rfl
theorem startStage2 : Statement (.startStage2) := of_none rfl
theorem getVersion : Statement (.getVersion) := of_none rfl
theorem getCapabilities : Statement (.getCapabilities) := of_none rfl
theorem negotiateAlgorithms : Statement (.negotiateAlgorithms) := of_none rfl
theorem getDigests : Statement (.getDigests) := of_none rfl
theorem getCertificate : Statement (.getCertificate) := of_none rfl
theorem getMeasurements : Statement (.getMeasurements) := of_none rfl
theorem spdmUnsupported : Statement (.spdmUnsupported) := of_none rfl
theorem pldmSensorRead : Statement (.pldmSensorRead) := of_none rfl

end Sys2Proof.Laws.RoundTrip
end

