-- ==== Sys2Proof/Laws/Threads.lean ====
section
/-! SUPPORT. Words that change threads: lanes of a wave, the test of its meetings, the clause in progress. -/
namespace Sys2Proof.Machine

theorem Wave.thread_mapIdx (w : Wave) (f : Nat → Thread → Thread) (l : Nat) :
    ({ w with threads := w.threads.mapIdx f } : Wave).thread l =
      if l < w.threads.length then f l (w.thread l) else w.thread l := by
  simp only [Wave.thread, List.getD_eq_getElem?_getD, List.getElem?_mapIdx]
  by_cases h : l < w.threads.length
  · simp [h]
  · simp [h]

theorem Wave.thread_modLanes (w : Wave) (g : BitVec 64) (f : Nat → Thread → Thread) (l : Nat) :
    (w.modLanes g f).thread l = if bitAt g l = true ∧ l < w.threads.length then f l (w.thread l) else w.thread l := by
  simp only [Wave.modLanes, Wave.thread_mapIdx]
  by_cases h : l < w.threads.length <;> simp [h]

theorem bitAt_foldl_or (l : List Nat) (m : BitVec 64) (i : Nat) :
    bitAt (l.foldl (fun m i => m ||| (1#64 <<< i)) m) i = (bitAt m i || (decide (i ∈ l) && decide (i < 64))) := by
  induction l generalizing m with
  | nil => simp
  | cons a r ih =>
    rw [List.foldl_cons, ih, bitAt_or]
    have h1 : bitAt (1#64 <<< a) i = (decide (i = a) && decide (i < 64)) := by
      simp only [bitAt, BitVec.getLsbD_shiftLeft, BitVec.getLsbD_one]
      by_cases h : i = a
      · subst h; simp
      · by_cases h2 : i < a
        · simp [h, h2]
        · have : i - a ≠ 0 := by omega
          simp [h, h2, this]
    rw [h1]
    by_cases h : i = a
    · subst h; cases bitAt m i <;> simp
    · simp [h]

theorem bitAt_maskOf (l : List Nat) (i : Nat) : bitAt (maskOf l) i = (decide (i ∈ l) && decide (i < 64)) := by
  simp only [maskOf, bitAt_foldl_or]; simp [bitAt]

/-- The test of the meetings leaves each thread as `Settles` says. -/
theorem Wave.settle_settles (w : Wave) (running : BitVec 64) (l : Nat) :
    Settles (bitAt running l) (w.thread l) ((w.settle running).thread l) := by
  rw [Wave.settle, Wave.thread_mapIdx]
  by_cases hl : l < w.threads.length
  · simp only [hl, if_true]
    split
    · rename_i h
      simp only [Bool.and_eq_true] at h
      exact .inr ⟨h.1, .inr rfl⟩
    · split
      · rename_i h; exact .inr ⟨h, .inl rfl⟩
      · exact .inl rfl
  · simp only [hl, if_false]; exact .inl rfl

theorem Settles.preds {b : Bool} {x y : Thread} (h : Settles b x y) : y.preds = x.preds := by
  rcases h with rfl | ⟨-, rfl | rfl⟩ <;> rfl

@[simp] theorem Wave.settle_threads_length (w : Wave) (r : BitVec 64) : (w.settle r).threads.length = w.threads.length := by
  simp [Wave.settle]

@[simp] theorem Wave.modLanes_threads_length (w : Wave) (g : BitVec 64) (f : Nat → Thread → Thread) :
    (w.modLanes g f).threads.length = w.threads.length := by simp [Wave.modLanes]

/-- Registers do not depend on anything of a thread but its predicates. -/
theorem Wave.seen_threads {u v : Wave} (hv : v.vregs = u.vregs) (hs : v.sregs = u.sregs) (hp : v.pend = u.pend)
    (hl : v.threads.length = u.threads.length) (ht : ∀ l, (v.thread l).preds = (u.thread l).preds) (r : Reg) (lane : Nat)
    (h : lane < 64) : v.seen r lane = u.seen r lane := by
  have hu : u.seen r lane = (u.writeAll (u.pend.map (·.w))).reg r lane := Wave.seen_eq u u.pend r lane
  have hw : v.seen r lane = (v.writeAll (v.pend.map (·.w))).reg r lane := Wave.seen_eq v v.pend r lane
  rw [hu, hw, hp]
  refine Wave.reg_writeAll_congr _ h ?_ hl
  cases r <;> simp [Wave.reg, Wave.v, Wave.s, Wave.p, hv, hs, ht]

@[simp] theorem State.head_modHead (s : State) (f : Issue → Issue) : (s.modHead f).head = s.head.map f := by
  simp only [State.head, State.modHead]; cases s.running <;> rfl

@[simp] theorem State.modHead_wg? (s : State) (f : Issue → Issue) (id : Nat) : (s.modHead f).wg? id = s.wg? id := rfl
@[simp] theorem State.modHead_wave? (s : State) (f : Issue → Issue) (id k : Nat) :
    (s.modHead f).wave? id k = s.wave? id k := rfl

/-- A change of the head clause's group leaves every clause but its group. -/
theorem State.modHead_group (s : State) (g : BitVec 64) :
    (s.leaveClause g).running.map (fun c => { c with group := 0 }) = s.running.map (fun c => { c with group := 0 }) := by
  simp only [State.leaveClause, State.modHead]; cases s.running <;> rfl

/-- A chain of wave updates changes nothing around the wave. -/
theorem Around.refl (s : State) (wg k : Nat) : Around s s wg k := ⟨rfl, fun _ => rfl, fun _ => rfl, rfl, fun _ _ _ => rfl, fun _ => rfl⟩

theorem Around.modWave {s t : State} {wg k : Nat} (h : Around s t wg k) (f : Wave → Wave) : Around s (t.modWave wg k f) wg k := by
  obtain ⟨h1, h2, h3, h4, h5, h6⟩ := h
  refine ⟨?_, h2, h3, h4, fun id j hj => ?_, fun id => ?_⟩
  · rw [h1]; rfl
  · rw [State.wave?_modWave, if_neg (by rintro ⟨rfl, rfl⟩; simp at hj)]; exact h5 id j hj
  · rw [State.wg?_modWave_rest]; exact h6 id

theorem Around.leaveClause {s t : State} {wg k : Nat} (h : Around s t wg k) (g : BitVec 64) :
    Around s (t.leaveClause g) wg k := by
  obtain ⟨h1, h2, h3, h4, h5, h6⟩ := h
  exact ⟨by rw [h1]; rfl, h2, h3, by rw [State.modHead_group]; exact h4, h5, h6⟩

theorem Around.settle {s t : State} {wg k : Nat} (h : Around s t wg k) : Around s (t.settle wg k) wg k := h.modWave _

theorem Around.later {s t : State} {wg k : Nat} (h : Around s t wg k) (e : Env) (he : e.iss.wg = wg ∧ e.iss.wave = k)
    (lat : Nat) (l : List RegWrite) : Around s (t.later e lat l) wg k := by
  obtain ⟨rfl, rfl⟩ := he
  unfold State.later; split
  · exact h
  · exact h.modWave _

/-! Words that change their active threads. -/

theorem State.wave?_later {s : State} {e : Env} {w : Wave} (h : s.wave? e.iss.wg e.iss.wave = some w) (lat : Nat)
    (l : List RegWrite) :
    (s.later e lat l).wave? e.iss.wg e.iss.wave = some { w with pend := pendOver (s.clk + lat) w.pend l } := by
  unfold State.later
  split
  · rename_i hl; subst hl; simpa [pendOver] using h
  · rw [State.wave?_modWave]; simp [h, Wave.pendAt_eq]

theorem State.wave?_now {s : State} {e : Env} {w : Wave} (h : s.wave? e.iss.wg e.iss.wave = some w) (f : Wave → Wave) :
    (s.now e f).wave? e.iss.wg e.iss.wave = some (f w) := by
  simp [State.now, State.wave?_modWave, h]

theorem State.wave?_settle {s : State} {wg k : Nat} {w : Wave} (h : s.wave? wg k = some w) :
    (s.settle wg k).wave? wg k = some (w.settle (s.runningLanes wg k)) := by
  simp [State.settle, State.wave?_modWave, h]

/-- What registers read after fixed-latency writes on top of those in flight. -/
theorem seen_later (w : Wave) (clk : Nat) (l : List RegWrite) (dst : Reg → Nat → Option Word) (r : Reg) (lane : Nat)
    (hl : lane < 64)
    (hd : (∃ x v, (l.filter fun y => y.hits r lane) = [x] ∧ (∀ q ∈ w.pend, q.w.hits r lane = false)
        ∧ dst r lane = some v ∧ (w.write x).reg r lane = v)
      ∨ ((l.filter fun y => y.hits r lane) = [] ∧ dst r lane = none)
      ∨ (r = .p 7 ∧ dst r lane = none)) :
    Wave.seen { w with pend := pendOver clk w.pend l } r lane = (dst r lane).getD (w.seen r lane) := by
  rcases hd with ⟨x, v, hf, hp, hv, hr⟩ | ⟨hf, hn⟩ | ⟨rfl, hn⟩
  · obtain ⟨a, b, rfl, ha, -, hb⟩ := List.filter_eq_cons_iff.1 hf
    rw [Wave.seen_eq, w.reg_pendOver_one clk w.pend a b x r lane hl hp (fun y hy => by simpa using ha y hy)
      (fun y hy => by simpa using List.filter_eq_nil_iff.1 hb y hy), hr, hv]; rfl
  · rw [hn, Option.getD_none, Wave.seen_eq, Wave.reg_pendOver_other _ _ _ _ _ _ hl]
    · exact (Wave.seen_eq w w.pend r lane).symm
    · intro y hy; simpa using List.filter_eq_nil_iff.1 hf y hy
  · rw [hn]; simp [Wave.seen, Wave.reg, Wave.p]

/-- Active lanes as a mask. -/
theorem bitAt_act {s : State} {h : Hdr} {e : Env} (he : s.env? h = some e) (l : Nat) :
    bitAt (maskOf e.act) l = decide (l ∈ e.act) := by
  rw [bitAt_maskOf]
  by_cases hl : l ∈ e.act
  · simp [hl, ((State.env?_act he).2 l hl).1]
  · simp [hl]

/-- AN ENDER: its active threads leave the clause, changed by `f`, and its writes land. -/
theorem threads_leave {s : State} {h : Hdr} {e : Env} {i : Instr} {u : Uses} {body : Env → State → State}
    (hr : Ready s h none u e) (hx : exec i s = word h none u body s) (f : Nat → Thread → Thread) (lat : Nat)
    (l : List RegWrite) (dst : Reg → Nat → Option Word)
    (hb : body e s = (((s.leaveClause (maskOf e.act)).now e fun w => w.modLanes (maskOf e.act) f).later e lat l).settle
      e.iss.wg e.iss.wave)
    (hf : ∀ k t, (f k t).preds = t.preds)
    (hd : ∀ r lane, lane < 64 →
      (∃ x v, (l.filter fun y => y.hits r lane) = [x] ∧ (∀ q ∈ e.w.pend, q.w.hits r lane = false)
        ∧ dst r lane = some v ∧ ∀ w : Wave, (w.write x).reg r lane = v)
      ∨ ((l.filter fun y => y.hits r lane) = [] ∧ dst r lane = none)) :
    Threads s e i true f dst := by
  have hw := State.env?_wave hr.1
  obtain ⟨-, hact⟩ := State.env?_act hr.1
  have hq : (body e s).recalls = s.recalls := by
    rw [hb]; simp only [State.settle, State.modWave_recalls, State.later_recalls, State.now]; rfl
  rw [Threads, hx, word_ready_quiet hr body hq, hb]
  have h1 : (s.leaveClause (maskOf e.act)).wave? e.iss.wg e.iss.wave = some e.w := hw
  have h2 := State.wave?_now h1 fun w => w.modLanes (maskOf e.act) f
  have h3 := State.wave?_later h2 lat l
  have hrun : ∀ t : State, t.running = (s.leaveClause (maskOf e.act)).running →
      t.runningLanes e.iss.wg e.iss.wave = (s.leaveClause (maskOf e.act)).runningLanes e.iss.wg e.iss.wave := by
    intro t ht; simp only [State.runningLanes, ht]
  have hrl : (((s.leaveClause (maskOf e.act)).now e fun w => w.modLanes (maskOf e.act) f).later e lat l).running
      = (s.leaveClause (maskOf e.act)).running := by
    unfold State.later; split <;> rfl
  have hth : ∀ k, (e.w.modLanes (maskOf e.act) f).thread k = if k ∈ e.act then f k (e.w.thread k) else e.w.thread k := by
    intro k
    rw [Wave.thread_modLanes, bitAt_act hr.1]
    by_cases hk : k ∈ e.act
    · simp [hk, (hact k hk).2]
    · simp [hk]
  refine ⟨_, _, rfl, State.wave?_settle h3,
    ((((Around.refl s _ _).leaveClause _).modWave _).later e ⟨rfl, rfl⟩ _ _).settle, ?_, fun k => ?_, fun r lane hl => ?_⟩
  · have : ((((s.leaveClause (maskOf e.act)).now e fun w => w.modLanes (maskOf e.act) f).later e lat l).settle e.iss.wg
        e.iss.wave).head = (s.leaveClause (maskOf e.act)).head := by
      simp only [State.head]; rw [← hrl]; rfl
    rw [this]; simp [State.leaveClause, (State.env?_some hr.1).1]
  · have := Wave.settle_settles { (e.w.modLanes (maskOf e.act) f) with
      pend := pendOver (((s.leaveClause (maskOf e.act)).now e fun w => w.modLanes (maskOf e.act) f).clk + lat)
        (e.w.modLanes (maskOf e.act) f).pend l }
      ((((s.leaveClause (maskOf e.act)).now e fun w => w.modLanes (maskOf e.act) f).later e lat l).runningLanes e.iss.wg e.iss.wave) k
    rw [← hth k]
    exact this
  · rw [Wave.seen_threads (u := { e.w with pend := pendOver (s.clk + lat) e.w.pend l })]
    · refine seen_later e.w _ l dst r lane hl ?_
      rcases hd r lane hl with ⟨x, v, a, b, c, d⟩ | ⟨a, b⟩
      · exact .inl ⟨x, v, a, b, c, d _⟩
      · exact .inr (.inl ⟨a, b⟩)
    · rfl
    · rfl
    · rfl
    · simp [Wave.settle, Wave.modLanes]
    · intro k
      rw [(Wave.settle_settles _ _ k).preds]
      show ((e.w.modLanes (maskOf e.act) f).thread k).preds = (e.w.thread k).preds
      rw [hth k]; split
      · exact hf k _
      · rfl
    · exact hl

/-- A branch all of whose targets exist, as `threads_leave` takes it. -/
theorem State.branch_eq (s : State) (e : Env) (tg : Nat → Int) (link : Nat → List RegWrite)
    (h : ∀ l ∈ e.act, 0 ≤ tg l ∧ tg l < 2 ^ 57) :
    s.branch e tg link = (((s.leaveClause (maskOf e.act)).now e fun w => w.modLanes (maskOf e.act) fun l t =>
      { t with pc := pcAt (BitVec.ofInt 57 (tg l)) }).later e 1 (e.act.flatMap link)).settle e.iss.wg e.iss.wave := by
  have hgo : e.act.filter (fun l => decide (0 ≤ tg l) && decide (tg l < 2 ^ 57)) = e.act := by
    apply List.filter_eq_self.2; intro l hl; simpa using h l hl
  have hno : e.act.filter (fun l => !(decide (0 ≤ tg l) && decide (tg l < 2 ^ 57))) = [] := by
    apply List.filter_eq_nil_iff.2; intro l hl; simpa using h l hl
  simp only [State.branch, hgo, hno, List.map_nil, State.laneTraps, if_true]

/-- The test of a rod with no bead does nothing. -/
theorem State.rodTest_none {s : State} {wg r n : Nat} (h : ∀ w, s.wg? wg = some w → (w.rod r).beads = []) :
    s.rodTest wg r n = s := by
  cases n with
  | zero => rfl
  | succ n =>
    rw [State.rodTest]
    split
    · rfl
    · rename_i w hw
      simp only [h w hw]
      split
      · rfl
      · simp

theorem State.rodsTest_none {s : State} {wg : Nat} (h : ∀ w, s.wg? wg = some w → w.noBeads) : s.rodsTest wg = s := by
  unfold State.rodsTest
  generalize List.range 16 = l
  induction l with
  | nil => rfl
  | cons a r ih => rw [List.foldl_cons, State.rodTest_none fun w hw => h w hw a]; exact ih

end Sys2Proof.Machine
end

