-- ==== Sys2Proof/Tests/Slice0.lean ====
section
/-! SUPPORT. Tests of one step or one definition each, their expected values from the spec's worked programs and rules, and
for every statement states and operands that meet its hypotheses. -/
set_option Elab.async false

open Sys2Proof Sys2Proof.Machine
namespace Sys2Proof.Tests

/-! States. -/

/-- The plain header: no stall, guard p7. -/
def hd : Hdr := ⟨0, false, 7⟩

/-- A word about to issue, as State.withFetchWord places it. -/
def placed (i : Instr) : State := State.reset.placeWord ((encode i).getD 0)

/-- The environment of the word about to issue. -/
def envAt (s : State) : Env :=
  match s.env? hd with
  | some e => e
  | none => ⟨placedIssue s 0, placedWg s 0, { role := .vector, part := 0, slot := 0, n := 0, threads := [] }, [], 0⟩

/-- The word about to issue in `s` can issue. -/
abbrev Can (s : State) (i : Instr) (role : Option Role := none) : Prop := Ready s hd role (usesOf i) (envAt s)

/-- The word is well formed and, placed at reset, can issue in a thread. -/
abbrev Goes (i : Instr) (role : Option Role := none) : Prop :=
  i.wellFormed = true ∧ Can (placed i) i role ∧ (envAt (placed i)).act = [0]

/-- `s` with the running workgroup changed. -/
def withWg (f : Workgroup → Workgroup) (s : State) : State := { s with wgs := s.wgs.map f }
/-- `s` with its wave changed. -/
def withWave (f : Wave → Wave) (s : State) : State := withWg (fun w => { w with waves := w.waves.map f }) s
/-- `s` with its thread in lane 0 changed. -/
def withThread (f : Thread → Thread) (s : State) : State :=
  withWave (fun v => { v with threads := v.threads.modify 0 f }) s
/-- `s` with its part changed. -/
def withPart (f : Part → Part) (s : State) : State := withWg (fun w => { w with parts := w.parts.map f }) s

/-- A word placed with these values in s0 and on. -/
def placedS (l : List Word) (i : Instr) : State :=
  withWave (fun v => { v with sregs := (List.range l.length).map fun k => (k, l.getD k 0) }) (placed i)

def af1 (t : Ty) : AF := ⟨2, 4, 0, 0, false, false, false, false, t, 0⟩
def af2 (t : Ty) : AF := { af1 t with b := 6 }
def af3 (t : Ty) : AF := { af2 t with c := 8 }
def af2m (t : Ty) (m : Nat) : AF := { af2 t with m := BitVec.ofNat 6 m }
def af1m (t : Ty) (m : Nat) : AF := { af1 t with m := BitVec.ofNat 6 m }
def af0 : AF := { af1 .i32 with a := 2, d := 3 }
def gf0 : GF := ⟨0, 0, 0, 0, 0⟩
def if0 (n : Nat) : IF := ⟨0, 0, BitVec.ofNat 30 n⟩

/-! Hypotheses that can be met: arithmetic. Registers stand at the ends of their range where the form allows it. -/

theorem witness_IntegerArithmetic : ∀ i ∈ [Instr.iadd hd { af2 .i32 with d := 255 }, .isub hd (af2 .n64), .imul hd (af2 .i16x2), .imulh hd (af2 .i64),
    .imin hd (af2 .n32), .imax hd (af2 .i32), .iabs hd { af1 .i32 with m := 1 }, .ineg hd (af1 .i64), .iaddc hd (af3 .n32),
    .imad hd { af3 .i32 with m := 1 }, .imad hd (af3 .n64), .and hd (af2 .b32), .or hd (af2 .b64), .xor hd (af2 .b32),
    .not hd { af1 .b32 with d := 191, a := 0xC1, u := true }], Goes i := by decide +kernel

theorem witness_ShiftsAndBitFields : ∀ i ∈ [Instr.shl hd (af2 .i32), .shr hd (af2 .n64), .sar hd (af2 .i64),
    .rot hd { af2 .b32 with m := 1 }, .popc hd (af1 .b64), .clz hd (af1 .b32), .brev hd (af1 .b64), .bfe hd (af2 .i32),
    .bfi hd (af3 .b32)], Goes i := by decide +kernel

theorem witness_Comparisons : (∀ c ∈ List.range 6, Goes (.icmp hd (af2m .i32 c)))
    ∧ (∀ c ∈ List.range 8, Goes (.fcmp hd { af2m .f64 c with d := 7 }))
    ∧ ∀ c ∈ [6, 7], 6 ≤ (af2m .i32 c).mlo 2 0 := by decide +kernel

theorem witness_Moves : ∀ i ∈ [Instr.mov hd (af1 .b64), .sel hd { af2 .b32 with c := 7 }, .moviImm hd (if0 5),
    .moviImm hd ⟨191, 128, 0x3FFFFFFF⟩, .moviLit hd ⟨3, 0, 9⟩, .moviLit hd ⟨191, 0x30, 0xFFFFFFFF⟩,
    .moviLit hd ⟨0, 0x28, 1⟩], Goes i := by decide +kernel

theorem witness_WaveOperations : (∀ i ∈ [Instr.bcast hd { af2 .b32 with b := 0xC1, sb := true }, .readlane hd { af2 .b64 with u := true },
    .vote hd { af1 .i32 with m := 3 }, .vote hd (af1 .i32)], Goes i)
    ∧ (∀ m ∈ List.range 4, Goes (.shfl hd (af2m .b32 (24 + m))) ∧ Goes (.shfl hd (af2m .b64 (4 + m))))
    ∧ ∀ o ∈ List.range 6, Goes (.wred hd (af1m (if o < 3 then .f32 else .b32) o))
      ∧ Goes (.scan hd (af1m (if o < 3 then .i64 else .b64) (8 + o))) := by decide +kernel

theorem witness_FloatArithmetic : ∀ i ∈ [Instr.fadd hd (af2 .f32), .fsub hd { af2 .f64 with m := 3 }, .fmul hd (af2 .f16x2),
    .ffma hd (af3 .bf16x2), .fmin hd (af2 .f32), .fmax hd (af2 .f64), .fdivs hd (af2 .f32), .fsqrt hd (af1 .f32)],
    Goes i := by decide +kernel

theorem witness_SpecialFunctionsAndDots : ∀ i ∈ [Instr.frcp hd (af1 .f32), .frsq hd (af1 .f32), .fex2 hd (af1 .f32),
    .flg2 hd (af1 .f32), .fsin hd (af1 .f32), .fcos hd (af1 .f32), .fclass hd (af1 .f64), .dot2 hd (af3 .f16x2),
    .dot4 hd (af3 .i8x4), .dot4 hd { af3 .n8x4 with m := 1 }], Goes i := by decide +kernel

theorem witness_Conversions : ∀ i ∈ [Instr.cvt hd { af1 .i32 with b := 0, c := 8 }, .cvt hd { af1 .i32 with b := 14, c := 8, m := 0x10 },
    .frnd hd { af1 .f64 with m := 1 }, .pack hd (af2 .f16x2), .pack hd (af2 .i16x2), .unpk hd { af1 .bf16x2 with m := 1 },
    .sllvl hd (af1 .sli32), .sllvl hd (af1 .sli16x2)], Goes i := by decide +kernel

/-! Control. -/

/-- A word whose thread stands inside a handler. -/
def handling (i : Instr) : State := withThread (fun t => { t with active := true }) (placed i)

theorem witness_BranchesAndCalls :
    (∀ f ∈ [if0 0x10, if0 0x3FFFFF00], ∀ i ∈ [Instr.bra hd f, .call hd f], Goes i
      ∧ ∀ l ∈ (envAt (placed i)).act, (0 : Int) ≤ (envAt (placed i)).iss.addr.toNat + 8 * f.imm.toInt
        ∧ ((envAt (placed i)).iss.addr.toNat + 8 * f.imm.toInt : Int) < 2 ^ 57)
    ∧ (∀ i ∈ [Instr.brx hd { gf0 with a := 0xC1, m := 1 }, .callx hd { gf0 with a := 0xC1, m := 1 }], Goes i
      ∧ ((envAt (placed i)).uniform 0xC1).toNat < 2 ^ 57)
    ∧ ∀ i ∈ [Instr.brx hd gf0, .callx hd gf0, .ret hd gf0], Goes i
      ∧ ∀ l ∈ (envAt (placed i)).act, (envAt (placed i)).vec .b64 0 l < 2 ^ 57 := by decide +kernel

theorem witness_MeetingsAndSets :
    (∀ f ∈ [if0 5, if0 0x3FFFFE00], Goes (.meet hd f)
      ∧ (0 : Int) ≤ (envAt (placed (.meet hd f))).iss.addr.toNat + 8 * f.imm.toInt
      ∧ ((envAt (placed (.meet hd f))).iss.addr.toNat + 8 * f.imm.toInt : Int) < 2 ^ 57)
    ∧ Goes (.unmeet hd gf0) := by decide +kernel

theorem witness_MeetingsAndSets_sets :
    (∀ n ∈ [1, 31], ∀ i ∈ [Instr.joinImm hd (if0 n), .leaveImm hd (if0 n)], Goes i ∧ (if0 n).imm.toNat < 32 ∧ (if0 n).imm ≠ 0)
    ∧ (∀ i ∈ [Instr.joinReg hd gf0, .leaveReg hd gf0], i.wellFormed = true ∧ Can (placedS [31] i) i
      ∧ (envAt (placedS [31] i)).uniform 0 = 31)
    ∧ Goes (.joinImm hd (if0 0)) ∧ ∀ r ∈ List.range 16, ((envAt (placed (.joinImm hd (if0 0)))).wg.rod r).beads = [] := by decide +kernel

theorem witness_WaitsAndEnds :
    (∀ i ∈ [Instr.nop hd gf0, .yieldW hd gf0, .sleep hd (if0 0x1FFFFFFF), .ptsync hd gf0, .exit hd gf0], Goes i)
    ∧ (placed (.ptsync hd gf0)).sbuf = []
    ∧ ∀ r ∈ List.range 16, ((envAt (placed (.exit hd gf0))).wg.rod r).beads = [] := by decide +kernel

theorem witness_TrapsAndReturns :
    (∀ i ∈ [Instr.bkpt hd (if0 0xFFFF), .trap hd (if0 0)], Goes i ∧ (envAt (placed i)).wg.ctx.trapVec ≠ 0
      ∧ ∀ l ∈ (envAt (placed i)).act, ((envAt (placed i)).w.thread l).active = false)
    ∧ (Can (handling (.trapret hd gf0)) (.trapret hd gf0)
      ∧ ∀ l ∈ (envAt (handling (.trapret hd gf0))).act, ((envAt (handling (.trapret hd gf0))).w.thread l).active = true)
    ∧ ∀ i ∈ [Instr.illegalOpcode 0x0780000000000000, .illegalOpcode 0xFFFFFFFFFFFFFFFF], i.wellFormed = true
      ∧ (placed i).env? hd = some (envAt (placed i)) ∧ (envAt (placed i)).wg.ctx.trapVec ≠ 0
      ∧ (envAt (placed i)).iss.group = 1 ∧ ((envAt (placed i)).w.thread 0).active = false := by decide +kernel

/-! Registers, regions, CSRs, tasks. -/

def setinfoRod : Instr := .setinfo hd { gf0 with m := 0x1F }
def setinfoNone : Instr := .setinfo hd { gf0 with m := 0x100F }
def boundRods (s : State) : State := withWg (fun w => { w with rods := w.rods.map fun _ => { bound := some (1, 0) } }) s

theorem witness_RodsAndRegions_setinfo :
    Goes setinfoRod ∧ ((envAt (placed setinfoRod)).wg.rod 15).beads = [] ∧ (envAt (placed setinfoRod)).wg.parts.length = 1
    ∧ ((envAt (placed setinfoRod)).wg.rod 15).bound = none
    ∧ setinfoNone.wellFormed = true ∧ Can (boundRods (placed setinfoNone)) setinfoNone
    ∧ ((envAt (boundRods (placed setinfoNone))).wg.rod 15).bound = some (1, 0) := by decide +kernel

theorem witness_RodsAndRegions_reggive : ∀ n ∈ [4, 252], Goes (.reggive hd (if0 n))
    ∧ n + 4 ≤ (envAt (placed (.reggive hd (if0 n)))).w.net
    ∧ (envAt (placed (.reggive hd (if0 n)))).w.pendingFrom (256 - n) = false := by decide +kernel

/-- A wave of 8 registers whose part has `spare` more. -/
def claiming (n spare : Nat) : State :=
  withPart (fun p => { p with spare := spare }) (withWave (fun v => { v with n := 8 }) (placed (.regclaim hd (if0 n))))

theorem witness_RodsAndRegions_regclaim : ∀ x ∈ [(248, 248), (248, 247), (4, 0)],
    Can (claiming x.1 x.2) (.regclaim hd (if0 x.1)) ∧ (envAt (claiming x.1 x.2)).w.n + x.1 ≤ 256
    ∧ ((envAt (claiming x.1 x.2)).wg.part 0).budget = 256 ∧ ((envAt (claiming x.1 x.2)).wg.part 0).claims = []
    ∧ ((envAt (claiming x.1 x.2)).wg.part 0).spare = x.2 := by decide +kernel

theorem witness_RodsAndRegions_regions :
    ∀ i ∈ [Instr.npreempt hd { gf0 with d := 191 }, .preemptok hd gf0], Goes i := by decide +kernel

theorem witness_RegisterWords : (∀ n ∈ List.range 5, Goes (.csrrd hd (if0 n)))
    ∧ Goes (.csrrd hd (if0 0x105)) ∧ csrOf 0x105 = .core 0x28 ∧ (envAt (placed (.csrrd hd (if0 0x105)))).ctx.system = true
    ∧ ∀ n ∈ [1, 0x105], ∀ i ∈ [Instr.csrwr hd (if0 n), .csrset hd (if0 n), .csrclr hd (if0 n)], Goes i
      ∧ bitAt (if0 n).imm 12 = false := by decide +kernel

theorem witness_RegisterWords_core : ∀ i ∈ [Instr.csrwr hd (if0 0x105), .csrset hd (if0 0x105), .csrclr hd (if0 0x105)],
    ((placed i).regWrite (rPOOL_REG_TOP 0 + 0x28) 5 false).recalls = [] := by decide +kernel

theorem witness_RegisterWords_old : ∀ i ∈ [Instr.csrwr hd (if0 0x1001), .csrset hd (if0 0x1001), .csrclr hd (if0 0x1001)],
    Goes i ∧ bitAt (if0 0x1001).imm 12 = true ∧ (if0 0x1001).imm.toNat % 4096 = 1 := by decide +kernel

theorem witness_RegisterWords_oldCore : ∀ i ∈ [Instr.csrwr hd (if0 0x1105), .csrset hd (if0 0x1105), .csrclr hd (if0 0x1105)],
    Goes i ∧ bitAt (if0 0x1105).imm 12 = true ∧ csrOf ((if0 0x1105).imm.toNat % 4096) = .core 0x28 := by decide +kernel

/-- The context of the running workgroup is a user one. -/
def asUser (s : State) : State := withWg (fun w => { w with ctx := { w.ctx with system := false } }) s

/-- The numbers next to those that name a register, a thread register that cannot be written, and a register of the core
without a system context. -/
theorem witness_RegisterWords_traps : (∀ n ∈ [5, 0xFF, 0x200, 0xFFF], csrOf n = .none ∧ ∀ i ∈ [Instr.csrrd hd (if0 n),
      .csrwr hd (if0 n), .csrset hd (if0 n), .csrclr hd (if0 n)], Goes i)
    ∧ (∀ n ∈ [0, 2, 3, 4], csrOf n = .thread n ∧ ∀ i ∈ [Instr.csrwr hd (if0 n), .csrset hd (if0 n), .csrclr hd (if0 n)], Goes i)
    ∧ (∀ i ∈ [Instr.csrrd hd (if0 0x105), .csrwr hd (if0 0x105), .csrset hd (if0 0x105), .csrclr hd (if0 0x105)],
      Can (asUser (placed i)) i ∧ (envAt (asUser (placed i))).ctx.system = false)
    ∧ (placedWg State.reset 0).ctx.trapVec ≠ 0 ∧ ((envAt (placed (.csrrd hd (if0 5)))).w.thread 0).active = false := by decide +kernel

/-! Memory with one page of 1 GiB under ASIDs 0 and 1, its tables in its first 16 KiB. -/

def words (l : List (Nat × Nat)) : Memory := l.foldl (fun m x => Memory.setBytes m x.1 (bytesOfNat 8 x.2)) []
def rawFrame : Frame := { st := .raw, flakes := List.range 64 }
def mapped (l : List (Nat × Nat)) (s : State) : State :=
  { s with mem := words ([(0, 0x1001), (8, 0x1001), (0x1000, 0x2001), (0x2000, 0x3001), (0x3000, 31)] ++ l),
           frames := [(0, rawFrame), (1, rawFrame)] }

def spawnI : Instr := .spawn hd { gf0 with a := 0xC1, b := 8 }
def jdecI : Instr := .jdec hd { gf0 with a := 0, b := 1 }
/-- A ready context of queue 0 with an enabled queue at 0x10000 with room for four records. -/
def tasking (i : Instr) (regs : List Word) : State :=
  withWg (fun w => { w with ctx := { w.ctx with queues := 1 } })
    (mapped [(0x10010, 4)] { placedS regs i with queues := [{ q := 0, num := 0, base := 0x10000, en := true }] })
def spawning : State := tasking spawnI ([0, 0, 0, 0, 0, 0, 0, 0] ++ [0x1000, 0, 0, BitVec.ofNat 64 (2 ^ 32), 0, 0, 0, 0])

theorem witness_Tasks_paths : ∀ s ∈ [spawning], (envAt s).act ≠ [] ∧ (envAt s).iss.await = none ∧ s.sbuf = []
    ∧ s.hostIdle (envAt s).lead (envAt s).ctx.asid = true
    ∧ s.fresh.2.pathsDone (envAt s).iss.wg 0 0 s.nextId 5 true false 31 = true := by decide +kernel

/-- The state in which the record that issues a task word is exposed. -/
def exposed (s : State) : State := s.fresh.2.exposeBy (envAt s)

theorem witness_Tasks_spawn : Can spawning spawnI ∧ (envAt spawning).uniform 0xC1 = 0 ∧ bitAt (envAt spawning).ctx.queues 0 = true
    ∧ ((exposed spawning).queue 0 0).en = true ∧ recordOk ((envAt spawning).image 8) = true
    ∧ ((exposed spawning).engineRead 0 0x10000 8).1 = .ok 0 ∧ ((exposed spawning).engineRead 0 0x10010 8).1 = .ok 4
    ∧ (exposed spawning).engineWritable 0 0x10000 = true ∧ (exposed spawning).engineWritable 0 (slotVa 0x10000 0) = true
    ∧ ((exposed spawning).engineRead 0 (slotVa 0x10000 0) 64).1 = .ok 0
    ∧ ((((exposed spawning).engineRead 0 (slotVa 0x10000 0) 64).2.engineWrite 0 0x10000 8 1).engineWrite 0 (slotVa 0x10000 0) 64 1).recalls = [] := by
  decide +kernel

/-- A record of queue 0 whose join counter stands at `c`. -/
def recWith (c : Nat) : Rec :=
  { id := 50, q := 0, queue := 0, index := 1, image := 0, ref := refOf 0 1, ctx := (placedWg State.reset 0).ctx, count := c, st := 0 }
def joining (c n : Nat) : State := { tasking jdecI [refOf 0 1, BitVec.ofNat 64 n] with recs := [recWith c] }

theorem witness_Tasks_jdec : ∀ x ∈ [(1, 1), (65535, 65535), (2, 1), (1, 2)],
    Can (joining x.1 x.2) jdecI ∧ (envAt (joining x.1 x.2)).uniform 0 = refOf 0 1 ∧ ((envAt (joining x.1 x.2)).uniform 1).toNat = x.2
    ∧ (exposed (joining x.1 x.2)).lookRef 0 (refOf 0 1) = some (recWith x.1)
    ∧ (joining x.1 x.2).hostIdle (envAt (joining x.1 x.2)).lead (envAt (joining x.1 x.2)).ctx.asid = true
    ∧ ((exposed (joining x.1 x.2)).engineWrite 0 (slotVa 0x10000 1 + 24) 2 0).recalls = [] := by decide +kernel

/-! SLI words. -/

theorem witness_SliArithmetic : ∀ i ∈ [Instr.sladd hd (af2 .sli32), .slsub hd { af2 .sli32 with d := 191, a := 0, b := 1, u := true },
    .slmul hd (af2 .sli16x2), .sldiv hd { af2 .sli16x2 with d := 255 }], Goes i := by decide +kernel

theorem witness_SliComparesAndFlags : (∀ c ∈ List.range 6, Goes (.slcmp hd (af2m .sli32 c)))
    ∧ Goes (.slcvt hd { af1 .i32 with b := 20, c := 8 }) ∧ Goes (.slcvt hd { af1 .i32 with b := 8, c := 21 })
    ∧ ∀ i ∈ [Instr.slflg hd { af1 .b32 with a := 0 }, .slflg hd (af1m .b32 1), .slflg hd (af1m .b32 2)], Goes i
      ∧ (envAt (placed i)).w.cnt.sli = 0 := by decide +kernel

/-! Memory words: entries 1 and 4 name scratch, 2 and 5 memory, 3 is invalid; s0 to s2 hold the handles 1 to 3. -/

/-- An entry image of rank 1 over 64 elements of a space. -/
def entryImage (space base : Nat) : BitVec 512 :=
  BitVec.ofNat 512 (1 + space * 2 + 2 ^ 6 + base * 2 ^ 64 + 64 * 2 ^ 192)
/-- Of rank 2, 64 rows of 64 elements. -/
def image2 (space base : Nat) : BitVec 512 :=
  BitVec.ofNat 512 (1 + space * 2 + 2 * 2 ^ 6 + base * 2 ^ 64 + 64 * 2 ^ 192 + 64 * 2 ^ 224 + 64 * 2 ^ 352)
def cached (s : State) : State :=
  { s with layCache := [⟨0, 0, 0, 1, entryImage 1 0⟩, ⟨0, 0, 0, 2, entryImage 0 0x12000⟩, ⟨0, 0, 0, 3, 0⟩,
    ⟨0, 0, 0, 4, image2 1 0⟩, ⟨0, 0, 0, 5, image2 0 0x12000⟩] }
/-- A word placed with a part of 64 KiB of scratch and 16 KiB of accumulators. -/
def mem (regs : List Word) (i : Instr) : State :=
  cached (mapped [] (withPart (fun p => { p with scrBytes := 65536, accKib := 16 }) (placedS ([1, 2, 3] ++ regs) i)))
def mf (var h : Nat) : MF := ⟨BitVec.ofNat 6 var, 4, BitVec.ofNat 8 h, 6, 0, 0, 0⟩

/-- The entry of handle `h` is cached: reading it changes nothing, and its coordinate registers can be read. -/
abbrev HasEntry (s : State) (h : Byte) (scalar : Bool) (k : Byte) (l : Layout) : Prop :=
  Entry s (envAt s) h scalar k l

def scrL : Layout := layoutOf (entryImage 1 0)
def memL : Layout := layoutOf (entryImage 0 0x12000)

/-- A handle names a cached, valid entry, and its coordinate registers can be read. -/
abbrev Cached (s : State) (h : Byte) (sc : Bool) (k : Byte) (l : Layout) : Prop :=
  ((s.layCache.find? fun y => y.core = (envAt s).core && y.ctx = (envAt s).ctx.num && y.q = (envAt s).ctx.q
      && y.handle = ((envAt s).uniform h).toNat).map fun x => layoutOf x.image) = some l
    ∧ ((envAt s).uniform h).toNat < 4096 ∧ l.valid = true ∧ l.check (envAt s).ctx.world = 0
    ∧ ∀ r ∈ coordRegs sc k l.rank.toNat, beyond (envAt s).w.n r = false ∧ (envAt s).w.marked r = false
      ∧ (envAt s).w.pending r = false ∧ (match r with
        | .s i => decide (i < 192)
        | _ => true) = true

/-- Then the entry is read and the state stays. -/
theorem Cached.entry {s : State} {h : Byte} {sc : Bool} {k : Byte} {l : Layout} (c : Cached s h sc k l) :
    Entry s (envAt s) h sc k l := by
  obtain ⟨hc, hn, hv, hk, hr⟩ := c
  refine ⟨?_, fun r hm => ⟨(hr r hm).1, (hr r hm).2.1, (hr r hm).2.2.1, fun i hi => ?_⟩⟩
  · obtain ⟨x, hx, rfl⟩ := Option.map_eq_some_iff.mp hc
    have hn' : ¬4096 ≤ ((envAt s).uniform h).toNat := by omega
    simp only [State.layEntry, hn', if_false, State.layImage, hx, hv, hk, Bool.true_and, decide_true, if_true]
  · have := (hr r hm).2.2.2
    rw [hi] at this
    simpa using this

def ldScr : Instr := .ld hd (mf 0 0)
def ldsScr : Instr := .lds hd { mf 0 0 with k := 191 }
def stScr : Instr := .st hd (mf 0 0)
def isScr : Elem → Bool
  | .scr 0 _ _ _ none => true
  | _ => false

theorem witness_ScratchAccesses_entry : Cached (mem [] ldScr) 0 false 6 scrL ∧ Cached (mem [] ldsScr) 0 true 191 scrL
    ∧ Cached (mem [] stScr) 0 false 6 scrL := by decide +kernel

theorem witness_ScratchAccesses : scrL.memory = false ∧ ((mem [] ldScr).partOf 1 0).ue = [] ∧ ((mem [] ldScr).partOf 1 0).lost = []
    ∧ ∀ x ∈ [(ldScr, false, false), (ldsScr, true, false), (stScr, false, true)], x.1.wellFormed = true ∧ Can (mem [] x.1) x.1
      ∧ (envAt (mem [] x.1)).w.holds = [] ∧ (envAt (mem [] x.1)).act = [0]
      ∧ scrL.inb ((envAt (mem [] x.1)).coords 1 x.2.1 6 0 0) = true
      ∧ isScr (scrElem (envAt (mem [] x.1)).wg 0 scrL ((envAt (mem [] x.1)).coords 1 x.2.1 6 0 0) (!rawTy (memTy 0)) (memWidth 0) x.2.2
        (!x.2.2)) = true := by decide +kernel

/-- The core's attributes of the first GiB: readable, writable, uncompressed. -/
def leaf1 : Leaf := leafOf 31 .g1
def attributed (s : State) : State := { s with alb := [{ core := 0, asid := 1, page := 0, leaf := leaf1, path := [] }] }
def memM (regs : List Word) (i : Instr) : State := attributed (mem regs i)

def ldMem : Instr := .ld hd (mf 0 1)
def ldAcq : Instr := .ld hd { mf 8 1 with scope := 6 }
def stMem : Instr := .st hd (mf 0 1)
def isMem1 : Elem × State → Bool
  | (.mem _ _ _ leaf [p] none, s1) => !leaf.isReg && !p.leaf.isReg && decide (p.p.w ≠ 0) && decide (s1.recalls = [])
      && decide (s1.sbAt 0 1 (p.p.va / 128) = none) && decide (s1.l1At 0 1 (p.p.va / 128) = none) && decide (s1.l1fills = [])
      && !s1.wgReplay 1 && decide (s1.sbuf = [])
  | _ => false

theorem witness_LoadsAndStores_entry : ∀ i ∈ [ldMem, ldAcq, stMem], Cached (memM [] i) 1 false 6 memL := by decide +kernel

theorem witness_LoadsOfMemory : ∀ i ∈ [ldMem, ldAcq], i.wellFormed = true ∧ Can (memM [] i) i ∧ (envAt (memM [] i)).w.holds = []
    ∧ (envAt (memM [] i)).act = [0] ∧ isMem1 ((memM [] i).elemOf (envAt (memM [] i)) memL ((envAt (memM [] i)).coords 1 false 6 0 0)
      true 32 .rd false true) = true := by decide +kernel

theorem witness_StoresToMemory : stMem.wellFormed = true ∧ Can (memM [] stMem) stMem ∧ (envAt (memM [] stMem)).w.holds = []
    ∧ (envAt (memM [] stMem)).act = [0]
    ∧ isMem1 ((memM [] stMem).elemOf (envAt (memM [] stMem)) memL ((envAt (memM [] stMem)).coords 1 false 6 0 0)
      true 32 .wr false true) = true := by decide +kernel

/-! Releases, fences, prefetch, maintenance, layout words, atomics. -/

def stRel : Instr := .st hd { mf 8 1 with scope := 5 }
def atomRel : Instr := .atom hd { mf 0x20 1 with scope := 5 }
/-- A result of the wave stands out that a release must wait for. -/
def waitingLd (s : State) : State := { s with results := [{ id := 0, wg := 1, wave := 0, cnt := some .ld, regs := [] }] }

theorem witness_ReleasesAndFences : ∀ i ∈ [stRel, atomRel], i.wellFormed = true ∧ Can (waitingLd (memM [] i)) i
    ∧ (envAt (waitingLd (memM [] i))).w.holds = [] ∧ (envAt (waitingLd (memM [] i))).act = [0]
    ∧ (envAt (waitingLd (memM [] i))).iss.await = none ∧ (waitingLd (memM [] i)).sbuf = [] ∧ memL.memory = true
    ∧ (waitingLd (memM [] i)).pathsDone 1 0 0 (waitingLd (memM [] i)).nextId 5 true false 1 = false := by decide +kernel

theorem witness_ReleasesAndFences_fences : ∀ i ∈ [Instr.fence hd { gf0 with m := 0x1E }, .fence hd { gf0 with m := 0x08 },
    .fencex hd { gf0 with a := 31, b := 31, m := 0x1E }, .fencex hd { gf0 with a := 1, b := 15, m := 0x10 }], Goes i
      ∧ (envAt (placed i)).w.holds = [] ∧ (placed i).sbuf = [] ∧ (placed i).lines = [] := by decide +kernel

def prefScr : Instr := .pref hd { mf 0 0 with data := 0 }
def prefMem : Instr := .pref hd { mf 0 1 with data := 0 }
def mntI (f : Hdr → GF → Instr) (lv : Nat) : Instr := f hd ⟨0, 1, 16, 17, BitVec.ofNat 14 lv⟩
def mntS (i : Instr) : State := memM (List.replicate 14 0 ++ [1, 0]) i

def prefOut : Instr := .pref hd { mf 0 1 with data := 0, pol := 7 }
/-- The lanes' elements lie in one line, and no host half has to be recalled. -/
def inMemory : List (Nat × Elem) × State → Bool
  | ([(0, .mem _ _ _ _ [p] none)], s1) => decide (p.p.va / 128 = 576 ∧ s1.recalls = [] ∧ s1.sbuf = [])
  | _ => false
/-- The core holds a copy of that line in L1. -/
def prefS (i : Instr) : State := { memM [] i with l1 := [{ core := 0, asid := 1, line := 576, data := 0, stamp := 0 }] }

theorem witness_PrefetchAndMaintenance_lanes : ∀ i ∈ [prefMem, prefOut], i.wellFormed = true ∧ Can (prefS i) i
    ∧ Cached (prefS i) 1 false 6 memL ∧ memL.memory = true ∧ (envAt (prefS i)).w.holds = []
    ∧ inMemory ((prefS i).elemsOf (envAt (prefS i)) fun s lane =>
      s.elemOf (envAt (prefS i)) { memL with scaled := false } ((envAt (prefS i)).coords 1 false 6 0 lane) true 8 .rd false false) = true := by
  decide +kernel

theorem witness_PrefetchAndMaintenance_pref : (∀ i ∈ [prefScr, prefMem], i.wellFormed = true ∧ Can (memM [] i) i
      ∧ (envAt (memM [] i)).w.holds = [])
    ∧ isMem1 ((memM [] prefMem).elemOf (envAt (memM [] prefMem)) memL ((envAt (memM [] prefMem)).coords 1 false 6 0 0)
      true 8 .rd false false) = true := by decide +kernel

/-- The core's attributes are found and the state stays. -/
def stays (s : State) : Except Cause Leaf × State → Bool
  | (.ok l, t) => decide (l = leaf1 ∧ t = s)
  | _ => false

theorem witness_PrefetchAndMaintenance_maint : ∀ x ∈ [(mntI .clean 0, Need.rd), (mntI .inval 1, .wr), (mntI .clinv 2, .wr)],
    x.1.wellFormed = true ∧ Can (mntS x.1) x.1 ∧ Cached (mntS x.1) 1 true 16 memL ∧ (envAt (mntS x.1)).w.holds = []
    ∧ (envAt (mntS x.1)).act = [0] ∧ ((mntS x.1).boxLines (envAt (mntS x.1)) memL ((envAt (mntS x.1)).box 1 16 17).1
      ((envAt (mntS x.1)).box 1 16 17).2) = ([576], mntS x.1)
    ∧ ((mntS x.1).albFind 0 (effAsid 1 (128 * 576)) (128 * 576)).isSome = true ∧ (mntS x.1).sbuf = []
    ∧ stays (mntS x.1) ((mntS x.1).pageOk (envAt (mntS x.1)) memL (128 * 576) x.2 false) = true := by decide +kernel

/-- LAYSET of the image in s8 to s15 under the number in s0; LAYGET and LAYCHK of the number in s0. -/
def laysetI : Instr := .layset hd { gf0 with d := 191, b := 8 }
def laygetI : Instr := .layget hd { gf0 with d := 184 }
def laychkI : Instr := .laychk hd { gf0 with d := 6, b := 4 }
def imageWords (im : BitVec 512) : List Word := (List.range 8).map fun i => im.extractLsb' (64 * i) 64
def layS (n : Word) (im : BitVec 512) (i : Instr) : State := cached (mapped [] (placedS ([n] ++ List.replicate 7 0 ++ imageWords im) i))

abbrev Lays (n : Nat) (im : BitVec 512) : Prop := Can (layS (BitVec.ofNat 64 n) im laysetI) laysetI
  ∧ (envAt (layS (BitVec.ofNat 64 n) im laysetI)).image 8 = im
  ∧ (envAt (layS (BitVec.ofNat 64 n) im laysetI)).uniform 0 = BitVec.ofNat 64 n

theorem witness_LayoutEntries_layset :
    (Lays 4096 (entryImage 0 0x12000) ∧ Lays 4095 (entryImage 6 0) ∧ Lays 0 (entryImage 1 0))
    ∧ (layoutOf (entryImage 6 0)).check false = 2 ∧ (layoutOf (entryImage 1 0)).check false = 0
    ∧ ((layS 0 (entryImage 1 0) laysetI).writePhysN (layVa (envAt (layS 0 (entryImage 1 0) laysetI)).ctx 0) 64 5).recalls = []
    ∧ (rawFrame.st ≠ .balloon ∧ rawFrame.st ≠ .reclaimed) := by decide +kernel

theorem witness_LayoutEntries_read :
    (Can (layS 2 0 laygetI) laygetI ∧ (layS 2 0 laygetI).layImage 0 (envAt (layS 2 0 laygetI)).ctx 2 = (entryImage 0 0x12000, layS 2 0 laygetI))
    ∧ (Can (layS 3 0 laychkI) laychkI ∧ (layS 3 0 laychkI).layMaybe 0 (envAt (layS 3 0 laychkI)).ctx 3 = (some none, layS 3 0 laychkI))
    ∧ (Can (layS 1 0 laychkI) laychkI
      ∧ (layS 1 0 laychkI).layMaybe 0 (envAt (layS 1 0 laychkI)).ctx 1 = (some (some scrL), layS 1 0 laychkI)) := by decide +kernel

def atomI : Instr := .atom hd (mf 0 1)
def atomsI : Instr := .atoms hd (mf 0 0)
def isMem : Elem × State → Bool
  | (.mem _ _ _ _ _ _, s1) => decide (s1.recalls = []) && decide (s1.sbuf = [])
  | _ => false

theorem witness_Atomics : (atomI.wellFormed = true ∧ Can (memM [] atomI) atomI ∧ Cached (memM [] atomI) 1 false 6 memL
      ∧ (envAt (memM [] atomI)).act = [0] ∧ (envAt (memM [] atomI)).w.holds = [] ∧ (memM [] atomI).sbuf = []
      ∧ isMem ((memM [] atomI).elemOf (envAt (memM [] atomI)) memL ((envAt (memM [] atomI)).coords 1 false 6 0 0) false (atomWidth 0)
        .rdwr true false) = true)
    ∧ atomsI.wellFormed = true ∧ Can (mem [] atomsI) atomsI ∧ Cached (mem [] atomsI) 0 false 6 scrL ∧ scrL.scratch = true
    ∧ scrL.inb ((envAt (mem [] atomsI)).coords 1 false 6 0 0) = true
    ∧ isScr (scrElem (envAt (mem [] atomsI)).wg 0 scrL ((envAt (mem [] atomsI)).coords 1 false 6 0 0) false 32 true true) = true := by
  decide +kernel

/-! Copies, barrier objects, contracts, key-value words. -/

/-- Source memory at 0, destination scratch at 0, a box of four words. -/
def copyRegs : List Word := [0, 0, 0, 0, 0, 0x100000004, 0x100000001, 0x0000100200000001]
def copyS (i : Instr) : State := withWave (fun v => { v with role := .copy }) (mem (List.replicate 5 0 ++ copyRegs) i)
def copyArgs (m : Bool) : CopyArgs := { m := m, d := 191, regs := copyRegs, bw := 0, mask := if m then 1 else 0, zero := true, mod := 4 }
def copyI : Instr := .copy hd { gf0 with d := 191, a := 8, b := 0xC1, m := 4 }
def copymI : Instr := .copym hd { gf0 with d := 191, a := 8, b := 0xC1, c := 0, m := 4 }
def copyqI : Instr := .copyq hd { gf0 with d := 191 }

theorem witness_Copies : (∀ i ∈ [copyI, copymI, copyqI], i.wellFormed = true ∧ Can (copyS i) i (some .copy)
      ∧ (envAt (copyS i)).w.holds = [] ∧ (envAt (copyS i)).act = [0])
    ∧ (∀ i ∈ [copyI, copymI], ((copyS i).layEntry 0 (envAt (copyS i)).ctx 2 = (some memL, copyS i)
      ∧ (copyS i).layEntry 0 (envAt (copyS i)).ctx 1 = (some scrL, copyS i)))
    ∧ (copyArgs false).check (envAt (copyS copyI)).wg 0 memL scrL = none
    ∧ (copyArgs true).check (envAt (copyS copymI)).wg 0 memL scrL = none := by decide +kernel

/-- Object address in s8, count or phase in s9, bytes in s10. -/
def barS (regs : List Word) (i : Instr) : State := mem (List.replicate 5 0 ++ regs) i
def barInit1 (s : State) : State := withPart (fun p => p.barInit 0x100 2 1) s
def binitI (n : Nat) : Instr := .binit hd { gf0 with a := 8, b := 9, m := BitVec.ofNat 14 n }
def bexpectI (o : Nat) : Instr := .bexpect hd { gf0 with a := 8, b := 9, c := 10, m := BitVec.ofNat 14 o }
def barriveI (m : Nat) : Instr := .barrive hd { gf0 with a := 8, b := 9, m := BitVec.ofNat 14 m }
def bwaitI : Instr := .bwait hd { gf0 with a := 8, b := 9, m := 10 }
def btestI : Instr := .btest hd { gf0 with d := 6, a := 8, b := 9, m := 10 }

def binitS (c : Nat) : State := barS [0x100, BitVec.ofNat 64 c] (binitI 7)

theorem witness_Barriers_init : ∀ c ∈ [1, 65536], (binitI 7).wellFormed = true ∧ Can (binitS c) (binitI 7)
    ∧ ((binitS c).partOf 1 0).holdsRing 0x100 8 = true ∧ ((envAt (binitS c)).uniform 8).toNat = 0x100
    ∧ ((envAt (binitS c)).uniform 9).toNat = c := by decide +kernel

theorem witness_Barriers : (∀ i ∈ [bexpectI 0, bexpectI 1, barriveI 0, barriveI 1], i.wellFormed = true
      ∧ Can (barInit1 (barS [0x100, 3, 8388607] i)) i ∧ (envAt (barInit1 (barS [0x100, 3, 8388607] i))).w.holds = []
      ∧ (envAt (barInit1 (barS [0x100, 3, 8388607] i))).act = [0] ∧ (envAt (barInit1 (barS [0x100, 3, 8388607] i))).iss.await = none
      ∧ ((barInit1 (barS [0x100, 3, 8388607] i)).partOf 1 0).barSlot 0x100 3 = some (0x110, 1)
      ∧ (barInit1 (barS [0x100, 3, 8388607] i)).pathsDone 1 0 0
        (barInit1 (barS [0x100, 3, 8388607] i)).nextId 0 true false 5 = true ∧ ((envAt (barInit1 (barS [0x100, 3, 8388607] i))).uniform 10).toNat < 8388608)
    ∧ ((barS [] (bexpectI 0)).wgs.all fun w => w.waves.all fun v => v.threads.all fun t => t.status ≠ .waiting) = true := by decide +kernel

theorem witness_Barriers_wait : ∀ i ∈ [bwaitI, btestI], ∀ k ∈ [0, 1, 2, 3], i.wellFormed = true
    ∧ Can (barInit1 (barS [0x100, BitVec.ofNat 64 k, 0] i)) i
    ∧ ((barInit1 (barS [0x100, BitVec.ofNat 64 k, 0] i)).partOf 1 0).barSlot 0x100 k = some (0x100 + 16 * (k % 2), k / 2)
    ∧ (((barInit1 (barS [0x100, BitVec.ofNat 64 k, 0] i)).partOf 1 0).bar (0x100 + 16 * (k % 2))).phase = 0
    ∧ (((barInit1 (barS [0x100, BitVec.ofNat 64 k, 0] i)).partOf 1 0).bar (0x100 + 16 * (k % 2))).err = false := by decide +kernel

def resideI (k : Nat) : Instr := .reside hd { gf0 with a := 8, b := 9, m := BitVec.ofNat 14 k }
def unresideI : Instr := .unreside hd { gf0 with a := 8 }
def kvS (i : Instr) (len : Nat) : State := mem (List.replicate 5 0 ++ [7, 0x100, BitVec.ofNat 64 len]) i
def kvgetI : Instr := .kvget hd { gf0 with d := 191, a := 8, b := 9, c := 10 }
def kvputI : Instr := .kvput hd { gf0 with d := 191, a := 8, b := 9, c := 10, m := 3 }
def kvpinI (u : Nat) : Instr := .kvpin hd { gf0 with d := 191, a := 8, m := BitVec.ofNat 14 u }
def kvdropI : Instr := .kvdrop hd { gf0 with d := 191, a := 8 }

theorem witness_ContractAndKeyValueWords_contracts : ∀ i ∈ [resideI 0, resideI 2, unresideI], i.wellFormed = true
    ∧ Can (barS [0x10000, 1] i) i ∧ Can (barS [5, 1] i) i ∧ (envAt (barS [0x10000, 1] i)).w.holds = [] ∧ badRange 0x10000 1 = false
    ∧ badRange 5 1 = true := by decide +kernel

theorem witness_ContractAndKeyValueWords : (∀ i ∈ [kvgetI, kvputI, kvpinI 0, kvpinI 1, kvdropI], ∀ n ∈ [0, 1, 4096, 4097], i.wellFormed = true ∧ Can (kvS i n) i
      ∧ (envAt (kvS i n)).act = [0] ∧ ((envAt (kvS i n)).uniform 10).toNat = n)
    ∧ 0x100 + 4096 ≤ ((envAt (kvS kvgetI 4096)).wg.part 0).scrBytes := by decide +kernel

/-! Matrix and lode-engine words: operand words in s8 and on. -/

def tileL : Layout := layoutOf (image2 1 0)
def tileM : Layout := layoutOf (image2 0 0x12000)
def matrix (f : Wave → Wave) (regs : List Word) (i : Instr) : State :=
  withWg (fun w => { w with rods := w.rods.map fun _ => { bound := some (0, 0) } })
    (withPart (fun p => { p with tags := [(0, tagOf 2 0)] }) (withWave (fun v => f { v with role := .matrix }) (mem (List.replicate 5 0 ++ regs) i)))
def mmaI : Instr := .mma hd { rod := 15, mc := 0, n := 0, a := 8, b := 9, acc := 0, fl := 0 }
def mmaBead : Bead := beadOf { rod := 15, mc := 0, n := 0, a := 8, b := 9, acc := 0, fl := 0 } ((encode mmaI).getD 0) 4 4
/-- The clause holds pebbles; `two` has a second thread of the set that must place its bead first. -/
def mmaS (two : Bool) : State :=
  let s := matrix (fun v => if two then { v with threads := v.threads.modify 1 fun _ => startThread 0x1000 true } else v) [4, 4] mmaI
  { s with running := s.running.map fun c => { c with pebbles := 1 } }

def opGood (l : Layout) (s : State) : Except Cause Layout × State → Bool
  | (.ok x, t) => decide (x = l ∧ t = s)
  | _ => false

theorem witness_MatrixMultiply : mmaI.wellFormed = true ∧ ∀ two ∈ [true, false], Can (mmaS two) mmaI (some .matrix)
    ∧ (envAt (mmaS two)).w.holds = [] ∧ (envAt (mmaS two)).act = [0]
    ∧ opGood tileL (mmaS two) ((mmaS two).operand (envAt (mmaS two)) 4 Layout.scratch) = true
    ∧ 4 * mmaBead.words ≤ ((envAt (mmaS two)).wg.part 0).accBytes
    ∧ mmaLanes (envAt (mmaS two)).wg 0 15 mmaBead [0] = ([], [], [0])
    ∧ (envAt (mmaS two)).wg.rodFull ((envAt (mmaS two)).wg.rod 15) [(0, 0)] = !two := by decide +kernel

theorem witness_MatrixMultiply_last : mmaBead.check (envAt (mmaS false)).wg 0 tileL tileL = none ∧ (envAt (mmaS false)).iss.pebbles ≠ 0
    ∧ (mmaS false).mqRoom 0 = true ∧ (envAt (mmaS false)).wg.waitingBeads 15 = []
    ∧ ((envAt (mmaS false)).wg.rod 15).bound = some (0, 0) := by decide +kernel

def acczI : Instr := .accz hd { gf0 with a := 8, b := 9 }
def accldI : Instr := .accld hd { gf0 with a := 8, b := 9, c := 10 }
def accrdI (sc : Bool) : Instr := .accrd hd { gf0 with d := 255, a := 8, b := 0, m := if sc then 1 else 0 }
def drainI (m : Nat) : Instr := .drain hd ⟨8, 0, 9, 0, BitVec.ofNat 14 m⟩
def accS (regs : List Word) (i : Instr) : State := matrix id regs i

theorem witness_AccumulatorWords : (∀ i ∈ [acczI, accldI], i.wellFormed = true ∧ Can (accS [0, 4, 4] i) i (some .matrix))
    ∧ Can (accS [16380, 4, 4] acczI) acczI (some .matrix) ∧ ((envAt (accS [16380, 4, 4] acczI)).wg.part 0).accBytes = 16384
    ∧ Can (accS [0, 65532, 4] accldI) accldI (some .matrix) ∧ ((envAt (accS [0, 65532, 4] accldI)).wg.part 0).scrBytes = 65536
    ∧ (accS [0, 4, 4] acczI).mqRoom 0 = true ∧ (∀ sc ∈ [true, false], (accrdI sc).wellFormed = true
      ∧ Can (accS [16376] (accrdI sc)) (accrdI sc) (some .matrix)
      ∧ 16376 + 4 * (envAt (accS [16376] (accrdI sc))).scalar .n32 0 0 + 4 ≤ 16384
      ∧ 16376 + 4 * (envAt (accS [16376] (accrdI sc))).vec .n32 0 0 + 4 ≤ 16384) := by decide +kernel

theorem witness_AccumulatorWords_drain : (drainI 1).wellFormed = true ∧ Can (accS [4, 0] (drainI 1)) (drainI 1) (some .matrix)
    ∧ (envAt (accS [4, 0] (drainI 1))).iss.await = none
    ∧ opGood tileL (accS [4, 0] (drainI 1)) ((accS [4, 0] (drainI 1)).operand (envAt (accS [4, 0] (drainI 1))) 4 fun _ => true) = true
    ∧ opGood tileM (accS [5, 0] (drainI 1)) ((accS [5, 0] (drainI 1)).operand (envAt (accS [5, 0] (drainI 1))) 5 fun _ => true) = true
    ∧ Can (accS [5, 0] (drainI 1)) (drainI 1) (some .matrix)
    ∧ (⟨1, 0⟩ : DrainArgs).ok = true ∧ 4 * (⟨1, 0⟩ : DrainArgs).rowsM * (⟨1, 0⟩ : DrainArgs).colsN ≤ 16384
    ∧ tilesBad (envAt (accS [4, 0] (drainI 1))).wg 0 ((⟨1, 0⟩ : DrainArgs).tiles 4 0 tileL tileL) = none
    ∧ tilesBad (envAt (accS [5, 0] (drainI 1))).wg 0 ((⟨1, 0⟩ : DrainArgs).tiles 5 0 tileM tileM) = none := by decide +kernel

def lredI (op : Nat) : Instr := .lred hd ⟨8, 1, 6, 10, BitVec.ofNat 14 (op + 256 * 0)⟩
def lredwI (op : Nat) : Instr := .lredw hd ⟨8, 1, 6, 10, BitVec.ofNat 14 op⟩
def lredS (n : Nat) (i : Instr) : State := memM (List.replicate 7 0 ++ [BitVec.ofNat 64 n]) i

theorem witness_LodeEngineWords_reductions : ∀ n ∈ [1, 65536], ∀ i ∈ [lredI 0, lredwI 0], i.wellFormed = true ∧ Can (lredS n i) i
    ∧ Cached (lredS n i) 1 false 6 memL ∧ (envAt (lredS n i)).act = [0] ∧ ((envAt (lredS n i)).uniform 10).toNat = n
    ∧ ((envAt (lredS n i)).w.v (redIndex 0 8) 0).toNat < n
    ∧ isMem ((lredS n i).elemOf (envAt (lredS n i)) memL ((envAt (lredS n i)).coords 1 false 6 0 0) false (redWidth 0)
        .rdwr true false) = true := by decide +kernel

def lxposeI (w : Nat) : Instr := .lxpose hd { gf0 with d := 191, a := 8, m := BitVec.ofNat 14 w }
def lxposeS (w : Nat) : State := memM (List.replicate 5 0 ++ [5, 5, 0x00010040]) (lxposeI w)

theorem witness_LodeEngineWords_lxpose : ∀ w ∈ [0, 1, 2], (lxposeI w).wellFormed = true ∧ Can (lxposeS w) (lxposeI w)
    ∧ (envAt (lxposeS w)).act = [0] ∧ opGood tileM (lxposeS w) ((lxposeS w).operand (envAt (lxposeS w)) 5 Layout.memory) = true
    ∧ (envAt (lxposeS w)).w.s 10 = 0x00010040
    ∧ (Tile.mk tileM (owOrigin 5) 64 1 ([8, 16, 32].getD w 8)).bounds = true
    ∧ (Tile.mk tileM (owOrigin 5) 1 64 ([8, 16, 32].getD w 8)).bounds = true := by decide +kernel

/-! Several lanes of one issue. -/

/-- The word issues in lanes 0 and 1. -/
def bothLanes (s : State) : State :=
  withWave (fun v => { v with threads := v.threads.modify 1 fun _ => startThread 0x1000 true })
    { s with running := s.running.map fun c => { c with all := 3, group := 3 } }
/-- The core's attributes give the page a format. -/
def formatted (f : BitVec 4) (s : State) : State :=
  { s with alb := [{ core := 0, asid := 1, page := 0, leaf := { leaf1 with fmt := f }, path := [] }] }
/-- An element in memory of one part in no register page, of whole bytes or not; the state stays. -/
def isPlain (s : State) (bytes : Bool) : Elem × State → Bool
  | (.mem ba w _ leaf [p] none, t) => !leaf.isReg && !p.leaf.isReg && decide ((ba % 8 = 0 ∧ w % 8 = 0) ↔ bytes) && decide (t = s)
  | _ => false
def isElem (s : State) : Elem × State → Bool
  | (.mem _ _ _ _ _ _, t) => decide (t = s)
  | _ => false

def stFlt : Instr := .st hd (mf 6 1)
def ldAcqScr : Instr := .ld hd { mf 8 0 with scope := 6 }
theorem witness_LanesTogether_stores : ∀ x ∈ [((0 : BitVec 4), true), (9, false)],
    let s := formatted x.1 (bothLanes (memM [] stFlt))
    stFlt.wellFormed = true ∧ Can s stFlt ∧ Cached s 1 false 6 memL ∧ (envAt s).act = [0, 1] ∧ (envAt s).w.holds = [] ∧ s.sbuf = []
    ∧ ∀ lane ∈ [0, 1], isPlain s x.2 (s.elemOf (envAt s) memL ((envAt s).coords 1 false 6 0 lane) (!rawTy (memTy 6)) (memWidth 6)
        .wr false true) = true := by decide +kernel

theorem witness_LanesTogether_requests : (let s := bothLanes (memM [] atomI)
      Can s atomI ∧ Cached s 1 false 6 memL ∧ memL.memory = true ∧ (envAt s).act = [0, 1] ∧ (envAt s).w.holds = [] ∧ s.sbuf = []
      ∧ ∀ lane ∈ [0, 1], isElem s (s.elemOf (envAt s) memL ((envAt s).coords 1 false 6 0 lane) false (atomWidth 0) .rdwr true false) = true)
    ∧ ∀ n ∈ [1, 65536], ∀ i ∈ [lredI 0, lredwI 0], let s := bothLanes (lredS n i)
      Can s i ∧ Cached s 1 false 6 memL ∧ (envAt s).act = [0, 1] ∧ (envAt s).w.holds = [] ∧ ((envAt s).uniform 10).toNat = n
      ∧ ∀ lane ∈ [0, 1], ((envAt s).w.v (redIndex 0 8) lane).toNat < n
        ∧ isElem s (s.elemOf (envAt s) memL ((envAt s).coords 1 false 6 0 lane) false (redWidth 0) .rdwr true false) = true := by
  decide +kernel

theorem witness_LanesTogether_scratch : (∀ x ∈ [(atomsI, true), (ldAcqScr, false)], let s := bothLanes (mem [] x.1)
      x.1.wellFormed = true ∧ Can s x.1 ∧ Cached s 0 false 6 scrL ∧ (envAt s).act = [0, 1] ∧ (envAt s).w.holds = []
      ∧ (envAt s).wg.parts.length = 1 ∧ ((envAt s).wg.part 0).ue = [] ∧ ((envAt s).wg.part 0).lost = []
      ∧ ∀ lane ∈ [0, 1], scrL.inb ((envAt s).coords 1 false 6 0 lane) = true
        ∧ isScr (scrElem (envAt s).wg 0 scrL ((envAt s).coords 1 false 6 0 lane) (!x.2 && !rawTy (memTy 8)) (if x.2 then 32 else memWidth 8)
          x.2 true) = true)
    ∧ scrL.scratch = true ∧ scrL.memory = false := by decide +kernel

/-! Events of the cores. -/

/-- A resident workgroup with no clause in progress. -/
def idle (w : Word) : State := { placed (.illegalOpcode w) with running := [], agenda := [] }
/-- Its clause stands in a line that its home lode holds: a header of one word and EXIT. -/
def fetchable : State :=
  let s := attributed (mapped [] (idle 0))
  { s with lines := [{ id := 90, lode := s.homeOf 0 0x1000 leaf1, asid := some 1, line := 32, frame := 0, off := 32,
                       data := lineOf 0 (bytesOfNat 8 0xA000000000000000 ++ bytesOfNat 8 0x0201C00000000000) }] }
def theWg (s : State) : Workgroup := (s.wgs.head?).getD (placedWg s 0)
def theWave (s : State) : Wave := ((theWg s).waves.head?).getD { role := .vector, part := 0, slot := 0, n := 0, threads := [] }

def isCand (s : State) : Option Cand × State → Bool
  | (some c, t) => decide (c.trap = none ∧ c.cost = none ∧ t = s)
  | _ => false

theorem witness_ClausesAndWaits_select : fetchable.recalls = [] ∧ fetchable.running = [] ∧ fetchable.wgs = [theWg fetchable]
    ∧ (theWg fetchable).fate = .live ∧ (theWg fetchable).waves = [theWave fetchable] ∧ (theWg fetchable).coreOfWave 0 = 0
    ∧ (theWave fetchable).slot = 0
    ∧ isCand fetchable (fetchable.candidate (theWg fetchable) 0 (theWave fetchable)) = true := by decide +kernel

/-- Two workgroups of one partition's waves: the one of lower priority has the lower slot. -/
def two : State :=
  { fetchable with wgs := [{ theWg fetchable with prio := 3 },
      { theWg fetchable with id := 2, prio := 5, waves := [{ theWave fetchable with slot := 16 }] }] }
def first2 : Workgroup × Nat × Wave := (two.partWaves 0 0).getD 1 (theWg two, 0, theWave two)
/-- Both waves wait for their clauses' stall. -/
def resting : State := { two with wgs := two.wgs.map fun w => { w with waves := w.waves.map fun v => { v with nextAt := 5 } } }

/-- Of two waves with no YIELD in force and not ready for long, the one of the higher priority goes first. -/
theorem goesBefore_prio {s : State} {y z : Workgroup × Nat × Wave} (a : y.2.2.yieldTo = none) (b : z.2.2.yieldTo = none)
    (c : y.2.2.readySince = none) (d : z.2.2.readySince = none) (h : z.1.prio < y.1.prio) : s.goesBefore y z := by
  simp [State.goesBefore, a, b, c, d, h]

theorem witness_ClausesAndWaits_choice : (∀ s ∈ [two, resting], s.recalls = [] ∧ s.running = [] ∧ s.asks = []
      ∧ (∀ w ∈ s.wgs, w.prio ≤ 7 ∧ s.wg? w.id = some w) ∧ (s.partWaves 0 0).length = 2)
    ∧ (∀ y ∈ two.partWaves 0 0, isCand two (two.candidate y.1 y.2.1 y.2.2) = true)
    ∧ (∀ y ∈ resting.partWaves 0 0, resting.candidate y.1 y.2.1 y.2.2 = (none, resting))
    ∧ first2 ∈ two.partWaves 0 0 ∧ first2.1.id = 2 := by decide +kernel

theorem witness_ClausesAndWaits_order : ∀ z ∈ two.partWaves 0 0, z ≠ first2 → two.goesBefore first2 z := by
  have h : ∀ z ∈ two.partWaves 0 0, z ≠ first2 → (first2.2.2.yieldTo = none ∧ z.2.2.yieldTo = none)
      ∧ (first2.2.2.readySince = none ∧ z.2.2.readySince = none) ∧ z.1.prio < first2.1.prio := by decide +kernel
  exact fun z m n => goesBefore_prio (h z m n).1.1 (h z m n).1.2 (h z m n).2.1.1 (h z m n).2.1.2 (h z m n).2.2

def waitsFor (o : WaitOn) (s : State) : State := withThread (fun t => { t with status := .waiting, waitOn := o }) s
def yielded : State := withWave (fun v => { v with yieldTo := some 0 }) (idle 0)
def sleeping : State := waitsFor (.sleep 0) (idle 0)
/-- A claim of 8 registers that nothing can grant: every thread waits for it. -/
def deadlock : State :=
  withPart (fun p => { p with claims := [⟨0, 8, 1, 0, 0x1000, 0⟩] }) (waitsFor .claim (idle 0))
/-- Its thread has parked since. -/
def parkedClaim : State := withThread (fun t => { t with status := .parked }) deadlock
def requested : State := { withWg (fun w => { w with npReq := some 0 }) (withWave (fun v => { v with region := true }) (idle 0)) with clk := 40000000 }

theorem witness_ClausesAndWaits : (yielded.wave? 1 0).map (·.yieldTo) = some (some 0)
    ∧ (sleeping.wave? 1 0).map (fun v => ((v.thread 0).status, (v.thread 0).waitOn, v.threads.length)) = some (.waiting, .sleep 0, 64)
    ∧ (theWg deadlock).fate = .live ∧ deadlock.deadlocked (theWg deadlock) 0 = true
    ∧ ((theWg deadlock).part 0).claims = [⟨0, 8, 1, 0, 0x1000, 0⟩] ∧ (theWg deadlock).ctx.trapVec ≠ 0
    ∧ (∀ d ∈ [deadlock, parkedClaim], ∀ l ∈ List.range 64, ((theWave d).thread l).active = false)
    ∧ parkedClaim.deadlocked (theWg parkedClaim) 0 = true ∧ ((theWave parkedClaim).thread 0).status = .parked
    ∧ (theWg requested).npReq = some 0 ∧ (theWg requested).fate = .live
    ∧ requested.usAfter 0 (min 8000 (max 1 (requested.rf (rSCH_CTL 0) 16 13))) ≤ requested.clk := by decide +kernel

theorem witness_ClausesAndWaits_saving : ∀ d ∈ [withWg (fun w => { w with fate := .saving }) deadlock], (theWg d).fate = .saving
    ∧ d.deadlocked (theWg d) 0 = true := by decide +kernel

/-- A result of two registers that is ready; under `a` it is an acquire, under `far` the sweep has a line to visit. -/
def landing (a : Bool) (far : Bool) : State :=
  let s := attributed (idle 0)
  { s with results := [{ id := 70, wg := 1, wave := 0, cnt := some .ld, regs := [.v 4], writes := [⟨.v 4, 0, 9⟩], ready := true,
                         acq := if a then some 6 else none, adv := far && !a }]
           l1 := if far then [{ core := 0, asid := 1, line := 5, data := 0, stamp := 129, swept := false }] else [] }

def landed1 (s : State) : Result := (s.results.head?).getD { id := 0, wg := 0, wave := 0, cnt := none, regs := [] }

theorem witness_ResultsAndL1_lands : ∀ x ∈ [(false, false), (true, false), (true, true)],
    (landing x.1 x.2).recalls = []
    ∧ ((landing x.1 x.2).results.find? fun r => r.id = 70 && r.ready && r.readyAt ≤ (landing x.1 x.2).clk && !r.adv)
      = some (landed1 (landing x.1 x.2))
    ∧ ((landing x.1 x.2).results.find? fun r => r.id = 70) = some (landed1 (landing x.1 x.2))
    ∧ (landed1 (landing x.1 x.2)).fence = none ∧ ((landing x.1 x.2).wave? 1 0).isSome = true
    ∧ (landing x.1 x.2).resultAdvances (landed1 (landing x.1 x.2)) = x.1 ∧ (landing x.1 x.2).sweepDue 0 = x.2 := by decide +kernel

/-- A landing that waited for a sweep which has passed. -/
def swept : State := { landing false true with l1 := [{ core := 0, asid := 1, line := 5, data := 0, stamp := 129, swept := true }] }

theorem witness_ResultsAndL1_advance : (swept.results.find? fun x => x.adv && swept.resultCore x = 0) = some (landed1 swept)
    ∧ swept.sweepDue 0 = false ∧ (swept.landFence (landed1 swept)).recalls = [] := by decide +kernel

def store1 : SbStore := { wg := 1, wave := 0, lane := 0, va := 0x12000, mask := 0xFF, data := 7, word := ⟨0x1000, 0, true⟩ }
/-- An entry of the store buffer that has stood for 1,024 clk, and a fill on its way to L1. -/
def standing (blocked : Bool) : State :=
  { attributed (idle 0) with
    clk := 1024, sbuf := [⟨0, 1, 576, 0xFF, 7, .allocate, leaf1, 0, [store1], 0⟩], l1fills := [⟨80, 0, 1, 5, 9, 0⟩],
    reqs := if blocked then [{ id := 81, core := 0, wg := 1, wave := 0, lane := 0, op := 0, q := 0, ctx := 0, asid := 1, va := 640,
                               line := 5, leaf := leaf1, what := .store 0xFF 7, lvl := .allocate, l1 := false, stamp := 0 }] else [] }

theorem witness_ResultsAndL1 : (∀ x ∈ (standing false).sbuf, x.born + 1024 ≤ (standing false).clk ∧ x.stores ≠ [])
    ∧ ((standing false).l1fills.find? fun x => x.id = 80) = some ⟨80, 0, 1, 5, 9, 0⟩ ∧ (standing false).reqs = []
    ∧ ((standing true).reqs.any fun r => r.core = 0 && r.asid = 1 && r.line = 5 && !(r.isLoad && r.l1)) = true := by decide +kernel

/-! The matrix queue and copies. -/

def entryOf (op : MatOp) : MqEntry := { id := 60, core := 0, wg := 1, part := 0, waves := [0], op := op, pebbles := 1 }
def queued (op : MatOp) : State := { accS [4, 4] mmaI with running := [], agenda := [], mq := [entryOf op] }
def drainOp : MatOp := .drain 4 0 tileL tileL 0 1 1 ⟨0x1000, 0, true⟩

theorem witness_MatrixQueue_turns : (∀ op ∈ [MatOp.accz 0 4, .accld 0 65532 4, .accrd 70 [(0, 4095)] 255,
      .mma mmaBead tileL tileL 16 8 8 false false, drainOp], (queued op).recalls = []
      ∧ (queued op).wgs.all (fun w => w.fate ≠ .ending && w.parts.all fun p => p.ue = [] && p.lost = []) = true
      ∧ ((queued op).mq.find? fun x => x.core = 0) = some (entryOf op) ∧ ((queued op).wg? 1) = some (theWg (queued op)))
    ∧ ((theWg (queued drainOp)).part 0).bad none 65532 4 = false ∧ ((theWg (queued drainOp)).part 0).accUe = []
    ∧ ((theWg (queued drainOp)).part 0).ue = [] ∧ (entryOf drainOp).inj = none ∧ (⟨1, 0⟩ : DrainArgs).clr = false
    ∧ drainLines ((⟨1, 0⟩ : DrainArgs).tiles 4 0 tileL tileL) ((⟨1, 0⟩ : DrainArgs).writes fun _ _ => f32F.decode 0) = [] := by
  decide +kernel

def waitingMma : State :=
  { queued (.accz 0 4) with mwait := [entryOf (.mma mmaBead tileL tileL 16 8 8 false false)], asks := [{ since := 0, cost := 1, op := 60, wg := 1, wave := 0, pc := 0 }], mq := [] }

theorem witness_MatrixQueue : (waitingMma.mwait.find? fun x => x.id = 60) = some (entryOf (.mma mmaBead tileL tileL 16 8 8 false false))
    ∧ waitingMma.mqFree 0 = true ∧ (waitingMma.asks.any fun a => a.op = 60) = true ∧ waitingMma.askTurn (waitingMma.asks.takeWhile fun a => a.op ≠ 60) mmaBead.cost = true
    ∧ waitingMma.rf (rCORE_ACCINJ 0) 32 1 = 0 := by decide +kernel

/-- A copy of a box of four words from scratch to scratch, in its states. -/
def copy1 (read : Bool) (dlv : Bool) : Copy :=
  { id := 60, core := 0, wg := 1, wave := 0, copyId := 0, status := 191, src := scrL, dst := scrL, sc := [0, 0, 0, 0, 0],
    dc := [8, 0, 0, 0, 0], box := [4, 1, 1, 1, 1], w := 32, tr := false, lvl := .allocate, parts := [0], memDst := false,
    srcObj := none, dstObjs := [], gens := [(0, 0)], cgen := 0, save := 0,
    read := if read then [(0, List.replicate 64 1, some 0)] else [], delivered := if dlv then [(0, 0)] else [] }
def copying (r d : Bool) : State := { accS [4, 4] mmaI with running := [], agenda := [], copies := [copy1 r d] }
def transposing : State :=
  { copying false false with copies := [], xposes := [{ copy := copy1 false false, next := (copy1 false false).chunks, bytes := 16, cut := false }] }
def someRd (c : Copy) : Bool :=
  match c.chunkAt 0 with
  | some bs => (bs.find? fun b => b.rd ≠ 0).isSome
  | none => false

theorem witness_CopySteps : (copying false false).copyLive 60 = some (copy1 false false, theWg (copying false false))
    ∧ someRd (copy1 false false) = true ∧ scrL.memory = false ∧ (theWg (copying false false)).parts.all (fun p => p.ue = [] && p.lost = []) = true
    ∧ (theWg (copying false false)).abandoned = false
    ∧ ((copying true false).copies.find? fun x => x.id = 60) = some (copy1 true false)
    ∧ (copy1 true false).arrived 0 0 = false ∧ ((copy1 true false).read.find? fun x => x.1 = 0).isSome = true
    ∧ ((theWg (copying true false)).part 0).gen = 0 ∧ (copy1 true true).chunks * 1 ≤ (copy1 true true).delivered.length
    ∧ (transposing.xposes.find? fun y => y.copy.id = 60).isSome = true
    ∧ (transposing.wg? 1).isSome = true := by decide +kernel

/-! Events of the lodes: one line of 0x12000 held at its home lode. -/

def home1 : Nat := (attributed (idle 0)).homeOf 0 0x12000 leaf1
def line1 : LLine := { id := 90, lode := home1, asid := some 1, line := 576, frame := 1, off := 64, data := 0x1234 }
def atLode : State :=
  let s := attributed (mapped [] (idle 0))
  { s with lines := [line1], tb := [⟨home1, 1, 0, leaf1, [], [0, 0, 0, 0], false⟩], nextId := 100 }
def req1 (what : ReqOp) (cause : Option Cause) : Req :=
  { id := 81, core := 0, wg := 1, wave := 0, lane := 0, op := 70, q := 0, ctx := 0, asid := 1, va := 0x12000, line := 576,
    leaf := leaf1, what := what, lvl := .allocate, l1 := false, stamp := 0, cause := cause, who := 1 }
def asking (what : ReqOp) (cause : Option Cause) : State := { atLode with reqs := [req1 what cause] }
def gotOk {α : Type} : Got α × State → Bool
  | (.ok _, t) => t.recalls = []
  | _ => false
def gotFault {α : Type} : Got α × State → Bool
  | (.fault _, t) => t.recalls = []
  | _ => false

theorem witness_LodeRequests : (∀ w ∈ [ReqOp.load 0 32 0, .store 0xFF 7, .atomic 0 0 32 1 0],
      (asking w none).recalls = [] ∧ (asking w none).reqById 81 = some (req1 w none) ∧ (req1 w none).goes = true
      ∧ (asking w none).reqBlocked (req1 w none) = false ∧ (asking w none).portShut (req1 w none) = false)
    ∧ gotOk ((asking (.load 0 32 0) none).readLine ((asking (.load 0 32 0) none).reqAcc (req1 (.load 0 32 0) none)) 0xFF) = true
    ∧ atLode.recOfWg 1 = none ∧ atLode.auditHeld 0 1 0x12000 none = false ∧ (atLode.lodeOf home1).asleep = false
    ∧ atLode.homeOf 0 0x12000 leaf1 = home1 ∧ atLode.lineAt home1 1 576 = some line1 ∧ atLode.lineById 90 = some line1
    ∧ atLode.testsWrites home1 = false ∧ atLode.dir = [] ∧ atLode.lineUnder line1 kKeepout = false ∧ line1.transit = false := by decide +kernel

/-- The request comes from a core of another die than the line's home; the port between them is closed. -/
def farReq : Req := { req1 (.load 0 32 0) none with core := 64 * ((home1 / 64 + 1) % 4) }
theorem witness_LodeRequests_port : let s : State := { asking (.load 0 32 0) none with reqs := [farReq] }
    s.recalls = [] ∧ s.reqById 81 = some farReq ∧ farReq.goes = true ∧ s.reqBlocked farReq = false ∧ s.portShut farReq = true := by
  decide +kernel

/-- The page of the line asks for a stratum that no contract backs: its access faults. -/
def stratum : State := { asking (.load 0 32 0) none with lines := [], tb := [⟨home1, 1, 0, { leaf1 with so := true }, [], [0, 0, 0, 0], false⟩] }

theorem witness_LodeRequests_fault : gotFault (stratum.readLine (stratum.reqAcc (req1 (.load 0 32 0) none)) 0xFF) = true := by decide +kernel

def faulted (c : Cause) : State := asking (.load 0 32 0) (some c)
theorem witness_LodeRequests_returns : ∀ c ∈ [Cause.notPresent, .strata], let r := req1 (.load 0 32 0) (some c)
    (faulted c).reqById 81 = some r ∧ ((faulted c).wg? 1).isSome = true ∧ r.parked = false ∧ r.prefetch = false
    ∧ (theWg (faulted c)).fate = .live ∧ (faulted c).parkMates (theWg (faulted c)) r = [r] ∧ lanesOf r.lanes = [0]
    ∧ ((faulted c).parkPc (theWg (faulted c)) 0 0 r).isSome = true ∧ ((theWave (faulted c)).thread 0).status = .eligible
    ∧ ((theWave (faulted c)).thread 0).active = false ∧ c.service = decide (c = .notPresent) := by decide +kernel

def park1 : Park :=
  { id := 40, ctx := 0, q := 0, wg := 1, wave := 0, lanes := 1, cause := .notPresent, tinfo := 0, fault := none, reported := false,
    issued := some ⟨0x1000, 0, true⟩ }
def parkedS (p : Park) : State := { withThread (fun t => { t with status := .parked }) atLode with parks := [p] }
theorem witness_LodeRequests_retry : ((parkedS park1).parks.find? fun x => x.id = 40) = some park1
    ∧ (parkedS park1).faultId 0 0 = some 0 := by decide +kernel

/-- A fill of the line, from device memory, from the host, or from a peer. -/
def fill1 (ext peer : Bool) : Fill :=
  { id := 30, lode := home1, asid := 1, line := 576, leaf := if ext then { leaf1 with loc := true } else leaf1, lvl := .allocate, ext := ext, peer := peer }
def filling (ext peer : Bool) : State :=
  { atLode with lines := [], fills := [fill1 ext peer],
                tb := [⟨home1, 1, 0, (fill1 ext peer).leaf, [], [0, 0, 0, 0], false⟩] }
def writing (peer : Bool) (mask : Line) (sent : Bool) : State :=
  { atLode with extWrites := [{ id := 31, pa := 0, mask := mask, data := 0, peer := peer, sent := sent }] }
/-- The first 64 B of the host's line have come. -/
def half1 : Fill := { fill1 true false with first := some (List.replicate 64 1) }

theorem witness_FillsAndWalks_fills : ((filling false false).fills.find? fun x => x.id = 30 && !x.ext) = some (fill1 false false)
    ∧ (filling false false).holder 1 64 = none ∧ leaf1.frameOf (128 * 576) = 1 ∧ lineOff (128 * 576) = 64
    ∧ (∀ x ∈ [(false, false), (true, false), (true, true)], ({ filling x.1 x.2 with fills := [] } : State).fillLive (fill1 x.1 x.2) = true
      ∧ (filling x.1 x.2).lineAt home1 1 576 = none)
    ∧ (∀ p ∈ [false, true], ((filling true p).fills.find? fun x => x.id = 30 && x.ext && x.peer = p) = some (fill1 true p)
      ∧ (fill1 true p).first = none ∧ (fill1 true p).grant = false) := by decide +kernel

theorem witness_FillsAndWalks_halves : (({ filling true false with fills := [half1] } : State).fills.find? fun x => x.id = 30 && x.ext && !x.peer) = some half1
    ∧ ({ filling true false with fills := [] } : State).fillLive half1 = true ∧ half1.first.isSome = true := by decide +kernel

theorem witness_FillsAndWalks_writes : (∀ p ∈ [false, true], ∀ d ∈ [false, true], (writing p 1 d).fills = []
      ∧ ((writing p 1 d).extWrites.find? fun x => x.id = 31 && x.peer = p).isSome = true)
    ∧ (touchesHalf 1 false && touchesHalf 1 true) = false
    ∧ (touchesHalf (halfMask false ||| halfMask true) false && touchesHalf (halfMask false ||| halfMask true) true) = true := by decide +kernel

def walking (va : Nat) : State := { atLode with lines := [], tb := [], walks := [{ id := 32, lode := home1, asid := 1, va := va }] }
def walked (va : Nat) : Walked := ({ walking va with walks := [] } : State).walk ((walking va).leadOfLode home1) 1 va
def installed : Installed × State → Bool
  | (.ok, t) => t.recalls = []
  | _ => false
def installs (w : Walked) : Bool :=
  match w.res with
  | .ok l => installed (w.st.install (w.st.leadOfLode home1) home1 1 0x12000 l w.path)
  | .error _ => false
def deferring : State := { atLode with lines := [], tb := [], deferred := [⟨33, home1, 1, 0x12000, leaf1, []⟩] }

theorem witness_FillsAndWalks_walks : installs (walked 0x12000) = true
    ∧ (match (walked 0x40000000).res with
      | .error _ => decide ((walked 0x40000000).st.recalls = [])
      | .ok _ => false) = true
    ∧ installed (deferring.install (deferring.leadOfLode home1) home1 1 0x12000 leaf1 []) = true := by decide +kernel

theorem witness_FillsAndWalks_open : ({ filling false false with fills := [] } : State).storeShut home1 1 = false
    ∧ ∀ va ∈ [0x12000, 0x40000000], ({ walking va with walks := [] } : State).walkShut home1 1 va (walked va).path = none := by
  decide +kernel

/-- The walk of a lode of another die than the root table's, the port between them closed. -/
def farLode : Nat := 64 * ((atLode.physHome 0 0 / 64 + 1) % 4)
def farWalk : State := { walking 0x12000 with walks := [{ id := 32, lode := farLode, asid := 1, va := 0x12000 }] }
theorem witness_FillsAndWalks_shut : let s0 : State := { farWalk with walks := [] }
    (farWalk.walks.find? fun x => x.id = 32).isSome = true ∧ farWalk.recalls = []
    ∧ (s0.walkShut farLode 1 0x12000 (s0.walk (s0.leadOfLode farLode) 1 0x12000).path).isSome = true := by decide +kernel

/-- The line's frame lies in a peer's aperture, whose link is fenced. -/
def toPeer : State :=
  ((((((filling true true).setRf (rNRH_APB 0) 0 1 1).setRf (rNRH_APB 0) 16 36 1).setRf (rNRH_APS 0) 0 36 1).setRf (rNRH_APS 0) 48 16 7).setRf
    (rNRH_LNK 0) 0 3 5).setRf (rNRH_LNK 0) 8 16 7
theorem witness_FillsAndWalks_fenced : (toPeer.fills.find? fun x => x.id = 30 && x.ext && x.peer) = some (fill1 true true)
    ∧ (toPeer.fencedFrame ((fill1 true true).leaf.frameOf (128 * (fill1 true true).line))).isSome = true
    ∧ ((filling true true).fencedFrame ((fill1 true true).leaf.frameOf (128 * (fill1 true true).line))).isSome = false := by decide +kernel

/-- A record of four contributions at the line of 0x12000, in which index 1 has been combined, and one of index `i`. -/
def red1 (held : List (Nat × Word)) : RedRec :=
  { id := 20, lode := home1, q := 0, asid := 1, va := 0x12000, op := 0, n := 10000, nxt := 1, acc := 5, got := [0], held := held,
    ctxs := [0], waiters := [] }
def contributing (op n i : Nat) (wait : Bool) (held : List (Nat × Word)) : State :=
  { asking (.lred op n i 3 false wait) none with reds := [red1 held] }
def keepsReds (s : State) : Got LLine × State → Bool
  | (.ok l, t) => decide (l.lode = home1 ∧ t.recalls = [] ∧ t.reds = s.reds ∧ t.reds.all (fun z => !z.kept) = true ∧ t.lines.all (fun z => z.lo = .i && z.hi = .i) = true)
  | _ => false
def many : List (Nat × Word) := (List.range 4096).map fun k => (k + 3, 0)

theorem witness_Contributions : (∀ w ∈ [false, true], ∀ x ∈ [(0, 10000, 0), (1, 10000, 1), (0, 5, 1), (0, 10000, 1), (0, 10000, 9999)],
      (contributing x.1 x.2.1 x.2.2 w []).redReq 81 w = some (req1 (.lred x.1 x.2.1 x.2.2 3 false w) none)
      ∧ (contributing x.1 x.2.1 x.2.2 w []).portShut (req1 (.lred x.1 x.2.1 x.2.2 3 false w) none) = false)
    ∧ keepsReds (contributing 0 10000 1 false []) ((contributing 0 10000 1 false []).ensure
      ((contributing 0 10000 1 false []).reqAcc (req1 (.lred 0 10000 1 3 false false) none))) = true
    ∧ (contributing 0 10000 1 false []).heldAt home1 = 0 ∧ (red1 []).runOf = none ∧ (contributing 0 10000 1 false []).recs = []
    ∧ (contributing 0 10000 9999 false many).heldAt home1 = 4096 := by decide +kernel

def closing : State := { atLode with reds := [{ red1 [] with n := 1 }] }
def writesRed : Option Acc1 × State → Bool
  | (some a, t) => decide (a.va = 0x12000) && gotOk (t.writeLine a (lineBits 0 32) 5 [])
  | _ => false
theorem witness_Contributions_close : (closing.reds.find? fun z => z.id = 20) = some { red1 [] with n := 1 } ∧ (red1 []).kept = false
    ∧ closing.recalls = [] ∧ writesRed (closing.redAcc { red1 [] with n := 1 } none) = true := by decide +kernel

/-! Shoot-downs. -/

def inval1 (cores lodes : List Nat) : Inval := { id := 50, line := 8, cores := cores, lodes := lodes, writers := [], host := true }
def shooting (cores lodes : List Nat) : State := { atLode with invals := [inval1 cores lodes], rmap := [(1, some { asid := 1, page := 0x10000, size := .k64, home := 0, die := 0 })] }

theorem witness_ShootDowns : ((shooting [0] []).invals.find? fun x => x.id = 50 && x.cores.contains 0) = some (inval1 [0] [])
    ∧ (shooting [0] []).sbuf = [] ∧ (shooting [0] []).reqs = []
    ∧ ((shooting [] [home1]).invals.find? fun x => x.id = 50 && x.cores = [] && x.lodes.contains home1) = some (inval1 [] [home1])
    ∧ ((shooting [] [home1]).tbInval (inval1 [] [home1]) home1).recalls = []
    ∧ ((shooting [] []).invals.find? fun x => x.id = 50 && x.cores = [] && x.lodes = []) = some (inval1 [] [])
    ∧ (shooting [] []).leads 0 = true ∧ (shooting [] []).partSecure 0 = false
    ∧ (shooting [] []).ownsFrame 0 1 = true ∧ (shooting [] []).rmapOf 1 = some { asid := 1, page := 0x10000, size := .k64, home := 0, die := 0 }
    ∧ (shooting [] []).ownsFrame 0 (2 ^ 30) = false := by decide +kernel

/-- A core of the partition is in the secure world. -/
def secured (s : State) : State := s.setReg (rWLD_CORE 0) 1
theorem witness_ShootDowns_secure : (secured (shooting [] [])).partSecure 0 = true ∧ (secured (shooting [] [])).leads 0 = true := by
  decide +kernel

def frame1 (st : FState) (prior : FState) : Frame := { st := st, prior := prior, flakes := if st = .compressed then [0, 1] else if st = .raw then List.range 64 else [] }
/-- Frame 5 in a state, and TMB_CMD_STAT of quarter 0 busy or not. -/
def tumbling (st : FState) (busy : Bool) : State :=
  let s : State := { State.reset with frames := [(5, frame1 st .raw)] }
  if busy then s.setRf (rTMB_CMD_STAT 0) 0 1 1 else s
/-- Frame 5 in a secure region. -/
def secureFrame : State := ((tumbling .raw false).setReg (rREGION 0 0 0) (BitVec.ofNat 64 (5 + 2 ^ 62 + 2 ^ 63))).setReg (rREGION 0 0 1) 1

theorem witness_Tumbler_commands : (∀ b ∈ [false, true], (tumbling .raw b).leads 0 = true ∧ (tumbling .raw b).rf (rTMB_CMD_STAT 0) 0 1 = b.toNat)
    ∧ (tumbling .raw false).ownsFrame 0 5 = true ∧ (tumbling .raw false).ownsFrame 0 (2 ^ 30) = false
    ∧ secureFrame.frameSecure 0 5 = true ∧ (tumbling .raw false).frameSecure 0 5 = false
    ∧ (tumbling .raw false).rmapOf 5 = none ∧ (tumbling .raw false).lines = []
    ∧ (∀ st ∈ [FState.raw, .balloon, .reclaimed, .compressed, .busy], ((tumbling st false).frame 5).st = st) := by decide +kernel

theorem witness_Tumbler_states : (∀ op ∈ [3, 4, 5, 6], (∃ st ∈ [FState.raw, .compressed], tmbStateOk op st = true) ∧ tmbStateOk op .busy = false)
    ∧ ((tumbling .raw false).partLodes 0).contains 63 = true ∧ ((tumbling .raw false).partLodes 0).contains 64 = false := by decide +kernel

def toRawRun (started : Bool) (st : FState) : State :=
  { tumbling st false with tmbRuns := [{ q := 0, op := 4, frame := 5, fmt := 0, lode := 0, started := started, result := 0, st := .raw, extra := 0 }] }
def drawn (s : State) : Bool :=
  match s.takeFlakes 0 5 62 s.nextId with
  | some t => decide (t.recalls = [])
  | none => false

theorem witness_Tumbler_toRaw : drawn (toRawRun false .compressed) = true ∧ (toRawRun false .compressed).frameStuck 5 = false
    ∧ ((toRawRun false .compressed).frame 5).st = .compressed
    ∧ (toRawRun false .compressed).lwm 0 + (64 - ((toRawRun false .compressed).frame 5).flakes.length) ≤ (toRawRun false .compressed).freeOf 0
    ∧ ((toRawRun true .busy).frame 5).st = .busy
    ∧ (toRawRun true .busy).lines = [] ∧ ((toRawRun true .busy).tmbRuns.find? fun x => x.q = 0).isSome = true := by decide +kernel

def tagged (dirty : Bool) (stuck : Option Nat) : State :=
  { tumbling .raw false with lines := [{ id := 90, lode := 0, asid := none, line := 512 * 5 + 3, frame := 5, off := 3, data := 1, dirty := dirty, stuck := stuck }] }
def wroteBack (s : State × Bool) : Bool := s.2 && decide (s.1.recalls = [])

theorem witness_Tumbler_lines : (∀ d ∈ [false, true], ((tagged d none).lineById 90).isSome = true
      ∧ ((tagged d none).frame 5).st = .raw ∧ ((tagged d none).frame 5).flakes ≠ [])
    ∧ (minBy (fun x => x.stuck.getD 0) ((tagged true (some 0)).lines.filter fun x => x.stuck.isSome && (tagged true (some 0)).leadOfLode x.lode = 0)).isSome = true
    ∧ wroteBack ((tagged true (some 0)).writeback 90) = true := by decide +kernel

/-- The frame's request waits for its 64 flakes. -/
def ungranted : State := { State.reset with frames := [(5, { st := .raw })], rawWait := [(3, 5)] }
def reclaimS (f : List Nat) (free : Bool) : State :=
  let s : State := { State.reset with tmb := [(0, { reclaiming := true, balloon := f, begun := 100 })], clk := 612, frames := [(5, { st := .balloon, prior := .raw, flakes := List.range 64 })] }
  if free then s else s.setRf (rTMB_POOL 0) 32 32 100
def migrating : State := { tumbling .compressed false with migrations := [⟨0, 7, 1, 0x50000, 5, false⟩] }
def movesFlakes (s : State) : Bool :=
  match ({ s with migrations := [] } : State).moveFlakes 0 5 7 with
  | some t => decide (t.recalls = [])
  | none => false

theorem witness_Tumbler_steps : (ungranted.takeFlakes (ungranted.frameLead 5) 5 64 3).isSome = true
    ∧ (ungranted.rawWait.find? fun x => x.2 = 5) = some (3, 5) ∧ (∀ w ∈ ungranted.rawWait, w.2 ≠ 6)
    ∧ ((reclaimS [5] false).tmbOf 0).begun + 512 = (reclaimS [5] false).clk ∧ (reclaimS [5] false).reclaimOver 0 = false
    ∧ (reclaimS [] true).reclaimOver 0 = true
    ∧ (∀ b ∈ [false, true], ((reclaimS [5] b).tmbOf 0).reclaiming = true) ∧ (reclaimS [] true).hwm 0 ≤ (reclaimS [] true).freeOf 0
    ∧ (reclaimS [5] true).sdCount 0 + (reclaimS [5] true).hostCount 0 = 0 ∧ (reclaimS [5] false).freeOf 0 < (reclaimS [5] false).hwm 0
    ∧ movesFlakes migrating = true ∧ (migrating.migrations.find? fun x => x.q = 0).isSome = true
    ∧ (migrating.frame 5).st = .compressed ∧ migrating.rf (rTMB_CMD_STAT 0) 0 1 = 0 := by decide +kernel

theorem witness_Tumbler_ctl : (let s := State.reset.setRf rTMB_CTL 0 1 1
    s.rf rTMB_CTL 8 11 = 768 ∧ ∀ q ∈ s.leadList, s.capFrames q 1536 / 2 - s.dirNow q ≤ s.freeOf q - s.lwm q)
    ∧ wfld (BitVec.ofNat 64 (1 + 1536 * 256)) 8 11 = 1536 ∧ wfld (BitVec.ofNat 64 (1 + 767 * 256)) 8 11 = 767 := by decide +kernel

/-- The refusals of MIGRATE. -/
theorem witness_Tumbler_migrate : (tumbling .raw true).rf (rTMB_CMD_STAT 0) 0 1 = 1 ∧ (tumbling .raw false).ownsFrame 0 5 = true
    ∧ (tumbling .raw false).ownsFrame 0 (2 ^ 30) = false
    ∧ ((tumbling .raw false).partLodes 0).contains 300 = false ∧ ((tumbling .raw false).partLodes 0).contains 9 = true
    ∧ secureFrame.frameSecure 0 5 = true ∧ tmbStateOk 6 ((tumbling .busy false).frame 5).st = false
    ∧ tmbStateOk 6 ((tumbling .raw false).frame 5).st = true := by decide +kernel

/-- Compressed memory with 1,024 GiB advertised, frame `f` in a state, and `free` flakes in the pool. -/
def ctl (f : Nat) (st : FState) (free : Nat) : State :=
  let s := ((State.reset.setRf rTMB_CTL 0 1 1).setRf rTMB_CTL 8 11 1024).setRf (rPART_ILN 0) 0 36 4194304
  { s.setRf (rTMB_POOL 0) 32 32 free with frames := [(f, frame1 st .raw)] }
theorem witness_Tumbler_ctlRoom : (ctl 5 .raw 100).rf rTMB_CTL 8 11 = 1024 ∧ (ctl 5 .raw 100).rf rTMB_CTL 0 1 = 1
    ∧ (ctl 5 .raw 100).leadList = [0] ∧ ¬((ctl 5 .raw 100).capFrames 0 1536 / 2 - (ctl 5 .raw 100).dirNow 0 ≤ (ctl 5 .raw 100).freeOf 0 - (ctl 5 .raw 100).lwm 0)
    ∧ (ctl 5 .raw (10 ^ 8)).capFrames 0 1536 / 2 - (ctl 5 .raw (10 ^ 8)).dirNow 0 ≤ (ctl 5 .raw (10 ^ 8)).freeOf 0 - (ctl 5 .raw (10 ^ 8)).lwm 0
    ∧ (∀ st ∈ [FState.raw, .balloon], (ctl 3145728 st 100).frameBase 0 + (ctl 3145728 st 100).capFrames 0 768 ≤ 3145728
      ∧ (ctl 3145728 st 100).ownsFrame 0 3145728 = true) := by decide +kernel

theorem witness_Tumbler_ctlSame : let s := State.reset.setRf rTMB_CTL 0 1 1
    s.leadList = [0] ∧ s.dirNow 0 = s.capFrames 0 768 / 2 := by decide +kernel

/-! Columns, the pool's division, contracts, key-value entries. -/

/-- Lode 39, an edge column, with `lost` sites of group 0 lost, bus A and bus B standing or not, and a role map waiting. -/
def column (lost : Nat) (a b : Bool) (next : Option Word) : State :=
  let s : State := { State.reset with lodeX := [(39, { lost := maskOf ((List.range lost).map fun k => [0, 1, 8].getD k 0) |>.setWidth 32, roleNext := next })] }
  ((s.setRf (rSTR_STAT 39) 3 1 a.toNat).setRf (rSTR_STAT 39) 4 1 b.toNat).setRf (rSTR_STAT 39) 8 2 lost
/-- A HOLD contract of `n` lines at lode 39. -/
def holding (n : Nat) (s : State) : State :=
  { s with contracts := [{ id := 9, q := 0, kind := kHold, ctx := 0, asid := 1, base := 0, pages := 1, world := false, lines := [(39, n)] }] }

/-- Lines of the banks that have the cache role under a map. -/
def stays39 (s : State) (map : Word) : Nat := 8192 * (s.banksOf 39 map 0).length
/-- The column's core has been retired while a map waited. -/
def gone39 (map : Word) : State := { column 0 true true (some map) with coreX := [(39, { retired := true })] }
/-- A PIN contract of more lines than the map's one bank has. -/
def pinning (n : Nat) : State :=
  { column 0 true true (some 2) with contracts := [{ id := 9, q := 0, kind := kPin, ctx := 0, asid := 1, base := 0, pages := 1, world := false, lines := [(n, 8193)] }] }

theorem witness_ColumnsAndPool_roles : nBanks 39 = 24 ∧ State.reset.lodeSecure 39 = false
    ∧ 8192 * (State.reset.banksOf 39 0xAAAAAAAAAAAA 0).length < State.reset.cacheBound 39
    ∧ State.reset.granted 39 kPin ≤ 8192 * (State.reset.banksOf 39 2 2).length
    ∧ State.reset.cacheBound 39 ≤ 8192 * (State.reset.banksOf 39 2 0).length ∧ State.reset.kv = [] ∧ State.reset.deepUsed 39 = 0
    ∧ (State.reset.coreOf 39).retired = false
    ∧ 8192 * ((holding 1 (column 0 true true (some 0xAAAAAAAAAAAA))).banksOf 39 0xAAAAAAAAAAAA 0).length < (holding 1 (column 0 true true (some 0xAAAAAAAAAAAA))).granted 39 kHold
    ∧ stays39 (holding 1 (column 0 true true (some 0xAAAAAAAAAAAA))) 0xAAAAAAAAAAAA < (holding 1 (column 0 true true (some 0xAAAAAAAAAAAA))).granted 39 kHold
    ∧ (column 0 true true (some 2)).granted 39 kHold ≤ stays39 (column 0 true true (some 2)) 2
    ∧ (gone39 1).noDeep 39 ((gone39 1).reg (rSTR_ROLE 39)) 1 = true ∧ (gone39 2).noDeep 39 ((gone39 2).reg (rSTR_ROLE 39)) 2 = false
    ∧ ((gone39 1).lodeOf 39).roleNext = some 1 ∧ (State.reset.setReg (rWLD_LODE 0) (1 <<< 39)).lodeSecure 39 = true
    ∧ (holding 1 (column 0 true true (some 0xAAAAAAAAAAAA))).noDeep 39 0 0xAAAAAAAAAAAA = false
    ∧ (pinning 39).granted 39 kPin > 8192 * ((pinning 39).banksOf 39 2 2).length
    ∧ (column 0 true true (some 2)).granted 39 kPin ≤ 8192 * ((column 0 true true (some 2)).banksOf 39 2 2).length
    ∧ (column 0 true true (some 2)).recalls = [] ∧ (column 0 true true (some 2)).kv = [] ∧ (column 0 true true (some 2)).lines = []
    ∧ (column 0 true true (some 2)).deepUsed 39 = 0 ∧ (column 2 true true none).lines = [] := by
  decide +kernel

theorem witness_ColumnsAndPool_sites : (∀ n ∈ [0, 1], (column n true true none).lostIn 39 (siteGroup 39 [0, 1, 8][n]!) < 2
      ∧ bitAt ((column n true true none).lodeOf 39).lost [0, 1, 8][n]! = false)
    ∧ (column 2 true true none).lostIn 39 (siteGroup 39 8) = 2 ∧ (column 2 true true none).wgs = [] ∧ 31 < 4 * perLayer 39
    ∧ (List.range (nBanks 39 / 6)).find? (fun g => (column 2 true true none).lostIn 39 g = 1 || (column 2 true true none).lostIn 39 g = 2) = some 0
    ∧ ((column 2 true true none).roleBanks 39 0).getLast? = some 23
    ∧ (column 2 true true none).cacheBound 39 + 8192 ≤ (column 2 true true none).roleLines 39 0
    ∧ (holding 196608 (column 2 true true none)).roleLines 39 0 < (holding 196608 (column 2 true true none)).cacheBound 39 + 8192
    ∧ (∀ x ∈ [(true, true), (true, false), (false, true)], (column 0 x.1 x.2 none).rf (rSTR_STAT 39) 3 1 = x.1.toNat
      ∧ (column 0 x.1 x.2 none).rf (rSTR_STAT 39) 4 1 = x.2.toNat) := by decide +kernel

def applied : State := { State.reset with coreX := [(5, { applying := some (8, 63, 63) })] }
theorem witness_ColumnsAndPool_pool : State.reset.live .core 5 = true ∧ State.reset.guarded .core 5 = false ∧ State.reset.rf (rPOOL_REG_TOP 5) 18 1 = 0
    ∧ poolLimits 16 (State.reset.rf (rPOOL_SCR_TOP 5) 8 6) (State.reset.rf (rPOOL_ACC_TOP 5) 8 6) = true
    ∧ poolLimits 63 (State.reset.rf (rPOOL_SCR_TOP 5) 8 6) (State.reset.rf (rPOOL_ACC_TOP 5) 8 6) = false
    ∧ State.reset.coreEmpty 5 = true ∧ State.reset.copyTo 5 = false ∧ (idle 0).coreEmpty 0 = false
    ∧ (applied.coreOf 5).applying = some (8, 63, 63) ∧ (secured State.reset).guarded .core 0 = true
    ∧ (secured State.reset).live .core 0 = true := by decide +kernel

def ctrReq (kind : Option Nat) : CtrReq :=
  { id := 44, res := 70, q := 0, ctx := 0, asid := 1, world := false, save := 0, kind := kind, base := 0x10000, pages := 1 }
def pinC (kind : Nat) : Contract := { id := 9, q := 0, kind := kind, ctx := 0, asid := 1, base := 0x10000, pages := 1, world := false, lines := [] }
def contracting (kind : Option Nat) (c : List Contract) : State :=
  { atLode with lines := [], ctrReqs := [ctrReq kind], contracts := c,
                results := [{ id := 70, wg := 1, wave := 0, cnt := some .ctr, regs := [.s 0] }] }

theorem witness_ContractsAndKeyValue_contracts :
    (∀ k ∈ [some 0, some 1, some 2, none], ((contracting k []).ctrReqs.find? fun x => x.id = 44) = some (ctrReq k))
    ∧ ((contracting (some 1) []).takeIn (ctrReq (some 1)) 1).1 = 0
    ∧ (∀ k ∈ [0, 1, 2], ∀ c ∈ [[], [pinC 1]], ((contracting (some k) c).takeIn (ctrReq (some k)) k).2.recalls = [])
    ∧ ((contracting (some 1) [pinC 1]).takeIn (ctrReq (some 1)) 1).1 ≠ 0 ∧ (ctrReq none).owes = none
    ∧ ((contracting none []).contracts.find? fun c => c.base = 0x10000) = none
    ∧ ((contracting none [pinC 1]).contracts.find? fun c => c.q = 0 && c.asid = 1 && c.ctx = 0 && c.base = 0x10000) = some (pinC 1)
    ∧ (pinC 1).kind ≠ kPin := by decide +kernel

/-- A release made, of which a line is still on its way to host memory, or none. -/
def owing (w : List Nat) : State :=
  { contracting none [] with
    ctrReqs := [{ ctrReq none with owes := some [31] }],
    extWrites := w.map fun n => { id := n, pa := 0, mask := 0, data := 0, peer := false } }
theorem witness_ContractsAndKeyValue_owes : (owing [31]).stillOwed [31] = true ∧ (owing []).stillOwed [31] = false
    ∧ ∀ w ∈ [[], [31]], (owing w).recalls = [] ∧ (owing w).ctrReqs = [{ ctrReq none with owes := some [31] }] := by decide +kernel

def kvReq (op : KvOp) : KvReq := { id := 45, res := 70, wg := 1, part := 0, q := 0, ctx := 0, asid := 1, key := 7, op := op, gen := 0, save := 0 }
def kvLode : Nat := 7
def kvEntry (pins : Nat) : KvEntry := { lode := kvLode, asid := 1, key := 7, val := [1, 2], cls := 0, stamp := 0, pins := pins, owner := 0 }
/-- Lode 7 alone has a bank in the key-value role, and a quota. -/
def keyed (op : KvOp) (pins : Option Nat) : State :=
  let s : State := { kvS kvgetI 4 with running := [], agenda := [], kvReqs := [kvReq op], kv := (pins.map kvEntry).toList,
                                       results := [{ id := 70, wg := 1, wave := 0, cnt := some .lode, regs := [.s 0] }] }
  (s.setReg (rSTR_ROLE kvLode) 3).setReg (rSTR_KV kvLode) 100

/-- The operation issued while no lode had a bank for it. -/
def noKv1 : KvReq := { kvReq .drop with noKv := true }

theorem witness_ContractsAndKeyValue_keys : (∀ op ∈ [KvOp.get 0 1, .put 0 1 3, .pin false, .pin true, .drop],
      ((keyed op none).kvReqs.find? fun x => x.id = 45) = some (kvReq op) ∧ (keyed op none).kvHome 0 1 7 = some kvLode
      ∧ ((keyed op none).lodeOf kvLode).asleep = false ∧ (keyed op none).kvFind kvLode 1 7 = none)
    ∧ (∀ p ∈ [0, 1, 254, 255], (keyed .drop (some p)).kvFind kvLode 1 7 = some (kvEntry p))
    ∧ ((theWg (keyed (.get 0 1) none)).part 0).gen = 0
    ∧ kvUnits 1 ≤ 8192 * ((keyed (.put 0 1 3) none).roleBanks kvLode 3).length ∧ kvUnits 1 ≤ (keyed (.put 0 1 3) none).rf (rSTR_KV kvLode) 0 16
    ∧ ({ State.reset with clk := 4096 } : State).lodeOf 9 = {} ∧ ({} : LodeX).tickAt = 4096 ∧ (keyed .drop none).clk = 0
    ∧ (kvReq .drop).noKv = false ∧ ({ keyed .drop none with kvReqs := [noKv1] } : State).kvHome 0 1 7 = some kvLode
    ∧ (({ keyed .drop none with kvReqs := [noKv1] } : State).kvReqs.find? fun x => x.id = 45) = some noKv1 := by decide +kernel

/-! The scheduler: context 512 has its descriptor at 0x8000, its queue 0 stands at 2^56 + 0x10000 with its one slot. -/

def desc : BitVec 512 := BitVec.ofNat 512 (1 + 7 * 2 ^ 8 + 2 ^ 16 + 0x9000 * 2 ^ 64 + 2 ^ 128 + 0xA000 * 2 ^ 192)
/-- One workgroup of one thread at 0x30000, its argument 0x40000, class 3. -/
def recordImage (joins : Nat) : BitVec 512 :=
  BitVec.ofNat 512 (0x30000 + 3 * 2 ^ 57 + 0x40000 * 2 ^ 64 + joins * 2 ^ 192 + 512 * 2 ^ 208 + 2 ^ 224 + 2 ^ 464)
def qBase : Nat := 2 ^ 56 + 0x10000
/-- A line of device memory that a lode holds under its physical address. -/
def heldLine (pa : Nat) (w : List Nat) : LLine :=
  { id := 1000 + pa / 128, lode := 0, asid := none, line := pa / 128, frame := pa / 65536, off := lineOff pa,
    data := BitVec.ofNat 1024 ((w.zipIdx).foldl (fun a x => a + x.1 * 2 ^ (64 * x.2)) 0) }
def words64 (x : BitVec 512) : List Nat := (List.range 8).map fun i => (x.extractLsb' (64 * i) 64).toNat
def sched (joins : Nat) (ok : Bool) (recs : List Rec) : State :=
  let s : State := { State.reset with
    lines := [heldLine 0 [0x1001, 0x1001], heldLine 0x1800 [0x2001], heldLine 0x1000 [0x2001], heldLine 0x2000 [0x3001],
      heldLine 0x3000 [31], heldLine 0x8000 (words64 (if ok then desc else 0)), heldLine 0xA000 [8], heldLine 0x10000 [0, 0, 4],
      heldLine 0x20000 (words64 (recordImage joins))],
    rmap := [(0, some ⟨0, 2 ^ 56, .g1, 0, 0, false⟩)], queues := [{ q := 0, num := 0, base := qBase, en := true }], recs := recs, nextId := 5000,
    mgmt := { running := none, firmware := [] } }
  s.setRf (rSCH_CTL 0) 0 1 1
def isTake (st : Nat) (s : State) : Got Nat × State → Bool
  | (.ok v, s1) =>
    let im := BitVec.ofNat 512 v
    let d := (s1.descOf 0 512).1
    rfld im 208 12 = 512 && rfld im 464 3 = 1 && decide ((s.takeSlot 0 0).2.recalls = []) && !s1.ctxClosed 0 512
      && ((recordOk im && bitAt (d.extractLsb' 128 64) 0 && rfld d 1 1 = rfld im 220 1) = decide (st ≠ 4))
      && (rfld im 192 16 = 0 : Bool) = decide (st ≠ 0) && rfld im 384 57 = 0
  | _ => false

theorem witness_RecordsAndPlacement_take : (sched 0 true []).leads 0 = true ∧ (sched 0 true []).recs = []
    ∧ (sched 0 true []).rf (rSCH_CTL 0) 0 1 = 1 ∧ ((sched 0 true []).queue 0 0).en = true
    ∧ isTake 1 (sched 0 true []) ((sched 0 true []).engineRead 0 (slotVa qBase 0) 64) = true
    ∧ isTake 0 (sched 3 true []) ((sched 3 true []).engineRead 0 (slotVa qBase 0) 64) = true
    ∧ isTake 4 (sched 0 false []) ((sched 0 false []).engineRead 0 (slotVa qBase 0) 64) = true := by decide +kernel

/-- A full queue: the slot of index 65,536 still holds the ready record of index 0. -/
def refull : State :=
  { sched 0 true [{ recWith 0 with index := 0, image := recordImage 0, st := 1 }] with
    queues := [{ q := 0, num := 0, base := qBase, en := true, taken := 65536 }] }
def isKept (s : State) : Got Nat × State → Bool
  | (.ok v, s1) => decide (rfld (BitVec.ofNat 512 v) 464 3 = 1 ∧ (s.takeSlot 0 0).2.recalls = []) && s1.slotKept 0 0 65536 (BitVec.ofNat 512 v)
  | _ => false
theorem witness_RecordsAndPlacement_full : isKept refull (refull.engineRead 0 (slotVa qBase 65536) 64) = true ∧ refull.leads 0 = true
    ∧ (refull.queue 0 0).taken = 65536 ∧ refull.recalls = [] := by decide +kernel

def ready1 (st placed : Nat) (term : Bool) : Rec :=
  { recWith 0 with image := recordImage 0, st := st, eprio := 3, placed := placed, exited := placed, terminated := term,
                   ctx := ctxFrom 0 512 desc 8 }
theorem witness_RecordsAndPlacement_ends :
    (ready1 1 0 false).wants = true ∧ State.reset.usAfter 0 2000 ≤ 100000000
    ∧ (∀ t ∈ [false, true], ((sched 0 true [ready1 2 1 t]).recs.find? fun x => x.id = 50) = some (ready1 2 1 t)
      ∧ (ready1 2 1 t).primary = 0 ∧ (ready1 2 1 t).over = true ∧ (sched 0 true [ready1 2 1 t]).recalls = [])
    ∧ (((sched 0 true [ready1 2 1 true]).publish 50).endRec (ready1 2 1 true) 4).recalls = []
    ∧ ((((sched 0 true [ready1 2 1 false]).publish 50).modRec 50 fun x => { x with succ := 1 }).endRec
      { ready1 2 1 false with succ := 1 } 3).recalls = []
    ∧ (ready1 2 1 false).audit ≠ .selected ∧ (ready1 2 1 false).closed = false ∧ (ready1 2 1 false).succ = 0
    ∧ (sched 0 true [ready1 2 1 false]).hostIdle 0 (ready1 2 1 false).ctx.asid = true ∧ rfld (recordImage 0) 185 7 = 0 := by decide +kernel

def placing : State := sched 0 true [ready1 1 0 false]
def picks (s : State) : Option (Rec × Nat × Nat × SMap Nat) → Bool
  | some (r, _) => decide (r ∈ s.recs)
  | none => false

theorem witness_RecordsAndPlacement_place : placing.rf (rSCH_CTL 0) 0 1 = 1 ∧ placing.leads 0 = true ∧ placing.quiet 0 = false ∧ placing.images = []
    ∧ (placing.recs.filter fun r => r.q = 0 && r.wants).foldl (fun a r => max a r.eprio) 0 = 3
    ∧ picks placing (drr (fun n => (placing.oldestAt 0 3 n).map fun r => (r, recWaves r.image)) (fun n => max 1 (placing.queue 0 n).quantum.toNat) 131072
      (SMap.get 0 placing.turn 3)
      ((List.range 64).foldl (fun m n => SMap.put 0 m n (SMap.get 0 (placing.queue 0 n).deficit 3)) [])) = true
    ∧ placing.descOf 0 512 = (desc, placing) ∧ placing.ctxAt 0 512 desc = (ctxFrom 0 512 desc 8, placing) ∧ placing.descBad 0 desc = false := by
  decide +kernel

theorem witness_RecordsAndPlacement_cores : placing.readRanges (ready1 1 0 false) (ctxFrom 0 512 desc 8) = (.ok [], placing)
    ∧ placing.ctxSecure 0 (ctxFrom 0 512 desc 8) = true ∧ bitAt (placing.reg (rWLD_QUEUE 0)) 0 = false ∧ recPer (recordImage 0) = 1
    ∧ placing.canPlace 0 false 50 [7] (recNeeds (recordImage 0)) = true
    ∧ ((placing.coreSets 0 (recNeeds (recordImage 0)).length false).any fun cs => zipAll placing.capFits cs (recNeeds (recordImage 0))) = true
    ∧ (placing.placeStep 0 [7]).recalls = [] := by decide +kernel

/-- Queue 0 disabled, its image mapped from 2^56, or enabled, or with a base that is not in the global half. -/
def queueing (en : Bool) : State := { sched 0 true [] with queues := [{ q := 0, num := 0, en := en }] }
def gotOkN : Got Nat × State → Bool
  | (.ok _, _) => true
  | _ => false
/-- Its image is mapped by the 1 GiB page. -/
theorem witness_SchedulerCommands_queues : (∀ e ∈ [false, true], ((queueing e).queue 0 ((queueing e).rf (rSCH_QIDX 0) 0 6)).en = e)
    ∧ (queueing false).leads 0 = true ∧ (queueing false).partSecure 0 = false ∧ (queueing false).imageMapped 0 0x10000 = false
    ∧ (queueing false).imageMapped 0 qBase = true ∧ gotOkN ((queueing false).engineRead 0 (qBase + 8) 8) = true
    ∧ (secured (queueing false)).leads 0 = true ∧ (secured (queueing false)).partSecure 0 = true := by decide +kernel

/-- The image's page lies in host memory: its first line is on its way. -/
def queueingFar : State :=
  let s := queueing false
  { s with lines := s.lines.map fun l => if l.line = 0x60 then { l with data := BitVec.ofNat 1024 (31 + 2 ^ 21) } else l }
def gotWait : Got Nat × State → Bool
  | (.wait, _) => true
  | _ => false
theorem witness_SchedulerCommands_wait : (queueingFar.queue 0 0).en = false ∧ queueingFar.imageMapped 0 qBase = true
    ∧ gotWait (queueingFar.engineRead 0 (qBase + 8) 8) = true ∧ queueingFar.leads 0 = true ∧ queueingFar.partSecure 0 = false := by decide +kernel

/-- VACATE or REOPEN of core 0, on which a workgroup runs, in a region or not. -/
def vacating (region : Bool) : State := withWave (fun v => { v with region := region }) ((idle 0).setReg (rSCH_VMASK 0 0) 1)
def emptied (run : Bool) : State := { (if run then idle 0 else State.reset) with vacating := [(0, [0])] }

theorem witness_SchedulerCommands : (∀ r ∈ [false, true], (vacating r).vmask 0 = [0] ∧ 0 ∈ (vacating r).partCores 0
      ∧ ((vacating r).coreOf 0).retired = false ∧ (vacating r).rf (rSCH_CMD_STAT 0) 0 1 = 0 ∧ (theWg (vacating r)).inRegion = r
      ∧ ((vacating r).wgs.any fun w => w.onCore 0 && w.inRegion) = r)
    ∧ (∀ r ∈ [false, true], SMap.find (emptied r).vacating 0 = some [0] ∧ [0].all (emptied r).coreEmpty = !r) := by decide +kernel

/-! Saves, service commands, errors and audits. -/

/-- A workgroup of one thread that is being saved; its save area at 0 has one slot of 64 KiB. -/
def saveArea (s : State) : State := { s with lines := [heldLine 0 [0, 0, 0x100010000]] }
def saving : State := saveArea (withWg (fun w => { w with fate := .saving }) (withWave (fun v => { v with n := 0, threads := v.threads.take 1 }) (idle 0)))

theorem witness_SavesAndRestores_save : saving.recalls = [] ∧ saving.wg? 1 = some (theWg saving) ∧ (theWg saving).fate = .saving
    ∧ saving.saveReady (theWg saving) = true ∧ saving.copies = []
    ∧ saving.freeSlot (theWg saving).ctx.save (saving.imageSize (theWg saving)) = some 0 ∧ (saving.saveWg 1).recalls = []
    ∧ saving.lines.all (fun l => l.lo = .i && l.hi = .i) = true
    ∧ saving.usAfter (theWg saving).saveAt 50 ≤ 10000000 ∧ saving.clk < saving.usAfter (theWg saving).saveAt 50 := by decide +kernel

/-- What the save leaves: an image, and its record. -/
def saved : State :=
  let t := saving.saveWg 1
  { t with recs := [{ ready1 2 1 false with id := 0 }], mgmt := { running := none } }
def image1 : Image := (saved.images.head?).getD { id := 0, slot := 0, wg := theWg saving, copies := [], orders := [] }
theorem witness_SavesAndRestores_restore : (saved.images.find? fun x => x.id = image1.id) = some image1
    ∧ (saved.recs.find? fun x => x.id = image1.wg.recId).isSome = true ∧ saved.quiet 0 = false
    ∧ saved.canPlace 0 image1.wg.ctx.world image1.wg.recId [7] (recNeeds (recordImage 0)) = true ∧ saved.ctxClosed 0 512 = false
    ∧ (saved.readImage (saved.slotAt image1.wg.ctx.save image1.slot) image1.wg (rfld (recordImage 0) 224 32)).isSome = true
    ∧ (saved.readImage (saved.slotAt image1.wg.ctx.save image1.slot) image1.wg (rfld (recordImage 0) 224 32)).map (·.id) = some image1.wg.id
    ∧ (saved.readReplays (saved.slotAt image1.wg.ctx.save image1.slot) image1).isSome = true ∧ saved.wgs = []
    ∧ saved.slotsFor image1.wg image1.copies [7] = true
    ∧ ((saved.recs.find? fun x => x.id = image1.wg.recId).map fun r => saved.mayReturn r image1.wg.wg [7]) = some true
    ∧ image1.copies = [] ∧ image1.orders = [] ∧ saved.lines.all (fun l => l.lo = .i && l.hi = .i) = true
    ∧ saved.recalls = [] := by decide +kernel

/-- An image whose core number is beyond the last core. -/
def edited : State := (saved.writePhys (saved.slotAt image1.wg.ctx.save image1.slot + 17) [1])
theorem witness_SavesAndRestores_fails : (edited.images.find? fun x => x.id = image1.id) = some image1
    ∧ (edited.readImage (edited.slotAt image1.wg.ctx.save image1.slot) image1.wg (rfld (recordImage 0) 224 32)).isNone = true
    ∧ (edited.failImage image1 { ready1 2 1 false with id := 0 }).recalls = [] ∧ edited.recalls = [] := by decide +kernel

/-- Context 512 with a lane parked, fault 4, and the command's status. -/
def park2 (fault : Option Nat) : Park := { park1 with ctx := 512, fault := fault, reported := true }
def served (busy : Bool) (kill : Option Nat) : State :=
  let s := sched 0 true []
  let t : State := { s with parks := [park2 (some 4)], killing := [(0, kill)],
                            wgs := [{ placedWg s 0 with id := 1, ctx := ctxFrom 0 512 desc 8 }] }
  let u := withThread (fun x => { x with status := .parked }) t
  if busy then u.setRf (rFLT_STAT 0) 0 1 1 else u

theorem witness_ServiceCommands : (∀ b ∈ [false, true], (served b none).leads 0 = true ∧ (served b none).partSecure 0 = false
      ∧ (served b none).rf (rFLT_STAT 0) 0 1 = b.toNat)
    ∧ (served false none).descOf 0 512 = (desc, served false none) ∧ rfld desc 0 1 = 1 ∧ rfld desc 1 1 = 0
    ∧ ((served false none).wgs.all fun w => !w.ctx.world) = true
    ∧ ((served false none).parks.find? fun p => p.q = 0 && p.ctx = 512 && p.fault = some 3) = none
    ∧ ((served false none).parks.find? fun p => p.q = 0 && p.ctx = 512 && p.fault = some 4) = some (park2 (some 4))
    ∧ (served false none).images = [] ∧ (park2 none).lanes = maskOf [0] := by decide +kernel

theorem witness_ServiceCommands_lane : ((served false none).wave? 1 0).map (fun v => ((v.thread 0).status, (v.thread 0).active, v.threads.length))
      = some (.parked, false, 64) ∧ (theWg (served false none)).ctx.trapVec ≠ 0
    ∧ SMap.get none (served false (some 512)).killing 0 = some 512 ∧ (theWg (served false (some 512))).ctx.num = 512
    ∧ (∀ w ∈ (served false (some 511)).wgs, ¬(w.ctx.q = 0 ∧ w.ctx.num = 511)) ∧ (served false (some 511)).copies = []
    ∧ (served false (some 511)).reqs = [] ∧ (served false (some 511)).reds = [] ∧ (served false (some 511)).contracts = []
    ∧ (served false (some 511)).recs = [] := by decide +kernel

/-- Its workgroup is stopping for good. -/
def stopping : State := withWg (fun w => { w with fate := .ending }) (served false none)
theorem witness_ServiceCommands_ending : (stopping.wg? 1).map (·.fate) = some .ending ∧ ((served false none).wg? 1).map (·.fate) = some .live
    ∧ (stopping.parks.find? fun p => p.q = 0 && p.ctx = 512 && p.fault = some 4) = some (park2 (some 4))
    ∧ stopping.descOf 0 512 = (desc, stopping) ∧ (stopping.wgs.all fun w => !w.ctx.world) = true := by decide +kernel

def errored (l : ErrLoc) : State := { atLode with errLog := [atLode.errPlace l], tests := [atLode.errPlace l] }
theorem witness_ErrorsAndAudits_errors : (atLode.frame (0x12000 / 65536)).flakes ≠ [] ∧ 65535 < (copying false false |>.partOf 1 0).scrBytes
    ∧ atLode.errPlace (.hbmLine 0x12000) ∉ atLode.errLog
    ∧ (errored (.hbmLine 0x12000)).errPlace (.hbmLine 0x12000) ∈ (errored (.hbmLine 0x12000)).errLog
    ∧ (errored (.hbmLine 0x12000)).errPlace (.hbmLine 0x12000) ∈ (errored (.hbmLine 0x12000)).tests ∧ (errored (.hbmLine 0x12000)).mgmt.repairs = [] := by decide +kernel

/-- A place waits for its test; a workgroup runs on core 0 or none does. -/
def testing (run : Bool) (loc : ErrLoc) : State := { (if run then idle 0 else State.reset) with tests := [loc] }
theorem witness_ErrorsAndAudits_tests : (∀ loc ∈ [ErrLoc.strataSite 39 1 0, .registerFile 5 0 0 0, .registerFile 0 0 0 0, .linkLane 11 8],
      (testing false loc).errPlace loc = loc ∧ (testing true loc).errPlace loc = loc ∧ loc ∈ (testing true loc).tests
      ∧ (testing false loc).mgmt.repairs.length < Config.storeSize)
    ∧ 1 < 4 * perLayer 39 ∧ bitAt ((testing false (.strataSite 39 1 0)).lodeOf 39).lost 1 = false
    ∧ (testing false (.strataSite 39 1 0)).lostIn 39 (siteGroup 39 1) < 2
    ∧ (testing false (.registerFile 5 0 0 0)).coreEmpty 5 = true ∧ (testing true (.registerFile 0 0 0 0)).coreEmpty 0 = false
    ∧ bitAt ((testing false (.linkLane 11 8)).badLanesOf 11) 8 = false ∧ (testing false (.linkLane 11 8)).linkState 11 ≠ 3
    ∧ (testing false (.linkLane 11 8)).badLanesOf 11 = 0
    ∧ ({ testing false (.linkLane 11 8) with deadLanes := [(11, 1)] } : State).badLanesOf 11 = 1 := by decide +kernel

/-- A record under audit, its replay and its third run. -/
def audit1 (sigs : List Word) : Rec := { ready1 2 1 false with audit := .selected, sigs := sigs, cores := [(0, [0])] }
def run1 (a : Audit) : Rec := { ready1 2 1 false with id := 51, primary := 50, audit := a }
def run3 : Rec := { run1 .third with id := 52 }
def auditing (sigs : List Word) (runs : List Rec) : State := sched 0 true (audit1 sigs :: runs)
def signs (r : Rec) (k : Nat) (s : State) : Bool := decide ((s.sign r k).2 = s)

theorem witness_ErrorsAndAudits_audits : (auditing [] []).audited 50 = some (audit1 []) ∧ (auditing [] []).runOf 50 .third = none
    ∧ (auditing [] []).runOf 50 .replay = none ∧ (auditing [5] [run1 .replay]).runOf 50 .replay = some (run1 .replay)
    ∧ (run1 .replay).over = true ∧ (run1 .replay).sigs = []
    ∧ (auditing [5] [run1 .replay, run3]).runOf 50 .third = some run3 ∧ run3.over = true := by decide +kernel

/-- The runs wrote nothing, so that each one's signature is 0. -/
theorem witness_ErrorsAndAudits_signatures : ((auditing [] []).sign (audit1 []) 0) = (0, auditing [] [])
    ∧ (auditing [0] [run1 .replay]).sign (run1 .replay) 0 = (0, auditing [0] [run1 .replay])
    ∧ (auditing [5] [run1 .replay]).sign (run1 .replay) 0 = (0, auditing [5] [run1 .replay]) ∧ (audit1 [5]).sigs ≠ [0]
    ∧ (auditing [0] [run1 .replay, run3]).sign run3 0 = (0, auditing [0] [run1 .replay, run3])
    ∧ ((auditing [0] [run1 .replay]).auditOk (audit1 [0])).recalls = []
    ∧ (((auditing [0] [run1 .replay, run3]).auditOk (audit1 [0])).blame (run1 .replay)).recalls = [] := by decide +kernel

/-- The third run signs as the replay did, or as none. -/
def replay2 (n : Nat) : Rec := { run1 .replay with sigs := [BitVec.ofNat 64 n] }
def voting (n : Nat) : State := auditing [7] [replay2 n, run3]
theorem witness_ErrorsAndAudits_votes : (∀ x ∈ [0, 5], (voting x).audited 50 = some (audit1 [7]) ∧ (audit1 [7]).sigs ≠ [0] ∧ (replay2 0).sigs = [0] ∧ (replay2 5).sigs ≠ [0]
      ∧ (voting x).runOf 50 .replay = some (replay2 x) ∧ (voting x).runOf 50 .third = some run3
      ∧ (voting x).sign run3 (audit1 [7]).akey = (0, voting x) ∧ (voting x).recalls = [])
    ∧ (((((voting 0).dropRuns 50).incRf (rASY_STAT 0) 0 16).rollback (audit1 [7])).blame (audit1 [7])).recalls = []
    ∧ ((voting 5).auditVote 50).recalls = [] ∧ (audit1 [7]).q = 0 := by decide +kernel

/-! The host and the links. -/

/-- Frame 5 stands in the host's range and lode 3 holds its line 4. -/
def hostL : LLine := { id := 90, lode := 3, asid := none, line := 512 * 5 + 4, frame := 5, off := 4, data := 7 }
def hostS : State := { State.reset with lines := [hostL], nextId := 100 }
def hostPa : Nat := 65536 * 5 + 128 * 4

theorem witness_HostAccesses_line : HostWrites hostS hostPa 128 0 hostL where
  some := by decide
  line := by decide
  range := by decide +kernel
  calm := by decide +kernel
  plain := by decide +kernel
  given := by decide +kernel
  held := by decide +kernel
  alone := by decide +kernel
  clean := by decide +kernel
  awake := by decide +kernel
  idle := rfl
  own x h := by
    have : hostS.rmapOf (hostPa / 65536) = none := by decide +kernel
    rw [this] at h
    cases h
  free := by decide +kernel
  room := by decide +kernel
  still := ⟨rfl, rfl⟩

/-- The last byte of the range, and one that passes its end. -/
theorem witness_HostAccesses : (∀ n ∈ [4, 8, 16, 64, 128], hostS.hdmDecode hostPa n = some hostPa ∧ 0 < n ∧ hostPa % 128 + n ≤ 128)
    ∧ hostS.hdmDecode (65536 * hostS.frameCount 0 - 64) 64 = some (65536 * hostS.frameCount 0 - 64)
    ∧ hostS.hdmDecode (65536 * hostS.frameCount 0 - 63) 64 = none
    ∧ ({ hostS with hdmBase := [(0, 2 ^ 40)] } : State).hdmDecode (2 ^ 40 + hostPa) 8 = some hostPa
    ∧ ({ hostS with hdmBase := [(0, 2 ^ 40)] } : State).hdmDecode hostPa 8 = none := by decide +kernel

theorem witness_HostAccesses_atomic : HostWrites hostS (hostPa + 96) (atomWidth 15 / 8) 0 hostL where
  some := by decide
  line := by decide
  range := by decide +kernel
  calm := by decide +kernel
  plain := by decide +kernel
  given := by decide +kernel
  held := by decide +kernel
  alone := by decide +kernel
  clean := by decide +kernel
  awake := by decide +kernel
  idle := rfl
  own x h := by
    have : hostS.rmapOf ((hostPa + 96) / 65536) = none := by decide +kernel
    rw [this] at h
    cases h
  free := by decide +kernel
  room := by decide +kernel
  still := ⟨rfl, rfl⟩

/-- A back-invalidation of the line's high half, which the host holds. -/
def backInv (lost : Bool) (toS : Bool) : BackInv := { id := 91, line := 90, hi := true, toS := toS, since := 0, lost := lost }
def leased (lost toS : Bool) (h : Half) : State :=
  { hostS with lines := [{ hostL with hi := h }], backInvs := [backInv lost toS], clk := 1000000 }
/-- Asked for by a rollback. -/
def dropped : BackInv := { backInv false false with discard := true }
theorem witness_LeasesAndHolds : (∀ b ∈ [false, true], ∀ t ∈ [false, true], ∀ h ∈ [Half.i, .s, .e],
      ((leased b t h).backInvs.find? fun x => x.id = 91) = some (backInv b t) ∧ (leased b t h).lineById 90 = some { hostL with hi := h })
    ∧ ((leased false true .e).backInvs.find? fun x => x.id = 91 && !x.lost) = some (backInv false true) ∧ (leased false true .e).dir = []
    ∧ (leased false true .e).usAfter (backInv false true).since (min 1000 (max 1 ((leased false true .e).rf (rHBR_CTL 0) 0 10))) ≤ (leased false true .e).clk
    ∧ (backInv false true).discard = false ∧ (({ leased false true .e with backInvs := [dropped] } : State).backInvs.find? fun x => x.id = 91) = some dropped := by
  decide +kernel

def hold (why : Nat) : HostHold := { id := 92, pa := hostPa, op := .write [1], why := why, since := 0 }
def holdingS (why : Nat) : State := { hostS with hostHolds := [hold why], clk := 10000000 }
theorem witness_LeasesAndHolds_holds : ∀ y ∈ [0, 1, 2], (hold y).link = none ∧ (holdingS y).usAfter (hold y).since 1000 ≤ (holdingS y).clk
    ∧ ((holdingS y).hostHolds.find? fun x => x.id = 92) = some (hold y)
    ∧ (holdingS y).hdm (hostPa / 65536) = some 0 := by decide +kernel

/-- Link 0 to peer 7 in a state, after stage 1 of start. -/
def linked (st : Nat) (miss : Nat × Nat) : State :=
  let s : State := { hostS with hbMiss := [(7, miss)], clk := 1000000 }
  ((s.setRf (rNRH_LNK 0) 0 3 st).setRf (rNRH_LNK 0) 8 16 7).setRf rSTART_STAT 0 2 1

theorem witness_Links : (∀ k ∈ [0, 1, 2, 3, 4, 5], (linked k (0, 0)).linkState 0 = k) ∧ (linked 2 (0, 0)).stage = 1
    ∧ (linked 2 (0, 0)).dieOk 0 = true ∧ (linked 2 (0, 0)).linkPeer 0 = 7 ∧ (linked 2 (0, 0)).badLanesOf 0 = 0
    ∧ (∀ a ∈ [825001, 825000, 650001, 650000], (linked 2 (1, a)).usAfter a (max 1 ((linked 2 (1, a)).rf rNRH_HB 0 16)) = a + 175000
      ∧ (linked 2 (1, a)).usAfter a (2 * max 1 ((linked 2 (1, a)).rf rNRH_HB 0 16)) = a + 350000) ∧ (linked 2 (0, 0)).leadOf 0 = 0
    ∧ (∀ x ∈ [(0, 0), (1, 825001), (1, 825000), (1, 650001), (1, 650000), (2, 825000), (2, 650001)],
      SMap.get (0, 0) (linked 2 x).hbMiss ((linked 2 x).linkPeer 0) = x) := by decide +kernel

theorem witness_Links_dead : (∀ x ∈ [(0, 0), (1, 825001), (1, 650000), (2, 825000)],
      (linked 3 x).linkState 0 = 3 ∧ SMap.get (0, 0) (linked 3 x).hbMiss ((linked 3 x).linkPeer 0) = x) := by decide +kernel

theorem witness_Links_access : HostWrites (linked 2 (0, 0)) hostPa 128 0 hostL where
  some := by decide
  line := by decide
  range := by decide +kernel
  calm := by decide +kernel
  plain := by decide +kernel
  given := by decide +kernel
  held := by decide +kernel
  alone := by decide +kernel
  clean := by decide +kernel
  awake := by decide +kernel
  idle := rfl
  own x h := by
    have : (linked 2 (0, 0)).rmapOf (hostPa / 65536) = none := by decide +kernel
    rw [this] at h
    cases h
  free := by decide +kernel
  room := by decide +kernel
  still := ⟨rfl, rfl⟩

/-! Partitions, sleep, start and management. -/

/-- PART_STAT as given; with a running command and contracts. -/
def parted (v : Nat) (op : Option Nat) (c : List Contract) : State :=
  { State.reset.setReg rPART_STAT (BitVec.ofNat 64 v) with partRun := op.map fun o => ⟨o, 0xF, 0⟩, contracts := c }

/-- Quarters 0 and 1 are quiet at bits 5 and 6 and flushed at bits 9 and 10. -/
theorem witness_PartitionCommands : (parted 1 none []).rf rPART_STAT 0 1 = 1 ∧ (parted 0 none []).rf rPART_STAT 0 1 = 0
    ∧ (∀ q ∈ [0, 1, 2, 3], (parted 0 none []).queuesBusy q = false) ∧ (sched 0 true [ready1 2 0 false]).queuesBusy 0 = true
    ∧ (∀ k ∈ quartersIn 3, (parted 0x660 none []).rf rPART_STAT (5 + k) 1 = 1 ∧ (parted 0x660 none []).rf rPART_STAT (9 + k) 1 = 1)
    ∧ (parted 0 none []).lines = [] ∧ (parted 0 none []).recalls = [] ∧ newJoin ((parted 0x660 none []).rf rPART_CFG 0 3) 3 5 = none
    ∧ (newJoin ((parted 0x660 none []).rf rPART_CFG 0 3) 3 3).isSome = true ∧ (newJoin 7 4 0xF).isSome = true ∧ (pinC 1).q = 0 := by
  decide +kernel

theorem witness_PartitionCommands_end : (parted 0 none []).badConfig = false ∧ (State.reset.setReg rPART_BND 1).badConfig = true
    ∧ (parted 0 (some 1) []).partRun = some ⟨1, 0xF, 0⟩ ∧ (parted 0 (some 1) []).quarterIdle 0 = true
    ∧ ({ idle 0 with partRun := some ⟨1, 0xF, 0⟩ } : State).quarterIdle 0 = false := by decide +kernel

/-- A MERGE of all four quarters, in the layout of two pairs, that ends at 100; lines of the quarter flushed. -/
def reshaping (clk : Nat) : State := { (State.reset.setRf rPART_CFG 0 3 3).setRf rPART_STAT 0 1 1 with partRun := some ⟨3, 0xF, 100⟩, clk := clk }
theorem witness_PartitionCommands_reshape : (∀ c ∈ [99, 100], (reshaping c).partRun = some ⟨3, 0xF, 100⟩)
    ∧ newJoin ((reshaping 100).rf rPART_CFG 0 3) 3 0xF = some 7 ∧ (hostS.lines.map (·.id)).Nodup
    ∧ hostS.lines.all (fun l => l.lo = .i && l.hi = .i && !l.dirty && bitAt (3 : BitVec 4) (l.lode / 64)) = true := by decide +kernel

/-- All quarters quiesced; a dirty line of a BUSY frame stays through a flush, a clean one leaves. -/
def flushing (dirty : Bool) : State :=
  { parted 0x1E0 none [] with lines := [{ hostL with dirty := dirty }], frames := [(5, { st := .busy, flakes := List.range 64 })] }
def flushLeaves (s : State) : Bool :=
  match exec (.flush 1 true) s with
  | .next t => t.lines.any fun l => bitAt (1 : BitVec 4) (l.lode / 64) && !l.so
  | _ => false
theorem witness_PartitionCommands_flush : flushLeaves (flushing true) = true ∧ flushLeaves (flushing false) = false
    ∧ ∀ d ∈ [false, true], (∀ q ∈ quartersIn 1, (flushing d).rf rPART_STAT (5 + q) 1 = 1) ∧ (flushing d).rf rPART_STAT 0 1 = 0
      ∧ (flushing d).recalls = [] ∧ ((flushing d).lines.all fun l => l.lo = .i && l.hi = .i) = true := by decide +kernel

def sleeper (n : Nat) : State := { State.reset with clk := 2000000, coreX := [(n, { asleep := true })], lodeX := [(n, { asleep := true })] }
theorem witness_SleepAndClock : ({ State.reset with clk := 2000000 } : State).coreEmpty 7 = true
    ∧ State.reset.usAfter (State.reset.coreOf 7).idleAt 1000 ≤ 2000000 ∧ (State.reset.coreOf 7).retired = false
    ∧ ((sleeper 255).coreOf 255).asleep = true ∧ ((sleeper 255).lodeOf 255).asleep = true
    ∧ (parted 0x20 none []).rf rPART_STAT (5 + 63 / 64) 1 = 1 := by decide +kernel

/-- Whether an image is accepted is the vendor's signature's to say (Config.imageVersion): an image with a version is
accepted above its floor, and none below it. -/
theorem witness_StartAndAttestation_image (img : List Byte) (v : Nat) (h : Config.imageVersion img = some v) :
    ({ slotA := img, floor := v } : Mgmt).accepted = some img ∧ ({ slotA := img, slotB := img, floor := v + 1 } : Mgmt).accepted = none := by
  simp [Mgmt.accepted, h]

def starting (stage : Nat) (run : Option Nat) : State := { State.reset.setRf rSTART_STAT 0 2 stage with mgmt := { running := run } }
theorem witness_StartAndAttestation : (∀ k ∈ [0, 1], (starting k none).canStart k = true) ∧ (starting 0 none).rf rSTART_CTL 0 1 = 0
    ∧ (starting 1 none).rf rSTART_CTL 1 1 = 0 ∧ (starting 0 (some 1)).mgmt.running = some 1 ∧ (starting 0 (some 1)).mgmt.dieFail = 0
    ∧ (starting 0 (some 1)).mgmt.repairs = [] ∧ (starting 1 (some 2)).mgmt.running = some 2 ∧ (starting 0 none).wgs = []
    ∧ (starting 1 none).linkState 0 = 0 ∧ (starting 1 none).dieOk 0 = true ∧ ({} : Mgmt).spdmVersion = false := by
  decide +kernel

theorem witness_StartAndAttestation_stages : State.reset.mgmt.running = some 0 ∧ (starting 0 none).mgmt.running = none
    ∧ (∀ k ∈ [0, 1], ((starting k none).setRf rSTART_CTL k 1 1).rf rSTART_CTL k 1 = 1)
    ∧ ((starting 1 none).rf rTMB_CTL 8 11 < (starting 1 none).mgmt.cap ∧ (starting 1 none).mgmt.cap = 1024)
    ∧ let s1 := ((starting 1 none).beginStage 2).setRf rTMB_CTL 0 1 1
      ∀ q ∈ s1.leadList, s1.capFrames q 1024 / 2 - s1.dirNow q ≤ s1.freeOf q - s1.lwm q := by decide +kernel

/-- Stage 1 about to end: die 1 has failed, and the store has good and bad records. -/
def repairing : State :=
  { starting 0 (some 1) with mgmt := { running := some 1, dieFail := 2, repairs := [(true, .registerFile 5 0 0 0), (false, .linkLane 0 0)] } }
/-- The management endpoint after its first requests. -/
def attesting (key : Bool) : Mgmt :=
  { running := none, spdmVersion := true, spdmCaps := true, spdmAlgs := true, key := if key then some (1, 2) else none }
theorem witness_StartAndAttestation_records : repairing.mgmt.running = some 1 ∧ bitAt repairing.mgmt.dieFail 1 = true
    ∧ (true, ErrLoc.registerFile 5 0 0 0) ∈ repairing.mgmt.repairs
    ∧ (attesting true).key = some (1, 2) ∧ (attesting false).key = none ∧ (attesting true).spdmAlgs = true
    ∧ (attesting true).spdmVersion = true ∧ (attesting true).spdmCaps = true := by decide +kernel

/-- Whether a requester offers SM2 and SM3 is free (Config.offers): each case is met. -/
theorem witness_StartAndAttestation_offers (b : Bool) (n : Nat) (h : Config.offers n = b) :
    Config.offers ({ attesting true with asked := n } : Mgmt).asked = b := h

/-- Registers of the statement's list, one out of the window, and a write that the unit's world forbids. -/
theorem witness_RegisterWrites : regLoc 0x3FFFFFF8 = none ∧ (∀ x ∈ [(Blk.pkg, 0x180), (.xlt, 0x08), (.hbr, 0x00), (.sch, 0x00),
      (.sch, 0x10), (.sch, 0x30), (.rel, 0x00), (.rel, 0x10), (.col, 0x18), (.core, 0x28)], blkHas x.1 x.2 = true
      ∧ State.reset.live x.1 0 = true ∧ State.reset.guarded x.1 0 = false)
    ∧ (State.reset.setReg (rWLD_CORE 0) 1).guarded .core 0 = true ∧ regLoc (rPOOL_REG_TOP 0 + 0x28) = some (.core, 0, 0x28)
    ∧ (∀ b ∈ [0, 7], State.reset.coreEmpty b = true) ∧ (idle 0).coreEmpty 0 = false
    ∧ (secured State.reset).barred .core 0 0x28 = true ∧ (secured State.reset).live .core 0 = true
    ∧ blkHas .pkg 0 = true ∧ blkFields .pkg 0 = [] := by decide +kernel

/-! The machine. -/

theorem witness_DecodeAndEncodeAgree : ∀ i ∈ [Instr.iadd hd (af2 .i32), .ld hd (mf 15 0), .atom hd (mf 0x3F 0), .illegalOpcode 0xFFFFFFFFFFFFFFFF],
    (encode i).isSome = true := by decide +kernel

/-- What the decoder reads from a word with nothing left over. -/
def decoded (w : Word) : Option Instr :=
  match decode (bytesOfWord w) with
  | .ok (i, []) => some i
  | _ => none

/-- The decoder refuses the word as ILLEGAL_ENC. -/
def refusedWord (w : Word) : Bool :=
  match decode (bytesOfWord w) with
  | .error .illegalEnc => true
  | _ => false

def stepping (w : Word) : State := State.reset.placeWord w
theorem witness_StepRunsTheDecodedInstruction : (stepping 0x0201C00000000000).agenda = [.word 0 0]
    ∧ (match ({ stepping 0x0201C00000000000 with agenda := [] } : State).focus 0 0 with
      | some (c, _) => decide (decoded c.word = some (.exit hd gf0))
      | none => false) = true
    ∧ (match ({ stepping 0x0041C00180000000 with agenda := [] } : State).focus 0 0 with
      | some (c, _) => refusedWord c.word
      | none => false) = true
    ∧ (State.reset.focus 0 0).isNone = true
    ∧ (match ({ stepping 0x0201C00000000000 with agenda := [], running := (stepping 0x0201C00000000000).running.map fun c => { c with group := 0 } } : State).focus 0 0 with
      | some (c, _) => decide (c.group = 0)
      | none => false) = true := by decide +kernel

theorem witness_StepRunsTheDecodedInstruction_admits : State.reset.admits .startStage0 = true ∧ State.reset.admits .getVersion = false
    ∧ (starting 0 none).admits (.hostRead 0 8) = true
    ∧ ((starting 0 none).setRf rSTART_STAT 4 1 1).admits (.hostRead 0 8) = false
    ∧ ((starting 0 none).setRf rSTART_STAT 4 1 1).admits .getVersion = true
    ∧ encode .getVersion = none ∧ (starting 0 none).recovery = false := by decide +kernel

theorem witness_StepRunsTheDecodedInstruction_exec : (match exec (.exit hd gf0) (placed (.exit hd gf0)) with
      | .next _ => true
      | _ => false) = true := by decide +kernel

theorem witness_StepsKeepMeetings : State.reset.MeetingsHold := fun _ h => by cases h

/-! Decoding. Words put together from the encodings of R175, R179, R180 and R183, one for every instruction, with a
stall count of 3 and the guard !p2. -/

def h6 : Hdr := ⟨3, true, 2⟩

theorem test_decode_control : ∀ x ∈ ([
    (0x000E800000000000, .nop h6 ⟨0, 0, 0, 0, 0⟩),
    (0x004E80003FFFFFFD, .bra h6 ⟨0, 0, 1073741821⟩),
    (0x008E800840000001, .brx h6 ⟨0, 33, 0, 0, 1⟩),
    (0x00CE810000000009, .call h6 ⟨4, 0, 9⟩),
    (0x010E81B040000001, .callx h6 ⟨6, 193, 0, 0, 1⟩),
    (0x014E800200000000, .ret h6 ⟨0, 8, 0, 0, 0⟩),
    (0x018E800000000005, .meet h6 ⟨0, 0, 5⟩),
    (0x01CE800000000000, .unmeet h6 ⟨0, 0, 0, 0, 0⟩),
    (0x020E800000000000, .exit h6 ⟨0, 0, 0, 0, 0⟩),
    (0x024E800000000000, .yieldW h6 ⟨0, 0, 0, 0, 0⟩),
    (0x028E80000000004D, .sleep h6 ⟨0, 0, 77⟩),
    (0x02CE800000000003, .bkpt h6 ⟨0, 0, 3⟩),
    (0x030E80000000FFFF, .trap h6 ⟨0, 0, 65535⟩),
    (0x034E800000000000, .trapret h6 ⟨0, 0, 0, 0, 0⟩),
    (0x038E80000000001F, .joinImm h6 ⟨0, 0, 31⟩),
    (0x03CE8001C0000000, .joinReg h6 ⟨0, 7, 0, 0, 0⟩),
    (0x040E800000000002, .leaveImm h6 ⟨0, 0, 2⟩),
    (0x044E8038C0000000, .leaveReg h6 ⟨0, 227, 0, 0, 0⟩),
    (0x048E8000000007F3, .setinfo h6 ⟨0, 0, 0, 0, 2035⟩),
    (0x04CE80000000000C, .reggive h6 ⟨0, 0, 12⟩),
    (0x050E800000000004, .regclaim h6 ⟨0, 0, 4⟩),
    (0x054E827844000000, .spawn h6 ⟨9, 225, 16, 0, 0⟩),
    (0x058E804080C00000, .jdec h6 ⟨1, 2, 3, 0, 0⟩),
    (0x05CE814000000000, .npreempt h6 ⟨5, 0, 0, 0, 0⟩),
    (0x060E818000000000, .preemptok h6 ⟨6, 0, 0, 0, 0⟩),
    (0x064E828000000001, .csrrd h6 ⟨10, 0, 1⟩),
    (0x068E808100001002, .csrwr h6 ⟨2, 4, 4098⟩),
    (0x06CE803840000105, .csrset h6 ⟨0, 225, 261⟩),
    (0x070E800180000000, .csrclr h6 ⟨0, 6, 0⟩),
    (0x074E800000000000, .ptsync h6 ⟨0, 0, 0, 0, 0⟩)] : List (Nat × Instr)),
    decodeTableWord 64 x.1 = some x.2 := by decide +kernel

theorem test_decode_integer : ∀ x ∈ ([
    (0x200E804080C00001, .iadd h6 ⟨1, 2, 3, 0, false, false, false, false, .i32, 1⟩),
    (0x204E8040B9000AC0, .isub h6 ⟨1, 2, 228, 0, false, false, true, false, .n16x2, 0⟩),
    (0x208E8080C1014041, .iaddc h6 ⟨2, 3, 4, 5, false, false, false, false, .n32, 1⟩),
    (0x20CE808101800080, .imul h6 ⟨2, 4, 6, 0, false, false, false, false, .i64, 0⟩),
    (0x210E8202830000C0, .imulh h6 ⟨8, 10, 12, 0, false, false, false, false, .n64, 0⟩),
    (0x214E8080C1018001, .imad h6 ⟨2, 3, 4, 6, false, false, false, false, .i32, 1⟩),
    (0x218E81C202402040, .imin h6 ⟨7, 8, 9, 0, true, false, false, false, .n32, 0⟩),
    (0x21CE804040400280, .imax h6 ⟨1, 1, 1, 0, false, false, false, false, .i16x2, 0⟩),
    (0x220E808100000080, .iabs h6 ⟨2, 4, 0, 0, false, false, false, false, .i64, 0⟩),
    (0x224E80FC00001000, .ineg h6 ⟨3, 240, 0, 0, false, true, false, false, .i32, 0⟩),
    (0x228E804080C00100, .and h6 ⟨1, 2, 3, 0, false, false, false, false, .b32, 0⟩),
    (0x22CE808101800140, .or h6 ⟨2, 4, 6, 0, false, false, false, false, .b64, 0⟩),
    (0x230E824242400100, .xor h6 ⟨9, 9, 9, 0, false, false, false, false, .b32, 0⟩),
    (0x234E810200000140, .not h6 ⟨4, 8, 0, 0, false, false, false, false, .b64, 0⟩),
    (0x238E803079801800, .shl h6 ⟨0, 193, 230, 0, false, true, true, false, .i32, 0⟩),
    (0x23CE8081014000C0, .shr h6 ⟨2, 4, 5, 0, false, false, false, false, .n64, 0⟩),
    (0x240E804080C00000, .sar h6 ⟨1, 2, 3, 0, false, false, false, false, .i32, 0⟩),
    (0x244E804080C00101, .rot h6 ⟨1, 2, 3, 0, false, false, false, false, .b32, 1⟩),
    (0x248E804080000140, .popc h6 ⟨1, 2, 0, 0, false, false, false, false, .b64, 0⟩),
    (0x24CE8040C0000100, .clz h6 ⟨1, 3, 0, 0, false, false, false, false, .b32, 0⟩),
    (0x250E804080C00040, .bfe h6 ⟨1, 2, 3, 0, false, false, false, false, .n32, 0⟩),
    (0x254E804080C10100, .bfi h6 ⟨1, 2, 3, 4, false, false, false, false, .b32, 0⟩),
    (0x258E808100000140, .brev h6 ⟨2, 4, 0, 0, false, false, false, false, .b64, 0⟩),
    (0x25CE814081000085, .icmp h6 ⟨5, 2, 4, 0, false, false, false, false, .i64, 5⟩),
    (0x260E80810180C141, .sel h6 ⟨2, 4, 6, 3, false, false, false, false, .b64, 1⟩),
    (0x264E807000001100, .mov h6 ⟨1, 192, 0, 0, false, true, false, false, .b32, 0⟩),
    (0x268E80E03FFFFFFF, .moviImm h6 ⟨3, 128, 1073741823⟩),
    (0x26CE8128DEADBEEF, .moviLit h6 ⟨4, 40, 3735928559⟩),
    (0x270E8040B9400900, .bcast h6 ⟨1, 2, 229, 0, false, false, true, false, .b32, 0⟩),
    (0x274E824238802140, .readlane h6 ⟨9, 8, 226, 0, true, false, false, false, .b64, 0⟩),
    (0x278E804080C0010B, .shfl h6 ⟨1, 2, 3, 0, false, false, false, false, .b32, 11⟩),
    (0x27CE808180000003, .vote h6 ⟨2, 6, 0, 0, false, false, false, false, .i32, 3⟩),
    (0x280E828100000180, .wred h6 ⟨10, 4, 0, 0, false, false, false, false, .f32, 0⟩),
    (0x284E82810000014C, .scan h6 ⟨10, 4, 0, 0, false, false, false, false, .b64, 12⟩)] : List (Nat × Instr)),
    decodeTableWord 64 x.1 = some x.2 := by decide +kernel

theorem test_decode_float_and_sli : ∀ x ∈ ([
    (0x400E808101800181, .fadd h6 ⟨2, 4, 6, 0, false, false, false, false, .f32, 1⟩),
    (0x404E8081018001C2, .fsub h6 ⟨2, 4, 6, 0, false, false, false, false, .f64, 2⟩),
    (0x408E808101800243, .fmul h6 ⟨2, 4, 6, 0, false, false, false, false, .bf16x2, 3⟩),
    (0x40CE8081018201C2, .ffma h6 ⟨2, 4, 6, 8, false, false, false, false, .f64, 2⟩),
    (0x410E8040BE000A00, .fmin h6 ⟨1, 2, 248, 0, false, false, true, false, .f16x2, 0⟩),
    (0x414E804080C00180, .fmax h6 ⟨1, 2, 3, 0, false, false, false, false, .f32, 0⟩),
    (0x418E8040810001C7, .fcmp h6 ⟨1, 2, 4, 0, false, false, false, false, .f64, 7⟩),
    (0x41CE8040800001C0, .fclass h6 ⟨1, 2, 0, 0, false, false, false, false, .f64, 0⟩),
    (0x420E804080000180, .frcp h6 ⟨1, 2, 0, 0, false, false, false, false, .f32, 0⟩),
    (0x424E8040C0000180, .frsq h6 ⟨1, 3, 0, 0, false, false, false, false, .f32, 0⟩),
    (0x428E804080000183, .fsqrt h6 ⟨1, 2, 0, 0, false, false, false, false, .f32, 3⟩),
    (0x42CE814180000180, .fex2 h6 ⟨5, 6, 0, 0, false, false, false, false, .f32, 0⟩),
    (0x430E81C200000180, .flg2 h6 ⟨7, 8, 0, 0, false, false, false, false, .f32, 0⟩),
    (0x434E824280000180, .fsin h6 ⟨9, 10, 0, 0, false, false, false, false, .f32, 0⟩),
    (0x438E82C300000180, .fcos h6 ⟨11, 12, 0, 0, false, false, false, false, .f32, 0⟩),
    (0x43CE804080C00181, .fdivs h6 ⟨1, 2, 3, 0, false, false, false, false, .f32, 1⟩),
    (0x440E804080C10242, .dot2 h6 ⟨1, 2, 3, 4, false, false, false, false, .bf16x2, 2⟩),
    (0x444E804080C10341, .dot4 h6 ⟨1, 2, 3, 4, false, false, false, false, .n8x4, 1⟩),
    (0x600E808101820003, .cvt h6 ⟨2, 4, 6, 8, false, false, false, false, .i32, 3⟩),
    (0x604E8081000001C1, .frnd h6 ⟨2, 4, 0, 0, false, false, false, false, .f64, 1⟩),
    (0x608E804080C00204, .pack h6 ⟨1, 2, 3, 0, false, false, false, false, .f16x2, 4⟩),
    (0x60CE804080000281, .unpk h6 ⟨1, 2, 0, 0, false, false, false, false, .i16x2, 1⟩),
    (0x610E80813E400BC0, .sladd h6 ⟨2, 4, 249, 0, false, false, true, false, .sli16x2, 0⟩),
    (0x614E80813E400B80, .slsub h6 ⟨2, 4, 249, 0, false, false, true, false, .sli32, 0⟩),
    (0x618E80813E400BC0, .slmul h6 ⟨2, 4, 249, 0, false, false, true, false, .sli16x2, 0⟩),
    (0x61CE80813E400B80, .sldiv h6 ⟨2, 4, 249, 0, false, false, true, false, .sli32, 0⟩),
    (0x620E80C101400386, .slcmp h6 ⟨3, 4, 5, 0, false, false, false, false, .sli32, 6⟩),
    (0x624E808105020000, .slcvt h6 ⟨2, 4, 20, 8, false, false, false, false, .i32, 0⟩),
    (0x628E804080000101, .slflg h6 ⟨1, 2, 0, 0, false, false, false, false, .b32, 1⟩),
    (0x62CE8040800003C0, .sllvl h6 ⟨1, 2, 0, 0, false, false, false, false, .sli16x2, 0⟩)] : List (Nat × Instr)),
    decodeTableWord 64 x.1 = some x.2 := by decide +kernel

theorem test_decode_memory : ∀ x ∈ ([
    (0x82CE83017880005D, .ld h6 ⟨11, 12, 5, 226, 1, 3, 5⟩),
    (0x854E813840FFFFD0, .st h6 ⟨5, 4, 225, 3, 65535, 2, 0⟩),
    (0x888E8181C2001908, .lds h6 ⟨2, 6, 7, 8, 100, 1, 0⟩),
    (0x8A0E8000C13FFFB8, .pref h6 ⟨0, 0, 3, 4, 65534, 7, 0⟩),
    (0x8A4E80000000001E, .fence h6 ⟨0, 0, 0, 0, 30⟩),
    (0x8A8E800400C0001E, .fencex h6 ⟨0, 16, 3, 0, 30⟩),
    (0x8ACE80004080C001, .clean h6 ⟨0, 1, 2, 3, 1⟩),
    (0x8B0E80380080C002, .inval h6 ⟨0, 224, 2, 3, 2⟩),
    (0x8B4E80024201C000, .clinv h6 ⟨0, 9, 8, 7, 0⟩),
    (0x8B8E804082000000, .layset h6 ⟨1, 2, 8, 0, 0⟩),
    (0x8BCE840080000000, .layget h6 ⟨16, 2, 0, 0, 0⟩),
    (0x8E0E814082000001, .laychk h6 ⟨5, 2, 8, 0, 1⟩),
    (0x8DCE818080C00100, .atoms h6 ⟨7, 6, 2, 3, 4, 0, 0⟩),
    (0x9F0E8238813FFE46, .atom h6 ⟨60, 8, 226, 4, 65529, 0, 6⟩)] : List (Nat × Instr)),
    decodeTableWord 64 x.1 = some x.2 := by decide +kernel

theorem test_decode_copies_contracts_matrix : ∀ x ∈ ([
    (0xB00E804238400005, .copy h6 ⟨1, 8, 225, 0, 5⟩),
    (0xB04E804200F90041, .copym h6 ⟨1, 8, 3, 228, 65⟩),
    (0xB08E81C000000000, .copyq h6 ⟨7, 0, 0, 0, 0⟩),
    (0xB0CE800181C00000, .binit h6 ⟨0, 6, 7, 0, 0⟩),
    (0xB10E80004080000B, .barrive h6 ⟨0, 1, 2, 0, 11⟩),
    (0xB14E80004080C001, .bexpect h6 ⟨0, 1, 2, 3, 1⟩),
    (0xB18E80004080000C, .bwait h6 ⟨0, 1, 2, 0, 12⟩),
    (0xB1CE810040800002, .btest h6 ⟨4, 1, 2, 0, 2⟩),
    (0xB20E804080C00002, .reside h6 ⟨1, 2, 3, 0, 2⟩),
    (0xB24E804080000000, .unreside h6 ⟨1, 2, 0, 0, 0⟩),
    (0xB28E804080C10000, .kvget h6 ⟨1, 2, 3, 4, 0⟩),
    (0xB2CE8100C0804003, .kvput h6 ⟨4, 3, 2, 1, 3⟩),
    (0xB30E804080000001, .kvpin h6 ⟨1, 2, 0, 0, 1⟩),
    (0xB34E804080000000, .kvdrop h6 ⟨1, 2, 0, 0, 0⟩),
    (0xC00EB5FF8B8FE803, .mma h6 ⟨13, 1, 63, 226, 227, 1000, 3⟩),
    (0xC04E800040800000, .accz h6 ⟨0, 1, 2, 0, 0⟩),
    (0xC08E80004080C000, .accld h6 ⟨0, 1, 2, 3, 0⟩),
    (0xC0CE824070000001, .accrd h6 ⟨9, 1, 192, 0, 1⟩),
    (0xC10E814181C00287, .drain h6 ⟨5, 6, 7, 0, 647⟩),
    (0xC14E8080C1014091, .lred h6 ⟨2, 3, 4, 5, 145⟩),
    (0xC18E8080C1014150, .lredw h6 ⟨2, 3, 4, 5, 336⟩),
    (0xC1CE806F40000002, .lxpose h6 ⟨1, 189, 0, 0, 2⟩)] : List (Nat × Instr)),
    decodeTableWord 64 x.1 = some x.2 := by decide +kernel

/-! Words of the spec's programs, each beside its assembly. -/

theorem test_decode_words_of_programs : ∀ x ∈ ([
    (0x0201C00000000000, .exit hd gf0),                                                          -- exit
    (0x2741C202B8002100, .readlane hd ⟨8, 10, 0xE0, 0, true, false, false, false, .b32, 0⟩),      -- readlane.b32 s8, v10, 0
    (0x0181C00000000005, .meet hd ⟨0, 0, 5⟩),                                                    -- meet +5
    (0x200DC080B8400800, .iadd ⟨3, false, 7⟩ ⟨2, 2, 0xE1, 0, false, false, true, false, .i32, 0⟩), -- iadd.i32 v2, v2, 1 ~3
    (0x0141C00180000000, .ret hd ⟨0, 6, 0, 0, 0⟩),                                               -- ret v6
    (0x8581C13940000000, .st hd ⟨6, 4, 0xE5, 0, 0, 0, 0⟩),                                       -- st.f32 v4, 5, v0, 0
    (0x9001C239C0400000, .atom hd ⟨0, 8, 0xE7, 1, 0, 0, 0⟩),                                     -- atom.add.b32 v8, 7, v1, 0
    (0x8941C23845400000, .lds hd ⟨5, 8, 0xE1, 21, 0, 0, 0⟩),                                     -- lds.b64 s8, 1, s21, 0
    (0xC081C00505458000, .accld hd ⟨0, 20, 21, 22, 0⟩),                                          -- accld s20, s21, s22
    (0xC0C1C10538000001, .accrd hd ⟨4, 20, 0xE0, 0, 1⟩),                                         -- accrd.s v4, s20, 0
    (0x8A81C0004100000A, .fencex hd ⟨0, 1, 4, 0, 0xA⟩),                                          -- fencex.acq.wg v, m
    (0xC101CC8CF8000086, .drain hd ⟨50, 51, 0xE0, 0, 0x86⟩),                                     -- drain.e4m3.b16.row s50, s51, 0
    (0xC181C23880014150, .lredw hd ⟨8, 0xE2, 0, 5, 0x150⟩),                                      -- lredw.add.f32.acq.dev v8, 2, v0, s5
    (0x8701C2B880400005, .st hd ⟨12, 10, 0xE2, 1, 0, 0, 5⟩)] : List (Nat × Instr)),              -- st.rel.dev.b32 v10, 2, v1, 0
    decodeTableWord 64 x.1 = some x.2 := by decide +kernel

/-- What the decoder makes of a word: 0 an instruction, 1 the row that traps ILLEGAL_OPCODE, 2 ILLEGAL_ENC. -/
def wordKind (w : Nat) : Nat :=
  match decodeWord (BitVec.ofNat 64 w) with
  | .ok (.illegalOpcode _) => 1
  | .ok _ => 0
  | .error _ => 2

/-- An opcode of each unassigned range of R184, at both its ends. -/
theorem test_unassigned_opcodes : ∀ op ∈ [0x01E, 0x07F, 0x0A2, 0x0FF, 0x112, 0x17F, 0x18C, 0x1FF, 0x239, 0x23F, 0x280, 0x2BF, 0x2CE, 0x2FF,
    0x308, 0x37F, 0x380, 0x3FF], wordKind (op * 2 ^ 54) = 1 := by decide +kernel

/-- Seven bytes are no word. -/
theorem test_decode_short : (match decode (List.replicate 7 0) with
    | .error .short => true
    | _ => false) = true := by decide

/-- Headers that R173 refuses: another signature, class 6, a reserved bit. -/
theorem test_header_refused : ∀ w ∈ [0xB020000000000000, 0xA620000000000000, 0xA020000000000001],
    (decodeHeader (BitVec.ofNat 64 w)).isNone = true := by decide

/-! An ill-formed term for each check of WellFormed. -/

theorem test_ill_formed_control : ∀ i ∈ [
    Instr.nop hd ⟨1, 0, 0, 0, 0⟩, .exit hd ⟨0, 0, 0, 0, 1⟩, .bra hd ⟨1, 0, 0⟩, .meet hd ⟨0, 1, 0⟩,
    .brx hd ⟨1, 2, 0, 0, 0⟩, .brx hd ⟨0, 2, 1, 0, 0⟩, .brx hd ⟨0, 2, 0, 1, 0⟩, .brx hd ⟨0, 2, 0, 0, 2⟩, .brx hd ⟨0, 3, 0, 0, 0⟩,
    .brx hd ⟨0, 0xC0, 0, 0, 1⟩, .call hd ⟨3, 0, 0⟩, .call hd ⟨2, 1, 0⟩, .callx hd ⟨1, 2, 0, 0, 0⟩, .callx hd ⟨2, 0xC6, 0, 0, 1⟩,
    .ret hd ⟨0, 7, 0, 0, 0⟩, .ret hd ⟨0, 6, 0, 0, 1⟩, .sleep hd ⟨0, 0, 0x20000000⟩, .bkpt hd ⟨0, 0, 0x10000⟩, .trap hd ⟨0, 0, 0x3FFFFFFF⟩,
    .joinImm hd ⟨0, 0, 32⟩, .leaveReg hd ⟨0, 0xF8, 0, 0, 0⟩, .setinfo hd ⟨0, 0, 0, 0, 0x2000⟩, .setinfo hd ⟨0, 0, 0, 0, 0x1010⟩,
    .reggive hd ⟨0, 0, 512⟩, .regclaim hd ⟨1, 0, 4⟩, .spawn hd ⟨192, 0, 0, 0, 0⟩, .spawn hd ⟨0, 0xC0, 0, 0, 0⟩, .spawn hd ⟨0, 0, 185, 0, 0⟩,
    .jdec hd ⟨0, 0, 0, 1, 0⟩, .npreempt hd ⟨192, 0, 0, 0, 0⟩, .csrrd hd ⟨3, 0, 1⟩, .csrrd hd ⟨192, 0, 0x100⟩, .csrrd hd ⟨2, 0, 0x1000⟩,
    .csrwr hd ⟨2, 2, 1⟩, .csrset hd ⟨0, 3, 1⟩, .csrclr hd ⟨3, 2, 0x1001⟩, .csrwr hd ⟨0, 2, 0x2001⟩], i.wellFormed = false := by decide +kernel

theorem test_ill_formed_arithmetic : ∀ i ∈ [
    Instr.iadd hd (af2 .f32), .iadd hd (af2m .i32 2), .iadd hd { af2 .i32 with c := 1 }, .iadd hd { af2 .i32 with u := true, sa := true },
    .iadd hd { af2 .i64 with d := 3 }, .iadd hd { af2 .i64 with b := 5 }, .iadd hd { af2 .i32 with sb := true, b := 0xF8 },
    .iadd hd { af2 .i32 with u := true, d := 0xC0 }, .iadd hd { af2 .i32 with u := true, a := 0xC0 }, .imul hd (af2m .i32 1),
    .iaddc hd { af3 .n32 with d := 1 }, .imulh hd (af2 .i16x2), .imad hd { af3 .i64 with m := 1 }, .imad hd { af3 .i32 with c := 7, m := 1 },
    .iabs hd (af1 .n32), .ineg hd { af1 .i32 with b := 1 }, .and hd (af2 .i32), .not hd (af1 .f32), .shl hd (af2m .i32 1), .rot hd (af2m .i32 2),
    .popc hd (af1 .i32), .bfe hd (af2 .b32), .bfi hd (af3 .i32), .icmp hd (af2m .i32 6), .icmp hd { af2 .i32 with d := 8 },
    .sel hd { af2 .b32 with c := 8 }, .sel hd { af2 .b32 with u := true }, .moviImm hd ⟨0, 1, 0⟩, .moviImm hd ⟨192, 128, 0⟩,
    .moviLit hd ⟨0, 1, 0⟩, .moviLit hd ⟨0, 8, 0⟩, .moviLit hd ⟨0, 0x38, 0⟩, .moviLit hd ⟨192, 0x20, 0⟩, .bcast hd (af2 .b32),
    .readlane hd (af2 .b32), .shfl hd (af2m .b32 0), .shfl hd (af2m .b32 0x1C), .vote hd { af1 .i32 with a := 8 }, .vote hd { af1 .i32 with d := 3, m := 3 },
    .wred hd (af1m .f32 6), .wred hd (af1m .f32 3), .wred hd (af1m .b32 2), .wred hd { af1 .i32 with u := true }, .wred hd (af1m .i32 8)],
    i.wellFormed = false := by decide +kernel

theorem test_ill_formed_float : ∀ i ∈ [
    Instr.fadd hd (af2 .i32), .fmul hd (af2m .f32 4), .ffma hd { af3 .f64 with c := 3 }, .fmin hd (af2m .f32 1), .fcmp hd (af2 .f16x2), .fclass hd (af1m .f32 1),
    .frcp hd (af1 .f64), .fsqrt hd (af1m .f32 4), .fdivs hd (af2 .f64), .dot2 hd (af3 .f32), .dot4 hd { af3 .i8x4 with m := 2 },
    .cvt hd { af2 .i32 with b := 20 }, .cvt hd { af2 .i32 with c := 20 }, .cvt hd { af2 .f32 with b := 10 }, .cvt hd { af2 .i32 with b := 10, m := 8 },
    .cvt hd { af2 .i32 with b := 14, c := 10, m := 0x30 }, .cvt hd { af2 .i32 with b := 10, c := 10, m := 0x10 },
    .cvt hd { af2 .i32 with b := 14, c := 10, m := 0x10, u := true }, .cvt hd { af2 .i32 with d := 3, b := 6, c := 10 },
    .frnd hd (af1 .i32), .pack hd (af2m .i16x2 1), .unpk hd (af1m .f16x2 2), .sladd hd (af2 .f32), .sladd hd (af2m .sli32 1),
    .slcmp hd (af2 .sli16x2), .slcvt hd { af2 .i32 with b := 10, c := 10 }, .slcvt hd { af2 .i32 with b := 22, c := 20 },
    .slflg hd { af1 .b32 with a := 1 }, .slflg hd { af1 .b32 with a := 0, m := 3 }, .slflg hd { af1 .b32 with a := 0, u := true }, .sllvl hd (af1m .sli32 1)],
    i.wellFormed = false := by decide +kernel

theorem test_ill_formed_memory : ∀ i ∈ [
    Instr.ld hd ⟨16, 0, 0, 0, 0, 0, 0⟩, .ld hd ⟨0, 0, 0xC0, 0, 0, 0, 0⟩, .ld hd ⟨7, 1, 0, 0, 0, 0, 0⟩, .ld hd ⟨0, 0, 0, 0, 0, 0, 1⟩, .st hd ⟨8, 0, 0, 0, 0, 0, 7⟩,
    .lds hd ⟨0, 192, 0, 0, 0, 0, 0⟩, .lds hd ⟨0, 0, 0, 192, 0, 0, 0⟩, .lds hd ⟨0, 0, 0, 0, 0, 0, 1⟩, .pref hd ⟨0, 1, 0, 0, 0, 0, 0⟩, .pref hd ⟨0, 0, 0, 0, 0, 0, 1⟩,
    .fence hd ⟨0, 0, 0, 0, 0⟩, .fence hd ⟨0, 0, 0, 0, 0x1F⟩, .fence hd ⟨0, 0, 0, 0, 0x28⟩, .fencex hd ⟨0, 0, 1, 0, 8⟩, .fencex hd ⟨0, 1, 0, 0, 8⟩,
    .fencex hd ⟨0, 32, 1, 0, 8⟩, .fencex hd ⟨0, 16, 1, 0, 8⟩, .clean hd ⟨0, 0, 0, 0, 3⟩, .inval hd ⟨0, 0, 192, 0, 0⟩, .clinv hd ⟨1, 0, 0, 0, 0⟩,
    .layset hd ⟨0, 0, 185, 0, 0⟩, .layget hd ⟨185, 0, 0, 0, 0⟩, .laychk hd ⟨8, 0, 0, 0, 0⟩, .laychk hd ⟨0, 0, 0, 0, 2⟩,
    .atoms hd ⟨7, 1, 0, 0, 0, 0, 0⟩, .atoms hd ⟨0, 0, 0, 0, 0, 1, 0⟩, .atom hd ⟨12, 2, 0, 0, 0, 0, 0⟩, .atom hd ⟨1, 1, 0, 0, 0, 0, 0⟩, .atom hd ⟨0, 0, 0, 0, 0, 0, 1⟩,
    .atom hd ⟨16, 0, 0, 0, 0, 0, 7⟩], i.wellFormed = false := by decide +kernel

theorem test_ill_formed_engines : ∀ i ∈ [
    Instr.copy hd ⟨0, 185, 0, 0, 0⟩, .copy hd ⟨0, 0, 0, 1, 0⟩, .copy hd ⟨0, 0, 0, 0, 0x80⟩, .copym hd ⟨192, 0, 0, 0, 0⟩, .copyq hd ⟨0, 1, 0, 0, 0⟩,
    .binit hd ⟨1, 0, 0, 0, 0⟩, .binit hd ⟨0, 0, 0, 0, 8⟩, .barrive hd ⟨0, 0, 0, 0, 0xE⟩, .barrive hd ⟨0, 0, 0, 0, 0x10⟩, .bexpect hd ⟨0, 0, 0, 0, 2⟩,
    .bwait hd ⟨0, 0, 0, 0, 1⟩, .bwait hd ⟨0, 0, 0, 0, 0xE⟩, .btest hd ⟨8, 0, 0, 0, 0⟩, .reside hd ⟨0, 0, 0, 0, 3⟩, .unreside hd ⟨0, 0, 1, 0, 0⟩,
    .kvget hd ⟨0, 0, 0, 0xC0, 0⟩, .kvput hd ⟨0, 0, 0, 0, 4⟩, .kvpin hd ⟨0, 0, 0, 0, 2⟩, .kvdrop hd ⟨0, 0, 0, 1, 0⟩,
    .mma hd ⟨0, 3, 0, 0, 0, 0, 0⟩, .mma hd ⟨0, 0, 0, 0xC0, 0, 0, 0⟩, .mma hd ⟨0, 0, 0, 0, 0, 0, 4⟩, .mma hd ⟨0, 2, 16, 0, 0, 0, 0⟩,
    .accz hd ⟨0, 0, 0, 1, 0⟩, .accld hd ⟨1, 0, 0, 0, 0⟩, .accrd hd ⟨0, 0, 0xF8, 0, 1⟩, .accrd hd ⟨0, 0, 0, 0, 2⟩, .drain hd ⟨0, 0, 0, 0, 0⟩, .drain hd ⟨0, 0, 0, 0, 12⟩,
    .drain hd ⟨0, 0, 0, 0, 6⟩, .drain hd ⟨0, 0, 0, 0, 0x81⟩, .drain hd ⟨0, 1, 0, 0, 1⟩, .drain hd ⟨0, 0, 0, 0, 0x201⟩, .drain hd ⟨0, 0, 0, 0, 0x1001⟩,
    .lred hd ⟨0, 0, 0, 0, 7⟩, .lred hd ⟨0, 0, 0, 0, 0x70⟩, .lred hd ⟨0, 0, 0, 0, 0x200⟩, .lred hd ⟨0, 0, 0, 0, 0x100⟩, .lred hd ⟨0, 0, 0, 0, 0x10⟩, .lred hd ⟨1, 0, 0, 0, 1⟩,
    .lredw hd ⟨0, 0xC0, 0, 0, 0⟩, .lxpose hd ⟨0, 190, 0, 0, 0⟩, .lxpose hd ⟨0, 0, 0, 0, 3⟩, .illegalOpcode 0], i.wellFormed = false := by decide +kernel

/-! One word each, its values worked out in the spec. -/

/-- Lane 0 of the registers named holds these values. -/
def withV (l : List (Nat × Nat)) (s : State) : State :=
  withWave (fun v => { v with vregs := l.map fun x => (64 * x.1, BitVec.ofNat 32 x.2) }) s

/-- The wave after the word, every write of its results landed. -/
def afterWord (i : Instr) (s : State) : Wave :=
  match exec i s with
  | .next t =>
    let v := ((t.wgs.getD 0 (placedWg s 0)).waves.getD 0 { role := .vector, part := 0, slot := 0, n := 0, threads := [] })
    v.writeAll (v.pend.map (·.w))
  | _ => { role := .vector, part := 0, slot := 0, n := 0, threads := [] }

/-- Lane 0's v2 after the word, from these registers. -/
def outV (i : Instr) (l : List (Nat × Nat)) : Nat := ((afterWord i (withV l (placed i))).v 2 0).toNat

/-- R224: sums wrap, or saturate with .sat. -/
theorem test_iadd : outV (.iadd hd (af2 .i32)) [(4, 0xFFFFFFFF), (6, 1)] = 0
    ∧ outV (.iadd hd (af2m .i32 1)) [(4, 0x7FFFFFFF), (6, 1)] = 0x7FFFFFFF := by decide +kernel
/-- R224: a borrow in one element does not reach the other. -/
theorem test_isub_packed : outV (.isub hd (af2 .i16x2)) [(4, 0x00010000), (6, 0x00000001)] = 0x0001FFFF := by decide +kernel
/-- R225: a count of the width gives 0, and SAR the sign in every bit. -/
theorem test_shift_full : outV (.shl hd (af2 .i32)) [(4, 0xFFFFFFFF), (6, 32)] = 0
    ∧ outV (.sar hd (af2 .i32)) [(4, 0x80000000), (6, 40)] = 0xFFFFFFFF := by decide +kernel
/-- R228: MOVI's immediate form extends its sign. -/
theorem test_movi : outV (.moviImm hd ⟨2, 0, 0x3FFFFFFF⟩) [] = 0xFFFFFFFF := by decide +kernel
/-- R235: 2^24 + 1 ties to the even significand, and .rup goes up. -/
theorem test_fadd_tie : outV (.fadd hd (af2 .f32)) [(4, 0x4B800000), (6, 0x3F800000)] = 0x4B800000
    ∧ outV (.fadd hd (af2m .f32 3)) [(4, 0x4B800000), (6, 0x3F800000)] = 0x4B800001 := by decide +kernel
/-- R136, R242: 1.5 is grain-8's 0x48, and its 0x80 is a NaN. -/
theorem test_cvt_grain : outV (.cvt hd { af2 .i32 with b := 12, c := 10 }) [(4, 0x3FC00000)] = 0x48
    ∧ outV (.cvt hd { af2 .i32 with b := 10, c := 12 }) [(4, 0x80)] = 0x7FC00000 := by decide +kernel
/-- R137: 448 is E4M3's largest value. -/
theorem test_cvt_e4m3 : outV (.cvt hd { af2 .i32 with b := 14, c := 10 }) [(4, 0x43E00000)] = 0x7E := by decide +kernel
/-- R145's table: 2.0 in SLI32. -/
theorem test_slcvt_two : outV (.slcvt hd { af2 .i32 with b := 21, c := 10 }) [(4, 0x40000000)] = 0x458B90C0 := by decide +kernel
/-- The worked products and difference of the number-format chapter, with their flags. -/
theorem test_sli_worked : slOp sli32F .mul 0x48000000 0x48000000 = (0x4D8B90C0, 0) ∧ slOp sli32F .mul 0x38000000 0x38000000 = (0x32746F40, 0)
    ∧ slOp sli32F .sub 0x48000000 0x48000000 = (0, slCancel ||| slDown) := by decide +kernel
/-- R136: grain-8 and grain-6 codes beside their values. -/
theorem test_grain_codes : (∀ x ∈ [(0x7F, 4096, 1), (0x70, 16, 1), (0x60, 4, 1), (0x50, 2, 1), (0x48, 3, 2), (0x40, 1, 1), (0x38, 3, 4), (0x30, 1, 2),
      (0x20, 1, 4), (0x01, 1, 4096)], grainEncode 8 .rne (.num false x.2.1 x.2.2) = x.1)
    ∧ ∀ x ∈ [(0x1F, 256, 1), (0x12, 3, 2), (0x08, 1, 4), (0x01, 1, 256)], grainEncode 6 .rne (.num false x.2.1 x.2.2) = x.1 := by decide +kernel

/-- The wave of the arithmetic chapter's example: 64 threads, lanes 0 to 3 of v4 holding 2^24, 1, 1 and −2^24. -/
def allLanes (c : Issue) : Issue := { c with all := BitVec.allOnes 64, group := BitVec.allOnes 64 }
def summing (i : Instr) : State :=
  let s : State := placed i
  let s1 : State := { s with running := s.running.map allLanes }
  let ts : List Thread := List.replicate 64 (startThread 0x1000 true)
  withWave (fun v => { v with threads := ts, vregs := [(256, 0x4B800000), (257, 0x3F800000), (258, 0x3F800000), (259, 0xCB800000)] }) s1
/-- The tree gives 1 in every lane; the chain gives 2^24 in lanes 0 to 2 and +0 after. -/
theorem test_wred_worked : ∀ l ∈ [0, 1, 3, 63], (afterWord (.wred hd { af1 .f32 with d := 10 }) (summing (.wred hd { af1 .f32 with d := 10 }))).v 10 l = 0x3F800000#32 := by
  decide +kernel
theorem test_scan_worked : ∀ x ∈ [(0, 0x4B800000), (2, 0x4B800000), (3, 0), (63, 0)],
    ((afterWord (.scan hd { af1 .f32 with d := 11 }) (summing (.scan hd { af1 .f32 with d := 11 }))).v 11 x.1).toNat = x.2 := by decide +kernel

end Sys2Proof.Tests
end

section
/-! PROOFS. Words and instructions (O54): a word is put together again from the fields that the decoder reads, so that what a
word decodes to encodes to that word. -/
namespace Sys2Proof

/-! A word from its fields. -/

/-- Two neighbouring fields of a word make one field. -/
theorem Word.fld_append (w : Word) {hi lo m n : Nat} (h : hi = lo + n) : w.fld hi m ++ w.fld lo n = w.fld lo (m + n) := by
  subst h
  apply BitVec.eq_of_getLsbD_eq
  intro i hi
  simp only [Word.fld, BitVec.getLsbD_append, BitVec.getLsbD_extractLsb']
  by_cases hn : i < n
  · simp [hn, hi]
  · simp [hn, hi, show i - n < m by omega, show lo + n + (i - n) = lo + i by omega]

theorem Word.fld_all (w : Word) : w.fld 0 64 = w := extract_all w

theorem ofBit_bit (x : BitVec 1) : ofBit (bit x) = x := by revert x; decide

theorem Ty.code_ofCode (x : BitVec 4) : (Ty.ofCode x).code = x := by revert x; decide

theorem Word.gf_body (w : Word) : w.gf.body = w.fld 0 46 := by
  simp (disch := rfl) only [Word.gf, GF.body, Word.fld_append]

theorem Word.iF_body (w : Word) : w.iF.body = w.fld 0 46 := by
  simp (disch := rfl) only [Word.iF, IF.body, Word.fld_append]

theorem Word.lf_body (w : Word) : w.lf.body = w.fld 0 46 := by
  simp (disch := rfl) only [Word.lf, LF.body, Word.fld_append]

theorem Word.xf_body (w : Word) : w.xf.body = w.fld 0 46 := by
  simp (disch := rfl) only [Word.xf, XF.body, Word.fld_append]

theorem Word.mf_body (w : Word) (n : Nat) : (w.mf n).body = w.fld 0 46 := by
  simp (disch := rfl) only [Word.mf, MF.body, Word.fld_append]

theorem Word.af_body (w : Word) : w.af.body = w.fld 0 46 := by
  simp (disch := rfl) only [Word.af, AF.body, ofBit_bit, Ty.code_ofCode, Word.fld_append]

/-- The variant of a memory form is the low bits of the opcode (R183). -/
theorem Word.mf_var (w : Word) {n : Nat} (hn : n ≤ 6) : (w.mf n).var.toNat = w.opcode % 2 ^ n := by
  have hp : 2 ^ n ∣ 2 ^ 10 := pow_dvd_pow 2 (by omega)
  have hlt : w.toNat >>> 54 % 2 ^ n < 2 ^ 6 :=
    (Nat.mod_lt _ (Nat.two_pow_pos n)).trans_le (Nat.pow_le_pow_right (by decide) hn)
  simp only [Word.mf, Word.opcode, Word.fld, BitVec.toNat_setWidth, BitVec.extractLsb'_toNat, Nat.mod_mod_of_dvd _ hp]
  exact Nat.mod_eq_of_lt hlt

/-- A word is its opcode and its header above its body (R175). -/
theorem encodeWith_fields {w : Word} {op : Nat} (h : w.opcode = op) : encodeWith op w.hdr (w.fld 0 46) = w := by
  have hop : BitVec.ofNat 10 op = w.fld 54 10 := by rw [← h, Word.opcode, BitVec.ofNat_toNat, BitVec.setWidth_eq]
  simp (disch := rfl) only [encodeWith, Word.hdr, hop, ofBit_bit, Word.fld_append]
  exact w.fld_all

/-! What a word's opcode names encodes to the word. -/

theorem encode_rawLow {w : Word} {op : Nat} (h : w.opcode = op) : encode (rawLow w op) = some w := by
  unfold rawLow
  split <;> simp only [encode, Word.gf_body, Word.iF_body, Word.lf_body, Word.af_body, encodeWith_fields h]

theorem encode_rawHigh {w : Word} {op : Nat} (h : w.opcode = op) : encode (rawHigh w op) = some w := by
  unfold rawHigh
  split <;> simp only [encode, Word.gf_body, Word.mf_body, Word.xf_body, encodeWith_fields h]

/-- A memory form whose opcode has its variant in its low bits. -/
theorem encodeWith_mf_fields (w : Word) {base n : Nat} (hn : n ≤ 6) (h : base + w.opcode % 2 ^ n = w.opcode) :
    encodeWith (base + (w.mf n).var.toNat) w.hdr (w.mf n).body = w := by
  rw [w.mf_var hn, h, Word.mf_body, encodeWith_fields rfl]

theorem encode_rawInstr (w : Word) : encode (rawInstr w) = some w := by
  simp only [rawInstr]
  split
  · exact encode_rawLow rfl
  split
  · exact congrArg some (encodeWith_mf_fields w (by decide) (by omega))
  split
  · exact congrArg some (encodeWith_mf_fields w (by decide) (by omega))
  split
  · exact congrArg some (encodeWith_mf_fields w (by decide) (by omega))
  split
  · exact congrArg some (encodeWith_mf_fields w (by decide) (by omega))
  split
  · exact congrArg some (encodeWith_mf_fields w (by decide) (by omega))
  · exact encode_rawHigh rfl

/-- A word that decodes: what its opcode names is well formed. -/
theorem decodeWord_ok {w : Word} {i : Instr} (h : decodeWord w = .ok i) : rawInstr w = i ∧ i.wellFormed = true := by
  simp only [decodeWord] at h
  split at h
  · next hwf => cases h; exact ⟨rfl, hwf⟩
  · cases h

theorem wordOfBytes_bytesOfWord (w : Word) :
    wordOfBytes (w.fld 0 8) (w.fld 8 8) (w.fld 16 8) (w.fld 24 8) (w.fld 32 8) (w.fld 40 8) (w.fld 48 8) (w.fld 56 8) = w := by
  simp (disch := rfl) only [wordOfBytes, Word.fld_append]
  exact w.fld_all

/-- The decoder reads a word from the bytes that memory holds of it (R5). -/
theorem decode_bytesOfWord {w : Word} {i : Instr} (h : decodeWord w = .ok i) (r : List Byte) :
    decode (bytesOfWord w ++ r) = .ok (i, r) := by
  simp only [bytesOfWord, List.cons_append, List.nil_append, decode, wordOfBytes_bytesOfWord, h]

namespace Laws.RoundTrip

/-- The word of every well-formed instruction that has one decodes to it; an event has none. -/
theorem every (i : Instr) : Statement i := by
  cases i with
  | nop h f => exact nop h f
  | bra h f => exact bra h f
  | brx h f => exact brx h f
  | call h f => exact call h f
  | callx h f => exact callx h f
  | ret h f => exact ret h f
  | meet h f => exact meet h f
  | unmeet h f => exact unmeet h f
  | exit h f => exact exit h f
  | yieldW h f => exact yieldW h f
  | sleep h f => exact sleep h f
  | bkpt h f => exact bkpt h f
  | trap h f => exact trap h f
  | trapret h f => exact trapret h f
  | joinImm h f => exact joinImm h f
  | joinReg h f => exact joinReg h f
  | leaveImm h f => exact leaveImm h f
  | leaveReg h f => exact leaveReg h f
  | setinfo h f => exact setinfo h f
  | reggive h f => exact reggive h f
  | regclaim h f => exact regclaim h f
  | spawn h f => exact spawn h f
  | jdec h f => exact jdec h f
  | npreempt h f => exact npreempt h f
  | preemptok h f => exact preemptok h f
  | csrrd h f => exact csrrd h f
  | csrwr h f => exact csrwr h f
  | csrset h f => exact csrset h f
  | csrclr h f => exact csrclr h f
  | ptsync h f => exact ptsync h f
  | iadd h f => exact iadd h f
  | isub h f => exact isub h f
  | iaddc h f => exact iaddc h f
  | imul h f => exact imul h f
  | imulh h f => exact imulh h f
  | imad h f => exact imad h f
  | imin h f => exact imin h f
  | imax h f => exact imax h f
  | iabs h f => exact iabs h f
  | ineg h f => exact ineg h f
  | and h f => exact and h f
  | or h f => exact or h f
  | xor h f => exact xor h f
  | not h f => exact not h f
  | shl h f => exact shl h f
  | shr h f => exact shr h f
  | sar h f => exact sar h f
  | rot h f => exact rot h f
  | popc h f => exact popc h f
  | clz h f => exact clz h f
  | bfe h f => exact bfe h f
  | bfi h f => exact bfi h f
  | brev h f => exact brev h f
  | icmp h f => exact icmp h f
  | sel h f => exact sel h f
  | mov h f => exact mov h f
  | moviImm h f => exact moviImm h f
  | moviLit h f => exact moviLit h f
  | bcast h f => exact bcast h f
  | readlane h f => exact readlane h f
  | shfl h f => exact shfl h f
  | vote h f => exact vote h f
  | wred h f => exact wred h f
  | scan h f => exact scan h f
  | fadd h f => exact fadd h f
  | fsub h f => exact fsub h f
  | fmul h f => exact fmul h f
  | ffma h f => exact ffma h f
  | fmin h f => exact fmin h f
  | fmax h f => exact fmax h f
  | fcmp h f => exact fcmp h f
  | fclass h f => exact fclass h f
  | frcp h f => exact frcp h f
  | frsq h f => exact frsq h f
  | fsqrt h f => exact fsqrt h f
  | fex2 h f => exact fex2 h f
  | flg2 h f => exact flg2 h f
  | fsin h f => exact fsin h f
  | fcos h f => exact fcos h f
  | fdivs h f => exact fdivs h f
  | dot2 h f => exact dot2 h f
  | dot4 h f => exact dot4 h f
  | cvt h f => exact cvt h f
  | frnd h f => exact frnd h f
  | pack h f => exact pack h f
  | unpk h f => exact unpk h f
  | sladd h f => exact sladd h f
  | slsub h f => exact slsub h f
  | slmul h f => exact slmul h f
  | sldiv h f => exact sldiv h f
  | slcmp h f => exact slcmp h f
  | slcvt h f => exact slcvt h f
  | slflg h f => exact slflg h f
  | sllvl h f => exact sllvl h f
  | ld h f => exact ld h f
  | st h f => exact st h f
  | lds h f => exact lds h f
  | pref h f => exact pref h f
  | fence h f => exact fence h f
  | fencex h f => exact fencex h f
  | clean h f => exact clean h f
  | inval h f => exact inval h f
  | clinv h f => exact clinv h f
  | layset h f => exact layset h f
  | layget h f => exact layget h f
  | laychk h f => exact laychk h f
  | atoms h f => exact atoms h f
  | atom h f => exact atom h f
  | copy h f => exact copy h f
  | copym h f => exact copym h f
  | copyq h f => exact copyq h f
  | binit h f => exact binit h f
  | barrive h f => exact barrive h f
  | bexpect h f => exact bexpect h f
  | bwait h f => exact bwait h f
  | btest h f => exact btest h f
  | reside h f => exact reside h f
  | unreside h f => exact unreside h f
  | kvget h f => exact kvget h f
  | kvput h f => exact kvput h f
  | kvpin h f => exact kvpin h f
  | kvdrop h f => exact kvdrop h f
  | mma h f => exact mma h f
  | accz h f => exact accz h f
  | accld h f => exact accld h f
  | accrd h f => exact accrd h f
  | drain h f => exact drain h f
  | lred h f => exact lred h f
  | lredw h f => exact lredw h f
  | lxpose h f => exact lxpose h f
  | illegalOpcode w => exact illegalOpcode w
  | _ => exact of_none rfl

end Laws.RoundTrip

/-- Settles O54: encoding then decoding by the instruction, decoding then encoding by the fields of the word. -/
theorem decodeAndEncodeAgree : Obligations.DecodeAndEncodeAgree := by
  refine ⟨fun i hi w hw => Laws.RoundTrip.every i hi w hw, fun w i h => ?_⟩
  obtain ⟨rfl, hwf⟩ := decodeWord_ok h
  exact ⟨encode_rawInstr w, hwf, decode_bytesOfWord h⟩

end Sys2Proof
end

section
/-! PROOFS. Float words whose results are fixed-latency register writes (O7): special functions, FCLASS and the short dot
products. -/
namespace Sys2Proof.Machine

/-- The type and the scalar destination of a well-formed arithmetic word with a register destination (R177, R181). -/
theorem AF.ok_reg {f : AF} {tys : List Ty} {mask : BitVec 6} {w64 : Bool} {a b c : SrcUse}
    (h : f.ok tys mask (.reg w64) a b c = true) : f.ty ∈ tys ∧ (f.u = true → f.d.toNat < 192) := by
  simp only [AF.ok, Bool.and_eq_true, List.contains_iff_mem, DstUse.ok] at h
  obtain ⟨⟨⟨⟨⟨⟨hty, -⟩, -⟩, hd⟩, -⟩, -⟩, -⟩ := h
  exact ⟨hty, fun hu => by simpa [hu, sdst] using hd⟩

/-- A word that sends the value `g` of each lane to its destination register of the 32-bit type `dty` gives that value. -/
theorem givesDest_result32 {i : Instr} {h : Hdr} {f : AF} {dty : Ty} {tys : List Ty} {mask : BitVec 6} {a b c : SrcUse}
    {lat : Nat} (g : Env → Nat → Nat) (h32 : i.wellFormed = true → dty.is64 = false)
    (hwf : i.wellFormed = true → f.ok tys mask (.reg false) a b c = true)
    (huses : usesOf i = afUses f (.reg false) a b c)
    (hx : ∀ s, exec i s = aluWord h f lat (.reg false) a b c (fun e => e.result f dty (g e)) s) :
    GivesDest i h fun e => e.dest f dty (g e) := by
  intro hi s e hr
  rw [huses, ← h32 hi] at hr
  refine gives_result lat (body := fun e => e.result f dty (g e)) (g e) hr ?_ rfl (AF.ok_reg (hwf hi)).2
  rw [hx, h32 hi]

/-- A special function gives the neighbour of the exact value that the part's free choice names (R238, log 10). -/
theorem givesDest_special {i : Instr} {h : Hdr} {f : AF} (fn : Nat) (hwf : i.wellFormed = f.int1 [.f32] 0)
    (huses : usesOf i = AF.usesN f .unused .unused) (hx : ∀ s, exec i s = specialWord h f fn s) :
    GivesDest i h fun e => e.dest f f.ty fun l =>
      let (lo, hi) := specialOf fn (e.opA f f.ty l)
      if Config.faithfulUp fn (BitVec.ofNat 32 (e.opA f f.ty l)) then hi else lo := by
  have hty : i.wellFormed = true → f.ty = .f32 := fun hi => by
    simpa using (AF.ok_reg (hwf.symm.trans hi : f.int1 [.f32] 0 = true)).1
  refine givesDest_result32 (tys := [.f32]) (mask := 0) (fun e l => special fn (e.opA f f.ty l)) (fun hi => by rw [hty hi]; rfl)
    (fun hi => ?_) huses hx
  have hw : f.w = false := by rw [AF.w, hty hi]; rfl
  rw [← hw]
  exact hwf.symm.trans hi

theorem givesDest_fclass (h : Hdr) (f : AF) :
    GivesDest (.fclass h f) h fun e => e.dest f .n32 fun l => classOfCode (floatFmt f.ty) (e.opA f f.ty l) :=
  givesDest_result32 (fun e l => classOfCode (floatFmt f.ty) (e.opA f f.ty l)) (fun _ => rfl) id rfl fun _ => rfl

/-- The exact sum of DOT2 is that of its two products and c, element by element (R240). -/
theorem dot2Val_eq {t : Ty} (ht : t ∈ [Ty.f16x2, .bf16x2]) (z : Bool) (a b c : Nat) :
    dot2Val (floatFmt t) z a b c =
      (((floatElem t a 0).mul (floatElem t b 0)).add z ((floatElem t a 1).mul (floatElem t b 1))).add z (f32F.decode c) := by
  have hw : tyElem t = 16 := by
    simp only [List.mem_cons, List.not_mem_nil, or_false] at ht
    rcases ht with rfl | rfl <;> rfl
  simp only [dot2Val, floatElem, elemOf, hw]

theorem givesDest_dot2 (h : Hdr) (f : AF) :
    GivesDest (.dot2 h f) h (fun e => e.dest f .f32 fun l =>
      let p (i : Nat) : Val := (e.valA f l i).mul (e.valB f l i)
      floatRes .f32 (rmode f)
        (((p 0).add (zeroNeg (rmode f)) (p 1)).add (zeroNeg (rmode f)) (f32F.decode (e.opC f .f32 l)))) := by
  intro hi
  have hty := (AF.ok_reg (show f.ok [.f16x2, .bf16x2] 3 (.reg false) f.src f.src f.src = true from hi)).1
  refine givesDest_result32 (lat := 8) _ (fun _ => rfl) id rfl (fun s => ?_) hi
  show execDot2 h f s = _
  simp only [execDot2, dot2Val_eq hty]
  rfl

theorem givesDest_dot4 (h : Hdr) (f : AF) :
    GivesDest (.dot4 h f) h (fun e =>
      let ct : Ty := if f.ty = .i8x4 then .i32 else .n32
      e.dest f ct fun l => intRes ct (bitAt f.m 0) (intVal ct (e.opC f ct l) + e.intA f l 0 * e.intB f l 0
        + e.intA f l 1 * e.intB f l 1 + e.intA f l 2 * e.intB f l 2 + e.intA f l 3 * e.intB f l 3)) :=
  givesDest_result32 (lat := 8) _ (fun _ => by split <;> rfl) id rfl fun _ => rfl

/-- Settles O7: each word's meaning is one fixed-latency result, whose value is the one stated. -/
theorem specialFunctionsAndDots : Obligations.SpecialFunctionsAndDots :=
  ⟨fun h f => ⟨givesDest_special 0 rfl rfl fun _ => rfl, givesDest_special 1 rfl rfl fun _ => rfl,
    givesDest_special 2 rfl rfl fun _ => rfl, givesDest_special 3 rfl rfl fun _ => rfl,
    givesDest_special 4 rfl rfl fun _ => rfl, givesDest_special 5 rfl rfl fun _ => rfl, givesDest_fclass h f⟩,
   fun h f => ⟨givesDest_dot2 h f, givesDest_dot4 h f⟩⟩

end Sys2Proof.Machine
end

section
/-! PROOFS. The register window: what a register and a field of it read as after a write (R7), and where the registers stand
(R89). -/
namespace Sys2Proof.Machine

/-! Bits and fields of a word. -/

theorem bitAt_wmask (lo n k : Nat) : bitAt (wmask lo n) k = (decide (lo ≤ k ∧ k < lo + n) && decide (k < 64)) := by
  simp only [bitAt, wmask, BitVec.getLsbD_ofNat, Nat.testBit_shiftLeft, Nat.testBit_two_pow_sub_one]
  rw [Bool.eq_iff_iff]
  simp only [Bool.and_eq_true, decide_eq_true_eq]
  omega

/-- A bit of a word whose field was replaced. -/
theorem bitAt_wset (w : Word) (lo n v k : Nat) (hk : k < 64) :
    bitAt (wset w lo n v) k = if lo ≤ k ∧ k < lo + n then v.testBit (k - lo) else bitAt w k := by
  have hm := bitAt_wmask lo n k
  simp only [bitAt] at hm
  simp only [bitAt, wset, BitVec.getLsbD_or, BitVec.getLsbD_and, BitVec.getLsbD_not, hm, hk, BitVec.getLsbD_ofNat,
    Nat.testBit_shiftLeft, Nat.testBit_mod_two_pow, decide_true, Bool.true_and, Bool.and_true]
  by_cases h : lo ≤ k ∧ k < lo + n
  · simp [h.1, h.2, show k - lo < n by omega]
  · rw [if_neg h]
    by_cases h1 : lo ≤ k
    · simp [h1, show ¬k < lo + n by omega, show ¬k - lo < n by omega]
    · simp [h1]

theorem testBit_wfld (w : Word) (lo n i : Nat) : (wfld w lo n).testBit i = (decide (i < n) && bitAt w (lo + i)) := by
  simp only [wfld, bitAt, BitVec.testBit_toNat, BitVec.getLsbD_extractLsb']

theorem wfld_lt (w : Word) (lo n : Nat) : wfld w lo n < 2 ^ n := BitVec.isLt _

/-- A field depends on its own bits alone. -/
theorem wfld_congr {u w : Word} {lo n : Nat} (h : ∀ k, lo ≤ k → k < lo + n → bitAt u k = bitAt w k) :
    wfld u lo n = wfld w lo n := by
  apply Nat.eq_of_testBit_eq
  intro i
  rw [testBit_wfld, testBit_wfld]
  by_cases hi : i < n
  · rw [h (lo + i) (by omega) (by omega)]
  · simp [hi]

theorem bitAt_not (w : Word) {k : Nat} (h : k < 64) : bitAt (~~~w) k = !bitAt w k := by simp [bitAt, h]

theorem bitAt_ge (w : Word) {k : Nat} (h : 64 ≤ k) : bitAt w k = false := BitVec.getLsbD_of_ge w k h

theorem wfld_wset_self (w : Word) {lo n : Nat} (v : Nat) (h : lo + n ≤ 64) : wfld (wset w lo n v) lo n = v % 2 ^ n := by
  apply Nat.eq_of_testBit_eq
  intro i
  rw [testBit_wfld, Nat.testBit_mod_two_pow]
  by_cases hi : i < n
  · rw [bitAt_wset _ _ _ _ _ (by omega), if_pos (by omega), Nat.add_sub_cancel_left]
  · simp [hi]

theorem wfld_wset_other (w : Word) {lo n a m : Nat} (v : Nat) (h : a + m ≤ lo ∨ lo + n ≤ a) :
    wfld (wset w lo n v) a m = wfld w a m := by
  refine wfld_congr fun k h1 h2 => ?_
  by_cases hk : k < 64
  · rw [bitAt_wset _ _ _ _ _ hk, if_neg (by omega)]
  · rw [bitAt_ge _ (by omega), bitAt_ge _ (by omega)]

/-! Reading a register after a write. -/

theorem State.reg_setReg (s : State) (o : Nat) (v : Word) (p : Nat) :
    (s.setReg o v).reg p = if p = o then v else s.reg p := by
  by_cases hv : v = regReset o
  · simp only [State.reg, State.setReg, if_pos hv, SMap.find_erase]
    by_cases h : p = o
    · subst h; simp [hv]
    · simp [h]
  · simp only [State.reg, State.setReg, if_neg hv, SMap.find_insert]
    by_cases h : p = o <;> simp [h]

@[simp] theorem State.reg_setReg_self (s : State) (o : Nat) (v : Word) : (s.setReg o v).reg o = v := by
  rw [State.reg_setReg, if_pos rfl]

theorem State.reg_setReg_other (s : State) {o p : Nat} (v : Word) (h : p ≠ o) : (s.setReg o v).reg p = s.reg p := by
  rw [State.reg_setReg, if_neg h]

theorem State.setReg_reg (s : State) (o p : Nat) : (s.setReg o (s.reg o)).reg p = s.reg p := by
  rw [State.reg_setReg]; split
  · next h => rw [h]
  · rfl

theorem State.rf_setRf_self (s : State) (o : Nat) {lo n : Nat} (v : Nat) (h : lo + n ≤ 64) :
    (s.setRf o lo n v).rf o lo n = v % 2 ^ n := by
  rw [State.rf, State.setRf, State.reg_setReg_self, wfld_wset_self _ _ h]

theorem State.rf_setRf_field (s : State) (o : Nat) {lo n a m : Nat} (v : Nat) (h : a + m ≤ lo ∨ lo + n ≤ a) :
    (s.setRf o lo n v).rf o a m = s.rf o a m := by
  rw [State.rf, State.setRf, State.reg_setReg_self, wfld_wset_other _ _ h, State.rf]

theorem State.rf_setRf_other (s : State) {o p : Nat} (lo n v a m : Nat) (h : p ≠ o) :
    (s.setRf o lo n v).rf p a m = s.rf p a m := by
  rw [State.rf, State.setRf, State.reg_setReg_other _ _ h, State.rf]

/-! A write by the access codes (R7). -/

/-- A write of a field leaves the bits outside it. -/
theorem bitAt_fldWrite_other (sec guard : Bool) (v w : Word) (f : Fld) {k : Nat} (hk : k < f.lo ∨ f.lo + f.n ≤ k) :
    bitAt (fldWrite sec guard v w f) k = bitAt w k := by
  by_cases h64 : k < 64
  · have hm : bitAt (wmask f.lo f.n) k = false := by rw [bitAt_wmask, decide_eq_false (by omega), Bool.false_and]
    simp only [fldWrite]
    split
    · rfl
    · split
      · rw [bitAt_wset _ _ _ _ _ h64, if_neg (by omega)]
      · rw [bitAt_wset _ _ _ _ _ h64, if_neg (by omega)]
      · rw [bitAt_and, bitAt_not _ h64, bitAt_and, hm, Bool.and_false, Bool.not_false, Bool.and_true]
      · rw [bitAt_or, bitAt_and, hm, Bool.and_false, Bool.or_false]
      · rfl
      · rfl
  · rw [bitAt_ge _ (by omega), bitAt_ge _ (by omega)]

theorem bitAt_foldl_fldWrite_other (sec guard : Bool) (v : Word) (fs : List Fld) (w : Word) {k : Nat}
    (hk : ∀ f ∈ fs, k < f.lo ∨ f.lo + f.n ≤ k) : bitAt (fs.foldl (fldWrite sec guard v) w) k = bitAt w k := by
  induction fs generalizing w with
  | nil => rfl
  | cons f r ih =>
    rw [List.foldl_cons, ih _ fun g hg => hk g (List.mem_cons_of_mem _ hg),
      bitAt_fldWrite_other _ _ _ _ _ (hk f List.mem_cons_self)]

/-- Two fields have no bit in common. -/
def Fld.apart (f g : Fld) : Bool := f.lo + f.n ≤ g.lo || g.lo + g.n ≤ f.lo

/-- An RW field of a register whose fields are apart reads as written, where the write is let through. -/
theorem wfld_foldl_fldWrite {sec guard : Bool} (hg : guard = false ∨ sec = true) (v : Word) {fs : List Fld}
    (hfs : fs.Pairwise fun f g => f.apart g = true) (h64 : ∀ f ∈ fs, f.lo + f.n ≤ 64) (w : Word) {f : Fld} (hf : f ∈ fs) (hrw : f.acc = .rw) :
    wfld (fs.foldl (fldWrite sec guard v) w) f.lo f.n = wfld v f.lo f.n := by
  induction fs generalizing w with
  | nil => cases hf
  | cons a r ih =>
    obtain ⟨ha, hr⟩ := List.pairwise_cons.1 hfs
    rcases List.mem_cons.1 hf with rfl | hf
    · have hrest : wfld (r.foldl (fldWrite sec guard v) (fldWrite sec guard v w f)) f.lo f.n
          = wfld (fldWrite sec guard v w f) f.lo f.n := by
        refine wfld_congr fun k h1 h2 => bitAt_foldl_fldWrite_other _ _ _ _ _ fun g hg' => ?_
        have := ha g hg'
        simp only [Fld.apart, Bool.or_eq_true, decide_eq_true_eq] at this
        omega
      have hopen : ((guard || decide (f.acc = .rws)) && !sec) = false := by
        rcases hg with rfl | rfl <;> simp [hrw]
      rw [List.foldl_cons, hrest, fldWrite, hopen]
      simp only [Bool.false_eq_true, if_false, hrw]
      rw [wfld_wset_self _ _ (h64 f hf), Nat.mod_eq_of_lt (wfld_lt ..)]
    · exact ih hr (fun g hg' => h64 g (List.mem_cons_of_mem _ hg')) _ hf

end Sys2Proof.Machine
end

section
/-! PROOFS. Reset (O57), retention sleep and the clock (O51), and the writes of the register window (O53). -/
namespace Sys2Proof.Machine

/-! Where the registers of lodes and cores stand (R89). -/

theorem regLoc_col {n l : Nat} (hn : n < 256) (hl : l < 0x40) : regLoc (0x20000 + 0x40 * n + l) = some (.col, n, l) := by
  simp (disch := omega) only [regLoc, if_neg, if_pos]
  rw [show (0x20000 + 0x40 * n + l - 0x20000) / 0x40 = n by omega, show (0x20000 + 0x40 * n + l) % 0x40 = l by omega]

theorem regLoc_core {n l : Nat} (hn : n < 256) (hl : l < 0x1000) :
    regLoc (0x100000 + 0x1000 * n + l) = some (.core, n, l) := by
  simp (disch := omega) only [regLoc, if_neg, if_pos]
  rw [show (0x100000 + 0x1000 * n + l - 0x100000) / 0x1000 = n by omega, show (0x100000 + 0x1000 * n + l) % 0x1000 = l by omega]

theorem regLoc_rPOOL_REG_TOP {n : Nat} (hn : n < 256) : regLoc (rPOOL_REG_TOP n) = some (.core, n, 0x00) :=
  regLoc_core (l := 0) hn (by decide)

/-! Reset. -/

/-- A register reads at reset as its Reset column says. -/
theorem reset_rf {o i l : Nat} {b : Blk} (h : regLoc o = some (b, i, l)) (lo n : Nat) :
    State.reset.rf o lo n = wfld (blkReset b i l) lo n := by
  show wfld (regReset o) lo n = _
  rw [regReset, h]

/-- The registers of a partition's bounds and quotas at reset (R48, R313, R332). -/
theorem reset_quarter {q : Nat} (hq : q < 4) :
    State.reset.rf (rHBR_CTL q) 0 10 = 100 ∧ State.reset.rf (rSCH_CTL q) 16 13 = 4000 ∧ State.reset.rf (rSCH_CTL q) 0 1 = 0
      ∧ State.reset.rf (rTMB_SD_QUOTA q) 0 32 = 524288 ∧ State.reset.rf (rTMB_SD_QUOTA q) 32 32 = 65536 := by
  interval_cases q <;> decide +kernel

/-- The key-value quota of a lode, and the division and the generation of a core, at reset (R83, R115, R119). -/
theorem reset_column {n : Nat} (hn : n < 256) :
    State.reset.rf (rSTR_KV n) 0 16 = 8192 ∧ State.reset.regTop n = 16 ∧ State.reset.scrTop n = 40
      ∧ State.reset.accTop n = 48 ∧ State.reset.gen n = 0 := by
  refine ⟨?_, ?_, ?_, ?_, ?_⟩
  · rw [rSTR_KV, show 0x20018 + 0x40 * n = 0x20000 + 0x40 * n + 0x18 by omega, reset_rf (regLoc_col hn (by decide))]; rfl
  · rw [State.regTop, reset_rf (regLoc_rPOOL_REG_TOP hn)]
    exact (by decide : wfld 0x1010 0 6 = 16)
  · rw [State.scrTop, rPOOL_SCR_TOP, show 0x100008 + 0x1000 * n = 0x100000 + 0x1000 * n + 8 by omega,
      reset_rf (regLoc_core hn (by decide))]
    exact (by decide : wfld 0x2828 0 6 = 40)
  · rw [State.accTop, rPOOL_ACC_TOP, show 0x100010 + 0x1000 * n = 0x100000 + 0x1000 * n + 0x10 by omega,
      reset_rf (regLoc_core hn (by decide))]
    exact (by decide : wfld 0x3030 0 6 = 48)
  · rw [State.gen, rL1_STAT, show 0x100018 + 0x1000 * n = 0x100000 + 0x1000 * n + 0x18 by omega,
      reset_rf (regLoc_core hn (by decide))]; rfl

/-- Settles O57: the state's own fields by definition, each register by the Reset column of its block. -/
theorem resetState : Obligations.ResetState := by
  refine ⟨rfl, rfl, rfl, rfl, rfl, rfl, by decide +kernel, rfl, by decide +kernel, by decide +kernel, by decide +kernel,
    by decide +kernel, by decide +kernel, by decide +kernel, by decide +kernel, by decide +kernel, by decide +kernel, ?_⟩
  intro q n hq hn
  obtain ⟨hlease, hbound, hen, hquota, hhost⟩ := reset_quarter hq
  obtain ⟨hkv, hr, hc, ha, hg⟩ := reset_column hn
  exact ⟨hlease, hbound, hen, rfl, rfl, hquota, hhost, hkv, by rw [hr, hc, ha], hg, by decide⟩

/-! Retention sleep and the clock. -/

@[simp] theorem State.coreOf_modCore_self (s : State) (n : Nat) (f : CoreX → CoreX) :
    (s.modCore n f).coreOf n = f (s.coreOf n) := SMap.get_put_self ..

theorem State.coreOf_modCore_other (s : State) {n m : Nat} (f : CoreX → CoreX) (h : m ≠ n) :
    (s.modCore n f).coreOf m = s.coreOf m := SMap.get_put_other _ _ h _

@[simp] theorem State.lodeOf_modLode_self (s : State) (n : Nat) (f : LodeX → LodeX) :
    (s.modLode n f).lodeOf n = f (s.lodeOf n) := SMap.get_put_self ..

/-- A core that wakes has an empty L1 (R120). -/
theorem State.wakeCore_spec {s : State} {n : Nat} (h : (s.coreOf n).asleep = true) :
    ((s.wakeCore n).coreOf n).asleep = false ∧ (s.wakeCore n).gen n = s.gen n ∧ (∀ x ∈ (s.wakeCore n).l1, x.core ≠ n)
      ∧ s.wakeCore n = { s with coreX := (s.wakeCore n).coreX, l1 := (s.wakeCore n).l1, l1fills := (s.wakeCore n).l1fills } := by
  rw [State.wakeCore, if_pos h]
  refine ⟨?_, rfl, fun x hx => by simpa using (List.mem_filter.1 hx).2, rfl⟩
  show ((s.modCore n fun x => { x with asleep := false }).coreOf n).asleep = false
  rw [State.coreOf_modCore_self]

/-- A lode that wakes keeps its contents; the age of its entries has run out meanwhile (R84, R384). -/
theorem State.wakeLode_spec {s : State} {n : Nat} (h : (s.lodeOf n).asleep = true) :
    ((s.wakeLode n).lodeOf n).asleep = false
      ∧ s.wakeLode n = { s with lodeX := (s.wakeLode n).lodeX
                                kv := s.kv.map fun e => if e.lode = n then { e with oldest := true } else e } := by
  rw [State.wakeLode, if_pos h]
  refine ⟨?_, rfl⟩
  show ((s.modLode n fun x => { x with asleep := false }).lodeOf n).asleep = false
  rw [State.lodeOf_modLode_self]

/-- Settles O51. -/
theorem sleepAndClock : Obligations.SleepAndClock := by
  intro s
  refine ⟨fun n hempty hcopies hret hidle => ?_, fun n h => ⟨_, rfl, State.wakeCore_spec h⟩, fun n hn hq => ?_,
    fun n h => ⟨_, rfl, State.wakeLode_spec h⟩, fun mhz h => ?_⟩
  · show execCoreRetentionSleep n s = _
    have hc : (s.copies.all fun c => c.core ≠ n) = true := by simpa using hcopies
    rw [execCoreRetentionSleep, hempty, hc, hret, decide_eq_true hidle]
    rfl
  · show execLodeRetentionSleep n s = _
    rw [execLodeRetentionSleep, decide_eq_true hn, decide_eq_true hq]
    rfl
  · show execCoreClockChange mhz s = _
    rw [execCoreClockChange, if_neg h]

/-! Writes of registers. -/

/-- The registers whose writes do more, or other, than their access codes say. -/
def hasAction (b : Blk) (l : Nat) : Bool :=
  b = .part || [(Blk.pkg, 0x08), (.pkg, 0x28), (.pkg, 0x38), (.tmb, 0x00), (.tmbQ, 0x08), (.tmbQ, 0x10), (.tmbQ, 0x30),
    (.xlt, 0x00), (.xlt, 0x18), (.xlt, 0x20), (.hbr, 0x08), (.sch, 0x08), (.sch, 0x18), (.sch, 0x20), (.sch, 0x50), (.flt, 0x00),
    (.col, 0x00), (.core, 0x00), (.core, 0x30)].contains (b, l)

/-- A write of a register without an action of its own goes by its fields' access codes (R7). -/
theorem State.regWrite_plain {s : State} {o i l : Nat} {b : Blk} {v : Word} {sec : Bool} (hloc : regLoc o = some (b, i, l))
    (hhas : blkHas b l = true) (hlive : s.live b i = true) (hbar : (!sec && s.barred b i l) = false)
    (hw : isWorldReg o = false) (hact : hasAction b l = false) :
    s.regWrite o v sec = s.setReg o ((blkFields b l).foldl (fldWrite sec (s.guarded b i) v) (s.reg o)) := by
  simp only [State.regWrite, hloc, hhas, hlive, hbar, hw, Bool.not_true, Bool.or_self, Bool.false_eq_true, if_false]
  split <;> simp_all [hasAction, State.writeFields]

/-- A write at a register that is not in force, or that the unit's world forbids. -/
theorem State.regWrite_dead {s : State} {o i l : Nat} {b : Blk} (v : Word) (sec : Bool) (hloc : regLoc o = some (b, i, l))
    (hlive : s.live b i = false) : s.regWrite o v sec = s := by
  simp [State.regWrite, hloc, hlive]

theorem State.regWrite_barred {s : State} {o i l : Nat} {b : Blk} (v : Word) (hloc : regLoc o = some (b, i, l))
    (hhas : blkHas b l = true) (hlive : s.live b i = true) (hbar : s.barred b i l = true) :
    s.regWrite o v false = s.violation o := by
  simp [State.regWrite, hloc, hhas, hlive, hbar]

theorem regLoc_pkg {o : Nat} (h : o < 0x1000) : regLoc o = some (.pkg, 0, o) := if_pos h

/-- A register of the worlds stands in the package's block or is a partition's WLD_QUEUE (R375). -/
theorem isWorldReg_loc {o i l : Nat} {b : Blk} (h : regLoc o = some (b, i, l)) (hw : isWorldReg o = true) :
    (b = .pkg ∧ (l = 0x40 ∨ 0x50 ≤ l ∧ l < 0x90)) ∨ (b = .part ∧ l = 0x10) := by
  simp only [isWorldReg, h, Bool.or_eq_true, Bool.and_eq_true, decide_eq_true_eq] at hw
  rcases hw with (rfl | ⟨⟨h1, h2⟩, -⟩) | hp
  · rw [regLoc_pkg (by decide)] at h
    cases h; exact .inl ⟨rfl, .inl rfl⟩
  · rw [regLoc_pkg (by omega)] at h
    cases h; exact .inl ⟨rfl, .inr ⟨h1, h2⟩⟩
  · cases b <;> simp_all

/-- A register that shows an action, or a world, has a writable field. -/
theorem hasAction_fields {b : Blk} {l : Nat} (hhas : blkHas b l = true) (h : hasAction b l = true) : blkFields b l ≠ [] := by
  simp only [hasAction, Bool.or_eq_true, decide_eq_true_eq, List.contains_iff_mem, List.mem_cons, List.not_mem_nil, or_false,
    Prod.mk.injEq] at h
  rcases h with rfl | h
  · simp only [blkHas, Bool.or_eq_true, decide_eq_true_eq] at hhas
    rcases hhas with (rfl | rfl) | rfl <;> decide
  · rcases h with h | h | h | h | h | h | h | h | h | h | h | h | h | h | h | h | h | h | h <;>
      obtain ⟨rfl, rfl⟩ := h <;> decide

theorem isWorldReg_fields {o i l : Nat} {b : Blk} (h : regLoc o = some (b, i, l)) (hw : isWorldReg o = true) :
    blkFields b l ≠ [] := by
  rcases isWorldReg_loc h hw with ⟨rfl, rfl | hl⟩ | ⟨rfl, rfl⟩
  · decide
  · unfold blkFields
    split <;> simp_all
  · decide

/-- A write of a register without a writable field leaves every register as it reads. -/
theorem State.regWrite_no_fields {s : State} {o i l : Nat} {b : Blk} (v : Word) (sec : Bool) (hloc : regLoc o = some (b, i, l))
    (hhas : blkHas b l = true) (hf : blkFields b l = []) (p : Nat) : (s.regWrite o v sec).reg p = s.reg p := by
  cases hlive : s.live b i with
  | false => rw [State.regWrite_dead v sec hloc hlive]
  | true =>
    have hbar : s.barred b i l = false := by rw [State.barred, hf]; rfl
    have hw : isWorldReg o = false := by
      by_contra hw; exact isWorldReg_fields hloc (by simpa using hw) hf
    have hact : hasAction b l = false := by
      by_contra ha; exact hasAction_fields hhas (by simpa using ha) hf
    rw [State.regWrite_plain hloc hhas hlive (by rw [hbar, Bool.and_false]) hw hact, hf, List.foldl_nil, State.setReg_reg]

/-- The registers of the statement that a write changes by its access codes alone. -/
def plainRegs : List (Blk × Nat) :=
  [(.pkg, 0x180), (.xlt, 0x08), (.hbr, 0x00), (.sch, 0x00), (.sch, 0x10), (.sch, 0x30), (.rel, 0x00), (.rel, 0x10), (.col, 0x18),
    (.core, 0x28)]

/-- Their fields are apart and lie within the register, and none follows the RWS rule by its own code. -/
theorem plainRegs_fields : ∀ x ∈ plainRegs, (blkFields x.1 x.2).Pairwise (fun f g => f.apart g = true)
    ∧ (∀ f ∈ blkFields x.1 x.2, f.lo + f.n ≤ 64) ∧ (∀ f ∈ blkFields x.1 x.2, f.acc ≠ .rws)
    ∧ hasAction x.1 x.2 = false ∧ x.1 ≠ .part ∧ (x.1 = .pkg → 0x90 ≤ x.2) := by decide +kernel

/-- A write that is let through to one of them stores by its fields. -/
theorem State.regWrite_plainRegs {s : State} {o i l : Nat} {b : Blk} {v : Word} {sec : Bool} (hloc : regLoc o = some (b, i, l))
    (hhas : blkHas b l = true) (hx : (b, l) ∈ plainRegs) (hlive : s.live b i = true) (hg : s.guarded b i = false ∨ sec = true) :
    s.regWrite o v sec = s.setReg o ((blkFields b l).foldl (fldWrite sec (s.guarded b i) v) (s.reg o)) := by
  obtain ⟨-, -, hrws, hact, hpart, hpkg⟩ := plainRegs_fields _ hx
  have hbar : (!sec && s.barred b i l) = false := by
    rcases hg with hg | rfl
    · have : s.barred b i l = false := by
        rw [State.barred, List.any_eq_false]
        intro f hf
        simpa [hg] using hrws f hf
      rw [this, Bool.and_false]
    · rfl
  have hw : isWorldReg o = false := by
    by_contra hw
    rcases isWorldReg_loc hloc (by simpa using hw) with ⟨rfl, hl⟩ | ⟨rfl, -⟩
    · have := hpkg rfl
      omega
    · exact hpart rfl
  exact State.regWrite_plain hloc hhas hlive hbar hw hact

/-! World assignment (R375). -/

/-- What keeps a core in its world is a workgroup on it. -/
theorem State.worldBusy_core (s : State) {k : Nat} (hk : k < 4) (b : Nat) :
    s.worldBusy (rWLD_CORE k) b = !s.coreEmpty (64 * k + b) := by
  have hloc : regLoc (rWLD_CORE k) = some (.pkg, 0, rWLD_CORE k) := regLoc_pkg (by simp only [rWLD_CORE]; omega)
  have hlt : rWLD_CORE k < 0x70 := by simp only [rWLD_CORE]; omega
  have hlink : rWLD_CORE k ≠ rWLD_LINK := by simp only [rWLD_CORE, rWLD_LINK]; omega
  have hbase : (rWLD_CORE k - 0x50) / 8 * 64 = 64 * k := by simp only [rWLD_CORE]; omega
  simp only [State.worldBusy, hloc, hlt, hlink, hbase, if_false, if_true]

/-- An assignment of cores to worlds by a secure agent. -/
theorem State.worldAssign_core (s : State) {k : Nat} (hk : k < 4) (v : Word) :
    s.worldAssign (rWLD_CORE k) v true =
      if ((List.range 64).filter fun b => bitAt v b ≠ bitAt (s.reg (rWLD_CORE k)) b).any fun b => !s.coreEmpty (64 * k + b)
      then s.setRf rWLD_STAT 0 1 1 else s.setReg (rWLD_CORE k) v := by
  have hw : isWorldReg (rWLD_CORE k) = true := by interval_cases k <;> decide
  have hb : s.worldBusy (rWLD_CORE k) = fun b => !s.coreEmpty (64 * k + b) := funext fun b => s.worldBusy_core hk b
  have hlt : ¬0x1000 ≤ rWLD_CORE k := by simp only [rWLD_CORE]; omega
  have hlink : rWLD_CORE k ≠ rWLD_LINK := by simp only [rWLD_CORE, rWLD_LINK]; omega
  have hlode : ¬(0x70 ≤ rWLD_CORE k ∧ rWLD_CORE k < 0x90) := by simp only [rWLD_CORE]; omega
  simp only [State.worldAssign, hw, hlt, hb, hlink, State.worldApply, hlode, if_false, Bool.not_true, decide_false,
    Bool.false_and, Bool.or_self, Bool.false_eq_true]

theorem State.worldAssign_nonsecure (s : State) {k : Nat} (hk : k < 4) (v : Word) :
    s.worldAssign (rWLD_CORE k) v false = s.violation (rWLD_CORE k) := by
  have hw : isWorldReg (rWLD_CORE k) = true := by interval_cases k <;> decide
  have hlt : ¬0x1000 ≤ rWLD_CORE k := by simp only [rWLD_CORE]; omega
  simp [State.worldAssign, hw, hlt]

/-- Settles O53. -/
theorem registerWrites : Obligations.RegisterWrites := by
  intro s v sec
  refine ⟨fun o ho => ?_, fun o b i l hloc hhas => ⟨fun hl => ?_, fun hl hb hs => ?_, fun hf => ?_, fun hx hl hg => ?_⟩,
    fun k hk => ⟨fun hs => ?_, fun hs hall => ?_, fun hs hex => ?_⟩⟩
  · show Host.Outcome.next (s.regWrite o v sec) = _
    rw [State.regWrite, ho]
  · exact congrArg Host.Outcome.next (State.regWrite_dead v sec hloc hl)
  · subst hs
    exact congrArg Host.Outcome.next (State.regWrite_barred v hloc hhas hl hb)
  · exact ⟨_, rfl, State.regWrite_no_fields v sec hloc hhas hf⟩
  · obtain ⟨hpair, h64, -⟩ := plainRegs_fields _ hx
    refine ⟨_, congrArg Host.Outcome.next (State.regWrite_plainRegs hloc hhas hx hl hg), rfl,
      fun p hp => State.reg_setReg_other _ _ hp, fun f hf hrw => ?_, fun k _ hk => ?_⟩
    · rw [State.rf, State.reg_setReg_self, wfld_foldl_fldWrite hg v hpair h64 _ hf hrw]
    · rw [State.reg_setReg_self, bitAt_foldl_fldWrite_other _ _ _ _ _ hk]
  · subst hs
    exact congrArg Host.Outcome.next (s.worldAssign_nonsecure hk v)
  · subst hs
    refine congrArg Host.Outcome.next ((s.worldAssign_core hk v).trans (if_neg ?_))
    simp only [List.any_eq_true, List.mem_filter, List.mem_range, decide_eq_true_eq]
    rintro ⟨b, hb, he⟩
    rw [hall b hb] at he
    cases he
  · subst hs
    obtain ⟨b, hb, he⟩ := hex
    refine congrArg Host.Outcome.next ((s.worldAssign_core hk v).trans (if_pos ?_))
    simp only [List.any_eq_true, List.mem_filter, List.mem_range, decide_eq_true_eq]
    exact ⟨b, hb, by rw [he]; rfl⟩

end Sys2Proof.Machine
end

section
/-! PROOFS. Shoot-downs (O38): the statement fails for an invalidation made for a frame's first mapping. -/
namespace Sys2Proof.Machine

/-- The invalidation of page-table line 0, made for the first mapping of that line's frame: core 0 has yet to acknowledge. -/
def mapInval : Inval := { id := 0, line := 0, cores := [0], lodes := [], writers := [], host := false, map := true }

/-- Core 0's ALB entry for the 64 KiB page at address 0, read through page-table line 0. -/
def mapInvalEntry : AlbEntry :=
  { core := 0, asid := 0, page := 0, path := [0],
    leaf := { rd := true, wr := true, ex := false, world := false, cmp := false, fmt := 0, geom := 0, home := 0, die := 0,
              so := false, cattr := 0, loc := false, frame := 0, size := .k64 } }

/-- That invalidation in progress while an L1 fill of the page is on its way to core 0, which has no store and no request. -/
def mapInvalState : State :=
  { invals := [mapInval], alb := [mapInvalEntry], l1fills := [{ id := 1, core := 0, asid := 0, line := 0, data := 0, stamp := 0 }] }

/-- The L1 fill on its way keeps the entry in view (R60, log 78). -/
theorem mapInval_keeps_entry : (mapInvalState.albInval mapInval 0).alb = [{ mapInvalEntry with out := true }] := by
  decide +kernel

theorem exec_mapInval : exec (.albInvalidate 0 0) mapInvalState = .next (mapInvalState.albInval mapInval 0) := by
  rfl

/-- Refutes O38: an invalidation made for a first mapping (`map`) leaves the ALB entry of a page whose L1 fill is still on
its way, as a replaced entry, where the statement has it leave; its hypotheses bar stores and requests, but no fill. -/
theorem not_shootDowns : ¬ Obligations.ShootDowns := by
  intro h
  obtain ⟨hcore, -⟩ := h mapInvalState
  obtain ⟨t, hx, -, halb, -⟩ := hcore mapInval 0 (by decide) (by decide) (by decide)
  rw [show mapInval.id = 0 from rfl, exec_mapInval] at hx
  cases hx
  rw [mapInval_keeps_entry] at halb
  exact absurd halb (by decide)

end Sys2Proof.Machine
end

section
/-! PROOFS. What a writeback of a lode's line leaves as it was (R32 to R43): the pool's own records move, and the line. -/
namespace Sys2Proof.Machine

/-! Erased states. Two states that agree once some fields are erased differ in those fields alone; each operation is shown once
to keep the erased state. -/

/-- A fold keeps what its step keeps. -/
theorem foldl_keeps {α β γ : Type} (g : β → γ) {f : β → α → β} (h : ∀ b a, g (f b a) = g b) (l : List α) (b : β) :
    g (l.foldl f b) = g b := by
  induction l generalizing b with
  | nil => rfl
  | cons a r ih => rw [List.foldl_cons, ih, h]

/-- The registers in which the Tumbler keeps its events and its free flakes (R34, R47). -/
def poolReg (o : Nat) : Bool := o = rTMB_INT_STAT || (0x10100 ≤ o && (o - 0x10100) % 0x100 = 0)

theorem poolReg_rTMB_POOL (q : Nat) : poolReg (rTMB_POOL q) = true := by
  have h1 : 0x10100 ≤ rTMB_POOL q := by unfold rTMB_POOL; omega
  have h2 : (rTMB_POOL q - 0x10100) % 0x100 = 0 := by unfold rTMB_POOL; omega
  simp [poolReg, h1, h2]

theorem SMap.drop_insert {α : Type} {p : Nat → Bool} {k : Nat} (hk : p k = true) (m : SMap α) (v : α) :
    SMap.drop p (SMap.insert m k v) = SMap.drop p m := by
  induction m with
  | nil => simp [SMap.insert, SMap.drop, hk]
  | cons e r ih =>
    obtain ⟨j, w⟩ := e
    simp only [SMap.insert]
    split
    · simp [SMap.drop, hk]
    · split
      · next h => subst h; simp [SMap.drop, hk]
      · simp only [SMap.drop, List.filter_cons] at ih ⊢
        rw [ih]

theorem SMap.drop_erase {α : Type} {p : Nat → Bool} {k : Nat} (hk : p k = true) (m : SMap α) :
    SMap.drop p (SMap.erase m k) = SMap.drop p m := by
  rw [SMap.drop, SMap.erase, SMap.drop, List.filter_filter]
  refine List.filter_congr fun e _ => ?_
  by_cases h : e.1 = k
  · simp [h, hk]
  · simp [h]

theorem SMap.find_drop {α : Type} {p : Nat → Bool} {k : Nat} (hk : p k = false) (m : SMap α) :
    SMap.find (SMap.drop p m) k = SMap.find m k := by
  induction m with
  | nil => rfl
  | cons e r ih =>
    obtain ⟨j, w⟩ := e
    by_cases h : j = k
    · subst h; simp [SMap.drop, SMap.find, hk]
    · cases hp : p j
      · simpa [SMap.drop, SMap.find, hp, h] using ih
      · simpa [SMap.drop, SMap.find, hp, h] using ih

/-- A state without the Tumbler's records and the memory behind them. -/
def State.fundless (s : State) : State :=
  { s with csr := SMap.drop poolReg s.csr, mem := [], frames := [], lodeX := [], tmb := [], msix := [], nextId := 0, rawWait := [] }

section Fund
variable (s : State)

@[simp] theorem State.fundless_modTmb (q : Nat) (f : TmbPart → TmbPart) : (s.modTmb q f).fundless = s.fundless := rfl
@[simp] theorem State.fundless_modLode (n : Nat) (f : LodeX → LodeX) : (s.modLode n f).fundless = s.fundless := rfl
@[simp] theorem State.fundless_setFrame (f : Nat) (x : Frame) : (s.setFrame f x).fundless = s.fundless := rfl
@[simp] theorem State.fundless_putStored (f off : Nat) (d : Line) (p : Bool) : (s.putStored f off d p).fundless = s.fundless := rfl

@[simp] theorem State.fundless_setReg {o : Nat} (ho : poolReg o = true) (v : Word) : (s.setReg o v).fundless = s.fundless := by
  have hc : SMap.drop poolReg (s.setReg o v).csr = SMap.drop poolReg s.csr := by
    simp only [State.setReg]
    split
    · exact SMap.drop_erase ho _
    · exact SMap.drop_insert ho _ _
  rw [State.fundless, hc]; rfl

@[simp] theorem State.fundless_setPool (q lo n v : Nat) : (s.setRf (rTMB_POOL q) lo n v).fundless = s.fundless :=
  s.fundless_setReg (poolReg_rTMB_POOL q) _

@[simp] theorem State.fundless_raise (q src : Nat) : (s.raise q src).fundless = s.fundless := by
  rw [State.raise]; split <;> rfl

@[simp] theorem State.fundless_tmbEvent (b q : Nat) : (s.tmbEvent b q).fundless = s.fundless := by
  have h : (s.setRf rTMB_INT_STAT (b + q) 1 1).fundless = s.fundless := s.fundless_setReg (by decide) _
  rw [State.tmbEvent]
  split
  · rw [State.fundless_raise, h]
  · exact h

@[simp] theorem State.fundless_startReclaim (q : Nat) : (s.startReclaim q).fundless = s.fundless := rfl

@[simp] theorem State.fundless_setFree (q n : Nat) : (s.setFree q n).fundless = s.fundless := by
  rw [State.setFree]
  split
  · split <;> simp
  · simp

theorem State.fundless_draw (l : List Nat) (n : Nat) : (s.draw l n).2.fundless = s.fundless := by
  induction l generalizing s n with
  | nil => rfl
  | cons a r ih =>
    show (State.draw (if _ then _ else _) r _).2.fundless = _
    rw [ih]
    split <;> rfl

theorem State.fundless_takeFlakes {q f n ord : Nat} {t : State} (h : s.takeFlakes q f n ord = some t) :
    t.fundless = s.fundless := by
  rw [State.takeFlakes] at h
  split at h
  · cases h; rfl
  · split at h
    · cases h
    · cases h
      rw [State.fundless_setFree, State.fundless_setFrame, State.fundless_draw]

@[simp] theorem State.fundless_giveFlakes (l : List Nat) : (s.giveFlakes l).fundless = s.fundless := by
  rw [State.giveFlakes, foldl_keeps State.fundless fun t q => ?_, foldl_keeps State.fundless fun t n => ?_]
  · rw [State.giveFlake]
    split
    · rw [State.withdrawFlake, State.fundless_setPool, State.fundless_modLode]
    · rfl
  · dsimp only
    split <;> simp

@[simp] theorem State.fundless_trimFrame (f : Nat) : (s.trimFrame f).fundless = s.fundless := by
  rw [State.trimFrame]
  split
  · rw [State.fundless_giveFlakes, State.fundless_setFrame]
  · rfl

@[simp] theorem State.fundless_fixStorage (f : Nat) (req : Option (BitVec 4)) : (s.fixStorage f req).fundless = s.fundless := by
  unfold State.fixStorage
  dsimp only
  split
  · rfl
  · split
    · split <;> rfl
    · rfl

@[simp] theorem State.fundless_grantRaw (q f : Nat) : (s.grantRaw q f).fundless = s.fundless := by
  rw [State.grantRaw]
  split
  · split
    · split
      · next h =>
        have := s.fundless_takeFlakes h
        exact this
      · rfl
    · split
      · next h => exact s.fundless_takeFlakes h
      · rfl
  · rfl

@[simp] theorem State.fundless_oosCheck (q : Nat) : (s.oosCheck q).fundless = s.fundless := by
  rw [State.oosCheck]
  repeat' split
  all_goals simp

end Fund

/-! Writebacks. -/

/-- A state without the Tumbler's records, without its lines and the writes on their way to host memory. -/
def State.lineless (s : State) : State := { s.fundless with lines := [], extWrites := [] }

theorem State.lineless_of_fundless {s t : State} (h : t.fundless = s.fundless) : t.lineless = s.lineless :=
  congrArg (fun x : State => ({ x with lines := [], extWrites := [] } : State)) h

theorem State.reg_of_lineless {s t : State} (h : t.lineless = s.lineless) {o : Nat} (ho : poolReg o = false) : t.reg o = s.reg o := by
  have hc : SMap.drop poolReg t.csr = SMap.drop poolReg s.csr := congrArg State.csr h
  rw [State.reg, State.reg, ← SMap.find_drop ho t.csr, hc, SMap.find_drop ho]

/-- The host holds no half of a line, and the step has found none to recall. -/
def State.Calm (s : State) : Prop := s.recalls = [] ∧ ∀ l ∈ s.lines, l.lo = .i ∧ l.hi = .i

theorem State.Calm.of_fundless {s t : State} (hs : s.Calm) (h : t.fundless = s.fundless) : t.Calm := by
  have hr : t.recalls = s.recalls := (congrArg State.recalls h :)
  have hl : t.lines = s.lines := (congrArg State.lines h :)
  rw [State.Calm, hr, hl]
  exact hs

theorem State.Calm.modLine {s : State} (hs : s.Calm) (id : Nat) {f : LLine → LLine} (hf : ∀ l, (f l).lo = l.lo ∧ (f l).hi = l.hi) :
    (s.modLine id f).Calm := by
  refine ⟨hs.1, fun l hl => ?_⟩
  obtain ⟨x, hx, rfl⟩ := List.mem_map.1 hl
  split
  · rw [(hf x).1, (hf x).2]; exact hs.2 x hx
  · exact hs.2 x hx

theorem State.Calm.dropLine {s : State} (hs : s.Calm) (id : Nat) : (s.dropLine id).Calm :=
  ⟨hs.1, fun l hl => hs.2 l (List.mem_filter.1 hl).1⟩

/-- Work at a lode: `t` differs from `s` in the Tumbler's records, the lines and the writes for host memory alone, and holds no
host half that `s` does not hold. -/
structure State.Tends (s t : State) : Prop where
  lineless : t.lineless = s.lineless
  calm : s.Calm → t.Calm

namespace State.Tends
variable {s t u : State}

theorem refl (s : State) : State.Tends s s := ⟨rfl, id⟩
theorem trans (h : State.Tends s t) (h' : State.Tends t u) : State.Tends s u :=
  ⟨h'.lineless.trans h.lineless, fun hs => h'.calm (h.calm hs)⟩
theorem of_fundless (h : t.fundless = s.fundless) : State.Tends s t :=
  ⟨State.lineless_of_fundless h, fun hs => hs.of_fundless h⟩
theorem modLine (s : State) (id : Nat) {f : LLine → LLine} (hf : ∀ l, (f l).lo = l.lo ∧ (f l).hi = l.hi) :
    State.Tends s (s.modLine id f) := ⟨rfl, fun hs => hs.modLine id hf⟩
theorem dropLine (s : State) (id : Nat) : State.Tends s (s.dropLine id) := ⟨rfl, fun hs => hs.dropLine id⟩

end State.Tends

theorem State.tends_stick (s : State) (id : Nat) : s.Tends (s.stick id) := by
  rw [State.stick]
  split
  · exact .refl s
  · split
    · exact .refl s
    · have h1 : s.Tends s.fresh.2 := .of_fundless rfl
      have h2 := State.Tends.modLine s.fresh.2 id (f := fun l =>
        { l with stuck := some s.nextId, stuckHost := l.hostDirty, owed := false }) fun l => ⟨rfl, rfl⟩
      exact (h1.trans h2).trans (.of_fundless (by rw [State.fundless_oosCheck, State.fundless_startReclaim]; rfl))

theorem State.tends_cleanLine (s : State) (l : LLine) : s.Tends (s.cleanLine l) := by
  have h : ∀ t, s.Tends t → s.Tends (if l.stuck.isSome then t.oosCheck (s.leadOfLode l.lode) else t) := by
    intro t ht
    split
    · exact ht.trans (.of_fundless (t.fundless_oosCheck _))
    · exact ht
  refine h _ ?_
  split
  · exact .dropLine s l.id
  · exact .modLine s l.id fun l => ⟨rfl, rfl⟩

theorem State.tends_wbDevice (s : State) (l : LLine) : s.Tends (s.wbDevice l).1 := by
  have hfund : ((s.fixStorage l.frame l.fmtReq).grantRaw (s.leadOfLode l.lode) l.frame).fundless = s.fundless := by simp
  rw [State.wbDevice]
  split
  · exact .modLine s l.id fun l => ⟨rfl, rfl⟩
  · split
    · exact .refl s
    · dsimp only
      split
      · split
        · exact .trans (.of_fundless hfund) (State.tends_stick ..)
        · exact .trans (.of_fundless ((State.fundless_putStored ..).trans hfund)) (State.tends_cleanLine ..)
      · split
        · exact .trans (.of_fundless hfund) (State.tends_stick ..)
        · next s2 hgot =>
          have h2 : s2.fundless = s.fundless := by
            split at hgot
            · cases hgot; exact hfund
            · split at hgot
              · cases hgot
              · exact (State.fundless_takeFlakes _ hgot).trans hfund
          exact .trans (.of_fundless (by simp [h2])) (State.tends_cleanLine ..)

/-- A write of a line leaves for host or peer memory. -/
theorem State.tends_sendWrite (s : State) (n : Nat) (w : ExtWrite) :
    s.Tends { s with nextId := n, extWrites := s.extWrites ++ [w] } := ⟨rfl, fun hs => hs⟩

theorem State.tends_writeback (s : State) (id : Nat) : s.Tends (s.writeback id).1 := by
  rw [State.writeback]
  split
  · exact .refl s
  · split
    · exact .refl s
    · split
      · exact .refl s
      · split
        · exact (s.tends_sendWrite _ _).trans (State.tends_cleanLine _ _)
        · exact s.tends_wbDevice _

theorem State.tends_endTransit (s : State) (id : Nat) : s.Tends (s.endTransit id) := by
  rw [State.endTransit]
  split
  · exact .refl s
  · split
    · exact .refl s
    · dsimp only
      split
      · exact (s.tends_writeback id).trans (.dropLine _ _)
      · exact (s.tends_writeback id).trans (.modLine _ _ fun l => ⟨rfl, rfl⟩)

end Sys2Proof.Machine
end

section
/-! PROOFS. The columns and the pool (O40): role maps, lost sites and buses, rebuilds, and the division of a core's pool. -/
namespace Sys2Proof.Machine

/-! STR_STAT: the fields that a loss and a rebuild write (R91, R92). -/

/-- STR_STAT.degraded and rebuilding as the groups stand; what the other fields read. -/
theorem State.restat_other (s : State) (n : Nat) {a m : Nat} (h : 3 ≤ a) :
    (s.restat n).rf (rSTR_STAT n) a m = s.rf (rSTR_STAT n) a m := by
  have h3 (x : State) (k v : Nat) (hk : k < 3) : (x.setRf (rSTR_STAT n) k 1 v).rf (rSTR_STAT n) a m = x.rf (rSTR_STAT n) a m :=
    x.rf_setRf_field _ _ (.inr (by omega))
  rw [State.restat]
  split
  · rw [h3 _ _ _ (by decide), h3 _ _ _ (by decide)]
  · rw [h3 _ _ _ (by decide), h3 _ _ _ (by decide), h3 _ _ _ (by decide)]

theorem State.restat_lostIn (s : State) (n g g' : Nat) : (s.restat n).lostIn g g' = s.lostIn g g' := by
  by_cases h : g = n
  · subst h; exact s.restat_other g (by omega)
  · have h3 (x : State) (k v : Nat) : (x.setRf (rSTR_STAT n) k 1 v).rf (rSTR_STAT g) (8 + 2 * g') 2 = x.rf (rSTR_STAT g) (8 + 2 * g') 2 :=
      x.rf_setRf_other _ _ _ _ _ (by unfold rSTR_STAT; omega)
    rw [State.restat, State.lostIn]
    split
    · rw [h3, h3]; rfl
    · rw [h3, h3, h3]; rfl

/-- A lode with a degraded group reads degraded and rebuilding. -/
theorem State.restat_degraded {s : State} {n g : Nat} (hg : g < nBanks n / 6) (h : s.lostIn n g = 1 ∨ s.lostIn n g = 2) :
    (s.restat n).rf (rSTR_STAT n) 0 1 = 1 ∧ (s.restat n).rf (rSTR_STAT n) 1 1 = 1 := by
  have hd : ((List.range (nBanks n / 6)).any fun g => s.lostIn n g = 1 || s.lostIn n g = 2) = true :=
    List.any_eq_true.2 ⟨g, List.mem_range.2 hg, by simpa using h⟩
  rw [State.restat, hd]
  simp only [if_true]
  exact ⟨(State.rf_setRf_field _ _ _ (.inl (by decide))).trans (State.rf_setRf_self _ _ _ (by decide)),
    State.rf_setRf_self _ _ _ (by decide)⟩

/-- rebuild_blocked stays 0. -/
theorem State.restat_blocked {s : State} {n : Nat} (h : s.rf (rSTR_STAT n) 2 1 = 0) : (s.restat n).rf (rSTR_STAT n) 2 1 = 0 := by
  rw [State.restat]
  split
  · rw [State.rf_setRf_field _ _ _ (.inr (by decide)), State.rf_setRf_field _ _ _ (.inr (by decide)), h]
  · exact State.rf_setRf_self _ _ _ (by decide)

theorem State.lostIn_setRf_group (s : State) {n g : Nat} (hg : g < 16) {v : Nat} (hv : v < 4) :
    (s.setRf (rSTR_STAT n) (8 + 2 * g) 2 v).lostIn n g = v := by
  rw [State.lostIn, State.rf_setRf_self _ _ _ (by omega), Nat.mod_eq_of_lt (by omega)]

theorem nBanks_groups (n : Nat) : nBanks n / 6 < 5 := by
  unfold nBanks; split <;> decide

/-- A site belongs to a group of the lode. -/
theorem siteGroup_lt (n site : Nat) : siteGroup n site < nBanks n / 6 := by
  have : 0 < perLayer n := by unfold perLayer; split <;> decide
  have hm := Nat.mod_lt site this
  unfold siteGroup
  unfold perLayer nBanks at *
  split at hm <;> split <;> simp_all <;> omega

/-! Role maps (R74). -/

/-- Where the lode holds no line, emptying banks changes nothing, and they are empty of it. -/
theorem State.emptyBanks_none {s : State} {n : Nat} (h : ∀ l ∈ s.lines, l.lode ≠ n) (bs rest : List Nat) (pin : Bool) :
    s.emptyBanks n bs rest pin = s := by
  have hf (q : LLine → Bool) : (s.lines.filter fun l => (decide (l.lode = n) && decide (s.lineUnder l kPin = pin)
      && l.bank.any fun b => bs.contains b) && q l) = [] := by
    rw [List.filter_eq_nil_iff]
    intro l hl
    simp [h l hl]
  rw [State.emptyBanks]
  dsimp only
  rw [hf, List.map_nil, List.foldl_nil, List.map_congr_left (g := id) fun l hl => by simp [h l hl], List.map_id]

theorem State.stuckAt_none {s : State} {n : Nat} (h : ∀ l ∈ s.lines, l.lode ≠ n) : s.stuckAt n = 0 := by
  rw [State.stuckAt, List.countP_eq_zero]
  intro l hl
  simp [h l hl]

/-- The banks are empty of the role's lines, and there is room for what has to stay. -/
theorem State.emptied_none {s : State} {n : Nat} (h : ∀ l ∈ s.lines, l.lode ≠ n) (bs rest : List Nat) (pin : Bool) :
    s.emptied n bs rest pin = decide (s.granted n (if pin then kPin else kHold) ≤ 8192 * rest.length) := by
  have ha : (s.lines.all fun l => !(decide (l.lode = n) && decide (s.lineUnder l kPin = pin)
      && l.bank.any fun b => bs.contains b)) = true := by
    rw [List.all_eq_true]
    intro l hl
    simp [h l hl]
  rw [State.emptied, ha, Bool.true_and, State.stuckAt_none h]
  cases pin <;> rfl

theorem State.roleHeld_none {s : State} {n : Nat} (hkv : ∀ e ∈ s.kv, e.lode ≠ n) (hd : s.deepUsed n = 0) (map : Word) :
    s.roleHeld n map = false := by
  have ha : (s.kv.any fun e => decide (e.lode = n) && e.bank.any fun b => (s.leavingBanks n map 3).contains b) = false := by
    rw [List.any_eq_false]
    intro e he
    simp [hkv e he]
  rw [State.roleHeld, ha, hd]; rfl

/-- A step of an engine that recalls nothing. -/
theorem State.transact_of {s : State} (hs : s.recalls = []) {body wait : State → State} (hb : (body s).recalls = []) :
    s.transact body wait = body s := by
  have h : ({ s with recalls := [] } : State) = s := by rw [← hs]
  rw [State.transact, h]
  exact if_pos hb

/-- What a write of STR_ROLE does (R74). -/
theorem strRole_spec (s : State) (n : Nat) (v : Word) (sec : Bool) :
    let map := BitVec.ofNat 64 (wfld v 0 (2 * nBanks n))
    let lines (r : Nat) : Nat := 8192 * (s.banksOf n map r).length
    (s.lodeSecure n = true → sec = false → exec (.strRoleWrite n v sec) s = .next (s.violation (rSTR_ROLE n)))
    ∧ ((s.lodeSecure n = false ∨ sec = true) →
      (lines 2 < s.granted n kPin ∨ lines 0 < s.cacheBound n →
        exec (.strRoleWrite n v sec) s = .next (s.setRf (rSTR_STAT n) 5 1 1))
      ∧ (s.granted n kPin ≤ lines 2 → s.cacheBound n ≤ lines 0 → (∀ e ∈ s.kv, e.lode ≠ n) → s.deepUsed n = 0 →
        (s.coreOf n).retired = false →
        ∃ t, exec (.strRoleWrite n v sec) s = .next t ∧ (t.lodeOf n).roleNext = some map ∧ t = { s with lodeX := t.lodeX })) := by
  intro map lines
  show (_ → _ → Host.Outcome.next (s.writeRole n v sec) = _)
    ∧ (_ → (_ → Host.Outcome.next (s.writeRole n v sec) = _)
      ∧ (_ → _ → _ → _ → _ → ∃ t, Host.Outcome.next (s.writeRole n v sec) = .next t ∧ _))
  refine ⟨fun h1 h2 => ?_, fun hw => ?_⟩
  · rw [State.writeRole, h1, h2]; rfl
  · have hw' : (s.lodeSecure n && !sec) = false := by rcases hw with h | h <;> simp [h]
    rw [State.writeRole, hw']
    refine ⟨fun h => ?_, fun h2 h0 hkv hd hr => ?_⟩
    · rw [if_neg Bool.false_ne_true, if_pos]
      rcases h with h | h
      · simp [show 8192 * (s.banksOf n (BitVec.ofNat 64 (wfld v 0 (2 * nBanks n))) 2).length < s.granted n kPin from h]
      · simp [show 8192 * (s.banksOf n (BitVec.ofNat 64 (wfld v 0 (2 * nBanks n))) 0).length < s.cacheBound n from h]
    · have hno : s.noDeep n (s.reg (rSTR_ROLE n)) map = false := by rw [State.noDeep, hr]; rfl
      refine ⟨s.modLode n fun x => { x with roleNext := some map }, ?_, by rw [State.lodeOf_modLode_self], rfl⟩
      rw [if_neg Bool.false_ne_true, if_neg]
      simp only [State.roleHeld_none hkv hd, Bool.or_false, Bool.or_eq_true, decide_eq_true_eq]
      rw [hno]
      simp only [Bool.false_eq_true, or_false, not_or, Nat.not_lt]
      exact ⟨h2, h0⟩

/-- How an accepted role map goes on (R16, R74). -/
theorem roleChange_spec {s : State} {n : Nat} (hrec : s.recalls = []) {map : Word} (hmap : (s.lodeOf n).roleNext = some map) :
    (s.noDeep n (s.reg (rSTR_ROLE n)) map = true →
      exec (.roleChangeApplied n) s = .next (s.modLode n fun x => { x with roleNext := none }))
    ∧ (s.noDeep n (s.reg (rSTR_ROLE n)) map = false →
      (8192 * (s.banksOf n map 2).length < s.granted n kPin → exec (.roleChangeApplied n) s = .next s)
      ∧ (s.granted n kPin ≤ 8192 * (s.banksOf n map 2).length → (∀ e ∈ s.kv, e.lode ≠ n) → s.deepUsed n = 0 →
        (∀ l ∈ s.lines, l.lode ≠ n) →
        let stay := 8192 * (s.banksOf n map 0).length
        (stay < s.granted n kHold → exec (.roleChangeApplied n) s = .next s)
        ∧ (s.granted n kHold ≤ stay →
          ∃ t, exec (.roleChangeApplied n) s = .next t ∧ t.reg (rSTR_ROLE n) = map ∧ (t.lodeOf n).roleNext = none))) := by
  have hexec {t : State} (ht : s.applyRole n = t) (hr : t.recalls = []) : exec (.roleChangeApplied n) s = .next t := by
    subst ht
    exact congrArg Host.Outcome.next (State.transact_of hrec hr)
  refine ⟨fun h => hexec ?_ hrec, fun h => ⟨fun hp => hexec ?_ hrec, fun hp hkv hd hl => ?_⟩⟩
  · rw [State.applyRole, hmap]; exact if_pos h
  · rw [State.applyRole, hmap]
    dsimp only
    rw [if_neg (by simp [h]), if_pos (by simp [hp])]
  · have happ : s.applyRole n = if decide (s.granted n kHold ≤ 8192 * (s.banksOf n map 0).length) then
        (s.setReg (rSTR_ROLE n) map).modLode n fun x => { x with roleNext := none } else s := by
      rw [State.applyRole, hmap]
      dsimp only
      rw [if_neg (by simp [h]), if_neg (by simp [Nat.not_lt.2 hp, State.roleHeld_none hkv hd])]
      simp only [State.emptyBanks_none hl, State.emptied_none hl, Bool.false_eq_true, if_false, if_true, decide_eq_true hp, Bool.and_true]
    refine ⟨fun hs => hexec ?_ hrec, fun hs => ⟨_, hexec (happ.trans (if_pos (decide_eq_true hs))) hrec, ?_, ?_⟩⟩
    · rw [happ, if_neg (by simpa using hs)]
    · exact State.reg_setReg_self s _ _
    · rw [State.lodeOf_modLode_self]

/-! Lost sites and buses (R72, R91, R92). -/

/-- Where no workgroup is resident, nothing but lines, fills and entries is lost with a group. -/
theorem State.csr_loseBanks {s : State} (h : s.wgs = []) (n k : Nat) (bs : List Nat) : (s.loseBanks n k bs).csr = s.csr := by
  rw [State.loseBanks]
  dsimp only
  rw [h, List.foldl_nil]
  split <;> rfl

theorem State.rf_rewriteDisc (s : State) (o lo n : Nat) : s.rewriteDisc.rf o lo n = s.rf o lo n := rfl
theorem State.lostIn_rewriteDisc (s : State) (n g : Nat) : s.rewriteDisc.lostIn n g = s.lostIn n g := rfl

theorem State.restat_lines (s : State) (n : Nat) : (s.restat n).lines = s.lines := by
  rw [State.restat]; split <;> rfl

theorem State.restat_recalls (s : State) (n : Nat) : (s.restat n).recalls = s.recalls := by
  rw [State.restat]; split <;> rfl

theorem State.restat_lodeOf (s : State) (n m : Nat) : (s.restat n).lodeOf m = s.lodeOf m := by
  rw [State.restat]; split <;> rfl

/-- A lode with a lost site more, and `c` lost sites in its group. -/
def State.siteLost (s : State) (n site c : Nat) : State :=
  (s.modLode n fun x => { x with lost := x.lost ||| (1#32 <<< site) }).setRf (rSTR_STAT n) (8 + 2 * siteGroup n site) 2 c

/-- A lost site that leaves its group degraded (R91). -/
theorem State.loseSite_degrades {s : State} {n site : Nat} (hsite : site < 4 * perLayer n)
    (hlost : bitAt (s.lodeOf n).lost site = false) (hc : s.lostIn n (siteGroup n site) < 2) :
    s.loseSite n site = (s.siteLost n site (s.lostIn n (siteGroup n site) + 1)).restat n := by
  rw [State.loseSite, if_neg (by simp [hlost, hsite])]
  dsimp only
  rw [if_neg (by omega), if_neg (by omega)]
  rfl

/-- A lost site that loses its group (R92): what STR_STAT reads. -/
theorem State.loseSite_loses {s : State} {n site : Nat} (hsite : site < 4 * perLayer n)
    (hlost : bitAt (s.lodeOf n).lost site = false) (hc : s.lostIn n (siteGroup n site) = 2) :
    (s.loseSite n site).lostIn n (siteGroup n site) = 3 ∧ (s.loseSite n site).rf (rSTR_STAT n) 6 1 = 1 := by
  have hg := siteGroup_lt n site
  have hn := nBanks_groups n
  rw [State.loseSite, if_neg (by simp [hlost, hsite])]
  dsimp only
  rw [if_pos hc, State.restat_lostIn, State.restat_other _ _ (by decide)]
  refine ⟨?_, State.rf_setRf_self _ _ _ (by decide)⟩
  rw [State.lostIn, State.rf_setRf_field _ _ _ (.inr (by omega))]
  exact State.lostIn_setRf_group _ (by omega) (by decide)

/-- A lost site (R91, R92). -/
theorem siteLoss_spec {s : State} {n site : Nat} (hsite : site < 4 * perLayer n) (hlost : bitAt (s.lodeOf n).lost site = false) :
    (s.lostIn n (siteGroup n site) < 2 → ∃ t, exec (.siteLoss n site) s = .next t
      ∧ t.lostIn n (siteGroup n site) = s.lostIn n (siteGroup n site) + 1 ∧ t.rf (rSTR_STAT n) 0 1 = 1
      ∧ t.rf (rSTR_STAT n) 1 1 = 1 ∧ (t.lodeOf n).lost = (s.lodeOf n).lost ||| (1#32 <<< site) ∧ t.lines = s.lines)
    ∧ (s.lostIn n (siteGroup n site) = 2 → ∃ t, exec (.siteLoss n site) s = .next t
      ∧ t.lostIn n (siteGroup n site) = 3 ∧ t.rf (rSTR_STAT n) 6 1 = 1) := by
  have hg := siteGroup_lt n site
  have hn := nBanks_groups n
  refine ⟨fun hc => ⟨_, rfl, ?_⟩, fun hc => ⟨_, rfl, State.loseSite_loses hsite hlost hc⟩⟩
  rw [State.loseSite_degrades hsite hlost hc]
  have hl : (s.siteLost n site (s.lostIn n (siteGroup n site) + 1)).lostIn n (siteGroup n site)
      = s.lostIn n (siteGroup n site) + 1 := State.lostIn_setRf_group _ (by omega) (by omega)
  obtain ⟨hd, hr⟩ := State.restat_degraded (s := s.siteLost n site (s.lostIn n (siteGroup n site) + 1)) hg (by omega)
  generalize hu : s.siteLost n site (s.lostIn n (siteGroup n site) + 1) = u at hl hd hr ⊢
  have hlode : (u.lodeOf n).lost = (s.lodeOf n).lost ||| (1#32 <<< site) := by
    rw [← hu]
    exact congrArg LodeX.lost (s.lodeOf_modLode_self n fun x => { x with lost := x.lost ||| (1#32 <<< site) })
  have hlines : u.lines = s.lines := by rw [← hu]; rfl
  refine ⟨?_, hd, hr, ?_, ?_⟩
  · rw [State.lostIn_rewriteDisc, State.restat_lostIn, hl]
  · show ((u.restat n).lodeOf n).lost = _
    rw [State.restat_lodeOf, hlode]
  · show (u.restat n).lines = _
    rw [State.restat_lines, hlines]

/-! Buses. -/

/-- The lines of a lode that go through its transit buffer move the Tumbler's records alone. -/
theorem State.tends_toTransit (s : State) (n : Nat) : s.Tends (s.toTransit n) := by
  have h (l : List LLine) (t : State) (ht : s.Tends t) : s.Tends (l.foldl (fun s l =>
      let s1 := s.modLine l.id fun x => { x with transit := true }
      if l.dirty && !s1.lineUnder l kPin then s1.endTransit l.id else s1) t) := by
    induction l generalizing t with
    | nil => exact ht
    | cons a r ih =>
      refine ih _ (ht.trans ?_)
      have h1 := State.Tends.modLine t a.id (f := fun x => { x with transit := true }) fun _ => ⟨rfl, rfl⟩
      dsimp only
      split
      · exact h1.trans (State.tends_endTransit ..)
      · exact h1
  exact h _ _ (.refl s)

theorem poolReg_rSTR_STAT (n : Nat) : poolReg (rSTR_STAT n) = false := by
  have h1 : rSTR_STAT n ≠ rTMB_INT_STAT := by unfold rSTR_STAT rTMB_INT_STAT; omega
  have h2 : ¬(rSTR_STAT n - 0x10100) % 0x100 = 0 := by unfold rSTR_STAT; omega
  simp [poolReg, h1, h2]

/-- Groups noted as lost: the last bits of STR_STAT stand. -/
theorem State.lostIn_setGroups (n : Nat) (gs : List Nat) (hgs : ∀ g ∈ gs, g < 16) (s : State) (g : Nat) (hg : g < 16) :
    (gs.foldl (fun s g => s.setRf (rSTR_STAT n) (8 + 2 * g) 2 3) s).lostIn n g = if g ∈ gs then 3 else s.lostIn n g := by
  induction gs generalizing s with
  | nil => rfl
  | cons a r ih =>
    rw [List.foldl_cons, ih (fun x hx => hgs x (List.mem_cons_of_mem _ hx))]
    by_cases hr : g ∈ r
    · simp [hr]
    · by_cases ha : g = a
      · subst ha
        simp [hr, State.lostIn_setRf_group s hg (v := 3) (by decide)]
      · simp only [hr, List.mem_cons, ha, or_self, if_false]
        exact State.rf_setRf_field _ _ _ (by omega)

theorem State.rf_setGroups (n : Nat) (gs : List Nat) (s : State) {a m : Nat} (h : a + m ≤ 8) :
    (gs.foldl (fun s g => s.setRf (rSTR_STAT n) (8 + 2 * g) 2 3) s).rf (rSTR_STAT n) a m = s.rf (rSTR_STAT n) a m :=
  foldl_keeps (fun t : State => t.rf (rSTR_STAT n) a m) (fun _ _ => State.rf_setRf_field _ _ _ (.inl (by omega))) gs s

/-- Two fields side by side that read 0 read 0 as one. -/
theorem wfld_two_zero {w : Word} {lo : Nat} (h0 : wfld w lo 1 = 0) (h1 : wfld w (lo + 1) 1 = 0) : wfld w lo 2 = 0 := by
  apply Nat.eq_of_testBit_eq
  intro i
  have b0 := testBit_wfld w lo 1 0
  have b1 := testBit_wfld w (lo + 1) 1 0
  rw [h0] at b0
  rw [h1] at b1
  rw [testBit_wfld, Nat.zero_testBit]
  match i with
  | 0 => simpa using b0
  | 1 => simpa using b1
  | i + 2 => simp

theorem State.lostIn_lt (s : State) (n g : Nat) : s.lostIn n g < 4 := wfld_lt ..

/-- With both buses every group is lost (R72). -/
theorem State.loseBus_last {s : State} {n : Nat} {busB : Bool} (hb : s.rf (rSTR_STAT n) (if busB then 4 else 3) 1 = 1)
    (ho : s.rf (rSTR_STAT n) (if busB then 3 else 4) 1 = 0) (hw : s.wgs = []) :
    (s.loseBus n busB).busesLost n = true ∧ ∀ g, g < nBanks n / 6 → (s.loseBus n busB).lostIn n g = 3 := by
  have hn := nBanks_groups n
  rw [State.loseBus]
  dsimp only
  rw [if_neg (by omega), if_neg (by omega)]
  generalize (List.range (4 * perLayer n)).foldl (fun (m : BitVec 32) i => m ||| (1#32 <<< i)) 0 = all
  generalize hgs : (List.range (nBanks n / 6)).filter (fun g => s.lostIn n g < 3) = gs
  have hgs16 : ∀ g ∈ gs, g < 16 := by
    intro g hg
    rw [← hgs] at hg
    have := List.mem_range.1 (List.mem_filter.1 hg).1
    omega
  generalize hx : gs.foldl (fun s g => s.setRf (rSTR_STAT n) (8 + 2 * g) 2 3)
    (s.loseBanks n 0 (gs.flatMap fun g => List.range' (6 * g) 6)) = x
  have htend (y : State) (a m : Nat) : (y.toTransit n).rf (rSTR_STAT n) a m = y.rf (rSTR_STAT n) a m :=
    congrArg (wfld · a m) (State.reg_of_lineless (State.tends_toTransit y n).lineless (poolReg_rSTR_STAT n))
  have hlose (a m : Nat) : (s.loseBanks n 0 (gs.flatMap fun g => List.range' (6 * g) 6)).rf (rSTR_STAT n) a m
      = s.rf (rSTR_STAT n) a m := by rw [State.rf, State.rf, State.reg, State.reg, State.csr_loseBanks hw]
  have hlow {a m : Nat} (h : a + m ≤ 8) : x.rf (rSTR_STAT n) a m = s.rf (rSTR_STAT n) a m := by
    rw [← hx, State.rf_setGroups _ _ _ h, hlose]
  have hgroup {g : Nat} (hg : g < nBanks n / 6) : x.lostIn n g = 3 := by
    rw [← hx, State.lostIn_setGroups n gs hgs16 _ _ (by omega)]
    split
    · rfl
    · next hmem =>
      have h3 : ¬s.lostIn n g < 3 := by
        intro h
        exact hmem (hgs ▸ List.mem_filter.2 ⟨List.mem_range.2 hg, by simpa using h⟩)
      have := s.lostIn_lt n g
      exact (hlose ..).trans (show s.lostIn n g = 3 by omega)
  refine ⟨?_, fun g hg => ?_⟩
  · have hz : ∀ b ∈ [3, 4], ((x.modLode n fun y => { y with lost := all }).setRf (rSTR_STAT n) (if busB then 4 else 3) 1 0).rf
        (rSTR_STAT n) b 1 = 0 := by
      cases busB <;> simp only [List.mem_cons, List.not_mem_nil, or_false, Bool.false_eq_true, if_false, if_true] at hb ho ⊢
      · rintro b (rfl | rfl)
        · exact State.rf_setRf_self _ _ _ (by decide)
        · rw [State.rf_setRf_field _ _ _ (.inr (by decide))]
          exact (hlow (by decide)).trans ho
      · rintro b (rfl | rfl)
        · rw [State.rf_setRf_field _ _ _ (.inl (by decide))]
          exact (hlow (by decide)).trans ho
        · exact State.rf_setRf_self _ _ _ (by decide)
    rw [State.busesLost, htend, State.restat_other _ _ (by decide), State.rf_setRf_field _ _ _ (.inl (by decide)), State.rf,
      wfld_two_zero (hz 3 (by decide)) (hz 4 (by decide))]
    rfl
  · rw [State.lostIn, htend, ← State.lostIn, State.restat_lostIn, State.lostIn, State.rf_setRf_field _ _ _ (.inr (by omega)),
      State.rf_setRf_field _ _ _ (.inr (by split <;> omega))]
    exact hgroup hg

/-- The loss of a bus (R72). -/
theorem busLoss_spec (s : State) (n : Nat) (busB : Bool) :
    let bit := if busB then 4 else 3
    let other := if busB then 3 else 4
    (s.rf (rSTR_STAT n) bit 1 = 1 → s.rf (rSTR_STAT n) other 1 = 1 →
      exec (.busLoss n busB) s = .next (s.setRf (rSTR_STAT n) bit 1 0).rewriteDisc)
    ∧ (s.rf (rSTR_STAT n) bit 1 = 1 → s.rf (rSTR_STAT n) other 1 = 0 → s.wgs = [] →
      ∃ t, exec (.busLoss n busB) s = .next t ∧ t.busesLost n = true ∧ ∀ g, g < nBanks n / 6 → t.lostIn n g = 3) := by
  refine ⟨fun hb ho => ?_, fun hb ho hw => ⟨_, rfl, State.loseBus_last hb ho hw⟩⟩
  show Host.Outcome.next (s.loseBus n busB).rewriteDisc = _
  rw [State.loseBus]
  dsimp only
  rw [if_neg (by omega), if_pos ho]

/-! Rebuilds (R91). -/

/-- A site rebuilt into a cache-role bank, or held up (R91). -/
theorem rebuild_spec {s : State} {n g b : Nat} (hrec : s.recalls = [])
    (hg : (List.range (nBanks n / 6)).find? (fun g => s.lostIn n g = 1 || s.lostIn n g = 2) = some g)
    (hb : (s.roleBanks n 0).getLast? = some b) :
    (s.roleLines n 0 < s.cacheBound n + 8192 → exec (.rebuildComplete n) s = .next (s.setRf (rSTR_STAT n) 2 1 1))
    ∧ (s.cacheBound n + 8192 ≤ s.roleLines n 0 → (∀ l ∈ s.lines, l.lode ≠ n) → ∃ t, exec (.rebuildComplete n) s = .next t
      ∧ t.rf (rSTR_STAT n) (16 + b) 1 = 1 ∧ t.lostIn n g = s.lostIn n g - 1 ∧ t.rf (rSTR_STAT n) 2 1 = 0) := by
  have hexec {t : State} (ht : s.rebuild n = t) (hr : t.recalls = []) : exec (.rebuildComplete n) s = .next t := by
    subst ht
    exact congrArg Host.Outcome.next (State.transact_of hrec hr)
  have hgn : g < nBanks n / 6 := List.mem_range.1 (List.mem_of_find?_eq_some hg)
  have hn := nBanks_groups n
  have hmem : b ∈ s.roleBanks n 0 := List.mem_of_getLast? hb
  have hb24 : b < nBanks n := List.mem_range.1 (List.mem_filter.1 hmem).1
  have hn24 : nBanks n ≤ 24 := by unfold nBanks; split <;> decide
  refine ⟨fun h => hexec ?_ hrec, fun h hl => ?_⟩
  · rw [State.rebuild, hg]
    dsimp only
    rw [hb]
    exact if_pos h
  · have hrest : 8192 * ((s.roleBanks n 0).filter fun x => x ≠ b).length + 8192 = s.roleLines n 0 := by
      have hnodup : (s.roleBanks n 0).Nodup := List.nodup_range.filter _
      have herase : ((s.roleBanks n 0).filter fun x => x ≠ b) = (s.roleBanks n 0).erase b := by
        rw [hnodup.erase_eq_filter]
        exact List.filter_congr fun x _ => by by_cases hx : x = b <;> simp [hx]
      have hpos := List.length_pos_of_mem hmem
      rw [herase, List.length_erase_of_mem hmem, State.roleLines]
      omega
    have hempty : s.emptied n [b] ((s.roleBanks n 0).filter fun x => x ≠ b) false = true := by
      rw [State.emptied_none hl]
      simp only [Bool.false_eq_true, if_false, decide_eq_true_eq]
      rw [State.cacheBound] at h
      omega
    have hreb : s.rebuild n = (((((s.setRf (rSTR_STAT n) (16 + b) 1 1).setRf (rSTR_STAT n) (8 + 2 * g) 2
        (s.lostIn n g - 1)).setRf (rSTR_STAT n) 2 1 0).restat n)).rewriteDisc := by
      rw [State.rebuild, hg]
      dsimp only
      rw [hb]
      dsimp only
      rw [if_neg (by omega), State.emptyBanks_none hl, hempty]
      rfl
    have hlt := s.lostIn_lt n g
    refine ⟨_, hexec hreb ?_, ?_, ?_, ?_⟩
    · exact (State.restat_recalls _ n).trans hrec
    · rw [State.rf_rewriteDisc, State.restat_other _ _ (by omega), State.rf_setRf_field _ _ _ (.inr (by omega)),
        State.rf_setRf_field _ _ _ (.inr (by omega))]
      exact State.rf_setRf_self _ _ _ (by omega)
    · rw [State.lostIn_rewriteDisc, State.restat_lostIn, State.lostIn, State.rf_setRf_field _ _ _ (.inr (by omega))]
      exact State.lostIn_setRf_group _ (by omega) (by omega)
    · rw [State.rf_rewriteDisc]
      exact State.restat_blocked (State.rf_setRf_self _ _ _ (by decide))

/-! The division of a core's pool (R114, R115). -/

/-- What a write of POOL_REG_TOP stores: the staged boundary as written; the boundary in force and the flag of a division under
way stand. -/
theorem poolTop_written (w v : Word) {sec g : Bool} (hg : g = false ∨ sec = true) :
    let u := (blkFields .core 0).foldl (fldWrite sec g v) w
    wfld u 8 6 = wfld v 8 6 ∧ wfld u 0 6 = wfld w 0 6 ∧ wfld u 18 1 = wfld w 18 1 := by
  have hpair : (blkFields .core 0).Pairwise fun f g => f.apart g = true := by decide
  have h64 : ∀ f ∈ blkFields .core 0, f.lo + f.n ≤ 64 := by decide
  have hout : ∀ k, (k < 6 ∨ k = 18) → ∀ f ∈ blkFields .core 0, k < f.lo ∨ f.lo + f.n ≤ k := by
    rintro k (hk | rfl)
    · intro f hf
      have : ∀ f ∈ blkFields .core 0, 6 ≤ f.lo := by decide
      exact .inl (lt_of_lt_of_le hk (this f hf))
    · decide
  refine ⟨?_, ?_, ?_⟩
  · exact wfld_foldl_fldWrite hg v hpair h64 w (f := ⟨8, 6, .rw⟩) (by decide) rfl
  · exact wfld_congr fun k _ hk => bitAt_foldl_fldWrite_other _ _ _ _ _ (hout k (.inl (by omega)))
  · exact wfld_congr fun k h1 h2 => bitAt_foldl_fldWrite_other _ _ _ _ _ (hout k (.inr (by omega)))

theorem rPOOL_tops_ne (n : Nat) : rPOOL_SCR_TOP n ≠ rPOOL_REG_TOP n ∧ rPOOL_ACC_TOP n ≠ rPOOL_REG_TOP n
    ∧ rPOOL_ACC_TOP n ≠ rPOOL_SCR_TOP n := by
  unfold rPOOL_SCR_TOP rPOOL_REG_TOP rPOOL_ACC_TOP
  omega

/-- The fields of POOL_REG_TOP after a write that is let through. -/
theorem State.writeFields_poolTop (s : State) {n : Nat} (hn : n < 256) (v : Word) {sec g : Bool} (hg : g = false ∨ sec = true) :
    let t := s.writeFields (rPOOL_REG_TOP n) v sec g
    t = { s with csr := t.csr } ∧ t.rf (rPOOL_REG_TOP n) 8 6 = wfld v 8 6 ∧ t.rf (rPOOL_REG_TOP n) 0 6 = s.rf (rPOOL_REG_TOP n) 0 6
      ∧ t.rf (rPOOL_REG_TOP n) 18 1 = s.rf (rPOOL_REG_TOP n) 18 1
      ∧ ∀ p, p ≠ rPOOL_REG_TOP n → t.reg p = s.reg p := by
  intro t
  have ht : t = s.setReg (rPOOL_REG_TOP n) ((blkFields .core 0).foldl (fldWrite sec g v) (s.reg (rPOOL_REG_TOP n))) := by
    show s.writeFields _ _ _ _ = _
    rw [State.writeFields, regLoc_rPOOL_REG_TOP hn]
  obtain ⟨h8, h0, h18⟩ := poolTop_written (s.reg (rPOOL_REG_TOP n)) v hg
  refine ⟨?_, ?_, ?_, ?_, fun p hp => ?_⟩
  · rw [ht]; rfl
  · rw [ht, State.rf, State.reg_setReg_self, h8]
  · rw [ht, State.rf, State.reg_setReg_self, h0, State.rf]
  · rw [ht, State.rf, State.reg_setReg_self, h18, State.rf]
  · rw [ht, State.reg_setReg_other _ _ hp]

theorem State.rf_modCore (s : State) (n : Nat) (f : CoreX → CoreX) (o lo k : Nat) : (s.modCore n f).rf o lo k = s.rf o lo k := rfl

/-- A write of POOL_REG_TOP with apply (R114, R115). -/
theorem poolApply_spec {s : State} {n : Nat} (hn : n < 256) {v : Word} {sec : Bool} (hlive : s.live .core n = true)
    (hg : s.guarded .core n = false ∨ sec = true) (ha : bitAt v 16 = true) (hrun : s.rf (rPOOL_REG_TOP n) 18 1 = 0) :
    let r := wfld v 8 6
    let c := s.rf (rPOOL_SCR_TOP n) 8 6
    let a := s.rf (rPOOL_ACC_TOP n) 8 6
    (poolLimits r c a = true → s.coreEmpty n = true → s.copyTo n = false →
      ∃ t, exec (.poolApply n v sec) s = .next t ∧ (t.coreOf n).applying = some (r, c, a) ∧ t.rf (rPOOL_REG_TOP n) 18 1 = 1
        ∧ t.regTop n = s.regTop n)
    ∧ (poolLimits r c a = false ∨ s.coreEmpty n = false ∨ s.copyTo n = true →
      ∃ t, exec (.poolApply n v sec) s = .next t ∧ t.coreX = s.coreX ∧ t.rf (rPOOL_REG_TOP n) 17 1 = 1
        ∧ t.rf (rPOOL_REG_TOP n) 8 6 = r) := by
  intro r c a
  obtain ⟨heq, h8, h0, h18, hoth⟩ := s.writeFields_poolTop hn v hg
  obtain ⟨hsc, hac, -⟩ := rPOOL_tops_ne n
  generalize hs1 : s.writeFields (rPOOL_REG_TOP n) v sec (s.guarded .core n) = s1 at heq h8 h0 h18 hoth
  have hc : s1.rf (rPOOL_SCR_TOP n) 8 6 = c := congrArg (wfld · 8 6) (hoth _ hsc)
  have ha' : s1.rf (rPOOL_ACC_TOP n) 8 6 = a := congrArg (wfld · 8 6) (hoth _ hac)
  have hempty : s1.coreEmpty n = s.coreEmpty n := by rw [heq]; rfl
  have hcopy : s1.copyTo n = s.copyTo n := by rw [heq]; rfl
  have hX : s1.coreX = s.coreX := by rw [heq]
  have happ : s.poolApply n v sec = if poolLimits r c a && s.coreEmpty n && !s.copyTo n then
      (s1.setRf (rPOOL_REG_TOP n) 18 1 1).modCore n fun x => { x with applying := some (r, c, a) }
      else s1.setRf (rPOOL_REG_TOP n) 17 1 1 := by
    have hgs : (s.guarded .core n && !sec) = false := by rcases hg with h | h <;> simp [h]
    rw [State.poolApply, hlive]
    simp only [hgs, Bool.not_true, Bool.false_eq_true, if_false, hs1, ha, h18, hrun, h8, hc, ha', hempty, hcopy, Nat.zero_ne_one,
      decide_false, Bool.or_self]
    rfl
  refine ⟨fun hl he hcp => ⟨_, congrArg Host.Outcome.next happ, ?_⟩, fun hno => ⟨_, congrArg Host.Outcome.next happ, ?_⟩⟩
  · rw [if_pos (by simp [hl, he, hcp])]
    refine ⟨by rw [State.coreOf_modCore_self], ?_, ?_⟩
    · rw [State.rf_modCore]
      exact State.rf_setRf_self _ _ _ (by decide)
    · rw [State.regTop, State.rf_modCore, State.rf_setRf_field s1 _ _ (.inl (by decide)), h0, State.regTop]
  · rw [if_neg (by rcases hno with h | h | h <;> simp [h])]
    exact ⟨hX, State.rf_setRf_self _ _ _ (by decide), (State.rf_setRf_field s1 _ _ (.inl (by decide))).trans h8⟩

/-- A state in which a core's L1 is empty. -/
def State.noL1 (s : State) (n : Nat) : State :=
  { s with l1 := s.l1.filter (fun x => x.core ≠ n), l1fills := s.l1fills.filter fun x => x.core ≠ n }

/-- The boundaries in force after a division. -/
def State.divided (s : State) (n r c a : Nat) : State :=
  (((s.setRf (rPOOL_REG_TOP n) 0 6 r).setRf (rPOOL_SCR_TOP n) 0 6 c).setRf (rPOOL_ACC_TOP n) 0 6 a).setRf (rPOOL_REG_TOP n) 18 1 0

theorem State.divided_tops (s : State) (n : Nat) {r c a : Nat} (hr : r < 64) (hc : c < 64) (ha : a < 64) :
    (s.divided n r c a).regTop n = r ∧ (s.divided n r c a).scrTop n = c ∧ (s.divided n r c a).accTop n = a
      ∧ (s.divided n r c a).rf (rPOOL_REG_TOP n) 18 1 = 0 := by
  obtain ⟨hsc, hac, has⟩ := rPOOL_tops_ne n
  refine ⟨?_, ?_, ?_, State.rf_setRf_self _ _ _ (by decide)⟩
  · rw [State.regTop, State.divided, State.rf_setRf_field _ _ _ (.inl (by decide)), State.rf_setRf_other _ _ _ _ _ _ hac.symm,
      State.rf_setRf_other _ _ _ _ _ _ hsc.symm, State.rf_setRf_self _ _ _ (by decide)]
    exact Nat.mod_eq_of_lt hr
  · rw [State.scrTop, State.divided, State.rf_setRf_other _ _ _ _ _ _ hsc, State.rf_setRf_other _ _ _ _ _ _ has.symm,
      State.rf_setRf_self _ _ _ (by decide)]
    exact Nat.mod_eq_of_lt hc
  · rw [State.accTop, State.divided, State.rf_setRf_other _ _ _ _ _ _ hac, State.rf_setRf_self _ _ _ (by decide)]
    exact Nat.mod_eq_of_lt ha

/-- The division takes force (R115). -/
theorem poolApplyDone_spec {s : State} {n r c a : Nat} (h : (s.coreOf n).applying = some (r, c, a)) (hr : r < 64) (hc : c < 64)
    (ha : a < 64) : ∃ t, exec (.poolApplyDone n) s = .next t ∧ t.regTop n = r ∧ t.scrTop n = c ∧ t.accTop n = a
      ∧ t.rf (rPOOL_REG_TOP n) 18 1 = 0 ∧ (∀ x ∈ t.l1, x.core ≠ n) ∧ (t.coreOf n).applying = none ∧ t.mem = s.mem := by
  have happ : s.poolApplied n = ((s.noL1 n).divided n r c a).modCore n fun x => { x with applying := none } := by
    simp only [State.poolApplied, h, State.divided, State.noL1]
  obtain ⟨h1, h2, h3, h4⟩ := (s.noL1 n).divided_tops n hr hc ha
  have hl1 : ((s.noL1 n).divided n r c a).l1 = s.l1.filter fun x => x.core ≠ n := by
    simp only [State.divided, State.setRf, State.setReg_l1, State.noL1]
  have hmem : ((s.noL1 n).divided n r c a).mem = s.mem := by
    simp only [State.divided, State.setRf, State.setReg_mem, State.noL1]
  generalize (s.noL1 n).divided n r c a = u at happ h1 h2 h3 h4 hl1 hmem
  refine ⟨_, congrArg Host.Outcome.next happ, ?_, ?_, ?_, ?_, fun x hx => ?_, ?_, hmem⟩
  · rw [State.regTop, State.rf_modCore, ← State.regTop, h1]
  · rw [State.scrTop, State.rf_modCore, ← State.scrTop, h2]
  · rw [State.accTop, State.rf_modCore, ← State.accTop, h3]
  · rw [State.rf_modCore, h4]
  · rw [show (u.modCore n fun x => { x with applying := none }).l1 = u.l1 from rfl, hl1] at hx
    simpa using (List.mem_filter.1 hx).2
  · rw [State.coreOf_modCore_self]

/-- Settles O40. -/
theorem columnsAndPool : Obligations.ColumnsAndPool := by
  refine ⟨fun s n _ hrec => ⟨fun v sec => strRole_spec s n v sec, fun map hmap => roleChange_spec hrec hmap,
    fun site hs hl => ⟨(siteLoss_spec hs hl).1, fun hc _ => (siteLoss_spec hs hl).2 hc⟩, fun g hg b hb => rebuild_spec hrec hg hb, fun busB => busLoss_spec s n busB⟩,
    fun s n hn => ⟨fun v hl hg => ?_, fun v sec hl hg ha hr => poolApply_spec hn hl hg ha hr,
      fun r c a h hr hc ha => poolApplyDone_spec h hr hc ha⟩⟩
  show Host.Outcome.next (s.poolApply n v false) = _
  rw [State.poolApply, hl, hg]
  rfl

end Sys2Proof.Machine
end

section
/-! PROOFS. The scheduler's commands (O43): pre-emption and the vacation of cores, queue enables, REOPEN, and thermal
vacation. -/
namespace Sys2Proof.Machine

/-! Pre-emption (R213, R349). -/

/-- A state without its workgroups, the clauses being issued, copies, requests, fills and store buffers. -/
def State.issueless (s : State) : State :=
  { s with wgs := [], running := [], copies := [], reqs := [], l1fills := [], sbuf := [], nextId := 0 }

theorem State.issueless_drainEntry (s : State) (e : SbEntry) : (s.drainEntry e).issueless = s.issueless := by
  rw [State.drainEntry]
  split <;> rfl

theorem State.wgs_drainEntry (s : State) (e : SbEntry) : (s.drainEntry e).wgs = s.wgs := by
  rw [State.drainEntry]
  split <;> rfl

theorem State.issueless_drainCore (s : State) (n : Nat) : (s.drainCore n).issueless = s.issueless :=
  foldl_keeps State.issueless State.issueless_drainEntry _ s

theorem State.wgs_drainCore (s : State) (n : Nat) : (s.drainCore n).wgs = s.wgs :=
  foldl_keeps State.wgs State.wgs_drainEntry _ s

/-- A workgroup's issue stops by moves of its threads' program counters. -/
theorem State.haltIssue_keeps {γ : Type} {g : State → γ} {wg : Nat} (hl : ∀ t k m f, g (State.modLanes t wg k m f) = g t)
    (hr : ∀ (t : State) r, g { t with running := r } = g t) (s : State) : g (s.haltIssue wg) = g s :=
  (hr _ _).trans (foldl_keeps g (fun t _ => hl t _ _ _) _ s)

theorem State.issueless_haltIssue (s : State) (wg : Nat) : (s.haltIssue wg).issueless = s.issueless :=
  State.haltIssue_keeps (g := State.issueless) (fun _ _ _ _ => rfl) (fun _ _ => rfl) s

theorem State.wg?_modWg_other (s : State) {id a : Nat} {f : Workgroup → Workgroup} (hf : ∀ w, (f w).id = w.id) (h : id ≠ a) :
    (s.modWg a f).wg? id = s.wg? id := by
  rw [State.wg?_modWg s a id f hf, if_neg h]

theorem State.wg?_modWg_self (s : State) (id : Nat) {f : Workgroup → Workgroup} (hf : ∀ w, (f w).id = w.id) :
    (s.modWg id f).wg? id = (s.wg? id).map f := by
  rw [State.wg?_modWg s id id f hf, if_pos rfl]

theorem State.wg?_haltIssue_other (s : State) {id a : Nat} (h : id ≠ a) : (s.haltIssue a).wg? id = s.wg? id :=
  State.haltIssue_keeps (g := fun t => t.wg? id) (fun t _ _ _ => t.wg?_modWg_other (fun _ => rfl) h) (fun _ _ => rfl) s

/-- A workgroup whose issue stops stays. -/
theorem State.isSome_wg?_haltIssue (s : State) (id : Nat) : ((s.haltIssue id).wg? id).isSome = (s.wg? id).isSome :=
  State.haltIssue_keeps (g := fun t => (t.wg? id).isSome)
    (fun t k m f => by rw [State.modLanes, State.modWave, t.wg?_modWg_self id (by intro w; rfl), Option.isSome_map])
    (fun _ _ => rfl) s

/-- A workgroup as the beginning of its save leaves it. -/
def Workgroup.toSaving (clk : Nat) (w : Workgroup) : Workgroup := { w with fate := .saving, npReq := none, saveAt := clk }

/-- The workgroups as the beginning of a save leaves them. -/
theorem State.wgs_startSave {s : State} {id : Nat} {w : Workgroup} (hw : s.wg? id = some w) (hl : w.fate = .live) :
    (s.startSave id).wgs = ((s.haltIssue id).modWg id (Workgroup.toSaving s.clk)).wgs := by
  rw [State.startSave, hw]
  dsimp only
  rw [if_neg (by simp [hl])]
  exact foldl_keeps State.wgs State.wgs_drainCore _ _

theorem State.issueless_startSave (s : State) (id : Nat) : (s.startSave id).issueless = s.issueless := by
  rw [State.startSave]
  split
  · rfl
  · split
    · rfl
    · exact (foldl_keeps State.issueless State.issueless_drainCore _ _).trans (s.issueless_haltIssue id)

theorem State.issueless_preempt (s : State) (id : Nat) : (s.preempt id).issueless = s.issueless := by
  rw [State.preempt]
  split
  · rfl
  · split
    · rfl
    · split
      · split <;> rfl
      · exact s.issueless_startSave id

theorem State.wg?_startSave_other (s : State) {id a : Nat} (h : id ≠ a) : (s.startSave a).wg? id = s.wg? id := by
  cases hw : s.wg? a with
  | none => rw [State.startSave, hw]
  | some w =>
    by_cases hl : w.fate = .live
    · rw [State.wg?, State.wgs_startSave hw hl]
      exact ((s.haltIssue a).wg?_modWg_other (f := Workgroup.toSaving s.clk) (fun _ => rfl) h).trans (s.wg?_haltIssue_other h)
    · rw [State.startSave, hw]
      exact congrArg (State.wg? · id) (if_pos hl)

theorem State.wg?_preempt_other (s : State) {id a : Nat} (h : id ≠ a) : (s.preempt a).wg? id = s.wg? id := by
  rw [State.preempt]
  split
  · rfl
  · split
    · rfl
    · split
      · split
        · rfl
        · exact s.wg?_modWg_other (fun _ => rfl) h
      · exact s.wg?_startSave_other h

/-- What a request to pre-empt makes of a live workgroup: in a region it notes the request (R213), else its save begins. -/
def Workgroup.Preempted (region : Bool) (g : Workgroup) : Prop :=
  (region = false → g.fate = .saving) ∧ (region = true → g.fate = .live ∧ g.inRegion = true ∧ g.npReq.isSome = true)

theorem State.preempt_self {s : State} {id : Nat} {w : Workgroup} (hw : s.wg? id = some w) (hl : w.fate = .live) :
    ∃ g, (s.preempt id).wg? id = some g ∧ g.Preempted w.inRegion := by
  rw [State.preempt, hw]
  dsimp only
  rw [if_neg (by simp [hl])]
  cases hr : w.inRegion with
  | true =>
    rw [if_pos rfl]
    cases hn : w.npReq with
    | some c => exact ⟨w, hw, nofun, fun _ => ⟨hl, hr, by rw [hn]; rfl⟩⟩
    | none =>
      have hm := s.wg?_modWg_self id (f := fun w => { w with npReq := some s.clk }) fun _ => rfl
      exact ⟨{ w with npReq := some s.clk }, hm.trans (by rw [hw]; rfl), nofun, fun _ => ⟨hl, hr, rfl⟩⟩
  | false =>
    rw [if_neg Bool.false_ne_true]
    have hsome : ((s.haltIssue id).wg? id).isSome = true := by rw [s.isSome_wg?_haltIssue, hw]; rfl
    obtain ⟨v, hv⟩ := Option.isSome_iff_exists.1 hsome
    refine ⟨v.toSaving s.clk, ?_, fun _ => rfl, nofun⟩
    rw [State.wg?, State.wgs_startSave hw hl]
    exact ((s.haltIssue id).wg?_modWg_self id (f := Workgroup.toSaving s.clk) fun _ => rfl).trans (by rw [hv]; rfl)

/-- A request that has been made is not made again. -/
theorem State.preempt_again {s : State} {id : Nat} {g : Workgroup} {b : Bool} (hg : s.wg? id = some g) (hp : g.Preempted b) :
    s.preempt id = s := by
  rw [State.preempt, hg]
  obtain ⟨h0, h1⟩ := hp
  cases b with
  | false => exact if_pos (by rw [h0 rfl]; decide)
  | true =>
    obtain ⟨hl, hr, hn⟩ := h1 rfl
    dsimp only
    rw [if_neg (by simp [hl]), if_pos hr, if_pos hn]

/-- Every workgroup of a list is pre-empted, whatever else the list asks for. -/
theorem State.preempt_all {w : Workgroup} (hl : w.fate = .live) (l : List Workgroup) (s : State)
    (h : (s.wg? w.id = some w ∧ w ∈ l) ∨ ∃ g, s.wg? w.id = some g ∧ g.Preempted w.inRegion) :
    ∃ g, (l.foldl (fun s w => s.preempt w.id) s).wg? w.id = some g ∧ g.Preempted w.inRegion := by
  induction l generalizing s with
  | nil => exact h.resolve_left fun ⟨_, hm⟩ => nomatch hm
  | cons a r ih =>
    refine ih _ ?_
    by_cases ha : w.id = a.id
    · show (State.wg? (s.preempt a.id) w.id = some w ∧ w ∈ r) ∨ ∃ g, State.wg? (s.preempt a.id) w.id = some g ∧ _
      rw [← ha]
      rcases h with ⟨hw, -⟩ | ⟨g, hg, hp⟩
      · exact .inr (State.preempt_self hw hl)
      · exact .inr ⟨g, by rw [State.preempt_again hg hp, hg], hp⟩
    · show (State.wg? (s.preempt a.id) w.id = some w ∧ w ∈ r) ∨ ∃ g, State.wg? (s.preempt a.id) w.id = some g ∧ _
      rw [s.wg?_preempt_other ha]
      refine h.imp_left fun ⟨hw, hm⟩ => ⟨hw, (List.mem_cons.1 hm).resolve_left ?_⟩
      rintro rfl
      exact ha rfl

/-! Vacations (R330). -/

theorem State.csr_closeCores (s : State) (cs : List Nat) (by_ : Closer) : (s.closeCores cs by_).csr = s.csr :=
  foldl_keeps State.csr (by intro t n; rfl) cs s

/-- What is done to every core of a list holds of each of them. -/
theorem State.coreOf_foldl_modCore {P : CoreX → Prop} {f : CoreX → CoreX} (hf : ∀ x, P (f x)) (l : List Nat) (s : State) {n : Nat}
    (h : n ∈ l ∨ P (s.coreOf n)) : P ((l.foldl (fun s n => s.modCore n f) s).coreOf n) := by
  induction l generalizing s with
  | nil => exact h.resolve_left (List.not_mem_nil)
  | cons a r ih =>
    refine ih _ ?_
    by_cases ha : n = a
    · subst ha; rw [State.coreOf_modCore_self]; exact .inr (hf _)
    · rw [State.coreOf_modCore_other _ _ ha]
      exact h.imp_left fun hm => (List.mem_cons.1 hm).resolve_left ha

theorem State.closed_closeCores (s : State) {cs : List Nat} (by_ : Closer) {n : Nat} (h : n ∈ cs) :
    ((s.closeCores cs by_).coreOf n).closed = true := by
  refine State.coreOf_foldl_modCore (P := fun x => x.closed = true) (fun x => ?_) cs s (.inl h)
  rw [CoreX.closed, decide_eq_true_eq]
  split
  · next hc => intro he; rw [he] at hc; simp at hc
  · simp

/-- A request to vacate cores, of a state with the workgroups, the cores and the requests of `s`. -/
theorem State.vacateCores_spec (s : State) (cs : List Nat) (by_ : Closer) :
    ((∀ w ∈ s.wgs, ∀ p ∈ w.parts, p.core ∉ cs) → ∀ n ∈ cs, ((s.vacateCores cs by_).coreOf n).closed = true)
    ∧ ((∃ w ∈ s.wgs, ∃ p ∈ w.parts, p.core ∈ cs) → ⟨cs, by_⟩ ∈ (s.vacateCores cs by_).vacReqs)
    ∧ (∀ w, s.wg? w.id = some w → w.fate = .live → (∃ p ∈ w.parts, p.core ∈ cs) →
      ∃ g, (s.vacateCores cs by_).wg? w.id = some g ∧ g.Preempted w.inRegion)
    ∧ (s.vacateCores cs by_).csr = s.csr := by
  have hany : (s.wgs.any fun w => w.parts.any fun p => cs.contains p.core) = true ↔ ∃ w ∈ s.wgs, ∃ p ∈ w.parts, p.core ∈ cs := by
    simp
  rw [State.vacateCores, State.vacStep]
  by_cases h : ∃ w ∈ s.wgs, ∃ p ∈ w.parts, p.core ∈ cs
  · rw [if_pos (hany.2 h)]
    have hi : (State.issueless (List.foldl (fun s w => State.preempt s w.id) { s with vacReqs := s.vacReqs ++ [⟨cs, by_⟩] }
        (s.wgs.filter fun w => w.parts.any fun p => cs.contains p.core)))
        = State.issueless { s with vacReqs := s.vacReqs ++ [⟨cs, by_⟩] } :=
      foldl_keeps State.issueless (fun t (w : Workgroup) => t.issueless_preempt w.id) _ _
    refine ⟨fun hno => ?_, fun _ => ?_, fun w hw hl hc => ?_, (congrArg State.csr hi :)⟩
    · obtain ⟨w, hw, p, hp, hc⟩ := h
      exact absurd hc (hno w hw p hp)
    · have hv : (State.vacReqs (List.foldl _ _ _)) = s.vacReqs ++ [⟨cs, by_⟩] := (congrArg State.vacReqs hi :)
      rw [hv]
      exact List.mem_append_right _ List.mem_cons_self
    · refine State.preempt_all hl _ _ (.inl ⟨hw, List.mem_filter.2 ⟨List.mem_of_find?_eq_some hw, ?_⟩⟩)
      simpa using hc
  · rw [if_neg (mt hany.1 h)]
    refine ⟨fun _ n hn => State.closed_closeCores _ by_ hn, fun hw => absurd hw h, fun w hw _ hc => ?_, State.csr_closeCores _ _ _⟩
    exact absurd ⟨w, List.mem_of_find?_eq_some hw, hc⟩ h

/-! Commands (R330, R332). -/

theorem State.raise_csr (s : State) (q src : Nat) : (s.raise q src).csr = s.csr := by
  rw [State.raise]; split <;> rfl

theorem State.rf_raise (s : State) (q src o lo n : Nat) : (s.raise q src).rf o lo n = s.rf o lo n := by
  rw [State.rf, State.reg, State.raise_csr, ← State.reg, State.rf]

/-- How a command of the scheduler ends. -/
theorem State.schEnd_stat (s : State) (q : Nat) {res : Nat} (h : res < 8) :
    (s.schEnd q res).rf (rSCH_CMD_STAT q) 0 1 = 0 ∧ (s.schEnd q res).rf (rSCH_CMD_STAT q) 1 3 = res
      ∧ (s.schEnd q res).rf (rSCH_CMD_STAT q) 4 1 = 1 := by
  rw [State.schEnd, State.rf_raise, State.rf_raise, State.rf_raise]
  refine ⟨?_, ?_, State.rf_setRf_self _ _ _ (by decide)⟩
  · rw [State.rf_setRf_field _ _ _ (.inl (by decide))]
    exact State.rf_setRf_self _ _ _ (by decide)
  · rw [State.rf_setRf_field _ _ _ (.inl (by decide)), State.rf_setRf_field _ _ _ (.inr (by decide)),
      State.rf_setRf_self _ _ _ (by decide)]
    exact Nat.mod_eq_of_lt h

theorem State.schEnd_coreOf (s : State) (q res n : Nat) : (s.schEnd q res).coreOf n = s.coreOf n := by
  rw [State.schEnd, State.raise]; split <;> rfl

theorem State.schEnd_vacating (s : State) (q res : Nat) : (s.schEnd q res).vacating = s.vacating := by
  rw [State.schEnd, State.raise]; split <;> rfl

/-- A command that a secure partition forbids is logged alone (R7). -/
theorem State.schCommand_violation {s : State} {q : Nat} (hl : s.leads q = true) (hs : s.partSecure q = true) (op : Nat) :
    s.schCommand q op false = s.violation (rSCH_CMD q) := by
  rw [State.schCommand, hl, hs]; rfl

/-- A command of the partition's own world. -/
theorem State.schCommand_run {s : State} {q : Nat} {sec : Bool} (hl : s.leads q = true)
    (hs : s.partSecure q = false ∨ sec = true) (hb : s.rf (rSCH_CMD_STAT q) 0 1 = 0) (op : Nat) :
    s.schCommand q op sec = if op ≠ 1 ∧ op ≠ 2 then s.schEnd q 3
      else if (s.vmask q).any fun n => !(s.partCores q).contains n || (s.coreOf n).retired then s.schEnd q 2
      else if op = 2 then
        State.schEnd { (s.vmask q).foldl (fun s n => s.modCore n fun x => { x with closers := [] }) s with
          vacReqs := s.vacReqs.filter fun v => !(v.by_ = .vacation && v.cores.all (s.vmask q).contains) } q 0
      else
        let s1 := (s.setRf (rSCH_CMD_STAT q) 0 1 1).vacateCores (s.vmask q) .vacation
        { s1 with vacating := SMap.insert s1.vacating q (s.vmask q) } := by
  have hsec : (s.partSecure q && !sec) = false := by rcases hs with h | h <;> simp [h]
  rw [State.schCommand]
  simp only [hl, hsec, hb, Bool.not_true, Bool.false_eq_true, if_false, Nat.zero_ne_one]

/-- What a write of SCH_QBASE does (R321, R332). -/
theorem queueEnable_spec {s : State} {q : Nat} {sec : Bool} (hl : s.leads q = true)
    (hs : s.partSecure q = false ∨ sec = true) (v : Word) :
    let x := s.queue q (s.rf (rSCH_QIDX q) 0 6)
    let base := 65536 * wfld v 16 41
    (x.en = true → bitAt v 0 = false → exec (.queueEnableWrite q v sec) s = .next (s.setQueue { x with en := false }))
    ∧ (x.en = true → bitAt v 0 = true → exec (.queueEnableWrite q v sec) s = .next (s.setQueue { x with enabling := false }))
    ∧ (x.en = false → bitAt v 0 = false →
      exec (.queueEnableWrite q v sec) s = .next (s.setQueue { x with base := base, enabling := false }))
    ∧ (x.en = false → bitAt v 0 = true → s.imageMapped q base = false →
      exec (.queueEnableWrite q v sec) s = .next (s.setQueue { x with base := base, fault := true }))
    ∧ (x.en = false → bitAt v 0 = true → s.imageMapped q base = true → ∀ s1,
      (∀ n, s.engineRead x.q (base + 8) 8 = (.ok n, s1) → exec (.queueEnableWrite q v sec) s =
        .next ((s1.setQueue { x with base := base, en := true, taken := n, enabling := false }).updateLimit x.q x.num true))
      ∧ (s.engineRead x.q (base + 8) 8 = (.wait, s1) →
        exec (.queueEnableWrite q v sec) s = .next (s1.setQueue { x with base := base, enabling := true }))) := by
  intro x base
  have hsec : (s.partSecure q && !sec) = false := by rcases hs with h | h <;> simp [h]
  have hexec {t : State} (h : s.writeQbase q v sec = t) : exec (.queueEnableWrite q v sec) s = .next t :=
    congrArg Host.Outcome.next h
  have hw : s.writeQbase q v sec =
      let y : Queue := if x.en then x else { x with base := base }
      if bitAt v 0 = x.en then s.setQueue { y with enabling := false }
      else if x.en then s.setQueue { y with en := false }
      else if !s.imageMapped q y.base then s.setQueue { y with fault := true }
      else s.enableQueue y := by
    rw [State.writeQbase]
    simp only [hl, hsec, Bool.not_true, Bool.false_eq_true, if_false]
    rfl
  refine ⟨fun he hv => hexec ?_, fun he hv => hexec ?_, fun he hv => hexec ?_, fun he hv hm => hexec ?_,
    fun he hv hm s1 => ⟨fun n hr => hexec ?_, fun hr => hexec ?_⟩⟩
  · rw [hw]
    simp only [he, hv, Bool.false_eq_true, if_false, if_true]
  · rw [hw]
    simp only [he, hv, if_true]
  · rw [hw]
    simp only [he, hv, Bool.false_eq_true, if_false, if_true]
  · rw [hw, he, hv]
    simp only [Bool.false_eq_true, if_false, Bool.true_eq_false, hm, Bool.not_false, if_true]
  · rw [hw, he, hv]
    simp only [Bool.false_eq_true, if_false, Bool.true_eq_false, hm, Bool.not_true]
    rw [State.enableQueue]
    simp only [hr]
  · rw [hw, he, hv]
    simp only [Bool.false_eq_true, if_false, Bool.true_eq_false, hm, Bool.not_true]
    rw [State.enableQueue]
    simp only [hr]

/-! Thermal control (R329). -/

/-- A state whose die's rows are gated and whose pool is lowered while a region on a core is honoured. -/
def State.cooled (s : State) (n : Nat) (total : BitVec 13) : State :=
  if s.wgs.any fun w => w.onCore n && w.inRegion then
    (s.setRf rPWR_PEBBLE (32 + n / 64) 1 1).setPebbles (if total.toNat < s.rf rPWR_PEBBLE 0 13 then total else BitVec.ofNat 13 (s.rf rPWR_PEBBLE 0 13))
  else s

theorem State.cooled_wgs (s : State) (n : Nat) (total : BitVec 13) : (s.cooled n total).wgs = s.wgs := by
  rw [State.cooled]; split <;> rfl

/-- The pool never rises; while a region is honoured the rows are gated and the pool is at most what is asked for. -/
theorem State.cooled_pebbles (s : State) {n : Nat} (hn : n < 256) (total : BitVec 13) :
    (s.cooled n total).pebTotal ≤ s.pebTotal
      ∧ ((s.wgs.any fun w => w.onCore n && w.inRegion) = true → (s.cooled n total).rf rPWR_PEBBLE (32 + n / 64) 1 = 1
        ∧ (s.cooled n total).pebTotal ≤ total.toNat) := by
  cases h : s.wgs.any fun w => w.onCore n && w.inRegion with
  | false =>
    rw [State.cooled, h]
    exact ⟨le_refl _, nofun⟩
  | true =>
    have hcur : s.rf rPWR_PEBBLE 0 13 < 2 ^ 13 := wfld_lt ..
    have hval : (if total.toNat < s.rf rPWR_PEBBLE 0 13 then total else BitVec.ofNat 13 (s.rf rPWR_PEBBLE 0 13)).toNat
        = min total.toNat (s.rf rPWR_PEBBLE 0 13) := by
      split
      · omega
      · rw [BitVec.toNat_ofNat, Nat.mod_eq_of_lt hcur]; omega
    have hpeb : (s.cooled n total).pebTotal ≤ min total.toNat (s.rf rPWR_PEBBLE 0 13) := by
      rw [State.cooled, h, if_pos rfl, State.pebTotal, State.setPebbles, hval, State.rf_setRf_self _ _ _ (by decide)]
      exact (Nat.mod_le _ _).trans (min_le_right _ _)
    refine ⟨hpeb.trans (min_le_right _ _), fun _ => ⟨?_, hpeb.trans (min_le_left _ _)⟩⟩
    rw [State.cooled, h, if_pos rfl, State.setPebbles, State.rf_setRf_field _ _ _ (.inr (by omega))]
    exact State.rf_setRf_self _ _ _ (by omega)

/-- Settles O43. -/
theorem schedulerCommands : Obligations.SchedulerCommands := by
  intro s q sec hq
  refine ⟨fun hl hs hsec => ?_, fun hl hs => ⟨fun v => queueEnable_spec hl hs v, fun hb => ⟨fun op h1 h2 => ?_, fun hok => ?_⟩⟩,
    fun l hf => ⟨fun h => ?_, fun h => ?_⟩, fun n total hn => ?_⟩
  · subst hsec
    refine ⟨fun v => ?_, fun op i hi => ?_⟩
    · show Host.Outcome.next (s.writeQbase q v false) = _
      rw [State.writeQbase, hl, hs]; rfl
    · simp only [List.mem_cons, List.not_mem_nil, or_false] at hi
      rcases hi with rfl | rfl | rfl
      · exact congrArg Host.Outcome.next (State.schCommand_violation hl hs 1)
      · exact congrArg Host.Outcome.next (State.schCommand_violation hl hs 2)
      · exact congrArg Host.Outcome.next (State.schCommand_violation hl hs op.toNat)
  · refine ⟨s.schEnd q 3, congrArg Host.Outcome.next ?_, s.schEnd_stat q (by decide)⟩
    rw [State.schCommand_run hl hs hb, if_pos ⟨h1, h2⟩]
  · have hcs : ((s.vmask q).any fun n => !(s.partCores q).contains n || (s.coreOf n).retired) = false := by
      rw [List.any_eq_false]
      intro n hn
      obtain ⟨hp, hr⟩ := hok n hn
      simp [hp, hr]
    refine ⟨⟨_, congrArg Host.Outcome.next (State.schCommand_run hl hs hb 2), ?_⟩,
      ⟨_, congrArg Host.Outcome.next (State.schCommand_run hl hs hb 1), ?_⟩⟩
    · rw [if_neg (by decide), hcs, if_neg Bool.false_ne_true, if_pos rfl]
      refine ⟨State.schEnd_stat _ q (by decide), fun n hn => ?_⟩
      rw [State.schEnd_coreOf]
      exact State.coreOf_foldl_modCore (P := fun x => x.closed = false) (fun _ => rfl) (s.vmask q) s (.inl hn)
    · rw [if_neg (by decide), hcs, if_neg Bool.false_ne_true, if_neg (by decide)]
      obtain ⟨hclosed, hreq, hwg, hcsr⟩ := (s.setRf (rSCH_CMD_STAT q) 0 1 1).vacateCores_spec (s.vmask q) .vacation
      refine ⟨?_, ?_, hclosed, hreq, fun w hw hl hc => ?_⟩
      · show wfld (State.reg _ _) 0 1 = 1
        rw [State.reg, hcsr, ← State.reg]
        exact State.rf_setRf_self _ _ _ (by decide)
      · exact (SMap.find_insert _ _ _ _).trans (if_pos rfl)
      · obtain ⟨g, hg, h0, h1⟩ := hwg w hw hl hc
        exact ⟨g, hg, h0, fun hr => ⟨(h1 hr).1, (h1 hr).2.2⟩⟩
  · show Host.Outcome.next (s.vacated q) = _
    rw [State.vacated, hf]
    exact congrArg Host.Outcome.next (if_neg (by simp [h]))
  · refine ⟨State.schEnd { s with vacating := SMap.erase s.vacating q } q 0, ?_, State.schEnd_stat _ q (by decide), ?_⟩
    · show Host.Outcome.next (s.vacated q) = _
      rw [State.vacated, hf]
      exact congrArg Host.Outcome.next (if_pos h)
    · rw [State.schEnd_vacating]
      exact (SMap.find_erase _ _ _).trans (if_pos rfl)
  · have hth : s.thermal n total = (s.cooled n total).vacateCores [n] .vacation := by
      rw [State.thermal, if_neg (by omega)]; rfl
    obtain ⟨hclosed, hreq, hwg, hcsr⟩ := (s.cooled n total).vacateCores_spec [n] .vacation
    obtain ⟨hpeb, hgate⟩ := s.cooled_pebbles hn total
    have hrf (o lo k : Nat) : ((s.cooled n total).vacateCores [n] .vacation).rf o lo k = (s.cooled n total).rf o lo k := by
      rw [State.rf, State.reg, hcsr, ← State.reg, State.rf]
    rw [s.cooled_wgs n total] at hclosed hreq
    refine ⟨_, congrArg Host.Outcome.next hth, ⟨hclosed, hreq, fun w hw hl hc => ?_⟩, ?_, ?_⟩
    · have hw' : (s.cooled n total).wg? w.id = some w := by rw [State.wg?, s.cooled_wgs n total]; exact hw
      obtain ⟨g, hg, h0, h1⟩ := hwg w hw' hl hc
      exact ⟨g, hg, h0, fun hr => ⟨(h1 hr).1, (h1 hr).2.2⟩⟩
    · rw [State.pebTotal, hrf]; exact hpeb
    · rw [State.pebTotal, hrf, hrf]; exact hgate

end Sys2Proof.Machine
end

section
/-! PROOFS. The service commands of FLT_CMD that end a park (O45): RESUME and DELIVER, and how every command ends. -/
namespace Sys2Proof.Machine

/-! How a command ends (R356). -/

theorem State.fltEnd_stat (s : State) (q : Nat) {res : Nat} (h : res < 8) :
    (s.fltEnd q res).rf (rFLT_STAT q) 0 1 = 0 ∧ (s.fltEnd q res).rf (rFLT_STAT q) 1 3 = res
      ∧ (s.fltEnd q res).rf (rFLT_STAT q) 4 1 = 1 := by
  rw [State.fltEnd]
  refine ⟨?_, ?_, State.rf_setRf_self _ _ _ (by decide)⟩
  · rw [State.rf_setRf_field _ _ _ (.inl (by decide))]
    exact State.rf_setRf_self _ _ _ (by decide)
  · rw [State.rf_setRf_field _ _ _ (.inl (by decide)), State.rf_setRf_field _ _ _ (.inr (by decide)),
      State.rf_setRf_self _ _ _ (by decide)]
    exact Nat.mod_eq_of_lt h

theorem State.fltCommand_violation {s : State} {q : Nat} (hl : s.leads q = true) (hs : s.partSecure q = true) (op c f : Nat) :
    s.fltCommand q op c f false = s.violation (rFLT_CMD q) := by
  rw [State.fltCommand, hl, hs]; rfl

section Own
variable {s : State} {q : Nat} {sec : Bool}

theorem State.fltCommand_busy (hl : s.leads q = true) (hs : s.partSecure q = false ∨ sec = true)
    (hb : s.rf (rFLT_STAT q) 0 1 = 1) (op c f : Nat) : s.fltCommand q op c f sec = s.setRf (rFLT_STAT q) 1 3 1 := by
  have hsec : (s.partSecure q && !sec) = false := by rcases hs with h | h <;> simp [h]
  rw [State.fltCommand]
  simp only [hl, hsec, hb, Bool.not_true, Bool.false_eq_true, if_false, if_true]

theorem State.fltCommand_badOp (hl : s.leads q = true) (hs : s.partSecure q = false ∨ sec = true)
    (hb : s.rf (rFLT_STAT q) 0 1 = 0) {op : Nat} (ho : op = 0 ∨ 3 < op) (c f : Nat) :
    s.fltCommand q op c f sec = s.fltEnd q 5 := by
  have hsec : (s.partSecure q && !sec) = false := by rcases hs with h | h <;> simp [h]
  have hop : (decide (op = 0) || decide (3 < op)) = true := by simpa using ho
  rw [State.fltCommand]
  simp only [hl, hsec, hb, hop, Bool.not_true, Bool.false_eq_true, if_false, Nat.zero_ne_one, if_true]

/-- A command of a valid non-secure context. -/
theorem State.fltCommand_run (hl : s.leads q = true) (hs : s.partSecure q = false ∨ sec = true)
    (hb : s.rf (rFLT_STAT q) 0 1 = 0) {ctx : Nat} {d : BitVec 512} (hd : s.descOf q ctx = (d, s)) (hv : rfld d 0 1 = 1)
    (hn : rfld d 1 1 = 0) (hw : ∀ w ∈ s.wgs, w.ctx.world = false) {op : Nat} (h1 : 1 ≤ op) (h3 : op ≤ 3) (f : Nat) :
    s.fltCommand q op ctx f sec = if op = 3 then (s.setRf (rFLT_STAT q) 0 1 1).killStart q ctx
      else (s.parks.find? fun p => p.q = q && p.ctx = ctx && p.fault = some f).elim (s.fltEnd q 3)
        fun p => (s.endPark p (op = 2)).fltEnd q 0 := by
  have hsec : (s.partSecure q && !sec) = false := by rcases hs with h | h <;> simp [h]
  have hop : (decide (op = 0) || decide (3 < op)) = false := by
    rw [decide_eq_false (by omega), decide_eq_false (by omega)]; rfl
  have hworld : (s.wgs.any fun w => decide (w.ctx.q = q) && decide (w.ctx.num = ctx) && w.ctx.world) = false := by
    rw [List.any_eq_false]
    intro w hm
    simp [hw w hm]
  rw [State.fltCommand]
  simp only [hl, hsec, hb, hop, hd, hv, hn, hworld, Bool.not_true, Bool.false_eq_true, if_false, Nat.zero_ne_one, Nat.one_ne_zero,
    decide_false, Bool.false_and, Bool.or_self]
  cases s.parks.find? fun p => decide (p.q = q) && decide (p.ctx = ctx) && decide (p.fault = some f) <;> rfl

end Own

/-! RESUME and DELIVER of a park. -/

theorem State.endPark_ending {s : State} {p : Park} {w : Workgroup} (hw : s.wg? p.wg = some w) (he : w.fate = .ending) (b : Bool) :
    s.endPark p b = { s with parks := s.parks.filter (fun x => x.id ≠ p.id), reqs := s.reqs.filter fun r => !p.owns r } := by
  rw [State.endPark, hw]
  exact if_pos (by simp [he])

theorem State.endPark_here {s : State} {p : Park} (hi : ∀ i ∈ s.images, i.wg.id ≠ p.wg)
    (hw : ∀ w, s.wg? p.wg = some w → w.fate ≠ .ending) (b : Bool) :
    s.endPark p b = if b then s.deliverPark p else s.resumePark p := by
  have h1 : ((s.wg? p.wg).any fun w => decide (w.fate = .ending)) = false := by
    cases h : s.wg? p.wg with
    | none => rfl
    | some w => simpa using hw w h
  have h2 : (s.images.any fun i => decide (i.wg.id = p.wg)) = false := by
    rw [List.any_eq_false]
    intro i hm
    simpa using hi i hm
  rw [State.endPark, h1, h2]
  rfl

/-- RESUME: the replay records of the park are performed again. -/
theorem State.resumePark_spec (s : State) (p : Park) :
    (∀ x ∈ (s.resumePark p).parks, x.id ≠ p.id)
      ∧ ∀ r ∈ s.reqs, p.owns r = true → ∃ y ∈ (s.resumePark p).reqs, y.id = r.id ∧ y.parked = false ∧ y.cause = none ∧ y.what = r.what := by
  refine ⟨fun x hx => by simpa using (List.mem_filter.1 hx).2, fun r hr ho => ⟨_, List.mem_map.2 ⟨r, hr, if_pos ho⟩, rfl, rfl, rfl, rfl⟩⟩

/-- A function of the state that no counter, result or request changes is kept when requests are discarded. -/
theorem State.discardReq_keeps {γ : Type} {g : State → γ} (hreq : ∀ (t : State) l, g { t with reqs := l } = g t)
    (hres : ∀ (t : State) l, g { t with results := l } = g t)
    (hcnt : ∀ (t : State) wg k c d, g (t.bump wg k c d) = g t) (s : State) (r : Req) : g (s.discardReq r) = g s := by
  have hdrop (t : State) (op : Nat) (m : BitVec 64) : g (t.dropLane op m) = g t := hres t _
  have hs : g (s.dropReq r.id) = g s := hreq s _
  rw [State.discardReq]
  split
  · rw [hdrop, hs]
  · rw [hdrop, hcnt, hs]
  · rw [hdrop, hs]
  · rw [hdrop, hs]
  · exact (foldl_keeps g (fun t (x : SbStore) => hcnt t x.wg x.wave .st (-1)) _ _).trans hs

theorem State.parks_discardReqs (s : State) (l : List Req) : (l.foldl State.discardReq s).parks = s.parks :=
  foldl_keeps State.parks (State.discardReq_keeps (fun _ _ => rfl) (fun _ _ => rfl) fun _ _ _ _ _ => rfl) l s

theorem State.wgRest_discardReqs (s : State) (l : List Req) (id : Nat) :
    ((l.foldl State.discardReq s).wg? id).map (fun w => { w with waves := [] }) = (s.wg? id).map fun w => { w with waves := [] } :=
  foldl_keeps (fun t : State => (t.wg? id).map fun w => { w with waves := [] })
    (State.discardReq_keeps (g := fun t => (t.wg? id).map fun w => { w with waves := [] }) (fun _ _ => rfl) (fun _ _ => rfl) fun t wg k _ _ => t.wg?_modWave_rest wg k id _) l s

theorem State.threads_discardReqs (s : State) (l : List Req) (id k : Nat) :
    ((l.foldl State.discardReq s).wave? id k).map (·.threads) = (s.wave? id k).map (·.threads) :=
  foldl_keeps (fun t : State => (t.wave? id k).map (·.threads))
    (State.discardReq_keeps (g := fun t => (t.wave? id k).map (·.threads)) (fun _ _ => rfl) (fun _ _ => rfl) fun t wg j c d => by
      rw [State.bump, State.wave?_modWave]
      split
      · cases t.wave? id k <;> rfl
      · rfl) l s

theorem lanesOf_single {l : Nat} (hl : l < 64) : lanesOf (maskOf [l]) = [l] := by
  have h : ∀ i ∈ List.range 64, (maskOf [l]).getLsbD i = decide (i = l) := by
    intro i hi
    have := bitAt_maskOf [l] i
    rw [bitAt] at this
    rw [this, decide_eq_true (List.mem_range.1 hi), Bool.and_true]
    simp
  rw [lanesOf, List.filter_congr h, List.filter_eq, List.count_eq_one_of_mem List.nodup_range (List.mem_range.2 hl)]
  rfl

/-- DELIVER to one lane: it enters its handler with the park's cause (R339, R341). -/
theorem State.deliverPark_spec {s : State} {p : Park} {v : Wave} {w : Workgroup} {l : Nat} (hw : s.wg? p.wg = some w)
    (hv : s.wave? p.wg p.wave = some v) (hp : p.lanes = maskOf [l]) (hl : l < v.threads.length) (h64 : l < 64)
    (hpark : (v.thread l).status = .parked) (hact : (v.thread l).active = false) (hvec : w.ctx.trapVec ≠ 0) :
    (∀ x ∈ (s.deliverPark p).parks, x.id ≠ p.id)
    ∧ ∃ u, (s.deliverPark p).wave? p.wg p.wave = some u
      ∧ u.thread l = (v.thread l).enter w.ctx.trapVec p.cause (!p.group) true (v.thread l).pc (v.thread l).tinfo := by
  generalize hs1 : (s.reqs.filter p.owns).foldl State.discardReq { s with parks := s.parks.filter fun x => x.id ≠ p.id } = s1
  have hparks : s1.parks = s.parks.filter fun x => x.id ≠ p.id := by rw [← hs1, State.parks_discardReqs]
  have hrest := State.wgRest_discardReqs { s with parks := s.parks.filter fun x => x.id ≠ p.id } (s.reqs.filter p.owns) p.wg
  have hthreads := State.threads_discardReqs { s with parks := s.parks.filter fun x => x.id ≠ p.id } (s.reqs.filter p.owns) p.wg p.wave
  rw [hs1] at hrest hthreads
  obtain ⟨w1, hw1, hrest1⟩ : ∃ w1, s1.wg? p.wg = some w1 ∧ ({ w1 with waves := [] } : Workgroup) = { w with waves := [] } := by
    rw [show State.wg? { s with parks := s.parks.filter fun x => x.id ≠ p.id } p.wg = some w from hw] at hrest
    cases h : s1.wg? p.wg with
    | none => rw [h] at hrest; cases hrest
    | some w1 => rw [h] at hrest; exact ⟨w1, rfl, Option.some.inj hrest⟩
  have hctx : w1.ctx = w.ctx := (congrArg Workgroup.ctx hrest1 :)
  obtain ⟨v1, hv1, hthr⟩ : ∃ v1, s1.wave? p.wg p.wave = some v1 ∧ v1.threads = v.threads := by
    rw [show State.wave? { s with parks := s.parks.filter fun x => x.id ≠ p.id } p.wg p.wave = some v from hv] at hthreads
    cases h : s1.wave? p.wg p.wave with
    | none => rw [h] at hthreads; cases hthreads
    | some v1 => rw [h] at hthreads; exact ⟨v1, rfl, Option.some.inj hthreads⟩
  have hv1' : w1.waves[p.wave]? = some v1 := by
    rw [State.wave?, hw1] at hv1; exact hv1
  have hth (i : Nat) : v1.thread i = v.thread i := by rw [Wave.thread, Wave.thread, hthr]
  have hls : ((lanesOf p.lanes).filter fun l => (v1.thread l).status = .parked) = [l] := by
    rw [hp, lanesOf_single h64]
    simp [hth, hpark]
  have hdel : s.deliverPark p = (s1.modLanes p.wg p.wave (maskOf [l]) fun _ t =>
      t.enter w.ctx.trapVec p.cause (!p.group) true t.pc t.tinfo).settle p.wg p.wave := by
    rw [State.deliverPark, hs1, hw1]
    dsimp only
    rw [hv1', Option.getD_some, hls, if_neg (by simp), if_neg (by simp [hth, hact]), hctx, if_neg hvec]
  rw [hdel]
  refine ⟨fun x hx => ?_, ?_⟩
  · have hx' : x ∈ s1.parks := hx
    rw [hparks] at hx'
    simpa using (List.mem_filter.1 hx').2
  · have hwave : (s1.modLanes p.wg p.wave (maskOf [l]) fun _ t => t.enter w.ctx.trapVec p.cause (!p.group) true t.pc t.tinfo).wave?
        p.wg p.wave = some (v1.modLanes (maskOf [l]) fun _ t => t.enter w.ctx.trapVec p.cause (!p.group) true t.pc t.tinfo) := by
      rw [State.modLanes, State.wave?_modWave, if_pos ⟨rfl, rfl⟩, hv1]; rfl
    refine ⟨_, State.wave?_settle hwave, ?_⟩
    have hent : (v1.modLanes (maskOf [l]) fun _ t => t.enter w.ctx.trapVec p.cause (!p.group) true t.pc t.tinfo).thread l
        = (v.thread l).enter w.ctx.trapVec p.cause (!p.group) true (v.thread l).pc (v.thread l).tinfo := by
      rw [Wave.thread_modLanes, if_pos ⟨by simp [bitAt_maskOf, h64], by rw [hthr]; exact hl⟩, hth]
    have hset := Wave.settle_settles (v1.modLanes (maskOf [l]) fun _ t =>
      t.enter w.ctx.trapVec p.cause (!p.group) true t.pc t.tinfo) (State.runningLanes
        (s1.modLanes p.wg p.wave (maskOf [l]) fun _ t => t.enter w.ctx.trapVec p.cause (!p.group) true t.pc t.tinfo) p.wg p.wave) l
    rw [hent] at hset
    exact hset.resolve_right fun ⟨harr, _⟩ => by simp [Thread.arrived, Thread.enter] at harr

end Sys2Proof.Machine
end

section
/-! PROOFS. What reads and writes by physical address leave as it was (R58, R60, R311): walks, merges into lines, and the
bytes that the device's own engines read and write. -/
namespace Sys2Proof.Machine

/-- A fold is related to its start by what each of its steps is. -/
theorem foldl_related {α β : Type} {R : β → β → Prop} (hrefl : ∀ b, R b b) (htrans : ∀ {a b c}, R a b → R b c → R a c)
    {f : β → α → β} (h : ∀ b a, R b (f b a)) (l : List α) (b : β) : R b (l.foldl f b) := by
  induction l generalizing b with
  | nil => exact hrefl b
  | cons a r ih => exact htrans (h b a) (ih _)

/-- What no access at a lode changes. -/
structure Bystanders where
  wgs     : List Workgroup
  killing : SMap (Option Nat)
  kvReqs  : List KvReq
  ctrReqs : List CtrReq
  xposes  : List Xpose
  ctxRuns : List CtxRun

def State.bystanders (s : State) : Bystanders := ⟨s.wgs, s.killing, s.kvReqs, s.ctrReqs, s.xposes, s.ctxRuns⟩

/-- What no access by physical address changes. -/
structure PhysBystanders where
  rest      : Bystanders
  images    : List Image
  recs      : List Rec
  contracts : List (Nat × Nat)   -- lead and context of each

def State.physBystanders (s : State) : PhysBystanders :=
  ⟨s.bystanders, s.images, s.recs, s.contracts.map fun c => (c.q, c.ctx)⟩

/-- Work by physical address: it changes no bystander, and finds no host half where there is none. -/
structure State.Serves (s t : State) : Prop where
  kept : t.physBystanders = s.physBystanders
  calm : s.Calm → t.Calm

namespace State.Serves
variable {s t u : State}

theorem refl (s : State) : State.Serves s s := ⟨rfl, id⟩
theorem trans (h : State.Serves s t) (h' : State.Serves t u) : State.Serves s u :=
  ⟨h'.kept.trans h.kept, fun hs => h'.calm (h.calm hs)⟩
theorem of_tends (h : State.Tends s t) : State.Serves s t := ⟨(congrArg State.physBystanders h.lineless :), h.calm⟩
theorem bystanders (h : State.Serves s t) : t.bystanders = s.bystanders := (congrArg PhysBystanders.rest h.kept :)

end State.Serves

/-! Reading. -/

theorem State.serves_wakeLode (s : State) (n : Nat) : s.Serves (s.wakeLode n) := by
  rw [State.wakeLode]
  split
  · exact ⟨rfl, id⟩
  · exact .refl s

/-- An access to a line without host halves recalls none. -/
theorem State.touch_none (s : State) {l : LLine} (h : l.lo = .i ∧ l.hi = .i) (mask : Line) (write : Bool) :
    s.touch l mask write = s := by
  have hh (hi : Bool) : (touchesHalf mask hi && (decide (l.half hi = .e) || (write && decide (l.half hi = .s)))) = false := by
    cases hi <;> simp [LLine.half, h.1, h.2]
  rw [State.touch, List.foldl_cons, List.foldl_cons, List.foldl_nil, hh, hh]
  rfl

theorem State.touch_recalls (s : State) (l : LLine) (mask : Line) (write : Bool) :
    s.touch l mask write = { s with recalls := (s.touch l mask write).recalls } := by
  rw [State.touch, List.foldl_cons, List.foldl_cons, List.foldl_nil]
  split <;> split <;> rfl

theorem State.serves_touch (s : State) {l : LLine} (h : l ∈ s.lines) (mask : Line) (write : Bool) :
    s.Serves (s.touch l mask write) :=
  ⟨by rw [State.touch_recalls]; rfl, fun hs => by rw [s.touch_none (hs.2 l h)]; exact hs⟩

theorem State.mem_of_holder {s : State} {f off : Nat} {l : LLine} (h : s.holder f off = some l) : l ∈ s.lines := by
  rw [State.holder] at h
  split at h
  · next x hx => cases h; exact List.mem_of_find?_eq_some hx
  · exact List.mem_of_find?_eq_some h

theorem State.wakeLode_lines (s : State) (n : Nat) : (s.wakeLode n).lines = s.lines := by
  rw [State.wakeLode]; split <;> rfl

theorem State.serves_physLine (s : State) (f off : Nat) (mask : Line) : s.Serves (s.physLine f off mask).2.2 := by
  rw [State.physLine]
  split
  · next l hl =>
    refine (s.serves_wakeLode l.lode).trans (State.serves_touch _ ?_ mask false)
    rw [State.wakeLode_lines]
    exact State.mem_of_holder hl
  · exact s.serves_wakeLode _

theorem State.serves_readPhys (s : State) (pa n : Nat) : s.Serves (s.readPhys pa n).2 := by
  rw [State.readPhys]
  refine foldl_related (R := fun a b : List Byte × State => a.2.Serves b.2) (fun b => .refl b.2) (fun h h' => h.trans h')
    (fun b c => ?_) (chunksOf pa n) ([], s)
  exact b.2.serves_physLine _ _ _

theorem State.serves_readPhysN (s : State) (pa n : Nat) : s.Serves (s.readPhysN pa n).2 := s.serves_readPhys pa n

/-! Walks (R51 to R56). -/

theorem State.serves_walkLevels (s : State) (va : Nat) (path : List Nat) (table : Nat) (l : List Nat) :
    s.Serves (s.walkLevels va path table l).st := by
  induction l generalizing s path table with
  | nil => exact .refl s
  | cons lv rest ih =>
    have h := s.serves_readPhysN (table + 8 * fld va (levelBits lv).1 (levelBits lv).2) 8
    rw [State.walkLevels]
    dsimp only
    split
    · exact h
    · split
      · split
        · exact h
        · split <;> exact h
      · split
        · exact h
        · exact h.trans (ih _ _ _)

theorem State.serves_noteHome (s : State) (q : Nat) (asid : BitVec 16) (va : Nat) (l : Leaf) :
    s.Serves (s.noteHome q asid va l) := by
  rw [State.noteHome]
  dsimp only
  split
  · exact .refl s
  · refine ⟨?_, id⟩
    have hmap (p : Contract → Bool) : (s.contracts.map fun c => if p c then { c with wrong := true } else c).map (fun c => (c.q, c.ctx))
        = s.contracts.map fun c => (c.q, c.ctx) := by
      rw [List.map_map]
      refine List.map_congr_left fun c _ => ?_
      simp only [Function.comp]
      split <;> rfl
    rw [State.physBystanders]
    dsimp only
    rw [hmap]
    rfl

theorem State.serves_walk (s : State) (q : Nat) (asid : BitVec 16) (va : Nat) : s.Serves (s.walk q asid va).st := by
  have h := s.serves_readPhysN (4096 * s.rf (rXLT_ROOT q) 12 40 + 8 * asid.toNat) 8
  rw [State.walk]
  dsimp only
  split
  · exact h
  · split
    · exact h
    · have hx := h.trans (State.serves_walkLevels _ va [(4096 * s.rf (rXLT_ROOT q) 12 40 + 8 * asid.toNat) / 128]
        (256 * fld (s.readPhysN (4096 * s.rf (rXLT_ROOT q) 12 40 + 8 * asid.toNat) 8).1 8 44) [0, 1, 2, 3, 4])
      split
      · exact hx.trans (State.serves_noteHome _ _ _ _ _)
      · exact hx

/-! Writing. -/

theorem State.serves_startInval (s : State) (line : Nat) (writers : List (Nat × Nat × Nat)) (host : Bool) :
    s.Serves (s.startInval line writers host) := by
  rw [State.startInval]
  dsimp only
  split
  · exact .refl s
  · exact ⟨rfl, id⟩

theorem State.serves_mergeLine (s : State) (id : Nat) (mask d : Line) (req : Option (BitVec 4))
    (writers : List (Nat × Nat × Nat)) (host : Bool) : s.Serves (s.mergeLine id mask d req writers host) := by
  rw [State.mergeLine]
  split
  · exact .refl s
  · dsimp only
    split
    · exact .of_tends (.modLine s id fun _ => ⟨rfl, rfl⟩)
    · exact .trans (.of_tends (.modLine s id (by intro l; exact ⟨rfl, rfl⟩))) (State.serves_startInval _ _ _ _)

theorem State.serves_addLine (s : State) {l : LLine} (h : l.lo = .i ∧ l.hi = .i) : s.Serves (s.addLine l).2 := by
  refine ⟨rfl, fun hs => ⟨hs.1, fun x hx => ?_⟩⟩
  rcases List.mem_append.1 hx with hx | hx
  · exact hs.2 x hx
  · rw [List.mem_singleton.1 hx]
    exact h

theorem State.serves_mappedLeaf (s : State) (f off : Nat) : s.Serves (s.mappedLeaf f off).2 := by
  rw [State.mappedLeaf]
  split
  · exact .refl s
  · dsimp only
    split
    · exact .refl s
    · split
      · exact .refl s
      · exact s.serves_walk _ _ _

/-- A write by physical address. -/
theorem State.serves_mergePhys (s : State) (f off : Nat) (mask data : Line) (host : Bool) :
    s.Serves (s.mergePhys f off mask data host) := by
  have h := s.serves_mappedLeaf f off
  rw [State.mergePhys]
  dsimp only
  split
  · next l hl =>
    refine h.trans (.trans (State.serves_wakeLode _ l.lode) (.trans (State.serves_touch _ ?_ mask true)
      (.trans (State.serves_mergeLine _ _ _ _ _ _ _) (.of_tends (State.tends_endTransit _ _)))))
    rw [State.wakeLode_lines]
    exact State.mem_of_holder hl
  · refine h.trans (.trans (State.serves_wakeLode _ _) (.trans (State.serves_addLine _ ?_)
      (.trans (State.serves_mergeLine _ _ _ _ _ _ _) (.of_tends (State.tends_endTransit _ _)))))
    exact ⟨rfl, rfl⟩

theorem State.serves_writePhys (s : State) (pa : Nat) (bytes : List Byte) : s.Serves (s.writePhys pa bytes) := by
  rw [State.writePhys]
  refine foldl_related (R := State.Serves) State.Serves.refl State.Serves.trans (fun t c => ?_) _ s
  dsimp only
  split
  · exact .refl t
  · exact t.serves_mergePhys _ _ _ _ _

theorem State.serves_writePhysN (s : State) (pa n v : Nat) : s.Serves (s.writePhysN pa n v) := s.serves_writePhys _ _

theorem State.serves_setBusy (s : State) (save slot : Nat) (on : Bool) : s.Serves (s.setBusy save slot on) :=
  s.serves_writePhysN _ _ _

end Sys2Proof.Machine
end

section
/-! PROOFS. What accesses at home lodes leave as it was (R21, R60 to R63, R360 to R363): translation-buffer installs, fills, reads
and writes by virtual address, and the queue engine's own. -/
namespace Sys2Proof.Machine

theorem State.bystanders_of_tends {s t : State} (h : s.Tends t) : t.bystanders = s.bystanders :=
  (State.Serves.of_tends h).bystanders

section Bystanders
variable (s : State)

/-! Translation (R60 to R63). -/

theorem State.bystanders_touch (l : LLine) (mask : Line) (write : Bool) : (s.touch l mask write).bystanders = s.bystanders := by
  rw [State.touch_recalls]; rfl

theorem State.bystanders_startInval (line : Nat) (ws : List (Nat × Nat × Nat)) (host : Bool) :
    (s.startInval line ws host).bystanders = s.bystanders := (s.serves_startInval line ws host).bystanders

theorem State.bystanders_startMapInval (line : Nat) : (s.startMapInval line).bystanders = s.bystanders := by
  rw [State.startMapInval]
  split
  · rfl
  · exact s.bystanders_startInval line [] false

theorem State.bystanders_track (lode line : Nat) (core lode2 : Option Nat) :
    (s.track lode line core lode2).bystanders = s.bystanders := by
  have hroom : (s.dirRoom lode).bystanders = s.bystanders := by
    rw [State.dirRoom]
    split
    · split
      · exact State.bystanders_startInval _ _ _ _
      · rfl
    · rfl
  have h1 : (if s.dir.any fun d => d.line = line && !d.leaving then s else s.dirRoom lode).bystanders = s.bystanders := by
    split
    · rfl
    · exact hroom
  have h2 (t : State) (ht : t.bystanders = s.bystanders) (d e : List DirEntry) :
      (if t.dir.any fun d => d.line = line then { t with dir := d } else { t with dir := e }).bystanders = s.bystanders := by
    split <;> exact ht
  exact h2 _ h1 _ _

theorem State.bystanders_trackAll (path : List Nat) (core lode : Option Nat) :
    (s.trackAll path core lode).bystanders = s.bystanders :=
  foldl_keeps State.bystanders (fun t ln => t.bystanders_track _ ln core lode) path s

theorem State.bystanders_leaveLine (id : Nat) : (s.leaveLine id).bystanders = s.bystanders := by
  rw [State.leaveLine]
  generalize BitVec.allOnes 1024 = m
  split
  · rfl
  · next l _ =>
    have ht := s.bystanders_touch l m true
    have hw := (State.bystanders_of_tends (State.tends_writeback (s.touch l m true) id)).trans ht
    split
    · rfl
    · split
      · exact ht
      · dsimp only
        split <;> exact hw

theorem State.bystanders_tbDrop (e : TbEntry) : (s.tbDrop e).bystanders = s.bystanders :=
  foldl_keeps State.bystanders State.bystanders_leaveLine
    ((s.lines.filter fun l : LLine => l.ofPage e.lode e.asid e.page e.leaf.size.bytes).map fun l : LLine => l.id) s

theorem State.bystanders_tbAdd (e : TbEntry) : (s.tbAdd e).bystanders = s.bystanders := by
  have h : ∀ v : Option TbEntry, (match v with
      | some v => s.tbDrop v
      | none => s).bystanders = s.bystanders := by
    rintro (_ | v)
    · rfl
    · exact s.bystanders_tbDrop v
  rw [State.tbAdd]
  split
  · exact h _
  · rfl

theorem State.bystanders_clearPhysTags (fresh : Nat → Bool) : (s.clearPhysTags fresh).bystanders = s.bystanders := by
  rw [State.clearPhysTags]
  generalize BitVec.allOnes 1024 = m
  refine foldl_keeps State.bystanders (fun t id => ?_) _ s
  dsimp only
  split
  · rfl
  · next l _ =>
    have hw := (State.bystanders_of_tends (State.tends_writeback (t.touch l m true) id)).trans
      (t.bystanders_touch l _ _)
    split <;> exact hw

theorem State.bystanders_putRmap (b : Nat) (r : Rmap) : (s.putRmap b r).bystanders = s.bystanders := by
  rw [State.putRmap]
  split <;> rfl

theorem State.bystanders_walk (q : Nat) (asid : BitVec 16) (va : Nat) : (s.walk q asid va).st.bystanders = s.bystanders :=
  (s.serves_walk q asid va).bystanders

theorem State.bystanders_stillMaps (f : Nat) (r : Rmap) : (s.stillMaps f r).2.bystanders = s.bystanders :=
  s.bystanders_walk _ _ _

theorem State.bystanders_installMap (q : Nat) (asid : BitVec 16) (page : Nat) (l : Leaf) :
    (s.installMap q asid page l).2.bystanders = s.bystanders := by
  rw [State.installMap]
  split
  · rfl
  · dsimp only
    generalize hfold : (s.recordedElse l.frame l.size.frames asid page).foldl _ (([] : List (Nat × Rmap × Bool)), s) = x
    have hx : x.2.bystanders = s.bystanders := by
      rw [← hfold]
      refine foldl_keeps (fun y : List (Nat × Rmap × Bool) × State => y.2.bystanders) (fun y e => ?_) _ ([], s)
      have h := y.2.bystanders_stillMaps e.1 e.2
      split
      · next heq => rw [heq] at h; exact h
      · next heq => rw [heq] at h; exact h
    obtain ⟨held, s1⟩ := x
    dsimp only at hx ⊢
    split
    · exact hx
    · split
      · exact hx
      · split
        · exact hx
        · split
          · exact hx
          · split
            · exact hx
            · split
              · exact (foldl_keeps State.bystanders State.bystanders_startMapInval _ s1).trans hx
              · refine (foldl_keeps State.bystanders (by intro t e; rfl) held _).trans
                  ((foldl_keeps State.bystanders (by intro t f; rfl) _ _).trans ?_)
                rw [State.bystanders_putRmap, State.bystanders_clearPhysTags, hx]

theorem State.bystanders_install (q lode : Nat) (asid : BitVec 16) (va : Nat) (l : Leaf) (path : List Nat) :
    (s.install q lode asid va l path).2.bystanders = s.bystanders := by
  have h := s.bystanders_installMap q asid (pageOf va l.size) l
  rw [State.install]
  generalize s.installMap q asid (pageOf va l.size) l = x at h ⊢
  obtain ⟨r, s1⟩ := x
  dsimp only at h ⊢
  split
  · rw [State.bystanders_tbAdd, State.bystanders_trackAll, h]
  · exact h

theorem State.bystanders_shutAt (p : PortDrop) : (s.shutAt p).bystanders = s.bystanders := by
  rw [State.shutAt]; split <;> rfl

theorem State.bystanders_walkInstall (q lode : Nat) (asid : BitVec 16) (va : Nat) :
    (s.walkInstall q lode asid va).2.bystanders = s.bystanders := by
  have h := s.bystanders_walk q asid va
  rw [State.walkInstall]
  split
  · exact s.bystanders_shutAt _
  · exact h
  · exact (State.bystanders_install _ _ _ _ _ _ _).trans h

/-! Lines at their homes (R21, R22, R66). -/

theorem State.bystanders_wakeLode (n : Nat) : (s.wakeLode n).bystanders = s.bystanders := (s.serves_wakeLode n).bystanders

theorem State.bystanders_countMiss (lode : Nat) (asid : BitVec 16) (va d : Nat) :
    (s.countMiss lode asid va d).bystanders = s.bystanders := by
  rw [State.countMiss]
  split
  · rfl
  · split
    · rfl
    · dsimp only
      repeat' split
      all_goals rfl

theorem State.bystanders_startFill (lode : Nat) (a : Acc1) (l : Leaf) (ext : Bool) :
    (s.startFill lode a l ext).bystanders = s.bystanders := by
  rw [State.startFill]
  dsimp only
  split <;> rfl

theorem State.bystanders_fillDevice (lode : Nat) (a : Acc1) (l : Leaf) : (s.fillDevice lode a l).2.bystanders = s.bystanders := by
  rw [State.fillDevice]
  dsimp only
  split
  · split <;> rfl
  · split
    · exact s.bystanders_shutAt _
    · rfl

theorem State.bystanders_seenLine (who : Option Nat) (l : LLine) : (s.seenLine who l).2.bystanders = s.bystanders := by
  rw [State.seenLine]
  split
  · split <;> rfl
  · rfl

/-- The line of an access at its home (R21). -/
theorem State.bystanders_ensure (a : Acc1) : (s.ensure a).2.bystanders = s.bystanders := by
  unfold State.ensure
  extract_lets lode t failed fenced withEntry
  have ht : t.bystanders = s.bystanders := s.bystanders_wakeLode lode
  have hentry (u : State) (e : TbEntry) : (withEntry u e).2.bystanders = u.bystanders := by
    have hmiss := u.bystanders_countMiss lode a.asid a.va a.die
    simp only [withEntry]
    split
    · rfl
    · split
      · split
        · split <;> rfl
        · rfl
      · split
        · rfl
        · split
          · exact u.bystanders_startFill _ _ _ _
          · split
            · rfl
            · split
              · exact (State.bystanders_startFill _ _ _ _ _).trans hmiss
              · split
                · exact (State.bystanders_startFill _ _ _ _ _).trans hmiss
                · exact (State.bystanders_fillDevice _ _ _ _).trans hmiss
  split
  · exact s.bystanders_shutAt _
  · split
    · exact ht
    · split
      · exact (t.bystanders_seenLine _ _).trans ht
      · split
        · exact (hentry _ _).trans ht
        · split
          · split
            · exact ht
            · split <;> exact ht
          · have hwalk := (t.bystanders_walkInstall a.q lode a.asid a.va).trans ht
            split
            · next s1 heq =>
              rw [heq] at hwalk
              split
              · exact (hentry _ _).trans hwalk
              · exact hwalk
            · next heq => rw [heq] at hwalk; exact hwalk
            · next heq => rw [heq] at hwalk; exact hwalk

theorem State.bystanders_endTransit (id : Nat) : (s.endTransit id).bystanders = s.bystanders :=
  State.bystanders_of_tends (s.tends_endTransit id)

/-- A read of a line's bytes. -/
theorem State.bystanders_readLine (a : Acc1) (mask : Line) : (s.readLine a mask).2.bystanders = s.bystanders := by
  have h := s.bystanders_ensure a
  rw [State.readLine]
  split
  · next l s1 heq =>
    rw [heq] at h
    split
    · exact h
    · exact (State.bystanders_endTransit _ _).trans ((s1.bystanders_touch _ _ _).trans h)
  · next heq => rw [heq] at h; exact h
  · next heq => rw [heq] at h; exact h

theorem State.bystanders_ensureAll (l : List Acc1) : (s.ensureAll l).2.bystanders = s.bystanders := by
  rw [State.ensureAll]
  refine foldl_keeps (fun y : Got Unit × State => y.2.bystanders) (fun y a => ?_) l (.ok (), s)
  have h := y.2.bystanders_ensure a
  dsimp only
  split
  · rfl
  · split
    · next heq => rw [heq] at h; exact h
    · next heq => rw [heq] at h; exact h
    · next heq => rw [heq] at h; exact h

theorem State.bystanders_readLines (l : List (Acc1 × Line)) : (s.readLines l).2.bystanders = s.bystanders := by
  have h := s.bystanders_ensureAll (l.map (·.1))
  rw [State.readLines]
  split
  · next s1 heq =>
    rw [heq] at h
    refine Eq.trans ?_ h
    refine foldl_keeps (fun y : Got (List Line) × State => y.2.bystanders) (fun y x => ?_) l (.ok [], s1)
    have hr := y.2.bystanders_readLine x.1 x.2
    dsimp only
    split
    · split
      · next heq => rw [heq] at hr; exact hr
      · next heq => rw [heq] at hr; exact hr
      · next heq => rw [heq] at hr; exact hr
    · rfl
  · next heq => rw [heq] at h; exact h
  · next heq => rw [heq] at h; exact h

theorem State.bystanders_readVirt (a : Acc1) (n : Nat) : (s.readVirt a n).2.bystanders = s.bystanders := by
  have h := s.bystanders_readLines ((chunksOf a.va n).map fun x => ({ a with va := 128 * x.1 }, lineMask x.2.1 x.2.2))
  rw [State.readVirt]
  split
  · next heq => rw [heq] at h; exact h
  · next heq => rw [heq] at h; exact h
  · next heq => rw [heq] at h; exact h

/-! Writes (R360 to R363). -/

theorem State.bystanders_incSat (o lo n : Nat) : (s.incSat o lo n).bystanders = s.bystanders := by
  rw [State.incSat]; split <;> rfl

theorem State.bystanders_voidAudit (r : Rec) : (s.voidAudit r).bystanders = s.bystanders := by
  rw [State.voidAudit]
  dsimp only
  split
  · rfl
  · exact s.bystanders_incSat (rASY_STAT r.q) 40 8

theorem State.bystanders_expose (id : Nat) : (s.expose id).bystanders = s.bystanders := by
  rw [State.expose]
  split
  · rfl
  · split
    · rfl
    · dsimp only
      split
      · exact State.bystanders_incSat _ _ _ _
      · rfl

theorem State.bystanders_stageFor (a : Acc1) (l : LLine) : (s.stageFor a l).2.bystanders = s.bystanders := by
  rw [State.stageFor]
  split
  · rfl
  · next r _ =>
    have h0 : (if r.audit = .selected && r.inRange false a.va then s.voidAudit r else s).bystanders = s.bystanders := by
      split
      · exact s.bystanders_voidAudit r
      · rfl
    generalize (if r.audit = .selected && r.inRange false a.va then s.voidAudit r else s) = s0 at h0 ⊢
    have hw := (State.bystanders_of_tends (s0.tends_writeback l.id)).trans h0
    split
    · split <;> rfl
    · split
      · rfl
      · dsimp only
        split
        · exact h0
        · split
          all_goals
            split
            · exact (s0.bystanders_expose _).trans h0
            · split
              · exact h0
              · split
                · exact (s0.bystanders_expose _).trans h0
                · split <;> exact hw

end Bystanders

end Sys2Proof.Machine
end

section
/-! PROOFS. What the queue engine's accesses, the end of a record and the end of a stopped workgroup leave as they were (R319, R321,
R348, R361). -/
namespace Sys2Proof.Machine

section Bystanders
variable (s : State)

theorem State.bystanders_mergeLine (id : Nat) (mask d : Line) (req : Option (BitVec 4)) (ws : List (Nat × Nat × Nat)) (host : Bool) :
    (s.mergeLine id mask d req ws host).bystanders = s.bystanders := (s.serves_mergeLine id mask d req ws host).bystanders

theorem State.bystanders_setReg (o : Nat) (v : Word) : (s.setReg o v).bystanders = s.bystanders := rfl

theorem State.bystanders_logOos (q f off : Nat) (host : Bool) : (s.logOos q f off host).bystanders = s.bystanders :=
  s.bystanders_setReg _ _

/-- A write of a line's bytes. -/
theorem State.bystanders_writeLine (a : Acc1) (mask data : Line) (ws : List (Nat × Nat × Nat)) :
    (s.writeLine a mask data ws).2.bystanders = s.bystanders := by
  have h := s.bystanders_ensure { a with wr := true }
  rw [State.writeLine]
  generalize BitVec.allOnes 1024 = m
  split
  · exact s.bystanders_voidAudit _
  · split
    · rfl
    · split
      · next l s1 heq =>
        rw [heq] at h
        dsimp only
        split
        · exact (s1.bystanders_logOos _ _ _ _).trans h
        · have hst := (s1.bystanders_stageFor a l).trans h
          split
          · next id s2 heq2 =>
            rw [heq2] at hst
            have htouch (p b : Bool) : (if p then s2.touch l mask true else if b then s2 else s2.touch l m false).bystanders
                = s.bystanders := by
              split
              · exact (s2.bystanders_touch _ _ _).trans hst
              · split
                · exact hst
                · exact (s2.bystanders_touch _ _ _).trans hst
            exact (State.bystanders_endTransit _ _).trans ((State.bystanders_mergeLine _ _ _ _ _ _ _).trans (htouch _ _))
          · next heq2 => rw [heq2] at hst; exact hst
          · next heq2 => rw [heq2] at hst; exact hst
      · next heq => rw [heq] at h; exact h
      · next heq => rw [heq] at h; exact h

theorem State.bystanders_writeVirt (a : Acc1) (b : List Byte) (ws : List (Nat × Nat × Nat)) :
    (s.writeVirt a b ws).2.bystanders = s.bystanders := by
  rw [State.writeVirt]
  refine foldl_keeps (fun y : Got Unit × State => y.2.bystanders) (fun y c => ?_) _ (.ok (), s)
  dsimp only
  split
  · exact y.2.bystanders_writeLine _ _ _ _
  · rfl

/-! The queue engine (R318 to R321). -/

theorem State.bystanders_engineAcc {q va : Nat} {a : Acc1} {t : State} (h : s.engineAcc q va = some (a, t)) :
    t.bystanders = s.bystanders := by
  rw [State.engineAcc] at h
  split at h
  · split at h
    · cases h
    · cases h
      exact s.bystanders_walk _ _ _
  · cases h

theorem State.bystanders_engineRead (q va n : Nat) : (s.engineRead q va n).2.bystanders = s.bystanders := by
  rw [State.engineRead]
  split
  · rfl
  · split
    · rfl
    · next a s1 heq =>
      have h := (s1.bystanders_readVirt a n).trans (s.bystanders_engineAcc heq)
      split
      · next heq2 => rw [heq2] at h; exact h
      · next heq2 => rw [heq2] at h; exact h
      · next heq2 => rw [heq2] at h; exact h

theorem State.bystanders_mergePhys (f off : Nat) (mask data : Line) (host : Bool) :
    (s.mergePhys f off mask data host).bystanders = s.bystanders := (s.serves_mergePhys f off mask data host).bystanders

theorem State.bystanders_putEngine (a : Acc1) (n v : Nat) : (s.putEngine a n v).bystanders = s.bystanders := by
  have h := s.bystanders_writeVirt a (bytesOfNat n v) []
  rw [State.putEngine]
  split
  · rfl
  · split
    · rfl
    · split
      · next heq => rw [heq] at h; exact h
      · rfl
      · refine foldl_keeps State.bystanders (fun t c => ?_) _ s
        dsimp only
        split
        · rfl
        · exact t.bystanders_mergePhys _ _ _ _ _

theorem State.bystanders_engineWrite (q va n v : Nat) : (s.engineWrite q va n v).bystanders = s.bystanders := by
  rw [State.engineWrite]
  split
  · rfl
  · next heq => exact (State.bystanders_putEngine _ _ _ _).trans (s.bystanders_engineAcc heq)

/-! The end of a record (R321, R325). -/

theorem State.bystanders_setRecState (r : Rec) (st : Nat) : (s.setRecState r st).bystanders = s.bystanders :=
  State.bystanders_engineWrite _ _ _ _ _

theorem State.bystanders_updateLimit (q n : Nat) (force : Bool) : (s.updateLimit q n force).bystanders = s.bystanders := by
  have h := s.bystanders_engineRead q ((s.queue q n).base + 16) 8
  rw [State.updateLimit]
  dsimp only
  split
  · next old s1 heq =>
    rw [heq] at h
    have h2 (x : Option Bool) : (if x.isSome then s1.setQueue { s1.queue q n with limitDue := none } else s1).bystanders = s.bystanders := by
      split <;> exact h
    have hw (t : State) (ht : t.bystanders = s.bystanders) (p : Prop) [Decidable p] (va v : Nat) :
        (if p then t.engineWrite q va 8 v else t).bystanders = s.bystanders := by
      split
      · exact (t.bystanders_engineWrite _ _ _ _).trans ht
      · exact ht
    exact hw _ (h2 _) _ _ _
  · next heq => rw [heq] at h; exact h
  · next heq => rw [heq] at h; exact h

theorem State.bystanders_openGang (r : Rec) : (s.openGang r).bystanders = s.bystanders := by
  rw [State.openGang]
  split
  · rfl
  · exact foldl_keeps State.bystanders (by intro t n; rfl) r.gangCores s

theorem State.bystanders_endRec (r : Rec) (st : Nat) : (s.endRec r st).bystanders = s.bystanders := by
  rw [State.endRec, State.bystanders_updateLimit, State.bystanders_setRecState, State.bystanders_openGang]

/-! The end of a stopped workgroup (R346 to R348, R361). -/

theorem State.bystanders_readPhysN (pa n : Nat) : (s.readPhysN pa n).2.bystanders = s.bystanders :=
  (s.serves_readPhysN pa n).bystanders

theorem State.bystanders_writePhysN (pa n v : Nat) : (s.writePhysN pa n v).bystanders = s.bystanders :=
  (s.serves_writePhysN pa n v).bystanders

theorem State.bystanders_setRf (o lo n v : Nat) : (s.setRf o lo n v).bystanders = s.bystanders := rfl

theorem State.bystanders_raise (q src : Nat) : (s.raise q src).bystanders = s.bystanders := by
  rw [State.raise]; split <;> rfl

theorem State.bystanders_report (q save : Nat) (k : RKind) (entry : Nat) : (s.report q save k entry).2.bystanders = s.bystanders := by
  have h1 := s.bystanders_readPhysN (save + 8) 2
  generalize hx : s.readPhysN (save + 8) 2 = x at h1
  obtain ⟨prod, s1⟩ := x
  have h2 := (s1.bystanders_readPhysN (save + 10) 2).trans h1
  generalize hy : s1.readPhysN (save + 10) 2 = y at h2
  obtain ⟨cons, s2⟩ := y
  rw [State.report, hx]
  dsimp only
  rw [hy]
  dsimp only
  split
  · have h4 (u : State) (hu : u.bystanders = s.bystanders) (p : Prop) [Decidable p] :
        (if p then u.raise q 2 else u).bystanders = s.bystanders := by
      split
      · exact (u.bystanders_raise q 2).trans hu
      · exact hu
    refine h4 _ ?_ _
    rw [State.bystanders_setRf, State.bystanders_writePhysN, State.bystanders_writePhysN, h2]
  · split
    · exact h2
    · have h3 := (s2.bystanders_readPhysN (save + 16) 2).trans h2
      generalize s2.readPhysN (save + 16) 2 = z at h3 ⊢
      obtain ⟨lost, s3⟩ := z
      dsimp only
      rw [State.bystanders_writePhysN, h3]

theorem State.bystanders_discardHalf (line : Nat) (hi : Bool) : (s.discardHalf line hi).bystanders = s.bystanders := by
  rw [State.discardHalf]
  dsimp only
  split <;> rfl

theorem State.bystanders_dropStaged (rid : Nat) : (s.dropStaged rid).bystanders = s.bystanders := by
  rw [State.dropStaged]
  refine foldl_keeps State.bystanders (fun t l => ?_) _ s
  split
  · rfl
  · refine (foldl_keeps State.bystanders (fun u hi => ?_) [false, true] _).trans rfl
    split
    · rfl
    · exact u.bystanders_discardHalf _ _

theorem State.bystanders_rollbackEnd (r : Rec) : (s.rollbackEnd r).bystanders = s.bystanders :=
  (State.bystanders_setRf _ _ _ _ _).trans ((State.bystanders_setRecState _ _ _).trans
    (State.bystanders_dropStaged { s with reds := s.reds.filterMap (s.closeStaged r.id) } r.id))

theorem State.bystanders_haltEnd (rid : Nat) : (s.haltEnd rid).bystanders = s.bystanders := by
  rw [State.haltEnd]
  split
  · rfl
  · split
    · rfl
    · split
      · exact s.bystanders_rollbackEnd _
      · dsimp only
        split <;> rfl

end Bystanders

/-- A stopped workgroup that ends: workgroups leave, and no other bystander changes. -/
theorem State.bystanders_reapWg (s : State) (id : Nat) : ∃ l, l.Sublist s.wgs ∧ (s.reapWg id).bystanders = { s.bystanders with wgs := l } := by
  rw [State.reapWg]
  split
  · exact ⟨s.wgs, .refl _, rfl⟩
  · split
    · exact ⟨s.wgs, .refl _, rfl⟩
    · refine ⟨s.wgs.filter fun x => x.id ≠ id, List.filter_sublist, ?_⟩
      rw [State.bystanders_haltEnd]
      split
      · exact State.bystanders_report _ _ _ _ _
      · rfl

/-- The workgroups that are left, and the other bystanders, when the stopped ones have ended. -/
theorem State.bystanders_reap (s : State) : ∃ l, l.Sublist s.wgs ∧ s.reap.bystanders = { s.bystanders with wgs := l } := by
  refine foldl_related (R := fun s t : State => ∃ l, l.Sublist s.wgs ∧ t.bystanders = { s.bystanders with wgs := l })
    (fun b => ⟨b.wgs, .refl _, rfl⟩) ?_ (fun t w => t.bystanders_reapWg w.id) (s.wgs.filter fun w => w.fate = .ending) s
  rintro a b c ⟨l, hl, h⟩ ⟨m, hm, h'⟩
  have hb : b.wgs = l := (congrArg Bystanders.wgs h :)
  exact ⟨m, hm.trans (hb ▸ hl), by rw [h', h]⟩

end Sys2Proof.Machine
end

section
/-! PROOFS. KILL (R354) and the service commands (O45). -/
namespace Sys2Proof.Machine

/-! A context's running facts. -/

theorem State.ctxRun_key (s : State) (q n : Nat) : (s.ctxRun q n).q = q ∧ (s.ctxRun q n).num = n := by
  rw [State.ctxRun]
  cases h : s.ctxRuns.find? fun c => c.q = q && c.num = n with
  | none => exact ⟨rfl, rfl⟩
  | some c => simpa using List.find?_some h

theorem State.ctxRun_setCtxRun (s : State) (c : CtxRun) {q n : Nat} (hq : c.q = q) (hn : c.num = n) :
    (s.setCtxRun c).ctxRun q n = c := by
  subst hq hn
  have hnone : (s.ctxRuns.filter fun x => !(x.q = c.q && x.num = c.num)).find? (fun x => x.q = c.q && x.num = c.num) = none := by
    rw [List.find?_eq_none]
    intro x hx
    have := (List.mem_filter.1 hx).2
    simp only [Bool.not_eq_true', Bool.and_eq_true, decide_eq_true_eq, Bool.eq_false_iff, ne_eq] at this ⊢
    exact this
  rw [State.ctxRun, State.setCtxRun, List.find?_append, hnone]
  simp

theorem State.ctxRun_congr {s t : State} (h : t.ctxRuns = s.ctxRuns) (q n : Nat) : t.ctxRun q n = s.ctxRun q n := by
  rw [State.ctxRun, State.ctxRun, h]

theorem not_both {p q : Prop} [Decidable p] [Decidable q] (h : (!(decide p && decide q)) = true) : ¬(p ∧ q) := by
  rintro ⟨hp, hq⟩
  simp [hp, hq] at h

/-! KILL begins. -/

theorem State.killWg_ctxRuns (s : State) (w : Workgroup) : (s.killWg w).ctxRuns = s.ctxRuns := by
  rw [State.killWg]
  split <;> rfl

theorem State.killWg_wgs (s : State) (w : Workgroup) :
    (s.killWg w).wgs = if w.fate = .ending then s.wgs
      else s.wgs.map fun x => if x.id = w.id then x.stop s.clk none else x := by
  rw [State.killWg]
  split <;> rfl

/-- The workgroups of a list stop: those that a predicate of their contexts picks have stopped for good once every one of them that
had not is in the list. -/
theorem State.killWgs_ending {p : Ctx → Prop} (l : List Workgroup) (s : State)
    (h : ∀ x ∈ s.wgs, p x.ctx → x.fate = .ending ∨ ∃ a ∈ l, a.id = x.id ∧ a.fate ≠ .ending) :
    ∀ x ∈ (l.foldl State.killWg s).wgs, p x.ctx → x.fate = .ending := by
  induction l generalizing s with
  | nil => exact fun x hx hp => (h x hx hp).resolve_right fun ⟨_, ha, _⟩ => nomatch ha
  | cons a r ih =>
    refine ih _ fun y hy hp => ?_
    rw [State.killWg_wgs] at hy
    split at hy
    · next he =>
      refine (h y hy hp).imp_right fun ⟨b, hb, hid, hf⟩ => ⟨b, (List.mem_cons.1 hb).resolve_left ?_, hid, hf⟩
      rintro rfl
      exact hf he
    · obtain ⟨x, hx, rfl⟩ := List.mem_map.1 hy
      split
      · exact .inl rfl
      · next hid =>
        rw [if_neg hid] at hp
        refine (h x hx hp).imp_right fun ⟨b, hb, hb2, hf⟩ => ⟨b, (List.mem_cons.1 hb).resolve_left ?_, hb2, hf⟩
        rintro rfl
        exact hid hb2.symm

/-- A state in which a context's kill runs, without the operations of the context's engines. -/
def State.killRuns (s : State) (q ctx : Nat) : State :=
  { s with
    reqs := s.reqs.filter (fun r => !(r.q = q && r.ctx = ctx && r.isRed && !r.parked)),
    kvReqs := s.kvReqs.filter (fun r => !(r.q = q && r.ctx = ctx)),
    ctrReqs := s.ctrReqs.filter (fun r => !(r.q = q && r.ctx = ctx)),
    xposes := s.xposes.filter (fun x => !(x.copy.q = q && x.copy.ctx = ctx)),
    killing := SMap.insert s.killing q (some ctx) }

/-- What stands before the stopped workgroups end: the context is closed, and all that it runs has stopped. -/
theorem State.killStart_stops (s : State) (q ctx : Nat) :
    ∃ u : State, s.killStart q ctx = (u.killRuns q ctx).reap
      ∧ u.ctxRuns = (s.setCtxRun { s.ctxRun q ctx with closed := true }).ctxRuns
      ∧ ∀ w ∈ u.wgs, (w.ctx.q = q ∧ w.ctx.num = ctx) → w.fate = .ending := by
  refine ⟨_, rfl, ?_, ?_⟩
  · refine (foldl_keeps State.ctxRuns State.killWg_ctxRuns _ _).trans ?_
    exact (congrArg Bystanders.ctxRuns
      (foldl_keeps State.bystanders (fun t (r : Rec) => t.bystanders_endRec r 4) _ (s.setCtxRun { s.ctxRun q ctx with closed := true })) :)
  · refine State.killWgs_ending (p := fun c => c.q = q ∧ c.num = ctx) _ _ fun x hx hp => ?_
    by_cases hf : x.fate = .ending
    · exact .inl hf
    · exact .inr ⟨x, List.mem_filter.2 ⟨hx, by simp [hp.1, hp.2]⟩, rfl, hf⟩

/-- KILL BEGINS (R354 steps 1 and 2). -/
theorem State.killStart_spec (s : State) (q ctx : Nat) :
    SMap.find (s.killStart q ctx).killing q = some (some ctx)
    ∧ (∀ w ∈ (s.killStart q ctx).wgs, w.ctx.q = q → w.ctx.num = ctx → w.fate = .ending)
    ∧ (∀ r ∈ (s.killStart q ctx).kvReqs, ¬(r.q = q ∧ r.ctx = ctx)) ∧ (∀ r ∈ (s.killStart q ctx).ctrReqs, ¬(r.q = q ∧ r.ctx = ctx))
    ∧ (∀ x ∈ (s.killStart q ctx).xposes, ¬(x.copy.q = q ∧ x.copy.ctx = ctx))
    ∧ ((s.killStart q ctx).ctxRun q ctx).closed = true := by
  obtain ⟨u, hu, hrun, hend⟩ := s.killStart_stops q ctx
  rw [hu]
  obtain ⟨l, hl, hb⟩ := (u.killRuns q ctx).bystanders_reap
  have hkill : (u.killRuns q ctx).reap.killing = SMap.insert u.killing q (some ctx) := (congrArg Bystanders.killing hb :)
  have hwgs : (u.killRuns q ctx).reap.wgs = l := (congrArg Bystanders.wgs hb :)
  have hkv : (u.killRuns q ctx).reap.kvReqs = u.kvReqs.filter fun r => !(r.q = q && r.ctx = ctx) := (congrArg Bystanders.kvReqs hb :)
  have hctr : (u.killRuns q ctx).reap.ctrReqs = u.ctrReqs.filter fun r => !(r.q = q && r.ctx = ctx) :=
    (congrArg Bystanders.ctrReqs hb :)
  have hxp : (u.killRuns q ctx).reap.xposes = u.xposes.filter fun x => !(x.copy.q = q && x.copy.ctx = ctx) :=
    (congrArg Bystanders.xposes hb :)
  have hctx : (u.killRuns q ctx).reap.ctxRuns = u.ctxRuns := (congrArg Bystanders.ctxRuns hb :)
  refine ⟨?_, fun w hw h1 h2 => ?_, fun r hr => ?_, fun r hr => ?_, fun x hx => ?_, ?_⟩
  · rw [hkill, SMap.find_insert, if_pos rfl]
  · rw [hwgs] at hw
    exact hend w (hl.subset hw) ⟨h1, h2⟩
  · rw [hkv] at hr
    exact not_both (List.mem_filter.1 hr).2
  · rw [hctr] at hr
    exact not_both (List.mem_filter.1 hr).2
  · rw [hxp] at hx
    exact not_both (List.mem_filter.1 hx).2
  · rw [State.ctxRun_congr (hctx.trans hrun)]
    obtain ⟨hq, hn⟩ := s.ctxRun_key q ctx
    exact congrArg CtxRun.closed (s.ctxRun_setCtxRun { s.ctxRun q ctx with closed := true } hq hn)

/-! KILL completes. -/

/-- What the end of images leaves: the contexts' running facts, and whose the contracts and the records are. -/
structure State.ImagesGo (s t : State) : Prop where
  ctxRuns : t.ctxRuns = s.ctxRuns
  contracts : t.contracts.map (fun c => (c.q, c.ctx)) = s.contracts.map fun c => (c.q, c.ctx)
  recs : t.recs.map (fun r => (r.q, r.ctx.num)) = s.recs.map fun r => (r.q, r.ctx.num)
  calm : s.Calm → t.Calm

theorem State.ImagesGo.refl (s : State) : s.ImagesGo s := ⟨rfl, rfl, rfl, id⟩

theorem State.ImagesGo.trans {s t u : State} (h : s.ImagesGo t) (h' : t.ImagesGo u) : s.ImagesGo u :=
  ⟨h'.ctxRuns.trans h.ctxRuns, h'.contracts.trans h.contracts, h'.recs.trans h.recs, fun hs => h'.calm (h.calm hs)⟩

theorem State.ImagesGo.of_serves {s t : State} (h : s.Serves t) : s.ImagesGo t := by
  have hrecs : t.recs = s.recs := (congrArg PhysBystanders.recs h.kept :)
  exact ⟨(congrArg (fun b => b.rest.ctxRuns) h.kept :), (congrArg PhysBystanders.contracts h.kept :), by rw [hrecs], h.calm⟩

/-- A record counts a workgroup that is gone. -/
def State.countGone (s : State) (rid : Nat) : State := s.modRec rid fun r => { r with exited := r.exited + 1 }

theorem State.imagesGo_countGone (s : State) (rid : Nat) : s.ImagesGo (s.countGone rid) := by
  refine ⟨rfl, rfl, ?_, id⟩
  rw [State.countGone, State.modRec, List.map_map]
  refine List.map_congr_left fun r _ => ?_
  simp only [Function.comp]
  split <;> rfl

theorem State.countGone_images (s : State) (rid : Nat) : (s.countGone rid).images = s.images := rfl

/-- What an image that is discarded takes with it, but for its slot. -/
def State.withoutImage (s : State) (i : Image) : State :=
  { s with
    images := s.images.filter (fun x => x.id ≠ i.id), results := s.results.filter (fun r => r.wg ≠ i.wg.id),
    reqs := s.reqs.filter (fun r => r.wg ≠ i.wg.id), parks := s.parks.filter (fun p => p.wg ≠ i.wg.id),
    reds := s.reds.filterMap fun r => r.without ((s.results.filter fun r => r.wg = i.wg.id).map (·.id)) }

theorem State.serves_dropImage (s : State) (i : Image) : (s.withoutImage i).Serves (s.dropImage i) :=
  State.serves_setBusy _ _ _ _

theorem State.dropImage_images (s : State) (i : Image) : (s.dropImage i).images = s.images.filter fun x => x.id ≠ i.id :=
  (congrArg PhysBystanders.images (s.serves_dropImage i).kept :)

theorem State.imagesGo_dropImage (s : State) (i : Image) : s.ImagesGo (s.dropImage i) :=
  State.ImagesGo.trans (t := s.withoutImage i) ⟨rfl, rfl, rfl, id⟩ (.of_serves (s.serves_dropImage i))

/-- The images of a list are discarded, and their records count them. -/
theorem State.imagesGo_foldl (l : List Image) (s : State) :
    s.ImagesGo (l.foldl (fun s i => (s.dropImage i).countGone i.wg.recId) s)
      ∧ ∀ i ∈ (l.foldl (fun s i => (s.dropImage i).countGone i.wg.recId) s).images, i ∈ s.images ∧ ∀ a ∈ l, i.id ≠ a.id := by
  induction l generalizing s with
  | nil => exact ⟨.refl s, fun i hi => ⟨hi, fun a ha => nomatch ha⟩⟩
  | cons a r ih =>
    obtain ⟨hgo, himg⟩ := ih ((s.dropImage a).countGone a.wg.recId)
    refine ⟨((s.imagesGo_dropImage a).trans (State.imagesGo_countGone _ _)).trans hgo, fun i hi => ?_⟩
    obtain ⟨hi1, hi2⟩ := himg i hi
    rw [State.countGone_images, State.dropImage_images] at hi1
    obtain ⟨hmem, hne⟩ := List.mem_filter.1 hi1
    exact ⟨hmem, fun b hb => (List.mem_cons.1 hb).elim (fun h => by simpa [h] using hne) (hi2 b)⟩

/-- Step 5 of R354: images, parks and requests of a killed context go. -/
theorem State.killImages_spec (s : State) (q ctx : Nat) :
    s.ImagesGo (s.killImages q ctx) ∧ (∀ i ∈ (s.killImages q ctx).images, ¬(i.wg.ctx.q = q ∧ i.wg.ctx.num = ctx))
      ∧ (∀ p ∈ (s.killImages q ctx).parks, ¬(p.q = q ∧ p.ctx = ctx)) ∧ ∀ r ∈ (s.killImages q ctx).reqs, ¬(r.q = q ∧ r.ctx = ctx) := by
  obtain ⟨hgo, himg⟩ := State.imagesGo_foldl (s.images.filter fun i => i.wg.ctx.q = q && i.wg.ctx.num = ctx) s
  rw [State.killImages]
  refine ⟨⟨hgo.ctxRuns, hgo.contracts, hgo.recs, hgo.calm⟩, fun i hi hm => ?_, fun p hp => ?_, fun r hr => ?_⟩
  · obtain ⟨hmem, hne⟩ := himg i hi
    exact hne i (List.mem_filter.2 ⟨hmem, by simp [hm.1, hm.2]⟩) rfl
  · exact not_both (List.mem_filter.1 hp).2
  · exact not_both (List.mem_filter.1 hr).2

/-- KILL COMPLETES (R354 steps 4 and 5), where the context has no reduction, contract or record. -/
theorem State.killEnd_spec {s : State} {q ctx : Nat} (hkill : SMap.get none s.killing q = some ctx) (hcalm : s.Calm)
    (hdrained : s.killDrained q ctx = true) (hreds : s.reds = []) (hcon : ∀ c ∈ s.contracts, ¬(c.q = q ∧ c.ctx = ctx))
    (hrecs : ∀ r ∈ s.recs, ¬(r.q = q ∧ r.ctx.num = ctx)) {d : BitVec 512} (hd : s.descOf q ctx = (d, s)) :
    (s.killEnd q).recalls = [] ∧ ((s.killEnd q).rf (rFLT_STAT q) 0 1 = 0 ∧ (s.killEnd q).rf (rFLT_STAT q) 1 3 = 0
        ∧ (s.killEnd q).rf (rFLT_STAT q) 4 1 = 1)
      ∧ SMap.get none (s.killEnd q).killing q = none
      ∧ ((s.killEnd q).ctxRun q ctx).gen = (s.ctxRun q ctx).gen + 1 ∧ ((s.killEnd q).ctxRun q ctx).closed = false
      ∧ (∀ i ∈ (s.killEnd q).images, ¬(i.wg.ctx.q = q ∧ i.wg.ctx.num = ctx))
      ∧ (∀ p ∈ (s.killEnd q).parks, ¬(p.q = q ∧ p.ctx = ctx)) ∧ ∀ r ∈ (s.killEnd q).reqs, ¬(r.q = q ∧ r.ctx = ctx) := by
  obtain ⟨hgo, himg, hparks, hreqs⟩ :=
    (s.setCtxRun { s.ctxRun q ctx with gen := (s.ctxRun q ctx).gen + 1, closed := false }).killImages_spec q ctx
  generalize hu : (s.setCtxRun { s.ctxRun q ctx with gen := (s.ctxRun q ctx).gen + 1, closed := false }).killImages q ctx = u
    at hgo himg hparks hreqs
  have hcon' : (u.contracts.filter fun c => c.q = q && c.ctx = ctx) = [] := by
    rw [List.filter_eq_nil_iff]
    intro c hc hm
    have hmem : (c.q, c.ctx) ∈ s.contracts.map fun c => (c.q, c.ctx) := by
      have := List.mem_map_of_mem (f := fun c : Contract => (c.q, c.ctx)) hc
      rw [hgo.contracts] at this
      exact this
    obtain ⟨x, hx, he⟩ := List.mem_map.1 hmem
    obtain ⟨h1, h2⟩ := Prod.mk.inj he
    simp only [Bool.and_eq_true, decide_eq_true_eq] at hm
    exact hcon x hx ⟨h1.trans hm.1, h2.trans hm.2⟩
  have hrecs' : (u.recs.filter fun r => r.q = q && r.ctx.num = ctx) = [] := by
    rw [List.filter_eq_nil_iff]
    intro r hr hm
    have hmem : (r.q, r.ctx.num) ∈ s.recs.map fun r => (r.q, r.ctx.num) := by
      have := List.mem_map_of_mem (f := fun r : Rec => (r.q, r.ctx.num)) hr
      rw [hgo.recs] at this
      exact this
    obtain ⟨x, hx, he⟩ := List.mem_map.1 hmem
    obtain ⟨h1, h2⟩ := Prod.mk.inj he
    simp only [Bool.and_eq_true, decide_eq_true_eq] at hm
    exact hrecs x hx ⟨h1.trans hm.1, h2.trans hm.2⟩
  have hend : s.killEnd q = State.fltEnd { u with
      recs := u.recs.filter (fun r => !(r.q = q && r.ctx.num = ctx && r.primary ≠ 0)), killing := SMap.put none u.killing q none } q 0 := by
    rw [State.killEnd, hkill]
    simp only [hdrained, hd, hreds, List.filter_nil, State.redsReady, List.foldl_nil, Bool.not_true, Bool.false_eq_true, if_false,
      hu, hcon', hrecs']
  rw [hend]
  obtain ⟨hq, hn⟩ := s.ctxRun_key q ctx
  have hrun : u.ctxRun q ctx = { s.ctxRun q ctx with gen := (s.ctxRun q ctx).gen + 1, closed := false } :=
    (State.ctxRun_congr hgo.ctxRuns q ctx).trans (s.ctxRun_setCtxRun _ hq hn)
  refine ⟨(hgo.calm hcalm).1, State.fltEnd_stat _ q (by decide), SMap.get_put_self none u.killing q none, ?_, ?_, himg, hparks, hreqs⟩
  · exact congrArg CtxRun.gen hrun
  · exact congrArg CtxRun.closed hrun

/-- Settles O45. -/
theorem serviceCommands : Obligations.ServiceCommands := by
  intro s q sec hl
  refine ⟨fun hs hsec c f op i hi => ?_, fun hs => ⟨fun hb c f op i hi => ?_, fun hb => ⟨fun op hop => ?_,
    fun ctx d hd hv hn hw => ⟨fun f hf => ?_, fun f p w hf hwg he i hi => ?_, fun f p hf himg hfate => ?_, ?_⟩⟩,
    fun ctx hrec hkill => ⟨fun hex => ?_, fun hno hcop hreq hreds hcon hrecs hlines d hd => ?_⟩⟩⟩
  · subst hsec
    simp only [List.mem_cons, List.not_mem_nil, or_false] at hi
    rcases hi with rfl | rfl | rfl | rfl
    · exact congrArg Host.Outcome.next (State.fltCommand_violation hl hs 1 c f)
    · exact congrArg Host.Outcome.next (State.fltCommand_violation hl hs 2 c f)
    · exact congrArg Host.Outcome.next (State.fltCommand_violation hl hs 3 c 0)
    · exact congrArg Host.Outcome.next (State.fltCommand_violation hl hs op.toNat 0 0)
  · simp only [List.mem_cons, List.not_mem_nil, or_false] at hi
    rcases hi with rfl | rfl | rfl | rfl
    · exact congrArg Host.Outcome.next (State.fltCommand_busy hl hs hb 1 c f)
    · exact congrArg Host.Outcome.next (State.fltCommand_busy hl hs hb 2 c f)
    · exact congrArg Host.Outcome.next (State.fltCommand_busy hl hs hb 3 c 0)
    · exact congrArg Host.Outcome.next (State.fltCommand_busy hl hs hb op.toNat 0 0)
  · have hop' : op.toNat = 0 ∨ 3 < op.toNat := hop.imp_left fun h => by rw [h]; rfl
    exact ⟨_, congrArg Host.Outcome.next (State.fltCommand_badOp hl hs hb hop' 0 0), State.fltEnd_stat _ q (by decide)⟩
  · have h1 := State.fltCommand_run hl hs hb hd hv hn hw (op := 1) (by decide) (by decide) f
    have h2 := State.fltCommand_run hl hs hb hd hv hn hw (op := 2) (by decide) (by decide) f
    rw [if_neg (by decide), hf] at h1 h2
    exact ⟨⟨_, congrArg Host.Outcome.next h1, State.fltEnd_stat _ q (by decide)⟩,
      ⟨_, congrArg Host.Outcome.next h2, State.fltEnd_stat _ q (by decide)⟩⟩
  · have h (op : Nat) (h1 : 1 ≤ op) (h2 : op ≤ 2) : s.fltCommand q op ctx f sec =
        State.fltEnd { s with parks := s.parks.filter (fun x => x.id ≠ p.id), reqs := s.reqs.filter fun r => !p.owns r } q 0 := by
      rw [State.fltCommand_run hl hs hb hd hv hn hw h1 (by omega) f, if_neg (by omega), hf, Option.elim_some,
        State.endPark_ending hwg he]
    simp only [List.mem_cons, List.not_mem_nil, or_false] at hi
    rcases hi with rfl | rfl
    · exact ⟨_, congrArg Host.Outcome.next (h 1 (by decide) (by decide)), State.fltEnd_stat _ q (by decide), rfl, rfl⟩
    · exact ⟨_, congrArg Host.Outcome.next (h 2 (by decide) (by decide)), State.fltEnd_stat _ q (by decide), rfl, rfl⟩
  · have h1 := State.fltCommand_run hl hs hb hd hv hn hw (op := 1) (by decide) (by decide) f
    have h2 := State.fltCommand_run hl hs hb hd hv hn hw (op := 2) (by decide) (by decide) f
    rw [if_neg (by decide), hf, Option.elim_some, State.endPark_here himg hfate] at h1 h2
    refine ⟨⟨_, congrArg Host.Outcome.next h1, State.fltEnd_stat _ q (by decide), s.resumePark_spec p⟩,
      fun v w l hwg hwave hlanes hlen h64 hpark hact hvec => ?_⟩
    obtain ⟨hparks, u, hu, hthr⟩ := State.deliverPark_spec hwg hwave hlanes hlen h64 hpark hact hvec
    refine ⟨_, u, congrArg Host.Outcome.next h2, State.fltEnd_stat _ q (by decide), hu, ?_⟩
    rw [hthr]
    exact ⟨rfl, rfl, rfl, rfl, rfl, rfl, hparks⟩
  · have h3 := State.fltCommand_run hl hs hb hd hv hn hw (op := 3) (by decide) (by decide) 0
    rw [if_pos rfl] at h3
    exact ⟨_, congrArg Host.Outcome.next h3, State.killStart_spec _ q ctx⟩
  · have hany : (s.wgs.any fun w => decide (w.ctx.q = q) && decide (w.ctx.num = ctx)) = true := by simpa using hex
    have hend : s.killEnd q = s := by
      rw [State.killEnd, hkill]
      exact if_pos (by simp [State.killDrained, hany])
    exact congrArg Host.Outcome.next ((State.transact_of hrec (by rw [hend]; exact hrec)).trans hend)
  · have hdrained : s.killDrained q ctx = true := by
      simp only [State.killDrained, Bool.not_eq_true', Bool.or_eq_false_iff, List.any_eq_false, Bool.and_eq_true, decide_eq_true_eq]
      refine ⟨⟨hno, fun c hm h => ?_⟩, fun r hm h => ?_⟩
      · rw [hcop c hm h.1.1 h.1.2] at h
        exact absurd h.2 (by decide)
      · rw [hreq r hm h.1.1 h.1.2] at h
        exact absurd h.2 (by decide)
    obtain ⟨hr, hrest⟩ := State.killEnd_spec hkill ⟨hrec, hlines⟩ hdrained hreds hcon hrecs hd
    exact ⟨_, congrArg Host.Outcome.next (State.transact_of hrec hr), hrest⟩

end Sys2Proof.Machine
end

section
/-! PROOFS. Requests at their home lodes and faults that return (O35): the statement fails for a park whose workgroup is being
saved. -/
namespace Sys2Proof.Machine

/-- PARKED_REPORT_RETRY leaves the park of a workgroup that is saved, being saved or ending as it stands. -/
theorem State.retryReport_of_not_live {s : State} {id : Nat} {p : Park} (hp : (s.parks.find? fun x => x.id = id) = some p)
    (hw : ∀ w, s.wg? p.wg = some w → w.fate ≠ .live) : s.retryReport id = s := by
  have hlive : (s.wg? p.wg).any (fun w => w.fate = .live) = false := by
    rw [Option.any_eq_false_iff_get]
    exact fun h => decide_eq_false (hw _ (Option.some_get h).symm)
  rw [State.retryReport, hp]
  exact if_pos (by simp [hlive])

/-- Lane 0 of workgroup 1 has parked for a page that is not present; the park has no fault id and no report yet. -/
def unreportedPark : Park :=
  { id := 2, ctx := 0, q := 0, wg := 1, wave := 0, lanes := 1, cause := .notPresent, tinfo := 0, fault := none, reported := false,
    issued := some ⟨0, 0, true⟩ }

/-- Workgroup 1, of one wave whose lane 0 is parked, while it is being saved (R349). -/
def savingWorkgroup : Workgroup :=
  { id := 1, recId := 0, ref := 0, wg := 0, prio := 0, threads := 1, parts := [{ core := 0 }], rods := List.replicate 16 {},
    ctx := { num := 0, q := 0, world := false, system := false, asid := 1, layout := 0, save := 0, trapVec := 0, queues := 0,
             prioMax := 0 }
    waves := [{ role := .vector, part := 0, slot := 0, n := 8, threads := [{ pc := ⟨0, 0, true⟩, status := .parked }] }]
    fate := .saving }

/-- Every fault id of the context is free. -/
def savingState : State := { nextId := 3, wgs := [savingWorkgroup], parks := [unreportedPark] }

theorem savingState_faultId : savingState.faultId 0 0 = some 0 := by decide +kernel

theorem exec_retry_savingState : exec (.parkedReportRetry 2) savingState = .next savingState := by
  have hw : ∀ w, savingState.wg? 1 = some w → w.fate ≠ .live := by
    intro w h
    cases h
    decide
  exact congrArg Host.Outcome.next (State.retryReport_of_not_live (p := unreportedPark) rfl hw)

/-- Refutes O35: PARKED_REPORT_RETRY gives the park of a workgroup that is being saved no fault id, though one is free, where
the statement has every park without one get the lowest; its hypotheses do not ask for a live workgroup. -/
theorem not_lodeRequests : ¬ Obligations.LodeRequests := by
  intro h
  obtain ⟨-, hfaults⟩ := h
  obtain ⟨-, hretry⟩ := hfaults savingState
  obtain ⟨t, x, ht, hx, -, hfault, -⟩ := hretry unreportedPark 0 rfl rfl rfl savingState_faultId
  rw [show unreportedPark.id = 2 from rfl, exec_retry_savingState] at ht
  cases ht
  rw [List.mem_singleton.1 (show x ∈ [unreportedPark] from hx)] at hfault
  exact absurd hfault (by decide)

end Sys2Proof.Machine
end

section
/-! PROOFS. Line fills, the completions of requests to host and peer memory, and walks (O36). -/
namespace Sys2Proof.Machine

/-- A step of an engine that ends in a state without host halves to recall. -/
theorem State.transact_eq {s t : State} {body wait : State → State} (hs : s.recalls = []) (hb : body s = t) (ht : t.recalls = []) :
    s.transact body wait = t :=
  (State.transact_of hs (by rw [hb, ht])).trans hb

/-! Bytes of device memory beside a new line of a lode. -/

/-- The line stands for a physical line of device memory, reachable or detached. -/
def LLine.standsFor (l : LLine) (f off : Nat) : Bool := l.frame = f && l.off = off && !l.loc && !l.so && !l.shadow

theorem State.standsFor_of_holder {s : State} {f off : Nat} {l : LLine} (h : s.holder f off = some l) : l.standsFor f off = true := by
  rw [State.holder] at h
  split at h
  · next x hx =>
    cases h
    have hp := List.find?_some hx
    exact (Bool.and_eq_true_iff.1 hp).1
  · have hp := List.find?_some h
    exact hp

theorem State.not_standsFor_of_holder_none {s : State} {f off : Nat} (h : s.holder f off = none) :
    ∀ l ∈ s.lines, ¬l.standsFor f off = true := by
  rw [State.holder] at h
  split at h
  · cases h
  · exact List.find?_eq_none.1 h

theorem State.holder_append_other {s t : State} {y : LLine} (hl : t.lines = s.lines ++ [y]) {f off : Nat}
    (hy : ¬(y.frame = f ∧ y.off = off)) : t.holder f off = s.holder f off := by
  have hhere : (decide (y.frame = f) && decide (y.off = off)) = false := by simpa using hy
  simp only [State.holder, hl, List.find?_append, List.find?_singleton, hhere, Bool.false_and, Bool.false_eq_true, if_false,
    Option.or_none]

theorem State.holder_append_self {s t : State} {y : LLine} (hl : t.lines = s.lines ++ [y]) {f off : Nat}
    (hno : s.holder f off = none) {x : LLine} (hx : t.holder f off = some x) : x = y := by
  have hmem : x ∈ s.lines ++ [y] := hl ▸ State.mem_of_holder hx
  rcases List.mem_append.1 hmem with h | h
  · exact absurd (State.standsFor_of_holder hx) (State.not_standsFor_of_holder_none hno x h)
  · exact List.mem_singleton.1 h

/-- A lode's new line of what its frame stores changes no byte of device memory. -/
theorem State.byte_append {s t : State} {y : LLine} (hl : t.lines = s.lines ++ [y]) (hm : t.mem = s.mem)
    (hno : s.holder y.frame y.off = none) (hdata : y.data = s.storedLine y.frame y.off) (pa : Nat) :
    t.byte pa = s.byte pa := by
  suffices hline : ∀ f off, t.line f off = s.line f off from congrArg (lineByte · (pa % 128)) (hline _ _)
  intro f off
  have hstored : t.storedLine f off = s.storedLine f off := by simp only [State.storedLine, hm]
  by_cases hy : y.frame = f ∧ y.off = off
  · obtain ⟨rfl, rfl⟩ := hy
    simp only [State.line, hno]
    split
    · next x hx => rw [State.holder_append_self hl hno hx, hdata]
    · exact hstored
  · simp only [State.line, State.holder_append_other hl hy, hstored]

/-! Fills from device memory (R22). -/

theorem State.addLine_eq (s : State) (l : LLine) :
    s.addLine l = ({ l with id := s.nextId, transit := l.transit || s.busesLost l.lode, banks := s.lineBanks l },
      { s with nextId := s.nextId + 1, lines := s.lines ++
        [{ l with id := s.nextId, transit := l.transit || s.busesLost l.lode, banks := s.lineBanks l }] }) := rfl

/-- A line that no lode holds enters its home from its frame. -/
theorem State.fillDevice_absent {s : State} {lode : Nat} {a : Acc1} {l : Leaf}
    (hno : s.holder (l.frameOf a.va) (lineOff a.va) = none) (hopen : s.storeShut lode (l.frameOf a.va) = false) :
    ∃ y, s.fillDevice lode a l = (.ok y, { s with nextId := s.nextId + 1, lines := s.lines ++ [y] }) ∧ y.lode = lode
      ∧ y.asid = some a.asid ∧ y.line = a.va / 128 ∧ y.frame = l.frameOf a.va ∧ y.off = lineOff a.va
      ∧ y.data = s.storedLine (l.frameOf a.va) (lineOff a.va) ∧ y.dirty = false := by
  simp only [State.fillDevice, hno, hopen, Bool.false_eq_true, if_false, State.addLine_eq]
  exact ⟨_, rfl, rfl, rfl, rfl, rfl, rfl, rfl, rfl⟩

/-- The state in which a fill has left the list of those in progress. -/
def State.withoutFill (s : State) (id : Nat) : State := { s with fills := s.fills.filter fun x => x.id ≠ id }

/-- The access by which a fill from device memory takes its line at its home. -/
def State.fillAcc (s : State) (f : Fill) : Acc1 :=
  { q := s.leadOfLode f.lode, asid := f.asid, va := 128 * f.line, leaf := f.leaf, hint := f.lvl }

theorem lineFillReturn_spec {s : State} {f : Fill} (hrec : s.recalls = [])
    (hf : (s.fills.find? fun x => x.id = f.id && !x.ext) = some f) (hgrant : f.grant = false)
    (hopen : (s.withoutFill f.id).storeShut f.lode (f.leaf.frameOf (128 * f.line)) = false)
    (hlive : (s.withoutFill f.id).fillLive f = true) (hat : (s.withoutFill f.id).lineAt f.lode f.asid f.line = none)
    (hno : (s.withoutFill f.id).holder (f.leaf.frameOf (128 * f.line)) (lineOff (128 * f.line)) = none) :
    ∃ t y, exec (.lineFillReturn f.id) s = .next t ∧ t.fills = (s.withoutFill f.id).fills ∧ t.lines = s.lines ++ [y]
      ∧ t.mem = s.mem ∧ y.lode = f.lode ∧ y.asid = some f.asid ∧ y.line = f.line
      ∧ y.frame = f.leaf.frameOf (128 * f.line) ∧ y.off = lineOff (128 * f.line)
      ∧ y.data = s.storedLine (f.leaf.frameOf (128 * f.line)) (lineOff (128 * f.line)) ∧ y.dirty = false := by
  obtain ⟨y, hfill, hlode, hasid, hline, hframe, hoff, hdata, hdirty⟩ :=
    State.fillDevice_absent (a := (s.withoutFill f.id).fillAcc f) hno hopen
  refine ⟨{ s.withoutFill f.id with nextId := s.nextId + 1, lines := s.lines ++ [y] }, y, congrArg Host.Outcome.next ?_, rfl, rfl,
    rfl, hlode, hasid, hline.trans (Nat.mul_div_cancel_left f.line (by decide)), hframe, hoff, hdata, hdirty⟩
  rw [hf]
  refine State.transact_eq hrec ?_ hrec
  refine (if_neg (by simp [hgrant])).trans ((if_neg ?_).trans ?_)
  · change ¬(!(s.withoutFill f.id).fillLive f || ((s.withoutFill f.id).lineAt f.lode f.asid f.line).isSome) = true
    simp [hlive, hat]
  · change (match (s.withoutFill f.id).fillDevice f.lode ((s.withoutFill f.id).fillAcc f) f.leaf with
      | (.wait, s1) => _
      | (_, s1) => s1) = _
    rw [hfill]
    rfl

/-! Completions from the host and from peers (R66, R68, R369, R373, R374). -/

/-- CXL_REQUEST_COMPLETION ends a request to the host, NORHA_RESPONSE one to a peer. -/
theorem exec_extDone {s : State} {peer : Bool} {id : Nat} {i : Option (List Byte) → Instr}
    (hi : (peer = false ∧ i = fun d => Instr.cxlRequestCompletion id d) ∨ (peer = true ∧ i = fun d => Instr.norhaResponse id d))
    (d : Option (List Byte)) : exec (i d) s = .next (s.extDone id peer d) := by
  rcases hi with ⟨rfl, rfl⟩ | ⟨rfl, rfl⟩
  · rfl
  · rfl

theorem State.extDone_fill {s : State} {id : Nat} {peer : Bool} {f : Fill}
    (hf : (s.fills.find? fun x => x.id = id && x.ext && x.peer = peer) = some f) (d : Option (List Byte)) :
    s.extDone id peer d = s.extFill f d := by
  rw [State.extDone, hf]

/-- The first completion of a line of host memory brings its lower 64 B (log 53). -/
theorem State.extFill_first {s : State} {f : Fill} (hpeer : f.peer = false) (hfirst : f.first = none) (b : List Byte) :
    s.extFill f (some b) = { s with fills := s.fills.map fun x =>
      if x.id = f.id then { x with first := some ((b.take 64).rightpad 64 0) } else x } := by
  simp [State.extFill, hpeer, hfirst]

theorem State.extFill_line {s : State} {f : Fill} (hlast : f.peer = true ∨ f.first.isSome = true)
    (hlive : State.fillLive { s with fills := s.fills.filter fun x => x.id ≠ f.id } f = true)
    (hat : s.lineAt f.lode f.asid f.line = none) (b : List Byte) :
    ∃ y, s.extFill f (some b) = { s with
        fills := s.fills.filter (fun x => x.id ≠ f.id), nextId := s.nextId + 1, lines := s.lines ++ [y] }
      ∧ y.lode = f.lode ∧ y.asid = some f.asid ∧ y.line = f.line ∧ y.loc = true
      ∧ y.data = lineOf 0 (f.first.getD [] ++ b) := by
  have hat' : State.lineAt { s with fills := s.fills.filter fun x => x.id ≠ f.id } f.lode f.asid f.line = none := hat
  have hfirst : (!f.peer && f.first.isNone) = false := by
    rcases hlast with h | h
    · simp [h]
    · simp [Option.isNone_eq_false_iff.2 h]
  simp only [State.extFill, hfirst, hlive, hat', Bool.false_eq_true, if_false, Bool.not_true, Option.isSome_none, Bool.or_self,
    State.addLine_eq]
  exact ⟨_, rfl, rfl, rfl, rfl, rfl, rfl⟩

theorem State.extFill_fails {s : State} {f : Fill} {spared : Req → Bool}
    (hspared : ∀ r, spared r = true ↔ (s.fencedFrame (f.leaf.frameOf (128 * f.line))).isSome = true ∧ ∃ m d, r.what = .store m d) :
    s.extFill f none = { s with
      fills := s.fills.filter fun x => x.id ≠ f.id
      reqs := s.reqs.map (fun r => if r.asid ≠ f.asid || spared r then r else r.faultAt (fun v _ => v / 128 = f.line) .hostErr)
      hostFails := s.hostFails ++ f.engs.map fun n => (n, f.lode, f.asid, f.line) } := by
  obtain rfl : spared = fun r => (s.fencedFrame (f.leaf.frameOf (128 * f.line))).isSome && match r.what with
      | .store _ _ => true
      | _ => false := by
    funext r
    rw [Bool.eq_iff_iff, hspared, Bool.and_eq_true]
    cases r.what <;> simp
  rfl

/-- A write that travelled to host or peer memory ends, one of both 64 B lines of host memory at its second completion. -/
theorem State.extDone_write {s : State} {id : Nat} {peer : Bool} {w : ExtWrite}
    (hf : (s.fills.find? fun x => x.id = id && x.ext && x.peer = peer) = none)
    (hw : (s.extWrites.find? fun x => x.id = id && x.peer = peer) = some w) (b : List Byte) :
    s.extDone id peer (some b) =
      if !peer && !w.sent && (touchesHalf w.mask false && touchesHalf w.mask true) then
        { s with extWrites := s.extWrites.map fun x => if x.id = id then { x with sent := true } else x }
      else { s with extWrites := s.extWrites.filter fun x => x.id ≠ id } := by
  rw [State.extDone, hf, hw]
  simp only [Option.isSome_some, Bool.true_and, Bool.and_assoc, Option.isNone_some, Bool.false_and, Bool.false_eq_true, if_false,
    List.map_id']

/-! Walks and installs (R60, R380). -/

theorem State.shutAt_recalls (s : State) (p : PortDrop) : (s.shutAt p).recalls = s.recalls := by
  rw [State.shutAt]
  split
  · rfl
  · rfl

theorem State.faultPage_recalls (s : State) (lode : Nat) (asid : BitVec 16) (va : Nat) (c : Cause) :
    (s.faultPage lode asid va c).recalls = s.recalls := rfl

theorem exec_pageWalkComplete {s t : State} {w : Walk} (hrec : s.recalls = [])
    (hw : (s.walks.find? fun x => x.id = w.id) = some w) (hdone : s.walkDone w = t) (ht : t.recalls = []) :
    exec (.pageWalkComplete w.id) s = .next t := by
  refine congrArg Host.Outcome.next ?_
  rw [hw]
  exact State.transact_eq hrec hdone ht

theorem exec_deferredInstall {s s1 : State} {w : Deferred} (hrec : s.recalls = [])
    (hw : (s.deferred.find? fun x => x.id = w.id) = some w)
    (hins : s.install (s.leadOfLode w.lode) w.lode w.asid w.va w.leaf w.path = (.ok, s1)) (hrec1 : s1.recalls = []) :
    exec (.deferredInstall w.id) s = .next { s1 with deferred := s1.deferred.filter fun x => x.id ≠ w.id } := by
  refine congrArg Host.Outcome.next ?_
  rw [hw]
  refine State.transact_eq hrec ?_ hrec1
  simp only [hins]

/-- Settles O36. -/
theorem fillsAndWalks : Obligations.FillsAndWalks := by
  intro s
  refine ⟨fun f hrec hf hgrant hopen hlive hat hno => ?_,
    fun peer id i hi => ⟨fun f hf => ⟨fun b hpeer hfirst => ?_, fun b hlast hlive hat => ?_, fun spared hspared => ?_⟩,
      fun w b hf hw => ⟨fun hone => ?_, fun hpeer hsent hboth => ?_⟩⟩,
    fun w hrec hw => ⟨fun p hshut => ?_, fun l s1 hshut hres hins hrec1 => ?_, fun c hshut hres hrec1 => ?_⟩,
    fun w s1 hrec hw hins hrec1 => exec_deferredInstall hrec hw hins hrec1⟩
  · obtain ⟨t, y, hx, hfills, hlines, hmem, hlode, hasid, hline, hframe, hoff, hdata, hdirty⟩ :=
      lineFillReturn_spec hrec hf hgrant hopen hlive hat hno
    refine ⟨t, y, hx, hfills, hlines, hlode, hasid, hline, hdata, hdirty, fun pa => ?_⟩
    rw [← hframe, ← hoff] at hno hdata
    exact State.byte_append hlines hmem hno hdata pa
  · rw [exec_extDone hi, State.extDone_fill hf, State.extFill_first hpeer hfirst]
  · obtain ⟨y, hx, hlode, hasid, hline, hloc, hdata⟩ := State.extFill_line hlast hlive hat b
    rw [exec_extDone hi, State.extDone_fill hf, hx]
    exact ⟨_, y, rfl, rfl, rfl, hlode, hasid, hline, hloc, hdata, rfl⟩
  · rw [exec_extDone hi, State.extDone_fill hf, State.extFill_fails hspared]
  · rw [exec_extDone hi, State.extDone_write hf hw, if_neg]
    rcases hone with h | h | h
    · simp [h]
    · simp [h]
    · simp [h]
  · rw [exec_extDone hi, State.extDone_write hf hw, if_pos]
    simp [hpeer, hsent, hboth]
  · exact exec_pageWalkComplete hrec hw (by simp only [State.walkDone, hshut]) ((s.shutAt_recalls p).trans hrec)
  · exact exec_pageWalkComplete hrec hw (by simp only [State.walkDone, hshut, hres, hins]) hrec1
  · exact exec_pageWalkComplete hrec hw (by simp only [State.walkDone, hshut, hres]) ((State.faultPage_recalls ..).trans hrec1)

end Sys2Proof.Machine
end

section
/-! PROOFS. Leases and holds (O48): the host's answers to back-invalidations, late ones among them, leases that run out, and holds that
end after a millisecond. -/
namespace Sys2Proof.Machine

/-! Counters and events of the register window. -/

theorem State.rf_incSat_self (s : State) (o : Nat) {lo n : Nat} (h : lo + n ≤ 64) :
    (s.incSat o lo n).rf o lo n = min (2 ^ n - 1) (s.rf o lo n + 1) := by
  have hlt : s.rf o lo n < 2 ^ n := wfld_lt ..
  rw [State.incSat]
  split
  · next hinc => rw [State.rf_setRf_self _ _ _ h, Nat.mod_eq_of_lt hinc]; omega
  · omega

theorem State.rf_incSat_field (s : State) (o : Nat) {lo n a m : Nat} (h : a + m ≤ lo ∨ lo + n ≤ a) :
    (s.incSat o lo n).rf o a m = s.rf o a m := by
  rw [State.incSat]
  split
  · exact State.rf_setRf_field _ _ _ h
  · rfl

@[simp] theorem State.incSat_lines (s : State) (o lo n : Nat) : (s.incSat o lo n).lines = s.lines := by
  rw [State.incSat]; split <;> rfl

@[simp] theorem State.incSat_backInvs (s : State) (o lo n : Nat) : (s.incSat o lo n).backInvs = s.backInvs := by
  rw [State.incSat]; split <;> rfl

@[simp] theorem State.incSat_hostDone (s : State) (o lo n : Nat) : (s.incSat o lo n).hostDone = s.hostDone := by
  rw [State.incSat]; split <;> rfl

/-- An event of the Tumbler changes registers and vectors alone. -/
theorem State.tmbEvent_eq (s : State) (b q : Nat) : ∃ c m, s.tmbEvent b q = { s with csr := c, msix := m } := by
  rw [State.tmbEvent]
  split
  · rw [State.raise]; split <;> exact ⟨_, _, rfl⟩
  · exact ⟨_, _, rfl⟩

theorem State.tmbEvent_keeps {γ : Type} {g : State → γ} (hg : ∀ (t : State) c m, g { t with csr := c, msix := m } = g t)
    (s : State) (b q : Nat) : g (s.tmbEvent b q) = g s := by
  obtain ⟨c, m, h⟩ := s.tmbEvent_eq b q
  rw [h, hg]

theorem State.tmbEvent_setReg_eq (s : State) (o : Nat) (v : Word) (b q : Nat) :
    ∃ c m, (s.setReg o v).tmbEvent b q = { s with csr := c, msix := m } := by
  obtain ⟨c, m, h⟩ := (s.setReg o v).tmbEvent_eq b q
  exact ⟨c, m, h⟩

theorem State.rf_tmbEvent_other (s : State) (b q : Nat) {o : Nat} (h : o ≠ rTMB_INT_STAT) (lo n : Nat) :
    (s.tmbEvent b q).rf o lo n = s.rf o lo n := by
  rw [State.tmbEvent]
  split
  · rw [State.rf_raise, State.rf_setRf_other _ _ _ _ _ _ h]
  · exact State.rf_setRf_other _ _ _ _ _ _ h

/-! What a walk leaves as it was. -/

/-- A state without what reading at the lodes moves: which lodes sleep, the ages of their key-value entries, the recalls found, and
the contracts' notes of what a walk finds. -/
def State.readless (s : State) : State := { s with kv := [], lodeX := [], recalls := [], contracts := [] }

theorem State.readless_wakeLode (s : State) (n : Nat) : (s.wakeLode n).readless = s.readless := by
  rw [State.wakeLode]; split <;> rfl

theorem State.readless_touch (s : State) (l : LLine) (mask : Line) (write : Bool) :
    (s.touch l mask write).readless = s.readless := by
  rw [State.touch_recalls]; rfl

theorem State.readless_physLine (s : State) (f off : Nat) (mask : Line) : (s.physLine f off mask).2.2.readless = s.readless := by
  rw [State.physLine]
  split
  · exact (State.readless_touch _ _ _ _).trans (s.readless_wakeLode _)
  · exact s.readless_wakeLode _

theorem State.readless_readPhysN (s : State) (pa n : Nat) : (s.readPhysN pa n).2.readless = s.readless := by
  show (s.readPhys pa n).2.readless = _
  rw [State.readPhys]
  exact foldl_keeps (fun x : List Byte × State => x.2.readless) (fun b _ => b.2.readless_physLine _ _ _) _ _

theorem State.readless_walkLevels (s : State) (va : Nat) (path : List Nat) (table : Nat) (l : List Nat) :
    (s.walkLevels va path table l).st.readless = s.readless := by
  induction l generalizing s path table with
  | nil => rfl
  | cons lv rest ih =>
    have h := s.readless_readPhysN (table + 8 * fld va (levelBits lv).1 (levelBits lv).2) 8
    rw [State.walkLevels]
    dsimp only
    split
    · exact h
    · split
      · split
        · exact h
        · split <;> exact h
      · split
        · exact h
        · exact (ih _ _ _).trans h

theorem State.readless_noteHome (s : State) (q : Nat) (asid : BitVec 16) (va : Nat) (l : Leaf) :
    (s.noteHome q asid va l).readless = s.readless := by
  rw [State.noteHome]
  dsimp only
  split <;> rfl

theorem State.readless_walk (s : State) (q : Nat) (asid : BitVec 16) (va : Nat) : (s.walk q asid va).st.readless = s.readless := by
  have h := s.readless_readPhysN (4096 * s.rf (rXLT_ROOT q) 12 40 + 8 * asid.toNat) 8
  rw [State.walk]
  dsimp only
  split
  · exact h
  · split
    · exact h
    · split
      · exact (State.readless_noteHome _ _ _ _ _).trans ((State.readless_walkLevels _ _ _ _ _).trans h)
      · exact (State.readless_walkLevels _ _ _ _ _).trans h

theorem State.readless_mappedLeaf (s : State) (f off : Nat) : (s.mappedLeaf f off).2.readless = s.readless := by
  rw [State.mappedLeaf]
  split
  · rfl
  · dsimp only
    split
    · rfl
    · split
      · rfl
      · exact s.readless_walk _ _ _

@[simp] theorem State.mappedLeaf_lines (s : State) (f off : Nat) : (s.mappedLeaf f off).2.lines = s.lines :=
  (congrArg State.lines (s.readless_mappedLeaf f off) :)

@[simp] theorem State.mappedLeaf_backInvs (s : State) (f off : Nat) : (s.mappedLeaf f off).2.backInvs = s.backInvs :=
  (congrArg State.backInvs (s.readless_mappedLeaf f off) :)

/-! Changing a line. -/

theorem State.mem_of_lineById {s : State} {id : Nat} {l : LLine} (h : s.lineById id = some l) : l ∈ s.lines ∧ l.id = id :=
  ⟨List.mem_of_find?_eq_some h, by simpa using List.find?_some h⟩

theorem State.mem_modLine {s : State} {l : LLine} (h : l ∈ s.lines) (f : LLine → LLine) : f l ∈ (s.modLine l.id f).lines :=
  List.mem_map.2 ⟨l, h, if_pos rfl⟩

/-- A line with the bytes of a write merged into it (R358). -/
def LLine.merged (l : LLine) (mask d : Line) (req : Option (BitVec 4)) (host : Bool) : LLine :=
  { l with data := lineMerge l.data mask d, dirty := true, dmask := l.dmask ||| mask,
           fmtReq := if l.dirty then l.fmtReq else req, hostDirty := host,
           stuckHost := if l.stuck.isSome then l.stuckHost else host,
           poison := l.poison && !(mask = BitVec.allOnes 1024) }

theorem State.startInval_eq (s : State) (line : Nat) (ws : List (Nat × Nat × Nat)) (host : Bool) :
    s.startInval line ws host =
      { s with nextId := (s.startInval line ws host).nextId, invals := (s.startInval line ws host).invals } := by
  rw [State.startInval]
  dsimp only
  split <;> rfl

/-- A merge into a line changes it, and may start the shoot-down of a page-table line. -/
theorem State.mergeLine_eq {s : State} {id : Nat} {l : LLine} (h : s.lineById id = some l) (mask d : Line) (req : Option (BitVec 4))
    (ws : List (Nat × Nat × Nat)) (host : Bool) :
    ∃ n i, s.mergeLine id mask d req ws host =
      { s.modLine id fun x => x.merged mask d req host with nextId := n, invals := i } := by
  rw [State.mergeLine, h]
  dsimp only
  split
  · exact ⟨_, _, rfl⟩
  · rw [State.startInval_eq]
    exact ⟨_, _, rfl⟩

@[simp] theorem LLine.half_setHalf (l : LLine) (hi : Bool) (h : Half) : (l.setHalf hi h).half hi = h := by cases hi <;> rfl
@[simp] theorem LLine.id_setHalf (l : LLine) (hi : Bool) (h : Half) : (l.setHalf hi h).id = l.id := by cases hi <;> rfl
@[simp] theorem LLine.data_setHalf (l : LLine) (hi : Bool) (h : Half) : (l.setHalf hi h).data = l.data := by cases hi <;> rfl
@[simp] theorem LLine.dirty_setHalf (l : LLine) (hi : Bool) (h : Half) : (l.setHalf hi h).dirty = l.dirty := by cases hi <;> rfl

/-! Answers to back-invalidations (R311, R312, R361). -/

/-- The back-invalidation is answered, and no longer listed. -/
def State.answered (s : State) (b : BackInv) : State := { s with backInvs := s.backInvs.filter fun x => x.id ≠ b.id }

/-- What a half becomes when its back-invalidation is answered. -/
def BackInv.leaves (b : BackInv) (x : LLine) : LLine := x.setHalf b.hi (if b.toS && x.half b.hi ≠ .i then .s else .i)

/-- An answer in time that brings no data the lode takes: the half comes back. -/
theorem State.backAnswer_plain {s : State} {b : BackInv} {l : LLine} (hb : (s.backInvs.find? fun x => x.id = b.id) = some b)
    (hl : s.lineById b.line = some l) (hin : b.lost = false) {data : Option (List Byte)}
    (hdata : data = none ∨ b.discard = true) :
    s.backAnswer b.id data = ((s.answered b).modLine l.id b.leaves).endTransit l.id := by
  rw [State.lineById] at hl
  cases data with
  | none =>
    simp only [State.backAnswer, hb, hin, State.lineById, hl, Bool.false_eq_true, if_false]
    rfl
  | some d =>
    simp only [State.backAnswer, hb, hin, State.lineById, hl, hdata.resolve_left (by simp), Bool.not_true, Bool.and_false,
      Bool.false_eq_true, if_false]
    rfl

/-- The state in which the half's data has been merged into its line, as the host's latest value of it. -/
def State.broughtBack (s : State) (b : BackInv) (l : LLine) (d : List Byte) : State :=
  ((s.mappedLeaf l.frame l.off).2.mergeLine l.id (halfMask b.hi) (lineOf (if b.hi then 64 else 0) (d.take 64))
    ((s.mappedLeaf l.frame l.off).1.bind Leaf.request) [] true).modLine l.id fun x => x.noteBack (halfMask b.hi)

/-- An answer in time that brings the data of a half which the host held exclusively. -/
theorem State.backAnswer_data {s : State} {b : BackInv} {l : LLine} (hb : (s.backInvs.find? fun x => x.id = b.id) = some b)
    (hl : s.lineById b.line = some l) (hin : b.lost = false) (hkeep : b.discard = false) (he : l.half b.hi = .e) (d : List Byte) :
    s.backAnswer b.id (some d) = (((s.answered b).broughtBack b l d).modLine l.id b.leaves).endTransit l.id := by
  rw [State.lineById] at hl
  simp only [State.backAnswer, hb, hin, State.lineById, hl, hkeep, he, Bool.not_false, Bool.and_true, decide_true,
    Bool.false_eq_true, if_false, if_true]
  rfl

/-- The line whose half has come back with its data. -/
theorem State.broughtBack_spec {s : State} {b : BackInv} {l : LLine} (hl : s.lineById b.line = some l) (d : List Byte) :
    (s.broughtBack b l d).backInvs = s.backInvs
      ∧ ∃ x ∈ (s.broughtBack b l d).lines, x.id = l.id ∧ x.half b.hi = l.half b.hi ∧ x.dirty = true
        ∧ x.data = lineMerge l.data (halfMask b.hi) (lineOf (if b.hi then 64 else 0) (d.take 64)) := by
  obtain ⟨hmem, hid⟩ := State.mem_of_lineById hl
  have hl' : (s.mappedLeaf l.frame l.off).2.lineById l.id = some l := by
    rw [State.lineById, State.mappedLeaf_lines, hid]; exact hl
  obtain ⟨n, i, hm⟩ := State.mergeLine_eq hl' (halfMask b.hi) (lineOf (if b.hi then 64 else 0) (d.take 64))
    ((s.mappedLeaf l.frame l.off).1.bind Leaf.request) [] true
  rw [State.broughtBack, hm]
  have hmem' : l ∈ (s.mappedLeaf l.frame l.off).2.lines := by rw [State.mappedLeaf_lines]; exact hmem
  refine ⟨s.mappedLeaf_backInvs _ _, _, State.mem_modLine (State.mem_modLine hmem' fun x => x.merged _ _ _ _) _, rfl, ?_, rfl, rfl⟩
  cases b.hi <;> rfl

/-- An answer that comes after its lease ran out: its data is dropped, answered with poison and counted (R312). -/
theorem State.backAnswer_late {s : State} {b : BackInv} (hb : (s.backInvs.find? fun x => x.id = b.id) = some b)
    (hlate : b.lost = true) (d : List Byte) :
    s.backAnswer b.id (some d) = State.incSat { s.answered b with hostDone := s.hostDone ++ [.poisoned] }
      (rHBR_LOST (s.frameLead (b.pl / 512))) 46 15 := by
  simp only [State.backAnswer, hb, hlate, if_true]
  rfl

/-! Leases (R312, R313). -/

/-- An interrupt, where it is enabled, changes the vectors raised alone. -/
theorem State.raise_ite_eq (s : State) (p : Prop) [Decidable p] (q src : Nat) :
    ∃ m, (if p then s.raise q src else s) = { s with msix := m } := by
  rw [State.raise]
  split
  · split <;> exact ⟨_, rfl⟩
  · exact ⟨_, rfl⟩

/-- HBR_LOST, at `o`, takes the place of a lost lease where it held none. -/
def State.lostFirst (s : State) (o : Nat) (l : LLine) (hi : Bool) : State :=
  ((((s.setRf o 0 36 l.frame).setRf o 36 9 l.off).setRf o 45 1 (if hi then 1 else 0)).setRf o 63 1 1).incSat o 46 15

theorem State.lostFirst_lines (s : State) (o : Nat) (l : LLine) (hi : Bool) : (s.lostFirst o l hi).lines = s.lines := by
  rw [State.lostFirst, State.incSat_lines]; rfl

theorem State.lostFirst_backInvs (s : State) (o : Nat) (l : LLine) (hi : Bool) : (s.lostFirst o l hi).backInvs = s.backInvs := by
  rw [State.lostFirst, State.incSat_backInvs]; rfl

theorem State.lostFirst_fields (s : State) (o : Nat) (l : LLine) (hi : Bool) :
    (s.lostFirst o l hi).rf o 63 1 = 1 ∧ (s.lostFirst o l hi).rf o 46 15 = min 32767 (s.rf o 46 15 + 1)
      ∧ (s.lostFirst o l hi).rf o 0 36 = l.frame % 2 ^ 36 ∧ (s.lostFirst o l hi).rf o 36 9 = l.off % 512
      ∧ (s.lostFirst o l hi).rf o 45 1 = if hi then 1 else 0 := by
  rw [State.lostFirst]
  refine ⟨?_, ?_, ?_, ?_, ?_⟩
  · rw [State.rf_incSat_field _ _ (by decide), State.rf_setRf_self _ _ _ (by decide)]; rfl
  · rw [State.rf_incSat_self _ _ (by decide)]
    simp (disch := decide) only [State.rf_setRf_field]
    rfl
  · simp (disch := decide) only [State.rf_incSat_field, State.rf_setRf_field, State.rf_setRf_self]
  · simp (disch := decide) only [State.rf_incSat_field, State.rf_setRf_field, State.rf_setRf_self]
    rfl
  · simp (disch := decide) only [State.rf_incSat_field, State.rf_setRf_field, State.rf_setRf_self]
    cases hi <;> rfl

/-- It counts a later one, and notes where that one's frame differs. -/
def State.lostLater (s : State) (o : Nat) (l : LLine) : State :=
  (if s.rf o 0 36 = l.frame then s else s.setRf o 61 1 1).incSat o 46 15

theorem State.lostLater_field (s : State) (o : Nat) (l : LLine) {a n : Nat} (h : 62 ≤ a ∨ a + n ≤ 46) :
    (s.lostLater o l).rf o a n = s.rf o a n := by
  rw [State.lostLater, State.rf_incSat_field _ _ (by omega)]
  split
  · rfl
  · exact State.rf_setRf_field _ _ _ (by omega)

theorem State.lostLater_count (s : State) (o : Nat) (l : LLine) :
    (s.lostLater o l).rf o 46 15 = min 32767 (s.rf o 46 15 + 1) := by
  rw [State.lostLater, State.rf_incSat_self _ _ (by decide)]
  split
  · rfl
  · rw [State.rf_setRf_field _ _ _ (by decide)]; rfl

theorem State.logLost_first {s : State} {l : LLine} (h : s.rf (rHBR_LOST (s.leadOfLode l.lode)) 63 1 = 0) (hi : Bool) :
    ∃ m, s.logLost l hi = { s.lostFirst (rHBR_LOST (s.leadOfLode l.lode)) l hi with msix := m } := by
  obtain ⟨m, hm⟩ := State.raise_ite_eq (s.lostFirst (rHBR_LOST (s.leadOfLode l.lode)) l hi)
    ((s.lostFirst (rHBR_LOST (s.leadOfLode l.lode)) l hi).rf (rHBR_CTL (s.leadOfLode l.lode)) 16 1 = 1) (s.leadOfLode l.lode) 4
  refine ⟨m, Eq.trans ?_ hm⟩
  rw [State.logLost, if_pos h]
  rfl

/-- HBR_LOST counts a lost lease, and keeps the place of the first until it is cleared. -/
theorem State.logLost_spec (s : State) (l : LLine) (hi : Bool) :
    let o := rHBR_LOST (s.leadOfLode l.lode)
    (s.logLost l hi).lines = s.lines ∧ (s.logLost l hi).backInvs = s.backInvs ∧ (s.logLost l hi).rf o 63 1 = 1
      ∧ (s.logLost l hi).rf o 46 15 = min 32767 (s.rf o 46 15 + 1)
      ∧ (s.rf o 63 1 = 0 → (s.logLost l hi).rf o 0 36 = l.frame % 2 ^ 36 ∧ (s.logLost l hi).rf o 36 9 = l.off % 512
        ∧ (s.logLost l hi).rf o 45 1 = if hi then 1 else 0) := by
  intro o
  by_cases hfirst : s.rf o 63 1 = 0
  · obtain ⟨m, hlog⟩ := State.logLost_first hfirst hi
    obtain ⟨hset, hcount, hframe, hoff, hhi⟩ := s.lostFirst_fields o l hi
    rw [hlog]
    exact ⟨s.lostFirst_lines o l hi, s.lostFirst_backInvs o l hi, hset, hcount, fun _ => ⟨hframe, hoff, hhi⟩⟩
  · have hset : s.rf o 63 1 = 1 := by
      have : s.rf o 63 1 < 2 ^ 1 := wfld_lt ..
      omega
    have hlog : s.logLost l hi = s.lostLater o l := by rw [State.logLost, if_neg hfirst]; rfl
    rw [hlog]
    refine ⟨?_, ?_, (s.lostLater_field o l (by decide)).trans hset, s.lostLater_count o l, fun h => absurd h hfirst⟩
    · rw [State.lostLater, State.incSat_lines]; split <;> rfl
    · rw [State.lostLater, State.incSat_backInvs]; split <;> rfl

/-- A lease runs out (R312). -/
theorem State.leaseEnds_eq {s : State} {b : BackInv} {l : LLine} (hb : (s.backInvs.find? fun x => x.id = b.id && !x.lost) = some b)
    (hl : s.lineById b.line = some l) (he : l.half b.hi = .e)
    (hdue : s.usAfter b.since (min 1000 (max 1 (s.rf (rHBR_CTL (s.leadOfLode l.lode)) 0 10))) ≤ s.clk) :
    s.leaseEnds b.id = State.logLost { s.modLine l.id (fun x => s.lostHalf x b.hi) with
      backInvs := s.backInvs.map fun x => if x.id = b.id then { x with lost := true } else x } l b.hi := by
  simp only [State.leaseEnds, hb, hl]
  rw [if_neg]
  simp only [he, ne_eq, not_true, decide_false, Bool.false_or, decide_eq_true_eq]
  omega

/-! Holds of a millisecond (R42, R362, R382). -/

/-- A hold that has lasted a millisecond is listed no more. -/
theorem State.holdEnds_due {s : State} {h : HostHold} (hh : (s.hostHolds.find? fun x => x.id = h.id) = some h)
    (hdue : s.usAfter h.since 1000 ≤ s.clk) (f : State → HostHold → State) :
    s.holdEnds h.id h.why f = f { s with hostHolds := s.hostHolds.filter fun x => x.id ≠ h.id } h := by
  have hfind : (s.hostHolds.find? fun x => x.id = h.id && x.why = h.why && s.usAfter x.since 1000 ≤ s.clk) = some h := by
    obtain ⟨-, as, bs, hsplit, has⟩ := List.find?_eq_some_iff_append.1 hh
    refine List.find?_eq_some_iff_append.2 ⟨by simp [hdue], as, bs, hsplit, fun a ha => ?_⟩
    have := has a ha
    simp only [Bool.not_eq_true', decide_eq_false_iff_not] at this
    simp [this]
  rw [State.holdEnds, hfind]

/-- TMB_OOS_LOG holds a refused write (R41, R42). -/
theorem State.rf_logOos (s : State) (q f : Nat) {off : Nat} (hoff : off < 512) (host : Bool) :
    (s.logOos q f off host).rf (rTMB_OOS_LOG q) 63 1 = 1 := by
  have hlt : f % 2 ^ 36 + off * 2 ^ 36 + (if host then 2 ^ 45 else 0) < 2 ^ 63 := by
    have := Nat.mod_lt f (show 0 < 2 ^ 36 by decide)
    split <;> omega
  rw [State.rf, State.logOos, State.reg_setReg_self, wfld, BitVec.extractLsb'_toNat, BitVec.toNat_ofNat, Nat.shiftRight_eq_div_pow]
  omega

/-- The bytes of a held write. -/
def HostHold.written (h : HostHold) : List Byte :=
  match h.op with
  | .write d => d
  | _ => []

/-- Where a refused write of the host is logged: at the first of its lines that fails the test of R41. -/
def State.refusedAt (s : State) (q : Nat) (h : HostHold) : Nat × Nat :=
  (s.hostTest q h.pa h.written).getD (h.pa / 65536, h.pa % 65536 / 128)

theorem State.refusedAt_line (s : State) (q : Nat) (h : HostHold) : (s.refusedAt q h).2 < 512 := by
  rw [State.refusedAt, State.hostTest]
  split
  · show h.pa % 65536 / 128 < 512
    omega
  · cases (chunksOf h.pa h.written.length).find? _ with
    | none =>
      show h.pa % 65536 / 128 < 512
      omega
    | some x => exact Nat.mod_lt _ (by decide)

theorem State.hostPoison_eq {s : State} {h : HostHold} {q : Nat} (hq : s.hdm (h.pa / 65536) = some q) :
    s.hostPoison h = ((s.logOos q (s.refusedAt q h).1 (s.refusedAt q h).2 true).tmbEvent 20 q).finish h .poisoned := by
  rw [State.hostPoison, hq]
  rfl

theorem State.finish_host (s : State) {h : HostHold} (hlink : h.link = none) (d : HostDone) :
    s.finish h d = { s with hostDone := s.hostDone ++ [d] } := by
  rw [State.finish, hlink]

theorem State.rf_finish (s : State) (h : HostHold) (d : HostDone) (o lo n : Nat) : (s.finish h d).rf o lo n = s.rf o lo n := by
  rw [State.finish]; split <;> rfl

theorem State.tmbEvent_logOos_eq (s : State) (q f off : Nat) (host : Bool) (b p : Nat) :
    ∃ c m, (s.logOos q f off host).tmbEvent b p = { s with csr := c, msix := m } :=
  s.tmbEvent_setReg_eq _ _ b p

/-- A held write of the host completes poisoned, and is logged; its line keeps its value (R42). -/
theorem State.hostPoison_spec (s : State) {h : HostHold} (hlink : h.link = none) {q : Nat} (hq : s.hdm (h.pa / 65536) = some q) :
    (∃ c m, s.hostPoison h = { s with csr := c, msix := m, hostDone := s.hostDone ++ [.poisoned] })
      ∧ (s.hostPoison h).rf (rTMB_OOS_LOG q) 63 1 = 1 := by
  have hne : rTMB_OOS_LOG q ≠ rTMB_INT_STAT := by simp only [rTMB_OOS_LOG, rTMB_INT_STAT]; omega
  rw [State.hostPoison_eq hq]
  constructor
  · obtain ⟨c, m, hev⟩ := s.tmbEvent_logOos_eq q (s.refusedAt q h).1 (s.refusedAt q h).2 true 20 q
    rw [hev, State.finish_host _ hlink]
    exact ⟨c, m, rfl⟩
  · rw [State.rf_finish, State.rf_tmbEvent_other _ _ _ hne, s.rf_logOos q _ (s.refusedAt_line q h)]

/-- Settles O48: one lemma for an answer in time, a late one, a lease that runs out, and a hold that ends. -/
theorem leasesAndHolds : Obligations.LeasesAndHolds := by
  intro s
  refine ⟨fun b l hb hl => ⟨fun hin => ?_, fun d hin hdis => ?_, fun d hin hkeep he _ => ?_⟩, fun b d hb hlate => ?_,
    fun b l hb hl he hdue => ?_, fun h hlink hh hdue => ⟨fun hwhy => ?_, fun hwhy => ?_, fun hwhy q hq => ?_⟩⟩
  · exact congrArg Host.Outcome.next (State.backAnswer_plain hb hl hin (.inl rfl))
  · exact congrArg Host.Outcome.next (State.backAnswer_plain hb hl hin (.inr hdis))
  · have hl' : (s.answered b).lineById b.line = some l := hl
    obtain ⟨hinvs, x, hx, hid, hhalf, hdirty, hdata⟩ := State.broughtBack_spec hl' d
    refine ⟨_, b.leaves x, congrArg Host.Outcome.next (State.backAnswer_data hb hl hin hkeep he d), hinvs, ?_, ?_, ?_, ?_, ?_⟩
    · rw [← hid]; exact State.mem_modLine hx b.leaves
    · rw [BackInv.leaves, LLine.id_setHalf, hid]
    · rw [BackInv.leaves, LLine.half_setHalf, hhalf]
    · rw [BackInv.leaves, LLine.dirty_setHalf, hdirty]
    · rw [BackInv.leaves, LLine.data_setHalf, hdata]
  · refine ⟨_, congrArg Host.Outcome.next (State.backAnswer_late hb hlate d), ?_, ?_, ?_, ?_⟩
    · exact State.incSat_backInvs _ _ _ _
    · exact State.incSat_lines _ _ _ _
    · exact State.incSat_hostDone _ _ _ _
    · exact State.rf_incSat_self _ _ (by decide)
  · obtain ⟨hmem, hid⟩ := State.mem_of_lineById hl
    obtain ⟨hlines, hinvs, hset, hcount, hfirst⟩ := State.logLost_spec { s.modLine l.id (fun x => s.lostHalf x b.hi) with
      backInvs := s.backInvs.map fun x => if x.id = b.id then { x with lost := true } else x } l b.hi
    refine ⟨_, s.lostHalf l b.hi, congrArg Host.Outcome.next (State.leaseEnds_eq hb hl he hdue), ?_, ?_, ?_, rfl, ?_, hset, hcount, hfirst⟩
    · rw [hlines]; exact State.mem_modLine hmem fun x => s.lostHalf x b.hi
    · exact LLine.id_setHalf _ _ _
    · exact LLine.half_setHalf l b.hi .i
    · rw [hinvs]
      exact ⟨_, List.mem_map.2 ⟨b, List.mem_of_find?_eq_some hb, if_pos rfl⟩, rfl, rfl⟩
  · refine congrArg Host.Outcome.next ?_
    rw [← hwhy, State.holdEnds_due hh hdue, State.finish, hlink]
  · refine congrArg Host.Outcome.next ?_
    rw [← hwhy, State.holdEnds_due hh hdue, State.finish, hlink]
  · have he := State.holdEnds_due hh hdue State.hostPoison
    rw [hwhy] at he
    obtain ⟨⟨c, m, hp⟩, hlog⟩ := State.hostPoison_spec { s with hostHolds := s.hostHolds.filter fun x => x.id ≠ h.id } hlink hq
    refine ⟨_, congrArg Host.Outcome.next he, ?_, ?_, ?_, ?_, hlog⟩
    · rw [hp]
    · rw [hp]
    · rw [hp]
    · rw [hp]

end Sys2Proof.Machine
end

section
/-! PROOFS. The stages of start (O52): the statement fails where stage 0 runs in a state whose START_STAT still shows a later stage. -/
namespace Sys2Proof.Machine

/-! The interrupt of every partition (R370). -/

theorem State.msix_foldl_raise {s : State} (src : Nat) {l : List Nat} (h : ∀ q ∈ l, s.leads q = true) :
    (l.foldl (fun t q => t.raise q src) s).msix = s.msix ++ l.map fun q => 8 * q + src := by
  induction l generalizing s with
  | nil => exact (List.append_nil _).symm
  | cons q r ih =>
    obtain ⟨hq, hr⟩ := List.forall_mem_cons.1 h
    rw [List.foldl_cons, State.raise, if_pos hq, ih (s := { s with msix := s.msix ++ [8 * q + src] }) hr, List.map_cons,
      List.append_assoc]
    rfl

theorem State.msix_raiseAll (s : State) (src : Nat) : (s.raiseAll src).msix = s.msix ++ s.leadList.map fun q => 8 * q + src :=
  State.msix_foldl_raise src fun _ h => (List.mem_filter.1 h).2

/-! In safe mode there is one partition, on die 0 (R383). -/

theorem State.lead_of_stage0 {s : State} (h : s.stage = 0) {q : Nat} (hq : q ∈ s.leadList) : q = 0 := by
  have hl : (s.quartersOf q).head? = some q := by simpa [State.leads] using (List.mem_filter.1 hq).2
  have hmem : (s.joined q q = true ∧ s.dieOk q = true) ∧ q = 0 := by
    simpa [h] using (List.mem_filter.1 (List.mem_of_mem_head? hl)).2
  exact hmem.2

/-- The state in which a stage has ended, before the partitions hear of it. -/
def State.stageEnded (s : State) (k : Nat) : State :=
  ((s.setRf rSTART_STAT 0 2 k).setRf rSTART_STAT 2 1 0).modMgmt fun m => { m with running := none }

theorem State.endStage_eq (s : State) (k : Nat) : s.endStage k = (s.stageEnded k).raiseAll 7 := rfl

theorem State.stageEnded_stage (s : State) {k : Nat} (h : k < 4) : (s.stageEnded k).stage = k := by
  show ((s.setRf rSTART_STAT 0 2 k).setRf rSTART_STAT 2 1 0).rf rSTART_STAT 0 2 = k
  rw [State.rf_setRf_field _ _ _ (by decide), State.rf_setRf_self _ _ _ (by decide)]
  exact Nat.mod_eq_of_lt h

/-- What hears of the end of stage 0 is quarter 0 alone. -/
theorem State.stage0_msix {s : State} (hs : s.msix = []) : ∀ v ∈ s.stage0.msix, v = 7 := by
  intro v hv
  obtain ⟨u, hu, he⟩ : ∃ u : State, u.msix = [] ∧ s.stage0 = u.endStage 0 := by
    refine ⟨_, ?_, rfl⟩
    split
    · exact hs
    · exact hs
  rw [he, State.endStage_eq, State.msix_raiseAll, show (u.stageEnded 0).msix = [] from hu, List.nil_append, List.mem_map] at hv
  obtain ⟨q, hq, rfl⟩ := hv
  rw [State.lead_of_stage0 (u.stageEnded_stage (by decide)) hq]

/-- Stage 0 runs while START_STAT still shows stage 2 as done: four partitions stand. -/
def restarting : State := { csr := [(rSTART_STAT, 0xF06)] }

theorem restarting_leads : 3 ∈ restarting.leadList := by decide +kernel

/-- Refutes O52: where stage 0 ends in a state whose START_STAT shows stage 2, its end clears the stage first, so that source 7 is
raised for quarter 0 alone, the one partition of safe mode; the statement has it raised for each partition that led before, and its
hypothesis asks for stage 0 to run but not for START_STAT to show it. -/
theorem not_startAndAttestation : ¬ Obligations.StartAndAttestation := by
  intro h
  obtain ⟨hstages, -⟩ := h
  obtain ⟨-, hends, -⟩ := hstages restarting
  obtain ⟨t, hx, -, -, -, -, hmsix, -⟩ := hends rfl
  have ht : t = restarting.stage0 := by cases hx; rfl
  have hmem : 8 * 3 + 7 ∈ restarting.stage0.msix := by
    rw [← ht, hmsix]
    exact List.mem_append_right _ (List.mem_map.2 ⟨3, restarting_leads, rfl⟩)
  exact absurd (State.stage0_msix rfl _ hmem) (by decide)

end Sys2Proof.Machine
end

section
/-! PROOFS. The driver's commands of the Tumbler (O39, R44): which are refused, and what each does. -/
namespace Sys2Proof.Machine

/-! How a command ends, and how one begins. -/

theorem State.lead_lt {s : State} {q : Nat} (h : s.leads q = true) : q < 4 := by
  have hl : (s.quartersOf q).head? = some q := by simpa [State.leads] using h
  exact List.mem_range.1 (List.mem_filter.1 (List.mem_of_mem_head? hl)).1

theorem rTMB_CMD_STAT_ne (q : Nat) : rTMB_CMD_STAT q ≠ rTMB_INT_STAT := by simp only [rTMB_CMD_STAT, rTMB_INT_STAT]; omega

theorem State.rf_tmbEvent_self (s : State) {b q : Nat} (h : b + q < 64) : (s.tmbEvent b q).rf rTMB_INT_STAT (b + q) 1 = 1 := by
  have hset := s.rf_setRf_self rTMB_INT_STAT 1 (show b + q + 1 ≤ 64 by omega)
  rw [State.tmbEvent]
  split
  · rw [State.rf_raise, hset]; rfl
  · exact hset

/-- A command of quarter `q` has ended with result `res`: nothing of the frames has changed. -/
structure State.CmdEnded (s t : State) (q res : Nat) : Prop where
  idle   : t.rf (rTMB_CMD_STAT q) 0 1 = 0
  result : t.rf (rTMB_CMD_STAT q) 1 3 = res % 8
  told   : q < 4 → t.rf rTMB_INT_STAT (24 + q) 1 = 1
  frames : t.frames = s.frames
  mem    : t.mem = s.mem
  recalls : t.recalls = s.recalls

theorem State.tmbEnd_ended (s : State) (q res : Nat) : s.CmdEnded (s.tmbEnd q res) q res := by
  have hrf (lo n : Nat) : (s.tmbEnd q res).rf (rTMB_CMD_STAT q) lo n
      = ((s.setRf (rTMB_CMD_STAT q) 1 3 res).setRf (rTMB_CMD_STAT q) 0 1 0).rf (rTMB_CMD_STAT q) lo n :=
    State.rf_tmbEvent_other _ _ _ (rTMB_CMD_STAT_ne q) _ _
  refine ⟨?_, ?_, fun hq => State.rf_tmbEvent_self _ (by omega), State.tmbEvent_keeps (g := State.frames) (fun _ _ _ => rfl) _ _ _,
    State.tmbEvent_keeps (g := State.mem) (fun _ _ _ => rfl) _ _ _, State.tmbEvent_keeps (g := State.recalls) (fun _ _ _ => rfl) _ _ _⟩
  · rw [hrf, State.rf_setRf_self _ _ _ (by decide)]; rfl
  · rw [hrf, State.rf_setRf_field _ _ _ (by decide), State.rf_setRf_self _ _ _ (by decide)]; rfl

/-- A command begins: TMB_CMD_STAT shows it busy, and its run is listed. -/
def State.tmbBegin (s : State) (q : Nat) (r : TmbRun) : State :=
  { s.setRf (rTMB_CMD_STAT q) 0 1 1 with tmbRuns := (s.tmbRuns.filter fun z => z.q ≠ q) ++ [r] }

theorem State.tmbBegin_busy (s : State) (q : Nat) (r : TmbRun) :
    (s.tmbBegin q r).rf (rTMB_CMD_STAT q) 0 1 = 1 ∧ r ∈ (s.tmbBegin q r).tmbRuns :=
  ⟨s.rf_setRf_self (rTMB_CMD_STAT q) 1 (by decide), List.mem_append_right _ List.mem_cons_self⟩

theorem State.tmbBegin_field (s : State) (q : Nat) (r : TmbRun) {lo n : Nat} (h : 1 ≤ lo) :
    (s.tmbBegin q r).rf (rTMB_CMD_STAT q) lo n = s.rf (rTMB_CMD_STAT q) lo n :=
  s.rf_setRf_field (rTMB_CMD_STAT q) 1 (.inr (by omega))

@[simp] theorem State.tmbBegin_mem (s : State) (q : Nat) (r : TmbRun) : (s.tmbBegin q r).mem = s.mem := rfl
@[simp] theorem State.tmbBegin_frame (s : State) (q : Nat) (r : TmbRun) (f : Nat) : (s.tmbBegin q r).frame f = s.frame f := rfl
@[simp] theorem State.tmbBegin_tmbOf (s : State) (q : Nat) (r : TmbRun) (p : Nat) : (s.tmbBegin q r).tmbOf p = s.tmbOf p := rfl

/-! The order of the refusals (R44, log 67). -/

section Command
variable {s : State} {q op lode f : Nat} {fmt : BitVec 4} {sec : Bool}

theorem State.tmbCommand_busy (hl : s.leads q = true) (hb : s.rf (rTMB_CMD_STAT q) 0 1 = 1) :
    s.tmbCommand q op fmt lode f sec = s.setRf (rTMB_CMD_STAT q) 1 3 1 := by
  simp only [State.tmbCommand, hl, hb, Bool.not_true, Bool.false_eq_true, if_false, if_true]

theorem State.tmbCommand_badOp (hl : s.leads q = true) (hb : s.rf (rTMB_CMD_STAT q) 0 1 = 0) (hop : 7 ≤ op) :
    s.tmbCommand q op fmt lode f sec = s.tmbEnd q 6 := by
  simp only [State.tmbCommand, hl, hb, hop, Bool.not_true, Bool.false_eq_true, Nat.zero_ne_one, if_false, if_true]

theorem State.tmbCommand_badFrame (hl : s.leads q = true) (hb : s.rf (rTMB_CMD_STAT q) 0 1 = 0) (hop : op < 7)
    (hf : s.ownsFrame q f = false ∨ op = 6 ∧ (s.partLodes q).contains lode = false) :
    s.tmbCommand q op fmt lode f sec = s.tmbEnd q 2 := by
  have hbad : (!s.ownsFrame q f || decide (op = 6) && !(s.partLodes q).contains lode) = true := by
    rcases hf with h | ⟨h, h'⟩
    · rw [h]; rfl
    · rw [h', decide_eq_true h, Bool.not_false, Bool.and_true, Bool.or_true]
  simp only [State.tmbCommand, hl, hb, Nat.not_le.2 hop, hbad, Bool.not_true, Bool.false_eq_true, Nat.zero_ne_one, if_false, if_true]

/-- What a command must meet before its frame's state is looked at, but for the world of the write. -/
structure State.Reaches (s : State) (q op lode f : Nat) : Prop where
  leads : s.leads q = true
  idle  : s.rf (rTMB_CMD_STAT q) 0 1 = 0
  known : op < 7
  frame : s.ownsFrame q f = true
  lode  : op = 6 → (s.partLodes q).contains lode = true

theorem State.Reaches.frame_ok (h : s.Reaches q op lode f) :
    (!s.ownsFrame q f || decide (op = 6) && !(s.partLodes q).contains lode) = false := by
  rw [h.frame]
  by_cases h6 : op = 6
  · rw [h.lode h6, Bool.not_true, Bool.and_false]; rfl
  · rw [decide_eq_false h6]; rfl

theorem State.tmbCommand_world (h : s.Reaches q op lode f) (hs : s.frameSecure q f = true) :
    s.tmbCommand q op fmt lode f false = s.tmbEnd q 5 := by
  simp only [State.tmbCommand, h.leads, h.idle, Nat.not_le.2 h.known, h.frame_ok, hs, Bool.not_true, Bool.not_false, Bool.and_true,
    Bool.false_eq_true, Nat.zero_ne_one, if_false, if_true]

end Command

/-! The commands themselves. -/

/-- A command as TMB_CMD gives it, its frame held in the state it has. -/
def State.tmbHold (s : State) (q op : Nat) (fmt : BitVec 4) (lode f : Nat) : TmbRun :=
  ⟨q, op, f, fmt, lode, true, 0, (s.frame f).st, 0⟩

/-- QUERY shows the frame in TMB_CMD_STAT. -/
def State.tmbQuery (s : State) (q f : Nat) : State :=
  (((s.setRf (rTMB_CMD_STAT q) 4 7 (s.frame f).flakes.length).setRf (rTMB_CMD_STAT q) 11 3 (s.frame f).st.code).setRf
    (rTMB_CMD_STAT q) 14 4 (s.frame f).fmt.toNat).setRf (rTMB_CMD_STAT q) 18 8 (s.slode f)

/-- A frame joins the balloon, the newest of its partition's (R38). -/
def State.inflated (s : State) (q f : Nat) : State :=
  ({ s with nextId := s.nextId + 1 }.setFrame f
    { s.frame f with st := .balloon, prior := (s.frame f).st, donated := s.nextId }).modTmb q fun t => { t with balloon := t.balloon ++ [f] }

/-- DONATE: the frame's lines leave the lodes, and it joins the balloon. -/
def State.tmbDonate (s : State) (q f : Nat) (hold : TmbRun) : State :=
  let x := s.frame f
  if (s.rmapOf f).isSome || x.st = .busy || x.st = .balloon || x.st = .reclaimed || s.frameStuck f then s.tmbEnd q 3
  else
    let s1 := s.purgeFrame f
    if s1.frameStuck f then s1.tmbEnd q 3
    else
      (if s1.freeOf q < s1.lwm q || 0 < s1.sdCount q + s1.hostCount q then (s1.inflated q f).startReclaim q
        else s1.inflated q f).tmbBegin q { hold with st := .balloon }

/-- WITHDRAW: the frame leaves the balloon as it was when it was donated, or empty where reclaim took it. -/
def State.tmbWithdraw (s : State) (q f : Nat) (hold : TmbRun) : State :=
  let x := s.frame f
  let s1 := s.unballoon fun g => g = f
  if x.st = .balloon then
    (s1.setFrame f { x with st := x.prior, prior := .empty, donated := 0 }).tmbBegin q { hold with st := x.prior }
  else if x.st = .reclaimed then (s1.emptyFrame f .empty).tmbBegin q { hold with st := .empty }
  else s.tmbEnd q 3

/-- RECODE, TO_RAW, TO_CMP and MIGRATE wait to be started where the frame's state allows them. -/
def State.tmbWork (s : State) (q op f : Nat) (hold : TmbRun) : State :=
  if !tmbStateOk op (s.frame f).st then s.tmbEnd q 3 else s.tmbBegin q { hold with started := false }

/-- A command that no refusal before its frame's state meets. -/
def State.tmbPerform (s : State) (q op : Nat) (fmt : BitVec 4) (lode f : Nat) : State :=
  match op with
  | 0 => (s.tmbQuery q f).tmbBegin q (s.tmbHold q 0 fmt lode f)
  | 1 => s.tmbDonate q f (s.tmbHold q 1 fmt lode f)
  | 2 => s.tmbWithdraw q f (s.tmbHold q 2 fmt lode f)
  | op => s.tmbWork q op f (s.tmbHold q op fmt lode f)

theorem State.tmbCommand_perform {s : State} {q op lode f : Nat} {fmt : BitVec 4} {sec : Bool} (h : s.Reaches q op lode f)
    (hs : sec = true ∨ s.frameSecure q f = false) : s.tmbCommand q op fmt lode f sec = s.tmbPerform q op fmt lode f := by
  have hworld : (!sec && s.frameSecure q f) = false := by
    rcases hs with h | h
    · rw [h]; rfl
    · rw [h, Bool.and_false]
  simp only [State.tmbCommand, h.leads, h.idle, Nat.not_le.2 h.known, h.frame_ok, hworld, Bool.not_true, Bool.false_eq_true,
    Nat.zero_ne_one, if_false]
  match op with
  | 0 | 1 | 2 | _ + 3 => rfl

theorem State.tmbPerform_work (s : State) (q : Nat) {op : Nat} (h : 3 ≤ op) (fmt : BitVec 4) (lode f : Nat) :
    s.tmbPerform q op fmt lode f = s.tmbWork q op f (s.tmbHold q op fmt lode f) := by
  match op, h with
  | _ + 3, _ => rfl

/-! What each command does to its frame. -/

/-- The fields of TMB_CMD_STAT that QUERY shows. -/
theorem State.tmbQuery_fields (s : State) (q f : Nat) :
    (s.tmbQuery q f).rf (rTMB_CMD_STAT q) 4 7 = (s.frame f).flakes.length % 128
      ∧ (s.tmbQuery q f).rf (rTMB_CMD_STAT q) 11 3 = (s.frame f).st.code
      ∧ (s.tmbQuery q f).rf (rTMB_CMD_STAT q) 14 4 = (s.frame f).fmt.toNat
      ∧ (s.tmbQuery q f).rf (rTMB_CMD_STAT q) 18 8 = s.slode f % 256 := by
  rw [State.tmbQuery]
  refine ⟨?_, ?_, ?_, ?_⟩
  · simp (disch := decide) only [State.rf_setRf_field, State.rf_setRf_self]
    rfl
  · simp (disch := decide) only [State.rf_setRf_field, State.rf_setRf_self]
    cases (s.frame f).st <;> rfl
  · simp (disch := decide) only [State.rf_setRf_field, State.rf_setRf_self]
    exact Nat.mod_eq_of_lt (s.frame f).fmt.isLt
  · simp (disch := decide) only [State.rf_setRf_self]
    rfl

theorem State.tmbQuery_frames (s : State) (q f : Nat) : (s.tmbQuery q f).frames = s.frames := by
  simp only [State.tmbQuery, State.setRf, State.setReg_frames]

@[simp] theorem State.frame_setFrame_self (s : State) (f : Nat) (x : Frame) : (s.setFrame f x).frame f = x := SMap.get_put_self ..

theorem State.frame_setFrame_other (s : State) {f g : Nat} (x : Frame) (h : g ≠ f) : (s.setFrame f x).frame g = s.frame g :=
  SMap.get_put_other _ _ h _

@[simp] theorem State.frame_modTmb (s : State) (q : Nat) (t : TmbPart → TmbPart) (f : Nat) : (s.modTmb q t).frame f = s.frame f := rfl

@[simp] theorem State.tmbOf_modTmb_self (s : State) (q : Nat) (f : TmbPart → TmbPart) : (s.modTmb q f).tmbOf q = f (s.tmbOf q) :=
  SMap.get_put_self ..

theorem State.tmbOf_modTmb_other (s : State) {q p : Nat} (f : TmbPart → TmbPart) (h : p ≠ q) : (s.modTmb q f).tmbOf p = s.tmbOf p :=
  SMap.get_put_other _ _ h _

/-- A part of the Tumbler's facts of a partition that a change of them keeps. -/
theorem State.tmbOf_modTmb_keeps {γ : Type} (g : TmbPart → γ) (s : State) (q p : Nat) {f : TmbPart → TmbPart}
    (hf : ∀ t, g (f t) = g t) : g ((s.modTmb q f).tmbOf p) = g (s.tmbOf p) := by
  by_cases h : p = q
  · rw [h, State.tmbOf_modTmb_self, hf]
  · rw [State.tmbOf_modTmb_other _ _ h]

theorem State.balloon_startReclaim (s : State) (q p : Nat) : ((s.startReclaim q).tmbOf p).balloon = (s.tmbOf p).balloon :=
  s.tmbOf_modTmb_keeps TmbPart.balloon q p fun t => by split <;> rfl

theorem State.frameStuck_of_no_lines {s : State} {f : Nat} (h : ∀ l ∈ s.lines, l.frame ≠ f) : s.frameStuck f = false := by
  rw [State.frameStuck, List.any_eq_false]
  intro l hl
  simp [h l hl]

theorem State.purgeFrame_of_no_lines {s : State} {f : Nat} (h : ∀ l ∈ s.lines, l.frame ≠ f) : s.purgeFrame f = s := by
  rw [State.purgeFrame, List.filter_eq_nil_iff.2 fun l hl => by simp [h l hl]]
  rfl

theorem State.inflated_frame_self (s : State) (q f : Nat) :
    (s.inflated q f).frame f = { s.frame f with st := .balloon, prior := (s.frame f).st, donated := s.nextId } := by
  rw [State.inflated, State.frame_modTmb, State.frame_setFrame_self]

theorem State.inflated_frame_other (s : State) (q : Nat) {f g : Nat} (h : g ≠ f) : (s.inflated q f).frame g = s.frame g := by
  rw [State.inflated, State.frame_modTmb, State.frame_setFrame_other _ _ h]
  rfl

theorem State.inflated_balloon (s : State) (q f : Nat) : ((s.inflated q f).tmbOf q).balloon = (s.tmbOf q).balloon ++ [f] := by
  rw [State.inflated, State.tmbOf_modTmb_self]
  rfl

/-- A donated frame of which no lode holds a line joins the balloon as it is. -/
theorem State.tmbDonate_begins {s : State} {q f : Nat} (hmap : s.rmapOf f = none) (hbusy : (s.frame f).st ≠ .busy)
    (hballoon : (s.frame f).st ≠ .balloon) (hrec : (s.frame f).st ≠ .reclaimed) (hlines : ∀ l ∈ s.lines, l.frame ≠ f) (hold : TmbRun) :
    ∃ u : State, s.tmbDonate q f hold = u.tmbBegin q { hold with st := .balloon }
      ∧ (∀ g, u.frame g = (s.inflated q f).frame g) ∧ (u.tmbOf q).balloon = (s.tmbOf q).balloon ++ [f] := by
  rw [State.tmbDonate]
  simp only [hmap, hbusy, hballoon, hrec, s.purgeFrame_of_no_lines hlines, s.frameStuck_of_no_lines hlines, Option.isSome_none,
    decide_false, Bool.or_self, Bool.false_eq_true, if_false]
  split
  · exact ⟨_, rfl, fun g => (s.inflated q f).frame_modTmb q _ g, (State.balloon_startReclaim _ _ _).trans (s.inflated_balloon q f)⟩
  · exact ⟨_, rfl, fun _ => rfl, s.inflated_balloon q f⟩

/-- What WITHDRAW makes of a donated frame. -/
def State.deflated (s : State) (f : Nat) : State :=
  (s.unballoon fun g => g = f).setFrame f { s.frame f with st := (s.frame f).prior, prior := .empty, donated := 0 }

theorem State.tmbWithdraw_balloon {s : State} {q f : Nat} (h : (s.frame f).st = .balloon) (hold : TmbRun) :
    s.tmbWithdraw q f hold = (s.deflated f).tmbBegin q { hold with st := (s.frame f).prior } := if_pos h

theorem State.tmbWithdraw_reclaimed {s : State} {q f : Nat} (h : (s.frame f).st = .reclaimed) (hold : TmbRun) :
    s.tmbWithdraw q f hold = ((s.unballoon fun g => g = f).emptyFrame f .empty).tmbBegin q { hold with st := .empty } :=
  (if_neg (by rw [h]; decide)).trans (if_pos h)

/-- Frames leave the balloon as one partition lists it. -/
def State.leaveBalloon (s : State) (out : Nat → Bool) (q : Nat) : State :=
  s.modTmb q fun t => { t with balloon := t.balloon.filter (fun f => !out f), taken := t.taken.filter (fun f => !out f),
                               begun := if t.balloon.head?.any out then s.clk else t.begun }

theorem State.unballoon_foldl (s : State) (out : Nat → Bool) :
    s.unballoon out = (List.range 4).foldl (fun t q => t.leaveBalloon out q) s := rfl

/-- It changes nothing but the Tumbler's facts. -/
theorem State.unballoon_eq (s : State) (out : Nat → Bool) : ∃ x, s.unballoon out = { s with tmb := x } := by
  rw [State.unballoon_foldl]
  refine foldl_related (R := fun a b : State => ∃ x, b = { a with tmb := x }) (fun a => ⟨a.tmb, rfl⟩) ?_ (fun _ _ => ⟨_, rfl⟩) _ s
  rintro a b c ⟨x, rfl⟩ ⟨y, rfl⟩
  exact ⟨y, rfl⟩

theorem State.balloon_foldl_leaveBalloon (s : State) (out : Nat → Bool) (l : List Nat) (q : Nat) :
    ((l.foldl (fun t p => t.leaveBalloon out p) s).tmbOf q).balloon =
      if q ∈ l then (s.tmbOf q).balloon.filter fun f => !out f else (s.tmbOf q).balloon := by
  induction l generalizing s with
  | nil => rfl
  | cons p r ih =>
    rw [List.foldl_cons, ih, State.leaveBalloon]
    by_cases h : q = p
    · subst h
      rw [State.tmbOf_modTmb_self, if_pos List.mem_cons_self]
      split
      · rw [List.filter_filter]; simp only [Bool.and_self]
      · rfl
    · rw [State.tmbOf_modTmb_other _ _ h]
      simp only [List.mem_cons, h, false_or]

theorem State.balloon_unballoon (s : State) (out : Nat → Bool) {q : Nat} (hq : q < 4) :
    ((s.unballoon out).tmbOf q).balloon = (s.tmbOf q).balloon.filter fun f => !out f := by
  rw [State.unballoon_foldl, State.balloon_foldl_leaveBalloon, if_pos (List.mem_range.2 hq)]

theorem SMap.get_drop {α : Type} (d : α) {p : Nat → Bool} {k : Nat} (hk : p k = true) (m : SMap α) :
    SMap.get d (SMap.drop p m) k = d := by
  induction m with
  | nil => rfl
  | cons e r ih =>
    obtain ⟨j, v⟩ := e
    rw [SMap.drop, List.filter_cons]
    split
    · next hj =>
      have hne : j ≠ k := by rintro rfl; simp [hk] at hj
      exact (if_neg hne).trans ih
    · exact ih

theorem Memory.byte_clear (m : Memory) {a n k : Nat} (h : a ≤ k ∧ k < a + n) : Memory.byte (Memory.clear m a n) k = 0 :=
  SMap.get_drop 0 (by simpa using h) m

/-- A frame that reclaim took, or that leaves it, reads 0 (R32, R38). -/
theorem State.byte_emptyFrame (s : State) (f : Nat) (st : FState) {i : Nat} (h : i < 65536) :
    Memory.byte (s.emptyFrame f st).mem (65536 * f + i) = 0 :=
  Memory.byte_clear _ (by omega)

/-! The commands as steps. -/

theorem State.CmdEnded.shown {s t : State} {q res : Nat} (h : s.CmdEnded t q res) (hq : q < 4) (hres : res < 8) :
    t.rf (rTMB_CMD_STAT q) 0 1 = 0 ∧ t.rf (rTMB_CMD_STAT q) 1 3 = res ∧ t.rf rTMB_INT_STAT (24 + q) 1 = 1 ∧ t.frames = s.frames
      ∧ t.mem = s.mem :=
  ⟨h.idle, h.result.trans (Nat.mod_eq_of_lt hres), h.told hq, h.frames, h.mem⟩

theorem State.tmbBegin_shows (s : State) (q : Nat) (r : TmbRun) (hq : r.q = q) :
    (s.tmbBegin q r).rf (rTMB_CMD_STAT q) 0 1 = 1
      ∧ ∃ z ∈ (s.tmbBegin q r).tmbRuns, z.q = q ∧ z.op = r.op ∧ z.frame = r.frame :=
  ⟨(s.tmbBegin_busy q r).1, r, (s.tmbBegin_busy q r).2, hq, rfl, rfl⟩

/-- Each command but MIGRATE is a write of TMB_CMD with its operation. -/
theorem exec_tmbCommand {q f : Nat} {n : BitVec 4} {sec : Bool} {i : Instr}
    (hi : i ∈ [Instr.query q f sec, .donate q f sec, .withdraw q f sec, .recode q f n sec, .toRaw q f sec, .toCmp q f n sec]) :
    ∃ op fmt, op < 6 ∧ ∀ s, exec i s = .next (s.tmbCommand q op fmt 0 f sec) := by
  simp only [List.mem_cons, List.not_mem_nil, or_false] at hi
  rcases hi with rfl | rfl | rfl | rfl | rfl | rfl
  · exact ⟨0, 0, by decide, fun _ => rfl⟩
  · exact ⟨1, 0, by decide, fun _ => rfl⟩
  · exact ⟨2, 0, by decide, fun _ => rfl⟩
  · exact ⟨3, n, by decide, fun _ => rfl⟩
  · exact ⟨4, 0, by decide, fun _ => rfl⟩
  · exact ⟨5, n, by decide, fun _ => rfl⟩

theorem exec_tmbWork {q f op : Nat} {n : BitVec 4} {sec : Bool} {i : Instr}
    (hi : (i, op) ∈ [(Instr.recode q f n sec, 3), (.toRaw q f sec, 4), (.toCmp q f n sec, 5)]) :
    ∃ fmt, 3 ≤ op ∧ op < 6 ∧ ∀ s, exec i s = .next (s.tmbCommand q op fmt 0 f sec) := by
  simp only [List.mem_cons, List.not_mem_nil, or_false, Prod.mk.injEq] at hi
  rcases hi with ⟨rfl, rfl⟩ | ⟨rfl, rfl⟩ | ⟨rfl, rfl⟩
  · exact ⟨n, by decide, by decide, fun _ => rfl⟩
  · exact ⟨0, by decide, by decide, fun _ => rfl⟩
  · exact ⟨n, by decide, by decide, fun _ => rfl⟩

/-- RECODE, TO_RAW, TO_CMP and MIGRATE go by the frame's state. -/
theorem State.tmbWork_spec (s : State) {q op f : Nat} (hold : TmbRun) (hq : hold.q = q) :
    (tmbStateOk op (s.frame f).st = true → ∃ t, s.tmbWork q op f hold = t ∧ (t.rf (rTMB_CMD_STAT q) 0 1 = 1
      ∧ ∃ z ∈ t.tmbRuns, z.q = q ∧ z.op = hold.op ∧ z.frame = hold.frame) ∧ t.frames = s.frames)
    ∧ (tmbStateOk op (s.frame f).st = false → s.tmbWork q op f hold = s.tmbEnd q 3) := by
  refine ⟨fun h => ⟨_, by rw [State.tmbWork, h]; rfl, s.tmbBegin_shows q { hold with started := false } hq, rfl⟩, fun h => ?_⟩
  rw [State.tmbWork, h]; rfl

section Commands
variable {s : State} {q f : Nat} {sec : Bool}

/-- A command of operations 0 to 5 that meets no refusal. -/
theorem State.reaches_frame (hl : s.leads q = true) (hb : s.rf (rTMB_CMD_STAT q) 0 1 = 0) (hf : s.ownsFrame q f = true) {op : Nat}
    (hop : op < 6) : s.Reaches q op 0 f :=
  ⟨hl, hb, by omega, hf, fun h => absurd h (by omega)⟩

theorem query_spec (h : s.Reaches q 0 0 f) (hs : sec = true ∨ s.frameSecure q f = false) :
    ∃ t, exec (.query q f sec) s = .next t ∧ (t.rf (rTMB_CMD_STAT q) 0 1 = 1 ∧ ∃ z ∈ t.tmbRuns, z.q = q ∧ z.op = 0 ∧ z.frame = f)
      ∧ t.rf (rTMB_CMD_STAT q) 4 7 = (s.frame f).flakes.length % 128 ∧ t.rf (rTMB_CMD_STAT q) 11 3 = (s.frame f).st.code
      ∧ t.rf (rTMB_CMD_STAT q) 14 4 = (s.frame f).fmt.toNat ∧ t.rf (rTMB_CMD_STAT q) 18 8 = s.slode f % 256
      ∧ t.frames = s.frames := by
  obtain ⟨hflakes, hst, hfmt, hslode⟩ := s.tmbQuery_fields q f
  refine ⟨_, congrArg Host.Outcome.next (State.tmbCommand_perform h hs), State.tmbBegin_shows _ q (s.tmbHold q 0 0 0 f) rfl, ?_, ?_, ?_, ?_, ?_⟩
  · exact (State.tmbBegin_field _ _ _ (by decide)).trans hflakes
  · exact (State.tmbBegin_field _ _ _ (by decide)).trans hst
  · exact (State.tmbBegin_field _ _ _ (by decide)).trans hfmt
  · exact (State.tmbBegin_field _ _ _ (by decide)).trans hslode
  · exact s.tmbQuery_frames q f

theorem donate_spec (h : s.Reaches q 1 0 f) (hs : sec = true ∨ s.frameSecure q f = false) (hmap : s.rmapOf f = none)
    (hbusy : (s.frame f).st ≠ .busy) (hballoon : (s.frame f).st ≠ .balloon) (hrec : (s.frame f).st ≠ .reclaimed)
    (hlines : ∀ l ∈ s.lines, l.frame ≠ f) :
    ∃ t, exec (.donate q f sec) s = .next t ∧ (t.rf (rTMB_CMD_STAT q) 0 1 = 1 ∧ ∃ z ∈ t.tmbRuns, z.q = q ∧ z.op = 1 ∧ z.frame = f)
      ∧ t.frame f = { s.frame f with st := .balloon, prior := (s.frame f).st, donated := s.nextId }
      ∧ (t.tmbOf q).balloon = (s.tmbOf q).balloon ++ [f] ∧ ∀ g, g ≠ f → t.frame g = s.frame g := by
  obtain ⟨u, hu, hframe, hb⟩ := State.tmbDonate_begins hmap hbusy hballoon hrec hlines (s.tmbHold q 1 0 0 f)
  refine ⟨_, congrArg Host.Outcome.next ((State.tmbCommand_perform h hs).trans hu), State.tmbBegin_shows _ q _ rfl, ?_, ?_, fun g hg => ?_⟩
  · rw [State.tmbBegin_frame, hframe, s.inflated_frame_self]
  · rw [State.tmbBegin_tmbOf, hb]
  · rw [State.tmbBegin_frame, hframe, s.inflated_frame_other _ hg]

theorem withdraw_balloon_spec (h : s.Reaches q 2 0 f) (hs : sec = true ∨ s.frameSecure q f = false) (hst : (s.frame f).st = .balloon) :
    ∃ t, exec (.withdraw q f sec) s = .next t ∧ (t.rf (rTMB_CMD_STAT q) 0 1 = 1 ∧ ∃ z ∈ t.tmbRuns, z.q = q ∧ z.op = 2 ∧ z.frame = f)
      ∧ t.frame f = { s.frame f with st := (s.frame f).prior, prior := .empty, donated := 0 }
      ∧ (t.tmbOf q).balloon = (s.tmbOf q).balloon.filter (fun g => g ≠ f) ∧ t.mem = s.mem := by
  refine ⟨_, congrArg Host.Outcome.next ((State.tmbCommand_perform h hs).trans (State.tmbWithdraw_balloon hst _)),
    State.tmbBegin_shows _ q _ rfl, ?_, ?_, ?_⟩
  · rw [State.tmbBegin_frame, State.deflated, State.frame_setFrame_self]
  · rw [State.tmbBegin_tmbOf]
    refine (s.balloon_unballoon (fun g => g = f) (State.lead_lt h.leads)).trans (List.filter_congr fun g _ => ?_)
    simp
  · obtain ⟨x, hx⟩ := s.unballoon_eq fun g => g = f
    rw [State.tmbBegin_mem, State.deflated, hx]
    rfl

theorem withdraw_reclaimed_spec (h : s.Reaches q 2 0 f) (hs : sec = true ∨ s.frameSecure q f = false) (hst : (s.frame f).st = .reclaimed) :
    ∃ t, exec (.withdraw q f sec) s = .next t ∧ (t.rf (rTMB_CMD_STAT q) 0 1 = 1 ∧ ∃ z ∈ t.tmbRuns, z.q = q ∧ z.op = 2 ∧ z.frame = f)
      ∧ t.frame f = {} ∧ ∀ i, i < 65536 → Memory.byte t.mem (65536 * f + i) = 0 := by
  refine ⟨_, congrArg Host.Outcome.next ((State.tmbCommand_perform h hs).trans (State.tmbWithdraw_reclaimed hst _)),
    State.tmbBegin_shows _ q _ rfl, ?_, fun i hi => ?_⟩
  · rw [State.tmbBegin_frame, State.emptyFrame, State.frame_setFrame_self]
  · rw [State.tmbBegin_mem]
    exact State.byte_emptyFrame _ f .empty hi

end Commands

end Sys2Proof.Machine
end

section
/-! PROOFS. The Tumbler's own steps (O39): commands that start and end, evictions, waiting requests, reclaim, migrations and writes of
TMB_CTL (R32 to R46, R67, R357). -/
namespace Sys2Proof.Machine

/-! Commands that start and end (R44). -/

section Runs
variable {s : State} {q : Nat} {r : TmbRun}

theorem State.tmbDone_unstarted (hr : (s.tmbRuns.find? fun x => x.q = q) = some r) (hs : r.started = false)
    (hstuck : s.frameStuck r.frame = false) : s.tmbDone q = s.tmbStart r := by
  simp only [State.tmbDone, hr, hs, hstuck, Bool.not_false, Bool.false_eq_true, if_false, if_true]

/-- TO_RAW starts where the pool has its flakes: the frame has 64 flakes and is BUSY. -/
theorem State.tmbStart_toRaw {s1 : State} (hop : r.op = 4) (hst : (s.frame r.frame).st = .compressed)
    (hroom : s.lwm r.q + (64 - (s.frame r.frame).flakes.length) ≤ s.freeOf r.q)
    (htake : s.takeFlakes r.q r.frame (64 - (s.frame r.frame).flakes.length) s.nextId = some s1) :
    s.tmbStart r = { s1.setFrame r.frame { s1.frame r.frame with st := .busy, cls := rawClasses } with
      tmbRuns := (s1.tmbRuns.filter fun z => z.q ≠ r.q) ++ [{ r with started := true, extra := 0, st := .raw }] } := by
  have hneed : s.tmbNeed 4 r.frame r.fmt r.lode = 64 - (s.frame r.frame).flakes.length := rfl
  have hok : tmbStateOk 4 .compressed = true := by decide
  simp only [State.tmbStart, hop, hst, hok, hneed, Nat.not_lt.2 hroom, htake, Bool.not_true, Bool.false_eq_true, if_false, if_true,
    show (4 = 6) = False by decide, Option.map_some]

/-- TO_RAW ends: its frame is RAW, and no line is owed to it. -/
theorem State.tmbDone_raw (hr : (s.tmbRuns.find? fun x => x.q = q) = some r) (hs : r.started = true)
    (hbusy : (s.frame r.frame).st = .busy) (hop : r.op = 4) (hst : r.st = .raw) (hpaid : ∀ l ∈ s.lines, l.frame = r.frame → l.owed = false) :
    s.tmbDone q = (s.setFrame r.frame { s.frame r.frame with st := .raw, cls := [], fmt := 0 }).tmbEnd q r.result := by
  have hpay (x : Frame) : (s.setFrame r.frame x).payOwed r.frame = s.setFrame r.frame x := by
    rw [State.payOwed, List.filter_eq_nil_iff.2]
    · rfl
    · intro l hl
      by_cases hf : l.frame = r.frame
      · simp [hpaid l hl hf]
      · simp [hf]
  simp only [State.tmbDone, hr, hs, hbusy, hop, hst, hpay, ne_eq, not_true, Bool.not_true, Bool.false_eq_true, if_false, if_true,
    show (4 = 6) = False by decide, reduceCtorEq]

end Runs

/-! Evictions (R39). -/

/-- A line in no state that keeps it at its lode. -/
structure State.Evictable (s : State) (l : LLine) : Prop where
  listed   : s.lineById l.id = some l
  so       : l.so = false
  staged   : l.staged = none
  shadow   : l.shadow = false
  contract : s.lineContract l = none
  lo       : l.lo = .i
  hi       : l.hi = .i
  stuck    : l.stuck = none

theorem State.evict_eq {s : State} {l : LLine} (h : s.Evictable l) :
    s.evict l.id = if (s.writeback l.id).2 then (s.writeback l.id).1.dropLine l.id else (s.writeback l.id).1 := by
  rw [State.evict, h.listed]
  simp only [h.so, h.staged, h.shadow, h.stuck, State.lineUnder, h.contract, s.touch_none ⟨h.lo, h.hi⟩, Option.isSome_none, Option.any_none,
    Bool.or_self, Bool.not_false, Bool.and_true, Bool.false_eq_true, if_false]

theorem State.writeback_clean {s : State} {l : LLine} (hl : s.lineById l.id = some l) (hd : l.dirty = false) :
    s.writeback l.id = (s, true) := by
  simp only [State.writeback, hl, hd, Bool.not_false, if_true]

theorem State.fixStorage_stored {s : State} {f : Nat} (h : (s.frame f).st ≠ .empty) (req : Option (BitVec 4)) : s.fixStorage f req = s := by
  unfold State.fixStorage
  exact if_pos h

theorem State.grantRaw_filled {s : State} {f : Nat} (h : (s.frame f).flakes ≠ []) (q : Nat) : s.grantRaw q f = s := by
  rw [State.grantRaw, if_neg fun h' => h h'.2]

/-- A dirty line of a RAW frame is stored in its place in the frame (R32). -/
theorem State.writeback_raw {s : State} {l : LLine} (h : s.Evictable l) (hd : l.dirty = true) (hloc : l.loc = false)
    (hst : (s.frame l.frame).st = .raw) (hfl : (s.frame l.frame).flakes ≠ []) :
    s.writeback l.id = ((s.putStored l.frame l.off l.data l.poison).cleanLine l, true) := by
  have hfix : (s.fixStorage l.frame l.fmtReq).grantRaw (s.leadOfLode l.lode) l.frame = s := by
    rw [State.fixStorage_stored (by rw [hst]; decide), State.grantRaw_filled hfl]
  have holder : s.olderStuck l = false := by
    rw [State.olderStuck, List.any_eq_false]
    intro x _
    cases x.stuck <;> simp [h.stuck]
  simp only [State.writeback, h.listed, hd, h.staged, h.so, h.shadow, hloc, State.wbDevice, hst, holder, hfix, hfl, Option.isSome_none,
    Bool.not_true, Bool.or_self, Bool.false_eq_true, or_self, if_false, if_true, reduceCtorEq]

/-! Bytes as stored. -/

theorem natOfBytes_bytesOfNat (n x : Nat) : natOfBytes (bytesOfNat n x) = x % 256 ^ n := by
  induction n generalizing x with
  | zero => simp [bytesOfNat, natOfBytes, Nat.mod_one]
  | succ n ih =>
    rw [bytesOfNat, natOfBytes, ih, Nat.pow_succ', Nat.mod_mul, BitVec.toNat_ofNat]

theorem length_bytesOfNat (n x : Nat) : (bytesOfNat n x).length = n := by
  induction n generalizing x with
  | zero => rfl
  | succ n ih => rw [bytesOfNat, List.length_cons, ih]

theorem Memory.bytes_of_getD {m : Memory} {a : Nat} {l : List Byte} (h : ∀ i, i < l.length → Memory.byte m (a + i) = l.getD i 0) :
    Memory.bytes m a l.length = l := by
  induction l generalizing a with
  | nil => rfl
  | cons b r ih =>
    rw [List.length_cons, Memory.bytes, ih fun i hi => ?_]
    · rw [show Memory.byte m a = b from h 0 (Nat.succ_pos _)]
    · rw [Nat.add_right_comm]
      exact h (i + 1) (Nat.succ_lt_succ hi)

theorem Memory.bytes_setBytes (m : Memory) (a : Nat) (l : List Byte) : Memory.bytes (Memory.setBytes m a l) a l.length = l :=
  Memory.bytes_of_getD fun i hi => by
    rw [Memory.byte_setBytes, if_pos ⟨Nat.le_add_right _ _, Nat.add_lt_add_left hi a⟩, Nat.add_sub_cancel_left]

theorem ofNat_toNat_mod {w n : Nat} (h : 256 ^ n = 2 ^ w) (d : BitVec w) : BitVec.ofNat w (d.toNat % 256 ^ n) = d := by
  rw [h, Nat.mod_eq_of_lt d.isLt, BitVec.ofNat_toNat, BitVec.setWidth_eq]

/-- A line reads from its frame as it was stored there. -/
theorem State.storedLine_putStored (s : State) (f off : Nat) (d : Line) (p : Bool) : (s.putStored f off d p).storedLine f off = d := by
  have hb : Memory.bytes (s.putStored f off d p).mem (65536 * f + 128 * off) 128 = bytesOfNat 128 d.toNat := by
    have h := Memory.bytes_setBytes s.mem (65536 * f + 128 * off) (bytesOfNat 128 d.toNat)
    rwa [length_bytesOfNat] at h
  rw [State.storedLine, hb, natOfBytes_bytesOfNat]
  exact ofNat_toNat_mod (pow_mul 2 8 128).symm d

/-- Storing a line changes its own 128 bytes alone. -/
theorem State.byte_putStored_other (s : State) (f off : Nat) (d : Line) (p : Bool) {a : Nat}
    (h : a < 65536 * f + 128 * off ∨ 65536 * f + 128 * off + 128 ≤ a) :
    Memory.byte (s.putStored f off d p).mem a = Memory.byte s.mem a := by
  have hs : Memory.byte (Memory.setBytes s.mem (65536 * f + 128 * off) (bytesOfNat 128 d.toNat)) a = Memory.byte s.mem a := by
    rw [Memory.byte_setBytes, length_bytesOfNat, if_neg (by omega)]
  exact hs

/-- A line that was not stuck is clean after its writeback, or gone; nothing else changes. -/
theorem State.cleanLine_eq (s : State) {l : LLine} (h : l.stuck = none) : ∃ ls, s.cleanLine l = { s with lines := ls } := by
  simp only [State.cleanLine, h, Option.isSome_none, Bool.false_eq_true, if_false]
  split
  · exact ⟨_, rfl⟩
  · exact ⟨_, rfl⟩

/-- An evicted dirty line of a RAW frame is stored, and leaves. -/
theorem State.evict_raw {s : State} {l : LLine} (h : s.Evictable l) (hd : l.dirty = true) (hloc : l.loc = false)
    (hst : (s.frame l.frame).st = .raw) (hfl : (s.frame l.frame).flakes ≠ []) :
    ∃ ls, s.evict l.id = State.dropLine { s.putStored l.frame l.off l.data l.poison with lines := ls } l.id := by
  obtain ⟨ls, hc⟩ := (s.putStored l.frame l.off l.data l.poison).cleanLine_eq h.stuck
  rw [State.evict_eq h, State.writeback_raw h hd hloc hst hfl, hc]
  exact ⟨ls, rfl⟩

/-! Waiting requests for flakes (R32, R36). -/

theorem State.grantRaw_waiting {s s1 : State} {q f : Nat} {w : Nat × Nat} (hw : (s.rawWait.find? fun x => x.2 = f) = some w)
    (hst : (s.frame f).st = .raw) (hfl : (s.frame f).flakes = []) (htake : s.takeFlakes q f 64 w.1 = some s1) :
    s.grantRaw q f = { s1 with rawWait := s1.rawWait.filter fun x => x.2 ≠ f } := by
  rw [State.grantRaw, if_pos ⟨hst, hfl⟩, hw]
  simp only [htake]

/-! Reclaim (R37, R38, R357). -/

/-- What reclaim of a frame leaves as it was: the other frames' records, memory, and a partition's list of its balloon. -/
def State.held (s : State) (q : Nat) : SMap Frame × Memory × List Nat := (s.frames, s.mem, (s.tmbOf q).balloon)

theorem State.held_modTmb (s : State) (q p : Nat) {f : TmbPart → TmbPart} (hf : ∀ t, (f t).balloon = t.balloon) :
    (s.modTmb p f).held q = s.held q := by
  rw [State.held, s.tmbOf_modTmb_keeps TmbPart.balloon p q hf]
  rfl

theorem State.held_tmbEvent (s : State) (q b p : Nat) : (s.tmbEvent b p).held q = s.held q :=
  State.tmbEvent_keeps (g := fun t : State => t.held q) (fun _ _ _ => rfl) s b p

theorem State.held_startReclaim (s : State) (q p : Nat) : (s.startReclaim p).held q = s.held q :=
  s.held_modTmb q p fun t => by split <;> rfl

theorem State.held_setRf (s : State) (q o lo n v : Nat) : (s.setRf o lo n v).held q = s.held q := rfl

theorem State.held_setFree (s : State) (q p n : Nat) : (s.setFree p n).held q = s.held q := by
  rw [State.setFree]
  split
  · split
    · exact s.held_setRf q _ _ _ _
    · exact (State.held_tmbEvent _ q _ _).trans ((State.held_startReclaim _ q p).trans (State.held_modTmb _ q p fun _ => rfl))
  · exact State.held_modTmb _ q p fun _ => rfl

theorem State.held_giveFlake (s : State) (q n : Nat) : (s.giveFlake n).held q = s.held q := by
  rw [State.giveFlake]
  split
  · rw [State.withdrawFlake, State.held_setRf]; rfl
  · rfl

theorem State.held_giveFlakes (s : State) (q : Nat) (l : List Nat) : (s.giveFlakes l).held q = s.held q := by
  rw [State.giveFlakes, foldl_keeps (fun t : State => t.held q) fun t p => ?_, foldl_keeps (fun t : State => t.held q) fun t n => ?_]
  · exact t.held_giveFlake q n
  · dsimp only
    split
    · rfl
    · exact t.held_setFree q p _

theorem State.held_reclaimStop (s : State) (q p : Nat) : (s.reclaimStop p).held q = s.held q := by
  rw [State.reclaimStop]
  split
  · exact s.held_modTmb q p fun _ => rfl
  · split
    · exact (State.held_tmbEvent _ q _ _).trans (s.held_modTmb q p fun _ => rfl)
    · rfl

section Reclaim
variable {s : State} {q : Nat}

theorem State.reclaim_over (hr : (s.tmbOf q).reclaiming = true) (ho : s.reclaimOver q = true) :
    s.reclaim q = s.modTmb q fun t => { t with reclaiming := false } := by
  simp only [State.reclaim, State.reclaimStop, hr, ho, State.tmbOf_modTmb_self, Bool.not_true, Bool.false_and, Bool.false_eq_true,
    if_false, if_true]

/-- Reclaim goes on: the oldest frame gives its flakes once 512 clk have passed since work on it began. -/
theorem State.reclaim_goes (hr : (s.tmbOf q).reclaiming = true) (ho : s.reclaimOver q = false) {f : Nat} {r : List Nat}
    (hb : (s.tmbOf q).balloon = f :: r) :
    s.reclaim q = if (s.tmbOf q).begun + 512 ≤ s.clk then s.reclaimFrame q s.clk else s := by
  simp only [State.reclaim, State.reclaimStop, hr, ho, hb, Bool.not_true, Bool.true_and, Bool.false_eq_true, decide_eq_true_eq,
    if_false, reduceCtorEq]

theorem State.reclaimOver_unstuck (h : s.sdCount q + s.hostCount q = 0) : s.reclaimOver q = decide (s.hwm q ≤ s.freeOf q) := by
  rw [State.reclaimOver, h]
  simp only [State.unstickAll, h, decide_true, Bool.and_true]
  rfl

/-- The reclaimed frame is marked so, reads 0, and stands in the balloon no more. -/
theorem State.reclaimFrame_spec {f : Nat} {r : List Nat} (hb : (s.tmbOf q).balloon = f :: r) (at_ : Nat) :
    (s.reclaimFrame q at_).frame f = { st := .reclaimed } ∧ ((s.reclaimFrame q at_).tmbOf q).balloon = r
      ∧ ∀ i, i < 65536 → Memory.byte (s.reclaimFrame q at_).mem (65536 * f + i) = 0 := by
  have hheld : (s.reclaimFrame q at_).held q = ((s.emptyFrame f .reclaimed).frames, (s.emptyFrame f .reclaimed).mem, r) := by
    simp only [State.reclaimFrame, hb, State.held_reclaimStop, State.held_giveFlakes]
    rw [State.held, State.tmbOf_modTmb_self]
    rfl
  simp only [State.held, Prod.mk.injEq] at hheld
  obtain ⟨hframes, hmem, hballoon⟩ := hheld
  refine ⟨?_, hballoon, fun i hi => ?_⟩
  · rw [State.frame, hframes]
    exact State.frame_setFrame_self _ f _
  · rw [hmem]
    exact s.byte_emptyFrame f .reclaimed hi

end Reclaim

/-! Migrations (R67). -/

theorem State.migrateNext_moves {s s1 : State} {q : Nat} {m : Migration} (hm : (s.migrations.find? fun x => x.q = q) = some m)
    (hidle : s.rf (rTMB_CMD_STAT q) 0 1 = 0) (hdev : m.host = false)
    (hst : (s.frame m.frame).st = .compressed ∨ (s.frame m.frame).st = .raw) (hmove : s.moveFlakes q m.frame m.lode = some s1) :
    s.migrateNext q = { s1 with migrations := s1.migrations.erase m } := by
  have hhas : (decide ((s.frame m.frame).st ≠ .raw) && decide ((s.frame m.frame).st ≠ .compressed)) = false := by
    rcases hst with h | h <;> simp [h]
  simp only [State.migrateNext, hm, hidle, hdev, hhas, hmove, Bool.not_false, Bool.false_eq_true, Nat.zero_ne_one, if_false, if_true,
    Option.map_some, Option.getD_some]

/-! Capacity (R35, R46). -/

/-- A frame that the capacity `cap` would take away is in use. -/
def State.capCuts (s : State) (cap : Nat) : Bool :=
  s.leadList.any fun q => s.frames.any fun e => s.frameBase q + s.capFrames q cap ≤ e.1 && s.ownsFrame q e.1
    && e.2.st ≠ .empty && e.2.st ≠ .balloon && e.2.st ≠ .reclaimed

/-- A pool has not the flakes that the directory needs for the capacity `cap`. -/
def State.capShort (s : State) (cap : Nat) : Bool :=
  s.leadList.any fun q => s.freeOf q - s.lwm q < s.capFrames q cap / 2 - s.dirNow q

/-- A change of the capacity from `cur` to `cap`, where the device compresses. -/
def State.changeCap (s : State) (cap cur : Nat) : State :=
  if cap = cur && s.leadList.all fun q => s.dirNow q = s.capFrames q cap / 2 then s
  else if cap < 768 || 1536 < cap || (cap < cur && s.capCuts cap) || (cur ≤ cap && s.capShort cap) then s.tmbEvent 28 0
  else (s.leadList.foldl (fun s q => s.setCap q cap) s).setRf rTMB_CTL 8 11 cap

theorem FState.inUse_eq_false (st : FState) :
    ¬(st ≠ .empty ∧ st ≠ .balloon ∧ st ≠ .reclaimed) ↔ st = .empty ∨ st = .balloon ∨ st = .reclaimed := by
  cases st <;> decide

theorem State.capCuts_eq_false {s : State} {cap : Nat} : s.capCuts cap = false ↔
    ∀ q ∈ s.leadList, ∀ e ∈ s.frames, s.frameBase q + s.capFrames q cap ≤ e.1 → s.ownsFrame q e.1 = true →
      e.2.st = .empty ∨ e.2.st = .balloon ∨ e.2.st = .reclaimed := by
  simp only [State.capCuts, List.any_eq_false, Bool.not_eq_true, Bool.and_eq_true, decide_eq_true_eq, and_assoc, not_and,
    ← FState.inUse_eq_false]

theorem State.capShort_eq_false {s : State} {cap : Nat} : s.capShort cap = false ↔
    ∀ q ∈ s.leadList, s.capFrames q cap / 2 - s.dirNow q ≤ s.freeOf q - s.lwm q := by
  simp only [State.capShort, List.any_eq_false, decide_eq_true_eq, Nat.not_lt]

/-- A write of TMB_CTL where the device compresses, or is to. -/
theorem State.writeTmbCtl_eq {s : State} {v : Word} (hen : s.rf rTMB_CTL 0 1 = 1 ∨ wfld v 0 1 = 1) :
    s.writeTmbCtl v = (s.setRf rTMB_CTL 0 1 1).changeCap (wfld v 8 11) (s.rf rTMB_CTL 8 11) := by
  have h : (decide (s.rf rTMB_CTL 0 1 = 1) || decide (wfld v 0 1 = 1)) = true := by
    simpa only [Bool.or_eq_true, decide_eq_true_eq] using hen
  simp only [State.writeTmbCtl, h, if_true, Bool.not_true, Bool.false_and, Bool.or_false]
  rfl

section Capacity
variable {s : State} {cap cur : Nat}

theorem State.changeCap_same (hcap : cap = cur) (hdir : ∀ q ∈ s.leadList, s.dirNow q = s.capFrames q cap / 2) :
    s.changeCap cap cur = s := by
  rw [State.changeCap, if_pos]
  simpa [hcap] using hcap ▸ hdir

theorem State.changeCap_refused (hne : cap ≠ cur)
    (h : cap < 768 ∨ 1536 < cap ∨ cap < cur ∧ s.capCuts cap = true ∨ cur ≤ cap ∧ s.capShort cap = true) :
    s.changeCap cap cur = s.tmbEvent 28 0 := by
  have hrefused : (cap < 768 || 1536 < cap || (cap < cur && s.capCuts cap) || (cur ≤ cap && s.capShort cap)) = true := by
    simpa only [Bool.or_eq_true, Bool.and_eq_true, decide_eq_true_eq, or_assoc] using h
  simp only [State.changeCap, hne, hrefused, decide_false, Bool.false_and, Bool.false_eq_true, if_false, if_true]

theorem State.changeCap_taken (hne : cap ≠ cur) (hmin : 768 ≤ cap) (hmax : cap ≤ 1536) (hcut : cap < cur → s.capCuts cap = false)
    (hshort : cur ≤ cap → s.capShort cap = false) :
    s.changeCap cap cur = (s.leadList.foldl (fun s q => s.setCap q cap) s).setRf rTMB_CTL 8 11 cap := by
  have hallowed : (cap < 768 || 1536 < cap || (cap < cur && s.capCuts cap) || (cur ≤ cap && s.capShort cap)) = false := by
    simp only [Bool.or_eq_false_iff, Bool.and_eq_false_imp, decide_eq_true_eq, decide_eq_false_iff_not]
    exact ⟨⟨⟨by omega, by omega⟩, hcut⟩, hshort⟩
  simp only [State.changeCap, hne, hallowed, decide_false, Bool.false_and, Bool.false_eq_true, if_false]

end Capacity

/-- A change of the capacity that is taken stands in TMB_CTL. -/
theorem exec_tmbCtlWrite_taken {s : State} {v : Word} (sec : Bool) (hen : s.rf rTMB_CTL 0 1 = 1 ∨ wfld v 0 1 = 1)
    (hne : wfld v 8 11 ≠ s.rf rTMB_CTL 8 11) (hmin : 768 ≤ wfld v 8 11) (hmax : wfld v 8 11 ≤ 1536)
    (hcut : wfld v 8 11 < s.rf rTMB_CTL 8 11 → (s.setRf rTMB_CTL 0 1 1).capCuts (wfld v 8 11) = false)
    (hshort : s.rf rTMB_CTL 8 11 ≤ wfld v 8 11 → (s.setRf rTMB_CTL 0 1 1).capShort (wfld v 8 11) = false) :
    ∃ t, exec (.tmbCtlWrite v sec) s = .next t ∧ t.rf rTMB_CTL 8 11 = wfld v 8 11 :=
  ⟨_, congrArg Host.Outcome.next ((State.writeTmbCtl_eq hen).trans (State.changeCap_taken hne hmin hmax hcut hshort)),
    (State.rf_setRf_self _ _ _ (by decide)).trans (Nat.mod_eq_of_lt (by omega))⟩

theorem exec_tmbCtlWrite_refused {s : State} {v : Word} (sec : Bool) (hen : s.rf rTMB_CTL 0 1 = 1 ∨ wfld v 0 1 = 1)
    (hne : wfld v 8 11 ≠ s.rf rTMB_CTL 8 11)
    (h : wfld v 8 11 < 768 ∨ 1536 < wfld v 8 11
      ∨ wfld v 8 11 < s.rf rTMB_CTL 8 11 ∧ (s.setRf rTMB_CTL 0 1 1).capCuts (wfld v 8 11) = true
      ∨ s.rf rTMB_CTL 8 11 ≤ wfld v 8 11 ∧ (s.setRf rTMB_CTL 0 1 1).capShort (wfld v 8 11) = true) :
    exec (.tmbCtlWrite v sec) s = .next ((s.setRf rTMB_CTL 0 1 1).tmbEvent 28 0) :=
  congrArg Host.Outcome.next ((State.writeTmbCtl_eq hen).trans (State.changeCap_refused hne h))

/-! The steps of the engines. -/

/-- TO_RAW starts: its frame is BUSY with its 64 flakes. -/
theorem exec_tmbCmdDone_start {s s1 : State} {q : Nat} {r : TmbRun} (hrec : s.recalls = [])
    (hr : (s.tmbRuns.find? fun x => x.q = q) = some r) (hq : r.q = q) (hs : r.started = false) (hop : r.op = 4)
    (hstuck : s.frameStuck r.frame = false) (hst : (s.frame r.frame).st = .compressed)
    (hroom : s.lwm q + (64 - (s.frame r.frame).flakes.length) ≤ s.freeOf q)
    (htake : s.takeFlakes q r.frame (64 - (s.frame r.frame).flakes.length) s.nextId = some s1) (hrec1 : s1.recalls = []) :
    ∃ t, exec (.tmbCmdDone q) s = .next t ∧ (t.frame r.frame).st = .busy ∧ (t.frame r.frame).flakes = (s1.frame r.frame).flakes
      ∧ t.mem = s1.mem ∧ ∃ z ∈ t.tmbRuns, z.q = q ∧ z.started = true ∧ z.st = .raw := by
  subst hq
  have hframe := s1.frame_setFrame_self r.frame { s1.frame r.frame with st := .busy, cls := rawClasses }
  have hst1 := congrArg Frame.st hframe
  have hflakes := congrArg Frame.flakes hframe
  have hstart := (State.tmbDone_unstarted hr hs hstuck).trans (State.tmbStart_toRaw hop hst hroom htake)
  refine ⟨_, congrArg Host.Outcome.next (State.transact_eq hrec hstart hrec1), hst1, hflakes, rfl, _,
    List.mem_append_right _ List.mem_cons_self, rfl, rfl, rfl⟩

/-- TO_RAW ends: its frame is RAW, and TMB_CMD_STAT shows its result. -/
theorem exec_tmbCmdDone_end {s : State} {q : Nat} {r : TmbRun} (hrec : s.recalls = [])
    (hr : (s.tmbRuns.find? fun x => x.q = q) = some r) (hs : r.started = true) (hbusy : (s.frame r.frame).st = .busy)
    (hop : r.op = 4) (hst : r.st = .raw) (hpaid : ∀ l ∈ s.lines, l.frame = r.frame → l.owed = false) :
    ∃ t, exec (.tmbCmdDone q) s = .next t ∧ t.frame r.frame = { s.frame r.frame with st := .raw, cls := [], fmt := 0 }
      ∧ t.rf (rTMB_CMD_STAT q) 0 1 = 0 ∧ t.rf (rTMB_CMD_STAT q) 1 3 = r.result % 8 ∧ t.mem = s.mem := by
  have hend := (s.setFrame r.frame { s.frame r.frame with st := .raw, cls := [], fmt := 0 }).tmbEnd_ended q r.result
  refine ⟨_, congrArg Host.Outcome.next (State.transact_eq hrec (State.tmbDone_raw hr hs hbusy hop hst hpaid)
    (hend.recalls.trans hrec)), ?_, hend.idle, hend.result, hend.mem⟩
  rw [State.frame, hend.frames]
  exact s.frame_setFrame_self r.frame _

theorem exec_lineWriteback_clean {s : State} {l : LLine} (hrec : s.recalls = []) (h : s.Evictable l) (hd : l.dirty = false) :
    exec (.lineWriteback l.id) s = .next (s.dropLine l.id) :=
  congrArg Host.Outcome.next (State.transact_eq hrec (by rw [State.evict_eq h, State.writeback_clean h.listed hd]; rfl) hrec)

theorem exec_lineWriteback_raw {s : State} {l : LLine} (hrec : s.recalls = []) (h : s.Evictable l) (hd : l.dirty = true)
    (hloc : l.loc = false) (hst : (s.frame l.frame).st = .raw) (hfl : (s.frame l.frame).flakes ≠ []) :
    ∃ t, exec (.lineWriteback l.id) s = .next t ∧ t.storedLine l.frame l.off = l.data ∧ (∀ x ∈ t.lines, x.id ≠ l.id)
      ∧ ∀ a, (a < 65536 * l.frame + 128 * l.off ∨ 65536 * l.frame + 128 * l.off + 128 ≤ a) →
        Memory.byte t.mem a = Memory.byte s.mem a := by
  obtain ⟨ls, hevict⟩ := State.evict_raw h hd hloc hst hfl
  refine ⟨_, congrArg Host.Outcome.next (State.transact_eq hrec hevict hrec), ?_, fun x hx => ?_, fun a ha => ?_⟩
  · exact s.storedLine_putStored l.frame l.off l.data l.poison
  · exact of_decide_eq_true (List.mem_filter.1 hx).2
  · exact s.byte_putStored_other l.frame l.off l.data l.poison ha

theorem exec_rawFlakesGranted_idle {s : State} {f : Nat} (h : ∀ w ∈ s.rawWait, w.2 ≠ f) : exec (.rawFlakesGranted f) s = .next s := by
  have hany : ¬(s.rawWait.any fun w => decide (w.2 = f)) = true := by
    simpa only [List.any_eq_true, decide_eq_true_eq, not_exists, not_and] using h
  exact congrArg Host.Outcome.next (if_neg hany)

theorem exec_rawFlakesGranted_waiting {s s1 : State} {f : Nat} {w : Nat × Nat} (hw : (s.rawWait.find? fun x => x.2 = f) = some w)
    (hst : (s.frame f).st = .raw) (hfl : (s.frame f).flakes = []) (htake : s.takeFlakes (s.frameLead f) f 64 w.1 = some s1) :
    exec (.rawFlakesGranted f) s = .next { s1 with rawWait := s1.rawWait.filter fun x => x.2 ≠ f } := by
  have hany : (s.rawWait.any fun w => decide (w.2 = f)) = true :=
    List.any_eq_true.2 ⟨w, List.mem_of_find?_eq_some hw, List.find?_some (p := fun x : Nat × Nat => decide (x.2 = f)) hw⟩
  exact congrArg Host.Outcome.next ((if_pos hany).trans (State.grantRaw_waiting hw hst hfl htake))

/-- The oldest stuck line is written back. -/
theorem exec_stuckLineWriteback_oldest {s s1 : State} {q : Nat} {l : LLine} {ok : Bool} (hrec : s.recalls = [])
    (hl : minBy (fun x => x.stuck.getD 0) (s.lines.filter fun x => x.stuck.isSome && s.leadOfLode x.lode = q) = some l)
    (hw : s.writeback l.id = (s1, ok)) (hrec1 : s1.recalls = []) : exec (.stuckLineWriteback q) s = .next s1 :=
  congrArg Host.Outcome.next (State.transact_eq hrec (by simp only [State.unstick, hl, hw]) hrec1)

theorem exec_tumblerMigration_moves {s s1 : State} {q : Nat} {m : Migration} (hrec : s.recalls = [])
    (hm : (s.migrations.find? fun x => x.q = q) = some m) (hidle : s.rf (rTMB_CMD_STAT q) 0 1 = 0) (hdev : m.host = false)
    (hst : (s.frame m.frame).st = .compressed ∨ (s.frame m.frame).st = .raw) (hmove : s.moveFlakes q m.frame m.lode = some s1)
    (hrec1 : s1.recalls = []) : exec (.tumblerMigration q) s = .next { s1 with migrations := s1.migrations.erase m } :=
  congrArg Host.Outcome.next (State.transact_eq hrec (State.migrateNext_moves hm hidle hdev hst hmove) hrec1)

end Sys2Proof.Machine
end

section
/-! PROOFS. O39 from its parts. -/
namespace Sys2Proof.Machine

section Refusals
variable {s t : State} {q f op lode : Nat} {fmt : BitVec 4} {sec : Bool} {i : Instr}

/-- A write of TMB_CMD that is refused with result `res` has ended so. -/
theorem exec_tmbCommand_ends (hi : exec i s = .next (s.tmbCommand q op fmt lode f sec)) (hq : q < 4) {res : Nat} (hres : res < 8)
    (h : s.tmbCommand q op fmt lode f sec = s.tmbEnd q res) :
    ∃ t, exec i s = .next t ∧ t.rf (rTMB_CMD_STAT q) 0 1 = 0 ∧ t.rf (rTMB_CMD_STAT q) 1 3 = res
      ∧ t.rf rTMB_INT_STAT (24 + q) 1 = 1 ∧ t.frames = s.frames ∧ t.mem = s.mem :=
  ⟨_, hi.trans (congrArg Host.Outcome.next h), (s.tmbEnd_ended q res).shown hq hres⟩

/-- RECODE, TO_RAW, TO_CMP and MIGRATE begin where their frame's state allows them. -/
theorem exec_tmbWork_begins (hi : exec i s = .next (s.tmbCommand q op fmt lode f sec)) (h : s.Reaches q op lode f) (hop : 3 ≤ op)
    (hs : sec = true ∨ s.frameSecure q f = false) (hst : tmbStateOk op (s.frame f).st = true) :
    ∃ t, exec i s = .next t ∧ (t.rf (rTMB_CMD_STAT q) 0 1 = 1 ∧ ∃ z ∈ t.tmbRuns, z.q = q ∧ z.op = op ∧ z.frame = f)
      ∧ t.frames = s.frames := by
  obtain ⟨t, ht, hbegun⟩ := (s.tmbWork_spec (s.tmbHold q op fmt lode f) rfl).1 hst
  exact ⟨t, hi.trans (congrArg Host.Outcome.next
    ((State.tmbCommand_perform h hs).trans ((s.tmbPerform_work q hop fmt lode f).trans ht))), hbegun⟩

/-- They are refused as STATE elsewhere. -/
theorem exec_tmbWork_state (hi : exec i s = .next (s.tmbCommand q op fmt lode f sec)) (h : s.Reaches q op lode f) (hop : 3 ≤ op)
    (hs : sec = true ∨ s.frameSecure q f = false) (hst : tmbStateOk op (s.frame f).st = false) :
    ∃ t, exec i s = .next t ∧ t.rf (rTMB_CMD_STAT q) 0 1 = 0 ∧ t.rf (rTMB_CMD_STAT q) 1 3 = 3
      ∧ t.rf rTMB_INT_STAT (24 + q) 1 = 1 ∧ t.frames = s.frames ∧ t.mem = s.mem :=
  exec_tmbCommand_ends hi (State.lead_lt h.leads) (by decide) ((State.tmbCommand_perform h hs).trans
    ((s.tmbPerform_work q hop fmt lode f).trans ((s.tmbWork_spec (s.tmbHold q op fmt lode f) rfl).2 hst)))

end Refusals

/-- Settles O39: each command by its refusals in their order and by what it does to its frame; each engine's step by the
branch of the Tumbler's own rule that the clause's hypotheses choose. -/
theorem tumbler : Obligations.Tumbler := by
  unfold Obligations.Tumbler
  refine ⟨fun s q f sec hl => ⟨fun hb i hi => ?busy,
    fun hb => ⟨fun op hop => ?badOp, fun hf i hi => ?badFrame, fun hf hsec hw i hi => ?world⟩,
    fun hb hf hs => ⟨query_spec (State.reaches_frame hl hb hf (by decide)) hs,
      donate_spec (State.reaches_frame hl hb hf (by decide)) hs, withdraw_balloon_spec (State.reaches_frame hl hb hf (by decide)) hs,
      withdraw_reclaimed_spec (State.reaches_frame hl hb hf (by decide)) hs, fun i op n hi => ?work⟩,
    fun lode => ⟨fun hb => ?migrateBusy, fun hb => ⟨fun h => ?migrateBadFrame, fun hf hlode => ?migrate⟩⟩⟩,
    fun s => ⟨fun q r hrec hr hq => ⟨fun s1 hs hop hstuck hst hroom htake hrec1 => ?cmdStart, fun _ hs hbusy hop hst hpaid => ?cmdEnd⟩,
      fun l hrec hl hso hstaged hshadow hcontract hlo hhi hloc hstuck => ?writeback, fun f h => ?idleGrant, fun f w s1 hw hst hfl htake => ?grant,
      fun q l s1 hrec hl hw hrec1 => ?unstick, fun q hr => ⟨fun ho => ?stops, fun hfree hstuck => ?isOver,
        fun hfree hstuck => ?goesOn, fun f r ho hb => ?reclaim⟩,
      fun q m s1 hrec hm hidle hdev hst hmove hrec1 => ?migration, fun v sec => ?capacity⟩⟩
  case busy =>
    obtain ⟨op, fmt, _, hexec⟩ := exec_tmbCommand hi
    rw [hexec, State.tmbCommand_busy hl hb]
  case badOp => exact exec_tmbCommand_ends rfl (State.lead_lt hl) (by decide) (State.tmbCommand_badOp hl hb hop)
  case badFrame =>
    obtain ⟨op, fmt, hop, hexec⟩ := exec_tmbCommand hi
    exact exec_tmbCommand_ends (hexec s) (State.lead_lt hl) (by decide) (State.tmbCommand_badFrame hl hb (by omega) (.inl hf))
  case world =>
    obtain ⟨op, fmt, hop, hexec⟩ := exec_tmbCommand hi
    subst hsec
    exact exec_tmbCommand_ends (hexec s) (State.lead_lt hl) (by decide)
      (State.tmbCommand_world (State.reaches_frame hl hb hf hop) hw)
  case work =>
    obtain ⟨fmt, hmin, hmax, hexec⟩ := exec_tmbWork hi
    exact ⟨exec_tmbWork_begins (hexec s) (State.reaches_frame hl hb hf hmax) hmin hs,
      exec_tmbWork_state (hexec s) (State.reaches_frame hl hb hf hmax) hmin hs⟩
  case migrateBusy => exact congrArg Host.Outcome.next (State.tmbCommand_busy hl hb)
  case migrateBadFrame =>
    exact exec_tmbCommand_ends rfl (State.lead_lt hl) (by decide)
      (State.tmbCommand_badFrame hl hb (by decide) (h.imp_right fun h => ⟨rfl, h⟩))
  case migrate =>
    have hreach : s.Reaches q 6 lode f := ⟨hl, hb, by decide, hf, fun _ => hlode⟩
    refine ⟨fun hnot => ?_, fun hs => exec_tmbWork_state rfl hreach (by decide) hs,
      fun hs => exec_tmbWork_begins rfl hreach (by decide) hs⟩
    obtain ⟨hsec, hw⟩ := not_or.1 hnot
    cases Bool.eq_false_of_not_eq_true hsec
    exact exec_tmbCommand_ends rfl (State.lead_lt hl) (by decide) (State.tmbCommand_world hreach (Bool.eq_true_of_not_eq_false hw))
  case cmdStart => exact exec_tmbCmdDone_start hrec hr hq hs hop hstuck hst hroom htake hrec1
  case cmdEnd => exact exec_tmbCmdDone_end hrec hr hs hbusy hop hst hpaid
  case writeback =>
    have hevictable : s.Evictable l := ⟨hl, hso, hstaged, hshadow, hcontract, hlo, hhi, hstuck⟩
    exact ⟨exec_lineWriteback_clean hrec hevictable, fun hd => exec_lineWriteback_raw hrec hevictable hd hloc⟩
  case idleGrant => exact exec_rawFlakesGranted_idle h
  case grant => exact exec_rawFlakesGranted_waiting hw hst hfl htake
  case unstick => exact exec_stuckLineWriteback_oldest hrec hl hw hrec1
  case stops =>
    exact ⟨_, congrArg Host.Outcome.next (State.reclaim_over hr ho), congrArg TmbPart.reclaiming (s.tmbOf_modTmb_self q _), rfl⟩
  case isOver => rw [State.reclaimOver_unstuck hstuck, decide_eq_true hfree]
  case goesOn => rw [State.reclaimOver_unstuck hstuck, decide_eq_false (Nat.not_le.2 hfree)]
  case reclaim =>
    refine ⟨fun hearly => ?_, fun hlate => ?_⟩
    · exact congrArg Host.Outcome.next ((State.reclaim_goes hr ho hb).trans (if_neg (Nat.not_le.2 hearly)))
    · exact ⟨_, congrArg Host.Outcome.next ((State.reclaim_goes hr ho hb).trans (if_pos hlate)), State.reclaimFrame_spec hb s.clk⟩
  case migration => exact exec_tumblerMigration_moves hrec hm hidle hdev hst hmove hrec1
  case capacity =>
    intro cap s1 hen cur room idle above refused taken
    refine ⟨fun hcap hdir => ?_, fun hrange hne => exec_tmbCtlWrite_refused sec hen hne (hrange.imp_right .inl),
      fun hmin hmax => ⟨fun hlt => ⟨fun hroom => ?_, fun hroom => ?_⟩, fun hlt => ⟨fun habove => ?_, fun habove => ?_⟩⟩⟩
    · exact congrArg Host.Outcome.next ((State.writeTmbCtl_eq hen).trans (State.changeCap_same hcap hdir))
    · exact exec_tmbCtlWrite_taken sec hen (Nat.ne_of_gt hlt) hmin hmax (fun h => absurd h (Nat.lt_asymm hlt))
        fun _ => State.capShort_eq_false.2 hroom
    · exact exec_tmbCtlWrite_refused sec hen (Nat.ne_of_gt hlt) (.inr (.inr (.inr ⟨Nat.le_of_lt hlt,
        Bool.eq_true_of_not_eq_false fun h => hroom (State.capShort_eq_false.1 h)⟩)))
    · exact exec_tmbCtlWrite_taken sec hen (Nat.ne_of_lt hlt) hmin hmax (fun _ => State.capCuts_eq_false.2 habove)
        fun h => absurd hlt (Nat.not_lt.2 h)
    · exact exec_tmbCtlWrite_refused sec hen (Nat.ne_of_lt hlt) (.inr (.inr (.inl ⟨hlt,
        Bool.eq_true_of_not_eq_false fun h => habove (State.capCuts_eq_false.1 h)⟩)))

end Sys2Proof.Machine
end

section
/-! PROOFS. Contracts (O41): what an admission and a release leave as it was, and how each is answered (R77 to R80, R272). -/
namespace Sys2Proof.Machine

/-! Answers to operations with one scalar destination. -/

/-- `t` holds the result of `s`'s operation `res`: `code`, in the scalar register that the operation names. -/
def State.Answers (s t : State) (res code : Nat) : Prop :=
  ∀ o ∈ s.results, o.id = res → ∀ d, o.regs = [.s d] →
    ∃ p ∈ t.results, p.id = o.id ∧ p.ready = true ∧ p.writes = [⟨.s d, 0, BitVec.ofNat 64 code⟩]

theorem State.answers_modResult {s t : State} (h : t.results = s.results) (res : Nat) {code : Nat} {f : Result → Result}
    (hf : ∀ o d, o.regs = [.s d] → (f o).id = o.id ∧ (f o).ready = true ∧ (f o).writes = [⟨.s d, 0, BitVec.ofNat 64 code⟩]) :
    s.Answers (t.modResult res f) res code := fun o ho hid d hd =>
  ⟨f o, List.mem_map.2 ⟨o, h ▸ ho, if_pos hid⟩, hf o d hd⟩

theorem State.answers_ctrAnswer {s t : State} (h : t.results = s.results) (r : CtrReq) (code : Nat) :
    s.Answers (t.ctrAnswer r code) r.res code :=
  State.answers_modResult (t := { t with ctrReqs := t.ctrReqs.filter fun x => x.id ≠ r.id }) h r.res
    fun o d hd => ⟨rfl, rfl, by simp only [hd]; rfl⟩

/-! Bytes of device memory beside lines that move to other banks, and beside new strata-only lines. -/

theorem State.holder_eq_or (s : State) (f off : Nat) :
    s.holder f off = (s.lines.find? fun l => l.standsFor f off && !l.detached).or (s.lines.find? fun l => l.standsFor f off) := by
  have h : s.holder f off = match s.lines.find? fun l => l.standsFor f off && !l.detached with
      | some l => some l
      | none => s.lines.find? fun l => l.standsFor f off := rfl
  rw [h]
  cases s.lines.find? fun l => l.standsFor f off && !l.detached <;> rfl

theorem State.byte_of_data {s t : State} (hm : t.mem = s.mem)
    (h : ∀ f off, (t.holder f off).map (·.data) = (s.holder f off).map (·.data)) : t.byte = s.byte := by
  have hline (u : State) (f off : Nat) : u.line f off = ((u.holder f off).map (·.data)).getD (u.storedLine f off) := by
    rw [State.line]
    cases u.holder f off <;> rfl
  funext pa
  rw [State.byte, State.byte, hline, hline, h, State.storedLine, State.storedLine, hm]

/-- Lines change, but not what they stand for, nor their contents. -/
theorem State.byte_map {s t : State} {g : LLine → LLine} (hm : t.mem = s.mem) (hl : t.lines = s.lines.map g)
    (hg : ∀ l f off, (g l).standsFor f off = l.standsFor f off ∧ (g l).detached = l.detached ∧ (g l).data = l.data) :
    t.byte = s.byte := by
  refine State.byte_of_data hm fun f off => ?_
  have hfind (p : LLine → Bool) (hp : ∀ l, p (g l) = p l) :
      (t.lines.find? p).map (·.data) = (s.lines.find? p).map (·.data) := by
    rw [hl, List.find?_map, show p ∘ g = p from funext hp, Option.map_map]
    exact congrArg (Option.map · _) (funext fun l => (hg l f off).2.2)
  simp only [State.holder_eq_or, Option.map_or]
  rw [hfind _ fun l => by rw [(hg l f off).1, (hg l f off).2.1], hfind _ fun l => (hg l f off).1]

/-- A new strata-only line stands for nothing in device memory. -/
theorem State.byte_append_so {s t : State} {y : LLine} (hm : t.mem = s.mem) (hl : t.lines = s.lines ++ [y]) (hy : y.so = true) :
    t.byte = s.byte := by
  refine State.byte_of_data hm fun f off => ?_
  have hstands : y.standsFor f off = false := by simp [LLine.standsFor, hy]
  simp [State.holder_eq_or, hl, hstands]

theorem State.byte_addLine_so (s : State) {l : LLine} (h : l.so = true) : (s.addLine l).2.byte = s.byte :=
  State.byte_append_so (y := (s.addLine l).1) rfl rfl h

/-! The pages of a range (R79). -/

theorem State.readless_segments (s : State) (q : Nat) (asid : BitVec 16) (fuel va stop : Nat) :
    (s.segments q asid fuel va stop).2.readless = s.readless := by
  induction fuel generalizing s va with
  | zero => rfl
  | succ fuel ih =>
    rw [State.segments]
    split
    · rfl
    · exact (ih _ _).trans (s.readless_walk q asid va)

/-- The state after the walks that an admission makes. -/
def State.walked (s : State) (r : CtrReq) : State :=
  (s.segments r.q r.asid (r.pages + 1) r.base (r.base + 65536 * r.pages)).2

theorem State.walked_readless (s : State) (r : CtrReq) : (s.walked r).readless = s.readless := s.readless_segments ..

theorem State.walked_results (s : State) (r : CtrReq) : (s.walked r).results = s.results :=
  (congrArg State.results (s.walked_readless r) :)

theorem State.walked_lines (s : State) (r : CtrReq) : (s.walked r).lines = s.lines :=
  (congrArg State.lines (s.walked_readless r) :)

theorem State.walked_byte (s : State) (r : CtrReq) : (s.walked r).byte = s.byte :=
  (congrArg State.byte (s.walked_readless r) :)

theorem State.walked_rf (s : State) (r : CtrReq) (o lo n : Nat) : (s.walked r).rf o lo n = s.rf o lo n :=
  (congrArg (State.rf · o lo n) (s.walked_readless r) :)

theorem State.walked_lineTag (s : State) (r : CtrReq) (l : LLine) : (s.walked r).lineTag l = s.lineTag l :=
  (congrArg (State.lineTag · l) (s.walked_readless r) :)

/-! What a grant does to the lines of its range (R78). -/

/-- The results and the contracts, which no work on lines changes. -/
def State.deals (s : State) : List Result × List Contract := (s.results, s.contracts)

theorem State.deals_of_tends {s t : State} (h : s.Tends t) : t.deals = s.deals := (congrArg State.deals h.lineless :)

theorem State.deals_touch (s : State) (l : LLine) (mask : Line) (write : Bool) : (s.touch l mask write).deals = s.deals := by
  rw [State.touch_recalls]; rfl

theorem State.deals_modLine (s : State) (id : Nat) (f : LLine → LLine) : (s.modLine id f).deals = s.deals := rfl
theorem State.deals_dropLine (s : State) (id : Nat) : (s.dropLine id).deals = s.deals := rfl

theorem State.deals_grantLines (s : State) (c : Contract) (segs : List (Nat × Nat × Option Leaf)) :
    (s.grantLines c segs).deals = s.deals := by
  rw [State.grantLines]
  split
  · refine (foldl_keeps State.deals (fun t x => ?_) _ _).trans rfl
    dsimp only
    split
    · rfl
    · split <;> rfl
  · split
    · refine foldl_keeps State.deals (fun t l => ?_) _ _
      have hback := (State.deals_of_tends (State.tends_writeback (t.touch l (BitVec.allOnes 1024) true) l.id)).trans
        (t.deals_touch l _ true)
      dsimp only
      split
      · exact (State.deals_dropLine _ _).trans hback
      · exact (State.deals_modLine _ _ _).trans hback
    · rfl

/-- Where a KEEPOUT finds no line of its range, a grant changes no byte of memory. -/
theorem State.byte_grantLines (s : State) (c : Contract) (segs : List (Nat × Nat × Option Leaf))
    (h : c.kind = kKeepout → ∀ l ∈ s.lines, s.lineIn c l = false) : (s.grantLines c segs).byte = s.byte := by
  rw [State.grantLines]
  split
  · refine (foldl_keeps State.byte (fun t x => ?_) _ _).trans (State.byte_map rfl rfl fun l f off => ?_)
    · dsimp only
      split
      · rfl
      · split
        · exact t.byte_addLine_so rfl
        · rfl
    · split <;> exact ⟨rfl, rfl, rfl⟩
  · split
    · next hk =>
      rw [List.filter_eq_nil_iff.2 fun l hl => by simp [h hk l hl]]
      rfl
    · rfl

/-! Admission (R77, R79, R82). -/

/-- A contract of a request. -/
structure Contract.Of (c : Contract) (r : CtrReq) (k : Nat) : Prop where
  q     : c.q = r.q
  kind  : c.kind = k
  ctx   : c.ctx = r.ctx
  asid  : c.asid = r.asid
  base  : c.base = r.base
  pages : c.pages = r.pages

/-- The contract stands; its translation-buffer entries are marked. -/
def State.withContract (s : State) (c : Contract) (tb : List TbEntry) : State :=
  { s with nextId := s.nextId + 1, contracts := s.contracts ++ [c], tb := tb }

/-- WHAT AN ADMISSION CAN DO: it refuses and leaves what the walks left, or grants the contract and sees to its lines. -/
theorem State.takeIn_cases (s : State) (r : CtrReq) (k : Nat) :
    ((s.takeIn r k).1 ≠ 0 ∧ (s.takeIn r k).2 = s.walked r)
    ∨ ((s.takeIn r k).1 = 0 ∧ ∃ c tb segs, c.Of r k ∧ (s.takeIn r k).2 = ((s.walked r).withContract c tb).grantLines c segs) := by
  generalize h : s.takeIn r k = x
  have refused {n : Nat} (hx : (n + 1, s.walked r) = x) : x.1 ≠ 0 ∧ x.2 = s.walked r := by
    subst hx; exact ⟨Nat.succ_ne_zero n, rfl⟩
  rw [State.takeIn] at h
  dsimp only at h
  split at h
  · exact .inl (refused h)
  · split at h
    · exact .inl (refused h)
    · split at h
      · exact .inl (refused h)
      · split at h
        · exact .inl (refused h)
        · split at h
          · exact .inl (refused h)
          · subst h
            exact .inr ⟨rfl, _, _, _, ⟨rfl, rfl, rfl, rfl, rfl, rfl⟩, rfl⟩

theorem State.takeIn_results (s : State) (r : CtrReq) (k : Nat) : (s.takeIn r k).2.results = s.results := by
  rcases s.takeIn_cases r k with ⟨-, h⟩ | ⟨-, c, tb, segs, -, h⟩
  · rw [h, s.walked_results r]
  · rw [h]
    exact (congrArg Prod.fst (State.deals_grantLines ..)).trans (s.walked_results r)

/-- Where no line held is of a KEEPOUT's ASID, an admission changes no byte of memory. -/
theorem State.takeIn_byte (s : State) (r : CtrReq) (k : Nat)
    (hk : k = kKeepout → ∀ l ∈ s.lines, ∀ x, s.lineTag l = some x → x.1 ≠ r.asid) : (s.takeIn r k).2.byte = s.byte := by
  rcases s.takeIn_cases r k with ⟨-, h⟩ | ⟨-, c, tb, segs, hc, h⟩
  · rw [h, s.walked_byte r]
  · rw [h]
    refine (State.byte_grantLines _ c segs fun hkind l hl => ?_).trans (s.walked_byte r)
    have hl' : l ∈ s.lines := s.walked_lines r ▸ hl
    have htag : ((s.walked r).withContract c tb).lineTag l = s.lineTag l := s.walked_lineTag r l
    rw [State.lineIn, htag]
    cases hx : s.lineTag l with
    | none => rfl
    | some x =>
      have hne := hk (hc.kind.symm.trans hkind) l hl' x hx
      simp [hc.asid, hne]

theorem State.ctrAdmit_eq (s : State) (r : CtrReq) (k : Nat) : s.ctrAdmit r k =
    (if (s.takeIn r k).1 = 0 then (s.takeIn r k).2 else (s.takeIn r k).2.incRf (rCT_STAT r.q) 16 16).ctrAnswer r (s.takeIn r k).1 :=
  rfl

theorem exec_contractAdmission {s : State} {r : CtrReq} {k : Nat} (hrec : s.recalls = [])
    (hr : (s.ctrReqs.find? fun x => x.id = r.id) = some r) (hk : r.kind = some k) (ht : (s.takeIn r k).2.recalls = []) :
    exec (.contractAdmission r.id) s = .next (s.ctrAdmit r k) := by
  refine congrArg Host.Outcome.next ?_
  rw [hr]
  dsimp only
  rw [hk]
  refine State.transact_of hrec ?_
  rw [State.ctrAdmit_eq]
  split <;> exact ht

/-- An admission is answered with its code: the contract stands where the code is 0, and is counted as denied elsewhere (R79). -/
theorem exec_contractAdmission_spec {s : State} {r : CtrReq} {k : Nat} (hrec : s.recalls = [])
    (hr : (s.ctrReqs.find? fun x => x.id = r.id) = some r) (hk : r.kind = some k) (ht : (s.takeIn r k).2.recalls = []) :
    ∃ t, exec (.contractAdmission r.id) s = .next t ∧ s.Answers t r.res (s.takeIn r k).1
      ∧ ((s.takeIn r k).1 = 0 → ∃ c, t.contracts = (s.walked r).contracts ++ [c] ∧ c.Of r k)
      ∧ ((s.takeIn r k).1 ≠ 0 → t.contracts = (s.walked r).contracts
        ∧ t.rf (rCT_STAT r.q) 16 16 = (s.rf (rCT_STAT r.q) 16 16 + 1) % 65536)
      ∧ t.byte = (s.takeIn r k).2.byte := by
  refine ⟨_, exec_contractAdmission hrec hr hk ht, ?_⟩
  rw [State.ctrAdmit_eq]
  have hres := s.takeIn_results r k
  rcases s.takeIn_cases r k with ⟨hcode, hx⟩ | ⟨hcode, c, tb, segs, hc, hx⟩
  · rw [if_neg hcode]
    have hcs : (s.takeIn r k).2.contracts = (s.walked r).contracts := by rw [hx]
    have hrf : (s.takeIn r k).2.rf (rCT_STAT r.q) 16 16 = s.rf (rCT_STAT r.q) 16 16 := by rw [hx, s.walked_rf r]
    have hcount := (s.takeIn r k).2.rf_setRf_self (rCT_STAT r.q) (lo := 16) (n := 16)
      ((s.takeIn r k).2.rf (rCT_STAT r.q) 16 16 + 1) (by decide)
    exact ⟨State.answers_ctrAnswer hres r _, fun h => absurd h hcode,
      fun _ => ⟨hcs, hcount.trans (congrArg (fun n => (n + 1) % 65536) hrf)⟩, rfl⟩
  · rw [if_pos hcode]
    have hdeals : (s.takeIn r k).2.contracts = (s.walked r).contracts ++ [c] := by
      rw [hx]
      exact congrArg Prod.snd (State.deals_grantLines ..)
    exact ⟨State.answers_ctrAnswer hres r _, fun _ => ⟨c, hdeals, hc⟩, fun h => absurd hcode h, rfl⟩

/-! Release (R80). -/

theorem exec_contractRelease {s t : State} {r : CtrReq} (hrec : s.recalls = [])
    (hr : (s.ctrReqs.find? fun x => x.id = r.id) = some r) (hk : r.kind = none) (hx : s.ctrRelease r = t) (ht : t.recalls = []) :
    exec (.contractRelease r.id) s = .next t := by
  refine congrArg Host.Outcome.next ?_
  rw [hr]
  dsimp only
  rw [hk]
  exact State.transact_eq hrec hx ht

theorem State.ctrRelease_owing {s : State} {r : CtrReq} {l : List Nat} (ho : r.owes = some l) :
    s.ctrRelease r = if s.stillOwed l then s else s.ctrAnswer r 0 := by
  rw [State.ctrRelease, ho]

theorem State.ctrRelease_unknown {s : State} {r : CtrReq} (ho : r.owes = none)
    (hc : (s.contracts.find? fun c => c.q = r.q && c.asid = r.asid && c.ctx = r.ctx && c.base = r.base) = none) :
    s.ctrRelease r = s.ctrAnswer r 7 := by
  rw [State.ctrRelease, ho]
  dsimp only
  rw [hc]

/-- A contract that holds no PIN lines ends; translation-buffer entries of its pages may be replaced again. -/
theorem State.releaseContract_unpinned (s : State) {c : Contract} (hk : c.kind ≠ kPin) :
    ∃ tb, s.releaseContract c = { s with contracts := s.contracts.filter fun x => x.id ≠ c.id, tb := tb } :=
  ⟨_, if_pos hk⟩

theorem State.ctrRelease_unpinned {s : State} {r : CtrReq} {c : Contract} (ho : r.owes = none)
    (hc : (s.contracts.find? fun c => c.q = r.q && c.asid = r.asid && c.ctx = r.ctx && c.base = r.base) = some c)
    (hk : c.kind ≠ kPin) : s.ctrRelease r = (s.releaseContract c).ctrAnswer r 0 := by
  rw [State.ctrRelease, ho]
  dsimp only
  rw [hc]
  exact if_neg (by simp [hk])

end Sys2Proof.Machine
end

section
/-! PROOFS. The key-value reserve (O41): the age clock, and an operation at its key's home (R83, R84, R274). -/
namespace Sys2Proof.Machine

/-! The age clock (R84). -/

theorem State.kvTick_early {s : State} {n : Nat} (h : s.clk < (s.lodeOf n).tickAt) : s.kvTick n = s := if_pos h

/-- A lode's clock `k` advances on. -/
def LodeX.aged (k : Nat) (x : LodeX) : LodeX := { x with age := x.age + BitVec.ofNat 16 k, tickAt := x.tickAt + 4096 * k }

/-- The clock advances by `k`; the entries that reach half its range are marked. -/
def State.aged (s : State) (n k : Nat) : State :=
  { s.modLode n (LodeX.aged k) with
    kv := s.kv.map fun e =>
      if e.lode = n && 32768 ≤ ((s.lodeOf n).age - e.stamp).toNat + k then { e with oldest := true } else e }

theorem State.kvTick_due {s : State} {n : Nat} (h : (s.lodeOf n).tickAt ≤ s.clk) :
    s.kvTick n = s.aged n ((s.clk - (s.lodeOf n).tickAt) / 4096 + 1) := if_neg (Nat.not_lt.2 h)

theorem State.lodeOf_aged (s : State) (n k : Nat) : (s.aged n k).lodeOf n = (s.lodeOf n).aged k :=
  s.lodeOf_modLode_self n (LodeX.aged k)

/-- An age of half the range after `k` advances was at least that less `k` before them. -/
theorem age_before {a b : BitVec 16} {k : Nat} (h : 32768 ≤ (a + BitVec.ofNat 16 k - b).toNat) : 32768 ≤ (a - b).toNat + k := by
  have hsum : a + BitVec.ofNat 16 k - b = (a - b) + BitVec.ofNat 16 k := by
    rw [BitVec.sub_eq_add_neg, BitVec.sub_eq_add_neg, BitVec.add_assoc, BitVec.add_comm (BitVec.ofNat 16 k), BitVec.add_assoc]
  rw [hsum, BitVec.toNat_add, BitVec.toNat_ofNat] at h
  omega

theorem State.oldest_of_aged {s : State} {n k : Nat} {e : KvEntry} (he : e ∈ (s.aged n k).kv) (hn : e.lode = n)
    (hage : 32768 ≤ (((s.aged n k).lodeOf n).age - e.stamp).toNat) : e.oldest = true := by
  rw [State.lodeOf_aged] at hage
  obtain ⟨x, -, rfl⟩ := List.mem_map.1 he
  split
  · rfl
  · next hx =>
    rw [if_neg hx] at hn hage
    exact absurd (Bool.and_eq_true_iff.2 ⟨decide_eq_true hn, decide_eq_true (age_before hage)⟩) hx

/-! An operation at its home. -/

/-- The request ends as its operation is performed. -/
def State.withoutKv (s : State) (id : Nat) : State := { s with kvReqs := s.kvReqs.filter fun x => x.id ≠ id }

/-- The status word of an operation. -/
def State.kvAnswer (s : State) (r : KvReq) (st : Nat) : State :=
  s.modResult r.res fun o =>
    { o with ready := true, readyAt := s.clk, writes := o.regs.filterMap fun g =>
        match g with
        | .s d => some ⟨.s d, 0, BitVec.ofNat 64 st⟩
        | _ => none }

theorem State.partOf_kvAnswer (s : State) (r : KvReq) (st wg p : Nat) : (s.kvAnswer r st).partOf wg p = s.partOf wg p := rfl

/-- A request stands, its key's home is awake, and the home's age clock is up to date. -/
structure State.AtHome (s : State) (r : KvReq) (lode : Nat) : Prop where
  idle  : s.recalls = []
  req   : (s.kvReqs.find? fun x => x.id = r.id) = some r
  home  : s.kvHome r.q r.asid r.key = some lode
  awake : (s.lodeOf lode).asleep = false
  early : s.clk < (s.lodeOf lode).tickAt

/-- The operation ends the request, leads to `p`, and answers `code`. -/
def State.KvDone (s : State) (r : KvReq) (code : Nat) (p : State → Prop) : Prop :=
  ∃ t, exec (.kvLodeOperation r.id) s = .next t ∧ p t ∧ (∀ x ∈ t.kvReqs, x.id ≠ r.id) ∧ s.Answers t r.res code

section Home
variable {s : State} {r : KvReq} {lode : Nat}

theorem exec_kvLodeOperation (h : s.AtHome r lode) {t : State} {code : Nat}
    (hp : (s.withoutKv r.id).kvPerform r r.save = (code, t)) (ht : t.recalls = []) :
    exec (.kvLodeOperation r.id) s = .next (t.kvAnswer r code) := by
  have hwake : (s.withoutKv r.id).wakeLode lode = s.withoutKv r.id := if_neg (Bool.eq_false_iff.1 h.awake)
  have htick : (s.withoutKv r.id).kvTick lode = s.withoutKv r.id := State.kvTick_early h.early
  refine congrArg Host.Outcome.next ?_
  rw [h.req]
  refine State.transact_eq h.idle ?_ ht
  dsimp only
  rw [h.home]
  change (match ((State.wakeLode (s.withoutKv r.id) lode).kvTick lode).kvPerform r r.save with
    | (st, s1) => s1.kvAnswer r st) = _
  rw [hwake, htick, hp]

/-- An operation that changes neither results, requests nor recalls is done. -/
theorem State.kvDone_of (h : s.AtHome r lode) {t : State} {code : Nat} {p : State → Prop}
    (hp : (s.withoutKv r.id).kvPerform r r.save = (code, t)) (hrec : t.recalls = s.recalls) (hres : t.results = s.results)
    (hreq : t.kvReqs = (s.withoutKv r.id).kvReqs) (ht : p (t.kvAnswer r code)) : s.KvDone r code p := by
  refine ⟨_, exec_kvLodeOperation h hp (hrec.trans h.idle), ht, fun x hx => ?_,
    State.answers_modResult hres r.res fun o d hd => ⟨rfl, rfl, by simp only [hd]; rfl⟩⟩
  have hx' : x ∈ (s.withoutKv r.id).kvReqs := hreq ▸ hx
  simpa using (List.mem_filter.1 hx').2

/-! Writing into the requester's part (R112). -/

theorem State.partOf_modPart {w : Workgroup} {id p : Nat} (hw : s.wg? id = some w) (hp : p < w.parts.length) (f : Part → Part) :
    (s.modPart id p f).partOf id p = f (w.part p) := by
  have hmod : (s.modPart id p f).wg? id = some { w with parts := w.parts.modify p f } := by
    rw [State.modPart, State.wg?_modWg_self s id (f := fun w => { w with parts := w.parts.modify p f }) fun _ => rfl, hw]
    rfl
  rw [State.partOf, hmod]
  simp [Workgroup.part, List.getD_eq_getElem?_getD, hp]

theorem State.taggedWrite_live {w : Workgroup} {id p : Nat} {gen : Byte} (hw : s.wg? id = some w) (hg : (w.part p).gen = gen)
    (save : Nat) (f : Part → Part) : s.taggedWrite id p gen save f = s.modPart id p f := by
  rw [State.taggedWrite, hw]
  exact if_pos hg

/-! What each operation does (R274). -/

/-- The entry of the request's key at the lode. -/
def KvReq.names (r : KvReq) (lode : Nat) (e : KvEntry) : Bool := e.lode = lode && e.asid = r.asid && e.key = r.key

/-- The entries of the request's key change by `f`. -/
def State.modKv (s : State) (r : KvReq) (lode : Nat) (f : KvEntry → KvEntry) : State :=
  { s with kv := s.kv.map fun e => if r.names lode e then f e else e }

theorem State.kvPerform_homeless (s : State) {r : KvReq} (h : r.noKv = true) (save : Nat) : s.kvPerform r save = (2, s) := by
  rw [State.kvPerform, h]; rfl

/-- The operation finds its home. -/
structure State.Homed (s : State) (r : KvReq) (lode : Nat) : Prop where
  kv   : r.noKv = false
  home : s.kvHome r.q r.asid r.key = some lode

theorem State.Homed.home_eq (h : s.Homed r lode) : (if r.noKv = true then none else s.kvHome r.q r.asid r.key) = some lode :=
  (if_neg (Bool.eq_false_iff.1 h.kv)).trans h.home

theorem State.kvPerform_absent (h : s.Homed r lode) (hno : s.kvFind lode r.asid r.key = none) (hop : ∀ b n c, r.op ≠ .put b n c)
    (save : Nat) : s.kvPerform r save = (1, s) := by
  rw [State.kvPerform, h.home_eq]
  dsimp only
  rw [hno]
  cases ho : r.op with
  | get => rfl
  | put b n c => exact absurd ho (hop b n c)
  | pin => rfl
  | drop => rfl

variable {e : KvEntry}

theorem State.kvPerform_drop (h : s.Homed r lode) (he : s.kvFind lode r.asid r.key = some e) (hop : r.op = .drop) (save : Nat) :
    s.kvPerform r save = if e.pins ≠ 0 then (5, s) else (0, { s with kv := s.kv.filter fun x => !r.names lode x }) := by
  rw [State.kvPerform, h.home_eq]
  dsimp only
  rw [hop, he]
  rfl

/-- An entry that is used takes the age of its lode (R84). -/
def KvEntry.used (age : BitVec 16) (e : KvEntry) : KvEntry := { e with stamp := age, oldest := false }

theorem State.kvPerform_pin (h : s.Homed r lode) (he : s.kvFind lode r.asid r.key = some e) (hop : r.op = .pin false)
    (hpins : e.pins ≠ 255) (save : Nat) : s.kvPerform r save = ((e.pins + 1) * 2 ^ 32,
      s.modKv r lode fun x => { x.used (s.lodeOf lode).age with pins := x.pins + 1 }) := by
  rw [State.kvPerform, h.home_eq]
  dsimp only
  rw [hop, he]
  exact (if_neg (by decide)).trans (if_neg hpins)

theorem State.kvPerform_unpin (h : s.Homed r lode) (he : s.kvFind lode r.asid r.key = some e) (hop : r.op = .pin true)
    (hpins : e.pins ≠ 0) (save : Nat) : s.kvPerform r save = ((e.pins - 1) * 2 ^ 32,
      s.modKv r lode fun x => { x.used (s.lodeOf lode).age with pins := x.pins - 1 }) := by
  rw [State.kvPerform, h.home_eq]
  dsimp only
  rw [hop, he]
  exact (if_pos rfl).trans (if_neg hpins)

theorem State.kvPerform_get (h : s.Homed r lode) (he : s.kvFind lode r.asid r.key = some e) {b n : Nat} (hop : r.op = .get b n)
    {w : Workgroup} (hw : s.wg? r.wg = some w) (hgen : (w.part r.part).gen = r.gen) (save : Nat) :
    s.kvPerform r save = (e.val.length * 2 ^ 16,
      (s.modKv r lode (KvEntry.used (s.lodeOf lode).age)).modPart r.wg r.part fun p => p.wr b (e.val.take n)) := by
  rw [State.kvPerform, h.home_eq]
  dsimp only
  rw [hop, he]
  exact congrArg (Prod.mk _) (State.taggedWrite_live (s := s.modKv r lode _) hw hgen save _)

theorem State.kvPerform_put (h : s.Homed r lode) {b n c : Nat} (hop : r.op = .put b n c) {w : Workgroup}
    (hw : s.wg? r.wg = some w) (save : Nat) : s.kvPerform r save = s.kvPut lode r ((w.part r.part).rd b n) c := by
  rw [State.kvPerform, h.home_eq]
  dsimp only
  rw [hop, hw]

/-- The key's own entry is the first that the search finds, so what becomes of it stands in the changed list. -/
theorem State.mem_modKv (he : s.kvFind lode r.asid r.key = some e) (f : KvEntry → KvEntry) : f e ∈ (s.modKv r lode f).kv :=
  List.mem_map.2 ⟨e, List.mem_of_find?_eq_some he, if_pos (List.find?_some he)⟩

theorem KvReq.names_of_kvFind (he : s.kvFind lode r.asid r.key = some e) : r.names lode e = true := List.find?_some he

/-! KVPUT into a lode that holds nothing else (R83). -/

/-- The entry of a new value. -/
def State.newKv (s : State) (r : KvReq) (lode : Nat) (val : List Byte) (c : Nat) : KvEntry :=
  { lode := lode, asid := r.asid, key := r.key, val := val, cls := c, stamp := (s.lodeOf lode).age, pins := 0, owner := r.ctx,
    banks := s.roleBanks lode 3 }

theorem kvMakeRoom_empty {room quota units : Nat} (hroom : units ≤ room) (hquota : units ≤ quota) (own : KvEntry → Bool) :
    kvMakeRoom room quota units own [] [] = some [] := by
  simp [kvMakeRoom, sumUnits, hroom, hquota]

theorem State.kvPut_alone (hno : ∀ e ∈ s.kv, e.lode ≠ lode) {val : List Byte}
    (hroom : kvUnits val.length ≤ 8192 * (s.roleBanks lode 3).length) (hquota : kvUnits val.length ≤ s.rf (rSTR_KV lode) 0 16)
    (c : Nat) : s.kvPut lode r val c = (0, { s with kv := s.kv ++ [s.newKv r lode val c] }) := by
  have hfind : s.kvFind lode r.asid r.key = none := List.find?_eq_none.2 fun e he => by simp [hno e he]
  have hhere : (s.kv.filter fun e => e.lode = lode) = [] := List.filter_eq_nil_iff.2 fun e he => by simpa using hno e he
  have hrest : (s.kv.filter fun e => e.lode ≠ lode) = s.kv := List.filter_eq_self.2 fun e he => by simpa using hno e he
  rw [State.kvPut]
  simp only [hfind, hhere, hrest, List.filter_nil]
  rw [show sortBy s.kvRank [] = [] from rfl, kvMakeRoom_empty hroom hquota]
  simp only [List.append_nil]
  rfl

end Home

end Sys2Proof.Machine
end

section
/-! PROOFS. O41 from its parts. -/
namespace Sys2Proof.Machine

/-- Settles O41: an admission by the two things that it can do, a release by what its request owes and names, the age clock by
whether an advance is due, and a key-value operation by its code and what its key's home holds. -/
theorem contractsAndKeyValue : Obligations.ContractsAndKeyValue := by
  unfold Obligations.ContractsAndKeyValue
  refine ⟨fun s r hrec hr => ⟨fun k hk ht => ?admission, fun l hk howes => ⟨fun howed => ?stillOwed, fun hpaid => ?paid⟩,
      fun hk howes => ⟨fun hno => ?unknown, fun c hc hkind => ?unpinned⟩⟩,
    fun s lode => ⟨fun hearly => ?early, fun hdue => ?due⟩,
    fun s r lode hrec hr hhome hawake hearly => ⟨fun hno => ?homeless, fun hkv =>
      ⟨fun hold hop => ?absent, fun e he => ⟨fun hop hpins => ?drop, fun hop hpins => ?dropPinned, fun hop hpins => ?pin,
        fun hop hpins => ?unpin, fun b n w hop hw hgen hpart => ?get⟩, fun b n c w hop hw halone => ?put⟩⟩⟩
  case admission =>
    obtain ⟨t, hx, hans, hgrant, hrefuse, hbyte⟩ := exec_contractAdmission_spec hrec hr hk ht
    refine ⟨t, hx, hans, fun hcode => ?_, hrefuse, fun hlines => congrFun (hbyte.trans (s.takeIn_byte r k hlines))⟩
    obtain ⟨c, hcs, hc⟩ := hgrant hcode
    exact ⟨c, hcs, hc.q, hc.kind, hc.ctx, hc.asid, hc.base, hc.pages⟩
  case stillOwed =>
    exact exec_contractRelease hrec hr hk ((State.ctrRelease_owing howes).trans (if_pos howed)) hrec
  case paid =>
    exact ⟨_, exec_contractRelease hrec hr hk ((State.ctrRelease_owing howes).trans (if_neg (Bool.eq_false_iff.1 hpaid))) hrec,
      State.answers_ctrAnswer rfl r 0, rfl, rfl⟩
  case unknown =>
    exact ⟨_, exec_contractRelease hrec hr hk (State.ctrRelease_unknown howes hno) hrec, State.answers_ctrAnswer rfl r 7, rfl⟩
  case unpinned =>
    obtain ⟨tb, htb⟩ := s.releaseContract_unpinned hkind
    have hx := State.ctrRelease_unpinned howes hc hkind
    rw [htb] at hx
    exact ⟨_, exec_contractRelease hrec hr hk hx hrec, State.answers_ctrAnswer rfl r 0, rfl, rfl⟩
  case early => exact congrArg Host.Outcome.next (State.kvTick_early hearly)
  case due =>
    refine ⟨_, congrArg Host.Outcome.next (State.kvTick_due hdue), congrArg LodeX.age (s.lodeOf_aged lode _),
      congrArg LodeX.tickAt (s.lodeOf_aged lode _), ?_, fun e he hn hage => State.oldest_of_aged he hn hage⟩
    rw [State.lodeOf_aged]
    change s.clk < (s.lodeOf lode).tickAt + 4096 * ((s.clk - (s.lodeOf lode).tickAt) / 4096 + 1)
    omega
  all_goals have hat : s.AtHome r lode := ⟨hrec, hr, hhome, hawake, hearly⟩
  case homeless => exact State.kvDone_of hat ((s.withoutKv r.id).kvPerform_homeless hno r.save) rfl rfl rfl rfl
  all_goals have hhomed : (s.withoutKv r.id).Homed r lode := ⟨hkv, hhome⟩
  case absent => exact State.kvDone_of hat (State.kvPerform_absent hhomed hold hop r.save) rfl rfl rfl rfl
  case drop =>
    exact State.kvDone_of hat ((State.kvPerform_drop hhomed he hop r.save).trans (if_neg (not_not.2 hpins))) rfl rfl rfl rfl
  case dropPinned =>
    exact State.kvDone_of hat ((State.kvPerform_drop hhomed he hop r.save).trans (if_pos hpins)) rfl rfl rfl rfl
  case pin =>
    exact State.kvDone_of hat (State.kvPerform_pin hhomed he hop hpins r.save) rfl rfl rfl
      ⟨_, State.mem_modKv he _, KvReq.names_of_kvFind (e := e) he, rfl⟩
  case unpin =>
    exact State.kvDone_of hat (State.kvPerform_unpin hhomed he hop hpins r.save) rfl rfl rfl
      ⟨_, State.mem_modKv he _, KvReq.names_of_kvFind (e := e) he, rfl⟩
  case get =>
    refine State.kvDone_of hat (State.kvPerform_get hhomed he hop hw hgen r.save) rfl rfl rfl
      ((State.partOf_kvAnswer ..).trans (State.partOf_modPart ?_ hpart _))
    exact hw
  case put =>
    intro val hroom hquota
    have hp := (State.kvPerform_put hhomed hop hw r.save).trans (State.kvPut_alone (s := s.withoutKv r.id) halone hroom hquota c)
    refine State.kvDone_of hat hp rfl rfl rfl ⟨(s.withoutKv r.id).newKv r lode val c, ?_, ?_, rfl, rfl, rfl, rfl⟩
    · rfl
    · simp [State.newKv]

end Sys2Proof.Machine
end

section
/-! PROOFS. Words of classes 1 to 4 as they issue, the operations they start (R187, R188), and what a change of a workgroup leaves
as it was. -/
namespace Sys2Proof.Machine

variable {s t : State} {h : Hdr} {e : Env}

/-- A word of classes 1 to 4 that nothing holds issues as any other word does. -/
theorem memWord_ready {role : Option Role} {u : Uses} (hr : Ready s h role u e) (hh : e.w.holds = [])
    {body : Env → State → State} (hb : body e s = t) (ht : t.recalls = s.recalls) : memWord h role u body s = .next t := by
  have hword : memWord h role u body s = word h role u body s := by
    simp only [memWord, word, hr.1, hh, ne_eq, not_true_eq_false, if_false]
  rw [hword, word_ready_quiet hr body (by rw [hb, ht]), hb]

/-! What changes of a workgroup leave as it was. -/

theorem State.map_wg?_modWg {α : Type} {f : Workgroup → Workgroup} (hid : ∀ w, (f w).id = w.id) {g : Workgroup → α}
    (hg : ∀ w, g (f w) = g w) (id wg : Nat) : ((s.modWg id f).wg? wg).map g = (s.wg? wg).map g := by
  rw [State.wg?_modWg s id wg f hid]
  split
  · rw [Option.map_map]; exact congrArg (Option.map · _) (funext hg)
  · rfl

theorem State.partOf_eq_map (s : State) (wg p : Nat) : s.partOf wg p = ((s.wg? wg).map (·.part p)).getD { core := 0 } := by
  rw [State.partOf]; cases s.wg? wg <;> rfl

theorem State.wave?_eq_map (s : State) (wg k : Nat) : s.wave? wg k = ((s.wg? wg).map (·.waves)).bind (·[k]?) := by
  rw [State.wave?]; cases s.wg? wg <;> rfl

theorem State.partOf_modWg {f : Workgroup → Workgroup} (hid : ∀ w, (f w).id = w.id) {p : Nat}
    (hp : ∀ w, (f w).part p = w.part p) (id wg : Nat) : (s.modWg id f).partOf wg p = s.partOf wg p := by
  rw [State.partOf_eq_map, State.map_wg?_modWg hid hp, State.partOf_eq_map]

theorem State.wave?_modWg {f : Workgroup → Workgroup} (hid : ∀ w, (f w).id = w.id) (hw : ∀ w, (f w).waves = w.waves)
    (id wg k : Nat) : (s.modWg id f).wave? wg k = s.wave? wg k := by
  rw [State.wave?_eq_map, State.map_wg?_modWg hid hw, State.wave?_eq_map]

theorem State.partOf_modWave (s : State) (wg k : Nat) (f : Wave → Wave) (id p : Nat) :
    (s.modWave wg k f).partOf id p = s.partOf id p :=
  State.partOf_modWg (f := fun w => { w with waves := w.waves.modify k f }) (fun _ => rfl) (fun _ => rfl) wg id

theorem State.wave?_modPart (s : State) (wg p : Nat) (f : Part → Part) (id k : Nat) :
    (s.modPart wg p f).wave? id k = s.wave? id k :=
  State.wave?_modWg (f := fun w => { w with parts := w.parts.modify p f }) (fun _ => rfl) (fun _ => rfl) wg id k

theorem State.partOf_modPart_other (s : State) (id : Nat) {p k : Nat} (hk : k ≠ p) (f : Part → Part) :
    (s.modPart id p f).partOf id k = s.partOf id k :=
  State.partOf_modWg (f := fun w => { w with parts := w.parts.modify p f }) (fun _ => rfl)
    (fun w => by simp [Workgroup.part, List.getD_eq_getElem?_getD, Ne.symm hk]) id id

theorem Elsewhere.of_modWave (s : State) (wg k : Nat) (f : Wave → Wave) : Elsewhere s (s.modWave wg k f) wg k :=
  ⟨rfl, fun _ => rfl, fun _ => rfl, fun id j hj => by
    rw [State.wave?_modWave, if_neg (by rintro ⟨rfl, rfl⟩; simp at hj)], fun id => s.wg?_modWave_rest wg k id f⟩

/-! Operations. -/

/-- The wave of operation `n`, which holds no later word: its registers are marked, and its counter rises. -/
def Wave.marking (w : Wave) (n : Nat) (r : Result) : Wave :=
  { w with
    marks := w.marks ++ (r.regs.filter fun x => x ≠ .p 7).map fun x => (x, n)
    cnt := match r.cnt with
      | some c => w.cnt.bump c 1
      | none => w.cnt }

/-- The state with an operation of the word outstanding. -/
def State.withOp (s : State) (e : Env) (r : Result) : State :=
  State.modWave { s with
    nextId := s.nextId + 1
    results := s.results ++ [{ r with id := s.nextId, wg := e.iss.wg, wave := e.iss.wave }] }
    e.iss.wg e.iss.wave fun w => w.marking s.nextId r

/-- An operation that is no acquire, fence or maintenance holds no later word. -/
theorem State.startOp_eq (s : State) (e : Env) {r : Result} (hacq : r.acq = none) (hfence : r.fence = none) (hmaint : r.maint = false) :
    s.startOp e r = (s.nextId, s.withOp e r) := by
  have hholds (l : List Nat) : (if r.acq.isSome || r.fence.isSome || r.maint then l ++ [s.nextId] else l) = l := by
    rw [hacq, hfence, hmaint]; rfl
  simp only [State.startOp, State.fresh, hholds]
  rfl

theorem State.wave?_withOp (hw : s.wave? e.iss.wg e.iss.wave = some e.w) (r : Result) :
    (s.withOp e r).wave? e.iss.wg e.iss.wave = some (e.w.marking s.nextId r) := by
  rw [State.withOp, State.wave?_modWave, if_pos ⟨rfl, rfl⟩]
  exact congrArg (Option.map fun w => w.marking s.nextId r) hw

theorem State.quickOp_recalls (s : State) (e : Env) (c : Option Cnt) (lat : Nat) (regs : List Reg) (ws : List RegWrite) :
    (s.quickOp e c lat regs ws).recalls = s.recalls := rfl

/-- A word that answers a value at once starts the operation whose result that value is. -/
theorem starts_quickOp {i : Instr} {c : Option Cnt} {lat : Nat} {regs : List Reg} {ws : List RegWrite}
    (hw : s.wave? e.iss.wg e.iss.wave = some e.w) (hx : exec i s = .next (s.quickOp e c lat regs ws)) :
    Starts s e i e.w (resultAt s c lat regs ws) := by
  rw [State.quickOp, State.startOp_eq s e rfl rfl rfl] at hx
  exact ⟨_, hx, rfl, State.wave?_withOp hw _, Elsewhere.of_modWave ..⟩

/-- An operation with a scalar destination is sent in every state that agrees with its start in what waves see. -/
theorem sends_withOp (hw : s.wave? e.iss.wg e.iss.wave = some e.w) {r : Result} {c : Cnt} (hc : r.cnt = some c) {d : Nat}
    (hd : r.regs = [.s d]) (hres : t.results = (s.withOp e r).results) (hwgs : t.wgs = (s.withOp e r).wgs)
    (hbyte : t.byte = s.byte) (hreg : t.reg = s.reg) : Sends s t e c [.s d] := by
  have hwg (id : Nat) : t.wg? id = (s.withOp e r).wg? id := congrArg (List.find? _) hwgs
  have hwave (id k : Nat) : t.wave? id k = (s.withOp e r).wave? id k := by simp only [State.wave?, hwg]
  refine ⟨⟨_, hres, rfl, rfl, rfl, hc, hd⟩, ?_, congrFun hbyte, congrFun hreg, fun id j hj => ?_, fun id k => ?_⟩
  · rw [hwave, State.wave?_withOp hw, Wave.marking, hc, hd]; rfl
  · have hbeside : ¬(id = e.iss.wg ∧ j = e.iss.wave) := fun ⟨hi, hk⟩ => hj.elim (absurd hi) (absurd hk)
    rw [hwave, State.withOp, State.wave?_modWave, if_neg hbeside]; rfl
  · have hpart : t.partOf id k = (s.withOp e r).partOf id k := by simp only [State.partOf, hwg]
    rw [hpart, State.withOp, State.partOf_modWave]; rfl

end Sys2Proof.Machine
end

section
/-! PROOFS. Barrier objects (O26): what an update of an object of a part that no thread waits on leaves as it was, when a release
passes at once, and the words BINIT to BTEST (R108, R118, R253, R269 to R271). -/
namespace Sys2Proof.Machine

variable {s t : State} {h : Hdr} {e : Env} {f : GF}

/-! Threads that wait at barrier objects (R271). -/

theorem State.wakeWave_noWaits {wg k : Nat} (hno : ∀ v, s.wave? wg k = some v → ∀ t ∈ v.threads, ∀ p, t.phaseMet p = none)
    (p : Part) (multi : Bool) : s.wakeWave wg k p multi = s := by
  rw [State.wakeWave]
  cases hv : s.wave? wg k with
  | none => rfl
  | some v =>
    have hscopes : v.threads.filterMap (fun t => t.phaseMet p) = [] :=
      List.filterMap_eq_nil_iff.2 fun t ht => hno v hv t ht p
    exact if_pos hscopes

theorem State.wakeBarriers_noWaits {wg : Nat} (hno : ∀ w, s.wg? wg = some w → w.noWaits) (part : Nat) :
    s.wakeBarriers wg part = s := by
  rw [State.wakeBarriers]
  cases hw : s.wg? wg with
  | none => rfl
  | some w =>
    refine List.foldl_fixed' (fun k => State.wakeWave_noWaits (fun v hv => ?_) ..) _
    rw [State.wave?, hw] at hv
    exact hno w hw v (List.mem_of_getElem? hv)

/-- An update of a part of a workgroup none of whose threads waits wakes none. -/
theorem State.wakeBarriers_modPart {wg : Nat} (hno : ∀ w, s.wg? wg = some w → w.noWaits) (p q : Nat) (g : Part → Part) :
    (s.modPart wg p g).wakeBarriers wg q = s.modPart wg p g := by
  refine State.wakeBarriers_noWaits (fun w hw => ?_) q
  rw [State.modPart, State.wg?_modWg_self s wg (f := fun w => { w with parts := w.parts.modify p g }) fun _ => rfl] at hw
  obtain ⟨v, hv, rfl⟩ := Option.map_eq_some_iff.1 hw
  exact hno v hv

theorem State.env?_noWaits (he : s.env? h = some e) (hno : e.wg.noWaits) : ∀ w, s.wg? e.iss.wg = some w → w.noWaits := by
  obtain ⟨-, hwg, -⟩ := State.env?_some he
  rintro w hw
  cases hwg.symm.trans hw
  exact hno

/-! Releases and acquires (R118, R253). -/

theorem State.drainCore_empty {core : Nat} (hno : ∀ x ∈ s.sbuf, x.core ≠ core) : s.drainCore core = s := by
  have hmine : (s.sbuf.filter fun x => x.core = core) = [] := List.filter_eq_nil_iff.2 fun x hx => by simpa using hno x hx
  rw [State.drainCore, hmine]; rfl

/-- A release with nothing to drain and nothing to wait for has its effect at once. -/
theorem State.release_passes (ha : e.iss.await = none) (hno : ∀ x ∈ s.sbuf, x.core ≠ e.core) {scope : BitVec 3} {mask : BitVec 5}
    (hdone : s.pathsDone e.iss.wg e.iss.wave e.core s.nextId scope true false mask = true) (k : State → State) :
    s.release e scope mask k = k s.fresh.2 := by
  have hdrain : (if scope ≠ 0 then s.drainCore e.core else s) = s := by rw [State.drainCore_empty hno, ite_self]
  have hpaths : s.fresh.2.pathsDone e.iss.wg e.iss.wave e.core s.nextId scope true false mask = true := hdone
  simp only [State.release, ha, hdrain]
  exact if_pos hpaths

theorem State.advanceNow_recalls (s : State) (core : Nat) : (s.advanceNow core).recalls = s.recalls := by
  rw [State.advanceNow]; split <;> rfl

theorem State.acquireNow_recalls (s : State) (e : Env) (scope : BitVec 3) : (s.acquireNow e scope).recalls = s.recalls := by
  rw [State.acquireNow]
  split
  · exact s.advanceNow_recalls e.core
  · rfl

/-! The words. -/

/-- The object that a word's ring and phase name in the part of its wave, and the local phase (R270). -/
def State.Names (s : State) (e : Env) (f : GF) (o k : Nat) : Prop :=
  (s.partOf e.iss.wg e.part).barSlot (e.uniform f.a).toNat (wfld (e.uniform f.b) 0 32) = some (o, k)

variable {o k : Nat}

theorem barBody_names (hn : s.Names e f o k) (body : Env → State → Nat → Nat → State) : barBody f body e s = body e s o k := by
  rw [barBody, hn]

section Words
variable (hh : e.w.holds = []) (hact : e.act ≠ [])
include hh hact

theorem exec_binit (hr : Ready s h none (barUses f) e) (hno : e.wg.noWaits)
    (hring : (s.partOf e.iss.wg e.part).holdsRing (e.uniform f.a).toNat ((f.m.extractLsb' 0 3).toNat + 1) = true)
    (hlo : 1 ≤ (e.uniform f.b).toNat) (hhi : (e.uniform f.b).toNat ≤ 65536) :
    exec (.binit h f) s = .next (s.modPart e.iss.wg e.part fun p =>
      p.barInit (e.uniform f.a).toNat ((f.m.extractLsb' 0 3).toNat + 1) (e.uniform f.b).toNat) := by
  have hcount : (decide ((e.uniform f.b).toNat = 0) || decide (65536 < (e.uniform f.b).toNat)) = false := by
    simp only [Bool.or_eq_false_iff, decide_eq_false_iff_not]; omega
  refine memWord_ready hr hh ?_ rfl
  simp only [hring, hcount, hact, Bool.not_true, Bool.false_eq_true, if_false]
  exact State.wakeBarriers_modPart (State.env?_noWaits hr.1 hno) ..

theorem exec_bexpect (hr : Ready s h none (barUses f) e) (hno : e.wg.noWaits)
    (hn : s.Names e f o k) (hlt : (e.uniform f.c).toNat < 8388608) :
    exec (.bexpect h f) s = .next (s.modPart e.iss.wg e.part fun p =>
      p.setBar o ((p.bar o).update (if bitAt f.m 0 then .out else .inb) (e.uniform f.c).toNat)) := by
  refine memWord_ready hr hh ((barBody_names hn _).trans ?_) rfl
  simp only [hact, Nat.not_le.2 hlt, if_false]
  exact State.wakeBarriers_modPart (State.env?_noWaits hr.1 hno) ..

theorem exec_barrive (hr : Ready s h none (barUses f) e) (hno : e.wg.noWaits)
    (hn : s.Names e f o k) (ha : e.iss.await = none) (hbuf : ∀ x ∈ s.sbuf, x.core ≠ e.core)
    (hdone : s.pathsDone e.iss.wg e.iss.wave e.core s.nextId (f.m.extractLsb' 1 3) true false 5 = true) :
    exec (.barrive h f) s = .next (s.fresh.2.modPart e.iss.wg e.part fun p =>
      p.setBar o ((p.bar o).update .arr (-(if bitAt f.m 0 then 1 else e.act.length : Nat)))) := by
  refine memWord_ready hr hh ((barBody_names hn _).trans ?_) rfl
  simp only [hact, if_false]
  rw [State.release_passes ha hbuf hdone]
  exact State.wakeBarriers_modPart (s := s.fresh.2) (State.env?_noWaits hr.1 hno) ..

theorem exec_bwait_met (hr : Ready s h none (barUses f) e) (hn : s.Names e f o k)
    (herr : ((s.partOf e.iss.wg e.part).bar o).err = false) (hmet : ((s.partOf e.iss.wg e.part).bar o).phase ≠ k) :
    exec (.bwait h f) s = .next (s.acquireNow e (f.m.extractLsb' 1 3)) := by
  refine memWord_ready hr hh ((barBody_names hn _).trans ?_) (s.acquireNow_recalls ..)
  simp only [hact, herr, Bool.false_eq_true, if_false]
  exact if_pos hmet

theorem exec_bwait_waits (hr : Ready s h none (barUses f) e) (hn : s.Names e f o k)
    (herr : ((s.partOf e.iss.wg e.part).bar o).err = false) (hmet : ((s.partOf e.iss.wg e.part).bar o).phase = k) :
    exec (.bwait h f) s = .next ((s.leaveClause (maskOf e.act)).now e fun w => w.modLanes (maskOf e.act) fun _ t =>
      { t with pc := e.iss.nxtPc, status := .waiting, waitOn := .barrier o (BitVec.ofNat 16 k) (f.m.extractLsb' 1 3) }) := by
  refine memWord_ready hr hh ((barBody_names hn _).trans ?_) rfl
  simp only [hact, herr, Bool.false_eq_true, if_false]
  exact if_neg (not_not.2 hmet)

theorem exec_btest (hr : Ready s h none ((barUses f).append ⟨[], [.p f.d.toNat]⟩) e)
    (hn : s.Names e f o k) (herr : ((s.partOf e.iss.wg e.part).bar o).err = false) :
    exec (.btest h f) s = .next
      ((if ((s.partOf e.iss.wg e.part).bar o).phase ≠ k then s.acquireNow e (f.m.extractLsb' 1 3) else s).quickOp e none 12
        [.p f.d.toNat] (e.act.map fun l => ⟨.p f.d.toNat, l, if ((s.partOf e.iss.wg e.part).bar o).phase ≠ k then 1 else 0⟩)) := by
  refine memWord_ready hr hh ((barBody_names hn _).trans ?_) ?_
  · simp only [hact, herr, Bool.false_eq_true, if_false, predWrite, decide_eq_true_eq]
  · rw [State.quickOp_recalls]
    split
    · exact s.acquireNow_recalls ..
    · rfl

end Words

/-- Settles O26: each word passes its checks and has its one effect on the object that it names, which wakes no thread. -/
theorem barriers : Obligations.Barriers := by
  unfold Obligations.Barriers
  refine ⟨fun s h e f hh hact hno hpart => ⟨fun hr hring hlo hhi => exec_binit hh hact hr hno hring hlo hhi, fun o k hn =>
      ⟨fun hr hlt => exec_bexpect hh hact hr hno hn hlt, fun hr ha hbuf hdone => exec_barrive hh hact hr hno hn ha hbuf hdone⟩⟩,
    fun s h e f hh hact o k hn herr => ⟨fun hr => ⟨fun hmet => exec_bwait_met hh hact hr hn herr hmet,
      fun hmet => exec_bwait_waits hh hact hr hn herr hmet⟩, fun hr => exec_btest hh hact hr hn herr⟩⟩

end Sys2Proof.Machine
end

section
/-! PROOFS. The streamer's words (O25): a copy that passes its checks is accepted, and COPYQ answers what the streamer holds
(R97, R105, R106, R267, R268). -/
namespace Sys2Proof.Machine

variable {s : State} {h : Hdr} {e : Env} {f : GF}

/-- The operands that COPY, or COPYM, names. -/
def copyArgsOf (m : Bool) (f : GF) (e : Env) : CopyArgs :=
  { m := m, d := f.d.toNat, regs := (List.range 8).map fun i => e.w.s (f.a.toNat + i), bw := e.uniform f.b,
    mask := if m then e.uniform f.c else 0, zero := f.c = 0, mod := f.m }

/-- The entries that a copy's two handles name stand at its core (R97 checks 1 and 2). -/
structure State.CopyEntries (s : State) (e : Env) (f : GF) (sL dL : Layout) : Prop where
  src : s.layEntry e.core e.ctx (BitVec.ofNat 64 (wfld (e.w.s (f.a.toNat + 7)) 32 12)) = (some sL, s)
  dst : s.layEntry e.core e.ctx (BitVec.ofNat 64 (wfld (e.w.s (f.a.toNat + 7)) 44 12)) = (some dL, s)

variable {m : Bool} {sL dL : Layout}

theorem copyBody_accepts (hact : e.act ≠ []) (hl : s.CopyEntries e f sL dL)
    (hcheck : (copyArgsOf m f e).check e.wg e.part sL dL = none) :
    copyBody m f e s = s.acceptCopy e (copyArgsOf m f e) sL dL := by
  have handles : ((List.range 8).map fun i => e.w.s (f.a.toNat + i)).getD 7 0 = e.w.s (f.a.toNat + 7) := rfl
  rw [copyArgsOf] at hcheck
  simp only [copyBody, handles, hl.src, hl.dst, hact, if_false, hcheck]
  rfl

theorem State.acceptCopy_recalls (s : State) (e : Env) (a : CopyArgs) (sL dL : Layout) :
    (s.acceptCopy e a sL dL).recalls = s.recalls := rfl

/-- What the wave sees of an accepted copy: its operation, with the status register, is outstanding. -/
theorem sends_acceptCopy (hw : s.wave? e.iss.wg e.iss.wave = some e.w) (a : CopyArgs) (sL dL : Layout) :
    Sends s (s.acceptCopy e a sL dL) e .copy [.s a.d] :=
  sends_withOp (r := { id := 0, wg := 0, wave := 0, cnt := some .copy, regs := [.s a.d] }) hw rfl rfl rfl
    (congrArg (fun x => x.2.wgs) (State.startOp_eq s e rfl rfl rfl)) rfl rfl

/-- The core gives out the copy's identifier. -/
theorem copyCtr_acceptCopy (s : State) (e : Env) (a : CopyArgs) (sL dL : Layout) :
    ((s.acceptCopy e a sL dL).coreOf e.core).copyCtr = (s.coreOf e.core).copyCtr + 1 :=
  congrArg CoreX.copyCtr (s.coreOf_modCore_self e.core fun x => { x with copyCtr := x.copyCtr + 1 })

/-- COPY and COPYM alike: `i` is the word whose meaning is the body of `m`. -/
theorem exec_copy {i : Instr} (hx : exec i s = memWord h (some .copy) (copyUses m f) (copyBody m f) s)
    (hr : Ready s h (some .copy) (copyUses m f) e) (hh : e.w.holds = []) (hact : e.act ≠ []) (hl : s.CopyEntries e f sL dL)
    (hcheck : (copyArgsOf m f e).check e.wg e.part sL dL = none) :
    exec i s = .next (s.acceptCopy e (copyArgsOf m f e) sL dL) :=
  hx.trans (memWord_ready hr hh (copyBody_accepts hact hl hcheck) (s.acceptCopy_recalls ..))

theorem exec_copyq (hr : Ready s h (some .copy) ⟨[], [.s f.d.toNat]⟩ e) (hh : e.w.holds = []) (hact : e.act ≠ []) :
    exec (.copyq h f) s = .next (s.quickOp e none 8 [.s f.d.toNat] [⟨.s f.d.toNat, 0, BitVec.ofNat 64
      ((s.copies.countP fun c => c.core = e.core && c.wg = e.iss.wg && !c.dead) % 128 + s.copySlots e.core % 128 * 256)⟩]) :=
  memWord_ready hr hh (if_neg hact) (s.quickOp_recalls ..)

/-- Settles O25: a word whose checks pass accepts the copy, of which its wave sees the operation alone; COPYQ starts an operation
whose result is known. -/
theorem copies : Obligations.Copies := by
  unfold Obligations.Copies
  intro s h e f hh hact
  refine ⟨?copy, ?copym, fun hr => starts_quickOp (State.env?_wave hr.1) (exec_copyq hr hh hact)⟩
  all_goals
    refine fun hr sL dL hsrc hdst hcheck => ?_
    exact ⟨_, _, exec_copy rfl hr hh hact ⟨hsrc, hdst⟩ hcheck, sends_acceptCopy (State.env?_wave hr.1) .., rfl, rfl, rfl, rfl, rfl,
      rfl, rfl, rfl, rfl, rfl, rfl, rfl, rfl, rfl, copyCtr_acceptCopy ..⟩

end Sys2Proof.Machine
end

section
/-! PROOFS. The steps of a copy (O34): reading a chunk's source in a scratchpad, delivering it in one, and the ends of a copy and of
a transpose (R99 to R101, R105, R108, R296). -/
namespace Sys2Proof.Machine

variable {s : State} {c : Copy} {w : Workgroup} {i j : Nat} {bs : List CByte}

/-! Reading (R99, R103). -/

/-- A part without uncorrectable errors and lost bytes reads well everywhere (R358). -/
theorem Part.bad_clean {p : Part} (hue : p.ue = []) (hlost : p.lost = []) (l : Option Layout) (o n : Nat) :
    p.bad l o n = false := by
  simp [Part.bad, hue, hlost]

/-- A byte of the chunk as its source part gives it: 0 where none of its bits is read. -/
def CByte.sourced (l : Layout) (p : Part) (b : CByte) : Byte :=
  if b.rd = 0 then 0 else p.byte (swz (some l) b.src.toNat) &&& b.rd

/-- The copy with chunk `i` read. -/
def Copy.reading (x : Copy) (i : Nat) (data : List Byte) (tag : Byte) (bs : List CByte) : Copy :=
  { x with
    read := x.read ++ [(i, data, some tag)]
    clamped := x.clamped || bs.any fun b => b.rd ≠ 255 || b.wr ≠ 255
    outDone := x.outDone ++ [i] }

/-- The streamer holds chunk `i` of `c`. -/
def State.withRead (s : State) (c : Copy) (i : Nat) (data : List Byte) (tag : Byte) (bs : List CByte) : State :=
  { s with copies := s.copies.map fun x => if x.id = c.id then x.reading i data tag bs else x }

theorem State.readChunk_scratch (hmem : c.src.memory = false) (hobj : c.srcObj = none) {b0 : CByte}
    (hb0 : (bs.find? fun b => b.rd ≠ 0) = some b0) {p : Part}
    (hp : w.part ((c.src.partFor w (w.partOf c.wave)).getD 0) = p) (hue : p.ue = []) (hlost : p.lost = []) :
    s.readChunk c w i bs = s.withRead c i (bs.map (CByte.sourced c.src p)) (p.tag b0.src.toNat) bs := by
  have hhead : (bs.filter fun b => b.rd ≠ 0).head? = some b0 := (List.head?_filter ..).trans hb0
  have hbad : ((bs.filter fun b => b.rd ≠ 0).any fun b => p.bad (some c.src) b.src.toNat 1) = false :=
    List.any_eq_false.2 fun b _ => by rw [Part.bad_clean hue hlost]; exact Bool.false_ne_true
  simp only [State.readChunk, hhead, hmem, hp, hbad, State.keepChunk, hobj]
  rfl

theorem exec_chunkSourceRead (hrec : s.recalls = []) (hlive : s.copyLive c.id = some (c, w)) (hnew : ∀ x ∈ c.read, x.1 ≠ i)
    (hdue : ∃ p ∈ c.parts, c.delivered.contains (i, p) = false) (hbs : c.chunkAt i = some bs) {t : State}
    (ht : s.readChunk c w i bs = t) (hrect : t.recalls = []) : exec (.chunkSourceRead c.id i) s = .next t := by
  obtain ⟨p, hp, hnot⟩ := hdue
  have hread : (c.read.any fun x => x.1 = i) = false := List.any_eq_false.2 fun x hx => by simpa using hnew x hx
  have hall : (c.parts.all fun p => c.delivered.contains (i, p)) = false :=
    List.all_eq_false.2 ⟨p, hp, by rw [hnot]; exact Bool.false_ne_true⟩
  refine congrArg Host.Outcome.next ?_
  simp only [hlive, hread, hall, hbs, Bool.or_false, Bool.false_eq_true, if_false]
  exact State.transact_eq hrec ht hrect

/-! Delivery (R101, R108, R112). -/

/-- The copy with `n` bytes of chunk `i` delivered in part `j`. -/
def Copy.delivering (x : Copy) (i j n : Nat) : Copy :=
  { x with delivered := x.delivered ++ [(i, j)], bytes := x.bytes + n }

/-- A workgroup whose report counts the bytes of copy `id` counts `n` more (R110). -/
def Workgroup.counting (w : Workgroup) (id n : Nat) : Workgroup :=
  if w.lastCopy = some id then { w with last := w.last.map fun e => addBytes e n } else w

theorem Workgroup.counting_id (w : Workgroup) (id n : Nat) : (w.counting id n).id = w.id := by
  rw [Workgroup.counting]; split <;> rfl

theorem Workgroup.counting_parts (w : Workgroup) (id n : Nat) : (w.counting id n).parts = w.parts := by
  rw [Workgroup.counting]; split <;> rfl

theorem Workgroup.counting_waves (w : Workgroup) (id n : Nat) : (w.counting id n).waves = w.waves := by
  rw [Workgroup.counting]; split <;> rfl

/-- A chunk of `c` whose delivery is counted, and none else. -/
def State.counted (s : State) (c : Copy) (i j n : Nat) : State :=
  State.modWg { s with copies := s.copies.map fun x => if x.id = c.id then x.delivering i j n else x } c.wg fun w =>
    w.counting c.id n

/-- A copy without a destination object counts no barrier down. -/
theorem State.deliveredChunk_counted (hobj : c.dstObjs = []) (n : Nat) : s.deliveredChunk c i j n = s.counted c i j n := by
  simp only [State.deliveredChunk, hobj, List.find?_nil, ite_self]
  rfl

theorem State.partOf_counted (s : State) (c : Copy) (i j n id p : Nat) : (s.counted c i j n).partOf id p = s.partOf id p :=
  State.partOf_modWg (fun w => w.counting_id ..) (fun w => congrArg (·.getD p { core := 0 }) (w.counting_parts ..)) c.wg id

theorem State.wave?_counted (s : State) (c : Copy) (i j n id k : Nat) : (s.counted c i j n).wave? id k = s.wave? id k :=
  State.wave?_modWg (fun w => w.counting_id ..) (fun w => w.counting_waves ..) c.wg id k

/-- A chunk whose owner tag stands is written into its part and counted (R108, R112). -/
theorem State.deliverChunk_scratch (hmem : c.memDst = false) (hobj : c.dstObjs = []) (hw : s.wg? c.wg = some w) {g : Byte}
    (hg : (c.gens.find? fun g => g.1 = j) = some (j, g)) (hgen : (w.part j).gen = g) (ha : w.abandoned = false)
    (data : List Byte) (tag : Option Byte) :
    s.deliverChunk c i j bs data tag =
      (s.modPart c.wg j fun p => p.putChunk c.dst bs data tag).counted c i j (bs.filter fun b => b.wr ≠ 0).length := by
  rw [← State.deliveredChunk_counted hobj]
  simp [State.deliverChunk, hmem, hw, hg, hgen, ha]

theorem exec_chunkDelivery (hrec : s.recalls = []) (hc : (s.copies.find? fun x => x.id = c.id) = some c) (hmem : c.memDst = false)
    (hnew : c.arrived i j = false) (hj : j ∈ c.parts) {data : List Byte} {tag : Option Byte}
    (hread : (c.read.find? fun x => x.1 = i) = some (i, data, tag)) (hbs : c.chunkAt i = some bs) {t : State}
    (ht : s.deliverChunk c i j bs data tag = t) (hrect : t.recalls = []) :
    exec (.chunkDelivery c.id i j) s = .next t.buryCopies := by
  have hjoin : c.parts.contains j = true := List.contains_iff_mem.2 hj
  refine congrArg Host.Outcome.next ?_
  simp only [hc, hmem, hnew, hjoin, hread, hbs, Bool.false_and, Bool.or_self, Bool.not_true, Bool.false_eq_true, if_false]
  exact State.transact_eq hrec (congrArg State.buryCopies ht) hrect

/-- A copy that lives, found by its identifier, stands with its delivery counted. -/
theorem State.mem_buryCopies_counted (hc : c ∈ s.copies) (hlive : c.dead = false) (n : Nat) :
    c.delivering i j n ∈ (s.counted c i j n).buryCopies.copies := by
  refine List.mem_filter.2 ⟨List.mem_map.2 ⟨c, hc, if_pos rfl⟩, ?_⟩
  have hd : (c.delivering i j n).dead = false := hlive
  rw [hd]; rfl

/-! Ends (R105, R296). -/

theorem State.completeCopy_ends (hlive : c.dead = false) (hall : c.chunks * c.parts.length ≤ c.delivered.length) :
    s.completeCopy c = State.finishOp { s with copies := s.copies.filter fun x => x.id ≠ c.id } c.id s.clk
      [⟨.s c.status, 0, c.status64⟩] := by
  rw [State.completeCopy, hlive, Bool.false_or]
  exact if_neg (by simpa using hall)

/-- A transpose all of whose chunks are written has nothing left to do but to end. -/
theorem State.xposeRun_ends {x : Xpose} (hx : (s.xposes.find? fun y => y.copy.id = x.copy.id) = some x)
    (hw : s.wg? x.copy.wg = some w) (hnext : x.next = x.copy.chunks) :
    s.xposeRun x.copy.id = State.finishOp { s with xposes := s.xposes.filter fun y => y.copy.id ≠ x.copy.id } x.copy.id s.clk
      [⟨.s x.copy.status, 0, xposeStatus x.bytes x.cut none⟩] := by
  simp only [State.xposeRun, hx, hw, hnext, Nat.sub_self, List.range'_zero, List.foldl_nil]
  rfl

/-- Settles O34: a chunk is read as its part gives it, delivered as its owner tag allows, and what is complete ends. -/
theorem copySteps : Obligations.CopySteps := by
  unfold Obligations.CopySteps
  refine fun s => ⟨?read, ?deliver, ?ends, ?transpose⟩
  case read =>
    intro c w i bs hrec hlive hnew hdue hbs hmem hobj b0 hb0 p hue hlost
    exact exec_chunkSourceRead hrec hlive hnew hdue hbs (State.readChunk_scratch hmem hobj hb0 rfl hue hlost) hrec
  case deliver =>
    intro c w i j bs data tag g hrec hc hmem hobj hnew hj hread hbs hw hlt hg hgen ha
    refine ⟨_, exec_chunkDelivery hrec hc hmem hnew hj hread hbs (State.deliverChunk_scratch hmem hobj hw hg hgen ha data tag) hrec,
      (State.partOf_counted ..).trans (State.partOf_modPart hw hlt _),
      fun k hk => (State.partOf_counted ..).trans (s.partOf_modPart_other c.wg hk _),
      fun id k => (State.wave?_counted ..).trans (s.wave?_modPart ..), fun pa => rfl, fun hlive => ?_⟩
    exact ⟨_, State.mem_buryCopies_counted (List.mem_of_find?_eq_some hc) hlive _, rfl, rfl, rfl⟩
  case ends =>
    intro c hc hlive hall
    refine congrArg Host.Outcome.next ?_
    rw [hc]
    exact State.completeCopy_ends hlive hall
  case transpose =>
    intro x w hrec hx hw hnext
    exact congrArg Host.Outcome.next (State.transact_eq hrec (State.xposeRun_ends hx hw hnext) hrec)

end Sys2Proof.Machine
end

section
/-! PROOFS. L1 and the store buffer (O32): what an entry's drain and the drains of many leave, the sweep, and an L1 fill (R116 to R119,
R304). -/
namespace Sys2Proof.Machine

variable {s t : State} {core : Nat}

/-! Drains of the store buffer (R117). -/

/-- A line of a core that an entry of the store buffer holds stores of. -/
def SbEntry.on (x : SbEntry) (core : Nat) (asid : BitVec 16) (line : Nat) : Bool := core = x.core && asid = x.asid && line = x.line

/-- Some of the entries holds stores of the line. -/
def onAny (l : List SbEntry) (core : Nat) (asid : BitVec 16) (line : Nat) : Bool := l.any fun x => x.on core asid line

theorem onAny_cons (e : SbEntry) (l : List SbEntry) (core : Nat) (asid : BitVec 16) (line : Nat) :
    onAny (e :: l) core asid line = (e.on core asid line || onAny l core asid line) := rfl

theorem onAny_of_mem {l : List SbEntry} {x : SbEntry} (h : x ∈ l) : onAny l x.core x.asid x.line = true :=
  List.any_eq_true.2 ⟨x, h, by simp [SbEntry.on]⟩

/-- What the drains of some entries do to the requests sent before number `n`: those for a line of an entry install no line in
L1 (R304), all others stay. -/
structure Voids (l : List SbEntry) (n : Nat) (g : Req → Req) : Prop where
  only   : ∀ r, g r = r ∨ g r = { r with l1 := false }
  named  : ∀ r, onAny l r.core r.asid r.line = true → r.born < n → (g r).l1 = false
  others : ∀ r, onAny l r.core r.asid r.line = false → g r = r

/-- The one drain of `e` in the state whose next number is `n`. -/
def SbEntry.void (e : SbEntry) (n : Nat) (r : Req) : Req :=
  if r.core = e.core && r.asid = e.asid && r.line = e.line && r.born < n then { r with l1 := false } else r

theorem voids_nil (n : Nat) : Voids [] n id := ⟨fun _ => .inl rfl, fun _ h => Bool.noConfusion h, fun _ _ => rfl⟩

theorem Voids.keeps {l : List SbEntry} {n : Nat} {g : Req → Req} (h : Voids l n g) (r : Req) : { g r with l1 := r.l1 } = r := by
  rcases h.only r with hg | hg <;> rw [hg]

theorem SbEntry.void_only (e : SbEntry) (n : Nat) (r : Req) : e.void n r = r ∨ e.void n r = { r with l1 := false } := by
  rw [SbEntry.void]; split
  · exact .inr rfl
  · exact .inl rfl

/-- A drain, and then the drains of further entries. -/
theorem Voids.cons {l : List SbEntry} {m n : Nat} {g : Req → Req} (h : Voids l m g) (hmn : n ≤ m) (e : SbEntry) :
    Voids (e :: l) n fun r => g (e.void n r) := by
  refine ⟨fun r => ?_, fun r hr hb => ?_, fun r hr => ?_⟩
  · rcases e.void_only n r with hv | hv <;> rw [hv]
    · exact h.only r
    · rcases h.only { r with l1 := false } with hg | hg <;> exact .inr hg
  · cases he : e.on r.core r.asid r.line with
    | true =>
      have hv : e.void n r = { r with l1 := false } :=
        if_pos (by simpa [SbEntry.on, hb] using he)
      rw [hv]
      rcases h.only { r with l1 := false } with hg | hg <;> rw [hg]
    | false =>
      rw [onAny_cons, he, Bool.false_or] at hr
      rcases e.void_only n r with hv | hv <;> rw [hv]
      · exact h.named r hr (Nat.lt_of_lt_of_le hb hmn)
      · rcases h.only { r with l1 := false } with hg | hg <;> rw [hg]
  · rw [onAny_cons, Bool.or_eq_false_iff] at hr
    have hv : e.void n r = r := if_neg fun h => by simp [SbEntry.on] at hr h; exact hr.1 h.1.1.1 h.1.1.2 h.1.2
    rw [hv]
    exact h.others r hr.2

/-- The store that an entry with stores sends to its home lode. -/
def State.storeOf (s : State) (e : SbEntry) (x : SbStore) : Req :=
  { id := s.nextId, born := s.nextId, core := e.core, wg := x.wg, wave := x.wave, lane := x.lane, op := 0, q := s.leadOfCore e.core,
    ctx := e.ctx, asid := e.asid, va := 128 * e.line, line := e.line, leaf := e.leaf, what := .store e.mask e.data,
    lvl := e.lvl, l1 := false, stamp := 0, stores := e.stores, word := x.word }

theorem State.drainEntry_eq (s : State) {e : SbEntry} {x : SbStore} (hx : e.stores.getLast? = some x) :
    s.drainEntry e = { s with
      reqs := s.reqs.map (e.void s.nextId) ++ [s.storeOf e x]
      nextId := s.nextId + 1
      sbuf := s.sbuf.filter fun y => !e.on y.core y.asid y.line
      l1fills := s.l1fills.filter fun y => !e.on y.core y.asid y.line } := by
  rw [State.drainEntry, hx]
  rfl

/-- WHAT THE DRAINS OF SOME ENTRIES LEAVE: every entry's bytes are sent as one store, in order. -/
structure State.Drained (s : State) (l : List SbEntry) (t : State) : Prop where
  reqs : ∃ g new, t.reqs = s.reqs.map g ++ new ∧ Voids l s.nextId g
    ∧ new.map (fun q => (q.core, q.asid, q.line, q.what)) = l.map fun x => (x.core, x.asid, x.line, ReqOp.store x.mask x.data)
  sbuf : t.sbuf = s.sbuf.filter fun y => !onAny l y.core y.asid y.line
  fills : t.l1fills = s.l1fills.filter fun y => !onAny l y.core y.asid y.line
  rest : t = { s with reqs := t.reqs, sbuf := t.sbuf, nextId := t.nextId, l1fills := t.l1fills }

theorem State.drained_foldl (l : List SbEntry) (h : ∀ x ∈ l, x.stores ≠ []) (s : State) : s.Drained l (l.foldl State.drainEntry s) := by
  induction l generalizing s with
  | nil => exact ⟨⟨id, [], by simp, voids_nil _, rfl⟩, by simp [onAny], by simp [onAny], rfl⟩
  | cons e l ih =>
    obtain ⟨he, hl⟩ := List.forall_mem_cons.1 h
    have hx := List.getLast?_eq_some_getLast he
    obtain ⟨⟨g, new, hreqs, hg, hnew⟩, hsbuf, hfills, hrest⟩ := ih hl (s.drainEntry e)
    rw [List.foldl_cons]
    generalize l.foldl State.drainEntry (s.drainEntry e) = t at hreqs hsbuf hfills hrest
    rw [s.drainEntry_eq hx] at hreqs hg hsbuf hfills hrest
    refine ⟨⟨fun r => g (e.void s.nextId r), g (s.storeOf e (e.stores.getLast he)) :: new, ?_, hg.cons (Nat.le_succ _) e, ?_⟩,
      ?_, ?_, ?_⟩
    · simp [hreqs, Function.comp_def]
    · rw [List.map_cons, List.map_cons, hnew]
      rcases hg.only (s.storeOf e (e.stores.getLast he)) with hq | hq <;> rw [hq] <;> rfl
    · simp [hsbuf, List.filter_filter, onAny_cons, Bool.and_comm]
    · simp [hfills, List.filter_filter, onAny_cons, Bool.and_comm]
    · rw [hrest]

/-- The entries of a core that have stood for 1,024 clk. -/
theorem mem_standing {x : SbEntry} :
    (x ∈ s.sbuf.filter fun x => x.core = core && x.born + 1024 ≤ s.clk) ↔ x ∈ s.sbuf ∧ x.core = core ∧ x.born + 1024 ≤ s.clk := by
  rw [List.mem_filter, Bool.and_eq_true, decide_eq_true_eq, decide_eq_true_eq]

theorem onAny_standing (s : State) (core c : Nat) (asid : BitVec 16) (line : Nat) :
    onAny (s.sbuf.filter fun x => x.core = core && x.born + 1024 ≤ s.clk) c asid line
      = (s.sbuf.filter fun x => x.core = core && x.born + 1024 ≤ s.clk).any fun x => c = core && asid = x.asid && line = x.line := by
  rw [onAny, Bool.eq_iff_iff, List.any_eq_true, List.any_eq_true]
  refine exists_congr fun x => and_congr_right fun hx => ?_
  rw [SbEntry.on, (mem_standing.1 hx).2.1]

/-- STORE_BUFFER_TIMEOUT drains the entries that have stood for 1,024 clk, and nothing else. -/
theorem exec_storeBufferTimeout (s : State) (core : Nat) (h : ∀ x ∈ s.sbuf, x.core = core → x.born + 1024 ≤ s.clk → x.stores ≠ []) :
    ∃ t, exec (.storeBufferTimeout core) s = .next t ∧ s.Drained (s.sbuf.filter fun x => x.core = core && x.born + 1024 ≤ s.clk) t := by
  refine ⟨_, rfl, State.drained_foldl _ (fun x hx => ?_) s⟩
  obtain ⟨hmem, hcore, hold⟩ := mem_standing.1 hx
  exact h x hmem hcore hold

/-! The sweep (R119) and fills (R116, R304). -/

/-- The sweep has visited every line at a distance of 127. -/
theorem State.sweepDue_sweep (s : State) (core : Nat) : (s.sweep core).sweepDue core = false := by
  rw [State.sweepDue, List.any_eq_false]
  intro x hx
  obtain ⟨y, -, rfl⟩ := List.mem_map.1 hx
  split
  · simp
  · next h =>
    have hdist : (s.sweep core).stampDist y = s.stampDist y := rfl
    rw [Bool.and_eq_true, decide_eq_true_eq, decide_eq_true_eq] at h
    simp only [hdist, Bool.and_eq_true, decide_eq_true_eq]
    exact fun h' => h h'.1

/-- A line after the sweep was there before, at a distance below 128. -/
theorem State.mem_sweep {x : L1Line} (h : x ∈ (s.sweep core).l1) :
    (x.core = core → s.stampDist x < 128) ∧ ∃ y ∈ s.l1, y = { x with swept := y.swept } := by
  obtain ⟨y, hy, rfl⟩ := List.mem_map.1 h
  obtain ⟨hmem, hnear⟩ := List.mem_filter.1 hy
  have hdist : y.core = core → s.stampDist y < 128 := fun hc => by simpa [hc] using hnear
  split
  · exact ⟨hdist, y, hmem, rfl⟩
  · exact ⟨hdist, y, hmem, rfl⟩

theorem State.mem_sweep_of_near {x : L1Line} (h : x ∈ s.l1) (hx : x.core ≠ core ∨ s.stampDist x < 127) : x ∈ (s.sweep core).l1 := by
  refine List.mem_map.2 ⟨x, List.mem_filter.2 ⟨h, ?_⟩, if_neg ?_⟩
  · rcases hx with hx | hx
    · simp [hx]
    · simp; omega
  · rcases hx with hx | hx
    · simp [hx]
    · simp; omega

theorem exec_l1Fill_blocked {f : L1Fill} (hf : (s.l1fills.find? fun x => x.id = f.id) = some f)
    (hb : ((s.reqs.any fun r => r.core = f.core && r.asid = f.asid && r.lines.contains f.line && !(r.isLoad && r.l1))
      || (s.sbAt f.core f.asid f.line).isSome) = true) :
    exec (.l1Fill f.id) s = .next { s with l1fills := s.l1fills.filter fun x => x.id ≠ f.id } := by
  refine congrArg Host.Outcome.next ?_
  rw [hf]
  exact if_pos hb

theorem exec_l1Fill_installs {f : L1Fill} (hf : (s.l1fills.find? fun x => x.id = f.id) = some f)
    (hb : ((s.reqs.any fun r => r.core = f.core && r.asid = f.asid && r.lines.contains f.line && !(r.isLoad && r.l1))
      || (s.sbAt f.core f.asid f.line).isSome) = false) :
    exec (.l1Fill f.id) s = .next (State.l1Add { s with l1fills := s.l1fills.filter fun x => x.id ≠ f.id }
      { core := f.core, asid := f.asid, line := f.line, data := f.data, stamp := f.stamp }) := by
  refine congrArg Host.Outcome.next ?_
  rw [hf]
  exact if_neg (by rw [Bool.not_eq_true]; exact hb)

end Sys2Proof.Machine
end

section
/-! PROOFS. Results that land and generations that advance (R118, R119, R187, R188), and O32. -/
namespace Sys2Proof.Machine

variable {s t : State} {core : Nat} {r : Result} {v : Wave}

/-! G (R118). -/

theorem State.gen_of_rf {s t : State} (h : t.rf (rL1_STAT core) 0 8 = s.rf (rL1_STAT core) 0 8) : t.gen core = s.gen core := by
  rw [State.gen, h, State.gen]

theorem State.gen_advance (s : State) (core : Nat) : (s.advance core).gen core = s.gen core + 1 := by
  have hrf : (s.advance core).rf (rL1_STAT core) 0 8 = (s.rf (rL1_STAT core) 0 8 + 1) % 2 ^ 8 := by
    rw [State.advance, State.rf_setRf_field _ _ _ (by decide), State.rf_setRf_self _ _ _ (by decide)]
  rw [State.gen, hrf, State.gen]
  apply BitVec.eq_of_toNat_eq
  simp

theorem State.results_advance (s : State) (core : Nat) : (s.advance core).results = s.results := rfl
theorem State.recalls_advance (s : State) (core : Nat) : (s.advance core).recalls = s.recalls := rfl
theorem State.byte_advance (s : State) (core pa : Nat) : (s.advance core).byte pa = s.byte pa := rfl
theorem State.wave?_advance (s : State) (core wg k : Nat) : (s.advance core).wave? wg k = s.wave? wg k := rfl

/-! A result's landing (R187). -/

/-- The wave on which a result has landed. -/
def Wave.landed (w : Wave) (r : Result) : Wave :=
  { w.writeAll r.writes with
    marks := (w.writeAll r.writes).marks.filter fun m => m.2 ≠ r.id
    holds := (w.writeAll r.writes).holds.filter fun h => h ≠ r.id
    cnt := match r.cnt with
      | some c => (w.writeAll r.writes).cnt.bump c (-1)
      | none => (w.writeAll r.writes).cnt
    threads := (w.writeAll r.writes).threads.mapIdx fun l t =>
      r.flags.foldl (fun t fl => if fl.1 = l then { t with sli := t.sli ||| fl.2 } else t) t }

/-- The state in which a result has landed. -/
def State.landed (s : State) (r : Result) : State :=
  State.modWave { s with results := s.results.filter fun x => x.id ≠ r.id } r.wg r.wave fun w => w.landed r

theorem State.lands_eq (hr : (s.results.find? fun x => x.id = r.id) = some r) : s.lands r.id = s.landed r := by
  rw [State.lands, hr]
  rfl

theorem Wave.writeAll_keeps {γ : Type} {g : Wave → γ} (h : ∀ w x, g (Wave.write w x) = g w) (w : Wave) (l : List RegWrite) :
    g (w.writeAll l) = g w := foldl_keeps g h l w

theorem Wave.marks_cnt_write (w : Wave) (x : RegWrite) : ((w.write x).marks, (w.write x).cnt) = (w.marks, w.cnt) := by
  rw [Wave.write]
  split
  · rfl
  · rfl
  · split <;> rfl
  · rfl
  · rfl

theorem Wave.marks_cnt_writeAll (w : Wave) (l : List RegWrite) : (w.writeAll l).marks = w.marks ∧ (w.writeAll l).cnt = w.cnt :=
  Prod.mk.inj (Wave.writeAll_keeps (g := fun w => (w.marks, w.cnt)) Wave.marks_cnt_write w l)

theorem Wave.marks_cnt_landed (w : Wave) (r : Result) : (w.landed r).marks = w.marks.filter (fun m => m.2 ≠ r.id)
    ∧ (w.landed r).cnt = (match r.cnt with
      | some c => w.cnt.bump c (-1)
      | none => w.cnt) := by
  obtain ⟨hmarks, hcnt⟩ := w.marks_cnt_writeAll r.writes
  rw [Wave.landed, hmarks, hcnt]
  exact ⟨rfl, rfl⟩

/-- SLI flags are no registers. -/
theorem Wave.reg_landed (w : Wave) (r : Result) (x : Reg) (lane : Nat) : (w.landed r).reg x lane = (w.writeAll r.writes).reg x lane := by
  have hpreds (t : Thread) (l : Nat) :
      (r.flags.foldl (fun t fl => if fl.1 = l then { t with sli := t.sli ||| fl.2 } else t) t).preds = t.preds :=
    foldl_keeps Thread.preds (fun t fl => by split <;> rfl) r.flags t
  cases x with
  | p k =>
    have hp : (w.landed r).p k lane = (w.writeAll r.writes).p k lane := by
      simp only [Wave.p, Wave.thread, Wave.landed, List.getD_eq_getElem?_getD, List.getElem?_mapIdx]
      cases (w.writeAll r.writes).threads[lane]? with
      | none => rfl
      | some t => rw [Option.map_some, Option.getD_some, hpreds]; rfl
    rw [Wave.reg, hp, Wave.reg]
  | _ => rfl

theorem State.wave?_landed (hv : s.wave? r.wg r.wave = some v) : (s.landed r).wave? r.wg r.wave = some (v.landed r) := by
  rw [State.landed, State.wave?_modWave, if_pos ⟨rfl, rfl⟩]
  exact congrArg (Option.map fun w => w.landed r) hv

theorem State.results_landed (s : State) (r : Result) : (s.landed r).results = s.results.filter fun x => x.id ≠ r.id := rfl
theorem State.recalls_landed (s : State) (r : Result) : (s.landed r).recalls = s.recalls := rfl
theorem State.gen_landed (s : State) (r : Result) (core : Nat) : (s.landed r).gen core = s.gen core := rfl
theorem State.byte_landed (s : State) (r : Result) (pa : Nat) : (s.landed r).byte pa = s.byte pa := rfl

/-- The state in which the landing of `r` waits for the sweep of its core: L1_STAT counts the wait, and shows it. -/
def State.noteWait (s : State) (r : Result) : State :=
  ((s.incRf (rL1_STAT (s.resultCore r)) 16 16).setRf (rL1_STAT (s.resultCore r)) 8 1 1).modResult r.id fun x => { x with adv := true }

theorem State.results_noteWait (s : State) (r : Result) :
    (s.noteWait r).results = s.results.map fun x => if x.id = r.id then { x with adv := true } else x := rfl
theorem State.wave?_noteWait (s : State) (r : Result) (wg k : Nat) : (s.noteWait r).wave? wg k = s.wave? wg k := rfl
theorem State.rf_noteWait (s : State) (r : Result) (o lo n : Nat) : (s.noteWait r).rf o lo n =
    ((s.incRf (rL1_STAT (s.resultCore r)) 16 16).setRf (rL1_STAT (s.resultCore r)) 8 1 1).rf o lo n := rfl

/-! RESULT_LANDS. -/

/-- The result stands ready to land: it is no fence, and its wave is there to take it. -/
structure State.Lands (s : State) (r : Result) (v : Wave) : Prop where
  calm  : s.recalls = []
  due   : (s.results.find? fun x => x.id = r.id && x.ready && x.readyAt ≤ s.clk && !x.adv) = some r
  own   : (s.results.find? fun x => x.id = r.id) = some r
  plain : r.fence = none
  wave  : s.wave? r.wg r.wave = some v

theorem State.landFence_plain (h : r.fence = none) (s : State) : s.landFence r = s := by
  rw [State.landFence, h]

section Lands
variable (h : s.Lands r v)
include h

theorem exec_resultLands (ht : s.landResult r.id = t) (hc : t.recalls = []) : exec (.resultLands r.id) s = .next t :=
  congrArg Host.Outcome.next (State.transact_eq h.calm ht hc)

theorem State.landResult_eq : s.landResult r.id =
    if !s.resultAdvances r then s.landed r
    else if s.sweepDue (s.resultCore r) then s.noteWait r
    else (s.advance (s.resultCore r)).landed r := by
  have hready : s.fenceReady r = (true, s) := by rw [State.fenceReady, h.plain]
  have hwg : (s.wg? r.wg).isNone = false := by
    have hw := h.wave
    rw [State.wave?] at hw
    cases hg : s.wg? r.wg with
    | none => rw [hg] at hw; cases hw
    | some g => rfl
  have hown : ((s.advance (s.resultCore r)).results.find? fun x => x.id = r.id) = some r := h.own
  simp only [State.landResult, h.due, hready, hwg, State.landFence_plain h.plain, State.lands_eq h.own, State.lands_eq hown,
    Bool.not_true, Bool.false_eq_true, if_false]
  rfl

/-- A landing that is no acquire. -/
theorem exec_resultLands_plain (ha : s.resultAdvances r = false) : exec (.resultLands r.id) s = .next (s.landed r) := by
  have hl := State.landResult_eq h
  rw [ha] at hl
  exact exec_resultLands h hl ((s.recalls_landed r).trans h.calm)

/-- An acquire's landing, where no line is left for the sweep to visit. -/
theorem exec_resultLands_advances (ha : s.resultAdvances r = true) (hd : s.sweepDue (s.resultCore r) = false) :
    exec (.resultLands r.id) s = .next ((s.advance (s.resultCore r)).landed r) := by
  have hl := State.landResult_eq h
  rw [ha, hd] at hl
  exact exec_resultLands h hl ((State.recalls_landed _ r).trans h.calm)

/-- An acquire's landing that waits for the sweep. -/
theorem exec_resultLands_waits (ha : s.resultAdvances r = true) (hd : s.sweepDue (s.resultCore r) = true) :
    exec (.resultLands r.id) s = .next (s.noteWait r) := by
  have hl := State.landResult_eq h
  rw [ha, hd] at hl
  exact exec_resultLands h hl h.calm

end Lands

/-! GENERATION_ADVANCE (R119). -/

theorem poolReg_rL1_STAT (n : Nat) : poolReg (rL1_STAT n) = false := by
  have h1 : rL1_STAT n ≠ rTMB_INT_STAT := by unfold rL1_STAT rTMB_INT_STAT; omega
  have h2 : (rL1_STAT n - 0x10100) % 0x100 ≠ 0 := by unfold rL1_STAT; omega
  simp [poolReg, h1, h2]

/-- A state without what the Tumbler's records, the lines and the fills on their way hold. -/
def State.fenceless (s : State) : State := { s.lineless with fills := [] }

theorem State.fenceless_of_lineless (h : t.lineless = s.lineless) : t.fenceless = s.fenceless :=
  congrArg (fun x : State => ({ x with fills := [] } : State)) h

theorem State.fenceless_refetch (s : State) (p : Fill → Bool) : (s.refetch p).fenceless = s.fenceless := rfl

/-- Lines of host memory that a fence drops are written back, and the fills on their way made anew; nothing else moves. -/
theorem State.fenceless_dropHostLines (s : State) (q : Nat) : (s.dropHostLines q).fenceless = s.fenceless := by
  rw [State.dropHostLines, State.fenceless_refetch]
  exact foldl_keeps State.fenceless (f := fun (t : State) (l : LLine) => (t.writeback l.id).1.dropLine l.id)
    (fun t l => State.fenceless_of_lineless ((t.tends_writeback l.id).trans (State.Tends.dropLine _ l.id)).lineless) _ s

theorem State.fenceless_landFence (s : State) (r : Result) : (s.landFence r).fenceless = s.fenceless := by
  rw [State.landFence]
  split
  · split
    · exact s.fenceless_dropHostLines _
    · rfl
  · rfl

theorem State.results_landFence (s : State) (r : Result) : (s.landFence r).results = s.results :=
  (congrArg State.results (s.fenceless_landFence r) :)

theorem State.recalls_landFence (s : State) (r : Result) : (s.landFence r).recalls = s.recalls :=
  (congrArg State.recalls (s.fenceless_landFence r) :)

theorem State.gen_landFence (s : State) (r : Result) (core : Nat) : (s.landFence r).gen core = s.gen core := by
  have hc : SMap.drop poolReg (s.landFence r).csr = SMap.drop poolReg s.csr := (congrArg State.csr (s.fenceless_landFence r) :)
  refine State.gen_of_rf ?_
  rw [State.rf, State.rf, State.reg, State.reg, ← SMap.find_drop (poolReg_rL1_STAT core) (s.landFence r).csr, hc,
    SMap.find_drop (poolReg_rL1_STAT core)]

theorem State.results_lands (hr : r ∈ s.results) : (s.lands r.id).results = s.results.filter fun x => x.id ≠ r.id := by
  rw [State.lands]
  split
  · next h => exact absurd (List.find?_eq_none.1 h r hr) (by simp)
  · rfl

theorem State.csr_lands (s : State) (id : Nat) : (s.lands id).csr = s.csr := by
  rw [State.lands]; split <;> rfl

theorem State.recalls_lands (s : State) (id : Nat) : (s.lands id).recalls = s.recalls := by
  rw [State.lands]; split <;> rfl

theorem State.gen_lands (s : State) (id core : Nat) : (s.lands id).gen core = s.gen core := by
  rw [State.gen, State.rf, State.reg, State.csr_lands]; rfl

/-- The state in which the advance that waited for the sweep, with the landing of `r`, has taken place. -/
def State.advanced (s : State) (core : Nat) (r : Result) : State := ((s.advance core).landFence r).lands r.id

theorem State.results_advanced (hr : r ∈ s.results) : (s.advanced core r).results = s.results.filter fun x => x.id ≠ r.id := by
  rw [State.advanced, State.results_lands (by rw [State.results_landFence]; exact hr), State.results_landFence, State.results_advance]

theorem State.gen_advanced (s : State) (core : Nat) (r : Result) : (s.advanced core r).gen core = s.gen core + 1 := by
  rw [State.advanced, State.gen_lands, State.gen_landFence, State.gen_advance]

theorem State.recalls_advanced (s : State) (core : Nat) (r : Result) : (s.advanced core r).recalls = s.recalls := by
  rw [State.advanced, State.recalls_lands, State.recalls_landFence, State.recalls_advance]

/-- Beside that, L1_STAT notes whether a further advance waits. -/
theorem State.advanceWaiting_eq (hr : (s.results.find? fun x => x.adv && s.resultCore x = core) = some r)
    (hd : s.sweepDue core = false) :
    ∃ b : Bool, s.advanceWaiting core = if b then (s.advanced core r).setRf (rL1_STAT core) 8 1 1 else s.advanced core r := by
  rw [State.advanceWaiting, hr]
  simp only [hd, Bool.false_eq_true, if_false]
  exact ⟨_, rfl⟩

theorem exec_generationAdvance (hrec : s.recalls = []) (hr : (s.results.find? fun x => x.adv && s.resultCore x = core) = some r)
    (hd : s.sweepDue core = false) : ∃ t, exec (.generationAdvance core) s = .next t
      ∧ t.results = s.results.filter (fun x => x.id ≠ r.id) ∧ t.gen core = s.gen core + 1 := by
  obtain ⟨b, hb⟩ := State.advanceWaiting_eq hr hd
  have hres := State.results_advanced (core := core) (List.mem_of_find?_eq_some hr)
  have hgen := s.gen_advanced core r
  have hcalm := (s.recalls_advanced core r).trans hrec
  cases b with
  | true =>
    exact ⟨_, congrArg Host.Outcome.next (State.transact_eq hrec hb hcalm), hres,
      (State.gen_of_rf (State.rf_setRf_field _ _ _ (by decide))).trans hgen⟩
  | false => exact ⟨_, congrArg Host.Outcome.next (State.transact_eq hrec hb hcalm), hres, hgen⟩

/-- Settles O32: a result's landing by whether it advances G and whether the sweep has passed; the store buffer, the sweep and a
fill by what each leaves. -/
theorem resultsAndL1 : Obligations.ResultsAndL1 := by
  unfold Obligations.ResultsAndL1
  refine ⟨fun s => ⟨?lands, ?advance⟩, fun s => ⟨?timeout, ?sweep, ?fill⟩⟩
  case lands =>
    intro r v hrec hdue hown hplain hv
    have h : s.Lands r v := ⟨hrec, hdue, hown, hplain, hv⟩
    have wave := And.intro (fun x lane (_ : lane < 64) => v.reg_landed r x lane) (v.marks_cnt_landed r)
    refine ⟨fun ha => ?_, fun ha hd => ?_, fun ha hd => ?_⟩
    · exact ⟨_, exec_resultLands_plain h ha, ⟨_, s.results_landed r, State.wave?_landed hv, wave⟩, Elsewhere.of_modWave ..⟩
    · refine ⟨_, exec_resultLands_advances h ha hd,
        ⟨_, State.results_landed _ r, State.wave?_landed (by rw [State.wave?_advance, hv]), wave⟩, ?_,
        fun pa => by rw [State.byte_landed, State.byte_advance]⟩
      rw [State.gen_landed, State.gen_advance]
    · refine ⟨_, exec_resultLands_waits h ha hd, State.results_noteWait s r, ?_, State.gen_of_rf ?_, State.wave?_noteWait s r⟩
      · rw [State.rf_noteWait, State.rf_setRf_self _ _ _ (by decide), Nat.mod_eq_of_lt (by decide)]
      · rw [State.rf_noteWait, State.rf_setRf_field _ _ _ (by decide), State.incRf, State.rf_setRf_field _ _ _ (by decide)]
  case advance =>
    intro core r hrec hr hpast _
    exact exec_generationAdvance hrec hr hpast
  case timeout =>
    intro core hstores
    dsimp only
    obtain ⟨t, hx, ⟨g, new, hreqs, hg, hnew⟩, hsbuf, hfills, hrest⟩ := exec_storeBufferTimeout s core hstores
    refine ⟨t, new, s.reqs.map g, hx, hreqs, List.length_map _, fun i r hr => ⟨g r, by rw [List.getElem?_map, hr]; rfl, hg.keeps r, ?_⟩,
      hnew, fun x hx => ?_, fun x hx hc => ?_, hrest, fun x hx y hy hon => ?_⟩
    · rw [← onAny_standing]
      exact ⟨hg.named r, hg.others r⟩
    · rw [hsbuf] at hx
      obtain ⟨hmem, hoff⟩ := List.mem_filter.1 hx
      refine ⟨hmem, fun hold => ?_⟩
      rw [onAny_of_mem (mem_standing.2 ⟨hmem, hold⟩)] at hoff
      exact Bool.noConfusion hoff
    · rw [hsbuf]
      refine List.mem_filter.2 ⟨hx, ?_⟩
      rw [onAny_standing]
      simp [hc]
    · rw [hfills] at hy
      obtain ⟨-, hoff⟩ := List.mem_filter.1 hy
      obtain ⟨hcore, hasid, hline⟩ := hon
      have hxc : x.core = core := (mem_standing.1 hx).2.1
      rw [hcore, hasid, hline, ← hxc, onAny_of_mem (by rw [hxc]; exact hx)] at hoff
      exact Bool.noConfusion hoff
  case sweep =>
    intro core
    exact ⟨_, rfl, rfl, s.sweepDue_sweep core, rfl, fun x hx => (State.mem_sweep hx).1, fun x hx h => State.mem_sweep_of_near hx h,
      fun x hx => (State.mem_sweep hx).2⟩
  case fill =>
    intro f hf
    dsimp only
    cases hb : ((s.reqs.any fun r => r.core = f.core && r.asid = f.asid && r.lines.contains f.line && !(r.isLoad && r.l1))
      || (s.sbAt f.core f.asid f.line).isSome) with
    | true => exact ⟨_, exec_l1Fill_blocked hf hb, rfl, fun _ => rfl, fun h => Bool.noConfusion h⟩
    | false =>
      exact ⟨_, exec_l1Fill_installs hf hb, rfl, fun h => Bool.noConfusion h,
        fun _ => List.mem_append_right _ (List.mem_singleton.2 rfl)⟩

end Sys2Proof.Machine
end

section
/-! PROOFS. Memory words past their checks (R187, R247), and ST of one lane (O20). -/
namespace Sys2Proof.Machine

variable {s s1 t : State} {hd : Hdr} {e : Env} {f : MF} {l : Layout} {lane : Nat}

/-! The checks of a memory word (R187, R247). -/

theorem State.gate_ready {regs : List Reg} (h : ∀ r ∈ regs, e.w.marked r = false ∧ e.w.pending r = false) (k : State → State) :
    s.gate e regs k = k s := by
  have hmarked : regs.any e.w.marked = false := List.any_eq_false.2 fun r hr => by simp [(h r hr).1]
  have hpending : regs.any e.w.pending = false := List.any_eq_false.2 fun r hr => by simp [(h r hr).2]
  rw [State.gate, hmarked, hpending]
  rfl

/-- A word whose entry is found, and whose coordinate registers the wave holds, comes to its own effect. -/
theorem State.form_entry {h k : Byte} {scalar : Bool} (hl : Entry s e h scalar k l) {ok : Layout → Bool} (hok : ok l = true)
    (body : Layout → State → State) : s.form e h ok (coordRegs scalar k) body = body l s := by
  obtain ⟨hentry, hregs⟩ := hl
  have hheld : (coordRegs scalar k l.rank.toNat).any e.noReg = false := by
    refine List.any_eq_false.2 fun r hr => ?_
    obtain ⟨hb, -, -, hlt⟩ := hregs r hr
    cases r with
    | s i => simp [Env.noReg, hb, Nat.not_le.2 (hlt i rfl)]
    | _ => simp [Env.noReg, hb]
  rw [State.form, hentry]
  dsimp only
  rw [State.gate_ready fun r hr => ⟨(hregs r hr).2.1, (hregs r hr).2.2.1⟩, hok, hheld]
  rfl

theorem Env.act_ne_nil (hact : e.act = [lane]) : e.act ≠ [] := by simp [hact]

/-! A store on its way (R117). -/

theorem State.sbAt_none (h : ∀ x ∈ s.sbuf, x.core ≠ e.core) (asid : BitVec 16) (line : Nat) : s.sbAt e.core asid line = none :=
  List.find?_eq_none.2 fun x hx => by simp [h x hx]

theorem State.drainLine_none (h : ∀ x ∈ s.sbuf, x.core ≠ e.core) (asid : BitVec 16) (line : Nat) : s.drainLine e.core asid line = s := by
  rw [State.drainLine, State.sbAt_none h]

/-- A store of a line of which the buffer holds no entry of its core begins a new one (R117). -/
theorem State.sbMerge_new (h : ∀ x ∈ s.sbuf, x.core ≠ e.core) (asid : BitVec 16) (line : Nat) (lvl : Level) (leaf : Leaf) (ctx : Nat)
    (x : SbStore) : ∃ l1, s.sbMerge e.core asid line lvl leaf ctx x =
      State.bump { s.voidFills e.core asid line s.nextId with
        l1 := l1, sbuf := s.sbuf ++ [⟨e.core, asid, line, x.mask, x.data, lvl, leaf, s.clk, [x], ctx⟩] } x.wg x.wave .st 1 := by
  have hat : (s.voidFills e.core asid line s.nextId).sbAt e.core asid line = none :=
    State.sbAt_none (s := s.voidFills e.core asid line s.nextId) h asid line
  have hmine : ((s.voidFills e.core asid line s.nextId).sbuf.filter fun y => y.core = e.core) = [] :=
    List.filter_eq_nil_iff.2 fun y hy => by simpa using h y hy
  simp only [State.sbMerge, hat, hmine]
  split
  · exact ⟨s.l1, rfl⟩
  · exact ⟨_, rfl⟩

/-- A store goes to its home lode at once where the buffer holds no entry of its core (R117, R253). -/
theorem State.sendStore_new (h : ∀ x ∈ s.sbuf, x.core ≠ e.core) (asid : BitVec 16) (leaf : Leaf) (pol : Nat) (m d : Line) (x : SbStore) :
    ∃ l1 q, s.sendStore e asid leaf pol (.store m d) x =
      State.bump { s.voidFills e.core asid (x.va / 128) s.nextId with
        l1 := l1, nextId := s.nextId + 1, reqs := (s.voidFills e.core asid (x.va / 128) s.nextId).reqs ++ [q] } x.wg x.wave .st 1
      ∧ q.core = e.core ∧ q.asid = asid ∧ q.line = x.va / 128 ∧ q.what = .store m d := by
  rw [State.sendStore]
  dsimp only
  rw [State.drainLine_none h]
  exact ⟨_, _, rfl, rfl, rfl, rfl, rfl⟩

/-! ST of one lane (R253). -/

/-- The element of the one active lane lies in one part in memory, its page no register page, and needs no scale. -/
structure State.StoresOne (s : State) (e : Env) (f : MF) (l : Layout) (lane ba w : Nat) (fmt : BitVec 4) (leaf : Leaf) (p : MPart)
    (s1 : State) : Prop where
  act   : e.act = [lane]
  elem  : s.elemOf e l (e.coords l.rank.toNat false f.k f.off lane) (!rawTy (memTy f.var.toNat)) (memWidth f.var.toNat) .wr false true
    = (.mem ba w fmt leaf [p] none, s1)
  plain : leaf.isReg = false
  page  : p.leaf.isReg = false

variable {ba w : Nat} {fmt : BitVec 4} {leaf : Leaf} {p : MPart}

/-- The code that the lane's element takes. -/
def Env.storeCode (e : Env) (f : MF) (fmt : BitVec 4) (lane : Nat) : Nat :=
  (storeVal (memTy f.var.toNat) fmt none (e.vec (memTy f.var.toNat) f.data lane)).1

theorem State.sendStores_one (h : s.StoresOne e f l lane ba w fmt leaf p s1) (hrel : bitAt f.var 3 = false) :
    ∃ g, s.sendStores e f l =
      (s1.storeParts e f.pol.toNat (ba % 8 = 0 && w % 8 = 0) lane (e.storeCode f fmt lane) [p]).now e g := by
  have hreg : s1.regOk e (.mem ba w fmt leaf [p] none) (memTy f.var.toNat) true = (.mem ba w fmt leaf [p] none, s1) := by
    simp only [State.regOk, List.find?_cons, h.page, List.find?_nil]
  simp only [State.sendStores, State.elemsOf, h.act, List.foldl_cons, List.foldl_nil, h.elem, hreg, List.nil_append]
  have hlane : s1.storeLane e (memTy f.var.toNat) f.pol.toNat (bitAt f.var 3) l lane (e.vec (memTy f.var.toNat) f.data lane)
      (.mem ba w fmt leaf [p] none)
      = s1.storeParts e f.pol.toNat (ba % 8 = 0 && w % 8 = 0) lane (e.storeCode f fmt lane) [p] := by
    simp only [State.storeLane, h.plain, hrel, Bool.not_false, Bool.true_and, Bool.false_eq_true, if_false]
    rfl
  have hgood : goodLanes [(lane, .mem ba w fmt leaf [p] none)] = [(lane, .mem ba w fmt leaf [p] none)] := rfl
  have hbad : badLanes [(lane, .mem ba w fmt leaf [p] none)] = [] := rfl
  rw [hgood, hbad, List.foldl_cons, List.foldl_nil, hlane]
  exact ⟨_, rfl⟩

/-- ST of the one lane, where its one part goes into the store buffer under `buf`, to its home lode else, which makes `t`. -/
theorem exec_st_one (h : s.StoresOne e f l lane ba w fmt leaf p s1) (hrel : bitAt f.var 3 = false)
    (hr : Ready s hd none (usesOf (.st hd f)) e) (hh : e.w.holds = []) (hl : Entry s e f.h false f.k l) {buf : Bool}
    (hbuf : (decide (ba % 8 = 0) && decide (w % 8 = 0)) = buf)
    (ht : s1.storeParts e f.pol.toNat buf lane (e.storeCode f fmt lane) [p] = t) (hcalm : t.recalls = []) :
    ∃ g, exec (.st hd f) s = .next (t.now e g) := by
  obtain ⟨g, hg⟩ := State.sendStores_one h hrel
  refine ⟨g, memWord_ready hr hh ?_ (hcalm.trans hr.2.1.symm)⟩
  rw [stBody, State.form_entry hl rfl, if_neg (Env.act_ne_nil h.act), hrel]
  refine hg.trans ?_
  rw [hbuf, ht]

/-- Settles O20: the word passes its checks, and its one part begins an entry of the store buffer, or goes to its home lode. -/
theorem storesToMemory : Obligations.StoresToMemory := by
  unfold Obligations.StoresToMemory
  intro s hd e f l lane hh hact hr hl hrel ty ba w fmt leaf p s1 helem hplain hpage hcalm asid mask data hno
  have h : s.StoresOne e f l lane ba w fmt leaf p s1 := ⟨hact, helem, hplain, hpage⟩
  by_cases hb : ba % 8 = 0 ∧ w % 8 = 0
  · obtain ⟨l1, hm⟩ := State.sbMerge_new hno asid (p.p.va / 128) (hintOf f.pol.toNat) p.leaf e.ctx.num
      (e.partStore lane (e.storeCode f fmt lane) p.p)
    obtain ⟨g, hx⟩ := exec_st_one h hrel hr hh hl (buf := true) (by simp [hb]) hm hcalm
    exact ⟨_, hx, fun _ => rfl, (if_pos hb).mpr ⟨_, rfl, rfl, rfl, rfl, rfl, rfl, List.length_map _⟩⟩
  · obtain ⟨l1, q, hm, hcore, hasid, hline, hwhat⟩ := State.sendStore_new hno asid p.leaf f.pol.toNat mask data
      (e.partStore lane (e.storeCode f fmt lane) p.p)
    obtain ⟨g, hx⟩ := exec_st_one h hrel hr hh hl (buf := false) (by simpa using hb) hm hcalm
    refine ⟨_, hx, fun _ => rfl, (if_neg hb).mpr
      ⟨q, ?_, List.mem_append_right _ (List.mem_singleton.2 rfl), hcore, hasid, hline, hwhat, rfl⟩⟩
    exact (List.length_append ..).trans (congrArg (· + 1) (List.length_map _))

end Sys2Proof.Machine
end

section
/-! PROOFS. Atomics of one lane (O24): ATOM sends its operands to the element's home lode, ATOMS performs its operation at the bank
(R256, R257). -/
namespace Sys2Proof.Machine

variable {s s1 t : State} {hd : Hdr} {e : Env} {f : MF} {l : Layout} {lane : Nat}

/-! ATOM (R256). -/

variable {ba w : Nat} {fmt : BitVec 4} {leaf : Leaf} {ps : List MPart} {sc : Option MPart}

/-- The result that an ATOM of one lane waits for, as operation `n`. -/
def State.atomResult (s : State) (e : Env) (f : MF) (lane n : Nat) : Result :=
  { id := n, wg := e.iss.wg, wave := e.iss.wave, cnt := some .ld, regs := atomDst (f.var.toNat % 16) f.data, readyAt := s.clk + 32,
    acq := if bitAt f.var 4 then some f.scope else none,
    lanes := [{ laneLoad (if atomWidth (f.var.toNat % 16) = 64 then .b64 else .b32) (.v f.data.toNat) lane (1#64 <<< lane) .zero with
      parts := 1, w := atomWidth (f.var.toNat % 16) }] }

theorem Result.gathered_waiting {r : Result} {x : LaneLoad} (hx : r.lanes = [x]) (hparts : x.parts ≠ 0) (clk : Nat) :
    r.gathered clk = r := by
  rw [Result.gathered, hx]
  exact if_pos (by simp [hparts])

/-- One lane's operands leave for the home lode; the store buffer holds nothing of the core (R117). -/
theorem State.sendAtom_new (h : ∀ x ∈ s.sbuf, x.core ≠ e.core) (op n pol : Nat) (k : Byte) :
    ∃ q, s.sendAtom e op n lane pol k (.mem ba w fmt leaf ps sc) =
      State.bump { (s.l1Drop e.core (effAsid e.ctx.asid (ba / 8)) (ba / 8 / 128)).voidFills e.core (effAsid e.ctx.asid (ba / 8))
          (ba / 8 / 128) s.nextId with
        nextId := s.nextId + 1
        reqs := ((s.l1Drop e.core (effAsid e.ctx.asid (ba / 8)) (ba / 8 / 128)).voidFills e.core (effAsid e.ctx.asid (ba / 8))
          (ba / 8 / 128) s.nextId).reqs ++ [q] } e.iss.wg e.iss.wave .st 1
      ∧ q.op = n ∧ q.lane = lane ∧ q.asid = effAsid e.ctx.asid (ba / 8) ∧ q.line = ba / 8 / 128
      ∧ q.what = .atomic op (ba % 1024) w (BitVec.ofNat 64 (e.atomArg op k lane).1) (BitVec.ofNat 64 (e.atomArg op k lane).2) := by
  rw [State.sendAtom]
  dsimp only
  rw [State.drainLine_none h]
  exact ⟨_, rfl, rfl, rfl, rfl, rfl, rfl⟩

/-- An operation is started, and its one lane's operands are sent. -/
theorem State.sendAtoms_one (hact : e.act = [lane])
    (hx : s.elemOf e l (e.coords l.rank.toNat false f.k f.off lane) false (atomWidth (f.var.toNat % 16)) .rdwr true false
      = (.mem ba w fmt leaf ps sc, s1)) :
    ∃ v, s.sendAtoms e f l =
      (State.sendAtom { s1 with nextId := s1.nextId + 1, results := s1.results ++ [s1.atomResult e f lane s1.nextId], wgs := v }
        e (f.var.toNat % 16) s1.nextId lane f.pol.toNat f.data (.mem ba w fmt leaf ps sc)).modResult s1.nextId
          fun o => o.gathered s1.clk := by
  have hgood : goodLanes [(lane, Elem.mem ba w fmt leaf ps sc)] = [(lane, .mem ba w fmt leaf ps sc)] := rfl
  have hout : zeroLanes [(lane, Elem.mem ba w fmt leaf ps sc)] = [] := rfl
  have hbad : badLanes [(lane, Elem.mem ba w fmt leaf ps sc)] = [] := rfl
  have horder (s : State) (g : Elem → Nat × Nat) : s.laneOrder [(lane, Elem.mem ba w fmt leaf ps sc)] g
      = ([(lane, .mem ba w fmt leaf ps sc)], s) := rfl
  simp only [State.sendAtoms, State.elemsOf, hact, List.foldl_cons, List.foldl_nil, hx, List.nil_append, hgood, hout, hbad, horder]
  exact ⟨_, rfl⟩

/-- WHAT THE ATOM OF ONE LANE SENDS: its operation is the last one started, its request the last one sent, and L1 keeps no copy of
the line. -/
theorem exec_atom_one (hact : e.act = [lane]) (hr : Ready s hd none (usesOf (.atom hd f)) e) (hh : e.w.holds = [])
    (hl : Entry s e f.h false f.k l) (hmem : l.memory = true) (hrel : bitAt f.var 5 = false)
    (hx : s.elemOf e l (e.coords l.rank.toNat false f.k f.off lane) false (atomWidth (f.var.toNat % 16)) .rdwr true false
      = (.mem ba w fmt leaf ps sc, s1))
    (hcalm : s1.recalls = []) (hno : ∀ x ∈ s1.sbuf, x.core ≠ e.core) :
    ∃ t q, exec (.atom hd f) s = .next t ∧ t.results.getLast? = some (s1.atomResult e f lane s1.nextId)
      ∧ t.reqs.getLast? = some q ∧ q.op = s1.nextId ∧ q.lane = lane ∧ q.line = ba / 1024
      ∧ q.what = .atomic (f.var.toNat % 16) (ba % 1024) w (BitVec.ofNat 64 (e.atomArg (f.var.toNat % 16) f.data lane).1)
          (BitVec.ofNat 64 (e.atomArg (f.var.toNat % 16) f.data lane).2)
      ∧ (∀ x ∈ t.l1, ¬(x.core = e.core ∧ x.asid = q.asid ∧ x.line = q.line)) ∧ ∀ pa, t.byte pa = s1.byte pa := by
  obtain ⟨v, hv⟩ := State.sendAtoms_one hact hx
  obtain ⟨q, hq, hop, hlane, hasid, hline, hwhat⟩ := State.sendAtom_new (ba := ba) (w := w) (fmt := fmt) (leaf := leaf) (ps := ps)
    (sc := sc) (lane := lane) (s := { s1 with
      nextId := s1.nextId + 1, results := s1.results ++ [s1.atomResult e f lane s1.nextId], wgs := v })
    hno (f.var.toNat % 16) s1.nextId f.pol.toNat f.data
  rw [hq] at hv
  have hbody : atomBody f e s = s.sendAtoms e f l := by
    rw [atomBody, State.form_entry hl hmem, if_neg (Env.act_ne_nil hact), hrel, if_neg Bool.false_ne_true]
  have hwaits : (s1.atomResult e f lane s1.nextId).gathered s1.clk = s1.atomResult e f lane s1.nextId :=
    Result.gathered_waiting (x := { laneLoad (if atomWidth (f.var.toNat % 16) = 64 then .b64 else .b32) (.v f.data.toNat) lane
      (1#64 <<< lane) .zero with parts := 1, w := atomWidth (f.var.toNat % 16) }) rfl Nat.one_ne_zero _
  refine ⟨_, q, memWord_ready hr hh (hbody.trans hv) (hcalm.trans hr.2.1.symm), ?_, List.getLast?_concat .., hop, hlane, ?_, hwhat, ?_,
    fun pa => rfl⟩
  · refine (congrArg List.getLast? (List.map_append ..)).trans ((List.getLast?_concat ..).trans ?_)
    exact congrArg some ((if_pos rfl).trans hwaits)
  · rw [hline, Nat.div_div_eq_div_mul]
  · intro x hx
    have hoff := (List.mem_filter.1 hx).2
    rintro ⟨hcore, hxa, hxl⟩
    rw [hasid] at hxa
    rw [hline] at hxl
    simp [hcore, hxa, hxl] at hoff

/-! Wakes at barrier objects change waves, and G of their cores (R271). -/

theorem State.wakeWave_keeps {γ : Type} {g : State → γ} (hw : ∀ t wg k f, g (State.modWave t wg k f) = g t)
    (ha : ∀ (t : State) core, g (t.advanceNow core) = g t) (s : State) (wg k : Nat) (p : Part) (multi : Bool) :
    g (s.wakeWave wg k p multi) = g s := by
  rw [State.wakeWave]
  split
  · rfl
  · dsimp only
    split
    · rfl
    · rw [State.settle, hw]
      split
      · rw [ha, hw]
      · rw [hw]

theorem State.wakeBarriers_keeps {γ : Type} {g : State → γ} (hw : ∀ t wg k f, g (State.modWave t wg k f) = g t)
    (ha : ∀ (t : State) core, g (t.advanceNow core) = g t) (s : State) (wg part : Nat) : g (s.wakeBarriers wg part) = g s := by
  rw [State.wakeBarriers]
  split
  · rfl
  · exact foldl_keeps g (fun t k => State.wakeWave_keeps hw ha t wg k _ _) _ s

theorem State.partOf_advance (s : State) (core id j : Nat) : (s.advance core).partOf id j = s.partOf id j := rfl
theorem State.partOf_sweep (s : State) (core id j : Nat) : (s.sweep core).partOf id j = s.partOf id j := rfl
theorem State.byte_sweep (s : State) (core pa : Nat) : (s.sweep core).byte pa = s.byte pa := rfl

theorem State.partOf_advanceNow (s : State) (core id j : Nat) : (s.advanceNow core).partOf id j = s.partOf id j := by
  rw [State.advanceNow]
  split
  · rw [State.partOf_advance, State.partOf_sweep]; rfl
  · rw [State.partOf_advance]

theorem State.byte_advanceNow (s : State) (core pa : Nat) : (s.advanceNow core).byte pa = s.byte pa := by
  rw [State.advanceNow]
  split
  · rw [State.byte_advance, State.byte_sweep]; rfl
  · rw [State.byte_advance]

theorem State.partOf_wakeBarriers (s : State) (wg part id j : Nat) : (s.wakeBarriers wg part).partOf id j = s.partOf id j :=
  State.wakeBarriers_keeps (g := fun t => t.partOf id j) (fun t wg k f => t.partOf_modWave wg k f id j)
    (fun t core => t.partOf_advanceNow core id j) s wg part

theorem State.byte_wakeBarriers (s : State) (wg part pa : Nat) : (s.wakeBarriers wg part).byte pa = s.byte pa :=
  State.wakeBarriers_keeps (g := fun t => t.byte pa) (fun _ _ _ _ => rfl) (fun t core => t.byte_advanceNow core pa) s wg part

theorem State.recalls_wakeBarriers (s : State) (wg part : Nat) : (s.wakeBarriers wg part).recalls = s.recalls :=
  State.wakeBarriers_keeps (g := State.recalls) (fun _ _ _ _ => rfl) State.advanceNow_recalls s wg part

/-! ATOMS (R257). -/

theorem State.partOf_quickOp (s : State) (e : Env) (c : Option Cnt) (lat : Nat) (regs : List Reg) (ws : List RegWrite) (id j : Nat) :
    (s.quickOp e c lat regs ws).partOf id j = s.partOf id j := State.partOf_modWave ..

theorem State.byte_quickOp (s : State) (e : Env) (c : Option Cnt) (lat : Nat) (regs : List Reg) (ws : List RegWrite) (pa : Nat) :
    (s.quickOp e c lat regs ws).byte pa = s.byte pa := rfl

theorem State.reg_quickOp (s : State) (e : Env) (c : Option Cnt) (lat : Nat) (regs : List Reg) (ws : List RegWrite) (o : Nat) :
    (s.quickOp e c lat regs ws).reg o = s.reg o := rfl

theorem State.laneTraps_nil (s : State) : s.laneTraps [] = s := rfl

theorem State.byte_modPart (s : State) (wg p : Nat) (g : Part → Part) (pa : Nat) : (s.modPart wg p g).byte pa = s.byte pa := rfl
theorem State.reg_modPart (s : State) (wg p : Nat) (g : Part → Part) (o : Nat) : (s.modPart wg p g).reg o = s.reg o := rfl

variable {j : Nat}

/-- The bank writes the new value of the element. -/
def State.bankWrites (s : State) (e : Env) (f : MF) (l : Layout) (lane j ba w : Nat) : State :=
  s.modPart e.iss.wg j fun p => p.setBits (some l) ba w
    (atomNew (atomsOp (f.var.toNat % 8)) ((e.wg.part j).bits (some l) ba w) (e.atomArg (atomsOp (f.var.toNat % 8)) f.data lane).1
      (e.atomArg (atomsOp (f.var.toNat % 8)) f.data lane).2)

/-- The bank performs the operation of the one lane, which may wake threads, and the word answers the old value. -/
theorem exec_atoms_one (hact : e.act = [lane]) (hr : Ready s hd none (usesOf (.atoms hd f)) e) (hh : e.w.holds = [])
    (hl : Entry s e f.h false f.k l) (hscr : l.scratch = true) (hin : l.inb (e.coords l.rank.toNat false f.k f.off lane) = true)
    (hx : scrElem e.wg e.part l (e.coords l.rank.toNat false f.k f.off lane) false 32 true true = .scr j ba w fmt none)
    (hue : (e.wg.part j).ue = []) (hlost : (e.wg.part j).lost = []) :
    exec (.atoms hd f) s = .next (((s.bankWrites e f l lane j ba w).wakeBarriers e.iss.wg j).quickOp e (some .ld)
      (if l.space = 3 then 48 else 32) [.v f.data.toNat] (vecWrites false f.data.toNat lane ((e.wg.part j).bits (some l) ba w))) := by
  have hmem : l.memory = false := by
    simp only [Layout.scratch, Bool.or_eq_true, decide_eq_true_eq] at hscr
    rcases hscr with (h | h) | h <;> simp [Layout.memory, h]
  have helem : s.elemOf e l (e.coords l.rank.toNat false f.k f.off lane) false 32 .rdwr true false = (.scr j ba w fmt none, s) := by
    simp only [State.elemOf, hin, hmem, Bool.not_true, Bool.false_eq_true, if_false]
    exact congrArg (·, s) hx
  have hok : (Elem.scr j ba w fmt none).ueOk e.wg l true = .scr j ba w fmt none :=
    if_neg (by simp [Part.bad_clean hue hlost])
  have hgood : goodLanes [(lane, Elem.scr j ba w fmt none)] = [(lane, .scr j ba w fmt none)] := rfl
  have hout : zeroLanes [(lane, Elem.scr j ba w fmt none)] = [] := rfl
  have hbad : badLanes [(lane, Elem.scr j ba w fmt none)] = [] := rfl
  have horder (g : Elem → Nat × Nat) : s.laneOrder [(lane, Elem.scr j ba w fmt none)] g = ([(lane, .scr j ba w fmt none)], s) := rfl
  have hpart : s.partOf e.iss.wg j = e.wg.part j := by
    obtain ⟨-, hwg, -⟩ := State.env?_some hr.1
    rw [State.partOf, hwg]
  refine memWord_ready hr hh (body := atomsBody f) ?_ ((State.quickOp_recalls ..).trans (State.recalls_wakeBarriers ..))
  rw [atomsBody]
  dsimp only
  rw [State.form_entry hl hscr]
  simp only [State.elemsOf, hact, List.foldl_cons, List.foldl_nil, helem, hok, List.nil_append, hgood, hout, hbad, horder,
    State.bankAtom, hpart, List.map_nil, List.append_nil, List.flatMap_cons, List.flatMap_nil,
    List.cons_ne_nil, if_false, State.laneTraps_nil]
  rfl

/-- Settles O24: each word passes its checks; ATOM's one lane is sent, ATOMS' performed where its element lies. -/
theorem atomics : Obligations.Atomics := by
  unfold Obligations.Atomics
  intro s hd e f l lane hh hact hl
  refine ⟨?atom, ?atoms⟩
  case atom =>
    intro hr hmem hrel hno op ba w fmt leaf ps sc s1 hx hcalm hbuf
    obtain ⟨t, q, ht, hres, hreq, hop, hsent⟩ := exec_atom_one hact hr hh hl hmem hrel hx hcalm (by rw [hbuf]; exact hno)
    exact ⟨t, _, q, ht, hres, rfl, rfl, rfl, hreq, hop, hsent⟩
  case atoms =>
    intro hr hscr hin op j ba w fmt hx hj hue hlost old
    have ht := exec_atoms_one hact hr hh hl hscr hin hx hue hlost
    have hwg : s.wg? e.iss.wg = some e.wg := (State.env?_some hr.1).2.1
    refine ⟨_, _, ht, List.getLast?_concat .., rfl, rfl, ?_, fun k hk => ?_, fun pa => ?_, fun hno o => ?_⟩
    · rw [State.partOf_quickOp, State.partOf_wakeBarriers]
      exact State.partOf_modPart hwg hj _
    · rw [State.partOf_quickOp, State.partOf_wakeBarriers]
      exact s.partOf_modPart_other e.iss.wg hk _
    · rw [State.byte_quickOp, State.byte_wakeBarriers, State.bankWrites, State.byte_modPart]
    · rw [State.reg_quickOp, State.bankWrites, State.wakeBarriers_modPart (State.env?_noWaits hr.1 hno),
        State.reg_modPart]

end Sys2Proof.Machine
end

section
/-! PROOFS. Layout entries (O23): the statement fails where the lode holds two copies of the table's line, of which the one that is
written leaves with the write. -/
namespace Sys2Proof.Machine

/-- The state in which no cache holds the context's entry of handle `n`. -/
def State.layUncached (s : State) (c : Ctx) (n : Nat) : State :=
  { s with layCache := s.layCache.filter fun x => !(x.ctx = c.num && x.q = c.q && x.handle = n) }

theorem State.recalls_layUncached (s : State) (c : Ctx) (n : Nat) : (s.layUncached c n).recalls = s.recalls := rfl
theorem State.byte_layUncached (s : State) (c : Ctx) (n pa : Nat) : (s.layUncached c n).byte pa = s.byte pa := rfl

/-- The state in which LAYSET has written the image `im` under handle `n`. -/
def State.layWritten (s : State) (c : Ctx) (n : Nat) (im : BitVec 512) : State := (s.writePhysN (layVa c n) 64 im.toNat).layUncached c n

/-- LAYSET of an entry that passes the checks writes it, and its status is on its way. -/
theorem exec_layset_passes {s : State} {h : Hdr} {f : GF} {e : Env} (hr : Ready s h none (usesOf (.layset h f)) e) (hh : e.w.holds = [])
    (hact : e.act ≠ [])
    (hcode : (if 4096 ≤ (e.uniform f.a).toNat then 1 else (layoutOf (e.image f.b)).check e.ctx.world) = 0)
    (hcalm : (s.writePhysN (layVa e.ctx (e.uniform f.a).toNat) 64 (e.image f.b).toNat).recalls = []) :
    exec (.layset h f) s = .next ((s.layWritten e.ctx (e.uniform f.a).toNat (e.image f.b)).quickOp e none 60 [.s f.d.toNat]
      [⟨.s f.d.toNat, 0, BitVec.ofNat 64 0⟩]) := by
  refine memWord_ready (body := laysetBody f) hr hh ?_ ?_
  · rw [laysetBody, if_neg hact]
    simp only [hcode, ne_eq, not_true_eq_false, if_false]
    rw [State.layWritten, State.layUncached]
  · rw [State.quickOp_recalls, State.layWritten, State.recalls_layUncached, hcalm, hr.2.1]

/-- LAYSET of the image in s0 to s7, which are 0, under handle 0; the status goes to s8. -/
def laysetHdr : Hdr := ⟨0, false, 7⟩
def laysetFields : GF := ⟨8, 0, 0, 0, 0⟩

/-- A wave of one thread, of a context whose table stands at physical address 0. -/
def laysetWave : Wave := { role := .vector, part := 0, slot := 0, n := 8, threads := [{ pc := ⟨0, 0, true⟩, status := .eligible }] }
def laysetWorkgroup : Workgroup :=
  { id := 1, recId := 0, ref := 0, wg := 0, prio := 0, threads := 1, parts := [{ core := 0 }], rods := List.replicate 16 {},
    ctx := { num := 0, q := 0, world := false, system := false, asid := 1, layout := 0, save := 0, trapVec := 0, queues := 0,
             prioMax := 0 }
    waves := [laysetWave] }
def laysetEnv : Env :=
  { iss := { core := 0, part := 0, wg := 1, wave := 0, all := 1, group := 1, addr := 0, hdr := 0, words := [] }
    wg := laysetWorkgroup, w := laysetWave, act := [0], clk := 0 }

/-- The table's first line at its lode: for an access alone (level NONE), and detached and stuck, from an earlier mapping. -/
def transitCopy : LLine := { id := 2, lode := 0, asid := none, line := 0, frame := 0, off := 0, data := 1, transit := true }
def detachedCopy : LLine :=
  { id := 3, lode := 0, asid := some 1, line := 0, frame := 0, off := 0, data := 1, dirty := true, stuck := some 0, detached := true }

/-- The word about to issue, while the lode holds both; the frame is RAW and has flakes. -/
def twoCopies : State :=
  { nextId := 4, wgs := [laysetWorkgroup], running := [laysetEnv.iss], frames := [(0, { st := .raw, flakes := [0] })],
    lines := [transitCopy, detachedCopy] }

theorem twoCopies_ready : Ready twoCopies laysetHdr none (usesOf (.layset laysetHdr laysetFields)) laysetEnv := by decide +kernel

theorem twoCopies_passes : (if 4096 ≤ (laysetEnv.uniform laysetFields.a).toNat then 1
    else (layoutOf (laysetEnv.image laysetFields.b)).check laysetEnv.ctx.world) = 0 := by decide +kernel

theorem twoCopies_calm : (twoCopies.writePhysN (layVa laysetEnv.ctx (laysetEnv.uniform laysetFields.a).toNat) 64
    (laysetEnv.image laysetFields.b).toNat).recalls = [] := by decide +kernel

/-- The copy for the access alone takes the bytes, is written back and leaves; the line is then the detached copy. -/
theorem twoCopies_stale : (twoCopies.writePhysN (layVa laysetEnv.ctx (laysetEnv.uniform laysetFields.a).toNat) 64
    (laysetEnv.image laysetFields.b).toNat).byte 0 = 1 := by decide +kernel

/-- Refutes O23: LAYSET of an entry of zeros leaves byte 0 of the table reading 1, where a detached copy of the line outlives the one
that took the bytes; the statement has the table read as written, and no hypothesis of it asks that a lode hold a line once. -/
theorem not_layoutEntries : ¬ Obligations.LayoutEntries := by
  intro h
  obtain ⟨hlayset, -⟩ := h
  obtain ⟨-, hwrites⟩ := hlayset twoCopies laysetHdr laysetEnv laysetFields rfl (by decide) twoCopies_ready
  obtain ⟨t, hx, hbytes, -⟩ := hwrites twoCopies_passes rfl (by decide +kernel) (by decide +kernel) twoCopies_calm
  have ht := Host.Outcome.next.inj ((exec_layset_passes twoCopies_ready rfl (by decide) twoCopies_passes twoCopies_calm).symm.trans hx)
  have hread : (twoCopies.layWritten laysetEnv.ctx (laysetEnv.uniform laysetFields.a).toNat (laysetEnv.image laysetFields.b)).byte 0
      = (laysetEnv.image laysetFields.b).extractLsb' 0 8 := by
    rw [← hbytes 0 (by decide), ← ht, State.byte_quickOp]
    rfl
  rw [State.layWritten, State.byte_layUncached, twoCopies_stale] at hread
  exact absurd hread (by decide +kernel)

end Sys2Proof.Machine
end

section
/-! PROOFS. SLI arithmetic (O16): words whose meaning is an operation that lands later (R187, R188, R289). -/
namespace Sys2Proof.Machine

variable {s : State} {h : Hdr} {e : Env} {i : Instr} {u : Uses} {body : Env → State → State}

/-- A word whose meaning is an operation, no acquire, fence or maintenance, starts that operation. -/
theorem starts_startOp {r : Result} (hr : Ready s h none u e) (hx : exec i s = word h none u body s)
    (hb : body e s = (s.startOp e r).2) (hacq : r.acq = none) (hfence : r.fence = none) (hmaint : r.maint = false) :
    Starts s e i e.w r := by
  rw [State.startOp_eq s e hacq hfence hmaint] at hb
  have hrecalls : (body e s).recalls = s.recalls := by rw [hb]; rfl
  exact ⟨s.withOp e r, by rw [hx, word_ready_quiet hr body hrecalls, hb], rfl, State.wave?_withOp (State.env?_wave hr.1) r,
    Elsewhere.of_modWave ..⟩

/-- Settles O16: the four words differ in their operation alone, and each starts the operation that holds its lanes' results. -/
theorem sliArithmetic : Obligations.SliArithmetic := by
  unfold Obligations.SliArithmetic
  intro s h e f hact start
  have starts (op : SlOp) (i : Instr) (hu : usesOf i = AF.usesN f f.src .unused) (hx : exec i s = slWord h f op s) : start op i := by
    intro hr lane all
    rw [hu] at hr
    exact starts_startOp hr hx (if_neg hact) rfl rfl rfl
  exact ⟨starts .add _ rfl rfl, starts .sub _ rfl rfl, starts .mul _ rfl rfl, starts .div _ rfl rfl⟩

end Sys2Proof.Machine
end

section
/-! PROOFS. Words whose threads stay in the clause (O17): fixed-latency results with a change of the active threads (R186), sticky SLI
flags (R154), and the words SLCMP, SLCVT and SLFLG (R289, R290). -/
namespace Sys2Proof.Machine

variable {s : State} {h : Hdr} {e : Env} {i : Instr} {f : AF} {u : Uses} {body : Env → State → State}

/-! What fixed-latency writes give. -/

/-- The writes `l` of a word, on top of those that wave `w` has in flight, give the registers of `dst` their values and touch no other. -/
def Wave.WritesGive (w : Wave) (l : List RegWrite) (dst : Reg → Nat → Option Word) : Prop :=
  ∀ r lane, lane < 64 →
    (∃ x v, (l.filter fun y => y.hits r lane) = [x] ∧ (∀ q ∈ w.pend, q.w.hits r lane = false)
      ∧ dst r lane = some v ∧ (w.write x).reg r lane = v)
    ∨ ((l.filter fun y => y.hits r lane) = [] ∧ dst r lane = none)

theorem Wave.WritesGive.seen {w : Wave} {l : List RegWrite} {dst : Reg → Nat → Option Word} (hw : w.WritesGive l dst) (clk : Nat)
    (r : Reg) {lane : Nat} (hl : lane < 64) :
    Wave.seen { w with pend := pendOver clk w.pend l } r lane = (dst r lane).getD (w.seen r lane) :=
  seen_later w clk l dst r lane hl ((hw r lane hl).imp_right .inl)

/-- No write is in flight for a destination of a word that can issue. -/
theorem Ready.no_hit (hr : Ready s h none u e) {r : Reg} (hd : r ∈ u.wr) (lane : Nat) : ∀ q ∈ e.w.pend, q.w.hits r lane = false :=
  Wave.no_hit_of_not_pending (hr.2.2.2 r (List.mem_append_right _ hd)).2.2 lane

/-- A vector register reads as the 32 bits written to it. -/
theorem Wave.reg_write_v_low (w : Wave) (k n : Nat) {lane : Nat} (hl : lane < 64) :
    (w.write ⟨.v k, lane, BitVec.ofNat 64 (n % 2 ^ 32)⟩).reg (.v k) lane = BitVec.ofNat 64 (n % 2 ^ 32) := by
  rw [Wave.reg_write_v _ _ _ _ _ (Nat.mod_eq_of_lt hl)]
  apply BitVec.eq_of_toNat_eq
  simp

/-- A write touches its own register alone. -/
theorem RegWrite.hits_of_reg_ne {x : RegWrite} {r : Reg} (h : x.reg ≠ r) (lane : Nat) : x.hits r lane = false := by
  cases r <;> simp [RegWrite.hits, h]

/-- A vector destination is written in vector registers. -/
theorem vecWrites_reg {is64 : Bool} {d l v : Nat} {y : RegWrite} (hy : y ∈ vecWrites is64 d l v) : ∃ k, y.reg = .v k := by
  rcases List.mem_cons.1 hy with rfl | hy
  · exact ⟨d, rfl⟩
  · cases is64 with
    | false => cases hy
    | true => rw [List.mem_singleton.1 hy]; exact ⟨d + 1, rfl⟩

/-- A vector destination has no other registers. -/
theorem Env.dest_not_v {ty : Ty} {g : Nat → Nat} (hu : f.u = false) {r : Reg} (hr : ∀ k, r ≠ .v k) (lane : Nat) :
    e.dest f ty g r lane = none := by
  cases r with
  | v k => exact absurd rfl (hr k)
  | s k => simp [Env.dest, hu]
  | p _ | m _ | none => rfl

/-- A scalar destination has no other register. -/
theorem Env.dest_not_s {ty : Ty} {g : Nat → Nat} (hu : f.u = true) {r : Reg} (hr : r ≠ .s f.d.toNat) (lane : Nat) :
    e.dest f ty g r lane = none := by
  cases r with
  | v k => simp [Env.dest, hu]
  | s k => exact if_neg fun ⟨_, _, hk⟩ => hr (by rw [hk])
  | p _ | m _ | none => rfl

/-- A predicate destination has no other register, and none outside the active lanes. -/
theorem Env.predDest_none {g : Nat → Bool} {r : Reg} {lane : Nat} (hr : ¬(r = .p f.d.toNat ∧ lane ∈ e.act)) :
    e.predDest f g r lane = none := by
  cases r with
  | p k => exact if_neg fun ⟨hk, _, hm⟩ => hr ⟨by rw [hk], hm⟩
  | v _ | s _ | m _ | none => rfl

section Results
variable {dty : Ty} (g : Nat → Nat)

theorem writesGive_vector (hr : Ready s h none u e) (hw : u.wr = dstRegs f.u f.d (.reg dty.is64)) (hu : f.u = false) :
    e.w.WritesGive (e.act.flatMap fun l => vecWrites dty.is64 f.d.toNat l (g l)) (e.dest f dty g) := by
  obtain ⟨hnodup, hact⟩ := State.env?_act hr.1
  have hfree {r : Reg} (hd : r ∈ vregs dty.is64 f.d) := hr.no_hit (r := r) (by rw [hw, dstRegs, hu]; exact hd)
  intro r lane hl
  by_cases hv : ∃ k, r = .v k
  · obtain ⟨k, rfl⟩ := hv
    rw [filter_flatMap_lane hnodup _ _ lane fun l hm hne => by
      rw [filter_vecWrites _ _ _ _ _ _ (hact l hm).1]; simp [hne], filter_vecWrites _ _ _ _ _ _ hl]
    by_cases hm : lane ∈ e.act
    · by_cases hlo : k = f.d.toNat
      · subst hlo
        exact .inl ⟨_, _, by rw [if_pos hm, if_pos ⟨rfl, rfl⟩], hfree (by cases dty.is64 <;> simp [vregs]) lane,
          by simp only [Env.dest, hu, hm, Bool.false_eq_true, not_true_eq_false, or_self, if_true, if_false],
          e.w.reg_write_v_low _ _ hl⟩
      · by_cases hhi : dty.is64 = true ∧ k = f.d.toNat + 1
        · obtain ⟨h64, rfl⟩ := hhi
          exact .inl ⟨_, _, by rw [if_pos hm, if_neg fun h => hlo h.2, if_pos ⟨rfl, h64, rfl⟩], hfree (by simp [vregs, h64]) lane,
            by simp [Env.dest, hu, hm, h64], e.w.reg_write_v_low _ _ hl⟩
        · exact .inr ⟨by simp [hlo, hhi], by simp [Env.dest, hlo, hhi]⟩
    · exact .inr ⟨by simp [hm], by simp [Env.dest, hm]⟩
  · refine .inr ⟨List.filter_eq_nil_iff.2 fun y hy => ?_, ?_⟩
    · obtain ⟨l, -, hy⟩ := List.mem_flatMap.1 hy
      obtain ⟨k, hk⟩ := vecWrites_reg hy
      rw [RegWrite.hits_of_reg_ne (fun hr => hv ⟨k, hr.symm.trans hk⟩)]
      exact Bool.false_ne_true
    · exact Env.dest_not_v hu (fun k hk => hv ⟨k, hk⟩) lane

theorem writesGive_scalar (hr : Ready s h none u e) (hw : u.wr = dstRegs f.u f.d (.reg dty.is64)) (hu : f.u = true) (hact : e.act ≠ [])
    (hd : f.d.toNat < 192) : e.w.WritesGive [scalarWrite dty f.d.toNat (g 0)] (e.dest f dty g) := by
  have hfree := hr.no_hit (r := .s f.d.toNat) (by simp [hw, dstRegs, sregs, hu, hd])
  intro r lane _
  by_cases hs : r = .s f.d.toNat
  · subst hs
    exact .inl ⟨_, _, List.filter_cons_of_pos (decide_eq_true rfl), hfree lane, if_pos ⟨hu, hact, rfl⟩, Wave.reg_write_s ..⟩
  · exact .inr ⟨by rw [List.filter_singleton, RegWrite.hits_of_reg_ne (Ne.symm hs)]; rfl, Env.dest_not_s hu hs lane⟩

/-- The results of a general-form word give its destination, of type `dty`, their values (R177, R179, R220). -/
theorem writesGive_result (hr : Ready s h none u e) (hw : u.wr = dstRegs f.u f.d (.reg dty.is64)) (hd : f.u = true → f.d.toNat < 192) :
    e.w.WritesGive (e.result f dty g) (e.dest f dty g) := by
  rw [Env.result]
  split
  · rename_i hu
    split
    · rename_i hact
      exact fun r lane _ => .inr ⟨rfl, by cases r <;> simp [Env.dest, hu, hact]⟩
    · rename_i hact
      exact writesGive_scalar g hr hw hu hact (hd hu)
  · rename_i hu
    exact writesGive_vector g hr hw (by simpa using hu)

end Results

/-- The results of a comparison give its predicate destination their values; p7 keeps reading 1 (R226). -/
theorem writesGive_pred (g : Nat → Bool) (hr : Ready s h none u e) (hw : u.wr = dstRegs f.u f.d .pred) (hd : f.d.toNat < 8) :
    e.w.WritesGive (e.predResult f g) (e.predDest f g) := by
  obtain ⟨hnodup, hact⟩ := State.env?_act hr.1
  have hfree := hr.no_hit (r := .p f.d.toNat) (by simp [hw, dstRegs])
  intro r lane _
  by_cases h7 : f.d = 7
  · exact .inr ⟨by rw [Env.predResult, if_pos h7]; rfl, by cases r <;> simp +contextual [Env.predDest, h7]⟩
  have h7' : f.d.toNat ≠ 7 := fun h => h7 (BitVec.eq_of_toNat_eq h)
  rw [Env.predResult, if_neg h7, List.map_eq_flatMap, filter_flatMap_lane hnodup _ _ lane fun l _ hne => by
    cases r <;> simp [predWrite, RegWrite.hits, hne]]
  by_cases hp : r = .p f.d.toNat ∧ lane ∈ e.act
  · obtain ⟨rfl, hm⟩ := hp
    exact .inl ⟨_, _, by rw [if_pos hm]; simp [predWrite, RegWrite.hits], hfree lane, if_pos ⟨rfl, h7', hm⟩,
      e.w.reg_write_p _ lane (if f.u then g 0 else g lane) (by omega) (hact lane hm).2⟩
  · refine .inr ⟨?_, Env.predDest_none hp⟩
    by_cases hm : lane ∈ e.act
    · have hr : (predWrite f.d.toNat lane (if f.u then g 0 else g lane)).reg ≠ r := fun hr => hp ⟨hr.symm, hm⟩
      rw [if_pos hm, List.filter_singleton, RegWrite.hits_of_reg_ne hr]; rfl
    · rw [if_neg hm]

/-! Words that change their active threads and leave them in the clause. -/

/-- A change of active lanes of a wave, as its threads show it. -/
theorem Env.thread_modLanes (he : s.env? h = some e) (g : Nat → Thread → Thread) (l : Nat) :
    (e.w.modLanes (maskOf e.act) g).thread l = if l ∈ e.act then g l (e.w.thread l) else e.w.thread l := by
  obtain ⟨-, hact⟩ := State.env?_act he
  rw [Wave.thread_modLanes, bitAt_act he]
  by_cases hl : l ∈ e.act
  · simp [hl, (hact l hl).2]
  · simp [hl]

/-- A change of lanes that keeps their predicates keeps what registers read. -/
theorem Wave.seen_modLanes (w : Wave) (m : BitVec 64) {g : Nat → Thread → Thread} (hg : ∀ k t, (g k t).preds = t.preds) (r : Reg)
    {lane : Nat} (hl : lane < 64) : (w.modLanes m g).seen r lane = w.seen r lane := by
  refine Wave.seen_threads (u := w) (v := w.modLanes m g) rfl rfl rfl (w.modLanes_threads_length m g) (fun k => ?_) r lane hl
  rw [Wave.thread_modLanes]
  split
  · exact hg k _
  · rfl

/-- A WORD THAT STAYS: its writes land later, and its active threads, still in the clause, are changed by `g` at once. -/
theorem threads_stay (hr : Ready s h none u e) (hx : exec i s = word h none u body s) {lat : Nat} {l : List RegWrite}
    {g : Nat → Thread → Thread} {dst : Reg → Nat → Option Word}
    (hb : body e s = (s.later e lat l).now e fun w => w.modLanes (maskOf e.act) g) (hg : ∀ k t, (g k t).preds = t.preds)
    (hl : e.w.WritesGive l dst) : Threads s e i false g dst := by
  have hrecalls : (body e s).recalls = s.recalls := by rw [hb]; exact State.later_recalls ..
  have hrunning : (s.later e lat l).running = s.running := by rw [State.later]; split <;> rfl
  have hwave := State.wave?_now (State.wave?_later (State.env?_wave hr.1) lat l) fun w => w.modLanes (maskOf e.act) g
  have hhead : ((s.later e lat l).now e fun w => w.modLanes (maskOf e.act) g).head = some e.iss := by
    rw [← (State.env?_some hr.1).1, State.head, State.head, ← hrunning]; rfl
  rw [Threads, hx, word_ready_quiet hr body hrecalls, hb]
  have haround := ((Around.refl s _ _).later e ⟨rfl, rfl⟩ lat l).modWave fun w => w.modLanes (maskOf e.act) g
  refine ⟨_, _, rfl, hwave, haround, by rw [hhead]; rfl, fun k => .inl (Env.thread_modLanes hr.1 g k), fun r lane hlane => ?_⟩
  rw [← hl.seen (s.clk + lat) r hlane]
  exact Wave.seen_modLanes _ _ hg r hlane

/-! Sticky SLI flags (R154). -/

/-- Setting no flag of a thread changes nothing. -/
theorem Wave.slSet_cons_zero (w : Wave) (l : Nat) (fl : List (Nat × BitVec 5)) : w.slSet ((l, 0#5) :: fl) = w.slSet fl := by
  have hthread (t : Thread) : { t with sli := t.sli ||| 0 } = t := by rw [show t.sli ||| 0 = t.sli from BitVec.or_zero]
  have hsame : w.modThread l (fun t => { t with sli := t.sli ||| 0 }) = w := by
    rw [Wave.modThread, funext hthread]
    exact congrArg (fun ts => { w with threads := ts }) (List.modify_id ..)
  exact congrArg (Wave.slSet · fl) hsame

/-- A flag set where `c` holds is one given to every lane, none where `c` fails. -/
theorem Wave.slSet_filterMap (w : Wave) (act : List Nat) (c : Nat → Bool) (x : BitVec 5) :
    w.slSet (act.filterMap fun l => if c l then some (l, x) else none) = w.slSet (act.map fun l => (l, if c l then x else 0)) := by
  induction act generalizing w with
  | nil => rfl
  | cons a act ih =>
    cases ha : c a with
    | true => simpa [ha, Wave.slSet] using ih _
    | false => simpa [ha, w.slSet_cons_zero] using ih w

/-- Flags given once to each of some lanes are set in their threads. -/
theorem Wave.slSet_map (w : Wave) {act : List Nat} (hn : act.Nodup) (hlt : ∀ l ∈ act, l < 64) (fl : Nat → BitVec 5) :
    w.slSet (act.map fun l => (l, fl l)) = w.modLanes (maskOf act) fun l t => { t with sli := t.sli ||| fl l } := by
  induction act generalizing w with
  | nil =>
    refine congrArg (fun ts => { w with threads := ts }) (List.ext_getElem? fun l => ?_)
    simp [maskOf, bitAt]
  | cons a act ih =>
    obtain ⟨ha, hn⟩ := List.nodup_cons.1 hn
    have hlt' : ∀ l ∈ act, l < 64 := fun l hl => hlt l (List.mem_cons_of_mem _ hl)
    rw [List.map_cons, Wave.slSet, List.foldl_cons]
    refine (ih _ hn hlt').trans ?_
    simp only [Wave.modLanes, Wave.modThread, bitAt_maskOf]
    congr 1
    refine List.ext_getElem? fun l => ?_
    by_cases hl : l = a
    · subst hl
      simp [ha, hlt l List.mem_cons_self, Function.comp_def]
    · simp [hl, Ne.symm hl]

/-- A word that stays and sets the flags `fl` of each active lane. -/
theorem threads_slSet (hr : Ready s h none u e) (hx : exec i s = word h none u body s) {lat : Nat} {l : List RegWrite}
    {dst : Reg → Nat → Option Word} (fl : Nat → BitVec 5)
    (hb : body e s = (s.later e lat l).now e fun w => w.slSet (e.act.map fun l => (l, fl l))) (hl : e.w.WritesGive l dst) :
    Threads s e i false (fun l t => { t with sli := t.sli ||| fl l }) dst := by
  obtain ⟨hnodup, hact⟩ := State.env?_act hr.1
  have hset (w : Wave) := w.slSet_map hnodup (fun l hm => (hact l hm).1) fl
  exact threads_stay hr hx (hb.trans (congrArg ((s.later e lat l).now e) (funext hset))) (fun _ _ => rfl) hl

/-! The words (R289, R290). -/

/-- A uniform comparison reads lane 0 for every active thread. -/
theorem Env.predResult_uniform (e : Env) (f : AF) (g : Nat → Bool) :
    e.predResult f (fun l => g (if f.u then 0 else l)) = e.predResult f g := by
  cases hu : f.u <;> simp [Env.predResult, hu]

/-- The predicate destination of a well-formed comparison (R177). -/
theorem AF.ok_pred {tys : List Ty} {mask : BitVec 6} {a b c : SrcUse} (hok : f.ok tys mask .pred a b c = true) : f.d.toNat < 8 := by
  simp only [AF.ok, Bool.and_eq_true, DstUse.ok, pslot, decide_eq_true_eq] at hok
  obtain ⟨⟨⟨⟨-, hd⟩, -⟩, -⟩, -⟩ := hok
  exact hd

theorem threads_slcmp (hr : Ready s h none (usesOf (.slcmp h f)) e) (hwf : (Instr.slcmp h f).wellFormed = true) :
    Threads s e (.slcmp h f) false
      (fun l t => { t with sli := t.sli ||| if (sli32F.rank (e.opA f f.ty (if f.u then 0 else l))).isNone
        || (sli32F.rank (e.opB f f.ty (if f.u then 0 else l))).isNone then slNan else 0 })
      (e.predDest f fun l => condSli sli32F (f.mlo 2 0) (e.opA f f.ty l) (e.opB f f.ty l)) := by
  refine threads_slSet (lat := 6) hr rfl _ ?_ (writesGive_pred _ hr rfl (AF.ok_pred hwf))
  rw [← Env.predResult_uniform]
  exact congrArg (State.now _ e) (funext fun w => Wave.slSet_filterMap w e.act _ slNan)

/-- The type of a conversion's destination has the width of its format (R242). -/
theorem is64_cvtDst (dc : Nat) : (cvtDst dc).is64 = fmt64 dc := by
  rw [cvtDst]
  cases fmt64 dc with
  | true => rfl
  | false => cases dc = 0 || dc = 2 || dc = 4 <;> rfl

theorem threads_slcvt (hr : Ready s h none (usesOf (.slcvt h f)) e) (hwf : (Instr.slcvt h f).wellFormed = true) :
    Threads s e (.slcvt h f) false (fun l t => { t with sli := t.sli ||| (e.cvtElem f (if f.u then 0 else l)).2 })
      (e.dest f (cvtDst f.b.toNat) fun l => cvtPlace f.b.toNat (e.cvtElem f l).1) := by
  have hok := hwf
  simp only [Instr.wellFormed, AF.conv, Bool.and_eq_true] at hok
  obtain ⟨⟨⟨⟨hok, -⟩, -⟩, -⟩, -⟩ := hok
  have hw : (usesOf (.slcvt h f)).wr = dstRegs f.u f.d (.reg (cvtDst f.b.toNat).is64) := by rw [is64_cvtDst]; rfl
  exact threads_slSet (lat := 8) hr rfl _ rfl (writesGive_result _ hr hw (AF.ok_reg hok).2)

theorem slAction_eq (act : Nat) (m fl : BitVec 5) :
    slAction act m fl = if act = 1 then fl &&& ~~~m else if act = 2 then fl ||| m else fl := by
  match act with
  | 0 | 1 | 2 | _ + 3 => rfl

theorem threads_slflg (hr : Ready s h none (usesOf (.slflg h f)) e) (hwf : (Instr.slflg h f).wellFormed = true)
    (hidle : e.w.cnt.sli = 0) :
    Threads s e (.slflg h f) false (fun l t => { t with sli := slAction (f.mlo 1 0) (BitVec.ofNat 5 (e.opA f f.ty l)) t.sli })
      (e.dest f f.ty fun l => (e.w.thread l).sli.toNat) := by
  have hok := hwf
  simp only [Instr.wellFormed, Bool.and_eq_true] at hok
  obtain ⟨⟨hok, -⟩, -⟩ := hok
  obtain ⟨hty, hd⟩ := AF.ok_reg hok
  have hw : (usesOf (.slflg h f)).wr = dstRegs f.u f.d (.reg f.ty.is64) := by rw [List.mem_singleton.1 hty]; rfl
  exact threads_stay (lat := 6) hr rfl (if_neg (not_not.2 hidle)) (fun _ _ => rfl) (writesGive_result _ hr hw hd)

/-- Settles O17: each word is one that stays, its writes those of its destination; SLCMP and SLCVT set flags, SLFLG, which nothing
outstanding holds, changes them. -/
theorem sliComparesAndFlags : Obligations.SliComparesAndFlags := by
  unfold Obligations.SliComparesAndFlags
  refine ⟨fun s h e f => ⟨threads_slcmp, threads_slcvt⟩, fun s h e f hr hwf hidle => ?_⟩
  have hflg := threads_slflg hr hwf hidle
  simp only [slAction_eq] at hflg
  exact hflg

end Sys2Proof.Machine
end

section
/-! PROOFS. Meetings (O58, O59, R159): a test of a wave's meetings makes them stand, every step ends with one, and what follows it
touches no thread. -/
namespace Sys2Proof.Machine

variable {s t : State} {w : Wave}

/-! The test of a wave. -/

theorem Wave.thread_mem {l : Nat} (hl : l < w.threads.length) : w.thread l ∈ w.threads := by
  rw [Wave.thread, List.getD_eq_getElem _ _ hl]; exact List.getElem_mem hl

theorem Thread.arrived_held (t : Thread) (b : Bool) (h : t.arrived b = true) : ({ t with status := .held } : Thread).arrived b = true := by
  simp only [Thread.arrived, Bool.and_eq_true] at h ⊢; simp [h]

theorem Thread.not_arrived_freed (t : Thread) (b : Bool) :
    ({ t with status := .eligible, meet := { t.meet with valid := false } } : Thread).arrived b = false := by
  simp [Thread.arrived]

/-- A thread that had not arrived is left as it was by the test. -/
theorem Wave.settle_not_arrived (w : Wave) {running : BitVec 64} {l : Nat} (h : (w.thread l).arrived (bitAt running l) = false) :
    (w.settle running).thread l = w.thread l :=
  (w.settle_settles running l).resolve_right fun ⟨ha, _⟩ => by simp [h] at ha

/-- A thread whose siblings have all arrived is freed by the test; one that stays arrived is held and has a sibling to wait for. -/
theorem Wave.settle_arrived (w : Wave) {running : BitVec 64} {l : Nat} (hl : l < w.threads.length)
    (h : ((w.settle running).thread l).arrived (bitAt running l) = true) :
    (w.settle running).thread l = { w.thread l with status := .held }
      ∧ ∃ m, m < w.threads.length ∧ (w.thread l).sibling (w.thread m) ∧ (w.thread m).arrived (bitAt running m) = false := by
  have harr : (w.thread l).arrived (bitAt running l) = true := by
    by_contra hn; rw [w.settle_not_arrived (by simpa using hn)] at h; exact hn h
  rw [Wave.settle, Wave.thread_mapIdx, if_pos hl] at h ⊢
  simp only [harr, Bool.true_and, if_true] at h ⊢
  split at h
  · simp [Thread.not_arrived_freed] at h
  · rename_i hno
    rw [if_neg hno]
    simp only [Bool.not_eq_true, List.all_eq_false, List.mem_range] at hno
    obtain ⟨m, hm, hcount⟩ := hno
    refine ⟨rfl, m, hm, ?_⟩
    simpa [Thread.sibling, and_assoc] using hcount

theorem Wave.meetingsHold_settle (w : Wave) (running : BitVec 64) : (w.settle running).MeetingsHold running := by
  intro l hl harr
  rw [Wave.settle_threads_length] at hl
  obtain ⟨heq, m, hm, hsib, hnot⟩ := w.settle_arrived hl harr
  rw [heq]
  refine ⟨rfl, m, by simpa using hm, ?_⟩
  rw [w.settle_not_arrived hnot]
  exact ⟨hsib, hnot⟩

theorem Wave.meetingsHold_retest (w : Wave) (running : BitVec 64) : (w.retest running).MeetingsHold running := by
  unfold Wave.retest
  split
  · exact w.meetingsHold_settle running
  · rename_i hno
    intro l hl harr
    refine absurd (List.any_eq_true.2 ⟨_, Wave.thread_mem hl, ?_⟩) hno
    simp only [Thread.arrived, Bool.and_eq_true] at harr ⊢
    exact ⟨harr.1.1.1, harr.1.2⟩

/-! The waves of a state. -/

theorem State.meetingsHold_settleWaves (s : State) : s.settleWaves.MeetingsHold := by
  intro w hw k v hv
  obtain ⟨w0, -, rfl⟩ := List.mem_map.1 hw
  simp only [List.getElem?_mapIdx, Option.map_eq_some_iff] at hv
  obtain ⟨v0, -, rfl⟩ := hv
  exact v0.meetingsHold_retest _

/-- A change of the workgroups under which each wave keeps its threads. -/
theorem State.MeetingsHold.map (h : s.MeetingsHold) (f : Workgroup → Workgroup) (hrun : t.running = s.running)
    (hwgs : t.wgs = s.wgs.map f) (hid : ∀ w, (f w).id = w.id)
    (hthreads : ∀ w (k : Nat) v, (f w).waves[k]? = some v → ∃ u, w.waves[k]? = some u ∧ v.threads = u.threads) : t.MeetingsHold := by
  intro w hw k v hv
  rw [hwgs] at hw
  obtain ⟨w0, hw0, rfl⟩ := List.mem_map.1 hw
  obtain ⟨u, hu, hth⟩ := hthreads w0 k v hv
  have hold : u.MeetingsHold (t.runningLanes (f w0).id k) := by
    rw [hid, State.runningLanes, hrun]; exact h w0 hw0 k u hu
  simpa only [Wave.MeetingsHold, Wave.thread, hth] using hold

theorem State.MeetingsHold.same (h : s.MeetingsHold) (hrun : t.running = s.running) (hwgs : t.wgs = s.wgs) : t.MeetingsHold :=
  h.map id hrun (by simpa using hwgs) (fun _ => rfl) fun _ _ v hv => ⟨v, hv, rfl⟩

theorem State.MeetingsHold.noteDead (h : s.MeetingsHold) : s.noteDead.MeetingsHold :=
  h.map _ rfl rfl (fun _ => rfl) fun _ _ v hv => ⟨v, hv, rfl⟩

theorem State.MeetingsHold.noteReady (h : s.MeetingsHold) : s.noteReady.MeetingsHold := by
  refine h.map _ rfl rfl (fun w => by split <;> rfl) fun w k v hv => ?_
  split at hv
  · simp only [List.getElem?_mapIdx, Option.map_eq_some_iff] at hv
    obtain ⟨u, hu, rfl⟩ := hv
    exact ⟨u, hu, rfl⟩
  · exact ⟨v, hv, rfl⟩

theorem State.meetingsHold_closeStep (s : State) : s.closeStep.MeetingsHold :=
  s.stages.meetingsHold_settleWaves.noteDead.noteReady

/-! Steps. -/

/-- THE STATES A MOVE ENDS IN: every move ends with what every step ends with, or changes nothing. -/
theorem State.move_next {m : Move} (h : s.move m = .next t) : t = s ∨ ∃ u : State, t = u.closeStep := by
  cases m with
  | word core part =>
    simp only [State.move, State.moveWord] at h
    split at h
    · cases h; exact .inl rfl
    · split at h
      · cases h; exact .inr ⟨_, rfl⟩
      · split at h <;> cases h
        exact .inr ⟨_, rfl⟩
  | event i =>
    simp only [State.move, State.moveEvent] at h
    split at h
    · cases h; exact .inl rfl
    · split at h <;> cases h
      exact .inr ⟨_, rfl⟩
  | tick n => cases h; exact .inr ⟨_, rfl⟩
  | hdm q base => cases h; exact .inr ⟨_, rfl⟩

/-- Which move is next is found without a change of waves or clauses. -/
theorem State.nextOf_keeps (s : State) : s.nextOf.2.wgs = s.wgs ∧ s.nextOf.2.running = s.running := by
  unfold State.nextOf State.ownMove
  split
  · exact ⟨rfl, rfl⟩
  · split
    · split <;> exact ⟨rfl, rfl⟩
    · exact ⟨rfl, rfl⟩

/-- Settles O58: a step ends with the test of every meeting, or leaves waves and clauses as they were. -/
theorem stepsKeepMeetings : Obligations.StepsKeepMeetings := by
  intro s t hs ht
  obtain ⟨hwgs, hrun⟩ := s.nextOf_keeps
  rcases State.move_next (show s.nextOf.2.move s.nextOf.1 = .next t from ht) with rfl | ⟨u, rfl⟩
  · exact hs.same hrun hwgs
  · exact u.meetingsHold_closeStep

/-- Settles O59: no workgroup is resident at reset. -/
theorem meetingsHoldAtReset : Obligations.MeetingsHoldAtReset := fun _ h => by cases h

end Sys2Proof.Machine
end

section
/-! PROOFS. Rods, registers and regions (O13): SETINFO, REGGIVE and REGCLAIM with the grants of a part's claims (R167, R208, R209),
NPREEMPT and PREEMPTOK (R213). -/
namespace Sys2Proof.Machine

variable {s : State} {h : Hdr} {e : Env}

/-! What the test of a wave's meetings leaves of a thread. -/

theorem Settles.pc {b : Bool} {x y : Thread} (h : Settles b x y) : y.pc = x.pc := by
  rcases h with rfl | ⟨-, rfl | rfl⟩ <;> rfl

/-- A thread that is neither eligible nor held has no meeting to arrive at. -/
theorem Settles.eq_of_busy {b : Bool} {x y : Thread} (h : Settles b x y) (he : x.status ≠ .eligible) (hh : x.status ≠ .held) : y = x :=
  h.resolve_right fun ⟨ha, _⟩ => by simp [Thread.arrived, he, hh] at ha

theorem Settles.not_waiting {b : Bool} {x y : Thread} (h : Settles b x y) (hx : x.status ≠ .waiting) : y.status ≠ .waiting := by
  rcases h with rfl | ⟨-, rfl | rfl⟩
  · exact hx
  · exact nofun
  · exact nofun

/-! Grants of claims (R167). -/

@[simp] theorem State.recalls_settle (s : State) (wg k : Nat) : (s.settle wg k).recalls = s.recalls := rfl
@[simp] theorem State.byte_settle (s : State) (wg k pa : Nat) : (s.settle wg k).byte pa = s.byte pa := rfl
@[simp] theorem State.byte_modWave (s : State) (wg k : Nat) (f : Wave → Wave) (pa : Nat) : (s.modWave wg k f).byte pa = s.byte pa := rfl
@[simp] theorem State.byte_leaveClause (s : State) (g : BitVec 64) (pa : Nat) : (s.leaveClause g).byte pa = s.byte pa := rfl
@[simp] theorem State.recalls_now (s : State) (e : Env) (f : Wave → Wave) : (s.now e f).recalls = s.recalls := rfl
@[simp] theorem State.recalls_leaveClause (s : State) (g : BitVec 64) : (s.leaveClause g).recalls = s.recalls := rfl

theorem State.partOf_of_wg? {g : Workgroup} {wg : Nat} (hg : s.wg? wg = some g) (p : Nat) : s.partOf wg p = g.part p := by
  rw [State.partOf, hg]

theorem State.wg?_of_wave? {wg k : Nat} {v : Wave} (hv : s.wave? wg k = some v) : ∃ w, s.wg? wg = some w := by
  cases hw : s.wg? wg with
  | none => simp [State.wave?, hw] at hv
  | some w => exact ⟨w, rfl⟩

theorem State.partOf_settle (s : State) (wg k id p : Nat) : (s.settle wg k).partOf id p = s.partOf id p := State.partOf_modWave ..

/-- A wave whose claim is granted: it holds `n` registers more, which read 0, and the claim's threads go on. -/
def Claim.grantTo (c : Claim) (v : Wave) : Wave :=
  Wave.modLanes { v with n := v.n + c.n, vregs := SMap.drop (fun k => 64 * v.n ≤ k && k < 64 * (v.n + c.n)) v.vregs } c.lanes fun _ t =>
    if t.status = .waiting && t.waitOn = .claim then { t with status := .eligible, waitOn := .none } else t

theorem State.grantClaims_none {wg p : Nat} (hc : (s.partOf wg p).claims = []) (fuel : Nat) : s.grantClaims wg p fuel = s := by
  cases fuel with
  | zero => rfl
  | succ n =>
    rw [State.grantClaims]
    split
    · rfl
    · rename_i w hw
      rw [State.partOf_of_wg? hw] at hc
      rw [hc]

theorem State.grantClaims_short {wg p : Nat} {c : Claim} {rest : List Claim} (hc : (s.partOf wg p).claims = c :: rest)
    (hn : (s.partOf wg p).spare < c.n) (fuel : Nat) : s.grantClaims wg p fuel = s := by
  cases fuel with
  | zero => rfl
  | succ n =>
    rw [State.grantClaims]
    split
    · rfl
    · rename_i w hw
      rw [State.partOf_of_wg? hw] at hc hn
      rw [hc]
      exact if_pos hn

theorem State.grantClaims_grant {wg p : Nat} {w : Workgroup} (hw : s.wg? wg = some w) {c : Claim} {rest : List Claim}
    (hc : (w.part p).claims = c :: rest) (hn : c.n ≤ (w.part p).spare) (fuel : Nat) :
    s.grantClaims wg p (fuel + 1) =
      (((s.modPart wg p fun x => { x with spare := x.spare - c.n, claims := rest }).modWave wg c.wave c.grantTo).settle wg
        c.wave).grantClaims wg p fuel := by
  rw [State.grantClaims, hw]
  dsimp only
  rw [hc]
  exact if_neg (by omega)

/-- The registers of a grant read 0. -/
theorem Claim.v_grantTo (c : Claim) (v : Wave) {k l : Nat} (hlo : v.n ≤ k) (hhi : k < v.n + c.n) (hl : l < 64) : (c.grantTo v).v k l = 0 := by
  refine SMap.get_drop (p := fun k => 64 * v.n ≤ k && k < 64 * (v.n + c.n)) 0 ?_ v.vregs
  simp only [Bool.and_eq_true, decide_eq_true_eq]
  omega

/-! REGCLAIM (R209). -/

/-- The claim of a word. -/
def Env.claim (e : Env) (n : Nat) : Claim := ⟨e.iss.wave, n, e.iss.group, e.iss.word, e.iss.addr, BitVec.ofNat 4 e.iss.idx⟩

/-- A wave whose issue group waits for its claim, at the next clause. -/
def Env.claiming (e : Env) (v : Wave) : Wave :=
  v.modLanes e.iss.group fun _ t => { t with pc := e.iss.nxtPc, status := .waiting, waitOn := .claim }

/-- The claim stands at the end of its part's queue. -/
def State.claimed (s : State) (e : Env) (n : Nat) : State :=
  ((s.leaveClause e.iss.group).now e e.claiming).modPart e.iss.wg e.part fun p => { p with claims := p.claims ++ [e.claim n] }

theorem badCount_ok {n : Nat} (h0 : n ≠ 0) (h4 : n % 4 = 0) : badCount n = false := by simp [badCount, h0, h4]

theorem regclaimBody_claims {n : Nat} (hact : e.act ≠ []) (h0 : n ≠ 0) (h4 : n % 4 = 0)
    (hn : e.w.n + n ≤ min 256 (e.wg.part e.part).budget) :
    regclaimBody n e s = ((s.claimed e n).grantClaims e.iss.wg e.part 1024).settle e.iss.wg e.iss.wave := by
  rw [regclaimBody, badCount_ok h0 h4, if_neg (by simp)]
  dsimp only
  rw [if_neg hact, if_neg (Nat.not_lt.2 hn)]
  rfl

@[simp] theorem State.recalls_claimed (s : State) (e : Env) (n : Nat) : (s.claimed e n).recalls = s.recalls := by
  simp [State.claimed]

theorem State.byte_claimed (s : State) (e : Env) (n pa : Nat) : (s.claimed e n).byte pa = s.byte pa := by
  rw [State.claimed, State.byte_modPart, State.now, State.byte_modWave, State.byte_leaveClause]

section Claimed
variable (he : s.env? h = some e) (n : Nat)
include he

theorem State.wave?_claimed : (s.claimed e n).wave? e.iss.wg e.iss.wave = some (e.claiming e.w) := by
  rw [State.claimed, State.wave?_modPart]
  have hw := State.env?_wave he
  have hwave : (s.leaveClause e.iss.group).wave? e.iss.wg e.iss.wave = some e.w := hw
  exact State.wave?_now hwave _

theorem State.partOf_claimed (hp : e.part < e.wg.parts.length) :
    (s.claimed e n).partOf e.iss.wg e.part = { e.wg.part e.part with claims := (e.wg.part e.part).claims ++ [e.claim n] } := by
  obtain ⟨-, hwg, -⟩ := State.env?_some he
  have hnow : ((s.leaveClause e.iss.group).now e e.claiming).wg? e.iss.wg
      = some { e.wg with waves := e.wg.waves.modify e.iss.wave e.claiming } :=
    (State.wg?_modWg_self (s.leaveClause e.iss.group) e.iss.wg
      (f := fun w => { w with waves := w.waves.modify e.iss.wave e.claiming }) fun _ => rfl).trans (congrArg _ hwg)
  exact State.partOf_modPart hnow hp _

theorem State.wg?_claimed : ∃ w, (s.claimed e n).wg? e.iss.wg = some w := State.wg?_of_wave? (State.wave?_claimed he n)

end Claimed

theorem Env.thread_claiming (e : Env) (v : Wave) {l : Nat} (hg : bitAt e.iss.group l = true) (hl : l < v.threads.length) :
    (e.claiming v).thread l = { v.thread l with pc := e.iss.nxtPc, status := .waiting, waitOn := .claim } := by
  rw [Env.claiming, Wave.thread_modLanes, if_pos ⟨hg, hl⟩]

/-- A thread of a granted claim is eligible at the next clause. -/
theorem Env.thread_granted (e : Env) (n : Nat) (v : Wave) {l : Nat} (hg : bitAt e.iss.group l = true) (hl : l < v.threads.length) :
    ((e.claim n).grantTo (e.claiming v)).thread l = { v.thread l with pc := e.iss.nxtPc, status := .eligible, waitOn := .none } := by
  have hth := e.thread_claiming v hg hl
  rw [Claim.grantTo, Wave.thread_modLanes, if_pos ⟨hg, by simpa [Env.claiming] using hl⟩]
  rw [Wave.thread] at hth ⊢
  dsimp only
  rw [hth]
  rfl

/-- A claim that spare does not reach waits in the queue. -/
theorem exec_regclaim_waits {f : IF} (hr : Ready s h none (usesOf (.regclaim h f)) e) (hact : e.act ≠ []) (h0 : f.imm.toNat ≠ 0)
    (h4 : f.imm.toNat % 4 = 0) (hn : e.w.n + f.imm.toNat ≤ min 256 (e.wg.part e.part).budget) (hc : (e.wg.part e.part).claims = [])
    (hp : e.part < e.wg.parts.length) (hspare : (e.wg.part e.part).spare < f.imm.toNat) :
    exec (.regclaim h f) s = .next ((s.claimed e f.imm.toNat).settle e.iss.wg e.iss.wave) := by
  have hpart := State.partOf_claimed hr.1 f.imm.toNat hp
  have hgrant := State.grantClaims_short (s := s.claimed e f.imm.toNat) (wg := e.iss.wg) (p := e.part) (by rw [hpart, hc]; rfl)
    (by rw [hpart]; exact hspare) 1024
  have hbody := regclaimBody_claims (s := s) hact h0 h4 hn
  rw [hgrant] at hbody
  exact (word_ready_quiet hr _ (by rw [hbody]; simp)).trans (congrArg _ hbody)

/-- The part and the wave of a claim that is granted as it is made. -/
def State.claimGranted (s : State) (e : Env) (n : Nat) : State :=
  ((s.claimed e n).modPart e.iss.wg e.part fun x => { x with spare := x.spare - n, claims := [] }).modWave e.iss.wg e.iss.wave
    (e.claim n).grantTo

@[simp] theorem State.recalls_claimGranted (s : State) (e : Env) (n : Nat) : (s.claimGranted e n).recalls = s.recalls := by
  simp [State.claimGranted]

theorem State.byte_claimGranted (s : State) (e : Env) (n pa : Nat) : (s.claimGranted e n).byte pa = s.byte pa := by
  rw [State.claimGranted, State.byte_modWave, State.byte_modPart, State.byte_claimed]

theorem State.partOf_claimGranted (he : s.env? h = some e) (n : Nat) (hp : e.part < e.wg.parts.length) :
    (s.claimGranted e n).partOf e.iss.wg e.part = { e.wg.part e.part with spare := (e.wg.part e.part).spare - n, claims := [] } := by
  obtain ⟨w, hw⟩ := State.wg?_claimed he n
  have hpart := State.partOf_claimed he n hp
  rw [State.partOf_of_wg? hw] at hpart
  have hlen : e.part < w.parts.length := by
    by_contra hge
    have hdef : w.part e.part = { core := 0 } := by simp [Workgroup.part, List.getD_eq_getElem?_getD, Nat.not_lt.1 hge]
    simp [hpart] at hdef
  rw [State.claimGranted, State.partOf_modWave, State.partOf_modPart hw hlen, hpart]

/-- A claim that spare reaches is granted at once. -/
theorem exec_regclaim_granted {f : IF} (hr : Ready s h none (usesOf (.regclaim h f)) e) (hact : e.act ≠ []) (h0 : f.imm.toNat ≠ 0)
    (h4 : f.imm.toNat % 4 = 0) (hn : e.w.n + f.imm.toNat ≤ min 256 (e.wg.part e.part).budget) (hc : (e.wg.part e.part).claims = [])
    (hp : e.part < e.wg.parts.length) (hspare : f.imm.toNat ≤ (e.wg.part e.part).spare) :
    exec (.regclaim h f) s =
      .next (((s.claimGranted e f.imm.toNat).settle e.iss.wg e.iss.wave).settle e.iss.wg e.iss.wave) := by
  obtain ⟨w, hw⟩ := State.wg?_claimed hr.1 f.imm.toNat
  have hpart := State.partOf_claimed hr.1 f.imm.toNat hp
  rw [State.partOf_of_wg? hw] at hpart
  have hgrant : (s.claimed e f.imm.toNat).grantClaims e.iss.wg e.part 1024 = (s.claimGranted e f.imm.toNat).settle e.iss.wg e.iss.wave :=
    (State.grantClaims_grant hw (c := e.claim f.imm.toNat) (rest := []) (by rw [hpart, hc]; rfl) (by rw [hpart]; exact hspare) 1023).trans
      (State.grantClaims_none ((congrArg Part.claims ((State.partOf_settle ..).trans (State.partOf_claimGranted hr.1 _ hp)) :)) _)
  have hbody := regclaimBody_claims (s := s) hact h0 h4 hn
  rw [hgrant] at hbody
  exact (word_ready_quiet hr _ (by rw [hbody]; simp)).trans (congrArg _ hbody)

/-! SETINFO and REGGIVE (R208, R209). -/

theorem wfld_eq_mb (f : GF) (hi lo : Nat) : wfld (f.m.setWidth 64) lo (hi + 1 - lo) = f.mb hi lo := by
  have hlt := f.m.isLt
  rw [wfld, GF.mb, BitVec.extractLsb'_toNat, BitVec.extractLsb'_toNat, BitVec.toNat_setWidth,
    Nat.mod_eq_of_lt (show f.m.toNat < 2 ^ 64 by omega)]

theorem bitAt_eq_mb (f : GF) (i : Nat) : bitAt f.m i = decide (f.mb i i = 1) := by
  rw [GF.mb, BitVec.extractLsb'_toNat, Nat.add_sub_cancel_left, bitAt, BitVec.getLsbD, Nat.testBit_eq_decide_div_mod_eq,
    Nat.shiftRight_eq_div_pow, pow_one]

/-- The binding that SETINFO names (R208). -/
def setinfoBinding (f : GF) : Option (Nat × Nat) := if f.mb 12 12 = 1 then none else some (f.mb 8 4, f.mb 11 9)

theorem setinfoBody_binds {f : GF} (hact : e.act ≠ []) (hbeads : (e.wg.rod (f.mb 3 0)).beads = [])
    (hfar : ∀ x, setinfoBinding f = some x → x.2 < e.wg.parts.length) (hnew : (e.wg.rod (f.mb 3 0)).bound ≠ setinfoBinding f) :
    setinfoBody f e s = s.modRod e.iss.wg (f.mb 3 0) fun _ => { bound := setinfoBinding f } := by
  have hrod : wfld (f.m.setWidth 64) 0 4 = f.mb 3 0 := wfld_eq_mb f 3 0
  have hbind : (if bitAt f.m 12 then none else some (wfld (f.m.setWidth 64) 4 5, wfld (f.m.setWidth 64) 9 3)) = setinfoBinding f := by
    rw [bitAt_eq_mb f, wfld_eq_mb f 8 4, wfld_eq_mb f 11 9, setinfoBinding]
    simp only [decide_eq_true_eq]
  simp only [setinfoBody, hrod, hbind, hbeads, hact, hnew, ne_eq, not_true_eq_false, decide_false, Bool.false_and, Bool.or_false, if_false]
  refine if_neg ?_
  split
  · next hb => simpa using hfar _ hb
  · exact Bool.false_ne_true

theorem reggiveBody_gives {n : Nat} (hact : e.act ≠ []) (h0 : n ≠ 0) (h4 : n % 4 = 0) (hnet : n + 4 ≤ e.w.net)
    (hpend : e.w.pendingFrom (e.w.net - n) = false) :
    reggiveBody n e s = s.now e fun w => { w with gives := w.gives ++ [(n, s.clk + 4)] } := by
  rw [reggiveBody, badCount_ok h0 h4, if_neg (by simp), if_neg hact, if_neg (by omega), hpend]
  rfl

/-! Regions (R213). -/

theorem State.modWave_modWave (s : State) (wg k : Nat) (f g : Wave → Wave) :
    (s.modWave wg k f).modWave wg k g = s.modWave wg k fun w => g (f w) := by
  simp only [State.modWave, State.modWg, List.map_map]
  congr 2
  funext w
  simp only [Function.comp]
  split
  · next hw => simp [hw, List.modify_modify_eq, Function.comp_def]
  · rfl

/-- A word that changes its wave and answers a value starts the operation whose result that value is. -/
theorem starts_now_quickOp {i : Instr} {c : Option Cnt} {lat : Nat} {regs : List Reg} {ws : List RegWrite} (f : Wave → Wave)
    (hw : s.wave? e.iss.wg e.iss.wave = some e.w) (hx : exec i s = .next ((s.now e f).quickOp e c lat regs ws)) :
    Starts s e i (f e.w) (resultAt s c lat regs ws) := by
  have hone : (s.now e f).quickOp e c lat regs ws = State.modWave { s with
      nextId := s.nextId + 1
      results := s.results ++ [{ resultAt s c lat regs ws with id := s.nextId, wg := e.iss.wg, wave := e.iss.wave }] }
      e.iss.wg e.iss.wave fun w => (f w).marking s.nextId (resultAt s c lat regs ws) := by
    rw [State.quickOp, State.startOp_eq (s.now e f) e rfl rfl rfl]
    exact State.modWave_modWave { s with
      nextId := s.nextId + 1
      results := s.results ++ [{ resultAt s c lat regs ws with id := s.nextId, wg := e.iss.wg, wave := e.iss.wave }] }
      e.iss.wg e.iss.wave f fun w => w.marking s.nextId (resultAt s c lat regs ws)
  rw [hone] at hx
  refine ⟨_, hx, rfl, ?_, Elsewhere.of_modWave ..⟩
  rw [State.wave?_modWave, if_pos ⟨rfl, rfl⟩]
  exact congrArg (Option.map fun w => (f w).marking s.nextId (resultAt s c lat regs ws)) hw

theorem exec_npreempt {f : GF} (hr : Ready s h none (usesOf (.npreempt h f)) e) (hact : e.act ≠ []) :
    exec (.npreempt h f) s = .next ((if e.w.region then s else s.now e fun w => { w with region := true, broken := false }).quickOp e
      none 8 [.s f.d.toNat] [⟨.s f.d.toNat, 0, npStatus e (e.w.region && e.w.broken)⟩]) := by
  refine (word_ready_quiet hr _ ?_).trans (congrArg _ (if_neg hact))
  rw [if_neg hact]
  split <;> rfl

theorem exec_preemptok {f : GF} (hr : Ready s h none (usesOf (.preemptok h f)) e) (hact : e.act ≠ []) :
    exec (.preemptok h f) s = .next ((s.now e fun w => { w with region := false, broken := false }).quickOp e
      none 8 [.s f.d.toNat] [⟨.s f.d.toNat, 0, npStatus e e.w.broken⟩]) :=
  (word_ready_quiet hr _ (by rw [if_neg hact]; rfl)).trans (congrArg _ (if_neg hact))

/-! O13 from its parts. -/

/-- What REGCLAIM leaves: granted where spare reaches, else queued. -/
theorem regclaim_spec {f : IF} (hr : Ready s h none (usesOf (.regclaim h f)) e) (hact : e.act ≠ []) (h0 : f.imm.toNat ≠ 0)
    (h4 : f.imm.toNat % 4 = 0) (hn : e.w.n + f.imm.toNat ≤ min 256 (e.wg.part e.part).budget) (hc : (e.wg.part e.part).claims = [])
    (hp : e.part < e.wg.parts.length) :
    ∃ t v g, exec (.regclaim h f) s = .next t ∧ t.wave? e.iss.wg e.iss.wave = some v ∧ t.wg? e.iss.wg = some g
      ∧ (∀ pa, t.byte pa = s.byte pa)
      ∧ (f.imm.toNat ≤ (e.wg.part e.part).spare → v.n = e.w.n + f.imm.toNat
        ∧ (g.part e.part).spare = (e.wg.part e.part).spare - f.imm.toNat ∧ (g.part e.part).claims = []
        ∧ (∀ l, bitAt e.iss.group l = true → l < e.w.threads.length → (v.thread l).pc = e.iss.nxtPc ∧ (v.thread l).status ≠ .waiting)
        ∧ ∀ k l, e.w.n ≤ k → k < e.w.n + f.imm.toNat → l < 64 → v.v k l = 0)
      ∧ ((e.wg.part e.part).spare < f.imm.toNat → v.n = e.w.n ∧ (g.part e.part).spare = (e.wg.part e.part).spare
        ∧ (g.part e.part).claims = [e.claim f.imm.toNat]
        ∧ ∀ l, bitAt e.iss.group l = true → l < e.w.threads.length →
          (v.thread l).pc = e.iss.nxtPc ∧ (v.thread l).status = .waiting ∧ (v.thread l).waitOn = .claim) := by
  have hclaimed := State.wave?_claimed hr.1 f.imm.toNat
  rcases Nat.lt_or_ge (e.wg.part e.part).spare f.imm.toNat with hspare | hspare
  · have hwave := State.wave?_settle hclaimed
    have hpart := State.partOf_claimed hr.1 f.imm.toNat hp
    rw [← State.partOf_settle _ e.iss.wg e.iss.wave] at hpart
    obtain ⟨g, hg⟩ := State.wg?_of_wave? hwave
    rw [State.partOf_of_wg? hg, hc] at hpart
    refine ⟨_, _, g, exec_regclaim_waits hr hact h0 h4 hn hc hp hspare, hwave, hg, fun _ => by rw [State.byte_settle, State.byte_claimed],
      fun hge => by omega, fun _ => ⟨rfl, by rw [hpart], by rw [hpart]; rfl, fun l hgl hl => ?_⟩⟩
    have hth := e.thread_claiming e.w hgl hl
    have hset := Wave.settle_settles (e.claiming e.w) ((s.claimed e f.imm.toNat).runningLanes e.iss.wg e.iss.wave) l
    rw [hset.eq_of_busy (by rw [hth]; exact nofun) (by rw [hth]; exact nofun), hth]
    exact ⟨rfl, rfl, rfl⟩
  · have hgranted : (s.claimGranted e f.imm.toNat).wave? e.iss.wg e.iss.wave = some ((e.claim f.imm.toNat).grantTo (e.claiming e.w)) := by
      rw [State.claimGranted, State.wave?_modWave, if_pos ⟨rfl, rfl⟩, State.wave?_modPart, hclaimed]
      rfl
    have hwave := State.wave?_settle (State.wave?_settle hgranted)
    have hpart := State.partOf_claimGranted hr.1 f.imm.toNat hp
    rw [← State.partOf_settle _ e.iss.wg e.iss.wave, ← State.partOf_settle _ e.iss.wg e.iss.wave] at hpart
    obtain ⟨g, hg⟩ := State.wg?_of_wave? hwave
    rw [State.partOf_of_wg? hg] at hpart
    refine ⟨_, _, g, exec_regclaim_granted hr hact h0 h4 hn hc hp hspare, hwave, hg, fun _ => by rw [State.byte_settle,
      State.byte_settle, State.byte_claimGranted], fun _ => ⟨rfl, by rw [hpart], by rw [hpart], fun l hgl hl => ?_, fun k l hlo hhi hl => ?_⟩, fun hlt => by omega⟩
    · have hth := e.thread_granted f.imm.toNat e.w hgl hl
      have hset := Wave.settle_settles ((e.claim f.imm.toNat).grantTo (e.claiming e.w))
        ((s.claimGranted e f.imm.toNat).runningLanes e.iss.wg e.iss.wave) l
      have hagain := Wave.settle_settles (((e.claim f.imm.toNat).grantTo (e.claiming e.w)).settle
        ((s.claimGranted e f.imm.toNat).runningLanes e.iss.wg e.iss.wave))
        (((s.claimGranted e f.imm.toNat).settle e.iss.wg e.iss.wave).runningLanes e.iss.wg e.iss.wave) l
      exact ⟨by rw [hagain.pc, hset.pc, hth], hagain.not_waiting (hset.not_waiting (by rw [hth]; exact nofun))⟩
    · exact (e.claim f.imm.toNat).v_grantTo (e.claiming e.w) hlo hhi hl

/-- Settles O13, word by word. -/
theorem rodsAndRegions : Obligations.RodsAndRegions := by
  refine ⟨fun s h e => ⟨fun f hr hact hbeads hfar hnew => ?_, fun f hr hact h0 h4 hnet hpend => ?_, fun f hr hact h0 h4 hn hc hp =>
    regclaim_spec hr hact h0 h4 hn hc hp⟩, fun s h e f hact => ⟨fun hr => ?_, fun hr => ?_⟩⟩
  · have hbody := setinfoBody_binds (s := s) hact hbeads hfar hnew
    exact (word_ready_quiet hr _ (by rw [hbody]; rfl)).trans (congrArg _ hbody)
  · have hbody := reggiveBody_gives (s := s) hact h0 h4 hnet hpend
    exact (word_ready_quiet hr _ (by rw [hbody]; rfl)).trans (congrArg _ hbody)
  · have hx := exec_npreempt hr hact
    have hw := State.env?_wave hr.1
    cases hreg : e.w.region with
    | true =>
      rw [hreg] at hx
      exact starts_quickOp hw hx
    | false =>
      rw [hreg] at hx
      exact starts_now_quickOp _ hw hx
  · exact starts_now_quickOp _ (State.env?_wave hr.1) (exec_preemptok hr hact)

end Sys2Proof.Machine
end

section
/-! PROOFS. MMA (O28): beads placed on a rod, and the operation that a full rod sends to the matrix queue (R165, R277, R279, R280,
R283). -/
namespace Sys2Proof.Machine

variable {s : State} {h : Hdr} {e : Env}

/-! A list without repetitions. -/

theorem nodup_mem_foldl_dedup {α : Type} [DecidableEq α] (l acc : List α) (hacc : acc.Nodup) :
    (l.foldl (fun acc x => if acc.contains x then acc else acc ++ [x]) acc).Nodup
      ∧ ∀ x, x ∈ l.foldl (fun acc x => if acc.contains x then acc else acc ++ [x]) acc ↔ x ∈ acc ∨ x ∈ l := by
  induction l generalizing acc with
  | nil => exact ⟨hacc, fun x => by simp⟩
  | cons a r ih =>
    rw [List.foldl_cons]
    split
    · next hin =>
      have ha : a ∈ acc := by simpa using hin
      obtain ⟨hn, hm⟩ := ih acc hacc
      refine ⟨hn, fun x => (hm x).trans ?_⟩
      by_cases hx : x = a <;> simp [hx, ha]
    · next hout =>
      have ha : a ∉ acc := by simpa using hout
      obtain ⟨hn, hm⟩ := ih (acc ++ [a]) (List.nodup_append.2 ⟨hacc, List.nodup_singleton a, fun x hx y hy hxy =>
        ha (List.mem_singleton.1 hy ▸ hxy ▸ hx)⟩)
      exact ⟨hn, fun x => (hm x).trans (by simp [or_assoc])⟩

theorem count_dedup_of_mem {α : Type} [DecidableEq α] {l : List α} {x : α} (h : x ∈ l) : (dedup l).count x = 1 := by
  obtain ⟨hn, hm⟩ := nodup_mem_foldl_dedup l [] List.nodup_nil
  exact List.count_eq_one_of_mem hn ((hm x).2 (.inr h))

/-! Operations counted under mma (R188). -/

theorem State.mmaCount_keeps {γ : Type} {g : State → γ} (hg : ∀ t wg k f, g (State.modWave t wg k f) = g t) (s : State) (x : MqEntry)
    (d : Int) : g (s.mmaCount x d) = g s :=
  foldl_keeps g (fun t k => hg t x.wg k _) x.waves s

/-- A wave with `n` operations more under mma. -/
def Wave.mmaUp (n : Nat) (v : Wave) : Wave := { v with cnt := { v.cnt with mma := v.cnt.mma + n } }

theorem Counters.bump_mma_one (c : Counters) : c.bump .mma 1 = { c with mma := c.mma + 1 } := rfl

theorem State.wave?_mmaCount (s : State) (x : MqEntry) (k : Nat) :
    (s.mmaCount x 1).wave? x.wg k = (s.wave? x.wg k).map (Wave.mmaUp (x.waves.count k)) := by
  have hfold : ∀ (l : List Nat) (s : State), (l.foldl (fun s k => s.bump x.wg k .mma 1) s).wave? x.wg k
      = (s.wave? x.wg k).map (Wave.mmaUp (l.count k)) := by
    intro l
    induction l with
    | nil =>
      intro s
      show s.wave? x.wg k = (s.wave? x.wg k).map (Wave.mmaUp 0)
      cases s.wave? x.wg k <;> rfl
    | cons a r ih =>
      intro s
      rw [List.foldl_cons, ih, State.bump, State.wave?_modWave, List.count_cons]
      by_cases ha : k = a
      · subst ha
        rw [if_pos ⟨rfl, rfl⟩, Option.map_map]
        refine congrArg (Option.map · _) (funext fun v => ?_)
        simp [Function.comp, Wave.mmaUp, Counters.bump_mma_one, Nat.add_comm, Nat.add_left_comm]
      · rw [if_neg fun hk => ha hk.2]
        simp [Ne.symm ha]
  exact hfold x.waves s

theorem State.threadsOf_mmaCount (s : State) (x : MqEntry) (id : Nat) :
    ((s.mmaCount x 1).wg? id).map (fun w => (w.rods, w.waves.map (·.threads))) = (s.wg? id).map fun w => (w.rods, w.waves.map (·.threads)) := by
  refine foldl_keeps (fun t : State => (t.wg? id).map fun w => (w.rods, w.waves.map (·.threads))) (fun t k => ?_) x.waves s
  refine State.map_wg?_modWg (g := fun w => (w.rods, w.waves.map (·.threads)))
    (f := fun w => { w with waves := w.waves.modify k fun v => { v with cnt := v.cnt.bump .mma 1 } }) (fun _ => rfl) (fun w => ?_) x.wg id
  refine congrArg (w.rods, ·) (List.ext_getElem? fun i => ?_)
  rw [List.getElem?_map, List.getElem?_map, List.getElem?_modify]
  cases w.waves[i]? with
  | none => rfl
  | some v => by_cases hk : k = i <;> simp [hk]

/-! Threads that wait for a rod (R165). -/

/-- Who waits for a rod is told by the threads alone. -/
theorem Workgroup.waitingBeads_congr {v w : Workgroup} (hvw : v.waves.map (·.threads) = w.waves.map (·.threads)) (r : Nat) :
    v.waitingBeads r = w.waitingBeads r := by
  have hlen : v.waves.length = w.waves.length := by simpa using congrArg List.length hvw
  have hth (k l : Nat) : (v.waves[k]?).map (fun u => u.thread l) = (w.waves[k]?).map fun u => u.thread l := by
    have hk := congrArg (fun ts : List (List Thread) => (ts[k]?).map fun t => t.getD l { pc := ⟨0, 0, false⟩, status := .exited }) hvw
    simp only [List.getElem?_map, Option.map_map] at hk
    exact hk
  rw [Workgroup.waitingBeads, Workgroup.waitingBeads, hlen]
  simp only [hth]

/-! The operation of a full rod (R277, R280). -/

/-- The queue entry of a rod's operation. -/
def rodEntry (id : Nat) (w : Workgroup) (wg r : Nat) (b : Bead) (aL bL : Layout) (pebbles : Nat) : MqEntry :=
  let j := ((w.rod r).bound.map (·.2)).getD 0
  let fa := firstOf w j aL (owOrigin b.a)
  let fb := firstOf w j bL (owOrigin b.b)
  let wd := opWidth fa.width? fb.width?
  { id := id, core := (w.part j).core, wg := wg, part := j, waves := dedup ((w.rod r).beads.map (·.1)),
    op := .mma b aL bL wd (fa.width?.getD wd) (fb.width?.getD wd) (fa.width?.isNone && fa ≠ .outside)
      (fb.width?.isNone && fb ≠ .outside),
    pebbles := pebbles }

/-- The rod is cleared and its operation counted. -/
def State.rodCleared (s : State) (x : MqEntry) (r : Nat) : State :=
  (State.modRod { s with nextId := s.nextId + 1 } x.wg r fun y => { y with beads := [], template := none }).mmaCount x 1

theorem State.rodCleared_keeps {γ : Type} {g : State → γ} (hg : ∀ t id f, g (State.modWg t id f) = g t) (s : State) (x : MqEntry) (r : Nat) :
    g (s.rodCleared x r) = g { s with nextId := s.nextId + 1 } :=
  (State.mmaCount_keeps (fun _ _ _ _ => hg _ _ _) _ x 1).trans (hg _ _ _)

/-- With its pebbles reserved and room in the queue, a full rod's operation enters the queue at once. -/
theorem State.rodIssue_enters {wg r n : Nat} {w : Workgroup} {b : Bead} {aL bL : Layout} (hw : s.wg? wg = some w) (hn : n ≠ 0)
    (hroom : s.mqRoom (rodEntry s.nextId w wg r b aL bL n).core = true) :
    s.rodIssue wg r b aL bL n =
      (s.rodCleared (rodEntry s.nextId w wg r b aL bL n) r).mqPush (rodEntry s.nextId w wg r b aL bL n) := by
  have hkeep := State.rodCleared_keeps (g := fun t => t.mqRoom (rodEntry s.nextId w wg r b aL bL n).core) (fun _ _ _ => rfl) s
    (rodEntry s.nextId w wg r b aL bL n) r
  rw [State.rodIssue, hw]
  refine if_pos ?_
  rw [Bool.and_eq_true]
  exact ⟨by simpa using hn, hkeep.trans hroom⟩

/-! MMA (R279, R280). -/

/-- The beads of a word's threads stand on their rod. -/
def State.withBeads (s : State) (e : Env) (r : Nat) (b : Bead) (mine : List (Nat × Nat)) : State :=
  (s.modRod e.iss.wg r fun x => { x with beads := x.beads ++ mine, template := some b }).modHead fun i => { i with pebbles := 0 }

section Mma
variable {f : XF} {b : Bead} {aL bL : Layout} (hact : e.act ≠ []) (hb : b = beadOf f e.iss.word (e.uniform f.a) (e.uniform f.b))
  (ha : s.operand e b.a Layout.scratch = (.ok aL, s)) (hbL : s.operand e b.b Layout.scratch = (.ok bL, s))
  (hacc : 1024 * b.acc.toNat + 4 * b.words ≤ (e.wg.part e.part).accBytes)
  (hlanes : mmaLanes e.wg e.iss.wave f.rod.toNat b e.act = ([], [], e.act))
include hact hb ha hbL hacc hlanes

/-- A rod that some member holds no bead for yet takes the threads' beads, and nothing issues. -/
theorem mmaBody_places (hfull : e.wg.rodFull (e.wg.rod f.rod.toNat) (e.act.map fun l => (e.iss.wave, l)) = false) :
    mmaBody f e s = s.withBeads e f.rod.toNat b (e.act.map fun l => (e.iss.wave, l)) := by
  subst hb
  simp only [mmaBody, ha, hbL, if_neg (Nat.not_lt.2 hacc), if_neg hact, hlanes, hfull, Bool.and_false, Bool.false_and, Bool.false_eq_true,
    if_false, if_true, State.waitBead, State.withBeads]

/-- A rod that is full with the threads' beads issues its operation. -/
theorem mmaBody_completes (hfull : e.wg.rodFull (e.wg.rod f.rod.toNat) (e.act.map fun l => (e.iss.wave, l)) = true)
    (hcheck : b.check e.wg e.part aL bL = none) (hroom : s.mqRoom e.core = true) {t : State}
    (ht : (s.withBeads e f.rod.toNat b (e.act.map fun l => (e.iss.wave, l))).rodIssue e.iss.wg f.rod.toNat b aL bL e.iss.pebbles = t)
    {w : Workgroup} (hw : t.wg? e.iss.wg = some w) (hwait : w.waitingBeads f.rod.toNat = []) (htemp : (w.rod f.rod.toNat).template = none) :
    mmaBody f e s = t := by
  subst hb
  have hfree : s.mqFree e.core = true := by
    rw [State.mqRoom, Bool.and_eq_true] at hroom
    exact hroom.1
  have htest : t.rodTest e.iss.wg f.rod.toNat 1024 = t := by
    rw [State.rodTest, hw]
    simp only [htemp]
  rw [State.withBeads] at ht
  simp only [mmaBody, ha, hbL, if_neg (Nat.not_lt.2 hacc), hlanes, hfull, hcheck, hfree, hact, ne_eq, not_false_eq_true,
    decide_true, Bool.and_true, Bool.true_and, Bool.not_true, Bool.and_false, Bool.false_and, Bool.false_eq_true, if_false, if_true,
    State.waitBead, ht, hw, Option.map_some, Option.getD_some, hwait, List.foldl_nil, htest]

end Mma

/-! The workgroup and the wave when the operation has entered the queue. -/

/-- The workgroup whose rod has taken beads. -/
def Workgroup.withBeads (w : Workgroup) (r : Nat) (b : Bead) (mine : List (Nat × Nat)) : Workgroup :=
  { w with rods := w.rods.modify r fun x => { x with beads := x.beads ++ mine, template := some b } }

theorem Workgroup.rod_withBeads {w : Workgroup} {r : Nat} (hr : r < w.rods.length) (b : Bead) (mine : List (Nat × Nat)) :
    (w.withBeads r b mine).rod r = { w.rod r with beads := (w.rod r).beads ++ mine, template := some b } := by
  simp [Workgroup.rod, Workgroup.withBeads, List.getD_eq_getElem?_getD, hr]

/-- The entry of a rod bound to part `j` names its core and the waves of its beads. -/
theorem rodEntry_withBeads (id : Nat) {w : Workgroup} {r set j : Nat} (hr : r < w.rods.length) (hbound : (w.rod r).bound = some (set, j))
    (b : Bead) (mine : List (Nat × Nat)) (wg : Nat) (aL bL : Layout) (n : Nat) :
    (rodEntry id (w.withBeads r b mine) wg r b aL bL n).part = j
      ∧ (rodEntry id (w.withBeads r b mine) wg r b aL bL n).core = (w.part j).core
      ∧ (rodEntry id (w.withBeads r b mine) wg r b aL bL n).waves = dedup ((w.rod r).beads.map (·.1) ++ mine.map (·.1)) := by
  simp only [rodEntry, Workgroup.rod_withBeads hr, hbound, List.map_append]
  exact ⟨rfl, rfl, trivial⟩

theorem State.wg?_withBeads (he : s.env? h = some e) (r : Nat) (b : Bead) (mine : List (Nat × Nat)) :
    (s.withBeads e r b mine).wg? e.iss.wg = some (e.wg.withBeads r b mine) := by
  obtain ⟨-, hwg, -⟩ := State.env?_some he
  exact (State.wg?_modWg_self s e.iss.wg (f := fun w => w.withBeads r b mine) fun _ => rfl).trans (congrArg _ hwg)

theorem State.wave?_withBeads (he : s.env? h = some e) (r : Nat) (b : Bead) (mine : List (Nat × Nat)) :
    (s.withBeads e r b mine).wave? e.iss.wg e.iss.wave = some e.w := by
  rw [State.wave?, State.wg?_withBeads he]
  exact (State.env?_some he).2.2.1

theorem State.wave?_rodCleared (s : State) (x : MqEntry) (r k : Nat) :
    (s.rodCleared x r).wave? x.wg k = (s.wave? x.wg k).map (Wave.mmaUp (x.waves.count k)) := by
  rw [State.rodCleared, State.wave?_mmaCount, State.modRod, State.wave?_modWg (by intro w; rfl) (by intro w; rfl)]
  rfl

/-- The workgroup whose rod is cleared. -/
def Workgroup.clearRod (w : Workgroup) (r : Nat) : Workgroup :=
  { w with rods := w.rods.modify r fun y => { y with beads := [], template := none } }

theorem Workgroup.rod_clearRod (w : Workgroup) (r : Nat) :
    ((w.clearRod r).rod r).beads = [] ∧ ((w.clearRod r).rod r).template = none := by
  by_cases hr : r < w.rods.length <;> simp [Workgroup.rod, Workgroup.clearRod, List.getD_eq_getElem?_getD, hr]

/-- A cleared rod holds no bead, and the threads are as they were. -/
theorem State.wg?_rodCleared {x : MqEntry} {w : Workgroup} (hw : s.wg? x.wg = some w) (r : Nat) :
    ∃ g, (s.rodCleared x r).wg? x.wg = some g ∧ (g.rod r).beads = [] ∧ (g.rod r).template = none
      ∧ g.waves.map (·.threads) = w.waves.map (·.threads) := by
  have hmod : (State.modWg { s with nextId := s.nextId + 1 } x.wg (Workgroup.clearRod · r)).wg? x.wg = some (w.clearRod r) :=
    (State.wg?_modWg_self { s with nextId := s.nextId + 1 } x.wg (f := (Workgroup.clearRod · r)) fun _ => rfl).trans (congrArg _ hw)
  have hkeep := State.threadsOf_mmaCount (State.modWg { s with nextId := s.nextId + 1 } x.wg (Workgroup.clearRod · r)) x x.wg
  rw [hmod, Option.map_some] at hkeep
  obtain ⟨g, hg, hsame⟩ := Option.map_eq_some_iff.1 hkeep
  obtain ⟨hrods, hthreads⟩ := Prod.mk.inj hsame
  have hrod : g.rod r = (w.clearRod r).rod r := by rw [Workgroup.rod, hrods, ← Workgroup.rod]
  exact ⟨g, hg, hrod ▸ (w.rod_clearRod r).1, hrod ▸ (w.rod_clearRod r).2, hthreads⟩

theorem State.mqPush_eq (s : State) (x : MqEntry) : ∃ i, s.mqPush x = { s with mq := s.mq ++ [{ x with inj := i }] } := ⟨_, rfl⟩

/-- What a completing MMA leaves. -/
theorem exec_mma_completes {f : XF} {b : Bead} {aL bL : Layout} (hr : Ready s h (some .matrix) (usesOf (.mma h f)) e)
    (hh : e.w.holds = []) (hact : e.act ≠ []) (hb : b = beadOf f e.iss.word (e.uniform f.a) (e.uniform f.b))
    (ha : s.operand e b.a Layout.scratch = (.ok aL, s)) (hbL : s.operand e b.b Layout.scratch = (.ok bL, s))
    (hacc : 1024 * b.acc.toNat + 4 * b.words ≤ (e.wg.part e.part).accBytes)
    (hlanes : mmaLanes e.wg e.iss.wave f.rod.toNat b e.act = ([], [], e.act))
    (hfull : e.wg.rodFull (e.wg.rod f.rod.toNat) (e.act.map fun l => (e.iss.wave, l)) = true) {set : Nat}
    (hbound : (e.wg.rod f.rod.toNat).bound = some (set, e.part)) (hcore : (e.wg.part e.part).core = e.core)
    (hrod : f.rod.toNat < e.wg.rods.length) (hcheck : b.check e.wg e.part aL bL = none) (hpeb : e.iss.pebbles ≠ 0)
    (hroom : s.mqRoom e.core = true) (hwait : e.wg.waitingBeads f.rod.toNat = []) :
    ∃ t x w g, exec (.mma h f) s = .next t ∧ t.mq = s.mq ++ [x] ∧ x.id = s.nextId ∧ x.core = e.core
      ∧ x.wg = e.iss.wg ∧ x.part = e.part ∧ x.pebbles = e.iss.pebbles
      ∧ x.waves = dedup ((e.wg.rod f.rod.toNat).beads.map (·.1) ++ e.act.map fun _ => e.iss.wave)
      ∧ (∃ k aw bw an bn, x.op = .mma b aL bL k aw bw an bn)
      ∧ t.wg? e.iss.wg = some w ∧ (w.rod f.rod.toNat).beads = [] ∧ (w.rod f.rod.toNat).template = none
      ∧ t.wave? e.iss.wg e.iss.wave = some g ∧ g.cnt.mma = e.w.cnt.mma + 1 ∧ ∀ pa, t.byte pa = s.byte pa := by
  generalize hmine : (e.act.map fun l => (e.iss.wave, l)) = mine at hfull
  generalize hu : s.withBeads e f.rod.toNat b mine = u
  have huw : u.wg? e.iss.wg = some (e.wg.withBeads f.rod.toNat b mine) := hu ▸ State.wg?_withBeads hr.1 f.rod.toNat b mine
  have huv : u.wave? e.iss.wg e.iss.wave = some e.w := hu ▸ State.wave?_withBeads hr.1 f.rod.toNat b mine
  obtain ⟨hxpart, hxcore, hxwaves⟩ := rodEntry_withBeads u.nextId hrod hbound b mine e.iss.wg aL bL e.iss.pebbles
  generalize hx : rodEntry u.nextId (e.wg.withBeads f.rod.toNat b mine) e.iss.wg f.rod.toNat b aL bL e.iss.pebbles = x
    at hxpart hxcore hxwaves
  rw [hcore] at hxcore
  rw [← hmine, List.map_map] at hxwaves
  have hxwg : x.wg = e.iss.wg := hx ▸ rfl
  have huroom : u.mqRoom x.core = true := by rw [hxcore, ← hu]; exact hroom
  have hissue := State.rodIssue_enters (r := f.rod.toNat) (n := e.iss.pebbles) (b := b) (aL := aL) (bL := bL) huw hpeb
    (hx.symm ▸ huroom)
  rw [hx] at hissue
  obtain ⟨w, hw, hbeads, htemp, hthreads⟩ := State.wg?_rodCleared (hxwg ▸ huw) f.rod.toNat
  rw [hxwg] at hw
  have hnowait : w.waitingBeads f.rod.toNat = [] := (Workgroup.waitingBeads_congr hthreads _).trans hwait
  obtain ⟨i, hpush⟩ := State.mqPush_eq (u.rodCleared x f.rod.toNat) x
  rw [hpush, ← hu, ← hmine] at hissue
  have hbody := mmaBody_completes hact hb ha hbL hacc hlanes (hmine ▸ hfull) hcheck hroom hissue (hmine ▸ hu ▸ hw) hnowait htemp
  rw [hmine, hu] at hbody
  have hkeep {γ : Type} (g : State → γ) (hg : ∀ t id f, g (State.modWg t id f) = g t) := State.rodCleared_keeps hg u x f.rod.toNat
  have hrec : (u.rodCleared x f.rod.toNat).recalls = s.recalls := (hkeep State.recalls fun _ _ _ => rfl).trans (hu ▸ rfl)
  have hmq : (u.rodCleared x f.rod.toNat).mq = s.mq := (hkeep State.mq fun _ _ _ => rfl).trans (hu ▸ rfl)
  have hbyte : (u.rodCleared x f.rod.toNat).byte = s.byte := (hkeep State.byte fun _ _ _ => rfl).trans (hu ▸ rfl)
  have hwave := State.wave?_rodCleared u x f.rod.toNat e.iss.wave
  rw [hxwg, huv] at hwave
  have hcount : x.waves.count e.iss.wave = 1 := by
    obtain ⟨l, hl⟩ := List.exists_mem_of_ne_nil _ hact
    exact hxwaves ▸ count_dedup_of_mem (List.mem_append_right _ (List.mem_map.2 ⟨l, hl, rfl⟩))
  refine ⟨_, { x with inj := i }, w, _, memWord_ready hr hh hbody hrec, congrArg (· ++ [{ x with inj := i }]) hmq, ?_, hxcore,
    hxwg, hxpart, ?_, hxwaves, ?_, hw, hbeads, htemp, hwave, congrArg _ hcount, fun pa => congrFun hbyte pa⟩
  · rw [← hx, ← hu]; rfl
  · rw [← hx]; rfl
  · rw [← hx]; exact ⟨_, _, _, _, _, rfl⟩

/-- Settles O28: a bead for each thread, and the operation of the rod they complete. -/
theorem matrixMultiply : Obligations.MatrixMultiply := by
  intro s h e f hh hact hr b r mine aL bL ha hbL hacc hlanes
  refine ⟨fun hfull => ?_, fun set hfull hbound hcore hrod hcheck hpeb hroom hwait =>
    exec_mma_completes hr hh hact rfl ha hbL hacc hlanes hfull hbound hcore hrod hcheck hpeb hroom hwait⟩
  exact memWord_ready hr hh (mmaBody_places hact rfl ha hbL hacc hlanes hfull) rfl

end Sys2Proof.Machine
end

section
/-! PROOFS. The choice of a scheduler partition (O31; R158, R171, R203, R327): the order among ready waves, how the least of them is
found, and the start of its clause. -/
namespace Sys2Proof.Machine

variable {s : State}

/-! The first of a list by keys. -/

theorem keysLess_asymm : ∀ a b : List Nat, keysLess a b = true → keysLess b a = false
  | [], _, h => by simp [keysLess] at h
  | _ :: _, [], h => by simp [keysLess] at h
  | a :: r, b :: q, h => by
    simp only [keysLess, Bool.or_eq_true, Bool.and_eq_true, decide_eq_true_eq] at h
    simp only [keysLess, Bool.or_eq_false_iff, Bool.and_eq_false_iff, decide_eq_false_iff_not]
    rcases h with hlt | ⟨rfl, hrest⟩
    · exact ⟨by omega, .inl (by omega)⟩
    · exact ⟨by omega, .inr (keysLess_asymm r q hrest)⟩

theorem mem_of_firstBy {α : Type} {keys : α → List Nat} : ∀ {l : List α} {a : α}, firstBy keys l = some a → a ∈ l
  | [], _, h => by simp [firstBy] at h
  | x :: r, a, h => by
    rw [firstBy] at h
    split at h
    · cases h; exact List.mem_cons_self
    · next b hb =>
      split at h <;> cases h
      · exact List.mem_cons_of_mem _ (mem_of_firstBy hb)
      · exact List.mem_cons_self

/-- An element that comes before all others is the first. -/
theorem firstBy_eq_of_least {α : Type} {keys : α → List Nat} {a : α} : ∀ {l : List α}, a ∈ l →
    (∀ b ∈ l, b ≠ a → keysLess (keys a) (keys b) = true) → firstBy keys l = some a
  | [], ha, _ => nomatch ha
  | x :: r, ha, hleast => by
    have hrest := fun b hb => hleast b (List.mem_cons_of_mem x hb)
    rw [firstBy]
    by_cases har : a ∈ r
    · rw [firstBy_eq_of_least har hrest]
      dsimp only
      split
      · rfl
      · next hno =>
        by_contra hne
        exact hno (hleast x List.mem_cons_self fun hx => hne (congrArg some hx))
    · obtain rfl : a = x := (List.mem_cons.1 ha).resolve_right har
      split
      · rfl
      · next b hb =>
        have hbr := mem_of_firstBy hb
        have hba : b ≠ a := by rintro rfl; exact har hbr
        rw [keysLess_asymm _ _ (hrest b hbr hba)]
        rfl

/-! The order among ready waves (R203, R327). -/

/-- The clk from which a wave has been ready, where that is 4,096 clk ago (R327). -/
def State.dueAt (s : State) (v : Wave) : Option Nat := v.readySince.filter fun t => t + 4096 ≤ s.clk

theorem State.dueAt_eq_some (v : Wave) (t : Nat) : s.dueAt v = some t ↔ v.readySince = some t ∧ t + 4096 ≤ s.clk := by
  simp [State.dueAt, Option.filter_eq_some_iff]

/-- A YIELD excludes the wave (R203). -/
def State.isLate (s : State) (v : Wave) : Bool := v.yieldTo.any fun t => s.clk < t

theorem State.isLate_iff (v : Wave) : s.isLate v = true ↔ ∃ t, v.yieldTo = some t ∧ s.clk < t := by
  rw [State.isLate]
  cases v.yieldTo <;> simp

theorem State.rank_eq (w : Workgroup) (v : Wave) : s.rank w v = (s.isLate v).toNat ::
    (match s.dueAt v with
      | some t => [0, t, v.readyAt, v.slot]
      | none => [1, 7 - w.prio, v.readyAt, v.slot]) := by
  have hlate : (if (v.yieldTo.any fun t => s.clk < t) = true then 1 else 0) = (s.isLate v).toNat := by
    rw [← State.isLate]; cases s.isLate v <;> rfl
  rw [State.rank, hlate, State.dueAt]
  cases v.readySince with
  | none => rfl
  | some t => by_cases ht : t + 4096 ≤ s.clk <;> simp [ht, Option.filter_some]

/-- The order of `State.goesBefore` is that of the ranks. -/
theorem State.keysLess_rank {y z : Workgroup × Nat × Wave} (hprio : y.1.prio ≤ 7) (h : s.goesBefore y z) :
    keysLess (s.rank y.1 y.2.2) (s.rank z.1 z.2.2) = true := by
  simp only [State.goesBefore, ← State.isLate_iff, ← State.dueAt_eq_some] at h
  rw [State.rank_eq, State.rank_eq, keysLess, Bool.or_eq_true, Bool.and_eq_true, decide_eq_true_eq, decide_eq_true_eq]
  rcases h with ⟨hy, hz⟩ | ⟨hsame, hrest⟩
  · exact .inl (by simp [hy, hz])
  · refine .inr ⟨congrArg _ (Bool.eq_iff_iff.2 hsame), ?_⟩
    cases hdy : s.dueAt y.2.2 with
    | some a =>
      cases hdz : s.dueAt z.2.2 with
      | some b => simp [hdy, hdz, keysLess] at hrest ⊢; omega
      | none => rfl
    | none =>
      cases hdz : s.dueAt z.2.2 with
      | some b => simp [hdy, hdz] at hrest
      | none => simp [hdy, hdz, keysLess] at hrest ⊢; omega

/-! Finding out which waves are ready. -/

theorem State.dropAsk_none (ha : s.asks = []) (wg k : Nat) (keep : Ask → Bool) : s.dropAsk wg k keep = s := by
  rw [State.dropAsk, ha, List.filter_nil, ← ha]

/-- A wave that needs no pebbles is ready where no request for them stands (R158, R283). -/
theorem State.pebReady_free (ha : s.asks = []) (wg k : Nat) (v : Wave) {c : Option Cand} (hc : ∀ x, c = some x → x.cost = none) :
    s.pebReady wg k v c = (c.isSome, s) := by
  cases c with
  | none => rw [State.pebReady, State.dropAsk_none ha]; rfl
  | some x => simp only [State.pebReady, hc x rfl, State.dropAsk_none ha]; rfl

theorem State.candidate_names {w : Workgroup} {k : Nat} {v : Wave} {c : Cand} (hc : (s.candidate w k v).1 = some c) :
    c.wg = w.id ∧ c.wave = k := by
  simp only [State.candidate] at hc
  split at hc
  · cases hc
  · split at hc
    · cases hc
    · next g pc _ =>
      generalize (if pc.mid = true then pc.word.toNat else 0) = at_ at hc
      split at hc
      · cases hc
      · cases hc; exact ⟨rfl, rfl⟩
      · split at hc
        · cases hc; exact ⟨rfl, rfl⟩
        · split at hc <;> cases hc
          exact ⟨rfl, rfl⟩

/-- The candidates of some waves, each with its rank. -/
def State.ranked (s : State) (l : List (Workgroup × Nat × Wave)) : List (List Nat × Cand) :=
  l.flatMap fun y => ((s.candidate y.1 y.2.1 y.2.2).1.toList).map fun c => (s.rank y.1 y.2.2, c)

theorem State.mem_ranked {l : List (Workgroup × Nat × Wave)} {x : List Nat × Cand} :
    x ∈ s.ranked l ↔ ∃ y ∈ l, (s.candidate y.1 y.2.1 y.2.2).1 = some x.2 ∧ x.1 = s.rank y.1 y.2.2 := by
  simp only [State.ranked, List.mem_flatMap, List.mem_map, Option.mem_toList]
  constructor
  · rintro ⟨y, hy, c, hc, rfl⟩; exact ⟨y, hy, hc, rfl⟩
  · rintro ⟨y, hy, hc, hr⟩; exact ⟨y, hy, x.2, hc, by rw [← hr]⟩

/-- One wave more is looked at (R158). -/
def State.rankStep (s : State) (x : List (List Nat × Cand) × State) (y : Workgroup × Nat × Wave) : List (List Nat × Cand) × State :=
  let c := x.2.candidate y.1 y.2.1 y.2.2
  let ok := c.2.pebReady y.1.id y.2.1 y.2.2 c.1
  (x.1 ++ (if ok.1 then c.1.toList.map fun c => (s.rank y.1 y.2.2, c) else []), ok.2)

/-- The first by rank of the waves that were found ready begins its clause. -/
def State.chooseAmong (core part : Nat) (x : List (List Nat × Cand) × State) : State :=
  match firstBy (fun y => y.1) x.1 with
  | none => x.2
  | some y => x.2.startClause core part y.2 (match y.2.cost with
      | some cost => min cost x.2.pebTotal
      | none => 0)

theorem State.selectClause_idle {core part : Nat} (hidle : ∀ x ∈ s.running, ¬(x.core = core ∧ x.part = part)) :
    s.selectClause core part = State.chooseAmong core part ((s.partWaves core part).foldl s.rankStep ([], s)) := by
  have hnone : (s.running.any fun c => decide (c.core = core) && decide (c.part = part)) = false := by
    rw [List.any_eq_false]
    intro c hc
    simpa using hidle c hc
  rw [State.selectClause, hnone]
  rfl

/-- Where finding candidates changes nothing and none asks for pebbles, the choice is among all candidates. -/
theorem State.foldl_rankStep (ha : s.asks = []) {l : List (Workgroup × Nat × Wave)} (hsame : ∀ y ∈ l, (s.candidate y.1 y.2.1 y.2.2).2 = s)
    (hcost : ∀ y ∈ l, ∀ c, (s.candidate y.1 y.2.1 y.2.2).1 = some c → c.cost = none) (acc : List (List Nat × Cand)) :
    l.foldl s.rankStep (acc, s) = (acc ++ s.ranked l, s) := by
  induction l generalizing acc with
  | nil => simp [State.ranked]
  | cons y r ih =>
    have hpeb := State.pebReady_free ha y.1.id y.2.1 y.2.2 (hcost y List.mem_cons_self)
    rw [List.foldl_cons, State.rankStep]
    dsimp only
    rw [hsame y List.mem_cons_self, hpeb, ih (fun z hz => hsame z (List.mem_cons_of_mem y hz)) fun z hz => hcost z (List.mem_cons_of_mem y hz)]
    cases hc : (s.candidate y.1 y.2.1 y.2.2).1 <;> simp [State.ranked, hc]

theorem State.selectClause_eq {core part : Nat} (hidle : ∀ x ∈ s.running, ¬(x.core = core ∧ x.part = part)) (ha : s.asks = [])
    (hsame : ∀ y ∈ s.partWaves core part, (s.candidate y.1 y.2.1 y.2.2).2 = s)
    (hcost : ∀ y ∈ s.partWaves core part, ∀ c, (s.candidate y.1 y.2.1 y.2.2).1 = some c → c.cost = none) :
    s.selectClause core part = State.chooseAmong core part (s.ranked (s.partWaves core part), s) := by
  rw [State.selectClause_idle hidle, State.foldl_rankStep ha hsame hcost, List.nil_append]

theorem State.chooseAmong_none (core part : Nat) : State.chooseAmong core part ([], s) = s := rfl

theorem State.chooseAmong_first {core part : Nat} {l : List (List Nat × Cand)} {r : List Nat} {c : Cand}
    (h : firstBy (fun y => y.1) l = some (r, c)) (hcost : c.cost = none) :
    State.chooseAmong core part (l, s) = s.startClause core part c 0 := by
  rw [State.chooseAmong, h]
  dsimp only
  rw [hcost]

/-! The start of the chosen clause (R158, R171). -/

theorem State.mem_partWaves {core part k : Nat} {w : Workgroup} {v : Wave} (h : (w, k, v) ∈ s.partWaves core part) :
    w ∈ s.wgs ∧ w.waves[k]? = some v := by
  simp only [State.partWaves, List.mem_flatMap, List.mem_filterMap, List.mem_filter] at h
  obtain ⟨w', ⟨hw, -⟩, k', -, hv⟩ := h
  split at hv
  · next v' hv' =>
    split at hv <;> cases hv
    exact ⟨hw, hv'⟩
  · cases hv

/-- Starve counts when a clause with threads `g` is chosen (R158). -/
def Wave.starved (v : Wave) (g : BitVec 64) : Wave :=
  { v with threads := v.threads.mapIdx fun l t =>
      if bitAt g l then { t with starve := 0 }
      else if t.status = .eligible then { t with starve := min 512 (t.starve + 1) } else t }

/-- The clause that a candidate's choice begins. -/
def State.chosen (s : State) (core part : Nat) (c : Cand) (pebbles : Nat) : Issue :=
  { core := core, part := part, wg := c.wg, wave := c.wave, all := c.group, group := c.group, addr := c.pc.addr,
    hdr := c.hdr, words := c.words, idx := if c.pc.mid then c.pc.word.toNat else 0, readyAt := s.clk,
    chk := s.rf (rCORE_CHK core) 0 1 = 1, reserved := c.copies, pebbles := pebbles }

theorem State.startClause_eq {core part pebbles : Nat} {c : Cand} (ha : s.asks = []) (ht : c.trap = none) :
    s.startClause core part c pebbles =
      { s.modWave c.wg c.wave fun v => Wave.starved { v with readyAt := s.clk, readySince := none, yieldTo := none } c.group with
        running := s.running ++ [s.chosen core part c pebbles] } := by
  rw [State.startClause, ht, State.dropAsk_none ha]
  dsimp only
  rw [State.modWave_modWave]
  rfl

theorem Wave.thread_starved (v : Wave) (g : BitVec 64) {l : Nat} (hl : l < v.threads.length) :
    (v.starved g).thread l = if bitAt g l then { v.thread l with starve := 0 }
      else if (v.thread l).status = .eligible then { v.thread l with starve := min 512 ((v.thread l).starve + 1) } else v.thread l := by
  rw [Wave.starved, Wave.thread_mapIdx, if_pos hl]

/-! Registers do not depend on where threads stand. -/

/-- What registers are read from. -/
def Wave.regFile (w : Wave) : SMap (BitVec 32) × SMap Word × List (BitVec 7) := (w.vregs, w.sregs, w.threads.map (·.preds))

theorem Wave.preds_thread (w : Wave) (l : Nat) :
    (w.thread l).preds = (w.threads.map (·.preds)).getD l (Thread.preds { pc := ⟨0, 0, false⟩, status := .exited }) := by
  rw [Wave.thread, List.getD_map]

theorem Wave.reg_of_regFile {u v : Wave} (h : u.regFile = v.regFile) (r : Reg) (l : Nat) : u.reg r l = v.reg r l := by
  simp only [Wave.regFile, Prod.mk.injEq] at h
  obtain ⟨hv, hs, hp⟩ := h
  cases r <;> simp only [Wave.reg, Wave.v, Wave.s, Wave.p, Wave.preds_thread, hv, hs, hp]

theorem Wave.regFile_mapIdx (w : Wave) {f : Nat → Thread → Thread} (hf : ∀ l t, (f l t).preds = t.preds) :
    Wave.regFile { w with threads := w.threads.mapIdx f } = w.regFile := by
  have hpreds : (w.threads.mapIdx f).map (·.preds) = w.threads.map (·.preds) := List.ext_getElem? fun i => by
    rw [List.getElem?_map, List.getElem?_mapIdx, Option.map_map, List.getElem?_map]
    exact congrArg (Option.map · _) (funext fun t => hf i t)
  rw [Wave.regFile, Wave.regFile, hpreds]

theorem Wave.regFile_starved (v : Wave) (g : BitVec 64) : (v.starved g).regFile = v.regFile :=
  v.regFile_mapIdx fun l t => by split <;> [rfl; (split <;> rfl)]

theorem exec_clauseSelect {core part : Nat} {t : State} (hrec : s.recalls = []) (ht : s.selectClause core part = t)
    (hq : t.recalls = s.recalls) : exec (.clauseSelect core part) s = .next t :=
  congrArg Host.Outcome.next (State.transact_eq hrec ht (hq.trans hrec))

/-- The wave that goes before all other ready ones is chosen. -/
theorem State.firstBy_ranked {core part k : Nat} {w : Workgroup} {v : Wave} {c : Cand} (hprio : w.prio ≤ 7)
    (hmem : (w, k, v) ∈ s.partWaves core part) (hc : (s.candidate w k v).1 = some c)
    (hfirst : ∀ z ∈ s.partWaves core part, (s.candidate z.1 z.2.1 z.2.2).1 ≠ none → z ≠ (w, k, v) → s.goesBefore (w, k, v) z) :
    firstBy (fun x => x.1) (s.ranked (s.partWaves core part)) = some (s.rank w v, c) := by
  refine firstBy_eq_of_least (State.mem_ranked.2 ⟨_, hmem, hc, rfl⟩) fun b hb hne => ?_
  obtain ⟨z, hz, hcz, hr⟩ := State.mem_ranked.1 hb
  have hzne : z ≠ (w, k, v) := by
    rintro rfl
    exact hne (Prod.ext hr (Option.some.inj (hcz.symm.trans hc)))
  rw [hr]
  exact State.keysLess_rank (y := (w, k, v)) hprio (hfirst z hz (by rw [hcz]; exact nofun) hzne)

/-- CLAUSE_SELECT on an idle partition. -/
theorem clauseSelect_spec {core part : Nat} (hrec : s.recalls = []) (hidle : ∀ x ∈ s.running, ¬(x.core = core ∧ x.part = part))
    (ha : s.asks = []) (hwgs : ∀ w ∈ s.wgs, w.prio ≤ 7 ∧ s.wg? w.id = some w)
    (hsame : ∀ y ∈ s.partWaves core part, (s.candidate y.1 y.2.1 y.2.2).2 = s)
    (hcost : ∀ y ∈ s.partWaves core part, ∀ c, (s.candidate y.1 y.2.1 y.2.2).1 = some c → c.cost = none) :
    ((∀ y ∈ s.partWaves core part, (s.candidate y.1 y.2.1 y.2.2).1 = none) → exec (.clauseSelect core part) s = .next s)
    ∧ ∀ w k v c, (w, k, v) ∈ s.partWaves core part → (s.candidate w k v).1 = some c → c.trap = none →
      (∀ z ∈ s.partWaves core part, (s.candidate z.1 z.2.1 z.2.2).1 ≠ none → z ≠ (w, k, v) → s.goesBefore (w, k, v) z) →
      ∃ t i u, exec (.clauseSelect core part) s = .next t ∧ t.running = s.running ++ [i] ∧ i.core = core ∧ i.part = part
        ∧ i.wg = w.id ∧ i.wave = k ∧ i.all = c.group ∧ i.group = c.group ∧ i.addr = c.pc.addr ∧ i.hdr = c.hdr
        ∧ i.words = c.words ∧ i.idx = (if c.pc.mid then c.pc.word.toNat else 0) ∧ i.reserved = c.copies ∧ i.await = none
        ∧ t.wave? w.id k = some u
        ∧ (∀ l, l < v.threads.length → u.thread l =
            if bitAt c.group l then { v.thread l with starve := 0 }
            else if (v.thread l).status = .eligible then { v.thread l with starve := min 512 ((v.thread l).starve + 1) }
            else v.thread l)
        ∧ (∀ r l, u.reg r l = v.reg r l) ∧ (∀ pa, t.byte pa = s.byte pa) ∧ ∀ o, t.reg o = s.reg o := by
  have hsel := State.selectClause_eq hidle ha hsame hcost
  refine ⟨fun hnone => ?_, fun w k v c hmem hc htrap hfirst => ?_⟩
  · have hempty : s.ranked (s.partWaves core part) = [] := List.eq_nil_iff_forall_not_mem.2 fun x hx => by
      obtain ⟨y, hy, hcy, -⟩ := State.mem_ranked.1 hx
      rw [hnone y hy] at hcy
      cases hcy
    rw [hempty, State.chooseAmong_none] at hsel
    exact exec_clauseSelect hrec hsel rfl
  · obtain ⟨hw, hv⟩ := State.mem_partWaves hmem
    obtain ⟨hprio, hwg⟩ := hwgs w hw
    obtain ⟨hcwg, hcwave⟩ := State.candidate_names hc
    rw [State.chooseAmong_first (State.firstBy_ranked hprio hmem hc hfirst) (hcost _ hmem c hc), State.startClause_eq ha htrap, hcwg,
      hcwave] at hsel
    have hwave : s.wave? w.id k = some v := by rw [State.wave?, hwg]; exact hv
    refine ⟨_, s.chosen core part c 0, Wave.starved { v with readyAt := s.clk, readySince := none, yieldTo := none } c.group,
      exec_clauseSelect hrec hsel rfl, rfl, rfl, rfl, hcwg, hcwave, rfl, rfl, rfl, rfl, rfl, rfl, rfl, rfl, ?_,
      fun l hl => Wave.thread_starved _ c.group hl, Wave.reg_of_regFile (Wave.regFile_starved _ c.group), fun _ => rfl, fun _ => rfl⟩
    exact (State.wave?_modWave s w.id k w.id k _).trans (by rw [if_pos ⟨rfl, rfl⟩, hwave]; rfl)

end Sys2Proof.Machine
end

section
/-! PROOFS. The ends of waits (O31): YIELD and SLEEP (R203, R204), a trap that handlers take (R341) and REG_DEADLOCK (R168), and the bound
of a non-pre-emptible region (R213). -/
namespace Sys2Proof.Machine

variable {s : State}

/-! YIELD_EXPIRY and SLEEP_EXPIRY (R203, R204). -/

theorem yieldExpiry_spec {wg k n : Nat} {v : Wave} (hv : s.wave? wg k = some v) (hy : v.yieldTo = some n) (hn : n ≤ s.clk) :
    ∃ t, exec (.yieldExpiry wg k) s = .next t ∧ t.wave? wg k = some { v with yieldTo := none } ∧ Elsewhere s t wg k := by
  refine ⟨_, rfl, ?_, Elsewhere.of_modWave ..⟩
  rw [State.wave?_modWave, if_pos ⟨rfl, rfl⟩, hv, Option.map_some, hy]
  exact congrArg (fun y => some { v with yieldTo := y }) (if_pos hn)

/-- Predicates after a change of one thread. -/
theorem Wave.preds_modThread (w : Wave) (l : Nat) {f : Thread → Thread} {g : BitVec 7 → BitVec 7} (hfg : ∀ t, (f t).preds = g t.preds) :
    (w.modThread l f).threads.map (·.preds) = (w.threads.map (·.preds)).modify l g :=
  List.ext_getElem? fun i => by
    rw [Wave.modThread, List.getElem?_map, List.getElem?_modify, List.getElem?_modify, List.getElem?_map]
    by_cases hi : l = i <;> cases w.threads[i]? <;> simp [hi, hfg]

theorem Wave.regFile_write {u v : Wave} (h : u.regFile = v.regFile) (x : RegWrite) : (u.write x).regFile = (v.write x).regFile := by
  simp only [Wave.regFile, Prod.mk.injEq] at h
  obtain ⟨hv, hs, hp⟩ := h
  cases hr : x.reg with
  | p k =>
    have hset := fun w : Wave => w.preds_modThread x.lane (f := fun t =>
      { t with preds := if x.val = 0 then t.preds &&& ~~~(1#7 <<< k) else t.preds ||| (1#7 <<< k) })
      (g := fun p => if x.val = 0 then p &&& ~~~(1#7 <<< k) else p ||| (1#7 <<< k)) fun _ => rfl
    simp only [Wave.write, hr]
    split
    · simp only [Wave.regFile, hv, hs, hp]
    · rw [Wave.regFile, Wave.regFile, hset, hset, hp]
      exact congrArg₂ (fun a b => (a, b, _)) hv hs
  | _ => simp only [Wave.write, hr, Wave.regFile, hv, hs, hp]

/-- Registers read alike in waves that differ in their threads' standing alone. -/
theorem Wave.seen_of_regFile {u v : Wave} (h : u.regFile = v.regFile) (hp : u.pend = v.pend) (r : Reg) (l : Nat) : u.seen r l = v.seen r l := by
  have hall : ∀ (ws : List RegWrite) {u v : Wave}, u.regFile = v.regFile → (u.writeAll ws).regFile = (v.writeAll ws).regFile := by
    intro ws
    induction ws with
    | nil => exact fun h => h
    | cons x r ih => exact fun h => ih (Wave.regFile_write h x)
  refine Wave.reg_of_regFile ?_ r l
  have hland := hall (v.pend.map (·.w)) h
  rw [Wave.landAll, Wave.landAll, hp]
  exact hland

theorem Wave.regFile_settle (w : Wave) (m : BitVec 64) : (w.settle m).regFile = w.regFile :=
  w.regFile_mapIdx fun l t => by split <;> [rfl; (split <;> rfl)]

theorem Wave.regFile_modThread (w : Wave) (l : Nat) {f : Thread → Thread} (hf : ∀ t, (f t).preds = t.preds) :
    (w.modThread l f).regFile = w.regFile := by
  rw [Wave.regFile, w.preds_modThread l (g := id) hf, List.modify_id]
  rfl

theorem Thread.preds_wakeSleep (clk : Nat) (t : Thread) : (t.wakeSleep clk).preds = t.preds := by
  rw [Thread.wakeSleep]
  split
  · split <;> rfl
  · rfl

theorem Wave.thread_wakeSleep {v : Wave} {lane n : Nat} {clk : Nat} (hl : lane < v.threads.length) (hs : (v.thread lane).status = .waiting)
    (hw : (v.thread lane).waitOn = .sleep n) (hn : n ≤ clk) (l : Nat) :
    (v.modThread lane fun t => t.wakeSleep clk).thread l =
      if l = lane then { v.thread l with status := .eligible, waitOn := .none } else v.thread l := by
  rw [Wave.thread_modThread]
  by_cases h : l = lane
  · subst h
    rw [if_pos ⟨rfl, hl⟩, if_pos rfl, Thread.wakeSleep, hs, hw]
    exact if_pos hn
  · rw [if_neg fun hc => h hc.1.symm, if_neg h]

theorem sleepExpiry_spec {wg k lane n : Nat} {v : Wave} (hv : s.wave? wg k = some v) (hl : lane < v.threads.length)
    (hs : (v.thread lane).status = .waiting) (hw : (v.thread lane).waitOn = .sleep n) (hn : n ≤ s.clk) :
    ∃ t u, exec (.sleepExpiry wg k lane) s = .next t ∧ t.wave? wg k = some u ∧ Elsewhere s t wg k
      ∧ (∀ l, Settles (bitAt (s.runningLanes wg k) l)
          (if l = lane then { v.thread l with status := .eligible, waitOn := .none } else v.thread l) (u.thread l))
      ∧ ∀ r l, u.seen r l = v.seen r l := by
  have hone : (s.modThread wg k lane fun t => t.wakeSleep s.clk).settle wg k
      = s.modWave wg k fun v => (v.modThread lane fun t => t.wakeSleep s.clk).settle (s.runningLanes wg k) :=
    State.modWave_modWave ..
  refine ⟨_, (v.modThread lane fun t => t.wakeSleep s.clk).settle (s.runningLanes wg k), congrArg Host.Outcome.next hone, ?_,
    Elsewhere.of_modWave .., fun l => ?_, Wave.seen_of_regFile ?_ rfl⟩
  · rw [State.wave?_modWave, if_pos ⟨rfl, rfl⟩, hv]; rfl
  · rw [← Wave.thread_wakeSleep hl hs hw hn l]
    exact Wave.settle_settles _ _ l
  · rw [Wave.regFile_settle]
    exact v.regFile_modThread lane (Thread.preds_wakeSleep s.clk)

/-! Threads that enter their handlers together (R341). -/

theorem State.wave?_foldl_modThread (wg k : Nat) (f : Thread → Thread) (ls : List Nat) (s : State) :
    (ls.foldl (fun s l => s.modThread wg k l f) s).wave? wg k
      = (s.wave? wg k).map fun v => ls.foldl (fun v l => v.modThread l f) v := by
  induction ls generalizing s with
  | nil => simp
  | cons a r ih =>
    rw [List.foldl_cons, ih, State.modThread, State.wave?_modWave, if_pos ⟨rfl, rfl⟩, Option.map_map]
    rfl

theorem Wave.thread_foldl_modThread (f : Thread → Thread) {ls : List Nat} (hn : ls.Nodup) (v : Wave) (l : Nat) :
    (ls.foldl (fun v l => v.modThread l f) v).thread l = if l ∈ ls ∧ l < v.threads.length then f (v.thread l) else v.thread l := by
  induction ls generalizing v with
  | nil => simp
  | cons a r ih =>
    obtain ⟨ha, hr⟩ := List.nodup_cons.1 hn
    have hlen : (v.modThread a f).threads.length = v.threads.length := by simp [Wave.modThread]
    rw [List.foldl_cons, ih hr, hlen, Wave.thread_modThread]
    by_cases hl : l = a
    · subst hl; simp [ha]
    · simp [hl, Ne.symm hl]

/-- A TRAP THAT HANDLERS TAKE: of a cause that is not service class, in threads none of which is in its handler. -/
theorem State.takeTrap_enters {wg k : Nat} {w : Workgroup} {v : Wave} (hw : s.wg? wg = some w) (hv : s.wave? wg k = some v)
    {ls : List Nat} {c : Cause} (hc : c.service = false) (word : Word) (tpc : Pc) (lane : Bool)
    (hact : ∀ l ∈ ls, (v.thread l).active = false) (hvec : w.ctx.trapVec ≠ 0) :
    s.takeTrap wg k (ls.map fun l => (l, c, word)) (fun _ => tpc) none lane =
      (ls.foldl (fun s l => s.modThread wg k l fun t => t.enter w.ctx.trapVec c lane false tpc word)
        (s.leaveWave wg k (maskOf ls))).settle wg k := by
  have hue : c ≠ .ue := by rintro rfl; cases hc
  have hlanes : (ls.map fun l => (l, c, word)).map (·.1) = ls := by simp [Function.comp_def]
  have hsvc : ((ls.map fun l => (l, c, word)).filter fun x => x.2.1.service && decide (x.2.1 ≠ .ue)) = [] := by
    rw [List.filter_eq_nil_iff]; simp [hc]
  have hues : ((ls.map fun l => (l, c, word)).filter fun x => decide (x.2.1 = .ue)) = [] := by
    rw [List.filter_eq_nil_iff]; simp [hue]
  have hhnd : ((ls.map fun l => (l, c, word)).filter fun x => !x.2.1.service) = ls.map fun l => (l, c, word) := by
    rw [List.filter_eq_self]; simp [hc]
  have hv0 : (s.leaveWave wg k (maskOf ls)).wave? wg k = some v := hv
  have hinside : ((ls.map fun l => (l, c, word)).filter fun x => (v.thread x.1).active) = [] := by
    rw [List.filter_eq_nil_iff]; simpa using hact
  rw [State.takeTrap, hw]
  dsimp only
  rw [hsvc, hues, hhnd, hlanes]
  simp only [groupPark, List.map_nil, dedup, List.foldl_nil, hv0, hinside, List.head?_nil, if_true, ne_eq, not_true_eq_false, if_false,
    hvec]
  cases ls with
  | nil => rfl
  | cons a r => exact congrArg (State.settle · wg k) List.foldl_map

/-! REG_DEADLOCK (R168). -/

/-- The lanes of a claim that wait for it, those that have parked since among them. -/
def Claim.waiters (c : Claim) (v : Wave) : List Nat :=
  (lanesOf c.lanes).filter fun l => (v.thread l).status = .waiting || (v.thread l).status = .parked

theorem Claim.mem_waiters {c : Claim} {v : Wave} {l : Nat} :
    l ∈ c.waiters v ↔ l < 64 ∧ bitAt c.lanes l = true ∧ ((v.thread l).status = .waiting ∨ (v.thread l).status = .parked) := by
  simp only [Claim.waiters, lanesOf, bitAt, List.mem_filter, List.mem_range, Bool.or_eq_true, decide_eq_true_eq, and_assoc]

theorem Claim.nodup_waiters (c : Claim) (v : Wave) : (c.waiters v).Nodup :=
  List.Pairwise.filter _ (List.Pairwise.filter _ List.nodup_range)

/-- A thread of a claim that a deadlock traps. -/
def Claim.trapped (c : Claim) (vec : BitVec 57) (t : Thread) : Thread := t.enter vec .regDeadlock false false ⟨c.hdr, c.idx, true⟩ c.word

/-- The queue of a part in deadlock is given up, and counted. -/
def State.unqueued (s : State) (wg p core : Nat) : State :=
  (s.modPart wg p fun x => { x with claims := [], deadAt := none }).incRf (rCORE_REGPOOL core) 48 16

/-- The only claim of a part in deadlock traps. -/
theorem State.regDeadlock_traps {wg p : Nat} {w : Workgroup} {v : Wave} {c : Claim} (hw : s.wg? wg = some w) (hfate : w.fate ≠ .ending)
    (hdead : s.deadlocked w p = true) (hc : (w.part p).claims = [c]) (hv : s.wave? wg c.wave = some v) (hvec : w.ctx.trapVec ≠ 0)
    (hact : ∀ l ∈ c.waiters v, (v.thread l).active = false) :
    s.regDeadlock wg p = ((c.waiters v).foldl (fun s l => s.modThread wg c.wave l (c.trapped w.ctx.trapVec))
      ((s.unqueued wg p (w.part p).core).leaveWave wg c.wave (maskOf (c.waiters v)))).settle wg c.wave := by
  have hw1 : (s.unqueued wg p (w.part p).core).wg? wg = some { w with parts := w.parts.modify p fun x => { x with claims := [], deadAt := none } } :=
    (State.wg?_modWg_self s wg (f := fun w => { w with parts := w.parts.modify p fun x => { x with claims := [], deadAt := none } })
      fun _ => rfl).trans (congrArg _ hw)
  have hv1 : (s.unqueued wg p (w.part p).core).wave? wg c.wave = some v := (State.wave?_modPart ..).trans hv
  rw [State.regDeadlock, hw]
  dsimp only
  rw [if_pos (by rw [hdead]; simpa using hfate), hc, List.foldl_cons, List.foldl_nil]
  rw [← State.unqueued, hv1]
  exact State.takeTrap_enters hw1 hv1 rfl c.word ⟨c.hdr, c.idx, true⟩ false hact hvec

theorem regDeadlock_spec {wg p : Nat} {w : Workgroup} {v : Wave} {c : Claim} (hw : s.wg? wg = some w) (hfate : w.fate ≠ .ending)
    (hdead : s.deadlocked w p = true) (hc : (w.part p).claims = [c]) (hv : s.wave? wg c.wave = some v) (hvec : w.ctx.trapVec ≠ 0)
    (hact : ∀ l, bitAt c.lanes l = true → ((v.thread l).status = .waiting ∨ (v.thread l).status = .parked) → (v.thread l).active = false) :
    ∃ t u, exec (.regDeadlock wg p) s = .next t ∧ (t.partOf wg p).claims = [] ∧ t.wave? wg c.wave = some u
      ∧ (∀ l, l < v.threads.length → bitAt c.lanes l = true → ((v.thread l).status = .waiting ∨ (v.thread l).status = .parked) →
        (u.thread l).cause = 31 ∧ (u.thread l).active = true ∧ (u.thread l).tpc = ⟨c.hdr, c.idx, true⟩
          ∧ (u.thread l).tinfo = c.word ∧ (u.thread l).pc = pcAt w.ctx.trapVec ∧ (u.thread l).status = .eligible)
      ∧ ∀ pa, t.byte pa = s.byte pa := by
  have hp : p < w.parts.length := by
    by_contra hge
    have hdef : w.part p = { core := 0 } := by simp [Workgroup.part, List.getD_eq_getElem?_getD, Nat.not_lt.1 hge]
    simp [hdef] at hc
  have htraps := State.regDeadlock_traps hw hfate hdead hc hv hvec fun l hl =>
    hact l (Claim.mem_waiters.1 hl).2.1 (Claim.mem_waiters.1 hl).2.2
  generalize hs0 : (s.unqueued wg p (w.part p).core).leaveWave wg c.wave (maskOf (c.waiters v)) = s0 at htraps
  generalize hs1 : (c.waiters v).foldl (fun s l => s.modThread wg c.wave l (c.trapped w.ctx.trapVec)) s0 = s1 at htraps
  have hv0 : s0.wave? wg c.wave = some v := by rw [← hs0]; exact (State.wave?_modPart ..).trans hv
  have hv1 : s1.wave? wg c.wave = some ((c.waiters v).foldl (fun v l => v.modThread l (c.trapped w.ctx.trapVec)) v) := by
    rw [← hs1, State.wave?_foldl_modThread, hv0]; rfl
  have hpart : s1.partOf wg p = { w.part p with claims := [], deadAt := none } := by
    rw [← hs1]
    refine (foldl_keeps (fun t : State => t.partOf wg p) (fun t l => State.partOf_modWave t wg c.wave _ wg p) _ _).trans ?_
    rw [← hs0]
    exact State.partOf_modPart hw hp _
  have hbyte : s1.byte = s.byte := by
    rw [← hs1]
    refine (foldl_keeps State.byte (fun t l => by rfl) _ _).trans ?_
    rw [← hs0]
    rfl
  refine ⟨_, _, congrArg Host.Outcome.next htraps, ?_, State.wave?_settle hv1, fun l hl hbit hst => ?_, fun pa => ?_⟩
  · rw [State.partOf_settle, hpart]
  · have h64 : l < 64 := by
      by_contra hge
      simp [bitAt, BitVec.getLsbD_of_ge _ _ (Nat.not_lt.1 hge)] at hbit
    have hth := Wave.thread_foldl_modThread (c.trapped w.ctx.trapVec) (c.nodup_waiters v) v l
    rw [if_pos ⟨Claim.mem_waiters.2 ⟨h64, hbit, hst⟩, hl⟩] at hth
    rw [Wave.settle_not_arrived _ (by rw [hth]; rfl), hth]
    exact ⟨rfl, rfl, rfl, rfl, rfl, rfl⟩
  · rw [State.byte_settle, hbyte]

/-! The bound of a region (R213). -/

theorem State.running_drainEntry (s : State) (x : SbEntry) : (s.drainEntry x).running = s.running := by
  rw [State.drainEntry]
  split <;> rfl

theorem State.running_drainCore (s : State) (n : Nat) : (s.drainCore n).running = s.running :=
  foldl_keeps State.running State.running_drainEntry _ s

/-- A save that begins takes the workgroup's clauses out of issue. -/
theorem State.running_startSave {id : Nat} {w : Workgroup} (hw : s.wg? id = some w) (hl : w.fate = .live) :
    ∀ c ∈ (s.startSave id).running, c.wg ≠ id := by
  intro c hc
  rw [State.startSave, hw] at hc
  dsimp only at hc
  rw [if_neg (by simp [hl]), foldl_keeps State.running State.running_drainCore] at hc
  simpa using (List.mem_filter.1 hc).2

theorem State.byte_of_issueless {t : State} (h : t.issueless = s.issueless) : t.byte = s.byte :=
  (congrArg State.byte h :)

/-- What a wave's region is, and whether it was broken, is not told by where its threads stand. -/
theorem State.regions_haltIssue (s : State) (wg id : Nat) :
    ((s.haltIssue wg).wg? id).map (fun w => w.waves.map fun v => (v.region, v.broken))
      = (s.wg? id).map fun w => w.waves.map fun v => (v.region, v.broken) := by
  refine State.haltIssue_keeps (g := fun t => (t.wg? id).map fun w => w.waves.map fun v => (v.region, v.broken)) (fun t k m f => ?_)
    (fun _ _ => rfl) s
  refine State.map_wg?_modWg (g := fun w => w.waves.map fun v => (v.region, v.broken))
    (f := fun w => { w with waves := w.waves.modify k fun v => v.modLanes m f }) (fun _ => rfl) (fun w => List.ext_getElem? fun i => ?_) wg id
  rw [List.getElem?_map, List.getElem?_map, List.getElem?_modify]
  by_cases hk : k = i <;> cases w.waves[i]? <;> simp [hk, Wave.modLanes]

/-- A flagged wave whose bound has run out. -/
def Wave.bounded (v : Wave) : Wave := if v.region && !v.ended then { v with broken := true } else v

theorem Wave.broken_bounded (v : Wave) : (v.bounded.region, v.bounded.broken) = (v.region, v.broken || (v.region && !v.ended)) := by
  rw [Wave.bounded]
  split
  · next h => simp [h]
  · next h => simp [h]

theorem npreemptBoundExpiry_spec {wg n : Nat} {w : Workgroup} (hw : s.wg? wg = some w) (hl : w.fate = .live) (hn : w.npReq = some n)
    (hdue : s.usAfter n (min 8000 (max 1 (s.rf (rSCH_CTL w.ctx.q) 16 13))) ≤ s.clk) :
    ∃ t g, exec (.npreemptBoundExpiry wg) s = .next t ∧ t.wg? wg = some g ∧ g.fate = .saving ∧ g.npReq = none
      ∧ g.saveAt = s.clk ∧ (∀ c ∈ t.running, c.wg ≠ wg)
      ∧ (∀ (k : Nat) (v : Wave), w.waves[k]? = some v → ∃ u : Wave, g.waves[k]? = some u ∧ u.region = v.region
        ∧ u.broken = (v.broken || (v.region && !v.ended)))
      ∧ ∀ pa, t.byte pa = s.byte pa := by
  generalize hs1 : s.modWg wg (fun w => { w with waves := w.waves.map Wave.bounded }) = s1
  have hw1 : s1.wg? wg = some { w with waves := w.waves.map Wave.bounded } := by
    rw [← hs1, State.wg?_modWg_self s wg (by intro w; rfl), hw]; rfl
  have hruns : s.boundRuns wg = s1.startSave wg := by
    rw [State.boundRuns, hw]
    dsimp only
    rw [hn]
    dsimp only
    rw [if_neg (Nat.not_lt.2 hdue), ← hs1]
    rfl
  have hhalt := State.regions_haltIssue s1 wg wg
  rw [hw1] at hhalt
  obtain ⟨g, hg⟩ : ∃ g, (s1.haltIssue wg).wg? wg = some g :=
    Option.isSome_iff_exists.1 (by rw [State.isSome_wg?_haltIssue, hw1]; rfl)
  rw [hg, Option.map_some, Option.map_some, Option.some.injEq, List.map_map] at hhalt
  have hsave : (s1.startSave wg).wg? wg = some (g.toSaving s1.clk) := by
    rw [State.wg?, State.wgs_startSave hw1 hl]
    exact ((s1.haltIssue wg).wg?_modWg_self wg (f := Workgroup.toSaving s1.clk) fun _ => rfl).trans (by rw [hg]; rfl)
  refine ⟨_, g.toSaving s1.clk, congrArg Host.Outcome.next hruns, hsave, rfl, rfl, by rw [← hs1]; rfl, State.running_startSave hw1 hl,
    fun k v hv => ?_, fun pa => ?_⟩
  · have hk := congrArg (fun l : List (Bool × Bool) => l[k]?) hhalt
    simp only [List.getElem?_map, hv, Option.map_some, Option.map_eq_some_iff, Function.comp, Wave.broken_bounded, Prod.mk.injEq] at hk
    exact hk
  · rw [State.byte_of_issueless (s1.issueless_startSave wg), ← hs1]
    rfl

/-- Settles O31, event by event. -/
theorem clausesAndWaits : Obligations.ClausesAndWaits :=
  ⟨⟨fun _ _ _ hrec hidle ha hwgs hsame hcost =>
      clauseSelect_spec hrec hidle ha hwgs hsame hcost,
    fun _ _ _ _ _ hv hy hn => yieldExpiry_spec hv hy hn,
    fun _ _ _ _ _ _ hv hl hs hw hn => sleepExpiry_spec hv hl hs hw hn⟩,
  fun _ _ _ _ _ _ hw hfate hdead hc hv hvec hact => regDeadlock_spec hw hfate hdead hc hv hvec hact,
  fun _ _ _ _ hw hl hn hdue => npreemptBoundExpiry_spec hw hl hn hdue⟩

end Sys2Proof.Machine
end

section
/-! PROOFS. Traps that a word takes of itself (O12): BKPT and TRAP enter the handler with what the thread still waits for (R205,
R341, log 73). -/
namespace Sys2Proof.Machine

variable {s : State} {h : Hdr} {e : Env}

theorem Settles.waitOn {b : Bool} {x y : Thread} (h : Settles b x y) : y.waitOn = x.waitOn := by
  rcases h with rfl | ⟨-, rfl | rfl⟩ <;> rfl

/-- A trap by a code (R205) that handlers take. -/
theorem State.codeTrap_enters (he : s.env? h = some e) (hne : e.act ≠ []) {c : Cause} (hc : c.service = false) (code : Word)
    (hact : ∀ l ∈ e.act, (e.w.thread l).active = false) (hvec : e.wg.ctx.trapVec ≠ 0) :
    s.codeTrap e c code =
      (e.act.foldl (fun s l => s.modThread e.iss.wg e.iss.wave l fun t =>
          t.enter e.wg.ctx.trapVec c false false e.iss.nxtPc code)
        (s.leaveWave e.iss.wg e.iss.wave (maskOf e.act))).settle e.iss.wg e.iss.wave := by
  obtain ⟨-, hwg, -⟩ := State.env?_some he
  rw [State.codeTrap, if_neg hne]
  exact State.takeTrap_enters hwg (State.env?_wave he) hc code e.iss.nxtPc false hact hvec

/-- A thread that enters its handler by a code keeps its place on a rod (log 73). -/
theorem State.codeTrap_waitOn (he : s.env? h = some e) {c : Cause} (hc : c.service = false) (code : Word)
    (hact : ∀ l ∈ e.act, (e.w.thread l).active = false) (hvec : e.wg.ctx.trapVec ≠ 0) {l : Nat} (hl : l ∈ e.act) :
    ∃ v, (s.codeTrap e c code).wave? e.iss.wg e.iss.wave = some v ∧ (v.thread l).waitOn = (e.w.thread l).waitOn.kept := by
  obtain ⟨hnodup, hlanes⟩ := State.env?_act he
  have hleft : (s.leaveWave e.iss.wg e.iss.wave (maskOf e.act)).wave? e.iss.wg e.iss.wave = some e.w :=
    (State.env?_wave he :)
  have hentered := State.wave?_foldl_modThread e.iss.wg e.iss.wave
    (fun t => t.enter e.wg.ctx.trapVec c false false e.iss.nxtPc code) e.act (s.leaveWave e.iss.wg e.iss.wave (maskOf e.act))
  rw [hleft, Option.map_some] at hentered
  rw [State.codeTrap_enters he (List.ne_nil_of_mem hl) hc code hact hvec]
  refine ⟨_, State.wave?_settle hentered, ?_⟩
  rw [(Wave.settle_settles _ _ l).waitOn, Wave.thread_foldl_modThread _ hnodup, if_pos ⟨hl, (hlanes l hl).2⟩]
  rfl

theorem State.recalls_codeTrap (he : s.env? h = some e) {c : Cause} (hc : c.service = false) (code : Word)
    (hact : ∀ l ∈ e.act, (e.w.thread l).active = false) (hvec : e.wg.ctx.trapVec ≠ 0) :
    (s.codeTrap e c code).recalls = s.recalls := by
  by_cases hne : e.act = []
  · rw [State.codeTrap, if_pos hne]
  · rw [State.codeTrap_enters he hne hc code hact hvec, State.recalls_settle]
    exact foldl_keeps State.recalls (fun t l => by rfl) e.act _

theorem exec_bkpt {f : IF} (hr : Ready s h none (usesOf (.bkpt h f)) e) (hact : ∀ l ∈ e.act, (e.w.thread l).active = false)
    (hvec : e.wg.ctx.trapVec ≠ 0) :
    exec (.bkpt h f) s = .next (s.codeTrap e .breakpoint (f.imm.setWidth 64 &&& 0xFFFF)) :=
  word_ready_quiet hr _ (State.recalls_codeTrap hr.1 rfl _ hact hvec)

/-! `bkpt 0`, about to issue in a thread that is outside its handler while its bead still waits for rod 0: such a thread parked as it
waited, entered its handler by DELIVER, and left it by TRAPRET. -/

def bkptHdr : Hdr := ⟨0, false, 7⟩
def bkptFields : IF := ⟨0, 0, 0⟩
def beadWait : WaitOn := .bead 0 ⟨0, 0, 0, 0, 0, 0, 0⟩ ⟨0, 0, true⟩
def bkptWave : Wave :=
  { role := .matrix, part := 0, slot := 0, n := 8, threads := [{ pc := ⟨0, 0, true⟩, status := .eligible, waitOn := beadWait }] }
def bkptWorkgroup : Workgroup :=
  { id := 1, recId := 0, ref := 0, wg := 0, prio := 0, threads := 1, parts := [{ core := 0 }], rods := List.replicate 16 {},
    ctx := { num := 0, q := 0, world := false, system := false, asid := 1, layout := 0, save := 0, trapVec := 8, queues := 0,
             prioMax := 0 }
    waves := [bkptWave] }
def bkptEnv : Env :=
  { iss := { core := 0, part := 0, wg := 1, wave := 0, all := 1, group := 1, addr := 0, hdr := 0, words := [] }
    wg := bkptWorkgroup, w := bkptWave, act := [0], clk := 0 }
def bkptState : State := { nextId := 2, wgs := [bkptWorkgroup], running := [bkptEnv.iss] }

theorem bkptState_ready : Ready bkptState bkptHdr none (usesOf (.bkpt bkptHdr bkptFields)) bkptEnv := by decide +kernel

theorem bkptEnv_outside : ∀ l ∈ bkptEnv.act, (bkptEnv.w.thread l).active = false := by decide

/-- Refutes O12: a thread whose bead still waits for a rod enters the handler with that wait kept (log 73), where the statement has
every thread that enters wait for nothing; its hypotheses do not ask that the threads wait for nothing. -/
theorem not_trapsAndReturns : ¬ Obligations.TrapsAndReturns := by
  intro h
  obtain ⟨htraps, -⟩ := h
  obtain ⟨henters, -⟩ := htraps bkptState bkptHdr bkptEnv
  obtain ⟨hbkpt, -⟩ := henters bkptFields (by decide) bkptEnv_outside (by decide)
  obtain ⟨t, v, hx, hv, -, -, hthreads, -⟩ := hbkpt bkptState_ready
  rw [exec_bkpt bkptState_ready bkptEnv_outside (by decide)] at hx
  cases hx
  have hmem : 0 ∈ bkptEnv.act := by decide
  obtain ⟨u, hu, hkept⟩ := State.codeTrap_waitOn bkptState_ready.1 (c := .breakpoint) rfl (bkptFields.imm.setWidth 64 &&& 0xFFFF)
    bkptEnv_outside (by decide) hmem
  cases hv.symm.trans hu
  have hnone := (hthreads 0).waitOn
  rw [if_pos hmem, hkept] at hnone
  exact absurd hnone (by decide)

end Sys2Proof.Machine
end

section
/-! PROOFS. Words printed in the spec (O55): each is the encoding of the instruction printed beside it. -/
namespace Sys2Proof

/-- The word of a well-formed instruction, as a table of words holds it, decodes to it (R171, R175). -/
theorem decodeTableWord_of_encode {i : Instr} {w : Nat} (hwf : i.wellFormed = true) (henc : encode i = some (BitVec.ofNat 64 w)) :
    decodeTableWord 64 w = some i := by
  obtain ⟨hdecodes, -⟩ := decodeAndEncodeAgree
  have hw : BitVec.ofNat 64 (w % 2 ^ 64) = BitVec.ofNat 64 w := BitVec.eq_of_toNat_eq (by simp)
  have hdec := decode_bytesOfWord (hdecodes i hwf _ henc) []
  rw [List.append_nil] at hdec
  rw [decodeTableWord, hw, hdec]

/-- Settles O55: each instruction is well formed, and its encoding is the word; the header by its fields. -/
theorem wordsDecode : Obligations.WordsDecode :=
  ⟨decodeTableWord_of_encode rfl rfl, decodeTableWord_of_encode rfl rfl, decodeTableWord_of_encode rfl rfl,
    decodeTableWord_of_encode rfl rfl, decodeTableWord_of_encode rfl rfl, decodeTableWord_of_encode rfl rfl,
    decodeTableWord_of_encode rfl rfl, decodeTableWord_of_encode rfl rfl, decodeTableWord_of_encode rfl rfl, by decide⟩

end Sys2Proof
end

section
/-! PROOFS. The moves of the machine (O56): what a step does with the head of the agenda (R171, R182, R185, log 1). -/
namespace Sys2Proof.Machine

variable {s : State}

/-- A step makes the move that the agenda asks for. -/
theorem step_of_agenda {m : Move} {r : List Move} (h : s.agenda = m :: r) : step s = State.move { s with agenda := r } m := by
  rw [step, State.nextOf, h]

/-! The issue of a word. -/

/-- What the decoder reads from a word's bytes is the word decoded. -/
theorem decode_bytesOfWord_eq (w : Word) :
    decode (bytesOfWord w) = (decodeWord w).map fun i => (i, []) := by
  simp only [bytesOfWord, decode, wordOfBytes_bytesOfWord]
  cases decodeWord w <;> rfl

theorem State.issue_decoded {c : Issue} {i : Instr} (h : decode (bytesOfWord c.word) = .ok (i, [])) (s : State) : s.issue c = exec i s := by
  rw [decode_bytesOfWord_eq] at h
  rw [State.issue]
  cases hd : decodeWord c.word with
  | ok j => rw [hd] at h; cases h; rfl
  | error x => rw [hd] at h; cases h

theorem State.issue_illegalEnc {c : Issue} (h : decode (bytesOfWord c.word) = .error .illegalEnc) (s : State) :
    s.issue c = .next (s.groupTrap .illegalEnc) := by
  rw [decode_bytesOfWord_eq] at h
  rw [State.issue]
  cases hd : decodeWord c.word with
  | ok j => rw [hd] at h; cases h
  | error x => rfl

/-- The state in which a clause's next word issues: no earlier than R185 allows it. -/
def State.atIssue (s : State) (c : Issue) : State := if s.clk < c.readyAt then s.passTo c.readyAt else s

section Word
variable {core part : Nat} {c : Issue} {s1 : State}

theorem State.moveWord_unfocused (h : s.focus core part = none) : s.moveWord core part = .next s := by
  rw [State.moveWord, h]

theorem State.moveWord_left (h : s.focus core part = some (c, s1)) (hg : c.group = 0) :
    s.moveWord core part = .next (s1.endWord core part).closeStep := by
  rw [State.moveWord, h]
  exact if_pos hg

/-- A word that issues: what its issue answers, and then its end. -/
theorem State.moveWord_issues (h : s.focus core part = some (c, s1)) (hg : c.group ≠ 0) :
    s.moveWord core part = match (s1.atIssue c).issue c with
      | .next t => .next (((s1.atIssue c).wordRecalls t).endWord core part).closeStep
      | .fault r => .fault r
      | .refused r => .refused r := by
  rw [State.moveWord, h]
  exact if_neg hg

end Word

/-! An event. -/

theorem State.moveEvent_barred {i : Instr} (h : encode i ≠ none ∨ s.admits i = false) : s.moveEvent i = .next s := by
  refine if_pos ?_
  rcases h with hword | hshut
  · simp [Instr.isEvent, Option.isSome_iff_ne_none.2 hword]
  · simp [hshut]

theorem State.moveEvent_admitted {i : Instr} (hevent : encode i = none) (hadm : s.admits i = true) :
    s.moveEvent i = match exec i { s with recalls := [] } with
      | .next t => .next ((s.eventRecalls t i).unblock).closeStep
      | .fault r => .fault r
      | .refused r => .refused r :=
  if_neg (by simp [Instr.isEvent, hevent, hadm])

/-- Settles O56, move by move. -/
theorem stepRunsTheDecodedInstruction : Obligations.StepRunsTheDecodedInstruction := by
  intro s r
  refine ⟨fun core part ha => ?_, fun i ha => ?_, fun n ha => step_of_agenda ha, fun q base ha => step_of_agenda ha⟩
  · rw [step_of_agenda ha, State.move]
    refine ⟨State.moveWord_unfocused, fun c s1 hf => ⟨State.moveWord_left hf, fun hg i hd => ?_, fun hg hd => ?_⟩⟩
    · rw [State.moveWord_issues hf hg, State.issue_decoded hd]
      refine ⟨fun t hx => ?_, fun x hx => ?_, fun x hx => ?_⟩ <;> rw [State.atIssue, hx]
    · rw [State.moveWord_issues hf hg, State.issue_illegalEnc hd]
      rfl
  · rw [step_of_agenda ha, State.move]
    refine ⟨State.moveEvent_barred, fun hevent hadm => ?_⟩
    rw [State.moveEvent_admitted hevent hadm]
    refine ⟨fun t hx => ?_, fun x hx => ?_, fun x hx => ?_⟩ <;> rw [hx]

end Sys2Proof.Machine
end

section
/-! PROOFS. Branches, calls and returns (O9): the link pair as a destination, and words whose threads leave for their targets (R197 to
R199). -/
namespace Sys2Proof.Machine

variable {s : State} {h : Hdr} {e : Env} {i : Instr} {u : Uses} {body : Env → State → State}

/-! The link (R198). -/

/-- The destination of a link, as that of an arithmetic word of 64 bits in a vector pair. -/
def linkForm (d : Byte) : AF :=
  { d := d, a := 0, b := 0, c := 0, u := false, sa := false, sb := false, sc := false, ty := .b64, m := 0 }

/-- A vector register reads as written whatever the wave held before. -/
theorem Wave.reg_write_vector (v w : Wave) {x : RegWrite} {k : Nat} (hx : x.reg = .v k) {r : Reg} {lane : Nat}
    (hits : x.hits r lane = true) : (v.write x).reg r lane = (w.write x).reg r lane := by
  obtain ⟨_, l, val⟩ := x
  subst hx
  have hr : r = .v k := by
    by_contra hne
    rw [RegWrite.hits_of_reg_ne (Ne.symm hne)] at hits
    cases hits
  subst hr
  have hl : l % 64 = lane := by simpa [RegWrite.hits] using hits
  rw [v.reg_write_v k l val lane hl, w.reg_write_v k l val lane hl]

/-- The link of a call: nxt, its low half in the first register of the pair and its high half in the second. -/
theorem link_dest (hr : Ready s h none u e) {d : Byte} (hw : u.wr = vregs true d) (r : Reg) (lane : Nat) (hl : lane < 64) :
    (∃ x v, ((e.act.flatMap (e.link d)).filter fun y => y.hits r lane) = [x] ∧ (∀ q ∈ e.w.pend, q.w.hits r lane = false)
      ∧ e.dest (linkForm d) .b64 (fun _ => e.iss.nxt % 2 ^ 57) r lane = some v ∧ ∀ w : Wave, (w.write x).reg r lane = v)
    ∨ (((e.act.flatMap (e.link d)).filter fun y => y.hits r lane) = []
      ∧ e.dest (linkForm d) .b64 (fun _ => e.iss.nxt % 2 ^ 57) r lane = none) := by
  have hgive : e.w.WritesGive (e.act.flatMap (e.link d)) (e.dest (linkForm d) .b64 fun _ => e.iss.nxt % 2 ^ 57) :=
    writesGive_vector (f := linkForm d) (dty := .b64) (fun _ => e.iss.nxt % 2 ^ 57) hr hw rfl
  refine (hgive r lane hl).imp_left fun ⟨x, v, hone, hfree, hv, hread⟩ => ⟨x, v, hone, hfree, hv, fun w => ?_⟩
  obtain ⟨hx, hits⟩ := List.mem_filter.1 (hone ▸ List.mem_singleton_self x)
  obtain ⟨l, -, hx⟩ := List.mem_flatMap.1 hx
  obtain ⟨k, hk⟩ := vecWrites_reg hx
  rw [← hread, w.reg_write_vector e.w hk hits]

/-- The link pair of R198, register by register. -/
theorem dest_linkForm (e : Env) (d : Byte) : e.dest (linkForm d) .b64 (fun _ => e.iss.nxt % 2 ^ 57) = fun r lane =>
    if lane ∉ e.act then none
    else if r = .v d.toNat then some (BitVec.ofNat 64 (e.iss.nxt % 2 ^ 32))
    else if r = .v (d.toNat + 1) then some (BitVec.ofNat 64 (e.iss.nxt % 2 ^ 57 / 2 ^ 32)) else none := by
  funext r lane
  have hlo : e.iss.nxt % 2 ^ 57 % 2 ^ 32 = e.iss.nxt % 2 ^ 32 := Nat.mod_mod_of_dvd _ (by decide)
  have hhi : e.iss.nxt % 2 ^ 57 / 2 ^ 32 % 2 ^ 32 = e.iss.nxt % 2 ^ 57 / 2 ^ 32 := by omega
  by_cases hm : lane ∈ e.act
  · cases r with
    | v k => simp only [Env.dest, linkForm, hm, hlo, hhi, Ty.is64, Reg.v.injEq]; simp
    | s _ | p _ | m _ | none => simp [Env.dest, linkForm]
  · cases r <;> simp [Env.dest, linkForm, hm]

/-! The words. -/

/-- A word all of whose targets exist takes its threads there, and its link lands (R197, R198). -/
theorem threads_branch (hr : Ready s h none u e) (hx : exec i s = word h none u body s) {tg : Nat → Int} {link : Nat → List RegWrite}
    {dst : Reg → Nat → Option Word} (hb : body e s = s.branch e tg link) (hin : ∀ l ∈ e.act, 0 ≤ tg l ∧ tg l < 2 ^ 57)
    (hd : ∀ r lane, lane < 64 →
      (∃ x v, ((e.act.flatMap link).filter fun y => y.hits r lane) = [x] ∧ (∀ q ∈ e.w.pend, q.w.hits r lane = false)
        ∧ dst r lane = some v ∧ ∀ w : Wave, (w.write x).reg r lane = v)
      ∨ (((e.act.flatMap link).filter fun y => y.hits r lane) = [] ∧ dst r lane = none)) :
    Threads s e i true (fun l t => { t with pc := pcAt (BitVec.ofInt 57 (tg l)) }) dst :=
  threads_leave hr hx _ 1 _ dst (hb.trans (State.branch_eq s e tg link hin)) (fun _ _ => rfl) hd

/-- A branch that leaves no link. -/
theorem threads_jump (hr : Ready s h none u e) (hx : exec i s = word h none u body s) {tg : Nat → Int}
    (hb : body e s = s.branch e tg fun _ => []) (hin : ∀ l ∈ e.act, 0 ≤ tg l ∧ tg l < 2 ^ 57) :
    Threads s e i true (fun l t => { t with pc := pcAt (BitVec.ofInt 57 (tg l)) }) fun _ _ => none :=
  threads_branch hr hx hb hin fun r lane _ => .inr ⟨by rw [List.flatMap_eq_nil_iff.2 fun _ _ => rfl]; rfl, rfl⟩

/-- A call. -/
theorem threads_call (hr : Ready s h none u e) (hx : exec i s = word h none u body s) {d : Byte} (hw : u.wr = vregs true d)
    {tg : Nat → Int} (hb : body e s = s.branch e tg (e.link d)) (hin : ∀ l ∈ e.act, 0 ≤ tg l ∧ tg l < 2 ^ 57) :
    Threads s e i true (fun l t => { t with pc := pcAt (BitVec.ofInt 57 (tg l)) }) fun r lane =>
      if lane ∉ e.act then none
      else if r = .v d.toNat then some (BitVec.ofNat 64 (e.iss.nxt % 2 ^ 32))
      else if r = .v (d.toNat + 1) then some (BitVec.ofNat 64 (e.iss.nxt % 2 ^ 57 / 2 ^ 32)) else none :=
  dest_linkForm e d ▸ threads_branch hr hx hb hin (link_dest hr hw)

/-- Settles O9: each word is a branch to its target, the calls with a link. -/
theorem branchesAndCalls : Obligations.BranchesAndCalls := by
  intro s h e
  exact ⟨fun f hr hin => threads_jump hr rfl rfl hin, fun f hr hin => threads_jump hr rfl rfl hin,
    fun f hr hin => threads_call hr rfl rfl rfl hin, fun f hr hin => threads_call hr rfl rfl rfl hin,
    fun f hr hin => threads_jump hr rfl rfl hin⟩

end Sys2Proof.Machine
end

section
/-! PROOFS. Words whose change of threads is followed by the test of the wave's meetings: MEET, UNMEET, JOIN and LEAVE (O10: R200,
R207), and the waits and ends (O11: R201 to R204, R217). -/
namespace Sys2Proof.Machine

variable {s t : State} {h : Hdr} {e : Env} {i : Instr} {u : Uses} {body : Env → State → State}

/-- A word that can issue, whose body answers state `t` and finds no host half to recall. -/
theorem exec_of_body (hr : Ready s h none u e) (hx : exec i s = word h none u body s) (hb : body e s = t) (ht : t.recalls = s.recalls) :
    exec i s = .next t := by
  rw [hx, word_ready_quiet hr body (by rw [hb, ht]), hb]

/-! Threads, then the test of their meetings. -/

/-- A word that brings about state `t` and the test of its wave's meetings changes its threads as `t` has them. -/
theorem threads_settle {v : Wave} {leave : Bool} {f : Nat → Thread → Thread} {dst : Reg → Nat → Option Word}
    (hx : exec i s = .next (t.settle e.iss.wg e.iss.wave)) (hv : t.wave? e.iss.wg e.iss.wave = some v)
    (haround : Around s t e.iss.wg e.iss.wave)
    (hhead : t.head.map (·.group) = some (if leave then e.iss.group &&& ~~~maskOf e.act else e.iss.group))
    (hth : ∀ l, v.thread l = if l ∈ e.act then f l (e.w.thread l) else e.w.thread l)
    (hseen : ∀ r lane, lane < 64 → v.seen r lane = (dst r lane).getD (e.w.seen r lane)) : Threads s e i leave f dst := by
  refine ⟨_, _, hx, State.wave?_settle hv, haround.settle, hhead, fun l => ?_, fun r lane hl => ?_⟩
  · rw [← hth l]
    exact Wave.settle_settles v _ l
  · rw [Wave.seen_of_regFile (v.regFile_settle _) rfl]
    exact hseen r lane hl

/-- A word without an active thread, where it does nothing. -/
theorem threads_idle (he : s.env? h = some e) (hact : e.act = []) (hx : exec i s = .next s) (leave : Bool) (f : Nat → Thread → Thread) :
    Threads s e i leave f fun _ _ => none := by
  have hgroup : (if leave then e.iss.group &&& ~~~maskOf e.act else e.iss.group) = e.iss.group := by
    rw [hact, show ~~~maskOf [] = BitVec.allOnes 64 from by decide, BitVec.and_allOnes, ite_self]
  refine ⟨s, e.w, hx, State.env?_wave he, Around.refl .., ?_, fun l => .inl ?_, fun _ _ _ => rfl⟩
  · rw [(State.env?_some he).1, hgroup]
    rfl
  · rw [hact, if_neg List.not_mem_nil]

/-- What stands around a wave has no bead where its workgroup had none. -/
theorem Around.noBeads {wg k : Nat} (ha : Around s t wg k) {w : Workgroup} (hw : s.wg? wg = some w) (hno : w.noBeads) :
    ∀ w', t.wg? wg = some w' → w'.noBeads := by
  obtain ⟨-, -, -, -, -, hwg⟩ := ha
  intro w' hw'
  have hsame := hwg wg
  rw [hw, hw', Option.map_some, Option.map_some] at hsame
  have hrods : some w'.rods = some w.rods := congrArg (Option.map Workgroup.rods) hsame
  intro r
  rw [Workgroup.rod, Option.some.inj hrods]
  exact hno r

/-! Meetings and sets (R200, R207). -/

/-- The state before the test of the meetings, when meetings or sets change. -/
def State.regrouped (s : State) (e : Env) (sets : Bool) (f : Thread → Thread) : State :=
  (s.later e 4 (e.before sets)).now e fun w => w.modLanes (maskOf e.act) fun _ t => f t

theorem State.around_regrouped (s : State) (e : Env) (sets : Bool) (f : Thread → Thread) :
    Around s (s.regrouped e sets f) e.iss.wg e.iss.wave :=
  ((Around.refl s _ _).later e ⟨rfl, rfl⟩ 4 (e.before sets)).modWave _

/-- Where no rod holds a bead, a change of sets has no test of the rods to make. -/
theorem State.regroup_noBeads (he : s.env? h = some e) {sets : Bool} (hno : sets = true → e.wg.noBeads) (f : Thread → Thread) :
    s.regroup e sets f = (s.regrouped e sets f).settle e.iss.wg e.iss.wave := by
  obtain ⟨-, hwg, -⟩ := State.env?_some he
  refine ite_eq_right_iff.2 fun hset => State.rodsTest_none ?_
  rw [Bool.and_eq_true] at hset
  exact (s.around_regrouped e sets f).settle.noBeads hwg (hno hset.1)

/-- The writes that keep the value before for THR_MEET and THR_SETS touch no register that a word reads. -/
theorem Env.writesGive_before (e : Env) (sets : Bool) : e.w.WritesGive (e.before sets) fun _ _ => none := by
  refine fun r lane _ => .inr ⟨List.filter_eq_nil_iff.2 fun y hy => ?_, rfl⟩
  obtain ⟨l, -, rfl⟩ := List.mem_map.1 hy
  cases r <;> simp [RegWrite.hits]

/-- A word that changes meetings or sets, and sets off no rod. -/
theorem threads_regroup (hr : Ready s h none u e) (hx : exec i s = word h none u body s) {sets : Bool} {f : Thread → Thread}
    (hb : body e s = s.regroup e sets f) (hf : ∀ t, (f t).preds = t.preds) (hno : sets = true → e.wg.noBeads) :
    Threads s e i false (fun _ t => f t) fun _ _ => none := by
  have hexec := exec_of_body hr hx (hb.trans (State.regroup_noBeads hr.1 hno f)) (State.later_recalls ..)
  have hrunning : (s.regrouped e sets f).running = s.running := by
    rw [(s.around_regrouped e sets f).1, State.regrouped, State.later]; split <;> rfl
  have hhead : (s.regrouped e sets f).head = some e.iss := by
    rw [← (State.env?_some hr.1).1, State.head, State.head, hrunning]
  refine threads_settle hexec (State.wave?_now (State.wave?_later (State.env?_wave hr.1) 4 (e.before sets)) _) (s.around_regrouped e sets f)
    (by rw [hhead]; rfl) (Env.thread_modLanes hr.1 _) fun r lane hl => ?_
  rw [Wave.seen_modLanes _ _ (fun _ => hf) r hl]
  exact (e.writesGive_before sets).seen (s.clk + 4) r hl

/-- MEET, its target within the address space (R200). -/
theorem exec_meet_inRange {f : IF} (he : s.env? h = some e) (h0 : 0 ≤ e.immTarget f.imm) (h1 : e.immTarget f.imm < 2 ^ 57) :
    exec (.meet h f) s = word h none {} (fun e' s => s.regroup e' false fun x =>
      { x with meet := ⟨BitVec.ofInt 57 (e.immTarget f.imm), true⟩ }) s := by
  rw [show exec (.meet h f) s = execMeet h f s from rfl, execMeet, he]
  exact if_neg (not_or.2 ⟨Int.not_lt.2 h0, Int.not_le.2 h1⟩)

theorem joinBody_regroup {k : Nat} (hk : k < 32) : joinBody k e s = s.regroup e true (setJoin k) := if_neg (Nat.not_le.2 hk)

theorem leaveBody_regroup {k : Nat} (hk : k < 32) (h0 : k ≠ 0) : leaveBody k e s = s.regroup e true (setLeave k) :=
  if_neg (by simp [h0, hk])

/-- Settles O10: each word regroups its active threads. -/
theorem meetingsAndSets : Obligations.MeetingsAndSets := by
  intro s h e
  have ne_zero {n : Nat} {x : BitVec n} (hx : x ≠ 0) : x.toNat ≠ 0 := fun h0 => hx (BitVec.eq_of_toNat_eq h0)
  refine ⟨?_, fun f hr => ?_, fun hno => ⟨fun f hr hk => ?_, fun f hr hk => ?_, fun f hr hk h0 => ?_,
    fun f hr hk h0 => ?_⟩⟩
  · intro f hr tg h0 h1
    exact threads_regroup hr (exec_meet_inRange hr.1 h0 h1) rfl (fun _ => rfl) nofun
  · exact threads_regroup hr rfl rfl (fun _ => rfl) nofun
  · exact threads_regroup (body := joinBody f.imm.toNat) hr rfl (joinBody_regroup hk) (fun _ => rfl) fun _ => hno
  · exact threads_regroup (body := fun e => joinBody (e.uniform f.a).toNat e) hr rfl (joinBody_regroup hk) (fun _ => rfl) fun _ => hno
  · exact threads_regroup (body := leaveBody f.imm.toNat) hr rfl (leaveBody_regroup hk (ne_zero h0)) (fun _ => rfl) fun _ => hno
  · exact threads_regroup (body := fun e => leaveBody (e.uniform f.a).toNat e) hr rfl (leaveBody_regroup hk (ne_zero h0)) (fun _ => rfl)
      fun _ => hno

/-! Waits and ends (R201 to R204, R217). -/

/-- The active threads leave the clause, changed by `f`. -/
def State.departed (s : State) (e : Env) (f : Thread → Thread) : State :=
  (s.leaveClause (maskOf e.act)).now e fun w => w.modLanes (maskOf e.act) fun _ t => f t

/-- Threads that leave a clause change their wave alone, whatever number the state gives out next. -/
theorem Around.departed (s : State) (e : Env) (n : Nat) (f : Thread → Thread) :
    Around s (State.departed { s with nextId := n } e f) e.iss.wg e.iss.wave := by
  have hnumbered : Around s { s with nextId := n } e.iss.wg e.iss.wave :=
    ⟨rfl, fun _ => rfl, fun _ => rfl, rfl, fun _ _ _ => rfl, fun _ => rfl⟩
  exact (hnumbered.leaveClause _).modWave _

/-- A word whose threads leave the clause for a state of their own, though it may first take a number. -/
theorem threads_depart (he : s.env? h = some e) (n : Nat) {f : Thread → Thread} (hf : ∀ t, (f t).preds = t.preds)
    (hx : exec i s = .next ((State.departed { s with nextId := n } e f).settle e.iss.wg e.iss.wave)) :
    Threads s e i true (fun _ t => f t) fun _ _ => none := by
  have hwave : (State.leaveClause { s with nextId := n } (maskOf e.act)).wave? e.iss.wg e.iss.wave = some e.w :=
    (State.env?_wave he :)
  have hhead : (State.departed { s with nextId := n } e f).head = s.head.map fun c => { c with group := c.group &&& ~~~maskOf e.act } :=
    State.head_modHead { s with nextId := n } _
  refine threads_settle hx (State.wave?_now hwave _) (Around.departed s e n f) ?_ (Env.thread_modLanes he _)
    fun r lane hl => Wave.seen_modLanes _ _ (fun _ => hf) r hl
  rw [hhead, (State.env?_some he).1]
  rfl

/-- PTSYNC with nothing to drain. -/
theorem exec_ptsync {f : GF} (hr : Ready s h none (usesOf (.ptsync h f)) e) (hact : e.act ≠ [])
    (hno : ∀ x ∈ s.sbuf, x.core ≠ e.core) :
    exec (.ptsync h f) s = .next (s.fresh.2.await e (.ptsync s.nextId)) := by
  refine exec_of_body hr rfl ?_ rfl
  rw [if_neg hact, State.drainCore_empty hno]
  rfl

/-- EXIT, where no rod waits for a thread. -/
theorem exec_exit {f : GF} (hr : Ready s h none (usesOf (.exit h f)) e) (hact : e.act ≠ []) (hno : e.wg.noBeads) :
    exec (.exit h f) s = .next ((s.departed e fun t => { t with status := .exited }).settle e.iss.wg e.iss.wave) := by
  obtain ⟨-, hwg, -⟩ := State.env?_some hr.1
  have hrods := (Around.departed s e s.nextId fun t => { t with status := .exited }).settle.noBeads hwg hno
  exact exec_of_body hr rfl ((if_neg hact).trans (State.rodsTest_none hrods)) rfl

/-- Settles O11: NOP and YIELD by their bodies, each other word as one whose threads leave the clause. -/
theorem waitsAndEnds : Obligations.WaitsAndEnds := by
  intro s h e f
  refine ⟨fun hr => exec_of_body hr rfl rfl rfl, fun hr hact => exec_of_body hr rfl (if_neg hact) rfl, fun g hr => ?_, fun hr hno => ?_,
    fun hr hno => ?_⟩
  · exact threads_depart hr.1 s.nextId (fun _ => rfl) (exec_of_body hr rfl rfl rfl)
  · by_cases hact : e.act = []
    · exact threads_idle hr.1 hact (exec_of_body hr rfl (if_pos hact) rfl) ..
    · exact threads_depart hr.1 (s.nextId + 1) (fun _ => rfl) (exec_ptsync hr hact hno)
  · by_cases hact : e.act = []
    · exact threads_idle hr.1 hact (exec_of_body hr rfl (if_pos hact) rfl) ..
    · exact threads_depart hr.1 s.nextId (fun _ => rfl) (exec_exit hr hact hno)

end Sys2Proof.Machine
end

section
/-! PROOFS. The CSR words (O14): writes of core registers find no host half (R7), traps of an issue group that handlers take (R341), and
CSRRD, CSRWR, CSRSET and CSRCLR (R214, R215). -/
namespace Sys2Proof.Machine

variable {s : State} {h : Hdr} {e : Env} {i : Instr} {f : IF} {o kind : Nat}

/-! Writes of core registers recall no host half. -/

theorem State.recalls_writeFields (s : State) (o : Nat) (v : Word) (sec g : Bool) : (s.writeFields o v sec g).recalls = s.recalls := by
  rw [State.writeFields]
  split <;> rfl

theorem State.recalls_poolApply (s : State) (n : Nat) (v : Word) (sec : Bool) : (s.poolApply n v sec).recalls = s.recalls := by
  have hfields := s.recalls_writeFields (rPOOL_REG_TOP n) v sec (s.guarded .core n)
  simp only [State.poolApply]
  split_ifs
  · rfl
  · rfl
  · exact hfields
  · exact hfields
  · exact hfields

theorem State.recalls_writeAccInj (s : State) (n : Nat) (v : Word) (sec : Bool) : (s.writeAccInj n v sec).recalls = s.recalls := by
  have hfields := s.recalls_writeFields (rCORE_ACCINJ n) v sec (s.guarded .core n)
  simp only [State.writeAccInj]
  split_ifs <;> exact hfields

/-- From the cores' registers on, the window holds theirs and the discovery table (R89). -/
theorem regLoc_of_core_le (ho : 0x100000 ≤ o) : regLoc o = if o < 0x200000 then some (.core, (o - 0x100000) / 0x1000, o % 0x1000)
    else if 0x800000 ≤ o ∧ o < 0x810000 then some (.disc, 0, o - 0x800000) else none := by
  have below {a : Nat} (ha : a ≤ 0x100000) : (o < a) = False := eq_false (by omega)
  simp [regLoc, below, ho]

theorem isWorldReg_of_core_le (ho : 0x100000 ≤ o) : isWorldReg o = false := by
  have hlink : o ≠ rWLD_LINK := by simp only [rWLD_LINK]; omega
  have hlow : ¬o < 0x90 := by omega
  rw [isWorldReg, regLoc_of_core_le ho]
  split_ifs <;> simp [hlink, hlow]

/-- A write of a register that has no action of its own and assigns no world. -/
theorem State.recalls_regWrite_plain {b : Blk} {n l : Nat} (hloc : regLoc o = some (b, n, l)) (hw : isWorldReg o = false)
    (hact : hasAction b l = false) (v : Word) (sec : Bool) : (s.regWrite o v sec).recalls = s.recalls := by
  cases hhas : blkHas b l with
  | false => simp [State.regWrite, hloc, hhas]
  | true =>
    cases hlive : s.live b n with
    | false => rw [State.regWrite_dead v sec hloc hlive]
    | true =>
      cases hbar : !sec && s.barred b n l with
      | true =>
        obtain ⟨hsec, hbarred⟩ := Bool.and_eq_true_iff.1 hbar
        rw [(by simpa using hsec : sec = false), State.regWrite_barred v hloc hhas hlive hbarred]
        rfl
      | false => rw [State.regWrite_plain hloc hhas hlive hbar hw hact]; rfl

/-- A write of a core register, or beyond them: only the pool's division and the injection do more than their access codes say. -/
theorem State.recalls_regWrite_core (s : State) (ho : 0x100000 ≤ o) (v : Word) (sec : Bool) :
    (s.regWrite o v sec).recalls = s.recalls := by
  have hloc := regLoc_of_core_le ho
  have hworld := isWorldReg_of_core_le ho
  split_ifs at hloc
  · generalize o % 0x1000 = l at hloc
    by_cases hpool : l = 0
    · subst hpool
      simp only [State.regWrite, hloc, hworld, Bool.false_eq_true, if_false]
      split_ifs
      exacts [rfl, rfl, s.recalls_poolApply ..]
    by_cases hinj : l = 0x30
    · subst hinj
      simp only [State.regWrite, hloc, hworld, Bool.false_eq_true, if_false]
      split_ifs
      exacts [rfl, rfl, s.recalls_writeAccInj ..]
    · exact State.recalls_regWrite_plain hloc hworld (by simp [hasAction, hpool, hinj]) v sec
  · exact State.recalls_regWrite_plain hloc hworld (by simp [hasAction]) v sec
  · rw [State.regWrite, hloc]

/-! Traps of an issue group (R182, R341). -/

/-- A trap of the issue group that handlers take finds no host half. -/
theorem State.recalls_groupTrap (he : s.env? h = some e) (hvec : e.wg.ctx.trapVec ≠ 0)
    (hact : ∀ l, bitAt e.iss.group l = true → (e.w.thread l).active = false) {c : Cause} (hc : c.service = false) :
    (s.groupTrap c).recalls = s.recalls := by
  obtain ⟨hhead, hwg, -⟩ := State.env?_some he
  have henters := State.takeTrap_enters hwg (State.env?_wave he) (ls := lanesOf e.iss.group) hc e.iss.word e.iss.wordPc false
    (fun l hl => hact l (List.mem_filter.1 hl).2) hvec
  rw [State.groupTrap, hhead]
  dsimp only
  rw [henters, State.recalls_settle]
  exact foldl_keeps State.recalls (fun t l => by rfl) _ _

/-- A word that traps its issue group, where handlers take the trap. -/
theorem exec_groupTrap {u : Uses} {body : Env → State → State} (hr : Ready s h none u e) (hx : exec i s = word h none u body s)
    (hvec : e.wg.ctx.trapVec ≠ 0) (hact : ∀ l, bitAt e.iss.group l = true → (e.w.thread l).active = false) {c : Cause}
    (hc : c.service = false) (hb : body e s = s.groupTrap c) : exec i s = .next (s.groupTrap c) :=
  exec_of_body hr hx hb (State.recalls_groupTrap hr.1 hvec hact hc)

/-! CSRRD (R214, R215). -/

theorem csrOf_thread {n : Nat} (hn : n < 5) : csrOf n = .thread n := if_pos hn

theorem csrNum_of_lt (hf : f.imm.toNat < 4096) : csrNum f = f.imm.toNat := Nat.mod_eq_of_lt hf

theorem csrrdBody_thread {n : Nat} (hn : csrOf (csrNum f) = .thread n) (hact : e.act ≠ []) :
    csrrdBody f e s = s.quickOp e (some .sys) 6 (vregs true f.d)
      (e.act.flatMap fun l => vecWrites true f.d.toNat l (e.w.csr n l).toNat) := by
  rw [csrrdBody, hn]
  exact if_neg hact

theorem csrrdBody_core (ho : csrOf (csrNum f) = .core o) (hsys : e.ctx.system = true) (hact : e.act ≠ []) :
    csrrdBody f e s = s.quickOp e (some .sys) 20 [.s f.d.toNat] [⟨.s f.d.toNat, 0, s.regRead (rPOOL_REG_TOP e.core + o)⟩] := by
  rw [csrrdBody, ho]
  exact (if_neg (by simp [hsys])).trans (if_neg hact)

theorem csrrdBody_none (hn : csrOf (csrNum f) = .none) : csrrdBody f e s = s.groupTrap .csrArg := by
  rw [csrrdBody, hn]

theorem csrrdBody_barred (ho : csrOf (csrNum f) = .core o) (hsys : e.ctx.system = false) : csrrdBody f e s = s.groupTrap .priv := by
  rw [csrrdBody, ho]
  exact if_pos (by simp [hsys])

/-! CSRWR, CSRSET and CSRCLR, by the number `csrNew` knows each by (R215). -/

/-- The new value of THR_TPC in the active threads. -/
def Env.withTpc (e : Env) (kind : Nat) (f : IF) (v : Wave) : Wave :=
  v.modLanes (maskOf e.act) fun l t =>
    { t with tpc := .ofImage (csrNew kind (e.w.thread l).tpc.image (BitVec.ofNat 64 (e.vec .b64 f.a l))) }

/-- A core register as the word writes it. -/
def State.csrWritten (s : State) (e : Env) (kind o : Nat) (x : Word) : State :=
  s.regWrite (rPOOL_REG_TOP e.core + o) (if kind = 0 then csrNew kind (s.regRead (rPOOL_REG_TOP e.core + o)) x
    else keepRw o (csrNew kind (s.regRead (rPOOL_REG_TOP e.core + o)) x)) e.ctx.world

theorem State.recalls_csrWritten (s : State) (e : Env) (kind o : Nat) (x : Word) : (s.csrWritten e kind o x).recalls = s.recalls := by
  refine s.recalls_regWrite_core ?_ ..
  rw [rPOOL_REG_TOP]
  omega

theorem csrwBody_tpc (hn : csrNum f = 1) (hact : e.act ≠ []) :
    csrwBody kind f e s = if csrOld f then (s.now e (e.withTpc kind f)).quickOp e none 24 (vregs true f.d)
        (e.act.flatMap fun l => vecWrites true f.d.toNat l (e.w.thread l).tpc.image.toNat)
      else s.now e (e.withTpc kind f) := by
  rw [csrwBody, hn]
  exact if_neg hact

theorem csrwBody_core (ho : csrOf (csrNum f) = .core o) (hsys : e.ctx.system = true) (hact : e.act ≠ []) :
    csrwBody kind f e s = if csrOld f then (s.csrWritten e kind o (e.uniform f.a)).quickOp e none 24 [.s f.d.toNat]
        [⟨.s f.d.toNat, 0, s.regRead (rPOOL_REG_TOP e.core + o)⟩]
      else s.csrWritten e kind o (e.uniform f.a) := by
  rw [csrwBody, ho]
  exact (if_neg (by simp [hsys])).trans (if_neg hact)

theorem csrwBody_unnamed (hn : csrOf (csrNum f) = .none ∨ ∃ k, csrOf (csrNum f) = .thread k ∧ k ≠ 1) :
    csrwBody kind f e s = s.groupTrap .csrArg := by
  rcases hn with hn | ⟨k, hn, hk⟩
  · rw [csrwBody, hn]
  · rw [csrwBody, hn]
    exact if_pos hk

theorem csrwBody_barred (ho : csrOf (csrNum f) = .core o) (hsys : e.ctx.system = false) : csrwBody kind f e s = s.groupTrap .priv := by
  rw [csrwBody, ho]
  exact if_pos (by simp [hsys])

theorem Env.tpc_withTpc (he : s.env? h = some e) {l : Nat} (hl : l ∈ e.act) :
    ((e.withTpc kind f e.w).thread l).tpc = .ofImage (csrNew kind (e.w.thread l).tpc.image (BitVec.ofNat 64 (e.vec .b64 f.a l))) := by
  rw [Env.withTpc, Env.thread_modLanes he, if_pos hl]

/-! The words that write. -/

section Writes
variable (hr : Ready s h none (csrwUses f) e) (hx : exec i s = word h none (csrwUses f) (csrwBody kind f) s) (hact : e.act ≠ [])
include hr hx hact

theorem threads_csrw_tpc (hold : csrOld f = false) (hn : csrNum f = 1) :
    Threads s e i false (fun l t => { t with
      tpc := .ofImage (csrNew kind (e.w.thread l).tpc.image (BitVec.ofNat 64 (e.vec .b64 f.a l))) }) fun _ _ => none :=
  threads_stay (lat := 0) (l := []) hr hx (by rw [csrwBody_tpc hn hact, hold]; rfl) (fun _ _ => rfl) fun _ _ _ => .inr ⟨rfl, rfl⟩

theorem exec_csrw_core (hold : csrOld f = false) (ho : csrOf (csrNum f) = .core o) (hsys : e.ctx.system = true) :
    exec i s = .next (s.csrWritten e kind o (e.uniform f.a)) :=
  exec_of_body hr hx (by rw [csrwBody_core ho hsys hact, hold]; rfl) (s.recalls_csrWritten ..)

theorem exec_csrw_oldCore (hold : csrOld f = true) (ho : csrOf (csrNum f) = .core o) (hsys : e.ctx.system = true) :
    exec i s = .next ((s.csrWritten e kind o (e.uniform f.a)).quickOp e none 24 [.s f.d.toNat]
      [⟨.s f.d.toNat, 0, s.regRead (rPOOL_REG_TOP e.core + o)⟩]) :=
  exec_of_body hr hx (by rw [csrwBody_core ho hsys hact, hold]; rfl) ((State.quickOp_recalls ..).trans (s.recalls_csrWritten ..))

/-- A write of THR_TPC that answers the value before starts an operation whose result that is. -/
theorem starts_csrw_oldTpc (hold : csrOld f = true) (hn : csrNum f = 1) :
    Starts s e i (e.withTpc kind f e.w) (resultAt s none 24 (vregs true f.d)
      (e.act.flatMap fun l => vecWrites true f.d.toNat l (e.w.thread l).tpc.image.toNat)) :=
  starts_now_quickOp _ (State.env?_wave hr.1) (exec_of_body hr hx (by rw [csrwBody_tpc hn hact, hold]; rfl) rfl)

/-- What a write of THR_TPC that answers the value before leaves. -/
theorem csrw_oldTpc_spec (hold : csrOld f = true) (hn : csrNum f = 1) :
    ∃ t r v, exec i s = .next t ∧ t.results = s.results ++ [r] ∧ r.ready = true ∧ r.readyAt = s.clk + 24
      ∧ r.writes = (e.act.flatMap fun l => vecWrites true f.d.toNat l (e.w.thread l).tpc.image.toNat)
      ∧ t.wave? e.iss.wg e.iss.wave = some v
      ∧ (∀ l, l ∈ e.act → l < e.w.threads.length → (v.thread l).tpc =
        .ofImage (csrNew kind (e.w.thread l).tpc.image (BitVec.ofNat 64 (e.vec .b64 f.a l))))
      ∧ ∀ pa, t.byte pa = s.byte pa := by
  obtain ⟨t, ht, hres, hwave, -, hbyte, -⟩ := starts_csrw_oldTpc hr hx hact hold hn
  exact ⟨t, _, _, ht, hres, rfl, rfl, rfl, hwave, fun l hl _ => (Env.tpc_withTpc hr.1 hl :), hbyte⟩

end Writes

/-- A word that writes at a number that names nothing it may write, or a core register outside a system context. -/
theorem exec_csrw_traps (hr : Ready s h none (csrwUses f) e) (hx : exec i s = word h none (csrwUses f) (csrwBody kind f) s)
    (hvec : e.wg.ctx.trapVec ≠ 0) (hact : ∀ l, bitAt e.iss.group l = true → (e.w.thread l).active = false) :
    ((csrOf (csrNum f) = .none ∨ ∃ k, csrOf (csrNum f) = .thread k ∧ k ≠ 1) → exec i s = .next (s.groupTrap .csrArg))
    ∧ ∀ o, csrOf (csrNum f) = .core o → e.ctx.system = false → exec i s = .next (s.groupTrap .priv) :=
  ⟨fun hn => exec_groupTrap hr hx hvec hact rfl (csrwBody_unnamed hn), fun _ ho hsys =>
    exec_groupTrap hr hx hvec hact rfl (csrwBody_barred ho hsys)⟩

/-- Settles O14: CSRRD by what its number names; the words that write by that, by their kind, and by whether they answer the value
before. -/
theorem registerWords : Obligations.RegisterWords := by
  refine ⟨fun s h e f hr hact => ⟨fun hn => ?_, fun o ho hlt hsys => ?_⟩, ?_, ?_, ?_⟩
  · have hnum : csrOf (csrNum f) = .thread f.imm.toNat := by rw [csrNum_of_lt (by omega), csrOf_thread hn]
    exact starts_quickOp (State.env?_wave hr.1) (exec_of_body hr rfl (csrrdBody_thread hnum hact) rfl)
  · have hnum : csrOf (csrNum f) = .core o := by rw [csrNum_of_lt hlt, ho]
    exact starts_quickOp (State.env?_wave hr.1) (exec_of_body hr rfl (csrrdBody_core hnum hsys hact) rfl)
  · intro s h e f hact hold num tpc core
    refine ⟨fun hr => ⟨threads_csrw_tpc (kind := 0) hr rfl hact hold, fun o ho hsys =>
        exec_csrw_core (kind := 0) hr rfl hact hold ho hsys⟩,
      fun hr => ⟨threads_csrw_tpc (kind := 1) hr rfl hact hold, fun o ho o' ho' hsys => ?_⟩,
      fun hr => ⟨threads_csrw_tpc (kind := 2) hr rfl hact hold, fun o ho o' ho' hsys => ?_⟩⟩
    · obtain rfl : o = o' := Csr.core.inj (ho.symm.trans ho')
      exact exec_csrw_core (kind := 1) hr rfl hact hold ho hsys
    · obtain rfl : o = o' := Csr.core.inj (ho.symm.trans ho')
      exact exec_csrw_core (kind := 2) hr rfl hact hold ho hsys
  · intro s h e f hact hold num i new hi hr
    rcases hi with ⟨rfl, rfl⟩ | ⟨rfl, rfl⟩ | ⟨rfl, rfl⟩
    · refine ⟨csrw_oldTpc_spec (kind := 0) hr rfl hact hold, fun o ho hsys => ?_⟩
      simp only [if_true]
      exact exec_csrw_oldCore (kind := 0) hr rfl hact hold ho hsys
    · refine ⟨csrw_oldTpc_spec (kind := 1) hr rfl hact hold, fun o ho hsys => ?_⟩
      simp only [reduceCtorEq, if_false]
      exact exec_csrw_oldCore (kind := 1) hr rfl hact hold ho hsys
    · refine ⟨csrw_oldTpc_spec (kind := 2) hr rfl hact hold, fun o ho hsys => ?_⟩
      simp only [reduceCtorEq, if_false]
      exact exec_csrw_oldCore (kind := 2) hr rfl hact hold ho hsys
  · intro s h e f hvec hact i hi hr c
    rcases hi with rfl | rfl | rfl | rfl
    · refine ⟨fun hn => ?_, fun o ho hsys => exec_groupTrap hr rfl hvec hact rfl (csrrdBody_barred ho hsys)⟩
      exact exec_groupTrap hr rfl hvec hact rfl (csrrdBody_none (hn.resolve_right fun h => h.1 rfl))
    · exact (exec_csrw_traps (kind := 0) hr rfl hvec hact).imp_left fun traps hn => traps (hn.imp_right (·.2))
    · exact (exec_csrw_traps (kind := 1) hr rfl hvec hact).imp_left fun traps hn => traps (hn.imp_right (·.2))
    · exact (exec_csrw_traps (kind := 2) hr rfl hvec hact).imp_left fun traps hn => traps (hn.imp_right (·.2))

end Sys2Proof.Machine
end

section
/-! PROOFS. Tasks (O15): SPAWN and JDEC, whose release has nothing to wait for, at the queue engine (R210, R211). -/
namespace Sys2Proof.Machine

variable {s : State} {h : Hdr} {e : Env} {f : GF}

/-- The release of a task word that nothing holds. -/
structure State.ReleasesNow (s : State) (e : Env) : Prop where
  untried : e.iss.await = none
  drained : ∀ x ∈ s.sbuf, x.core ≠ e.core
  host    : s.hostIdle e.lead e.ctx.asid = true
  done    : s.fresh.2.pathsDone e.iss.wg e.iss.wave e.core s.nextId 5 true false 31 = true

/-- A task word whose release passes reaches the queue engine at once. -/
theorem State.releaseAll_passes (h : s.ReleasesNow e) (k : State → State) : s.releaseAll e k = k s.fresh.2 := by
  rw [State.releaseAll, if_pos h.host]
  exact State.release_passes h.untried h.drained h.done k

/-- The status of a task word in its register, 240 clk later (R210, R211). -/
def State.taskAnswer (s : State) (e : Env) (f : GF) (v : Word) : State :=
  s.quickOp e (some .sys) 240 [.s f.d.toNat] [⟨.s f.d.toNat, 0, v⟩]

/-- A task word whose queue engine answers `v` in state `t`, in which no host half is to be recalled. -/
theorem exec_task {i : Instr} {u : Uses} {op : Env → State → Option Word × State} (hr : Ready s h none u e)
    (hx : exec i s = word h none u (fun e s => if e.act = [] then s else s.releaseAll e fun s => match op e s with
      | (none, s1) => s1.hold
      | (some v, s1) => s1.quickOp e (some .sys) 240 [.s f.d.toNat] [⟨.s f.d.toNat, 0, v⟩]) s)
    (hact : e.act ≠ []) (hrel : s.ReleasesNow e) {t : State} {v : Word} (hop : op e s.fresh.2 = (some v, t)) (ht : t.recalls = []) :
    exec i s = .next (t.taskAnswer e f v) := by
  refine exec_of_body hr hx ?_ (ht.trans hr.2.1.symm)
  rw [if_neg hact, State.releaseAll_passes hrel, hop]
  rfl

/-! SPAWN (R210). -/

/-- The record as it is appended: its context and world are the issuing context's. -/
def Ctx.recordOf (c : Ctx) (im : BitVec 512) : BitVec 512 :=
  (im &&& ~~~(0x1FFF#512 <<< 208)) ||| BitVec.ofNat 512 (c.num * 2 ^ 208 + (if c.world then 2 ^ 220 else 0))

/-- A queue with room takes a record: its index and the slot, whole. -/
theorem State.spawnOp_appends {c : Ctx} {queue : Word} {im : BitVec 512} {i lim old : Nat} {s2 s3 s4 : State} (hk : queue.toNat < 64)
    (hopen : bitAt c.queues queue.toNat = true) (hen : (s.queue c.q queue.toNat).en = true) (hok : recordOk (c.recordOf im) = true)
    (hi : s.engineRead c.q (s.queue c.q queue.toNat).base 8 = (.ok i, s2))
    (hlim : s.engineRead c.q ((s.queue c.q queue.toNat).base + 16) 8 = (.ok lim, s3))
    (hbase : s.engineWritable c.q (s.queue c.q queue.toNat).base = true)
    (hslot : s.engineWritable c.q (slotVa (s.queue c.q queue.toNat).base i) = true) (hroom : i < lim)
    (hold : s.engineRead c.q (slotVa (s.queue c.q queue.toNat).base i) 64 = (.ok old, s4)) :
    s.spawnOp c queue im = (some (refOf queue.toNat i),
      (s4.engineWrite c.q (s.queue c.q queue.toNat).base 8 (i + 1)).engineWrite c.q (slotVa (s.queue c.q queue.toNat).base i) 64
        ((c.recordOf im &&& ~~~(0x7FFFF#512 <<< 448)) ||| (1#512 <<< 464)).toNat) := by
  simp only [Ctx.recordOf] at hok ⊢
  simp only [State.spawnOp, hopen, hen, hok, hi, hlim, hbase, hslot, hold, Nat.not_le.2 hk, Nat.not_le.2 hroom, decide_false, Bool.not_true,
    Bool.or_self, Bool.and_self, Bool.false_eq_true, if_false]

/-! JDEC (R211). -/

/-- A record that is not done is found where it stands. -/
theorem State.findRef_stands {q : Nat} {ref : Word} {r : Rec} (hr : s.lookRef q ref = some r) (hst : r.st < 3) :
    s.findRef q ref = (true, s) := by
  rw [State.findRef, hr]
  exact if_pos (by simpa using hst)

/-- The record after a decrement, its counter in its slot as well. -/
def State.joinTaken (s : State) (r : Rec) (n : Nat) : State :=
  (s.modRec r.id fun x => { x with count := r.count - n }).engineWrite r.q (slotVa (s.queue r.q r.queue).base r.index + 24) 2 (r.count - n)

/-- The queue engine takes `n` from the counter of a record that is not done; a waiting record whose counter comes to 0 is ready. -/
theorem State.jdecOp_takes {c : Ctx} {ref : Word} {n : Nat} {r : Rec} (h1 : 1 ≤ n) (h2 : n ≤ 65535)
    (hopen : bitAt c.queues (wfld ref 0 6) = true) (hr : s.lookRef c.q ref = some r) (hst : r.st < 3) (hcount : r.count ≠ 0) :
    s.jdecOp c ref n = (some (BitVec.ofNat 64 ((r.count - n) * 2 ^ 16 + (if r.count < n then 1 else 0))),
      if r.count ≤ n ∧ r.st = 0 then (s.joinTaken r n).makeReady { r with count := 0 } else s.joinTaken r n) := by
  have hrange : ¬(n = 0 ∨ 65535 < n) := by omega
  simp only [State.jdecOp, hrange, hopen, State.findRef_stands hr hst, hr, State.decJoin, hcount, Bool.not_true, Bool.false_eq_true, if_false,
    Bool.and_eq_true, decide_eq_true_eq, Nat.sub_eq_zero_iff_le, State.joinTaken]

/-- Settles O15: the release passes, and the queue engine takes the word. -/
theorem tasks : Obligations.Tasks := by
  intro s h e f hact hawait hsbuf hhost hdone s1 answer
  have hrel : s.ReleasesNow e := ⟨hawait, hsbuf, hhost, hdone⟩
  refine ⟨?_, ?_⟩
  · intro hr k q im i lim old s2 s3 s4 hk hopen hen hok hi hlim hbase hslot hroom hold t ht
    exact exec_task (op := fun e s => (s.exposeBy e).spawnOp e.ctx (e.uniform f.a) (e.image f.b)) hr rfl hact hrel
      (State.spawnOp_appends hk hopen hen hok hi hlim hbase hslot hroom hold) ht
  · intro hr n r h1 h2 hopen hlook hst hcount s2 t ht
    exact exec_task (op := fun e s => (s.exposeBy e).jdecOp e.ctx (e.uniform f.a) (e.uniform f.b).toNat) hr rfl hact hrel
      (State.jdecOp_takes h1 h2 hopen hlook hst hcount) ht

end Sys2Proof.Machine
end

section
/-! PROOFS. Words whose meaning is fixed-latency results (R186, R220): one rule for them all, and the integer, bit, comparison
and move words (O1 to O4). -/
namespace Sys2Proof.Machine

variable {i : Instr} {h : Hdr} {f : AF} {dty : Ty} {tys : List Ty} {mask : BitVec 6} {a b c : SrcUse} {lat : Nat}

/-! One rule. -/

/-- A word whose meaning is the writes `ws`, landing later, gives the registers of `dst` their values. -/
theorem givesDest_of_writes {u : Uses} {ws : Env → List RegWrite} {dst : Env → Reg → Nat → Option Word} (huses : usesOf i = u)
    (hx : ∀ s, exec i s = word h none u (fun e s => s.later e lat (ws e)) s)
    (hl : i.wellFormed = true → ∀ s e, Ready s h none u e → e.w.WritesGive (ws e) (dst e)) : GivesDest i h dst := by
  intro hi s e hr
  rw [huses] at hr
  exact gives_of_later hr.1 lat (ws e) ((hx s).trans (word_ready_quiet hr _ (State.later_recalls ..)))
    fun r lane hlane => (hl hi s e hr r lane hlane).imp_right .inl

/-- A general-form word that sends the value `g` of each lane to its destination register, of type `dty`, gives that value. -/
theorem givesDest_result (g : Env → Nat → Nat) (hwf : i.wellFormed = true → f.ok tys mask (.reg dty.is64) a b c = true)
    (huses : usesOf i = afUses f (.reg dty.is64) a b c)
    (hx : ∀ s, exec i s = aluWord h f lat (.reg dty.is64) a b c (fun e => e.result f dty (g e)) s) :
    GivesDest i h fun e => e.dest f dty (g e) :=
  givesDest_of_writes huses hx fun hi _ e hr => writesGive_result (g e) hr rfl (AF.ok_reg (hwf hi)).2

/-- A comparison gives its predicate destination the truth `g` of each lane. -/
theorem givesDest_pred (g : Env → Nat → Bool) (hwf : i.wellFormed = true → f.ok tys mask .pred a b c = true)
    (huses : usesOf i = afUses f .pred a b c) (hx : ∀ s, exec i s = aluWord h f lat .pred a b c (fun e => e.predResult f (g e)) s) :
    GivesDest i h fun e => e.predDest f (g e) :=
  givesDest_of_writes huses hx fun hi _ e hr => writesGive_pred (g e) hr rfl (AF.ok_pred (hwf hi))

/-- The destination of a well-formed word may be stated by any equal values. -/
theorem GivesDest.congr {dst dst' : Env → Reg → Nat → Option Word} (hg : GivesDest i h dst)
    (hd : i.wellFormed = true → ∀ e, dst e = dst' e) : GivesDest i h dst' := fun hi s e hr => hd hi e ▸ hg hi s e hr

/-! Integer and bit words (R224). -/

theorem givesDest_int2 {sat : Bool} (op : Int → Int → Int) (hwf : i.wellFormed = f.int2 tys mask) (huses : usesOf i = AF.uses2 f)
    (hx : ∀ s, exec i s = intWord2 h f lat sat op s) :
    GivesDest i h fun e => e.dest f f.ty fun l => packed f.ty fun j => intRes f.ty sat (op (e.intA f l j) (e.intB f l j)) :=
  givesDest_result _ hwf.symm.trans huses hx

theorem givesDest_int1 {sat : Bool} (op : Int → Int) (hwf : i.wellFormed = f.int1 tys mask) (huses : usesOf i = AF.uses1 f)
    (hx : ∀ s, exec i s = intWord1 h f lat sat op s) :
    GivesDest i h fun e => e.dest f f.ty fun l => packed f.ty fun j => intRes f.ty sat (op (e.intA f l j)) :=
  givesDest_result _ hwf.symm.trans huses hx

theorem givesDest_bit2 (op : Nat → Nat → Nat) (hwf : i.wellFormed = f.int2 tys mask) (huses : usesOf i = AF.uses2 f)
    (hx : ∀ s, exec i s = bitWord2 h f op s) :
    GivesDest i h fun e => e.dest f f.ty fun l => op (e.opA f f.ty l) (e.opB f f.ty l) :=
  givesDest_result _ hwf.symm.trans huses hx

/-- A bit word of one source whose result has its own type (R224, R225, R227). -/
theorem givesDest_bit1 (op : Nat → Nat) (hwf : i.wellFormed = f.int1 tys mask) (huses : usesOf i = AF.uses1 f)
    (hx : ∀ s, exec i s = bitWord1 h f lat f.ty op s) : GivesDest i h fun e => e.dest f f.ty fun l => op (e.opA f f.ty l) :=
  givesDest_result _ hwf.symm.trans huses hx

/-- A count of bits: a 32-bit result (R225). -/
theorem givesDest_bitCount (op : Nat → Nat) (hwf : i.wellFormed = f.ok tys mask (.reg false) f.src .unused .unused)
    (huses : usesOf i = AF.usesN f .unused .unused) (hx : ∀ s, exec i s = bitWord1 h f lat .n32 op s) :
    GivesDest i h fun e => e.dest f .n32 fun l => op (e.opA f f.ty l) :=
  givesDest_result _ hwf.symm.trans huses hx

/-- The two words of IADDC's result in one number: the sum modulo 2^32 and the carry or borrow above it. -/
theorem addCarry_eq (sub : Bool) (a b c : Nat) :
    (addCarry sub a b c).1 + (addCarry sub a b c).2 <<< 32 =
      let c : Int := ((c % 2 : Nat) : Int)
      let a : Int := a
      let b : Int := b
      if sub then ((a - b - c) % 2 ^ 32).toNat + (if a - b - c < 0 then 2 ^ 32 else 0)
      else ((a + b + c) % 2 ^ 32).toNat + (if 2 ^ 32 ≤ a + b + c then 2 ^ 32 else 0) := by
  cases sub with
  | true => simp only [addCarry, intCode, Nat.shiftLeft_eq, ite_mul, one_mul, zero_mul, if_true]; rfl
  | false => simp only [addCarry, intCode, Nat.shiftLeft_eq, ite_mul, one_mul, zero_mul, Bool.false_eq_true, if_false]; rfl

theorem givesDest_iaddc (h : Hdr) (f : AF) :
    GivesDest (.iaddc h f) h (fun e => e.dest f .n64 fun l =>
      let c : Int := ((e.opC f .n32 l % 2 : Nat) : Int)
      let a : Int := e.opA f .n32 l
      let b : Int := e.opB f .n32 l
      if bitAt f.m 0 then ((a - b - c) % 2 ^ 32).toNat + (if a - b - c < 0 then 2 ^ 32 else 0)
      else ((a + b + c) % 2 ^ 32).toNat + (if 2 ^ 32 ≤ a + b + c then 2 ^ 32 else 0)) :=
  (givesDest_result (lat := 4) _ id rfl fun _ => rfl).congr fun _ e =>
    congrArg (e.dest f .n64) (funext fun l => addCarry_eq (bitAt f.m 0) (e.opA f .n32 l) (e.opB f .n32 l) (e.opC f .n32 l))

/-- IMAD's scalar destination is a scalar register, with .wide and without. -/
theorem imad_dst {h : Hdr} {f : AF} (hwf : (Instr.imad h f).wellFormed = true) (hu : f.u = true) : f.d.toNat < 192 := by
  simp only [Instr.wellFormed] at hwf
  split at hwf <;> exact (AF.ok_reg hwf).2 hu

theorem givesDest_imad (h : Hdr) (f : AF) :
    GivesDest (.imad h f) h (fun e =>
      let ct := if bitAt f.m 0 then wideTy f.ty else f.ty
      e.dest f ct fun l => intCode (tyBits ct)
        (intVal f.ty (e.opA f f.ty l) * intVal f.ty (e.opB f f.ty l) + intVal ct (e.opC f ct l))) :=
  givesDest_of_writes (lat := 6) rfl (fun _ => rfl) fun hi _ _ hr => writesGive_result _ hr rfl (imad_dst hi)

/-- Settles O1: each word's meaning is one fixed-latency result, whose value is the one stated. -/
theorem integerArithmetic : Obligations.IntegerArithmetic :=
  ⟨fun _ _ => ⟨givesDest_int2 (· + ·) rfl rfl fun _ => rfl, givesDest_int2 (· - ·) rfl rfl fun _ => rfl,
    givesDest_int2 (· * ·) rfl rfl fun _ => rfl, givesDest_int2 (fun x y => x * y / 2 ^ tyElem _) rfl rfl fun _ => rfl,
    givesDest_int2 min rfl rfl fun _ => rfl, givesDest_int2 max rfl rfl fun _ => rfl,
    givesDest_int1 (fun x => (x.natAbs : Int)) rfl rfl fun _ => rfl, givesDest_int1 (-·) rfl rfl fun _ => rfl⟩,
   fun h f => ⟨givesDest_iaddc h f, givesDest_imad h f⟩,
   fun _ _ => ⟨givesDest_bit2 (· &&& ·) rfl rfl fun _ => rfl, givesDest_bit2 (· ||| ·) rfl rfl fun _ => rfl,
    givesDest_bit2 (· ^^^ ·) rfl rfl fun _ => rfl, givesDest_bit1 (2 ^ tyBits _ - 1 - ·) rfl rfl fun _ => rfl⟩⟩

/-! Shifts, rotates and bit fields (R225). -/

theorem givesDest_shift (op : Nat → Nat → Nat → Nat) (hwf : i.wellFormed = f.shift mask)
    (huses : usesOf i = afUses f (.reg f.w) f.src (.reg false false) .unused) (hx : ∀ s, exec i s = shiftWord h f op s) :
    GivesDest i h fun e => e.dest f f.ty fun l => op (tyBits f.ty) (e.opA f f.ty l) (e.opB f .n32 l) :=
  givesDest_result _ hwf.symm.trans huses hx

theorem shiftLeft_eq_mul (w a n : Nat) : shiftLeft w a n = if w ≤ n then 0 else a * 2 ^ n % 2 ^ w := by
  rw [shiftLeft, Nat.shiftLeft_eq]

theorem shiftRight_eq_div (w a n : Nat) : shiftRight w a n = if w ≤ n then 0 else a % 2 ^ w / 2 ^ n := by
  rw [shiftRight, Nat.shiftRight_eq_div_pow]

/-- A rotation is by its count modulo the width. -/
theorem rotateLeft_mod (w a n : Nat) : rotateLeft w a (n % w) = rotateLeft w a n := by
  simp only [rotateLeft, Nat.mod_mod]

theorem givesDest_shl (h : Hdr) (f : AF) :
    GivesDest (.shl h f) h (fun e => e.dest f f.ty fun l =>
      if tyBits f.ty ≤ e.opB f .n32 l then 0 else e.opA f f.ty l * 2 ^ e.opB f .n32 l % 2 ^ tyBits f.ty) :=
  (givesDest_shift shiftLeft rfl rfl fun _ => rfl).congr fun _ e => congrArg (e.dest f f.ty) (funext fun _ => shiftLeft_eq_mul ..)

theorem givesDest_shr (h : Hdr) (f : AF) :
    GivesDest (.shr h f) h (fun e => e.dest f f.ty fun l =>
      if tyBits f.ty ≤ e.opB f .n32 l then 0 else e.opA f f.ty l % 2 ^ tyBits f.ty / 2 ^ e.opB f .n32 l) :=
  (givesDest_shift shiftRight rfl rfl fun _ => rfl).congr fun _ e => congrArg (e.dest f f.ty) (funext fun _ => shiftRight_eq_div ..)

theorem givesDest_rot (h : Hdr) (f : AF) :
    GivesDest (.rot h f) h (fun e => e.dest f f.ty fun l =>
      let n := e.opB f .n32 l % tyBits f.ty
      rotateLeft (tyBits f.ty) (e.opA f f.ty l) (if bitAt f.m 0 then tyBits f.ty - n else n)) := by
  refine (givesDest_shift (fun w a n => rotateLeft w a (if bitAt f.m 0 then w - n % w else n)) rfl rfl fun _ => rfl).congr
    fun _ e => congrArg (e.dest f f.ty) (funext fun l => ?_)
  cases bitAt f.m 0 with
  | true => rfl
  | false => exact (rotateLeft_mod ..).symm

/-- Settles O2: each word's meaning is one fixed-latency result, whose value is the one stated. -/
theorem shiftsAndBitFields : Obligations.ShiftsAndBitFields := fun h f =>
  ⟨givesDest_shl h f, givesDest_shr h f, givesDest_shift shiftArith rfl rfl fun _ => rfl, givesDest_rot h f,
    givesDest_bitCount (popCount _) rfl rfl fun _ => rfl, givesDest_bitCount (leadZeros _) rfl rfl fun _ => rfl,
    givesDest_bit1 (bitReverse _) rfl rfl fun _ => rfl, givesDest_result _ id rfl fun _ => rfl,
    givesDest_result _ id rfl fun _ => rfl⟩

/-! Comparisons (R226, R236). -/

/-- The conditions of ICMP: codes 0 to 5 on two integers. -/
theorem condHolds_int {c : Nat} (hc : c < 6) (x y : Int) :
    condHolds c false (x < y) (x = y) =
      decide ((c = 0 ∧ x = y) ∨ (c = 1 ∧ x ≠ y) ∨ (c = 2 ∧ x < y) ∨ (c = 3 ∧ x ≤ y) ∨ (c = 4 ∧ x > y) ∨ (c = 5 ∧ x ≥ y)) := by
  rw [Bool.eq_iff_iff]
  interval_cases c <;> simp [condHolds] <;> omega

/-- The conditions of FCMP: codes 0 to 7 on two values, which are unordered where one is a NaN. -/
theorem condVal_eq {c : Nat} (hc : c < 8) (x y : Val) :
    condVal c x y =
      let ord : Bool := !x.isNan && !y.isNan
      ((c = 0 && ord && x.eqv y) || (c = 1 && (!ord || !x.eqv y)) || (c = 2 && ord && x.lt y)
        || (c = 3 && ord && (x.lt y || x.eqv y)) || (c = 4 && ord && !(x.lt y || x.eqv y)) || (c = 5 && ord && !x.lt y)
        || (c = 6 && ord) || (c = 7 && !ord)) := by
  interval_cases c <;> simp [condVal, condHolds, Bool.and_assoc]

theorem icmp_ok {h : Hdr} {f : AF} (hwf : (Instr.icmp h f).wellFormed = true) :
    f.ok tysShift 7 .pred f.src f.src .unused = true ∧ f.mlo 2 0 < 6 := by
  simpa only [Instr.wellFormed, Bool.and_eq_true, decide_eq_true_eq] using hwf

theorem givesDest_icmp (h : Hdr) (f : AF) :
    GivesDest (.icmp h f) h (fun e => e.predDest f fun l =>
      let x := intVal f.ty (e.opA f f.ty l)
      let y := intVal f.ty (e.opB f f.ty l)
      let c := f.mlo 2 0
      decide ((c = 0 ∧ x = y) ∨ (c = 1 ∧ x ≠ y) ∨ (c = 2 ∧ x < y) ∨ (c = 3 ∧ x ≤ y) ∨ (c = 4 ∧ x > y) ∨ (c = 5 ∧ x ≥ y))) :=
  (givesDest_pred (lat := 4) _ (fun hi => (icmp_ok hi).1) rfl fun _ => rfl).congr fun hi e =>
    congrArg (e.predDest f) (funext fun _ => condHolds_int (icmp_ok hi).2 _ _)

theorem givesDest_fcmp (h : Hdr) (f : AF) :
    GivesDest (.fcmp h f) h (fun e => e.predDest f fun l =>
      let x := (floatFmt f.ty).decode (e.opA f f.ty l)
      let y := (floatFmt f.ty).decode (e.opB f f.ty l)
      let ord : Bool := !x.isNan && !y.isNan
      let c := f.mlo 2 0
      (c = 0 && ord && x.eqv y) || (c = 1 && (!ord || !x.eqv y)) || (c = 2 && ord && x.lt y)
        || (c = 3 && ord && (x.lt y || x.eqv y)) || (c = 4 && ord && !(x.lt y || x.eqv y)) || (c = 5 && ord && !x.lt y)
        || (c = 6 && ord) || (c = 7 && !ord)) :=
  (givesDest_pred (lat := floatLat f.ty) _ id rfl fun _ => rfl).congr fun _ e =>
    congrArg (e.predDest f) (funext fun _ => condVal_eq (f.m.extractLsb' 0 3).isLt _ _)

/-- Settles O3: each word's meaning is one predicate, that of its condition code. -/
theorem comparisons : Obligations.Comparisons := by
  intro h f
  refine ⟨fun h6 => ?_, fun hi => ?_, givesDest_icmp h f, givesDest_fcmp h f⟩
  · simp [Instr.wellFormed, Nat.not_lt.2 h6]
  · have hok : f.ok [.f32, .f64] 7 .pred f.src f.src .unused = true := hi
    simp only [AF.ok, Bool.and_eq_true, List.contains_iff_mem] at hok
    obtain ⟨⟨⟨⟨⟨⟨hty, -⟩, -⟩, -⟩, -⟩, -⟩, -⟩ := hok
    simpa using hty

/-! Moves (R227, R228). -/

theorem sel_ok {h : Hdr} {f : AF} (hwf : (Instr.sel h f).wellFormed = true) :
    f.ok tysBits 1 (.reg f.w) f.src f.src .pred = true := by
  simp only [Instr.wellFormed, Bool.and_eq_true] at hwf
  exact hwf.1

theorem givesDest_sel (h : Hdr) (f : AF) :
    GivesDest (.sel h f) h (fun e => e.dest f f.ty fun l =>
      if e.w.p f.c.toNat l = bitAt f.m 0 then e.opB f f.ty l else e.opA f f.ty l) := by
  refine (givesDest_result (lat := 4) _ sel_ok rfl fun _ => rfl).congr
    fun _ e => congrArg (e.dest f f.ty) (funext fun l => ?_)
  by_cases hp : e.w.p f.c.toNat l = bitAt f.m 0
  · rw [if_pos hp, if_neg (by simp [hp])]; rfl
  · rw [if_neg hp, if_pos (by simpa using hp)]; rfl

/-- The low 32 bits of a word, as a vector register keeps them. -/
theorem setWidth_low (v : Word) : ((v &&& 0xFFFFFFFF).setWidth 32).setWidth 64 = v &&& 0xFFFFFFFF := by
  apply BitVec.eq_of_toNat_eq
  rw [BitVec.toNat_setWidth, BitVec.toNat_setWidth, BitVec.toNat_and, show (0xFFFFFFFF : Word).toNat = 2 ^ 32 - 1 from rfl,
    Nat.and_two_pow_sub_one_eq_mod]
  omega

section Movi
variable {s : State} {e : Env} {u : Uses} {d : Byte}

theorem writesGive_movi_scalar (v : Word) (hr : Ready s h none u e) (hw : u.wr = sregs d) (hd : d.toNat < 192) (hact : e.act ≠ []) :
    e.w.WritesGive [⟨.s d.toNat, 0, v⟩] (e.immDest true d v) := by
  have hfree := hr.no_hit (r := .s d.toNat) (by simp [hw, sregs, hd])
  intro r lane _
  by_cases hs : r = .s d.toNat
  · subst hs
    exact .inl ⟨_, _, List.filter_cons_of_pos (decide_eq_true rfl), hfree lane, if_pos ⟨rfl, hact, rfl⟩, Wave.reg_write_s ..⟩
  · refine .inr ⟨by rw [List.filter_singleton, RegWrite.hits_of_reg_ne (Ne.symm hs)]; rfl, ?_⟩
    cases r with
    | s k => exact if_neg fun ⟨_, _, hk⟩ => hs (by rw [hk])
    | v _ | p _ | m _ | none => rfl

theorem writesGive_movi_vector (v : Word) (hr : Ready s h none u e) (hw : u.wr = [.v d.toNat]) :
    e.w.WritesGive (e.act.map fun l => ⟨.v d.toNat, l, v &&& 0xFFFFFFFF⟩) (e.immDest false d v) := by
  obtain ⟨hnodup, hact⟩ := State.env?_act hr.1
  have hfree := hr.no_hit (r := .v d.toNat) (by simp [hw])
  intro r lane hl
  rw [List.map_eq_flatMap, filter_flatMap_lane hnodup _ _ lane fun l hm hne => by
    cases r <;> simp [RegWrite.hits, Nat.mod_eq_of_lt (hact l hm).1, hne]]
  by_cases hv : r = .v d.toNat ∧ lane ∈ e.act
  · obtain ⟨rfl, hm⟩ := hv
    refine .inl ⟨_, _, by rw [if_pos hm, List.filter_cons_of_pos (by simp [RegWrite.hits, Nat.mod_eq_of_lt hl])]; rfl, hfree lane,
      if_pos ⟨rfl, hm, rfl⟩, ?_⟩
    rw [Wave.reg_write_v _ _ _ _ _ (Nat.mod_eq_of_lt hl)]
    exact setWidth_low v
  · refine .inr ⟨?_, ?_⟩
    · by_cases hm : lane ∈ e.act
      · rw [if_pos hm, List.filter_singleton, RegWrite.hits_of_reg_ne fun hr => hv ⟨hr.symm, hm⟩]; rfl
      · rw [if_neg hm]
    · cases r with
      | v k => exact if_neg fun ⟨_, hm, hk⟩ => hv ⟨by rw [hk], hm⟩
      | s _ | p _ | m _ | none => rfl

/-- MOVI's writes give its destination its value (R228). -/
theorem writesGive_movi (sc : Bool) (v : Word) (hr : Ready s h none u e) (hw : u.wr = if sc then sregs d else [.v d.toNat])
    (hd : sc = true → d.toNat < 192) : e.w.WritesGive (moviWrites e sc d v) (e.immDest sc d v) := by
  cases sc with
  | false => exact writesGive_movi_vector v hr hw
  | true =>
    by_cases hact : e.act = []
    · exact fun r lane _ => .inr ⟨by simp [moviWrites, hact], by cases r <;> simp [Env.immDest, hact]⟩
    · rw [moviWrites, if_pos rfl, if_neg hact]
      exact writesGive_movi_scalar v hr hw (hd rfl) hact

end Movi

theorem givesDest_moviImm (h : Hdr) (f : IF) :
    GivesDest (.moviImm h f) h fun e => e.immDest (128 ≤ f.a.toNat) f.d (f.imm.signExtend 64) := by
  refine givesDest_of_writes (lat := 4) (u := ⟨[], if decide (128 ≤ f.a.toNat) = true then sregs f.d else [.v f.d.toNat]⟩) ?_
    (fun _ => rfl) fun hi s e hr => writesGive_movi _ _ hr rfl fun hsc => ?_
  · simp only [usesOf, decide_eq_true_eq]
  · simp only [Instr.wellFormed, Bool.and_eq_true, Bool.or_eq_true, decide_eq_true_eq, sdst] at hi hsc
    omega

/-- Bit 5 of MOVI.L's field says whether its destination is scalar. -/
theorem bitAt_sel_five (x : BitVec 6) : bitAt x 5 = decide (x.toNat / 32 = 1) := by
  have := x.isLt
  rw [bitAt, BitVec.getLsbD, Nat.testBit_eq_decide_div_mod_eq]
  exact decide_eq_decide.2 (by omega)

theorem givesDest_moviLit (h : Hdr) (f : LF) :
    GivesDest (.moviLit h f) h fun e => e.immDest (bitAt f.sel 5) f.d
      (if bitAt f.sel 3 then (e.w.s f.d.toNat &&& 0xFFFFFFFF) ||| (f.lit.setWidth 64 <<< 32)
       else if bitAt f.sel 4 then f.lit.signExtend 64 else f.lit.setWidth 64) := by
  refine givesDest_of_writes (lat := 4) rfl (fun _ => rfl) fun hi s e hr => writesGive_movi _ _ hr rfl fun hsc => ?_
  rw [bitAt_sel_five] at hsc
  simp only [Instr.wellFormed, hsc, sdst, Bool.and_eq_true, Bool.not_true, Bool.false_or, decide_eq_true_eq] at hi
  exact hi.2

/-- Settles O4: each word's meaning is its writes at a fixed latency, of the value stated. -/
theorem moves : Obligations.Moves :=
  ⟨fun h f => ⟨givesDest_bit1 id rfl rfl fun _ => rfl, givesDest_sel h f⟩, fun h => ⟨givesDest_moviImm h, givesDest_moviLit h⟩⟩

end Sys2Proof.Machine
end

section
/-! PROOFS. Wave operations (O5): BCAST, READLANE and SHFL by their source lane, VOTE by its mode, WRED and SCAN by the active
lanes (R222, R229 to R232). -/
namespace Sys2Proof.Machine

variable {i : Instr} {h : Hdr} {f : AF} {tys : List Ty} {mask : BitVec 6} {d : DstUse} {b c : SrcUse} {lat : Nat}

/-! What the encodings allow. -/

/-- A source that is always a vector register carries no s bit (R179). -/
theorem AF.ok_vec {w64 : Bool} (hok : f.ok tys mask d (.vec w64) b c = true) : f.sa = false := by
  simp only [AF.ok, SrcUse.ok, Bool.and_eq_true, Bool.not_eq_true'] at hok
  obtain ⟨⟨⟨-, hsa, -⟩, -⟩, -⟩ := hok
  exact hsa

theorem AF.ok_bits {w64 : Bool} {a : SrcUse} (hok : f.ok tysBits mask (.reg w64) a b c = true) : f.ty = .b32 ∨ f.ty = .b64 := by
  simpa [tysBits] using (AF.ok_reg hok).1

theorem bcast_ok (hwf : (Instr.bcast h f).wellFormed = true) :
    f.ok tysBits 0 (.reg f.w) (.vec f.w) (.reg false false) .unused = true ∧ f.u = false ∧ f.sb = true := by
  simpa only [Instr.wellFormed, Bool.and_eq_true, Bool.not_eq_true', and_assoc] using hwf

theorem readlane_ok (hwf : (Instr.readlane h f).wellFormed = true) :
    f.ok tysBits 0 (.reg f.w) (.vec f.w) (.reg false false) .unused = true ∧ f.u = true := by
  simpa only [Instr.wellFormed, Bool.and_eq_true] using hwf

theorem shfl_ok (hwf : (Instr.shfl h f).wellFormed = true) :
    f.ok tysBits 0x1F (.reg f.w) (.vec f.w) (.reg false false) .unused = true ∧ f.u = false ∧ 1 ≤ f.mlo 4 2 ∧ f.mlo 4 2 ≤ 6 := by
  simpa only [Instr.wellFormed, Bool.and_eq_true, Bool.not_eq_true', decide_eq_true_eq, and_assoc] using hwf

theorem reduce_ok (hwf : f.reduce mask = true) : ∃ tys, f.ok tys mask (.reg f.w) (.vec f.w) .unused .unused = true ∧ f.u = false := by
  simp only [AF.reduce, Bool.and_eq_true, Bool.not_eq_true'] at hwf
  obtain ⟨⟨hok, hu⟩, -⟩ := hwf
  exact ⟨_, hok, hu⟩

/-- A modifier bit outside a word's mask is clear (R179). -/
theorem AF.ok_mask {a : SrcUse} (hok : f.ok tys mask d a b c = true) {k : Nat} (hk : k < 6) (hm : bitAt mask k = false) :
    bitAt f.m k = false := by
  simp only [AF.ok, Bool.and_eq_true, decide_eq_true_eq] at hok
  obtain ⟨⟨⟨⟨⟨⟨-, hmask⟩, -⟩, -⟩, -⟩, -⟩, -⟩ := hok
  have hbit : bitAt (f.m &&& ~~~mask) k = false := by rw [hmask]; simp [bitAt]
  have hopen : bitAt (~~~mask) k = true := by
    rw [bitAt] at hm ⊢
    rw [BitVec.getLsbD_not, hm, decide_eq_true hk]; rfl
  rwa [bitAt_and, hopen, Bool.and_true] at hbit

/-! A lane's register as it stands (R222, R229, R230). -/

/-- A word that copies a vector operand from the lane that `src` gives. -/
theorem givesDest_fromLane (src : Env → Nat → Nat)
    (hwf : i.wellFormed = true → f.ok tysBits mask (.reg f.w) (.vec f.w) (.reg false false) .unused = true)
    (huses : usesOf i = AF.usesV f (.reg false false))
    (hx : ∀ s, exec i s = aluWord h f 8 (.reg f.w) (.vec f.w) (.reg false false) .unused
      (fun e => e.result f f.ty fun l => e.vec f.ty f.a (src e l)) s) :
    GivesDest i h fun e => e.dest f f.ty fun l => e.vec f.ty f.a (src e l) :=
  givesDest_result _ hwf huses hx

theorem givesDest_shfl (h : Hdr) (f : AF) :
    GivesDest (.shfl h f) h (fun e => e.dest f f.ty fun l =>
      e.vec f.ty f.a (shflLane (f.mlo 1 0) (2 ^ f.mlo 4 2) l (e.opB f .n32 l))) :=
  givesDest_fromLane (fun e l => shflLane (f.mlo 1 0) (2 ^ f.mlo 4 2) l (e.opB f .n32 l)) (fun hi => (shfl_ok hi).1) rfl fun _ => rfl

/-! VOTE (R231). -/

theorem vote_ok (hwf : (Instr.vote h f).wellFormed = true) : f.ty = .i32 ∧ f.sa = false ∧ f.a.toNat < 8 := by
  simp only [Instr.wellFormed, AF.ok, SrcUse.ok, pslot, Bool.and_eq_true, Bool.not_eq_true', List.contains_iff_mem,
    List.mem_singleton, decide_eq_true_eq] at hwf
  obtain ⟨⟨⟨⟨⟨⟨hty, -⟩, -⟩, -⟩, hsa, ha⟩, -⟩, -⟩ := hwf
  exact ⟨hty, hsa, ha⟩

theorem is64_ballotTy (p : Prop) [Decidable p] : (if p then Ty.n64 else .n32).is64 = decide p := by
  by_cases hp : p <;> simp [hp, Ty.is64]

/-- VOTE's result by its mode: all, any, uniform, ballot. -/
theorem voteOf_eq (mode : Nat) (act : List Nat) (q : Nat → Bool) :
    voteOf mode act q = match mode with
      | 0 => if ∀ l ∈ act, q l then 1 else 0
      | 1 => if ∃ l ∈ act, q l then 1 else 0
      | 2 => if (∀ l ∈ act, q l) ∨ ∀ l ∈ act, !q l then 1 else 0
      | _ => (maskOf (act.filter q)).toNat := by
  match mode with
  | 0 => simp only [voteOf, List.all_eq_true]
  | 1 => simp only [voteOf, List.any_eq_true]
  | 2 => simp only [voteOf, Bool.or_eq_true, List.all_eq_true, List.not_any_eq_all_not]
  | _ + 3 => rfl

theorem givesDest_vote (h : Hdr) (f : AF) :
    GivesDest (.vote h f) h (fun e => e.dest f (if f.mlo 1 0 = 3 then .n64 else .n32) fun _ =>
      voteOf (f.mlo 1 0) e.act fun l => e.w.p f.a.toNat l != bitAt f.m 2) := by
  have hty : (if decide (f.mlo 1 0 = 3) = true then Ty.n64 else .n32) = if f.mlo 1 0 = 3 then .n64 else .n32 := by
    simp only [decide_eq_true_eq]
  rw [← hty]
  refine givesDest_of_writes (lat := 8) rfl (fun _ => rfl) fun hi s e hr => writesGive_result _ hr ?_ ?_
  · rw [is64_ballotTy, Bool.decide_eq_true]; rfl
  · exact (AF.ok_reg (show f.ok [.i32] 7 (.reg (f.mlo 1 0 = 3)) .pred .unused .unused = true from hi)).2

/-! WRED and SCAN (R232). -/

theorem givesDest_wred (h : Hdr) (f : AF) :
    GivesDest (.wred h f) h (fun e => e.dest f f.ty fun _ =>
      ((wredTree (reduceOp f.ty (f.mlo 2 0)) 6
        ((List.range 64).map fun l => if l ∈ e.act then some (e.vec f.ty f.a l) else none)).headD none).getD 0) := by
  intro hi
  obtain ⟨tys, hok, -⟩ := reduce_ok hi
  refine givesDest_result (lat := 16) _ (fun _ => hok) rfl (fun s => ?_) hi
  show execWred h f s = _
  simp only [execWred, List.contains_iff_mem]
  rfl

/-- What a chain has gathered after one more lane's value. -/
def chainStep (op : Nat → Nat → Nat) : Option Nat → Nat → Nat
  | none, x => x
  | some a, x => op a x

/-- What a chain holds of some lanes' values, gathered in their order. -/
def chainOf (op : Nat → Nat → Nat) (acc : Option Nat) (xs : List Nat) : Option Nat :=
  xs.foldl (fun acc x => some (chainStep op acc x)) acc

theorem chainOf_some (op : Nat → Nat → Nat) (a : Nat) (xs : List Nat) : chainOf op (some a) xs = some (xs.foldl op a) := by
  induction xs generalizing a with
  | nil => rfl
  | cons x xs ih => exact ih (op a x)

/-- A lane's result in SCAN's chain is from what the lanes before it have gathered, and its own value unless .excl is set. -/
theorem find_scanChain (op : Nat → Nat → Nat) (ident : Nat) (excl : Bool) (x : Nat → Nat) {act : List Nat} {l : Nat} (hl : l ∈ act)
    (acc : Option Nat) :
    (scanChain op ident excl acc (act.map fun k => (k, x k))).find? (fun y => y.1 = l) =
      let before := chainOf op acc ((act.takeWhile fun k => k ≠ l).map x)
      some (l, if excl then before.getD ident else chainStep op before (x l)) := by
  induction act generalizing acc with
  | nil => cases hl
  | cons k act ih =>
    have hchain : scanChain op ident excl acc ((k :: act).map fun k => (k, x k)) =
        (k, if excl then acc.getD ident else chainStep op acc (x k)) ::
          scanChain op ident excl (some (chainStep op acc (x k))) (act.map fun k => (k, x k)) := by cases acc <;> rfl
    rw [hchain]
    by_cases hk : k = l
    · subst hk
      simp [chainOf]
    · rw [List.find?_cons_of_neg (by simpa using hk), ih ((List.mem_cons.1 hl).resolve_left (Ne.symm hk)),
        List.takeWhile_cons_of_pos (by simpa using hk)]
      rfl

/-- The destination of a word that names no scalar one depends on the active lanes alone (R179). -/
theorem Env.dest_congr {e : Env} {ty : Ty} {g g' : Nat → Nat} (hu : f.u = false) (hg : ∀ l ∈ e.act, g l = g' l) :
    e.dest f ty g = e.dest f ty g' := by
  funext r lane
  cases r with
  | v k =>
    by_cases hm : lane ∈ e.act
    · simp only [Env.dest, hg lane hm]
    · simp [Env.dest, hm]
  | s k => simp [Env.dest, hu]
  | p _ | m _ | none => rfl

theorem givesDest_scan (h : Hdr) (f : AF) :
    GivesDest (.scan h f) h (fun e => e.dest f f.ty fun l =>
      let op := reduceOp f.ty (f.mlo 2 0)
      let before := (e.act.takeWhile fun k => k ≠ l).map (e.vec f.ty f.a)
      let x := e.vec f.ty f.a l
      match before with
      | [] => if bitAt f.m 3 then reduceId f.ty (f.mlo 2 0) else x
      | a :: r => if bitAt f.m 3 then r.foldl op a else op (r.foldl op a) x) := by
  intro hi
  obtain ⟨tys, hok, hu⟩ := reduce_ok hi
  refine (givesDest_result (lat := 16) _ (fun _ => hok) rfl fun _ => rfl).congr (fun _ e => Env.dest_congr hu fun l hl => ?_) hi
  dsimp only
  rw [find_scanChain _ _ _ (e.vec f.ty f.a) hl]
  cases (e.act.takeWhile fun k => k ≠ l).map (e.vec f.ty f.a) with
  | nil => rfl
  | cons a r =>
    rw [show chainOf _ none (a :: r) = _ from chainOf_some _ a r]
    rfl

/-- Settles O5: what each encoding allows, and each word's meaning as one fixed-latency result, whose value is the one stated. -/
theorem waveOperations : Obligations.WaveOperations := by
  refine ⟨fun h f => ⟨fun hi => ?_, fun hi => ?_, fun hi => ?_, vote_ok,
    givesDest_fromLane (fun e l => e.opB f .n32 l % 64) (fun hi => (bcast_ok hi).1) rfl fun _ => rfl,
    givesDest_fromLane (fun e l => e.opB f .n32 l % 64) (fun hi => (readlane_ok hi).1) rfl fun _ => rfl,
    givesDest_shfl h f, (givesDest_vote h f).congr fun _ e => ?_⟩, fun h f => ⟨givesDest_wred h f, givesDest_scan h f⟩⟩
  · obtain ⟨hok, hu, hsb⟩ := bcast_ok hi
    exact ⟨hu, AF.ok_vec hok, hsb, AF.ok_bits hok⟩
  · obtain ⟨hok, hu⟩ := readlane_ok hi
    exact ⟨hu, AF.ok_vec hok, AF.ok_bits hok⟩
  · obtain ⟨hok, hu, hlo, hhi⟩ := shfl_ok hi
    exact ⟨hu, AF.ok_vec hok, AF.ok_bits hok, hlo, hhi, AF.ok_mask hok (by decide) rfl⟩
  · exact congrArg (e.dest f _) (funext fun _ => voteOf_eq ..)

end Sys2Proof.Machine
end

section
/-! PROOFS. Float arithmetic (O6) and conversions (O8): CVT element by element and by blocks, FRND, PACK, UNPK and SLLVL. -/
namespace Sys2Proof.Machine

variable {i : Instr} {h : Hdr} {f : AF} {e : Env} {tys : List Ty} {mask : BitVec 6} {c : SrcUse} {lat : Nat}

/-! Float arithmetic (R233 to R235, R238, R239). -/

/-- A float word: its exact operation on the elements' values, rounded once. -/
theorem givesDest_float (op : Val → Val → Val → Val)
    (hwf : i.wellFormed = f.ok tys mask (.reg f.w) f.src f.src c) (huses : usesOf i = afUses f (.reg f.w) f.src f.src c)
    (hx : ∀ s, exec i s = floatWord h f lat c op s) :
    GivesDest i h fun e => e.dest f f.ty fun l => packed f.ty fun j =>
      floatRes f.ty (rmode f) (op (e.valA f l j) (e.valB f l j) (e.valC f l j)) :=
  givesDest_result _ hwf.symm.trans huses hx

/-- A float word that gives the code of one of its operands. -/
theorem givesDest_code2 (op : Nat → Nat → Nat) (hwf : i.wellFormed = f.int2 tys mask) (huses : usesOf i = AF.uses2 f)
    (hx : ∀ s, exec i s = codeWord2 h f op s) :
    GivesDest i h fun e => e.dest f f.ty fun l => packed f.ty fun j =>
      op (elemOf f.ty (e.opA f f.ty l) j) (elemOf f.ty (e.opB f f.ty l) j) :=
  givesDest_result _ hwf.symm.trans huses hx

/-- A word of one source whose types are all 32-bit. -/
theorem givesDest_narrow (g : Env → Nat → Nat) (h32 : ∀ t ∈ tys, t.is64 = false) (hwf : i.wellFormed = f.int1 tys mask)
    (huses : usesOf i = AF.usesN f .unused .unused)
    (hx : ∀ s, exec i s = aluWord h f lat (.reg false) f.src .unused .unused (fun e => e.result f f.ty (g e)) s) :
    GivesDest i h fun e => e.dest f f.ty (g e) := by
  have hty (hi : i.wellFormed = true) : f.ty.is64 = false := h32 _ (AF.ok_reg (hwf.symm.trans hi : f.int1 tys mask = true)).1
  refine givesDest_result32 (tys := tys) (mask := mask) g hty (fun hi => ?_) huses hx
  rw [← hty hi]
  exact hwf.symm.trans hi

theorem givesDest_fsqrt (h : Hdr) (f : AF) :
    GivesDest (.fsqrt h f) h (fun e => e.dest f f.ty fun l =>
      floatRes .f32 (rmode f) (f32F.decode (e.opA f f.ty l)).sqrt) :=
  givesDest_narrow (tys := [.f32]) (lat := 16) _ (by decide) rfl rfl fun _ => rfl

/-- Settles O6: each word's meaning is one fixed-latency result, whose value is the one stated. -/
theorem floatArithmetic : Obligations.FloatArithmetic := fun h f =>
  ⟨givesDest_float (fun x y _ => x.add (zeroNeg (rmode f)) y) rfl rfl fun _ => rfl,
    givesDest_float (fun x y _ => x.add (zeroNeg (rmode f)) y.negate) rfl rfl fun _ => rfl,
    givesDest_float (fun x y _ => x.mul y) rfl rfl fun _ => rfl,
    givesDest_float (fun x y z => (x.mul y).add (zeroNeg (rmode f)) z) rfl rfl fun _ => rfl,
    givesDest_code2 (minMaxNum (floatFmt f.ty) false) rfl rfl fun _ => rfl,
    givesDest_code2 (minMaxNum (floatFmt f.ty) true) rfl rfl fun _ => rfl,
    givesDest_float (fun x y _ => x.div y) rfl rfl fun _ => rfl, givesDest_fsqrt h f⟩

/-! The blocks of CVT (R243). -/

/-- A block is encoded element by element. -/
theorem length_mxBlockEncode (vs : List Val) (fmt : Nat) (mode : RMode) : (mxBlockEncode vs fmt mode).2.length = vs.length := by
  rw [mxBlockEncode]
  split <;> simp

/-- A block gives each of its lanes a value. -/
theorem cvtBlock_zip (e : Env) (f : AF) (blk : List Nat) :
    ∃ vs : List Nat, e.cvtBlock f blk = blk.zip vs ∧ vs.length = blk.length := by
  rw [Env.cvtBlock]
  exact ⟨_, rfl, (List.length_map _).trans ((length_mxBlockEncode ..).trans (List.length_map _))⟩

/-- Values given to distinct keys in order are those that the keys look up. -/
theorem zip_eq_map_lookup {ks vs : List Nat} (hn : ks.Nodup) (hlen : vs.length = ks.length) :
    ks.zip vs = ks.map fun k => (k, ((ks.zip vs).lookup k).getD 0) := by
  induction ks generalizing vs with
  | nil => rfl
  | cons k ks ih =>
    obtain ⟨hk, hn⟩ := List.nodup_cons.1 hn
    cases vs with
    | nil => cases hlen
    | cons v vs =>
      rw [List.zip_cons_cons, List.map_cons, List.lookup_cons_self, ih hn (Nat.succ_injective hlen)]
      refine congrArg _ (List.map_congr_left fun l hl => ?_)
      have hne : (l == k) = false := by simpa using fun h : l = k => hk (h ▸ hl)
      rw [List.lookup_cons, hne, ← ih hn (Nat.succ_injective hlen)]

/-- The value of lane `l` in the blocks of `b` lanes. -/
def Env.blockValue (e : Env) (f : AF) (b l : Nat) : Nat :=
  ((e.cvtBlock f (e.act.filter fun k => k / b = l / b)).lookup l).getD 0

/-- A block is its lanes with their values. -/
theorem cvtBlock_eq (hn : e.act.Nodup) (b k : Nat) :
    e.cvtBlock f (e.act.filter fun l => l / b = k) =
      (e.act.filter fun l => l / b = k).map fun l => (l, e.blockValue f b l) := by
  obtain ⟨vs, hzip, hlen⟩ := cvtBlock_zip e f (e.act.filter fun l => l / b = k)
  have hmap := zip_eq_map_lookup (hn.filter _) hlen
  rw [← hzip] at hmap
  refine hmap.trans (List.map_congr_left fun l hl => ?_)
  have hk : l / b = k := by simpa using (List.mem_filter.1 hl).2
  rw [Env.blockValue, hk]

/-- The blocks below `m` hold, in some order, the lanes that lie in them. -/
theorem perm_flatMap_blocks (act : List Nat) (b m : Nat) :
    ((List.range m).flatMap fun k => act.filter fun l => l / b = k).Perm (act.filter fun l => l / b < m) := by
  induction m with
  | zero => simp
  | succ m ih =>
    rw [List.range_succ, List.flatMap_append, List.flatMap_singleton]
    have hsplit := List.filter_append_perm (fun l => decide (l / b < m)) (act.filter fun l => l / b < m + 1)
    rw [List.filter_filter, List.filter_filter] at hsplit
    refine (ih.append_right _).trans (.trans (.of_eq ?_) hsplit)
    congr 1 <;> refine List.filter_congr fun l _ => ?_
    · rw [← Bool.decide_and]; exact decide_eq_decide.2 (by omega)
    · rw [← decide_not, ← Bool.decide_and]; exact decide_eq_decide.2 (by omega)

/-- The blocks of the active lanes hold them all (R243). -/
theorem perm_blocksOf {act : List Nat} (hlt : ∀ l ∈ act, l < 64) {b : Nat} (hb : b ∣ 64) : (blocksOf b act).flatten.Perm act := by
  obtain ⟨n, hn⟩ := hb
  have hb0 : 0 < b := Nat.pos_of_ne_zero fun h => by simp [h] at hn
  have hall : (act.filter fun l => l / b < 64 / b) = act := List.filter_eq_self.2 fun l hl => by
    have := hlt l hl
    rw [decide_eq_true_eq, hn, Nat.mul_div_cancel_left _ hb0, Nat.div_lt_iff_lt_mul hb0, Nat.mul_comm, ← hn]
    exact this
  have hperm := perm_flatMap_blocks act b (64 / b)
  rw [hall] at hperm
  rw [blocksOf, ← List.flatMap_def]
  exact hperm

/-- The order of a word's writes is of no account where each touches registers of its own. -/
theorem Wave.WritesGive.perm {w : Wave} {l l' : List RegWrite} {dst : Reg → Nat → Option Word} (hw : w.WritesGive l dst)
    (hp : l'.Perm l) : w.WritesGive l' dst := by
  intro r lane hl
  have hf := hp.filter fun y => y.hits r lane
  rcases hw r lane hl with ⟨x, v, hx, hrest⟩ | ⟨hx, hn⟩
  · exact .inl ⟨x, v, List.perm_singleton.1 (hx ▸ hf), hrest⟩
  · exact .inr ⟨List.perm_nil.1 (hx ▸ hf), hn⟩

/-- The writes of CVT's blocks are, in some order, those of each active lane's value. -/
theorem perm_blockWrites (hn : e.act.Nodup) (hlt : ∀ l ∈ e.act, l < 64) (hu : f.u = false) {b : Nat} (hb : b ∣ 64) :
    ((blocksOf b e.act).flatMap fun blk => (e.cvtBlock f blk).flatMap fun x => vecWrites false f.d.toNat x.1 x.2).Perm
      (e.result f .n32 (e.blockValue f b)) := by
  have hblk : ∀ blk ∈ blocksOf b e.act, ((e.cvtBlock f blk).flatMap fun x => vecWrites false f.d.toNat x.1 x.2) =
      blk.flatMap fun l => vecWrites false f.d.toNat l (e.blockValue f b l) := by
    intro blk hblk
    obtain ⟨k, -, rfl⟩ := List.mem_map.1 hblk
    rw [cvtBlock_eq hn, List.flatMap_map]
  rw [List.flatMap_congr hblk, Env.result, hu, if_neg Bool.false_ne_true, ← List.flatMap_assoc, List.flatMap_id']
  exact (perm_blocksOf hlt hb).flatMap_right _

/-! CVT (R241 to R243). -/

/-- CVT's scalar destination is a scalar register; the block forms have a 32-bit vector one. -/
theorem cvt_ok (hwf : (Instr.cvt h f).wellFormed = true) :
    (f.u = true → f.d.toNat < 192) ∧ (cvBlock f ≠ 0 → f.u = false ∧ fmt64 f.b.toNat = false) := by
  simp only [Instr.wellFormed, AF.conv, Bool.and_eq_true, Bool.or_eq_true, decide_eq_true_eq, Bool.not_eq_true'] at hwf
  obtain ⟨⟨⟨⟨hok, -⟩, -⟩, hblock⟩, -⟩ := hwf
  refine ⟨(AF.ok_reg hok).2, fun h0 => ?_⟩
  obtain ⟨⟨⟨hu, hlo⟩, hhi⟩, -⟩ := hblock.resolve_left h0
  refine ⟨hu, ?_⟩
  simp only [fmt64, Bool.or_eq_false_iff, decide_eq_false_iff_not]
  omega

theorem givesDest_cvt (h : Hdr) (f : AF) :
    GivesDest (.cvt h f) h (fun e =>
      let b := if cvBlock f = 1 then 16 else 32
      if cvBlock f = 0 then e.dest f (cvtDst f.b.toNat) fun l => cvtPlace f.b.toNat (e.cvtElem f l).1
      else e.dest f .n32 fun l => ((e.cvtBlock f (e.act.filter fun k => k / b = l / b)).lookup l).getD 0) := by
  refine givesDest_of_writes (lat := 6) rfl (fun _ => rfl) fun hi s e hr => ?_
  obtain ⟨hd, hblock⟩ := cvt_ok hi
  by_cases h0 : cvBlock f = 0
  · rw [if_pos h0]
    simp only [h0, if_true]
    exact writesGive_result _ hr (by rw [is64_cvtDst]; rfl) hd
  · obtain ⟨hu, h32⟩ := hblock h0
    obtain ⟨hn, hact⟩ := State.env?_act hr.1
    have hb : (if cvBlock f = 1 then 16 else 32) ∣ 64 := by split <;> decide
    rw [if_neg h0]
    simp only [h0, if_false]
    refine (writesGive_result (dty := .n32) _ hr ?_ hd).perm (perm_blockWrites hn (fun l hl => (hact l hl).1) hu hb)
    rw [show Ty.n32.is64 = fmt64 f.b.toNat from h32.symm]; rfl

/-! FRND, PACK, UNPK and SLLVL (R244, R245, R289). -/

theorem givesDest_frnd (h : Hdr) (f : AF) :
    GivesDest (.frnd h f) h (fun e => e.dest f f.ty fun l => packed f.ty fun j =>
      floatRes f.ty .rne (roundIntegral (rmode f) (e.valA f l j))) :=
  givesDest_result (lat := 6) _ (fun hi => (show f.int1 tysFloat 3 = true from hi)) rfl fun _ => rfl

/-- The packed 16-bit types have 32-bit operands (R180). -/
theorem is64_of_pair {t : Ty} (ht : t ∈ [Ty.f16x2, .bf16x2, .i16x2, .n16x2]) : t.is64 = false := by
  revert t; decide

theorem givesDest_pack (h : Hdr) (f : AF) :
    GivesDest (.pack h f) h (fun e => e.dest f f.ty fun l =>
      let cv (x : Nat) : Nat := ((packWide f.ty).convert (packNarrow f.ty) (rmode f) (bitAt f.m 2) none x).1
      cv (e.opA f (wideOf f.ty) l) + cv (e.opB f (wideOf f.ty) l) * 2 ^ 16) := by
  have hwf : (Instr.pack h f).wellFormed = f.ok [.f16x2, .bf16x2, .i16x2, .n16x2] (if f.ty.isFloat then 7 else 0) (.reg false)
    (.reg false f.ty.isFloat) (.reg false f.ty.isFloat) .unused := rfl
  simp only [← Nat.shiftLeft_eq]
  exact givesDest_result32 (lat := 6) _ (fun hi => is64_of_pair (AF.ok_reg (hwf.symm.trans hi)).1) hwf.symm.trans rfl fun _ => rfl

/-- The 32-bit types of PACK and UNPK. -/
theorem is64_wideOf (t : Ty) : (wideOf t).is64 = false := by cases t <;> rfl

theorem givesDest_unpk (h : Hdr) (f : AF) :
    GivesDest (.unpk h f) h (fun e => e.dest f (wideOf f.ty) fun l =>
      ((packNarrow f.ty).convert (packWide f.ty) .rne true none (elemOf f.ty (e.opA f f.ty l) (f.mlo 0 0))).1) :=
  givesDest_result32 (lat := 6) _ (fun _ => is64_wideOf f.ty) id rfl fun _ => rfl

/-- The levels of an SLI operand's elements, each in 16 bits (R289). -/
theorem foldl_slElems (t : Ty) (lv : Nat → Nat) :
    (slElems t).foldl (fun r j => r + lv j <<< (16 * j)) 0 = if t = .sli16x2 then lv 0 + lv 1 * 2 ^ 16 else lv 0 := by
  rw [slElems]
  split <;> simp [Nat.shiftLeft_eq]

theorem givesDest_sllvl (h : Hdr) (f : AF) :
    GivesDest (.sllvl h f) h (fun e => e.dest f f.ty fun l =>
      let lv (j : Nat) : Nat := (sliOfTy f.ty).level (elemOf f.ty (e.opA f f.ty l) j % 2 ^ (sliOfTy f.ty).mbits)
      if f.ty = .sli16x2 then lv 0 + lv 1 * 2 ^ 16 else lv 0) :=
  (givesDest_narrow (tys := tysSli) (lat := 6) _ (by decide) rfl rfl fun _ => rfl).congr fun _ e =>
    congrArg (e.dest f f.ty) (funext fun _ => foldl_slElems f.ty _)

/-- Settles O8: CVT by its form, each other word by the one fixed-latency result that is its meaning. -/
theorem conversions : Obligations.Conversions := fun h f =>
  ⟨givesDest_cvt h f, givesDest_frnd h f, givesDest_pack h f, givesDest_unpk h f, givesDest_sllvl h f⟩

end Sys2Proof.Machine
end

section
/-! PROOFS. Releases that wait, and fences (O21): what a release does that has to wait, and the operation of a fence with nothing to
drain (R117, R253, R256, R258, R259). -/
namespace Sys2Proof.Machine

variable {s : State} {h : Hdr} {e : Env}

/-! Releases (R253, R256). -/

/-- A release on its first try, with nothing to drain, waits where a path before it is not complete. -/
theorem State.release_waits (ha : e.iss.await = none) (hno : ∀ x ∈ s.sbuf, x.core ≠ e.core) {scope : BitVec 3} {mask : BitVec 5}
    (hdone : s.pathsDone e.iss.wg e.iss.wave e.core s.nextId scope true false mask = false) (k : State → State) :
    s.release e scope mask k = (s.fresh.2.modHead fun c => { c with await := some s.nextId }).hold := by
  have hdrain : (if scope ≠ 0 then s.drainCore e.core else s) = s := by rw [State.drainCore_empty hno, ite_self]
  have hpaths : ¬s.fresh.2.pathsDone e.iss.wg e.iss.wave e.core s.nextId scope true false mask = true := by
    rw [Bool.not_eq_true]; exact hdone
  simp only [State.release, ha, hdrain]
  exact if_neg hpaths

section Release
variable {f : MF} {l : Layout} (hh : e.w.holds = []) (hact : e.act ≠ []) (hl : Entry s e f.h false f.k l) (ha : e.iss.await = none)
  (hno : ∀ x ∈ s.sbuf, x.core ≠ e.core)
  (hdone : s.pathsDone e.iss.wg e.iss.wave e.core s.nextId f.scope true false 1 = false)
include hh hact hl ha hno hdone

theorem exec_st_waits (hr : Ready s h none (usesOf (.st h f)) e) (hrel : bitAt f.var 3 = true) :
    exec (.st h f) s = .next ((s.fresh.2.modHead fun c => { c with await := some s.nextId }).hold) := by
  refine memWord_ready hr hh ?_ rfl
  rw [stBody, State.form_entry hl rfl, if_neg hact, if_pos hrel]
  exact State.release_waits ha hno hdone _

theorem exec_atom_waits (hmem : l.memory = true) (hr : Ready s h none (usesOf (.atom h f)) e) (hrel : bitAt f.var 5 = true) :
    exec (.atom h f) s = .next ((s.fresh.2.modHead fun c => { c with await := some s.nextId }).hold) := by
  refine memWord_ready hr hh ?_ rfl
  rw [atomBody, State.form_entry hl hmem, if_neg hact, if_pos hrel]
  exact State.release_waits ha hno hdone _

end Release

/-! Operations that hold back the later words of their wave (R252, R259, R261). -/

/-- The wave of operation `n`, which holds back the wave's later words of classes 1 to 4. -/
def Wave.holding (w : Wave) (n : Nat) (r : Result) : Wave := { w.marking n r with holds := w.holds ++ [n] }

/-- The state with an operation of the word outstanding that holds back later words of its wave. -/
def State.withHold (s : State) (e : Env) (r : Result) : State :=
  State.modWave { s with
    nextId := s.nextId + 1
    results := s.results ++ [{ r with id := s.nextId, wg := e.iss.wg, wave := e.iss.wave }] }
    e.iss.wg e.iss.wave fun w => w.holding s.nextId r

/-- An acquire, a fence or maintenance holds later words back. -/
theorem State.startOp_holds (s : State) (e : Env) {r : Result} (hr : (r.acq.isSome || r.fence.isSome || r.maint) = true) :
    s.startOp e r = (s.nextId, s.withHold e r) := by
  have hholds (l : List Nat) : (if r.acq.isSome || r.fence.isSome || r.maint then l ++ [s.nextId] else l) = l ++ [s.nextId] := if_pos hr
  simp only [State.startOp, State.fresh, hholds]
  rfl

theorem State.wave?_withHold (hw : s.wave? e.iss.wg e.iss.wave = some e.w) (r : Result) :
    (s.withHold e r).wave? e.iss.wg e.iss.wave = some (e.w.holding s.nextId r) := by
  rw [State.withHold, State.wave?_modWave, if_pos ⟨rfl, rfl⟩]
  exact congrArg (Option.map fun w => w.holding s.nextId r) hw

/-! Fences (R258, R259). -/

theorem State.drainWave_empty (hno : ∀ x ∈ s.sbuf, x.core ≠ e.core) : s.drainWave e = s := by
  have hmine : (s.sbuf.filter fun x => x.core = e.core && x.stores.any fun y => y.wg = e.iss.wg && y.wave = e.iss.wave) = [] :=
    List.filter_eq_nil_iff.2 fun x hx => by simp [hno x hx]
  rw [State.drainWave, hmine]; rfl

theorem State.flushHost_clean (hno : ∀ l ∈ s.lines, ¬(l.loc = true ∧ l.dirty = true)) (q : Nat) (asid : BitVec 16) :
    s.flushHost q asid = s := by
  have hnone : (s.lines.filter fun l => l.loc && l.dirty && s.leadOfLode l.lode = q && (l.asid = some asid || l.asid = some 0)) = [] :=
    List.filter_eq_nil_iff.2 fun l hl => by
      have hclean : (l.loc && l.dirty) = false := by
        rw [← Bool.not_eq_true, Bool.and_eq_true]; exact hno l hl
      simp [hclean]
  rw [State.flushHost, hnone]; rfl

/-- The result of a fence with the paths `before` and `after` it. -/
def State.fenceResult (s : State) (m : BitVec 14) (before after : BitVec 5) : Result :=
  { resultAt s none 8 [] [] with fence := some ⟨bitAt m 3, bitAt m 4, m.extractLsb' 0 3, before, after⟩ }

theorem fenceBody_idle (hact : e.act ≠ []) (hbuf : ∀ x ∈ s.sbuf, x.core ≠ e.core)
    (hclean : ∀ l ∈ s.lines, ¬(l.loc = true ∧ l.dirty = true)) (m : BitVec 14) (before after : BitVec 5) :
    fenceBody m before after e s = s.withHold e (s.fenceResult m before after) := by
  simp only [fenceBody, hact, if_false, State.drainCore_empty hbuf, State.drainWave_empty hbuf, State.flushHost_clean hclean, ite_self]
  exact congrArg Prod.snd (State.startOp_holds s e (r := s.fenceResult m before after) rfl)

/-- FENCE and FENCEX alike: `i` is the word whose meaning is the fence of these masks. -/
theorem starts_fence {i : Instr} {m : BitVec 14} {before after : BitVec 5} (hx : exec i s = memWord h none {} (fenceBody m before after) s)
    (hr : Ready s h none {} e) (hh : e.w.holds = []) (hact : e.act ≠ []) (hbuf : ∀ x ∈ s.sbuf, x.core ≠ e.core)
    (hclean : ∀ l ∈ s.lines, ¬(l.loc = true ∧ l.dirty = true)) :
    Starts s e i { e.w with holds := [s.nextId] } (s.fenceResult m before after) := by
  refine ⟨_, hx.trans (memWord_ready hr hh (fenceBody_idle hact hbuf hclean m before after) rfl), rfl, ?_, Elsewhere.of_modWave ..⟩
  rw [State.wave?_withHold (State.env?_wave hr.1), Wave.holding, hh]
  rfl

/-- Settles O21: a release that has a path to wait for waits; a fence with nothing to drain is its operation. -/
theorem releasesAndFences : Obligations.ReleasesAndFences := by
  unfold Obligations.ReleasesAndFences
  exact ⟨fun s h e f l hh hact hl hmem ha hno hdone => ⟨exec_st_waits hh hact hl ha hno hdone, exec_atom_waits hh hact hl ha hno hdone hmem⟩,
    fun s h e f hh hact hbuf hclean => ⟨fun hr => starts_fence rfl hr hh hact hbuf hclean, fun hr => starts_fence rfl hr hh hact hbuf hclean⟩⟩

end Sys2Proof.Machine
end

section
/-! PROOFS. Contract and key-value words (O27): the statement fails for a KVPUT of a bad length, which exposes its record before it
answers BAD_LEN (R274, R360). -/
namespace Sys2Proof.Machine

/-- KVPUT of a bad length exposes its record, and its answer is on its way. -/
theorem exec_kvput_badLen {s : State} {h : Hdr} {f : GF} {e : Env} (hr : Ready s h none (usesOf (.kvput h f)) e) (hh : e.w.holds = [])
    (hact : e.act ≠ []) (hlen : (e.uniform f.c).toNat = 0) (hcalm : (s.exposeBy e).recalls = []) :
    exec (.kvput h f) s = .next ((s.exposeBy e).quickOp e (some .lode) 24 [.s f.d.toNat] [⟨.s f.d.toNat, 0, 4⟩]) := by
  refine memWord_ready hr hh ?_ ((State.quickOp_recalls ..).trans (hcalm.trans hr.2.1.symm))
  simp only [kvBuffer, hlen, hact, decide_true, Bool.true_or, Bool.true_and, if_true, if_false, ne_eq, not_false_eq_true]

/-- A record that stages its writes and is not exposed; its workgroup is the one of `laysetEnv`. -/
def stagingRecord : Rec :=
  { id := 0, q := 0, queue := 0, index := 0, image := 0, ref := 0, ctx := laysetWorkgroup.ctx, count := 0, st := 2, staging := true }

/-- `kvput s8, s0, s0, s0` about to issue: every scalar register is 0, the length among them. -/
def kvputFields : GF := ⟨8, 0, 0, 0, 0⟩
def stagingState : State := { nextId := 2, wgs := [laysetWorkgroup], running := [laysetEnv.iss], recs := [stagingRecord] }

theorem stagingState_ready : Ready stagingState laysetHdr none (usesOf (.kvput laysetHdr kvputFields)) laysetEnv := by decide +kernel

theorem stagingState_exposed : (stagingState.exposeBy laysetEnv).recs = [{ stagingRecord with exposed := true }] := by decide +kernel

/-- Refutes O27: the KVPUT of length 0 leaves its record exposed, where the statement has its answer change the wave alone. -/
theorem not_contractAndKeyValueWords : ¬ Obligations.ContractAndKeyValueWords := by
  intro h
  obtain ⟨-, hkv⟩ := h
  obtain ⟨-, hkvput, -⟩ := hkv stagingState laysetHdr laysetEnv kvputFields rfl (by decide)
  obtain ⟨hput, -⟩ := hkvput stagingState_ready
  obtain ⟨t, hx, -, -, ht, -⟩ := hput (.inl (by decide))
  rw [exec_kvput_badLen stagingState_ready rfl (by decide) (by decide) (by decide +kernel)] at hx
  obtain rfl := Host.Outcome.next.inj hx
  have hrecs : (stagingState.exposeBy laysetEnv).recs = stagingState.recs := (congrArg State.recs ht :)
  have hexposed := congrArg (List.map Rec.exposed) (stagingState_exposed.symm.trans hrecs)
  exact absurd hexposed (by decide)

end Sys2Proof.Machine
end

section
/-! PROOFS. Accumulator words (O29): the entries that ACCZ, ACCLD, ACCRD and DRAIN make in the matrix queue (R277, R284 to R287). -/
namespace Sys2Proof.Machine

variable {s t : State} {h : Hdr} {e : Env} {f : GF}

/-- An operation whose destinations, none of them p7, are `regs` is sent in every state that agrees with its start in what waves
see. -/
theorem sends_withOp_regs (hw : s.wave? e.iss.wg e.iss.wave = some e.w) {r : Result} {c : Cnt} (hc : r.cnt = some c)
    (hregs : ∀ x ∈ r.regs, x ≠ .p 7) (hres : t.results = (s.withOp e r).results) (hwgs : t.wgs = (s.withOp e r).wgs)
    (hbyte : t.byte = s.byte) (hreg : t.reg = s.reg) : Sends s t e c r.regs := by
  have hwg (id : Nat) : t.wg? id = (s.withOp e r).wg? id := congrArg (List.find? _) hwgs
  have hwave (id k : Nat) : t.wave? id k = (s.withOp e r).wave? id k := by simp only [State.wave?, hwg]
  have hall : (r.regs.filter fun x => x ≠ .p 7) = r.regs := List.filter_eq_self.2 fun x hx => decide_eq_true (hregs x hx)
  refine ⟨⟨_, hres, rfl, rfl, rfl, hc, rfl⟩, ?_, congrFun hbyte, congrFun hreg, fun id j hj => ?_, fun id k => ?_⟩
  · rw [hwave, State.wave?_withOp hw, Wave.marking, hc, hall]
  · have hbeside : ¬(id = e.iss.wg ∧ j = e.iss.wave) := fun ⟨hi, hk⟩ => hj.elim (absurd hi) (absurd hk)
    rw [hwave, State.withOp, State.wave?_modWave, if_neg hbeside]; rfl
  · have hpart : t.partOf id k = (s.withOp e r).partOf id k := by simp only [State.partOf, hwg]
    rw [hpart, State.withOp, State.partOf_modWave]; rfl

/-! Entries (R277, R284). -/

/-- The entry of an operation of the word's wave. -/
def Env.entry (e : Env) (n : Nat) (waves : List Nat) (op : MatOp) : MqEntry :=
  { id := n, core := e.core, wg := e.iss.wg, part := e.part, waves := waves, op := op }

/-- The state whose matrix queue has the word's operation as its last, counted in the wave; the clauses in progress are `run`. -/
def State.withEntry (s : State) (e : Env) (op : MatOp) (run : List Issue) : State :=
  State.bump { s with nextId := s.nextId + 1, mq := s.mq ++ [e.entry s.nextId [e.iss.wave] op], running := run }
    e.iss.wg e.iss.wave .mma 1

/-- An operation that is no MMA. -/
def MatOp.plain : MatOp → Bool
  | .mma .. => false
  | _ => true

theorem State.enqueue_plain (s : State) (e : Env) {op : MatOp} (hop : op.plain = true) :
    s.enqueue e [e.iss.wave] op = (s.nextId, s.withEntry e op s.running) := by
  cases op with
  | mma => cases hop
  | _ => rfl

/-- The clause of a DRAIN to memory, held until the operation's turn is over (R287). -/
def State.drainHeld (s : State) (n : Nat) : State := (s.modHead fun c => { c with await := some n, issued := true }).hold

theorem State.drainHeld_withEntry (s : State) (e : Env) (op : MatOp) (n : Nat) :
    (s.withEntry e op s.running).drainHeld n = s.withEntry e op (s.drainHeld n).running := rfl

theorem State.recalls_withEntry (s : State) (e : Env) (op : MatOp) (run : List Issue) : (s.withEntry e op run).recalls = s.recalls := rfl

theorem State.wave?_withEntry (hw : s.wave? e.iss.wg e.iss.wave = some e.w) (op : MatOp) (run : List Issue) :
    (s.withEntry e op run).wave? e.iss.wg e.iss.wave = some { e.w with cnt := e.w.cnt.bump .mma 1 } := by
  rw [State.withEntry, State.bump, State.wave?_modWave, if_pos ⟨rfl, rfl⟩]
  exact congrArg (Option.map fun w : Wave => { w with cnt := w.cnt.bump .mma 1 }) hw

/-- What the word `i` leaves when its operation enters the queue: the entry, the wave's count, and the clauses in progress. -/
theorem enters_of_exec {i : Instr} {op : MatOp} {run : List Issue} (hw : s.wave? e.iss.wg e.iss.wave = some e.w)
    (hx : exec i s = .next (s.withEntry e op run)) :
    ∃ t x, exec i s = .next t ∧ t.mq = s.mq ++ [x] ∧ x.id = s.nextId ∧ x.core = e.core ∧ x.wg = e.iss.wg
      ∧ x.part = e.part ∧ x.waves = [e.iss.wave] ∧ x.op = op
      ∧ t.wave? e.iss.wg e.iss.wave = some { e.w with cnt := e.w.cnt.bump .mma 1 }
      ∧ Elsewhere { s with mq := t.mq, nextId := s.nextId + 1, running := t.running } t e.iss.wg e.iss.wave
      ∧ t.running = run :=
  ⟨_, _, hx, rfl, rfl, rfl, rfl, rfl, rfl, rfl, State.wave?_withEntry hw op run, Elsewhere.of_modWave .., rfl⟩

/-! The words. -/

section Words
variable (hh : e.w.holds = []) (hact : e.act ≠ []) (hroom : s.mqRoom e.core = true)
include hh hact hroom

theorem exec_accz_enters (hr : Ready s h (some .matrix) (usesOf (.accz h f)) e)
    (hrun : (e.wg.part e.part).accRun (e.uniform f.a).toNat (e.uniform f.b).toNat 1048576 = true) :
    exec (.accz h f) s = .next (s.withEntry e (.accz (e.uniform f.a).toNat (e.uniform f.b).toNat) s.running) := by
  refine memWord_ready hr hh ?_ (State.recalls_withEntry ..)
  simp only [hrun, hroom, hact, Bool.not_true, Bool.false_eq_true, if_false]
  exact congrArg Prod.snd (State.enqueue_plain s e rfl)

theorem exec_accld_enters (hr : Ready s h (some .matrix) (usesOf (.accld h f)) e)
    (hrun : (e.wg.part e.part).accRun (e.uniform f.a).toNat (e.uniform f.c).toNat 65536 = true)
    (halign : (e.uniform f.b).toNat % 4 = 0) (hscr : (e.uniform f.b).toNat + (e.uniform f.c).toNat ≤ (e.wg.part e.part).scrBytes)
    (htop : (e.uniform f.b).toNat + (e.uniform f.c).toNat ≤ 0x800000) :
    exec (.accld h f) s = .next
      (s.withEntry e (.accld (e.uniform f.a).toNat (e.uniform f.b).toNat (e.uniform f.c).toNat) s.running) := by
  have hrange : (decide ((e.wg.part e.part).scrBytes < (e.uniform f.b).toNat + (e.uniform f.c).toNat)
      || decide (0x800000 < (e.uniform f.b).toNat + (e.uniform f.c).toNat)) = false := by
    rw [decide_eq_false (Nat.not_lt.2 hscr), decide_eq_false (Nat.not_lt.2 htop)]; rfl
  refine memWord_ready hr hh ?_ (State.recalls_withEntry ..)
  simp only [hrun, halign, hrange, hroom, hact, Bool.not_true, ne_eq, not_true_eq_false, decide_false, Bool.or_self, Bool.false_eq_true,
    if_false]
  exact congrArg Prod.snd (State.enqueue_plain s e rfl)

/-- The index of a lane of ACCRD. -/
def Env.accIdx (e : Env) (f : GF) (l : Nat) : Nat := if bitAt f.m 0 then e.scalar .n32 f.b l else e.vec .n32 f.b l

/-- The operation of ACCRD, whose entry enters the queue behind it. -/
def Env.accrdResult (f : GF) : Result := { id := 0, wg := 0, wave := 0, cnt := some .mma, regs := [.v f.d.toNat] }

theorem exec_accrd_enters (hr : Ready s h (some .matrix) (usesOf (.accrd h f)) e) (halign : (e.uniform f.a).toNat % 4 = 0)
    (hin : ∀ l ∈ e.act, (e.uniform f.a).toNat + 4 * e.accIdx f l + 4 ≤ (e.wg.part e.part).accBytes) :
    exec (.accrd h f) s = .next { s.withOp e (Env.accrdResult f) with
      nextId := s.nextId + 1 + 1
      mq := s.mq ++ [e.entry (s.nextId + 1) []
        (.accrd s.nextId (e.act.map fun l => (l, (e.uniform f.a).toNat / 4 + e.accIdx f l)) f.d.toNat)] } := by
  have hin' : ∀ l ∈ e.act, decide ((e.uniform f.a).toNat + 4 * (if bitAt f.m 0 = true then e.scalar .n32 f.b l else e.vec .n32 f.b l) + 4
      ≤ (e.wg.part e.part).accBytes) = true := fun l hl => decide_eq_true (hin l hl)
  have hnone : (e.act.filter fun l => !decide ((e.uniform f.a).toNat
      + 4 * (if bitAt f.m 0 = true then e.scalar .n32 f.b l else e.vec .n32 f.b l) + 4 ≤ (e.wg.part e.part).accBytes)) = [] :=
    List.filter_eq_nil_iff.2 fun l hl => by rw [hin' l hl]; decide
  refine memWord_ready hr hh ?_ rfl
  dsimp only
  rw [if_neg (not_not.2 halign), if_neg hact, hroom, List.filter_eq_self.2 hin', hnone, if_neg hact]
  rfl

/-- A DRAIN whose operands and tiles pass their checks enters the queue; where a tile lies in memory, its clause is held. -/
theorem exec_drain_enters (hr : Ready s h (some .matrix) (usesOf (.drain h f)) e) (ha : e.iss.await = none) {eL sL : Layout}
    (hel : s.operand e (e.uniform f.d) (fun _ => true) = (.ok eL, s))
    (hsc : if (DrainArgs.mk f.m (e.uniform f.b)).block = 0 then eL = sL
      else s.operand e (e.uniform f.a) (fun _ => true) = (.ok sL, s))
    (hok : (DrainArgs.mk f.m (e.uniform f.b)).ok = true)
    (hacc : 1024 * (DrainArgs.mk f.m (e.uniform f.b)).acc
      + 4 * (DrainArgs.mk f.m (e.uniform f.b)).rowsM * (DrainArgs.mk f.m (e.uniform f.b)).colsN ≤ (e.wg.part e.part).accBytes)
    (htiles : tilesBad e.wg e.part ((DrainArgs.mk f.m (e.uniform f.b)).tiles (e.uniform f.d) (e.uniform f.a) eL sL) = none) :
    exec (.drain h f) s = .next (s.withEntry e
      (.drain (e.uniform f.d) (e.uniform f.a) eL sL (e.uniform f.b) f.m e.iss.group e.iss.wordPc)
      (if eL.memory || ((DrainArgs.mk f.m (e.uniform f.b)).block ≠ 0 && sL.memory) then (s.drainHeld s.nextId).running
        else s.running)) := by
  have hscale : (if (DrainArgs.mk f.m (e.uniform f.b)).block = 0 then (Except.ok eL, s)
      else s.operand e (e.uniform f.a) fun _ => true) = (.ok sL, s) := by
    split at hsc
    · next hblock => rw [if_pos hblock, hsc]
    · next hblock => rw [if_neg hblock, hsc]
  have hargs : (!(DrainArgs.mk f.m (e.uniform f.b)).ok || decide ((e.wg.part e.part).accBytes < 1024 * (DrainArgs.mk f.m (e.uniform f.b)).acc
      + 4 * (DrainArgs.mk f.m (e.uniform f.b)).rowsM * (DrainArgs.mk f.m (e.uniform f.b)).colsN)) = false := by
    rw [hok, decide_eq_false (Nat.not_lt.2 hacc)]; rfl
  refine memWord_ready (body := drainBody f) hr hh ?_ (State.recalls_withEntry ..)
  rw [drainBody, ha]
  dsimp only
  rw [hel]
  dsimp only
  rw [hscale]
  dsimp only
  rw [hargs, htiles]
  simp only [hact, hroom, Bool.not_true, Bool.false_eq_true, if_false, State.enqueue_plain (op := .drain ..) s e rfl]
  split
  · exact State.drainHeld_withEntry ..
  · rfl

end Words

/-- The block code of a DRAIN (R285). -/
theorem DrainArgs.block_eq_zero (a : DrainArgs) : a.block = 0 ↔ a.m.extractLsb' 7 2 = 0 := by
  have hcode : ∀ x : BitVec 2, (match x.toNat with | 1 => 16 | 2 => 32 | 3 => 64 | _ => 0) = 0 ↔ x = 0 := by decide
  have hfield : wfld (a.m.setWidth 64) 7 2 = (a.m.extractLsb' 7 2).toNat := by
    simp only [wfld, BitVec.extractLsb'_toNat, BitVec.toNat_setWidth]
    rw [Nat.mod_eq_of_lt (show a.m.toNat < 2 ^ 64 by omega)]
  rw [DrainArgs.block, hfield]
  exact hcode _

/-- Settles O29: each word whose operands pass its checks makes its entry. -/
theorem accumulatorWords : Obligations.AccumulatorWords := by
  unfold Obligations.AccumulatorWords
  intro s h e f hh hact hroom a b c enters run
  have hrun {off n hi : Nat} (hx : run off n hi) : (e.wg.part e.part).accRun off n hi = true := by
    obtain ⟨h1, h2, h3, h4, h5⟩ := hx
    simp [Part.accRun, h1, h2, h3, h4, h5]
  refine ⟨fun hr hx => ?accz, fun hr hx halign hscr htop => ?accld, ?accrd, ?drain⟩
  case accz => exact enters_of_exec (State.env?_wave hr.1) (exec_accz_enters hh hact hroom hr (hrun hx))
  case accld => exact enters_of_exec (State.env?_wave hr.1) (exec_accld_enters hh hact hroom hr (hrun hx) halign hscr htop)
  case accrd =>
    intro hr halign idx hin
    exact ⟨_, _, exec_accrd_enters hh hact hroom hr halign hin,
      sends_withOp_regs (r := Env.accrdResult f) (State.env?_wave hr.1) rfl (by simp [Env.accrdResult]) rfl rfl rfl rfl, rfl, rfl, rfl⟩
  case drain =>
    intro hr ha d eL sL hel hsc hok hacc htiles
    have hmem : (decide (d.block ≠ 0) && sL.memory) = (decide (f.m.extractLsb' 7 2 ≠ 0) && sL.memory) := by
      rw [decide_eq_decide.2 (not_congr (DrainArgs.block_eq_zero d))]
    have hx := exec_drain_enters hh hact hroom hr ha hel hsc hok hacc htiles
    rw [hmem] at hx
    exact enters_of_exec (State.env?_wave hr.1) hx

end Sys2Proof.Machine
end

section
/-! PROOFS. What the lanes of one memory word do together: their elements, the requests they send in order, and the operation that waits
for them (R187, R250); LRED, LREDW and LXPOSE (O30: R291, R293, R295). -/
namespace Sys2Proof.Machine

variable {s s1 t : State} {hd : Hdr} {e : Env}

/-! Elements of the lanes. -/

/-- Elements that are found without a change of state. -/
theorem State.elemsOf_stays {g : State → Nat → Elem × State} {x : Nat → Elem} (h : ∀ lane ∈ e.act, g s lane = (x lane, s)) :
    s.elemsOf e g = (e.act.map fun lane => (lane, x lane), s) := by
  have hfold : ∀ (l : List Nat) (acc : List (Nat × Elem)), (∀ lane ∈ l, g s lane = (x lane, s)) →
      l.foldl (fun (xs, s) l =>
        let (x, s1) := g s l
        (xs ++ [(l, x)], s1)) (acc, s) = (acc ++ l.map fun lane => (lane, x lane), s) := by
    intro l
    induction l with
    | nil => intro acc _; simp
    | cons a r ih =>
      intro acc hg
      simp only [List.foldl_cons, hg a (List.mem_cons_self ..)]
      rw [ih _ fun lane hl => hg lane (List.mem_cons_of_mem _ hl)]
      simp
  exact hfold e.act [] h

/-- The element of the one active lane. -/
theorem State.elemsOf_one {g : State → Nat → Elem × State} {lane : Nat} {x : Elem} (hact : e.act = [lane]) (h : g s lane = (x, s1)) :
    s.elemsOf e g = (e.act.map fun lane => (lane, x), s1) := by
  simp only [State.elemsOf, hact, List.foldl_cons, List.foldl_nil, h, List.nil_append, List.map_cons, List.map_nil]

theorem filterMap_lanes {α : Type} {x : Nat → Elem} {l : List Nat} {g : Nat → α} {F : Nat × Elem → Option α}
    (h : ∀ lane ∈ l, F (lane, x lane) = some (g lane)) : (l.map fun lane => (lane, x lane)).filterMap F = l.map g := by
  rw [List.filterMap_map]
  exact List.filterMap_eq_map_iff_forall_eq_some.2 h

theorem filterMap_lanes_nil {α : Type} {x : Nat → Elem} {l : List Nat} {F : Nat × Elem → Option α}
    (h : ∀ lane ∈ l, F (lane, x lane) = none) : (l.map fun lane => (lane, x lane)).filterMap F = [] := by
  rw [List.filterMap_map]
  exact List.filterMap_eq_nil_iff.2 h

theorem zeroLanes_map {x : Nat → Elem} {l : List Nat} (h : ∀ lane ∈ l, x lane ≠ .zero) : zeroLanes (l.map fun lane => (lane, x lane)) = [] :=
  filterMap_lanes_nil fun lane hl => if_neg (h lane hl)

theorem badLanes_map {x : Nat → Elem} {l : List Nat} (h : ∀ lane ∈ l, ∀ c i, x lane ≠ .bad c i) :
    badLanes (l.map fun lane => (lane, x lane)) = [] := by
  refine filterMap_lanes_nil fun lane hl => ?_
  have hx := h lane hl
  dsimp only
  split
  · next c i heq => exact absurd heq (hx c i)
  · rfl

/-! Requests in order. -/

/-- Requests as they are numbered when they are sent one after another. -/
def numbered (n : Nat) : List Req → List Req
  | [] => []
  | r :: l => { r with id := n, born := n } :: numbered (n + 1) l

/-- What does not look at a request's number is as it was. -/
theorem map_numbered {α : Type} {g : Req → α} (hg : ∀ r n, g { r with id := n, born := n } = g r) (n : Nat) (l : List Req) :
    (numbered n l).map g = l.map g := by
  induction l generalizing n with
  | nil => rfl
  | cons r l ih => rw [numbered, List.map_cons, List.map_cons, hg, ih]

theorem foldl_sendReq (l : List Req) (s : State) :
    l.foldl State.sendReq s = { s with nextId := s.nextId + l.length, reqs := s.reqs ++ numbered s.nextId l } := by
  induction l generalizing s with
  | nil => simp [numbered]
  | cons r l ih =>
    rw [List.foldl_cons, ih, State.sendReq]
    simp [State.fresh, numbered, Nat.add_comm, Nat.add_left_comm]

theorem foldl_sendReq_map {α : Type} (g : α → Req) (l : List α) (s : State) :
    l.foldl (fun s a => s.sendReq (g a)) s =
      { s with nextId := s.nextId + l.length, reqs := s.reqs ++ numbered s.nextId (l.map g) } := by
  rw [← List.foldl_map, foldl_sendReq, List.length_map]

/-! The operation that waits. -/

/-- An operation with its number, of the word's wave. -/
def Env.ownOp (e : Env) (n : Nat) (r : Result) : Result := { r with id := n, wg := e.iss.wg, wave := e.iss.wave }

/-- A result that some lane still waits for a part of is not ready. -/
theorem Result.gathered_waits {r : Result} (h : ∃ x ∈ r.lanes, x.parts ≠ 0) (clk : Nat) : r.gathered clk = r := by
  obtain ⟨x, hx, hparts⟩ := h
  have hany : (r.lanes.any fun x => x.parts ≠ 0) = true := List.any_eq_true.2 ⟨x, hx, decide_eq_true hparts⟩
  rw [Result.gathered, hany, Bool.or_true]
  exact if_pos rfl

theorem getLast?_map_concat {α β : Type} (f : α → β) (l : List α) (a : α) : ((l ++ [a]).map f).getLast? = some (f a) := by
  rw [List.map_append]
  exact List.getLast?_concat ..

/-! LRED and LREDW (R291, R293). -/

/-- The low field of a mode. -/
theorem wfld_low (m : BitVec 14) (n : Nat) : wfld (m.setWidth 64) 0 n = m.toNat % 2 ^ n := by
  have hlt := m.isLt
  rw [wfld, BitVec.extractLsb'_toNat, BitVec.toNat_setWidth, Nat.mod_eq_of_lt (show m.toNat < 2 ^ 64 by omega), Nat.shiftRight_zero]

variable {f : GF} {l : Layout} {wait : Bool} {n : Nat}

/-- The index of a lane's contribution, and the type of its value. -/
def Env.redIdx (e : Env) (f : GF) (lane : Nat) : Nat := (e.w.v (redIndex (f.m.toNat % 16) f.d) lane).toNat
def redTy (f : GF) : Ty := if redWidth (f.m.toNat % 16) = 64 then .b64 else .b32

/-- A lane's contribution as operation `op` sends it. -/
def Env.redReq (e : Env) (f : GF) (wait : Bool) (n op lane ba : Nat) (leaf : Leaf) : Req :=
  { id := 0, core := e.core, wg := e.iss.wg, wave := e.iss.wave, lane := lane, op := op, q := e.lead, ctx := e.ctx.num,
    asid := effAsid e.ctx.asid (ba / 8), va := ba / 8, line := ba / 1024, leaf := leaf,
    what := .lred (f.m.toNat % 16) n (e.redIdx f lane) (BitVec.ofNat 64 (e.vec (redTy f) f.d lane)) wait false, lvl := .allocate,
    l1 := false, stamp := 0, word := e.iss.wordPc, who := 1#64 <<< lane }

/-- What the word's operation is, and what its lanes send. -/
structure State.RedSent (s1 : State) (e : Env) (f : GF) (wait : Bool) (n : Nat) (ba : Nat → Nat) (leaf : Nat → Leaf) (t : State) : Prop where
  op   : ∃ r, t.results.getLast? = some r ∧ r.id = s1.nextId ∧ r.cnt = some .lode
    ∧ r.regs = if wait then vregs (redWidth (f.m.toNat % 16) = 64) f.d else []
  reqs : t.reqs = s1.reqs ++ numbered (s1.nextId + 1) (e.act.map fun lane => e.redReq f wait n s1.nextId lane (ba lane) (leaf lane))
  calm : t.recalls = s1.recalls
  byte : t.byte = s1.byte

theorem State.redSend_all {x : Nat → Elem} {ba : Nat → Nat} {leaf : Nat → Leaf} (hact : e.act ≠ [])
    (hxs : s.elemsOf e (fun s lane => s.elemOf e l (e.coords l.rank.toNat false f.b 0 lane) false (redWidth (f.m.toNat % 16)) .rdwr true false)
      = (e.act.map fun lane => (lane, x lane), s1))
    (hx : ∀ lane ∈ e.act, ∃ w fmt ps sc, x lane = .mem (ba lane) w fmt (leaf lane) ps sc)
    (hidx : ∀ lane ∈ e.act, e.redIdx f lane < n) : s1.RedSent e f wait n ba leaf (s.redSend e f l wait n) := by
  have hzero : ∀ lane ∈ e.act, x lane ≠ .zero := fun lane hl => by obtain ⟨w, fmt, ps, sc, h⟩ := hx lane hl; simp [h]
  have hbad : ∀ lane ∈ e.act, ∀ c i, x lane ≠ .bad c i := fun lane hl => by obtain ⟨w, fmt, ps, sc, h⟩ := hx lane hl; simp [h]
  have hne : (e.act.map fun lane => (lane, ba lane, leaf lane)) ≠ [] := by simpa using hact
  rw [State.redSend]
  simp only [wfld_low, Nat.reducePow]
  rw [hxs]
  dsimp only
  rw [filterMap_lanes (α := Nat × Nat × Leaf) (g := fun lane => (lane, ba lane, leaf lane)) (fun lane hl => by
      obtain ⟨w, fmt, ps, sc, h⟩ := hx lane hl
      rw [h]
      exact if_pos (hidx lane hl)),
    filterMap_lanes_nil (α := Nat) (fun lane hl => if_neg (hzero lane hl)),
    filterMap_lanes_nil (α := Nat × Cause × Word) (fun lane hl => by
      obtain ⟨w, fmt, ps, sc, h⟩ := hx lane hl
      rw [h]
      exact if_neg (Nat.not_le.2 (hidx lane hl))),
    badLanes_map hbad]
  rw [if_neg (by simp [hact]), List.foldl_map]
  dsimp only
  rw [foldl_sendReq_map]
  have hnone : e.act.filterMap (fun l => ([] ++ [] : List (Nat × Cause × Word)).find? fun x => x.1 = l) = [] :=
    List.filterMap_eq_nil_iff.2 fun _ _ => rfl
  rw [hnone, State.laneTraps_nil]
  obtain ⟨lane, hlane⟩ := List.exists_mem_of_ne_nil _ hact
  refine ⟨⟨_, (getLast?_map_concat ..).trans (congrArg some ((if_pos rfl).trans (Result.gathered_waits ?_ _))), rfl, rfl, rfl⟩, rfl, rfl, rfl⟩
  simp only [List.map_map]
  exact ⟨_, List.mem_append_left _ (List.mem_map.2 ⟨lane, hlane, rfl⟩), Nat.one_ne_zero⟩

/-- LRED and LREDW alike: `i` is the word whose meaning is the body of `wait`. -/
theorem exec_red {i : Instr} (hi : exec i s = memWord hd none (redUses wait f) (redBody wait f) s)
    (hr : Ready s hd none (redUses wait f) e) (hh : e.w.holds = []) (hact : e.act ≠ []) (hl : Entry s e f.a false f.b l)
    (hmem : l.memory = true) (hrel : bitAt f.m 7 = false) (h1 : 1 ≤ (e.uniform f.c).toNat) (hmax : (e.uniform f.c).toNat ≤ 65536)
    {x : Nat → Elem} {ba : Nat → Nat} {leaf : Nat → Leaf}
    (hxs : s.elemsOf e (fun s lane => s.elemOf e l (e.coords l.rank.toNat false f.b 0 lane) false (redWidth (f.m.toNat % 16)) .rdwr true false)
      = (e.act.map fun lane => (lane, x lane), s1))
    (hx : ∀ lane ∈ e.act, ∃ w fmt ps sc, x lane = .mem (ba lane) w fmt (leaf lane) ps sc)
    (hidx : ∀ lane ∈ e.act, e.redIdx f lane < (e.uniform f.c).toNat) (hcalm : s1.recalls = []) :
    ∃ t, exec i s = .next t ∧ s1.RedSent e f wait (e.uniform f.c).toNat ba leaf t := by
  have hsent := State.redSend_all (wait := wait) hact hxs hx hidx
  have hcount : (decide ((e.uniform f.c).toNat = 0) || decide (65536 < (e.uniform f.c).toNat)) = false := by
    simp only [Bool.or_eq_false_iff, decide_eq_false_iff_not]; omega
  refine ⟨_, hi.trans (memWord_ready hr hh ?_ (hsent.calm.trans (hcalm.trans hr.2.1.symm))), hsent⟩
  rw [redBody, State.form_entry hl hmem]
  simp only [hcount, hact, hrel, Bool.false_eq_true, if_false]

/-! LXPOSE (R295). -/

/-- The copy that a transpose of `x` by `y` elements of `w` bits makes. -/
def State.xposeCopy (s : State) (e : Env) (f : GF) (sL dL : Layout) (x y w : Nat) : Copy :=
  { id := s.nextId, core := e.core, wg := e.iss.wg, wave := e.iss.wave, copyId := 0, status := f.d.toNat, src := sL, dst := dL,
    sc := owOrigin (e.w.s f.a.toNat), dc := owOrigin (e.w.s (f.a.toNat + 1)), box := tileBox x y, w := w, tr := true, lvl := .allocate,
    parts := [], memDst := true, srcObj := none, dstObjs := [], gens := [], cgen := (s.ctxRun e.lead e.ctx.num).gen, save := e.ctx.save,
    ctx := e.ctx.num, q := e.lead, read := [], delivered := [] }

/-- The operation of a word that the lode engine answers in scalar register `f.d`. -/
def lodeResult (f : GF) : Result := { id := 0, wg := 0, wave := 0, cnt := some .lode, regs := [.s f.d.toNat] }

/-- LXPOSE whose operands pass the checks of R276 and R295 starts its operation, and a transpose of that number. -/
theorem exec_lxpose {sL dL : Layout} (hr : Ready s hd none (usesOf (.lxpose hd f)) e) (hh : e.w.holds = []) (hact : e.act ≠ [])
    (hs : s.operand e (e.w.s f.a.toNat) Layout.memory = (.ok sL, s))
    (hdst : s.operand e (e.w.s (f.a.toNat + 1)) Layout.memory = (.ok dL, s))
    {ext : Word} (hext : e.w.s (f.a.toNat + 2) = ext) (hx1 : 1 ≤ wfld ext 0 9) (hx2 : wfld ext 0 9 ≤ 256) (hy1 : 1 ≤ wfld ext 16 9)
    (hy2 : wfld ext 16 9 ≤ 256) (hz1 : wfld ext 9 7 = 0) (hz2 : wfld ext 25 39 = 0)
    (hb1 : (Tile.mk sL (owOrigin (e.w.s f.a.toNat)) (wfld ext 0 9) (wfld ext 16 9) ([8, 16, 32].getD (f.m.toNat % 4) 8)).bounds = true)
    (hb2 : (Tile.mk dL (owOrigin (e.w.s (f.a.toNat + 1))) (wfld ext 16 9) (wfld ext 0 9) ([8, 16, 32].getD (f.m.toNat % 4) 8)).bounds
      = true) :
    exec (.lxpose hd f) s = .next { s.withOp e (lodeResult f) with
      xposes := s.xposes ++ [⟨s.xposeCopy e f sL dL (wfld ext 0 9) (wfld ext 16 9) ([8, 16, 32].getD (f.m.toNat % 4) 8), 0, 0, false⟩] } := by
  have hargs : (decide (wfld ext 0 9 = 0) || decide (256 < wfld ext 0 9) || decide (wfld ext 16 9 = 0) || decide (256 < wfld ext 16 9)
      || decide (wfld ext 9 7 ≠ 0) || decide (wfld ext 25 39 ≠ 0)) = false := by
    simp only [Bool.or_eq_false_iff, decide_eq_false_iff_not]; omega
  refine memWord_ready (body := xposeBody f) hr hh ?_ rfl
  rw [xposeBody, hext, wfld_low, hs]
  dsimp only
  rw [hdst]
  dsimp only
  rw [hargs]
  simp only [hb1, hb2, hact, Nat.reducePow, Bool.not_true, Bool.or_self, Bool.false_eq_true, if_false]
  rw [State.startOp_eq s e rfl rfl rfl]
  rfl

/-- Settles O30: the one lane's contribution is what the lanes together send; a transpose starts where its operands pass. -/
theorem lodeEngineWords : Obligations.LodeEngineWords := by
  unfold Obligations.LodeEngineWords
  intro s hd e f hh
  refine ⟨fun l lane hact hl hmem hrel => ?red, ?xpose⟩
  case red =>
    intro op n idx h1 hmax hidx ba w fmt leaf ps sc s1 hx hcalm sent
    have hone {wait : Bool} {i : Instr} (hi : exec i s = memWord hd none (redUses wait f) (redBody wait f) s)
        (hr : Ready s hd none (redUses wait f) e) : sent i wait (if wait then vregs (redWidth op = 64) f.d else []) := by
      obtain ⟨t, ht, ⟨r, hlast, hid, hcnt, hregs⟩, hreqs, -, hbyte⟩ := exec_red (ba := fun _ => ba) (leaf := fun _ => leaf) hi hr hh
        (Env.act_ne_nil hact) hl hmem hrel h1 hmax (State.elemsOf_one hact hx) (fun _ _ => ⟨w, fmt, ps, sc, rfl⟩)
        (fun y hy => by rw [hact, List.mem_singleton] at hy; exact hy ▸ hidx) hcalm
      rw [hact] at hreqs
      exact ⟨t, r, _, ht, hlast, hcnt, hregs, hreqs, hid.symm, rfl, rfl, rfl, congrFun hbyte⟩
    exact ⟨fun hr => hone rfl hr, fun hr => hone rfl hr⟩
  case xpose =>
    intro hr hact src dst ext x y w sL dL hs hdst hx1 hx2 hy1 hy2 hz1 hz2 hb1 hb2
    exact ⟨_, _, exec_lxpose hr hh hact hs hdst rfl hx1 hx2 hy1 hy2 hz1 hz2 hb1 hb2,
      sends_withOp (r := lodeResult f) (State.env?_wave hr.1) rfl rfl rfl rfl rfl rfl, rfl, rfl, rfl, rfl, rfl, rfl, rfl, rfl, rfl, rfl⟩

end Sys2Proof.Machine
end

section
/-! PROOFS. Loads and stores of scratch (O18: R250 to R253): what a load's lanes are fed, and what it answers when all have come. -/
namespace Sys2Proof.Machine

variable {s s1 t : State} {hd : Hdr} {e : Env} {l : Layout}

/-! Elements in the scratchpad. -/

/-- An element of scratch without a block's scale byte. -/
def Elem.plainScr (x : Elem) : Prop := ∃ j ba w fmt, x = .scr j ba w fmt none

/-- The bits that the scratchpads of `g` hold of an element. -/
def Elem.scrBits (g : Workgroup) (l : Layout) (x : Elem) : Nat :=
  match x with
  | .scr j ba w _ _ => (g.part j).bits (some l) ba w
  | _ => 0

/-- The format an element of scratch is decoded by. -/
def Elem.scrFmt (x : Elem) : BitVec 4 :=
  match x with
  | .scr _ _ _ fmt _ => fmt
  | _ => 0

theorem State.elemOf_scr {c : List Int} (hin : l.inb c = true) (hmem : l.memory = false) (decode : Bool) (w : Nat) (need : Need)
    (align reg : Bool) :
    s.elemOf e l c decode w need align reg = (scrElem e.wg e.part l c decode w (need = .wr || need = .rdwr) align, s) := by
  simp only [State.elemOf, hin, hmem, Bool.not_true, Bool.false_eq_true, if_false]

/-- An aligned element is found too where no alignment is asked for. -/
theorem scrElem_unaligned {g : Workgroup} {me w j ba w' : Nat} {c : List Int} {decode wr : Bool} {fmt : BitVec 4} {sc : Option Nat}
    (h : scrElem g me l c decode w wr true = .scr j ba w' fmt sc) : scrElem g me l c decode w wr false = .scr j ba w' fmt sc := by
  have hskip {a : Bool} {x y z : Elem} (h : (if true && a then x else y) = z) (hne : x ≠ z) : (if false && a then x else y) = z := by
    cases a
    · exact h
    · exact absurd h hne
  unfold scrElem at h ⊢
  cases hpart : l.partFor g me with
  | none => rw [hpart] at h; exact absurd h (by simp)
  | some i =>
    rw [hpart] at h
    exact hskip h (by simp)

theorem State.regOk_scr {x : Elem} (hx : x.plainScr) (ty : Ty) (wr : Bool) : s.regOk e x ty wr = (x, s) := by
  obtain ⟨j, ba, w, fmt, rfl⟩ := hx
  rfl

theorem Elem.ueOk_clean {g : Workgroup} {j ba w : Nat} {fmt : BitVec 4} (hue : (g.part j).ue = []) (hlost : (g.part j).lost = [])
    (l : Layout) (wr : Bool) : (Elem.scr j ba w fmt none).ueOk g l wr = .scr j ba w fmt none :=
  if_neg (by simp [Part.bad_clean hue hlost])

theorem goodLanes_scr {x : Nat → Elem} {L : List Nat} (h : ∀ lane ∈ L, (x lane).plainScr) :
    goodLanes (L.map fun lane => (lane, x lane)) = L.map fun lane => (lane, x lane) := by
  refine List.filter_eq_self.2 fun p hp => ?_
  obtain ⟨lane, hl, rfl⟩ := List.mem_map.1 hp
  obtain ⟨j, ba, w, fmt, hx⟩ := h lane hl
  simp only [hx]

theorem zeroLanes_scr {x : Nat → Elem} {L : List Nat} (h : ∀ lane ∈ L, (x lane).plainScr) :
    zeroLanes (L.map fun lane => (lane, x lane)) = [] :=
  zeroLanes_map fun lane hl => by obtain ⟨j, ba, w, fmt, hx⟩ := h lane hl; simp [hx]

theorem badLanes_scr {x : Nat → Elem} {L : List Nat} (h : ∀ lane ∈ L, (x lane).plainScr) :
    badLanes (L.map fun lane => (lane, x lane)) = [] :=
  badLanes_map fun lane hl => by obtain ⟨j, ba, w, fmt, hx⟩ := h lane hl; simp [hx]

/-! What arrives for a load. -/

/-- A lane's load to which its one part has come. -/
def LaneLoad.fed (x : LaneLoad) (v : Nat) : LaneLoad := { x with raw := x.raw ||| BitVec.ofNat 64 v, parts := x.parts - 1 }

/-- A load of which lane `lane` gets its part. -/
def Result.fedLane (r : Result) (lane v : Nat) : Result :=
  { r with lanes := r.lanes.map fun x => if x.lane ≠ lane then x else x.fed v }

theorem State.feed_whole (s : State) (op lane v : Nat) : s.feed op lane 0 v 1 = s.modResult op fun r => r.fedLane lane v := rfl

theorem State.modResult_modResult (s : State) (op : Nat) {f g : Result → Result} (hf : ∀ r, (f r).id = r.id) :
    (s.modResult op f).modResult op g = s.modResult op fun r => g (f r) := by
  simp only [State.modResult, List.map_map]
  refine congrArg (fun x => { s with results := x }) (List.map_congr_left fun r _ => ?_)
  by_cases h : r.id = op <;> simp [h, hf]

theorem State.modResult_id (s : State) (op : Nat) : (s.modResult op fun r => r) = s := by
  simp [State.modResult]

/-- The lanes `L` of a load get what `v` says, one after another. -/
def Result.fedLanes (r : Result) (v : Nat → Nat) (L : List Nat) : Result := L.foldl (fun r lane => r.fedLane lane (v lane)) r

/-- Only its lanes change. -/
theorem Result.fedLanes_keeps {α : Type} {k : Result → α} (hk : ∀ r ls, k { r with lanes := ls } = k r) (v : Nat → Nat) (L : List Nat)
    (r : Result) : k (r.fedLanes v L) = k r :=
  foldl_keeps k (f := fun r lane => r.fedLane lane (v lane)) (fun r _ => hk r _) L r

/-- Lanes whose elements lie in scratch are fed what the scratchpads hold. -/
theorem State.loadLanes_scr {x : Nat → Elem} {who : Nat → BitVec 64} {op pol : Nat} {L : List Nat}
    (hx : ∀ lane ∈ L, (x lane).plainScr) {g : Workgroup} (s : State) (hg : ∀ j, s.partOf e.iss.wg j = g.part j) :
    (L.map fun lane => (lane, x lane)).foldl (fun s y => s.loadLane e op y.1 (who y.1) pol l y.2) s
      = s.modResult op fun r => r.fedLanes (fun lane => (x lane).scrBits g l) L := by
  induction L generalizing s with
  | nil => exact (s.modResult_id op).symm
  | cons lane L ih =>
    obtain ⟨j, ba, w, fmt, hlane⟩ := hx lane (List.mem_cons_self ..)
    have hone : s.loadLane e op lane (who lane) pol l (x lane) = s.modResult op fun r => r.fedLane lane ((x lane).scrBits g l) := by
      rw [hlane, Elem.scrBits, ← hg]
      rfl
    rw [List.map_cons, List.foldl_cons, hone, ih (fun y hy => hx y (List.mem_cons_of_mem _ hy))
      (s.modResult op fun r => r.fedLane lane ((x lane).scrBits g l)) hg, State.modResult_modResult]
    · rfl
    · exact fun _ => rfl

/-- Each of the lanes is fed once. -/
theorem Result.lanes_fedLanes {v : Nat → Nat} {L : List Nat} (r : Result) {a : Nat → LaneLoad} {M : List Nat} (ha : ∀ lane, (a lane).lane = lane)
    (hr : r.lanes = M.map a) (hn : L.Nodup) :
    (r.fedLanes v L).lanes = M.map fun lane => if lane ∈ L then (a lane).fed (v lane) else a lane := by
  induction L generalizing r a with
  | nil => simpa [Result.fedLanes] using hr
  | cons y L ih =>
    obtain ⟨hy, hL⟩ := List.nodup_cons.1 hn
    have hfed : (r.fedLane y (v y)).lanes = M.map fun lane => if lane = y then (a lane).fed (v lane) else a lane := by
      rw [Result.fedLane, hr, List.map_map]
      refine List.map_congr_left fun lane _ => ?_
      by_cases h : lane = y
      · subst h; simp [ha]
      · simp [ha, h]
    rw [Result.fedLanes, List.foldl_cons]
    refine (ih _ (fun lane => ?_) hfed hL).trans (List.map_congr_left fun lane _ => ?_)
    · split
      · exact ha lane
      · exact ha lane
    · by_cases h : lane = y
      · subst h; simp [hy]
      · simp [h]

/-! A load of scratch as a whole. -/

/-- The operation of a load of scratch, before its lanes have what they wait for. -/
def State.scrLoad (s : State) (l : Layout) (ty : Ty) (reg : Reg) (regs : List Reg) (acq : Option (BitVec 3)) (x : Nat → Elem)
    (who : Nat → BitVec 64) (L : List Nat) : Result :=
  { id := 0, wg := 0, wave := 0, cnt := some .ld, regs := regs, readyAt := s.clk + loadLat l (L.map fun lane => (lane, x lane)), acq := acq,
    lanes := L.map fun lane => laneLoad ty reg lane (who lane) (x lane) }

/-- The same operation answered. -/
def State.scrAnswer (s : State) (e : Env) (l : Layout) (ty : Ty) (reg : Reg) (regs : List Reg) (acq : Option (BitVec 3)) (x : Nat → Elem)
    (who : Nat → BitVec 64) (L : List Nat) : Result :=
  ((e.ownOp s.nextId (s.scrLoad l ty reg regs acq x who L)).fedLanes (fun lane => (x lane).scrBits e.wg l) L).gathered s.clk

variable {ty : Ty} {reg : Reg} {regs : List Reg} {acq : Option (BitVec 3)} {x : Nat → Elem} {who : Nat → BitVec 64} {L : List Nat}

theorem State.sendLoad_scr (hx : ∀ lane ∈ L, (x lane).plainScr) (hL : L ≠ []) (hwg : s.wg? e.iss.wg = some e.wg) (pol : Nat) :
    s.sendLoad e l ty pol reg regs acq (L.map fun lane => (lane, x lane)) who
      = (s.startOp e (s.scrLoad l ty reg regs acq x who L)).2.modResult s.nextId fun r =>
        (r.fedLanes (fun lane => (x lane).scrBits e.wg l) L).gathered s.clk := by
  have hparts (pa : Nat) : (s.startOp e (s.scrLoad l ty reg regs acq x who L)).2.partOf e.iss.wg pa = e.wg.part pa := by
    refine (State.partOf_modWave ..).trans ?_
    show s.partOf e.iss.wg pa = _
    rw [State.partOf, hwg]
  have hnone : ((L.map fun lane => (lane, x lane)).flatMap fun y => y.2.eparts) = [] := by
    rw [List.flatMap_eq_nil_iff]
    intro y hy
    obtain ⟨lane, hl, rfl⟩ := List.mem_map.1 hy
    obtain ⟨j, ba, w, fmt, h⟩ := hx lane hl
    rw [h]; rfl
  rw [State.sendLoad]
  simp only [goodLanes_scr hx, zeroLanes_scr hx, hnone, List.foldl_nil, ite_self, List.map_nil, List.append_nil, List.map_map]
  rw [if_neg (by simp [hL])]
  have hop := State.loadLanes_scr (l := l) (who := who) (op := s.nextId) (pol := pol) hx _ hparts
  exact (congrArg (fun t => t.modResult s.nextId fun o => o.gathered s.clk) hop).trans
    (State.modResult_modResult _ _ fun r => Result.fedLanes_keeps (k := Result.id) (fun _ _ => rfl) _ L r)

/-- The lanes of the operation when all have come. -/
theorem State.scrAnswer_lanes (hn : L.Nodup) (s : State) :
    ((e.ownOp s.nextId (s.scrLoad l ty reg regs acq x who L)).fedLanes (fun lane => (x lane).scrBits e.wg l) L).lanes
      = L.map fun lane => (laneLoad ty reg lane (who lane) (x lane)).fed ((x lane).scrBits e.wg l) :=
  (Result.lanes_fedLanes _ (fun _ => rfl) rfl hn).trans (List.map_congr_left fun _ h => if_pos h)

/-- The value that a lane's register gets of its element. -/
def Elem.scrVal (g : Workgroup) (l : Layout) (ty : Ty) (x : Elem) : Nat :=
  (loadVal ty x.scrFmt (some 127) (BitVec.ofNat 64 (x.scrBits g l)).toNat).1

theorem laneLoad_fed {y : Elem} (hy : y.plainScr) (lane : Nat) (m : BitVec 64) (v : Nat) :
    let z := (laneLoad ty reg lane m y).fed v
    z.parts = 0 ∧ z.raw = BitVec.ofNat 64 v ∧ z.fmt = y.scrFmt ∧ z.ty = ty ∧ z.scale = 127 ∧ z.reg = reg ∧ z.wide = ty.is64 ∧ z.lane = lane := by
  obtain ⟨j, ba, w, fmt, rfl⟩ := hy
  exact ⟨rfl, BitVec.zero_or, rfl, rfl, rfl, rfl, rfl, rfl⟩

/-- What the operation answers. -/
theorem State.scrAnswer_writes (hx : ∀ lane ∈ L, (x lane).plainScr) (hL : L ≠ []) (hn : L.Nodup) (s : State) :
    (s.scrAnswer e l ty reg regs acq x who L).writes = L.flatMap (fun lane => loadWrites reg ty ty.is64 lane ((x lane).scrVal e.wg l ty))
      ∧ (s.scrAnswer e l ty reg regs acq x who L).ready = true := by
  have hlanes := State.scrAnswer_lanes (e := e) (l := l) (ty := ty) (reg := reg) (regs := regs) (acq := acq) (x := x) (who := who) hn s
  have hwait : ¬(decide (((e.ownOp s.nextId (s.scrLoad l ty reg regs acq x who L)).fedLanes (fun lane => (x lane).scrBits e.wg l) L).lanes = [])
      || ((e.ownOp s.nextId (s.scrLoad l ty reg regs acq x who L)).fedLanes (fun lane => (x lane).scrBits e.wg l) L).lanes.any
        (fun x => x.parts ≠ 0)) = true := by
    rw [hlanes, Bool.or_eq_true, not_or]
    refine ⟨by simp [hL], ?_⟩
    rw [List.any_eq_true]
    rintro ⟨z, hz, hparts⟩
    obtain ⟨lane, hl, rfl⟩ := List.mem_map.1 hz
    simp [(laneLoad_fed (hx lane hl) lane (who lane) _).1] at hparts
  rw [State.scrAnswer, Result.gathered, if_neg hwait]
  refine ⟨?_, rfl⟩
  dsimp only
  rw [Result.fedLanes_keeps (k := Result.writes) (fun _ _ => rfl), hlanes, List.map_map, List.flatMap_map]
  refine (List.nil_append _).trans (List.flatMap_congr fun lane hl => ?_)
  obtain ⟨-, hraw, hfmt, hty, hscale, hreg, hwide, hlane⟩ := laneLoad_fed (ty := ty) (reg := reg) (hx lane hl) lane (who lane) ((x lane).scrBits e.wg l)
  dsimp only [Function.comp]
  rw [hraw, hfmt, hty, hscale, hreg, hwide, hlane]
  rfl

/-- The state with the load sent and answered. -/
def State.scrLoaded (s : State) (e : Env) (l : Layout) (ty : Ty) (reg : Reg) (regs : List Reg) (acq : Option (BitVec 3)) (x : Nat → Elem)
    (who : Nat → BitVec 64) (L : List Nat) : State :=
  (s.startOp e (s.scrLoad l ty reg regs acq x who L)).2.modResult s.nextId fun r =>
    (r.fedLanes (fun lane => (x lane).scrBits e.wg l) L).gathered s.clk

theorem State.scrLoaded_results (s : State) (e : Env) :
    (s.scrLoaded e l ty reg regs acq x who L).results.getLast? = some (s.scrAnswer e l ty reg regs acq x who L) :=
  (getLast?_map_concat ..).trans (congrArg some (if_pos rfl))

theorem State.scrLoaded_partOf (s : State) (e : Env) (id k : Nat) : (s.scrLoaded e l ty reg regs acq x who L).partOf id k = s.partOf id k :=
  State.partOf_modWave ..

/-- The answer is the word's operation. -/
theorem Result.gathered_keeps {α : Type} {k : Result → α} (hk : ∀ r ls a b c d, k { r with lanes := ls, ready := a, readyAt := b, writes := c, flags := d } = k r)
    (clk : Nat) (r : Result) : k (r.gathered clk) = k r := by
  rw [Result.gathered]
  split
  · rfl
  · exact hk ..

theorem State.scrAnswer_keeps {α : Type} {k : Result → α}
    (hk : ∀ r ls a b c d, k { r with lanes := ls, ready := a, readyAt := b, writes := c, flags := d } = k r) (s : State) (e : Env) :
    k (s.scrAnswer e l ty reg regs acq x who L) = k (e.ownOp s.nextId (s.scrLoad l ty reg regs acq x who L)) :=
  (Result.gathered_keeps hk ..).trans (Result.fedLanes_keeps (fun r ls => hk r ls r.ready r.readyAt r.writes r.flags) ..)

/-- A load of scratch that is sent is answered at once with what the scratchpads hold, and changes neither them nor memory. -/
theorem State.scrLoaded_answers (hx : ∀ lane ∈ L, (x lane).plainScr) (hL : L ≠ []) (hn : L.Nodup) (s : State) :
    ∃ r, (s.scrLoaded e l ty reg regs acq x who L).results.getLast? = some r ∧ r.id = s.nextId ∧ r.regs = regs ∧ r.cnt = some .ld
      ∧ r.acq = acq ∧ r.ready = true ∧ r.wg = e.iss.wg ∧ r.wave = e.iss.wave
      ∧ r.writes = L.flatMap fun lane => loadWrites reg ty ty.is64 lane ((x lane).scrVal e.wg l ty) := by
  obtain ⟨hwrites, hready⟩ := State.scrAnswer_writes (e := e) (l := l) (ty := ty) (reg := reg) (regs := regs) (acq := acq) (who := who) hx hL hn s
  have hkeeps {α : Type} {k : Result → α}
      (hk : ∀ r ls a b c d, k { r with lanes := ls, ready := a, readyAt := b, writes := c, flags := d } = k r) :=
    State.scrAnswer_keeps (l := l) (ty := ty) (reg := reg) (regs := regs) (acq := acq) (x := x) (who := who) (L := L) hk s e
  exact ⟨_, s.scrLoaded_results e, hkeeps (k := Result.id) fun _ _ _ _ _ _ => rfl, hkeeps (k := Result.regs) fun _ _ _ _ _ _ => rfl,
    hkeeps (k := Result.cnt) fun _ _ _ _ _ _ => rfl, hkeeps (k := Result.acq) fun _ _ _ _ _ _ => rfl, hready,
    hkeeps (k := Result.wg) fun _ _ _ _ _ _ => rfl, hkeeps (k := Result.wave) fun _ _ _ _ _ _ => rfl, hwrites⟩

/-! LD and LDS of scratch (R251, R252). -/

section Load
variable {f : MF}

/-- The elements of LD, and of LDS. -/
def Env.loadElem (e : Env) (f : MF) (l : Layout) (sc : Bool) (lane : Nat) : Elem :=
  scrElem e.wg e.part l (e.coords l.rank.toNat sc f.k f.off lane) (!rawTy (memTy f.var.toNat)) (memWidth f.var.toNat) false true

/-- An element of the scratchpad that a load may read. -/
def Env.readable (e : Env) (f : MF) (l : Layout) (sc : Bool) (lane : Nat) : Prop :=
  l.inb (e.coords l.rank.toNat sc f.k f.off lane) = true ∧ ∃ j ba w fmt, e.loadElem f l sc lane = .scr j ba w fmt none
    ∧ (e.wg.part j).ue = [] ∧ (e.wg.part j).lost = []

theorem Env.readable_plain {sc : Bool} {lane : Nat} (h : e.readable f l sc lane) : (e.loadElem f l sc lane).plainScr := by
  obtain ⟨-, j, ba, w, fmt, hx, -⟩ := h
  exact ⟨j, ba, w, fmt, hx⟩

/-- How LD and LDS find such an element: in bounds, on no register page, without an error. -/
theorem State.loadElem_found {sc : Bool} {lane : Nat} (h : e.readable f l sc lane) (hmem : l.memory = false) :
    s.elemOf e l (e.coords l.rank.toNat sc f.k f.off lane) (!rawTy (memTy f.var.toNat)) (memWidth f.var.toNat) .rd false true
        = (e.loadElem f l sc lane, s)
      ∧ s.regOk e (e.loadElem f l sc lane) (memTy f.var.toNat) false = (e.loadElem f l sc lane, s)
      ∧ (e.loadElem f l sc lane).ueOk e.wg l false = e.loadElem f l sc lane := by
  obtain ⟨hin, j, ba, w, fmt, hx, hue, hlost⟩ := h
  refine ⟨(State.elemOf_scr hin hmem ..).trans (congrArg (·, s) ((scrElem_unaligned hx).trans hx.symm)), State.regOk_scr ⟨j, ba, w, fmt, hx⟩ .., ?_⟩
  rw [hx]
  exact Elem.ueOk_clean hue hlost l false

/-- LD of scratch: every lane's load is sent, and answered as the scratchpads stand. -/
theorem exec_ld_scr (hr : Ready s hd none (usesOf (.ld hd f)) e) (hh : e.w.holds = []) (hact : e.act ≠ []) (hl : Entry s e f.h false f.k l)
    (hmem : l.memory = false) (hx : ∀ lane ∈ e.act, e.readable f l false lane) :
    exec (.ld hd f) s = .next (s.scrLoaded e l (memTy f.var.toNat) (.v f.data.toNat) (vregs (memTy f.var.toNat).is64 f.data)
      (if bitAt f.var 3 then some f.scope else none) (e.loadElem f l false) (fun i => 1#64 <<< i) e.act) := by
  have hplain : ∀ lane ∈ e.act, (e.loadElem f l false lane).plainScr := fun lane hlane => Env.readable_plain (hx lane hlane)
  refine memWord_ready (body := ldBody f) hr hh ?_ rfl
  rw [ldBody]
  dsimp only
  rw [State.form_entry hl rfl, State.elemsOf_stays (x := e.loadElem f l false) fun lane hlane => ?_]
  · dsimp only
    rw [badLanes_scr hplain, State.laneTraps_nil, State.sendLoad_scr hplain hact (State.env?_some hr.1).2.1]
    rfl
  · obtain ⟨h1, h2, h3⟩ := State.loadElem_found (s := s) (hx lane hlane) hmem
    simp only [h1, h2, h3]

/-- LDS of scratch: the first active lane's element, for every active thread. -/
theorem exec_lds_scr (hr : Ready s hd none (usesOf (.lds hd f)) e) (hh : e.w.holds = []) {lane : Nat} (hlane : e.act.head? = some lane)
    (hl : Entry s e f.h true f.k l) (hmem : l.memory = false) (hx : e.readable f l true lane) :
    exec (.lds hd f) s = .next (s.scrLoaded e l (memTy f.var.toNat) (.s f.data.toNat) [.s f.data.toNat] none (e.loadElem f l true)
      (fun _ => maskOf e.act) [lane]) := by
  have hplain : ∀ y ∈ [lane], (e.loadElem f l true y).plainScr := fun y hy => List.mem_singleton.1 hy ▸ Env.readable_plain hx
  obtain ⟨h1, h2, h3⟩ := State.loadElem_found (s := s) hx hmem
  refine memWord_ready (body := ldsBody f) hr hh ?_ rfl
  rw [ldsBody]
  dsimp only
  rw [State.form_entry hl rfl]
  simp only [hlane, h1, h2, h3]
  obtain ⟨j, ba, w, fmt, hel⟩ := Env.readable_plain hx
  have hsend := State.sendLoad_scr (s := s) (l := l) (ty := memTy f.var.toNat) (reg := .s f.data.toNat) (regs := [.s f.data.toNat])
    (acq := none) (who := fun _ => maskOf e.act) hplain (by simp) (State.env?_some hr.1).2.1 f.pol.toNat
  rw [List.map_singleton] at hsend
  rw [hsend, hel]
  rfl

end Load

/-! ST to scratch (R250, R253). -/

section Store
variable {f : MF} {j : Nat}

/-- The part after the stores of the lanes, the highest last. -/
def Part.stored (p : Part) (e : Env) (f : MF) (l : Layout) (x : Nat → Elem) (L : List Nat) : Part :=
  L.foldl (fun p lane => match x lane with
    | .scr _ ba w fmt _ => p.setBits (some l) ba w (storeVal (memTy f.var.toNat) fmt none (e.vec (memTy f.var.toNat) f.data lane)).1
    | _ => p) p

/-- What stores to part `j` change of the state: that part, and the threads that wait at its objects. -/
structure State.PartDone (s : State) (wg j : Nat) (g : Part → Part) (t : State) : Prop where
  parts   : (t.wg? wg).map (·.parts) = (s.wg? wg).map fun w => w.parts.modify j g
  byte    : ∀ pa, t.byte pa = s.byte pa
  results : t.results = s.results
  recalls : t.recalls = s.recalls
  calm    : (∀ w, s.wg? wg = some w → w.noWaits) → (∀ w, t.wg? wg = some w → w.noWaits) ∧ ∀ o, t.reg o = s.reg o

theorem State.PartDone.none (s : State) (wg j : Nat) : s.PartDone wg j (fun p => p) s :=
  ⟨congrArg (Option.map · _) (funext fun w => (List.modify_id j w.parts).symm), fun _ => rfl, rfl, rfl, fun h => ⟨h, fun _ => rfl⟩⟩

theorem State.PartDone.next {wg : Nat} {g g' : Part → Part} (h : s.PartDone wg j g s1) (h' : s1.PartDone wg j g' t) :
    s.PartDone wg j (fun p => g' (g p)) t where
  parts := by
    have h2 : (s1.wg? wg).map (fun w => w.parts.modify j g') = ((s1.wg? wg).map (·.parts)).map (·.modify j g') := by
      rw [Option.map_map]; rfl
    rw [h'.parts, h2, h.parts, Option.map_map]
    exact congrArg (Option.map · _) (funext fun w => List.modify_modify_eq ..)
  byte pa := (h'.byte pa).trans (h.byte pa)
  results := h'.results.trans h.results
  recalls := h'.recalls.trans h.recalls
  calm hno := by
    obtain ⟨h1, h2⟩ := h.calm hno
    obtain ⟨h3, h4⟩ := h'.calm h1
    exact ⟨h3, fun o => (h4 o).trans (h2 o)⟩

/-- An update of a part, and the waking of those who wait at its objects (R108). -/
theorem State.PartDone.update (s : State) (wg j : Nat) (g : Part → Part) : s.PartDone wg j g ((s.modPart wg j g).wakeBarriers wg j) where
  parts := by
    have hwake := State.wakeBarriers_keeps (g := fun t => (t.wg? wg).map (·.parts)) (fun t id k f =>
        State.map_wg?_modWg (f := fun w => { w with waves := w.waves.modify k f }) (fun _ => rfl) (fun _ => rfl) ..)
      (fun t core => by rw [State.advanceNow]; split <;> rfl) (s.modPart wg j g) wg j
    refine hwake.trans ?_
    rw [State.modPart, State.wg?_modWg_self s wg (f := fun w => { w with parts := w.parts.modify j g }) fun _ => rfl, Option.map_map]
    rfl
  byte pa := State.byte_wakeBarriers ..
  results := State.wakeBarriers_keeps (g := State.results) (fun _ _ _ _ => rfl) (fun t core => by rw [State.advanceNow]; split <;> rfl) ..
  recalls := State.recalls_wakeBarriers ..
  calm hno := by
    rw [State.wakeBarriers_modPart hno]
    refine ⟨fun w hw => ?_, fun _ => rfl⟩
    rw [State.modPart, State.wg?_modWg_self s wg (f := fun w => { w with parts := w.parts.modify j g }) fun _ => rfl] at hw
    obtain ⟨v, hv, rfl⟩ := Option.map_eq_some_iff.1 hw
    exact hno v hv

/-- Such an update for each of a list, one after another. -/
theorem State.PartDone.foldl {α : Type} {wg : Nat} {F : State → α → State} {g : Part → α → Part} (L : List α)
    (h : ∀ (s : State), ∀ a ∈ L, s.PartDone wg j (g · a) (F s a)) (s : State) : s.PartDone wg j (fun p => L.foldl g p) (L.foldl F s) := by
  induction L generalizing s with
  | nil => exact .none s wg j
  | cons a L ih => exact (h s a (List.mem_cons_self ..)).next (ih (fun s b hb => h s b (List.mem_cons_of_mem _ hb)) _)

theorem State.PartDone.partOf {w : Workgroup} {wg : Nat} {g : Part → Part} (h : s.PartDone wg j g t) (hw : s.wg? wg = some w) :
    (j < w.parts.length → t.partOf wg j = g (s.partOf wg j)) ∧ ∀ k, k ≠ j → t.partOf wg k = s.partOf wg k := by
  have hparts := h.parts
  rw [hw] at hparts
  obtain ⟨v, hv, hmod⟩ := Option.map_eq_some_iff.1 hparts
  rw [State.partOf_eq_map, hv, Option.map_some, Option.getD_some, Workgroup.part, hmod]
  refine ⟨fun hj => ?_, fun k hk => ?_⟩
  · rw [State.partOf, hw]
    simp [Workgroup.part, List.getD_eq_getElem?_getD, hj]
  · rw [State.partOf_eq_map, hv, State.partOf, hw, Option.map_some, Option.getD_some, Workgroup.part, hmod]
    simp [Workgroup.part, List.getD_eq_getElem?_getD, Ne.symm hk]

/-- The scratch stores of the lanes. -/
theorem State.storeLanes_scr {x : Nat → Elem} {L : List Nat} (hx : ∀ lane ∈ L, ∃ ba w fmt, x lane = .scr j ba w fmt none) (s : State)
    (pol : Nat) (direct : Bool) :
    s.PartDone e.iss.wg j (fun p => p.stored e f l x L) ((L.map fun lane => (lane, x lane)).foldl (fun s y =>
      s.storeLane e (memTy f.var.toNat) pol direct l y.1 (e.vec (memTy f.var.toNat) f.data y.1) y.2) s) := by
  rw [List.foldl_map]
  refine State.PartDone.foldl L (fun s lane hl => ?_) s
  obtain ⟨ba, w, fmt, h⟩ := hx lane hl
  simp only [h]
  exact State.PartDone.update ..

/-- The wave with the SLI flags of the stored elements (R153). -/
def Wave.withStoreFlags (w : Wave) (e : Env) (f : MF) (x : Nat → Elem) : Wave :=
  (e.act.map fun lane => (lane, x lane)).foldl (fun w y => w.modThread y.1 fun t =>
    { t with sli := t.sli ||| storeFlags (memTy f.var.toNat) (e.vec (memTy f.var.toNat) f.data y.1) y.2 }) w

/-- The element that ST writes. -/
def Env.storeElem (e : Env) (f : MF) (l : Layout) (lane : Nat) : Elem :=
  scrElem e.wg e.part l (e.coords l.rank.toNat false f.k f.off lane) (!rawTy (memTy f.var.toNat)) (memWidth f.var.toNat) true false

theorem exec_st_scr (hr : Ready s hd none (usesOf (.st hd f)) e) (hh : e.w.holds = []) (hact : e.act ≠ []) (hl : Entry s e f.h false f.k l)
    (hmem : l.memory = false) (hrel : bitAt f.var 3 = false)
    (hin : ∀ lane ∈ e.act, l.inb (e.coords l.rank.toNat false f.k f.off lane) = true)
    (hx : ∀ lane ∈ e.act, ∃ ba w fmt, e.storeElem f l lane = .scr j ba w fmt none) :
    ∃ t, exec (.st hd f) s = .next (t.now e fun w => w.withStoreFlags e f (e.storeElem f l)) ∧ s.PartDone e.iss.wg j (fun p => p.stored e f l (e.storeElem f l) e.act) t := by
  have hplain : ∀ lane ∈ e.act, (e.storeElem f l lane).plainScr := fun lane hlane => ⟨j, hx lane hlane⟩
  have hdone := State.storeLanes_scr (e := e) (l := l) (f := f) hx s f.pol.toNat false
  refine ⟨_, memWord_ready (body := stBody f) hr hh ?_ (hdone.recalls), hdone⟩
  rw [stBody, State.form_entry hl rfl, if_neg hact, hrel, if_neg (by simp), State.sendStores]
  dsimp only
  rw [State.elemsOf_stays (x := e.storeElem f l) fun lane hlane => ?_]
  · dsimp only
    rw [badLanes_scr hplain, State.laneTraps_nil, goodLanes_scr hplain, hrel]
    rfl
  · obtain ⟨ba, w, fmt, h⟩ := hx lane hlane
    have helem : s.elemOf e l (e.coords l.rank.toNat false f.k f.off lane) (!rawTy (memTy f.var.toNat)) (memWidth f.var.toNat) .wr false true
        = (.scr j ba w fmt none, s) := (State.elemOf_scr (hin lane hlane) hmem ..).trans (congrArg (·, s) h)
    rw [helem, h]
    rfl

end Store

/-- Settles O18: a load's lanes are fed what the scratchpads hold, a store's write their elements in order. -/
theorem scratchAccesses : Obligations.ScratchAccesses := by
  unfold Obligations.ScratchAccesses
  refine ⟨fun s hd e f l hh hact hmem => ⟨fun hr hl hacq hx => ?ld, fun hr hl hx => ?lds⟩, fun s hd e f l hh hact hr hl hrel hmem => ?st⟩
  case ld =>
    have hplain : ∀ lane ∈ e.act, (e.loadElem f l false lane).plainScr := fun lane hlane => Env.readable_plain (hx lane hlane)
    obtain ⟨r, hr1, -, hregs, hcnt, -, hready, hwg, hwave, hwrites⟩ := s.scrLoaded_answers (e := e) (l := l) (ty := memTy f.var.toNat)
      (reg := .v f.data.toNat) (regs := vregs (memTy f.var.toNat).is64 f.data) (acq := if bitAt f.var 3 then some f.scope else none)
      (who := fun i => 1#64 <<< i) hplain hact (State.env?_act hr.1).1
    refine ⟨_, r, exec_ld_scr hr hh hact hl hmem hx, hr1, hregs, hcnt, hready, hwg, hwave,
      hwrites.trans (List.flatMap_congr fun lane hlane => ?_), fun _ => rfl, fun k => State.scrLoaded_partOf ..⟩
    obtain ⟨-, j, ba, w, fmt, hel, -⟩ := hx lane hlane
    simp only [Env.loadElem] at hel ⊢
    simp only [hel]
    rfl
  case lds =>
    cases hhead : e.act.head? with
    | none => exact absurd (List.head?_eq_none_iff.1 hhead) hact
    | some lane =>
      have hread : e.readable f l true lane := hx lane hhead
      have hplain : ∀ y ∈ [lane], (e.loadElem f l true y).plainScr := fun y hy => List.mem_singleton.1 hy ▸ Env.readable_plain hread
      obtain ⟨r, hr1, -, hregs, hcnt, -, hready, hwg, hwave, hwrites⟩ := s.scrLoaded_answers (e := e) (l := l) (ty := memTy f.var.toNat)
        (reg := .s f.data.toNat) (regs := [.s f.data.toNat]) (acq := none) (who := fun _ => maskOf e.act) hplain (by simp)
        (List.nodup_singleton lane)
      refine ⟨_, r, exec_lds_scr hr hh hhead hl hmem hread, hr1, hregs, hcnt, hready, hwg, hwave, hwrites.trans ?_, fun _ => rfl,
        fun k => State.scrLoaded_partOf ..⟩
      obtain ⟨-, j, ba, w, fmt, hel, -⟩ := hread
      rw [List.flatMap_singleton, List.headD_eq_head?_getD, hhead]
      rw [Env.loadElem] at hel ⊢
      simp only [Option.getD_some, hel]
      rfl
  case st =>
    intro ty x j hj hx
    obtain ⟨t, ht, hdone⟩ := exec_st_scr hr hh hact hl hmem hrel (fun lane hlane => (hx lane hlane).1) fun lane hlane => (hx lane hlane).2
    obtain ⟨hpart, hothers⟩ := hdone.partOf (State.env?_some hr.1).2.1
    refine ⟨_, ht, (State.partOf_modWave ..).trans (hpart hj), fun k hk => (State.partOf_modWave ..).trans (hothers k hk), hdone.byte, hdone.results,
      fun hno => (hdone.calm (State.env?_noWaits hr.1 hno)).2⟩

end Sys2Proof.Machine
end

section
/-! PROOFS. Several lanes of one issue (O60: R250, R252, R253, R256, R257, R291). -/
namespace Sys2Proof.Machine

variable {s s1 t : State} {hd : Hdr} {e : Env} {l : Layout} {f : MF}

/-! ST of lanes that name one element of memory (R250, R253). -/

section Store
variable {ba w : Nat} {fmt : BitVec 4} {leaf : Leaf} {p : MPart} {pol : Nat}

/-- The lanes' stores, one after another, whose element is the one part `p`. -/
def State.storeOne (s : State) (e : Env) (f : MF) (fmt : BitVec 4) (buf : Bool) (p : MPart) (L : List Nat) : State :=
  L.foldl (fun s lane => s.storeParts e f.pol.toNat buf lane (e.storeCode f fmt lane) [p]) s

theorem goodLanes_mem {x : Nat → Elem} {L : List Nat} (h : ∀ lane ∈ L, ∃ ba w fmt leaf ps sc, x lane = .mem ba w fmt leaf ps sc) :
    goodLanes (L.map fun lane => (lane, x lane)) = L.map fun lane => (lane, x lane) := by
  refine List.filter_eq_self.2 fun p hp => ?_
  obtain ⟨lane, hl, rfl⟩ := List.mem_map.1 hp
  obtain ⟨ba, w, fmt, leaf, ps, sc, hx⟩ := h lane hl
  simp only [hx]

theorem zeroLanes_mem {x : Nat → Elem} {L : List Nat} (h : ∀ lane ∈ L, ∃ ba w fmt leaf ps sc, x lane = .mem ba w fmt leaf ps sc) :
    zeroLanes (L.map fun lane => (lane, x lane)) = [] :=
  zeroLanes_map fun lane hl => by obtain ⟨ba, w, fmt, leaf, ps, sc, hx⟩ := h lane hl; simp [hx]

theorem badLanes_mem {x : Nat → Elem} {L : List Nat} (h : ∀ lane ∈ L, ∃ ba w fmt leaf ps sc, x lane = .mem ba w fmt leaf ps sc) :
    badLanes (L.map fun lane => (lane, x lane)) = [] :=
  badLanes_map fun lane hl => by obtain ⟨ba, w, fmt, leaf, ps, sc, hx⟩ := h lane hl; simp [hx]

theorem exec_st_mem (hr : Ready s hd none (usesOf (.st hd f)) e) (hh : e.w.holds = []) (hact : e.act ≠ []) (hl : Entry s e f.h false f.k l)
    (hrel : bitAt f.var 3 = false) (hplain : leaf.isReg = false) (hpage : p.leaf.isReg = false)
    (hx : ∀ lane ∈ e.act, s.elemOf e l (e.coords l.rank.toNat false f.k f.off lane) (!rawTy (memTy f.var.toNat)) (memWidth f.var.toNat) .wr
      false true = (.mem ba w fmt leaf [p] none, s)) {buf : Bool} (hbuf : (decide (ba % 8 = 0) && decide (w % 8 = 0)) = buf)
    (ht : s.storeOne e f fmt buf p e.act = t) (hcalm : t.recalls = []) :
    ∃ g, exec (.st hd f) s = .next (t.now e g) := by
  have hmem : ∀ lane ∈ e.act, ∃ ba' w' fmt' leaf' ps sc, Elem.mem ba w fmt leaf [p] none = .mem ba' w' fmt' leaf' ps sc :=
    fun _ _ => ⟨ba, w, fmt, leaf, [p], none, rfl⟩
  have hreg : s.regOk e (.mem ba w fmt leaf [p] none) (memTy f.var.toNat) true = (.mem ba w fmt leaf [p] none, s) := by
    simp only [State.regOk, List.find?_cons, hpage, List.find?_nil]
  have hone (s : State) (lane : Nat) : s.storeLane e (memTy f.var.toNat) f.pol.toNat false l lane (e.vec (memTy f.var.toNat) f.data lane)
      (.mem ba w fmt leaf [p] none) = s.storeParts e f.pol.toNat buf lane (e.storeCode f fmt lane) [p] := by
    simp only [State.storeLane, hplain, Bool.not_false, Bool.true_and, Bool.false_eq_true, if_false, hbuf]
    rfl
  have hsend : ∃ g, s.sendStores e f l = t.now e g := by
    rw [State.sendStores]
    dsimp only
    rw [State.elemsOf_stays (x := fun _ => .mem ba w fmt leaf [p] none) fun lane hlane => by simp only [hx lane hlane, hreg]]
    dsimp only
    rw [badLanes_mem hmem, State.laneTraps_nil, goodLanes_mem hmem, hrel, List.foldl_map]
    simp only [hone]
    rw [← ht]
    exact ⟨_, rfl⟩
  obtain ⟨g, hg⟩ := hsend
  refine ⟨g, memWord_ready hr hh ?_ (hcalm.trans hr.2.1.symm)⟩
  rw [stBody, State.form_entry hl rfl, if_neg hact, hrel]
  exact hg

/-- An entry of the store buffer that holds the stores of the lanes `done`, in order. -/
structure SbEntry.Holds (b : SbEntry) (e : Env) (f : MF) (fmt : BitVec 4) (p : MPart) (done : List Nat) : Prop where
  core : b.core = e.core
  asid : b.asid = effAsid e.ctx.asid p.p.va
  line : b.line = p.p.va / 128
  mask : b.mask = lineBits p.p.lo p.p.w
  stores : b.stores.map (·.lane) = done
  wgs  : ∀ y ∈ b.stores, y.wg = e.iss.wg
  data : ∀ last, done.getLast? = some last →
    b.data &&& lineBits p.p.lo p.p.w = (e.partStore last (e.storeCode f fmt last) p.p).data &&& lineBits p.p.lo p.p.w

theorem lineMerge_and (a m d : Line) : lineMerge a m d &&& m = d &&& m := by
  ext i hi
  simp only [lineMerge, BitVec.getElem_and, BitVec.getElem_or, BitVec.getElem_not]
  cases m[i] <;> simp

/-- The entry with one more lane's store. -/
def SbEntry.merged (b : SbEntry) (lvl : Level) (x : SbStore) : SbEntry :=
  { b with mask := b.mask ||| x.mask, data := lineMerge b.data x.mask x.data, lvl := b.lvl.narrow lvl, stores := b.stores ++ [x] }

theorem SbEntry.Holds.merged {b : SbEntry} {done : List Nat} (h : b.Holds e f fmt p done) (lvl : Level) (lane : Nat) :
    (b.merged lvl (e.partStore lane (e.storeCode f fmt lane) p.p)).Holds e f fmt p (done ++ [lane]) where
  core := h.core
  asid := h.asid
  line := h.line
  mask := by
    show b.mask ||| lineBits p.p.lo p.p.w = _
    rw [h.mask, BitVec.or_self]
  stores := by
    show (b.stores ++ [_]).map _ = _
    rw [List.map_append, h.stores]
    rfl
  wgs y hy := by
    rcases List.mem_append.1 hy with hy | hy
    · exact h.wgs y hy
    · rw [List.mem_singleton.1 hy]; rfl
  data last hlast := by
    rw [List.getLast?_concat] at hlast
    cases hlast
    exact lineMerge_and ..

/-- A store of a line of which the buffer holds an entry of the same workgroup goes into that entry (R117). -/
theorem State.sbMerge_found {core line : Nat} {asid : BitVec 16} {b : SbEntry} {x : SbStore} (hat : s.sbAt core asid line = some b)
    (hwgs : ∀ y ∈ b.stores, y.wg = x.wg) (lvl : Level) (leaf : Leaf) (ctx : Nat) :
    let t := s.sbMerge core asid line lvl leaf ctx x
    t.sbuf = s.sbuf.map (fun y => if y.core = core && y.asid = asid && y.line = line then y.merged lvl x else y)
      ∧ t.byte = s.byte ∧ t.recalls = s.recalls := by
  have hv : (s.voidFills core asid line s.nextId).sbAt core asid line = some b := hat
  have hother : (b.stores.any fun y => y.wg ≠ x.wg && (s.recOfWg y.wg).map (·.id) ≠ (s.recOfWg x.wg).map (·.id)) = false :=
    List.any_eq_false.2 fun y hy => by simp [hwgs y hy]
  unfold State.sbMerge
  extract_lets s0 other s1 mine full s2 t
  have h1 : s1 = s0 := by
    show (match s.sbAt core asid line with | some y => if other y then s0.drainEntry y else s0 | none => s0) = s0
    rw [hat]
    exact if_neg (by rw [show other b = false from hother]; exact Bool.false_ne_true)
  have h2 : s2 = { s0 with sbuf := s.sbuf.map fun y => if y.core = core && y.asid = asid && y.line = line then y.merged lvl x else y } := by
    simp only [s2, h1, show s0.sbAt core asid line = some b from hat]
    rfl
  have ht : t = (if s.wgReplay x.wg then s2 else s2.l1Update core asid line x.mask x.data).bump x.wg x.wave .st 1 := rfl
  rw [ht, h2]
  split <;> exact ⟨rfl, rfl, rfl⟩

/-- The lanes' stores go into the one entry that their first began. -/
theorem State.storeOne_into {old : List SbEntry} (hold : ∀ x ∈ old, x.core ≠ e.core) (L : List Nat) {b : SbEntry} {done : List Nat}
    (s : State) (hs : s.sbuf = old ++ [b]) (hb : b.Holds e f fmt p done) :
    let t := s.storeOne e f fmt true p L
    (∃ b', t.sbuf = old ++ [b'] ∧ b'.Holds e f fmt p (done ++ L)) ∧ t.byte = s.byte ∧ t.recalls = s.recalls := by
  induction L generalizing s b done with
  | nil => exact ⟨⟨b, hs, by simpa using hb⟩, rfl, rfl⟩
  | cons lane L ih =>
    have hat : s.sbAt e.core (effAsid e.ctx.asid p.p.va) (p.p.va / 128) = some b := by
      rw [State.sbAt, hs, List.find?_append, List.find?_eq_none.2 fun x hx => by simp [hold x hx]]
      simp [hb.core, hb.asid, hb.line]
    obtain ⟨hbuf, hbyte, hcalm⟩ := State.sbMerge_found (x := e.partStore lane (e.storeCode f fmt lane) p.p) hat hb.wgs
      (hintOf f.pol.toNat) p.leaf e.ctx.num
    rw [hs, List.map_append, List.map_congr_left (g := id) fun x hx => by simp [hold x hx], List.map_id, List.map_singleton,
      if_pos (by simp [hb.core, hb.asid, hb.line])] at hbuf
    obtain ⟨⟨b', h1, h2⟩, h3, h4⟩ := ih _ hbuf (hb.merged (hintOf f.pol.toNat) lane)
    rw [List.append_assoc, List.singleton_append] at h2
    exact ⟨⟨b', h1, h2⟩, h3.trans hbyte, h4.trans hcalm⟩

/-- What a store request says. -/
def Req.asStore (q : Req) : Nat × Nat × Nat × ReqOp := (q.core, q.lane, q.line, q.what)

theorem State.asStore_voidFills (s : State) (core : Nat) (asid : BitVec 16) (line before : Nat) :
    (s.voidFills core asid line before).reqs.map Req.asStore = s.reqs.map Req.asStore := by
  refine (List.map_map ..).trans (List.map_congr_left fun q _ => ?_)
  dsimp only [Function.comp]
  split <;> rfl

/-- What is not whole bytes goes to the lode. -/
theorem State.sendStore_sent (hno : ∀ x ∈ s.sbuf, x.core ≠ e.core) (asid : BitVec 16) (leaf : Leaf) (pol : Nat) (m d : Line) (x : SbStore) :
    let t := s.sendStore e asid leaf pol (.store m d) x
    t.sbuf = s.sbuf ∧ t.byte = s.byte ∧ t.recalls = s.recalls
      ∧ t.reqs.map Req.asStore = s.reqs.map Req.asStore ++ [(e.core, x.lane, x.va / 128, .store m d)] := by
  rw [State.sendStore]
  dsimp only
  rw [State.drainLine_none hno]
  refine ⟨rfl, rfl, rfl, (List.map_append ..).trans (congrArg₂ (· ++ ·) (State.asStore_voidFills ..) rfl)⟩

theorem State.storeOne_sent (L : List Nat) (s : State) (hno : ∀ x ∈ s.sbuf, x.core ≠ e.core) :
    let t := s.storeOne e f fmt false p L
    t.sbuf = s.sbuf ∧ t.byte = s.byte ∧ t.recalls = s.recalls
      ∧ t.reqs.map Req.asStore = s.reqs.map Req.asStore ++ L.map fun lane => (e.core, lane, p.p.va / 128,
          .store (e.partStore lane (e.storeCode f fmt lane) p.p).mask (e.partStore lane (e.storeCode f fmt lane) p.p).data) := by
  induction L generalizing s with
  | nil => exact ⟨rfl, rfl, rfl, (List.append_nil _).symm⟩
  | cons lane L ih =>
    obtain ⟨h1, h2, h3, h4⟩ := State.sendStore_sent hno (effAsid e.ctx.asid p.p.va) p.leaf f.pol.toNat
      (e.partStore lane (e.storeCode f fmt lane) p.p).mask (e.partStore lane (e.storeCode f fmt lane) p.p).data
      (e.partStore lane (e.storeCode f fmt lane) p.p)
    obtain ⟨h5, h6, h7, h8⟩ := ih _ (by rw [h1]; exact hno)
    refine ⟨h5.trans h1, h6.trans h2, h7.trans h3, h8.trans ?_⟩
    rw [h4, List.append_assoc]
    rfl

/-- New requests, seen through what does not change of the old ones. -/
theorem drop_of_map {α β : Type} {g : α → β} {a b : List α} {c : List β} (h : b.map g = a.map g ++ c) : (b.drop a.length).map g = c := by
  rw [List.map_drop, h, ← List.length_map (f := g) (as := a), List.drop_left]

/-- ST of lanes that name one element. -/
theorem st_together (hno : ∀ x ∈ s.sbuf, x.core ≠ e.core) (hact : e.act ≠ []) (buf : Bool) :
    let t := s.storeOne e f fmt buf p e.act
    t.byte = s.byte ∧ t.recalls = s.recalls ∧ if buf then ∃ b, t.sbuf = s.sbuf ++ [b] ∧ b.Holds e f fmt p e.act
      else t.sbuf = s.sbuf ∧ (t.reqs.drop s.reqs.length).map Req.asStore = e.act.map fun lane => (e.core, lane, p.p.va / 128,
          .store (e.partStore lane (e.storeCode f fmt lane) p.p).mask (e.partStore lane (e.storeCode f fmt lane) p.p).data) := by
  cases buf with
  | false =>
    obtain ⟨h1, h2, h3, h4⟩ := State.storeOne_sent (f := f) (fmt := fmt) (p := p) e.act s hno
    exact ⟨h2, h3, h1, drop_of_map h4⟩
  | true =>
    obtain ⟨lane, L, hL⟩ := List.exists_cons_of_ne_nil hact
    obtain ⟨l1, hm⟩ := State.sbMerge_new hno (effAsid e.ctx.asid p.p.va) (p.p.va / 128) (hintOf f.pol.toNat) p.leaf e.ctx.num
      (e.partStore lane (e.storeCode f fmt lane) p.p)
    obtain ⟨⟨b, h1, h2⟩, h3, h4⟩ := State.storeOne_into (f := f) (fmt := fmt) (p := p) (e := e) hno L (done := [lane])
      (s.sbMerge e.core (effAsid e.ctx.asid p.p.va) (p.p.va / 128) (hintOf f.pol.toNat) p.leaf e.ctx.num (e.partStore lane (e.storeCode f fmt lane) p.p))
      (by rw [hm]; rfl) ⟨rfl, rfl, rfl, rfl, rfl, fun y hy => by rw [List.mem_singleton.1 hy]; rfl, fun last h => by cases h; rfl⟩
    rw [hL]
    exact ⟨h3.trans (by rw [hm]; rfl), h4.trans (by rw [hm]; rfl), b, h1, h2⟩

end Store

/-! The order of the lanes (R250). -/

theorem insertBy_perm {α : Type} (key : α → Nat) (x : α) (l : List α) : (insertBy key x l).Perm (x :: l) := by
  induction l with
  | nil => exact .rfl
  | cons y l ih =>
    rw [insertBy]
    split
    · exact .rfl
    · exact (ih.cons y).trans (.swap ..)

theorem sortBy_perm {α : Type} (key : α → Nat) (l : List α) : (sortBy key l).Perm l := by
  have h : ∀ (l acc : List α), (l.foldl (fun a x => insertBy key x a) acc).Perm (acc ++ l) := by
    intro l
    induction l with
    | nil => intro acc; simp
    | cons x l ih =>
      intro acc
      refine (ih _).trans (((insertBy_perm key x acc).append_right l).trans ?_)
      exact List.perm_middle.symm
  exact (h l []).trans (.of_eq (List.nil_append l))

/-- The lanes' order is one of the lanes, and takes at most one of the open choices. -/
theorem State.laneOrder_perm {x : Nat → Elem} {L : List Nat} {at_ : Elem → Nat × Nat} {r : List (Nat × Elem) × State}
    (hr : s.laneOrder (L.map fun lane => (lane, x lane)) at_ = r) :
    ∃ (o : List Nat) (n : Nat), o.Perm L ∧ r = (o.map fun lane => (lane, x lane), { s with free := n }) := by
  subst hr
  rw [State.laneOrder]
  split
  · exact ⟨L, s.free, .rfl, rfl⟩
  · have hperm := sortBy_perm (fun y : Nat × Elem => Config.laneKey s.free y.1) (L.map fun lane => (lane, x lane))
    refine ⟨(sortBy (fun y : Nat × Elem => Config.laneKey s.free y.1) (L.map fun lane => (lane, x lane))).map (·.1), s.free + 1, ?_, ?_⟩
    · exact (hperm.map _).trans (.of_eq (by rw [List.map_map]; exact List.map_id L))
    · refine congrArg (·, _) ?_
      rw [List.map_map]
      refine ((List.map_congr_left fun y hy => ?_).trans (List.map_id _)).symm
      obtain ⟨lane, -, rfl⟩ := List.mem_map.1 (hperm.mem_iff.1 hy)
      rfl

/-! ATOM of several lanes (R250, R256). -/

section Atom

/-- What an atomic's request says. -/
def Req.asAtom (q : Req) : Nat × Nat × ReqOp := (q.lane, q.line, q.what)

theorem State.sendAtom_sent (hno : ∀ x ∈ s.sbuf, x.core ≠ e.core) (op n lane pol : Nat) (k : Byte) (ba w : Nat) (fmt : BitVec 4) (leaf : Leaf)
    (ps : List MPart) (sc : Option MPart) :
    let t := s.sendAtom e op n lane pol k (.mem ba w fmt leaf ps sc)
    t.sbuf = s.sbuf ∧ t.recalls = s.recalls ∧ t.reqs.map Req.asAtom = s.reqs.map Req.asAtom ++ [(lane, ba / 1024, .atomic op (ba % 1024) w
      (BitVec.ofNat 64 (e.atomArg op k lane).1) (BitVec.ofNat 64 (e.atomArg op k lane).2))] := by
  rw [State.sendAtom]
  dsimp only
  rw [State.drainLine_none hno]
  refine ⟨rfl, rfl, (List.map_append ..).trans (congrArg₂ (· ++ ·) ?_ ?_)⟩
  · refine (List.map_map ..).trans (List.map_congr_left fun q _ => ?_)
    dsimp only [Function.comp]
    split <;> rfl
  · rw [← Nat.div_div_eq_div_mul ba 8 128]
    rfl

variable {x : Nat → Elem} {ba : Nat → Nat} {w : Nat}

theorem State.sendAtom_all {op n pol : Nat} {k : Byte} (L : List Nat)
    (hx : ∀ lane ∈ L, ∃ fmt leaf ps sc, x lane = .mem (ba lane) w fmt leaf ps sc) (s : State) (hno : ∀ x ∈ s.sbuf, x.core ≠ e.core) :
    let t := (L.map fun lane => (lane, x lane)).foldl (fun s y => s.sendAtom e op n y.1 pol k y.2) s
    t.recalls = s.recalls ∧ t.reqs.map Req.asAtom = s.reqs.map Req.asAtom ++ L.map fun lane => (lane, ba lane / 1024,
      .atomic op (ba lane % 1024) w (BitVec.ofNat 64 (e.atomArg op k lane).1) (BitVec.ofNat 64 (e.atomArg op k lane).2)) := by
  induction L generalizing s with
  | nil => exact ⟨rfl, (List.append_nil _).symm⟩
  | cons lane L ih =>
    obtain ⟨fmt, leaf, ps, sc, h⟩ := hx lane (List.mem_cons_self ..)
    obtain ⟨h1, h2, h3⟩ := State.sendAtom_sent hno op n lane pol k (ba lane) w fmt leaf ps sc
    obtain ⟨h4, h5⟩ := ih (fun y hy => hx y (List.mem_cons_of_mem _ hy)) (s.sendAtom e op n lane pol k (x lane)) (by rw [h, h1]; exact hno)
    rw [h] at h4 h5
    refine ⟨?_, ?_⟩
    · exact (by rw [List.map_cons, List.foldl_cons, h]; exact h4.trans h2)
    · rw [List.map_cons, List.foldl_cons, h]
      refine h5.trans ?_
      rw [h3, List.append_assoc]
      rfl

theorem exec_atom_all (hr : Ready s hd none (usesOf (.atom hd f)) e) (hh : e.w.holds = []) (hact : e.act ≠ []) (hl : Entry s e f.h false f.k l)
    (hmem : l.memory = true) (hrel : bitAt f.var 5 = false) (hno : ∀ x ∈ s.sbuf, x.core ≠ e.core)
    (hel : ∀ lane ∈ e.act, s.elemOf e l (e.coords l.rank.toNat false f.k f.off lane) false (atomWidth (f.var.toNat % 16)) .rdwr true false
      = (x lane, s))
    (hx : ∀ lane ∈ e.act, ∃ fmt leaf ps sc, x lane = .mem (ba lane) (atomWidth (f.var.toNat % 16)) fmt leaf ps sc) :
    ∃ (t : State) (o : List Nat), exec (.atom hd f) s = .next t ∧ o.Perm e.act
      ∧ (t.reqs.drop s.reqs.length).map Req.asAtom = o.map fun lane => (lane, ba lane / 1024,
        .atomic (f.var.toNat % 16) (ba lane % 1024) (atomWidth (f.var.toNat % 16)) (BitVec.ofNat 64 (e.atomArg (f.var.toNat % 16) f.data lane).1)
          (BitVec.ofNat 64 (e.atomArg (f.var.toNat % 16) f.data lane).2)) := by
  have hx' : ∀ lane ∈ e.act, ∃ ba w fmt leaf ps sc, x lane = .mem ba w fmt leaf ps sc := fun lane hlane => by
    obtain ⟨fmt, leaf, ps, sc, h⟩ := hx lane hlane
    exact ⟨_, _, fmt, leaf, ps, sc, h⟩
  have hsend : ∃ (t : State) (o : List Nat), s.sendAtoms e f l = t ∧ o.Perm e.act ∧ t.recalls = s.recalls
      ∧ t.reqs.map Req.asAtom = s.reqs.map Req.asAtom ++ o.map fun lane => (lane, ba lane / 1024,
        .atomic (f.var.toNat % 16) (ba lane % 1024) (atomWidth (f.var.toNat % 16)) (BitVec.ofNat 64 (e.atomArg (f.var.toNat % 16) f.data lane).1)
          (BitVec.ofNat 64 (e.atomArg (f.var.toNat % 16) f.data lane).2)) := by
    rw [State.sendAtoms]
    dsimp only
    rw [State.elemsOf_stays hel]
    dsimp only
    rw [badLanes_mem hx', State.laneTraps_nil, goodLanes_mem hx', zeroLanes_mem hx', if_neg (by simp [hact])]
    generalize hop : s.startOp e _ = op1
    generalize hord : op1.2.laneOrder _ _ = ord
    obtain ⟨o, n, hperm, rfl⟩ := State.laneOrder_perm hord
    obtain ⟨h1, h2⟩ := State.sendAtom_all (e := e) (op := f.var.toNat % 16) (n := op1.1) (pol := f.pol.toNat) (k := f.data) o
      (fun lane hlane => hx lane (hperm.mem_iff.1 hlane)) { op1.2 with free := n } (by rw [← hop]; exact hno)
    rw [← hop] at h1 h2 ⊢
    exact ⟨_, o, rfl, hperm, h1, h2⟩
  obtain ⟨t, o, hs, hperm, hcalm, hreqs⟩ := hsend
  refine ⟨t, o, memWord_ready (body := atomBody f) hr hh ?_ hcalm, hperm, drop_of_map hreqs⟩
  rw [atomBody, State.form_entry hl hmem, if_neg hact, hrel]
  exact hs

end Atom

/-! ATOMS of several lanes (R250, R257). -/

section Bank
variable {x : Nat → Elem} {j ba w : Nat} {fmt : BitVec 4}

/-- The part after a lane's operation of kind `op` at the bank. -/
def Env.bankPart (e : Env) (l : Layout) (k : Byte) (op ba w : Nat) (p : Part) (lane : Nat) : Part :=
  p.setBits (some l) ba w (atomNew op (p.bits (some l) ba w) (e.atomArg op k lane).1 (e.atomArg op k lane).2)

theorem State.PartDone.congr {wg : Nat} {g g' : Part → Part} (h : s.PartDone wg j g t) (hg : g (s.partOf wg j) = g' (s.partOf wg j)) :
    s.PartDone wg j g' t := by
  refine ⟨h.parts.trans ?_, h.byte, h.results, h.recalls, h.calm⟩
  cases hw : s.wg? wg with
  | none => rfl
  | some w =>
    rw [State.partOf, hw] at hg
    refine congrArg some (List.ext_getElem? fun i => ?_)
    rw [List.getElem?_modify, List.getElem?_modify]
    cases hp : w.parts[i]? with
    | none => rfl
    | some p =>
      refine congrArg some ?_
      dsimp only
      split
      case isTrue hi =>
        have hpart : w.part j = p := by rw [Workgroup.part, List.getD_eq_getElem?_getD, hi, hp]; rfl
        exact hpart ▸ hg
      case isFalse => rfl

/-- The lanes' operations at the bank in their order: each answers the value it finds. -/
theorem State.bankAtom_all {op : Nat} {k : Byte} (L : List Nat) (s : State) (vals : List (Nat × Nat)) {g : Workgroup} (hwg : s.wg? e.iss.wg = some g)
    (hj : j < g.parts.length) :
    let r := (L.map fun lane => (lane, Elem.scr j ba w fmt none)).foldl (fun (a : List (Nat × Nat) × State) y =>
      let (o, s') := a.2.bankAtom e op k l y.1 y.2
      (a.1 ++ [(y.1, o)], s')) (vals, s)
    s.PartDone e.iss.wg j (fun p => L.foldl (e.bankPart l k op ba w) p) r.2
      ∧ (∀ y ∈ vals, y ∈ r.1)
      ∧ ∀ a lane b, L = a ++ lane :: b → (lane, (a.foldl (e.bankPart l k op ba w) (s.partOf e.iss.wg j)).bits (some l) ba w) ∈ r.1 := by
  induction L generalizing s vals g with
  | nil => exact ⟨.none .., fun y hy => hy, fun a lane b h => absurd h (by simp)⟩
  | cons lane L ih =>
    obtain ⟨s', hs', hone⟩ : ∃ s', s.bankAtom e op k l lane (.scr j ba w fmt none) = ((s.partOf e.iss.wg j).bits (some l) ba w, s')
        ∧ s.PartDone e.iss.wg j (e.bankPart l k op ba w · lane) s' := ⟨_, rfl, (State.PartDone.update ..).congr rfl⟩
    obtain ⟨g', hg', hparts⟩ := Option.map_eq_some_iff.1 (hone.parts.trans (congrArg _ hwg))
    obtain ⟨h1, h2, h3⟩ := ih s' (vals ++ [(lane, (s.partOf e.iss.wg j).bits (some l) ba w)]) hg' (by rw [hparts, List.length_modify]; exact hj)
    rw [(hone.partOf hwg).1 hj] at h3
    simp only [List.map_cons, List.foldl_cons, hs']
    refine ⟨hone.next h1, fun y hy => h2 y (List.mem_append_left _ hy), fun a c b h => ?_⟩
    cases a with
    | nil =>
      obtain ⟨rfl, rfl⟩ := List.cons.inj h
      exact h2 _ (List.mem_append_right _ (List.mem_singleton_self _))
    | cons y a =>
      obtain ⟨rfl, hL⟩ := List.cons.inj h
      exact h3 a c b hL

theorem exec_atoms_all (hr : Ready s hd none (usesOf (.atoms hd f)) e) (hh : e.w.holds = []) (hact : e.act ≠ []) (hl : Entry s e f.h false f.k l)
    (hscr : l.scratch = true) (hj : j < e.wg.parts.length) (hue : (e.wg.part j).ue = []) (hlost : (e.wg.part j).lost = [])
    (hx : ∀ lane ∈ e.act, l.inb (e.coords l.rank.toNat false f.k f.off lane) = true
      ∧ scrElem e.wg e.part l (e.coords l.rank.toNat false f.k f.off lane) false 32 true true = .scr j ba w fmt none) :
    ∃ (t : State) (r : Result) (o : List Nat), exec (.atoms hd f) s = .next t ∧ o.Perm e.act
      ∧ t.partOf e.iss.wg j = o.foldl (e.bankPart l f.data (atomsOp (f.var.toNat % 8)) ba w) (e.wg.part j)
      ∧ t.results.getLast? = some r ∧ ∀ a lane b, o = a ++ lane :: b →
        ∀ x ∈ vecWrites false f.data.toNat lane
          ((a.foldl (e.bankPart l f.data (atomsOp (f.var.toNat % 8)) ba w) (e.wg.part j)).bits (some l) ba w), x ∈ r.writes := by
  have hmem : l.memory = false := by
    simp only [Layout.scratch, Bool.or_eq_true, decide_eq_true_eq] at hscr
    rcases hscr with (h | h) | h <;> simp [Layout.memory, h]
  have hwg : s.wg? e.iss.wg = some e.wg := (State.env?_some hr.1).2.1
  have hplain : ∀ lane ∈ e.act, (Elem.scr j ba w fmt none).plainScr := fun _ _ => ⟨j, ba, w, fmt, rfl⟩
  have hpart : s.partOf e.iss.wg j = e.wg.part j := by rw [State.partOf, hwg]
  have hbody : ∃ (t : State) (r : Result) (o : List Nat), atomsBody f e s = t ∧ t.recalls = s.recalls ∧ o.Perm e.act
      ∧ t.partOf e.iss.wg j = o.foldl (e.bankPart l f.data (atomsOp (f.var.toNat % 8)) ba w) (e.wg.part j)
      ∧ t.results.getLast? = some r ∧ ∀ a lane b, o = a ++ lane :: b →
        ∀ x ∈ vecWrites false f.data.toNat lane
          ((a.foldl (e.bankPart l f.data (atomsOp (f.var.toNat % 8)) ba w) (e.wg.part j)).bits (some l) ba w), x ∈ r.writes := by
    rw [atomsBody]
    dsimp only
    rw [State.form_entry hl hscr, State.elemsOf_stays (x := fun _ => .scr j ba w fmt none) fun lane hlane => ?_]
    · dsimp only
      rw [badLanes_scr hplain, State.laneTraps_nil, goodLanes_scr hplain, zeroLanes_scr hplain, List.map_nil, List.append_nil]
      generalize hord : s.laneOrder _ _ = ord
      obtain ⟨o, n, hperm, rfl⟩ := State.laneOrder_perm hord
      obtain ⟨hdone, -, hvals⟩ := State.bankAtom_all (e := e) (l := l) (j := j) (ba := ba) (w := w) (fmt := fmt)
        (op := atomsOp (f.var.toNat % 8)) (k := f.data) o { s with free := n } [] hwg hj
      dsimp only at hdone hvals ⊢
      generalize List.foldl _ _ _ = run at hdone hvals ⊢
      have hsome : run.1 ≠ [] := by
        obtain ⟨lane, b, hb⟩ := List.exists_cons_of_ne_nil fun h : o = [] => hact (List.nil_perm.1 (h ▸ hperm))
        exact List.ne_nil_of_mem (hvals [] lane b hb)
      rw [if_neg hsome]
      refine ⟨_, _, o, rfl, (State.quickOp_recalls ..).trans hdone.recalls, hperm, ?_, List.getLast?_concat .., fun a lane b hb x hx => ?_⟩
      · rw [State.partOf_quickOp, (hdone.partOf hwg).1 hj]
        exact congrArg (List.foldl _ · o) hpart
      · refine List.mem_flatMap.2 ⟨_, hvals a lane b hb, ?_⟩
        rw [show State.partOf { s with free := n } e.iss.wg j = e.wg.part j from hpart]
        exact hx
    · obtain ⟨hin, hel⟩ := hx lane hlane
      have helem : s.elemOf e l (e.coords l.rank.toNat false f.k f.off lane) false 32 .rdwr true false = (.scr j ba w fmt none, s) :=
        (State.elemOf_scr hin hmem ..).trans (congrArg (·, s) hel)
      simp only [helem, Elem.ueOk_clean hue hlost]
  obtain ⟨t, r, o, ht, hcalm, h⟩ := hbody
  exact ⟨t, r, o, memWord_ready (body := atomsBody f) hr hh ht hcalm, h⟩

end Bank

/-! A load of scratch by acquire (R252). -/

theorem State.scrLoaded_holds {ty : Ty} {reg : Reg} {regs : List Reg} {x : Nat → Elem} {who : Nat → BitVec 64} {L : List Nat}
    (hw : s.wave? e.iss.wg e.iss.wave = some e.w) (scope : BitVec 3) :
    ∃ v, (s.scrLoaded e l ty reg regs (some scope) x who L).wave? e.iss.wg e.iss.wave = some v ∧ v.holds = e.w.holds ++ [s.nextId] := by
  rw [State.scrLoaded, State.startOp_holds _ _ rfl]
  exact ⟨_, State.wave?_withHold hw _, rfl⟩

/-- The load is answered, and holds the wave's later words back. -/
theorem exec_ld_acquires (hr : Ready s hd none (usesOf (.ld hd f)) e) (hh : e.w.holds = []) (hact : e.act ≠ []) (hl : Entry s e f.h false f.k l)
    (hacq : bitAt f.var 3 = true) (hmem : l.memory = false) (hx : ∀ lane ∈ e.act, e.readable f l false lane) :
    ∃ t r v, exec (.ld hd f) s = .next t ∧ t.results.getLast? = some r ∧ r.acq = some f.scope ∧ r.ready = true
      ∧ r.writes = e.act.flatMap (fun lane => loadWrites (.v f.data.toNat) (memTy f.var.toNat) (memTy f.var.toNat).is64 lane
        ((e.loadElem f l false lane).scrVal e.wg l (memTy f.var.toNat)))
      ∧ t.wave? e.iss.wg e.iss.wave = some v ∧ v.holds = [r.id] := by
  have hplain : ∀ lane ∈ e.act, (e.loadElem f l false lane).plainScr := fun lane hlane => Env.readable_plain (hx lane hlane)
  have hexec := exec_ld_scr hr hh hact hl hmem hx
  rw [hacq, if_pos rfl] at hexec
  obtain ⟨r, hr1, hid, -, -, hacq', hready, -, -, hwrites⟩ := s.scrLoaded_answers (e := e) (l := l) (ty := memTy f.var.toNat)
    (reg := .v f.data.toNat) (regs := vregs (memTy f.var.toNat).is64 f.data) (acq := some f.scope) (who := fun i => 1#64 <<< i)
    hplain hact (State.env?_act hr.1).1
  obtain ⟨v, hv, hholds⟩ := State.scrLoaded_holds (l := l) (ty := memTy f.var.toNat) (reg := .v f.data.toNat)
    (regs := vregs (memTy f.var.toNat).is64 f.data) (x := e.loadElem f l false) (who := fun i => 1#64 <<< i) (L := e.act)
    (State.env?_wave hr.1) f.scope
  rw [hh, ← hid] at hholds
  exact ⟨_, r, v, hexec, hr1, hacq', hready, hwrites, hv, hholds⟩

/-- Settles O60: the lanes' stores, atomics, contributions and bank operations one after another; an acquire of scratch. -/
theorem lanesTogether : Obligations.LanesTogether := by
  unfold Obligations.LanesTogether
  intro s hd e hh hact
  refine ⟨fun f l hr hl hrel => ?st, fun f l hr hl hmem hrel hno => ?atom, fun f l i wait hi hr hl hmem hrel => ?red, fun f l hr hl hscr => ?atoms,
    fun f l hr hl hacq hmem => ?acq⟩
  case st =>
    intro ty ba w fmt leaf p hplain hpage hno hx data mask
    obtain ⟨hbyte, hcalm, hdone⟩ := st_together (f := f) (fmt := fmt) (p := p) hno hact (decide (ba % 8 = 0) && decide (w % 8 = 0))
    obtain ⟨g, ht⟩ := exec_st_mem hr hh hact hl hrel hplain hpage hx rfl rfl (hcalm.trans hr.2.1)
    refine ⟨_, ht, fun pa => congrFun hbyte pa, ?_⟩
    by_cases hb : ba % 8 = 0 ∧ w % 8 = 0
    · rw [if_pos (by simp [hb])] at hdone
      obtain ⟨b, h1, h2⟩ := hdone
      exact (if_pos hb).mpr ⟨b, h1, h2.core, h2.line, h2.mask, h2.stores, h2.data⟩
    · rw [if_neg (by simpa using hb)] at hdone
      exact (if_neg hb).mpr hdone
  case atom =>
    intro op at_ hx
    obtain ⟨t, o, ht, hperm, hreqs⟩ := exec_atom_all hr hh hact hl hmem hrel hno hx fun lane _ => ⟨_, _, _, _, rfl⟩
    exact ⟨t, o, ht, hperm, hreqs⟩
  case red =>
    intro op n idx h1 hmax hidx at_ hx
    obtain ⟨t, ht, hsent⟩ := exec_red (wait := wait) (i := i) (by rcases hi with ⟨rfl, rfl⟩ | ⟨rfl, rfl⟩ <;> rfl)
      (by rcases hi with ⟨rfl, rfl⟩ | ⟨rfl, rfl⟩ <;> exact hr) hh hact hl hmem hrel h1 hmax (State.elemsOf_stays hx)
      (fun lane _ => ⟨_, _, _, _, rfl⟩) hidx hr.2.1
    refine ⟨t, ht, ?_⟩
    rw [hsent.reqs, List.drop_left, map_numbered (fun _ _ => rfl), List.map_map]
    rfl
  case atoms =>
    intro op j ba w fmt hj hue hlost hx one
    exact exec_atoms_all hr hh hact hl hscr hj hue hlost hx
  case acq =>
    intro ty x hx
    obtain ⟨t, r, v, ht, hlast, hr1, hr2, hwrites, hwave⟩ := exec_ld_acquires hr hh hact hl hacq hmem hx
    refine ⟨t, r, v, ht, hlast, hr1, hr2, hwrites.trans (List.flatMap_congr fun lane hlane => ?_), hwave⟩
    obtain ⟨-, j, ba, w, fmt, hel, -⟩ := hx lane hlane
    have hel' : x lane = .scr j ba w fmt none := hel
    rw [hel']
    rw [show e.loadElem f l false lane = .scr j ba w fmt none from hel]
    rfl

end Sys2Proof.Machine
end

section
/-! PROOFS. PREF, CLEAN, INVAL and CLINV (O22: R248, R254, R260, R261). -/
namespace Sys2Proof.Machine

variable {s s1 t : State} {hd : Hdr} {e : Env} {l : Layout}

/-! The parts of an element hold bits of it. -/

theorem Fmt.page_width_pos (n : Nat) : (pageFmt n).width ≠ 0 := by
  unfold pageFmt
  split <;> exact Nat.succ_ne_zero _

theorem elemWidth_pos (f : BitVec 4) {w : Nat} (hw : w ≠ 0) : elemWidth f.toNat w ≠ 0 := by
  rw [elemWidth]
  split
  · exact hw
  · exact Fmt.page_width_pos _

theorem partsOf_pos {ba w : Nat} (hw : w ≠ 0) : ∀ p ∈ partsOf ba w, p.w ≠ 0 := by
  intro p hp
  rw [partsOf] at hp
  rcases List.mem_cons.1 hp with rfl | hp
  · dsimp only; omega
  · split at hp
    · rw [List.mem_singleton.1 hp]; dsimp only; omega
    · exact absurd hp (by simp)

theorem State.memFmt_pos (s : State) (e : Env) (l : Layout) (c : List Int) {w : Nat} (hw : w ≠ 0) : (s.memFmt e l c w).1.2.1 ≠ 0 := by
  have hwide (x : Option Leaf) : (x.map fun x => elemWidth x.fmt.toNat w).getD w ≠ 0 := by
    cases x with
    | none => exact hw
    | some x => exact elemWidth_pos x.fmt hw
  unfold State.memFmt
  extract_lets wide
  have hw' : ∀ x, wide x ≠ 0 := hwide
  clear_value wide
  generalize s.pageLeaf e l.base.toNat = r0
  obtain ⟨x0, s0⟩ := r0
  have hw0 : wide x0 ≠ 0 := hw' x0
  dsimp only
  generalize wide x0 = w0 at hw0 ⊢
  generalize s0.pageLeaf e (l.bitAddr c w0 / 8) = r1
  obtain ⟨x1, s1⟩ := r1
  cases x1 with
  | none => exact hw0
  | some x1 =>
    dsimp only
    split
    · exact hw' _
    · generalize s1.pageLeaf e (l.bitAddr c (wide (some x1)) / 8) = r2
      obtain ⟨x2, s2⟩ := r2
      dsimp only
      split
      · exact hw' _
      · exact hw' _

/-- The pieces that pass are those of the element. -/
theorem State.memParts_sub (s : State) (e : Env) (l : Layout) (need : Need) (reg : Bool) (ps : List EPart) :
    ∀ xs, (s.memParts e l need reg ps).1 = .ok xs → ∀ x ∈ xs, x.p ∈ ps := by
  rw [State.memParts]
  refine List.foldlRecOn ps _ (motive := fun (b : Except (Cause × Nat) (List MPart) × State) => ∀ xs, b.1 = .ok xs → ∀ x ∈ xs, x.p ∈ ps) (fun xs h x hx => ?_) fun b hb p hp xs hxs => ?_
  · cases h
    exact absurd hx (by simp)
  · obtain ⟨a, s⟩ := b
    revert hxs
    dsimp only
    generalize s.pageOk e l p.va need reg = r
    obtain ⟨r, s1⟩ := r
    intro hxs
    cases a with
    | error x =>
      cases r with
      | error c => cases hxs
      | ok leaf => cases hxs
    | ok ys =>
      cases r with
      | error c => cases hxs
      | ok leaf =>
        cases hxs
        intro x hx
        rcases List.mem_append.1 hx with hx | hx
        · exact hb ys rfl x hx
        · rw [List.mem_singleton.1 hx]
          exact hp

theorem State.memElem_pos (s : State) (e : Env) {l : Layout} (hsc : l.scaled = false) (c : List Int) (decode : Bool) {w : Nat} (hw : w ≠ 0) (need : Need) (align reg : Bool)
    {ba wd : Nat} {fmt : BitVec 4} {leaf : Leaf} {ps : List MPart} {sc : Option MPart}
    (h : (s.memElem e l c decode w need align reg).1 = .mem ba wd fmt leaf ps sc) : ∀ p ∈ ps, p.p.w ≠ 0 := by
  have hwidth : (if decode then s.memFmt e l c w else ((l.bitAddr c w, w, none), s)).1.2.1 ≠ 0 := by
    split
    · exact s.memFmt_pos e l c hw
    · exact hw
  unfold State.memElem at h
  generalize (if decode then s.memFmt e l c w else ((l.bitAddr c w, w, none), s)) = r at h hwidth
  obtain ⟨⟨ba', wd', lf⟩, s1⟩ := r
  dsimp only at h
  split at h
  · exact absurd h (by simp)
  · have hsub := s1.memParts_sub e l need reg (partsOf ba'.toNat wd')
    generalize s1.memParts e l need reg (partsOf ba'.toNat wd') = m at h hsub
    obtain ⟨r, s2⟩ := m
    have hpos {xs : List MPart} (hxs : r = .ok xs) : ∀ p ∈ xs, p.p.w ≠ 0 := fun p hp => partsOf_pos hwidth _ (hsub xs hxs p hp)
    have hplain : (lf.filter fun x => blockedFmt ((lf.map fun x : Leaf => x.fmt).getD 0).toNat && l.scaled && blockOf x.geom ≠ 0) = none :=
      Option.filter_eq_none_iff.2 fun y _ => by simp [hsc]
    rw [hplain] at h
    cases r with
    | error x => exact absurd h (by simp)
    | ok xs =>
      refine fun p hp => hpos rfl p ?_
      cases xs with
      | nil => exact absurd h (by simp)
      | cons p0 xs =>
        dsimp only [List.head?_cons] at h
        split at h
        · exact absurd h (by simp)
        · cases h
          exact hp

/-- So is every element that PREF finds. -/
theorem State.elemOf_pos (s : State) (e : Env) {l : Layout} (hmem : l.memory = true) (hsc : l.scaled = false) (c : List Int) (decode : Bool) {w : Nat} (hw : w ≠ 0)
    (need : Need) (align reg : Bool) {ba wd : Nat} {fmt : BitVec 4} {leaf : Leaf} {ps : List MPart} {sc : Option MPart}
    (h : (s.elemOf e l c decode w need align reg).1 = .mem ba wd fmt leaf ps sc) : ∀ p ∈ ps, p.p.w ≠ 0 := by
  rw [State.elemOf] at h
  split at h
  · split at h <;> exact absurd h (by simp)
  · exact State.memElem_pos s e hsc c decode hw _ align reg h

/-- What all the elements have. -/
theorem State.elemsOf_forall {g : State → Nat → Elem × State} {P : Elem → Prop} (h : ∀ s lane, P (g s lane).1) (s : State) :
    ∀ x ∈ (s.elemsOf e g).1, P x.2 := by
  rw [State.elemsOf]
  refine List.foldlRecOn e.act _ (motive := fun (b : List (Nat × Elem) × State) => ∀ x ∈ b.1, P x.2) (by simp) fun b hb lane _ x hx => ?_
  rcases List.mem_append.1 hx with hx | hx
  · exact hb x hx
  · rw [List.mem_singleton.1 hx]
    exact h b.2 lane

/-! PREF (R248, R254). -/

section Pref
variable {f : MF}

/-- The request of one line that PREF sends. -/
def State.prefReq (s : State) (e : Env) (pol lane : Nat) (p : MPart) : Req :=
  { id := 0, core := e.core, wg := e.iss.wg, wave := e.iss.wave, lane := lane, op := 0, q := e.lead, ctx := e.ctx.num,
    asid := effAsid e.ctx.asid p.p.va, va := p.p.va, line := p.p.va / 128, leaf := p.leaf, what := .load p.p.lo p.p.w 0,
    lvl := hintOf pol, l1 := pol < 3 && p.leaf.cattr ≠ 1 && !s.wgReplay e.iss.wg, stamp := s.gen e.core, word := e.iss.wordPc }

/-- The state with the lines of `ps` requested. -/
def State.prefetched (s : State) (e : Env) (pol : Nat) (ps : List (Nat × MPart)) : State :=
  { s with nextId := s.nextId + ps.length, reqs := s.reqs ++ numbered s.nextId (ps.map fun x => s.prefReq e pol x.1 x.2) }

theorem State.foldl_prefetch (pol : Nat) (ps : List (Nat × MPart)) (s : State) :
    ps.foldl (fun s x => s.prefetch e pol x.1 x.2) s = s.prefetched e pol ps := by
  have hsame : ∀ (ps : List (Nat × MPart)) (t : State), t.wgReplay e.iss.wg = s.wgReplay e.iss.wg → t.gen e.core = s.gen e.core →
      ps.foldl (fun s x => s.prefetch e pol x.1 x.2) t = ps.foldl (fun t x => t.sendReq (s.prefReq e pol x.1 x.2)) t := by
    intro ps
    induction ps with
    | nil => intro t _ _; rfl
    | cons x ps ih =>
      intro t hw hg
      have hone : t.prefetch e pol x.1 x.2 = t.sendReq (s.prefReq e pol x.1 x.2) := by
        rw [State.prefetch, State.prefReq, hw, hg]
      rw [List.foldl_cons, List.foldl_cons, hone]
      exact ih _ hw hg
  rw [hsame ps s rfl rfl]
  exact foldl_sendReq_map (fun x : Nat × MPart => s.prefReq e pol x.1 x.2) ps s

/-- Copies that leave L1 change nothing else, and none comes. -/
structure State.Spent (s t : State) : Prop where
  rest : t = { s with l1 := t.l1, l1fills := t.l1fills }
  l1   : ∀ y ∈ t.l1, y ∈ s.l1

theorem State.l1Spend_spent (s : State) (e : Env) (p : EPart) : s.Spent (s.l1Spend e p) := by
  rw [State.l1Spend]
  dsimp only
  split
  · exact ⟨rfl, fun _ h => h⟩
  · exact ⟨rfl, fun _ h => (List.mem_filter.1 h).1⟩

theorem State.Spent.trans {u : State} (h1 : s.Spent t) (h2 : t.Spent u) : s.Spent u := by
  refine ⟨?_, fun y hy => h1.l1 y (h2.l1 y hy)⟩
  rw [h2.rest, h1.rest]

theorem State.foldl_spend (ps : List (Nat × MPart)) (s : State) : s.Spent (ps.foldl (fun s x => s.l1Spend e x.2.p) s) :=
  foldl_related (R := State.Spent) (f := fun (s : State) (x : Nat × MPart) => s.l1Spend e x.2.p) (fun _ => ⟨rfl, fun _ h => h⟩)
    State.Spent.trans (fun s x => s.l1Spend_spent e x.2.p) ps s

/-- With nothing in the store buffer, the L1 copy of every part that has a bit leaves. -/
theorem State.l1Spend_drops (hbuf : s.sbuf = []) {p : EPart} (hp : p.w ≠ 0) :
    ∀ y ∈ (s.l1Spend e p).l1, ¬(y.core = e.core ∧ y.asid = effAsid e.ctx.asid p.va ∧ y.line = p.va / 128) := by
  have hnone : s.sbPart e (effAsid e.ctx.asid p.va) p = (0, 0) := by
    rw [State.sbPart, State.sbAt_none (by simp [hbuf])]
  have hfull : ¬0 = 2 ^ p.w - 1 := by
    have := Nat.one_lt_two_pow hp
    omega
  rw [State.l1Spend]
  dsimp only
  rw [hnone, if_neg hfull]
  rintro y hy ⟨h1, h2, h3⟩
  have := (List.mem_filter.1 hy).2
  simp [h1, h2, h3] at this

theorem State.foldl_spend_drops (ps : List (Nat × MPart)) (s : State) (hbuf : s.sbuf = []) (hp : ∀ x ∈ ps, x.2.p.w ≠ 0) :
    ∀ x ∈ ps, ∀ y ∈ (ps.foldl (fun s x => s.l1Spend e x.2.p) s).l1,
      ¬(y.core = e.core ∧ y.asid = effAsid e.ctx.asid x.2.p.va ∧ y.line = x.2.p.va / 128) := by
  induction ps generalizing s with
  | nil => intro x hx; exact absurd hx (by simp)
  | cons a ps ih =>
    intro x hx y hy
    rcases List.mem_cons.1 hx with rfl | hx
    · exact s.l1Spend_drops hbuf (hp _ (List.mem_cons_self ..)) y ((State.foldl_spend ps _).l1 y hy)
    · refine ih _ ?_ (fun z hz => hp z (List.mem_cons_of_mem _ hz)) x hx y hy
      show (s.l1Spend e a.2.p).sbuf = []
      rw [(s.l1Spend_spent e a.2.p).rest]
      exact hbuf

/-- The lines' parts, by lane. -/
def memPartsOf (xs : List (Nat × Elem)) : List (Nat × MPart) :=
  xs.flatMap fun x => match x.2 with
    | .mem _ _ _ _ ps _ => ps.map fun p => (x.1, p)
    | _ => []

theorem memPartsOf_pos (hmem : l.memory = true) {c : Nat → List Int} {xs : List (Nat × Elem)}
    (hxs : s.elemsOf e (fun s lane => s.elemOf e { l with scaled := false } (c lane) true 8 .rd false false) = (xs, s1)) :
    ∀ x ∈ memPartsOf xs, x.2.p.w ≠ 0 := by
  have hall := State.elemsOf_forall (e := e) (P := fun x => ∀ ba w fmt leaf ps sc, x = .mem ba w fmt leaf ps sc → ∀ p ∈ ps, p.p.w ≠ 0)
    (g := fun s lane => s.elemOf e { l with scaled := false } (c lane) true 8 .rd false false)
    (fun s lane ba w fmt leaf ps sc h => s.elemOf_pos e (l := { l with scaled := false }) hmem rfl (c lane) true (by decide) .rd false false h) s
  rw [hxs] at hall
  intro x hx
  obtain ⟨y, hy, hin⟩ := List.mem_flatMap.1 hx
  split at hin
  case h_1 ba w fmt leaf ps sc heq =>
    obtain ⟨p, hp, rfl⟩ := List.mem_map.1 hin
    exact hall y hy _ _ _ _ _ _ heq p hp
  case h_2 => exact absurd hin (by simp)

/-- The state after PREF. -/
def State.afterPref (s : State) (e : Env) (f : MF) (ps : List (Nat × MPart)) : State :=
  if f.pol.toNat < 6 then s.prefetched e f.pol.toNat ps
  else ps.foldl (fun s x => s.l1Spend e x.2.p) (s.prefetched e f.pol.toNat ps)

theorem State.afterPref_spent (s : State) (e : Env) (f : MF) (ps : List (Nat × MPart)) :
    (s.prefetched e f.pol.toNat ps).Spent (s.afterPref e f ps) := by
  rw [State.afterPref]
  split
  · exact ⟨rfl, fun _ h => h⟩
  · exact State.foldl_spend ps _

theorem exec_pref_scr (hr : Ready s hd none (usesOf (.pref hd f)) e) (hh : e.w.holds = []) (hl : Entry s e f.h false f.k l)
    (hmem : l.memory = false) : exec (.pref hd f) s = .next s := by
  refine memWord_ready (body := prefBody f) hr hh ?_ rfl
  rw [prefBody, State.form_entry hl rfl, hmem]
  rfl

theorem exec_pref_mem (hr : Ready s hd none (usesOf (.pref hd f)) e) (hh : e.w.holds = []) (hl : Entry s e f.h false f.k l)
    (hmem : l.memory = true) {xs : List (Nat × Elem)}
    (hxs : s.elemsOf e (fun s lane => s.elemOf e { l with scaled := false } (e.coords l.rank.toNat false f.k f.off lane) true 8 .rd false false)
      = (xs, s1))
    (hx : ∀ x ∈ xs, ∃ ba w fmt leaf ps, x.2 = .mem ba w fmt leaf ps none) (hcalm : s1.recalls = []) :
    exec (.pref hd f) s = .next (s1.afterPref e f (memPartsOf xs)) := by
  have hgood : goodLanes xs = xs := List.filter_eq_self.2 fun x hm => by
    obtain ⟨ba, w, fmt, leaf, ps, h⟩ := hx x hm
    rw [h]
  have hrec : (s1.afterPref e f (memPartsOf xs)).recalls = s1.recalls := by rw [(s1.afterPref_spent e f _).rest]; rfl
  refine memWord_ready (body := prefBody f) hr hh ?_ (hrec.trans (hcalm.trans hr.2.1.symm))
  rw [prefBody, State.form_entry hl rfl, hmem]
  simp only [Bool.not_true, Bool.false_eq_true, if_false]
  rw [hxs]
  dsimp only
  rw [hgood, State.afterPref, ← State.foldl_prefetch]
  rfl

end Pref

/-! CLEAN, INVAL and CLINV (R260, R261). -/

section Maint
variable {f : GF}

/-- What the core's checks answer of an access to a page that the core holds (R59, R68). -/
def State.pageVerdict (s : State) (e : Env) (l : Layout) (a : Nat) (need : Need) (x : Leaf) : Except Cause Leaf :=
  if 2 ^ 57 ≤ a then .error .range
  else if (s.homeLode (s.leadOfCore e.core) a x).isNone then .error .home
  else if x.world && !e.ctx.world then .error .world
  else if !x.permits need then .error .perm
  else if (l.space = 4 && !x.so) || (l.space = 5 && !x.loc) || (x.isReg && !false) then .error .perm
  else .ok x

theorem State.pageOk_held {n : Nat} {x : AlbEntry} (hx : s.albFind e.core (effAsid e.ctx.asid n) n = some x) (l : Layout) (need : Need) :
    s.pageOk e l (n : Int) need false = (s.pageVerdict e l n need x.leaf, s) := by
  have hattrs : s.attrs e.core (effAsid e.ctx.asid n) n = (.ok x.leaf, s) := by rw [State.attrs, hx]
  have hrange : ((n : Int) < 0 ∨ (2 : Int) ^ 57 ≤ n) ↔ 2 ^ 57 ≤ n := by norm_cast; omega
  rw [State.pageOk, State.check, State.pageVerdict]
  simp only [hrange, Int.toNat_natCast, hattrs]
  by_cases h1 : 2 ^ 57 ≤ n
  · simp only [if_pos h1]
  · simp only [if_neg h1]
    by_cases h2 : (s.homeLode (s.leadOfCore e.core) n x.leaf).isNone = true
    · simp only [if_pos h2]
    · simp only [if_neg h2]
      by_cases h3 : (x.leaf.world && !e.ctx.world) = true
      · simp only [if_pos h3]
      · simp only [if_neg h3]
        by_cases h4 : (!x.leaf.permits need) = true
        · simp only [if_pos h4]
        · simp only [if_neg h4]
          split <;> rfl



/-- The address space of a line's address. -/
def Env.lineAsid (e : Env) (n : Nat) : BitVec 16 := effAsid e.ctx.asid (128 * n)

/-- The state in which a core's copies of the lines `done` have left L1, unless the word is CLEAN. -/
def State.linesLeft (s : State) (e : Env) (kind : Nat) (done : List Nat) (fills : List L1Fill) : State :=
  { s with
    l1 := s.l1.filter fun x => kind = 0 || !(x.core = e.core && done.any fun n => x.asid = e.lineAsid n && x.line = n)
    l1fills := fills }

/-- How far the lines `done` have brought a maintenance word. -/
structure MRun.Did (x : MRun) (s : State) (e : Env) (kind level : Nat) (done : List Nat) : Prop where
  st   : ∃ fills, x.st = s.linesLeft e kind done fills
  bad  : x.bad = none
  reqs : x.reqs.map (fun q => (q.what, q.core, q.asid, q.line))
    = if level = 0 then [] else done.map fun n => (.maint kind level, e.core, e.lineAsid n, n)

theorem MRun.Did.start (s : State) (e : Env) (kind level : Nat) : MRun.Did { st := s } s e kind level [] where
  st := ⟨s.l1fills, by simp [State.linesLeft]⟩
  bad := rfl
  reqs := by simp

variable {kind level n : Nat}

theorem State.linesLeft_next (s : State) (e : Env) {kind : Nat} (hk : kind ≠ 0) (done : List Nat) (fills : List L1Fill) (n : Nat) :
    ((s.linesLeft e kind done fills).l1Drop e.core (e.lineAsid n) n).l1 = (s.linesLeft e kind (done ++ [n]) fills).l1 := by
  simp only [State.l1Drop, State.linesLeft, hk, decide_false, Bool.false_or, List.filter_filter]
  refine List.filter_congr fun x _ => ?_
  rw [List.any_append, List.any_cons, List.any_nil, Bool.or_false, Bool.and_or_distrib_left, Bool.not_or, Bool.and_assoc, Bool.and_comm]

theorem MRun.Did.next {x : MRun} {done : List Nat} (h : x.Did s e kind level done) (hno : ∀ x ∈ s.sbuf, x.core ≠ e.core) {y : AlbEntry} {leaf : Leaf}
    (hfound : s.albFind e.core (e.lineAsid n) (128 * n) = some y)
    (hok : s.pageOk e l (128 * (n : Int)) (if kind = 0 then .rd else .wr) false = (.ok leaf, s)) :
    (x.line e l kind level n).Did s e kind level (done ++ [n]) := by
  obtain ⟨⟨fills, hst⟩, hbad, hreqs⟩ := h
  have hva : (128 * (n : Int)) = ((128 * n : Nat) : Int) := by push_cast; rfl
  have hline : 128 * n / 128 = n := by omega
  rw [hva, State.pageOk_held hfound] at hok
  have hpage : (s.linesLeft e kind done fills).pageOk e l (128 * (n : Int)) (if kind = 0 then .rd else .wr) false
      = (.ok leaf, s.linesLeft e kind done fills) := by
    rw [hva, State.pageOk_held (s := s.linesLeft e kind done fills) hfound]
    exact congrArg (·, s.linesLeft e kind done fills) (congrArg Prod.fst hok)
  have hsb : (s.linesLeft e kind done fills).sbAt e.core (e.lineAsid n) n = none :=
    State.sbAt_none (s := s.linesLeft e kind done fills) hno ..
  have hdrain : (s.linesLeft e kind done fills).drainLine e.core (e.lineAsid n) n = s.linesLeft e kind done fills :=
    State.drainLine_none (s := s.linesLeft e kind done fills) hno ..
  have hasid : effAsid e.ctx.asid (128 * n) = e.lineAsid n := rfl
  have hnat : (128 * (n : Int)).toNat = 128 * n := by rw [hva]; exact Int.toNat_natCast _
  simp only [MRun.line, hbad, hst, hpage, hnat, hasid, hline, hsb, hdrain, Option.isSome_none, Bool.not_false, Bool.and_true, Bool.false_eq_true, if_false,
    decide_eq_true_eq]
  have hleft : ∃ fills', (if kind = 0 then s.linesLeft e kind done fills else
      { (s.linesLeft e kind done fills).l1Drop e.core (e.lineAsid n) n with
        l1fills := (s.linesLeft e kind done fills).l1fills.filter fun f => !(f.core = e.core && f.asid = e.lineAsid n && f.line = n) })
      = s.linesLeft e kind (done ++ [n]) fills' := by
    split
    case isTrue hk => exact ⟨fills, by simp [State.linesLeft, hk]⟩
    case isFalse hk =>
      exact ⟨fills.filter fun f => !(f.core = e.core && f.asid = e.lineAsid n && f.line = n),
        congrArg (fun m : List L1Line => { s with
          l1 := m, l1fills := fills.filter fun f => !(f.core = e.core && f.asid = e.lineAsid n && f.line = n) })
          (s.linesLeft_next e hk done fills n)⟩
  obtain ⟨fills', hleft⟩ := hleft
  rw [hleft]
  split
  case isTrue h0 =>
    refine ⟨⟨fills', rfl⟩, rfl, ?_⟩
    rw [if_pos h0] at hreqs ⊢
    exact hreqs
  case isFalse h0 =>
    refine ⟨⟨fills', rfl⟩, rfl, ?_⟩
    rw [if_neg h0] at hreqs ⊢
    rw [List.map_append, hreqs, List.map_append]
    rfl

/-- All the lines of the box. -/
theorem MRun.Did.all (hno : ∀ x ∈ s.sbuf, x.core ≠ e.core) (lines : List Nat)
    (hlines : ∀ n ∈ lines, (∃ x, s.albFind e.core (e.lineAsid n) (128 * n) = some x)
      ∧ ∃ leaf, s.pageOk e l (128 * (n : Int)) (if kind = 0 then .rd else .wr) false = (.ok leaf, s)) {x : MRun} {done : List Nat}
    (h : x.Did s e kind level done) :
    ((lines.map fun n => (n : Int)).foldl (fun (x : MRun) ln => x.line e l kind level ln) x).Did s e kind level (done ++ lines) := by
  induction lines generalizing x done with
  | nil => simpa using h
  | cons n lines ih =>
    obtain ⟨⟨y, hy⟩, leaf, hleaf⟩ := hlines n (List.mem_cons_self ..)
    have := ih (fun m hm => hlines m (List.mem_cons_of_mem _ hm)) (h.next hno hy hleaf)
    rwa [List.append_assoc, List.singleton_append] at this

theorem State.form_box {ok : Layout → Bool} (hl : Entry s e f.a true f.b l) (hok : ok l = true)
    (hregs : ∀ r ∈ coordRegs true f.c l.rank.toNat, e.w.marked r = false ∧ e.w.pending r = false ∧ ∀ i, r = .s i → i < 192)
    (body : Layout → State → State) :
    s.form e f.a ok (fun r => coordRegs true f.b r ++ coordRegs true f.c r) body = body l s := by
  obtain ⟨hentry, hfirst⟩ := hl
  have hready : ∀ r ∈ coordRegs true f.b l.rank.toNat ++ coordRegs true f.c l.rank.toNat, e.w.marked r = false ∧ e.w.pending r = false := by
    intro r hr
    rcases List.mem_append.1 hr with hr | hr
    · exact ⟨(hfirst r hr).2.1, (hfirst r hr).2.2.1⟩
    · exact ⟨(hregs r hr).1, (hregs r hr).2.1⟩
  have hscalar {k : Byte} {r : Reg} (hr : r ∈ coordRegs true k l.rank.toNat) (hlt : ∀ i, r = .s i → i < 192) : e.noReg r = false := by
    obtain ⟨i, -, rfl⟩ := List.mem_map.1 hr
    simpa [Env.noReg, beyond] using hlt _ rfl
  have hheld : (coordRegs true f.b l.rank.toNat ++ coordRegs true f.c l.rank.toNat).any e.noReg = false := by
    refine List.any_eq_false.2 fun r hr => ?_
    rw [Bool.not_eq_true]
    rcases List.mem_append.1 hr with hr | hr
    · exact hscalar hr (hfirst r hr).2.2.2
    · exact hscalar hr (hregs r hr).2.2
  rw [State.form, hentry]
  dsimp only
  rw [State.gate_ready hready, hok, hheld]
  rfl

/-- The operation of a maintenance word that sends `reqs`. -/
def State.maintResult (s : State) (e : Env) (reqs : List Req) : Result :=
  { id := 0, wg := 0, wave := 0, cnt := none, regs := [], ready := reqs = [], readyAt := s.clk + 8, maint := true,
    lanes := if reqs = [] then [] else
      [{ lane := e.act.headD 0, parts := reqs.length, w := 0, fmt := 0, ty := .b32, reg := .none, wide := false, who := maskOf e.act }] }

/-- The state after a maintenance word that sends `reqs`. -/
def State.maintained (s : State) (e : Env) (clk : State) (reqs : List Req) : State :=
  { s.withHold e (clk.maintResult e reqs) with
    nextId := s.nextId + 1 + reqs.length
    reqs := s.reqs ++ numbered (s.nextId + 1) (reqs.map fun x => { x with op := s.nextId }) }

/-- The words alike: `i` is the one whose meaning is the body of `kind`. -/
theorem exec_maint {i : Instr} (hi : exec i s = memWord hd none (maintUses f) (maintBody kind f) s) (hr : Ready s hd none (maintUses f) e)
    (hh : e.w.holds = []) (hact : e.act ≠ []) (hl : Entry s e f.a true f.b l) (hmem : l.memory = true)
    (hregs : ∀ r ∈ coordRegs true f.c l.rank.toNat, e.w.marked r = false ∧ e.w.pending r = false ∧ ∀ i, r = .s i → i < 192)
    {lines : List Nat} (hbox : s.boxLines e l (e.box l.rank.toNat f.b f.c).1 (e.box l.rank.toNat f.b f.c).2 = (lines.map fun n => (n : Int), s))
    (hno : ∀ x ∈ s.sbuf, x.core ≠ e.core)
    (hlines : ∀ n ∈ lines, (∃ x, s.albFind e.core (e.lineAsid n) (128 * n) = some x)
      ∧ ∃ leaf, s.pageOk e l (128 * (n : Int)) (if kind = 0 then .rd else .wr) false = (.ok leaf, s)) :
    ∃ fills reqs, exec i s = .next ((s.linesLeft e kind lines fills).maintained e s reqs)
      ∧ reqs.map (fun q => (q.what, q.core, q.asid, q.line))
        = if f.m.toNat % 4 = 0 then [] else lines.map fun n => (.maint kind (f.m.toNat % 4), e.core, e.lineAsid n, n) := by
  have hdid := MRun.Did.all (level := f.m.toNat % 4) hno lines hlines (.start s e kind _)
  generalize hrun : (lines.map fun n => (n : Int)).foldl (fun (x : MRun) ln => x.line e l kind (f.m.toNat % 4) ln) { st := s } = run at hdid
  obtain ⟨⟨fills, hst⟩, hbad, hreqs⟩ := hdid
  rw [List.nil_append] at hreqs hst
  refine ⟨fills, run.reqs, hi.trans (memWord_ready hr hh ?_ rfl), hreqs⟩
  rw [maintBody, State.form_box hl hmem hregs]
  simp only [hact, if_false, wfld_low, Nat.reducePow, hbox, hrun, hbad, hst]
  rw [State.startOp_holds _ e rfl]
  exact foldl_sendReq_map (fun x : Req => { x with op := (s.linesLeft e kind lines fills).nextId }) run.reqs _

end Maint

/-- Settles O22: PREF requests its parts' lines; a maintenance word takes the lines of its box one by one. -/
theorem prefetchAndMaintenance : Obligations.PrefetchAndMaintenance := by
  unfold Obligations.PrefetchAndMaintenance
  refine ⟨fun s hd e f l hh hr hl => ⟨exec_pref_scr hr hh hl, ?pref⟩, ?maint⟩
  case pref =>
    intro xs s1 hmem hxs hx hcalm parts
    have ht := exec_pref_mem hr hh hl hmem hxs hx hcalm
    have hspent := s1.afterPref_spent e f (memPartsOf xs)
    have hreqs : (s1.afterPref e f (memPartsOf xs)).reqs
        = s1.reqs ++ numbered s1.nextId ((memPartsOf xs).map fun x => s1.prefReq e f.pol.toNat x.1 x.2) := by rw [hspent.rest]; rfl
    refine ⟨_, ht, ?_, ⟨?_, ?_⟩, ?_, ?_, ?_⟩
    · rw [hspent.rest]
      rfl
    · rw [hreqs]
      exact List.take_left ..
    · rw [hreqs, List.drop_left, map_numbered (fun _ _ => rfl), List.map_map]
      rfl
    · intro q hq
      rw [hreqs, List.drop_left] at hq
      have hmem := List.mem_map_of_mem (f := fun q : Req => (q.core, q.isLoad, q.prefetch, q.lvl)) hq
      rw [map_numbered (fun _ _ => rfl), List.map_map] at hmem
      obtain ⟨x, -, hx⟩ := List.mem_map.1 hmem
      simp only [Prod.mk.injEq, Function.comp] at hx
      obtain ⟨h1, h2, h3, h4⟩ := hx
      exact ⟨h1.symm, h2.symm, h3.symm, h4.symm⟩
    · intro hpol
      rw [State.afterPref, if_pos hpol]
      exact ⟨rfl, rfl⟩
    · intro hpol hbuf
      rw [State.afterPref, if_neg (Nat.not_lt.2 hpol)]
      exact State.foldl_spend_drops _ _ hbuf (memPartsOf_pos hmem hxs)
  case maint =>
    intro s hd e f l lines hh hact hl hmem hregs hbox hno level asid starts
    have hall {kind : Nat} {i : Instr} {need : Need} (hi : exec i s = memWord hd none (maintUses f) (maintBody kind f) s)
        (huse : usesOf i = maintUses f) (hneed : need = if kind = 0 then .rd else .wr) : starts i kind need := by
      intro hr hlines
      rw [huse] at hr
      rw [hneed] at hlines
      obtain ⟨fills, reqs, ht, hreqs⟩ := exec_maint hi hr hh hact hl hmem hregs hbox hno hlines
      have hempty : reqs = [] ↔ level = 0 ∨ lines = [] := by
        rw [← List.map_eq_nil_iff (f := fun q : Req => (q.what, q.core, q.asid, q.line)), hreqs]
        split
        case isTrue h0 => exact iff_of_true rfl (.inl h0)
        case isFalse h0 => simp [level, h0]
      refine ⟨_, _, ht, rfl, rfl, rfl, rfl, ?_, ?_, rfl, List.take_left .., ?_, fun _ => rfl, fun _ => rfl⟩
      · exact (decide_eq_decide.2 hempty).trans (Bool.decide_or ..)
      · refine (State.wave?_withHold (s := s.linesLeft e kind lines fills) (State.env?_wave hr.1) _).trans ?_
        simp [Wave.holding, Wave.marking, State.maintResult, hh]
      · have hkey := congrArg (List.map fun x : ReqOp × Nat × BitVec 16 × Nat => (x.1, x.2.1, x.2.2.1, x.2.2.2, s.nextId)) hreqs
        refine (congrArg (List.map _) (List.drop_left ..)).trans ((map_numbered (fun _ _ => rfl) _ _).trans ?_)
        rw [List.map_map] at hkey ⊢
        refine hkey.trans ?_
        split
        case isTrue => rfl
        case isFalse => exact List.map_map ..
    exact ⟨hall rfl rfl rfl, hall rfl rfl rfl, hall rfl rfl rfl⟩

end Sys2Proof.Machine
end

section
/-! PROOFS. The matrix queue (O33): the turn of a core's first entry, and the pebbles of one that waits (R277, R280, R283, R285 to R287,
R328, R329, R333). -/
namespace Sys2Proof.Machine

variable {s t : State} {core : Nat} {e : MqEntry} {w : Workgroup}

/-! An entry that is done (R277). -/

theorem State.recalls_mwaitGo (core fuel : Nat) (s : State) : (s.mwaitGo core fuel).recalls = s.recalls := by
  induction fuel generalizing s with
  | zero => rfl
  | succ fuel ih =>
    rw [State.mwaitGo]
    split
    · rfl
    · split
      · split <;> rfl
      · split
        · exact ih _
        · rfl

theorem State.recalls_mqDone (s : State) (e : MqEntry) : (s.mqDone e).recalls = s.recalls :=
  (State.recalls_mwaitGo ..).trans (State.mmaCount_keeps (g := State.recalls) (fun _ _ _ _ => rfl) ..)

/-- A turn that raises no recall is the step. -/
theorem exec_turn (hs : s.recalls = []) (ht : s.mqTurn core = t.mqDone e) (hcalm : t.recalls = []) :
    exec (.matrixQueueEntry core) s = .next (t.mqDone e) :=
  congrArg Host.Outcome.next (State.transact_eq (body := fun s => s.mqTurn core) hs ht ((State.recalls_mqDone ..).trans hcalm))

/-- A tile whose scratchpads hold no error. -/
theorem Tile.hasUe_clean (hparts : ∀ x ∈ w.parts, x.ue = [] ∧ x.lost = []) (t : Tile) (me : Nat) : t.hasUe w me = false := by
  have hpart (j : Nat) : (w.part j).ue = [] ∧ (w.part j).lost = [] := by
    rw [Workgroup.part, List.getD_eq_getElem?_getD]
    cases h : w.parts[j]? with
    | none => exact ⟨rfl, rfl⟩
    | some p => exact hparts p (List.mem_of_getElem? h)
  rw [Tile.hasUe]
  cases t.l.partFor w me with
  | none => rfl
  | some j => simp [(hpart j).1, (hpart j).2]

section Turn
variable (he : (s.mq.find? fun x => x.core = core) = some e) (hw : s.wg? e.wg = some w)
include he hw

theorem mqTurn_accz {off n : Nat} (hop : e.op = .accz off n) :
    s.mqTurn core = (s.modPart e.wg e.part fun p => p.setAcc (off / 4) (List.replicate (n / 4) 0)).mqDone e := by
  simp only [State.mqTurn, he, hw, hop]

theorem mqTurn_accld {off a n : Nat} (hop : e.op = .accld off a n) (hclean : (w.part e.part).bad none a n = false) :
    s.mqTurn core = (s.modPart e.wg e.part fun p => p.accLoad off a n).mqDone e := by
  simp only [State.mqTurn, he, hw, hop, hclean, Bool.false_eq_true, if_false]

theorem mqTurn_accrd {r d : Nat} {ls : List (Nat × Nat)} (hop : e.op = .accrd r ls d) (hclean : (w.part e.part).accUe = []) :
    s.mqTurn core = (s.finishOp r s.clk (ls.map fun x => ⟨.v d, x.1, ((w.part e.part).accWord x.2).setWidth 64⟩)).mqDone e := by
  have hany : ¬(ls.any fun _ => false) = true := by simp
  have hnone (k : Nat) : (w.part e.part).accUe.contains k = false := by rw [hclean]; rfl
  simp only [State.mqTurn, he, hw, hop, hnone, Bool.false_eq_true, if_false, if_neg hany]

theorem mqTurn_mma {b : Bead} {aL bL : Layout} {n aw bw : Nat} (hop : e.op = .mma b aL bL n aw bw false false) (hinj : e.inj = none)
    (hclean : (w.part e.part).accUe = []) (hparts : ∀ x ∈ w.parts, x.ue = [] ∧ x.lost = []) :
    s.mqTurn core = (s.modPart e.wg e.part fun q => q.setAcc (256 * b.acc.toNat)
      (mmaWords b (fun i => ((w.part e.part).accWord (256 * b.acc.toNat + i)).toNat)
        (fun i x => elemVal w e.part aL (addC (owOrigin b.a) [x, i, 0, 0, 0]) aw)
        (fun x j => elemVal w e.part bL (addC (owOrigin b.b) [j, x, 0, 0, 0]) bw) (kOf n))).mqDone e := by
  have hnone (k : Nat) : (w.part e.part).accUe.contains k = false := by rw [hclean]; rfl
  have hany (g : Nat → Bool) : (w.part e.part).accUe.any g = false := by rw [hclean]; rfl
  simp only [State.mqTurn, he, hw, hop, State.mmaTurn, hinj, hnone, hany, Tile.hasUe_clean hparts, Option.isSome_none, Bool.false_and, Bool.and_false,
    Bool.or_self, Bool.false_eq_true, if_false]

theorem mqTurn_drain {el sc tile : Word} {eL sL : Layout} {m : BitVec 14} {ls : BitVec 64} {wd : Pc}
    (hop : e.op = .drain el sc eL sL tile m ls wd) (hclean : (w.part e.part).accUe = [])
    {ts : List Tile} {ws : List DWrite} (hts : DrainArgs.tiles ⟨m, tile⟩ el sc eL sL = ts)
    (hws : DrainArgs.writes ⟨m, tile⟩ (fun i j => f32F.decode ((w.part e.part).accWord (256 * DrainArgs.acc ⟨m, tile⟩
      + i * DrainArgs.colsN ⟨m, tile⟩ + j)).toNat) = ws)
    (hlines : drainLines ts ws = []) (hclr : DrainArgs.clr ⟨m, tile⟩ = false) :
    s.mqTurn core = (s.drainScratch e.wg e.part w (DrainArgs.tag ⟨m, tile⟩) ts ws).mqDone e := by
  have hnone (k : Nat) : (w.part e.part).accUe.contains k = false := by rw [hclean]; rfl
  have hany (g : Nat → Bool) : (w.part e.part).accUe.any g = false := by rw [hclean]; rfl
  simp only [State.mqTurn, he, hw, hop, State.drainTurn, hnone, hany, Bool.false_eq_true, if_false, hts, hws, hlines, hclr, State.drainReady,
    State.drainMemory, List.foldl_nil, Bool.not_true]

end Turn

theorem State.recalls_drainScratch (s : State) (wg me : Nat) (w : Workgroup) (tag : Byte) (ts : List Tile) (ws : List DWrite) :
    (s.drainScratch wg me w tag ts ws).recalls = s.recalls := by
  have hput (s : State) (x : DWrite) : (match x.at ts with
    | some (t, ba) =>
      (match (if t.l.scratch then t.l.partFor w me else none) with
       | some j => s.modPart wg j fun p =>
           let tg : Byte := if x.sc then 0 else tag
           ((p.setBits (some t.l) ba.toNat t.w x.code).setTag (ba / 8).toNat tg).setTag ((ba + t.w - 1) / 8).toNat tg
       | none => s)
    | none => s).recalls = s.recalls := by
    split
    · split <;> rfl
    · rfl
  exact (foldl_keeps State.recalls hput _ _).trans (foldl_keeps State.recalls hput _ _)

/-! Pebbles (R283, R328). -/

theorem Bead.cost_pos (b : Bead) : b.cost ≠ 0 := by
  have hm : 16 ≤ b.m := by
    rw [Bead.m, mOf]
    split
    · exact Nat.le_refl _
    · split <;> decide
  have hn : 16 ≤ b.nn := by rw [Bead.nn]; omega
  have hmn : 256 ≤ b.m * b.nn := Nat.mul_le_mul hm hn
  rw [Bead.cost, cdiv]
  exact Nat.ne_of_gt (Nat.div_pos (by omega) (by decide))

/-- Where no injection is armed at the core, an operation enters without one. -/
theorem State.mqPush_unarmed {x : MqEntry} (h : s.rf (rCORE_ACCINJ x.core) 32 1 = 0) : s.mqPush x = { s with mq := s.mq ++ [{ x with inj := none }] } := by
  have hoff (a c d : Bool) : (decide (s.rf (rCORE_ACCINJ x.core) 32 1 = 1) && a && c && d) = false := by rw [h]; rfl
  rw [State.mqPush]
  cases x.op with
  | mma =>
    dsimp only
    rw [hoff]
    rfl
  | _ => rfl

/-- A waiting operation of number `id` has its pebbles. -/
def MqEntry.given (id n : Nat) (x : MqEntry) : MqEntry := if x.id = id then { x with pebbles := n } else x

theorem MqEntry.core_given (id n : Nat) (x : MqEntry) : (x.given id n).core = x.core := by
  rw [MqEntry.given]
  split <;> rfl

theorem MqEntry.filter_given (id n : Nat) (l : List MqEntry) : ((l.map (MqEntry.given id n)).filter fun x => x.id ≠ id) = l.filter fun x => x.id ≠ id := by
  induction l with
  | nil => rfl
  | cons x l ih =>
    by_cases h : x.id = id
    · simpa [MqEntry.given, h] using ih
    · simpa [MqEntry.given, h] using ih

/-- An operation that is the only one of its core to wait enters the queue with its pebbles. -/
theorem exec_pebbleGrant_mma (hfind : (s.mwait.find? fun x => x.id = e.id) = some e) (hfree : s.mqFree e.core = true)
    (honly : ∀ x ∈ s.mwait, x.core = e.core → x = e) (hask : ∃ a ∈ s.asks, a.op = e.id)
    {b : Bead} {aL bL : Layout} {n aw bw : Nat} {x y : Bool} (hop : e.op = .mma b aL bL n aw bw x y)
    (hturn : s.askTurn (s.asks.takeWhile fun a => a.op ≠ e.id) b.cost = true) (hinj : s.rf (rCORE_ACCINJ e.core) 32 1 = 0) :
    exec (.pebbleGrant e.id) s = .next { s with
      mwait := s.mwait.filter fun x => x.id ≠ e.id
      asks := s.asks.filter fun a => a.op ≠ e.id
      mq := s.mq ++ [{ e with pebbles := min b.cost s.pebTotal, inj := none }] } := by
  have hcost : e.cost = b.cost := by rw [MqEntry.cost, hop]
  have hpos : min b.cost s.pebTotal ≠ 0 := by
    have htotal : 0 < s.pebTotal := by
      simp only [State.askTurn, State.pebFits, Bool.and_eq_true, decide_eq_true_eq] at hturn
      exact hturn.1.1.1
    have := b.cost_pos
    omega
  have hfirst : (s.mwait.find? fun x => x.core = e.core) = some e := by
    cases h : s.mwait.find? fun x => x.core = e.core with
    | none => exact absurd rfl (of_decide_eq_false (Bool.not_eq_true _ ▸ List.find?_eq_none.1 h e (List.mem_of_find?_eq_some hfind)))
    | some x => rw [honly x (List.mem_of_find?_eq_some h) (by simpa using List.find?_some h)]
  have hnext : ((s.mwait.filter fun x => x.id ≠ e.id).find? fun x => x.core = e.core) = none :=
    List.find?_eq_none.2 fun x hx hcore => by
      obtain ⟨hx, hid⟩ := List.mem_filter.1 hx
      rw [honly x hx (by simpa using hcore)] at hid
      simp at hid
  have hany : (s.asks.any fun a => a.op = e.id) = true := by
    obtain ⟨a, ha, hop⟩ := hask
    exact List.any_eq_true.2 ⟨a, ha, decide_eq_true hop⟩
  have hgo : State.mwaitGo { s with mwait := s.mwait.map (MqEntry.given e.id (min b.cost s.pebTotal)), asks := s.asks.filter fun a => a.op ≠ e.id }
      e.core 8 = { s with
        mwait := s.mwait.filter fun x => x.id ≠ e.id
        asks := s.asks.filter fun a => a.op ≠ e.id
        mq := s.mq ++ [{ e with pebbles := min b.cost s.pebTotal, inj := none }] } := by
    have hfirst' : ((s.mwait.map (MqEntry.given e.id (min b.cost s.pebTotal))).find? fun x => x.core = e.core)
        = some { e with pebbles := min b.cost s.pebTotal } := by
      rw [List.find?_map, show (fun x : MqEntry => decide (x.core = e.core)) ∘ MqEntry.given e.id (min b.cost s.pebTotal)
        = fun x => decide (x.core = e.core) from funext fun x => congrArg (fun c => decide (c = e.core)) (x.core_given ..), hfirst]
      exact congrArg some (if_pos rfl)
    have hrest : ((s.mwait.map (MqEntry.given e.id (min b.cost s.pebTotal))).filter fun x => x.id ≠ e.id) = s.mwait.filter fun x => x.id ≠ e.id :=
      MqEntry.filter_given ..
    have hpush : State.mqPush { s with mwait := s.mwait.filter fun x => x.id ≠ e.id, asks := s.asks.filter fun a => a.op ≠ e.id }
        { e with pebbles := min b.cost s.pebTotal } = _ := State.mqPush_unarmed hinj
    rw [State.mwaitGo]
    dsimp only
    rw [hfirst']
    dsimp only
    rw [if_neg hpos]
    refine (if_pos hfree).trans ?_
    rw [hrest, hpush, State.mwaitGo]
    dsimp only
    rw [hnext]
  refine congrArg Host.Outcome.next ?_
  rw [State.pebGrant, hfind]
  dsimp only
  rw [hany, hcost, hturn]
  exact hgo

/-- Settles O33: a turn is what its entry does, then the entry leaves; a granted operation enters; the pool's fields stand apart. -/
theorem matrixQueue : Obligations.MatrixQueue := by
  unfold Obligations.MatrixQueue
  refine ⟨fun s core e w hs he hw => ?turn, fun s => ⟨fun e hfind hfree honly hask b aL bL n aw bw x y hop => exec_pebbleGrant_mma hfind hfree honly hask hop,
    fun n => ?total, fun die on hdie => ?gate⟩⟩
  case turn =>
    intro p turn
    refine ⟨fun off n hop => ?_, fun off a n hop hclean => ?_, fun r ls d hop hclean => ?_, fun b aL bL n aw bw hop hinj hacc _ _ hparts => ?_,
      fun el sc eL sL tile m ls wd hop hacc => ?_⟩
    · exact exec_turn hs (mqTurn_accz he hw hop) hs
    · exact exec_turn hs (mqTurn_accld he hw hop hclean) hs
    · exact exec_turn hs (mqTurn_accrd he hw hop hclean) hs
    · exact exec_turn hs (mqTurn_mma he hw hop hinj hacc hparts) hs
    · intro a ts ws hlines hclr
      exact exec_turn hs (mqTurn_drain he hw hop hacc rfl rfl hlines hclr) ((State.recalls_drainScratch ..).trans hs)
  case total =>
    refine ⟨_, rfl, ?_, fun o ho => ?_, rfl⟩
    · rw [State.pebTotal, State.setPebbles, State.rf_setRf_self _ _ _ (by decide)]
      omega
    · exact State.reg_setReg_other _ _ ho
  case gate =>
    refine ⟨_, rfl, ?_⟩
    rw [if_pos hdie]
    refine ⟨rfl, ?_, State.rf_setRf_field _ _ _ (.inl (by omega)), fun d hd hne => ?_, fun o ho => State.reg_setReg_other _ _ ho⟩
    · rw [State.rf_setRf_self _ _ _ (by omega)]
      split <;> rfl
    · exact State.rf_setRf_field _ _ _ (by omega)

end Sys2Proof.Machine
end

section
/-! PROOFS. What the device's own accesses by physical address leave as it was (R33, R58), and contributions at their home lode (O37:
R292, R363). -/
namespace Sys2Proof.Machine

variable {s s1 s2 t : State}

/-! Accesses by physical address (R33, R58). -/

/-- A state without what an access by physical address can change. -/
def State.physless (s : State) : State := { s.lineless with kv := [], recalls := [], contracts := [], invals := [] }

theorem State.physless_of_readless (h : t.readless = s.readless) : t.physless = s.physless :=
  congrArg (fun x : State => ({ x.lineless with invals := [] } : State)) h

theorem State.physless_of_lineless (h : t.lineless = s.lineless) : t.physless = s.physless :=
  congrArg (fun x : State => ({ x with kv := [], recalls := [], contracts := [], invals := [] } : State)) h

theorem State.physless_startInval (s : State) (line : Nat) (ws : List (Nat × Nat × Nat)) (host : Bool) :
    (s.startInval line ws host).physless = s.physless := by
  rw [State.startInval]
  dsimp only
  split <;> rfl

theorem State.physless_mergeLine (s : State) (id : Nat) (mask d : Line) (req : Option (BitVec 4)) (ws : List (Nat × Nat × Nat)) (host : Bool) :
    (s.mergeLine id mask d req ws host).physless = s.physless := by
  rw [State.mergeLine]
  split
  · rfl
  · dsimp only
    split
    · rfl
    · exact State.physless_startInval ..

theorem State.physless_mergePhys (s : State) (f off : Nat) (mask data : Line) (host : Bool) :
    (s.mergePhys f off mask data host).physless = s.physless := by
  have hleaf := State.physless_of_readless (s.readless_mappedLeaf f off)
  have hend (t : State) (id : Nat) : (t.endTransit id).physless = t.physless := State.physless_of_lineless (State.tends_endTransit t id).lineless
  rw [State.mergePhys]
  dsimp only
  split
  · exact (hend ..).trans ((State.physless_mergeLine ..).trans ((State.physless_of_readless (State.readless_touch ..)).trans
      ((State.physless_of_readless (State.readless_wakeLode ..)).trans hleaf)))
  · exact (hend ..).trans ((State.physless_mergeLine ..).trans ((State.physless_of_readless (State.readless_wakeLode ..)).trans hleaf))

theorem State.physless_writePhys (s : State) (pa : Nat) (bytes : List Byte) : (s.writePhys pa bytes).physless = s.physless := by
  rw [State.writePhys]
  refine foldl_keeps State.physless (fun t c => ?_) _ s
  dsimp only
  split
  · rfl
  · exact t.physless_mergePhys ..

theorem State.physless_writePhysN (s : State) (pa n v : Nat) : (s.writePhysN pa n v).physless = s.physless := s.physless_writePhys ..

theorem State.countDropped_eq (s : State) (save n : Nat) : ∃ v, s.countDropped save n = (s.readPhysN (save + 12) 4).2.writePhysN (save + 12) 4 v :=
  ⟨_, rfl⟩

theorem State.physless_countDropped (s : State) (save n : Nat) : (s.countDropped save n).physless = s.physless := by
  obtain ⟨v, h⟩ := s.countDropped_eq save n
  rw [h, State.physless_writePhysN]
  exact State.physless_of_readless (s.readless_readPhysN (save + 12) 4)

theorem State.serves_countDropped (s : State) (save n : Nat) : s.Serves (s.countDropped save n) := by
  obtain ⟨v, h⟩ := s.countDropped_eq save n
  rw [h]
  exact (s.serves_readPhysN (save + 12) 4).trans (State.serves_writePhysN ..)

theorem State.reds_of_physless (h : t.physless = s.physless) : t.reds = s.reds := (congrArg State.reds h :)
theorem State.reqs_of_physless (h : t.physless = s.physless) : t.reqs = s.reqs := (congrArg State.reqs h :)

/-! Contributions (R292). -/

section Arrive
variable {r : Req} {held wait : Bool} {op n i : Nat} {x : Word} {l : LLine} {y : RedRec}

/-- The contribution of a request that the lode takes up. -/
theorem exec_contribution {ev : Instr} (hev : (ev = Instr.lredContribution r.id ∧ held = false) ∨ (ev = .lredContributionRetry r.id ∧ held = true))
    (hs : s.recalls = []) (hr : s.redReq r.id held = some r) (hport : s.portShut r = false) (ht : s.redArrive r = t) (hcalm : t.recalls = []) :
    exec ev s = .next t := by
  have hrun : s.transact (fun s => s.redArrive r) (fun x => x) = t := State.transact_eq hs ht hcalm
  rcases hev with ⟨rfl, rfl⟩ | ⟨rfl, rfl⟩
  · refine congrArg Host.Outcome.next ?_
    rw [hr]
    dsimp only
    rw [hport, if_neg Bool.false_ne_true, hrun]
  · refine congrArg Host.Outcome.next ?_
    rw [hr]
    dsimp only
    rw [hport, if_neg Bool.false_ne_true, hrun]

/-- The open record that a contribution is for (R292, R363). -/
def State.openRec (s s1 : State) (r : Req) (l : LLine) : Option RedRec :=
  s1.reds.find? fun z => z.lode = l.lode && z.asid = r.asid && z.va = r.va && z.q = r.q
    && z.runOf = (s1.replayBy (s.reqAcc r).who).map (·.id) && !z.kept

/-- The record with one value more that it holds. -/
def RedRec.holding (y : RedRec) (r : Req) (i : Nat) (x : Word) (who : Option Nat) (wait : Bool) : RedRec :=
  { y with got := y.got ++ [i], held := y.held ++ [(i, x)], ctxs := if y.ctxs.contains r.ctx then y.ctxs else y.ctxs ++ [r.ctx],
           waiters := if wait then y.waiters ++ [(r.op, r.lane, r.ctx)] else y.waiters, who := who,
           by_ := addNew (r.wg, r.wave, r.lane) y.by_ }

/-- Where the next index in turn has come, it alone is combined. -/
theorem RedRec.run_next {y : RedRec} {r : Req} {who : Option Nat} (hheld : ∀ z ∈ y.held, z.1 ≠ y.nxt ∧ z.1 ≠ y.nxt + 1) (fuel : Nat) :
    (y.holding r y.nxt x who wait).run (fuel + 2) = { y.holding r y.nxt x who wait with
      acc := BitVec.ofNat 64 (redCombine y.op y.acc.toNat x.toNat), nxt := y.nxt + 1, held := y.held } := by
  have hfind : ((y.held ++ [(y.nxt, x)]).find? fun z => z.1 = y.nxt) = some (y.nxt, x) := by
    rw [List.find?_append, List.find?_eq_none.2 fun z hz => by simpa using (hheld z hz).1]
    simp
  have hleft : ((y.held ++ [(y.nxt, x)]).filter fun z => z.1 ≠ y.nxt) = y.held := by
    rw [List.filter_append, List.filter_eq_self.2 fun z hz => by simpa using (hheld z hz).1]
    simp
  have hnone : (y.held.find? fun z => z.1 = y.nxt + 1) = none := List.find?_eq_none.2 fun z hz => by simpa using (hheld z hz).2
  rw [RedRec.run, RedRec.holding]
  dsimp only
  rw [hfind]
  dsimp only
  rw [hleft, RedRec.run]
  dsimp only
  rw [hnone]

/-- A later one is held. -/
theorem RedRec.run_later {y : RedRec} {r : Req} {who : Option Nat} (hheld : ∀ z ∈ y.held, z.1 ≠ y.nxt) (hi : i ≠ y.nxt) (fuel : Nat) :
    (y.holding r i x who wait).run fuel = y.holding r i x who wait := by
  have hnone : ((y.held ++ [(i, x)]).find? fun z => z.1 = y.nxt) = none := by
    rw [List.find?_append, List.find?_eq_none.2 fun z hz => by simpa using hheld z hz]
    simp [hi]
  cases fuel with
  | zero => rfl
  | succ fuel =>
    rw [RedRec.run, RedRec.holding]
    dsimp only
    rw [hnone]

/-- A record that waits for an index stays open. -/
theorem State.redClose_waits {id : Nat} {z : RedRec} (hz : (s.reds.find? fun r => r.id = id) = some z) (hopen : z.nxt < z.n) : s.redClose id = s := by
  rw [State.redClose, hz]
  exact if_pos hopen

theorem State.redAnswer_results (s : State) (res lane : Nat) (v : Word) : ∃ rs, s.redAnswer res lane v = { s with results := rs } := ⟨_, rfl⟩

/-- The state with the contribution taken into record `y`, which is then `z`. -/
def State.taken (s : State) (r : Req) (y z : RedRec) (wait : Bool) : State :=
  if wait then (s.modRed y.id fun _ => z).dropReq r.id else ((s.modRed y.id fun _ => z).dropReq r.id).redAnswer r.op r.lane 0

theorem State.reds_taken (s : State) (r : Req) (y z : RedRec) (wait : Bool) :
    (s.taken r y z wait).reds = s.reds.map (fun x => if x.id = y.id then z else x) ∧ (s.taken r y z wait).reqs = s.reqs.filter (fun q => q.id ≠ r.id)
      ∧ (s.taken r y z wait).recalls = s.recalls := by
  rw [State.taken]
  split
  · exact ⟨rfl, rfl, rfl⟩
  · obtain ⟨rs, hrs⟩ := ((s.modRed y.id fun _ => z).dropReq r.id).redAnswer_results r.op r.lane 0
    rw [hrs]
    exact ⟨rfl, rfl, rfl⟩

/-- A contribution that its record takes, and that does not complete it. -/
theorem State.redArrive_takes (hwhat : r.what = .lred op n i x wait held) (hens : s.ensure (s.reqAcc r) = (.ok l, s1))
    (hrec : s.openRec s1 r l = some y) (huniq : ∀ z ∈ s1.reds, z.id = y.id → z = y) (hop : y.op = op) (hn : y.n = n) (hi : i ∉ y.got)
    (hroom : i = y.nxt ∨ s1.heldAt l.lode < 4096) {z : RedRec} (hz : (y.holding r i x (s.reqAcc r).who wait).run (n + 1) = z) (hid : z.id = y.id)
    (hopen : z.nxt < z.n) : s.redArrive r = s1.taken r y z wait := by
  have hbad : (decide (y.op ≠ op) || decide (y.n ≠ n) || y.got.contains i) = false := by simp [hop, hn, hi]
  have hfull : (decide (i ≠ y.nxt) && decide (4096 ≤ s1.heldAt l.lode)) = false := by
    rcases hroom with h | h
    · simp [h]
    · simp [Nat.not_le.2 h]
  have hmem : y ∈ s1.reds := List.mem_of_find?_eq_some hrec
  have hfind : ((s1.taken r y z wait).reds.find? fun x => x.id = y.id) = some z := by
    rw [(s1.reds_taken r y z wait).1, List.find?_map]
    have hfirst : (s1.reds.find? ((fun x : RedRec => decide (x.id = y.id)) ∘ fun x => if x.id = y.id then z else x)) = some y := by
      cases h : s1.reds.find? ((fun x : RedRec => decide (x.id = y.id)) ∘ fun x => if x.id = y.id then z else x) with
      | none => exact absurd (List.find?_eq_none.1 h y hmem) (by simp [hid])
      | some u =>
        have hu := List.find?_some h
        by_cases hui : u.id = y.id
        · rw [huniq u (List.mem_of_find?_eq_some h) hui]
        · simp [hui] at hu
    rw [hfirst]
    exact congrArg some (if_pos rfl)
  have hclose : (s1.taken r y z wait).redClose y.id = s1.taken r y z wait := State.redClose_waits hfind hopen
  have hfound : (s1.reds.find? _) = some y := hrec
  rw [State.redArrive, hwhat]
  dsimp only
  rw [hens]
  dsimp only
  rw [hfound]
  dsimp only
  rw [hbad, hfull, if_neg Bool.false_ne_true, if_neg Bool.false_ne_true]
  subst hz
  exact hclose

/-- One that disagrees with its record, or repeats an index, is refused and counted. -/
theorem State.redArrive_refuses (hwhat : r.what = .lred op n i x wait held) (hens : s.ensure (s.reqAcc r) = (.ok l, s1))
    (hrec : s.openRec s1 r l = some y) (hbad : y.op ≠ op ∨ y.n ≠ n ∨ i ∈ y.got) :
    s.redArrive r = (((s1.dropReq r.id).redRefused r.op r.lane).incRf (rLODE_RED l.lode) 32 32).countDropped (s.saveOf r.q r.ctx) 1 := by
  have hbad' : (decide (y.op ≠ op) || decide (y.n ≠ n) || y.got.contains i) = true := by simpa [or_assoc] using hbad
  have hfound : (s1.reds.find? _) = some y := hrec
  rw [State.redArrive, hwhat]
  dsimp only
  rw [hens]
  dsimp only
  rw [hfound]
  dsimp only
  rw [hbad', if_pos rfl]

/-- A later one for which the lode has no room waits. -/
theorem State.redArrive_back (hwhat : r.what = .lred op n i x wait held) (hens : s.ensure (s.reqAcc r) = (.ok l, s1))
    (hrec : s.openRec s1 r l = some y) (hop : y.op = op) (hn : y.n = n) (hi : i ∉ y.got) (hlater : i ≠ y.nxt) (hfull : 4096 ≤ s1.heldAt l.lode) :
    s.redArrive r = s1.modReq r.id fun q => { q with what := .lred op n i x wait true } := by
  have hbad : (decide (y.op ≠ op) || decide (y.n ≠ n) || y.got.contains i) = false := by simp [hop, hn, hi]
  have hheld : (decide (i ≠ y.nxt) && decide (4096 ≤ s1.heldAt l.lode)) = true := by simp [hlater, hfull]
  have hfound : (s1.reds.find? _) = some y := hrec
  rw [State.redArrive, hwhat]
  dsimp only
  rw [hens]
  dsimp only
  rw [hfound]
  dsimp only
  rw [hbad, hheld, if_neg Bool.false_ne_true, if_pos rfl]

/-- What a refusal changes beside the record's lode: the lane's result. -/
theorem State.redRefused_results (s : State) (res lane : Nat) : ∃ rs, s.redRefused res lane = { s with results := rs } := ⟨_, rfl⟩

theorem State.refused_state (hcalm : s.Calm) (r : Req) (o save : Nat) :
    let t := (((s.dropReq r.id).redRefused r.op r.lane).incRf o 32 32).countDropped save 1
    t.recalls = [] ∧ t.reds = s.reds ∧ t.reqs = s.reqs.filter fun q => q.id ≠ r.id := by
  obtain ⟨rs, hrs⟩ := (s.dropReq r.id).redRefused_results r.op r.lane
  rw [hrs]
  have hsame : State.Calm (State.incRf { s.dropReq r.id with results := rs } o 32 32) := ⟨hcalm.1, hcalm.2⟩
  exact ⟨((State.serves_countDropped ..).calm hsame).1, (State.reds_of_physless (State.physless_countDropped ..)).trans rfl,
    (State.reqs_of_physless (State.physless_countDropped ..)).trans rfl⟩

end Arrive

/-! The close of a record (R292). -/

/-- A record for whose value no wave waits closes once its write is accepted. -/
theorem exec_redClose {r : RedRec} {a : Acc1} (hs : s.recalls = []) (hr : (s.reds.find? fun z => z.id = r.id) = some r) (hkept : r.kept = false)
    (hall : r.n ≤ r.nxt) (hwait : r.waiters = []) (hacc : s.redAcc r r.who = (some a, s1))
    (hwrite : s1.writeLine a (lineBits (8 * (r.va % 128)) (redWidth r.op))
      (BitVec.ofNat 1024 ((r.acc.toNat % 2 ^ redWidth r.op) <<< (8 * (r.va % 128)))) r.by_ = (.ok (), s2)) (hcalm : s2.recalls = []) :
    exec (.lredCloseRetry r.id) s = .next { s2 with reds := s2.reds.filter fun x => x.id ≠ r.id } := by
  have hgive : s2.redGive r = { s2 with reds := s2.reds.filter fun x => x.id ≠ r.id } := by
    rw [State.redGive, hwait]
    exact congrArg (fun x => { s2 with reds := x }) (List.append_nil _)
  refine congrArg Host.Outcome.next (State.transact_eq hs ?_ hcalm)
  rw [State.redClose, hr]
  dsimp only
  rw [if_neg (Nat.not_lt.2 hall), hkept, if_neg Bool.false_ne_true, hacc]
  dsimp only
  rw [hwrite]
  exact hgive

/-- Settles O37: what the lode does of a contribution by what its record has, and of a record that is complete. -/
theorem contributions : Obligations.Contributions := by
  unfold Obligations.Contributions
  refine fun s => ⟨?arrive, fun r a s1 s2 hs hr hkept hall hwait hacc hwrite hcalm => exec_redClose hs hr hkept hall hwait hacc hwrite hcalm⟩
  intro r ev held hev hs hr hport op n i x l s1 y hwhat hens hcalm hrec huniq
  have took {z : RedRec} (htake : s.redArrive r = s1.taken r y z false) :
      ∃ t, exec ev s = .next t ∧ z ∈ t.reds ∧ ∀ q ∈ t.reqs, q.id ≠ r.id := by
    obtain ⟨h1, h2, h3⟩ := s1.reds_taken r y z false
    refine ⟨_, exec_contribution hev hs hr hport htake (h3.trans hcalm), ?_, fun q hq => ?_⟩
    · rw [h1]
      exact List.mem_map.2 ⟨y, List.mem_of_find?_eq_some hrec, if_pos rfl⟩
    · rw [h2] at hq
      simpa using (List.mem_filter.1 hq).2
  refine ⟨fun hbad hlines => ?_, fun hop hn hi hheld hmore => ⟨fun hnext => ?_, fun hlater hroom => ?_, fun hlater hfull => ?_⟩⟩
  · obtain ⟨h1, h2, h3⟩ := State.refused_state (s := s1) ⟨hcalm, hlines⟩ r (rLODE_RED l.lode) (s.saveOf r.q r.ctx)
    refine ⟨_, exec_contribution hev hs hr hport (State.redArrive_refuses hwhat hens hrec hbad) h1, h2, fun q hq => ?_⟩
    rw [h3] at hq
    simpa using (List.mem_filter.1 hq).2
  · subst hnext hop hn
    have hz := RedRec.run_next (wait := false) (x := x) (r := r) (who := (s.reqAcc r).who) hheld (y.n - 1)
    rw [show y.n - 1 + 2 = y.n + 1 by omega] at hz
    have htake := State.redArrive_takes hwhat hens hrec huniq rfl rfl hi (.inl rfl) hz rfl hmore
    obtain ⟨t, ht, hz, hreqs⟩ := took htake
    exact ⟨t, _, ht, hz, rfl, rfl, rfl, rfl, rfl, hreqs⟩
  · subst hop hn
    have hz := RedRec.run_later (wait := false) (x := x) (r := r) (who := (s.reqAcc r).who) (fun z hz => (hheld z hz).1) hlater (y.n + 1)
    have htake := State.redArrive_takes hwhat hens hrec huniq rfl rfl hi (.inr hroom) hz rfl (Nat.lt_of_succ_lt hmore)
    obtain ⟨t, ht, hz, hreqs⟩ := took htake
    exact ⟨t, _, ht, hz, rfl, rfl, rfl, rfl, rfl, hreqs⟩
  · exact exec_contribution hev hs hr hport (State.redArrive_back hwhat hens hrec hop hn hi hlater hfull) hcalm

end Sys2Proof.Machine
end

section
/-! PROOFS. Writes from outside (O47, O49): both statements fail for a write to an EMPTY frame whose recorded mapping the home lode has
to walk (R33), where the host holds a line of the page table exclusively: the write then waits for that half (R311). -/
namespace Sys2Proof.Machine

/-- The line written, of frame 5, which is EMPTY. -/
def writtenLine : LLine := { id := 90, lode := 3, asid := none, line := 512 * 5 + 4, frame := 5, off := 4, data := 7 }
def writtenPa : Nat := 65536 * 5 + 128 * 4

/-- The line of the root entries; the host holds its low half exclusively. -/
def rootLine : LLine := { id := 91, lode := 3, asid := none, line := 0, frame := 0, off := 0, data := 0, lo := .e }

/-- Both lines stand at lode 3, frame 5 is recorded as mapped under ASID 1, no translation buffer holds the pair, and link 0 is up. -/
def walkedState : State :=
  { State.reset with
    nextId := 100, lines := [writtenLine, rootLine], csr := (State.reset.setRf (rNRH_LNK 0) 0 3 2).csr
    rmapOwn := [(5, some (some { asid := 1, page := 0, size := .k64, home := 0, die := 0 }))] }

theorem walkedState_writes : HostWrites walkedState writtenPa 1 0 writtenLine where
  some := by decide
  line := by decide
  range := by decide +kernel
  calm := by decide +kernel
  plain := by decide +kernel
  given := by decide +kernel
  held := by decide +kernel
  alone := by decide +kernel
  clean := by decide +kernel
  awake := by decide +kernel
  idle := rfl
  own x h := by
    have hmap : walkedState.rmapOf (writtenPa / 65536) = some { asid := 1, page := 0, size := .k64, home := 0, die := 0 } := by
      decide +kernel
    obtain rfl := Option.some.inj (hmap.symm.trans h)
    rfl
  free := by decide +kernel
  room := by decide +kernel
  still := ⟨rfl, rfl⟩

/-- The host's write of one byte is held until the root line's half is back (4): it does not complete. -/
theorem walkedState_hostWrite : (walkedState.hostArrive writtenPa (.write [1])).hostDone = []
    ∧ (walkedState.hostArrive writtenPa (.write [1])).hostHolds.map (·.why) = [4] := by decide +kernel

/-- So is the peer's. -/
theorem walkedState_peerWrite : (walkedState.arriveAt writtenPa (.write [1]) (some 0) none).peerDone = []
    ∧ (walkedState.arriveAt writtenPa (.write [1]) (some 0) none).hostHolds.map (·.why) = [4] := by decide +kernel

/-- Refutes O47: the write waits for the half of the root line that the host holds, where the statement has it complete. -/
theorem not_hostAccesses : ¬ Obligations.HostAccesses := by
  intro h
  obtain ⟨-, hwrite, -⟩ := h walkedState 0 writtenLine writtenPa
  obtain ⟨t, hx, hdone, -⟩ := hwrite writtenPa [1] (by decide +kernel) walkedState_writes
  obtain rfl := Host.Outcome.next.inj hx
  exact absurd (walkedState_hostWrite.1.symm.trans hdone) (by decide)

/-- Refutes O49: the packet's write waits for the half of the root line that the host holds, where the statement has it complete. -/
theorem not_links : ¬ Obligations.Links := by
  intro h
  obtain ⟨-, hlink⟩ := h walkedState
  obtain ⟨-, -, -, -, -, hpackets⟩ := hlink 0 (by decide)
  obtain ⟨-, hwrite⟩ := hpackets (by decide +kernel) 0 writtenLine (by decide +kernel)
  obtain ⟨t, hx, hdone, -⟩ := hwrite writtenPa [1] walkedState_writes
  have hup : execNorhaRequest 0 none (.write writtenPa [1]) walkedState
      = .next (walkedState.arriveAt writtenPa (.write [1]) (some 0) none) := by
    unfold execNorhaRequest
    rw [if_neg (by decide +kernel)]
  obtain rfl := Host.Outcome.next.inj (hup.symm.trans hx)
  exact absurd (walkedState_peerWrite.1.symm.trans hdone) (by decide)

end Sys2Proof.Machine
end

section
/-! PROOFS. Partition commands (O50): the statement fails for a MERGE of dies 0 and 1 while die 0 is out of service, since the pools
then combine in the block of quarter 1, which leads the new partition (R380, R382, R383). -/
namespace Sys2Proof.Machine

/-- Start is over, dies 1 to 3 are in service, and the time of a MERGE of quarters 0 and 1 has come. -/
def mergingState : State :=
  { State.reset with
    csr := ((State.reset.setRf rSTART_STAT 0 2 3).setRf rSTART_STAT 8 4 14).csr
    partRun := some ⟨3, 3, 0⟩ }

/-- Each pool holds as much; that of quarter 0 stays. -/
theorem mergingState_pool : mergingState.partGo.rf (rTMB_POOL 0) 0 32 = 199753728 := by decide +kernel

theorem mergingState_sum :
    (dedup ((quartersIn 3).map mergingState.leadOf)).foldl (fun a q => a + mergingState.rf (rTMB_POOL q) 0 32) 0
      = 2 * 199753728 := by decide +kernel

/-- Refutes O50: the sum of the pools stands in the block of quarter 1, where the statement has it in that of quarter 0. -/
theorem not_partitionCommands : ¬ Obligations.PartitionCommands := by
  intro h
  obtain ⟨-, -, hreshape, -⟩ := h mergingState 3
  obtain ⟨-, hend⟩ := hreshape 3 0 (.inl rfl) rfl
  obtain ⟨-, -, -, -, hmerge⟩ := hend (by decide) 1 (by decide +kernel)
  obtain ⟨hpool, -⟩ := hmerge rfl
  have hsum : mergingState.partGo.rf (rTMB_POOL 0) 0 32 = 2 * 199753728 % 2 ^ 32 :=
    hpool.trans (congrArg (· % 2 ^ 32) mergingState_sum)
  exact absurd (mergingState_pool.symm.trans hsum) (by decide)

end Sys2Proof.Machine
end

section
/-! PROOFS. Errors and audits (O46): the statement fails for a record whose number is 0. A record that repeats none has 0 for its
primary, so the vote that ends the runs of record 0 drops the record with them (R364). The device numbers its records from 1 on;
the statement speaks of every number. -/
namespace Sys2Proof.Machine

/-- A record that has exited, as a run of an audit, its number and signatures given. -/
def votingRun (id : Nat) (a : Audit) (sigs : List Word) : Rec :=
  { stagingRecord with id := id, staging := false, audit := a, sigs := sigs }

/-- Record 0 signed 7, its replay 5; the third run has exited and wrote nothing, so that it signs 0. -/
def votingState : State :=
  { nextId := 60, recs := [votingRun 0 .selected [7], votingRun 51 .replay [5], votingRun 52 .third []] }

theorem votingState_audited : votingState.audited 0 = some (votingRun 0 .selected [7]) := by decide +kernel

theorem votingState_runs : votingState.runOf 0 .replay = some (votingRun 51 .replay [5])
    ∧ votingState.runOf 0 .third = some (votingRun 52 .third []) ∧ (votingRun 52 .third []).over = true := by decide +kernel

theorem votingState_sign : votingState.sign (votingRun 52 .third []) 0 = (0, votingState) := by decide +kernel

/-- No record is left. -/
theorem votingState_vote : (votingState.auditVote 0).recs = [] ∧ (votingState.auditVote 0).recalls = [] := by decide +kernel

/-- Refutes O46: no record is left after the vote, where the statement has record 0 terminated. -/
theorem not_errorsAndAudits : ¬ Obligations.ErrorsAndAudits := by
  intro h
  obtain ⟨-, -, haudit⟩ := h
  obtain ⟨-, -, hvote⟩ := haudit votingState (votingRun 0 .selected [7]) rfl votingState_audited
  obtain ⟨hreplay, hthird, hover⟩ := votingState_runs
  obtain ⟨-, -, hneither⟩ := hvote _ _ 0 hreplay hthird hover votingState_sign
  obtain ⟨hrecs, hrecalls⟩ := votingState_vote
  obtain ⟨t, x, hx, hmem, -⟩ := hneither (by decide) (by decide) (by decide) hrecalls
  have ht : exec (.auditVote 0) votingState = .next (votingState.auditVote 0) :=
    congrArg Host.Outcome.next (State.transact_eq rfl rfl hrecalls)
  obtain rfl := Host.Outcome.next.inj (ht.symm.trans hx)
  rw [hrecs] at hmem
  exact absurd hmem List.not_mem_nil

end Sys2Proof.Machine
end

section
/-! PROOFS. Saves and restores (O44: R349, R350, R353). -/
namespace Sys2Proof.Machine

variable {s : State} {w : Workgroup} {i : Image} {r : Rec} {k : Nat} {cores : List Nat}

/-! The save (R349). -/

/-- A workgroup as its image has it: what its waves wait for has landed, and its generations have advanced. -/
def Workgroup.saved (w : Workgroup) : Workgroup :=
  { w with waves := w.waves.map Wave.landAll, parts := w.parts.map fun p => { p with gen := p.gen + 1 } }

/-- The workgroup has left its cores for slot `k`, without copies. -/
def State.savedIn (s : State) (w : Workgroup) (k : Nat) : State :=
  { s with nextId := s.nextId + 1 + (s.nextId + 1), wgs := s.wgs.filter fun x => x.id ≠ w.id,
           images := s.images ++ [⟨s.nextId, k, w.saved, [], []⟩] }

/-- The image is written, and the cores that wait for it close. -/
def State.saveEnds (s : State) (w : Workgroup) (k : Nat) : State :=
  ((((s.savedIn w k).setBusy w.ctx.save k true).writeImage (s.slotAt w.ctx.save k) w.saved []).closeVac (w.parts.map (·.core)))

theorem State.saveWg_quiet (hw : s.wg? w.id = some w) (hfate : w.fate = .saving) (hready : s.saveReady w = true)
    (hcopies : ∀ c ∈ s.copies, c.wg ≠ w.id) (hk : s.freeSlot w.ctx.save (s.imageSize w) = some k) :
    s.saveWg w.id = s.saveEnds w k := by
  have hmine : s.fresh.2.copiesOf w.id = [] := List.filter_eq_nil_iff.2 fun c hc => by simp [hcopies c hc]
  have hleft : s.copies.filter (fun c => decide (c.wg ≠ w.id) || c.dead) = s.copies :=
    List.filter_eq_self.2 fun c hc => by simp [hcopies c hc]
  rw [State.saveWg, hw]
  dsimp only
  rw [if_neg (by simp [hfate, hready]), hk]
  dsimp only
  rw [hmine]
  simp only [State.fresh, List.filterMap_nil, List.append_nil, hleft, List.map_nil]
  rfl

/-- Writing an image is work by physical address. -/
theorem State.serves_writeImage (s : State) (at_ : Nat) (w : Workgroup) (copies : List Copy) : s.Serves (s.writeImage at_ w copies) := by
  have hfold {α : Type} (f : State → α → State) (h : ∀ t a, State.Serves t (f t a)) (l : List α) (t : State) : t.Serves (l.foldl f t) :=
    foldl_related (R := State.Serves) State.Serves.refl State.Serves.trans h l t
  rw [State.writeImage]
  refine (s.serves_writePhys _ _).trans ((hfold _ (fun t k => ?_) _ _).trans ((hfold _ (fun t j => ?_) _ _).trans
    ((hfold _ (fun t x => t.serves_writePhys _ _) _ _).trans (hfold _ (fun t x => t.serves_writePhys _ _) _ _))))
  · split
    · exact .refl t
    · exact (t.serves_writePhys _ _).trans (State.serves_writePhys _ _ _)
  · exact (t.serves_writePhys _ _).trans ((State.serves_writePhys _ _ _).trans ((State.serves_writePhys _ _ _).trans
      ((State.serves_writePhys _ _ _).trans (State.serves_writePhys _ _ _))))

/-- What the closing of cores and a workgroup's arrival on them leave alone. -/
def State.coreless (s : State) : List Workgroup × List Image × Nat × List (Nat × Bool × Bool) := (s.wgs, s.images, s.clk, s.recalls)

theorem State.coreless_closeVac (s : State) (cs : List Nat) : (s.closeVac cs).coreless = s.coreless :=
  foldl_keeps State.coreless (f := fun t (v : Vac) => t.closeCores v.cores v.by_)
    (fun t v => foldl_keeps State.coreless (f := fun t n => t.modCore n fun x =>
      if x.closers.contains v.by_ then x else { x with closers := x.closers ++ [v.by_] }) (fun _ _ => rfl) v.cores t) _ s

theorem State.coreless_arrive (s : State) (c : Ctx) (n : Nat) : (s.arrive c n).coreless = s.coreless := by
  have hwake : (s.wakeCore n).coreless = s.coreless := by
    rw [State.wakeCore]; split <;> rfl
  have hadvance (t : State) : (t.advanceNow n).coreless = t.coreless := by
    have hgo (u : State) : (u.advance n).coreless = u.coreless := rfl
    have hsweep (u : State) : (u.sweep n).coreless = u.coreless := rfl
    rw [State.advanceNow]
    split
    · exact (hgo _).trans (hsweep _)
    · exact hgo t
  exact (hadvance _).trans hwake

/-- A save leaves no recall behind; the image is kept and the workgroup gone. -/
theorem State.saveEnds_spec (hcalm : s.Calm) : (s.saveEnds w k).recalls = [] ∧ (s.saveEnds w k).images = (s.savedIn w k).images
    ∧ (s.saveEnds w k).wgs = (s.savedIn w k).wgs := by
  have hcalm' : (s.savedIn w k).Calm := hcalm
  have hserves := ((s.savedIn w k).serves_setBusy w.ctx.save k true).trans
    (State.serves_writeImage _ (s.slotAt w.ctx.save k) w.saved [])
  have hclose := State.coreless_closeVac (((s.savedIn w k).setBusy w.ctx.save k true).writeImage (s.slotAt w.ctx.save k) w.saved [])
    (w.parts.map (·.core))
  rw [State.saveEnds]
  generalize ((s.savedIn w k).setBusy w.ctx.save k true).writeImage (s.slotAt w.ctx.save k) w.saved [] = u at hserves hclose ⊢
  have himages : u.images = (s.savedIn w k).images := (congrArg PhysBystanders.images hserves.kept :)
  have hwgs : u.wgs = (s.savedIn w k).wgs := (congrArg Bystanders.wgs hserves.bystanders :)
  obtain ⟨hw, hi, -, hr⟩ : _ ∧ _ ∧ _ ∧ _ := by simpa only [State.coreless, Prod.mk.injEq] using hclose
  exact ⟨hr.trans (hserves.calm hcalm').1, hi.trans himages, hw.trans hwgs⟩

/-! The restore (R353). -/

/-- The fault ids of parked threads apart, a wave is as it was. -/
def Wave.Agrees (v u : Wave) : Prop :=
  u = { v with threads := u.threads } ∧ u.threads.length = v.threads.length
    ∧ ∀ l, { u.thread l with faultId := none } = { v.thread l with faultId := none }
      ∧ ((v.thread l).status ≠ .parked → u.thread l = v.thread l)

namespace Wave.Agrees
variable {u v x : Wave}

theorem refl (v : Wave) : v.Agrees v := ⟨rfl, rfl, fun _ => ⟨rfl, fun _ => rfl⟩⟩

theorem trans (h : v.Agrees u) (h' : u.Agrees x) : v.Agrees x := by
  obtain ⟨heq, hlen, hthread⟩ := h
  obtain ⟨heq', hlen', hthread'⟩ := h'
  refine ⟨by rw [heq', heq], hlen'.trans hlen, fun l => ?_⟩
  obtain ⟨hl, hkeep⟩ := hthread l
  obtain ⟨hl', hkeep'⟩ := hthread' l
  have hstatus : (u.thread l).status = (v.thread l).status := (congrArg Thread.status hl :)
  exact ⟨hl'.trans hl, fun hp => (hkeep' (hstatus ▸ hp)).trans (hkeep hp)⟩

end Wave.Agrees

/-- A parked thread with another fault id. -/
def Thread.withFault (f : Option Nat) (t : Thread) : Thread := if t.status = .parked then { t with faultId := f } else t

theorem Wave.agrees_withFault (v : Wave) (g : BitVec 64) (f : Option Nat) : v.Agrees (v.modLanes g fun _ t => t.withFault f) := by
  refine ⟨rfl, Wave.modLanes_threads_length .., fun l => ?_⟩
  rw [Wave.thread_modLanes]
  split
  · rw [Thread.withFault]
    split
    · next hp => exact ⟨rfl, fun h => absurd hp h⟩
    · exact ⟨rfl, fun _ => rfl⟩
  · exact ⟨rfl, fun _ => rfl⟩

/-- A workgroup, all of whose waves are as they were but for the fault ids of parked threads. -/
def Workgroup.Agrees (w g : Workgroup) : Prop :=
  g = { w with waves := g.waves } ∧ g.waves.length = w.waves.length
    ∧ ∀ (k : Nat) (v : Wave), w.waves[k]? = some v → ∃ u, g.waves[k]? = some u ∧ v.Agrees u

theorem Workgroup.Agrees.refl (w : Workgroup) : w.Agrees w := ⟨rfl, rfl, fun _ v hv => ⟨v, hv, .refl v⟩⟩

theorem Workgroup.Agrees.trans {w g x : Workgroup} (h : w.Agrees g) (h' : g.Agrees x) : w.Agrees x := by
  obtain ⟨heq, hlen, hwave⟩ := h
  obtain ⟨heq', hlen', hwave'⟩ := h'
  refine ⟨by rw [heq', heq], hlen'.trans hlen, fun k v hv => ?_⟩
  obtain ⟨u, hu, hvu⟩ := hwave k v hv
  obtain ⟨y, hy, huy⟩ := hwave' k u hu
  exact ⟨y, hy, hvu.trans huy⟩

theorem Workgroup.agrees_modify (w : Workgroup) (k : Nat) (g : BitVec 64) (f : Option Nat) :
    w.Agrees { w with waves := w.waves.modify k fun v => v.modLanes g fun _ t => t.withFault f } := by
  refine ⟨rfl, List.length_modify .., fun j v hv => ?_⟩
  by_cases hk : k = j
  · exact ⟨_, by rw [List.getElem?_modify, hv]; exact congrArg some (if_pos hk), v.agrees_withFault g f⟩
  · exact ⟨v, by rw [List.getElem?_modify, hv]; exact congrArg some (if_neg hk), .refl v⟩

/-- The workgroup `id` is the last of `s`, and the others are `l`: it is the last of `t` as well, but for the fault ids of parked
threads, and nothing else of its cores changes. -/
def State.AgreesOn (l : List Workgroup) (id : Nat) (s t : State) : Prop :=
  t.images = s.images ∧ t.recalls = s.recalls ∧ ∀ g, s.wgs = l ++ [g] → g.id = id → ∃ g', t.wgs = l ++ [g'] ∧ g.Agrees g'

theorem State.AgreesOn.trans {l : List Workgroup} {id : Nat} {s t u : State} (h : State.AgreesOn l id s t) (h' : State.AgreesOn l id t u) :
    State.AgreesOn l id s u := by
  obtain ⟨himages, hrecalls, hwgs⟩ := h
  obtain ⟨himages', hrecalls', hwgs'⟩ := h'
  refine ⟨himages'.trans himages, hrecalls'.trans hrecalls, fun g hg hid => ?_⟩
  obtain ⟨g1, hg1, hagree⟩ := hwgs g hg hid
  obtain ⟨g2, hg2, hagree'⟩ := hwgs' g1 hg1 (by rw [hagree.1]; exact hid)
  exact ⟨g2, hg2, hagree.trans hagree'⟩

theorem State.agreesOn_withFault {l : List Workgroup} {id : Nat} (hl : ∀ x ∈ l, x.id ≠ id) (s : State) (ps : List Park) (k : Nat)
    (m : BitVec 64) (f : Option Nat) :
    State.AgreesOn l id s (State.modLanes { s with parks := ps } id k m fun _ x => x.withFault f) := by
  refine ⟨rfl, rfl, fun g hg hid => ⟨_, ?_, g.agrees_modify k m f⟩⟩
  show s.wgs.map _ = _
  rw [hg, List.map_append, List.map_singleton, if_pos hid]
  congr 1
  exact (List.map_congr_left fun x hx => if_neg (hl x hx)).trans (List.map_id l)

theorem State.agreesOn_agreeFaults {l : List Workgroup} (hl : ∀ x ∈ l, x.id ≠ w.id) (s old : State) :
    State.AgreesOn l w.id s (s.agreeFaults old w) :=
  foldl_related (R := State.AgreesOn l w.id) (fun _ => ⟨rfl, rfl, fun g hg _ => ⟨g, hg, .refl g⟩⟩) State.AgreesOn.trans
    (fun _ _ => State.agreesOn_withFault hl _ _ _ _ _) _ s

theorem eq_of_ite_map_eq_some {α β : Type} {c : Prop} [Decidable c] {o : Option α} {f : α → β} {y : β}
    (h : (if c then none else o.map f) = some y) : ∃ x, y = f x := by
  split at h
  · cases h
  · obtain ⟨x, -, hx⟩ := Option.map_eq_some_iff.1 h
    exact ⟨x, hx.symm⟩

/-- Replay records that are read change parks and requests alone. -/
theorem State.readReplay_eq {b : List Byte} {p : Park} {t : State} (h : s.readReplay b p = some t) :
    t = { s with parks := t.parks, reqs := t.reqs } := by
  rw [State.readReplay] at h
  dsimp only at h
  split at h
  · cases h
  · split at h
    · cases h; rfl
    · obtain ⟨q, rfl⟩ := eq_of_ite_map_eq_some h
      rfl

theorem State.readReplays_eq {at_ : Nat} {t : State} (h : s.readReplays at_ i = some t) : t = { s with parks := t.parks, reqs := t.reqs } := by
  rw [State.readReplays] at h
  refine List.foldlRecOn (motive := fun o : Option State => ∀ t, o = some t → t = { s with parks := t.parks, reqs := t.reqs })
    _ _ (fun t ht => by cases ht; rfl) (fun o ih x _ t ht => ?_) t h
  obtain ⟨u, hu, hread⟩ := Option.bind_eq_some_iff.1 ht
  have heq := State.readReplay_eq hread
  rw [ih u hu] at heq
  exact heq

theorem State.wgs_of_physless {s t : State} (h : t.physless = s.physless) : t.wgs = s.wgs := (congrArg State.wgs h :)
theorem State.images_of_physless {s t : State} (h : t.physless = s.physless) : t.images = s.images := (congrArg State.images h :)
theorem State.clk_of_physless {s t : State} (h : t.physless = s.physless) : t.clk = s.clk := (congrArg State.clk h :)

/-- The image's slot is free, and its workgroup arrives on its cores. -/
def State.returned (s : State) (i : Image) (c : Ctx) (cores : List Nat) : State :=
  cores.foldl (fun s n => s.arrive c n)
    (State.setBusy { s with images := s.images.filter fun x => x.id ≠ i.id } i.wg.ctx.save i.slot false)

theorem State.returned_spec (hcalm : s.Calm) (c : Ctx) : (s.returned i c cores).wgs = s.wgs
    ∧ (s.returned i c cores).images = s.images.filter (fun x => x.id ≠ i.id) ∧ (s.returned i c cores).clk = s.clk
    ∧ (s.returned i c cores).recalls = [] := by
  generalize h0 : ({ s with images := s.images.filter fun x => x.id ≠ i.id } : State) = s0
  have hcalm0 : s0.Calm := by rw [← h0]; exact hcalm
  have harrive := foldl_keeps State.coreless (fun t n => t.coreless_arrive c n) cores (s0.setBusy i.wg.ctx.save i.slot false)
  rw [State.returned, h0]
  simp only [State.coreless, Prod.mk.injEq] at harrive
  obtain ⟨hwgs, himages, hclk, hrecalls⟩ := harrive
  have hphys : (s0.setBusy i.wg.ctx.save i.slot false).physless = s0.physless := State.physless_writePhysN ..
  have hcalm' := (s0.serves_setBusy i.wg.ctx.save i.slot false).calm hcalm0
  exact ⟨hwgs.trans ((State.wgs_of_physless hphys).trans (by rw [← h0])), himages.trans ((State.images_of_physless hphys).trans (by rw [← h0])),
    hclk.trans ((State.clk_of_physless hphys).trans (by rw [← h0])), hrecalls.trans hcalm'.1⟩

/-- The workgroup on the cores of `s`, its clauses from 64 clk on. -/
def Workgroup.restoredAt (w : Workgroup) (s : State) (im : BitVec 512) (cores : List Nat) : Workgroup :=
  { w with
    parts := s.moveParts w im cores, fate := .live, abandoned := false, npReq := none
    waves := w.waves.mapIdx fun k v =>
      v.moved ((s.freeSlots (cores.getD (w.partOf k) 0)).getD (k % w.wavesPerPart) 0) (s.clk + 64) }

theorem State.placeImage_spec {old : State} (hcalm : s.Calm) (hids : ∀ x ∈ s.wgs, x.id ≠ w.id) (horders : i.orders = []) :
    (s.placeImage old i r w [] cores).recalls = [] ∧ (∀ x ∈ (s.placeImage old i r w [] cores).images, x.id ≠ i.id)
      ∧ ∃ g, (s.placeImage old i r w [] cores).wgs = s.wgs ++ [g]
        ∧ (w.restoredAt (s.returned i w.ctx cores) r.image cores).Agrees g := by
  obtain ⟨hwgs, himages, -, hrecalls⟩ := State.returned_spec hcalm (i := i) (cores := cores) w.ctx
  have hplace : ∃ u : State, s.placeImage old i r w [] cores = u.agreeFaults old w
      ∧ u.wgs = (s.returned i w.ctx cores).wgs ++ [w.restoredAt (s.returned i w.ctx cores) r.image cores]
      ∧ u.images = (s.returned i w.ctx cores).images ∧ u.recalls = (s.returned i w.ctx cores).recalls := by
    rw [State.placeImage, horders]
    exact ⟨_, rfl, rfl, rfl, rfl⟩
  obtain ⟨u, hu, huwgs, huimages, hurecalls⟩ := hplace
  obtain ⟨himages', hrecalls', hagree⟩ := State.agreesOn_agreeFaults hids u old
  rw [hwgs] at huwgs
  obtain ⟨g, hg, hwg⟩ := hagree _ huwgs rfl
  rw [hu]
  refine ⟨hrecalls'.trans (hurecalls.trans hrecalls), fun x hx => ?_, g, hg, hwg⟩
  rw [himages', huimages, himages] at hx
  exact of_decide_eq_true (List.mem_filter.1 hx).2

/-- The image `i` of record `r` may be restored on `cores` (R330, R353). -/
structure State.MayRestore (s : State) (i : Image) (r : Rec) (cores : List Nat) : Prop where
  image : (s.images.find? fun x => x.id = i.id) = some i
  run : (s.recs.find? fun x => x.id = i.wg.recId) = some r
  quiet : s.quiet r.q = false
  open_ : s.ctxClosed r.q r.ctx.num = false
  place : s.canPlace r.q i.wg.ctx.world r.id cores (recNeeds r.image) = true
  return_ : s.mayReturn r i.wg.wg cores = true
  slots : s.slotsFor i.wg i.copies cores = true

theorem State.restore_fails (h : s.MayRestore i r cores)
    (hbad : s.readImage (s.slotAt i.wg.ctx.save i.slot) i.wg (rfld r.image 224 32) = none
      ∨ s.readReplays (s.slotAt i.wg.ctx.save i.slot) i = none) : s.restore i.id cores = s.failImage i r := by
  rw [State.restore, h.image]
  dsimp only
  rw [h.run]
  dsimp only
  rw [if_neg (by simp [h.quiet, h.open_, h.place, h.return_, h.slots])]
  rcases hbad with himage | hreplays
  · rw [himage]
  · rw [hreplays]
    cases s.readImage (s.slotAt i.wg.ctx.save i.slot) i.wg (rfld r.image 224 32) <;> rfl

theorem State.restore_places {s1 : State} (h : s.MayRestore i r cores)
    (himage : s.readImage (s.slotAt i.wg.ctx.save i.slot) i.wg (rfld r.image 224 32) = some w)
    (hreplays : s.readReplays (s.slotAt i.wg.ctx.save i.slot) i = some s1) (hcopies : i.copies = []) :
    s.restore i.id cores = s1.placeImage s i r w [] cores := by
  rw [State.restore, h.image]
  dsimp only
  rw [h.run]
  dsimp only
  rw [if_neg (by simp [h.quiet, h.open_, h.place, h.return_, h.slots]), himage, hreplays, hcopies]
  rfl

/-- The waves of the workgroup on its cores. -/
theorem Workgroup.restoredAt_wave {im : BitVec 512} {v : Wave} (hv : w.waves[k]? = some v) :
    ∃ slot, (w.restoredAt s im cores).waves[k]? = some (v.moved slot (s.clk + 64)) :=
  ⟨(s.freeSlots (cores.getD (w.partOf k) 0)).getD (k % w.wavesPerPart) 0, List.getElem?_mapIdx.trans (by rw [hv]; rfl)⟩

/-- Its parts: their contents stay, their generations advance. -/
theorem Workgroup.restoredAt_part {im : BitVec 512} {j : Nat} {p : Part} (hp : (w.restoredAt s im cores).parts[j]? = some p) :
    cores[j]? = some p.core ∧ p.scr = (w.part j).scr ∧ p.acc = (w.part j).acc ∧ p.gen = (w.part j).gen + 1 := by
  rw [show (w.restoredAt s im cores).parts = s.moveParts w im cores from rfl, State.moveParts, List.getElem?_map] at hp
  obtain ⟨x, hx, rfl⟩ := Option.map_eq_some_iff.1 hp
  obtain ⟨hstart, hold⟩ := List.getElem?_zip_eq_some.1 hx
  rw [State.startParts, List.getElem?_map] at hstart
  obtain ⟨y, hy, hcore⟩ := Option.map_eq_some_iff.1 hstart
  obtain ⟨hy, -⟩ := List.getElem?_zip_eq_some.1 hy
  have hpart : w.part j = x.2 := by rw [Workgroup.part, List.getD_eq_getElem?_getD, hold]; rfl
  rw [hpart, ← hcore]
  exact ⟨hy, rfl, rfl, rfl⟩

/-- Settles O44: a save is `saveEnds`, work by physical address after which the cores may close; a restore places what memory gives,
and only the fault ids of parked threads may differ from it. -/
theorem savesAndRestores : Obligations.SavesAndRestores := by
  unfold Obligations.SavesAndRestores
  intro s hs
  refine ⟨?save, ?timeout, ?restore⟩
  case save =>
    intro w k hw hfate hready hcopies hlines hk
    obtain ⟨hrecalls, himages, hwgs⟩ := State.saveEnds_spec (w := w) (k := k) ⟨hs, hlines⟩
    have hsave : exec (.contextSave w.id) s = .next (s.saveEnds w k) :=
      congrArg Host.Outcome.next (State.transact_eq hs (State.saveWg_quiet hw hfate hready hcopies hk) hrecalls)
    refine ⟨hsave, _, _, hsave, himages, rfl, rfl, rfl, rfl, fun x hx => ?_⟩
    rw [hwgs] at hx
    exact of_decide_eq_true (List.mem_filter.1 hx).2
  case timeout =>
    intro w hw
    have hcond : (decide (w.fate ≠ .live) && decide (s.usAfter w.saveAt 50 ≤ s.clk)) = true ↔ w.fate ≠ .live ∧ s.usAfter w.saveAt 50 ≤ s.clk := by
      simp
    refine ⟨fun hfate hclk => ?_, fun h => ?_⟩
    · refine ⟨s.modWg w.id fun w => { w with abandoned := true }, congrArg Host.Outcome.next ?_, rfl, ?_⟩
      · rw [State.saveTimeout, hw]
        exact if_pos (hcond.2 ⟨hfate, hclk⟩)
      · exact (State.wg?_modWg_self s w.id (f := fun w => { w with abandoned := true }) fun _ => rfl).trans (by rw [hw]; rfl)
    · refine congrArg Host.Outcome.next ?_
      rw [State.saveTimeout, hw]
      exact if_neg fun hc => h.elim (hcond.1 hc).1 (Nat.not_lt.2 (hcond.1 hc).2)
  case restore =>
    intro i r cores hi hr hquiet hopen hplace hreturn hslots hids at_
    have hmay : s.MayRestore i r cores := ⟨hi, hr, hquiet, hopen, hplace, hreturn, hslots⟩
    refine ⟨fun hbad hrecalls => congrArg Host.Outcome.next (State.transact_eq hs (State.restore_fails hmay hbad) hrecalls),
      fun w s1 himage hreplays hid hcopies horders hlines => ?_⟩
    have heq := State.readReplays_eq hreplays
    have hcalm : s1.Calm := by rw [heq]; exact ⟨hs, hlines⟩
    have hwgs : s1.wgs = s.wgs := by rw [heq]
    have hclk : (s1.returned i w.ctx cores).clk = s.clk := (State.returned_spec hcalm w.ctx).2.2.1.trans (by rw [heq])
    obtain ⟨hrecalls, hgone, g, hg, hagree⟩ := State.placeImage_spec (r := r) (cores := cores) (w := w) (old := s) hcalm
      (by rw [hwgs, hid]; exact hids) horders
    obtain ⟨hsame, hlen, hwave⟩ := hagree
    refine ⟨_, g, congrArg Host.Outcome.next (State.transact_eq hs (State.restore_places hmay himage hreplays hcopies) hrecalls),
      hg.trans (by rw [hwgs]), by rw [hsame]; rfl, by rw [hsame]; rfl, hgone, hlen.trans List.length_mapIdx, fun k v hv => ?_, fun j p hp => ?_⟩
    · obtain ⟨slot, hmoved⟩ := Workgroup.restoredAt_wave (s := s1.returned i w.ctx cores) (im := r.image) (cores := cores) hv
      obtain ⟨u, hu, hshape, hthreads, hthread⟩ := hwave k _ hmoved
      refine ⟨u, hu, hthreads, hthread, ?_⟩
      rw [hshape, ← hclk]
      exact ⟨rfl, rfl, rfl, rfl, rfl⟩
    · refine Workgroup.restoredAt_part (s := s1.returned i w.ctx cores) (im := r.image) ?_
      rw [← hp, hsame]

end Sys2Proof.Machine
end

section
/-! PROOFS. What accesses that no record makes leave as it was (R21, R60 to R63, R318 to R321, R360): the records, the queues, and which
records stage lines. -/
namespace Sys2Proof.Machine

/-- No line is staged by the record. -/
def State.Unstaged (s : State) (rid : Nat) : Prop := ∀ l ∈ s.lines, l.shadow = false → l.staged ≠ some rid

/-- An access that no record makes: records and queues stay, and no line becomes staged. -/
structure State.Recordless (s t : State) : Prop where
  recs : t.recs = s.recs
  queues : t.queues = s.queues
  unstaged : ∀ rid, s.Unstaged rid → t.Unstaged rid

namespace State.Recordless
variable {s t u : State}

theorem refl (s : State) : State.Recordless s s := ⟨rfl, rfl, fun _ h => h⟩

theorem trans (h : State.Recordless s t) (h' : State.Recordless t u) : State.Recordless s u :=
  ⟨h'.recs.trans h.recs, h'.queues.trans h.queues, fun rid hs => h'.unstaged rid (h.unstaged rid hs)⟩

theorem of_lines (hrecs : t.recs = s.recs) (hqueues : t.queues = s.queues) (hlines : t.lines = s.lines) : State.Recordless s t :=
  ⟨hrecs, hqueues, fun rid h => by rw [State.Unstaged, hlines]; exact h⟩

theorem of_fundless (h : t.fundless = s.fundless) : State.Recordless s t :=
  of_lines (congrArg State.recs h :) (congrArg State.queues h :) (congrArg State.lines h :)

theorem of_readless (h : t.readless = s.readless) : State.Recordless s t :=
  of_lines (congrArg State.recs h :) (congrArg State.queues h :) (congrArg State.lines h :)

theorem modLine (s : State) (id : Nat) {f : LLine → LLine} (hf : ∀ l, (f l).staged = l.staged ∧ (f l).shadow = l.shadow) :
    State.Recordless s (s.modLine id f) := by
  refine ⟨rfl, rfl, fun rid h l hl => ?_⟩
  obtain ⟨x, hx, rfl⟩ := List.mem_map.1 hl
  split
  · obtain ⟨hstaged, hshadow⟩ := hf x
    rw [hstaged, hshadow]
    exact h x hx
  · exact h x hx

theorem dropLine (s : State) (id : Nat) : State.Recordless s (s.dropLine id) :=
  ⟨rfl, rfl, fun _ h l hl => h l (List.mem_filter.1 hl).1⟩

theorem addLine (s : State) {l : LLine} (hl : l.staged = none) : State.Recordless s (s.addLine l).2 := by
  refine ⟨rfl, rfl, fun rid h x hx => ?_⟩
  rcases List.mem_append.1 hx with hx | hx
  · exact h x hx
  · rw [List.mem_singleton.1 hx]
    intro _ hstaged
    cases hl.symm.trans hstaged

/-- A fold of such accesses. -/
theorem foldl {α : Type} {f : State → α → State} (h : ∀ t a, State.Recordless t (f t a)) (l : List α) (s : State) :
    State.Recordless s (l.foldl f s) := foldl_related (R := State.Recordless) refl trans h l s

end State.Recordless

section Recordless
variable (s : State)

/-! Writebacks (R39 to R43). -/

theorem State.recordless_stick (id : Nat) : s.Recordless (s.stick id) := by
  rw [State.stick]
  split
  · exact .refl s
  · split
    · exact .refl s
    · have hfresh : s.Recordless s.fresh.2 := .of_fundless rfl
      have hmod := State.Recordless.modLine s.fresh.2 id (f := fun l =>
        { l with stuck := some s.nextId, stuckHost := l.hostDirty, owed := false }) fun l => ⟨rfl, rfl⟩
      exact (hfresh.trans hmod).trans (.of_fundless (by rw [State.fundless_oosCheck, State.fundless_startReclaim]; rfl))

theorem State.recordless_cleanLine (l : LLine) : s.Recordless (s.cleanLine l) := by
  have hcheck : ∀ t, s.Recordless t → s.Recordless (if l.stuck.isSome then t.oosCheck (s.leadOfLode l.lode) else t) := by
    intro t ht
    split
    · exact ht.trans (.of_fundless (t.fundless_oosCheck _))
    · exact ht
  refine hcheck _ ?_
  split
  · exact .dropLine s l.id
  · exact .modLine s l.id fun l => ⟨rfl, rfl⟩

theorem State.recordless_wbDevice (l : LLine) : s.Recordless (s.wbDevice l).1 := by
  have hfund : ((s.fixStorage l.frame l.fmtReq).grantRaw (s.leadOfLode l.lode) l.frame).fundless = s.fundless := by simp
  rw [State.wbDevice]
  split
  · exact .modLine s l.id fun l => ⟨rfl, rfl⟩
  · split
    · exact .refl s
    · dsimp only
      split
      · split
        · exact .trans (.of_fundless hfund) (State.recordless_stick ..)
        · exact .trans (.of_fundless ((State.fundless_putStored ..).trans hfund)) (State.recordless_cleanLine ..)
      · split
        · exact .trans (.of_fundless hfund) (State.recordless_stick ..)
        · next s2 hgot =>
          have h2 : s2.fundless = s.fundless := by
            split at hgot
            · cases hgot; exact hfund
            · split at hgot
              · cases hgot
              · exact (State.fundless_takeFlakes _ hgot).trans hfund
          exact .trans (.of_fundless (by simp [h2])) (State.recordless_cleanLine ..)

theorem State.recordless_sendWrite (n : Nat) (w : ExtWrite) :
    s.Recordless { s with nextId := n, extWrites := s.extWrites ++ [w] } := .of_lines rfl rfl rfl

theorem State.recordless_writeback (id : Nat) : s.Recordless (s.writeback id).1 := by
  rw [State.writeback]
  split
  · exact .refl s
  · split
    · exact .refl s
    · split
      · exact .refl s
      · split
        · exact (s.recordless_sendWrite _ _).trans (State.recordless_cleanLine ..)
        · exact s.recordless_wbDevice _

theorem State.recordless_endTransit (id : Nat) : s.Recordless (s.endTransit id) := by
  rw [State.endTransit]
  split
  · exact .refl s
  · split
    · exact .refl s
    · dsimp only
      split
      · exact (s.recordless_writeback id).trans (.dropLine _ _)
      · exact (s.recordless_writeback id).trans (.modLine _ _ fun l => ⟨rfl, rfl⟩)

/-! Translation (R60 to R63). -/

theorem State.recordless_touch (l : LLine) (mask : Line) (write : Bool) : s.Recordless (s.touch l mask write) :=
  .of_readless (State.readless_touch ..)

theorem State.recordless_startInval (line : Nat) (ws : List (Nat × Nat × Nat)) (host : Bool) : s.Recordless (s.startInval line ws host) := by
  rw [State.startInval]
  dsimp only
  split
  · exact .refl s
  · exact .of_lines rfl rfl rfl

theorem State.recordless_startMapInval (line : Nat) : s.Recordless (s.startMapInval line) := by
  rw [State.startMapInval]
  split
  · exact .refl s
  · exact (s.recordless_startInval line [] false).trans (.of_lines rfl rfl rfl)

theorem State.recordless_track (lode line : Nat) (core lode2 : Option Nat) : s.Recordless (s.track lode line core lode2) := by
  have hroom : s.Recordless (s.dirRoom lode) := by
    rw [State.dirRoom]
    split
    · split
      · have hleave (d : List DirEntry) : s.Recordless { s with dir := d } := .of_lines rfl rfl rfl
        exact (hleave _).trans (State.recordless_startInval _ _ _ _)
      · exact .refl s
    · exact .refl s
  have hfirst : s.Recordless (if s.dir.any fun d => d.line = line && !d.leaving then s else s.dirRoom lode) := by
    split
    · exact .refl s
    · exact hroom
  have hdir (t : State) (d e : List DirEntry) :
      t.Recordless (if t.dir.any fun d => d.line = line then { t with dir := d } else { t with dir := e }) := by
    split <;> exact .of_lines rfl rfl rfl
  exact hfirst.trans (hdir _ _ _)

theorem State.recordless_trackAll (path : List Nat) (core lode : Option Nat) : s.Recordless (s.trackAll path core lode) :=
  .foldl (fun t ln => t.recordless_track _ ln core lode) path s

theorem State.recordless_leaveLine (id : Nat) : s.Recordless (s.leaveLine id) := by
  rw [State.leaveLine]
  generalize BitVec.allOnes 1024 = m
  split
  · exact .refl s
  · next l _ =>
    have ht := s.recordless_touch l m true
    have hw := ht.trans ((s.touch l m true).recordless_writeback id)
    split
    · exact .refl s
    · split
      · exact ht.trans (.modLine _ _ fun l => ⟨rfl, rfl⟩)
      · dsimp only
        split
        · exact hw.trans (.dropLine _ _)
        · exact hw.trans (.modLine _ _ fun l => ⟨rfl, rfl⟩)

theorem State.recordless_tbAdd (e : TbEntry) : s.Recordless (s.tbAdd e) := by
  have hdrop (v : TbEntry) : s.Recordless (s.tbDrop v) :=
    (State.Recordless.foldl State.recordless_leaveLine
      ((s.lines.filter fun l : LLine => l.ofPage v.lode v.asid v.page v.leaf.size.bytes).map fun l : LLine => l.id) s).trans (.of_lines rfl rfl rfl)
  rw [State.tbAdd]
  split
  · split
    · exact (hdrop _).trans (.of_lines rfl rfl rfl)
    · exact .of_lines rfl rfl rfl
  · exact .of_lines rfl rfl rfl

theorem State.recordless_clearPhysTags (fresh : Nat → Bool) : s.Recordless (s.clearPhysTags fresh) := by
  rw [State.clearPhysTags]
  generalize BitVec.allOnes 1024 = m
  refine State.Recordless.foldl (fun t id => ?_) _ s
  split
  · exact .refl t
  · next l _ =>
    have hw := (t.recordless_touch l m true).trans ((t.touch l m true).recordless_writeback id)
    dsimp only
    split
    · exact hw.trans (.dropLine _ _)
    · exact hw

theorem State.recordless_putRmap (b : Nat) (r : Rmap) : s.Recordless (s.putRmap b r) := by
  rw [State.putRmap]
  split <;> exact .of_lines rfl rfl rfl

theorem State.recordless_walk (q : Nat) (asid : BitVec 16) (va : Nat) : s.Recordless (s.walk q asid va).st :=
  .of_readless (State.readless_walk ..)

theorem State.recordless_installMap (q : Nat) (asid : BitVec 16) (page : Nat) (l : Leaf) : s.Recordless (s.installMap q asid page l).2 := by
  rw [State.installMap]
  split
  · exact .refl s
  · dsimp only
    generalize hfold : (s.recordedElse l.frame l.size.frames asid page).foldl _ (([] : List (Nat × Rmap × Bool)), s) = x
    have hx : s.Recordless x.2 := by
      rw [← hfold]
      refine List.foldlRecOn (motive := fun y : List (Nat × Rmap × Bool) × State => s.Recordless y.2) _ _ (.refl s) fun y hy e _ => ?_
      have h : s.Recordless (y.2.stillMaps e.1 e.2).2 := hy.trans (y.2.recordless_walk _ _ _)
      split
      · next heq => rw [heq] at h; exact h
      · next heq => rw [heq] at h; exact h
    obtain ⟨held, s1⟩ := x
    dsimp only at hx ⊢
    split
    · exact hx
    · split
      · exact hx
      · split
        · exact hx
        · split
          · exact hx
          · split
            · exact hx
            · split
              · exact hx.trans (.foldl State.recordless_startMapInval _ s1)
              · refine hx.trans (.trans ?_ (.trans (.foldl (fun t f => ?_) _ _) (.foldl (fun t e => ?_) held _)))
                · exact (s1.recordless_clearPhysTags _).trans (State.recordless_putRmap ..)
                · exact .of_lines rfl rfl rfl
                · exact .of_lines rfl rfl rfl

theorem State.recordless_install (q lode : Nat) (asid : BitVec 16) (va : Nat) (l : Leaf) (path : List Nat) :
    s.Recordless (s.install q lode asid va l path).2 := by
  have h := s.recordless_installMap q asid (pageOf va l.size) l
  rw [State.install]
  generalize s.installMap q asid (pageOf va l.size) l = x at h ⊢
  obtain ⟨r, s1⟩ := x
  dsimp only at h ⊢
  split
  · exact h.trans ((s1.recordless_trackAll _ _ _).trans (State.recordless_tbAdd _ _))
  · exact h

theorem State.recordless_shutAt (p : PortDrop) : s.Recordless (s.shutAt p) := by
  rw [State.shutAt]
  split
  · exact .refl s
  · exact .of_lines rfl rfl rfl

theorem State.recordless_walkInstall (q lode : Nat) (asid : BitVec 16) (va : Nat) : s.Recordless (s.walkInstall q lode asid va).2 := by
  have h := s.recordless_walk q asid va
  rw [State.walkInstall]
  split
  · exact s.recordless_shutAt _
  · exact h
  · exact h.trans (State.recordless_install ..)

/-! Lines at their homes (R21, R22, R66). -/

theorem State.recordless_wakeLode (n : Nat) : s.Recordless (s.wakeLode n) := .of_readless (State.readless_wakeLode ..)

theorem State.recordless_countMiss (lode : Nat) (asid : BitVec 16) (va d : Nat) : s.Recordless (s.countMiss lode asid va d) := by
  rw [State.countMiss]
  split
  · exact .refl s
  · split
    · exact .refl s
    · dsimp only
      repeat' split
      all_goals exact .of_lines rfl rfl rfl

theorem State.recordless_startFill (lode : Nat) (a : Acc1) (l : Leaf) (ext : Bool) : s.Recordless (s.startFill lode a l ext) := by
  rw [State.startFill]
  dsimp only
  split <;> exact .of_lines rfl rfl rfl

/-- A held line under another tag is the same line: what it is staged for stays. -/
theorem State.recordless_retag {f off : Nat} {x : LLine} (hx : s.holder f off = some x) {tag : LLine} (hstaged : tag.staged = x.staged) :
    s.Recordless (s.modLine x.id fun _ => tag) := by
  refine ⟨rfl, rfl, fun rid h l hl => ?_⟩
  obtain ⟨y, hy, rfl⟩ := List.mem_map.1 hl
  split
  · rw [hstaged]
    have hshadow : x.shadow = false := by
      have := State.standsFor_of_holder hx
      simp only [LLine.standsFor, Bool.and_eq_true, Bool.not_eq_true'] at this
      exact this.2
    exact fun _ => h x (State.mem_of_holder hx) hshadow
  · exact h y hy

theorem State.recordless_fillDevice (lode : Nat) (a : Acc1) (l : Leaf) : s.Recordless (s.fillDevice lode a l).2 := by
  rw [State.fillDevice]
  dsimp only
  split
  · next x hx =>
    split
    · exact .refl s
    · exact s.recordless_retag hx rfl
  · split
    · exact s.recordless_shutAt _
    · exact .addLine s rfl

/-- The line of an access at its home (R21). -/
theorem State.recordless_ensure {a : Acc1} (ha : a.who = none) : s.Recordless (s.ensure a).2 := by
  unfold State.ensure
  extract_lets lode t failed fenced withEntry
  have ht : s.Recordless t := s.recordless_wakeLode lode
  have hentry (u : State) (e : TbEntry) : u.Recordless (withEntry u e).2 := by
    have hmiss := u.recordless_countMiss lode a.asid a.va a.die
    simp only [withEntry]
    split
    · exact .refl u
    · split
      · split
        · split
          · exact .addLine u rfl
          · exact .refl u
        · exact .refl u
      · split
        · exact .addLine u rfl
        · split
          · exact u.recordless_startFill _ _ _ _
          · split
            · exact .refl u
            · split
              · exact hmiss.trans (State.recordless_startFill _ _ _ _ _)
              · split
                · exact hmiss.trans (State.recordless_startFill _ _ _ _ _)
                · exact hmiss.trans (State.recordless_fillDevice _ _ _ _)
  split
  · exact s.recordless_shutAt _
  · split
    · exact ht.trans (.of_lines rfl rfl rfl)
    · split
      · have hseen (l : LLine) : t.seenLine a.who l = (l, t) := by rw [ha]; rfl
        rw [hseen]
        exact ht
      · split
        · exact ht.trans (hentry _ _)
        · split
          · split
            · exact ht
            · split
              · exact ht
              · exact ht.trans (.of_lines rfl rfl rfl)
          · have hwalk := ht.trans (t.recordless_walkInstall a.q lode a.asid a.va)
            split
            · next s1 heq =>
              rw [heq] at hwalk
              split
              · exact hwalk.trans (hentry _ _)
              · exact hwalk
            · next heq => rw [heq] at hwalk; exact hwalk
            · next heq => rw [heq] at hwalk; exact hwalk

/-- A read of a line's bytes. -/
theorem State.recordless_readLine {a : Acc1} (ha : a.who = none) (mask : Line) : s.Recordless (s.readLine a mask).2 := by
  have h := s.recordless_ensure ha
  rw [State.readLine]
  split
  · next l s1 heq =>
    rw [heq] at h
    split
    · exact h
    · exact h.trans ((s1.recordless_touch _ _ _).trans (State.recordless_endTransit _ _))
  · next heq => rw [heq] at h; exact h
  · next heq => rw [heq] at h; exact h

theorem State.recordless_ensureAll {l : List Acc1} (hl : ∀ a ∈ l, a.who = none) : s.Recordless (s.ensureAll l).2 := by
  rw [State.ensureAll]
  refine List.foldlRecOn (motive := fun y : Got Unit × State => s.Recordless y.2) _ _ (.refl s) fun y hy a ha => ?_
  have h := hy.trans (y.2.recordless_ensure (hl a ha))
  dsimp only
  split
  · exact hy
  · split
    · next heq => rw [heq] at h; exact h
    · next heq => rw [heq] at h; exact h
    · next heq => rw [heq] at h; exact h

theorem State.recordless_readLines {l : List (Acc1 × Line)} (hl : ∀ x ∈ l, x.1.who = none) : s.Recordless (s.readLines l).2 := by
  have h := s.recordless_ensureAll (l := l.map (·.1)) fun a ha => by
    obtain ⟨x, hx, rfl⟩ := List.mem_map.1 ha
    exact hl x hx
  rw [State.readLines]
  split
  · next s1 heq =>
    rw [heq] at h
    refine List.foldlRecOn (motive := fun y : Got (List Line) × State => s.Recordless y.2) _ _ h fun y hy x hx => ?_
    have hr := hy.trans (y.2.recordless_readLine (hl x hx) x.2)
    dsimp only
    split
    · split
      · next heq => rw [heq] at hr; exact hr
      · next heq => rw [heq] at hr; exact hr
      · next heq => rw [heq] at hr; exact hr
    · exact hy
  · next heq => rw [heq] at h; exact h
  · next heq => rw [heq] at h; exact h

theorem State.recordless_readVirt {a : Acc1} (ha : a.who = none) (n : Nat) : s.Recordless (s.readVirt a n).2 := by
  have h := s.recordless_readLines (l := (chunksOf a.va n).map fun x => ({ a with va := 128 * x.1 }, lineMask x.2.1 x.2.2)) fun x hx => by
    obtain ⟨y, -, rfl⟩ := List.mem_map.1 hx
    exact ha
  rw [State.readVirt]
  split
  · next heq => rw [heq] at h; exact h
  · next heq => rw [heq] at h; exact h
  · next heq => rw [heq] at h; exact h

/-! Writes (R360 to R363). -/

theorem State.recordless_mergeLine (id : Nat) (mask d : Line) (req : Option (BitVec 4)) (ws : List (Nat × Nat × Nat)) (host : Bool) :
    s.Recordless (s.mergeLine id mask d req ws host) := by
  have hmod (l : LLine) : s.Recordless (s.modLine id fun x =>
      { x with data := lineMerge x.data mask d, dirty := true, dmask := x.dmask ||| mask,
               fmtReq := if x.dirty then x.fmtReq else req, hostDirty := host,
               stuckHost := if x.stuck.isSome then x.stuckHost else host,
               poison := x.poison && !(mask = BitVec.allOnes 1024) }) := .modLine _ _ fun _ => ⟨rfl, rfl⟩
  rw [State.mergeLine]
  split
  · exact .refl s
  · next l _ =>
    dsimp only
    split
    · exact hmod l
    · exact (hmod l).trans (State.recordless_startInval _ _ _ _)

theorem State.recordless_setReg (o : Nat) (v : Word) : s.Recordless (s.setReg o v) := .of_lines rfl rfl rfl

theorem State.recordless_logOos (q f off : Nat) (host : Bool) : s.Recordless (s.logOos q f off host) := s.recordless_setReg _ _

/-- A write of a line's bytes. -/
theorem State.recordless_writeLine {a : Acc1} (ha : a.who = none) (mask data : Line) (ws : List (Nat × Nat × Nat)) :
    s.Recordless (s.writeLine a mask data ws).2 := by
  have h := s.recordless_ensure (a := { a with wr := true }) ha
  have hby (t : State) : t.recBy a.who = none := by rw [ha]; rfl
  have hreplay (t : State) : t.replayBy a.who = none := by rw [State.replayBy, hby]; rfl
  have hstage (t : State) (l : LLine) : t.stageFor a l = (.ok l.id, t) := by rw [State.stageFor, hby]
  have hstray : s.strayWrite a = none := by rw [State.strayWrite, hreplay]; rfl
  have hmerge (u : State) (id : Nat) (req : Option (BitVec 4)) : u.Recordless ((u.mergeLine id mask data req ws false).endTransit id) :=
    (u.recordless_mergeLine id mask data req ws false).trans (State.recordless_endTransit _ id)
  rw [State.writeLine, hstray]
  generalize BitVec.allOnes 1024 = m
  dsimp only
  split
  · exact .refl s
  · split
    · next l s1 heq =>
      rw [heq] at h
      split
      · exact h.trans (s1.recordless_logOos _ _ _ _)
      · simp only [hstage, hreplay, Option.isNone_none, if_true]
        exact h.trans ((s1.recordless_touch l mask true).trans (hmerge _ _ _))
    · next heq => rw [heq] at h; exact h
    · next heq => rw [heq] at h; exact h

theorem State.recordless_writeVirt {a : Acc1} (ha : a.who = none) (b : List Byte) (ws : List (Nat × Nat × Nat)) :
    s.Recordless (s.writeVirt a b ws).2 := by
  rw [State.writeVirt]
  refine List.foldlRecOn (motive := fun y : Got Unit × State => s.Recordless y.2) _ _ (.refl s) fun y hy c _ => ?_
  dsimp only
  split
  · exact hy.trans (y.2.recordless_writeLine (a := { a with va := 128 * c.1 }) ha _ _ _)
  · exact hy

theorem State.recordless_mappedLeaf (f off : Nat) : s.Recordless (s.mappedLeaf f off).2 := .of_readless (s.readless_mappedLeaf f off)

theorem State.recordless_mergePhys (f off : Nat) (mask data : Line) (host : Bool) : s.Recordless (s.mergePhys f off mask data host) := by
  have h := s.recordless_mappedLeaf f off
  rw [State.mergePhys]
  dsimp only
  split
  · exact h.trans ((State.recordless_wakeLode _ _).trans ((State.recordless_touch _ _ _ _).trans ((State.recordless_mergeLine ..).trans
      (State.recordless_endTransit _ _))))
  · exact h.trans ((State.recordless_wakeLode _ _).trans (.trans (.addLine _ rfl) ((State.recordless_mergeLine ..).trans
      (State.recordless_endTransit _ _))))

/-! The queue engine (R318 to R321). -/

theorem State.recordless_engineAcc {q va : Nat} {a : Acc1} {t : State} (h : s.engineAcc q va = some (a, t)) :
    a.who = none ∧ s.Recordless t := by
  rw [State.engineAcc] at h
  split at h
  · split at h
    · cases h
    · cases h
      exact ⟨rfl, s.recordless_walk _ _ _⟩
  · cases h

theorem State.recordless_engineRead (q va n : Nat) : s.Recordless (s.engineRead q va n).2 := by
  rw [State.engineRead]
  split
  · exact .refl s
  · split
    · exact .refl s
    · next a s1 heq =>
      obtain ⟨ha, hacc⟩ := s.recordless_engineAcc heq
      have h := hacc.trans (s1.recordless_readVirt ha n)
      split
      · next heq2 => rw [heq2] at h; exact h
      · next heq2 => rw [heq2] at h; exact h
      · next heq2 => rw [heq2] at h; exact h

theorem State.recordless_putEngine {a : Acc1} (ha : a.who = none) (n v : Nat) : s.Recordless (s.putEngine a n v) := by
  have h := s.recordless_writeVirt ha (bytesOfNat n v) []
  rw [State.putEngine]
  split
  · exact .of_lines rfl rfl rfl
  · split
    · exact .of_lines rfl rfl rfl
    · split
      · next heq => rw [heq] at h; exact h
      · exact .refl s
      · refine State.Recordless.foldl (fun t c => ?_) _ s
        dsimp only
        split
        · exact .of_lines rfl rfl rfl
        · exact t.recordless_mergePhys _ _ _ _ _

theorem State.recordless_engineWrite (q va n v : Nat) : s.Recordless (s.engineWrite q va n v) := by
  rw [State.engineWrite]
  split
  · exact .refl s
  · next heq =>
    obtain ⟨ha, hacc⟩ := s.recordless_engineAcc heq
    exact hacc.trans (State.recordless_putEngine _ ha n v)

end Recordless

end Sys2Proof.Machine
end

section
/-! PROOFS. Records and placement (O42: R320, R322 to R326). -/
namespace Sys2Proof.Machine

variable {s : State} {r : Rec} {q n st : Nat}

/-! Queues and records. -/

theorem State.queue_name (s : State) (q n : Nat) : (s.queue q n).q = q ∧ (s.queue q n).num = n := by
  rw [State.queue]
  cases h : s.queues.find? fun x => x.q = q && x.num = n with
  | none => exact ⟨rfl, rfl⟩
  | some x => simpa using List.find?_some h

theorem State.queue_setQueue {x : Queue} (hq : x.q = q) (hn : x.num = n) (s : State) : (s.setQueue x).queue q n = x := by
  have hnone : (s.queues.filter fun y => !(decide (y.q = x.q) && decide (y.num = x.num))).find? (fun y => decide (y.q = q) && decide (y.num = n)) = none := by
    rw [List.find?_eq_none]
    intro y hy
    have hy := (List.mem_filter.1 hy).2
    rw [hq, hn, Bool.not_eq_true'] at hy
    simp [hy]
  rw [State.queue, State.setQueue, List.find?_append, hnone]
  simp [hq, hn]

theorem State.queue_congr {s t : State} (h : t.queues = s.queues) : t.queue q n = s.queue q n := by rw [State.queue, State.queue, h]

theorem State.queues_modRec (s : State) (id : Nat) (f : Rec → Rec) : (s.modRec id f).queues = s.queues := rfl
theorem State.ctxRuns_setQueue (s : State) (x : Queue) : (s.setQueue x).ctxRuns = s.ctxRuns := rfl
theorem State.recs_setQueue (s : State) (x : Queue) : (s.setQueue x).recs = s.recs := rfl

/-- The record's state, in the engine and in its slot (R319). -/
theorem State.setRecState_recordless (s : State) (r : Rec) (st : Nat) :
    (s.modRec r.id fun x => { x with st := st }).Recordless (s.setRecState r st) := State.recordless_engineWrite ..

/-- The write of limit (R321). -/
theorem State.updateLimit_spec (s : State) (q n : Nat) (force : Bool) : (s.updateLimit q n force).recs = s.recs
    ∧ (∀ rid, s.Unstaged rid → (s.updateLimit q n force).Unstaged rid)
    ∧ ((s.updateLimit q n force).queue q n).taken = (s.queue q n).taken := by
  have hread := s.recordless_engineRead q ((s.queue q n).base + 16) 8
  have hset (t : State) (d : Option Bool) (ht : s.Recordless t) : (t.setQueue { t.queue q n with limitDue := d }).recs = s.recs
      ∧ (∀ rid, s.Unstaged rid → (t.setQueue { t.queue q n with limitDue := d }).Unstaged rid)
      ∧ ((t.setQueue { t.queue q n with limitDue := d }).queue q n).taken = (s.queue q n).taken := by
    obtain ⟨hq, hn⟩ := t.queue_name q n
    refine ⟨ht.recs, ht.unstaged, ?_⟩
    rw [State.queue_setQueue (x := { t.queue q n with limitDue := d }) hq hn]
    show (t.queue q n).taken = _
    rw [State.queue_congr ht.queues]
  rw [State.updateLimit]
  dsimp only
  split
  · next old s1 heq =>
    rw [heq] at hread
    have hdue (x : Option Bool) :
        (if x.isSome then s1.setQueue { s1.queue q n with limitDue := none } else s1).recs = s.recs
        ∧ (∀ rid, s.Unstaged rid → (if x.isSome then s1.setQueue { s1.queue q n with limitDue := none } else s1).Unstaged rid)
        ∧ ((if x.isSome then s1.setQueue { s1.queue q n with limitDue := none } else s1).queue q n).taken = (s.queue q n).taken := by
      split
      · exact hset s1 none hread
      · exact ⟨hread.recs, hread.unstaged, congrArg Queue.taken (State.queue_congr hread.queues)⟩
    obtain ⟨hrecs, hunstaged, htaken⟩ := hdue (s.queue q n).limitDue
    split
    · have hwrite := State.recordless_engineWrite (if (s.queue q n).limitDue.isSome then s1.setQueue { s1.queue q n with limitDue := none } else s1)
        q ((s.queue q n).base + 16) 8
        (minOr (s.queue q n).taken ((s.recs.filter fun r => r.q = q && r.queue = n && r.primary = 0 && r.st < 3).map (·.index)) + 65536)
      exact ⟨hwrite.recs.trans hrecs, fun rid h => hwrite.unstaged rid (hunstaged rid h),
        (congrArg Queue.taken (State.queue_congr hwrite.queues)).trans htaken⟩
    · exact ⟨hrecs, hunstaged, htaken⟩
  · next heq => rw [heq] at hread; exact hset _ _ hread
  · next heq =>
    rw [heq] at hread
    exact ⟨hread.recs, hread.unstaged, congrArg Queue.taken (State.queue_congr hread.queues)⟩

/-! The end of a record (R325). -/

theorem State.openGang_spec (s : State) (r : Rec) : (∃ f : Rec → Rec, (∀ x, (f x).id = x.id) ∧ (s.openGang r).recs = s.recs.map f)
    ∧ (s.openGang r).lines = s.lines := by
  have hcores (cs : List Nat) (by_ : Closer) : (s.openCores cs by_).recs = s.recs ∧ (s.openCores cs by_).lines = s.lines :=
    ⟨foldl_keeps State.recs (by intro t n; rfl) cs s, foldl_keeps State.lines (by intro t n; rfl) cs s⟩
  rw [State.openGang]
  split
  · exact ⟨⟨id, fun _ => rfl, (List.map_id _).symm⟩, rfl⟩
  · obtain ⟨hrecs, hlines⟩ := hcores r.gangCores (.gang r.id)
    refine ⟨⟨fun x => if x.id = r.id then { x with gangCores := [] } else x, fun x => by dsimp only; split <;> rfl, ?_⟩, hlines⟩
    exact congrArg (List.map _) hrecs

theorem State.endRec_spec (hr : ∃ x ∈ s.recs, x.id = r.id) (hun : s.Unstaged r.id) :
    (∃ x ∈ (s.endRec r st).recs, x.id = r.id ∧ x.st = st) ∧ (s.endRec r st).Unstaged r.id := by
  obtain ⟨⟨f, hid, hrecs⟩, hlines⟩ := s.openGang_spec r
  have hstate := (s.openGang r).setRecState_recordless r st
  obtain ⟨hlim, hlimun, -⟩ := ((s.openGang r).setRecState r st).updateLimit_spec r.q r.queue false
  obtain ⟨x, hx, hxid⟩ := hr
  refine ⟨⟨{ f x with st := st }, ?_, (hid x).trans hxid, rfl⟩, hlimun _ (hstate.unstaged _ ?_)⟩
  · rw [State.endRec, hlim, hstate.recs]
    refine List.mem_map.2 ⟨f x, ?_, if_pos ((hid x).trans hxid)⟩
    rw [hrecs]
    exact List.mem_map_of_mem hx
  · show ∀ l ∈ (s.openGang r).lines, _
    rw [hlines]
    exact hun

theorem State.unstaged_publish (s : State) (id : Nat) : (s.publish id).Unstaged id := by
  intro l hl hshadow
  obtain ⟨x, -, rfl⟩ := List.mem_map.1 hl
  split
  · exact fun h => by cases h
  · next hc =>
    rw [if_neg hc] at hshadow
    intro hst
    exact hc (by simp [hst, hshadow])

/-- The first that satisfies one condition, where it satisfies the other as well. -/
theorem find?_and {α : Type} {p c : α → Bool} {l : List α} {a : α} (h : l.find? p = some a) (hc : c a = true) :
    l.find? (fun x => p x && c x) = some a := by
  obtain ⟨hp, before, after, rfl, hbefore⟩ := List.find?_eq_some_iff_append.1 h
  refine List.find?_eq_some_iff_append.2 ⟨by simp [hp, hc], before, after, rfl, fun x hx => ?_⟩
  have := hbefore x hx
  simp_all

theorem State.finishRec_refused (hr : (s.recs.find? fun x => x.id = r.id) = some r) (hprimary : r.primary = 0) (hover : r.over = true)
    (hend : r.terminated = true ∨ r.closed = true) : s.finishRec r.id = (s.publish r.id).endRec r 4 := by
  have hfind := find?_and (find?_and hr (c := fun x => decide (x.primary = 0)) (by simp [hprimary])) (c := Rec.over) hover
  rw [State.finishRec, hfind]
  exact if_pos (by simpa using hend)

/-- The release of a record (R325, R360): its lines are published. -/
def State.released (s : State) (id : Nat) : State := (s.publish id).modRec id fun x => { x with succ := 1 }

theorem State.find_released (hr : (s.recs.find? fun x => x.id = r.id) = some r) :
    ((s.released r.id).recs.find? fun x => x.id = r.id) = some { r with succ := 1 } := by
  have hid : ((fun x : Rec => decide (x.id = r.id)) ∘ fun x : Rec => if x.id = r.id then { x with succ := 1 } else x)
      = fun x => decide (x.id = r.id) := by
    funext x
    simp only [Function.comp]
    split <;> rfl
  show (s.recs.map _).find? _ = _
  rw [List.find?_map, hid, hr]
  exact congrArg some (if_pos rfl)

theorem State.finishRec_done (hr : (s.recs.find? fun x => x.id = r.id) = some r) (hprimary : r.primary = 0) (hover : r.over = true)
    (hterm : r.terminated = false) (hclosed : r.closed = false) (haudit : r.audit ≠ .selected)
    (hidle : s.hostIdle r.q r.ctx.asid = true) (hsucc : r.succ = 0) (hnone : rfld r.image 185 7 = 0) :
    s.finishRec r.id = (s.released r.id).endRec { r with succ := 1 } 3 := by
  have hfind := find?_and (find?_and hr (c := fun x => decide (x.primary = 0)) (by simp [hprimary])) (c := Rec.over) hover
  have hcomplete : (s.released r.id).completeRec r.id 130 = (s.released r.id).endRec { r with succ := 1 } 3 := by
    rw [State.completeRec, State.find_released hr]
    exact if_pos (by rw [hnone]; exact Nat.zero_lt_one)
  rw [State.finishRec, hfind]
  refine (if_neg (by simp [hterm, hclosed])).trans ((if_neg haudit).trans ((if_neg (by simp [hidle])).trans ?_))
  rw [← hcomplete]
  exact congrArg (fun t : State => t.completeRec r.id 130) (if_pos hsucc)

/-! The take (R320, R322). -/

/-- The record that a slot gives. -/
def Rec.ofSlot (id q n i : Nat) (im d : BitVec 512) (since : Nat) (audit : Audit) : Rec :=
  { id := id, q := q, queue := n, index := i, image := im, ref := refOf n i, ctx := ctxFrom q (rfld im 208 12) d 0,
    count := rfld im 192 16, st := 0, since := since, audit := audit }

def State.recordOf (s : State) (id q n i : Nat) (im d : BitVec 512) (ok : Bool) : Rec :=
  .ofSlot id q n i im d s.clk (if ok && s.selects q im i then .selected else .none)

/-- The record is listed in its slot's place, and its queue has advanced. -/
def State.listed (s : State) (r : Rec) (x : Queue) : State :=
  State.engineWrite (State.setQueue (State.engineWrite
    { s with recs := (s.recs.filter fun y => !(y.q = r.q && y.queue = r.queue && y.index % 65536 = r.index % 65536)) ++ [r] }
    r.q (slotVa x.base x.taken + 56) 2 (r.index % 65536)) { x with taken := r.index + 1 }) r.q (x.base + 8) 8 (r.index + 1)

/-- The state that a record takes (R320, R323). -/
def State.judged (s : State) (r : Rec) (ok : Bool) : State :=
  if !ok then (s.incRf (rSCH_STAT r.q) 0 16).setRecState r 4
  else if s.ctxClosed r.q r.ctx.num then s.setRecState r 4
  else if r.count = 0 then s.makeReady r else s.setRecState r 0

/-- `y` is `r` as the engine goes on with it. -/
def Rec.Goes (r y : Rec) : Prop :=
  y = { r with st := y.st, since := y.since, eprio := y.eprio, gangCores := y.gangCores, late := y.late }

theorem Rec.Goes.trans {x y z : Rec} (h : x.Goes y) (h' : y.Goes z) : x.Goes z := by
  unfold Rec.Goes at *
  rw [h', h]

theorem State.ctxRuns_of_bystanders {s t : State} (h : t.bystanders = s.bystanders) : t.ctxRuns = s.ctxRuns :=
  (congrArg Bystanders.ctxRuns h :)
theorem State.wgs_of_bystanders {s t : State} (h : t.bystanders = s.bystanders) : t.wgs = s.wgs := (congrArg Bystanders.wgs h :)

theorem State.listed_spec (s : State) (r : Rec) {x : Queue} (hx : x.q = r.q ∧ x.num = r.queue) : r ∈ (s.listed r x).recs
    ∧ ((s.listed r x).queue r.q r.queue).taken = r.index + 1 ∧ (s.listed r x).ctxRuns = s.ctxRuns := by
  have hrecs (t : State) (va k v : Nat) : (t.engineWrite r.q va k v).recs = t.recs := (t.recordless_engineWrite r.q va k v).recs
  have hruns (t : State) (va k v : Nat) : (t.engineWrite r.q va k v).ctxRuns = t.ctxRuns :=
    State.ctxRuns_of_bystanders (t.bystanders_engineWrite r.q va k v)
  refine ⟨?_, ?_, ?_⟩
  · rw [State.listed, hrecs, State.recs_setQueue, hrecs]
    exact List.mem_append_right _ (List.mem_singleton.2 rfl)
  · rw [State.listed, State.queue_congr (State.recordless_engineWrite _ r.q _ _ _).queues,
      State.queue_setQueue (x := { x with taken := r.index + 1 }) hx.1 hx.2]
  · rw [State.listed, hruns, State.ctxRuns_setQueue, hruns]

theorem State.setRecState_mem (h : r ∈ s.recs) : { r with st := st } ∈ (s.setRecState r st).recs := by
  rw [(s.setRecState_recordless r st).recs]
  exact List.mem_map.2 ⟨r, h, if_pos rfl⟩

theorem State.recs_of_issueless {s t : State} (h : t.issueless = s.issueless) : t.recs = s.recs := (congrArg State.recs h :)
theorem State.queues_of_issueless {s t : State} (h : t.issueless = s.issueless) : t.queues = s.queues := (congrArg State.queues h :)

/-- Cores that close to placement change neither records nor queues. -/
theorem State.closeCores_spec (s : State) (cs : List Nat) (by_ : Closer) :
    (s.closeCores cs by_).recs = s.recs ∧ (s.closeCores cs by_).queues = s.queues :=
  ⟨foldl_keeps State.recs (by intro t n; rfl) cs s, foldl_keeps State.queues (by intro t n; rfl) cs s⟩

theorem State.vacStep_spec (s : State) (v : Vac) : (s.vacStep v).recs = s.recs ∧ (s.vacStep v).queues = s.queues := by
  rw [State.vacStep]
  dsimp only
  split
  · exact ⟨foldl_keeps State.recs (f := fun t (w : Workgroup) => t.preempt w.id) (fun t w => State.recs_of_issueless (t.issueless_preempt w.id)) _ s,
      foldl_keeps State.queues (f := fun t (w : Workgroup) => t.preempt w.id) (fun t w => State.queues_of_issueless (t.issueless_preempt w.id)) _ s⟩
  · exact s.closeCores_spec v.cores v.by_

/-- The gang status word (R331). -/
theorem State.recordless_writeGang (s : State) (r : Rec) (late started : Bool) : s.Recordless (s.writeGang r late started) := by
  have hacc {a : Acc1} {t : State} (h : s.asidAcc r.q r.ctx.asid (rfld r.image 384 57) = some (a, t)) : a.who = none ∧ s.Recordless t := by
    rw [State.asidAcc] at h
    split at h
    · split at h
      · cases h
      · cases h
        exact ⟨rfl, s.recordless_walk _ _ _⟩
    · cases h
  rw [State.writeGang]
  split
  · exact .refl s
  · next a t heq =>
    obtain ⟨ha, ht⟩ := hacc heq
    exact ht.trans (State.recordless_putEngine _ ha _ _)

theorem State.gangReady_of_no_gang (s : State) (h : rfld r.image 384 57 = 0) : s.gangReady r = s := if_pos h

/-- The cores `v` are to be vacated for a gang. -/
def State.gangVacated (s : State) (r : Rec) (v : List Nat) (late : Bool) : State :=
  (s.vacateCores v (.gang r.id)).modRec r.id fun r => { r with gangCores := v, late := late }

theorem State.gangVacated_spec {x : Rec} (hx : x ∈ s.recs) (v : List Nat) (late : Bool) :
    (∃ y ∈ (s.gangVacated r v late).recs, x.Goes y) ∧ (s.gangVacated r v late).queues = s.queues := by
  obtain ⟨hrecs, hqueues⟩ := State.vacStep_spec { s with vacReqs := s.vacReqs ++ [⟨v, .gang r.id⟩] } ⟨v, .gang r.id⟩
  refine ⟨⟨if x.id = r.id then { x with gangCores := v, late := late } else x, List.mem_map.2 ⟨x, ?_, rfl⟩, ?_⟩, hqueues⟩
  · rw [State.vacateCores, hrecs]
    exact hx
  · split <;> rfl

/-- A gang's vacation: a record goes on. -/
theorem State.gangReady_spec {x : Rec} (hx : x ∈ s.recs) : (∃ y ∈ (s.gangReady r).recs, x.Goes y) ∧ (s.gangReady r).queues = s.queues := by
  have hsame : (∃ y ∈ s.recs, x.Goes y) ∧ s.queues = s.queues := ⟨⟨x, hx, rfl⟩, rfl⟩
  have hvacated (v : List Nat) (late : Bool) :
      (∃ y ∈ (if late then (s.gangVacated r v late).writeGang r true false else s.gangVacated r v late).recs, x.Goes y)
      ∧ (if late then (s.gangVacated r v late).writeGang r true false else s.gangVacated r v late).queues = s.queues := by
    split
    · have hw := (s.gangVacated r v late).recordless_writeGang r true false
      rw [hw.recs, hw.queues]
      exact State.gangVacated_spec hx v late
    · exact State.gangVacated_spec hx v late
  rw [State.gangReady]
  split
  · exact hsame
  · dsimp only
    split
    · exact hsame
    · split
      · exact hsame
      · exact hvacated _ _

theorem State.makeReady_spec (h : r ∈ s.recs) : (∃ y ∈ (s.makeReady r).recs, r.Goes y
      ∧ (rfld r.image 384 57 = 0 → y.st = 1 ∧ y.eprio = r.startPrio)) ∧ (s.makeReady r).queues = s.queues := by
  have hstate := s.setRecState_recordless r 1
  have hmem : { r with st := 1, since := s.clk, eprio := r.startPrio } ∈
      ((s.setRecState r 1).modRec r.id fun x => { x with since := s.clk, eprio := r.startPrio }).recs := by
    refine List.mem_map.2 ⟨{ r with st := 1 }, ?_, if_pos rfl⟩
    rw [hstate.recs]
    exact List.mem_map.2 ⟨r, h, if_pos rfl⟩
  have hqueues : ((s.setRecState r 1).modRec r.id fun x => { x with since := s.clk, eprio := r.startPrio }).queues = s.queues :=
    (State.queues_modRec ..).trans (hstate.queues.trans (State.queues_modRec ..))
  obtain ⟨⟨y, hy, hgoes⟩, hq⟩ := State.gangReady_spec (r := r) hmem
  refine ⟨?_, hq.trans hqueues⟩
  by_cases hgang : rfld r.image 384 57 = 0
  · rw [State.makeReady, State.gangReady_of_no_gang _ hgang]
    exact ⟨_, hmem, rfl, fun _ => ⟨rfl, rfl⟩⟩
  · exact ⟨y, hy, Rec.Goes.trans (y := { r with st := 1, since := s.clk, eprio := r.startPrio }) rfl hgoes, fun h => absurd h hgang⟩

/-- The state that a record takes. -/
theorem State.judged_spec {ok : Bool} (h : r ∈ s.recs) : (∃ y ∈ (s.judged r ok).recs, r.Goes y ∧ (ok = false → y.st = 4)
      ∧ (ok = true → s.ctxClosed r.q r.ctx.num = false → r.count ≠ 0 → y.st = 0)
      ∧ (ok = true → s.ctxClosed r.q r.ctx.num = false → r.count = 0 → rfld r.image 384 57 = 0 → y.st = 1 ∧ y.eprio = r.startPrio))
    ∧ (s.judged r ok).queues = s.queues := by
  have hset (t : State) (st : Nat) (ht : t.recs = s.recs) (hq : t.queues = s.queues) :
      { r with st := st } ∈ (t.setRecState r st).recs ∧ (t.setRecState r st).queues = s.queues :=
    ⟨State.setRecState_mem (by rw [ht]; exact h), (t.setRecState_recordless r st).queues.trans ((State.queues_modRec ..).trans hq)⟩
  rw [State.judged]
  cases ok with
  | false =>
    obtain ⟨hmem, hq⟩ := hset (s.incRf (rSCH_STAT r.q) 0 16) 4 rfl rfl
    exact ⟨⟨_, hmem, rfl, fun _ => rfl, nofun, nofun⟩, hq⟩
  | true =>
    simp only [Bool.not_true, Bool.false_eq_true, if_false]
    by_cases hclosed : s.ctxClosed r.q r.ctx.num = true
    · obtain ⟨hmem, hq⟩ := hset s 4 rfl rfl
      rw [if_pos hclosed]
      exact ⟨⟨_, hmem, rfl, nofun, fun _ h => by simp [hclosed] at h, fun _ h => by simp [hclosed] at h⟩, hq⟩
    · rw [if_neg hclosed]
      by_cases hcount : r.count = 0
      · rw [if_pos hcount]
        obtain ⟨⟨y, hy, hgoes, hready⟩, hq⟩ := State.makeReady_spec h
        exact ⟨⟨y, hy, hgoes, nofun, fun _ _ h => absurd hcount h, fun _ _ _ => hready⟩, hq⟩
      · rw [if_neg hcount]
        obtain ⟨hmem, hq⟩ := hset s 0 rfl rfl
        exact ⟨⟨_, hmem, rfl, nofun, fun _ _ _ => rfl, fun _ _ h => absurd h hcount⟩, hq⟩

theorem State.ctxRuns_of_readless {s t : State} (h : t.readless = s.readless) : t.ctxRuns = s.ctxRuns := (congrArg State.ctxRuns h :)

theorem State.ctxClosed_congr {s t : State} (h : t.ctxRuns = s.ctxRuns) (q c : Nat) : t.ctxClosed q c = s.ctxClosed q c := by
  rw [State.ctxClosed, State.ctxClosed, h]

/-- The record of a slot that is taken. -/
theorem State.takeSlot_takes {v id : Nat} {s1 s2 s3 : State} {im d : BitVec 512} {ok : Bool} (hlead : s.leads q = true)
    (hen : (s.queue q n).en = true) (hctl : s.rf (rSCH_CTL q) 0 1 = 1)
    (hread : s.engineRead q (slotVa (s.queue q n).base (s.queue q n).taken) 64 = (.ok v, s1)) (him : BitVec.ofNat 512 v = im)
    (hst : rfld im 464 3 = 1) (hkept : s1.slotKept q n (s.queue q n).taken im = false) (hdesc : s1.descOf q (rfld im 208 12) = (d, s2))
    (hok : (recordOk im && bitAt (d.extractLsb' 128 64) n && decide (rfld d 1 1 = rfld im 220 1)) = ok) (hfresh : s2.fresh = (id, s3)) :
    (s.takeSlot q n).2 =
      ((s3.listed (s3.recordOf id q n (s.queue q n).taken im d ok) (s.queue q n)).judged
        (s3.recordOf id q n (s.queue q n).taken im d ok) ok).updateLimit q n false := by
  rw [State.takeSlot]
  dsimp only
  rw [if_neg (by simp [hlead, hen, hctl]), hread]
  dsimp only
  rw [him, if_neg (by simp [hst, hkept]), hdesc]
  dsimp only
  rw [hok, hfresh]
  dsimp only
  generalize hx : s.queue q n = x
  rfl

theorem State.takeSlot_spec {v : Nat} {s1 : State} {im d : BitVec 512} {ok : Bool} (hlead : s.leads q = true)
    (hen : (s.queue q n).en = true) (hctl : s.rf (rSCH_CTL q) 0 1 = 1)
    (hread : s.engineRead q (slotVa (s.queue q n).base (s.queue q n).taken) 64 = (.ok v, s1)) (him : BitVec.ofNat 512 v = im)
    (hst : rfld im 464 3 = 1) (hkept : s1.slotKept q n (s.queue q n).taken im = false) (hdesc : (s1.descOf q (rfld im 208 12)).1 = d)
    (hok : (recordOk im && bitAt (d.extractLsb' 128 64) n && decide (rfld d 1 1 = rfld im 220 1)) = ok) :
    ((s.takeSlot q n).2.queue q n).taken = (s.queue q n).taken + 1
    ∧ ∃ y ∈ (s.takeSlot q n).2.recs, (∃ id since audit, (Rec.ofSlot id q n (s.queue q n).taken im d since audit).Goes y)
      ∧ (ok = false → y.st = 4)
      ∧ (ok = true → s1.ctxClosed q (rfld im 208 12) = false → rfld im 192 16 ≠ 0 → y.st = 0)
      ∧ (ok = true → s1.ctxClosed q (rfld im 208 12) = false → rfld im 192 16 = 0 → rfld im 384 57 = 0 →
        y.st = 1 ∧ y.eprio = min (rfld im 57 3) (rfld d 8 3)) := by
  obtain ⟨⟨d', s2⟩, hx⟩ : ∃ x, s1.descOf q (rfld im 208 12) = x := ⟨_, rfl⟩
  obtain rfl : d' = d := by rw [hx] at hdesc; exact hdesc
  have hs2 : s2.ctxRuns = s1.ctxRuns := by
    have h := s1.readless_readPhysN (s1.descPa q (rfld im 208 12)) 64
    have hs : (s1.readPhysN (s1.descPa q (rfld im 208 12)) 64).2 = s2 := congrArg Prod.snd hx
    rw [hs] at h
    exact State.ctxRuns_of_readless h
  obtain ⟨⟨id, s3⟩, hf⟩ : ∃ x, s2.fresh = x := ⟨_, rfl⟩
  have hs3 : s3.ctxRuns = s2.ctxRuns := by cases hf; rfl
  rw [State.takeSlot_takes hlead hen hctl hread him hst hkept hx hok hf]
  generalize hr : s3.recordOf id q n (s.queue q n).taken im d' ok = r
  obtain ⟨hmem, htaken, hruns⟩ := s3.listed_spec r (x := s.queue q n) (by rw [← hr]; exact s.queue_name q n)
  have hclosed : (s3.listed r (s.queue q n)).ctxClosed r.q r.ctx.num = s1.ctxClosed q (rfld im 208 12) := by
    rw [State.ctxClosed_congr (hruns.trans (hs3.trans hs2)), ← hr]
    rfl
  obtain ⟨⟨y, hy, hgoes, hrefused, hwaits, hready⟩, hqueues⟩ := State.judged_spec (ok := ok) hmem
  rw [hclosed] at hwaits hready
  generalize (s3.listed r (s.queue q n)).judged r ok = t at hy hqueues ⊢
  obtain ⟨hrecs, -, hlimit⟩ := t.updateLimit_spec q n false
  rw [hrecs, hlimit, State.queue_congr hqueues]
  subst hr
  exact ⟨htaken, y, hy, ⟨_, _, _, hgoes⟩, hrefused, hwaits, hready⟩

theorem State.takeSlot_kept {v : Nat} {s1 : State} (hlead : s.leads q = true) (hen : (s.queue q n).en = true) (hctl : s.rf (rSCH_CTL q) 0 1 = 1)
    (hread : s.engineRead q (slotVa (s.queue q n).base (s.queue q n).taken) 64 = (.ok v, s1))
    (hkept : s1.slotKept q n (s.queue q n).taken (BitVec.ofNat 512 v) = true) : (s.takeSlot q n).2 = s1 := by
  rw [State.takeSlot]
  dsimp only
  rw [if_neg (by simp [hlead, hen, hctl]), hread]
  dsimp only
  rw [if_pos (by simp [hkept])]

/-! Placement (R323, R324, R326). -/

/-- A wave as a workgroup starts it: its code, the argument address and the record's reference (R324). -/
def Wave.StartsAs (v : Wave) (im : BitVec 512) (ref : Word) (k : Nat) : Prop :=
  v.s 0 = BitVec.ofNat 64 (rfld im 64 57) ∧ v.s 1 = ref ∧ (∀ i, 2 ≤ i → v.s i = 0) ∧ (∀ i l, v.v i l = 0)
    ∧ (v.role, v.n) = recRole im k
    ∧ ∀ l, l < 64 → v.thread l = startThread (rfld im 0 57) (decide (64 * k + l ≤ rfld im 256 16))

theorem State.startWaves_length (s : State) (im : BitVec 512) (ref : Word) (cores : List Nat) (at_ : Nat) :
    (s.startWaves im ref cores at_).length = recWaves im := by
  rw [State.startWaves, List.length_map, List.length_range]

theorem State.startWaves_starts {im : BitVec 512} {ref : Word} {cores : List Nat} {at_ k : Nat} {v : Wave}
    (h : (s.startWaves im ref cores at_)[k]? = some v) : v.StartsAs im ref k := by
  have hk : k < recWaves im := by
    have := (List.getElem?_eq_some_iff.1 h).1
    rwa [State.startWaves_length] at this
  rw [State.startWaves, List.getElem?_map, List.getElem?_range hk] at h
  obtain rfl := Option.some.inj h
  have hs (i : Nat) : SMap.get 0 (SMap.put 0 (SMap.put 0 ([] : SMap Word) 0 (BitVec.ofNat 64 (rfld im 64 57))) 1 ref) i
      = if i = 1 then ref else if i = 0 then BitVec.ofNat 64 (rfld im 64 57) else 0 := by
    rw [SMap.get_put, SMap.get_put]
    rfl
  refine ⟨(hs 0).trans rfl, (hs 1).trans rfl, fun i hi => (hs i).trans ?_, fun _ _ => rfl, rfl, fun l hl => ?_⟩
  · rw [if_neg (by omega), if_neg (by omega)]
  · rw [Wave.thread, List.getD_eq_getElem?_getD, List.getElem?_map, List.getElem?_range hl]
    rfl

/-- The workgroup `k` of a record as it starts (R324). -/
structure Workgroup.StartsAs (w : Workgroup) (r : Rec) (c : Ctx) (k : Nat) : Prop where
  run : w.recId = r.id ∧ w.ref = r.ref ∧ w.wg = k ∧ w.ctx = c
  live : w.fate = .live
  shape : w.threads = rfld r.image 256 16 + 1 ∧ w.prio = min (rfld r.image 57 3) c.prioMax ∧ w.waves.length = recWaves r.image
  waves : ∀ (j : Nat) (v : Wave), w.waves[j]? = some v → v.StartsAs r.image r.ref j

theorem State.startWg_spec (s : State) (r : Rec) (c : Ctx) (k : Nat) (cores : List Nat) :
    ∃ w, (s.startWg r c k cores).wgs = s.wgs ++ [w] ∧ w.StartsAs r c k := by
  have harrive : (cores.foldl (fun t n => t.arrive c n) s).wgs = s.wgs :=
    foldl_keeps State.wgs (fun t n => congrArg Prod.fst (t.coreless_arrive c n)) cores s
  refine ⟨_, congrArg (· ++ [_]) harrive, ⟨⟨rfl, rfl, rfl, rfl⟩, rfl, ⟨rfl, rfl, State.startWaves_length ..⟩, fun j v hv => ?_⟩⟩
  exact State.startWaves_starts hv

theorem State.wgs_modRec (s : State) (id : Nat) (f : Rec → Rec) : (s.modRec id f).wgs = s.wgs := rfl

theorem State.wgs_setRecState (s : State) (r : Rec) (st : Nat) : (s.setRecState r st).wgs = s.wgs :=
  State.wgs_of_bystanders (s.bystanders_setRecState r st)

theorem State.wgs_writeGang (s : State) (r : Rec) (late started : Bool) : (s.writeGang r late started).wgs = s.wgs := by
  rw [State.writeGang]
  split
  · rfl
  · next a t heq =>
    have ht : t.wgs = s.wgs := by
      rw [State.asidAcc] at heq
      split at heq
      · split at heq
        · cases heq
        · cases heq
          exact State.wgs_of_bystanders (s.bystanders_walk _ _ _)
      · cases heq
    exact (State.wgs_of_bystanders (t.bystanders_putEngine _ _ _)).trans ht

/-- The record of a workgroup that was placed goes on: it runs, and a gang's first start is written (R331). -/
def State.runs (s : State) (r r1 : Rec) : State :=
  let t := if r.st = 1 then s.setRecState r 2 else s
  if decide (r.placed = 0) && rfld r.image 384 57 ≠ 0 then t.writeGang r1 r.late true else t

theorem State.wgs_runs (s : State) (r r1 : Rec) : (s.runs r r1).wgs = s.wgs := by
  have hst : (if r.st = 1 then s.setRecState r 2 else s).wgs = s.wgs := by
    split
    · exact s.wgs_setRecState r 2
    · rfl
  rw [State.runs]
  split
  · exact (State.wgs_writeGang ..).trans hst
  · exact hst

theorem State.placeNext_spec {ds : BitVec 512} {c : Ctx} {rs : List (Bool × Nat × Nat)} {cores : List Nat}
    (hdesc : s.descOf r.q r.ctx.num = (ds, s)) (hctx : s.ctxAt r.q r.ctx.num ds = (c, s)) (hgood : s.descBad r.q ds = false)
    (hranges : s.readRanges r c = (.ok rs, s)) (hsecure : s.ctxSecure r.q c = true) (hworld : bitAt (s.reg (rWLD_QUEUE r.q)) r.queue = c.world)
    (hper : recPer r.image ≤ 256)
    (hfit : ((s.coreSets r.q (recNeeds r.image).length c.world).any fun cs => zipAll s.capFits cs (recNeeds r.image)) = true)
    (hplace : s.canPlace r.q c.world r.id cores (recNeeds r.image) = true) :
    ∃ w, (s.placeNext r cores).1.wgs = s.wgs ++ [w] ∧ w.StartsAs r c r.placed := by
  have hgang (t : State) : (t.openGang r).wgs = t.wgs := State.wgs_of_bystanders (t.bystanders_openGang r)
  generalize ht : s.modRec r.id (fun x => { x with
    ctx := c, ranges := rs, staging := rfld r.image 61 1 = 1 || r.audit = .selected, since := s.clk }) = t
  have htwgs : t.wgs = s.wgs := by rw [← ht]; rfl
  obtain ⟨w, hw, hstarts⟩ := (t.openGang r).startWg_spec { r with ctx := c } c r.placed cores
  refine ⟨w, ?_, hstarts.run, hstarts.live, hstarts.shape, hstarts.waves⟩
  have hnext : (s.placeNext r cores).1 = (((t.openGang r).startWg { r with ctx := c } c r.placed cores).modRec r.id fun x =>
      { x with eprio := Rec.startPrio { r with ctx := c } }).runs r { r with ctx := c } := by
    rw [State.placeNext, hdesc]
    dsimp only
    rw [hctx]
    dsimp only
    rw [if_neg (by simp [hgood]), hranges]
    dsimp only
    rw [if_neg (by simp [hsecure, hworld, hper, hfit]), if_neg (by simp), if_neg (by simp [hplace]), ← ht]
    rfl
  rw [hnext, State.wgs_runs, State.wgs_modRec, hw, hgang, htwgs]

/-- The turn that placement keeps (R326). -/
theorem State.placeStep_spec {lv cost cur : Nat} {d : SMap Nat} {cores : List Nat} (hctl : s.rf (rSCH_CTL q) 0 1 = 1) (hlead : s.leads q = true)
    (hquiet : s.quiet q = false) (himages : s.images = []) (hr : r ∈ s.recs) (hq : r.q = q) (hwants : r.wants = true)
    (hlv : (s.recs.filter fun r => r.q = q && r.wants).foldl (fun a r => max a r.eprio) 0 = lv)
    (hdrr : drr (fun n => (s.oldestAt q lv n).map fun r => (r, recWaves r.image)) (fun n => max 1 (s.queue q n).quantum.toNat) 131072
      (SMap.get 0 s.turn (8 * q + lv))
      ((List.range 64).foldl (fun m n => SMap.put 0 m n (SMap.get 0 (s.queue q n).deficit lv)) []) = some (r, cost, cur, d)) :
    (s.placeStep q cores).wgs = (s.placeNext r cores).1.wgs := by
  have hcand : (s.recs.filter fun r => decide (r.q = q) && r.wants) ≠ [] :=
    List.ne_nil_of_mem (List.mem_filter.2 ⟨hr, by simp [hq, hwants]⟩)
  have hkeep (t : State) (d : SMap Nat) (cur : Nat) : ((List.range 64).foldl (fun (s : State) n =>
      if SMap.get 0 d n = SMap.get 0 (s.queue q n).deficit lv then s
      else s.setQueue { s.queue q n with deficit := SMap.put 0 (s.queue q n).deficit lv (SMap.get 0 d n) })
      { t with turn := SMap.put 0 t.turn (8 * q + lv) cur }).wgs = t.wgs := by
    refine (foldl_keeps State.wgs (fun u n => ?_) _ _).trans rfl
    split <;> rfl
  have hwork (t : State) (b : Bool) : (if b then t else t.noWork q lv cur).wgs = t.wgs := by
    split <;> rfl
  rw [State.placeStep]
  dsimp only
  rw [if_neg (by simp [hctl, hlead, hquiet, hcand]), himages, hlv, if_neg (by simp), hdrr]
  dsimp only
  rw [hwork]
  exact hkeep _ _ _

/-- Settles O42: what a take, a completion and a placement change of records, queues and workgroups; the queue engine's accesses
to slots and limits change none of them. -/
theorem recordsAndPlacement : Obligations.RecordsAndPlacement := by
  unfold Obligations.RecordsAndPlacement
  refine ⟨fun s => ⟨?take, ?aging, ?complete⟩, ?place⟩
  case take =>
    intro q n v s1 hs hlead x hen hctl hread im d ok hst hrecalls
    have hexec : exec (.recordTake q n) s = .next (s.takeSlot q n).2 :=
      congrArg Host.Outcome.next (State.transact_eq hs rfl hrecalls)
    refine ⟨fun hkept => hexec.trans (congrArg Host.Outcome.next (State.takeSlot_kept hlead hen hctl hread hkept)), fun hkept => ?_⟩
    obtain ⟨htaken, y, hy, ⟨id, since, audit, hgoes⟩, hrefused, hwaits, hready⟩ :=
      State.takeSlot_spec hlead hen hctl hread rfl hst hkept rfl (ok := ok) rfl
    have hcount : y.count = rfld im 192 16 := by rw [hgoes]; rfl
    refine ⟨_, y, hexec, hy, ?_⟩
    rw [hcount]
    exact ⟨by rw [hgoes]; rfl, by rw [hgoes]; rfl, by rw [hgoes]; rfl, by rw [hgoes]; rfl, rfl, by rw [hgoes]; rfl, by rw [hgoes]; rfl, htaken,
      hrefused, hwaits, hready⟩
  case aging =>
    intro r hr hwants hclk
    refine congrArg Host.Outcome.next ?_
    rw [State.ageRec, hr]
    exact if_pos (by simp [hwants, hclk])
  case complete =>
    intro r hs hr hprimary hover ends s1
    have hmem : ∃ x ∈ s.recs, x.id = r.id := ⟨r, List.mem_of_find?_eq_some hr, rfl⟩
    have hends (t : State) (r' : Rec) (st : Nat) (hid : r'.id = r.id) (hfinish : s.finishRec r.id = t.endRec r' st)
        (hrecalls : (t.endRec r' st).recalls = []) (ht : ∃ x ∈ t.recs, x.id = r.id) (hun : t.Unstaged r.id) : ends st := by
      rw [← hid] at ht hun
      obtain ⟨⟨x, hx, hxid, hxst⟩, hleft⟩ := State.endRec_spec (st := st) ht hun
      rw [hid] at hleft hxid
      exact ⟨_, x, congrArg Host.Outcome.next (State.transact_eq hs hfinish hrecalls), hx, hxid, hxst, hleft⟩
    refine ⟨fun hbad hrecalls => ?_, fun hterm hclosed haudit hidle hsucc hnone hrecalls => ?_⟩
    · exact hends (s.publish r.id) r 4 rfl (State.finishRec_refused hr hprimary hover hbad) hrecalls hmem (s.unstaged_publish r.id)
    · have hreleased := List.mem_of_find?_eq_some (State.find_released hr)
      exact hends (s.released r.id) { r with succ := 1 } 3 rfl
        (State.finishRec_done hr hprimary hover hterm hclosed haudit hidle hsucc hnone) hrecalls ⟨_, hreleased, rfl⟩ (s.unstaged_publish r.id)
  case place =>
    intro s q cores r cost cur d ds c rs hs hctl hlead hquiet himages lv hr hq hwants hdrr hdesc hctx hgood hranges hsecure hworld hper hfit
      hplace hrecalls
    subst hq
    obtain ⟨w, hw, ⟨hrec, href, hwg, hc⟩, hlive, ⟨hthreads, hprio, hwaves⟩, hwave⟩ :=
      State.placeNext_spec hdesc hctx hgood hranges hsecure hworld hper hfit hplace
    have hstep := State.placeStep_spec (cores := cores) hctl hlead hquiet himages hr rfl hwants rfl hdrr
    exact ⟨_, w, congrArg Host.Outcome.next (State.transact_eq hs rfl hrecalls), hstep.trans hw, hrec, href, hwg, hc, hlive, hthreads, hprio,
      hwaves, hwave⟩

end Sys2Proof.Machine
end
